-- ==== Sys2Proof/Word.lean ====
section
/-!
DEFINITION. The words of the Ikielm block, its time stamp and byte strings (00 R13, R14).
-/

namespace Sys2Proof

/-- A byte of a record, slot, image or cell. -/
abbrev Byte := BitVec 8

/-- A 32-bit register word (20 R513). -/
abbrev Word := BitVec 32

/-- A 64-bit word. -/
abbrev DWord := BitVec 64

/-- A byte string, lowest offset first (00 R13: little-endian fields). -/
abbrev Bytes := List Byte

/-- What reads of host memory returned: the bytes that differ from zero, and the 64-byte lines (by address) that came
back poisoned or whose request ended with a fault (02 R58). -/
structure HostView where
  bytes    : List (Nat × Byte)
  poisoned : List Nat
  faults   : List Nat
  deriving DecidableEq, Repr

/-- Ikielm time (00 R14): TAI seconds, nanoseconds and a fraction of a nanosecond. -/
structure ITime where
  sec  : BitVec 64
  ns   : BitVec 32
  frac : BitVec 32
  deriving DecidableEq, Repr

/-- The two profiles (00 R2). -/
inductive Profile where
  | leaf
  | tray
  deriving DecidableEq, Repr, Inhabited

/-- The roles of a tray block (00 R3). -/
inductive Role where
  | tray
  | chassis
  | summit
  deriving DecidableEq, Repr

/-- The members of a rope team (02 R79). -/
inductive Side where
  | a
  | b
  deriving DecidableEq, Repr

/-- The register access paths of 20 R514; each keeps its own latches (R515). -/
inductive Path where
  | sideband
  | regRead
  | fabric
  deriving DecidableEq, Repr

/-- Units of Ikielm time used by the model: 2^-32 ns. -/
abbrev Ticks := Nat

end Sys2Proof
end

