-- ==== Sys2Proof/Config.lean ====
section
/-!
DEFINITION. What an image or an implementation fixes: the settings of a configuration image (21 R537), the
images that Gloluper builds (07 R198, 10 R280, 11 R313 to R320, 12 R331, R334), and the constants without a body
that stand for named standards the spec does not restate (cryptography; assumption 4).
-/

namespace Sys2Proof

/-! ## Images -/

/-- The operators of 07 R192, with their codes. -/
inductive RedOp where
  | none | sum | min | max | histLin | histLog2 | count | or | and | topk | quant
  deriving DecidableEq, Repr

/-- A reduction-plan descriptor (07 R198). -/
structure PlanField where
  opT : RedOp
  opC : RedOp
  opF : RedOp
  signed : Bool
  liftC : Bool
  liftF : Bool
  srcKind : Nat
  srcId : Nat
  p0 : BitVec 64
  p1 : BitVec 64
  p2 : BitVec 32
  deriving DecidableEq, Repr

/-- A reduction plan (07 R198): its id, the three body lengths of its header and its fields. -/
structure Plan where
  planId : Nat
  lenT : Nat
  lenC : Nat
  lenF : Nat
  fields : List PlanField
  deriving DecidableEq, Repr

/-- Column formats of 11 R313, in code order. -/
inductive ColFormat where
  | i32 | u32 | q16 | f32 | cat | i64 | cnt32
  deriving DecidableEq, Repr

/-- Column operations of 11 R313, in code order. -/
inductive ColOp where
  | loaded | add | min | max | hbin | ewma | cusum | shift
  deriving DecidableEq, Repr

/-- A column descriptor (11 R313). -/
structure Column where
  colId : Nat
  format : ColFormat
  op : ColOp
  word : Nat
  nwords : Nat
  win : Nat
  missing : BitVec 32
  p0 : BitVec 64
  p1 : BitVec 32
  dec : Bool
  missEn : Bool
  seedMetric : Nat
  seedStat : Nat
  deriving DecidableEq, Repr

/-- An update-list entry (11 R314). -/
structure UpdEntry where
  colId : Nat
  srcKind : Nat
  shift : Nat
  right : Bool
  srcId : Nat
  le0 : Nat
  rep : Nat
  sstride : Nat
  estride : Nat
  deriving DecidableEq, Repr

/-- A feature-table image (09 R254, R262): `slot` is KIND SLOT, otherwise BACK; `ring1s` and `ring1m` are the lengths of
the history rings of a row; `entities` gives the entity of each row. -/
structure TableImg where
  tableId : Nat
  slot : Bool
  rowLen : Nat
  ch0 : Nat
  ring1s : Nat
  ring1m : Nat
  cols : List Column
  upds : List UpdEntry
  entities : List (BitVec 32)
  deriving DecidableEq, Repr

/-- Transforms of 10 R280, in code order. -/
inductive Transform where
  | none | logistic | softmax | iso
  deriving DecidableEq, Repr

/-- A feature-map entry (10 R282). -/
structure FeatEntry where
  word : Nat
  ftype : Nat
  missEn : Bool
  missing : BitVec 32
  deriving DecidableEq, Repr

/-- What a table image gives (09 R254), with its descriptors (11 R313) and update entries (R314) as bytes. -/
structure TableParts where
  tableId : Nat
  kind : Nat
  rowLen : Nat
  ch0 : Nat
  ring1s : Nat
  ring1m : Nat
  cols : List Bytes
  upds : List Bytes
  entities : List (BitVec 32)
  deriving DecidableEq, Repr

/-- What a model image holds behind its header (10 R280 to R284): directory, feature-map entries, nodes, set tables. -/
structure ModelParts where
  dir : List Nat
  fmap : List (BitVec 64)
  nodes : List (BitVec 128)
  sets : List Bytes
  deriving DecidableEq, Repr

/-- What a placement image holds (11 R320, R324, R331): entries and verdict rules as bytes, and the entries of each
fallback with its lane count. -/
structure PlaceParts where
  entries : List Bytes
  rules : List Bytes
  fallbacks : List (Nat × List Bytes)
  deriving DecidableEq, Repr

/-- A model image (10 R280 to R284): header fields, tree directory, feature map, nodes and set tables. The header
bytes are kept, since 16 R437 compares them. -/
structure Model where
  modelId : Nat
  ctx : Nat
  nOut : Nat
  gen : BitVec 16
  transform : Transform
  streamed : Bool
  ntrees : Nat
  nfeat : Nat
  maxDepth : Nat
  maxWin : Nat
  cpsi : Nat
  base : List Int
  header : Bytes
  dir : List Nat
  fmap : List FeatEntry
  nodes : List (BitVec 128)
  sets : List Bytes
  deriving DecidableEq, Repr

/-- A placement entry (11 R320). `deep` is MODE DEEP. -/
structure PlaceEntry where
  modelId : Nat
  tableId : Nat
  deep : Bool
  lanes : Nat
  nsets : Nat
  lane0 : Nat
  period : Nat
  nbatch : Nat
  row0 : Nat
  nrows : Nat
  goff : Nat
  deriving DecidableEq, Repr

/-- A verdict rule (12 R331). -/
structure VerdictRule where
  modelId : Nat
  drift : Bool
  radio : Bool
  useRaw : Bool
  jA : Nat
  jB : Option Nat
  tLo : Int
  tHi : Int
  tB : Int
  deriving DecidableEq, Repr

/-- A placement image: entries, verdict rules, and the fallbacks of 11 R324 by in-service lane count. -/
structure Placement where
  entries : List PlaceEntry
  rules : List VerdictRule
  fallbacks : List (Nat × List PlaceEntry)
  deriving DecidableEq, Repr

/-- Action kinds of 12 R334, in code order. -/
inductive ActKind where
  | mark | capDie | capTray
  deriving DecidableEq, Repr

/-- A row of the action table (12 R334). -/
structure ActRow where
  modelId : Nat
  verdict : Nat
  kind : ActKind
  cap : Nat
  hold : Nat
  deriving DecidableEq, Repr

/-! ## The settings of a configuration image -/

/-- What a wired lane is for (02 R67). `down n` is a down lane of contributor slot n; `up s` and `peer t` name the
parent side and the summit rope team; `belay n` and `fabric n` are members of their bundles. -/
inductive LaneUse where
  | down (slot : Nat)
  | up (side : Side)
  | peer (team : Nat)
  | belay (n : Nat)
  | fabric (n : Nat)
  | spare
  deriving DecidableEq, Repr

/-- The plan of one wired lane (02 R65 to R68, 06 R183). `partners` lists its sparing partners in ascending order, `pinned`
the streams that a lane of a bundle carries: 0 is VC1, 1 is VC3, 2 + s is VC2 in share s. -/
structure LanePlan where
  lane : Nat
  use : LaneUse
  active : Bool
  txlat : BitVec 24
  rxlat : BitVec 24
  asym : Int
  partners : List Nat
  pinned : List Nat
  deriving DecidableEq, Repr

/-- A stook of the counter map (04 R114, 14 R377): its assignment unit, and the engine of each of its counters. -/
structure StookCfg where
  s : Nat
  n : Nat
  aligned : Bool
  unit : Nat
  engines : List Nat
  deriving DecidableEq, Repr

/-- An engine of a leaf (04 R114, 14 R377): its assignment unit and its initial context. -/
structure EngineCfg where
  engine : Nat
  unit : Nat
  ctx : Nat
  deriving DecidableEq, Repr

/-- A scan-plan segment (08 R240). -/
structure ScanSeg where
  segId : BitVec 32
  ir : BitVec 32
  irLen : Nat
  drLen : Nat
  verify : Bool
  deriving DecidableEq, Repr

/-- A binding of a USER metric (19 R495): the health index, the aggregation (0 MAX, 1 MIN, 2 SUM), OFFSET and O_LO. -/
structure UserMetric where
  u : Nat
  health : Nat
  agg : Nat
  offset : Int
  olo : Nat
  deriving DecidableEq, Repr

/-- The settings that a configuration image holds (21 R537), each under the name its chapter gives it. -/
structure Cfg where
  role : Role
  side : Side
  leafId : Nat
  team : Nat
  summitTeam : Nat
  shareCount : Nat
  ctx0Gen : BitVec 16
  epochNs : Nat
  taiUtc : Int
  slotTol : Nat
  slotSyncUse : Bool
  memberWait : Nat
  ckptEpochs : Nat
  statusEpochs : Nat
  startWaitNs : Nat
  lanes : List LanePlan
  denyList : List (BitVec 64)
  mgPhyTx : BitVec 24
  mgPhyRx : BitVec 24
  transmitters : List Nat
  mgmtSources : List Nat
  hasMgmt : Bool
  /-- The leaves below each child slot, and the counter map of each leaf slot (assumption 13). -/
  scope : List (Nat × List Nat)
  slotStooks : List (Nat × List StookCfg)
  slotEngines : List (Nat × List EngineCfg)
  /-- Leaves, trays and chassis of the fleet, for a summit member (05 R153; assumption 36). -/
  fleetSubjects : Nat
  regions : List (Nat × Nat)
  stooks : List StookCfg
  engines : List EngineCfg
  coreUnits : List (Nat × List Nat)
  recSizes : List (Nat × Nat)
  stopTreeNs : Nat
  stopDoneWaitNs : Nat
  stopHoldMaxNs : Nat
  drnWinNs : Nat
  hfBwGbps : Nat
  twBudget : Nat
  feedPollNs : Nat
  glmDump : Bool
  scanPlan : List ScanSeg
  leafTables : List TableImg
  leafModels : List Model
  leafPlacement : Placement
  grantStale : Nat
  stepUp : Nat
  stepDn : Nat
  hangEpochs : Nat
  resetScopeBlock : Bool
  autoAttach : Bool
  transientLimit : Nat
  scrubMin : Nat
  marginCrit : Nat
  marginLo : Nat
  marginHi : Nat
  vmMax : Nat
  cmdBase0 : Nat
  cmdBase16 : Nat
  retBase0 : Nat
  retBase16 : Nat
  userMetrics : List UserMetric
  deriving DecidableEq, Repr

/-- The stated defaults (01 R30, R41; 03 R84, R102; 07 R217; 08 R230, R233, R239, R241, R243; 09 R248; 12 R337, R340;
15 R421; 17 R447, R451, R459; 18 R464, R468, R486; 21 R549). SHARE_COUNT and CTX0_GEN have none and are PRESUMED 1
and 0 here (assumption 6): they stand only until an image is applied. -/
def Cfg.default : Cfg where
  role := .tray
  side := .a
  leafId := 0
  team := 0
  summitTeam := 0
  shareCount := 1
  ctx0Gen := 0
  epochNs := 125000
  taiUtc := 37
  slotTol := 50
  slotSyncUse := false
  memberWait := 16
  ckptEpochs := 8000
  statusEpochs := 8
  startWaitNs := 2000000000
  lanes := []
  denyList := []
  mgPhyTx := 0
  mgPhyRx := 0
  transmitters := []
  mgmtSources := []
  hasMgmt := false
  scope := []
  slotStooks := []
  slotEngines := []
  fleetSubjects := 0
  regions := [(0x000000000000, 512), (0x008000000000, 256), (0x00C000000000, 128),
    (0x00E000000000, 64), (0x00F000000000, 64)].map fun r => (r.1, r.2 * 2 ^ 30)
  stooks := []
  engines := []
  coreUnits := []
  recSizes := []
  stopTreeNs := 0
  stopDoneWaitNs := 10000
  stopHoldMaxNs := 10000000000
  drnWinNs := 10000
  hfBwGbps := 0
  twBudget := 20
  feedPollNs := 4000
  glmDump := false
  scanPlan := []
  leafTables := []
  leafModels := []
  leafPlacement := { entries := [], rules := [], fallbacks := [] }
  grantStale := 64
  stepUp := 4
  stepDn := 128
  hangEpochs := 8
  resetScopeBlock := false
  autoAttach := true
  transientLimit := 64
  scrubMin := 10
  marginCrit := 3
  marginLo := 6
  marginHi := 12
  vmMax := 40
  cmdBase0 := 0
  cmdBase16 := 0
  retBase0 := 0
  retBase16 := 0
  userMetrics := []

/-! ## Constants without a body

Each stands for a published standard that the spec names and does not restate. Nothing in Lean can evaluate them
(assumption 4), except `settingsOf`, which stands for the item layouts that Gloluper writes (21 R537; assumption 5). -/

/-- Where the spec gives a quotient and not its rounding, whether the next integer above the floor is taken: a free
value (assumption 7). -/
opaque Config.roundUp : Int → Nat → Bool

/-- The SRAM memories of the block by what they protect (17 R450): sample ring, leaf feature buffer or Granary, lane
memories, buffers and steward. -/
inductive SramKind where
  | ring | feature | lanes | buffer
  deriving DecidableEq, Repr, Inhabited

/-- The memory that an SRAM bank belongs to. The spec does not lay the banks out: a free value (assumption 151). -/
opaque Config.bankKind : Nat → SramKind

/-- A line of a landing, trace or watch buffer (17 R450): of the landed record of a slot and epoch, of the open trace
message of a share, of the dump part of a context. -/
inductive BufLine where
  | landed (slot k line : Nat)
  | trace (ctx line : Nat)
  | dump (ctx line : Nat)
  deriving DecidableEq, Repr, Inhabited

/-- The buffer lines that a row of an SRAM bank holds: a free value (assumption 151). -/
opaque Config.bufferLines : Nat → Nat → List BufLine

/-- A ring-oscillator reading normalised to 85 °C (17 R458), from the coefficient word of OTP, the reading and the time
at which it was taken. The spec gives the coefficient and neither the temperature nor the rounding: a free value
(assumption 162). -/
opaque Config.roNormal : BitVec 32 → Nat → Nat → Nat

/-- The lines of the sample ring that a row of an SRAM bank holds: the slot 0 to 15, whether the line lies in the annex
part, and the line. The spec does not lay the banks out: a free value (assumption 151). -/
opaque Config.ringLines : Nat → Nat → List (Nat × Bool × Nat)

/-- The payload bytes of the control messages whose fields the spec names and does not lay out (HOLD_NOTICE,
MEMBER_QUERY, MEMBER_ANSWER, MEMBER_DECIDE, LEAF_STATUS): MTYPE and the fields. A free value (assumption 10). -/
opaque Config.ctlPayload : Nat → List Nat → Bytes

/-- The message of VC2 that carries a fabric operation on a fabric lane (06 R168): kind 0 STORE64, 1 FADD, 2 FLAG, with
its address and data. The layout is open (assumption 10). -/
opaque Config.fabricMsg : Nat → Nat → Bytes → Bytes

/-- SHA-384 of a byte string (48 bytes). -/
opaque Config.sha384 : Bytes → Bytes

/-- PLAN_ID of a sheaf whose context has no plan in force: no rule gives it (05 R141; assumption 46). -/
opaque Config.noPlanId : BitVec 16

/-- What a byte of HBM reads as whose key has been destroyed (09 R269; assumption 184). -/
opaque Config.staleByte : Nat → Byte

/-- What the sample ring holds in slot k where nothing of cut k has been written yet: area and byte (04 R126). -/
opaque Config.ringByte : Nat → Nat → Nat → Byte

/-- An IEEE 1588 message as the port sends it, its timestamps inserted, and the checksum of UDP over IPv6 of it: named
standards (03 R97, R98; assumption 4). -/
opaque Config.ptpBytes : Nat → BitVec 16 → Nat → Nat → Bytes
opaque Config.udpChecksum : Bytes → BitVec 16

/-- HKDF-Extract with SHA-384: salt, then input key material. -/
opaque Config.hkdfExtract : Bytes → Bytes → Bytes

/-- HKDF-Expand with SHA-384: PRK, info, output length. -/
opaque Config.hkdfExpand : Bytes → Bytes → Nat → Bytes

/-- The ECDH P-384 shared x-coordinate of a private scalar and a public key. -/
opaque Config.ecdh : Bytes → Bytes → Bytes

/-- The P-384 public key of a private scalar (97 bytes, uncompressed). -/
opaque Config.p384Public : Bytes → Bytes

/-- ECDSA P-384 signature (96 bytes): private scalar, digest. -/
opaque Config.ecdsaSign : Bytes → Bytes → Bytes

/-- ECDSA P-384 verification: public key, digest, signature. -/
opaque Config.ecdsaVerify : Bytes → Bytes → Bytes → Bool

/-- X.509 v3 verification of a certificate (DER) under an issuer's public key. -/
opaque Config.certVerify : Bytes → Bytes → Bool

/-- The public key, profile, version and DEVICE_ID that a certificate chain names (19 R509). -/
opaque Config.certKey : Bytes → Bytes
opaque Config.certProfile : Bytes → Profile
opaque Config.certVersion : Bytes → BitVec 32
opaque Config.certDeviceId : Bytes → BitVec 64

/-- The alias certificate that the DeviceID key issues at a start (19 R509): DeviceID scalar, alias public key,
profile, version, svn, M. -/
opaque Config.aliasCert : Bytes → Bytes → Profile → BitVec 32 → BitVec 16 → Bytes → Bytes

/-- The Tvedloth root public key in SEC ROM (19 R508). -/
opaque Config.rootKey : Bytes

/-- The scalar that 19 R507 takes from a 56-byte string, which needs the order of the P-384 group. -/
opaque Config.scal : Bytes → Bytes

/-- The AES-256-GCM tag: key, 12-byte IV, AAD, plaintext. -/
opaque Config.gcmTag : Bytes → Bytes → Bytes → Bytes → Bytes

/-- AES-256-GCM encryption and decryption of the payload (no tag). -/
opaque Config.gcmCrypt : Bytes → Bytes → Bytes → Bytes

/-- The settings that the items of an image hold (21 R537), or none where an item's layout is malformed: the index of
the first failing item then comes from `Config.itemFault`. -/
opaque Config.settingsOf : Bytes → Option Cfg

/-- PG_FLOOR as a leaf samples it at a CK_C edge to report its radio floor at attach (02 R60, 12 R344): an input. -/
opaque Config.pgFloor : Nat → BitVec 16

/-- How the parts of a table, a model and a placement image follow one another, which the spec does not lay out
(09 R254, 10 R280, 11 R320, R324; assumption 21): none where an image does not hold them. -/
opaque Config.tableParts : Bytes → Option TableParts
opaque Config.modelParts : Bytes → Option ModelParts
opaque Config.placeParts : Bytes → Option PlaceParts
opaque Config.itemFault : Bytes → BitVec 16

/-- How many epochs beyond the least a named boundary lies (11 R324, 16 R428). A free value (assumption 32). -/
opaque Config.boundaryLead : Nat

/-- The configuration identity that the members of a rope team compare (18 R483): what of an image's SHA-384 they have in
common is not given. A free value (assumption 42). -/
opaque Config.cfgIdentity : Bytes → Bytes

/-- The manifest of a checkpoint before its CRC-32C (07 R217): its layout is not given. It is formed from the epoch, the
membership and schedule bytes and the CRC-32C of every block. A free value (assumption 31). -/
opaque Config.manifestBody : Nat → Bytes → List (BitVec 32) → Bytes

/-- Where the numbers that an originator gives its setup tables start (14 R384). A free value (assumption 34). -/
opaque Config.setupIdBase : BitVec 64

/-- LEAF_BOOT_BASE in pages of 4 KiB, a build parameter of the leaf (21 R534; assumption 47). -/
opaque Config.leafBootPage : Nat

/-- Whether HF_ARDY accepts a leaf's request at a CK_E edge (02 R56, 08 R233): a free value (assumption 17). -/
opaque Config.hfReady : Nat → Bool

/-- LAT_DELAY in a CNT_READ of a stook that has latched no cut since reset (16 R435): the spec states none. A free value
(assumption 33). -/
opaque Config.noCutDelay : BitVec 16

end Sys2Proof
end

