-- ==== Sys2Proof/Machine/Parts.lean ====
section
/-!
DEFINITION. The parts of the state that a rope team's members copy over belay (18 R483), which an ATTACH_PHASE brings:
the schedule's anchor, contexts, membership, armed changes, plans, tables, placements, actions and areas.
-/

namespace Sys2Proof

/-- A membership change in words (05 R147): EPOCH, SUBJECT, SUBJECT_KIND, CHANGE (leave or join) and REASON. -/
structure MemberEntry where
  epoch : Nat
  subject : Nat
  kind : Nat
  join : Bool
  reason : Nat
  deriving DecidableEq, Repr

end Sys2Proof

namespace Sys2Proof.Machine

/-- A schedule anchor (01 R31, 03 R103): epoch number, its boundary in 2^-32 ns, EPOCH_NS. -/
structure Anchor where
  k0 : Nat
  t0 : Ticks
  epochNs : Nat
  deriving DecidableEq, Repr

/-- The life of a context id at this instance (14 R381). -/
inductive CtxLife where
  | free
  | active (g : BitVec 16)
  | draining (g : BitVec 16)
  deriving DecidableEq, Repr

/-- A context id (14 R374, R380 to R393). -/
structure Ctx where
  id : Nat
  life : CtxLife
  /-- The last generation held since reset (R380). -/
  last : Option (BitVec 16)
  /-- When the generation held now began, and what was held before (06 R178). -/
  changed : Ticks
  before : Option (BitVec 16)
  /-- Start boundary s, end boundary e and T_e. -/
  start : Nat
  endB : Nat
  endT : Ticks
  /-- Host window (leaf; R387, 08 R228). -/
  winBase : Nat
  winSize : Nat
  /-- The generation whose XTS key pair SEC holds (09 R269). -/
  keyGen : Option (BitVec 16)
  genDiscard : Nat
  /-- For the context page (15 R422): samples skipped in its own stooks, PUB_FLAG_CLOBBERED, JOB_STOPPED, and a first
  sheaf that is due. -/
  skips : Nat
  clobbered : Bool
  jobStopped : Bool
  firstDue : Bool
  deriving DecidableEq, Repr

/-- An entry of a setup table (14 R385). -/
structure SetupEntry where
  leaf : Nat
  units : BitVec 64
  winBase : Nat
  winSize : Nat
  deriving DecidableEq, Repr

/-- A setup table held (14 R384, R386). -/
structure Setup where
  setupId : BitVec 64
  ctx : Nat
  gen : BitVec 16
  flags : Nat
  entries : List SetupEntry
  deriving DecidableEq, Repr

/-- A membership change in force from its epoch (05 R147); `silent` ones are the membership a context starts with. -/
structure Change where
  ctx : Nat
  slot : Nat
  e : MemberEntry
  silent : Bool
  deriving DecidableEq, Repr

/-- A publication area for sheaves of epochs from `since` on (05 R153): `stored` is the value last stored per entry,
`fresh` the entries still to be written under 18 R484. -/
structure PubArea where
  ctx : Nat
  since : Nat
  base : Nat
  p : Nat
  z : Nat
  stored : List (Nat × Nat)
  fresh : List Nat
  deriving DecidableEq, Repr

/-- An armed change (07 R203 to R211). Children are slots, and 1000 + t for summit rope team t (R556). -/
structure Arm where
  id : BitVec 64
  kind : Nat
  aon : Bool
  height : Nat
  epochT : Nat
  arg : BitVec 128
  ctx : Nat
  gen : BitVec 16
  arg2 : BitVec 32
  own : Bool
  /-- The rope team was paired when the arm was taken (R208). -/
  paired : Bool
  mbx : Option Nat
  epochNs : Nat
  tEff : Ticks
  expected : List Nat
  answers : List (Nat × Nat)
  twinView : List (Nat × Nat)
  statusSent : Bool
  decision : Option Bool
  echoed : Bool
  down : Bool
  lastRepeat : Nat
  settled : Bool
  deriving DecidableEq, Repr

/-- A context's plans (07 R198): those loaded, and those in force from an epoch. -/
structure CtxPlan where
  ctx : Nat
  plan : Plan
  since : Option Nat
  deriving DecidableEq, Repr

/-- The owner of a unit of a leaf slot from the cut after a boundary (14 R377, R387). -/
structure UnitOwner where
  slot : Nat
  unit : Nat
  ctx : Nat
  after : Nat
  deriving DecidableEq, Repr

/-- A capture area for messages of epochs from `since` on: `q` messages were numbered, `stored` is the value last stored
per entry. -/
structure CaptArea where
  ctx : Nat
  since : Nat
  base : Nat
  n : Nat
  z : Nat
  q : Nat
  stored : List (Nat × Nat)
  deriving DecidableEq, Repr

/-- A row as one epoch left it (09 R257): ROW_EPOCH, AGE, ABSENT, POISONED, its poisoned lines and its words. The words
are numbered from the start of the row; those of the header line are kept in the fields and read 0 here. -/
structure RowVer where
  epoch : Nat
  age : Nat
  absent : Bool
  poisoned : Bool
  badLines : List Nat
  words : List (BitVec 32)
  deriving DecidableEq, Repr

/-- A row of a table. `old` is the row as it stood one epoch before (11 R316); `seeded` is set once a waiting seed has
been applied to it (R328). -/
structure Row where
  row : Nat
  entity : BitVec 32
  v : RowVer
  old : RowVer
  skips : Nat
  hot : Bool
  seeded : Bool
  deriving DecidableEq, Repr

/-- A checkpoint (07 R217) as it is held in staging or read from a checkpoint area: its epoch, the rows of each table, each
member leaf's latest record by slot, its Glume blocks and its manifest, and whether a line of it reads poisoned. -/
structure Ckpt where
  k : Nat
  tables : List (Nat × List Row)
  leaves : List (Nat × Bytes)
  blocks : List Bytes
  manifest : Bytes
  poisoned : Bool
  deriving DecidableEq, Repr

/-- A seed that waits for the rows' first update at or after its boundary (11 R328): column and value. -/
structure Seed where
  start : Nat
  values : List (Nat × Int)
  deriving DecidableEq, Repr

/-- A decimated copy of a row (09 R262): the row, its ROW_EPOCH, and the words of the decimated columns. -/
structure History where
  row : Nat
  epoch : Nat
  words : List (BitVec 32)
  deriving DecidableEq, Repr

/-- A feature table held (09 R254, R255). -/
structure Table where
  ctx : Nat
  gen : BitVec 16
  img : TableImg
  rows : List Row
  rebuilding : Bool
  seeded : Bool
  poisonAny : Bool
  lastEpoch : Nat
  ckptEpoch : Nat
  seed : Option Seed
  ring1s : List History
  ring1m : List History
  deriving DecidableEq, Repr

/-- A model held (16 R437), with poison in its part of the model store (09 R271). -/
structure HeldModel where
  m : Model
  poisoned : Bool
  deriving DecidableEq, Repr

/-- A placement in force from an epoch (11 R324): its entries, verdict rules and fallbacks, the lane that stands for each
logical lane, and the lanes that the team had in service when it took effect. -/
structure PlaceInForce where
  ctx : Nat
  since : Nat
  entries : List PlaceEntry
  p : Placement
  lanes : List Nat
  count : Nat
  deriving DecidableEq, Repr

/-- A scoring in progress or complete, until its sheaf is published (10 R279, R292): the row scored for SCORED_EPOCH
`ks` and published with `pub`, the slices done, STATUS so far, the accumulators, the version read, and the finished
record. -/
structure ScoreJob where
  ctx : Nat
  gen : BitVec 16
  model : Nat
  table : Nat
  row : Nat
  entity : BitVec 32
  ks : Nat
  pub : Nat
  slices : Nat
  status : Nat
  acc : List Int
  ver : RowVer
  record : Option Bytes
  deriving DecidableEq, Repr

/-- A context's checkpoint area (16 R436): from a boundary on. -/
structure CkptArea where
  ctx : Nat
  since : Nat
  base : Nat
  size : Nat
  deriving DecidableEq, Repr

/-- The grant state of a die by its down-lane pair (12 R336, R337): g, and the hold as (HCAP, UNTIL). -/
structure Die where
  d : Nat
  g : Option Nat
  hold : Option (Nat × Nat)
  deriving DecidableEq, Repr

/-- The loop settings (12 R344); none for a default that depends on the policies or the radio floors. -/
structure LoopCfg where
  tSet : Int
  tHigh : Int
  kp : Nat
  ki : Nat
  uMin : Int
  uMax : Int
  pGrantMax : Option Nat
  bHold : Option Nat
  bUp : Nat
  kt : Nat
  vHold : Nat
  ilim : List (Option (BitVec 16))
  ilimHold : List (Option (BitVec 16))
  target : Option Nat
  deriving DecidableEq, Repr

/-- A tally line (R157): its context, HBM address, mode, and content as merged so far. -/
structure Tally where
  ctx : Nat
  addr : Nat
  add : Bool
  line : Bytes
  deriving DecidableEq, Repr

/-! ## What waits for a boundary -/

/-- An interval plan (04 R121): context, generation, division m, and for each stook its index range. -/
structure IntPlan where
  ctx : Nat
  gen : BitVec 16
  m : Nat
  sel : List (Nat × Nat × Nat)
  /-- The last (epoch, j) taken. -/
  taken : Nat × Nat
  deriving DecidableEq, Repr

/-- What a command or the instance itself does at a named boundary (16 R428, 11 R324, 18 R470, R481, R484, 21 R551). -/
inductive Bnd where
  | table (ctx : Nat) (gen : BitVec 16) (img : TableImg)
  | tableDrop (id : Nat)
  | seed (id : Nat) (values : List (Nat × Int))
  | seedCkpt (id : Nat) (c : Ckpt)
  | rows (id : Nat) (records : Bytes)
  | modelDrop (id : Nat)
  | place (ctx : Nat) (p : Placement)
  | fallback (ctx n : Nat)
  | acts (rows : List ActRow)
  | policy (first : Nat) (values : List Nat)
  | pub (ctx base p z : Nat)
  | ckptArea (ctx base size : Nat)
  | captArea (ctx base n z : Nat)
  | sample (ctx : Nat) (plan : Option IntPlan)
  | detach (self : Bool)
  | handOver
  | join
  | teamStart
  | release (ctx : Nat) (gen : BitVec 16)
  | assign (ctx : Nat) (gen : BitVec 16) (e : Option SetupEntry)
  deriving DecidableEq, Repr

/-- A queued effect: its boundary, the effect, whether side B's echo of the boundary is held or not needed, and the turn in
which its command was accepted, by which the effects of one boundary are ordered (15 R419). -/
structure BndItem where
  b : Nat
  act : Bnd
  echoed : Bool
  turn : Nat := 0
  deriving DecidableEq, Repr

/-! ## What an attach copies (18 R483) -/

/-- CONFIG: the configuration identity; contexts, membership and the last generations; the schedule and every armed
change; plans, tables, models, placements, action tables, policies, loop settings, areas and tally designations, those that wait for their boundary
among them. -/
structure TwinConfig where
  cfgHash : Bytes
  ctxs : List Ctx
  setups : List Setup
  changes : List Change
  owners : List UnitOwner
  anchor : Option Anchor
  d : Int
  arms : List Arm
  plans : List CtxPlan
  tables : List Table
  models : List HeldModel
  places : List PlaceInForce
  acts : List (Nat × List ActRow)
  policies : List (Nat × Nat × Nat)
  loop : LoopCfg
  pubs : List PubArea
  ckptAreas : List CkptArea
  captAreas : List CaptArea
  tallies : List Tally
  waiting : List BndItem
  deriving DecidableEq, Repr

/-- The result of a loop period that waits for the first boundary at or after the start of period m + 2 (12 R342). -/
structure LoopOut where
  m : Nat
  duty : Nat
  b : Nat
  deriving DecidableEq, Repr

/-- CATCHUP: grants, holds and B as of the latest grant step, u and integ as of the latest loop step, with the results
not yet in force and the duty that is, and finished verdict
records of deep periods that began before the newcomer's CATCHUP. -/
structure TwinCatchup where
  dies : List Die
  lastStep : Nat
  b : Nat
  /-- B in force at the boundaries still needed. -/
  bAt : List (Nat × Nat)
  u : Int
  integ : Int
  outs : List LoopOut
  duty : Nat
  records : List ScoreJob
  deriving DecidableEq, Repr

/-- What a phase of an attach brings the newcomer; to the carrier, that the newcomer refuses the pairing (18 R483). -/
inductive TwinCopy where
  | none
  | refused
  | config (c : TwinConfig)
  | bulk (tables : List Table) (models : List HeldModel)
  | catchup (c : TwinCatchup)
  deriving DecidableEq, Repr

end Sys2Proof.Machine
end

