-- ==== Sys2Proof/Syntax.lean ====
section
/-!
DEFINITION. The commands: one constructor per row of spec/opcode_table.json, in the table's order. The table gives the
rows no fields; the operands here are what the event brings from outside (a port value, received bytes, what host
memory or the flash answers, a random draw, a time that the spec leaves within a bound). Assumption 2.
-/

namespace Sys2Proof

/-- The strap inputs (02 R79). -/
structure Straps where
  side : Side
  boot : BitVec 2
  safeGrant : BitVec 4
  safeValve : BitVec 4
  safeIlim : BitVec 4
  mgmtEn : Bool
  deriving DecidableEq, Repr

/-- Where a datagram of the management network came from: its IPv6 source address and UDP source port (15 R420). -/
structure NetSource where
  addr : Nat
  port : Nat
  deriving DecidableEq, Repr

/-- The answer of the flash to an erase or program with its read-back (19 R501). -/
inductive FlashAnswer where
  | ok
  | verifyFail
  deriving DecidableEq, Repr

/-- What an instance's hardware shows at a start (21 R541, 02 R70, R75, 19 R492, R506): the stacks conform, the flash
describes itself, the stooks whose STK_PRESENT is 1, SEC's random draws for the boot value and the device secret, the I3C targets that answer by provisioned id (02 R73), and how
the POWER_ON entry of the clock area verifies. -/
structure StartFound where
  stacksOk : Bool
  sfdpOk : Bool
  stkPresent : List Nat
  bootDraw : BitVec 32
  udsDraw : List (BitVec 32)
  i3c : List (BitVec 48)
  clockFlash : FlashAnswer
  deriving DecidableEq, Repr

/-- The causes of a block reset (18 R472, R489). -/
inductive ResetCause where
  | pin | cmd | hang | stwWdt | stwMismatch | stwUe
  deriving DecidableEq, Repr

/-- What the watchdog of the steward finds (18 R466, 17 R444, R450): no heartbeat; a computation that disagrees, and whether
its third run agrees with one of the first two; an uncorrectable word of the steward's SRAM. -/
inductive StewardFault where
  | silent
  | disagrees (third : Bool)
  | lostWord
  deriving DecidableEq, Repr

/-- A monitored unit (18 R463): class code and index, with its READY signal and progress count at a cairn edge and the
context at the head of its queue (none for BLOCK). -/
structure UnitSample where
  cls : Nat
  idx : Nat
  ready : Bool
  prog : BitVec 32
  ctx : Option Nat
  deriving DecidableEq, Repr

/-- The analogue readings that a boundary samples (04 R113, 17 R458): gauges by health index (leaf), path-delay
margins and normalised ring-oscillator counts (tray block), the host-port handshake stall of 18 R465, and
whether a leaf finds its host die lost (01 R41), which the spec does not say how. -/
structure BoundaryIn where
  gauges : List (Nat × Int)
  pdm : List Nat
  ro : List Nat
  hostStall : Bool
  units : List UnitSample
  dieLost : Bool
  deriving DecidableEq, Repr

/-- A value at the input of a checked unit with the residue codes of its two generators (17 R441). -/
structure ResVal where
  v : Int
  gen1 : BitVec 6
  gen2 : BitVec 6
  deriving DecidableEq, Repr

/-- The ROMs of the transforms (10 R293 to R295). -/
inductive RomTable where
  | log | exp | iso
  deriving DecidableEq, Repr

/-- A checked operation as a unit performed it (10 R297, 17 R442 to R444): its operands and its result. `k` is the width
of an operation that can wrap, with its carry or borrow c; none where it cannot. A shift right or a division gives q and
the remainder p; `chosen` is a value that a saturation or clamp chose; `twice` is a result computed by two separate gates
or runs; `rom` the word r read from entry i of a transform's ROM; `parity` a word with the parity bit of its path. -/
inductive CheckedOp where
  | add (k : Option Nat) (a b : ResVal) (c : Bool) (r : Int)
  | sub (k : Option Nat) (a b : ResVal) (c : Bool) (r : Int)
  | mul (a b : ResVal) (r : Int)
  | div (n d : ResVal) (q p : Int)
  | shl (a : ResVal) (n : Nat) (r : Int)
  | shr (a : ResVal) (n : Nat) (q p : Int)
  | chosen (a : ResVal) (r : Int)
  | twice (a b : Int)
  | rom (t : RomTable) (i : Nat) (r : Int)
  | parity (w : Nat) (p : Bool)
  deriving DecidableEq, Repr

/-- The checked operations of a step on a unit (10 R298, 17 R446): each as it was first performed and as it was repeated,
at most twice. -/
structure CheckOutcome where
  unit : Nat
  ops : List (List CheckedOp)
  deriving DecidableEq, Repr

/-- Nothing fails its check. -/
def CheckOutcome.pass : CheckOutcome := { unit := 0, ops := [] }

/-- A step of a Thresher unit on a row: its checked operations, and what the memory controller found in the lines of the
row that it read, (line, errors): one error is corrected, more are not (09 R270). -/
structure RowStep where
  check : CheckOutcome
  hbm : List (Nat × Nat)
  deriving DecidableEq, Repr

/-- The step that ends a scoring: the epoch with which the record is published, and the checked operations of the lane's
transform unit (10 R296, R297). -/
structure ScoreEnd where
  epoch : Nat
  check : CheckOutcome
  deriving DecidableEq, Repr

/-- A row as the twin holds it, sent over belay (09 R272, 07 R201): its ROW_EPOCH, AGE, ABSENT and words, and the words of
earlier epochs that are asked for. -/
structure TwinRow where
  epoch : Nat
  age : Nat
  absent : Bool
  words : List (BitVec 32)
  past : List (Nat × List (BitVec 32))
  deriving DecidableEq, Repr

/-- The read of the bank words of a burst (04 R118): good, good on the second read, or a word of a shadow row failing
both reads. -/
inductive ParityRead where
  | good
  | second
  | lost (bank row : Nat)
  deriving DecidableEq, Repr

/-- A cell of a received group: the pitch and data position at which it travelled, its 256 line bytes (06 R163), and the
local time of its arrival (R178). -/
structure RxCell where
  pitch : BitVec 56
  pos : Nat
  line : Bytes
  arrived : Ticks
  deriving DecidableEq, Repr

/-- An IEEE 1588 message on the management port (03 R97, R98). `sender` is the transmitter's place in the configured
list, if it is listed. `origin` is its timestamp field (origin, request receipt or response origin), `correction` its
correction field in 2^-32 ns, `udp6` says that it came over UDP/IPv6 rather than Ethernet, and `edge` is the local time at
which its timestamp point met the SerDes, before the correction of R98. -/
inductive PtpKind where
  | sync | followUp | pdelayReq | pdelayResp | pdelayRespFollowUp | announce | other
  deriving DecidableEq, Repr

structure PtpMsg where
  kind : PtpKind
  twoStep : Bool
  transportOk : Bool
  udp6 : Bool
  sender : Option Nat
  seq : BitVec 16
  origin : Ticks
  correction : Int
  edge : Ticks
  deriving DecidableEq, Repr

/-- A received HELLO (06 R180). -/
structure Hello where
  proto : BitVec 8
  blkRev : BitVec 16
  fwif : BitVec 32
  profile : Profile
  role : Role
  side : Side
  lane : Nat
  id : Nat
  nonce : Bytes
  carrying : Bool
  deriving DecidableEq, Repr

/-- What the receiver finds at alignment (06 R164, R179): the bit position of the control cell, and whether the far end has
aligned too. -/
structure AlignSeen where
  bit : Nat
  far : Bool
  deriving DecidableEq, Repr

/-- The far end's AUTH messages (06 R175, R179; 19 R510), and this end's new ephemeral scalar. -/
structure AuthIn where
  deviceCert : Bytes
  issuerCert : Bytes
  aliasCert : Bytes
  ephemeral : Bytes
  signature : Bytes
  ownEphemeral : Bytes
  deriving DecidableEq, Repr

/-- Membership answers (05 R146). With NONE comes whether the answering member's own lane to the contributor is UP
(assumption 15). -/
inductive MemberAnswer where
  | record (bytes : Bytes)
  | none (laneUp : Bool)
  deriving DecidableEq, Repr

/-- What LEAF_STATUS reports (01 R41, 07 R214, 12 R341, R344, 18 R470). -/
inductive LeafReport where
  | dieLost
  | captureLost (epoch : Nat)
  | ringOverwritten (epoch : Nat)
  | laneUp (sideA sideB : Bool)
  | ctxReset (ctx : Nat) (boundary : Nat)
  | radioFloor (w : BitVec 16)
  deriving DecidableEq, Repr

/-- A boundary that one member names to its twin over belay (18 R481, R483, 21 R551): the team's start, the join of a
newcomer, a detach of the member that names it or of the other, or a context's fallback placement for n lanes (11 R324). -/
inductive TwinMove where
  | start
  | join
  | detach (sender : Bool)
  | handOver
  | fallback (ctx n : Nat)
  deriving DecidableEq, Repr

/-- The relay of a TEAM command over belay (15 R418, 11 R324). Where it was sent: the twin's echo of a command or part, or
of a named boundary. At side B: a relayed command or part itself, which side B carries out and echoes, with its mailbox,
opcode, named boundary (0 for none), the twin's turn that accepted it, payload and the bytes that it names, and for a TABLE_SEED from a checkpoint the rows
that the twin sends a member that lacks it (11 R329). At either: a boundary that the twin
names, how many of its lanes are in service (11 R324), and a later boundary named in place of one (assumption 45); and at a summit
member a PUB_AREA_SET that another summit team relays over a peer lane (05 R153). -/
inductive EchoOf where
  | command (mbx : Nat)
  | boundary (b : Nat)
  | relayed (mbx op b turn : Nat) (payload image : Bytes) (ckpt : Option Machine.Ckpt)
  | move (m : TwinMove) (b : Nat)
  | lanes (n : Nat)
  | fleet (mbx op b : Nat) (payload : Bytes)
  | renamed (old new : Nat)
  deriving DecidableEq, Repr

/-- What the host fabric answers when a leaf reads an image (02 R58, 16 R427): its bytes from SRC on, data with poisoned lines, or
a fault at an offset from SRC. -/
inductive HostImage where
  | bytes (b : Bytes)
  | poisoned (lines : Nat)
  | fault (off : Nat)
  deriving DecidableEq, Repr

/-- The exchanges of an image sent with DEST_LEAVES (16 R427, R428): at a leaf, the image of an opcode for a context with
its payload, and the boundary that is named once it has reached every member; at the tray block, a leaf's answer. -/
inductive LeafImage where
  | arrived (ctx op : Nat) (payload image : Bytes)
  | named (ctx b : Nat)
  | answered (mbx leaf : Nat) (status : BitVec 16)
  deriving DecidableEq, Repr

/-- What the host fabric answers to a read (02 R58). -/
inductive HostAnswer where
  | data (line : Bytes)
  | poisoned (line : Bytes)
  | fault
  deriving DecidableEq, Repr

/-- The return of a line of a dump with the tag that names its read (02 R56). -/
structure DumpReturn where
  tag : BitVec 6
  ans : HostAnswer
  deriving DecidableEq, Repr

/-- An issuer of fabric operations: the source number and its context (02 R71, 20 R516); with them the checked operations
of the tally-line combiner that serves it (17 R443). -/
structure FabSource where
  source : BitVec 16
  ctx : Nat
  check : CheckOutcome := CheckOutcome.pass
  deriving DecidableEq, Repr

/-- Fabric operations as target (02 R71). -/
inductive FabOp where
  | store64 (addr : Nat) (line : Bytes)
  | fadd (addr : Nat) (v : BitVec 64)
  | flag (addr : Nat) (v : BitVec 64)
  | read (addr : Nat)
  deriving DecidableEq, Repr

/-- Results of a scan read of one unit by the dump engine (18 R476 to R478): class, index, whether it answered, whether
DATA was read, and the segments' bits. -/
structure UnitScan where
  cls : Nat
  idx : Nat
  answered : Bool
  ctx : Option Nat
  fenced : Bool
  control : List Bool
  data : List Bool
  deriving DecidableEq, Repr

/-- A PMBus read (02 R74): the word of the transaction and of its one retry, none where the packet error check fails. -/
structure PmbRead where
  first : Option (BitVec 16)
  second : Option (BitVec 16)
  deriving DecidableEq, Repr

/-- A PMBus write (02 R74): whether it and its one retry pass the packet error check. -/
structure PmbWrite where
  first : Bool
  second : Bool
  deriving DecidableEq, Repr

/-- A sideband access (02 R63): a read, a write, or one in which the sideband logic itself fails. -/
inductive SbOp where
  | read | write | failed
  deriving DecidableEq, Repr

/-- An NTP time (03 R93): UTC seconds, and a fraction that counts 2^-32 s. -/
structure NtpTime where
  utcSec : BitVec 64
  frac : BitVec 32
  deriving DecidableEq, Repr

/-- A RESEND_REQ (07 R214), and the records that the twin's raw ring holds when they are fetched (R215). -/
structure ResendIn where
  msg : Bytes
  twinRaw : List Bytes
  deriving DecidableEq, Repr

/-- A contribution: its context, slot and epoch. -/
structure SlotEpoch where
  ctx : Nat
  slot : Nat
  epoch : Nat
  deriving DecidableEq, Repr

/-- A rising edge of a stook's clock (04 R109, 02 R51): STK_INC of each counter, and the level of STK_STOPPING. -/
structure RegionEdge where
  incs : List (BitVec 4)
  stopping : Bool
  deriving DecidableEq, Repr

/-- What a loop period ends with (12 R342): at the loop master its read of T_OUT (none where it failed) and of each
converter, READ_IOUT and READ_VIN, at the other member what came over belay, with the averages of the bus samples
and the master's BUS_SENSE_LOST.
`temps` are temperatures for the event recorder. -/
structure LoopIn where
  tOut : Option Int
  iout : List (Nat × PmbRead)
  vin : List (Nat × PmbRead)
  fromTwin : Option (Nat × Nat × Bool)
  temps : List Int
  deriving DecidableEq, Repr

/-- The memories that a lane reads for a row (10 R287, R301, 09 R268): every word good; n words of that SRAM row corrected;
an uncorrectable Granary word in that line of the row; an uncorrectable word of a lane memory, in the node, feature-map
entry, set-table entry, directory entry of that index or in the model's header; a line of the model store with that many
errors as its trees stream. -/
inductive LaneRead where
  | good
  | corrected (bank row n : Nat)
  | granary (line : Nat)
  | node (idx : Nat)
  | feature (idx : Nat)
  | set (idx : Nat)
  | tree (idx : Nat)
  | header
  | store (errs : Nat)
  deriving DecidableEq, Repr

/-- An HBM line by what it holds (09 R248, R271): a table line, an entry of a row's 1 s or 1 min ring, the latest being 0,
a model's store, a landed record, a raw-ring block, the latest checkpoint, or any other line. -/
inductive HbmLine where
  | table (table row line : Nat)
  | history (table row : Nat) (minute : Bool) (entry : Nat)
  | model (id : Nat)
  | landing (slot epoch : Nat)
  | raw (slot epoch : Nat)
  | checkpoint
  | other (line : Nat)
  deriving DecidableEq, Repr

/-- What stands below the payload of a UDP datagram on the management port, from the destination MAC address to the UDP
header, and what the port's scrambler holds at an edge: neither is in the spec (assumption 168). -/
opaque Config.mgHeader : NetSource → Bytes → Bytes
opaque Config.mgScrambler : Nat → BitVec 58

/-- The stack and the row of a line of HBM. The spec does not lay the rows out: a free value (assumption 185). -/
opaque Config.hbmRow : HbmLine → Nat × Nat

/-- What the repair of an HBM row copies (17 R454): the channel of its stack, and its lines; free like the rows' layout. -/
opaque Config.pprCopy : Nat → Nat → Nat × Nat

/-- The phases of an attach (18 R483). -/
inductive AttachPhase where
  | config | bulk | catchup | join
  deriving DecidableEq, Repr

inductive Instr where
  -- reset and start (18, 21)
  | powerOnReset (straps : Straps) (found : StartFound)
  | rstBlkN (cause : ResetCause) (found : StartFound)
  | pllLock
  | romRecoveryDatagram (source : NetSource) (offset : BitVec 64) (part : Bytes) (found : StartFound)
  | bootDescriptorPoll (host : HostView) (found : StartFound)
  | clockTick (flash : FlashAnswer)
  -- boundary, stooks, capture (03, 04)
  | epochBoundary (b : BoundaryIn)
  | stookLatch (s : Nat) (edge : Ticks) (lat : BitVec 16) (third : Bool)
  | stookLatchTimeout (s : Nat)
  | stookHoldLoad (s : Nat) (edge : Ticks)
  | stookHostReset (s : Nat)
  | subBoundary (m j : Nat)
  | captureBusArbitration (parity : ParityRead)
  | trcToken
  | leafCutRecordSend
  -- time (03)
  | timIncFracWrite (v : Word)
  | timIncIntWrite (v : Word)
  | timSet (v : BitVec 128)
  | timStep (v : BitVec 64)
  | timNowRead (p : Path)
  | evrOptRead (p : Path)
  | timDupFail
  | timeExchangeOpen (lane : Nat) (edge : Ticks)
  | timeReqReceive (lane : Nat) (eseq : BitVec 8) (edge : Ticks)
  | timeFollowSend (lane : Nat) (edge : Ticks)
  | timeExchangeComplete (lane : Nat) (eseq : BitVec 8) (t3 : Ticks)
  | ppsInEdge (rising : Bool)
  | ppsOutPulse
  | slotSyncEdge (rising : Bool)
  | slotPhaseWindow
  | ptpMessageReceive (m : PtpMsg)
  -- links (06)
  | pitchAlign (lane : Nat) (pitches : List (BitVec 56)) (seen : AlignSeen) (nonce : Bytes)
  | markerLost (lane : Nat) (misses : Nat)
  | dataPosition (lane : Nat)
  | controlCellSend (lane : Nat)
  | controlCellReceive (lane : Nat) (cell : Bytes) (stamp : Ticks) (latAdj : BitVec 8)
  | dataGroupReceive (lane : Nat) (cells : List RxCell)
  | laneDetect (lane : Nat)
  | equalise (lane : Nat) (presets : List (BitVec 24 × Nat))
  | hello (lane : Nat) (h : Hello)
  | auth (lane : Nat) (a : AuthIn)
  | keyed (lane : Nat) (fabBase : Nat) (nextEphemeral : Bytes)
  | trainTimeout (lane : Nat)
  | laneFailedRetry (lane : Nat)
  | laneLeaveUp (lane : Nat) (cdr : Bool)
  | keyOffer (lane : Nat) (key : Bytes)
  | keyGeneration (lane : Nat) (nextEphemeral : Bytes)
  | keyTimeout (lane : Nat)
  | spareSwitch (lane : Nat) (failed : Nat) (mids : List (BitVec 32))
  -- control messages (06 R172)
  | grant (lane : Nat) (msg : Bytes)
  | arm (lane : Nat) (msg : Bytes)
  | armAck (lane : Nat) (msg : Bytes) (view : List (Nat × Nat))
  | confirm (lane : Nat) (msg : Bytes)
  | cancel (lane : Nat) (msg : Bytes)
  | decisionEcho (lane : Nat) (msg : Bytes)
  | holdNotice (lane : Nat) (ctx : Nat) (epoch : Nat)
  | resendReq (lane : Nat) (x : ResendIn)
  | memberQuery (lane : Nat) (ctx slot epoch : Nat)
  | memberAnswer (lane : Nat) (ctx slot epoch : Nat) (ans : MemberAnswer)
  | memberDecide (lane : Nat) (ctx slot : Nat) (e : MemberEntry)
  | leafStatus (lane : Nat) (r : LeafReport)
  | schedSync (lane : Nat) (msg : Bytes)
  -- data messages and reduction (05, 07)
  | leafCutRecord (lane : Nat) (rec : Bytes) (relayed : Bool)
  | intervalRecord (lane : Nat) (ctx : Nat) (rec : Bytes)
  | captureMessage (lane : Nat) (msg : Bytes)
  | ctxSetup (lane : Nat) (msg : Bytes)
  | childSheaf (lane : Nat) (sheaf : Bytes) (summary : Bytes)
  | shardPartial (lane : Nat) (sheaf : Bytes)
  | contributionMerge (ctx slot epoch : Nat) (check : CheckOutcome)
  | sheafPublish (ctx epoch : Nat)
  | publishFaddReturn (ctx epoch : Nat) (ret : BitVec 64)
  | memberWaitDeadline (ctx slot epoch : Nat)
  | memberQueryRetry (ctx slot epoch : Nat)
  | resendRetry (slot epoch : Nat)
  | resendSourceTimeout (of_ : SlotEpoch) (area : Option Machine.Ckpt)
  | rawRingLog (slot epoch : Nat) (check : CheckOutcome)
  | rawCopyPath (slot epoch : Nat)
  | checkpointWrite
  | armLevelDeadline (armId : BitVec 64)
  | armAckDeadline (armId : BitVec 64)
  | armDecideBy (armId : BitVec 64)
  -- memory, features, scoring (09, 10, 11)
  | thresherUpdate (table row epoch : Nat) (x : RowStep)
  | slotLate
  | rowCopy (table row : Nat)
  | hotRowInstall (table row : Nat)
  | deepInstall (model row : Nat)
  | rowRepair (table row : Nat) (twinRow : Option TwinRow)
  | patrolScrub (line : HbmLine) (errs : Nat)
  | sramScrub (bank row : Nat) (errs : Nat)
  | sramRowRepair (bank row : Nat) (uncorrectable : Bool)
  | hbmPpr (stack row : Nat) (resource : Bool) (flash : FlashAnswer)
  | scoreStart (model row epoch : Nat) (check : CheckOutcome) (read : LaneRead)
  | scoreComplete (model row : Nat) (x : ScoreEnd)
  | winLate
  | leafFeatureUpdate (table row epoch : Nat) (check : CheckOutcome)
  | leafModelScore (model row epoch : Nat) (check : CheckOutcome) (read : LaneRead)
  -- grants and the tray loop (12)
  | grantStep
  | grantLate
  | grantOffer (floor : BitVec 16)
  | pgAck
  | grantNoAck
  | grantStale
  | loopPeriod (i : LoopIn)
  | loopMasterTakeover
  | v42Stb (v i : BitVec 16)
  | busSenseLost
  | converterLimitWrite (c : Nat) (acks : PmbWrite)
  | smbAlert
  -- trace, watch, stop, breakpoints (08)
  | trcSampleSlot (j : Nat)
  | trcVld (pc : BitVec 64) (stall : BitVec 4)
  | noResponse
  | watchFeedPoll (ctx : Nat)
  | watchFeedRead (ctx : Nat) (ans : HostAnswer)
  | watchDumpRead (ctx : Nat) (r : DumpReturn)
  | stopOutRise
  | stopDone
  | stopDoneWait
  | scanSegment (bits : List Bool) (second : List Bool)
  | stopReleaseTime
  | autoReleased
  | brkVld (core : BitVec 8)
  | drainWindow
  | drnDone
  | drainWindowEnd
  | drnPortFault
  -- contexts (14)
  | contextDrainComplete (ctx : Nat)
  | contextHardCap (ctx : Nat)
  | tenantRecordRelease (ctx : Nat) (ready : Bool)
  -- recovery (18)
  | hangDetect (u : UnitSample) (scan : UnitScan)
  | unitReset (cls idx : Nat)
  | stewardWatchdog (fault : StewardFault) (scan : UnitScan) (found : StartFound)
  -- steward (15)
  | mailboxTurn (begins : Bool) (passes : Nat) (host : HostView)
  | teamRelayEcho (e : EchoOf)
  | leafImageLoad (x : LeafImage)
  | statusPageWrite
  | mgmtDatagram (source : NetSource) (payload : Bytes)
  | attachPhase (p : AttachPhase) (bytes : Nat) (copy : Machine.TwinCopy)
  | startWait
  -- recorder, ageing, identity (17, 19)
  | recorderPeriodEnd
  | recordFlashWrite (flash : FlashAnswer)
  | ageingPoint
  | vmAck
  | vmNak
  | vmTimeout
  | urgentStep
  | svnRaise
  | hourMark
  -- fabric and registers (05, 20)
  | tallyOperation (src : FabSource) (op : FabOp)
  | tallyWriteback (line : Nat)
  | fabricStore (src : FabSource) (op : FabOp)
  | regWindowRead (src : FabSource) (offset : Nat)
  | regWindowWrite (src : FabSource) (offset : Nat) (line : Bytes)
  | sidebandAccess (op : SbOp) (addr : Nat) (v : Word)
  | registerWrite (p : Path) (addr : Nat) (v : Word)
  | winTransientCntRead (p : Path)
  | errCntRead (p : Path) (i : Nat)
  -- mailbox opcodes (16): the running command of mailbox m carries out its opcode
  | mbxAttach (m : Nat)
  | configStore (m : Nat) (flash : FlashAnswer)
  | configApply (m : Nat) (host : HostImage)
  | fwStore (m : Nat) (flash : FlashAnswer)
  | fwActivate (m : Nat) (flash : FlashAnswer)
  | regRead (m : Nat)
  | epochSet (m : Nat)
  | sampleSet (m : Nat)
  | cntRead (m : Nat)
  | traceSet (m : Nat)
  | watchFeedSet (m : Nat)
  | watchSet (m : Nat)
  | watchClear (m : Nat)
  | brkResume (m : Nat)
  | stopArm (m : Nat)
  | stopRelease (m : Nat)
  | planLoad (m : Nat)
  | planSet (m : Nat)
  | pubAreaSet (m : Nat)
  | ckptAreaSet (m : Nat)
  | captAreaSet (m : Nat)
  | tallySet (m : Nat)
  | tallyClear (m : Nat)
  | tableLoad (m : Nat) (host : HostImage)
  | tableSeed (m : Nat) (area : Option Machine.Ckpt)
  | tableDrop (m : Nat)
  | rowLoad (m : Nat) (host : HostImage)
  | modelLoad (m : Nat) (host : HostImage)
  | modelDrop (m : Nat)
  | placeLoad (m : Nat) (host : HostImage)
  | actLoad (m : Nat)
  | grantPolicySet (m : Nat)
  | loopSet (m : Nat)
  | ctxOpen (m : Nat)
  | ctxClose (m : Nat)
  | ctxReset (m : Nat)
  | recordRead (m : Nat)
  | recordPeriodSet (m : Nat)
  | certRead (m : Nat)
  | evidenceSign (m : Nat)
  | blockReset (m : Nat)
  | dumpTake (m : Nat) (scans : List UnitScan)
  | twinDetach (m : Nat)
  | twinAttach (m : Nat)
  -- rows the table adds at its end
  | stkClkEdge (s : Nat) (e : RegionEdge)
  | powerLoss
  | lowestWordRead (p : Path) (addr : Nat)
  | optimeSecond
  | ntpMessageReceive (t : NtpTime)
  | fabricFadd (src : FabSource) (addr : Nat) (v : BitVec 64)
  | sideBDecide (armId : BitVec 64)
  | belayViewSend (armId : BitVec 64)
  deriving DecidableEq, Repr

end Sys2Proof
end

