-- ==== Sys2Proof/Decode.lean ====
section
/-!
DEFINITION. The word decoder: spec/opcode_table.json gives no row any bits, so that no word spells a command.
-/

namespace Sys2Proof

/-- The command that a word of the table's bits spells: none, as no row has bits. -/
def decodeTableWord (_nbits _w : Nat) : Option Instr := none

end Sys2Proof
end

