-- ==== Sys2Proof/Machine/State.lean ====
section
/-!
DEFINITION. The state of one Ikielm instance (leaf or tray block): every register, pin, counter, buffer, queue and mode
that the spec gives the block, the reasons a step can stop, and the state right after reset.
-/

namespace Sys2Proof.Machine

/-! ## Time (03) -/

/-- Servo states (03 R94), in code order. -/
inductive TimeState where
  | free | acquire | locked | suspect | holdover
  deriving DecidableEq, Repr

/-- The current time source (03 R91, R93): a lane, the grandmaster input or none. -/
inductive TimeSource where
  | none
  | lane (n : Nat)
  | grandmaster
  deriving DecidableEq, Repr

/-- The time counter and its servo (03 R84 to R95). Times and offsets are in units of 2^-32 ns. -/
structure TimeSt where
  /-- The time counter (R84). -/
  now : ITime
  /-- TIM_INC in force: integer and fraction (R85). -/
  incInt : BitVec 8
  incFrac : BitVec 32
  /-- The staged fraction of TIM_INC_FRAC, and a commit waiting for the next CK_E edge (R85). -/
  stagedFrac : BitVec 32
  commit : Option (BitVec 8 × BitVec 32)
  /-- The value last written to TIM_INC_INT (00 R16). -/
  intReg : BitVec 8
  /-- A TIM_SET or TIM_STEP waiting for the next CK_E edge (R87). -/
  setPend : Option (BitVec 128)
  stepPend : Option (BitVec 64)
  state : TimeState
  /-- The duplicated counters disagreed, and the servo has not locked since (17 R444). -/
  dupFail : Bool
  source : TimeSource
  /-- Position of the source in the order of R91; 0 none. -/
  rank : Nat
  integ : Int
  lockRun : Nat
  overRun : Nat
  /-- Increments that the loop held with theta near zero, latest first, at most 1,024 (R94). -/
  heldIncs : List Nat
  /-- base_inc, in 2^-32 ns. -/
  baseInc : Nat
  /-- Latest PPS_IN edge, latest 1588 Sync with its offset, coarse TAI seconds from 1588 or NTP (R93), and for each
  listed time transmitter whether its Announce was received (R97). -/
  ppsAt : Option Ticks
  syncAt : Option Ticks
  /-- Coarse TAI time with the local time at which it was taken. -/
  coarse : Option (Ticks × Ticks)
  announced : List (Nat × Ticks)
  /-- A two-step Sync that waits for its Follow_Up: sequence, receive stamp, correction. -/
  twoStep : Option (BitVec 16 × Ticks × Int)
  /-- The responder of a Pdelay_Req (R97): requests answered. -/
  pdelayAnswers : Nat
  /-- This end's own Pdelay_Req (R97): the next sequence number, the open request with its transmit stamp, a two-step
  response that waits for its Follow_Up (sequence, t2, t4, correction), and the peer delay measured last. -/
  pdelaySeq : BitVec 16
  pdelayReq : Option (BitVec 16 × Ticks)
  pdelayResp : Option (BitVec 16 × Ticks × Ticks × Int)
  peerDelay : Option Int
  /-- SOURCE_CHANGE count since the last OPTIME second (19 R494). -/
  sourceChanges : Nat
  /-- CK_E cycles since the instance left reset (04 R129); every 100,000,000th is 1/16 s of OPTIME (19 R491). -/
  cycle : Nat
  deriving DecidableEq, Repr

/-- A boundary that has passed: epoch, T_k, epoch length in ns and IRREGULAR (03 R103). -/
structure Boundary where
  k : Nat
  t : Ticks
  epochNs : Nat
  len : Nat
  irregular : Bool
  deriving DecidableEq, Repr

/-- The epoch schedule (01 R31, 03 R101 to R104, R554) and the slot measurement. -/
structure Sched where
  anchor : Option Anchor
  /-- The pending phase correction D in ns (R103). -/
  d : Int
  /-- The next boundary: its epoch and time. -/
  nextK : Nat
  nextT : Ticks
  /-- Passed boundaries, latest first (at most 64). -/
  past : List Boundary
  /-- Where the boundary grid of the anchor in force starts anew, latest first: the anchor itself, and the boundary after
  each epoch that was not EPOCH_NS long (R103, R554). -/
  knots : List (Nat × Ticks)
  /-- An anchor that takes effect at the next boundary (SCHED_SYNC, 07 R213). -/
  adopt : Option Anchor
  /-- SLOT_SYNC: TIM_SLOT_DEV (R524), the deviation of the nearest edge to the latest boundary so far and to each earlier
  boundary of the window (2^-32 ns), the latest edge, and the run of earlier boundaries without one (R101). -/
  slotDev : BitVec 32
  slotNow : Option Int
  slotEdges : List Ticks
  slotWindow : List (Option Int)
  slotMiss : Nat
  deriving DecidableEq, Repr

/-! ## Zhelen lanes (06) -/

/-- Lane states (06 R186), in code order. -/
inductive LaneState where
  | off | detect | equalise | align | hello | auth | keyed | up | standby | failed
  deriving DecidableEq, Repr

/-- The keys of one generation (06 R175, R176): transmit and receive key and salt. -/
structure LaneKeys where
  gen : BitVec 32
  kTx : Bytes
  kRx : Bytes
  sTx : Bytes
  sRx : Bytes
  deriving DecidableEq, Repr

/-- A message of a stream (06 R167): its MID, its whole length (prefix included), the bytes that are ready, and how
many have been sent. -/
structure OutMsg where
  mid : BitVec 32
  ctx : Nat
  gen : BitVec 16
  total : Nat
  bytes : Bytes
  sent : Nat
  /-- What a message that is cut through follows: at a leaf the epoch of its record (R555), at a tray block the lane on
  which it arrives (R184). -/
  cut : Option Nat
  deriving DecidableEq, Repr

/-- A GCM group being sent (06 R166): its counter, the headers and plaintext so far. -/
structure TxGroup where
  gseq : Nat
  idx : Nat
  aad : Bytes
  plain : Bytes
  deriving DecidableEq, Repr

/-- A transmit stream: one VC, and on VC2 one share (06 R166). `kept` holds sent messages for 06 R183. -/
structure TxStream where
  vc : Nat
  share : Nat
  nextMid : BitVec 32
  queue : List OutMsg
  group : Option TxGroup
  kept : List (Ticks × OutMsg)
  deriving DecidableEq, Repr

/-- A receive stream (06 R167): the last MID delivered and the message in assembly. -/
structure RxStream where
  vc : Nat
  share : Nat
  lastMid : Option (BitVec 32)
  part : Option Bytes
  deriving DecidableEq, Repr

/-- A time area of a control cell (06 R174): TKIND, ESEQ and STAMP. -/
structure TimeCell where
  kind : BitVec 8
  eseq : BitVec 8
  stamp : Ticks
  deriving DecidableEq, Repr

/-- An exchange this end has open (06 R174): ESEQ, t1, and t2 and t4 once RESP came. -/
structure Exchange where
  eseq : BitVec 8
  t1 : Ticks
  t2t4 : Option (Ticks × Ticks)
  deriving DecidableEq, Repr

/-- ZL_EQ_SET at reset (02 R45): TX main 2 in bits 17:12. -/
def eqReset : BitVec 24 := 0x002000

/-- A lane (06 R162 to R186). -/
structure Lane where
  n : Nat
  plan : LanePlan
  st : LaneState
  cause : Nat
  peerLane : BitVec 8
  peerProto : BitVec 8
  active : Bool
  partner : Bool
  retunePending : Bool
  /-- The opening time of the exchange opened last (03 R89). -/
  openedAt : Option Ticks
  /-- When the state was entered; returns by overrun in this training (R179). -/
  since : Ticks
  overruns : Nat
  eqSet : BitVec 24
  /-- ZL_LATADJ at the latest receive (02 R64). -/
  latAdj : BitVec 8
  /-- Alignment: the bit position of 06 R164 and the run of missing markers. -/
  bit : Nat
  misses : Nat
  rxPitch : Option (BitVec 56)
  txPitch : BitVec 56
  /-- Data positions sent in this pitch, 0 to 63 (R162). -/
  txPos : Nat
  /-- Minor protocol revision in force (R9). -/
  minor : BitVec 4
  ownNonce : Bytes
  peer : Option Hello
  ownEph : Bytes
  /-- Keys in force at this sender, those of the generation before for what still arrives under it, and the next ones. -/
  keys : Option LaneKeys
  /-- In AUTH: the cells of this end's chains and signature that are still to be sent, in clear, and the keys derived once
  both ends are verified (R179). -/
  authCells : List Bytes
  authKeys : Option LaneKeys
  oldKeys : Option LaneKeys
  nextKeys : Option LaneKeys
  offerOwn : Option Bytes
  offerPeer : Option Bytes
  txGroup : Nat
  rxGroup : Nat
  /-- VC1 was ready without a credit in this pitch (R185). -/
  stalled : Bool
  /-- Rotation counter n of 06 R169. -/
  rot : Nat
  txs : List TxStream
  rxs : List RxStream
  /-- Units sent, and the latest cumulative return, per credit account: VC1, VC3, VC0, then VC2 share s (R170). -/
  sentUnits : List (BitVec 16)
  retUnits : List (BitVec 16)
  /-- Units this receiver has freed, cumulative, in the same order. -/
  freed : List (BitVec 16)
  /-- Control messages placed on the lane, the bytes placed in this pitch, at most 144, those that wait to be placed, and
  KEY_OFFER apart from them (R172, R173). -/
  ctl : List Bytes
  placed : Nat
  ctlWait : List Bytes
  offerQ : List Bytes
  mseqTx : BitVec 16
  mseqRx : Option (BitVec 16)
  timeOut : List TimeCell
  /-- ESEQ of the RESP last sent, whose FOLLOW is owed (R174). -/
  lastResp : Option (BitVec 8)
  eseq : BitVec 8
  exch : Option Exchange
  /-- Exchanges completed in KEYED (R179). -/
  exchRun : Nat
  /-- STATE and FOLLOWS_YOU of the far end (R91). -/
  farState : Option TimeState
  farFollows : Bool
  /-- Mean path delay of the latest exchange, reported only (R89). -/
  delay : Int
  /-- Pitches of the latest tag failures (R177). -/
  tagFails : List (BitVec 56)
  /-- The counters of 06 R185, offsets 0 to 14. -/
  ctr : List (BitVec 64)
  /-- SPARE_SWITCH sent and received on this partner for the failed lane (R183). -/
  spareSent : Option Nat
  spareGot : Option (Nat × List (BitVec 32))
  deriving DecidableEq, Repr

/-- A message delivered by a receive stream or a control cell, waiting for its row of the table. -/
structure RxMsg where
  lane : Nat
  vc : Nat
  ctx : Nat
  bytes : Bytes
  deriving DecidableEq, Repr

/-! ## Counters and capture (04) -/

/-- What a stook latched last on the current region edge (04 R119). -/
inductive EdgeLatch where
  | none | cut | int
  deriving DecidableEq, Repr

/-- An interval sample to be latched or held in the INT bank (04 R123, R124): context, generation, its epoch, j, the index range,
and whether SAMPLE_SKIPPED goes into its header. -/
structure IntJob where
  ctx : Nat
  gen : BitVec 16
  k : Nat
  j : Nat
  first : Nat
  count : Nat
  skipped : Bool
  deriving DecidableEq, Repr

/-- A stook (04 R108 to R120). -/
structure Stook where
  s : Nat
  aligned : Bool
  unit : Nat
  /-- Observer views, host views and owner bases (R108, R112); their length is N_s. -/
  obs : List (BitVec 64)
  host : List (BitVec 48)
  base : List (BitVec 64)
  regionCyc : BitVec 48
  /-- STK_HRST cycles since the previous cut, saturating at 255 (R117). -/
  hrst : Nat
  edge : EdgeLatch
  /-- HOLD bank and its stop time while the region is stopped (R51, R115). -/
  hold : Option (List (BitVec 64) × ITime)
  /-- STOP_UNANNOUNCED holds until the region runs again (R51). -/
  unannounced : Bool
  /-- Edges in a row on which STK_STOPPING was sampled at 1, at most 3 (R51). -/
  stopRun : Nat
  /-- Latch-edge time of the last cut latched on an edge since reset (R106). -/
  lastEdge : Option Ticks
  /-- A cut waits for its latch edge: its epoch and T_k. -/
  cutWait : Option (Nat × Ticks)
  /-- CUT bank: its epoch, header, and delivered values; kept until drained. -/
  cut : Option (Nat × BitVec 128 × List (BitVec 64))
  /-- An interval sample waits for its latch edge, with its sub-boundary time. -/
  intWait : Option (IntJob × Ticks)
  /-- INT bank: job, header, host values; kept until drained (R124). -/
  int : Option (IntJob × BitVec 128 × List (BitVec 48))
  /-- A skipped sample waits to be named, and the next sample is to be skipped (R124). -/
  skipped : Bool
  skipNext : Bool
  /-- The stook's unit changes owner at the boundary whose cut it still has to latch (R112). -/
  moving : Bool
  deriving DecidableEq, Repr

/-- The interval bursts of a context in a ring slot, in the context's share of its interval space (04 R126, 05 R138). -/
structure IntBursts where
  ctx : Nat
  gen : BitVec 16
  k : Nat
  bytes : Bytes
  deriving DecidableEq, Repr

/-- A slot of the sample ring with its annex part (04 R126, 05 R135): one cut with the interval samples of its epoch. -/
structure RingSlot where
  k : Nat
  t : Ticks
  len : Nat
  epochNs : Nat
  /-- FIRST, IRREGULAR, TIME_SUSPECT, TIME_HOLDOVER at bits 0 to 3 (05 R136). -/
  flags : BitVec 32
  mapSeq : BitVec 32
  /-- Stooks that have not latched yet. -/
  waiting : List Nat
  headers : List (Nat × BitVec 128)
  health : List (BitVec 64)
  /-- The stooks that the cut latches in ascending number, each with its N_s (R117): they fix each value's offset. -/
  counts : List (Nat × Nat)
  values : List (Nat × List (BitVec 64))
  /-- Requesters drained so far, each with the cycle of its last beat; HLT is 1, stook s is 2 + s. -/
  drained : List (Nat × Nat)
  ints : List IntBursts
  /-- Poisoned 64-byte lines (R128): of the annex part, or of the value slot. -/
  poison : List (Bool × Nat)
  lost : Bool
  sent : Bool
  deriving DecidableEq, Repr

/-- A request on the capture bus (04 R129): requester index, raise cycle, age_start, bursts left in beats, the wait of
its first beat taken or not, and the sample an INT request carries. -/
structure BusReq where
  idx : Nat
  raised : Nat
  ageStart : Int
  bursts : List Nat
  begun : Bool
  stook : Nat
  deriving DecidableEq, Repr

/-- The leaf's capture field (04). -/
structure CapSt where
  stooks : List Stook
  /-- Health counters 0 to 1,023 (R113). -/
  health : List (BitVec 64)
  ring : List RingSlot
  reqs : List BusReq
  /-- Cycle of the last beat of the burst in flight. -/
  busUntil : Nat
  token : Bool
  tokenCycle : Nat
  cairnCycle : Nat
  /-- The time of the latest cairn edge, and the cycle of the latest one that latched a cut. -/
  cairnAt : Ticks
  cutCycle : Option Nat
  /-- Last cut beat of the cut in progress, the longest wait in the epoch so far, and the wait whose first beat comes in
  the cycle named. -/
  lastCutBeat : Nat
  waitNow : Nat
  waitNext : Option (Nat × Nat)
  /-- DRAIN_CYC and MAX_WAIT as reported (R132). -/
  drainCyc : Nat
  maxWait : Nat
  plans : List IntPlan
  mapSeq : BitVec 32
  /-- The next cut is the first since reset (R110). -/
  first : Bool
  /-- Owner of each assignment unit 0 to 63 (14 R377): its context. -/
  owner : List Nat
  /-- The host die is lost (01 R41). -/
  dieLost : Bool
  deriving DecidableEq, Repr

/-! ## Mode, start and twin (18, 21) -/

/-- What the instance is doing (20 R523, 21 R533, R544, R549, 18 R482, 17 R449). `off` is the time without power (02 R45),
`held` the hold of 21 R533 and `starting` the wait for the twin: all three read as RESET in RST_STATE. -/
inductive Mode where
  | off | reset | held | bivouac | starting | service | detached | degraded
  deriving DecidableEq, Repr

/-- An attach in progress (18 R483): whether this instance is the carrier, its phase, the bytes of BULK, the join
boundary named, and whether TWIN_ATTACH asked for it. -/
structure Attach where
  carrier : Bool
  phase : AttachPhase
  bytes : Nat
  join : Option Nat
  commanded : Bool
  deriving DecidableEq, Repr

/-- The rope team as this member sees it (18 R480 to R487, 21 R549 to R551). -/
structure TwinSt where
  paired : Bool
  /-- BELAY_VERSION (00 R10). -/
  belayVersion : Bool
  /-- This member's and the twin's detach boundaries (R481). -/
  detachAt : Option Nat
  twinDetachAt : Option Nat
  /-- The twin was detached by TWIN_DETACH (R486). -/
  twinDetached : Bool
  /-- The pair ended with the loss of every belay lane, or of the twin behind them (R480, 12 R341). -/
  lostPair : Bool
  attach : Option Attach
  /-- Start boundary named and whether the echo came (21 R551). -/
  startAt : Option (Nat × Bool)
  /-- When the start phases ended with the time locked, and when a leaf last reported its lane to side A UP (21 R549,
  R550). -/
  startSince : Ticks
  sideASeen : Option Ticks
  /-- In-service lanes of the twin, as it last told, and this member's as last told to it (11 R324). -/
  lanes : Nat
  toldLanes : Nat
  /-- The instance became DEGRADED while paired and hands its role on at the next boundary (17 R449). -/
  handOver : Bool
  /-- The epoch of a newcomer's CATCHUP, before which no deep period begins that it scores (R484). -/
  scoresFrom : Nat
  deriving DecidableEq, Repr

/-! ## Reduction, membership and publication (05, 07) -/

/-- The state of a field in the fold (07 R192). -/
inductive FieldSt where
  | none
  | sum (v : BitVec 128)
  | pair (v : BitVec 64) (e : BitVec 32)
  | hist (c : List (BitVec 32))
  | count (n : BitVec 64)
  | bitmap (w : Nat) (v : Nat)
  | top (es : List (BitVec 64 × BitVec 32))
  deriving DecidableEq, Repr

/-- What a sheaf object is: a tray or chassis sheaf, a summit member's shard partial, or the fleet sheaf. -/
inductive Level where
  | tray | chassis | shard | fleet
  deriving DecidableEq, Repr

/-- How far a sheaf has come: folding; its FADD issued; its FLAG issued (05 R154). -/
inductive SheafStage where
  | open | adding | done
  deriving DecidableEq, Repr

/-- A sheaf in progress (05 R139 to R145, 07 R190). -/
structure Sheaf where
  level : Level
  ctx : Nat
  gen : BitVec 16
  k : Nat
  t : Ticks
  len : Nat
  epochNs : Nat
  irregular : Bool
  ctxFirst : Bool
  plan : Plan
  fields : List FieldSt
  poison : List Nat
  merged : List Nat
  firstMap : List Nat
  /-- Rows of own tables (table, row) that have been observed or were absent, and those whose words the memory returned
  poisoned and that are to be obtained again (R189, R201). -/
  rows : List (Nat × Nat)
  owed : List (Nat × Nat)
  /-- Bits 2 to 8 of 05 R142 ORed over the contributions. -/
  flags : Nat
  skew : Nat
  leafExp : Nat
  leafPres : Nat
  below : List MemberEntry
  /-- Expected and present maps of merged shard partials (07 R202). -/
  partExp : Nat
  partPres : Nat
  partFirst : Nat
  /-- Finished verdict records published with it (05 R152), and whether every slot verdict is final (11 R323). -/
  verdicts : List Bytes
  verdictsFinal : Bool
  summary : Bytes
  sent : Bool
  stage : SheafStage
  bytes : Bytes
  deriving DecidableEq, Repr

/-- A leaf record in the landing area of 16 epochs (07 R213 to R216). -/
structure Landed where
  slot : Nat
  k : Nat
  raw : Bytes
  logged : Bool
  deriving DecidableEq, Repr

/-- A child sheaf or shard partial received (07 R188, R202). -/
structure ChildSheaf where
  ctx : Nat
  slot : Nat
  k : Nat
  bytes : Bytes
  summary : Bytes
  deriving DecidableEq, Repr

/-- A contribution being obtained again (07 R215): its source 1 to 4, when the source was entered and last asked. -/
structure Recovery where
  ctx : Nat
  slot : Nat
  k : Nat
  source : Nat
  since : Ticks
  asked : Ticks
  deriving DecidableEq, Repr

/-- The tray block's reduction field with membership, arms and publication (05, 07). Arms are in both profiles. -/
structure RedSt where
  sheaves : List Sheaf
  landing : List Landed
  children : List ChildSheaf
  changes : List Change
  leafExp : List (Nat × Nat × Nat)
  /-- EXPECTED of the latest shard partial merged (07 R202): context, slot 1000 + t, map. -/
  shardExp : List (Nat × Nat × Nat)
  plans : List CtxPlan
  owners : List UnitOwner
  arms : List Arm
  armSeq : Nat
  seen : List (BitVec 64)
  /-- Arms that were held and have ended. -/
  ended : List (BitVec 64)
  /-- Own arms that have ended: ARM_ID, merged STATUS (255 none), and 1 applied, 2 cancelled or 3 dropped (16 R429). -/
  armLog : List (BitVec 64 × Nat × Nat × Nat)
  armOrphan : Nat
  armLate : Nat
  dupMerge : Nat
  lateDiscard : Nat
  recover : List Recovery
  schedOwed : List Nat
  /-- Slots whose leaf is owed its unit assignment with its JOIN ATTACH (14 R394). -/
  assignOwed : List Nat
  /-- MEMBER_QUERY waiting for its answer: context, slot, epoch, last sent (05 R146). -/
  queries : List (Nat × Nat × Nat × Ticks)
  noneAnswered : List (Nat × Nat × Nat)
  /-- Latest HOLD_NOTICE of a child: context, slot, epoch, when (05 R150). -/
  holds : List (Nat × Nat × Nat × Ticks)
  /-- What a leaf reported: slot, DIE_LOST or CAPTURE_LOST or overwritten, epoch (01 R41). -/
  reports : List (Nat × Nat × Nat)
  pubs : List PubArea
  deriving DecidableEq, Repr

/-! ## Trace, watch, stop and breakpoints (08) -/

/-- A mark that waits for a slot of its share (08 R224): KIND, CORE, STALL and PAYLOAD. -/
structure Mark where
  kind : Nat
  core : Nat
  stall : Nat
  payload : BitVec 64
  deriving DecidableEq, Repr

/-- A trace record (08 R223) with OFFSET still zero, and the time of its request; none for an EMPTY record. -/
structure TrcRec where
  raised : Option Ticks
  word : BitVec 128
  deriving DecidableEq, Repr

/-- The four records of a group, its share, the epoch in which its last slot fell, and whether the group is the first that began at
or after a boundary, which closes the messages (08 R225). -/
structure TrcBeat where
  share : Nat
  k : Nat
  recs : List TrcRec
  closes : Bool
  deriving DecidableEq, Repr

/-- A share's program trace (08 R220 to R226): listed cores and divider in force and to come, own slots counted, place in
the list, SEQ, waiting marks, the beats of the open message with the poisoned ones among them (17 R450), and TSEQ of the
share, which numbers its trace, watch, scan and leaf verdict messages. -/
structure ShareTrc where
  ctx : Nat
  cores : List Nat
  div : Nat
  pendingSet : Option (List Nat × Nat)
  slots : Nat
  pos : Nat
  seq : BitVec 16
  marks : List Mark
  tseq : Nat
  beats : List TrcBeat
  poison : List Nat := []
  deriving DecidableEq, Repr

/-- The sampling grid (08 R220): the group in progress, its share, whether it closes messages, its records so far, the
request that waits for TRC_VLD (core, request time, CK_E cycle), the cycle of the slot taken last, and beats buffered for
the capture bus. -/
structure TrcSt where
  shares : List ShareTrc
  group : Nat
  closes : Bool
  recs : List TrcRec
  req : Option (Nat × Ticks × Nat)
  slotAt : Option Nat
  buffered : List TrcBeat
  closedK : Nat
  deriving DecidableEq, Repr

/-- A watch entry (08 R231). -/
structure WatchEntry where
  idx : Nat
  tensor : BitVec 32
  step0 : Nat
  stride : Nat
  count : Nat
  off : Nat
  dlen : Nat
  deriving DecidableEq, Repr

/-- A dump in progress (08 R232): the entry index, tensor, step and DSEQ, release address, its first line, the next address
to read and to take into a part, the end; reads that have not returned by tag, and lines that returned ahead of their turn
with their poison (02 R56); for each part the epoch of its first read; part number, the part's lines and poisoned indices;
and whether a read ended in an access fault or the context is gone. -/
structure Dump where
  idx : Nat
  tensor : BitVec 32
  step : Nat
  dseq : Nat
  rel : Option Nat
  start : Nat
  issue : Nat
  next : Nat
  fin : Nat
  flight : List (BitVec 6 × Nat)
  early : List (Nat × Bytes × Bool)
  ks : List Nat
  part : Nat
  lines : List Bytes
  poison : List Nat
  failed : Bool
  gone : Bool
  deriving DecidableEq, Repr

/-- A share's tensor watch (08 R228 to R234). `tokens` counts 2^-16 of a line; `reading` is the tag of the feed read that
has not returned; `releases` are release words to be written. -/
structure ShareWatch where
  ctx : Nat
  gen : BitVec 16
  feed : Option (Nat × Nat)
  dseq : Nat
  nextFeed : Option (Nat × Nat × Nat)
  pollAt : Ticks
  wantFeed : Bool
  reading : Option (BitVec 6)
  entries : List WatchEntry
  dump : Option Dump
  releases : List (Nat × Nat)
  tokens : Nat
  consumed : Nat
  overrun : Nat
  bad : Nat
  deriving DecidableEq, Repr

/-- Host reads of a generation that has ended and that have not returned (08 R234): their tags, and the release word that is
owed once the last of them is back. -/
structure LateRead where
  ctx : Nat
  tags : List (BitVec 6)
  rel : Option (Nat × Nat)
  deriving DecidableEq, Repr

/-- The timed stop of a leaf (08 R235 to R242). STATE codes are in this order. `rose` is the edge at which STOP_OUT rose,
`segSince` when the shift of the segment in progress began, and `leaving` is set once a release has come in the middle of a
segment (R241). -/
inductive StopPhase where
  | idle | armed | stopping | stopped | scanning
  deriving DecidableEq, Repr

structure StopSt where
  phase : StopPhase
  at_ : Ticks
  confirmed : Bool
  doneSeen : Bool
  release : Option Ticks
  rose : Ticks
  seg : Nat
  segDone : Nat
  segSince : Ticks
  leaving : Bool
  deriving DecidableEq, Repr

/-- Breakpoints and drains (08 R243 to R246): queued cores with their owners, the running drain (core, owner, window, CK_E
cycle of its start), the abort that waits for its acknowledgement (core, owner, CK_E cycle of the drop), drained cores and
those that only context 0 may resume, resumes asked for (core, owner) and those that the window in progress serves, the
window last served plus one, a window whose start waits for the acknowledgement of an abort, and the port fault that stops
drains until a leaf reset. -/
structure BrkSt where
  queue : List (Nat × Nat)
  drain : Option (Nat × Nat × Nat × Nat)
  abort : Option (Nat × Nat × Nat)
  stopped : List Nat
  orphans : List Nat
  resumes : List (Nat × Nat)
  serve : List (Nat × Nat)
  window : Nat
  due : Option Nat
  portFault : Bool
  deriving DecidableEq, Repr

/-! ## Capture areas at the tray block (08 R227) -/

/-- A message whose entry waits for the return of its FADD (05 R154). -/
structure CaptMsg where
  ctx : Nat
  q : Nat
  addr : Nat
  expect : Nat
  bytes : Bytes
  deriving DecidableEq, Repr

/-! ## Feature tables, the Granary and Winnow (09, 10, 11) -/

/-- The Granary's copy of a hot row (09 R265 to R267, 11 R320): the first line of the row in each of its bank groups,
(group, line of the share's part), and at most two versions, newest first, none until it is installed; the version of a row
stands for those of its line pairs (assumption 179). `held` are forwards that wait for a version under read. -/
structure HotRow where
  table : Nat
  row : Nat
  places : List (Nat × Nat)
  vers : List RowVer
  held : List RowVer
  deriving DecidableEq, Repr

/-- A frozen copy of a row for a deep period (11 R322). -/
structure Frozen where
  model : Nat
  row : Nat
  ks : Nat
  ver : RowVer
  deriving DecidableEq, Repr

/-- A lane's stream buffer part for a share (10 R275, R281): the trees in the half that was read last and in the other. -/
structure StreamBuf where
  lane : Nat
  ctx : Nat
  half0 : List Nat
  half1 : List Nat
  deriving DecidableEq, Repr

/-- A Winnow job that stops (09 R272): the rows whose poisoned lines it read, whether the model store is poisoned, and
the epoch at whose end it stops. -/
structure StoppedJob where
  ctx : Nat
  model : Nat
  rows : List (Nat × Nat)
  store : Bool
  since : Nat
  deriving DecidableEq, Repr

/-- A class of HBM transfers (09 R251): S, P, or that of a share. -/
inductive XferClass where
  | s
  | p
  | c (share : Nat)
  deriving DecidableEq, Repr

/-- An HBM channel (09 R251): its counter n, and the transfers that are ready in class S, in class P and in each share. -/
structure Chan where
  n : Nat
  sReady : Nat
  pReady : Nat
  cReady : List (Nat × Nat)
  deriving DecidableEq, Repr

/-- The memory side (09 to 11). `hbm` holds the bytes that software stores over the fabric port (load windows, command
rings and tally lines) and `bad` the poisoned lines among them. -/
structure MemSt where
  hbm : List Host.Cell
  bad : List Nat
  /-- Shares whose key pair has been destroyed since reset (R269), and the lines of their parts written under a later key. -/
  rekeyed : List Nat
  live : List Nat
  tables : List Table
  models : List HeldModel
  places : List PlaceInForce
  hot : List HotRow
  frozen : List Frozen
  jobs : List ScoreJob
  /-- Leaf verdict records that wait to be sent (11 R319): context, generation, epoch, records. -/
  leafVerdicts : List (Nat × BitVec 16 × Nat × List Bytes)
  stopped : List StoppedJob
  stream : List StreamBuf
  /-- The TAI second of the latest decimated copy, and how many copies there were (R262). -/
  decimSec : Nat
  decims : Nat
  /-- SLOT_TAIL, in ticks after T_k (R273). -/
  slotTail : Ticks
  deriving DecidableEq, Repr

/-! ## The raw ring and checkpoints (13, 07 R216, R217) -/

/-- A block of the raw ring whose VALID bit is set (13 R366, R367): slot, epoch, first line and length in lines of the log,
the block, and whether a line of it is poisoned. -/
structure RawBlock where
  slot : Nat
  k : Nat
  line : Nat
  lines : Nat
  bytes : Bytes
  poisoned : Bool
  deriving DecidableEq, Repr

/-- The raw ring, checkpoints and Glume engines (13). `copies` are row copies taken for the checkpoint that is being
written (09 R263), `due` the epochs due, oldest first; `lastErr` is LAST_ERR. -/
structure RawSt where
  blocks : List RawBlock
  pos : Nat
  ckpts : List Ckpt
  copies : List (Nat × Row)
  due : List Nat
  areas : List CkptArea
  lastErr : Nat
  deriving DecidableEq, Repr

/-! ## Actions, grants and the tray loop (12, 02 R59) -/

/-- A converter (12 R345, 02 R74): the limit last written and when, CONV_UNREACHABLE and its latest try, and its latest
READ_IOUT and READ_VIN. -/
structure Conv where
  c : Nat
  written : Option (BitVec 16 × Ticks)
  unreachable : Bool
  tried : Option Ticks
  iout : Option (BitVec 16)
  vin : Option (BitVec 16)
  /-- The safe limit has been written since the outputs went to their safe values (12 R348). -/
  safeDone : Bool
  deriving DecidableEq, Repr

/-- The ACT field (12). -/
structure ActSt where
  /-- Action tables and policies, each from the epoch at which it is in force: (epoch, rows), (pair, epoch, policy). -/
  rows : List (Nat × List ActRow)
  policies : List (Nat × Nat × Nat)
  dies : List Die
  /-- The epoch of the latest grant step, and the budget in force at each boundary still needed. -/
  lastStep : Nat
  bAt : List (Nat × Nat)
  /-- The loop (R343): settings, settings that wait for their period, u, integ and b, the duty in force. -/
  loop : LoopCfg
  nextLoop : Option LoopCfg
  u : Int
  integ : Int
  b : Nat
  duty : Nat
  outs : List LoopOut
  safe : Bool
  holdup : Bool
  vAvg : Nat
  iAvg : Nat
  vSum : Nat
  iSum : Nat
  samples : Nat
  /-- CK_E cycle of the latest bus sample, 0 until one comes (02 R78). -/
  strobe : Nat
  noRead : Nat
  tOut : Option Int
  convs : List Conv
  /-- Side B's mastership, and since when the conditions of R341 hold. -/
  takeover : Bool
  aloneSince : Option Ticks
  /-- The status bit of SMB_ALERT_N, whose place the spec does not give (02 R74). -/
  smbAlert : Bool
  /-- The radio floor that the leaf of each slot reported at attach (R344). -/
  floors : List (Nat × Nat)
  deriving DecidableEq, Repr

/-- A leaf's grants (12 R340, 02 R59): EPOCH of the last non-SAFE grant taken, boundaries since a non-SAFE and since any
grant was taken, the grant that waits for an offer, when PG_VLD rose, and whether GRANT_NO_ACK was reported for it. -/
structure GrantSt where
  last : Option (BitVec 32)
  sinceNonSafe : Option Nat
  sinceAny : Option Nat
  waiting : Option (BitVec 16)
  raisedAt : Option Ticks
  noAck : Bool
  /-- The CK_E edge at which PG_VLD dropped last (02 R59). -/
  droppedAt : Option Nat
  deriving DecidableEq, Repr

/-! ## Units, errors and ageing (17) -/

/-- A class of units (17 R448, 18 R463) by its class code: units in service, spares left, units retired, transient
faults (unit, time) of the last 3,600 s, and unit resets after a hang (unit, time). -/
structure UnitClass where
  cls : Nat
  inService : Nat
  spares : Nat
  retired : List Nat
  faults : List (Nat × Ticks)
  resets : List (Nat × Ticks)
  /-- Fenced units with the context attributed to each, none for BLOCK (18 R467, R468). -/
  fenced : List (Nat × Option Nat)
  /-- Units retired with no spare to take over (10 R300). -/
  lost : List Nat
  /-- Each spare that took over, with the unit that it stands for; spares are numbered after the units in service (R490). -/
  stands : List (Nat × Nat)
  /-- The spares left by number, among them units that returned as a spare (18 R469). -/
  pool : List Nat
  deriving DecidableEq, Repr

/-- The units as built, by class code: in service and spares (17 R448, 18 R463). A tray block is counted with 8 fabric lanes,
with a queue each way. -/
def builtUnits (p : Profile) : List (Nat × Nat × Nat) :=
  match p with
  | .leaf => [(1, 4, 1), (4, 1, 0), (7, 1, 0), (8, 1, 0), (9, 1, 0), (10, 1, 0)]
  | .tray => [(1, 64, 4), (2, 512, 32), (3, 16, 2), (4, 8, 1), (5, 16, 0), (6, 8, 0), (10, 1, 0)]

/-- An SRAM row with corrected errors: bank, row, times of the last 24 h (17 R452). -/
structure RowErrors where
  bank : Nat
  row : Nat
  times : List Ticks
  deriving DecidableEq, Repr

/-- Error counters and repair (17 R446 to R457). -/
structure ErrSt where
  units : List UnitClass
  /-- ERR_CNT_0 to ERR_CNT_63 (R456). -/
  cnt : List (BitVec 32)
  /-- Events ever counted in each, and transient faults of every class, neither of which a read clears (19 R494). -/
  total : List Nat
  transients : Nat
  /-- WIN_TRANSIENT_CNT (10 R303). -/
  winTransient : BitVec 32
  /-- Both as they stood when the CK_C cycle began, and the events of the cycle (00 R18). -/
  cntBefore : List (BitVec 32)
  cntNow : List (BitVec 32)
  winBefore : BitVec 32
  winNow : BitVec 32
  rowErrors : List RowErrors
  /-- Rows remapped to spares: bank, row, spare (R452, R453). -/
  repairs : List (Nat × Nat × Nat)
  /-- Rows to be repaired. -/
  repairQ : List (Nat × Nat)
  /-- HBM rows repaired by PPR: stack, row (R454), and their flash log. -/
  ppr : List (Nat × Nat)
  /-- Corrected errors of HBM rows, and the rows that met the trigger of R452 and wait for a repair (R454). -/
  hbmErrors : List RowErrors
  pprQ : List (Nat × Nat)
  /-- OTP_FREE as counted (R457). -/
  otpFree : Nat
  deriving DecidableEq, Repr

/-- Ageing (17 R458 to R462). -/
structure AgeSt where
  /-- Over the hour so far: per monitor the sum and count of ring-oscillator readings and the least margin. -/
  roSum : List Nat
  roCount : Nat
  pdmMin : List Nat
  /-- Of the last hour. -/
  ro : List Nat
  pdm : List Nat
  baseline : Option (List Nat)
  lastHour : Nat
  hiRun : Nat
  critRun : Nat
  vmApplied : Int
  /-- The step requested and since when; the steps still to be restored after power-on (R461). -/
  req : Option (Int × Ticks)
  restore : Int
  /-- A refused step is retried no earlier than the next ageing point (02 R61). -/
  refused : Option Int
  lastStep : Option Ticks
  /-- Operating hours of each +1 step applied (R462). -/
  upHours : List Nat
  /-- Lanes that the hour's re-tune has still to visit, and the lane whose traffic is moving away first (06 R182). -/
  retuneQ : List Nat
  retuning : Option Nat
  deriving DecidableEq, Repr

/-! ## The fabric port (02 R71, 05 R157 to R161, 20 R516) -/

/-- A store of the last 1 µs (R161): its line, source, time, ingress sequence number, and whether it is logged. -/
structure StoreSeen where
  line : Nat
  src : BitVec 16
  at_ : Ticks
  seq : Nat
  logged : Bool
  deriving DecidableEq, Repr

/-- The fabric port: the window base, the tally lines, the stores of the last 1 µs, and the contended-store log's sequence
number and next entry (R161). -/
structure FabSt where
  base : Option Nat
  tallies : List Tally
  recent : List StoreSeen
  clogSeq : BitVec 32
  clogPos : Nat
  deriving DecidableEq, Repr

/-! ## The steward (15, 16) -/

/-- What a command waits for (15 R410): a boundary, a two-phase change, the drain of a context, the twin's echo, an
attach, a resume pulse of a core, leaves that load an image. -/
inductive Wait where
  | none
  | boundary (b : Nat)
  | armed (id : BitVec 64)
  | drain (ctx : Nat)
  | echo
  | attach
  | resume (core : Nat)
  | leaves (ids : List Nat)
  deriving DecidableEq, Repr

/-- A command taken from a slot (15 R406, R413): its slot, SEQ, GEN, OPCODE, RESUME, TAG, payload of 220 bytes and
CMD_CRC, and its entry's STATE, STATUS, CURSOR and RESULT. `echoed` is set once side B has echoed it. -/
structure Cmd where
  slot : Nat
  seq : Nat
  gen : BitVec 16
  op : Nat
  resume : Bool
  tag : Nat
  payload : Bytes
  crc : Nat
  state : Nat
  status : Nat
  cursor : Nat
  result : Bytes
  wait : Wait
  echoed : Bool
  turn : Nat := 0
  accepted : Ticks := 0
  deriving DecidableEq, Repr

/-- An image in assembly (16 R427). -/
structure Assembly where
  op : Nat
  len : Nat
  bytes : Bytes
  deriving DecidableEq, Repr

/-- A mailbox (15 R402, R407, R413): head index, expected SEQ, return area (0 none), UPD of each entry, the running and
the waiting commands, images in assembly. -/
structure Mbx where
  n : Nat
  h : Nat
  seq : Nat
  ret : Nat
  upd : List Nat
  running : Option Cmd
  waiting : List Cmd
  asm : List Assembly
  deriving DecidableEq, Repr

/-- The steward (15): STW_BOOT, STW_HEART and the CK_E edge of the latest heartbeat (18 R466), the number of the next turn,
whether it scans, the mailboxes, effects that wait for their boundary, the pending reset that a command
or a hang led to, and the sources of slots posted over the management network (R420). -/
structure StwSt where
  boot : BitVec 32
  heart : BitVec 32
  beatAt : Nat
  turn : Nat
  scanning : Bool
  mbxs : List Mbx
  bnd : List BndItem
  resetDue : Option (ResetCause × Ticks)
  mgmtFrom : List (Nat × NetSource)
  deriving DecidableEq, Repr

/-! ## Flash, recorder and identity (19, 21) -/

/-- A firmware copy in flash (21 R532, R540): the bytes programmed, whether its whole image was verified at LAST, and
ACT_SEQ of its activation record. `owner` is the store that has not ended, by CMD_CRC and the STW_BOOT it ran under
(16 R430), and `len` the IMG_LEN that its parts give (16 R427). -/
structure FwCopy where
  bytes : Bytes
  whole : Bool
  act : Option Nat
  owner : Option (Nat × BitVec 32)
  len : Nat := 0
  deriving DecidableEq, Repr

/-- A configuration copy in flash: the bytes programmed and whether its end marker is (21 R540). -/
structure CfgCopy where
  bytes : Bytes
  marked : Bool
  owner : Option (Nat × BitVec 32)
  len : Nat := 0
  deriving DecidableEq, Repr

/-- An entry of the clock area (19 R492): its place 0 to 2,047, KIND, PCYC, OPTIME; not valid when it was cut short. -/
structure ClockEntry where
  place : Nat
  kind : Nat
  pcyc : Nat
  optime : Nat
  valid : Bool
  deriving DecidableEq, Repr

/-- A slot of the recorder ring that is not erased (19 R501). -/
structure RingRec where
  slot : Nat
  bytes : Bytes
  valid : Bool
  deriving DecidableEq, Repr

/-- The serial flash (19 R500): firmware copies, configuration copies, clock area, recorder ring, and the margin sum that
is kept there once the OTP step log is full (17 R461). -/
structure FlashSt where
  fw : List FwCopy
  cfg : List CfgCopy
  clock : List ClockEntry
  ring : List RingRec
  margin : Option Int
  deriving DecidableEq, Repr

/-- A metric of the period (19 R496): bin counts, least and greatest raw value with the OPTIME of their first samples. -/
structure Metric where
  bins : List Nat
  least : Option (Int × Nat)
  most : Option (Int × Nat)
  sat : Bool
  deriving DecidableEq, Repr

/-- The event recorder (19 R491 to R504): PCYC, the period in force and the one that follows it, the start of the period,
START, BIVOUAC_SEEN, RST_CAUSE at its start, the metrics, the finished record that waits for the flash, RSEQ, and the
counts that the per-second metrics were last taken from. -/
structure EvrSt where
  pcyc : Nat
  period : Nat
  nextPeriod : Nat
  optStart : Nat
  start : Bool
  bivSeen : Bool
  cause : BitVec 32
  metrics : List Metric
  waiting : Option Bytes
  rseq : Nat
  lastCounts : List Nat
  /-- When the latest grant step ended and the latest context 0 tray sheaf was sent, after T_k in 10 ns, and its SKEW_MAX;
  none once sampled. -/
  grantDone : Option Nat
  sheafOut : Option Nat
  skewMax : Option Nat
  /-- The least of health counters 280 to 287 in the records landed since the last ageing point. -/
  leafPdm : Option Nat
  deriving DecidableEq, Repr

/-- Identity (19 R506 to R512, 20 R519 to R522): DEVICE_ID, the private scalars that SEC holds, the alias certificate, M
and SVN of the running firmware, ID_FWIF, the image in force with its SHA-384. -/
structure IdSt where
  deviceId : BitVec 64
  deviceKey : Bytes
  aliasKey : Bytes
  aliasCert : Bytes
  m : Bytes
  svn : BitVec 16
  fwif : BitVec 32
  cfgHash : Bytes
  configured : Bool
  deriving DecidableEq, Repr

/-- A leaf's boot descriptor (21 R534). -/
structure BootDesc where
  fwLen : Nat
  fwAddr : Nat
  cfgAddr : Nat
  cfgLen : Nat
  svcCmd : Nat
  svcRet : Nat
  deriving DecidableEq, Repr

/-- The start (21): RST_CAUSE, BIV_CAUSE and SEM_ITEM, the item kinds of the image in force in directory order, the boot descriptor of a leaf, what the ROM loader has received
(none while it does not listen), the copies in force, and OPTIME at which the firmware left bivouac. -/
structure BootSt where
  cause : BitVec 32
  bivCause : Nat
  semItem : Nat
  kinds : List Nat
  desc : Option BootDesc
  rom : Option (List (Nat × Bytes))
  fwCopy : Option Nat
  cfgCopy : Option Nat
  runFrom : Option Nat
  /-- STATE of RST_STATE, which changes only at a boundary or a reset (20 R523). -/
  shown : Mode
  deriving DecidableEq, Repr

/-! ## Hangs and dumps (18 R463 to R479) -/

/-- What the hang samples of a unit show (R464): PROG, the run of samples with READY and that PROG, and the context at
the head of the queue when PROG last changed. -/
structure HangRun where
  cls : Nat
  idx : Nat
  prog : BitVec 32
  run : Nat
  ctx : Option Nat
  deriving DecidableEq, Repr

/-- The dump buffer (R477): DUMP_SEQ, its valid header fields (epoch, time, RST_CAUSE, STW_BOOT) and its entries; and a
DUMP_TAKE that has not ended (16 R430). -/
structure DumpSt where
  seq : Nat
  epoch : Nat
  time : Ticks
  cause : BitVec 32
  boot : BitVec 32
  entries : List Bytes
  owner : Option (Nat × BitVec 32)
  deriving DecidableEq, Repr

/-! ## Pins, status bits, outputs (02, 20) -/

/-- Output pins of 02. The reset column gives each its reset value (02 R45). -/
structure Pins where
  pllLock : Bool
  ckROut : Bool
  blkLive : Bool
  trcSreq : Bool
  trcSel : BitVec 8
  stopOut : Bool
  drnReq : Bool
  drnCore : BitVec 8
  rsmReq : Bool
  scnTck : Bool
  scnTms : Bool
  scnTdi : Bool
  scnTrstN : Bool
  hfAvld : Bool
  hfAop : BitVec 2
  hfAddr : BitVec 52
  hfAtag : BitVec 6
  hfWdata : BitVec 512
  pgLive : Bool
  pgVld : Bool
  pgWatt : BitVec 16
  vmReq : Bool
  vmStep : BitVec 8
  otpCs : Bool
  otpPgm : Bool
  otpAddr : BitVec 12
  otpDin : BitVec 32
  sbRdata : BitVec 32
  sbAck : Bool
  sbErr : Bool
  ppsOut : Bool
  /-- PWM_VALVE duty in steps of 1/4,000 (R77). -/
  pwmValve : Nat
  /-- The level of PWM_VALVE (12 R346). -/
  pwmHigh : Bool
  i3cScl : Bool
  /-- Lines that are released, none, unless a transaction drives them (R73 to R75). -/
  i3cSda : Option Bool
  smbClk : Option Bool
  smbDat : Option Bool
  spiSck : Bool
  spiCsN : Bool
  spiIo : Option (BitVec 4)
  /-- MG_TXD idles between frames (R72). -/
  mgTxIdle : Bool
  /-- Lanes whose ZL_TXD carries pitches; the others carry the idle pattern. -/
  zlTxd : List Nat
  deriving DecidableEq, Repr

/-- The pins at their reset values, with the safe valve duty (02 R45, R77). -/
def Pins.reset (duty : Nat) : Pins where
  pllLock := false
  ckROut := false
  blkLive := false
  trcSreq := false
  trcSel := 0
  stopOut := false
  drnReq := false
  drnCore := 0
  rsmReq := false
  scnTck := false
  scnTms := true
  scnTdi := false
  scnTrstN := false
  hfAvld := false
  hfAop := 0
  hfAddr := 0
  hfAtag := 0
  hfWdata := 0
  pgLive := false
  pgVld := false
  pgWatt := 0
  vmReq := false
  vmStep := 0
  otpCs := false
  otpPgm := false
  otpAddr := 0
  otpDin := 0
  sbRdata := 0
  sbAck := false
  sbErr := false
  ppsOut := false
  pwmValve := duty
  pwmHigh := false
  i3cScl := true
  i3cSda := none
  smbClk := none
  smbDat := none
  spiSck := false
  spiCsN := true
  spiIo := none
  mgTxIdle := true
  zlTxd := []

/-- The W1C bits of the status registers at their places (00 R16); the RO fields are read from the state they report. -/
structure Sticky where
  rstState : BitVec 32
  rstHang : BitVec 32
  pitonEv : BitVec 32
  tim : BitVec 32
  cap : BitVec 32
  trc : BitVec 32
  stw : BitVec 32
  win : BitVec 32
  glm : BitVec 32
  thr : BitVec 32
  grn : BitVec 32
  act : BitVec 32
  evr : BitVec 32
  fab : BitVec 32
  err : BitVec 32
  age : BitVec 32
  deriving DecidableEq, Repr

/-- The status registers with W1C bits, by field. -/
inductive StatReg where
  | rstState | rstHang | pitonEv | tim | cap | trc | stw | win | glm | thr | grn | act | evr | fab | err | age
  deriving DecidableEq, Repr

/-- The sideband port of a leaf (02 R63): when SB_ACK rose, in CK_E edges, and whether the port's own logic has failed. -/
structure SbSt where
  ackAt : Option Nat
  dead : Bool
  deriving DecidableEq, Repr

/-- What the instance emits, in order (00 R19): memory and fabric operations, answers, line words and bus writes. -/
inductive Out where
  /-- A segment on the scan network: its instruction and the bits fed back into it (08 R240). -/
  | scanShift (ir : BitVec 32) (irLen : Nat) (fed : List Bool)
  /-- Host-fabric port requests of a leaf (02 R56): read, write of 64 bytes, ordered flag write. -/
  | hfRead (addr : Nat)
  | hfWrite (addr : Nat) (line : Bytes)
  | hfFlag (addr : Nat) (v : BitVec 64)
  /-- Fabric operations issued (02 R71), by the context that owns them. -/
  | store64 (ctx : Nat) (addr : Nat) (line : Bytes)
  | fadd (ctx : Nat) (addr : Nat) (v : BitVec 64)
  | flag (ctx : Nat) (addr : Nat) (v : BitVec 64)
  /-- The answer of a fabric operation that ingressed: its data, or an access fault (20 R516, R517). -/
  | fabricAnswer (data : Bytes) (poisoned : Bool)
  | accessFault
  /-- The value that a register read returned on a path (20 R514). -/
  | regValue (path : Path) (addr : Nat) (v : Word)
  /-- A cell on a lane: the 256 bytes as they leave the MAC, scrambled (06 R162, R163). -/
  | cell (lane : Nat) (bytes : Bytes)
  /-- 256 bytes of the PRBS31 idle pattern on a lane in DETECT or EQUALISE (06 R179). -/
  | idlePattern (lane : Nat)
  /-- A HELLO, and the VC3 messages of AUTH with the certificate chain, ephemeral key and transcript signature, sent in
  clear while training (06 R179, R180). -/
  | helloSent (lane : Nat) (h : Hello)
  | authSent (lane : Nat) (chain : List Bytes) (ephemeral : Bytes) (signature : Bytes)
  /-- Serial flash, OTP, PMBus, I3C and management network (02 R62, R72 to R75). -/
  | flashErase (block : Nat)
  | flashProgram (addr : Nat) (bytes : Bytes)
  | otpWrite (addr : Nat) (v : BitVec 32)
  | pmbusWrite (converter : Nat) (command : Nat) (v : BitVec 16)
  | pmbusRead (converter : Nat) (command : Nat)
  /-- A dynamic address given to a target by its provisioned id, and a read of that target (02 R73). -/
  | i3cAssign (addr : Nat) (pid : BitVec 48)
  | i3cRead (addr : Nat)
  /-- A datagram that leaves the management port, and the words of MG_TXD that carry it (02 R72). -/
  | mgmtSend (dest : NetSource) (bytes : Bytes) (mgTxd : List (BitVec 32))
  /-- An IEEE 1588 message sent: its kind and sequence number, the receive stamp it answers and its transmit stamp, and over
  UDP/IPv6 the checksum formed anew once the stamp is in (03 R97, R98). -/
  | ptpSend (kind : PtpKind) (seq : BitVec 16) (rx tx : Ticks) (checksum : Option (BitVec 16))
  /-- A one-cycle RSM_REQ pulse with DRN_CORE (08 R246). -/
  | rsmPulse (core : Nat)
  /-- A host access fault reported with its address (02 R58). -/
  | hfFault (addr : Nat)
  deriving DecidableEq, Repr

/-! ## The machine -/

/-- Why a run stops with a fault. No command of this block does: the block reports its errors in its registers,
statuses and counters (00 R5). -/
inductive Fault where
  /-- Not raised. Safe: nothing is claimed of it. -/
  | none
  deriving DecidableEq, Repr

/-- Why a command is refused. -/
inductive Refusal where
  /-- Raised by an arm of `exec` whose meaning is not written. Safe: the run ends. -/
  | notModelled (mnemonic : String)
  /-- Raised by a command of a unit that the instance's profile does not have (00 R2); the string names the command.
  Safe: the run ends, and the hardware has no such event. -/
  | absentInProfile (command : String)
  deriving DecidableEq, Repr

/-- The state of one Ikielm instance. -/
structure State where
  /-- Fixed when the RTL is built (00 R2). -/
  profile : Profile
  cfg : Cfg
  /-- The straps as sampled (02 R79); all zero in a leaf. -/
  straps : Straps
  pins : Pins
  /-- CK_E edges since power, and the edge at which RST_PWR_N deasserted (02 R50). -/
  edges : Nat
  pwrEdge : Option Nat
  sb : SbSt
  /-- I3C targets with their dynamic addresses (02 R73). -/
  i3c : List (Nat × BitVec 48)
  /-- What is left of a leaf's fixed host-fabric allowance, in 1/25 byte (02 R57). -/
  hfAllow : Int
  tim : TimeSt
  sched : Sched
  lanes : List Lane
  cap : CapSt
  ctxs : List Ctx
  setups : List Setup
  red : RedSt
  trc : TrcSt
  watch : List ShareWatch
  lateReads : List LateRead
  stop : StopSt
  brk : BrkSt
  capt : List CaptArea
  captOut : List CaptMsg
  mem : MemSt
  chans : List Chan
  raw : RawSt
  act : ActSt
  grant : GrantSt
  err : ErrSt
  age : AgeSt
  /-- OTP words that are not zero (19 R505). -/
  otp : List (Nat × BitVec 32)
  /-- OPTIME in units of 1/16 s (19 R491). -/
  optime : Nat
  fab : FabSt
  stw : StwSt
  flash : FlashSt
  evr : EvrSt
  ident : IdSt
  boot : BootSt
  /-- Hang samples per unit, and the run of boundaries with a host port stalled (18 R464, R465). -/
  hangs : List HangRun
  hostStall : Nat
  dump : DumpSt
  mode : Mode
  twin : TwinSt
  sticky : Sticky
  /-- The W1C bits that an event has set in this CK_C cycle (00 R18). -/
  raisedNow : Sticky
  /-- Latched words of registers that span several words, per path and address (20 R515). -/
  latches : List (Path × Nat × Word)
  /-- Messages delivered by the lanes and not yet taken by their row. -/
  inbox : List RxMsg
  out : List Out
  pending : List Instr
  deriving DecidableEq, Repr

/-! ## The state right after reset -/

/-- The settings before any LOOP_SET (R344). -/
def LoopCfg.default : LoopCfg :=
  { tSet := 720, tHigh := 880, kp := 65536, ki := 256, uMin := 1677722, uMax := 16777216, pGrantMax := none, bHold := none
    bUp := 160, kt := 16, vHold := 20000, ilim := List.replicate 8 none, ilimHold := List.replicate 8 none, target := none }

/-- A metric without samples. -/
def Metric.empty : Metric := { bins := List.replicate 32 0, least := none, most := none, sat := false }

/-- The safe valve duty in steps of 1/4,000. -/
def safeDuty (code : Nat) : Nat := if code = 0 then 4000 else 250 * code

/-- A context id that is FREE and has held no generation since reset (14 R380, R381). -/
def Ctx.fresh (c : Nat) : Ctx where
  id := c
  life := .free
  last := none
  changed := 0
  before := none
  start := 0
  endB := 0
  endT := 0
  winBase := 0
  winSize := 0
  keyGen := none
  genDiscard := 0
  skips := 0
  clobbered := false
  jobStopped := false
  firstDue := false

/-- A mailbox as the firmware starts: H is 0 and SEQ 1 (15 R407). -/
def Mbx.fresh (n : Nat) : Mbx where
  n := n
  h := 0
  seq := 1
  ret := 0
  upd := List.replicate 64 0
  running := none
  waiting := []
  asm := []

/-- A class of units as built (17 R448). -/
def UnitClass.built (x : Nat × Nat × Nat) : UnitClass where
  cls := x.1
  inService := x.2.1
  spares := x.2.2
  retired := []
  faults := []
  resets := []
  fenced := []
  lost := []
  stands := []
  pool := (List.range x.2.2).map (· + x.2.1)

/-- Time at reset (03 R84 to R87, R94): FREE, the nominal increment, no source. -/
def TimeSt.fresh : TimeSt where
  now := { sec := 0, ns := 0, frac := 0 }
  incInt := 0
  incFrac := 0xA0000000
  stagedFrac := 0xA0000000
  commit := none
  intReg := 0
  setPend := none
  stepPend := none
  state := .free
  dupFail := false
  source := .none
  rank := 0
  integ := 0
  lockRun := 0
  overRun := 0
  heldIncs := []
  baseInc := 0xA0000000
  ppsAt := none
  syncAt := none
  coarse := none
  announced := []
  twoStep := none
  pdelayAnswers := 0
  pdelaySeq := 0
  pdelayReq := none
  pdelayResp := none
  peerDelay := none
  sourceChanges := 0
  cycle := 0

/-- No schedule is held (21 R547, R548); TIM_SLOT_DEV reads that no edge was seen (20 R524). -/
def Sched.fresh : Sched where
  anchor := none
  d := 0
  nextK := 0
  nextT := 0
  past := []
  knots := []
  adopt := none
  slotDev := 0x80000000
  slotNow := none
  slotEdges := []
  slotWindow := []
  slotMiss := 0

/-- The capture field at reset: every view is zero and the next cut is FIRST (04 R110). -/
def CapSt.fresh : CapSt where
  stooks := []
  health := List.replicate 1024 0
  ring := []
  reqs := []
  busUntil := 0
  token := false
  tokenCycle := 0
  cairnCycle := 0
  cairnAt := 0
  cutCycle := none
  lastCutBeat := 0
  waitNow := 0
  waitNext := none
  drainCyc := 0
  maxWait := 0
  plans := []
  mapSeq := 0
  first := true
  owner := List.replicate 64 0
  dieLost := false

def RedSt.fresh : RedSt where
  sheaves := []
  landing := []
  children := []
  changes := []
  leafExp := []
  shardExp := []
  plans := []
  owners := []
  arms := []
  armSeq := 0
  seen := []
  ended := []
  armLog := []
  armOrphan := 0
  armLate := 0
  dupMerge := 0
  lateDiscard := 0
  recover := []
  schedOwed := []
  assignOwed := []
  queries := []
  noneAnswered := []
  holds := []
  reports := []
  pubs := []

def TrcSt.fresh : TrcSt where
  shares := []
  group := 0
  closes := false
  recs := []
  req := none
  slotAt := none
  buffered := []
  closedK := 0

def StopSt.fresh : StopSt where
  phase := .idle
  at_ := 0
  confirmed := false
  doneSeen := false
  release := none
  rose := 0
  seg := 0
  segDone := 0
  segSince := 0
  leaving := false

def BrkSt.fresh : BrkSt where
  queue := []
  drain := none
  abort := none
  stopped := []
  orphans := []
  resumes := []
  serve := []
  window := 0
  due := none
  portFault := false

def MemSt.fresh : MemSt where
  hbm := []
  bad := []
  rekeyed := []
  live := []
  tables := []
  models := []
  places := []
  hot := []
  frozen := []
  jobs := []
  leafVerdicts := []
  stopped := []
  stream := []
  decimSec := 0
  decims := 0
  slotTail := 0

/-- The channels of a profile at reset: 512 with n = 0 at a tray block (09 R247, R251), none at a leaf. -/
def freshChans (p : Profile) : List Chan :=
  match p with
  | .leaf => []
  | .tray => List.replicate 512 { n := 0, sReady := 0, pReady := 0, cReady := [] }

def RawSt.fresh : RawSt where
  blocks := []
  pos := 0
  ckpts := []
  copies := []
  due := []
  areas := []
  lastErr := 0

/-- Actions at reset: safe values, the valve at its safe duty, budget 0 (12 R348, R349). -/
def ActSt.fresh (duty : Nat) : ActSt where
  rows := []
  policies := []
  dies := []
  lastStep := 0
  bAt := []
  loop := LoopCfg.default
  nextLoop := none
  u := 0
  integ := 0
  b := 0
  duty := duty
  outs := []
  safe := true
  holdup := false
  vAvg := 0
  iAvg := 0
  vSum := 0
  iSum := 0
  samples := 0
  strobe := 0
  noRead := 0
  tOut := none
  convs := []
  takeover := false
  aloneSince := none
  smbAlert := false
  floors := []

def GrantSt.fresh : GrantSt where
  last := none
  sinceNonSafe := none
  sinceAny := none
  waiting := none
  raisedAt := none
  noAck := false
  droppedAt := none

/-- Counters and units at reset; every word of a blank repair area is unused (17 R456, R457). -/
def ErrSt.fresh (p : Profile) : ErrSt where
  units := (builtUnits p).map UnitClass.built
  cnt := List.replicate 64 0
  total := List.replicate 64 0
  transients := 0
  winTransient := 0
  cntBefore := List.replicate 64 0
  cntNow := List.replicate 64 0
  winBefore := 0
  winNow := 0
  rowErrors := []
  repairs := []
  repairQ := []
  ppr := []
  hbmErrors := []
  pprQ := []
  otpFree := 2560

def AgeSt.fresh : AgeSt where
  roSum := []
  roCount := 0
  pdmMin := []
  ro := []
  pdm := []
  baseline := none
  lastHour := 0
  hiRun := 0
  critRun := 0
  vmApplied := 0
  req := none
  restore := 0
  refused := none
  lastStep := none
  upHours := []
  retuneQ := []
  retuning := none

def StwSt.fresh : StwSt where
  boot := 0
  heart := 0
  beatAt := 0
  turn := 0
  scanning := false
  mbxs := (List.range 17).map Mbx.fresh
  bnd := []
  resetDue := none
  mgmtFrom := []

/-- A blank flash: no copy, clock entry or record (19 R500). -/
def FlashSt.blank : FlashSt where
  fw := List.replicate 2 { bytes := [], whole := false, act := none, owner := none }
  cfg := List.replicate 2 { bytes := [], marked := false, owner := none }
  clock := []
  ring := []
  margin := none

/-- The recorder before the firmware starts; PERIOD is 3,600 s (19 R497, R504). -/
def EvrSt.fresh : EvrSt where
  pcyc := 0
  period := 3600
  nextPeriod := 3600
  optStart := 0
  start := false
  bivSeen := false
  cause := 0
  metrics := List.replicate 64 Metric.empty
  waiting := none
  rseq := 0
  lastCounts := List.replicate 8 0
  grantDone := none
  sheafOut := none
  skewMax := none
  leafPdm := none

def IdSt.fresh : IdSt where
  deviceId := 0
  deviceKey := []
  aliasKey := []
  aliasCert := []
  m := []
  svn := 0
  fwif := 0
  cfgHash := []
  configured := false

/-- RST_CAUSE after a power-on reset (18 R489). -/
def BootSt.fresh : BootSt where
  cause := 0x80000000
  bivCause := 0
  semItem := 0
  kinds := []
  desc := none
  rom := none
  fwCopy := none
  cfgCopy := none
  runFrom := none
  shown := .reset

def DumpSt.fresh : DumpSt where
  seq := 0
  epoch := 0
  time := 0
  cause := 0
  boot := 0
  entries := []
  owner := none

def TwinSt.fresh : TwinSt where
  paired := false
  belayVersion := false
  detachAt := none
  twinDetachAt := none
  twinDetached := false
  lostPair := false
  attach := none
  startAt := none
  startSince := 0
  sideASeen := none
  lanes := 64
  toldLanes := 64
  handOver := false
  scoresFrom := 0

/-- The W1C words, all clear (20 R518). -/
def Sticky.clear : Sticky where
  rstState := 0
  rstHang := 0
  pitonEv := 0
  tim := 0
  cap := 0
  trc := 0
  stw := 0
  win := 0
  glm := 0
  thr := 0
  grn := 0
  act := 0
  evr := 0
  fab := 0
  err := 0
  age := 0

/-- The deepest that the fixed allowance fills, in 1/25 byte: 1 ms at 64 MB/s (assumption 139). -/
def hfAllowMax : Int := 64000 * 25

/-- The straps of a leaf, which has none, and before they are sampled (02 R79). -/
def noStraps : Straps where
  side := .a
  boot := 0
  safeGrant := 0
  safeValve := 0
  safeIlim := 0
  mgmtEn := false

/-- An instance of a profile in reset, with everything at its reset value, its flash blank and its OTP unprogrammed. -/
def State.atReset (p : Profile) (straps : Straps) : State where
  profile := p
  cfg := Cfg.default
  straps := straps
  pins := Pins.reset (safeDuty straps.safeValve.toNat)
  edges := 0
  pwrEdge := none
  sb := { ackAt := none, dead := false }
  i3c := []
  hfAllow := hfAllowMax
  tim := TimeSt.fresh
  sched := Sched.fresh
  lanes := []
  cap := CapSt.fresh
  ctxs := (List.range 16).map Ctx.fresh
  setups := []
  red := RedSt.fresh
  trc := TrcSt.fresh
  watch := []
  lateReads := []
  stop := StopSt.fresh
  brk := BrkSt.fresh
  capt := []
  captOut := []
  mem := MemSt.fresh
  chans := freshChans p
  raw := RawSt.fresh
  act := ActSt.fresh (safeDuty straps.safeValve.toNat)
  grant := GrantSt.fresh
  err := ErrSt.fresh p
  age := AgeSt.fresh
  otp := []
  optime := 0
  fab := { base := none, tallies := [], recent := [], clogSeq := 0, clogPos := 0 }
  stw := StwSt.fresh
  flash := FlashSt.blank
  evr := EvrSt.fresh
  ident := IdSt.fresh
  boot := BootSt.fresh
  hangs := []
  hostStall := 0
  dump := DumpSt.fresh
  mode := .reset
  twin := TwinSt.fresh
  sticky := Sticky.clear
  raisedNow := Sticky.clear
  latches := []
  inbox := []
  out := []
  pending := []

/-- The machine right after reset: a tray block (assumption 1) at its first power-up with RST_PWR_N asserted. Its firmware
starts with the command POWER_ON_RESET. -/
def State.reset : State := State.atReset .tray noStraps

end Sys2Proof.Machine
end

