-- ==== Sys2Proof/Machine/Ops.lean ====
section
/-!
DEFINITION. The named operations that the meanings share: byte strings, lists keyed by a number, time, sticky status
bits, memory.
-/

namespace Sys2Proof.Machine

/-- The answer type of every meaning. -/
abbrev Res := Host.Outcome State Fault Refusal

/-! ## Lists -/

/-- Apply `f` to every element that satisfies `p`. -/
def mapIf {α : Type} (p : α → Bool) (f : α → α) (l : List α) : List α :=
  l.map fun a => if p a then f a else a

/-- Replace the elements that satisfy `p` by one `a` at the end. -/
def putBack {α : Type} (p : α → Bool) (a : α) (l : List α) : List α :=
  l.filter (fun x => !p x) ++ [a]

/-- Element i of a list, or a default. -/
def nth {α : Type} (l : List α) (i : Nat) (d : α) : α := l.getD i d

/-- Apply `f` at position i; the list keeps its length. -/
def modifyAt {α : Type} (l : List α) (i : Nat) (f : α → α) : List α := l.modify i f

/-- Insert by a key in ascending order, after equal keys. -/
def insertBy {α : Type} (key : α → Nat) (a : α) : List α → List α
  | [] => [a]
  | x :: xs => if key x ≤ key a then x :: insertBy key a xs else a :: x :: xs

/-- Sort by a key, keeping the order of equal keys. -/
def sortBy {α : Type} (key : α → Nat) (l : List α) : List α := l.foldl (fun acc a => insertBy key a acc) []

def sumNat (l : List Nat) : Nat := l.foldl (· + ·) 0

/-! ## Byte strings (00 R13) -/

/-- n bytes of v, lowest first. -/
def le : Nat → Nat → Bytes
  | 0, _ => []
  | n + 1, v => BitVec.ofNat 8 v :: le n (v / 256)

/-- The value of a little-endian byte string. -/
def unle : Bytes → Nat
  | [] => 0
  | b :: bs => b.toNat + 256 * unle bs

/-- n bytes from offset o; bytes past the end read as zero. -/
def slice (b : Bytes) (o n : Nat) : Bytes :=
  let t := (b.drop o).take n
  t ++ List.replicate (n - t.length) 0

/-- The little-endian field of n bytes at offset o. -/
def fld (b : Bytes) (o n : Nat) : Nat := unle (slice b o n)

/-- n zero bytes. -/
def zeros (n : Nat) : Bytes := List.replicate n 0

/-- Pad with zeros to a multiple of m. -/
def padTo (m : Nat) (b : Bytes) : Bytes := b ++ zeros ((m - b.length % m) % m)

def isZero (b : Bytes) : Bool := b.all (· == 0)

/-- Bits hi..lo of a number. -/
def bits (v hi lo : Nat) : Nat := (v / 2 ^ lo) % 2 ^ (hi - lo + 1)

def bit (v i : Nat) : Bool := v / 2 ^ i % 2 == 1

def b2n (b : Bool) : Nat := if b then 1 else 0

/-- The signed value of the low w bits. -/
def signed (w v : Nat) : Int :=
  let m := v % 2 ^ w
  if m < 2 ^ (w - 1) then (m : Int) else (m : Int) - 2 ^ w

/-- The w-bit two's complement code of an integer. -/
def code (w : Nat) (i : Int) : Nat := (i % 2 ^ w).toNat

def clampInt (lo hi x : Int) : Int := max lo (min hi x)

/-- The bitmap of a list of bit numbers. -/
def mapOf (l : List Nat) : Nat := (l.eraseDups).foldl (fun a i => a + 2 ^ i) 0

/-- CRC-32C of Castagnoli (13 R354): reflected polynomial 0x82F6_3B78, initial value and final XOR all ones. -/
def crcBit (c : BitVec 32) : BitVec 32 :=
  if c.getLsbD 0 then (c >>> 1) ^^^ 0x82F63B78#32 else c >>> 1

def crcByte (c : BitVec 32) (b : Byte) : BitVec 32 :=
  crcBit (crcBit (crcBit (crcBit (crcBit (crcBit (crcBit (crcBit (c ^^^ b.setWidth 32))))))))

def crc32c (b : Bytes) : BitVec 32 := ~~~ (b.foldl crcByte 0xFFFFFFFF#32)

/-- A byte string closed by its CRC-32C. -/
def sealCrc (b : Bytes) : Bytes := b ++ le 4 (crc32c b).toNat

def eraseBlock : Nat := 65536

/-- The last four bytes are the CRC-32C of the bytes before them. -/
def crcOk (b : Bytes) : Bool :=
  4 ≤ b.length && fld b (b.length - 4) 4 == (crc32c (b.take (b.length - 4))).toNat

end Sys2Proof.Machine

namespace Sys2Proof

open Sys2Proof.Machine

/-! ## Ikielm time (00 R14, R15) -/

/-- A number of nanoseconds in units of 2^-32 ns. -/
def nsT (n : Nat) : Ticks := n * 2 ^ 32

/-- Ticks of one TAI second. -/
def secT : Ticks := nsT 1000000000

def ITime.toTicks (t : ITime) : Ticks := (t.sec.toNat * 1000000000 + t.ns.toNat) * 2 ^ 32 + t.frac.toNat

def ITime.ofTicks (t : Ticks) : ITime where
  sec := BitVec.ofNat 64 (t / secT)
  ns := BitVec.ofNat 32 (t % secT / 2 ^ 32)
  frac := BitVec.ofNat 32 t

/-- A malformed time (R15). -/
def ITime.malformed (t : ITime) : Bool := 999999999 < t.ns.toNat

/-- The 128-bit form of R14. -/
def ITime.ofBits (v : BitVec 128) : ITime where
  sec := (v >>> 64).setWidth 64
  ns := (v >>> 32).setWidth 32
  frac := v.setWidth 32

def ITime.toBits (t : ITime) : BitVec 128 := t.sec ++ t.ns ++ t.frac

/-- The 16 bytes of a time in a record (R13, R14). -/
def timeBytes (t : Ticks) : Bytes := le 16 (ITime.ofTicks t).toBits.toNat

def ITime.ofBytes (b : Bytes) : ITime := ITime.ofBits (BitVec.ofNat 128 (unle (b.take 16)))

def LaneUse.isBelay : LaneUse → Bool
  | .belay _ => true
  | _ => false
def LaneUse.isDown : LaneUse → Bool
  | .down _ => true
  | _ => false
def LaneUse.isUp : LaneUse → Bool
  | .up _ => true
  | _ => false
def LaneUse.isPeer : LaneUse → Bool
  | .peer _ => true
  | _ => false
def LaneUse.isFabric : LaneUse → Bool
  | .fabric _ => true
  | _ => false

end Sys2Proof

namespace Sys2Proof.Machine

/-- The time counter in ticks. -/
def State.now (s : State) : Ticks := s.tim.now.toTicks

/-! ## Status bits and outputs -/

/-- Set the bits of `m` in a sticky word. -/
def orBit (w : BitVec 32) (i : Nat) : BitVec 32 := w ||| (1#32 <<< i)

def Sticky.set (k : Sticky) (r : StatReg) (i : Nat) : Sticky :=
  match r with
  | .rstState => { k with rstState := orBit k.rstState i }
  | .rstHang => { k with rstHang := orBit k.rstHang i }
  | .pitonEv => { k with pitonEv := orBit k.pitonEv i }
  | .tim => { k with tim := orBit k.tim i }
  | .cap => { k with cap := orBit k.cap i }
  | .trc => { k with trc := orBit k.trc i }
  | .stw => { k with stw := orBit k.stw i }
  | .win => { k with win := orBit k.win i }
  | .glm => { k with glm := orBit k.glm i }
  | .thr => { k with thr := orBit k.thr i }
  | .grn => { k with grn := orBit k.grn i }
  | .act => { k with act := orBit k.act i }
  | .evr => { k with evr := orBit k.evr i }
  | .fab => { k with fab := orBit k.fab i }
  | .err => { k with err := orBit k.err i }
  | .age => { k with age := orBit k.age i }

/-- An event sets W1C bit i of a status register (00 R16), and is known in its cycle (R18). -/
def State.setBit (s : State) (r : StatReg) (i : Nat) : State :=
  { s with sticky := s.sticky.set r i, raisedNow := s.raisedNow.set r i }

/-- A W1C write (00 R16): each 1 within the W1C mask clears its bit, unless an event sets it in that cycle (R18). -/
def w1c (mask now w v : BitVec 32) : BitVec 32 := w &&& ~~~ (v &&& mask &&& ~~~ now)

def State.emit (s : State) (o : Out) : State := { s with out := s.out ++ [o] }

def State.emits (s : State) (o : List Out) : State := { s with out := s.out ++ o }

/-- The clocks of the block run: it is neither in reset nor without power. -/
def State.clocked (s : State) : Bool :=
  match s.mode with
  | .off | .reset | .held => false
  | _ => true

def State.isTray (s : State) : Bool := s.profile == .tray
def State.isLeaf (s : State) : Bool := s.profile == .leaf

/-- The block is of this profile and its clocks run. -/
def State.runsAs (s : State) (p : Profile) : Bool := s.profile == p && s.clocked

/-- The block is in reset: the sideband answers every access with SB_ERR (02 R63). -/
def State.inReset (s : State) : Bool :=
  match s.mode with
  | .off | .reset => true
  | _ => false

/-- The paths of a profile (20 R514); none of them reaches a register while the block is in reset. -/
def State.serves (s : State) (p : Path) : Bool :=
  !s.inReset && match p, s.profile with
  | .regRead, _ | .sideband, .leaf | .fabric, .tray => true
  | .sideband, .tray | .fabric, .leaf => false

/-- A meaning of a block that runs: in reset and without power nothing happens, and outputs hold their reset values (02
R45, R47). -/
def whenClocked (s : State) (f : State → State) : State := if s.clocked then f s else s

/-- Run a meaning that only a tray block has (00 R2), whether its clocks run or not. -/
def onTrayEver (name : String) (s : State) (f : State → State) : Res :=
  match s.profile with
  | .tray => .next (f s)
  | .leaf => .refused (.absentInProfile name)

/-- Run a meaning that only a leaf has (00 R2), whether its clocks run or not. -/
def onLeafEver (name : String) (s : State) (f : State → State) : Res :=
  match s.profile with
  | .leaf => .next (f s)
  | .tray => .refused (.absentInProfile name)

/-- Run a meaning that only a tray block has (00 R2) while its clocks run. -/
def onTray (name : String) (s : State) (f : State → State) : Res := onTrayEver name s fun s => whenClocked s f

/-- Run a meaning that only a leaf has (00 R2) while its clocks run. -/
def onLeaf (name : String) (s : State) (f : State → State) : Res := onLeafEver name s fun s => whenClocked s f

/-! ## Lanes -/

def State.lane? (s : State) (n : Nat) : Option Lane := s.lanes.find? (·.n == n)

/-- Change lane n; the others stand. -/
def State.onLane (s : State) (n : Nat) (f : Lane → Lane) : State :=
  { s with lanes := mapIf (·.n == n) f s.lanes }

/-- Count an event in a lane counter of 06 R185. -/
def Lane.bump (l : Lane) (i : Nat) : Lane := { l with ctr := modifyAt l.ctr i (· + 1) }

/-- Count events of a leaf in health counter i (04 R113). -/
def State.countHealth (s : State) (i n : Nat) : State :=
  { s with cap := { s.cap with health := modifyAt s.cap.health i (· + BitVec.ofNat 64 n) } }

def State.setHealth (s : State) (i : Nat) (v : BitVec 64) : State :=
  { s with cap := { s.cap with health := modifyAt s.cap.health i fun _ => v } }

/-- The lane is trained: it is keyed and in UP or STANDBY (06 R179). -/
def Lane.trained (l : Lane) : Bool := l.st == .up || l.st == .standby

def State.laneUp (s : State) (n : Nat) : Bool :=
  match s.lane? n with
  | some l => l.st == .up
  | none => false

/-- Place a control message on a lane direction, which takes at most 144 bytes in a pitch; what comes beyond that waits for
the pitches that follow, in its order (06 R173). -/
def Lane.place (l : Lane) (m : Bytes) : Lane :=
  if l.ctlWait.isEmpty && l.placed + m.length ≤ 144 then { l with ctl := l.ctl ++ [m], placed := l.placed + m.length }
  else { l with ctlWait := l.ctlWait ++ [m] }

/-- A new pitch begins: the messages that waited are placed while they fit. -/
def Lane.placeWaiting : List Bytes → Lane → Lane
  | [], l => { l with ctlWait := [] }
  | m :: ms, l =>
    if l.placed + m.length ≤ 144 then Lane.placeWaiting ms { l with ctl := l.ctl ++ [m], placed := l.placed + m.length }
    else { l with ctlWait := m :: ms }

/-- Queue a control message on a lane in UP or STANDBY (06 R172, R183); one to a lane that is not trained is lost. -/
def State.sendCtl (s : State) (n : Nat) (m : Bytes) : State :=
  s.onLane n fun l => if l.trained then l.place m else l

def State.sendCtlAll (s : State) (ns : List Nat) (m : Bytes) : State :=
  ns.foldl (fun s n => s.sendCtl n m) s

/-- The lanes that are for a given use, carrying traffic (02 R67, R68). -/
def State.lanesFor (s : State) (p : LaneUse → Bool) : List Nat :=
  (s.lanes.filter fun l => p l.plan.use && l.active).map (·.n)

/-- Some belay lane is UP (05 R146). -/
def State.belayUp (s : State) : Bool :=
  s.lanes.any fun l => l.plan.use.isBelay && l.st == .up

/-- The twin carries the role, as its HELLO on a belay lane that is UP said. -/
def State.twinSeenCarrying (s : State) : Bool :=
  s.lanes.any fun l => l.plan.use.isBelay && l.st == .up && l.peer.any (·.carrying)

/-- The twin carries the role, as its HELLO on a trained belay lane said; in bivouac those lanes stay in STANDBY. -/
def State.twinHeardCarrying (s : State) : Bool :=
  s.lanes.any fun l => l.plan.use.isBelay && l.trained && l.peer.any (·.carrying)

/-- This member is loop master (12 R341, R346): side A of a pair; an unpaired member, unless its twin carries the role;
side B whose pair ended with the loss of every belay lane once it has taken over, or once it hears that its twin no longer
carries the role; an instance whose twin runs a different revision (00 R10). -/
def State.loopMaster (s : State) : Bool :=
  let master := match s.cfg.side with
    | .a => s.twin.paired || !s.twinHeardCarrying
    | .b => s.act.takeover || (!s.twin.paired && !s.twinHeardCarrying && (!s.twin.lostPair || s.belayUp))
  s.isTray && s.clocked && s.mode != .detached && s.mode != .degraded
    && (master || (!s.twin.paired && s.twin.belayVersion && s.mode == .service))

/-- Side B sees side A from nowhere (12 R341): every belay lane is out of UP, and no leaf reports its lane to side A UP. -/
def State.cutOff (s : State) : Bool :=
  s.cfg.side == .b && s.isTray && !(s.lanes.any fun l => l.plan.use.isBelay && l.st == .up)
    && !(s.red.reports.any fun r => r.2.1 == 5 && r.2.2 == 0)

/-- The first belay lane in UP, which carries control messages to the twin. -/
def State.belayLane? (s : State) : Option Nat :=
  (s.lanes.find? fun l => l.plan.use.isBelay && l.st == .up).map (·.n)

def State.sendBelay (s : State) (m : Bytes) : State :=
  match s.belayLane? with
  | some n => s.sendCtl n m
  | none => s

/-- Remove a delivered message from the inbox. -/
def State.taken (s : State) (lane : Nat) (b : Bytes) : State :=
  { s with inbox := s.inbox.filter fun m => !(m.lane == lane && m.bytes == b) }

/-! ## Contexts (14) -/

def State.ctx? (s : State) (c : Nat) : Option Ctx := s.ctxs.find? (·.id == c)

def State.onCtx (s : State) (c : Nat) (f : Ctx → Ctx) : State := { s with ctxs := mapIf (·.id == c) f s.ctxs }

def CtxLife.gen? : CtxLife → Option (BitVec 16)
  | .free => none
  | .active g => some g
  | .draining g => some g

/-- The generation that the instance holds for an id (14 R381). -/
def State.heldGen (s : State) (c : Nat) : Option (BitVec 16) := (s.ctx? c).bind fun x => x.life.gen?

def State.isActive (s : State) (c : Nat) : Bool :=
  match s.ctx? c with
  | some { life := .active _, .. } => true
  | _ => false

/-- The generation held at an earlier time, back to the one before the present one (06 R178). -/
def State.heldGenAt (s : State) (c : Nat) (t : Ticks) : Option (BitVec 16) :=
  (s.ctx? c).bind fun x => if t < x.changed then x.before else x.life.gen?

/-- The generation as carried in records: 0 for a FREE id. -/
def State.genOf (s : State) (c : Nat) : BitVec 16 := (s.heldGen c).getD 0

/-! ## Memory (09 R247): (address, byte) pairs, addresses rising, an unlisted address reads 0 -/

def memRead : List Host.Cell → Nat → Byte
  | [], _ => 0
  | (a, b) :: m, x => if a = x then b else memRead m x

def memReads (m : List Host.Cell) (a n : Nat) : Bytes := (List.range n).map fun i => memRead m (a + i)

/-- Write one byte, keeping the form: a zero byte is not listed. -/
def memWrite : List Host.Cell → Nat → Byte → List Host.Cell
  | [], x, v => if v = 0 then [] else [(x, v)]
  | (a, b) :: m, x, v =>
    if a < x then (a, b) :: memWrite m x v
    else if a = x then (if v = 0 then m else (x, v) :: m)
    else (if v = 0 then (a, b) :: m else (x, v) :: (a, b) :: m)

def memWrites (m : List Host.Cell) (a : Nat) : Bytes → List Host.Cell
  | [] => m
  | b :: bs => memWrites (memWrite m a b) (a + 1) bs

/-- The canonical form: addresses strictly rising, no listed zero. -/
def Memory.wf : List Host.Cell → Bool
  | [] => true
  | [(_, b)] => b != 0
  | (a, b) :: (a', b') :: m => b != 0 && decide (a < a') && Memory.wf ((a', b') :: m)

end Sys2Proof.Machine
end

