-- ==== Sys2Proof/Machine/Channels.lean ====
section
/-!
DEFINITION. The HBM channels of a tray block (09 R247, R250, R251): the channel of an address, the transfer grid, and the
rotation of each channel's slots over the classes of work. A command makes its transfers ready; the edge of CK_E serves
them. When a line moves is not observed otherwise (assumption 134).
-/

namespace Sys2Proof.Machine

/-- Channel of an HBM address (R247): in the feature-table region the portion it lies in, elsewhere its line modulo 512. -/
def State.channelOf (s : State) (a : Nat) : Nat :=
  let (base, size) := s.cfg.regions.getD 1 (0, 0)
  if base ≤ a && a < base + size && 0 < size / 512 then (a - base) / (size / 512) else a / 64 % 512

/-- n further transfers of a share. -/
def addShare (share n : Nat) (l : List (Nat × Nat)) : List (Nat × Nat) :=
  let old := ((l.find? (·.1 == share)).map (·.2)).getD 0
  putBack (·.1 == share) (share, old + n) l

/-- n transfers of a class become ready in a channel. -/
def Chan.add (cls : XferClass) (n : Nat) (c : Chan) : Chan :=
  match cls with
  | .s => { c with sReady := c.sReady + n }
  | .p => { c with pReady := c.pReady + n }
  | .c share => { c with cReady := addShare share n c.cReady }

/-- A share's next transfer uses the slot, if it has one. -/
def takeShare (share : Nat) (l : List (Nat × Nat)) : List (Nat × Nat) :=
  (l.map fun x => if x.1 == share then (x.1, x.2 - 1) else x).filter (0 < ·.2)

/-- A transfer slot of a channel (R251): class S goes first; otherwise n rises by one, and the slot is class P's where n is
even and a share's where it is odd, used or left idle. -/
def Chan.slot (shares : Nat) (c : Chan) : Chan :=
  if 0 < c.sReady then { c with sReady := c.sReady - 1 }
  else
    let n := c.n + 1
    if n % 2 == 0 then { c with n := n, pReady := c.pReady - 1 }
    else { c with n := n, cReady := takeShare ((n - 1) / 2 % shares) c.cReady }

/-- A slot starts in a CK_E cycle (R250): a frame is 1,024 CK_P cycles, two to a CK_E cycle, and slot j of 125 starts at
cycle floor(1,024 j / 125). Frames count from the first edge after reset (assumption 134). -/
def slotCycle (cycle : Nat) : Bool :=
  let p := cycle % 512
  (List.range 125).any fun j => j * 1024 / 125 / 2 == p

/-- The slots of all channels in a CK_E cycle. -/
def transferSlots (s : State) : State :=
  if s.isTray && slotCycle s.tim.cycle then { s with chans := s.chans.map (Chan.slot (max 1 s.cfg.shareCount)) } else s

/-- Transfers of a class become ready in one channel. -/
def State.xfer (s : State) (cls : XferClass) (chan n : Nat) : State :=
  { s with chans := modifyAt s.chans (chan % 512) (Chan.add cls n) }

/-- n lines that begin in a channel and lie across the channels in turn become ready. -/
def State.stripe (s : State) (cls : XferClass) (first n : Nat) : State :=
  { s with chans := s.chans.mapIdx fun i c =>
      let m := (n + 511 - (i + 512 - first % 512) % 512) / 512
      if m = 0 then c else c.add cls m }

/-- Class-S work of epoch k is done now (R273): SLOT_TAIL counts from the latest boundary. -/
def noteTail (k : Nat) (s : State) : State :=
  match s.sched.past with
  | b :: _ => if b.k == k then { s with mem := { s.mem with slotTail := s.now - b.t } } else s
  | [] => s

/-- Lines of a byte string. -/
def lineCount (bytes : Nat) : Nat := (bytes + 63) / 64

end Sys2Proof.Machine
end

