-- ==== Sys2Proof/Machine/Fold.lean ====
section
/-!
DEFINITION. The exact fold (07 R188 to R201): operators, histograms, QUANT, plan checks, and the sheaf body.
-/

namespace Sys2Proof

open Sys2Proof.Machine

/-! ## Parameters of a descriptor (R198) -/

def PlanField.nb (f : PlanField) : Nat := f.p2.toNat
def PlanField.oLo (f : PlanField) : Nat := bits f.p2.toNat 7 0
def PlanField.noct (f : PlanField) : Nat := bits f.p2.toNat 15 8
def PlanField.cmp (f : PlanField) : Nat := bits f.p2.toNat 2 0
def PlanField.width (f : PlanField) : Nat := bits f.p2.toNat 12 0
def PlanField.pos (f : PlanField) : Nat := bits f.p2.toNat 21 16
def PlanField.topK (f : PlanField) : Nat := bits f.p2.toNat 6 0
def PlanField.dirSmall (f : PlanField) : Bool := bit f.p2.toNat 8
def PlanField.q (f : PlanField) : Nat := bits f.p2.toNat 15 0

/-- The operator of a descriptor at a level; a shard partial has the fleet operators (R202). -/
def PlanField.opAt (f : PlanField) : Level → RedOp
  | .tray => f.opT
  | .chassis => f.opC
  | .shard | .fleet => f.opF

/-- Indices of a histogram: underflow, bins, overflow (R193). -/
def PlanField.histLen (f : PlanField) (op : RedOp) : Nat :=
  if op == .histLin then f.nb + 2 else 4 * f.noct + 2

/-- Is the level's operator lifted from the SUM below (R199)? -/
def PlanField.lifted (f : PlanField) : Level → Bool
  | .tray => false
  | .chassis => f.liftC
  | .shard => f.liftF
  | .fleet => false

/-- The size of a field at a level (R200). -/
def PlanField.size (f : PlanField) (op : RedOp) : Nat :=
  match op with
  | .none => 0
  | .sum | .min | .max | .count | .quant => 16
  | .histLin | .histLog2 => (4 * f.histLen op + 15) / 16 * 16
  | .or | .and => f.width / 8
  | .topk => 16 * f.topK

/-- The bytes that a field takes up at a level: the next one starts on a 16-byte boundary (R200). -/
def PlanField.room (f : PlanField) (lv : Level) : Nat := (f.size (f.opAt lv) + 15) / 16 * 16

end Sys2Proof

namespace Sys2Proof.Machine

/-! ## Order (R192, R196) -/

def noEntity : BitVec 32 := 0xFFFFFFFF

/-- The largest and smallest value of a signedness. -/
def maxVal (sg : Bool) : BitVec 64 := if sg then 0x7FFFFFFFFFFFFFFF else 0xFFFFFFFFFFFFFFFF
def minVal (sg : Bool) : BitVec 64 := if sg then 0x8000000000000000 else 0

def valLt (sg : Bool) (a b : BitVec 64) : Bool := if sg then decide (a.toInt < b.toInt) else decide (a.toNat < b.toNat)

/-- The pair a goes before b: smaller value (larger when `big`), then smaller entity id. -/
def pairBefore (sg big : Bool) (a b : BitVec 64 × BitVec 32) : Bool :=
  if a.1 == b.1 then decide (a.2.toNat < b.2.toNat) else if big then valLt sg b.1 a.1 else valLt sg a.1 b.1

/-- Insert a pair into an ordered list. -/
def insertPair (sg big : Bool) (x : BitVec 64 × BitVec 32) : List (BitVec 64 × BitVec 32) → List (BitVec 64 × BitVec 32)
  | [] => [x]
  | y :: ys => if pairBefore sg big x y then x :: y :: ys else y :: insertPair sg big x ys

/-- The union of two ordered lists, ordered. -/
def unionPairs (sg big : Bool) (a b : List (BitVec 64 × BitVec 32)) : List (BitVec 64 × BitVec 32) :=
  a.foldl (fun l x => insertPair sg big x l) b

/-! ## States (R192) -/

/-- The identity of an operator. -/
def identityOf (f : PlanField) (op : RedOp) : FieldSt :=
  match op with
  | .none | .quant => .none
  | .sum => .sum 0
  | .min => .pair (maxVal f.signed) noEntity
  | .max => .pair (minVal f.signed) noEntity
  | .histLin | .histLog2 => .hist (List.replicate (f.histLen op) 0)
  | .count => .count 0
  | .or => .bitmap f.width 0
  | .and => .bitmap f.width (2 ^ f.width - 1)
  | .topk => .top (List.replicate f.topK ((if f.dirSmall then maxVal f.signed else minVal f.signed), noEntity))

/-- The merge of an operator. -/
def mergeField (f : PlanField) (op : RedOp) (a b : FieldSt) : FieldSt :=
  match a, b with
  | .sum x, .sum y => .sum (x + y)
  | .pair v e, .pair w g =>
    if pairBefore f.signed (op == .max) (w, g) (v, e) then .pair w g else .pair v e
  | .hist x, .hist y => .hist (List.zipWith (· + ·) x y)
  | .count x, .count y => .count (x + y)
  | .bitmap w x, .bitmap _ y => .bitmap w (if op == .and then x &&& y else x ||| y)
  | .top x, .top y => .top ((unionPairs f.signed (!f.dirSmall) y x).take f.topK)
  | x, _ => x

/-- HIST_LIN (R193). -/
def histLinIdx (lo width : Int) (nb : Nat) (x : Int) : Nat :=
  if x < lo then 0 else
    let b := ((x - lo) / width).toNat
    if nb ≤ b then nb + 1 else b + 1

/-- HIST_LOG2 (R193). -/
def histLog2Idx (oLo noct x : Nat) : Nat :=
  if x < 2 ^ oLo then 0 else
    let o := Nat.log2 x
    if oLo + noct ≤ o then 4 * noct + 1
    else
      let s := if 2 ≤ o then x / 2 ^ (o - 2) % 4 else if o == 1 then x % 2 * 2 else 0
      4 * (o - oLo) + s + 1

/-- COUNT's comparison (R194). -/
def cmpHolds (c : Nat) (sg : Bool) (x k : BitVec 64) : Bool :=
  match c with
  | 0 => true
  | 1 => valLt sg x k
  | 2 => !valLt sg k x
  | 3 => x == k
  | 4 => x != k
  | 5 => !valLt sg x k
  | 6 => valLt sg k x
  | _ => false

/-- The field state of one observation (R192 to R196). -/
def observe (f : PlanField) (op : RedOp) (x : BitVec 64) (ent : BitVec 32) : FieldSt :=
  let one := fun i n => FieldSt.hist ((List.range n).map fun j => if j = i then 1 else 0)
  match op with
  | .none | .quant => .none
  | .sum => .sum (if f.signed then x.signExtend 128 else x.setWidth 128)
  | .min | .max => .pair x ent
  | .histLin => one (histLinIdx f.p0.toInt f.p1.toNat f.nb x.toInt) (f.histLen .histLin)
  | .histLog2 => one (histLog2Idx f.oLo f.noct x.toNat) (f.histLen .histLog2)
  | .count => .count (if cmpHolds f.cmp f.signed x f.p0 then 1 else 0)
  | .or => .bitmap f.width (x.toNat * 2 ^ (64 * f.pos))
  | .and => .bitmap f.width (2 ^ f.width - 1 - (2 ^ 64 - 1 - x.toNat) * 2 ^ (64 * f.pos))
  | .topk =>
    .top ((insertPair f.signed (!f.dirSmall) (x, ent)
      (List.replicate f.topK ((if f.dirSmall then maxVal f.signed else minVal f.signed), noEntity))).take f.topK)

/-- A child's SUM saturated to the signed 64-bit range (R199). -/
def satSum (v : BitVec 128) : BitVec 64 :=
  BitVec.ofInt 64 (clampInt (-(2 ^ 63)) (2 ^ 63 - 1) v.toInt)

/-! ## Body layout (R200) -/

def le16pad (b : Bytes) : Bytes := padTo 16 b

/-- The bytes of a field state. -/
def FieldSt.bytes (s : FieldSt) : Bytes :=
  match s with
  | .none => []
  | .sum v => le 16 v.toNat
  | .pair v e => le 8 v.toNat ++ le 4 e.toNat ++ zeros 4
  | .hist c => le16pad (c.flatMap fun n => le 4 n.toNat)
  | .count n => le 8 n.toNat ++ zeros 8
  | .bitmap w v => le (w / 8) v
  | .top es => es.flatMap fun p => le 8 p.1.toNat ++ le 4 p.2.toNat ++ zeros 4

/-- Read a field state back from a child's body (R188). -/
def readField (f : PlanField) (op : RedOp) (b : Bytes) : FieldSt :=
  match op with
  | .none | .quant => .none
  | .sum => .sum (BitVec.ofNat 128 (fld b 0 16))
  | .min | .max => .pair (BitVec.ofNat 64 (fld b 0 8)) (BitVec.ofNat 32 (fld b 8 4))
  | .histLin | .histLog2 => .hist ((List.range (f.histLen op)).map fun i => BitVec.ofNat 32 (fld b (4 * i) 4))
  | .count => .count (BitVec.ofNat 64 (fld b 0 8))
  | .or | .and => .bitmap f.width (fld b 0 (f.width / 8))
  | .topk => .top ((List.range f.topK).map fun i =>
      (BitVec.ofNat 64 (fld b (16 * i) 8), BitVec.ofNat 32 (fld b (16 * i + 8) 4)))

/-- Bytes of the poison map (R200). -/
def poisonMapLen (n : Nat) : Nat := (n + 511) / 512 * 64

/-- The offset of each field in the body of a level. -/
def fieldOffsets (p : Plan) (lv : Level) : List Nat :=
  let rec go : List PlanField → Nat → List Nat
    | [], _ => []
    | f :: fs, o => o :: go fs (o + f.room lv)
  go p.fields (poisonMapLen p.fields.length)

/-- BODY_LEN at a level (R200). -/
def bodyLen (p : Plan) (lv : Level) : Nat :=
  (poisonMapLen p.fields.length + sumNat (p.fields.map fun f => f.room lv) + 63) / 64 * 64

/-! ## QUANT (R197) -/

/-- The lower edge of an index, saturated to EDGE's range. -/
def lowerEdge (f : PlanField) (op : RedOp) (i : Nat) : Int :=
  if op == .histLin then
    if i = 0 then -(2 ^ 63) else min (2 ^ 63 - 1) (f.p0.toInt + ((i : Int) - 1) * f.p1.toNat)
  else if i = 0 then 0
  else
    let nb := 4 * f.noct
    if nb < i then min (2 ^ 64 - 1) (2 ^ (f.oLo + f.noct))
    else
      let o := f.oLo + (i - 1) / 4
      let s := (i - 1) % 4
      min (2 ^ 64 - 1) ((2 ^ o + s * 2 ^ o / 4 : Nat) : Int)

/-- The lowest index whose cumulative count reaches r. -/
def cumIndex : List (BitVec 32) → Nat → Nat → Nat
  | [], _, i => i - 1
  | c :: cs, r, i => if r ≤ c.toNat then i else cumIndex cs (r - c.toNat) (i + 1)

/-- The 16 bytes of a QUANT field from its histogram. -/
def quantBytes (q : PlanField) (f : PlanField) (op : RedOp) (h : List (BitVec 32)) : Bytes :=
  let n := sumNat (h.map (·.toNat))
  if n = 0 then le 8 0 ++ le 2 0xFFFF ++ zeros 2 ++ le 4 0
  else
    let r := max 1 ((q.q * n + 65535) / 65536)
    let i := cumIndex h r 0
    le 8 (code 64 (lowerEdge f op i)) ++ le 2 i ++ zeros 2 ++ le 4 n

/-- The body of a sheaf (R200): poison map, fields each from a 16-byte boundary on, padding. A shard partial's QUANT fields
hold what its own histograms give, which R202 leaves open (assumption 178). -/
def bodyBytes (p : Plan) (lv : Level) (fs : List FieldSt) (poison : List Nat) : Bytes :=
  let one := fun (f : PlanField) (st : FieldSt) =>
    if f.opAt lv == .quant then
      match p.fields[f.srcId]?, fs[f.srcId]? with
      | some g, some (.hist h) => quantBytes f g (g.opAt lv) h
      | _, _ => zeros 16
    else le16pad st.bytes
  padTo 64 (le (poisonMapLen p.fields.length) (mapOf poison) ++ (List.zipWith one p.fields fs).flatten)

/-! ## Plans (R198, R199) -/

def redOpOf (n : Nat) : Option RedOp :=
  match n with
  | 0 => some .none
  | 1 => some .sum
  | 2 => some .min
  | 3 => some .max
  | 4 => some .histLin
  | 5 => some .histLog2
  | 6 => some .count
  | 7 => some .or
  | 8 => some .and
  | 9 => some .topk
  | 10 => some .quant
  | _ => none

/-- A descriptor from its 32 bytes; none where a code is unknown or a reserved bit is set. -/
def parseField (b : Bytes) : Option PlanField :=
  match redOpOf (fld b 0 1), redOpOf (fld b 1 1), redOpOf (fld b 2 1) with
  | some t, some c, some f =>
    if fld b 3 1 < 8 && fld b 5 1 == 0 && fld b 28 4 == 0 && 1 ≤ fld b 4 1 && fld b 4 1 ≤ 6 then
      some { opT := t, opC := c, opF := f, signed := bit (fld b 3 1) 0, liftC := bit (fld b 3 1) 1,
             liftF := bit (fld b 3 1) 2, srcKind := fld b 4 1, srcId := fld b 6 2,
             p0 := BitVec.ofNat 64 (fld b 8 8), p1 := BitVec.ofNat 64 (fld b 16 8), p2 := BitVec.ofNat 32 (fld b 24 4) }
    else none
  | _, _, _ => none

/-- The ranges of an operator's parameters (R193 to R197). -/
def paramsOk (f : PlanField) (op : RedOp) : Bool :=
  match op with
  | .histLin => 1 ≤ f.p1.toNat && 1 ≤ f.nb && f.nb ≤ 1024
  | .histLog2 => f.oLo ≤ 63 && 1 ≤ f.noct && f.noct ≤ 64 - f.oLo
  | .count => f.cmp ≤ 6
  | .or | .and => f.width % 64 == 0 && 64 ≤ f.width && f.width ≤ 4096 && f.pos < f.width / 64
  | .topk => 1 ≤ f.topK && f.topK ≤ 64
  | _ => true

/-- The lift rule of R199 between a level and the level below. -/
def liftOk (below op : RedOp) (lift : Bool) : Bool :=
  if op == .none then true
  else if below == .none then false
  else if lift then below == .sum && [RedOp.min, .max, .histLin, .histLog2, .count, .topk].contains op
  else op == below

/-- The rules of R199 for one descriptor, given those before it. -/
def fieldOk (before : List PlanField) (f : PlanField) : Bool :=
  let quant := f.opT == .quant || f.opC == .quant || f.opF == .quant
  let src := before[f.srcId]?
  paramsOk f f.opT && paramsOk f f.opC && paramsOk f f.opF
    && liftOk f.opT f.opC f.liftC && liftOk f.opC f.opF f.liftF
    && quant == (f.srcKind == 6)
    && (!quant || match src with
      | some g => [Level.tray, .chassis, .fleet].all fun lv =>
          f.opAt lv == .none || g.opAt lv == .histLin || g.opAt lv == .histLog2
      | none => false)
    && (f.srcKind != 5 || (f.opT == .count && f.cmp == 3))

/-- Parse and check a plan image (R198, R199); none is BAD_PLAN. -/
def parsePlan (img : Bytes) : Option Plan :=
  let n := fld img 2 2
  let fin := 64 + 32 * n
  let body := (img.drop 64).take (32 * n)
  let fs := (List.range n).map fun i => parseField (slice body (32 * i) 32)
  if 1 ≤ n && n ≤ 1024 && fin ≤ img.length && img.length ≤ (fin + 63) / 64 * 64 && isZero (img.drop fin)
      && isZero (slice img 16 44) && fld img 60 4 == (crc32c (img.take 60 ++ body)).toNat && fs.all (·.isSome) then
    let p : Plan := { planId := fld img 0 2, lenT := fld img 4 4, lenC := fld img 8 4, lenF := fld img 12 4,
                      fields := fs.filterMap id }
    let ok := (List.range n).all fun i => match p.fields[i]? with
      | some f => fieldOk (p.fields.take i) f
      | none => false
    if ok && p.lenT == bodyLen p .tray && p.lenC == bodyLen p .chassis && p.lenF == bodyLen p .fleet then some p else none
  else none

end Sys2Proof.Machine
end

