-- ==== Sys2Proof/Machine/Metrics.lean ====
section
/-!
DEFINITION. The metrics of the event recorder and their samples (19 R493 to R496).
-/

namespace Sys2Proof.Machine

/-- OFFSET and O_LO of the fixed metrics (R494). -/
def metricScale (cfg : Cfg) (n : Nat) : Int × Nat :=
  if n ≤ 8 then (-640, 9)
  else if 48 ≤ n then
    match cfg.userMetrics.find? fun u => u.u + 48 == n with
    | some u => (u.offset, u.olo)
    | none => (0, 0)
  else match n with
    | 9 => (0, 10)
    | 10 => (0, 6)
    | 11 => (0, 5)
    | 13 => (-640, 9)
    | 16 => (0, 2)
    | 12 | 17 | 18 | 19 | 32 | 33 => (0, 8)
    | 35 | 37 => (-128, 4)
    | _ => (0, 0)

/-- The bin of a raw value (R493). -/
def metricBin (offset : Int) (oLo : Nat) (raw : Int) : Nat :=
  if raw - offset < 0 then 0 else min 31 (histLog2Idx oLo 8 (raw - offset).toNat - 1)

/-- A sample: its bin counts one more, saturating, and the extremes keep the OPTIME of their first sample (R496). -/
def Metric.sample (m : Metric) (bin : Nat) (raw : Int) (optime : Nat) : Metric :=
  { bins := modifyAt m.bins bin fun c => min 0xFFFFFFFF (c + 1)
    least := match m.least with
      | some (v, t) => if raw < v then some (raw, optime) else some (v, t)
      | none => some (raw, optime)
    most := match m.most with
      | some (v, t) => if v < raw then some (raw, optime) else some (v, t)
      | none => some (raw, optime)
    sat := m.sat || nth m.bins bin 0 == 0xFFFFFFFF }

/-- Sample metric n of a tray block's recorder (R493, R494). -/
def State.metric (s : State) (n : Nat) (raw : Int) : State :=
  if s.isTray then
    let (off, olo) := metricScale s.cfg n
    { s with evr := { s.evr with
      metrics := modifyAt s.evr.metrics n fun m => m.sample (metricBin off olo raw) raw s.optime } }
  else s

def State.metrics (s : State) (l : List (Nat × Int)) : State := l.foldl (fun s x => s.metric x.1 x.2) s

end Sys2Proof.Machine
end

