-- ==== Sys2Proof/Machine/Time.lean ====
section
/-!
DEFINITION. Clocks and time (03): the time counter and its registers, time exchanges, sources and the servo, the
grandmaster input and IEEE 1588, PPS and SLOT_SYNC.
-/

namespace Sys2Proof.Machine

/-! ## The counter (R84 to R87) -/

/-- TIM_INC of 0.625 ns. -/
def nominalInc : Nat := 0xA0000000

/-- The accepted range of R85. -/
def incInRange (v : Nat) : Bool := 0x9FF7CED9 ≤ v && v ≤ 0xA0083127

def TimeSt.inc (t : TimeSt) : Nat := t.incInt.toNat * 2 ^ 32 + t.incFrac.toNat

/-- The addition of R84: carry out of the nanoseconds goes into the seconds. -/
def addInc (t : ITime) (i : BitVec 8) (f : BitVec 32) : ITime :=
  let fracNs := t.ns.toNat * 2 ^ 32 + t.frac.toNat + i.toNat * 2 ^ 32 + f.toNat
  let carry := 1000000000 * 2 ^ 32 ≤ fracNs
  let r := if carry then fracNs - 1000000000 * 2 ^ 32 else fracNs
  { sec := if carry then t.sec + 1 else t.sec
    ns := BitVec.ofNat 32 (r / 2 ^ 32)
    frac := BitVec.ofNat 32 (r % 2 ^ 32) }

/-- A signed step in units of 2^-32 ns (R87). One that leads below zero gives time zero (assumption 137). -/
def stepBy (t : ITime) (d : Int) : ITime := ITime.ofTicks ((t.toTicks : Int) + d).toNat

/-- Stamps taken on the counter move with it when it is set or stepped, since they mark instants and not readings. -/
def TimeSt.shift (t : TimeSt) (d : Int) : TimeSt :=
  let mv := fun x : Ticks => ((x : Int) + d).toNat
  { t with
    ppsAt := t.ppsAt.map mv
    syncAt := t.syncAt.map mv
    coarse := t.coarse.map fun c => (c.1, mv c.2)
    announced := t.announced.map fun a => (a.1, mv a.2)
    twoStep := t.twoStep.map fun x => (x.1, mv x.2.1, x.2.2)
    pdelayReq := t.pdelayReq.map fun x => (x.1, mv x.2)
    pdelayResp := t.pdelayResp.map fun x => (x.1, x.2.1, mv x.2.2.1, x.2.2.2) }

/-- A time that is set or stepped ends FREE (R94): ACQUIRE, or with no usable source HOLDOVER at base_inc (R95, assumption
52). -/
def TimeSt.begun (t : TimeSt) : TimeSt :=
  if t.state != .free then t
  else if t.source == .none then
    { t with state := .holdover, commit := some (BitVec.ofNat 8 (t.baseInc / 2 ^ 32), BitVec.ofNat 32 t.baseInc) }
  else { t with state := .acquire }

/-- One CK_E edge: a committed increment comes into force, a pending TIM_SET or TIM_STEP takes effect, and the counter
adds its increment (R84, R85, R87). Of both pending, TIM_SET wins, and a later TIM_STEP replaces an earlier one (assumption
137). -/
def TimeSt.edge (t : TimeSt) : TimeSt :=
  let t := match t.commit with
    | some (i, f) => { t with incInt := i, incFrac := f, commit := none }
    | none => t
  let t := { t with cycle := t.cycle + 1 }
  let n := addInc t.now t.incInt t.incFrac
  let moved := fun v : ITime => ({ t with now := v, setPend := none, stepPend := none }.shift
    ((v.toTicks : Int) - n.toTicks)).begun
  match t.setPend, t.stepPend with
  | some v, _ => moved (ITime.ofBits v)
  | none, some d => moved (stepBy n d.toInt)
  | none, none => { t with now := n }

/-- A write to TIM_INC_INT: the integer part with the staged fraction is committed, or discarded out of range (R85). -/
def writeIncInt (v : BitVec 8) (s : State) : State :=
  let inc := v.toNat * 2 ^ 32 + s.tim.stagedFrac.toNat
  if incInRange inc then
    { s with tim := { s.tim with intReg := v, commit := some (v, s.tim.stagedFrac) } }
  else
    { s with tim := { s.tim with intReg := v } }.setBit .tim 15

def writeIncFrac (v : BitVec 32) (s : State) : State := { s with tim := { s.tim with stagedFrac := v } }

def TimeState.settable : TimeState → Bool
  | .free | .acquire => true
  | _ => false

def refuseTimWrite (s : State) : State := (s.setBit .tim 16)

/-- TIM_STEP of R87. -/
def stepTime (v : BitVec 64) (s : State) : State :=
  if s.tim.state.settable then { s with tim := { s.tim with stepPend := some v } } else refuseTimWrite s

/-- TIM_SET of R87. -/
def setTime (v : BitVec 128) (s : State) : State :=
  if s.tim.state.settable && !(ITime.ofBits v).malformed then { s with tim := { s.tim with setPend := some v } }
  else refuseTimWrite s

/-! ## Quotients whose rounding the spec does not state -/

/-- n / d, rounded to a neighbouring integer by a free value where it is not exact (assumption 7). -/
def freeDiv (n : Int) (d : Nat) : Int :=
  if n % d = 0 then n / d else if Config.roundUp n d then n / d + 1 else n / d

/-- n / d rounded to the nearest integer; a tie is a free value (assumption 7). -/
def nearestDiv (n : Int) (d : Nat) : Int :=
  let q := n / d
  let r := n % d
  if 2 * r < d then q else if (d : Int) < 2 * r then q + 1 else if Config.roundUp n d then q + 1 else q

/-! ## Sources (R91 to R95) -/

def State.grandmasterMember (s : State) : Bool := s.isTray && s.cfg.role == .summit && s.cfg.team == 0

/-- The slot master of the schedule: 0A, or 0B while it holds the grandmaster input (03, the slot boundary). 0A knows that
0B holds it while it follows 0B over belay. -/
def State.slotMaster (s : State) : Bool :=
  let follows : Bool := match s.tim.source with
    | .lane _ => true
    | _ => false
  s.grandmasterMember && (if s.cfg.side == .a then !follows else s.tim.source == .grandmaster)

/-- A sender or an input counts as there for 2 s after it was last heard (R93; for 1588 assumption 138). -/
def State.heard (s : State) (o : Option Ticks) : Bool :=
  match o with
  | some t => s.now ≤ t + 2 * secT
  | none => false

/-- The grandmaster input is usable: PPS_IN edges arrive, or 1588 Sync does, and TAI seconds are known (R91, R93). -/
def State.grandmasterUsable (s : State) : Bool :=
  s.grandmasterMember && s.tim.coarse.isSome && (s.heard s.tim.ppsAt || s.heard s.tim.syncAt)

def State.laneUsable (s : State) (n : Nat) : Bool :=
  match s.lane? n with
  | some l => l.trained && l.farState == some .locked && !l.farFollows
  | none => false

/-- The lane of an entry of the source order: the active one, or in bivouac the first that is trained. Of the belay lanes
it is the first active one (assumption 138). -/
def State.firstLane (s : State) (p : LaneUse → Bool) : List TimeSource :=
  match s.lanes.find? fun l => p l.plan.use && l.active with
  | some l => [.lane l.n]
  | none =>
    match s.lanes.find? fun l => p l.plan.use && l.trained with
    | some l => [.lane l.n]
    | none => [.none]

/-- In bivouac without a plan: the lowest-numbered lane whose far end is a tray block that can be followed (21 R545). -/
def State.unplannedSource (s : State) : List TimeSource :=
  match s.lanes.find? fun l => s.laneUsable l.n && l.peer.any fun h => h.profile == .tray with
  | some l => [.lane l.n]
  | none => []

/-- The source order of R91, first to third; an entry without a lane stands as `none`. -/
def State.sourceOrder (s : State) : List TimeSource :=
  let up := fun x : Side => s.firstLane (· == .up x)
  let belay := s.firstLane LaneUse.isBelay
  let peer0 := s.firstLane (· == .peer 0)
  match s.profile with
  | .leaf => up .a ++ up .b
  | .tray =>
    if s.mode == .bivouac && s.cfg.lanes.isEmpty then s.unplannedSource
    else match s.cfg.role, s.cfg.side with
    | .summit, .a => if s.cfg.team == 0 then [.grandmaster] ++ belay else peer0 ++ belay
    | .summit, .b => if s.cfg.team == 0 then belay ++ [.grandmaster] else belay ++ peer0
    | _, .a => up .a ++ up .b ++ belay
    | _, .b => belay ++ up .a ++ up .b

def State.sourceUsable (s : State) : TimeSource → Bool
  | .none => false
  | .lane n => s.laneUsable n
  | .grandmaster => s.grandmasterUsable

/-- The first usable entry and its position, from 1. -/
def State.pickSource (s : State) : TimeSource × Nat :=
  let rec go : List TimeSource → Nat → TimeSource × Nat
    | [], _ => (.none, 0)
    | e :: es, i => if s.sourceUsable e then (e, i) else go es (i + 1)
  go s.sourceOrder 1

/-- Put an increment into force through TIM_INC_FRAC and then TIM_INC_INT (R94). -/
def writeInc (v : Nat) (s : State) : State :=
  writeIncInt (BitVec.ofNat 8 (v / 2 ^ 32)) (writeIncFrac (BitVec.ofNat 32 v) s)

/-- With no source usable, an instance whose time has been set enters HOLDOVER with TIM_INC at base_inc (R95, assumption
52); after TIM_DUP_FAIL it stays in ACQUIRE until the servo has locked again (17 R444). -/
def holdOver (s : State) : State :=
  if s.tim.source == .none && s.tim.state != .free && s.tim.state != .holdover && !s.tim.dupFail then
    writeInc s.tim.baseInc { s with tim := { s.tim with state := .holdover } }
  else s

/-- Move to the first usable source without stepping the counter, the servo going on from its state (R92, R95). -/
def reselect (s : State) : State :=
  let (src, rank) := s.pickSource
  if src == s.tim.source then holdOver s
  else holdOver { s with tim := { s.tim with
    source := src
    rank := rank
    sourceChanges := s.tim.sourceChanges + 1 } }

/-! ## The servo (R94, R95) -/

def oneNs : Int := 2 ^ 32

/-- "run the loop" of R94 with theta in 2^-32 ns. -/
def servoLoop (theta : Int) (s : State) : State :=
  let integ := clampInt (-2000 * oneNs) (2000 * oneNs) (s.tim.integ + theta)
  let raw := freeDiv (s.tim.baseInc * (2 ^ 54 - (64 * theta + integ))) (2 ^ 54)
  let inc := (clampInt 0x9FF7CED9 0xA0083127 raw).toNat
  let t := if (inc : Int) = raw then { s.tim with integ := integ } else s.tim
  let t := if theta.natAbs ≤ oneNs.toNat then
      let held := (inc :: t.heldIncs).take 1024
      { t with heldIncs := held, baseInc := (freeDiv (sumNat held) held.length).toNat }
    else t
  writeInc inc { s with tim := t }

/-- The time locks: in a tray block that starts, the start phases end and START_WAIT runs (18 R474, 21 R549). -/
def lockTime (s : State) : State :=
  { s with
    tim := { s.tim with state := .locked, lockRun := 0, overRun := 0, dupFail := false }
    twin := if s.mode == .starting then { s.twin with startSince := s.now } else s.twin }

/-- The servo at a completed exchange on the current source (R94), and the return from HOLDOVER (R95). A step beyond the
64 bits of TIM_STEP is taken modulo 2^64 (assumption 137). -/
def servo (theta : Int) (s : State) : State :=
  let a := theta.natAbs
  let ns1 := oneNs.toNat
  let eighth := s.cfg.epochNs / 8 * ns1
  let runs := fun t : TimeSt => { t with
    lockRun := if a ≤ ns1 then t.lockRun + 1 else 0
    overRun := if 4 * ns1 < a then t.overRun + 1 else 0 }
  let setState := fun (st : TimeState) (s : State) =>
    { s with tim := { s.tim with state := st, lockRun := 0, overRun := 0 } }
  match s.tim.state with
  | .free | .acquire =>
    if 100 * ns1 < a then
      let s1 := stepTime (BitVec.ofInt 64 (-theta)) s
      { s1 with tim := { s1.tim with integ := 0, lockRun := 0 } }
    else
      let s1 := servoLoop theta { s with tim := runs s.tim }
      if 64 ≤ s1.tim.lockRun then lockTime s1 else s1
  | .holdover =>
    if a ≤ 4 * ns1 then servoLoop theta (setState .locked s)
    else if a ≤ eighth then servoLoop theta (setState .suspect s)
    else setState .acquire (servoLoop theta s)
  | _ =>
    let s1 := servoLoop theta { s with tim := runs s.tim }
    let s2 := if s1.tim.state == .locked && 8 ≤ s1.tim.overRun then setState .suspect s1
      else if s1.tim.state == .suspect && 64 ≤ s1.tim.lockRun then setState .locked s1 else s1
    if eighth < a then setState .acquire s2 else s2

/-! ## Commands -/

def execTimIncFracWrite (v : Word) (s : State) : Res := .next (whenClocked s (writeIncFrac v))

def execTimIncIntWrite (v : Word) (s : State) : Res := .next (whenClocked s (writeIncInt (v.setWidth 8)))

def execTimSet (v : BitVec 128) (s : State) : Res := .next (whenClocked s (setTime v))

def execTimStep (v : BitVec 64) (s : State) : Res := .next (whenClocked s (stepTime v))

/-- Set the latches of the higher words of a register on a path (20 R515). -/
def setLatches (p : Path) (words : List (Nat × Word)) (s : State) : State :=
  { s with latches := s.latches.filter (fun l => !(l.1 == p && words.any (·.1 == l.2.1)))
      ++ words.map fun w => (p, w.1, w.2) }

/-- A read of TIM_NOW_0 latches the counter for TIM_NOW_1 to TIM_NOW_3 of its path (R86). -/
def readTimNow (p : Path) (s : State) : Word × State :=
  let v := s.tim.now.toBits
  (v.setWidth 32, setLatches p [(0x204, (v >>> 32).setWidth 32), (0x208, (v >>> 64).setWidth 32),
    (0x20C, (v >>> 96).setWidth 32)] s)

def execTimNowRead (p : Path) (s : State) : Res :=
  .next <|
    if s.serves p then
      let (v, s1) := readTimNow p s
      s1.emit (.regValue p 0x200 v)
    else s

def roleRank : Role → Nat
  | .tray => 1
  | .chassis => 2
  | .summit => 3

/-- How an end stands to a far end that its HELLO names, on a lane for which R89 has no row, a spare lane or one without a
plan: as on a leaf or up lane, a belay lane or a peer lane between these instances (assumption 141). -/
def State.standsTo (s : State) (h : Hello) : LaneUse :=
  if s.isLeaf then .up h.side
  else if h.profile == .leaf then .down 0
  else if roleRank s.cfg.role < roleRank h.role then .up h.side
  else if roleRank h.role < roleRank s.cfg.role then .down 0
  else if h.side != s.cfg.side then .belay 0
  else .peer h.id

/-- What R89 sees in a lane: its use, or on a spare lane what its far end makes of it. -/
def State.endOf (s : State) (l : Lane) : LaneUse :=
  match l.plan.use, l.peer with
  | .spare, some h => s.standsTo h
  | u, _ => u

/-- This end is the lower instance of a lane (R89); on a fabric lane it is this block (assumption 141). -/
def State.isLower (s : State) (l : Lane) : Bool :=
  match s.endOf l with
  | .up _ | .fabric _ => true
  | .belay _ => s.cfg.side == .b
  | .peer t => t < s.cfg.team
  | _ => false

/-- This end opens exchanges on the lane (R89). -/
def State.opensOn (s : State) (l : Lane) : Bool :=
  match s.endOf l with
  | .up _ | .belay _ | .peer _ | .fabric _ => true
  | _ => false

/-- The latest opening time at or before a time: a multiple of 4,096 ns, plus 2,048 ns at the upper end (R89). -/
def openingTime (lower : Bool) (now : Ticks) : Ticks :=
  let off := if lower then 0 else nsT 2048
  (now - off) / nsT 4096 * nsT 4096 + off

/-! ## Stamps (R88, 02 R64, R65, 06 R164) -/

/-- A stamp at the resolution of 2^-6 ns; which neighbour it takes is free (assumption 7). -/
def tdc (t : Int) : Int := freeDiv t (2 ^ 26) * 2 ^ 26

/-- The plane-crossing time of a transmit stamp: plus the transmit latency. -/
def Lane.txTime (l : Lane) (edge : Ticks) : Ticks := (tdc edge + (l.plan.txlat.toNat * 2 ^ 24 : Nat)).toNat

/-- The plane-crossing time of a receive stamp: less the receive latency and ZL_LATADJ, plus b times 2.5 ps. -/
def Lane.rxTime (l : Lane) (edge : Ticks) (latAdj : BitVec 8) : Ticks :=
  (tdc edge + freeDiv (l.bit * 2 ^ 32) 400 - (l.plan.rxlat.toNat * 2 ^ 24 : Nat) - latAdj.toInt * 2 ^ 26).toNat

/-- The lane carries time exchanges (06 R179): KEYED, UP or STANDBY. -/
def Lane.exchanging (l : Lane) : Bool := l.st == .keyed || l.trained

/-- An exchange that is still open when the next opens, or is answered amiss, is dropped (06 R174). -/
def Lane.dropExchange (l : Lane) : Lane :=
  match l.exch with
  | some _ => { l with exch := none }.bump 10
  | none => l

/-- REQ in the first control cell launched at or after an opening time of R89 that has come; `edge` is the edge that
launches it, and t1 its transmit stamp (06 R174). The stamp of a REQ is not used by the responder and is sent as zero
(assumption 8). -/
def execTimeExchangeOpen (lane : Nat) (edge : Ticks) (s : State) : Res :=
  .next <| match s.lane? lane with
  | some l =>
    let at_ := openingTime (s.isLower l) s.now
    if s.opensOn l && l.exchanging && at_ ≤ s.now && l.openedAt != some at_ then
      s.onLane lane fun l =>
        let l := l.dropExchange
        { l with
          openedAt := some at_
          exch := some { eseq := l.eseq, t1 := l.txTime edge, t2t4 := none }
          eseq := l.eseq + 1
          timeOut := l.timeOut ++ [{ kind := 1, eseq := l.eseq, stamp := 0 }] }
    else s
  | none => s

/-- Put an answer ahead of a request of this end's own (06 R174). -/
def Lane.answerTime (l : Lane) (c : TimeCell) : Lane :=
  { l with timeOut := l.timeOut.filter (·.kind != 1) ++ c :: l.timeOut.filter (·.kind == 1) }

/-- A REQ arrives, its control cell presented at an edge: RESP carries t2, the receive stamp (06 R174). -/
def execTimeReqReceive (lane : Nat) (eseq : BitVec 8) (edge : Ticks) (s : State) : Res :=
  .next <| s.onLane lane fun l =>
    if l.exchanging then l.answerTime { kind := 2, eseq := eseq, stamp := l.rxTime edge l.latAdj } else l

/-- FOLLOW carries t3, the transmit stamp of the RESP cell, and ends the exchange at the responder, which counts it among
the 64 of KEYED (06 R174, R179). -/
def execTimeFollowSend (lane : Nat) (edge : Ticks) (s : State) : Res :=
  .next <| s.onLane lane fun l =>
    match l.lastResp with
    | some e => { l.answerTime { kind := 3, eseq := e, stamp := l.txTime edge } with lastResp := none, exchRun := l.exchRun + 1 }
    | none => l

/-- theta and delay of R89, in 2^-32 ns; path_asym is in 2^-8 ns. Where half a unit is left, which neighbour is taken is
free (assumption 7). -/
def exchangeTheta (t1 t2 t3 t4 : Ticks) (asym : Int) : Int :=
  freeDiv (((t4 : Int) - t3) - ((t2 : Int) - t1) + asym * 2 ^ 24) 2

def exchangeDelay (t1 t2 t3 t4 : Ticks) : Int := freeDiv (((t2 : Int) - t1) + ((t4 : Int) - t3)) 2

/-- FOLLOW arrives (06 R174): the exchange completes and the servo runs when the lane is the current source (R94). -/
def execTimeExchangeComplete (lane : Nat) (eseq : BitVec 8) (t3 : Ticks) (s : State) : Res :=
  .next <| match s.lane? lane with
  | some l =>
    match l.exch with
    | some { eseq := e, t1 := t1, t2t4 := some (t2, t4) } =>
      if e == eseq then
        let theta := exchangeTheta t1 t2 t3 t4 l.plan.asym
        let s1 := s.onLane lane fun l =>
          { l with exch := none, delay := exchangeDelay t1 t2 t3 t4, exchRun := l.exchRun + 1 }.bump 9
        let s2 := reselect s1
        if s2.tim.source == .lane lane then servo theta (s2.metric 14 (theta.natAbs / 2 ^ 26 : Nat)) else s2
      else reselect (s.onLane lane Lane.dropExchange)
    | _ => reselect (s.onLane lane Lane.dropExchange)
  | none => s

/-- The whole TAI second that a PPS edge marks, from the coarse time carried to the edge (R93). -/
def ppsSecond (coarse : Ticks × Ticks) (stamp : Ticks) : Ticks :=
  (coarse.1 + (stamp - coarse.2) + secT / 2) / secT * secT

/-- A rising PPS_IN edge is stamped with the time of the CK_E edge that samples it (02 R76). -/
def execPpsInEdge (rising : Bool) (s : State) : Res :=
  onTray "PPS_IN_EDGE" s fun s =>
    let stamp := s.now
    if rising && s.grandmasterMember then
      let s1 := reselect { s with tim := { s.tim with ppsAt := some stamp } }
      match s1.tim.source, s1.tim.coarse with
      | .grandmaster, some c => servo ((stamp : Int) - ppsSecond c stamp) s1
      | _, _ => s1
    else s

/-- PPS_OUT is high for 100 µs from the TAI second (02 R76). -/
def execPpsOutPulse (s : State) : Res :=
  onTray "PPS_OUT_PULSE" s fun s => { s with pins := { s.pins with ppsOut := s.now % secT < nsT 100000 } }

/-- TIM_SLOT_DEV of a deviation (20 R524). -/
def slotDevCode (dev : Option Int) : BitVec 32 :=
  match dev with
  | some d => BitVec.ofInt 32 (clampInt (-(2 ^ 31 - 1)) (2 ^ 31 - 1) (d / 2 ^ 29))
  | none => 0x80000000

/-- The nearer of two deviations of one boundary. -/
def nearerDev (a : Option Int) (b : Int) : Option Int :=
  match a with
  | some d => if d.natAbs ≤ b.natAbs then some d else some b
  | none => some b

/-- No phase correction is pending or still in the epoch that runs (R103). -/
def Sched.settled (c : Sched) : Bool :=
  c.d == 0 && (match c.past with
    | b :: _ => b.len == b.epochNs
    | [] => true)

/-- SLOT_SYNC_LOST: 8 or more boundaries in a row have passed with no edge within EPOCH_NS/2; the latest one counts once
that time after it is over (R101). -/
def State.slotLost (s : State) : Bool :=
  let last := match s.sched.past with
    | b :: _ => b2n (s.sched.slotNow.isNone && b.t + nsT b.epochNs / 2 < s.now)
    | [] => 0
  8 ≤ s.sched.slotMiss + last

/-- Keep an edge for the boundary that follows, of which it may be the nearest too. -/
def noteSlotEdge (stamp : Ticks) (s : State) : State :=
  { s with sched := { s.sched with slotEdges := stamp :: s.sched.slotEdges.take 7 } }

/-- A rising SLOT_SYNC edge, stamped with the time of the CK_E edge that samples it (02 R76), gives dev_k of the nearest boundary
(R101): the latest one at once, and the next one when it comes. -/
def execSlotSyncEdge (rising : Bool) (s : State) : Res :=
  onTray "SLOT_SYNC_EDGE" s fun s =>
    let stamp := s.now
    if !rising then s
    else match s.sched.past with
    | b :: _ =>
      let half := nsT b.epochNs / 2
      if b.t ≤ stamp + half && stamp ≤ b.t + half then
        let dev := nearerDev s.sched.slotNow ((stamp : Int) - b.t)
        noteSlotEdge stamp { s with sched := { s.sched with
          slotDev := slotDevCode dev
          slotNow := dev
          slotMiss := 0 } }
      else noteSlotEdge stamp s
    | [] => noteSlotEdge stamp s

/-- The management port is enabled (02 R79) and the image has it. -/
def State.mgmtOn (s : State) : Bool := s.cfg.hasMgmt && s.straps.mgmtEn

/-- The listed time transmitter that is taken: the first one in list order that is sending (R97), its Announce heard in the
last 2 s (assumption 138). -/
def State.ptpMaster (s : State) : Option Nat :=
  (List.range s.cfg.transmitters.length).find? fun i => s.tim.announced.any fun a => a.1 == i && s.heard (some a.2)

/-- A time at the 0.1 ns resolution of R98; which neighbour it takes is free (assumption 7). -/
def tenth (t : Int) : Int := freeDiv (freeDiv (10 * t) (2 ^ 32) * 2 ^ 32) 10

/-- Stamps of the management port, corrected by MG_PHY_RXLAT and MG_PHY_TXLAT (R98). -/
def State.mgRx (s : State) (edge : Ticks) : Ticks := (tenth edge - (s.cfg.mgPhyRx.toNat * 2 ^ 24 : Nat)).toNat
def State.mgTx (s : State) (edge : Ticks) : Ticks := (tenth edge + (s.cfg.mgPhyTx.toNat * 2 ^ 24 : Nat)).toNat

/-- The offset of a Sync: its receive stamp less the transmitter's time then, by peer delay (R97). -/
def syncOffset (origin t2 : Ticks) (correction delay : Int) : Int := (t2 : Int) - origin - correction - delay

/-- A Sync, or the Follow_Up of a two-step Sync, from the transmitter in use (R93, R97): coarse TAI seconds, and the 1588
offset once the peer delay is known and PPS_IN has been absent for 2 s. -/
def ptpTake (origin t2 : Ticks) (correction : Int) (s : State) : State :=
  let delay := s.tim.peerDelay.getD 0
  let s1 := { s with tim := { s.tim with
    syncAt := if s.tim.peerDelay.isSome then some t2 else s.tim.syncAt
    twoStep := none
    coarse := some (((origin : Int) + correction + delay).toNat, t2) } }
  let s2 := reselect s1
  if s2.grandmasterMember && !s2.heard s2.tim.ppsAt && s2.tim.source == .grandmaster && s2.tim.peerDelay.isSome then
    servo (syncOffset origin t2 correction delay) s2
  else s2

/-- This end's Pdelay_Req (R97), sent when the transmitter in use announces itself (assumption 138). -/
def sendPdelay (s : State) : State :=
  let t1 := s.mgTx s.now
  { s with tim := { s.tim with
    pdelaySeq := s.tim.pdelaySeq + 1, pdelayReq := some (s.tim.pdelaySeq, t1), pdelayResp := none } }.emit
    (.ptpSend .pdelayReq s.tim.pdelaySeq 0 t1 none)

/-- The mean path delay to the peer: half the round trip less the peer's turnaround (R97). -/
def putPeerDelay (d : Int) (s : State) : State :=
  { s with tim := { s.tim with peerDelay := some (freeDiv d 2), pdelayReq := none, pdelayResp := none } }

/-- Pdelay_Resp: a one-step one carries the turnaround in its correction; a two-step one names t2 and waits for its
Follow_Up. -/
def takePdelayResp (m : PtpMsg) (t4 : Ticks) (s : State) : State :=
  match s.tim.pdelayReq with
  | some (q, t1) =>
    if q != m.seq then s
    else if m.twoStep then { s with tim := { s.tim with pdelayResp := some (q, m.origin, t4, m.correction) } }
    else putPeerDelay ((t4 : Int) - t1 - m.correction) s
  | none => s

def takePdelayFollow (m : PtpMsg) (s : State) : State :=
  match s.tim.pdelayReq, s.tim.pdelayResp with
  | some (q, t1), some (q', t2, t4, c) =>
    if q == m.seq && q' == m.seq then putPeerDelay (((t4 : Int) - t1) - ((m.origin : Int) - t2) - c - m.correction) s else s
  | _, _ => s

/-- A one-step Pdelay_Resp: over UDP/IPv6 the MAC forms the checksum anew once the stamp is in (R98). -/
def pdelayAnswer (m : PtpMsg) (rx tx : Ticks) : Out :=
  .ptpSend .pdelayResp m.seq rx tx
    (if m.udp6 then some (Config.udpChecksum (Config.ptpBytes PtpKind.pdelayResp.ctorIdx m.seq rx tx)) else none)

/-- IEEE 1588 on the management port (R97, R98), enabled by STRAP_MGMT_EN (02 R79). -/
def execPtpMessageReceive (m : PtpMsg) (s : State) : Res :=
  onTray "PTP_MESSAGE_RECEIVE" s fun s =>
    if !s.mgmtOn || !m.transportOk then s
    else
      let rx := s.mgRx m.edge
      let fromMaster := m.sender.isSome && m.sender == s.ptpMaster
      match m.kind with
      | .announce =>
        match m.sender with
        | some i =>
          let s1 := { s with tim := { s.tim with announced := (i, rx) :: s.tim.announced.filter (·.1 != i) } }
          if s1.ptpMaster == some i then sendPdelay s1 else s1
        | none => s
      | .sync =>
        if fromMaster then
          if m.twoStep then { s with tim := { s.tim with twoStep := some (m.seq, rx, m.correction) } }
          else ptpTake m.origin rx m.correction s
        else s
      | .followUp =>
        match s.tim.twoStep with
        | some (q, t2, c) => if fromMaster && q == m.seq then ptpTake m.origin t2 (c + m.correction) s else s
        | none => s
      | .pdelayReq =>
        { s with tim := { s.tim with pdelayAnswers := s.tim.pdelayAnswers + 1 } }.emit
          (pdelayAnswer m rx (s.mgTx s.now))
      | .pdelayResp => takePdelayResp m rx s
      | .pdelayRespFollowUp => takePdelayFollow m s
      | .other => s

/-- NTP supplies coarse seconds while no 1588 transmitter answers (R93); UTC is converted by TAI_UTC_OFFSET (R84). The
fraction of an NTP time counts 2^-32 s. -/
def execNtpMessageReceive (t : NtpTime) (s : State) : Res :=
  onTray "NTP_MESSAGE_RECEIVE" s fun s =>
    if s.mgmtOn && s.ptpMaster.isNone then
      let tai := ((t.utcSec.toNat : Int) + s.cfg.taiUtc).toNat
      { s with tim := { s.tim with coarse := some (tai * secT + t.frac.toNat * 1000000000, s.now) } }
    else s

end Sys2Proof.Machine
end

