-- ==== Sys2Proof/Machine/Link.lean ====
section
/-!
DEFINITION. Zhelen lanes (06), the operations: scrambling, cells, groups and messages, credits, control messages, keys,
and a lane's fall from UP. The commands are in Links.lean.
-/

namespace Sys2Proof.Machine

/-! ## Scrambling (R163) -/

/-- The protocol revision of this block, 2.2 (00 R1, R6). -/
def ownProto : BitVec 8 := 0x22

/-- One step of the PRBS31 register, x^31 + x^28 + 1: the bit fed back is that of the taps, in bits 30 and 27 (assumption
9). -/
def prbsNext (r : BitVec 31) : BitVec 31 := (r <<< 1) ||| (if r.getLsbD 30 != r.getLsbD 27 then 1 else 0)

def prbsSkip : Nat → BitVec 31 → BitVec 31
  | 0, r => r
  | n + 1, r => prbsSkip n (prbsNext r)

/-- Eight output bits, the first in bit 0. The output is register bit 30, the bit that is shifted out (assumption 9). -/
def prbsByte (r : BitVec 31) : Byte × BitVec 31 :=
  let rec go : Nat → Byte → BitVec 31 → Byte × BitVec 31
    | 0, b, r => (b, r)
    | n + 1, b, r => go n ((b >>> 1) ||| (if r.getLsbD 30 then 0x80 else 0)) (prbsNext r)
  go 8 0 r

def prbsXor : Bytes → BitVec 31 → Bytes
  | [], _ => []
  | b :: bs, r => let (m, r') := prbsByte r; (b ^^^ m) :: prbsXor bs r'

def prbsSeed (pitch : BitVec 56) : BitVec 31 :=
  if pitch.setWidth 31 == 0#31 then 0x7FFFFFFF else pitch.setWidth 31

/-- Scramble or descramble bytes that start at bit `first` of a pitch. -/
def scramble (pitch : BitVec 56) (first : Nat) (b : Bytes) : Bytes := prbsXor b (prbsSkip first (prbsSeed pitch))

/-- A cell at position `pos` of a pitch; the first 16 bytes of the control cell stay clear. -/
def lineCell (pitch : BitVec 56) (pos : Nat) (b : Bytes) : Bytes :=
  if pos == 0 then b.take 16 ++ scramble pitch 128 (b.drop 16) else scramble pitch (2048 * pos) b

/-! ## Accounts and streams (R166 to R170) -/

/-- The credit account of a stream: VC1, VC3, VC0, then VC2 by share. -/
def account (vc share : Nat) : Nat :=
  if vc == 1 then 0 else if vc == 3 then 1 else if vc == 0 then 2 else 3 + share

/-- Receiver buffers of R168, in cells, and in 16-byte units on VC0. -/
def bufferOf (i : Nat) : Nat :=
  if i == 0 then 1024 else if i == 1 then 512 else if i == 2 then 32 else 64

def Lane.credit (l : Lane) (i : Nat) : Nat :=
  bufferOf i - (nth l.sentUnits i 0 - nth l.retUnits i 0).toNat

def Lane.spend (l : Lane) (i n : Nat) : Lane :=
  { l with sentUnits := modifyAt l.sentUnits i (· + BitVec.ofNat 16 n) }

def Lane.release (l : Lane) (i n : Nat) : Lane :=
  { l with freed := modifyAt l.freed i (· + BitVec.ofNat 16 n) }

/-- The message prefix of R167. -/
def withPrefix (mid : BitVec 32) (body : Bytes) : Bytes := le 4 mid.toNat ++ le 4 body.length ++ body

/-- Queue a message of `len` bytes on a stream, opening the stream at its first message (R167). Of a message that is cut
through, `cut` says what it follows, and `body` is what there is of it. -/
def Lane.openMsg (l : Lane) (vc share ctx : Nat) (gen : BitVec 16) (len : Nat) (body : Bytes) (cut : Option Nat) : Lane :=
  let st := (l.txs.find? fun t => t.vc == vc && t.share == share).getD
    { vc := vc, share := share, nextMid := 0, queue := [], group := none, kept := [] }
  let m : OutMsg := { mid := st.nextMid, ctx := ctx, gen := gen, total := 8 + len,
                      bytes := le 4 st.nextMid.toNat ++ le 4 len ++ body, sent := 0, cut := cut }
  let st' := { st with nextMid := st.nextMid + 1, queue := st.queue ++ [m] }
  { l with txs := putBack (fun t => t.vc == vc && t.share == share) st' l.txs }

/-- Queue a whole message. -/
def Lane.queueMsg (l : Lane) (vc share ctx : Nat) (gen : BitVec 16) (body : Bytes) : Lane :=
  l.openMsg vc share ctx gen body.length body none

/-- The message that follows `cut` and is not whole yet. -/
def OutMsg.follows (m : OutMsg) (cut : Nat) : Bool := m.cut == some cut && m.bytes.length < m.total

/-- Change the message of VC1 that follows `cut` and is not whole yet. -/
def Lane.onCut (l : Lane) (cut : Nat) (f : OutMsg → OutMsg) : Lane :=
  { l with txs := mapIf (·.vc == 1) (fun t => { t with queue := mapIf (·.follows cut) f t.queue }) l.txs }

/-- A message of VC1 that will never be whole leaves its queue; the far end discards what it has of it at the next SOM. -/
def Lane.dropCut (l : Lane) (cut : Nat) : Lane :=
  { l with txs := mapIf (·.vc == 1) (fun t => { t with queue := t.queue.filter fun m => !m.follows cut }) l.txs }

/-- Send a data message on a lane that carries traffic. -/
def State.sendMsg (s : State) (lane vc share ctx : Nat) (gen : BitVec 16) (body : Bytes) : State :=
  s.onLane lane fun l => if l.st == .up && l.active then l.queueMsg vc share ctx gen body else l

def State.sendMsgAll (s : State) (lanes : List Nat) (vc share ctx : Nat) (gen : BitVec 16) (body : Bytes) : State :=
  lanes.foldl (fun s n => s.sendMsg n vc share ctx gen body) s

/-! ## Cells (R165, R166) -/

def dataHeader (vc ctx : Nat) (gen : BitVec 16) (som eom gend : Bool) (len gidx gseq : Nat) : Bytes :=
  le 8 (2 ^ 62 + vc * 2 ^ 60 + ctx * 2 ^ 56 + gen.toNat * 2 ^ 40 + b2n som * 2 ^ 39 + b2n eom * 2 ^ 38
    + b2n gend * 2 ^ 37 + len * 2 ^ 28 + gidx * 2 ^ 25 + gseq % 2 ^ 24)

/-- A cell of a message is ready: the rest of it, or the 232 bytes of a cell with a tag, are there (R555). -/
def OutMsg.hasCell (m : OutMsg) : Bool :=
  let avail := m.bytes.length - m.sent
  0 < avail && (m.bytes.length == m.total || 232 ≤ avail)

/-- The payload length of the next cell of a stream and whether it ends its group, or none while no cell is ready (R166).
GEND stands on the seventh cell, on the last one ready, and with `last`, in the last pitch of a key generation (R176), on
every cell. -/
def TxStream.nextCell (t : TxStream) (last : Bool) : Option (Nat × Bool) :=
  match t.queue with
  | [] => none
  | m :: rest =>
    let avail := m.bytes.length - m.sent
    let whole := m.bytes.length == m.total
    let more := rest.head?.any (·.hasCell)
    let idx := match t.group with
      | some g => g.idx
      | none => 0
    if !m.hasCell then none
    else if idx == 6 || last then some (min 232 avail, true)
    else if whole && !more then
      if avail ≤ 232 then some (avail, true) else if avail ≤ 248 then some (232, false) else some (248, false)
    else if whole && avail ≤ 248 then some (avail, false)
    else if !whole && avail < 464 then some (232, true)
    else if !whole && avail < 480 then some (232, false)
    else some (248, false)

/-- The keys of the generation of a pitch (R176). -/
def Lane.keysAt (l : Lane) (pitch : BitVec 56) : Option LaneKeys :=
  ([l.keys, l.oldKeys, l.nextKeys, l.authKeys].filterMap id).find? fun k => k.gen == (pitch >>> 32).setWidth 32

/-- The pitch that a lane sends is the last of its key generation (R176). -/
def Lane.lastPitch (l : Lane) : Bool := l.txPitch.setWidth 32 == 0xFFFFFFFF#32

def be (n v : Nat) : Bytes := (le n v).reverse

/-- Send the next cell of a stream: its 256 bytes and the lane after it. -/
def Lane.sendCell (l : Lane) (now : Ticks) (t : TxStream) : Option (Bytes × Lane) :=
  match t.queue, t.nextCell l.lastPitch, l.keysAt l.txPitch with
  | m :: rest, some (len, gend), some k =>
    let g := t.group.getD { gseq := l.txGroup, idx := 0, aad := [], plain := [] }
    let iv := k.sTx ++ be 8 g.gseq
    let h := dataHeader t.vc m.ctx m.gen (m.sent == 0) (m.sent + len == m.total) gend len g.idx g.gseq
    let pay := slice m.bytes m.sent len
    let plain := g.plain ++ pay
    let aad := g.aad ++ h
    let c := (Config.gcmCrypt k.kTx iv plain).drop g.plain.length
    let body := if gend then slice c 0 len ++ zeros (232 - len) ++ Config.gcmTag k.kTx iv aad plain
      else slice c 0 len ++ zeros (248 - len)
    let done := m.sent + len == m.total
    let m' := { m with sent := m.sent + len }
    let t' := { t with
      queue := if done then rest else m' :: rest
      kept := if done then t.kept.filter (fun e => now ≤ e.1 + nsT 4000) ++ [(now, m')] else t.kept
      group := if gend then none else some { g with idx := g.idx + 1, aad := aad, plain := plain } }
    let l' := { l with
      txGroup := if t.group.isNone then l.txGroup + 1 else l.txGroup
      txs := putBack (fun x => x.vc == t.vc && x.share == t.share) t' l.txs }
    some (h ++ body, l'.spend (account t.vc t.share) 1)
  | _, _, _ => none

/-- The stream of a VC and share, when it has a cell ready and a credit (R169). -/
def Lane.ready (l : Lane) (vc share : Nat) : Option TxStream :=
  match l.txs.find? fun t => t.vc == vc && t.share == share with
  | some t => if (t.nextCell l.lastPitch).isSome && 0 < l.credit (account vc share) then some t else none
  | none => none

/-- VC1 has a cell ready but no credit (R185 offset 8). -/
def Lane.vc1Stalls (l : Lane) : Bool :=
  match l.txs.find? fun t => t.vc == 1 with
  | some t => (t.nextCell l.lastPitch).isSome && l.credit 0 == 0
  | none => false

/-- The owner of rotation count n (R169): a VC and share. -/
def rotationOwner (belay : Bool) (shareCount n : Nat) : Nat × Nat :=
  if belay then if n % 2 == 0 then (3, 0) else (2, (n - 1) / 2 % shareCount) else (2, n % shareCount)

/-! ## Control messages (R172) -/

/-- A control message of a type: header with MSEQ still zero, payload, padding to 16 bytes. -/
def ctlMsg (mtype : Nat) (payload : Bytes) : Bytes :=
  let b := padTo 16 ([BitVec.ofNat 8 mtype, 0, 0, 0] ++ payload)
  [BitVec.ofNat 8 mtype, BitVec.ofNat 8 (b.length / 16)] ++ b.drop 2

def stampMsg (seq : BitVec 16) (m : Bytes) : Bytes := m.take 2 ++ le 2 seq.toNat ++ m.drop 4

/-- Take whole messages in order, what is placed on the lane for this pitch (R173), into the free bytes of the area and
the VC0 credit: those taken, numbered, and the rest. -/
def packCtl : List Bytes → Nat → Nat → BitVec 16 → List Bytes × List Bytes
  | [], _, _, _ => ([], [])
  | m :: ms, free, cr, seq =>
    if m.length ≤ free && m.length / 16 ≤ cr then
      let (a, b) := packCtl ms (free - m.length) (cr - m.length / 16) (seq + 1)
      (stampMsg seq m :: a, b)
    else ([], m :: ms)

def pitchMarker : Nat := 0x5C3A96E10F87D24B

/-- Bytes 16 to 239 of a control cell (R171). -/
def controlBody (l : Lane) (t : Option TimeCell) (state : TimeState) (follows : Bool) (msgs : Bytes) : Bytes :=
  let cr := fun i => le 2 (nth l.freed i 0).toNat
  let stamp := match t with
    | some c => let i := ITime.ofTicks c.stamp; le 4 i.sec.toNat ++ le 4 i.ns.toNat ++ le 4 i.frac.toNat
    | none => zeros 12
  let kind := match t with
    | some c => [c.kind, c.eseq]
    | none => [0, 0]
  cr 0 ++ cr 1 ++ cr 2 ++ zeros 2 ++ (List.range 16).flatMap (fun i => cr (3 + i))
    ++ kind ++ [BitVec.ofNat 8 (state.ctorIdx + 8 * b2n follows), 0] ++ stamp ++ zeros 16
    ++ le 8 (b2n l.active + 2 * b2n l.retunePending + 256 * l.n)
    ++ slice msgs 0 144

/-- The next control cell of a lane: its bytes before scrambling and the lane after it (R171 to R176). From KEYED on it is
sent under the key of its pitch's generation. The pitch that begins takes the messages that waited. -/
def Lane.controlCell (l : Lane) (state : TimeState) (follows : Bool) : Bytes × Lane :=
  let (now, later) := packCtl l.ctl 144 (l.credit 2) l.mseqTx
  let used := sumNat (now.map (·.length))
  let seq1 := l.mseqTx + BitVec.ofNat 16 now.length
  let (offers, offersLater) := packCtl l.offerQ (144 - used) (l.credit 2 - used / 16) seq1
  let sent := now ++ offers
  let bytes := sent.flatten
  let t := l.timeOut.head?
  let pitch := l.txPitch + 1
  let head := le 8 pitchMarker ++ le 8 (pitch.toNat * 256 + ownProto.toNat)
  let body := controlBody l t state follows bytes
  let l1 := { Lane.placeWaiting l.ctlWait { l with ctl := later, placed := 0 } with
    offerQ := offersLater
    mseqTx := seq1 + BitVec.ofNat 16 offers.length
    timeOut := l.timeOut.drop 1
    lastResp := match t with
      | some c => if c.kind == 2 then some c.eseq else l.lastResp
      | none => l.lastResp
    txPitch := pitch
    txPos := 0
    stalled := false }
  let l2 := l1.spend 2 (bytes.length / 16)
  match l.keys.bind fun _ => l.keysAt pitch with
  | some k =>
    let iv := k.sTx ++ be 8 (2 ^ 63 + pitch.toNat)
    (head ++ slice (Config.gcmCrypt k.kTx iv body) 0 224 ++ Config.gcmTag k.kTx iv head body, l2)
  | none => (head ++ body ++ zeros 16, l2)

/-- Split a message area into whole messages (R172). -/
def splitCtl : Nat → Bytes → List Bytes
  | 0, _ => []
  | n + 1, b =>
    let len := 16 * fld b 1 1
    if fld b 0 1 == 0 || len == 0 || b.length < len then [] else b.take len :: splitCtl n (b.drop len)

/-! ## Keys (R175, R176) -/

/-- Keys of a generation from the shared secret and both nonces (R175); `lower` says which end this is. -/
def deriveKeys (lower : Bool) (nLower nUpper z : Bytes) (lowerLane : Nat) (gen : BitVec 32) : LaneKeys :=
  let prk := Config.hkdfExtract (nLower ++ nUpper) z
  let info := [0x5A, 0x48, 0x45, 0x4C, 0x45, 0x4E, 0x2D, 0x32, 0x2E, 0x32].map (BitVec.ofNat 8)
    ++ le 1 lowerLane ++ le 4 gen.toNat
  let okm := Config.hkdfExpand prk info 72
  let kUp := slice okm 0 32
  let kDown := slice okm 32 32
  let sUp := slice okm 64 4
  let sDown := slice okm 68 4
  if lower then { gen := gen, kTx := kUp, kRx := kDown, sTx := sUp, sRx := sDown }
  else { gen := gen, kTx := kDown, kRx := kUp, sTx := sDown, sRx := sUp }

/-- Keys for this lane: nonces and lane number in lower-then-upper order. -/
def Lane.keysFor (l : Lane) (lower : Bool) (own peer : Bytes) (gen : BitVec 32) : LaneKeys :=
  let peerNonce := match l.peer with
    | some h => h.nonce
    | none => []
  let peerLane := l.peerLane.toNat
  let z := Config.ecdh own peer
  if lower then deriveKeys true l.ownNonce peerNonce z l.n gen
  else deriveKeys false peerNonce l.ownNonce z peerLane gen

/-- KEY_OFFER with an ephemeral public key (R176). -/
def keyOfferMsg (eph : Bytes) : Bytes := ctlMsg 0x10 (slice (Config.p384Public eph) 0 97)

/-- Once both offers are there, the next generation's keys are derived. -/
def Lane.deriveNext (l : Lane) (lower : Bool) : Lane :=
  match l.offerOwn, l.offerPeer, l.keys with
  | some o, some p, some k => { l with nextKeys := some (l.keysFor lower o p (k.gen + 1)) }
  | _, _, _ => l

/-! ## Leaving UP and sparing (R181, R183) -/

/-- The last MID delivered on each of the 18 streams: VC1, VC3, then VC2 by share (R183). A stream that has delivered none
reports 2^32 - 1, the number before the first (assumption 143). -/
def Lane.midsDelivered (l : Lane) : List (BitVec 32) :=
  let none_ : BitVec 32 := 0xFFFFFFFF
  let of := fun vc share => match l.rxs.find? fun r => r.vc == vc && r.share == share with
    | some r => r.lastMid.getD none_
    | none => none_
  [of 1 0, of 3 0] ++ (List.range 16).map (of 2)

def spareSwitchMsg (failed : Nat) (mids : List (BitVec 32)) : Bytes :=
  ctlMsg 0x11 (le 4 failed ++ mids.flatMap fun m => le 4 m.toNat)

/-- The lane of a bundle that carries a stream: the lane in UP to which the image pins it (R183), or where the plan pins it
to none, the first lane in UP (assumption 144). -/
def State.bundleLane (s : State) (p : LaneUse → Bool) (stream : Nat) : Option Nat :=
  let live := s.lanes.filter fun l => p l.plan.use && l.st == .up
  ((live.find? fun l => l.plan.pinned.contains stream).or live.head?).map (·.n)

/-- A fabric operation that a context issues travels on VC2 in its share, on the lane of the fabric bundle that carries the
share's stream (R168, R183). -/
def State.issueOne (s : State) (ctx kind addr : Nat) (data : Bytes) : State :=
  s.sendMsgAll (s.bundleLane LaneUse.isFabric ctx).toList 2 ctx ctx (s.genOf ctx) (Config.fabricMsg kind addr data)

/-- Issue fabric operations in order (02 R71). -/
def State.issue (s : State) (os : List Out) : State :=
  os.foldl (fun s o => match o with
    | .store64 c a l => s.issueOne c 0 a l
    | .fadd c a v => s.issueOne c 1 a (le 8 v.toNat)
    | .flag c a v => s.issueOne c 2 a (le 8 v.toNat)
    | _ => s) (s.emits os)

/-- The first listed sparing partner of a lane that is in STANDBY. -/
def State.standbyOf (s : State) (l : Lane) : Option Nat :=
  l.plan.partners.find? fun p => s.lanes.any fun x => x.n == p && x.st == .standby

/-- The first sparing partner of a lane: a listed partner in STANDBY, or a live lane of the same bundle (R183). -/
def State.partnerOf (s : State) (l : Lane) : Option Nat :=
  match s.standbyOf l with
  | some p => some p
  | none =>
    let same := fun x : Lane => (l.plan.use.isBelay && x.plan.use.isBelay) || (l.plan.use.isFabric && x.plan.use.isFabric)
    (s.lanes.find? fun x => x.n != l.n && same x && x.st == .up).map (·.n)

/-- Training starts over: DETECT with everything of the old session gone but the streams, whose open groups and control
messages are not carried into the next one (R175, R179, R181). Their numbers stand until the next session begins, since a
sparing partner takes the streams with them (R183, assumption 173). -/
def Lane.toDetect (l : Lane) (cause : Nat) (now : Ticks) : Lane :=
  { l with
    st := .detect
    cause := cause
    since := now
    active := false
    ctl := []
    placed := 0
    ctlWait := []
    authCells := []
    authKeys := none
    keys := none
    oldKeys := none
    nextKeys := none
    offerOwn := none
    offerPeer := none
    offerQ := []
    timeOut := []
    lastResp := none
    exch := none
    exchRun := 0
    farState := none
    farFollows := false
    tagFails := []
    misses := 0
    rxPitch := none
    txs := l.txs.map fun t => { t with group := none } }

/-- Messages of a stream are numbered from 0 in a new session, each to be sent whole. -/
def TxStream.restart (t : TxStream) : TxStream :=
  let one := fun (m : OutMsg × Nat) =>
    let mid := BitVec.ofNat 32 m.2
    { m.1 with mid := mid, bytes := le 4 mid.toNat ++ m.1.bytes.drop 4, sent := 0 }
  { t with nextMid := BitVec.ofNat 32 t.queue.length, queue := t.queue.zipIdx.map one, group := none, kept := [] }

/-- KEYED: encryption is on and credits are set (R170, R179). A session begins with its groups, messages and control
messages numbered anew at both ends (assumption 173). -/
def Lane.enterKeyed (l : Lane) (now openedAt : Ticks) : Lane :=
  { l with
    st := .keyed
    since := now
    openedAt := some openedAt
    exchRun := 0
    keys := l.authKeys
    authKeys := none
    txGroup := 0
    rxGroup := 0
    mseqTx := 0
    mseqRx := none
    sentUnits := List.replicate 19 0
    retUnits := List.replicate 19 0
    freed := List.replicate 19 0
    txs := l.txs.map TxStream.restart
    rxs := [] }

/-- The clear cells of a message of stream VC3 (R165, R179): no group, no tag. -/
def clearCells (gen : BitVec 16) (mid : Nat) (body : Bytes) : List Bytes :=
  let b := withPrefix (BitVec.ofNat 32 mid) body
  let n := (b.length + 247) / 248
  (List.range n).map fun i =>
    let pay := slice b (248 * i) (min 248 (b.length - 248 * i))
    dataHeader 3 0 gen (i == 0) (i + 1 == n) false pay.length 0 0 ++ padTo 248 pay

/-- A lane in UP or STANDBY leaves that state with a cause and retrains; an active lane with a partner sends
SPARE_SWITCH there (R181, R183). -/
def laneDrop (n cause : Nat) (s : State) : State :=
  match s.lane? n with
  | some l =>
    if l.trained then
      let s1 := s.onLane n fun l => (l.toDetect cause s.now).bump 11
      if l.active then
        match s.partnerOf l with
        | some p => s1.onLane p fun x =>
            { x.place (spareSwitchMsg n l.midsDelivered) with spareSent := some n }
        | none => s1
      else s1
    else s
  | none => s

/-- Count a tag failure; the eighth within 2^16 pitches is a cause to leave UP (R177). -/
def Lane.tagFail (l : Lane) (counter : Nat) (pitch : BitVec 56) : Lane :=
  { l with tagFails := (pitch :: l.tagFails).filter fun p => (pitch - p).toNat < 2 ^ 16 }.bump counter

def Lane.tagRate (l : Lane) : Bool := 8 ≤ l.tagFails.length

/-- LEAF_STATUS on both lanes (01 R41, 06 R172). -/
def leafStatusMsg (kind : Nat) (args : List Nat) : Bytes := ctlMsg 0x0B (slice (Config.ctlPayload 0x0B (kind :: args)) 0 12)

def State.sendLeafStatus (s : State) (kind : Nat) (args : List Nat) : State :=
  s.sendCtlAll (s.lanesFor LaneUse.isUp) (leafStatusMsg kind args)

/-- A leaf reports its lanes to both members (07 R214, 12 R341). -/
def reportLanes (s : State) : State :=
  let up := fun x : Side => b2n (s.lanes.any fun l => l.plan.use == .up x && l.st == .up)
  s.sendLeafStatus 4 [up .a, up .b]

/-- A leaf that attaches on a lane reports its lanes, and on that lane its die's radio floor (12 R341, R344; assumption 22). -/
def reportAttach (lane : Nat) (s : State) : State :=
  (reportLanes s).sendCtl lane (leafStatusMsg 6 [(Config.pgFloor s.edges).toNat])

end Sys2Proof.Machine
end

