-- ==== Sys2Proof/Machine/Capture.lean ====
section
/-!
DEFINITION. Counters, stooks and capture (04) and the leaf cut record (05 R135 to R138): the operations and the commands
of the region clocks. The boundary is in Boundary.lean and the arbiter's grant in Trace.lean.
-/

namespace Sys2Proof.Machine

/-! ## Region edges (R109, R119) -/

/-- An edge adds each counter's STK_INC in both views and counts the edge (R108, R109). The region runs again, so HOLD
and the unannounced mark go (R51, R107); but STK_STOPPING that is already released on the first edge after an announced
stop breaks R51. -/
def Stook.clock (st : Stook) (e : RegionEdge) : Stook :=
  let inc := fun i => nth e.incs i 0
  { st with
    obs := st.obs.mapIdx fun i v => v + (inc i).setWidth 64
    host := st.host.mapIdx fun i v => v + (inc i).setWidth 48
    regionCyc := st.regionCyc + 1
    edge := .none
    hold := none
    stopRun := if e.stopping then min 3 (st.stopRun + 1) else 0
    unannounced := st.hold.isSome && !e.stopping }

def State.stook? (s : State) (n : Nat) : Option Stook := s.cap.stooks.find? (·.s == n)

def State.onStook (s : State) (n : Nat) (f : Stook → Stook) : State :=
  { s with cap := { s.cap with stooks := mapIf (·.s == n) f s.cap.stooks } }

def execStkClkEdge (n : Nat) (e : RegionEdge) (s : State) : Res :=
  onLeaf "STK_CLK_EDGE" s fun s => s.onStook n fun st => st.clock e

/-! ## Headers (R117) -/

/-- The mode of a latch: on a running region's edge, from HOLD with its stop time, or unannounced with a lower bound of
its stop time if any (R105 to R107). -/
inductive Latch where
  | running
  | stopped (t : Ticks)
  | unannounced (t : Option Ticks)

/-- The low 80 bits: REGION_CYC, or the stop time. -/
def stopBits (t : Ticks) : Nat :=
  let i := ITime.ofTicks t
  i.sec.toNat % 2 ^ 24 * 2 ^ 56 + i.ns.toNat * 2 ^ 26 + i.frac.toNat / 2 ^ 6

/-- Build a stook header (R117): the boundary time decides STOP_OLD. -/
def Stook.header (st : Stook) (m : Latch) (lat : BitVec 16) (ownerChange : Bool) (tk : Ticks) : BitVec 128 :=
  let (stopped, unann, low, old) := match m with
    | .running => (false, false, st.regionCyc.toNat * 2 ^ 32, false)
    | .stopped t => (true, st.unannounced, stopBits t, decide (t + 2 ^ 23 * secT ≤ tk))
    | .unannounced (some t) => (false, true, stopBits t, decide (t + 2 ^ 23 * secT ≤ tk))
    | .unannounced none => (false, true, 0, true)
  BitVec.ofNat 128 (lat.toNat * 2 ^ 112 + st.s * 2 ^ 104 + (st.obs.length - 1) * 2 ^ 96 + min 255 st.hrst * 2 ^ 88
    + b2n stopped * 2 ^ 87 + b2n unann * 2 ^ 86 + b2n st.aligned * 2 ^ 84 + b2n ownerChange * 2 ^ 83 + b2n old * 2 ^ 82
    + low)

/-- The mode of a latch on an edge: a region whose stop broke R51 is still marked on its first edge. -/
def Stook.edgeMode (st : Stook) : Latch := if st.unannounced then .unannounced st.lastEdge else .running

def hdrBit (h : BitVec 128) (i : Nat) : Bool := h.getLsbD i

/-- Load the CUT bank with raw values (R112, R116): delivered relative to the base; a moved unit's base takes the raw
values. -/
def Stook.loadCut (st : Stook) (k : Nat) (tk : Ticks) (m : Latch) (lat : BitVec 16) (raw : List (BitVec 64)) : Stook :=
  { st with
    cut := some (k, st.header m lat st.moving tk, List.zipWith (· - ·) raw st.base)
    base := if st.moving then raw else st.base
    cutWait := none
    moving := false
    hrst := 0
    edge := .cut }

/-- Load the INT bank with the host views of the job's range (R123). -/
def Stook.loadInt (st : Stook) (j : IntJob) (tk : Ticks) (m : Latch) (lat : BitVec 16) : Stook :=
  { st with
    int := some (j, st.header m lat false tk, (st.host.drop j.first).take j.count)
    intWait := none
    edge := .int }

/-- The header table of the ring follows the CUT banks as they load (R117): headers of the loaded banks, and the stooks
still waiting for their latch. -/
def syncHeaders (s : State) : State :=
  let of := fun (k : Nat) (st : Stook) => match st.cut with
    | some (e, h, _) => if e == k then some (st.s, h) else none
    | none => none
  let waits := fun (k : Nat) (st : Stook) => match st.cutWait with
    | some (e, _) => e == k
    | none => false
  let upd := fun r : RingSlot =>
    let new := s.cap.stooks.filterMap (of r.k)
    { r with
      headers := r.headers.filter (fun h => !new.any (·.1 == h.1)) ++ new
      waiting := (s.cap.stooks.filter (waits r.k)).map (·.s) }
  { s with cap := { s.cap with ring := s.cap.ring.map upd } }

/-! ## Requests (R129) -/

def beatsFor (n : Nat) : Nat := (n + 7) / 8

def cutReq (st : Stook) (raised : Nat) : BusReq :=
  { idx := 2 + st.s, raised := raised, ageStart := raised, bursts := [beatsFor st.obs.length], begun := false, stook := st.s }

def intReq (st : Stook) (j : IntJob) (raised : Nat) : BusReq :=
  { idx := 258 + j.ctx, raised := raised, ageStart := raised, begun := false, stook := st.s
    bursts := if j.count ≤ 248 then [1 + beatsFor j.count] else [32, 1 + beatsFor j.count - 32] }

/-- INT requests that are pending or raised in the cycle of a cut's cairn edge take an age_start 8,448 cycles later
(R129). -/
def BusReq.restart (r : BusReq) (cairn : Nat) : BusReq :=
  if 258 ≤ r.idx && r.raised ≤ cairn then { r with ageStart := cairn + 8448 } else r

/-- Raise a request. -/
def State.raise (s : State) (r : BusReq) : State :=
  let r' := match s.cap.cutCycle with
    | some c => if r.raised == c then r.restart c else r
    | none => r
  { s with cap := { s.cap with reqs := s.cap.reqs ++ [r'] } }

/-- Base level, step and cap of a requester. -/
def reqClass (idx : Nat) : Nat × Nat × Nat :=
  if idx == 0 then (5, 16, 7) else if idx < 258 then (4, 1024, 6) else (0, 512, 6)

/-- The level of a request in a cycle (R129). -/
def BusReq.level (r : BusReq) (now : Nat) : Nat :=
  let (base, step, cap) := reqClass r.idx
  let wait := (now : Int) - r.ageStart
  if wait < 0 then base else min cap (base + wait.toNat / step)

/-- r goes before q: higher level, then earlier age_start, then lower index (R129). -/
def BusReq.beats (now : Nat) (r q : BusReq) : Bool :=
  if r.level now != q.level now then decide (q.level now < r.level now)
  else if r.ageStart != q.ageStart then decide (r.ageStart < q.ageStart)
  else decide (r.idx < q.idx)

/-- The winner among the eligible requests: those raised before this cycle. Of two INT requests of one context that agree in
all, the one raised earlier in the list goes first (assumption 152). -/
def winner (now : Nat) (rs : List BusReq) : Option BusReq :=
  (rs.filter fun r => r.raised < now).foldl (fun w r => match w with
    | some q => if r.beats now q then some r else some q
    | none => some r) none

/-- The bus is idle, or this cycle carries the last beat of the burst in flight (R129). -/
def State.busFree (s : State) : Bool := decide (s.cap.busUntil ≤ s.tim.cycle)

/-- Take the winner's next burst off its request; the request keeps its age_start for further bursts. -/
def dropBurst (w : BusReq) : List BusReq → List BusReq
  | [] => []
  | r :: rs =>
    if r == w then
      match r.bursts with
      | _ :: b :: bs => { r with bursts := b :: bs, begun := true } :: rs
      | _ => rs
    else r :: dropBurst w rs

/-- TRC takes its token each 128 cycles and raises a request when a full beat waits (R129). -/
def giveToken (full : Bool) (s : State) : State :=
  let c := s.tim.cycle
  let due := c / 128 * 128
  let tok := s.cap.token || s.cap.tokenCycle != due + 1
  let s1 := { s with cap := { s.cap with token := tok, tokenCycle := due + 1 } }
  if full && tok && !(s.cap.reqs.any (·.idx == 0)) then
    { s1 with cap := { s1.cap with token := false } }.raise
      { idx := 0, raised := c, ageStart := c, bursts := [1], begun := false, stook := 0 }
  else s1

/-! ## Latches (R105 to R107, R116, R123) -/

/-- LAT_DELAY lies within ±0.3 ns of the delay (R105). -/
def latOk (lat : BitVec 16) (t edge : Ticks) : Bool :=
  let exact : Int := ((edge : Int) - t) * 64 * 10
  let got : Int := (lat.toNat : Int) * 2 ^ 32 * 10
  (got - exact).natAbs ≤ 64 * 3 * 2 ^ 32

/-- The edge is later than the boundary by more than the setup time of 0.15 ns (R105). -/
def edgeOk (t edge : Ticks) : Bool := decide (t * 20 + 3 * 2 ^ 32 < edge * 20)

/-- Health counter 289 counts a latch whose header carries STOP_UNANNOUNCED (R113). -/
def countStop (h : Option (BitVec 128)) (s : State) : State :=
  if h.any (hdrBit · 86) then s.countHealth 289 1 else s

/-- STRETCH_SEEN: a cut is latched later than 70 CK_E cycles after its cairn edge (R132). -/
def noteStretch (latched : Ticks) (s : State) : State :=
  if s.cap.cairnAt + 70 * 2684354560 < latched then s.setBit .cap 30 else s

/-- Load the CUT bank of a stook for the cut that waits, and raise its request. -/
def takeCut (n k : Nat) (t : Ticks) (m : Latch) (lat : BitVec 16) (raw : List (BitVec 64)) (raised : Nat) (s : State) : State :=
  match s.stook? n with
  | some st =>
    let st' := st.loadCut k t m lat raw
    countStop (st'.cut.map (·.2.1)) ((syncHeaders (s.onStook n fun _ => st')).raise (cutReq st raised))
  | none => s

/-- Load the INT bank of a stook with the sample that waits, and raise its request. -/
def takeInt (n : Nat) (j : IntJob) (t : Ticks) (m : Latch) (lat : BitVec 16) (raised : Nat) (s : State) : State :=
  match s.stook? n with
  | some st =>
    let st' := st.loadInt j t m lat
    countStop (st'.int.map (·.2.1)) ((s.onStook n fun _ => st').raise (intReq st j raised))
  | none => s

/-- The cut or sub-boundary latch of a running region on its edge (R105): the request is raised on the second or the
third CK_E edge after it (R116). -/
def execStookLatch (n : Nat) (edge : Ticks) (lat : BitVec 16) (third : Bool) (s : State) : Res :=
  onLeaf "STOOK_LATCH" s fun s =>
    let raised := s.tim.cycle + (if third then 3 else 2)
    match s.stook? n with
    | some st =>
      match st.cutWait, st.intWait with
      | some (k, t), _ =>
        if edgeOk t edge && latOk lat t edge then
          noteStretch edge ((takeCut n k t st.edgeMode lat st.obs raised s).onStook n fun st => { st with lastEdge := some edge })
        else s
      | none, some (j, t) =>
        if edgeOk t edge && latOk lat t edge then takeInt n j t st.edgeMode lat raised s else s
      | none, none => s
    | none => s

/-- No edge within 1,023 ns: the frozen counters are read directly, or HOLD where the stop was announced (R106, R107). The
request is raised in the cycle of that read (assumption 153). -/
def execStookLatchTimeout (n : Nat) (s : State) : Res :=
  onLeaf "STOOK_LATCH_TIMEOUT" s fun s =>
    let due := fun t => decide (t + nsT 1023 ≤ s.now)
    let mark := fun s : State => s.onStook n fun st => { st with unannounced := true, edge := .none }
    match s.stook? n with
    | some st =>
      match st.cutWait, st.intWait, st.hold with
      | some (k, t), _, some (v, h) =>
        if due t then noteStretch s.now (takeCut n k t (.stopped h.toTicks) 0xFFFF v s.tim.cycle s) else s
      | some (k, t), _, none =>
        if due t then noteStretch s.now (mark (takeCut n k t (.unannounced st.lastEdge) 0xFFFF st.obs s.tim.cycle s)) else s
      | none, some (j, t), some (_, h) => if due t then takeInt n j t (.stopped h.toTicks) 0xFFFF s.tim.cycle s else s
      | none, some (j, t), none =>
        if due t then mark (takeInt n j t (.unannounced st.lastEdge) 0xFFFF s.tim.cycle s) else s
      | none, none, _ => s
    | none => s

/-- The last edge with STK_STOPPING asserted loads HOLD and stamps the stop time (R51, R115, R120). STK_STOPPING that was
not asserted two edges before it breaks R51 (assumption 149). A cut or sample that already waits, and for which this edge
comes too early, is taken from HOLD (R107), its request raised two cycles later (assumption 153). -/
def execStookHoldLoad (n : Nat) (edge : Ticks) (s : State) : Res :=
  onLeaf "STOOK_HOLD_LOAD" s fun s =>
    match s.stook? n with
    | some st =>
      if st.stopRun = 0 then s
      else
        let s1 := s.onStook n fun st => { st with
          hold := some (st.obs, ITime.ofTicks edge), unannounced := st.unannounced || st.stopRun < 3 }
        match st.cutWait, st.intWait with
        | some (k, t), _ =>
          if edgeOk t edge then s1 else noteStretch edge (takeCut n k t (.stopped edge) 0xFFFF st.obs (s.tim.cycle + 2) s1)
        | none, some (j, t) => if edgeOk t edge then s1 else takeInt n j t (.stopped edge) 0xFFFF (s.tim.cycle + 2) s1
        | none, none => s1
    | none => s

/-- STK_HRST (R119): the host views clear after the edge's events and any latch on it, which sets RESET_SEEN in the
latched header; health counter 290 counts that latch. The reset cycle counts in HRST_COUNT of the cut latched in it
(assumption 11). -/
def Stook.hostReset (st : Stook) : Stook :=
  let seen := fun h : BitVec 128 => h ||| (1#128 <<< 85)
  let count := fun h : BitVec 128 => if (h >>> 88).setWidth 8 == 255#8 then h else h + (1#128 <<< 88)
  let st1 := { st with host := st.host.map fun _ => 0 }
  match st.edge with
  | .cut => { st1 with cut := st.cut.map fun (k, h, v) => (k, seen (count h), v) }
  | .int => { st1 with hrst := min 255 (st.hrst + 1), int := st.int.map fun (j, h, v) => (j, seen h, v) }
  | .none => { st1 with hrst := min 255 (st.hrst + 1) }

def execStookHostReset (n : Nat) (s : State) : Res :=
  onLeaf "STOOK_HOST_RESET" s fun s =>
    match s.stook? n with
    | some st =>
      let s1 := syncHeaders (s.onStook n Stook.hostReset)
      if st.edge != .none then s1.countHealth 290 1 else s1
    | none => s

/-! ## Interval samples (R121 to R125) -/

/-- A sample is due on a stook: an undrained bank skips it (R124); an ALIGNED or stopped stook latches at once. -/
def sampleStook (k : Nat) (t : Ticks) (p : IntPlan) (j : Nat) (sel : Nat × Nat × Nat) (s : State) : State :=
  match s.stook? sel.1 with
  | none => s
  | some st =>
    if st.int.isSome || st.intWait.isSome || st.skipNext then
      ((s.onStook sel.1 fun st => { st with skipped := true, skipNext := false }).countHealth 288 1).onCtx p.ctx
        fun c => { c with skips := c.skips + 1 }
    else
      let job : IntJob := { ctx := p.ctx, gen := p.gen, k := k, j := j, first := sel.2.1, count := sel.2.2, skipped := st.skipped }
      let s1 := s.onStook sel.1 fun st => { st with skipped := false }
      if st.aligned then takeInt sel.1 job t .running 0 (s.tim.cycle + 1) s1
      else match st.hold with
        | some (_, h) => takeInt sel.1 job t (.stopped h.toTicks) 0xFFFF (s.tim.cycle + 1) s1
        | none => s1.onStook sel.1 fun st => { st with intWait := some (job, t) }

/-- Sub-boundary j of division m (R122): T_k + j floor(EPOCH_NS / 2^m), taken once by each plan of that division. -/
def execSubBoundary (m j : Nat) (s : State) : Res :=
  onLeaf "SUB_BOUNDARY" s fun s =>
    match s.sched.past with
    | b :: _ =>
      let t := b.t + nsT (j * (b.epochNs / 2 ^ m))
      if 1 ≤ j && j < 2 ^ m && t ≤ s.now then
        let mine := fun p : IntPlan => p.m == m && s.heldGen p.ctx == some p.gen &&
          (p.taken.1 < b.k || (p.taken.1 == b.k && p.taken.2 < j))
        let s1 := (s.cap.plans.filter mine).foldl (fun s p => p.sel.foldl (fun s x => sampleStook b.k t p j x s) s) s
        { s1 with cap := { s1.cap with plans := mapIf mine (fun p => { p with taken := (b.k, j) }) s1.cap.plans } }
      else s
    | [] => s

/-- The bytes of an INT burst (R123): a header beat (context, generation, j, header fields) and the values, padded to
whole beats. The place of the header beat's fields is the model's own: context, SAMPLE_SKIPPED, generation, j, and the
header at byte 16 (assumption 12). -/
def intBurst (j : IntJob) (h : BitVec 128) (v : List (BitVec 48)) : Bytes :=
  slice (le 1 j.ctx ++ le 1 (b2n j.skipped) ++ le 2 j.gen.toNat ++ le 4 j.j ++ zeros 8 ++ le 16 h.toNat) 0 64
    ++ padTo 64 (v.flatMap fun x => le 8 x.toNat)

/-- A context's share of the interval space of a ring slot (R125, 14 R375). -/
def State.sampleShare (s : State) : Nat :=
  (65536 - sumNat (s.cap.stooks.map (·.obs.length))) * 8 / (64 * max 1 s.cfg.shareCount) * 64

/-- Two ranges of bytes overlap. -/
def overlapsBytes (a n b m : Nat) : Bool := a < b + m && b < a + n

/-! ## The leaf cut record (05 R135 to R137) -/

/-- The record flags (05 R136). -/
def RingSlot.recordFlags (r : RingSlot) (resend : Bool) : Nat :=
  (r.flags.toNat % 16) + b2n (r.headers.any fun h => hdrBit h.2 83) * 2 ^ 4
    + b2n (r.headers.any fun h => hdrBit h.2 87 || hdrBit h.2 86) * 2 ^ 5 + b2n resend * 2 ^ 6

/-- The first 48 bytes of a record of the cut, with its type and its number of stook headers (05 R135). -/
def RingSlot.head (r : RingSlot) (rtype n leafId : Nat) (resend : Bool) : Bytes :=
  le 1 rtype ++ le 1 1 ++ le 2 n ++ le 4 leafId ++ le 8 r.k ++ timeBytes r.t ++ le 4 r.len ++ le 4 r.epochNs
    ++ le 4 (r.recordFlags resend) ++ le 4 r.mapSeq.toNat

/-- The stook headers in ascending stook number. -/
def RingSlot.sorted (r : RingSlot) : List (Nat × BitVec 128) := sortBy (·.1) r.headers

/-- N_s of a header. -/
def bankCount (h : BitVec 128) : Nat := bits h.toNat 103 96 + 1

/-- The offset of the health counters in the record. -/
def RingSlot.healthOff (r : RingSlot) : Nat := 64 + (16 * r.headers.length + 63) / 64 * 64

/-- The bytes of the mapped counters of a cut whose stooks have latched. -/
def RingSlot.valueLen (r : RingSlot) : Nat := sumNat (r.headers.map fun h => 8 * bankCount h.2)

/-- The length of the whole record (05 R135). -/
def RingSlot.recordLen (r : RingSlot) : Nat := r.healthOff + 8192 + (r.valueLen + 63) / 64 * 64 + 64

/-- The record without its trailer. -/
def RingSlot.recordBody (r : RingSlot) (leafId : Nat) (resend : Bool) : Bytes :=
  r.head 1 r.headers.length leafId resend ++ zeros 16
    ++ padTo 64 (r.sorted.flatMap fun h => le 16 h.2.toNat)
    ++ r.health.flatMap (fun v => le 8 v.toNat)
    ++ padTo 64 ((sortBy (·.1) r.values).flatMap fun x => x.2.flatMap fun v => le 8 v.toNat)

/-- The trailer before its CRC (05 R137): the count saturates and the lowest 14 lines are named. -/
def poisonTrailer (lines : List Nat) : Bytes :=
  let ls := (sortBy id lines.eraseDups)
  le 2 (min 0xFFFF ls.length) ++ zeros 2 ++ (List.range 14).flatMap fun i => le 4 (ls.getD i 0xFFFFFFFF)

/-- 8M: the bytes of a cut's mapped counters, where the interval space of its slot begins (R126). -/
def RingSlot.mappedLen (r : RingSlot) : Nat := sumNat (r.counts.map fun x => 8 * x.2)

/-- The mapped counters of a cut's value slot (R126): each stook's at its fixed offset, in ascending counter id. What a
place holds before its stook has drained is open (assumption 176). -/
def RingSlot.mapped (r : RingSlot) : Bytes :=
  r.counts.flatMap fun x => match r.values.find? (·.1 == x.1) with
    | some v => v.2.flatMap fun w => le 8 w.toNat
    | none => (List.range (8 * x.2)).map (Config.ringByte r.k x.1)

/-- The value slot of a cut's ring slot (R126): the mapped counters, then each context's share of the interval space with
its bursts in the order of their arrival from its start on (assumption 176). -/
def RingSlot.valueSlot (share : Nat) (r : RingSlot) : Bytes :=
  let part := fun c : Nat =>
    let b := ((r.ints.find? (·.ctx == c)).map (·.bytes)).getD []
    b ++ ((List.range share).drop b.length).map (Config.ringByte r.k (256 + c))
  r.mapped ++ (List.range 16).flatMap part

/-- The annex part (R126): the cut header, the table of stook headers with absent stooks zero, the health counters. The
places of the cut header's fields are the model's own: epoch 0, T_k 8, EPOCH_NS 24, flags 28 (assumption 176). -/
def RingSlot.annex (r : RingSlot) : Bytes :=
  let hdr := fun n : Nat => match r.headers.find? (·.1 == n) with
    | some h => le 16 h.2.toNat
    | none => zeros 16
  le 8 r.k ++ timeBytes r.t ++ le 4 r.epochNs ++ le 4 (r.recordFlags false) ++ zeros 32
    ++ (List.range 256).flatMap hdr ++ r.health.flatMap (fun v => le 8 v.toNat) ++ zeros 4032

/-- The lines of the record that a poisoned ring line reaches (R126, 05 R135): the cut header; the headers of four stooks
as the record packs them; health counters; mapped counters. -/
def RingSlot.recordLines (r : RingSlot) (p : Bool × Nat) : List Nat :=
  let (annex, i) := p
  if !annex then if 64 * i < r.valueLen then [r.healthOff / 64 + 128 + i] else []
  else if i = 0 then [0]
  else if i < 65 then ((r.sorted.zipIdx.filter fun x => x.1.1 / 4 == i - 1).map fun x => 1 + x.2 / 4).eraseDups
  else if i < 193 then [r.healthOff / 64 + (i - 65)]
  else []

def RingSlot.record (r : RingSlot) (leafId : Nat) (resend : Bool) : Bytes :=
  sealCrc (r.recordBody leafId resend ++ poisonTrailer (r.poison.flatMap r.recordLines))

/-- Every stook has latched and drained, and HLT's four bursts too. -/
def RingSlot.whole (r : RingSlot) : Bool :=
  r.waiting.isEmpty && r.values.length == r.headers.length && (r.drained.filter (·.1 == 1)).length == 4

/-- How many beats of a burst of n beats, the last in the cycle `last`, are in the ring by a cycle (R128). -/
def beatsIn (n last now : Nat) : Nat := n - (last - now)

/-- The bytes of the mapped counters that are in the ring, from the first stook on. -/
def valuesIn (drained : List (Nat × Nat)) (now : Nat) : List (Nat × BitVec 128) → Nat
  | [] => 0
  | x :: xs =>
    let n := bankCount x.2
    match drained.find? (·.1 == 2 + x.1) with
    | some d => if d.2 ≤ now then 8 * n + valuesIn drained now xs else min (8 * n) (64 * beatsIn (beatsFor n) d.2 now)
    | none => 0

/-- How many bytes of the record are in the ring by a cycle, from its start (06 R555): none before the last stook has
latched; then the headers, the health beats and the beats of the stooks in order; the trailer with the last. -/
def RingSlot.readyBytes (r : RingSlot) (now : Nat) : Nat :=
  let hlt := sumNat ((r.drained.filter (·.1 == 1)).map fun d => beatsIn 32 d.2 now)
  if !r.waiting.isEmpty then 0
  else if hlt < 128 then r.healthOff + 64 * hlt
  else
    let v := valuesIn r.drained now r.sorted
    if v == r.valueLen then r.recordLen else r.healthOff + 8192 + v

/-- What of a record there is follows in the lane's VC1 message for it, also while the lane trains again; its first cells
open that message (06 R555). -/
def Lane.feedRecord (l : Lane) (gen : BitVec 16) (len : Nat) (body : Bytes) (k : Nat) : Lane :=
  if l.txs.any fun t => t.vc == 1 && t.queue.any (·.follows k) then
    l.onCut k fun m => { m with bytes := m.bytes.take 8 ++ body }
  else if !(l.st == .up && l.active) then l
  else l.openMsg 1 0 0 gen len body (some k)

/-- The leaf streams the records of its cuts on both lanes as they become ready, the earliest first (06 R555). A lost
epoch sends nothing. -/
def execLeafCutRecordSend (s : State) : Res :=
  onLeaf "LEAF_CUT_RECORD_SEND" s fun s =>
    match s.cap.ring.reverse.find? fun r => !r.lost && !r.sent with
    | some r =>
      let ready := r.readyBytes s.tim.cycle
      if ready == 0 || s.cap.dieLost then s
      else
        let done := r.whole && r.recordLen ≤ ready
        let body := if done then r.record s.cfg.leafId false else (r.recordBody s.cfg.leafId false).take ready
        let s1 := { s with lanes := s.lanes.map fun l => l.feedRecord (s.genOf 0) r.recordLen body r.k }
        if done then
          { s1 with cap := { s1.cap with ring := mapIf (·.k == r.k) (fun r => { r with sent := true }) s1.cap.ring } }
        else s1
    | none => s

/-- A message of VC1 that carries the record of an epoch as a resend (05 R136). -/
def OutMsg.resendOf (m : OutMsg) (k : Nat) : Bool := m.cut.isNone && fld m.bytes 16 8 == k && bit (fld m.bytes 48 4) 6

/-- Every message that carries the record of an epoch, sent in part or not, leaves the queue. -/
def Lane.withdraw (l : Lane) (k : Nat) : Lane :=
  let drop := fun t : TxStream => { t with queue := t.queue.filter fun m => !(m.cut == some k || m.resendOf k) }
  { l with txs := mapIf (·.vc == 1) drop l.txs }

/-- The record of an epoch is lost (R118): no cut or interval record of it goes out, what was queued of it is withdrawn,
and CAPTURE_LOST goes into the status line and to the tray blocks. -/
def captureLost (k : Nat) (s : State) : State :=
  let s1 : State := { s with
    cap := { s.cap with ring := mapIf (·.k == k) (fun r => { r with lost := true, ints := [] }) s.cap.ring }
    lanes := s.lanes.map fun l => l.withdraw k }
  ((s1.setBit .rstState 24).setBit .cap 29).sendLeafStatus 2 [k]

/-- The ring slot of an epoch is overwritten (R127): what is still queued of it is abandoned, and a resend is answered
with RING_OVERWRITTEN on its lane. -/
def overwrite (k : Nat) (s : State) : State :=
  let late := s.lanes.filter fun l => l.txs.any fun t => t.vc == 1 && t.queue.any (·.resendOf k)
  let drop := fun l : Lane => { l.dropCut k with
    txs := mapIf (·.vc == 1) (fun t => { t with queue := t.queue.filter fun m => !m.resendOf k }) (l.dropCut k).txs }
  let s1 := { s with
    lanes := s.lanes.map drop
    cap := { s.cap with ring := s.cap.ring.filter (·.k != k) } }
  late.foldl (fun s l => (s.sendCtl l.n (leafStatusMsg 3 [k])).countHealth 319 1) s1

/-- The slots that T_k begins to overwrite (R127). -/
def overwriteRing (k : Nat) (s : State) : State :=
  ((s.cap.ring.filter fun r => r.k + 16 ≤ k).map (·.k)).foldl (fun s j => overwrite j s) s

/-- The capture bus's wait of which the first beat has come (R132). -/
def CapSt.settleWait (c : CapSt) (now : Nat) : CapSt :=
  match c.waitNext with
  | some (at_, w) => if at_ ≤ now then { c with waitNow := max c.waitNow w, waitNext := none } else c
  | none => c

/-- Store an INT burst in the context's share of the ring slot of its epoch (R126). A boundary without a cut has no slot
(03 R96). -/
def storeInt (j : IntJob) (b : Bytes) (s : State) : State :=
  let put := fun r : RingSlot =>
    let old := ((r.ints.find? (·.ctx == j.ctx)).map (·.bytes)).getD []
    { r with ints := putBack (·.ctx == j.ctx) ({ ctx := j.ctx, gen := j.gen, k := j.k, bytes := old ++ b } : IntBursts) r.ints }
  { s with cap := { s.cap with ring := mapIf (fun r => r.k == j.k && !r.lost) put s.cap.ring } }

/-- A grant of the capture bus (R129): the burst's beats follow this cycle, and the values come into the ring. -/
def grantBurst (w : BusReq) (s : State) : State :=
  let n := w.bursts.headD 1
  let last := s.tim.cycle + n
  let cap0 := s.cap.settleWait s.tim.cycle
  let s1 := { s with cap := { cap0 with
    reqs := dropBurst w s.cap.reqs
    busUntil := last
    waitNext := if w.begun then cap0.waitNext else some (s.tim.cycle + 1, s.tim.cycle + 1 - w.raised) } }
  if w.idx == 0 then s1
  else if w.idx == 1 then
    let done := fun r : RingSlot => { r with drained := r.drained ++ [(1, last)] }
    { s1 with cap := { s1.cap with
      lastCutBeat := last
      ring := match s1.cap.ring with
        | r :: rs => done r :: rs
        | [] => [] } }
  else if w.idx < 258 then
    match (s1.stook? w.stook).bind fun st => st.cut with
    | some (k, _, v) =>
      let put := fun r : RingSlot => { r with
        values := insertBy (·.1) (w.stook, v) r.values
        drained := r.drained ++ [(w.idx, last)] }
      let s2 := s1.onStook w.stook fun st => { st with cut := none }
      { s2 with cap := { s2.cap with lastCutBeat := last, ring := mapIf (·.k == k) put s2.cap.ring } }
    | none => s1
  else if 1 < w.bursts.length then s1
  else
    match (s1.stook? w.stook).bind fun st => st.int with
    | some (j, h, v) => storeInt j (intBurst j h v) (s1.onStook w.stook fun st => { st with int := none })
    | none => s1

end Sys2Proof.Machine
end

