-- ==== Sys2Proof/Machine/Glume.lean ====
section
/-!
DEFINITION. Glume blocks (13): the encoder of R355 to R358, the decoder and its checks (R359 to R361).
-/

namespace Sys2Proof.Machine

/-- Predictors, in code order (R351). -/
inductive Pred where
  | none | delta | delta2 | xor
  deriving DecidableEq, Repr

def predCode : Pred → Nat
  | .none => 0
  | .delta => 1
  | .delta2 => 2
  | .xor => 3

def predOf (n : Nat) : Pred :=
  match n with
  | 1 => .delta
  | 2 => .delta2
  | 3 => .xor
  | _ => .none

/-- How a decode ends (R360, R372): the codes of LAST_ERR. -/
inductive GlumeErr where
  | header | table | token | length | chunkCrc | blockCrc | tag | poisoned
  deriving DecidableEq, Repr

def errCode : GlumeErr → Nat
  | .header => 1
  | .table => 2
  | .token => 3
  | .length => 4
  | .chunkCrc => 5
  | .blockCrc => 6
  | .tag => 7
  | .poisoned => 8

/-! ## Chunks -/

/-- The words of a chunk. -/
def wordsOf (w : Nat) (b : Bytes) : List Nat := (List.range (b.length / w)).map fun i => fld b (w * i) w

/-- The residual folded into z (R355), with a and b the words before x. -/
def residual (p : Pred) (w x a b : Nat) : Nat :=
  let m := 2 ^ (8 * w)
  let fold := fun r : Nat => Nat.xor (r * 2 % m) (if m / 2 ≤ r then m - 1 else 0)
  match p with
  | .none => x
  | .delta => fold ((x + m - a) % m)
  | .delta2 => fold ((x + 2 * m - 2 * a + b) % m)
  | .xor => Nat.xor x a

def residuals (p : Pred) (w : Nat) : List Nat → Nat → Nat → List Nat
  | [], _, _ => []
  | x :: xs, a, b => residual p w x a b :: residuals p w xs x a

/-- Byte planes (R356). -/
def transpose (w : Nat) (z : List Nat) : Bytes :=
  (List.range w).flatMap fun b => z.map fun v => BitVec.ofNat 8 (v / 2 ^ (8 * b))

/-- A token of R357 with its literals. -/
def token (z : Nat) (lits : Bytes) : Bytes :=
  let l := lits.length
  let ext := fun n : Nat => if 15 ≤ n then le 2 (n - 15) else []
  le 1 (min z 15 * 16 + min l 15) ++ ext z ++ ext l ++ lits

/-- Canonical tokens (R358): z zeros counted, literals collected in reverse. -/
def tokens : Bytes → Nat → Bytes → Bytes
  | [], z, lits => if z = 0 && lits.isEmpty then [] else token z lits.reverse
  | x :: xs, z, lits =>
    if x == 0 then
      if lits.isEmpty then tokens xs (z + 1) [] else token z lits.reverse ++ tokens xs 1 []
    else tokens xs z (x :: lits)

/-- The payload of a chunk and whether it is RAW (R358, R370). -/
def chunkPayload (p : Pred) (w : Nat) (raw : Bool) (b : Bytes) : Bytes × Bool :=
  let t := tokens (transpose w (residuals p w (wordsOf w b) 0 0)) 0 []
  if raw || b.length ≤ t.length then (b, true) else (t, false)

def chunksOf (b : Bytes) : List Bytes := (List.range ((b.length + 4095) / 4096)).map fun i => (b.drop (4096 * i)).take 4096

/-- The block of ULEN bytes (R350 to R353); `raw` stores every chunk as it is (R370). -/
def glumeBlock (p : Pred) (w4 raw : Bool) (epoch subj : Nat) (b : Bytes) : Bytes :=
  let w := if w4 then 4 else 8
  let cs := (chunksOf b).map fun c => (c, chunkPayload p w raw c)
  let table := cs.flatMap fun x => le 2 (x.2.1.length + (if x.2.2 then 2 ^ 15 else 0)) ++ zeros 2 ++ le 4 (crc32c x.1).toNat
  let body := padTo 8 (zeros (32 + table.length) ++ cs.flatMap fun x => x.2.1)
  let clen := body.length + 8
  le 2 0x4C47 ++ le 1 1 ++ le 1 (b2n w4 + 2 * predCode p) ++ le 4 b.length ++ le 4 clen ++ le 2 cs.length ++ zeros 2
    ++ le 8 epoch ++ le 4 subj ++ zeros 4 ++ table ++ body.drop (32 + table.length)
    ++ le 4 b.length ++ le 4 (crc32c b).toNat

/-! ## Decoding (R359 to R361) -/

/-- The transposed stream of a token stream; fuel is its length. -/
def untoken (n : Nat) : Nat → Bytes → Nat → Bytes → Except GlumeErr Bytes
  | 0, s, _, acc => if s.isEmpty then .ok acc else .error .token
  | fuel + 1, s, len, acc =>
    match s with
    | [] => .ok acc
    | t :: s1 =>
      let z0 := t.toNat / 16
      let l0 := t.toNat % 16
      if t == 0 then .error .token
      else if z0 = 15 && s1.length < 2 then .error .token
      else
        let z := if z0 = 15 then 15 + fld s1 0 2 else z0
        let s2 := if z0 = 15 then s1.drop 2 else s1
        if l0 = 15 && s2.length < 2 then .error .token
        else
          let l := if l0 = 15 then 15 + fld s2 0 2 else l0
          let s3 := if l0 = 15 then s2.drop 2 else s2
          if s3.length < l then .error .token
          else if n < len + z + l then .error .length
          else untoken n fuel (s3.drop l) (len + z + l) (acc ++ zeros z ++ s3.take l)

/-- The word back from its folded residual. -/
def unresidual (p : Pred) (w z a b : Nat) : Nat :=
  let m := 2 ^ (8 * w)
  let r := Nat.xor (z / 2) (z % 2 * (m - 1))
  match p with
  | .none => z
  | .delta => (r + a) % m
  | .delta2 => (r + 2 * a + (m - b)) % m
  | .xor => Nat.xor z a

def unresiduals (p : Pred) (w : Nat) : List Nat → Nat → Nat → List Nat
  | [], _, _ => []
  | z :: zs, a, b => let x := unresidual p w z a b; x :: unresiduals p w zs x a

/-- Words from byte planes. -/
def untranspose (w : Nat) (t : Bytes) : List Nat :=
  let m := t.length / w
  (List.range m).map fun i => sumNat ((List.range w).map fun b => (t.getD (b * m + i) 0).toNat * 2 ^ (8 * b))

/-- Decode one chunk of n bytes (R359). -/
def decodeChunk (p : Pred) (w n : Nat) (raw : Bool) (s : Bytes) (crc : Nat) : Except GlumeErr Bytes :=
  let data : Except GlumeErr Bytes :=
    if raw then .ok s
    else match untoken n s.length s 0 [] with
      | .error e => .error e
      | .ok t => if t.length = n then .ok ((unresiduals p w (untranspose w t) 0 0).flatMap (le w)) else .error .length
  match data with
  | .error e => .error e
  | .ok x => if (crc32c x).toNat = crc then .ok x else .error .chunkCrc

/-- Decode the chunks in order from their table entries. -/
def decodeChunks (p : Pred) (w ulen : Nat) : List Nat → Nat → Bytes → Bytes → Except GlumeErr Bytes
  | [], _, _, acc => .ok acc
  | e :: es, i, s, acc =>
    let n := min 4096 (ulen - 4096 * i)
    let l := bits e 12 0
    match decodeChunk p w n (bit e 15) (s.take l) (e / 2 ^ 32) with
    | .error er => .error er
    | .ok x => decodeChunks p w ulen es (i + 1) (s.drop l) (acc ++ x)

/-- The entry of a chunk is well formed (R360, step 4). -/
def entryOk (ulen i e : Nat) : Bool :=
  let l := bits e 12 0
  bits e 31 16 == 0 && bits e 14 13 == 0 && 1 ≤ l && l ≤ 4096 && (!bit e 15 || l == min 4096 (ulen - 4096 * i))

/-- A header and chunk table that passed steps 1 to 4 of R360: PRED, the word size, ULEN, CLEN, the table's entries, and
where the payloads begin. -/
structure GlumeHead where
  pred : Pred
  w : Nat
  ulen : Nat
  clen : Nat
  entries : List Nat
  pos : Nat

/-- Steps 1 to 4 of R360, against the tag that the caller expects. -/
def glumeTable (poisoned : Bool) (tag : Option (Nat × Nat)) (b : Bytes) : Except GlumeErr GlumeHead :=
  let fl := fld b 3 1
  let w := if bit fl 0 then 4 else 8
  let ulen := fld b 4 4
  let clen := fld b 8 4
  let n := fld b 12 2
  let es := (List.range n).map fun i => fld b (32 + 8 * i) 8
  let sum := sumNat (es.map fun e => bits e 12 0)
  let pos := 32 + 8 * n
  if poisoned then .error .poisoned
  else if !(fld b 0 2 == 0x4C47 && fld b 2 1 == 1 && bits fl 3 1 < 4 && bits fl 7 4 == 0 && fld b 14 2 == 0
      && bits (fld b 24 4) 23 17 == 0 && fld b 28 4 == 0 && w ≤ ulen && ulen ≤ 2 ^ 24 && ulen % w == 0 && n == (ulen + 4095) / 4096) then .error .header
  else if (match tag with
      | some (e, s) => !(fld b 16 8 == e && fld b 24 4 == s)
      | none => false) then .error .tag
  else if !((es.zipIdx).all (fun x => entryOk ulen x.2 x.1)
      && clen == (pos + sum + 7) / 8 * 8 + 8 && clen ≤ b.length
      && isZero (slice b (pos + sum) (clen - 8 - (pos + sum)))) then .error .table
  else .ok { pred := predOf (bits fl 3 1), w := w, ulen := ulen, clen := clen, entries := es, pos := pos }

/-- Check and decode a whole block in the order of R360. -/
def glumeDecode (poisoned : Bool) (tag : Option (Nat × Nat)) (b : Bytes) : Except GlumeErr Bytes :=
  match glumeTable poisoned tag b with
  | .error e => .error e
  | .ok h =>
    if fld b (h.clen - 8) 4 != h.ulen then .error .header
    else
      match decodeChunks h.pred h.w h.ulen h.entries 0 (b.drop h.pos) [] with
      | .error e => .error e
      | .ok x => if (crc32c x).toNat == fld b (h.clen - 4) 4 then .ok x else .error .blockCrc

/-- A read of the decoded bytes [q, q + len): steps 1 to 4, and step 6 for the chunks that it touches (R361). -/
def glumeRead (poisoned : Bool) (tag : Option (Nat × Nat)) (b : Bytes) (q len : Nat) : Except GlumeErr Bytes :=
  match glumeTable poisoned tag b with
  | .error e => .error e
  | .ok h =>
    let first := q / 4096
    let mine := (h.entries.drop first).take ((q + len + 4095) / 4096 - first)
    let skip := sumNat ((h.entries.take first).map fun e => bits e 12 0)
    match decodeChunks h.pred h.w h.ulen mine first (b.drop (h.pos + skip)) [] with
    | .error e => .error e
    | .ok x => .ok (slice x (q - 4096 * first) len)

/-! ## Decodes that fail inside the block (R362, R372) -/

/-- Report a failed decode. -/
def decFail (e : GlumeErr) (s : State) : State :=
  { s with raw := { s.raw with lastErr := errCode e } }.setBit .glm 30

/-- The manifest of a checkpoint verifies (07 R217). -/
def Ckpt.usable (c : Ckpt) : Bool := !c.poisoned && crcOk c.manifest && !c.manifest.isEmpty

/-- A checkpoint is wanted, and the latest complete one reads poisoned. -/
def noteCkpt (s : State) : State :=
  match (s.raw.ckpts.filter fun c => !c.manifest.isEmpty).getLast? with
  | some c => if c.poisoned then decFail .poisoned s else s
  | none => s

end Sys2Proof.Machine
end

