-- ==== Sys2Proof/Machine/Winnow.lean ====
section
/-!
DEFINITION. The Winnow engine (10): model images and their checks, the walk of a tree, accumulation, the transforms.
-/

namespace Sys2Proof.Machine

/-! ## Images (R280 to R284) -/

def transformOf (n : Nat) : Option Transform :=
  match n with
  | 0 => some .none
  | 1 => some .logistic
  | 2 => some .softmax
  | 3 => some .iso
  | _ => none

/-- A feature-map entry (R282); none where a reserved bit is set or FTYPE is not used. -/
def parseFeat (e : BitVec 64) : Option FeatEntry :=
  let v := e.toNat
  if bits v 63 60 == 0 && bits v 43 32 == 0 && bits v 47 45 ≤ 4 then
    some { word := bits v 59 48, ftype := bits v 47 45, missEn := bit v 44, missing := BitVec.ofNat 32 v }
  else none

/-- A model from its 64-byte header and the parts behind it; none where a header field is out of the range of R280 or the
CRC-32C fails. -/
def parseModel (h : Bytes) (p : ModelParts) : Option Model :=
  let fm := p.fmap.map parseFeat
  match transformOf (fld h 6 1) with
  | some t =>
    if h.length == 64 && crcOk h && fld h 2 1 < 16 && 1 ≤ fld h 3 1 && fld h 3 1 ≤ 8 && fld h 7 1 < 2
        && 1 ≤ fld h 8 4 && fld h 8 4 ≤ 2 ^ 24 && 1 ≤ fld h 12 2 && fld h 12 2 ≤ 4096 && 1 ≤ fld h 14 2
        && fld h 14 2 ≤ 24 && fm.all (·.isSome) && p.dir.length == fld h 8 4 && p.fmap.length == fld h 12 2 then
      some { modelId := fld h 0 2, ctx := fld h 2 1, nOut := fld h 3 1, gen := BitVec.ofNat 16 (fld h 4 2)
             transform := t, streamed := fld h 7 1 == 1, ntrees := fld h 8 4, nfeat := fld h 12 2
             maxDepth := fld h 14 2, maxWin := fld h 16 4, cpsi := fld h 20 4
             base := (List.range 8).map fun j => signed 24 (fld h (24 + 3 * j) 3)
             header := h, dir := p.dir, fmap := fm.filterMap id, nodes := p.nodes, sets := p.sets }
    else none
  | none => none

/-! ## Nodes (R283, R284) -/

def nodeKind (n : BitVec 128) : Nat := bits n.toNat 127 126
def nodeDef (n : BitVec 128) : Bool := n.getLsbD 125
def nodeFidx (n : BitVec 128) : Nat := bits n.toNat 123 112
def nodeRoff (n : BitVec 128) : Nat := bits n.toNat 107 88
def nodeKey (n : BitVec 128) : Nat := bits n.toNat 31 0
def nodeSet (n : BitVec 128) : Nat := bits n.toNat 63 0
def nodeCmax (n : BitVec 128) : Nat := bits n.toNat 43 32
def nodeSetIdx (n : BitVec 128) : Nat := bits n.toNat 15 0
def leafOut (n : BitVec 128) : Nat := bits n.toNat 125 123
def leafCount (n : BitVec 128) : Nat := bits n.toNat 122 121 + 1
def leafCont (n : BitVec 128) : Bool := n.getLsbD 120
def leafVal (n : BitVec 128) (i : Nat) : Int := signed 24 (bits n.toNat (24 * i + 23) (24 * i))

def kindNum : Nat := 1
def kindCatIn : Nat := 2
def kindCatTab : Nat := 3
def ftypeF32 : Nat := 3
def ftypeCat : Nat := 4

/-- The reserved bits of a split node of its kind are zero. -/
def splitReserved (n : BitVec 128) : Bool :=
  let v := n.toNat
  bits v 124 124 == 0 && bits v 111 108 == 0 &&
  (if nodeKind n == kindNum then bits v 87 32 == 0
   else if nodeKind n == kindCatIn then bits v 87 64 == 0
   else bits v 87 44 == 0 && bits v 31 16 == 0)

/-- A split node names a feature of its kind, a key that is no NaN's, and a set table within the share's part. -/
def splitOk (m : Model) (setPart : Nat) (n : BitVec 128) : Bool :=
  splitReserved n && nodeFidx n < m.nfeat && 2 ≤ nodeRoff n &&
  match m.fmap[nodeFidx n]? with
  | none => false
  | some f =>
    if nodeKind n == kindNum then
      f.ftype != ftypeCat && (f.ftype != ftypeF32 || (0x007FFFFF ≤ nodeKey n && nodeKey n ≤ 0xFF800000))
    else f.ftype == ftypeCat && (nodeKind n != kindCatTab || nodeSetIdx n < setPart)

/-- A leaf node's reserved and unused fields are zero, its values in range, its outputs below N_OUT. -/
def leafOk (m : Model) (n : BitVec 128) : Bool :=
  bits n.toNat 119 96 == 0 && leafOut n + leafCount n ≤ m.nOut &&
  (List.range 4).all fun i =>
    if i < leafCount n then bits n.toNat (24 * i + 23) (24 * i) != 0x800000
    else bits n.toNat (24 * i + 23) (24 * i) == 0

/-- The subtree at index n in preorder (R281): the index after it, and the greatest cost of a path in node-steps
(R326); `depth` split nodes lie above it and `outs` are the outputs that this leaf has named. Fuel bounds the walk. -/
def subtree (m : Model) (setPart : Nat) : Nat → Nat → Nat → List Nat → Option (Nat × Nat)
  | 0, _, _, _ => none
  | fuel + 1, n, depth, outs =>
    match m.nodes[n]? with
    | none => none
    | some x =>
      if nodeKind x = 0 then
        let mine := (List.range (leafCount x)).map fun i => leafOut x + i
        if !leafOk m x || mine.any outs.contains then none
        else if leafCont x then
          match m.nodes[n + 1]? with
          | some y =>
            if nodeKind y = 0 then (subtree m setPart fuel (n + 1) depth (mine ++ outs)).map fun r => (r.1, r.2 + 1)
            else none
          | none => none
        else some (n + 1, 1)
      else if !splitOk m setPart x || m.maxDepth ≤ depth || !outs.isEmpty then none
      else
        match subtree m setPart fuel (n + 1) (depth + 1) [] with
        | some (e, a) =>
          if n + nodeRoff x = e then
            (subtree m setPart fuel e (depth + 1) []).map fun r => (r.1, max a r.2 + 1)
          else none
        | none => none

/-- A tree of the directory: its root, end and worst path. -/
def treeOf (m : Model) (setPart : Nat) (t : Nat) : Option (Nat × Nat × Nat) :=
  match m.dir[t]? with
  | some r => (subtree m setPart (m.nodes.length + 1) r 0 []).map fun x => (r, x.1, x.2)
  | none => none

def treesOf (m : Model) (setPart : Nat) : List (Option (Nat × Nat × Nat)) := (List.range m.ntrees).map (treeOf m setPart)

/-- The node-steps of a tree's worst path. -/
def treeSteps (m : Model) (t : Nat) : Nat :=
  match treeOf m (2 ^ 16) t with
  | some x => x.2.2
  | none => 0

def treeNodes (m : Model) (t : Nat) : Nat :=
  match treeOf m (2 ^ 16) t with
  | some x => x.2.1 - x.1
  | none => 0

/-- Intervals in ascending order do not overlap. -/
def disjoint : List (Nat × Nat) → Bool
  | [] => true
  | [_] => true
  | a :: b :: l => a.2 ≤ b.1 && disjoint (b :: l)

/-- The parts of a share in which a model's image must lie: set-table entries, nodes of half a stream buffer, of the node
banks of all lanes and of one, bytes of a lane's feature maps, of the headers and directories of all lanes and of one, and
nodes of the model store. -/
structure ModelRoom where
  sets : Nat
  half : Nat
  banks : Nat
  bank : Nat
  maps : Nat
  dirs : Nat
  dir : Nat
  store : Nat

/-- DIR_OFF, FMAP_OFF and NODE_OFF lie in the share's parts (R280), in bytes and nodes: a resident model's directory and
nodes lie over the lanes of its sets, a streamed one's in the model store (assumption 182). -/
def placesOk (room : ModelRoom) (m : Model) : Bool :=
  let dirOff := fld m.header 48 4
  let fmapOff := fld m.header 52 4
  let nodeOff := fld m.header 56 4
  fmapOff + 8 * m.nfeat ≤ room.maps &&
  if m.streamed then nodeOff + m.nodes.length ≤ room.store && dirOff + 4 * m.ntrees ≤ 16 * room.store
  else dirOff < room.dir && dirOff + 4 * m.ntrees ≤ room.dirs && nodeOff < room.bank && nodeOff + m.nodes.length ≤ room.banks

/-- The rules of R286 that do not depend on what else is loaded. -/
def modelOk (room : ModelRoom) (m : Model) : Bool :=
  let ts := treesOf m room.sets
  !(m.transform == .softmax && m.nOut == 1)
    && !(m.transform == .iso && (m.nOut != 1 || m.cpsi == 0))
    && (m.transform == .iso || m.cpsi == 0)
    && (m.base.zipIdx.all fun b => b.1 != -(2 ^ 23) && (b.2 < m.nOut || b.1 == 0))
    && m.fmap.all (fun f => 16 ≤ f.word && !(f.ftype == ftypeF32 && f.missEn) && (f.missEn || f.missing == 0))
    && m.dir.length == m.ntrees && ts.all (·.isSome)
    && disjoint (sortBy (·.1) (ts.filterMap fun t => t.map fun x => (x.1, x.2.1)))
    && placesOk room m
    && (!m.streamed || (ts.filterMap id).all fun x => x.2.1 - x.1 ≤ room.half)

/-! ## Keys and tests (R288 to R291) -/

/-- The comparison key of R289. -/
def featKey (ftype : Nat) (x : BitVec 32) : BitVec 32 :=
  if ftype = 1 then x
  else if ftype = ftypeF32 then
    let y := if x == 0x80000000#32 then 0#32 else x
    if y.getLsbD 31 then ~~~ y else y ^^^ 0x80000000#32
  else x ^^^ 0x80000000#32

/-- A missing feature (R288). -/
def featMissing (f : FeatEntry) (x : BitVec 32) : Bool :=
  (f.missEn && x == f.missing) ||
    (f.ftype == ftypeF32 && bits x.toNat 30 23 == 0xFF && bits x.toNat 22 0 != 0)

/-- Does a split node go right? -/
def goesRight (m : Model) (n : BitVec 128) (f : FeatEntry) (x : BitVec 32) : Bool :=
  if featMissing f x then nodeDef n
  else if nodeKind n == kindNum then nodeKey n ≤ (featKey f.ftype x).toNat
  else if nodeKind n == kindCatIn then
    if 64 ≤ x.toNat then nodeDef n else !bit (nodeSet n) x.toNat
  else if nodeCmax n < x.toNat then nodeDef n
  else
    match m.sets[nodeSetIdx n]? with
    | some s => !bit (fld s (x.toNat / 8) 1) (x.toNat % 8)
    | none => nodeDef n

/-! ## Walking (R285, R292) -/

/-- What a lane reads during a walk: the row's words and poisoned lines, and the word of its memories that it cannot
correct. -/
structure Reads where
  words : List (BitVec 32)
  badLines : List Nat
  lost : LaneRead

/-- How a walk ends: with its sums, at a poisoned line of the row, or at a lane-memory word that is lost. -/
inductive WalkEnd where
  | sums (acc : List Int)
  | line (l : Nat)
  | word
  deriving DecidableEq, Repr

/-- A test of a split node reads its feature-map entry, its word of the row and, by kind, its set-table entry. -/
def Reads.testLost (r : Reads) (x : BitVec 128) : Bool :=
  r.lost == .feature (nodeFidx x) || (nodeKind x == kindCatTab && r.lost == .set (nodeSetIdx x))

def addAt (acc : List Int) (j : Nat) (v : Int) : List Int := modifyAt acc j (· + v)

/-- Walk from node n; it stops at a word or node that reads poisoned (R287, test 4). Fuel bounds the walk. -/
def walk (m : Model) (r : Reads) : Nat → Nat → List Int → WalkEnd
  | 0, _, acc => .sums acc
  | fuel + 1, n, acc =>
    if r.lost == .node n then .word
    else
      match m.nodes[n]? with
      | none => .sums acc
      | some x =>
        if nodeKind x = 0 then
          let acc' := (List.range (leafCount x)).foldl (fun a i => addAt a (leafOut x + i) (leafVal x i)) acc
          if leafCont x then walk m r fuel (n + 1) acc' else .sums acc'
        else
          match m.fmap[nodeFidx x]? with
          | none => .sums acc
          | some f =>
            if r.testLost x then .word
            else if r.badLines.contains (f.word / 16) then .line (f.word / 16)
            else
              let w := nth r.words f.word 0
              walk m r fuel (if goesRight m x f w then n + nodeRoff x else n + 1) acc

def walkTrees (m : Model) (r : Reads) : List Nat → List Int → WalkEnd
  | [], acc => .sums acc
  | t :: ts, acc =>
    if r.lost == .tree t then .word
    else match walk m r (m.nodes.length + 1) (nth m.dir t 0) acc with
      | .sums a => walkTrees m r ts a
      | e => e

/-! ## Transforms (R293 to R296) -/

/-- 2^256, the scale of the exponentials. -/
def expScale : Nat := 2 ^ 256

/-- The sum of n terms of the exponential series of -1/256: the k-th term, its sign, the sum so far. -/
def expTerms : Nat → Nat → Nat → Bool → Int → Int
  | 0, _, _, _, acc => acc
  | n + 1, k, t, plus, acc =>
    expTerms n (k + 1) (t / (256 * (k + 1))) (!plus) (if plus then acc + t else acc - t)

/-- e^(-1/256) in units of 2^-256. -/
def expUnit : Nat := (expTerms 40 0 expScale true 0).toNat

/-- A power of a scaled number, by squaring. -/
def powScaled : Nat → Nat → Nat → Nat
  | 0, _, _ => expScale
  | fuel + 1, b, n =>
    if n = 0 then expScale
    else
      let h := powScaled fuel (b * b / expScale) (n / 2)
      if n % 2 = 1 then h * b / expScale else h

/-- e^(-j/256) in units of 2^-256, for j up to 8,192. -/
def expNeg (j : Nat) : Nat := powScaled 14 expUnit j

/-- num/den rounded to the nearest integer, halves up. -/
def rnd (num den : Nat) : Nat := (2 * num + den) / (2 * den)

def logLut (i : Nat) : Nat :=
  if 4096 ≤ i then rnd (2 ^ 31 * expScale) (expScale + expNeg (i - 4096))
  else rnd (2 ^ 31 * expNeg (4096 - i)) (expScale + expNeg (4096 - i))

def expLut (e : Nat) : Nat := rnd (2 ^ 31 * expNeg e) expScale

/-- The largest n of the given bits with (2n - 1)^512 ≤ 2^p. -/
def rootSearch (p : Nat) : Nat → Nat → Nat
  | 0, n => n
  | b + 1, n => rootSearch p b (if (2 * (n + 2 ^ b) - 1) ^ 512 ≤ 2 ^ p then n + 2 ^ b else n)

/-- iso_lut: 2^31 × 2^(-i/512) rounded is the largest n with (2n - 1)^512 ≤ 2^(32 × 512 - i). -/
def isoLut (i : Nat) : Nat := rootSearch (32 * 512 - i) 32 0

/-- Entry i of a ROM. -/
def romEntry (t : RomTable) (i : Nat) : Nat :=
  match t with
  | .log => logLut i
  | .exp => expLut i
  | .iso => isoLut i

def logisticOut (raw : Int) : Nat :=
  logLut (((clampInt (-(2 ^ 20)) (2 ^ 20) raw + 2 ^ 20 + 128) / 256).toNat)

def softmaxOut (raws : List Int) : List Nat :=
  let m := raws.foldl max (raws.headD 0)
  let es := raws.map fun r => expLut (min ((m - r + 128) / 256).toNat 8192)
  let s := sumNat es
  es.map fun e => e * 2 ^ 31 / s

def isoOut (ntrees cpsi : Nat) (raw : Int) : Nat :=
  let d := ntrees * cpsi
  let q := if raw ≤ 0 then 0 else min (raw.toNat * 2 ^ 16 / d) (2 ^ 20)
  isoLut ((q + 64) / 128)

/-- OUT of the outputs below N_OUT (R293 to R296). -/
def transform (m : Model) (raw : List Int) : List Nat :=
  match m.transform with
  | .none => raw.map fun _ => 0
  | .logistic => raw.map logisticOut
  | .softmax => softmaxOut raw
  | .iso => raw.map (isoOut m.ntrees m.cpsi)

/-! ## Lanes of a row (11 R320, R322) -/

/-- The trees of lane j of a set of L lanes. -/
def laneTrees (n l j : Nat) : Nat × Nat := (j * n / l, (j + 1) * n / l)

/-- All trees of a slot model. -/
def slotTrees (m : Model) : List Nat := List.range m.ntrees

/-- The trees of slice i (1 to P - 1) on lane j of a set. -/
def laneSlice (m : Model) (l p i j : Nat) : List Nat :=
  let (a, b) := laneTrees m.ntrees l j
  let n := b - a
  let lo := (i - 1) * n / (p - 1)
  let hi := i * n / (p - 1)
  (List.range (hi - lo)).map fun t => a + lo + t

/-- The trees of slice i over the lanes of a set. -/
def sliceTrees (m : Model) (l p i : Nat) : List Nat := (List.range l).flatMap (laneSlice m l p i)

/-! ## Lane memories (R275, R276, R281) -/

/-- A lane's memories, in bytes at a leaf and at a tray block. -/
inductive LaneMem where
  | nodes | stream | maps | sets | headers | work
  deriving DecidableEq, Repr

def LaneMem.bytes (leaf : Bool) : LaneMem → Nat
  | .nodes => if leaf then 2 ^ 17 else 2 ^ 20
  | .stream => if leaf then 0 else 768 * 1024
  | .maps => if leaf then 2 ^ 15 else 96 * 1024
  | .sets => if leaf then 2 ^ 13 else 2 ^ 16
  | .headers => if leaf then 2 ^ 13 else 2 ^ 16
  | .work => if leaf then 2 ^ 13 else 2 ^ 15

/-- A share's part of a lane memory: every one is divided into SHARE_COUNT equal parts. -/
def LaneMem.part (leaf : Bool) (shares : Nat) (m : LaneMem) : Nat := m.bytes leaf / max 1 shares

/-- Trees in the halves of a stream buffer in turn: each half takes as many whole trees, from the next one on, as it has
room for (R281). -/
def streamHalves (m : Model) (half : Nat) : List Nat → List Nat → Nat → List (List Nat)
  | [], cur, _ => if cur.isEmpty then [] else [cur]
  | t :: ts, cur, used =>
    let n := treeNodes m t
    if cur.isEmpty || used + n ≤ half then streamHalves m half ts (cur ++ [t]) (used + n)
    else cur :: streamHalves m half ts [t] n

end Sys2Proof.Machine
end

