-- ==== Sys2Proof/Machine/Units.lean ====
section
/-!
DEFINITION. Checked units, retirement and spares, error counters, OTP words, memory repair and ageing (17).
-/

namespace Sys2Proof.Machine

/-! ## Counters (R455, R456) -/

/-- Count n events in ERR_CNT_i, saturating (R456). -/
def State.errCount (s : State) (i n : Nat) : State :=
  let up := fun v : BitVec 32 => BitVec.ofNat 32 (min 0xFFFFFFFF (v.toNat + n))
  { s with err := { s.err with
    cnt := modifyAt s.err.cnt i up
    total := modifyAt s.err.total i (· + n)
    cntNow := modifyAt s.err.cntNow i up } }

/-- Count in the counter of the profile: ERR_CNT_i in a tray block, health counter h in a leaf. -/
def State.count (s : State) (i h n : Nat) : State :=
  match s.profile with
  | .tray => s.errCount i n
  | .leaf => s.countHealth h n

def State.errBit (s : State) (i : Nat) : State := (s.setBit .err i)

/-- A steward computation disagrees (R444): counted, and when its third run settles it, as a transient. -/
def dupMismatch (third : Bool) (s : State) : State :=
  let s1 := (s.errBit 25).count 5 299 1
  if third then ({ s1 with err := { s1.err with transients := s1.err.transients + 1 } } : State).errBit 29 else s1

/-- The duplicated counters disagree (R444): ERR_SUM bit 24, and the instance enters ACQUIRE until the servo locks. -/
def execTimDupFail (s : State) : Res :=
  .next <| whenClocked s fun s =>
    let s1 := (s.errBit 24).count 6 300 1
    { s1 with tim := { s1.tim with
      state := .acquire
      dupFail := true
      lockRun := 0
      overRun := 0
      integ := 0 } }

/-! ## Class codes (18 R463) -/

def clsLane : Nat := 1
def clsThresher : Nat := 2
def clsReduce : Nat := 3
def clsGlume : Nat := 4
def clsFabric : Nat := 5
def clsCombiner : Nat := 6
def clsUpdate : Nat := 7
def clsSteward : Nat := 10

def State.unit? (s : State) (cls : Nat) : Option UnitClass := s.err.units.find? (·.cls == cls)

def State.onClass (s : State) (cls : Nat) (f : UnitClass → UnitClass) : State :=
  { s with err := { s.err with units := mapIf (·.cls == cls) f s.err.units } }

/-- Glume engines in service (13 R363). -/
def State.glumeEngines (s : State) : Nat :=
  match s.unit? clsGlume with
  | some u => u.inService
  | none => 0

/-- The instance stops publishing, sending sheaves, HOLD_NOTICE and grants, and a paired one hands its role on (R449). -/
def degrade (s : State) : State :=
  { s with mode := .degraded, twin := { s.twin with paired := false, handOver := s.twin.paired } }

/-- Count transient faults of a class (R446, 10 R298). -/
def countTransient (cls n : Nat) (s : State) : State :=
  let s1 := ({ s with err := { s.err with transients := s.err.transients + n } } : State).errBit 29
  if cls == clsLane then
    let up := fun v : BitVec 32 => BitVec.ofNat 32 (min 0xFFFFFFFF (v.toNat + n))
    let s2 := { s1 with
      err := { s1.err with winTransient := up s1.err.winTransient, winNow := up s1.err.winNow } }.setBit .win 27
    if s2.isLeaf then s2.countHealth 293 n else s2
  else if cls == clsThresher then s1.errCount 0 n
  else if cls == clsReduce || cls == clsCombiner then s1.errCount 1 n
  else if cls == clsGlume then s1.count 2 296 n
  else if cls == clsUpdate then s1.countHealth 295 n
  else s1

/-- The unit that a unit does the work of: its own, or a spare's. -/
def UnitClass.standsFor (u : UnitClass) (unit : Nat) : Nat := ((u.stands.find? (·.1 == unit)).map (·.2)).getD unit

/-- The HBM stack of a Thresher unit: 32 units in service each, and 2 of the spares numbered behind them (09 R247, R264,
18 R490). -/
def thresherStack (n : Nat) : Nat := if n < 512 then n / 32 else (n - 512) / 2

/-- The spare that takes over from a unit next: the first of its class, for a Thresher unit of its stack. -/
def UnitClass.nextSpare (u : UnitClass) (unit : Nat) : Option Nat :=
  u.pool.find? fun p => u.cls != clsThresher || thresherStack p == thresherStack unit

/-- A unit leaves its place, to the spare that takes over while there is one (R448, 18 R467). -/
def UnitClass.leave (unit : Nat) (u : UnitClass) : UnitClass :=
  match u.nextSpare unit with
  | some p => { u with
      spares := u.spares - 1
      pool := u.pool.erase p
      stands := (p, u.standsFor unit) :: u.stands }
  | none => { u with inService := u.inService - 1 }

/-- The fabric lane of a tally-line combiner, one for each (R448). -/
def State.combinerLane (s : State) (unit : Nat) : Option Nat :=
  ((s.lanes.filter fun l => l.plan.use.isFabric)[unit]?).map (·.n)

/-- Retire a unit (R446 to R449): a spare takes its place while there is one; without one the class does with less, a
Thresher or REDUCE class degrades the instance, and the fabric lane of a combiner leaves UP, with its streams moved to a
partner. -/
def retireUnit (cls unit : Nat) (rate : Bool) (s : State) : State :=
  match (s.unit? cls).filter fun u => !u.retired.contains unit with
  | none => s
  | some u =>
    let spare := (u.nextSpare unit).isSome
    let s1 := (s.onClass cls fun u => { u.leave unit with
      retired := unit :: u.retired
      lost := if spare then u.lost else u.standsFor unit :: u.lost
      faults := u.faults.filter (·.1 != unit) }).errBit 30
    let s2 := s1.count 3 297 1
    let s3 := if rate then (s2.errBit 28).count 4 298 1 else s2
    let s4 :=
      if cls == clsLane then
        let t := s3.setBit .win (if spare then 31 else 30)
        if t.isLeaf then t.countHealth 294 1 else t
      else if cls == clsThresher then (if spare then s3.setBit .thr 28 else s3)
      else if cls == clsGlume then (s3.setBit .glm 28)
      else s3
    if !spare && (cls == clsThresher || cls == clsReduce) then degrade s4
    else if cls == clsCombiner then (s4.combinerLane unit).elim s4 fun n => laneDrop n 0 s4
    else s4

end Sys2Proof.Machine

namespace Sys2Proof

/-! ## Residues (R441, R442, 10 R297) -/

/-- The residue of a value, modulo 63. -/
def resOf (v : Int) : Int := v % 63

/-- res(2^k). -/
def resPow (k : Nat) : Int := 2 ^ (k % 6)

/-- What a carry or borrow out of k bits takes from a prediction. -/
def carryTerm (k : Option Nat) (c : Bool) : Int :=
  match k, c with
  | some k, true => resPow k
  | _, _ => 0

/-- The code that travels with a value. -/
def ResVal.code (x : ResVal) : Int := (x.gen1.toNat : Int)

/-- Both generators agree on a code that is valid (R441). -/
def ResVal.ok (x : ResVal) : Bool := x.gen1 == x.gen2 && x.gen1 != 63

/-- The residue stored with entry i of a ROM (10 R296). -/
def romResidue (t : RomTable) (i : Nat) : Int := resOf (Machine.romEntry t i)

/-- The operation passes its check: the residue of its result is the one predicted from its operands' codes (R442, 10
R297). -/
def CheckedOp.passes : CheckedOp → Bool
  | .add k a b c r => a.ok && b.ok && resOf r == resOf (a.code + b.code - carryTerm k c)
  | .sub k a b c r => a.ok && b.ok && resOf r == resOf (a.code - b.code + carryTerm k c)
  | .mul a b r => a.ok && b.ok && resOf r == resOf (a.code * b.code)
  | .div n d q p => n.ok && d.ok && resOf (resOf q * d.code + resOf p) == n.code && decide (0 ≤ p ∧ p < d.v)
  | .shl a n r => a.ok && resOf r == resOf (a.code * resPow n)
  | .shr a n q p => a.ok && resOf (resOf q * resPow n + resOf p) == a.code && decide (0 ≤ p ∧ p < 2 ^ n)
  | .chosen a r => a.ok && resOf r == a.code
  | .twice a b => a == b
  | .rom t i r => resOf r == romResidue t i
  | .parity w p => (((List.range (w.log2 + 1)).filter fun i => w.testBit i).length % 2 == 1) == p

/-- How many tries of an operation failed before one passed. -/
def failedTries (tries : List CheckedOp) : Nat := (tries.takeWhile fun o => !o.passes).length

/-- An operation that failed and both its repeats too (R446). -/
def CheckOutcome.permanent (c : CheckOutcome) : Bool := c.ops.any fun t => 3 ≤ failedTries t

/-- Operations that passed on a repeat (R446). -/
def CheckOutcome.transients (c : CheckOutcome) : Nat :=
  (c.ops.filter fun t => 0 < failedTries t && failedTries t < 3).length

end Sys2Proof

namespace Sys2Proof.Machine

/-- A unit that is fenced or retired issues nothing more (18 R467, R448). -/
def State.unitGone (s : State) (cls unit : Nat) : Bool :=
  (s.unit? cls).any fun u => u.retired.contains unit || u.fenced.any (·.1 == unit)

/-- A step that a unit of a class performs: nothing of a unit that is gone is merged, written or published; its items wait for
a spare or for its reset (18 R467). -/
def byUnit (cls : Nat) (c : CheckOutcome) (f : State → State) (s : State) : State :=
  if s.unitGone cls c.unit then s else f s

/-- A step whose check failed for good on a unit without a spare: nobody finishes it, and no result of it is written or
published (R445, 09 R264, 10 R298, R300). -/
def State.stepLost (s : State) (cls : Nat) (c : CheckOutcome) : Bool :=
  c.permanent && ((s.unit? cls).all fun u => u.retired.contains c.unit || (u.nextSpare c.unit).isNone)

/-- The outcome of a step's checked operations: transient faults are counted and retire a unit past TRANSIENT_LIMIT
within 3,600 s (R447); a permanent one retires it (R446). A result that a repeat or a spare gave stands (R445). -/
def unitCheck (cls : Nat) (c : CheckOutcome) (s : State) : State :=
  let unit := c.unit
  let n := c.transients
  let recent := fun u : UnitClass =>
    u.faults.filter (fun f => s.now ≤ f.2 + 3600 * secT) ++ List.replicate n (unit, s.now)
  let s1 := if n = 0 then s else (countTransient cls n s).onClass cls fun u => { u with faults := recent u }
  let many := n != 0 && (s1.unit? cls).any fun u => s.cfg.transientLimit < (u.faults.filter (·.1 == unit)).length
  if c.permanent then retireUnit cls unit false s1
  else if many then retireUnit cls unit true s1
  else s1

/-! ## OTP (02 R62, 17 R453, 19 R505) -/

def State.otpRead (s : State) (a : Nat) : BitVec 32 :=
  match s.otp.find? (·.1 == a) with
  | some w => w.2
  | none => 0

/-- Program bits of an OTP word: a bit once set stays. The programming drives the OTP port (02). -/
def State.otpProgram (s : State) (a : Nat) (v : BitVec 32) : State :=
  let w := s.otpRead a ||| v
  let keep := s.otp.filter (·.1 != a)
  ({ s with
    otp := if w == 0 then keep else insertBy (·.1) (a, w) keep
    pins := { s.pins with otpAddr := BitVec.ofNat 12 a, otpDin := v } }).emit (.otpWrite a v)

/-- The first unused word of the repair area, words 1,536 to 4,095 (R457). -/
def State.otpUnused (s : State) : Option Nat :=
  ((List.range 2560).map (· + 1536)).find? fun a => s.otpRead a == 0

/-- Log a word in the repair area; without an unused word it is not logged and REPAIR_UNSAVED is set (R453, R461). -/
def State.otpLog (s : State) (v : BitVec 32) : State :=
  match s.otpUnused with
  | some a =>
    let s1 := s.otpProgram a v
    { s1 with err := { s1.err with otpFree := s1.err.otpFree - 1 } }
  | none => (s.errBit 27).count 26 311 1

/-! ## SRAM and HBM repair (R450 to R454) -/

/-- Spare rows used in a bank. -/
def State.bankUsed (s : State) (bank : Nat) : Nat := (s.err.repairs.filter (·.1 == bank)).length

/-- ROWS_LEFT of R457: the fewest spare rows left in any bank. -/
def State.rowsLeft (s : State) : Nat := s.err.repairs.foldl (fun m r => min m (8 - s.bankUsed r.1)) 8

/-- Track an error of a row: 4 corrected errors within 24 h trigger a repair; the 64 most recently affected rows are
kept (R452). -/
def noteRow (l : List RowErrors) (bank row n : Nat) (now : Ticks) : List RowErrors × Bool :=
  let old := match l.find? fun r => r.bank == bank && r.row == row with
    | some r => r.times.filter fun t => now ≤ t + 86400 * secT
    | none => []
  let times := old ++ List.replicate n now
  let rest := l.filter fun r => !(r.bank == bank && r.row == row)
  (({ bank := bank, row := row, times := times } :: rest).take 64, 4 ≤ times.length)

def queueRepair (bank row : Nat) (s : State) : State :=
  if s.err.repairQ.contains (bank, row) then s
  else { s with err := { s.err with repairQ := s.err.repairQ ++ [(bank, row)] } }

/-- The health counter of corrected words of a memory (R455). -/
def ceCounter : SramKind → Nat
  | .ring => 301
  | .feature => 303
  | .lanes => 305
  | .buffer => 309

/-- Corrected errors of an SRAM row, found by a scrub or by a read (R451, R452). -/
def correctedRow (bank row errs : Nat) (s : State) : State :=
  if errs == 0 then s
  else
    let (l, trig) := noteRow s.err.rowErrors bank row errs s.now
    let s1 := s.count 10 (ceCounter (Config.bankKind bank)) errs
    let s2 := { s1 with err := { s1.err with rowErrors := l } }
    if trig then queueRepair bank row s2 else s2

/-- A scrub pass of an SRAM row finds corrected errors (R451, R452). -/
def execSramScrub (bank row errs : Nat) (s : State) : Res := .next (whenClocked s (correctedRow bank row errs))

/-- Repair a row (R452, R453): a spare row is used and logged in OTP; without one the row stays. A row that returned an
uncorrectable error is copied as poisoned and counted. -/
def repairRow (bank row : Nat) (s : State) : State :=
  let used := s.bankUsed bank
  let s0 := { s with err := { s.err with repairQ := s.err.repairQ.filter (· != (bank, row)) } }
  if used < 8 then
    let s1 := { s0 with err := { s0.err with
      repairs := s0.err.repairs ++ [(bank, row, used)]
      rowErrors := s0.err.rowErrors.filter fun r => !(r.bank == bank && r.row == row) } }
    (s1.otpLog (BitVec.ofNat 32 (2 ^ 30 + bank % 1024 * 2 ^ 20 + row % 65536 * 2 ^ 4 + used))).count 12 310 1
  else s0

/-- An HBM row that met the trigger of R452 waits for its repair (R454). -/
def queuePpr (row : Nat × Nat) (s : State) : State :=
  if s.err.pprQ.contains row then s else { s with err := { s.err with pprQ := s.err.pprQ ++ [row] } }

/-- A corrected error of an HBM row is tracked as an SRAM row's is (R452, R454). -/
def noteHbm (row : Nat × Nat) (s : State) : State :=
  let (l, trig) := noteRow s.err.hbmErrors row.1 row.2 1 s.now
  let s1 := { s with err := { s.err with hbmErrors := l } }
  if trig then queuePpr row s1 else s1

/-- Lines of the ring become poisoned (04 R128, R450). -/
def poisonRing (ls : List (Nat × Bool × Nat)) (s : State) : State :=
  let hit := fun r : RingSlot => (ls.filter fun l => l.1 == r.k % 16).map (·.2)
  { s with cap := { s.cap with ring := s.cap.ring.map fun r => { r with poison := r.poison ++ hit r } } }

/-- HBM post-package repair of a row that met the trigger (R454): copied in class P and logged in flash; without a resource
HBM_PPR_OUT is set. -/
def execHbmPpr (stack row : Nat) (resource : Bool) (flash : FlashAnswer) (s : State) : Res :=
  onTray "HBM_PPR" s fun s =>
    let s0 := { s with err := { s.err with pprQ := s.err.pprQ.filter (· != (stack, row)) } }
    if !s.err.pprQ.contains (stack, row) then s
    else if resource then
      let at_ := 0x02020000 + 8 * s.err.ppr.length
      let (chan, lines) := Config.pprCopy stack row
      let s1 := { s0 with err := { s0.err with
        ppr := s.err.ppr ++ [(stack, row)]
        hbmErrors := s.err.hbmErrors.filter fun r => !(r.bank == stack && r.row == row) } }
      let s2 := (s1.xfer .p (32 * stack + chan % 32) (2 * lines)).errCount 9 1
      match flash with
      | .ok => s2.emit (.flashProgram at_ (le 4 stack ++ le 4 row))
      | .verifyFail => (s2.setBit .evr 31)
    else s0.errBit 26

/-! ## Ageing (R458 to R462) -/

/-- The ring-oscillator readings of a boundary, each normalised with its coefficient in OTP words 32 to 79 (R458, 19
R505). -/
def State.roNormals (s : State) (ro : List Nat) : List Nat :=
  ro.zipIdx.map fun x => Config.roNormal (s.otpRead (32 + x.2)) x.1 s.now

/-- Ageing readings of a boundary: least margins and ring-oscillator sums of the hour, and the run of R460. -/
def ageSample (pdm raw : List Nat) (s : State) : State :=
  if pdm.isEmpty then s
  else
    let old := s.age.pdmMin
    let ro := s.roNormals raw
    { s with age := { s.age with
      pdmMin := if old.isEmpty then pdm else List.zipWith min old pdm
      roSum := if s.age.roSum.isEmpty then ro else List.zipWith (· + ·) s.age.roSum ro
      roCount := s.age.roCount + 1
      critRun := if pdm.any (· < s.cfg.marginCrit) then s.age.critRun + 1 else 0 } }

/-- The least value and its index. -/
def leastOf (l : List Nat) : Nat × Nat :=
  ((l.zipIdx).foldl (fun b x => match b with
    | some (v, i) => if x.1 < v then some (x.1, x.2) else some (v, i)
    | none => some (x.1, x.2)) none).getD (255, 0)

/-- The ageing minute N of the instance (R459). -/
def State.ageMinute (s : State) : Nat :=
  match s.profile with
  | .leaf => s.cfg.leafId % 60
  | .tray => (2 * s.cfg.team + (if s.cfg.side == .b then 1 else 0)) % 60

/-- The index of the ageing hour a time falls in. -/
def State.ageHour (s : State) : Nat := (s.now - s.ageMinute * 60 * secT) / (3600 * secT)

/-- Request a margin step at the regulator (02 R61). -/
def requestStep (step : Int) (s : State) : State :=
  if s.age.req.isSome then s
  else { s with
    age := { s.age with req := some (step, s.now) }
    pins := { s.pins with vmReq := true, vmStep := BitVec.ofInt 8 step } }

/-- The next step of the sum restored after power-on, at most ±127 (R461). -/
def restoreNext (s : State) : State :=
  if s.age.restore = 0 then s else requestStep (clampInt (-127) 127 s.age.restore) s

def State.ageBit (s : State) (i : Nat) : State := (s.setBit .age i)

/-- The margin decision of the ageing point (R459). -/
def ageDecide (s : State) : State :=
  let m := (leastOf s.age.pdm).1
  if s.age.pdm.isEmpty then s
  else if m < s.cfg.marginLo then
    let s1 := { s with age := { s.age with hiRun := 0 } }
    if s.age.vmApplied < s.cfg.vmMax then requestStep 1 s1 else s1.ageBit 15
  else if s.cfg.marginHi < m then
    let run := s.age.hiRun + 1
    if 24 ≤ run && 0 < s.age.vmApplied then requestStep (-1) { s with age := { s.age with hiRun := 0 } }
    else { s with age := { s.age with hiRun := run } }
  else { s with age := { s.age with hiRun := 0 } }

/-- Close the hour: the means and least margins become the hour's readings; the first hour gives the baseline (R458). -/
def ageClose (s : State) : State :=
  let ro := s.age.roSum.map fun v : Nat => (freeDiv (v : Int) (max 1 s.age.roCount)).toNat
  { s with age := { s.age with
    ro := ro
    pdm := s.age.pdmMin
    baseline := match s.age.baseline with
      | some b => some b
      | none => some ro
    roSum := []
    roCount := 0
    pdmMin := []
    refused := none
    lastHour := s.ageHour } }

/-- The lanes whose re-tune this end starts in the hour: those of which it is the lower instance (R459, 06 R182). -/
def State.retuneLanes (s : State) : List Nat := (s.lanes.filter fun l => l.trained && s.isLower l).map (·.n)

/-- A re-tune runs EQUALISE and the later states (06 R182); a leaf reports the lane down, so that the other twin relays its
records (06 R184). -/
def startRetune (n : Nat) (s : State) : State :=
  let s1 := s.onLane n fun l => { (l.toDetect 10 s.now) with st := .equalise }
  let s2 := { s1 with age := { s1.age with retuning := none } }
  if s2.isLeaf then reportLanes s2 else s2

/-- Re-tune the next lane of the queue whose traffic can move (06 R182), at a tray block first to a sparing partner; one
whose traffic cannot sets RETUNE_PENDING. -/
def retuneGo : List Nat → State → State
  | [], s => { s with age := { s.age with retuneQ := [] } }
  | n :: ns, s =>
    match s.lane? n with
    | some l =>
      let other := s.isLeaf && s.lanes.any fun x => x.n != n && x.plan.use.isUp && x.st == .up
      match s.isLeaf || l.st == .standby, s.standbyOf l with
      | false, some p =>
        let s1 := s.onLane p fun x => { x.place (spareSwitchMsg n l.midsDelivered) with spareSent := some n }
        { s1 with age := { s1.age with retuneQ := ns, retuning := some n } }
      | _, _ =>
        if other || l.st == .standby then
          let s1 := startRetune n s
          { s1 with age := { s1.age with retuneQ := ns } }
        else retuneGo ns (s.onLane n fun l => { l with retunePending := true })
    | none => retuneGo ns s

/-- Health counter i in a record's bytes (05 R135). -/
def recHealth (b : Bytes) (i : Nat) : Nat := fld b (64 + (16 * fld b 2 2 + 63) / 64 * 64 + 8 * i) 8

/-- The ageing metrics 32 to 37 (19 R494). -/
def ageMetrics (s : State) : State :=
  let ro := s.age.ro
  let mean := freeDiv ((sumNat ro : Nat) : Int) (max 1 ro.length)
  let own := if ro.isEmpty then [] else [(32, mean), (33, (((leastOf ro).1 : Nat) : Int))]
  let pdm := if s.age.pdm.isEmpty then [] else [(34, (((leastOf s.age.pdm).1 : Nat) : Int))]
  let recs := s.red.landing.map (·.raw)
  let vms := recs.map fun b => signed 64 (recHealth b 321)
  let least := match s.evr.leafPdm with
    | some m => [(36, ((m : Nat) : Int))]
    | none => []
  let most := if recs.isEmpty then [] else [(37, vms.foldl max (vms.headD 0))]
  let s1 := s.metrics (own ++ pdm ++ [(35, s.age.vmApplied)] ++ least ++ most)
  { s1 with evr := { s1.evr with leafPdm := none } }

/-- The path-delay margins of a record that lands. -/
def noteLeafPdm (b : Bytes) (s : State) : State :=
  let m := (leastOf ((List.range 8).map fun i => recHealth b (280 + i))).1
  { s with evr := { s.evr with leafPdm := some (min m (s.evr.leafPdm.getD m)) } }

/-- The hourly ageing point (R459), taken once an hour. -/
def execAgeingPoint (s : State) : Res :=
  .next <|
    if s.age.lastHour < s.ageHour then
      let s1 := ageDecide (ageMetrics (restoreNext (ageClose s)))
      retuneGo s1.retuneLanes s1
    else s

/-- Operating hours since first power-up (19 R491). -/
def State.opHours (s : State) : Nat := s.optime / 57600

/-- The regulator's request has ended: VM_REQ falls, and VM_STEP goes back to its reset value of 0, which 02 R61 leaves open
(DESIGN CHOICE; assumption 177). -/
def endRequest (s : State) : State :=
  { s with
    age := { s.age with req := none }
    pins := { s.pins with vmReq := false, vmStep := 0 } }

/-- BLK_LIVE rises and the steward begins to scan (21 R543). -/
def startLive (s : State) : State :=
  if s.clocked && !s.stw.scanning then
    { s with
      stw := { s.stw with scanning := true }
      pins := { s.pins with blkLive := s.mode != .detached } }
  else s

/-- A step that comes to nothing ends the restoring phase of a start; the rest is asked for at the next ageing point. -/
def restoreFails (s : State) : State := if s.age.restore = 0 then s else startLive s

/-- Log a step of the margin (R453, R461): without an unused OTP word a tray block keeps the sum in flash. -/
def logStep (step : Int) (s : State) : State :=
  let full := s.otpUnused.isNone && s.isTray
  let s1 := s.otpLog (BitVec.ofNat 32 (3 * 2 ^ 30 + (if step < 0 then 2 ^ 29 else 0) + s.opHours % 2 ^ 29))
  if full then { s1 with flash := { s1.flash with margin := some s1.age.vmApplied } } else s1

/-- VM_ACK (02 R61, R459): the step counts and is logged; VM_APPLIED never falls below 0. A restored step is not
logged again (R461). -/
def execVmAck (s : State) : Res :=
  .next <| match s.age.req with
  | some (step, _) =>
    let s1 := endRequest s
    let restoring := s.age.restore ≠ 0
    let s2 := { s1 with age := { s1.age with
      vmApplied := max 0 (s1.age.vmApplied + step)
      restore := if restoring then s1.age.restore - step else 0
      lastStep := some s.now
      upHours := if !restoring && step = 1 then s1.age.upHours ++ [s.opHours] else s1.age.upHours } }
    let s3 := if s2.isLeaf then s2.setHealth 321 (BitVec.ofInt 64 s2.age.vmApplied) else s2
    if !restoring then logStep step s3
    else if s3.age.restore = 0 then startLive s3 else restoreNext s3
  | none => s

/-- VM_NAK (02 R61): the refused step is kept for the next ageing point. -/
def execVmNak (s : State) : Res :=
  .next <| match s.age.req with
  | some (step, _) =>
    let s1 := restoreFails ((endRequest s).ageBit 14)
    let s2 := { s1 with age := { s1.age with refused := some step } }
    if s2.isLeaf then s2.countHealth 316 1 else s2
  | none => s

/-- No answer within 1 ms (02 R61): the request is withdrawn. -/
def execVmTimeout (s : State) : Res :=
  .next <| match s.age.req with
  | some (_, t) =>
    if t + nsT 1000000 ≤ s.now then
      let s1 := restoreFails ((endRequest s).ageBit 13)
      if s1.isLeaf then s1.countHealth 317 1 else s1
    else s
  | none => s

/-- An urgent step (R460); one refused is not asked for again before the next hourly point (02 R61). -/
def execUrgentStep (s : State) : Res :=
  .next <|
    let rested := match s.age.lastStep with
      | some t => t + 60 * secT ≤ s.now
      | none => true
    if 64 ≤ s.age.critRun && s.age.vmApplied < s.cfg.vmMax && rested && s.age.refused.isNone && s.age.req.isNone then (requestStep 1 s).ageBit 12 else s

/-- LIFE_HOURS (R462). -/
def State.lifeHours (s : State) : BitVec 32 :=
  let h := min 8760 s.opHours
  let u := (s.age.upHours.filter fun t => s.opHours ≤ t + h).length
  if s.sticky.age.getLsbD 15 then 0
  else if u == 0 || h < 720 then 0xFFFFFFFF
  else BitVec.ofInt 32 ((s.cfg.vmMax - s.age.vmApplied) * h / u)

end Sys2Proof.Machine
end

