-- ==== Sys2Proof/Machine/Member.lean ====
section
/-!
DEFINITION. Schedule lookups, membership (05 R145 to R150), leaf records as bytes (05 R135 to R137), the fold of a
contribution (07 R188 to R202) and the bytes of a sheaf (05 R140, R141).
-/

namespace Sys2Proof.Machine

/-! ## The schedule (03 R103, R554) -/

/-- A boundary that has passed. -/
def State.boundary? (s : State) (k : Nat) : Option Boundary := s.sched.past.find? (·.k == k)

/-- The latest boundary. -/
def State.curEpoch (s : State) : Nat :=
  match s.sched.past with
  | b :: _ => b.k
  | [] => 0

/-- One step of R103: the length of the epoch that begins, whether it is irregular, and D after it. -/
def epochStep (epochNs : Nat) (d : Int) : Nat × Bool × Int :=
  let e : Int := epochNs
  if d.natAbs ≤ epochNs / 8 then
    let s := clampInt (-((epochNs / 64 : Nat) : Int)) ((epochNs / 64 : Nat) : Int) d
    ((e + s).toNat, false, d - s)
  else ((e + d % e).toNat, true, 0)

/-- The boundaries from one on, with the D before each, up to the first from which no correction is pending. A step takes
at least a sixty-fourth of an epoch of at most an eighth, so 16 steps reach it. -/
def settleWalk : Nat → Nat → Nat → Ticks → Int → List (Nat × Ticks × Int)
  | 0, _, k, t, d => [(k, t, d)]
  | n + 1, e, k, t, d =>
    if d = 0 then [(k, t, d)]
    else let (len, _, d') := epochStep e d; (k, t, d) :: settleWalk n e (k + 1) (t + nsT len) d'

/-- The boundaries to come, up to the first from which the grid is regular. Before any boundary has passed they start at
the anchor. -/
def State.toCome (s : State) (a : Anchor) : List (Nat × Ticks × Int) :=
  if s.sched.past.isEmpty then settleWalk 16 a.epochNs a.k0 a.t0 s.sched.d
  else settleWalk 16 a.epochNs s.sched.nextK s.sched.nextT s.sched.d

/-- The knots of the anchor in force, latest first. -/
def State.knots (s : State) (a : Anchor) : List (Nat × Ticks) :=
  if s.sched.knots.isEmpty then [(a.k0, a.t0)] else s.sched.knots

/-- The next boundary under the anchor. -/
def State.nextEpoch (s : State) (a : Anchor) : Nat × Ticks :=
  if s.sched.past.isEmpty then (a.k0, a.t0) else (s.sched.nextK, s.sched.nextT)

/-- The time of an epoch on the regular grid of the latest knot at or before it. -/
def knotTime (e : Nat) (knots : List (Nat × Ticks)) (k : Nat) : Option Ticks :=
  (knots.find? fun x => x.1 ≤ k).map fun x => x.2 + nsT ((k - x.1) * e)

/-- The epoch of a time by the latest knot at or before it, and before the epoch `bound`. -/
def knotEpoch (e : Nat) : List (Nat × Ticks) → Nat → Ticks → Option Nat
  | [], _, _ => none
  | (k, t) :: r, bound, x => if t ≤ x then some (min (k + (x - t) / nsT e) (bound - 1)) else knotEpoch e r k x

/-- T_k under the anchor in force (R554): none before its k0, or before any anchor. -/
def State.timeOf (s : State) (k : Nat) : Option Ticks :=
  match s.sched.anchor with
  | none => none
  | some a =>
    if k < a.k0 then none
    else if k < (s.nextEpoch a).1 then
      match s.boundary? k with
      | some b => some b.t
      | none => knotTime a.epochNs (s.knots a) k
    else
      let w := s.toCome a
      match w.find? fun x => x.1 == k with
      | some x => some x.2.1
      | none => (w.getLast?).map fun x => x.2.1 + nsT ((k - x.1) * a.epochNs)

/-- The epoch that contains a time (R554): none before the anchor's T0. -/
def State.epochAt (s : State) (x : Ticks) : Option Nat :=
  match s.sched.anchor with
  | none => none
  | some a =>
    if x < a.t0 then none
    else if x < (s.nextEpoch a).2 then
      match s.sched.past.find? fun b => b.t ≤ x with
      | some b => some b.k
      | none => knotEpoch a.epochNs (s.knots a) (s.nextEpoch a).1 x
    else
      let w := s.toCome a
      match (w.filter fun y => y.2.1 ≤ x).getLast?, w.getLast? with
      | some y, some z => some (if y.1 == z.1 then y.1 + (x - y.2.1) / nsT a.epochNs else y.1)
      | _, _ => none

/-! ## Membership -/

/-- The slot under which entries of the levels below are kept. -/
def belowSlot : Nat := 1000000

/-- The slot under which a summit member keeps the entries of the other shards (R202). -/
def shardSlot : Nat := belowSlot + 1

/-- The slot under which the changes of a contributor are kept: its own, and for the shard partial of summit rope team t,
which comes in slot 1000 + t, one that holds no subject of a sheaf (R202, assumption 172). -/
def changeSlot (slot : Nat) : Nat := if 1000 ≤ slot then belowSlot + 2 + (slot - 1000) else slot

def changesOf (cs : List Change) (ctx slot : Nat) : List Change := cs.filter fun c => c.ctx == ctx && c.slot == slot

/-- The change in force at an epoch: the latest by its epoch, then by its order (R147). -/
def changeAt (cs : List Change) (ctx slot k : Nat) : Option Change :=
  (changesOf cs ctx slot).foldl (fun b c =>
    if k < c.e.epoch then b else match b with
      | some x => if x.e.epoch ≤ c.e.epoch then some c else some x
      | none => some c) none

/-- Reasons that are faults (R145). -/
def faultReason (r : Nat) : Bool := 1 ≤ r && r ≤ 5

/-- Is a slot in EXPECTED of a context at an epoch (R145)? -/
def expectedAt (cs : List Change) (ctx slot k : Nat) : Bool :=
  match changeAt cs ctx slot k with
  | some c => c.e.join || faultReason c.e.reason
  | none => false

/-- Is a slot absent under a fault LEAVE at an epoch? -/
def absentAt (cs : List Change) (ctx slot k : Nat) : Bool :=
  match changeAt cs ctx slot k with
  | some c => !c.e.join && faultReason c.e.reason
  | none => false

/-- The slots a context ever had. -/
def slotsOf (cs : List Change) (ctx : Nat) : List Nat :=
  ((cs.filter fun c => c.ctx == ctx && c.slot < belowSlot).map (·.slot)).eraseDups

def expectedSlots (cs : List Change) (ctx k : Nat) : List Nat := (slotsOf cs ctx).filter fun x => expectedAt cs ctx x k

/-- The subject of a slot. -/
def subjectOf (cs : List Change) (slot : Nat) : Option Nat := (cs.find? (·.slot == slot)).map (·.e.subject)

/-- MEMBER_SEQ after the changes of sheaf k: the entries with an EPOCH up to k (R141, R147). -/
def memberSeqAt (cs : List Change) (ctx k : Nat) : Nat :=
  (cs.filter fun c => c.ctx == ctx && !c.silent && c.e.epoch ≤ k).length

/-- The order of entries in a sheaf (R147): SUBJECT_KIND, SUBJECT, CHANGE. -/
def entryKey (e : MemberEntry) : Nat := (e.kind * 2 ^ 32 + e.subject) * 4 + (if e.join then 2 else 1)

def entryBytes (e : MemberEntry) : Bytes :=
  le 8 e.epoch ++ le 4 e.subject ++ le 1 e.kind ++ le 1 (if e.join then 2 else 1) ++ le 1 e.reason ++ le 1 0

def readEntry (b : Bytes) : MemberEntry :=
  { epoch := fld b 0 8, subject := fld b 8 4, kind := fld b 12 1, join := fld b 13 1 == 2, reason := fld b 14 1 }

/-- The entries that sheaf k of a context carries, ordered (R147). -/
def entriesAt (cs : List Change) (ctx k : Nat) : List MemberEntry :=
  sortBy entryKey ((cs.filter fun c => c.ctx == ctx && !c.silent && c.e.epoch == k).map (·.e))

/-- The kind of subject of this instance's slots. -/
def State.subjectKind (s : State) : Nat :=
  match s.cfg.role with
  | .tray => 1
  | .chassis => 2
  | .summit => 3

/-- Record a change; one that is already recorded stands. -/
def State.addChange (s : State) (c : Change) : State :=
  if s.red.changes.contains c then s else { s with red := { s.red with changes := s.red.changes ++ [c] } }

/-- The payload of a MEMBER_DECIDE (05 R146, R147); its layout is open (assumption 10). -/
def memberDecideMsg (ctx slot : Nat) (e : MemberEntry) : Bytes :=
  ctlMsg 0x0A (slice (Config.ctlPayload 0x0A [ctx, slot, e.epoch, e.subject, e.kind, b2n e.join, e.reason]) 0 28)

/-- Decide a change at this member and send the decision over belay (R146). -/
def State.decideChange (s : State) (c : Change) : State :=
  let s1 := s.addChange c
  if s1.twin.paired then s1.sendBelay (memberDecideMsg c.ctx c.slot c.e) else s1

/-- This member decides membership: side A of a pair, or an unpaired member (R146, 18 R480). -/
def State.decides (s : State) : Bool := s.cfg.side == .a || !s.twin.paired || !s.belayUp

/-- The instance carries its role. -/
def State.carrying (s : State) : Bool := s.mode == .service

/-! ## Leaf records -/

def recS (b : Bytes) : Nat := fld b 2 2
def recLeaf (b : Bytes) : Nat := fld b 4 4 % 2 ^ 17
def recEpoch (b : Bytes) : Nat := fld b 8 8
def recFirst (b : Bytes) : Bool := bit (fld b 40 4) 0
def recHealthOff (b : Bytes) : Nat := 64 + (16 * recS b + 63) / 64 * 64
def recHeader (b : Bytes) (i : Nat) : Nat := fld b (64 + 16 * i) 16
def recHeaders (b : Bytes) : List Nat := (List.range (recS b)).map (recHeader b)
def hdrStook (h : Nat) : Nat := bits h 111 104
def hdrCount (h : Nat) : Nat := bits h 103 96 + 1

/-- The byte offset of a workload counter of the record, with its stook header. -/
def counterOff (b : Bytes) (id : Nat) : Option (Nat × Nat) :=
  let rec go : List Nat → Nat → Option (Nat × Nat)
    | [], _ => none
    | h :: hs, o =>
      if hdrStook h == id / 256 then (if id % 256 < hdrCount h then some (o + 8 * (id % 256), h) else none)
      else go hs (o + 8 * hdrCount h)
  go (recHeaders b) (recHealthOff b + 8192)

/-- Is the 64-byte line of an offset poisoned (R137)? -/
def recPoisoned (b : Bytes) (off : Nat) : Bool :=
  let t := b.drop (b.length - 64)
  let n := fld t 0 2
  if 14 < n then decide (64 ≤ off ∧ off < b.length - 64)
  else (List.range n).any fun i => fld t (4 + 4 * i) 4 == off / 64

/-- The check of a leaf record (R135, R137): type, format, CRC. -/
def recOk (b : Bytes) : Bool := 192 ≤ b.length && fld b 0 1 == 1 && fld b 1 1 == 1 && crcOk b

/-! ## Ownership at the tray (14 R377, R379, R387) -/

/-- The context that a leaf's unit belongs to in cut k: a move at a boundary shows from the next cut on. -/
def ownerAt (os : List UnitOwner) (slot unit k : Nat) : Nat :=
  (os.foldl (fun (b : Nat × Nat) o =>
    if o.slot == slot && o.unit == unit && o.after < k && b.2 ≤ o.after + 1 then (o.ctx, o.after + 1) else b) (0, 0)).1

def State.stookUnit (s : State) (slot stook : Nat) : Nat :=
  match s.cfg.slotStooks.find? (·.1 == slot) with
  | some (_, l) => match l.find? (·.s == stook) with
    | some c => c.unit
    | none => 0
  | none => 0

def State.ownsStook (s : State) (ctx slot stook k : Nat) : Bool :=
  ownerAt s.red.owners slot (s.stookUnit slot stook) k == ctx

/-! ## Observations of a leaf record (R188, R201) -/

/-- An input of a field: not this contributor's, poisoned, or a value. -/
inductive Obs where
  | none
  | poisoned
  | value (v : BitVec 64)

/-- The delta of R143 at an offset: absolute under FIRST or after the unit changed owner at the previous cut. -/
def deltaAt (b : Bytes) (off : Nat) (prev : Option (Bytes × Nat)) : Obs :=
  match prev with
  | none => if recPoisoned b off then .poisoned else .value (BitVec.ofNat 64 (fld b off 8))
  | some (p, po) =>
    if recPoisoned b off || recPoisoned p po then .poisoned
    else .value (BitVec.ofNat 64 (fld b off 8) - BitVec.ofNat 64 (fld p po 8))

/-- The input of a plan field from a leaf record (R188). Health counters are context 0's (14 R378). -/
def fieldInput (s : State) (ctx slot k : Nat) (b : Bytes) (prev : Option Bytes) (f : PlanField) : Obs :=
  let p := if recFirst b then none else prev
  match f.srcKind with
  | 1 =>
    if !s.ownsStook ctx slot (f.srcId / 256) k then .none
    else
      match counterOff b f.srcId with
      | none => .none
      | some (off, _) =>
        match p.bind fun p => (counterOff p f.srcId).map fun q => (p, q) with
        | some (p, po, ph) => if bit ph 83 then deltaAt b off none else deltaAt b off (some (p, po))
        | none => deltaAt b off none
  | 2 => if ctx != 0 then .none else
      deltaAt b (recHealthOff b + 8 * f.srcId) (p.map fun p => (p, recHealthOff p + 8 * f.srcId))
  | 3 => if ctx != 0 then .none else deltaAt b (recHealthOff b + 8 * f.srcId) none
  | _ => .none

/-- Fold one observation into field i of a sheaf; a poisoned input merges as the identity and marks the field. -/
def Sheaf.fold (sh : Sheaf) (i : Nat) (f : PlanField) (o : Obs) (ent : BitVec 32) : Sheaf :=
  match o with
  | .none => sh
  | .poisoned => { sh with poison := if sh.poison.contains i then sh.poison else i :: sh.poison }
  | .value v =>
    let op := f.opAt sh.level
    { sh with fields := modifyAt sh.fields i fun st => mergeField f op st (observe f op v ent) }

/-- Flags of 05 R142 that a leaf record brings to a context, over the stooks it owns. -/
def leafFlags (b : Bytes) (mine : List Nat) : Nat :=
  let any := fun i => mine.any fun h => bit h i
  fld b 40 4 / 4 % 4 * 2 ^ 2 + b2n (any 87) * 2 ^ 4 + b2n (any 86) * 2 ^ 5 + b2n (any 85) * 2 ^ 6 + b2n (any 83) * 2 ^ 7

/-- Merge a leaf's record (R188, R189). -/
def mergeLeaf (s : State) (slot : Nat) (b : Bytes) (prev : Option Bytes) (sh : Sheaf) : Sheaf :=
  let ent := BitVec.ofNat 32 (recLeaf b * 2 ^ 15)
  let mine := (recHeaders b).filter fun h => s.ownsStook sh.ctx slot (hdrStook h) sh.k
  let lats := (mine.map fun h => bits h 127 112).filter (· != 0xFFFF)
  let sh1 := sh.plan.fields.zipIdx.foldl (fun sh x => sh.fold x.2 x.1 (fieldInput s sh.ctx slot sh.k b prev x.1) ent) sh
  { sh1 with
    merged := slot :: sh1.merged
    firstMap := if recFirst b then slot :: sh1.firstMap else sh1.firstMap
    flags := sh1.flags ||| leafFlags b mine
    skew := lats.foldl max sh1.skew }

/-! ## Child sheaves and shard partials (R188, R202) -/

def childEntries (b : Bytes) : List MemberEntry :=
  (List.range (fld b 68 4)).map fun i => readEntry (slice b (192 + 16 * i) 16)

/-- The check of a child sheaf: type, length, CRC, epoch in the trailer. -/
def sheafOk (rtype : Nat) (b : Bytes) : Bool :=
  let n := fld b 88 4
  256 ≤ n && n ≤ b.length && fld b 0 1 == rtype && fld b 1 1 == 1 && crcOk (b.take n)
    && fld b (n - 64) 8 == fld b 8 8

/-- The level of a child of an instance. -/
def Level.below : Level → Level
  | .fleet => .shard
  | .shard => .chassis
  | _ => .tray

/-- Merge a child's body (R188, R199, R201): field by field, a lifted SUM as one observation of the child. -/
def mergeChild (slot team : Nat) (b : Bytes) (sh : Sheaf) : Sheaf :=
  let lv := sh.level.below
  let body := slice b (fld b 72 4) (fld b 76 4)
  let offs := fieldOffsets sh.plan lv
  let pois := fld body 0 (poisonMapLen sh.plan.fields.length)
  let one := fun (sh : Sheaf) (x : PlanField × Nat) =>
    let (f, i) := x
    let op := f.opAt sh.level
    let low := f.opAt lv
    let st := readField f low (slice body (offs.getD i 0) (f.size low))
    let add := match f.lifted sh.level, st with
      | true, .sum v => observe f op (satSum v) (BitVec.ofNat 32 team)
      | _, st => st
    { sh with
      fields := modifyAt sh.fields i fun x => if op == .none then x else mergeField f op x add
      poison := if bit pois i && !sh.poison.contains i then i :: sh.poison else sh.poison }
  let sh1 := sh.plan.fields.zipIdx.foldl one sh
  let partial_ := sh.level == .fleet
  { sh1 with
    merged := slot :: sh1.merged
    firstMap := if !partial_ && bit (fld b 40 4) 0 then slot :: sh1.firstMap else sh1.firstMap
    flags := sh1.flags ||| (fld b 40 4 / 4 % 128 * 4)
    skew := max sh1.skew (fld b 80 4)
    leafExp := sh1.leafExp + fld b 60 4
    leafPres := sh1.leafPres + fld b 64 4
    partExp := if partial_ then sh1.partExp ||| fld b 128 16 else sh1.partExp
    partPres := if partial_ then sh1.partPres ||| fld b 144 16 else sh1.partPres
    partFirst := if partial_ then sh1.partFirst ||| fld b 160 16 else sh1.partFirst }

/-! ## The bytes of a sheaf (R140, R141) -/

def Level.rtype : Level → Nat
  | .tray => 2
  | .chassis => 3
  | .fleet => 4
  | .shard => 6

def popcount (n : Nat) : Nat := ((List.range 128).filter fun i => bit n i).length

/-- Expected, present and FIRST maps of a sheaf (R145). A slot that is absent under a LEAVE in force is not present. -/
def Sheaf.maps (sh : Sheaf) (cs : List Change) : Nat × Nat × Nat :=
  if sh.level == .fleet then (sh.partExp, sh.partPres, sh.partFirst)
  else
    let ex := (slotsOf cs sh.ctx).filter fun x => expectedAt cs sh.ctx x sh.k
    let there := fun x => ex.contains x && !absentAt cs sh.ctx x sh.k
    (mapOf ex, mapOf (sh.merged.filter there), mapOf (sh.firstMap.filter there))

/-- The latest entry about a chassis at an epoch (R147). -/
def chassisEntry (cs : List Change) (ctx n k : Nat) : Option MemberEntry :=
  (cs.filter fun c => c.ctx == ctx && !c.silent && c.e.kind == 3 && c.e.subject == n && c.e.epoch ≤ k).foldl
    (fun (b : Option MemberEntry) c => match b with
      | some e => if e.epoch ≤ c.e.epoch then some c.e else some e
      | none => some c.e) none

/-- Every direct contributor that is expected is merged, or absent under a LEAVE in force (01 R39), and no own row is still
to be obtained (R201); a fleet sheaf needs each shard's partial, or the shard's chassis declared CHASSIS_LOST from this
epoch or an earlier one (R202). -/
def Sheaf.complete (sh : Sheaf) (cs : List Change) : Bool :=
  if sh.level == .fleet then
    sh.verdictsFinal && (List.range 4).all fun t => sh.merged.contains (1000 + t) || absentAt cs sh.ctx (changeSlot (1000 + t)) sh.k
  else sh.verdictsFinal && sh.owed.isEmpty && (slotsOf cs sh.ctx).all fun x =>
    !expectedAt cs sh.ctx x sh.k || sh.merged.contains x || absentAt cs sh.ctx x sh.k

/-- The sheaf flags (R142). With no contributor present FIRST is clear (assumption 142). -/
def Sheaf.flagWord (sh : Sheaf) (present first : Nat) (changes : Nat) : Nat :=
  b2n (present != 0 && present == first) + b2n sh.irregular * 2 + (sh.flags / 4 % 64) * 4
    + b2n (!sh.poison.isEmpty || bit sh.flags 8) * 2 ^ 8 + b2n (0 < changes) * 2 ^ 9 + b2n sh.ctxFirst * 2 ^ 10

/-- N_LEAF_EXPECTED and N_LEAF_PRESENT (R145): at a tray the maps' counts; above, the sums of the present children plus
the latest counts of absent ones. -/
def Sheaf.leafCounts (sh : Sheaf) (cs : List Change) (latest : List (Nat × Nat × Nat)) (ex pr : Nat) : Nat × Nat :=
  match sh.level with
  | .tray => (popcount ex, popcount pr)
  | .fleet => (sh.leafExp, sh.leafPres)
  | _ =>
    let gone := (slotsOf cs sh.ctx).filter fun x => absentAt cs sh.ctx x sh.k && !sh.merged.contains x
    let add := sumNat (gone.map fun x => match latest.find? fun l => l.1 == sh.ctx && l.2.1 == x with
      | some l => l.2.2
      | none => 0)
    (sh.leafExp + add, sh.leafPres)

/-- The whole sheaf. -/
def Sheaf.build (sh : Sheaf) (cs : List Change) (latest : List (Nat × Nat × Nat)) (scope : Nat) : Bytes :=
  let cs := if sh.level == .shard then cs.filter (·.slot != shardSlot) else cs
  let (ex, pr, fi) := sh.maps cs
  let es := entriesAt cs sh.ctx sh.k
  let (le_, lp) := sh.leafCounts cs latest ex pr
  let ents := padTo 64 (es.flatMap entryBytes)
  let body := bodyBytes sh.plan sh.level sh.fields sh.poison
  let bodyOff := 192 + ents.length
  let total := bodyOff + body.length + 64
  let head := le 1 sh.level.rtype ++ le 1 1 ++ le 2 sh.plan.planId ++ le 4 scope ++ le 8 sh.k ++ timeBytes sh.t
    ++ le 4 sh.len ++ le 4 sh.epochNs ++ le 4 (sh.flagWord pr fi es.length)
    ++ le 4 (memberSeqAt cs sh.ctx sh.k) ++ le 1 sh.ctx ++ le 1 0 ++ le 2 sh.gen.toNat
    ++ le 4 (popcount ex) ++ le 4 (popcount pr) ++ le 4 le_ ++ le 4 lp ++ le 4 es.length ++ le 4 bodyOff
    ++ le 4 body.length ++ le 4 sh.skew ++ le 4 sh.verdicts.length ++ le 4 total ++ zeros 36
  sealCrc (head ++ le 16 ex ++ le 16 pr ++ le 16 fi ++ zeros 16 ++ ents ++ body
    ++ le 8 sh.k ++ le 4 total ++ zeros 48)

/-- The plan of a context in force at an epoch (R198). -/
def planAt (ps : List CtxPlan) (ctx k : Nat) : Option Plan :=
  (ps.foldl (fun (b : Option (Nat × Plan)) p => match p.since with
    | some f => if p.ctx == ctx && f ≤ k then (match b with
        | some (g, q) => if g ≤ f then some (f, p.plan) else some (g, q)
        | none => some (f, p.plan)) else b
    | none => b) none).map (·.2)

/-- A context without a plan in force has sheaves without fields (14 R387, 21 R552); what their PLAN_ID holds is open
(assumption 46). -/
def noPlan : Plan := { planId := Config.noPlanId.toNat, lenT := 0, lenC := 0, lenF := 0, fields := [] }

/-- The first epoch of a context generation (14 R387, 21 R552): a tenant's is the one after its start boundary. -/
def Ctx.firstEpoch (c : Ctx) : Nat := if c.id = 0 then c.start else c.start + 1

/-- An empty sheaf of a level for a boundary. -/
def newSheaf (lv : Level) (ctx : Nat) (gen : BitVec 16) (b : Boundary) (p : Plan) (ctxFirst final : Bool) : Sheaf :=
  { level := lv, ctx := ctx, gen := gen, k := b.k, t := b.t, len := b.len, epochNs := b.epochNs
    irregular := b.irregular, ctxFirst := ctxFirst, plan := p
    fields := p.fields.map fun f => identityOf f (f.opAt lv)
    poison := [], merged := [], firstMap := [], rows := [], owed := [], flags := 0, skew := 0, leafExp := 0, leafPres := 0, below := []
    partExp := 0, partPres := 0, partFirst := 0, verdicts := [], verdictsFinal := final, summary := []
    sent := false, stage := .open, bytes := [] }

end Sys2Proof.Machine
end

