-- ==== Sys2Proof/Machine/Trace.lean ====
section
/-!
DEFINITION. Program trace (08 R219 to R227) and the capture bus's grant (04 R118, R129), whose first requester is TRC.
-/

namespace Sys2Proof.Machine

/-! ## Ownership (R219) -/

/-- The owner of a control core: the context of all its engines, else context 0. -/
def State.coreOwner (s : State) (core : Nat) : Nat :=
  match s.cfg.coreUnits.find? (·.1 == core) with
  | some (_, u :: us) => let c := nth s.cap.owner u 0; if us.all fun v => nth s.cap.owner v 0 == c then c else 0
  | _ => 0

/-! ## Records (R222 to R224) -/

def recEmpty : Nat := 0
def recSample : Nat := 1
def recWatch : Nat := 2
def recStop : Nat := 3
def recBrk : Nat := 4

/-- A trace record with OFFSET zero (R223). -/
def trcWord (payload : BitVec 64) (core stall kind : Nat) (seq : BitVec 16) : BitVec 128 :=
  BitVec.ofNat 128 (payload.toNat * 2 ^ 64 + core % 256 * 2 ^ 24 + stall % 16 * 2 ^ 20 + kind % 16 * 2 ^ 16 + seq.toNat)

/-- OFFSET of R223: 0.5 ns units from T_k, truncated. -/
def trcOffset (t tk : Ticks) : Nat := (t - tk) / 2 ^ 31 % 2 ^ 32

def TrcRec.bytes (r : TrcRec) (tk : Ticks) : Bytes :=
  match r.raised with
  | some t => le 16 (r.word.toNat + trcOffset t tk * 2 ^ 32)
  | none => zeros 16

def State.onShareTrc (s : State) (c : Nat) (f : ShareTrc → ShareTrc) : State :=
  { s with trc := { s.trc with shares := mapIf (·.ctx == c) f s.trc.shares } }

/-- A mark waits for the next slot of the share that owns its subject (R224). -/
def putMark (c : Nat) (m : Mark) (s : State) : State := s.onShareTrc c fun x => { x with marks := x.marks ++ [m] }

/-- STOP_MARK records go to the provider share, with seconds and nanoseconds of the event (R224). -/
def stopMark (phase : Nat) (t : Ticks) (s : State) : State :=
  putMark 0 { kind := recStop, core := 0, stall := phase,
              payload := BitVec.ofNat 64 (t / secT % 2 ^ 32 * 2 ^ 32 + t % secT / 2 ^ 32) } s

def brkMark (c core phase : Nat) (cyc : Nat) (s : State) : State :=
  putMark c { kind := recBrk, core := core, stall := phase, payload := BitVec.ofNat 64 (min 0xFFFFFFFF cyc) } s

def watchMark (c idx phase step tensor : Nat) (s : State) : State :=
  putMark c { kind := recWatch, core := idx, stall := phase,
              payload := BitVec.ofNat 64 (step % 2 ^ 32 * 2 ^ 32 + tensor % 2 ^ 32) } s

/-! ## Messages (R225, R226) -/

/-- The first 64 bytes of a trace, watch, scan or leaf verdict message (R226): those of the leaf record of epoch k with
S zero, the last 16 redefined. -/
def captHead (s : State) (rtype ctx : Nat) (gen : BitVec 16) (k count tseq : Nat) : Bytes :=
  let slot := s.cap.ring.find? (·.k == k)
  let b := s.boundary? k
  let t := (b.map (·.t)).getD 0
  let head := match slot with
    | some r => r.head rtype 0 s.cfg.leafId false
    | none => le 1 rtype ++ le 1 1 ++ le 2 0 ++ le 4 s.cfg.leafId ++ le 8 k ++ timeBytes t ++ le 4 ((b.map (·.len)).getD 0)
        ++ le 4 ((b.map (·.epochNs)).getD s.cfg.epochNs) ++ le 4 (((b.map fun b => b2n b.irregular * 2)).getD 0)
        ++ le 4 s.cap.mapSeq.toNat
  head ++ le 1 ctx ++ le 1 0 ++ le 2 gen.toNat ++ le 4 count ++ le 8 tseq

/-- The data of a watch part (RTYPE 8) or a scan part (RTYPE 9) of epoch k with its RTYPE. With GLM_DUMP set and an engine
in service a part without a poisoned line goes as one Glume block, padded to whole lines (13 R371, R365; assumption 161). -/
def State.partData (s : State) (rtype k : Nat) (data : Bytes) (poisoned : Bool) : Nat × Bytes :=
  let watch := rtype == 8
  if s.cfg.glmDump && 0 < s.glumeEngines && !poisoned && !data.isEmpty then
    let subj := s.cfg.leafId + (if watch then 3 else 4) * 2 ^ 24
    (rtype + 3, padTo 64 (glumeBlock (if watch then .xor else .none) watch false k subj data))
  else (rtype, data)

/-- Send a message of a share on both lanes, on VC2 (R225). -/
def State.sendShare (s : State) (ctx : Nat) (gen : BitVec 16) (body : Bytes) : State :=
  s.sendMsgAll (s.lanesFor LaneUse.isUp) 2 ctx ctx gen body

/-- The epoch whose boundary most recently precedes a time (R226). -/
def State.epochOf (s : State) (t : Ticks) : Nat :=
  match s.sched.past.find? fun b => b.t ≤ t with
  | some b => b.k
  | none => s.curEpoch

/-- The next TSEQ of a share (R226). -/
def State.nextTseq (s : State) (c : Nat) : Nat := ((s.trc.shares.find? (·.ctx == c)).map (·.tseq)).getD 0

/-- A message of a share leaves with the TSEQ of the share, which then rises. -/
def State.sendNumbered (s : State) (c : Nat) (gen : BitVec 16) (body : Nat → Bytes) : State :=
  (s.sendShare c gen (body (s.nextTseq c))).onShareTrc c fun x => { x with tseq := x.tseq + 1 }

/-- The epoch of a trace message: that of its first request, or where it has none that of its first group. -/
def messageEpoch (beats : List TrcBeat) (s : State) : Nat :=
  match (beats.flatMap (·.recs)).find? (·.raised.isSome) with
  | some r => s.epochOf (r.raised.getD 0)
  | none => (beats.head?.map (·.k)).getD 0

/-- Close the message of a share and send it (R225). -/
def closeTrace (c : Nat) (s : State) : State :=
  match s.trc.shares.find? (·.ctx == c), s.heldGen c with
  | some x, some g =>
    match x.beats with
    | [] => s
    | _ :: _ =>
      let k := messageEpoch x.beats s
      let tk := ((s.boundary? k).map (·.t)).getD 0
      let recs := x.beats.flatMap (·.recs)
      let body := fun q => sealCrc
        (captHead s 7 c g k recs.length q ++ recs.flatMap (fun r => r.bytes tk) ++ poisonTrailer (x.poison.map (· + 1)))
      (s.sendNumbered c g body).onShareTrc c fun x => { x with beats := [], poison := [] }
  | _, _ => s

/-- A beat has crossed the capture bus (R225): it joins its share's message, which closes after 64 beats; the beat of the
first group that began at or after a boundary closes the messages. -/
def takeBeat (b : TrcBeat) (s : State) : State :=
  let s1 := s.onShareTrc b.share fun x => { x with beats := x.beats ++ [b] }
  if b.closes then (s1.trc.shares.map (·.ctx)).foldl (fun s c => closeTrace c s) s1
  else
    match s1.trc.shares.find? (·.ctx == b.share) with
    | some x => if 64 ≤ x.beats.length then closeTrace b.share s1 else s1
    | none => s1

/-! ## Slots (R220, R221) -/

/-- A record takes the slot. -/
def pushRec (r : TrcRec) (s : State) : State := { s with trc := { s.trc with recs := s.trc.recs ++ [r] } }

/-- A record of a share that is not EMPTY takes its next SEQ (R223). -/
def recordOf (share : Nat) (t : Ticks) (m : Mark) (s : State) : State :=
  match s.trc.shares.find? (·.ctx == share) with
  | some x =>
    let s1 := s.onShareTrc share fun x => { x with seq := x.seq + 1 }
    pushRec { raised := some t, word := trcWord m.payload m.core m.stall m.kind x.seq } s1
  | none => pushRec { raised := none, word := 0 } s

def pushEmpty (s : State) : State := pushRec { raised := none, word := 0 } s

/-- The share of the group in progress. -/
def State.groupShare (s : State) : Nat := s.trc.group % s.cfg.shareCount

/-- A new group begins (R220), the state of CK_E cycle 0 being the first edge after reset (assumption 3): a TRACE_SET of its
share comes into force, and the first group after a boundary closes the messages (R225). -/
def beginGroup (s : State) : State :=
  let g := s.tim.cycle / 128
  let share := g % s.cfg.shareCount
  let k := s.curEpoch
  let s1 := { s with trc := { s.trc with
    group := g
    recs := []
    closes := s.trc.closedK < k
    closedK := max s.trc.closedK k } }
  s1.onShareTrc share fun x => match x.pendingSet with
    | some (cores, div) => { x with cores := cores, div := div, pendingSet := none, slots := 0, pos := 0 }
    | none => x

/-- Raise TRC_SREQ for a core. -/
def raiseSample (share core : Nat) (s : State) : State :=
  let s1 := s.onShareTrc share fun x => { x with pos := x.pos + 1, slots := x.slots + 1 }
  { s1 with
    trc := { s1.trc with req := some (core, s.now, s.tim.cycle) }
    pins := { s1.pins with trcSreq := true, trcSel := BitVec.ofNat 8 core } }

/-- Finish the request that waits: the record of R222. TRC_SEL goes back to its reset value of 0, which 02 R53 leaves open
(DESIGN CHOICE; assumption 177). -/
def endSample (stall : Nat) (pc : BitVec 64) (s : State) : State :=
  match s.trc.req with
  | some (core, t, _) =>
    let s1 := { s with
      trc := { s.trc with req := none }
      pins := { s.pins with trcSreq := false, trcSel := 0 } }
    recordOf s1.groupShare t { kind := recSample, core := core, stall := stall, payload := pc } s1
  | none => s

/-- At the end of a group its beat of 4 records waits for the capture bus, with the epoch in which the group began (R220). -/
def closeGroup (s : State) : State :=
  if s.tim.cycle / 128 ≤ s.trc.group then s
  else
    let t := endSample 14 0 s
    if t.trc.recs.length < 4 then t
    else
      let beat : TrcBeat := { share := t.groupShare, k := t.trc.closedK, recs := t.trc.recs, closes := t.trc.closes }
      let buf := t.trc.buffered ++ [beat]
      let s1 := { t with trc := { t.trc with
        recs := []
        buffered := buf } }
      if 16 ≤ buf.length then (s1.setBit .cap 28) else s1

/-- This cycle is that of slot j of a group, 32 j CK_E cycles after the group starts, and the slot is not taken yet
(R220). -/
def State.slotStarts (s : State) (j : Nat) : Bool := s.tim.cycle % 128 == 32 * j && s.trc.slotAt != some s.tim.cycle

/-- What takes slot j of the group (R220): the share's next mark, or a sample of the next listed core in every DIV-th of
its own slots, or EMPTY. The marks of a context that drains still go. A sample displaced by a mark is not carried over
(assumption 16). -/
def fillSlot (s : State) : State :=
  let share := s.groupShare
  match s.trc.shares.find? (·.ctx == share), s.heldGen share with
  | some x, some _ =>
    match x.marks with
    | m :: ms => recordOf share s.now m (s.onShareTrc share fun x => { x with marks := ms, slots := x.slots + 1 })
    | [] =>
      if 0 < x.div && !x.cores.isEmpty && x.slots % x.div == 0 then
        raiseSample share (nth x.cores (x.pos % x.cores.length) 0) s
      else pushEmpty (s.onShareTrc share fun x => { x with slots := x.slots + 1 })
  | _, _ => pushEmpty s

def execTrcSampleSlot (j : Nat) (s : State) : Res :=
  onLeaf "TRC_SAMPLE_SLOT" s fun s =>
    if s.slotStarts j then
      let s1 := endSample 14 0 s
      let s2 := if j == 0 then beginGroup (closeGroup s1) else s1
      let s3 := { s2 with trc := { s2.trc with slotAt := some s.tim.cycle } }
      if s3.trc.recs.length == j then fillSlot s3 else s3
    else s

/-- The host's answer within 8 CK_C cycles, 16 of CK_E (R53): codes 0xE and 0xF become HOST_INVALID, with the PC as returned (R222).
A later answer is dropped. -/
def execTrcVld (pc : BitVec 64) (stall : BitVec 4) (s : State) : Res :=
  onLeaf "TRC_VLD" s fun s =>
    match s.trc.req with
    | some (_, _, c) => if s.tim.cycle ≤ c + 16 then endSample (if 14 ≤ stall.toNat then 15 else stall.toNat) pc s else s
    | none => s

/-- No answer within 8 CK_C cycles: NO_RESPONSE with PC zero (R53, R222). -/
def execNoResponse (s : State) : Res :=
  onLeaf "NO_RESPONSE" s fun s =>
    match s.trc.req with
    | some (_, _, c) => if c + 16 < s.tim.cycle then endSample 14 0 s else s
    | none => s

/-! ## The capture bus (04 R118, R129) -/

/-- TRC_TOKEN: the group that has ended leaves its full beat, and TRC raises its request with the token (R129, R220). -/
def execTrcToken (s : State) : Res :=
  onLeaf "TRC_TOKEN" s fun s =>
    let s1 := closeGroup s
    giveToken (!s1.trc.buffered.isEmpty) s1

/-- The beat at the head of the trace buffer crosses. -/
def crossBeat (s : State) : State :=
  match s.trc.buffered with
  | b :: bs => takeBeat b { s with trc := { s.trc with buffered := bs } }
  | [] => s

/-- The epoch of the bank that a burst reads. -/
def burstEpoch (w : BusReq) (s : State) : Option Nat :=
  if w.idx < 2 then none
  else (s.stook? w.stook).bind fun st => if w.idx < 258 then st.cut.map (·.1) else st.int.map fun x => x.1.k

/-- A grant (R129), with the parity of the bank words that the burst reads (R118): a word good on its second read is
counted; one that fails twice loses the epoch's record, and its row is repaired. -/
def execCaptureBusArbitration (parity : ParityRead) (s : State) : Res :=
  onLeaf "CAPTURE_BUS_ARBITRATION" s fun s =>
    if !s.busFree then s
    else
      match winner s.tim.cycle s.cap.reqs with
      | none => s
      | some w =>
        let s1 := grantBurst w s
        if w.idx == 0 then crossBeat s1
        else
          match parity with
          | .good => s1
          | .second => s1.countHealth 307 1
          | .lost bank row =>
            let s2 := queueRepair bank row ((s1.countHealth 307 1).countHealth 308 1)
            match burstEpoch w s with
            | some k => captureLost k s2
            | none => s2

end Sys2Proof.Machine
end

