-- ==== Sys2Proof/Machine/Stop.lean ====
section
/-!
DEFINITION. The timed global stop, scan-out and release (08 R235 to R242), breakpoints and draining (08 R243 to R246).
-/

namespace Sys2Proof.Machine

/-! ## The stop -/

def State.stopBit (s : State) (i : Nat) : State := (s.setBit .trc i)

/-- After phase 2 or 4 the plan is walked (R240). -/
def beginScan (s : State) : State :=
  if s.cfg.scanPlan.isEmpty then { s with stop := { s.stop with phase := .stopped } }
  else { s with
    stop := { s.stop with phase := .scanning, seg := 0, segSince := s.now, leaving := false }
    pins := { s.pins with scnTms := false } }

def endScan (s : State) : State :=
  { s with
    stop := { s.stop with phase := .stopped }
    pins := { s.pins with scnTms := true } }

/-- The leaf that holds CONFIRM raises STOP_OUT at the stop time (R237, 02 R54). -/
def execStopOutRise (s : State) : Res :=
  onLeaf "STOP_OUT_RISE" s fun s =>
    if s.stop.phase == .armed && s.stop.confirmed && s.stop.at_ ≤ s.now then
      stopMark 1 s.now { s with
        stop := { s.stop with
          phase := .stopping, doneSeen := false, release := none, rose := s.now, seg := 0, segDone := 0, leaving := false }
        pins := { s.pins with stopOut := true } }
    else s

/-- The first high sample of STOP_DONE while STOP_OUT is high (R239). -/
def execStopDone (s : State) : Res :=
  onLeaf "STOP_DONE" s fun s =>
    if s.pins.stopOut && !s.stop.doneSeen then
      let s1 := stopMark 2 s.now { s with stop := { s.stop with doneSeen := true } }
      if s1.stop.phase == .stopping then beginScan s1 else s1
    else s

def execStopDoneWait (s : State) : Res :=
  onLeaf "STOP_DONE_WAIT" s fun s =>
    if s.stop.phase == .stopping && s.stop.rose + nsT s.cfg.stopDoneWaitNs ≤ s.now then
      beginScan (stopMark 4 s.now (s.stopBit 28))
    else s

/-! ## Scan-out (R240) -/

/-- Bits in shift order as bytes, the first in bit 0 of byte 0. -/
def bitsToBytes : Nat → List Bool → Bytes
  | 0, _ => []
  | n + 1, b =>
    let byte := (b.take 8).zipIdx.foldl (fun a x => a + (if x.1 then 2 ^ x.2 else 0)) 0
    BitVec.ofNat 8 byte :: bitsToBytes n (b.drop 8)

/-- The bytes of a segment, in whole lines. -/
def segBytes (b : List Bool) : Bytes := padTo 64 (bitsToBytes ((b.length + 7) / 8) b)

/-- When the shift of a part's first bit began: 131,072 bits a part, 40 ns a bit (R240). -/
def State.partSince (s : State) (part : Nat) : Ticks := s.stop.segSince + nsT (40 * 131072 * part)

/-- One scan message of the provider share (R226, R240). -/
def sendScanPart (seg : ScanSeg) (part : Nat) (last : Bool) (data : Bytes) (s : State) : State :=
  let g := s.genOf 0
  let k := s.epochOf (s.partSince part)
  let (rtype, body) := s.partData 9 k data false
  let head := captHead s rtype 0 g k (body.length / 64)
  let ph := le 4 seg.segId.toNat ++ le 1 0 ++ le 1 (b2n last) ++ le 2 part ++ le 8 seg.drLen ++ zeros 16 ++ zeros 32
  s.sendNumbered 0 g fun q => sealCrc (head q ++ ph ++ body ++ poisonTrailer [])

/-- A segment in messages of at most 256 lines; the address and DSEQ fields of R232 are sent as zero (assumption 18). -/
def sendScan (seg : ScanSeg) : Nat → Nat → Bytes → State → State
  | 0, _, _, s => s
  | n + 1, part, data, s =>
    let here := data.take 16384
    let rest := data.drop 16384
    let s1 := sendScanPart seg part rest.isEmpty here s
    if rest.isEmpty then s1 else sendScan seg n (part + 1) rest s1

/-- STOP_OUT falls (R241). -/
def dropStop (s : State) : State :=
  stopMark 3 s.now { s with
    stop := { s.stop with phase := .idle, confirmed := false, release := none, leaving := false }
    pins := { s.pins with stopOut := false, scnTms := true } }

/-- Release before the plan ended abandons it (R241). -/
def abandonScan (s : State) : State := dropStop (s.stopBit 25)

/-- The next segment, each captured bit fed back, and with VERIFY captured twice (R240). A release that came in its middle
then drops STOP_OUT (R241). -/
def execScanSegment (bits second : List Bool) (s : State) : Res :=
  onLeaf "SCAN_SEGMENT" s fun s =>
    match s.stop.phase, s.cfg.scanPlan[s.stop.seg]? with
    | .scanning, some seg =>
      let b := bits.take seg.drLen
      let fed := b :: (if seg.verify then [second.take seg.drLen] else [])
      let s0 := s.emits (fed.map fun x => .scanShift seg.ir seg.irLen x)
      let s1 := if seg.verify && second.take seg.drLen != b then s0.stopBit 24 else s0
      let data := segBytes b
      let s2 := sendScan seg (data.length / 16384 + 1) 0 data s1
      let s3 := { s2 with stop := { s2.stop with
        seg := s2.stop.seg + 1
        segDone := s2.stop.segDone + 1
        segSince := s.now } }
      if s3.stop.leaving then abandonScan s3
      else if s3.cfg.scanPlan.length ≤ s3.stop.seg then endScan s3 else s3
    | _, _ => s

/-- A release in the middle of a segment waits for its end; otherwise STOP_OUT falls at once (R241). -/
def releaseStop (s : State) : State :=
  if s.stop.phase == .scanning then { s with stop := { s.stop with leaving := true } } else dropStop s

def State.stopActive (s : State) : Bool :=
  s.stop.phase == .stopping || s.stop.phase == .stopped || s.stop.phase == .scanning

def execStopReleaseTime (s : State) : Res :=
  onLeaf "STOP_RELEASE_TIME" s fun s =>
    match s.stop.release with
    | some t => if s.stopActive && t ≤ s.now then releaseStop s else s
    | none => s

/-- With no release by the stop time plus STOP_HOLD_MAX the leaf releases itself (R241). -/
def execAutoReleased (s : State) : Res :=
  onLeaf "AUTO_RELEASED" s fun s =>
    if s.stopActive && !s.stop.leaving && s.stop.at_ + nsT s.cfg.stopHoldMaxNs ≤ s.now then releaseStop (s.stopBit 27) else s

/-- A STOP_RELEASE names T_rel; one that has passed is late (R241, 16 R434). -/
def nameRelease (t : Ticks) (s : State) : State :=
  if s.stopActive then
    let s1 := { s with stop := { s.stop with release := some t } }
    if t < s.now then s1.stopBit 26 else s1
  else s

/-! ## Breakpoints and draining (R243 to R246) -/

/-- A breakpoint hit queues the core and is reported to its owner (R243). -/
def execBrkVld (core : BitVec 8) (s : State) : Res :=
  onLeaf "BRK_VLD" s fun s =>
    let c := s.coreOwner core.toNat
    let s1 := brkMark c core.toNat 1 0 s
    if s.brk.queue.length < 256 then
      { s1 with brk := { s1.brk with queue := s1.brk.queue ++ [(core.toNat, c)] } }
    else s1

/-- The window that a time falls in. -/
def State.drainWindow (s : State) : Nat := s.now / nsT s.cfg.drnWinNs

/-- Nothing on the drain port starts while STOP_OUT is high (R243), a drain runs or awaits the acknowledgement of its
abort, or the port is at fault (R245). -/
def State.drainIdle (s : State) : Bool :=
  !s.pins.stopOut && !s.brk.portFault && s.brk.drain.isNone && s.brk.abort.isNone

/-- One resume: RSM_REQ pulses for a CK_C cycle with DRN_CORE naming the core (R246). -/
def pulseResume (r : Nat × Nat) (s : State) : State :=
  let s1 := { s with
    brk := { s.brk with
      resumes := s.brk.resumes.erase r
      serve := s.brk.serve.erase r
      stopped := s.brk.stopped.filter (· != r.1)
      orphans := s.brk.orphans.filter (· != r.1) }
    pins := { s.pins with rsmReq := true, drnCore := BitVec.ofNat 8 r.1 } }
  brkMark r.2 r.1 4 0 (s1.emit (.rsmPulse r.1))

/-- The next resume that the window in progress serves is pulsed, one in a CK_C cycle, with DRN_REQ low (R246). -/
def nextResume (s : State) : State :=
  let c := s.drainWindow % s.cfg.shareCount
  match s.brk.serve.find? (·.2 == c) with
  | some r => if s.drainIdle && !s.pins.rsmReq then pulseResume r s else s
  | none => s

/-- The share's oldest queued core is drained (R243, R244); without one its resumes go at once. -/
def startDrain (c w : Nat) (s : State) : State :=
  match s.brk.queue.find? (·.2 == c) with
  | some q =>
    { s with
      brk := { s.brk with queue := s.brk.queue.erase q, drain := some (q.1, c, w, s.tim.cycle), due := none }
      pins := { s.pins with drnReq := true, drnCore := BitVec.ofNat 8 q.1 } }
  | none => nextResume { s with brk := { s.brk with due := none } }

/-- A window that began while the drain port was not idle starts its drain once it is (R244). -/
def owedWindow (s : State) : State :=
  let w := s.drainWindow
  if s.drainIdle && s.brk.due == some w then startDrain (w % s.cfg.shareCount) w s else s

/-- CK_C cycles since a CK_E cycle. -/
def State.coreCycles (s : State) (t : Nat) : Nat := (s.tim.cycle - t) / 2

/-- A drain is complete (R244): BRK_MARK phase 2 with its time, and the share's resumes follow in its window. -/
def completeDrain (core c t : Nat) (s : State) : State :=
  nextResume (brkMark c core 2 (s.coreCycles t) { s with
    brk := { s.brk with drain := none, abort := none, stopped := s.brk.stopped ++ [core] }
    pins := { s.pins with drnReq := false } })

/-- Drop the running drain and await its acknowledgement (R244). -/
def abortDrain (requeue : Bool) (s : State) : State :=
  match s.brk.drain with
  | some (core, c, _, t) =>
    brkMark c core 3 (s.coreCycles t) { s with
      brk := { s.brk with
        drain := none
        abort := some (core, c, s.tim.cycle)
        queue := if requeue then (core, c) :: s.brk.queue else s.brk.queue }
      pins := { s.pins with drnReq := false } }
  | none => s

/-- A running drain whose window is over is dropped (R244). -/
def endWindow (s : State) : State :=
  match s.brk.drain with
  | some (_, _, w, _) => if w < s.drainWindow then abortDrain true s else s
  | none => s

/-- The start of a drain window (R243): the first CK_E edge in it. The drain of the window before is dropped first, if it
still runs; the resumes that the window serves are those asked for before it (R246). -/
def execDrainWindow (s : State) : Res :=
  onLeaf "DRAIN_WINDOW" s fun s =>
    let w := s.drainWindow
    if s.brk.window != w + 1 && s.now < nsT (w * s.cfg.drnWinNs) + s.tim.inc then
      let s1 := endWindow s
      owedWindow { s1 with brk := { s1.brk with
        window := w + 1
        due := some w
        serve := s1.brk.resumes.filter (·.2 == w % s.cfg.shareCount) } }
    else s

/-- DRN_DONE in the CK_C cycle of the window-end drop counts as a completed drain (R244): the core is not requeued, and its
mark is that of phase 2. -/
def undoAbort (core c : Nat) (s : State) : State :=
  let aborted := fun m : Mark => m.kind == recBrk && m.core == core && m.stall == 3
  let x := s.onShareTrc c fun x => { x with marks := mapIf aborted (fun m => { m with stall := 2 }) x.marks }
  { x with brk := { x.brk with abort := none, queue := x.brk.queue.erase (core, c), stopped := x.brk.stopped ++ [core] } }

/-- DRN_DONE completes the running drain, or acknowledges an abort within 16 CK_C cycles (R244, R245). -/
def execDrnDone (s : State) : Res :=
  onLeaf "DRN_DONE" s fun s =>
    match s.brk.drain, s.brk.abort with
    | some (core, c, _, t), _ => completeDrain core c t s
    | none, some (core, c, t) =>
      if t / 2 == s.tim.cycle / 2 && s.brk.queue.contains (core, c) then owedWindow (undoAbort core c s)
      else if s.tim.cycle ≤ t + 32 then owedWindow { s with brk := { s.brk with abort := none } }
      else s
    | none, none => s

def execDrainWindowEnd (s : State) : Res := onLeaf "DRAIN_WINDOW_END" s endWindow

def execDrnPortFault (s : State) : Res :=
  onLeaf "DRN_PORT_FAULT" s fun s =>
    match s.brk.abort with
    | some (_, _, t) =>
      if t + 32 < s.tim.cycle then ({ s with brk := { s.brk with abort := none, portFault := true } }).stopBit 23 else s
    | none => s

/-- A context ends (R246): its drains are aborted, and its stopped cores stay stopped for context 0 alone to resume. -/
def brkGone (c : Nat) (s : State) : State :=
  let running := match s.brk.drain with
    | some (core, d, _, _) => if d == c then [core] else []
    | none => []
  let s1 := if running.isEmpty then s else abortDrain false s
  let mine := running ++ ((s1.brk.queue.filter (·.2 == c)).map (·.1))
    ++ s1.brk.stopped.filter fun core => s1.coreOwner core == c && !s1.brk.orphans.contains core
  let s2 := { s1 with brk := { s1.brk with
    queue := s1.brk.queue.filter (·.2 != c)
    resumes := s1.brk.resumes.filter (·.2 != c)
    serve := s1.brk.serve.filter (·.2 != c)
    orphans := s1.brk.orphans ++ mine } }
  mine.foldl (fun s core => brkMark 0 core 5 0 s) s2

/-- Cores follow their engines at a boundary (R219): queued and running drains and resumes that wait pass to the new
owner. -/
def moveCores (s : State) : State :=
  { s with brk := { s.brk with
    queue := s.brk.queue.map fun q => (q.1, s.coreOwner q.1)
    drain := s.brk.drain.map fun d => (d.1, s.coreOwner d.1, d.2.2)
    abort := s.brk.abort.map fun a => (a.1, s.coreOwner a.1, a.2.2)
    resumes := s.brk.resumes.map fun r => (r.1, if s.brk.orphans.contains r.1 then 0 else s.coreOwner r.1)
    serve := s.brk.serve.map fun r => (r.1, if s.brk.orphans.contains r.1 then 0 else s.coreOwner r.1) } }

end Sys2Proof.Machine
end

