-- ==== Sys2Proof/Machine/Operands.lean ====
section
/-!
DEFINITION. The operands of commands: the slot (15 R406), the opcodes with their attributes (16 R425, R426), the part
header (16 R427), the status codes (16 R432).
-/

namespace Sys2Proof.Machine

/-! ## Status codes (R432) -/

def stOK : Nat := 0x0000
def stPOISONED : Nat := 0x0001
def stPARTIAL : Nat := 0x0004
def stCANCELLED : Nat := 0x0005
def stUNIT_UNREADABLE : Nat := 0x0006
def stBAD_CRC : Nat := 0x0010
def stIFACE_MISMATCH : Nat := 0x0011
def stBAD_FIELD : Nat := 0x0012
def stBAD_OPCODE : Nat := 0x0013
def stNOT_OWNER : Nat := 0x0014
def stWRONG_MAILBOX : Nat := 0x0015
def stCTX_GONE : Nat := 0x0016
def stBIVOUAC : Nat := 0x0017
def stUSE_SIDE_A : Nat := 0x0018
def stBAD_TOKEN : Nat := 0x0019
def stRESUME_LOST : Nat := 0x001A
def stBAD_TIME : Nat := 0x0020
def stTOO_SOON : Nat := 0x0021
def stBAD_CTX : Nat := 0x0022
def stADDR_FAULT : Nat := 0x0023
def stIN_USE : Nat := 0x0024
def stNOT_LOADED : Nat := 0x0025
def stNOT_SLOT_MASTER : Nat := 0x0026
def stNO_TWIN : Nat := 0x0027
def stTWIN_REFUSED : Nat := 0x0028
def stFLASH_FAULT : Nat := 0x0029
def stBAD_IMAGE : Nat := 0x002A
def stDRAIN_PENDING : Nat := 0x002B
def stSHARE_EXCEEDED : Nat := 0x0030
def stSLOT_BUDGET : Nat := 0x0031
def stPLACE_BUDGET : Nat := 0x0032
def stSAMPLE_TOO_DENSE : Nat := 0x0033
def stPUB_TOO_SMALL : Nat := 0x0034
def stBAD_PLAN : Nat := 0x0040
def stBAD_TABLE : Nat := 0x0041
def stBAD_MODEL : Nat := 0x0042
def stBAD_PLACE : Nat := 0x0043
def stSEED_UNAVAILABLE : Nat := 0x0044
def stWATCH_OUT_OF_WINDOW : Nat := 0x0045

/-! ## Opcodes (R425, R426) -/

/-- An opcode with its profiles and attributes. -/
structure Opcode where
  code : Nat
  tray : Bool
  leaf : Bool
  svc : Bool
  short : Bool
  res : Bool
  team : Bool
  biv : Bool
  deriving DecidableEq, Repr

/-- Profiles: 0 both, 1 tray block, 2 leaf. Attributes by letters: v SVC, s SHORT, r RES, t TEAM, b BIV. -/
def mkOp (code profiles : Nat) (attrs : List Char) : Opcode :=
  { code := code, tray := profiles != 2, leaf := profiles != 1, svc := attrs.contains 'v', short := attrs.contains 's'
    res := attrs.contains 'r', team := attrs.contains 't', biv := attrs.contains 'b' }

def opcodes : List Opcode := [
  mkOp 0x0101 1 ['s'], mkOp 0x0102 1 ['v', 'r', 'b'], mkOp 0x0103 0 ['v', 'b'], mkOp 0x0104 1 ['v', 'r', 'b'],
  mkOp 0x0105 1 ['v', 'b'], mkOp 0x0106 0 ['v', 's', 'b'], mkOp 0x0201 1 ['v', 't'], mkOp 0x0301 2 ['s'],
  mkOp 0x0302 2 ['s'], mkOp 0x0401 2 ['s'], mkOp 0x0402 2 ['s'], mkOp 0x0403 2 ['s'], mkOp 0x0404 2 ['s'],
  mkOp 0x0405 2 [], mkOp 0x0406 1 ['v', 't'], mkOp 0x0407 2 ['v', 's'], mkOp 0x0501 1 ['t', 'r'],
  mkOp 0x0502 1 ['t'], mkOp 0x0503 1 ['t'], mkOp 0x0504 1 ['t'], mkOp 0x0505 1 ['t'], mkOp 0x0601 1 ['s'],
  mkOp 0x0602 1 ['s'], mkOp 0x0701 0 ['t', 'r'], mkOp 0x0702 1 ['t'], mkOp 0x0703 0 ['t'], mkOp 0x0704 0 ['t', 'r'],
  mkOp 0x0801 0 ['t', 'r'], mkOp 0x0802 0 ['t'], mkOp 0x0803 0 ['t', 'r'], mkOp 0x0901 1 ['v', 't'],
  mkOp 0x0902 1 ['v', 't'], mkOp 0x0903 1 ['v', 't'], mkOp 0x0A01 1 ['v', 't'], mkOp 0x0A02 1 ['v', 't'],
  mkOp 0x0A03 0 ['v'], mkOp 0x0B01 1 ['v', 'b'], mkOp 0x0B02 1 ['v', 's'], mkOp 0x0C01 0 ['v', 'b'],
  mkOp 0x0C02 0 ['v', 'b'], mkOp 0x0D01 0 ['v', 'b'], mkOp 0x0D02 0 ['v', 'r', 'b'], mkOp 0x0D03 1 ['v'],
  mkOp 0x0D04 1 ['v', 'r']]

/-- Opcodes with the attribute BND (R426). -/
def bndOpcode (code : Nat) : Bool :=
  [0x0301, 0x0503, 0x0504, 0x0505, 0x0701, 0x0702, 0x0703, 0x0704, 0x0802, 0x0803, 0x0901, 0x0902].contains code

def opcode? (leaf : Bool) (code : Nat) : Option Opcode :=
  opcodes.find? fun o => o.code == code && (if leaf then o.leaf else o.tray)

/-! ## The slot (15 R406) -/

def slotBoot (b : Bytes) : Nat := fld b 4 4
def slotGen (b : Bytes) : Nat := fld b 2 2
def slotSeq (b : Bytes) : Nat := fld b 0 2
def slotOp (b : Bytes) : Nat := fld b 8 2
def slotIface (b : Bytes) : Nat := fld b 10 1
def slotCtx (b : Bytes) : Nat := fld b 11 1
def slotFlags (b : Bytes) : Nat := fld b 12 2
def slotPlen (b : Bytes) : Nat := fld b 14 2
def slotTag (b : Bytes) : Nat := fld b 16 8
def slotToken (b : Bytes) : Nat := fld b 24 8
def slotPayload (b : Bytes) : Bytes := slice b 32 220

/-- CMD_CRC (15 R417): over slot bytes 8 to 11 and 32 to 251. -/
def slotCmdCrc (b : Bytes) : Nat := (crc32c (slice b 8 4 ++ slice b 32 220)).toNat

/-- The CRC-32C of slot bytes 8 to 251. -/
def slotCrcOk (b : Bytes) : Bool := fld b 252 4 == (crc32c (slice b 8 244)).toNat

/-- Every payload byte outside the named fields (offset, length) is zero (R411, 16 R432). -/
def unnamedZero (p : Bytes) (named : List (Nat × Nat)) : Bool :=
  p.zipIdx.all fun x => x.1 == 0 || named.any fun r => r.1 ≤ x.2 && x.2 < r.1 + r.2

/-- A power of two from lo to hi. -/
def powerIn (n lo hi : Nat) : Bool := lo ≤ n && n ≤ hi && 2 ^ Nat.log2 n == n

/-! ## The part header (16 R427) -/

structure Part where
  src : Nat
  len : Nat
  pos : Nat
  imgLen : Nat
  last : Bool
  toLeaves : Bool
  deriving DecidableEq, Repr

/-- The header's reserved bytes and bits are zero. -/
def partReserved (p : Bytes) : Bool := isZero (slice p 12 4) && isZero (slice p 33 3) && fld p 32 1 < 4

def readPart (p : Bytes) : Part :=
  { src := fld p 0 8, len := fld p 8 4, pos := fld p 16 8, imgLen := fld p 24 8, last := bit (fld p 32 1) 0
    toLeaves := bit (fld p 32 1) 1 }

def Part.lenOk (p : Part) : Bool := p.len % 64 == 0 && 64 ≤ p.len && p.len ≤ 2 ^ 26

/-! ## Host memory as a leaf reads it (02 R58) -/

/-- HF_FAULT: a request of the leaf ended with an access fault at this address. -/
def hfFaultAt (a : Nat) (s : State) : State :=
  ((s.setBit .rstState 20).countHealth 313 1).emit (.hfFault a)

/-- Host lines came back poisoned (17 R455). -/
def hfPoison (n : Nat) (s : State) : State := s.countHealth 312 n

/-- The lines of a host read that came back poisoned are counted, and those that ended with a fault reported and not asked
again. -/
def hostFaults (host : HostView) (a n : Nat) (s : State) : State :=
  let in_ := fun l : Nat => a / 64 ≤ l / 64 && l / 64 ≤ (a + n - 1) / 64
  (host.faults.filter in_).foldl (fun s l => hfFaultAt l s) (hfPoison (host.poisoned.filter in_).length s)

/-- Bytes of host memory; those that the view does not list are zero. -/
def hostBytes (host : HostView) (a n : Nat) : Bytes :=
  (List.range n).map fun i => match host.bytes.find? (·.1 == a + i) with
    | some x => x.2
    | none => 0

/-- The bytes of a read that came back whole and unpoisoned. -/
def hostRead (host : HostView) (a n : Nat) : Option Bytes :=
  if (host.poisoned ++ host.faults).any fun l => a / 64 ≤ l / 64 && l / 64 ≤ (a + n - 1) / 64 then none
  else some (hostBytes host a n)

/-- The fault that ended a leaf's read of an image, reported with its address, or its poisoned lines counted. -/
def imageFault (src : Nat) (host : HostImage) (s : State) : State :=
  if s.isTray then s
  else match host with
    | .fault off => hfFaultAt (src + off) s
    | .poisoned n => hfPoison n s
    | .bytes _ => s

end Sys2Proof.Machine
end

