-- ==== Sys2Proof/Machine/Watch.lean ====
section
/-!
DEFINITION. Tensor watch (08 R228 to R234): the feed ring, watch entries, dumps, and the host-fabric cycles and tokens that
carry them.
-/

namespace Sys2Proof.Machine

def State.watch? (s : State) (c : Nat) : Option ShareWatch := s.watch.find? (·.ctx == c)

def State.onWatch (s : State) (c : Nat) (f : ShareWatch → ShareWatch) : State :=
  { s with watch := mapIf (·.ctx == c) f s.watch }

/-- A full bucket: 64 lines in units of 2^-16 (R233). -/
def fullBucket : Nat := 64 * 65536

/-- The watch of a context that starts (R233). -/
def ShareWatch.start (c : Nat) (g : BitVec 16) : ShareWatch :=
  { ctx := c, gen := g, feed := none, dseq := 0, nextFeed := none, pollAt := 0, wantFeed := false, reading := none
    entries := [], dump := none, releases := [], tokens := fullBucket, consumed := 0, overrun := 0, bad := 0 }

/-- The whole range lies in the context's host window (R228). -/
def State.inWindow (s : State) (c a n : Nat) : Bool :=
  match s.ctx? c with
  | some x => x.winBase ≤ a && a + n ≤ x.winBase + x.winSize * 65536
  | none => false

/-! ## The host-fabric port (02 R56, R233) -/

/-- Reads of a dump and of a feed that have not returned, by tag. -/
def ShareWatch.tagsOut (w : ShareWatch) : List (BitVec 6) :=
  w.reading.toList ++ match w.dump with
    | some d => d.flight.map (·.1)
    | none => []

/-- The tag of the next request (assumption 17): counting up, the first that no outstanding read has. -/
def State.freeTag (s : State) : Option (BitVec 6) :=
  let out := s.watch.flatMap ShareWatch.tagsOut ++ s.lateReads.flatMap (·.tags)
  ((List.range 64).map fun i => s.pins.hfAtag + 1 + BitVec.ofNat 6 i).find? fun t => !out.contains t

/-- A request on the port with its tag; a write puts its data on HF_WDATA. -/
def hfRequest (op : BitVec 2) (addr : Nat) (tag : BitVec 6) (data : BitVec 512) (s : State) : State :=
  { s with pins := { s.pins with
      hfAvld := true
      hfAop := op
      hfAddr := BitVec.ofNat 52 addr
      hfAtag := tag
      hfWdata := if op == 0 then s.pins.hfWdata else data } }

/-- INC of R233. -/
def bucketInc (c : Cfg) : Nat := min (c.hfBwGbps * c.twBudget * 128 / (100 * c.shareCount)) (32768 / c.shareCount)

/-- Lines of the watch buffer that a dump holds: asked for, returned early, and in the part being filled. -/
def Dump.held (d : Dump) : Nat := d.flight.length + d.early.length + d.lines.length

/-- Lines of a share's watch messages that a lane has yet to send: they leave the buffer with their message. -/
def Lane.watchLines (c : Nat) (l : Lane) : Nat :=
  let size := fun m : OutMsg => if [8, 11].contains (fld m.bytes 8 1) then fld m.bytes 60 4 else 0
  sumNat ((l.txs.filter fun t => t.vc == 2 && t.share == c).map fun t => sumNat (t.queue.map size))

/-- Closed parts of a share in the watch buffer, until both lanes have sent them. -/
def State.partsHeld (s : State) (c : Nat) : Nat := (s.lanes.map (·.watchLines c)).foldl max 0

/-- Lines of a share's part of the 128 KiB watch buffer (R233). -/
def watchRoom (shares : Nat) : Nat := 2048 / max 1 shares

/-- Lines of a part of a dump: at most 256 (R232), and no more than the share's part of the buffer takes. -/
def partLines (shares : Nat) : Nat := min 256 (watchRoom shares)

/-- A dump asks for its next line; the first line of a part gives the epoch of its message (R226). -/
def Dump.ask (d : Dump) (shares : Nat) (tag : BitVec 6) (k : Nat) : Dump :=
  { d with
    issue := d.issue + 64
    flight := d.flight ++ [(tag, d.issue)]
    ks := if (d.issue - d.start) % (64 * partLines shares) == 0 then d.ks ++ [k] else d.ks }

/-- A request that a share has for its cycle: the operation, address, data, what is emitted and the share after it. -/
structure WatchReq where
  op : BitVec 2
  addr : Nat
  data : BitVec 512
  emitted : Out
  after : ShareWatch

/-- The share's next request if it holds a line of tokens (R233): a release word first, then a line of the dump while its
part of the 128 KiB watch buffer has room, then the feed entry. -/
def watchNext (tag : BitVec 6) (w : ShareWatch) (s : State) : Option WatchReq :=
  let paid := { w with tokens := w.tokens - 65536 }
  if w.tokens < 65536 then none
  else
    match w.releases, w.dump with
    | (a, v) :: rs, _ =>
      some { op := 2, addr := a, data := BitVec.ofNat 512 v, emitted := .hfFlag a (BitVec.ofNat 64 v)
             after := { paid with releases := rs } }
    | [], some d =>
      if d.issue < d.fin && !d.gone && !d.failed && d.held + s.partsHeld w.ctx < watchRoom s.cfg.shareCount then
        some { op := 0, addr := d.issue, data := 0, emitted := .hfRead d.issue
               after := { paid with dump := some (d.ask s.cfg.shareCount tag s.curEpoch) } }
      else none
    | [], none =>
      match w.feed, w.wantFeed with
      | some (base, f), true =>
        let a := base + (w.dseq - 1) % f * 64
        some { op := 0, addr := a, data := 0, emitted := .hfRead a
               after := { paid with wantFeed := false, reading := some tag } }
      | _, _ => none

/-- The share's cycle of the port (R233). A request that HF_ARDY does not accept is withdrawn and costs nothing. -/
def watchIssue (c : Nat) (s : State) : State :=
  match s.watch? c, s.freeTag with
  | some w, some tag =>
    match watchNext tag w s with
    | some r =>
      let s1 := hfRequest r.op r.addr tag r.data s
      if Config.hfReady s.edges then (s1.onWatch c fun _ => r.after).emit r.emitted else s1
    | none => s
  | _, _ => s

/-- A CK_C cycle of the port (R233): every bucket adds INC, and an even cycle is offered to its share. -/
def watchCycle (s : State) : State :=
  if s.isLeaf && s.tim.cycle % 2 == 0 && !s.watch.isEmpty then
    let n := s.tim.cycle / 2
    let inc := bucketInc s.cfg
    let s1 := { s with
      watch := s.watch.map fun w => { w with tokens := min fullBucket (w.tokens + inc) }
      pins := { s.pins with hfAvld := false } }
    if n % 2 == 0 then watchIssue (n / 2 % s.cfg.shareCount) s1 else s1
  else s

/-! ## Feed -/

/-- After FEED_POLL the next expected descriptor is to be read (R230); a new ring is taken between dumps (16 R435). -/
def execWatchFeedPoll (c : Nat) (s : State) : Res :=
  onLeaf "WATCH_FEED_POLL" s fun s =>
    match s.watch? c with
    | some w =>
      if w.reading.isSome || w.wantFeed || w.dump.isSome || s.now < w.pollAt || !s.isActive c then s
      else
        let s1 := s.onWatch c fun w => match w.nextFeed with
          | some (b, f, q) => { w with feed := if f == 0 then none else some (b, f), dseq := q, nextFeed := none }
          | none => w
        s1.onWatch c fun w => { w with wantFeed := w.feed.isSome }
    | none => s

/-- The entry matches the descriptor (R231). -/
def WatchEntry.hits (e : WatchEntry) (tensor : BitVec 32) (step : Nat) : Bool :=
  e.tensor == tensor && 0 < e.count &&
  (if e.stride == 0 then step == e.step0 else e.step0 ≤ step && (step - e.step0) % e.stride == 0)

/-- A release word is owed for a descriptor with HOLD (R231, R232). -/
def oweRelease (c : Nat) (rel : Option Nat) (dseq : Nat) (s : State) : State :=
  match rel with
  | some a => s.onWatch c fun w => { w with releases := w.releases ++ [(a, dseq)] }
  | none => s

/-- A watch message of a part (R226, R232). -/
def sendPart (c : Nat) (d : Dump) (status : Nat) (s : State) : State :=
  match s.watch? c with
  | none => s
  | some w =>
    let first := d.next - 64 * d.lines.length
    let k := d.ks.getD d.part s.curEpoch
    let (rtype, data) := s.partData 8 k d.lines.flatten !d.poison.isEmpty
    let head := captHead s rtype c w.gen k (data.length / 64)
    let part := le 4 d.tensor.toNat ++ le 1 d.idx ++ le 1 status ++ le 2 d.part ++ le 8 d.step ++ le 8 first
      ++ le 8 d.dseq ++ zeros 32
    s.sendNumbered c w.gen fun q =>
      sealCrc (head q ++ part ++ data ++ poisonTrailer (d.poison.map (· + 2)))

/-- A dump ends with its last part, its mark and, under HOLD, its release word (R232, R234). -/
def endDump (c : Nat) (d : Dump) (status : Nat) (s : State) : State :=
  let s1 := watchMark c d.idx (if status == 2 then 3 else 2) d.step d.tensor.toNat (sendPart c d status s)
  oweRelease c d.rel d.dseq (s1.onWatch c fun w => { w with dump := none })

/-- A descriptor is acted on (R230, R231): the lowest matching entry dumps and its COUNT falls by one. -/
def takeDescriptor (c : Nat) (b : Bytes) (s : State) : State :=
  let tensor := BitVec.ofNat 32 (fld b 8 4)
  let step := fld b 16 8
  let addr := fld b 24 8
  let len := fld b 32 4
  let dseq := fld b 0 8
  let rel := if bit (fld b 36 4) 0 then some (fld b 40 8) else none
  let relOk := match rel with
    | some a => a % 8 == 0 && s.inWindow c a 8
    | none => true
  let s1 := s.onWatch c fun w => { w with dseq := dseq + 1, consumed := dseq, pollAt := s.now }
  if addr % 64 != 0 || len % 64 != 0 || 2 ^ 24 < len || !s.inWindow c addr len || !relOk then
    s1.onWatch c fun w => { w with bad := w.bad + 1 }
  else
    match (s1.watch? c).bind fun w => (sortBy (·.idx) w.entries).find? fun e => e.hits tensor step with
    | none => oweRelease c rel dseq s1
    | some e =>
      let top := if e.dlen == 0 then len else min len (e.off + e.dlen)
      let d : Dump := { idx := e.idx, tensor := tensor, step := step, dseq := dseq, rel := rel, start := addr + e.off
                        issue := addr + e.off, next := addr + e.off, fin := addr + max top e.off, flight := [], early := []
                        ks := [], part := 0, lines := [], poison := [], failed := false, gone := false }
      let s2 := s1.onWatch c fun w => { w with
        entries := (mapIf (·.idx == e.idx) (fun e => { e with count := e.count - 1 }) w.entries).filter (0 < ·.count)
        dump := some d }
      let s3 := watchMark c e.idx 1 step tensor.toNat s2
      if d.issue == d.fin then endDump c d 1 s3 else s3

/-- The feed entry returns (R230): not yet written, ahead of the expected DSEQ, or the expected descriptor. A poisoned
return is not a valid descriptor; a fault is reported, and since the request is not retried (02 R58) the ring is read no
further until a WATCH_FEED_SET (assumption 84). -/
def execWatchFeedRead (c : Nat) (ans : HostAnswer) (s : State) : Res :=
  onLeaf "WATCH_FEED_READ" s fun s =>
    match s.watch? c with
    | none => s
    | some w =>
      if w.reading.isNone then s
      else
        let again := s.onWatch c fun w => { w with reading := none, pollAt := s.now + nsT s.cfg.feedPollNs }
        match ans, w.feed with
        | .data b, some _ =>
          let b := slice b 0 64
          if !crcOk b || fld b 0 8 < w.dseq then again
          else
            let s1 := s.onWatch c fun w => { w with reading := none }
            let s2 := if w.dseq < fld b 0 8 then s1.onWatch c fun w => { w with overrun := w.overrun + 1 } else s1
            takeDescriptor c b s2
        | .fault, some (base, f) =>
          hfFaultAt (base + (w.dseq - 1) % f * 64) (s.onWatch c fun w => { w with reading := none, feed := none })
        | .poisoned _, _ => hfPoison 1 again
        | _, _ => again

/-! ## Dumps -/

/-- A line that returned takes its turn in the part; a full part that is not the last closes. -/
def takeLine (c : Nat) (l : Bytes) (bad : Bool) (d : Dump) (s : State) : State :=
  let d1 := { d with
    lines := d.lines ++ [slice l 0 64]
    poison := if bad then d.poison ++ [d.lines.length] else d.poison
    next := d.next + 64
    early := d.early.filter (·.1 != d.next) }
  let last := if d.gone then d.issue else d.fin
  if d1.lines.length == partLines s.cfg.shareCount && d1.next != last then
    (sendPart c d1 0 s).onWatch c fun w => { w with dump := some { d1 with part := d1.part + 1, lines := [], poison := [] } }
  else s.onWatch c fun w => { w with dump := some d1 }

/-- Lines that returned are taken in ascending address order (R232). -/
def takeLines (c : Nat) : Nat → State → State
  | 0, s => s
  | n + 1, s =>
    match (s.watch? c).bind (·.dump) with
    | some d =>
      match d.early.find? (·.1 == d.next) with
      | some (_, l, bad) => takeLines c n (takeLine c l bad d s)
      | none => s
    | none => s

/-- A dump ends once it has every line, and after an access fault or the context's end once the reads that were issued
have returned (R232, R234). -/
def settleDump (c : Nat) (s : State) : State :=
  match (s.watch? c).bind (·.dump) with
  | some d =>
    if d.failed then if d.flight.isEmpty then endDump c d 2 s else s
    else if d.gone then if d.flight.isEmpty then endDump c d 3 s else s
    else if d.next == d.fin then endDump c d 1 s
    else s
  | none => s

/-- A read of a generation that has ended returns: the line is discarded and counted (R234, 14 R382), and with the last one
the release word that is owed is written. -/
def dropLate (tag : BitVec 6) (x : LateRead) (s : State) : State :=
  let y := { x with tags := x.tags.filter (· != tag) }
  let left := s.lateReads.flatMap fun z => if z.tags.contains tag then (if y.tags.isEmpty then [] else [y]) else [z]
  let s1 : State := { s with lateReads := left }
  let s2 := s1.onCtx x.ctx fun c => { c with genDiscard := c.genDiscard + 1 }
  match y.tags, x.rel with
  | [], some (a, v) => s2.emit (.hfFlag a (BitVec.ofNat 64 v))
  | _, _ => s2

/-- The watch of a context ends with its generation: reads that are out stay so under their tags, with the release word that
a dump among them owes; without one the release words go at once (R234, 14 R393). -/
def closeWatch (c : Nat) (s : State) : State :=
  match s.watch? c with
  | none => s
  | some w =>
    let late : LateRead := { ctx := c, tags := w.tagsOut, rel := w.dump.bind fun d => d.rel.map fun a => (a, d.dseq) }
    let s1 : State := { s with
      watch := s.watch.filter (·.ctx != c)
      lateReads := if late.tags.isEmpty then s.lateReads else s.lateReads ++ [late] }
    s1.emits (w.releases.map fun r => .hfFlag r.1 (BitVec.ofNat 64 r.2))

/-- A line of the dump returns, named by its tag (R232, 02 R56): poisoned lines are sent as received and named in the
trailer; a fault ends the dump. Any read that its generation did not see return comes back here by its tag. -/
def execWatchDumpRead (c : Nat) (r : DumpReturn) (s : State) : Res :=
  onLeaf "WATCH_DUMP_READ" s fun s =>
    match s.lateReads.find? (·.tags.contains r.tag), (s.watch? c).bind (·.dump) with
    | some x, _ => dropLate r.tag x s
    | none, none => s
    | none, some d =>
      match d.flight.find? (·.1 == r.tag) with
      | none => s
      | some (_, a) =>
        let back := { d with flight := d.flight.filter (·.1 != r.tag) }
        let put := fun (l : Bytes) (bad : Bool) =>
          takeLines c (back.early.length + 1)
            (s.onWatch c fun w => { w with dump := some { back with early := back.early ++ [(a, l, bad)] } })
        settleDump c <| match r.ans with
          | .data l => put l false
          | .poisoned l => hfPoison 1 (put l true)
          | .fault => hfFaultAt a (s.onWatch c fun w => { w with dump := some { back with failed := true } })

/-- The piton stops the context's watch (R234): a dump without outstanding reads ends with CTX_GONE. -/
def watchGone (c : Nat) (s : State) : State :=
  settleDump c (s.onWatch c fun w => { w with
    feed := none, nextFeed := none, wantFeed := false, entries := []
    dump := w.dump.map fun d => { d with gone := true } })

end Sys2Proof.Machine
end

