-- ==== Sys2Proof/Machine/Clock.lean ====
section
/-!
DEFINITION. What the block does while no command waits: one edge of CK_E (03 R84, 08 R233, 19 R491).
-/

namespace Sys2Proof.Machine

/-- CK_E cycles in 1/16 s of operating time: 6,250,000 CK_S cycles of 16 (03 R83, 19 R491). -/
def optimeCycles : Nat := 100000000

/-- OPTIME counts every 100,000,000th CK_E cycle of a block that runs. -/
def countOptime (s : State) : State :=
  if s.tim.cycle % optimeCycles = 0 then { s with optime := (s.optime + 1) % 2 ^ 48 } else s

/-- SB_ACK and SB_ERR last one CK_S cycle of 16 CK_E edges (02 R63). -/
def endPulses (s : State) : State :=
  if s.sb.ackAt.any fun e => e / 16 < s.edges / 16 then
    { s with pins := { s.pins with sbAck := false, sbErr := false }, sb := { s.sb with ackAt := none } }
  else s

/-- At a CK_C edge, every second CK_E edge (03 R83), a cycle begins without events (00 R18), and the one-cycle requests of
the trace and resume ports end (02 R53, 08 R246). -/
def beginCycle (s : State) : State :=
  if s.edges % 2 = 0 then
    { s with
      raisedNow := Sticky.clear
      err := { s.err with
        cntBefore := s.err.cnt, cntNow := List.replicate 64 0, winBefore := s.err.winTransient, winNow := 0 }
      pins := { s.pins with trcSreq := false, rsmReq := false } }
  else s

/-- PPS_OUT rises on the edge at which Ikielm time crosses a TAI second, for 100 µs (02 R76). -/
def ppsEdge (before : BitVec 64) (s : State) : State :=
  let up := s.isTray && (s.pins.ppsOut || before != s.tim.now.sec) && s.now % secT < nsT 100000
  { s with pins := { s.pins with ppsOut := up } }

/-- PWM_VALVE: a period of 40,000 ns, high for its first duty × 10 ns (02 R77, 12 R346). It runs in reset and in the hold
too, at the safe duty; the period counts in Ikielm time, or while that stands still in CK_E cycles of 0.625 ns. -/
def valveEdge (t : Ticks) (s : State) : State :=
  { s with pins := { s.pins with pwmHigh := s.isTray && t % nsT 40000 < nsT (10 * s.pins.pwmValve) } }

/-- Times of state entry move with the counter when it is set or stepped (03 R87). -/
def shiftLanes (d : Int) (s : State) : State :=
  if d = 0 then s
  else { s with lanes := s.lanes.map fun l => { l with since := ((l.since : Int) + d).toNat } }

/-- How long side B has been cut off from side A (12 R341). -/
def aloneEdge (s : State) : State :=
  { s with act := { s.act with aloneSince := if s.cutOff then some (s.act.aloneSince.getD s.now) else none } }

/-- SCN_TRST_N is released 4 SCN_TCK cycles of 25 MHz, 256 CK_E cycles, after the leaf left reset (02). -/
def trstEdge (s : State) : State :=
  if s.isLeaf && s.tim.cycle == 256 then { s with pins := { s.pins with scnTrstN := true } } else s

/-- The fixed host-fabric allowance of 64 MB/s fills by 1/25 byte in a CK_E cycle (02 R57). -/
def fillAllowance (s : State) : State := { s with hfAllow := min hfAllowMax (s.hfAllow + 1) }

/-- At a CK_C edge of a leaf the next resume of the window is pulsed (08 R246). -/
def resumeEdge (s : State) : State := if s.isLeaf && s.edges % 2 == 0 then nextResume s else s

/-- The edge of a block whose clocks run: the time counter, PPS_OUT, PWM_VALVE, OPTIME, the scan reset, the transfer slots of a tray
block's HBM channels, and a leaf's watch reads and resumes. -/
def clockEdge (s : State) : State :=
  let d : Int := (s.tim.edge.now.toTicks : Int) - (addInc s.tim.now s.tim.edge.incInt s.tim.edge.incFrac).toTicks
  let s0 := shiftLanes d { s with tim := s.tim.edge }
  let s1 := valveEdge s0.now (aloneEdge (ppsEdge s.tim.now.sec s0))
  resumeEdge <| watchCycle (transferSlots (fillAllowance (trstEdge (countOptime s1))))

/-- One CK_E edge (assumption 3). Without clocks only the sideband's cycle and PWM_VALVE move, and without power nothing. -/
def tick (s : State) : State :=
  if s.mode == .off then s
  else
    let s1 := beginCycle (endPulses { s with edges := s.edges + 1 })
    if s1.clocked then clockEdge s1 else valveEdge (s1.edges * nominalInc) s1

end Sys2Proof.Machine
end

