-- ==== Sys2Proof/Machine/Columns.lean ====
section
/-!
DEFINITION. Feature tables as data: descriptors and update entries (11 R313, R314) with the checks of TABLE_LOAD, the
conversion of a source value (R315), and the Thresher operations on the words of a row (09 R258).
-/

namespace Sys2Proof.Machine

/-! ## Descriptors (11 R313) -/

def colFormatOf (n : Nat) : Option ColFormat :=
  match n with
  | 0 => some .i32
  | 1 => some .u32
  | 2 => some .q16
  | 3 => some .f32
  | 4 => some .cat
  | 5 => some .i64
  | 6 => some .cnt32
  | _ => none

def colOpOf (n : Nat) : Option ColOp :=
  match n with
  | 0 => some .loaded
  | 1 => some .add
  | 2 => some .min
  | 3 => some .max
  | 4 => some .hbin
  | 5 => some .ewma
  | 6 => some .cusum
  | 7 => some .shift
  | _ => none

/-- A column from its 32 bytes; none where a code or a reserved bit is out of range. -/
def parseColumn (b : Bytes) : Option Column :=
  let fl := fld b 28 4
  match colFormatOf (fld b 2 1), colOpOf (fld b 3 1) with
  | some f, some o =>
    if b.length == 32 && bits fl 7 2 == 0 && bits fl 31 19 == 0 && bits fl 18 16 ≤ 4 then
      some { colId := fld b 0 2, format := f, op := o, word := fld b 4 2, nwords := fld b 6 2, win := fld b 8 4
             missing := BitVec.ofNat 32 (fld b 12 4), p0 := BitVec.ofNat 64 (fld b 16 8)
             p1 := BitVec.ofNat 32 (fld b 24 4), dec := bit fl 0, missEn := bit fl 1, seedMetric := bits fl 15 8
             seedStat := bits fl 18 16 }
    else none
  | _, _ => none

/-- An update entry from its 16 bytes (R314). -/
def parseUpd (b : Bytes) : Option UpdEntry :=
  let kind := fld b 2 1
  let conv := fld b 3 1
  let rep := fld b 8 2
  if b.length == 16 && [1, 2, 3, 4, 5, 9, 0x0A, 0x0C, 0x0D].contains kind && conv < 128 && 1 ≤ rep && rep ≤ 32768
      && fld b 14 2 == 0 then
    some { colId := fld b 0 2, srcKind := kind, shift := bits conv 5 0, right := bit conv 6, srcId := fld b 4 2
           le0 := fld b 6 2, rep := rep, sstride := fld b 10 2, estride := fld b 12 2 }
  else none

/-- Parameters of the operations (R258, R313). -/
def colK (c : Column) : Nat := bits c.p0.toNat 4 0
/-- Bit 63 of P0 is also the sign of a linear LO, so a log2 column is one whose WIDTH is zero too (assumption 25). -/
def colLog2 (c : Column) : Bool := c.p0.getLsbD 63 && c.p1 == 0
def colOLo (c : Column) : Nat := bits c.p0.toNat 7 0
def colNoct (c : Column) : Nat := bits c.p0.toNat 15 8
def colMu (c : Column) : Nat := bits c.p1.toNat 11 0

/-- The formats and sizes of an operation's state (09 R257, R258; 10 R282). An I64 window cannot be laid out with one
32-bit word an entry, so it is refused (assumption 23). -/
def columnOk (rowLen : Nat) (c : Column) : Bool :=
  16 ≤ c.word && 1 ≤ c.nwords && c.word + c.nwords ≤ 16 * rowLen &&
  match c.op with
  | .loaded => true
  | .add => (c.format == .i32 || c.format == .u32) && c.nwords == 1 || c.format == .i64 && c.nwords == 2
  | .min | .max =>
    (c.format == .i32 || c.format == .u32 || c.format == .q16) && c.nwords == 1 || c.format == .i64 && c.nwords == 2
  | .hbin =>
    c.format == .cnt32 && 3 ≤ c.nwords &&
      (if colLog2 c then 1 ≤ colNoct c && colOLo c ≤ 63 && colNoct c ≤ 64 - colOLo c
          && c.nwords == 4 * colNoct c + 2
        else c.p1 != 0)
  | .ewma => c.format == .q16 && c.nwords == 1 && 1 ≤ colK c && colK c ≤ 16
  | .cusum => c.format == .q16 && c.nwords == 2 && 16 ≤ colMu c && colMu c < 16 * rowLen
  | .shift => (c.format == .i32 || c.format == .u32 || c.format == .q16 || c.format == .cnt32)
      && 2 ≤ c.nwords && c.nwords ≤ 256

def TableImg_col (t : TableImg) (id : Nat) : Option Column := t.cols.find? (·.colId == id)

/-- The local entities that an entry feeds, one for each repetition (R314). -/
def updEntities (e : UpdEntry) : List Nat := (List.range e.rep).map fun i => e.le0 + i * e.estride

/-! ## The entity index (09 R256; assumption 180) -/

def noIndex : BitVec 32 := 0xFFFFFFFF

/-- The leaves, and above TRAY role the rope teams, that have entities in a table; each has a page. -/
def Table.pages (t : Table) : List Nat := (t.rows.map fun r => r.entity.toNat / 2 ^ 15).eraseDups

/-- The first level: the page number of a leaf. -/
def Table.index1 (t : Table) (leaf : Nat) : BitVec 32 :=
  match t.pages.zipIdx.find? fun x => x.1 == leaf with
  | some x => BitVec.ofNat 32 x.2
  | none => noIndex

/-- The second level: the row number of a local entity. -/
def Table.index2 (t : Table) (page loc : Nat) : BitVec 32 :=
  match t.pages[page]? with
  | none => noIndex
  | some leaf => match t.rows.find? fun r => r.entity.toNat == leaf * 2 ^ 15 + loc with
    | some r => BitVec.ofNat 32 r.row
    | none => noIndex

/-- The row of an entity: one read at each level. -/
def Table.rowOf (t : Table) (leaf loc : Nat) : Option Row :=
  let p := t.index1 leaf
  if p == noIndex then none
  else
    let n := t.index2 p.toNat loc
    if n == noIndex then none else t.rows.find? (·.row == n.toNat)

/-- Lines of a context's index in each channel: 131,072 entries, and a page of 32,768 for each of n leaves, in turn over
the channels. -/
def indexLines (n : Nat) : Nat := 16 + 4 * n

/-- Updates of the given sources that the contribution of a leaf or child brings a table for entities without a row. -/
def Table.noRow (t : Table) (kinds : List Nat) (leaf : Nat) : Nat :=
  let lone := fun e : UpdEntry => (updEntities e).filter fun l => (t.rowOf leaf l).isNone
  sumNat ((t.img.upds.filter fun e => kinds.contains e.srcKind).map fun e => (lone e).length)

/-- EWMA, CUSUM and SHIFT take at most one update in an epoch (09 R260). -/
def oneSource (o : ColOp) : Bool := o == .ewma || o == .cusum || o == .shift

/-- The sources a profile and role can have (11 R317, R319). -/
def kindsOf (leaf : Bool) (role : Role) : List Nat :=
  if leaf then [1, 2, 3, 4, 5, 9]
  else match role with
    | .tray => [1, 2, 3, 4, 5, 9, 0x0A]
    | _ => [0x0C, 0x0D]

/-- The rules that make an image BAD_TABLE (09 R254 to R260, 11 R313, R314, R317, R319). -/
def tableOk (leaf : Bool) (role : Role) (t : TableImg) : Bool :=
  2 ≤ t.rowLen && t.rowLen ≤ (if leaf then 16 else 256) && t.ch0 < 512
    && (t.slot || (!leaf)) && (!t.slot || leaf || role == .tray)
    && t.cols.all (columnOk t.rowLen)
    && t.cols.all (fun c => (!leaf || c.op != .hbin) && (c.op == .loaded || (c.format != .f32 && c.format != .cat)))
    && (t.cols.map (·.colId)).Nodup
    && t.entities.Nodup
    && t.upds.all (fun e => (kindsOf leaf role).contains e.srcKind && match TableImg_col t e.colId with
        | some c => c.op != .loaded
        | none => false)
    && t.cols.all fun c => !oneSource c.op || ((t.upds.filter (·.colId == c.colId)).flatMap updEntities).Nodup

/-- The image that a table image's parts give, if every descriptor and entry can be read. -/
def parseTable (p : TableParts) : Option TableImg :=
  let cols := p.cols.map parseColumn
  let upds := p.upds.map parseUpd
  if (p.kind == 1 || p.kind == 2) && cols.all (·.isSome) && upds.all (·.isSome) then
    some { tableId := p.tableId, slot := p.kind == 1, rowLen := p.rowLen, ch0 := p.ch0, ring1s := p.ring1s
           ring1m := p.ring1m, cols := cols.filterMap id, upds := upds.filterMap id, entities := p.entities }
  else none

/-! ## The slot window (09 R253) -/

/-- Line updates of a row in an epoch: every line of a column that an entry touches, and one line per HBIN update. Updates
to one line are combined (R260; assumption 24). -/
def rowLineUpdates (t : TableImg) (ent : BitVec 32) : Nat :=
  let le_ := ent.toNat % 2 ^ 15
  let hits := t.upds.filter fun e => (updEntities e).contains le_
  let cols := hits.filterMap fun e => (TableImg_col t e.colId).map fun c => (c, (updEntities e).count le_)
  let plain := cols.flatMap fun x => if x.1.op == .hbin then []
    else (List.range x.1.nwords).map fun i => (x.1.word + i) / 16
  plain.eraseDups.length + sumNat (cols.map fun x => if x.1.op == .hbin then min x.2 ((x.1.nwords + 15) / 16) else 0)

/-- R of R253 for the record sizes of the configuration. -/
def landingLines (sizes : List (Nat × Nat)) : Nat := (sumNat (sizes.map fun x => (x.2 + 63) / 64) + 511) / 512

/-- The channel at which a leaf's landing lines begin: behind those of the leaves listed before it, so that the records of
an epoch lie across the channels as one stripe (R253). -/
def landingStart (leaf : Nat) (sizes : List (Nat × Nat)) : Nat :=
  sumNat ((sizes.takeWhile (·.1 != leaf)).map fun x => (x.2 + 63) / 64) % 512

/-- RMWs of a channel from the SLOT tables of a share. -/
def channelUpdates (ts : List TableImg) (ch : Nat) : Nat :=
  sumNat (ts.map fun t => sumNat (t.entities.zipIdx.map fun x =>
    if t.slot && (t.ch0 + x.2) % 512 == ch then rowLineUpdates t x.1 else 0))

/-- The SLOT updates of a share keep within its part in every channel (R253). -/
def slotBudgetOk (sizes : List (Nat × Nat)) (shares : Nat) (ts : List TableImg) : Bool :=
  (List.range 512).all fun ch => channelUpdates ts ch ≤ (2176 - landingLines sizes) / (2 * shares)

/-! ## Source values (11 R315) -/

/-- The range of a format. -/
def formatRange (f : ColFormat) : Int × Int :=
  match f with
  | .u32 | .cnt32 => (0, 2 ^ 32 - 1)
  | .i64 => (-(2 ^ 63), 2 ^ 63 - 1)
  | _ => (-(2 ^ 31), 2 ^ 31 - 1)

/-- Shift and saturate. -/
def convert (e : UpdEntry) (f : ColFormat) (v : Int) : Int :=
  let sh := if e.right then v / 2 ^ e.shift else v * 2 ^ e.shift
  clampInt (formatRange f).1 (formatRange f).2 sh

/-! ## Words of a row -/

def wordAt (w : List (BitVec 32)) (i : Nat) : BitVec 32 := nth w i 0

def setWord (w : List (BitVec 32)) (i : Nat) (v : BitVec 32) : List (BitVec 32) := modifyAt w i fun _ => v

def setWords (w : List (BitVec 32)) (i : Nat) (vs : List (BitVec 32)) : List (BitVec 32) :=
  vs.zipIdx.foldl (fun w x => setWord w (i + x.2) x.1) w

/-- The value of a column's state as its format reads it. -/
def stateOf (f : ColFormat) (w : List (BitVec 32)) (i : Nat) : Int :=
  match f with
  | .u32 | .cnt32 | .cat => ((wordAt w i).toNat : Int)
  | .i64 => signed 64 ((wordAt w i).toNat + 2 ^ 32 * (wordAt w (i + 1)).toNat)
  | _ => (wordAt w i).toInt

/-- Write a value in a column's format, wrapping to its width. -/
def putState (f : ColFormat) (w : List (BitVec 32)) (i : Nat) (v : Int) : List (BitVec 32) :=
  match f with
  | .i64 => setWords w i [BitVec.ofNat 32 (code 64 v), BitVec.ofNat 32 (code 64 v / 2 ^ 32)]
  | _ => setWord w i (BitVec.ofInt 32 v)

/-! ## Thresher operations (09 R258) -/

/-- HBIN's index (R193, R258). -/
def hbinIdx (c : Column) (x : Int) : Nat :=
  if colLog2 c then if x < 0 then 0 else histLog2Idx (colOLo c) (colNoct c) x.toNat
  else histLinIdx c.p0.toInt c.p1.toNat (c.nwords - 2) x

/-- SHIFT: every entry moves up by one and x comes first. -/
def shiftIn (c : Column) (w : List (BitVec 32)) (x : BitVec 32) : List (BitVec 32) :=
  setWords w c.word (x :: ((List.range (c.nwords - 1)).map fun i => wordAt w (c.word + i)))

def ewma (k : Nat) (s x : Int) : Int := s + (x - s) / 2 ^ k

def cusumUp (p x mu k : Int) : Int := min (2 ^ 31 - 1) (max 0 (p + x - mu - k))

def cusumDown (n x mu k : Int) : Int := min (2 ^ 31 - 1) (max 0 (n + mu - k - x))

/-- Apply an input to a column; `pre` is the row before any update of the epoch. -/
def applyOp (c : Column) (pre w : List (BitVec 32)) (x : Int) : List (BitVec 32) :=
  match c.op with
  | .loaded => w
  | .add => putState c.format w c.word (stateOf c.format w c.word + x)
  | .min => putState c.format w c.word (min (stateOf c.format w c.word) x)
  | .max => putState c.format w c.word (max (stateOf c.format w c.word) x)
  | .hbin => let i := c.word + hbinIdx c x; setWord w i (wordAt w i + 1)
  | .ewma => setWord w c.word (BitVec.ofInt 32 (ewma (colK c) (wordAt w c.word).toInt x))
  | .cusum =>
    let mu := (wordAt pre (colMu c)).toInt
    let k := c.p0.toInt
    setWords w c.word [BitVec.ofInt 32 (cusumUp (wordAt w c.word).toInt x mu k),
      BitVec.ofInt 32 (cusumDown (wordAt w (c.word + 1)).toInt x mu k)]
  | .shift => shiftIn c w (BitVec.ofInt 32 x)

/-- The lines that an RMW of an input reads: those of its column, and that of the mean of a CUSUM. -/
def touched (c : Column) (x : Int) : List Nat :=
  let own := if c.op == .hbin then [(c.word + hbinIdx c x) / 16] else (List.range c.nwords).map fun i => (c.word + i) / 16
  (own ++ if c.op == .cusum then [colMu c / 16] else []).eraseDups

/-- An absent epoch: states are held and SHIFT inserts MISSING (09 R259); one that reads a poisoned line is not applied and
marks the row (09 R271). -/
def skipRow (cols : List Column) (v : RowVer) : RowVer :=
  cols.foldl (fun v c => if c.op != .shift then v
    else if (touched c 0).any v.badLines.contains then { v with poisoned := true }
    else { v with words := shiftIn c v.words c.missing }) v

/-- The value of a column as an observation of a reduction plan (07 R188): its first word, or both words of an I64. -/
def columnObs (c : Column) (w : List (BitVec 32)) : BitVec 64 := BitVec.ofInt 64 (stateOf c.format w c.word)

/-! ## Seeds (11 R328) -/

/-- The columns of a row after a seed: EWMA state and SHIFT entries at the value, the CUSUM pair at 0. -/
def seedWords (cols : List Column) (vals : List (Nat × Int)) (w : List (BitVec 32)) : List (BitVec 32) :=
  cols.foldl (fun w c => match vals.find? (·.1 == c.colId), c.op with
    | some (_, v), .ewma => setWord w c.word (BitVec.ofInt 32 v)
    | _, .cusum => setWords w c.word [0, 0]
    | some (_, v), .shift => setWords w c.word (List.replicate c.nwords (BitVec.ofInt 32 v))
    | _, _ => w) w

/-- The largest window of a table. -/
def maxWin (t : TableImg) : Nat := t.cols.foldl (fun m c => max m c.win) 0

end Sys2Proof.Machine
end

