-- ==== Sys2Proof/Machine/Reduce.lean ====
section
/-!
DEFINITION. Exact reduction, membership and recompute, the commands (05 R138 to R156, 07 R188 to R218).
-/

namespace Sys2Proof.Machine

/-! ## Schedule repair (R213) -/

def roleHeight : Role → Nat
  | .tray => 1
  | .chassis => 2
  | .summit => 3

/-- The ARM_ID of an originator's next arm (R204): its role, rope-team number and sequence. -/
def State.nextArmId (s : State) : BitVec 64 :=
  BitVec.ofNat 64 (roleHeight s.cfg.role * 2 ^ 56 + s.cfg.team % 2 ^ 12 * 2 ^ 44 + (s.red.armSeq + 1) % 2 ^ 44)

/-- A SCHED_SYNC: an ARM of kind 7 with the sender's most recent boundary as anchor (R203, R204, R213). -/
def schedSyncMsg (id : BitVec 64) (height : Nat) (b : Boundary) : Bytes :=
  ctlMsg 0x02 (le 2 7 ++ le 1 0 ++ le 1 height ++ le 8 id.toNat ++ le 8 b.k ++ timeBytes b.t ++ zeros 4 ++ le 4 b.epochNs)

/-- Send SCHED_SYNC on a lane, or owe it while a phase correction is being applied (R213). -/
def sendSchedSync (lane : Nat) (s : State) : State :=
  match s.sched.past with
  | b :: _ =>
    if s.sched.settled then
      let s1 := s.sendCtl lane (schedSyncMsg s.nextArmId (roleHeight s.cfg.role) b)
      { s1 with red := { s1.red with armSeq := s1.red.armSeq + 1 } }
    else { s with red := { s.red with schedOwed := lane :: s.red.schedOwed } }
  | [] => s

/-! ## Slots -/

def State.laneSlot (s : State) (lane : Nat) : Option Nat :=
  match s.lane? lane with
  | some l => match l.plan.use with
    | .down n => some n
    | .peer t => some (1000 + t)
    | _ => none
  | none => none

def State.slotLanes (s : State) (slot : Nat) : List Nat :=
  (s.lanes.filter fun l => l.plan.use == .down slot && l.active && l.st == .up).map (·.n)

/-- The slot of a leaf id: the lane its HELLO came on, or the membership's. -/
def State.leafSlot (s : State) (leaf : Nat) : Option Nat :=
  match s.lanes.find? fun l => match l.peer with
    | some p => l.plan.use.isDown && p.profile == .leaf && p.id == leaf
    | none => false with
  | some l => s.laneSlot l.n
  | none => (s.red.changes.find? fun c => c.e.kind == 1 && c.e.subject == leaf && c.slot < belowSlot).map (·.slot)

/-! ## Recovery (R215) -/

/-- RESEND_REQ (R214): SUBJECT with the context and WHAT. -/
def resendReqMsg (epoch subject ctx what : Nat) : Bytes :=
  ctlMsg 0x07 (le 8 epoch ++ le 4 (subject % 2 ^ 17 + ctx * 2 ^ 20 + what * 2 ^ 24))

/-- Ask the source of a recovery. -/
def askSource (r : Recovery) (s : State) : State :=
  let subj := if 1000 ≤ r.slot then r.slot - 1000 else (subjectOf s.red.changes r.slot).getD 0
  match r.source with
  | 1 => s.sendBelay (resendReqMsg r.k subj r.ctx 4)
  | 2 => match s.slotLanes r.slot with
    | n :: _ => s.sendCtl n (resendReqMsg r.k subj r.ctx 1)
    | [] => s.sendBelay (resendReqMsg r.k subj r.ctx 1)
  | 3 => s.sendCtlAll (s.slotLanes r.slot) (resendReqMsg r.k subj r.ctx (if s.cfg.role == .chassis then 2 else 3))
  | _ => s

/-- The record of an epoch in the landing area. -/
def State.landed? (s : State) (slot k : Nat) : Option Bytes :=
  (s.red.landing.find? fun l => l.slot == slot && l.k == k).map (·.raw)

/-- Is the contribution still missing? -/
def State.missing (s : State) (ctx slot k : Nat) : Bool :=
  !(s.red.landing.any fun l => l.slot == slot && l.k == k) &&
  !(s.red.children.any fun c => c.ctx == ctx && c.slot == slot && c.k == k) &&
  !(s.red.sheaves.any fun h => h.ctx == ctx && h.k == k && h.merged.contains slot)

/-- The recovery in progress of a context's contribution; a leaf's record serves every context, under context 0. -/
def State.recovery? (s : State) (ctx slot k : Nat) : Option Recovery :=
  s.red.recover.find? fun r => r.ctx == ctx && r.slot == slot && r.k == k

def setRecovery (r : Recovery) (s : State) : State :=
  { s with red := { s.red with recover := putBack (fun x => x.slot == r.slot && x.k == r.k && x.ctx == r.ctx) r s.red.recover } }

/-- The source after the twin: at TRAY role the leaf's sample ring, above it the tray's raw ring (R215). -/
def State.afterTwin (s : State) : Nat := if s.cfg.role == .tray then 2 else 3

/-- A contribution is of use: it is missing, or at TRAY role its record is no longer held and that of the next epoch, not
merged yet, needs it as its predecessor (05 R143, R201). -/
def State.wanted (s : State) (ctx slot k : Nat) : Bool :=
  s.missing ctx slot k || (s.cfg.role == .tray && (s.landed? slot k).isNone &&
    s.red.sheaves.any fun h => h.k == k + 1 && h.stage == .open && !h.merged.contains slot &&
      !(s.landed? slot (k + 1)).any recFirst)

/-- Begin to obtain a contribution again, at the first source (01 R40). -/
def startRecovery (ctx slot k : Nat) (s : State) : State :=
  if (s.recovery? ctx slot k).isSome || !s.wanted ctx slot k then s
  else
    let r : Recovery := { ctx := ctx, slot := slot, k := k, source := if s.belayUp then 1 else s.afterTwin, since := s.now, asked := s.now }
    askSource r (setRecovery r s)

/-- A contribution came: its recovery ends and its source is counted (17 R456, counters 13 to 16). -/
def endRecovery (ctx slot k : Nat) (s : State) : State :=
  match s.recovery? ctx slot k with
  | some r =>
    { s.errCount (12 + r.source) 1 with
      red := { (s.errCount (12 + r.source) 1).red with
        recover := s.red.recover.filter fun x => !(x.ctx == ctx && x.slot == slot && x.k == k) } }
  | none => s

/-- A resend request to the leaf is retried every 2 µs (R215). -/
def execResendRetry (slot epoch : Nat) (s : State) : Res :=
  onTray "RESEND_RETRY" s fun s =>
    match s.recovery? 0 slot epoch with
    | some r =>
      if r.source == 2 && r.asked + nsT 2000 ≤ s.now then
        let r' := { r with asked := s.now }
        askSource r' (setRecovery r' s)
      else s
    | none => s

/-! ## Landing (R188, R213, 01 R42) -/

/-- The sheaf of context 0 for an epoch is published. -/
def State.sheafDone (s : State) (ctx k : Nat) : Bool :=
  s.red.sheaves.any fun h => h.ctx == ctx && h.k == k && h.level != .shard && h.stage != .open

/-- A JOIN that ends the absence at an epoch is already declared. -/
def State.rejoined (s : State) (ctx slot k : Nat) : Bool :=
  (changesOf s.red.changes ctx (changeSlot slot)).any fun c => c.e.join && decide (k < c.e.epoch)

/-- The contribution comes too late (01 R42): its absence is declared at that epoch, or from an earlier one up to a JOIN that
is declared too, NONE was answered for it (at TRAY role a leaf's record serves every context), or the sheaf is published
without it. An epoch older than the boundaries held is. A leaf's record of the epoch before its JOIN is still landed, since
the first delta is taken against it (05 R149). -/
def State.tooLate (s : State) (ctx slot k : Nat) : Bool :=
  (s.red.noneAnswered.any fun n => (n.1 == ctx || s.cfg.role == .tray) && n.2.1 == slot && n.2.2 == k) ||
  (s.red.changes.any fun c => c.ctx == ctx && c.slot == changeSlot slot && !c.e.join && c.e.epoch == k) ||
  (absentAt s.red.changes ctx (changeSlot slot) k && s.rejoined ctx slot (if s.cfg.role == .tray then k + 1 else k)) ||
  (s.sheafDone ctx k && !(s.red.sheaves.any fun h => h.ctx == ctx && h.k == k && h.merged.contains slot)) ||
  (k < s.curEpoch && (s.boundary? k).isNone && (s.sched.past.getLast?).any fun b => k < b.k)

/-- A contribution that came before is discarded and counted (R190). -/
def countDup (s : State) : State :=
  { s.errCount 17 1 with red := { (s.errCount 17 1).red with dupMerge := s.red.dupMerge + 1 } }

def countLate (s : State) : State :=
  { s.errCount 18 1 with red := { (s.errCount 18 1).red with lateDiscard := s.red.lateDiscard + 1 } }

/-- Declare the JOIN ATTACH of an absent child (05 R149). -/
def State.declareJoin (s : State) (ctx slot k : Nat) (left : MemberEntry) : State :=
  let s1 := { s with red := { s.red with
    assignOwed := if ctx == 0 && !s.red.assignOwed.contains slot then slot :: s.red.assignOwed else s.red.assignOwed } }
  s1.decideChange { ctx := ctx, slot := slot, silent := false, e := { left with epoch := k, join := true, reason := 0x10 } }

/-- The first epoch after one at which a contributor's record is held with its predecessor, or carries FIRST, and can still
be merged (05 R149); a child's sheaf or a shard partial needs neither. -/
def State.firstHeld (s : State) (ctx slot k : Nat) : Option Nat :=
  let ks := if s.cfg.role == .tray then
      (s.red.landing.filter fun l => l.slot == slot && k < l.k && (recFirst l.raw || (s.landed? slot (l.k - 1)).isSome)).map (·.k)
    else (s.red.children.filter fun c => c.ctx == ctx && c.slot == slot && k < c.k).map (·.k)
  (ks.filter fun j => !s.sheafDone ctx j).foldl (fun m x => some (min x (m.getD x))) none

/-- The chassis of a shard, by the latest partial of it that was merged. -/
def State.shardMap (s : State) (ctx slot : Nat) : List Nat :=
  match s.red.shardExp.find? fun x => x.1 == ctx && x.2.1 == slot with
  | some x => (List.range 128).filter fun n => bit x.2.2 n
  | none => []

/-- The chassis of a lost shard rejoin with its partial of epoch j (assumption 172): those whose LEAVE was declared with the
shard's absence, and the shard itself. -/
def State.declareShardJoin (s : State) (ctx slot j : Nat) (left : MemberEntry) : State :=
  let back := (s.shardMap ctx slot).filter fun n =>
    (chassisEntry s.red.changes ctx n j).any fun e => !e.join && e.epoch == left.epoch
  let s1 := back.foldl (fun s n => s.decideChange { ctx := ctx, slot := shardSlot, silent := false, e :=
    { epoch := j, subject := n, kind := 3, join := true, reason := 0x10 } }) s
  s1.decideChange { ctx := ctx, slot := changeSlot slot, silent := true, e := { left with epoch := j, join := true, reason := 0x10 } }

/-- An absent contributor rejoins at the first epoch whose contribution is held (R149): the deciding member declares the
JOIN. -/
def State.rejoin (s : State) (ctx slot k : Nat) : State :=
  match changeAt s.red.changes ctx (changeSlot slot) k with
  | some ch =>
    if s.decides && absentAt s.red.changes ctx (changeSlot slot) k && !s.rejoined ctx slot k then
      match s.firstHeld ctx slot ch.e.epoch with
      | some j => if 1000 ≤ slot then s.declareShardJoin ctx slot j ch.e else s.declareJoin ctx slot j ch.e
      | none => s
    else s
  | none => s

/-- An absent leaf whose record lands may rejoin, in every context (05 R143, R149). -/
def maybeRejoin (slot k : Nat) (s : State) : State := (s.ctxs.map (·.id)).foldl (fun s c => s.rejoin c slot k) s

/-- Updates for entities without a row are discarded and counted in THR_NO_ROW (09 R256). -/
def countNoRow (n : Nat) (s : State) : State := if n = 0 then s else s.errCount 21 n

/-- Land a verified record in the landing area of 16 epochs. A leaf that sends a later record has been reset since it
reported its host die lost (01 R41). -/
def landRecord (slot : Nat) (b : Bytes) (s : State) : State :=
  let k := recEpoch b
  let fed := s.mem.tables.filter fun t => expectedAt s.red.changes t.ctx slot k
  let none_ := sumNat (fed.map fun t => t.noRow [1, 2, 3, 4, 5, 9, 0x0A] (recLeaf b))
  let s := noteTail k ((countNoRow none_ s).stripe .s (landingStart (recLeaf b) s.cfg.recSizes) (lineCount b.length))
  let keep := s.red.landing.filter fun l => k < l.k + 16 && !(l.slot == slot && l.k == k)
  let s1 := { s with red := { s.red with
    landing := keep ++ [{ slot := slot, k := k, raw := b, logged := false }]
    reports := s.red.reports.filter fun r => !(r.1 == slot && r.2.1 == 1 && r.2.2 < k) } }
  noteLeafPdm b (maybeRejoin slot k (endRecovery 0 slot k s1))

/-- The record of an epoch that a usable checkpoint, in staging or in context 0's checkpoint area, holds as the leaf's
latest (R215, R217). -/
def State.ckptRecord (s : State) (area : Option Ckpt) (slot k : Nat) : Option Bytes :=
  if s.cfg.role == .tray then
    (((s.raw.ckpts ++ area.toList).filter (·.usable)).flatMap (·.leaves)).findSome? fun l =>
      if l.1 == slot && recEpoch l.2 == k then some l.2 else none
  else none

/-- A recompute source that does not answer in its time passes the receiver on (R215); the first call for a missing
contribution of a context begins at source 1 (at TRAY role a leaf's record serves every context). Source 4 is read at once: a usable checkpoint that holds the very record supplies it,
in staging or, `area`, in the checkpoint area. From there the receiver returns to the leaf where a path to it is UP and its
sample ring can still hold the record. -/
def execResendSourceTimeout (x : SlotEpoch) (area : Option Ckpt) (s : State) : Res :=
  onTray "RESEND_SOURCE_TIMEOUT" s fun s =>
    let slot := x.slot
    let epoch := x.epoch
    let ctx := if s.cfg.role == .tray then 0 else x.ctx
    match s.recovery? ctx slot epoch with
    | none => startRecovery ctx slot epoch s
    | some r =>
      let tray := s.cfg.role == .tray && slot < 1000
      let overwritten := s.red.reports.contains (slot, 3, epoch)
      let gone := match s.timeOf (epoch + 16) with
        | some t => t ≤ s.now + nsT 12000
        | none => false
      let next :=
        if r.source == 1 && (!s.belayUp || r.since + nsT 20000 ≤ s.now) then s.afterTwin
        else if r.source == 2 && (overwritten || gone || ((s.slotLanes slot).isEmpty && !s.belayUp)) then 4
        else if r.source == 3 && r.since + nsT s.cfg.epochNs ≤ s.now then 4
        else if r.source == 4 && tray && !overwritten && !gone && (!(s.slotLanes slot).isEmpty || s.belayUp) then 2
        else r.source
      if next == r.source then s
      else
        let r' := { r with source := next, since := s.now, asked := s.now }
        let s1 := setRecovery r' s
        match next, s.ckptRecord area slot epoch with
        | 4, some b => if s.tooLate 0 slot epoch then s1 else landRecord slot b s1
        | 4, none => askSource r' (if tray then noteCkpt s1 else s1)
        | _, _ => askSource r' s1

/-- The record agrees with this block's schedule (R213): epoch, T_K and EPOCH_NS. -/
def State.agrees (s : State) (b : Bytes) : Bool :=
  match s.boundary? (recEpoch b) with
  | some x => unle (slice b 16 16) == unle (timeBytes x.t) && fld b 36 4 == x.epochNs
  | none => false

/-- An epoch before every boundary held, of which no schedule can be compared. -/
def State.ancient (s : State) (k : Nat) : Bool := (s.sched.past.getLast?).any fun b => decide (k < b.k)

/-- A leaf cut record arrives, directly or relayed by the twin (R188, 06 R184). One that fails its check is obtained
again (01 R40); so is one that disagrees with the schedule, which also brings its leaf a SCHED_SYNC on this member's own
lane to it (R213). A second copy is a duplicate (R190). -/
def takeRecord (b : Bytes) (s : State) : State :=
  let lands := s.twin.attach.any fun a => !a.carrier && a.phase != .config
  if !s.carrying && !lands then s
  else
    match s.leafSlot (recLeaf b) with
    | none => s
    | some slot =>
      let k := recEpoch b
      if !recOk b then startRecovery 0 slot k s
      else if !s.agrees b && !s.ancient k then
        startRecovery 0 slot k ((s.slotLanes slot).foldl (fun s n => sendSchedSync n s) s)
      else if (s.landed? slot k).isSome then countDup s
      else if s.tooLate 0 slot k then countLate s
      else landRecord slot b s

/-- `relayed` says that the record came over belay; a belay lane brings no other kind (06 R184). -/
def execLeafCutRecord (lane : Nat) (b : Bytes) (relayed : Bool) (s : State) : Res :=
  onTray "LEAF_CUT_RECORD" s fun s =>
    let belay := s.lanes.any fun l => l.n == lane && l.plan.use.isBelay
    if belay == relayed then takeRecord b (s.taken lane b) else s

/-! ## Child sheaves and partials (R188, R202, 01 R42) -/

/-- A child sheaf agrees with this block's schedule (R213). -/
def State.sheafAgrees (s : State) (b : Bytes) : Bool :=
  match s.boundary? (fld b 8 8) with
  | some x => unle (slice b 16 16) == unle (timeBytes x.t) && fld b 36 4 == x.epochNs
  | none => false

/-- The entities that a child's summary section names (12 R333). -/
def summaryEntities (sum : Bytes) : List Nat := ((List.range (fld sum 0 4)).map fun i => fld sum (64 + 32 * i) 4).eraseDups

/-- Updates of a child's sheaf and summary for entities without a row (09 R256, 11 R317). -/
def Table.noChildRow (t : Table) (team : Nat) (sum : Bytes) : Nat :=
  let named := summaryEntities sum
  let lone := fun e : UpdEntry => (updEntities e).filter fun l =>
    named.any fun x => x % 2 ^ 15 == l && (t.rowOf (x / 2 ^ 15) l).isNone
  t.noRow [0x0C] team + sumNat ((t.img.upds.filter (·.srcKind == 0x0D)).map fun e => (lone e).length)

/-- Take a child's sheaf into the slot: a bad one is recovered (01 R40), one whose T_k or EPOCH_NS disagrees asks for the
schedule (R213), a second one and a late one are counted (R190, 01 R42), and a good one lands. -/
def takeChild (lane slot rtype : Nat) (b summary : Bytes) (s : State) : State :=
  let k := fld b 8 8
  let ctx := fld b 48 1 % 16
  if !s.carrying then s
  else if !sheafOk rtype b then startRecovery ctx slot k s
  else if !s.sheafAgrees b && !s.ancient k then startRecovery ctx slot k (sendSchedSync lane s)
  else if s.red.children.any fun c => c.ctx == ctx && c.slot == slot && c.k == k then countDup s
  else if s.tooLate ctx slot k then countLate s
  else
    let c : ChildSheaf := { ctx := ctx, slot := slot, k := k, bytes := b.take (fld b 88 4), summary := summary }
    let none_ := sumNat ((s.mem.tables.filter (·.ctx == ctx)).map fun t => t.noChildRow (fld b 4 4) summary)
    let s := countNoRow none_ s
    (endRecovery ctx slot k { s with red := { s.red with children := s.red.children ++ [c] } }).rejoin ctx slot k

/-- The slot of a child sheaf: that of its lane, or when the twin sends its copy over belay (R215) the slot whose rope team
its SCOPE names. -/
def State.childSlot (s : State) (lane : Nat) (b : Bytes) : Option Nat :=
  (s.laneSlot lane).or ((s.red.changes.find? fun c => c.e.subject == fld b 4 4 && c.slot < 1000).map (·.slot))

def execChildSheaf (lane : Nat) (b summary : Bytes) (s : State) : Res :=
  onTray "CHILD_SHEAF" s fun s =>
    match s.childSlot lane b, s.cfg.role with
    | some slot, .chassis => takeChild lane slot 2 b summary (s.taken lane (b ++ summary))
    | some slot, .summit => takeChild lane slot 3 b summary (s.taken lane (b ++ summary))
    | _, _ => s

/-- A shard partial from a summit rope team, on a peer lane or relayed over belay (01 R27, R202): its SCOPE names the
shard. -/
def execShardPartial (lane : Nat) (b : Bytes) (s : State) : Res :=
  onTray "SHARD_PARTIAL" s fun s =>
    if s.cfg.role == .summit then takeChild lane (1000 + fld b 4 4 % 4) 6 b [] (s.taken lane b) else s

/-! ## Merging (R189, R190) -/

def State.sheaf? (s : State) (ctx k slot : Nat) : Option Sheaf :=
  s.red.sheaves.find? fun h => h.ctx == ctx && h.k == k && h.stage == .open && ((1000 ≤ slot) == (h.level == .fleet))

/-- The slot's bit is set in the merged-slot bitmap of an epoch (R190). -/
def State.mergedIn (s : State) (ctx slot k : Nat) : Bool :=
  s.red.sheaves.any fun h => h.ctx == ctx && h.k == k && h.merged.contains slot

def State.onSheaf (s : State) (h0 : Sheaf) (f : Sheaf → Sheaf) : State :=
  { s with red := { s.red with
    sheaves := mapIf (fun h => h.ctx == h0.ctx && h.k == h0.k && h.level == h0.level) f s.red.sheaves } }

/-- Entries that a child sheaf carries join the membership record of this scope, each once (05 R147): under `slot`, that of
the levels below or of the other shards. -/
def addBelow (ctx slot : Nat) (es : List MemberEntry) (s : State) : State :=
  es.foldl (fun s e =>
    if s.red.changes.any fun c => c.ctx == ctx && c.e == e && !c.silent then s
    else s.addChange { ctx := ctx, slot := slot, e := e, silent := false }) s

/-- Merge a present contribution once into every field (R189, R190): a second one is counted in DUP_MERGE. A record
without FIRST needs its predecessor (05 R143). The slot bit is set only when the merge's checks pass (17 R445): a
permanent fault moves the merge to the spare, which restarts it from its input and completes it here, and without a spare
leaves the bit clear. -/
def execContributionMerge (ctx slot epoch : Nat) (check : CheckOutcome) (s : State) : Res :=
  onTray "CONTRIBUTION_MERGE" s <| byUnit clsReduce check fun s =>
    match s.sheaf? ctx epoch slot with
    | none => if s.mergedIn ctx slot epoch then countDup s else s
    | some h =>
      if h.merged.contains slot then countDup s
      else if h.level != .fleet && !expectedAt s.red.changes ctx slot epoch then s
      else if s.stepLost clsReduce check then unitCheck clsReduce check s
      else
        match h.level, s.landed? slot epoch with
        | .tray, some b =>
          let prev := s.landed? slot (epoch - 1)
          if absentAt s.red.changes ctx slot epoch || !(recFirst b || prev.isSome) then s
          else unitCheck clsReduce check (s.onSheaf h (mergeLeaf s slot b prev))
        | .tray, none => s
        | _, _ =>
          match s.red.children.find? fun c => c.ctx == ctx && c.slot == slot && c.k == epoch with
          | some c =>
            if absentAt s.red.changes ctx (changeSlot slot) epoch then s
            else
              let team := (subjectOf s.red.changes slot).getD slot
              let s1 := unitCheck clsReduce check (s.onSheaf h (mergeChild slot team c.bytes))
              let s2 := addBelow ctx (if h.level == .fleet then shardSlot else belowSlot) (childEntries c.bytes) s1
              { s2 with red := { s2.red with
                leafExp := putBack (fun x => x.1 == ctx && x.2.1 == slot) (ctx, slot, fld c.bytes 60 4) s2.red.leafExp
                shardExp := if h.level == .fleet then
                    putBack (fun x => x.1 == ctx && x.2.1 == slot) (ctx, slot, fld c.bytes 128 16) s2.red.shardExp
                  else s2.red.shardExp } }
          | none => s

/-! ## Membership (05 R146 to R150, 01 R41) -/

/-- The first recorded MEMBER_WAIT start of a child's sheaf: T_k, or its latest HOLD_NOTICE (05 R150). -/
def State.waitFrom (s : State) (ctx slot k : Nat) : Option Ticks :=
  let t := (s.boundary? k).map (·.t)
  match s.red.holds.find? fun h => h.1 == ctx && h.2.1 == slot && h.2.2.1 == k with
  | some h => some (max h.2.2.2 (t.getD 0))
  | none => t

/-- The reason of an absence (01 R41, 05 R148), with what the twin answered about its own lane to the leaf (assumption
15). -/
def State.absenceReason (s : State) (slot k : Nat) (otherUp : Bool) : Nat :=
  match s.cfg.role with
  | .chassis => 4
  | .summit => 5
  | .tray =>
    let rep := fun c => s.red.reports.any fun r => r.1 == slot && r.2.1 == c && (c == 1 || r.2.2 == k)
    if rep 1 then 1 else if (s.slotLanes slot).isEmpty && !otherUp then 2 else 3

/-- Is a contribution of an epoch awaited: a member's that is not absent, or at SUMMIT role the partial of another shard
that is not (R202)? -/
def State.awaits (s : State) (ctx slot k : Nat) : Bool :=
  (if 1000 ≤ slot then s.cfg.role == .summit && slot < 1004 && slot != 1000 + s.cfg.team
    else expectedAt s.red.changes ctx slot k) && !absentAt s.red.changes ctx (changeSlot slot) k

/-- The partial of a shard does not come: its chassis are declared CHASSIS_LOST (R202, 18 R470, assumption 172), but for
those that have already left. -/
def declareShardLost (ctx slot k : Nat) (s : State) : State :=
  let gone := fun n => (chassisEntry s.red.changes ctx n k).any fun e => !e.join
  let e := fun n => ({ epoch := k, subject := n, kind := 3, join := false, reason := 5 } : MemberEntry)
  let s1 := ((s.shardMap ctx slot).filter fun n => !gone n).foldl (fun s n =>
    s.decideChange { ctx := ctx, slot := shardSlot, silent := false, e := e n }) s
  s1.decideChange { ctx := ctx, slot := changeSlot slot, silent := true, e := e (slot - 1000) }

/-- Declare a contributor absent from an epoch (01 R41): at TRAY role in every context that expects the leaf. Where a later
record is already held, it rejoins there (05 R149). -/
def declareAbsent (ctx slot k : Nat) (otherUp : Bool) (s : State) : State :=
  let cs := if s.cfg.role == .tray then s.ctxs.map (·.id) else [ctx]
  cs.foldl (fun s c =>
    if !s.awaits c slot k then s
    else
      let e := { epoch := k, subject := (subjectOf s.red.changes slot).getD 0, kind := s.subjectKind, join := false,
                 reason := s.absenceReason slot k otherUp }
      (if 1000 ≤ slot then declareShardLost c slot k s
        else s.decideChange { ctx := c, slot := slot, e := e, silent := false }).rejoin c slot k) s

/-- The epoch of the contribution that a sheaf still lacks of a contributor (05 R143): its own, or for a leaf's record
without FIRST the one before. -/
def State.lacking (s : State) (ctx slot k : Nat) : Option Nat :=
  if s.missing ctx slot k then some k
  else if s.cfg.role == .tray && !s.mergedIn ctx slot k then
    match s.landed? slot k with
    | some b => if recFirst b || (s.landed? slot (k - 1)).isSome then none else some (k - 1)
    | none => none
  else none

/-- No source has supplied a contribution of an epoch: the contributor is absent from it, or from the next epoch when only
that one needs it (05 R143). -/
def settleAbsent (ctx slot m : Nat) (otherUp : Bool) (s : State) : State :=
  if !s.missing ctx slot m then s
  else if s.awaits ctx slot m then declareAbsent ctx slot m otherUp s
  else if s.lacking ctx slot (m + 1) == some m then declareAbsent ctx slot (m + 1) otherUp s
  else s

def memberQueryMsg (ctx slot epoch : Nat) : Bytes := ctlMsg 0x08 (slice (Config.ctlPayload 0x08 [ctx, slot, epoch]) 0 12)

/-- Send MEMBER_QUERY and note when (05 R146). -/
def sendQuery (ctx slot k : Nat) (s : State) : State :=
  let mine := fun x : Nat × Nat × Nat × Ticks => x.1 == ctx && x.2.1 == slot && x.2.2.1 == k
  let s1 := { s with red := { s.red with queries := putBack mine (ctx, slot, k, s.now) s.red.queries } }
  s1.sendBelay (memberQueryMsg ctx slot k)

def dropQuery (ctx slot k : Nat) (s : State) : State :=
  { s with red := { s.red with queries := s.red.queries.filter fun q => !(q.1 == ctx && q.2.1 == slot && q.2.2.1 == k) } }

/-- How many epochs a contribution is waited for (01 R41): MEMBER_WAIT, and for the partial of another shard, which brings
no HOLD_NOTICE, the longest that the levels below it may take (05 R150, assumption 172). -/
def State.waitEpochs (s : State) (slot : Nat) : Nat := if 1000 ≤ slot then 3 * s.cfg.memberWait + 2 else s.cfg.memberWait

/-- At MEMBER_WAIT epochs without a contribution (01 R41, 05 R146): an unpaired member, or one without belay, decides;
side A of a pair asks side B; side B waits for the decision. -/
def execMemberWaitDeadline (ctx slot epoch : Nat) (s : State) : Res :=
  onTray "MEMBER_WAIT_DEADLINE" s fun s =>
    match s.waitFrom ctx slot epoch with
    | none => s
    | some t =>
      if !s.carrying || s.now < t + nsT (s.waitEpochs slot * s.cfg.epochNs) || !s.awaits ctx slot epoch then s
      else
        match s.lacking ctx slot epoch with
        | none => s
        | some m =>
          if !s.twin.paired || !s.belayUp then declareAbsent ctx slot epoch false s
          else if s.cfg.side == .a then sendQuery ctx slot m s
          else s

/-- The query is repeated every 20 µs; without belay side A decides alone (05 R146). -/
def execMemberQueryRetry (ctx slot epoch : Nat) (s : State) : Res :=
  onTray "MEMBER_QUERY_RETRY" s fun s =>
    match s.red.queries.find? fun q => q.1 == ctx && q.2.1 == slot && q.2.2.1 == epoch with
    | none => s
    | some q =>
      if !s.belayUp then dropQuery ctx slot epoch (settleAbsent ctx slot epoch false s)
      else if q.2.2.2 + nsT 20000 ≤ s.now then
        sendQuery ctx slot epoch s
      else s

/-- The contribution itself, as it was received. -/
def State.contribution? (s : State) (ctx slot k : Nat) : Option Bytes :=
  match s.landed? slot k with
  | some b => some b
  | none => (s.red.children.find? fun c => c.ctx == ctx && c.slot == slot && c.k == k).map fun c => c.bytes ++ c.summary

def memberAnswerMsg (ctx slot epoch : Nat) (has up : Bool) : Bytes :=
  ctlMsg 0x09 (slice (Config.ctlPayload 0x09 [ctx, slot, epoch, b2n has, b2n up]) 0 12)

/-- Side B answers with the contribution, which goes over belay on VC1, or for a sheaf or a shard partial on VC2 in its
context's share (06 R168), or with NONE, after which it discards a later arrival (05 R146). -/
def execMemberQuery (lane ctx slot epoch : Nat) (s : State) : Res :=
  onTray "MEMBER_QUERY" s fun s =>
    match s.contribution? ctx slot epoch with
    | some b =>
      let s1 := s.sendCtl lane (memberAnswerMsg ctx slot epoch true true)
      if s.cfg.role == .tray then s1.sendMsg lane 1 0 0 (s.genOf 0) b else s1.sendMsg lane 2 ctx ctx (s.genOf ctx) b
    | none =>
      let s1 := { s with red := { s.red with noneAnswered := (ctx, slot, epoch) :: s.red.noneAnswered } }
      s1.sendCtl lane (memberAnswerMsg ctx slot epoch false (!(s.slotLanes slot).isEmpty))

def execMemberAnswer (lane ctx slot epoch : Nat) (ans : MemberAnswer) (s : State) : Res :=
  onTray "MEMBER_ANSWER" s fun s =>
    let s1 := dropQuery ctx slot epoch s
    match ans with
    | .none up => settleAbsent ctx slot epoch up s1
    | .record b =>
      if s1.cfg.role == .tray then takeRecord b s1
      else takeChild lane slot (if s1.cfg.role == .chassis then 2 else if 1000 ≤ slot then 6 else 3) b (b.drop (fld b 88 4)) s1

/-- A decision received over belay is applied at its epoch (05 R146). -/
def execMemberDecide (lane ctx slot : Nat) (e : MemberEntry) (s : State) : Res :=
  onTray "MEMBER_DECIDE" s fun s =>
    (s.addChange { ctx := ctx, slot := slot, e := e, silent := shardSlot < slot }).taken lane (memberDecideMsg ctx slot e)

def holdNoticeMsg (ctx epoch : Nat) : Bytes := ctlMsg 0x06 (slice (Config.ctlPayload 0x06 [ctx, epoch]) 0 12)

/-- A child's wait restarts on its HOLD_NOTICE (05 R150). -/
def execHoldNotice (lane ctx epoch : Nat) (s : State) : Res :=
  onTray "HOLD_NOTICE" s fun s =>
    match s.laneSlot lane with
    | some slot =>
      let mine := fun h : Nat × Nat × Nat × Ticks => h.1 == ctx && h.2.1 == slot && h.2.2.1 == epoch
      let s1 := { s with red := { s.red with holds := putBack mine (ctx, slot, epoch, s.now) s.red.holds } }
      s1.taken lane (holdNoticeMsg ctx epoch)
    | none => s

/-- LEAF_STATUS (01 R41): reports are kept with codes 1 DIE_LOST, 2 CAPTURE_LOST, 3 RING_OVERWRITTEN, 4 lane down to
side 0 or 1, 5 lane up to side 0 or 1. A context reset at the leaf brings LEAVE CTX_RELEASED with EPOCH r + 1, and its
units return to context 0 after cut r (18 R470). The radio floor of the die is kept (12 R344). -/
def execLeafStatus (lane : Nat) (r : LeafReport) (s : State) : Res :=
  onTray "LEAF_STATUS" s fun s =>
    match s.laneSlot lane with
    | none => s
    | some slot =>
      let add := fun (x : Nat × Nat × Nat) (s : State) =>
        { s with red := { s.red with reports := if s.red.reports.contains x then s.red.reports else x :: s.red.reports } }
      match r with
      | .dieLost => add (slot, 1, s.curEpoch) s
      | .captureLost k => add (slot, 2, k) s
      | .ringOverwritten k => add (slot, 3, k) s
      | .laneUp a b =>
        let clean := { s with red := { s.red with
          reports := s.red.reports.filter fun x => !(x.1 == slot && (x.2.1 == 4 || x.2.1 == 5)) } }
        let s1 := add (slot, if a then 5 else 4, 0) (add (slot, if b then 5 else 4, 1) clean)
        if a then { s1 with twin := { s1.twin with sideASeen := some s.now } } else s1
      | .radioFloor w => { s with act := { s.act with floors := putBack (·.1 == slot) (slot, w.toNat) s.act.floors } }
      | .ctxReset ctx boundary =>
        let s1 := { s with red := { s.red with owners := s.red.owners ++
          (((s.red.owners.filter fun o => o.slot == slot && ownerAt s.red.owners slot o.unit (boundary + 1) == ctx).map
            (·.unit)).eraseDups.map fun u => { slot := slot, unit := u, ctx := 0, after := boundary }) } }
        if s1.decides && expectedAt s1.red.changes ctx slot (boundary + 1) then
          let e := { epoch := boundary + 1, subject := (subjectOf s1.red.changes slot).getD 0, kind := 1, join := false,
                     reason := 7 }
          s1.decideChange { ctx := ctx, slot := slot, e := e, silent := false }
        else s1

/-! ## Resend requests (R214) -/

/-- A leaf answers from its sample ring while it holds the epoch, else RING_OVERWRITTEN (04 R127, R214). -/
def leafResend (lane k : Nat) (s : State) : State :=
  match s.cap.ring.find? fun r => r.k == k && r.whole && !r.lost with
  | some r => (s.sendMsg lane 1 0 0 (s.genOf 0) (r.record s.cfg.leafId true)).countHealth 318 1
  | none => (s.sendCtl lane (leafStatusMsg 3 [k])).countHealth 319 1

/-! ## Publication (05 R153, R154) -/

/-- The slots of an entry and this instance's slot (05 R153). -/
def State.pubSlots (s : State) (lv : Level) : Nat × Nat :=
  let side := if s.cfg.side == .a then 0 else 1
  if lv == .fleet then (8, 2 * s.cfg.team + side) else (2, side)

/-- The address of this instance's slot of an entry. -/
def PubArea.slotAddr (a : PubArea) (k ns j : Nat) : Nat := a.base + ((k % a.p) * ns + j) * a.z

/-- The value last stored in the entry of epoch k. -/
def PubArea.storedAt (a : PubArea) (k : Nat) : Nat :=
  match a.stored.find? (·.1 == k % a.p) with
  | some x => x.2
  | none => 0

/-- The entry of epoch k is fresh, and its first FADD has not returned (18 R484). -/
def PubArea.firstTime (a : PubArea) (k : Nat) : Bool :=
  a.fresh.contains (k % a.p) && !a.stored.any fun x => x.1 == k % a.p

/-- The area of a context that takes sheaf k (16 R436): the latest set at or before it; none once publication stopped. -/
def State.pub? (s : State) (ctx k : Nat) : Option PubArea :=
  ((s.red.pubs.filter fun a => a.ctx == ctx && a.since ≤ k).foldl (fun (m : Option PubArea) a => match m with
    | some x => if x.since ≤ a.since then some a else some x
    | none => some a) none).filter fun a => a.base != 0

def State.onPub (s : State) (a : PubArea) (f : PubArea → PubArea) : State :=
  { s with red := { s.red with pubs := mapIf (fun x => x.ctx == a.ctx && x.since == a.since) f s.red.pubs } }

/-- SCOPE of a sheaf (05 R141, R202). -/
def State.scopeOf (s : State) : Level → Nat
  | .fleet => 0
  | _ => s.cfg.team

/-- The bytes stored after the flag line: sheaf, then verdict records (05 R153). -/
def Sheaf.stored (h : Sheaf) : Bytes := h.bytes ++ h.verdicts.flatten

/-- A complete shard partial goes to the other summit members, and counts as this member's own contribution. -/
def sendPartial (h : Sheaf) (s : State) : State :=
  let b := h.build s.red.changes s.red.leafExp s.cfg.team
  let s1 := s.onSheaf h fun x => { x with bytes := b, sent := true, stage := .done }
  let s2 := s1.sendMsgAll (s1.lanesFor LaneUse.isPeer) 2 h.ctx h.ctx h.gen b
  { s2 with red := { s2.red with
    children := s2.red.children ++ [{ ctx := h.ctx, slot := 1000 + s.cfg.team, k := h.k, bytes := b, summary := [] }] } }

/-- A fleet sheaf without the partial of a lost shard still expects the shard's chassis and their leaves (05 R145). -/
def State.withLost (s : State) (h : Sheaf) : Sheaf :=
  if h.level != .fleet then h
  else ((List.range 4).filter fun t => !h.merged.contains (1000 + t)).foldl (fun h t =>
    let leaves := s.red.leafExp.find? fun x => x.1 == h.ctx && x.2.1 == 1000 + t
    { h with
      partExp := h.partExp ||| mapOf (s.shardMap h.ctx (1000 + t))
      leafExp := h.leafExp + (match leaves with
        | some x => x.2.2
        | none => 0) }) h

/-- A complete sheaf is built once (R218), sent on the up lanes with its summary section, and its publication starts with
a FADD on the flag word of its slot: minus the value last stored there, or 0 for an entry not yet written since a join
(05 R154, 18 R484). A sheaf longer than its slot is not stored. -/
def publishSheaf (h : Sheaf) (s : State) : State :=
  let b := (s.withLost h).build s.red.changes s.red.leafExp (s.scopeOf h.level)
  let h1 := { h with bytes := b, sent := true }
  let sentAt := match s.boundary? h.k with
    | some x => some ((s.now - x.t) / nsT 10)
    | none => none
  let s0 := if h.ctx == 0 && h.level == .tray then
      { s with evr := { s.evr with sheafOut := sentAt, skewMax := some h.skew } } else s
  let s1 := s0.onSheaf h fun _ => h1
  let s2 := s1.sendMsgAll (s1.lanesFor LaneUse.isUp) 2 h.ctx h.ctx h.gen (b ++ h.summary)
  match s2.pub? h.ctx h.k with
  | some a =>
    let (ns, j) := s.pubSlots h.level
    if a.z < 64 + h1.stored.length then s2.onSheaf h fun x => { x with stage := .done }
    else
      let add := if a.firstTime h.k then 0 else a.storedAt h.k
      (s2.onSheaf h fun x => { x with stage := .adding }).issue
        [.fadd h.ctx (a.slotAddr h.k ns j) (BitVec.ofInt 64 (-(add : Int)))]
  | none => s2.onSheaf h fun x => { x with stage := .done }

def execSheafPublish (ctx epoch : Nat) (s : State) : Res :=
  onTray "SHEAF_PUBLISH" s fun s =>
    if !s.carrying then s
    else
      match s.red.sheaves.find? fun h => h.ctx == ctx && h.k == epoch && h.stage == .open && h.complete s.red.changes with
      | some h => if h.level == .shard then sendPartial h s else publishSheaf h s
      | none => s

/-- Split into 64-byte lines, the last padded with zeros. -/
def linesOf (b : Bytes) : List Bytes := (List.range ((b.length + 63) / 64)).map fun i => slice b (64 * i) 64

/-- The FADD of a capture entry returns: lines, then FLAG with q + 1 (05 R154, R227). -/
def captReturn (c : CaptMsg) (ret : BitVec 64) (s : State) : State :=
  let s1 := { s with captOut := s.captOut.filter fun x => x != c }
  let s2 := if ret.toNat == c.expect then s1
    else (s1.setBit .fab 28).onCtx c.ctx fun x => { x with clobbered := true }
  s2.issue ((linesOf c.bytes).zipIdx.map (fun x => Out.store64 c.ctx (c.addr + 64 + 64 * x.2) x.1)
    ++ [.flag c.ctx c.addr (BitVec.ofNat 64 (c.q + 1))])

/-- The FADD returns (05 R154): the publisher stores the sheaf and records and then the FLAG. A return other than the
value last stored is reported and the publisher continues. The first return of a fresh entry is followed by a FADD of
minus the returned value (18 R484). A return for a capture entry names its q in place of the epoch. -/
def execPublishFaddReturn (ctx epoch : Nat) (ret : BitVec 64) (s : State) : Res :=
  onTray "PUBLISH_FADD_RETURN" s fun s =>
    match s.red.sheaves.find? fun h => h.ctx == ctx && h.k == epoch && h.stage == .adding, s.pub? ctx epoch with
    | some h, some a =>
      let (ns, j) := s.pubSlots h.level
      let addr := a.slotAddr epoch ns j
      let put := fun v => putBack (fun x : Nat × Nat => x.1 == epoch % a.p) (epoch % a.p, v) a.stored
      if a.firstTime epoch then
        (s.onPub a fun a => { a with stored := put ret.toNat }).issue [.fadd ctx addr (-ret)]
      else
        let s1 := if ret.toNat == a.storedAt epoch || a.fresh.contains (epoch % a.p) then s
          else (s.setBit .fab 28).onCtx ctx fun c => { c with clobbered := true }
        let wrote := fun a : PubArea => { a with stored := put (epoch + 1), fresh := a.fresh.filter (· != epoch % a.p) }
        let stores := (linesOf h.stored).zipIdx.map fun x => Out.store64 ctx (addr + 64 + 64 * x.2) x.1
        ((s1.onPub a wrote).onSheaf h fun x => { x with stage := .done }).issue
          (stores ++ [.flag ctx addr (BitVec.ofNat 64 (epoch + 1))])
    | _, _ =>
      match s.captOut.find? fun c => c.ctx == ctx && c.q == epoch with
      | some c => captReturn c ret s
      | none => s

end Sys2Proof.Machine
end

