-- ==== Sys2Proof/Machine/Contexts.lean ====
section
/-!
DEFINITION. Contexts (14): set-up tables, the start and the end of a context at its boundary.
-/

namespace Sys2Proof.Machine

/-! ## Set-up tables (R384, R385) -/

def readSetupEntry (b : Bytes) : SetupEntry :=
  { leaf := fld b 0 4 % 2 ^ 17, units := BitVec.ofNat 64 (fld b 8 8), winBase := fld b 16 8, winSize := fld b 24 4 }

/-- The entries of a CTX_SETUP message whose CRC-32C holds. -/
def setupEntries (msg : Bytes) : List SetupEntry :=
  let one := fun i => slice msg (64 + 64 * i) 64
  (((List.range (fld msg 16 4)).map one).filter crcOk).map readSetupEntry

/-- The header of a CTX_SETUP message (R384). -/
def setupHeader (su : Setup) (n : Nat) : Bytes :=
  sealCrc (le 1 0x0D ++ le 1 1 ++ le 1 su.ctx ++ le 1 su.flags ++ le 2 su.gen.toNat ++ zeros 2 ++ le 8 su.setupId.toNat
    ++ le 4 n ++ zeros 40)

def setupEntryBytes (e : SetupEntry) : Bytes :=
  sealCrc (le 4 e.leaf ++ zeros 4 ++ le 8 e.units.toNat ++ le 8 e.winBase ++ le 4 e.winSize ++ zeros 28 ++ zeros 4)

/-- A CTX_SETUP message with these entries, in ascending leaf id. -/
def setupMsg (su : Setup) (es : List SetupEntry) : Bytes :=
  setupHeader su es.length ++ (sortBy (·.leaf) es).flatMap setupEntryBytes

/-- The child slot whose scope holds a leaf. -/
def State.childOfLeaf (s : State) (leaf : Nat) : Option Nat :=
  match s.cfg.scope.find? fun x => x.2.contains leaf with
  | some x => some x.1
  | none => if s.cfg.role == .tray then s.leafSlot leaf else none

/-- The down slots of this instance. -/
def State.downSlots (s : State) : List Nat :=
  (s.lanes.filterMap fun l => match l.plan.use with
    | .down n => some n
    | _ => none).eraseDups

/-- Forward to each child only the entries within its scope (R384), on VC2 in share 0 with context 0's generation. -/
def forwardSetup (su : Setup) (es : List SetupEntry) (s : State) : State :=
  s.downSlots.foldl (fun s n =>
    let mine := es.filter fun e => s.childOfLeaf e.leaf == some n
    if mine.isEmpty then s else s.sendMsgAll (s.slotLanes n) 2 0 0 (s.genOf 0) (setupMsg su mine)) s

/-- Hold the entries of a table: a leaf its own, a tray block those of its scope, and forward what is new. -/
def takeSetup (su : Setup) (s : State) : State :=
  let same := fun x : Setup => x.setupId == su.setupId && x.ctx == su.ctx && x.gen == su.gen
  let old := ((s.setups.find? same).map (·.entries)).getD []
  let new := su.entries.filter fun e => !old.contains e && (s.isTray || e.leaf == s.cfg.leafId)
  let s1 := { s with setups := putBack same { su with entries := old ++ new } s.setups }
  if s.isTray then forwardSetup su new s1 else s1

/-- The SETUP_ID under which a tray block sends a leaf its unit assignment with a JOIN ATTACH (R394); the message has the
form of a set-up table, since the spec gives it none (assumption 44). -/
def assignmentId : BitVec 64 := 0xFFFFFFFFFFFFFFFF

/-- A leaf applies its assignment for an id at its next boundary: the entry, or none for an id that is not ACTIVE. -/
def takeAssignment (ctx : Nat) (g : BitVec 16) (es : List SetupEntry) (s : State) : State :=
  let mine := es.find? fun e => e.leaf == s.cfg.leafId && e.units != 0
  { s with stw := { s.stw with bnd := s.stw.bnd ++ [{ b := s.curEpoch + 1, act := .assign ctx g mine, echoed := true }] } }

/-- A CTX_SETUP message is checked and forwarded (R384, R385). -/
def execCtxSetup (lane : Nat) (msg : Bytes) (s : State) : Res :=
  .next <| whenClocked s fun s =>
    let s := s.taken lane msg
    let id := BitVec.ofNat 64 (fld msg 8 8)
    if id == assignmentId && s.isLeaf && crcOk (msg.take 64) then
      takeAssignment (fld msg 2 1 % 16) (BitVec.ofNat 16 (fld msg 4 2)) (setupEntries msg) s
    else if 64 ≤ msg.length && fld msg 0 1 == 0x0D && fld msg 1 1 == 1 && crcOk (msg.take 64) then
      takeSetup { setupId := BitVec.ofNat 64 (fld msg 8 8), ctx := fld msg 2 1 % 16, gen := BitVec.ofNat 16 (fld msg 4 2),
                  flags := fld msg 3 1, entries := setupEntries msg } s
    else s

/-! ## Arguments of the context kinds (R386) -/

def Arm.setupId (a : Arm) : BitVec 64 := a.arg.setWidth 64

/-- EXTEND of a CTX_START and PARTIAL of a CTX_END. -/
def Arm.ctxFlag (a : Arm) : Bool := a.arg.getLsbD 64

def State.setupOf (s : State) (a : Arm) : Option Setup :=
  s.setups.find? fun x => x.setupId == a.setupId && x.ctx == a.ctx && x.gen == a.gen

def State.ownEntry (s : State) (a : Arm) : Option SetupEntry :=
  (s.setupOf a).bind fun su => su.entries.find? fun e => e.leaf == s.cfg.leafId

/-- May a CTX_START be armed here (R380, R388, R395)? A leaf that an EXTEND adds holds the id FREE, and never had it at
this generation: one that a context reset took out stays out for the rest of it (18 R470). -/
def State.canStart (s : State) (a : Arm) : Bool :=
  match s.ctx? a.ctx with
  | none => false
  | some c =>
    1 ≤ a.ctx && a.ctx < s.cfg.shareCount &&
    (if a.ctxFlag then c.life == .active a.gen || (s.isLeaf && c.life == .free && c.last != some a.gen)
    else c.last != some a.gen && (match c.life with
      | .free => true
      | .active _ => false
      | .draining _ => decide (c.endT + nsT 10000000 ≤ a.tEff)))

/-! ## The boundary (R387 to R390, 04 R112) -/

def unitsOf (u : BitVec 64) : List Nat := (List.range 64).filter fun i => u.getLsbD i

/-- Units of the leaf move to a new owner at this boundary: their stooks deliver this cut to the old owner with
OWNER_CHANGE and reload their bases (04 R112). Cores follow their engines, and leave the old owner's lists (08 R219,
R221). -/
def moveUnits (us : List Nat) (c : Nat) (s : State) : State :=
  let moved := us.filter fun u => nth s.cap.owner u 0 != c
  let s1 := { s with cap := { s.cap with
    owner := moved.foldl (fun l u => modifyAt l u fun _ => c) s.cap.owner
    stooks := mapIf (fun st => moved.contains st.unit) (fun st => { st with moving := true }) s.cap.stooks } }
  let keep := fun (x : ShareTrc) (l : List Nat) => l.filter fun core => s1.coreOwner core == x.ctx
  moveCores { s1 with trc := { s1.trc with
    shares := s1.trc.shares.map fun x => { x with
      cores := keep x x.cores, pendingSet := x.pendingSet.map fun p => (keep x p.1, p.2) } } }

/-- The trace share of a context that starts. -/
def ShareTrc.start (c : Nat) : ShareTrc :=
  { ctx := c, cores := [], div := 0, pendingSet := none, slots := 0, pos := 0, seq := 0, marks := [], tseq := 0, beats := [] }

/-- The id becomes ACTIVE(g) (R387): SEC generates the generation's key pair, and the mailbox of a tenant starts anew (15
R407). -/
def activate (c : Nat) (g : BitVec 16) (k winBase winSize : Nat) (s : State) : State :=
  let mbxStart := fun m : Mbx => { m with h := 0, seq := 1, ret := 0 }
  let s0 := { s with stw := { s.stw with mbxs := mapIf (fun m => m.n == c && c != 0) mbxStart s.stw.mbxs } }
  let s1 := s0.onCtx c fun x => { x with
    life := .active g
    changed := ((s.boundary? k).map (·.t)).getD s.now
    before := x.life.gen?
    last := some g
    start := k
    winBase := winBase
    winSize := winSize
    keyGen := some g
    skips := 0
    clobbered := false
    jobStopped := false
    firstDue := true }
  if s.isLeaf then
    { s1 with
      watch := putBack (·.ctx == c) (ShareWatch.start c g) s1.watch
      trc := { s1.trc with shares := putBack (·.ctx == c) (ShareTrc.start c) s1.trc.shares } }
  else s1

/-- The members that a set-up table brings: the children whose scope holds a listed leaf. -/
def State.listedChildren (s : State) (su : Setup) : List Nat :=
  (su.entries.filterMap fun e => s.childOfLeaf e.leaf).eraseDups

/-- The units of a tray block's leaves change owner after cut k. -/
def noteOwners (su : Setup) (c k : Nat) (s : State) : State :=
  if s.cfg.role == .tray then
    let new := su.entries.flatMap fun e => match s.childOfLeaf e.leaf with
      | some n => (unitsOf e.units).map fun u => ({ slot := n, unit := u, ctx := c, after := k } : UnitOwner)
      | none => []
    { s with red := { s.red with owners := s.red.owners ++ new } }
  else s

/-- The subject number of a child. -/
def State.subjectAt (s : State) (su : Setup) (n : Nat) : Nat :=
  if s.cfg.role == .tray then
    match su.entries.find? fun e => s.childOfLeaf e.leaf == some n with
    | some e => e.leaf
    | none => 0
  else (subjectOf s.red.changes n).getD n

/-- Membership from sheaf k + 1 (R387, R388): the start's members are in force without an entry, an EXTEND's join with
CTX_ADDED. -/
def startMembers (su : Setup) (c k : Nat) (extend : Bool) (s : State) : State :=
  (s.listedChildren su).foldl (fun s n =>
    let e : MemberEntry := { epoch := k + 1, subject := s.subjectAt su n, kind := s.subjectKind, join := true,
                             reason := if extend then 0x11 else 0 }
    let noAck := s.red.changes.any fun x => x.ctx == c && x.slot == n && x.e.epoch == k + 1 && !x.e.join
    if noAck || expectedAt s.red.changes c n (k + 1) then s
    else if !extend then s.addChange { ctx := c, slot := n, e := e, silent := true }
    else if s.decides then s.decideChange { ctx := c, slot := n, e := e, silent := false }
    else s) s

/-- CTX_START at T_s (R387, R388). -/
def ctxStart (a : Arm) (k : Nat) (s : State) : State :=
  match s.profile with
  | .leaf =>
    match s.ownEntry a with
    | some e =>
      let s1 := if a.ctxFlag && s.heldGen a.ctx == some a.gen then s else activate a.ctx a.gen k e.winBase e.winSize s
      moveUnits (unitsOf e.units) a.ctx s1
    | none => s
  | .tray =>
    let s1 := if a.ctxFlag then s else activate a.ctx a.gen k 0 0 s
    match s.setupOf a with
    | some su => startMembers su a.ctx k a.ctxFlag (noteOwners su a.ctx k s1)
    | none => s1

/-- The piton of a context at a leaf (R390): new feed reads, dumps, sample plans, drains and resumes are refused, and its
units return to context 0. -/
def leafEnd (c : Nat) (s : State) : State :=
  let mine := (List.range 64).filter fun u => nth s.cap.owner u 0 == c
  let s1 := moveUnits mine 0 (brkGone c s)
  let s2 := { s1 with cap := { s1.cap with plans := s1.cap.plans.filter (·.ctx != c) } }
  let s3 := s2.onShareTrc c fun x => { x with cores := [], div := 0, pendingSet := none }
  watchGone c s3

/-- The id becomes DRAINING(g) at T_e (R390). -/
def beginDrain (c k : Nat) (t : Ticks) (s : State) : State :=
  s.onCtx c fun x => match x.life with
    | .active g => { x with life := .draining g, endB := k, endT := t }
    | _ => x

/-- Units of a slot that a context holds after cut k. -/
def slotUnits (os : List UnitOwner) (slot c k : Nat) : List Nat :=
  (((os.filter fun o => o.slot == slot).map (·.unit)).eraseDups).filter fun u => ownerAt os slot u (k + 1) == c

/-- All units of a context below this tray block return to context 0 after cut k. -/
def returnUnits (c k : Nat) (s : State) : State :=
  let slots := (s.red.owners.map (·.slot)).eraseDups
  let back := slots.flatMap fun n => (slotUnits s.red.owners n c k).map fun u =>
    ({ slot := n, unit := u, ctx := 0, after := k } : UnitOwner)
  { s with red := { s.red with owners := s.red.owners ++ back } }

/-- The units of a leaf that a context holds by its set-up tables: those given less those released (R385, R389). -/
def State.leafUnits (s : State) (c leaf : Nat) : BitVec 64 :=
  (s.setups.filter (·.ctx == c)).foldl (fun u su => (su.entries.filter (·.leaf == leaf)).foldl (fun u e =>
    if bit su.flags 2 then u &&& ~~~e.units else u ||| e.units) u) 0

/-- A child that still holds a unit of a context after boundary k: at TRAY role the leaf of the slot, above it any leaf in
the child's scope. -/
def State.keepsUnits (s : State) (n c k : Nat) : Bool :=
  match s.cfg.role with
  | .tray => !(slotUnits s.red.owners n c k).isEmpty
  | _ => ((s.cfg.scope.filter (·.1 == n)).flatMap (·.2)).any fun leaf => s.leafUnits c leaf != 0

/-- A child that keeps no unit of the context leaves with CTX_RELEASED from epoch k + 1 (R389). -/
def releaseMembers (su : Setup) (c k : Nat) (s : State) : State :=
  (s.listedChildren su).foldl (fun s n =>
    if s.keepsUnits n c k || !s.decides || !expectedAt s.red.changes c n (k + 1) then s
    else
      let e : MemberEntry := { epoch := k + 1, subject := s.subjectAt su n, kind := s.subjectKind, join := false, reason := 7 }
      s.decideChange { ctx := c, slot := n, e := e, silent := false }) s

/-- CTX_END at T_e (R389, R390). With PARTIAL a leaf that keeps no unit of the context ends it here. -/
def ctxEnd (a : Arm) (k : Nat) (t : Ticks) (s : State) : State :=
  match s.profile, a.ctxFlag with
  | .leaf, true =>
    match s.ownEntry a with
    | some e =>
      let mine := (List.range 64).filter fun u => nth s.cap.owner u 0 == a.ctx
      let given := (unitsOf e.units).filter mine.contains
      if mine.all given.contains then leafEnd a.ctx (beginDrain a.ctx k t s) else moveUnits given 0 s
    | none => s
  | .leaf, false => leafEnd a.ctx (beginDrain a.ctx k t s)
  | .tray, true =>
    match s.setupOf a with
    | some su => releaseMembers su a.ctx k (noteOwners su 0 k s)
    | none => s
  | .tray, false => returnUnits a.ctx k (beginDrain a.ctx k t s)

end Sys2Proof.Machine
end

