-- ==== Sys2Proof/Machine/Arms.lean ====
section
/-!
DEFINITION. Two-phase changes (07 R203 to R213, R556), the slot phase (03 R101 to R104), and what each confirmed change
does at its boundary.
-/

namespace Sys2Proof.Machine

/-! ## Messages (R204) -/

def kindEpochSet : Nat := 1
def kindSlotPhase : Nat := 2
def kindStop : Nat := 3
def kindCtxStart : Nat := 4
def kindCtxEnd : Nat := 5
def kindPlanSet : Nat := 6
def kindSchedSync : Nat := 7

/-- The height of this instance (R205). -/
def State.height (s : State) : Nat :=
  match s.profile with
  | .leaf => 0
  | .tray => roleHeight s.cfg.role

def armMsg (a : Arm) : Bytes :=
  ctlMsg 0x02 (le 2 a.kind ++ le 1 (b2n a.aon) ++ le 1 a.height ++ le 8 a.id.toNat ++ le 8 a.epochT ++ le 16 a.arg.toNat
    ++ le 1 a.ctx ++ le 1 0 ++ le 2 a.gen.toNat ++ le 4 a.arg2.toNat)

def ackMsg (id : BitVec 64) (status : Nat) : Bytes := ctlMsg 0x03 (le 8 id.toNat ++ le 1 status ++ zeros 3)

def decisionMsg (id : BitVec 64) (epochT : Nat) (confirm : Bool) : Bytes :=
  ctlMsg (if confirm then 0x04 else 0x05) (le 8 id.toNat ++ le 4 epochT)

/-- A member's view of the children's answers (R207): ARM_ID and the answers; its layout is open (assumption 10). -/
def viewMsg (id : BitVec 64) (v : List (Nat × Nat)) : Bytes :=
  ctlMsg 0x03 (slice (Config.ctlPayload 0x03 (id.toNat :: v.flatMap fun x => [x.1, x.2])) 0 12)

/-- The fields of an ARM message, with nothing known yet of this node's part in it. -/
def readArm (m : Bytes) : Arm :=
  { id := BitVec.ofNat 64 (fld m 8 8), kind := fld m 4 2, aon := bit (fld m 6 1) 0, height := fld m 7 1
    epochT := fld m 16 8, arg := BitVec.ofNat 128 (fld m 24 16), ctx := fld m 40 1 % 16
    gen := BitVec.ofNat 16 (fld m 42 2), arg2 := BitVec.ofNat 32 (fld m 44 4), own := false, paired := false, mbx := none
    epochNs := 0, tEff := 0, expected := [], answers := [], twinView := [], statusSent := false, decision := none
    echoed := false, down := false, lastRepeat := 0, settled := false }

/-! ## Times (R205) -/

def Arm.ackDeadline (a : Arm) : Ticks := a.tEff - nsT (2 * a.epochNs)

/-- LVL_DEADLINE(h); H is 4 for a change that a SUMMIT-role instance originates (R556). -/
def Arm.lvlDeadline (a : Arm) (h : Nat) : Ticks :=
  a.ackDeadline - nsT (((if a.height == 3 then 4 else a.height) - h) * 5000)

def Arm.decideBy (a : Arm) : Ticks := a.tEff - nsT (a.epochNs / 4)

/-- T_eff (R205): the stop time, or the named boundary under the anchor in force (03 R554). -/
def State.armTime (s : State) (a : Arm) : Option Ticks :=
  if a.kind == kindStop then
    let t := ITime.ofBits a.arg
    if t.malformed then none else some t.toTicks
  else s.timeOf a.epochT

def Arm.origRole (a : Arm) : Nat := bits a.id.toNat 63 56
def Arm.origTeam (a : Arm) : Nat := bits a.id.toNat 55 44

/-- The arm was originated by this instance's rope team. -/
def State.originates (s : State) (a : Arm) : Bool := s.isTray && a.origRole == s.height && a.origTeam == s.cfg.team

/-! ## Acceptance (R206) -/

inductive ArmAnswer where
  | accept | refuse | silent
  deriving DecidableEq, Repr

/-- EPOCH_NS lies in the range of 01 R30. -/
def epochNsOk (n : Nat) : Bool := 31250 ≤ n && n ≤ 1000000000

/-- Can this node apply the change (R206)? A leaf without an entry in the set-up table stays silent (14 R386), and so does
a leaf that does not hold a generation that ends. A leaf holds no plans, so it has nothing to refuse PLAN_SET for
(assumption 19). -/
def State.canApply (s : State) (a : Arm) : ArmAnswer :=
  if a.kind == kindEpochSet then if epochNsOk a.arg2.toNat then .accept else .refuse
  else if a.kind == kindSlotPhase then .accept
  else if a.kind == kindStop then
    if s.isLeaf && (s.stop.phase != .idle || s.cfg.stopTreeNs == 0 || s.tim.state.settable) then .refuse else .accept
  else if a.kind == kindCtxStart then
    if s.isLeaf && (s.ownEntry a).isNone then .silent else if s.canStart a then .accept else .refuse
  else if a.kind == kindCtxEnd then
    if s.isLeaf && (s.heldGen a.ctx != some a.gen || (a.ctxFlag && (s.ownEntry a).isNone)) then .silent else .accept
  else if a.kind == kindPlanSet then
    if s.isLeaf || s.red.plans.any fun p => p.ctx == a.ctx && p.plan.planId == bits a.arg.toNat 15 0 then .accept
    else .refuse
  else .refuse

/-- The phase kinds, of which one may be armed at a time (R206, 03 R102). -/
def phaseKind (k : Nat) : Bool := k == kindEpochSet || k == kindSlotPhase

/-- The answer of this node to an ARM (R206). -/
def State.answerArm (s : State) (a : Arm) : ArmAnswer :=
  match s.armTime a with
  | none => .refuse
  | some t =>
    if t < s.now + nsT (3 * s.cfg.epochNs) then .refuse
    else if phaseKind a.kind && s.red.arms.any (fun x => phaseKind x.kind) then .refuse
    else if 16 ≤ s.red.arms.length then .refuse
    else s.canApply { a with tEff := t }

/-- The children that an arm expects (R207, 14 R386): the members in force of the change's context, at a start or a PARTIAL
end the children whose scope holds a listed leaf; at the originating summit rope team also the other teams (R556). -/
def State.expectedChildren (s : State) (a : Arm) : List Nat :=
  let c := if a.kind == kindCtxEnd || a.kind == kindPlanSet then a.ctx else 0
  let members := (slotsOf s.red.changes c).filter fun n =>
    expectedAt s.red.changes c n s.curEpoch && !absentAt s.red.changes c n s.curEpoch
  let down := if a.kind == kindCtxStart || (a.kind == kindCtxEnd && a.ctxFlag) then
      match s.setupOf a with
      | some su => s.listedChildren su
      | none => []
    else members
  let teams := if a.own && a.origRole == 3 then
      (s.lanes.filterMap fun l => match l.plan.use with
        | .peer t => some (1000 + t)
        | _ => none).eraseDups
    else []
  down ++ teams

def State.arm? (s : State) (id : BitVec 64) : Option Arm := s.red.arms.find? (·.id == id)

def State.onArm (s : State) (id : BitVec 64) (f : Arm → Arm) : State :=
  { s with red := { s.red with arms := mapIf (·.id == id) f s.red.arms } }

def State.dropArm (s : State) (id : BitVec 64) : State :=
  { s with red := { s.red with
    arms := s.red.arms.filter (·.id != id)
    ended := id :: s.red.ended } }

/-! ## Answers (R207) -/

/-- A child's merged answer: the graver of the two members' views, if either has it. -/
def Arm.childAnswer (a : Arm) (n : Nat) : Option Nat :=
  let of := fun (l : List (Nat × Nat)) => (l.find? (·.1 == n)).map (·.2)
  match of a.answers, of a.twinView with
  | some x, some y => some (max x y)
  | some x, none => some x
  | none, y => y

/-- The merged STATUS (R207): REFUSE 2, ALL 0, SOME 1. -/
def Arm.merged (a : Arm) : Nat :=
  if (a.answers ++ a.twinView).any (·.2 == 2) then 2
  else if a.expected.all fun n => a.childAnswer n == some 0 then 0
  else 1

/-- The silent children of an arm without ALL_OR_NONE whose merged STATUS is SOME (R207). -/
def Arm.silent (a : Arm) : List Nat :=
  if !a.aon && a.merged == 1 then a.expected.filter fun n => n < 1000 && (a.childAnswer n).isNone else []

/-- Note the end of an own arm for its command (16 R429): its merged STATUS, its outcome, the members declared
CTX_NO_ACK. -/
def logArm (a : Arm) (merged outcome : Nat) (s : State) : State :=
  if a.own then { s with red := { s.red with armLog := s.red.armLog ++ [(a.id, merged, outcome, a.silent.length)] } } else s

def Arm.allAnswered (a : Arm) : Bool := a.expected.all fun n => (a.childAnswer n).isSome

/-- The lanes on which a node answers: its up lanes, or at another summit rope team its peer lanes to the originating
team (R556). -/
def State.answerLanes (s : State) (a : Arm) : List Nat :=
  if s.isTray && s.cfg.role == .summit then s.lanesFor (· == .peer a.origTeam) else s.lanesFor LaneUse.isUp

/-- Side A declares CTX_NO_ACK for each silent child of a context start that goes on without it (R207, 05 R148), from the
first sheaf after the start boundary. -/
def declareNoAck (a : Arm) (s : State) : State :=
  if s.decides && a.kind == kindCtxStart then
    a.silent.foldl (fun s n =>
      let subj := match s.setupOf a with
        | some su => s.subjectAt su n
        | none => (subjectOf s.red.changes n).getD n
      let e : MemberEntry := { epoch := a.epochT + 1, subject := subj, kind := s.subjectKind, join := false, reason := 6 }
      s.decideChange { ctx := a.ctx, slot := n, e := e, silent := false }) s
  else s

/-- Send the merged STATUS up (R207). -/
def sendStatus (a : Arm) (s : State) : State :=
  let s1 := (declareNoAck a s).onArm a.id fun a => { a with statusSent := true }
  s1.sendCtlAll (s1.answerLanes a) (ackMsg a.id a.merged)

/-! ## Issue and forwarding (R206, R556) -/

/-- Forward an ARM: on the active down lanes; the originating summit team also on its peer lanes; over belay from the
originator to its twin, and once at another summit team (R556). Both members of the originating team issue it
(assumption 20). -/
def forwardArm (a : Arm) (fromBelay : Bool) (s : State) : State :=
  let m := armMsg a
  let s1 := s.sendCtlAll (s.lanesFor LaneUse.isDown) m
  let s2 := if a.own && a.origRole == 3 then s1.sendCtlAll (s1.lanesFor LaneUse.isPeer) m else s1
  if !fromBelay && (a.own || s.cfg.role == .summit) && s.twin.paired then s2.sendBelay m else s2

/-- Arm a change at this node: the arm is held, forwarded, and a leaf answers ALL at once (R207). -/
def holdArm (a : Arm) (fromBelay : Bool) (s : State) : State :=
  let t := (s.armTime a).getD 0
  let a1 := { a with own := s.originates a, paired := s.twin.paired, epochNs := s.cfg.epochNs, tEff := t }
  let a2 := { a1 with expected := s.expectedChildren a1, lastRepeat := s.curEpoch }
  let s1 := { s with red := { s.red with arms := s.red.arms ++ [a2] } }
  match s.profile with
  | .leaf =>
    let s2 := s1.onArm a.id fun a => { a with statusSent := true }
    let s3 := s2.sendCtlAll (s2.lanesFor LaneUse.isUp) (ackMsg a.id 0)
    if a.kind == kindStop then { s3 with stop := { s3.stop with phase := .armed, at_ := t, confirmed := false } } else s3
  | .tray =>
    let s2 := forwardArm a2 fromBelay s1
    if !a2.own && a2.allAnswered then sendStatus a2 s2 else s2

/-- The set-up table of a change that is not applied is given up. -/
def dropSetup (a : Arm) (s : State) : State :=
  match s.setupOf a with
  | some su => { s with setups := s.setups.filter (· != su) }
  | none => s

/-- A REFUSE answer; a refused CTX_START is reported (14 R401). -/
def refuseArm (a : Arm) (s : State) : State :=
  let s1 := if a.kind == kindCtxStart then
      dropSetup a (s.setBit .pitonEv a.ctx) else s
  s1.sendCtlAll (s1.answerLanes a) (ackMsg a.id 2)

/-- A SCHED_SYNC is adopted at the next boundary of its anchor, unless its time is malformed or its EPOCH_NS out of range
(R213). -/
def takeSchedSync (m : Bytes) (s : State) : State :=
  let a := readArm m
  let t := ITime.ofBits a.arg
  if t.malformed || !epochNsOk a.arg2.toNat then s
  else { s with sched := { s.sched with adopt := some { k0 := a.epochT, t0 := t.toTicks, epochNs := a.arg2.toNat } } }

/-- The belay lane set contains a lane. -/
def State.isBelayLane (s : State) (lane : Nat) : Bool :=
  match s.lane? lane with
  | some l => l.plan.use.isBelay
  | none => false

/-- An ARM arrives (R206): the first copy of an ARM_ID is accepted and forwarded once, or refused; later copies are
discarded. -/
def execArm (lane : Nat) (msg : Bytes) (s : State) : Res :=
  .next <| whenClocked s fun s =>
    let s := s.taken lane msg
    let a := readArm msg
    if a.kind == kindSchedSync then takeSchedSync msg s
    else if s.red.seen.contains a.id then s
    else
      let s1 := { s with red := { s.red with seen := a.id :: s.red.seen } }
      match s1.answerArm a with
      | .silent => s1
      | .refuse => refuseArm a s1
      | .accept => holdArm a (s.isBelayLane lane) s1

def execSchedSync (lane : Nat) (msg : Bytes) (s : State) : Res :=
  .next (whenClocked s fun s => takeSchedSync msg (s.taken lane msg))

/-- This instance originates a change (16 R429): its ARM_ID and the state with the arm issued. -/
def originate (kind : Nat) (aon : Bool) (epochT : Nat) (arg : BitVec 128) (ctx : Nat) (gen : BitVec 16) (arg2 : BitVec 32)
    (mbx : Option Nat) (s : State) : BitVec 64 × State :=
  let seq := s.red.armSeq + 1
  let id := s.nextArmId
  let a : Arm := { id := id, kind := kind, aon := aon, height := s.height, epochT := epochT, arg := arg, ctx := ctx
                   gen := gen, arg2 := arg2, own := true, paired := s.twin.paired, mbx := mbx, epochNs := 0, tEff := 0, expected := []
                   answers := [], twinView := [], statusSent := false, decision := none, echoed := false, down := false
                   lastRepeat := 0, settled := false }
  (id, holdArm a false { s with red := { s.red with armSeq := seq, seen := id :: s.red.seen } })

/-- The child that a lane reaches. -/
def State.laneChild (s : State) (lane : Nat) : Option Nat := s.laneSlot lane

/-- A child's STATUS on a lane. Its two members may answer apart: the graver answer counts. -/
def Arm.answer (a : Arm) (n status : Nat) : Arm :=
  { a with answers := if a.answers.any (·.1 == n) then mapIf (·.1 == n) (fun x => (n, max x.2 status)) a.answers
    else a.answers ++ [(n, status)] }

/-- An acknowledgement (R207): a child's STATUS, or over belay the twin's view. Once every expected child has answered a
node sends its merged STATUS. -/
def execArmAck (lane : Nat) (msg : Bytes) (view : List (Nat × Nat)) (s : State) : Res :=
  onTray "ARM_ACK" s fun s =>
    let s := s.taken lane msg
    let put := fun (a : Arm) => if s.isBelayLane lane then { a with twinView := view } else
      match s.laneChild lane with
      | some n => a.answer n (fld msg 12 1)
      | none => a
    let id := if s.isBelayLane lane then
        (s.red.arms.find? fun a => msg == viewMsg a.id view).map (·.id) else some (BitVec.ofNat 64 (fld msg 4 8))
    match id.bind s.arm? with
    | none => s
    | some a =>
      let s1 := s.onArm a.id put
      match s1.arm? a.id with
      | some b => if !b.own && !b.statusSent && b.allAnswered then sendStatus b s1 else s1
      | none => s1

/-- The merged STATUS goes up at LVL_DEADLINE(h) (R207). -/
def execArmLevelDeadline (id : BitVec 64) (s : State) : Res :=
  onTray "ARM_LEVEL_DEADLINE" s fun s =>
    match s.arm? id with
    | some a => if !a.own && !a.statusSent && a.lvlDeadline s.height ≤ s.now then sendStatus a s else s
    | none => s

/-- This member's view goes to its twin (R207). -/
def execBelayViewSend (id : BitVec 64) (s : State) : Res :=
  onTray "BELAY_VIEW_SEND" s fun s =>
    match s.arm? id with
    | some a => if s.twin.paired then s.sendBelay (viewMsg id a.answers) else s
    | none => s

/-! ## Decision (R208, R209) -/

/-- The decision goes down: on the down lanes, and at a summit member of a summit change on the peer lanes (R556). -/
def sendDown (a : Arm) (d : Bool) (s : State) : State :=
  let m := decisionMsg a.id a.epochT d
  let s1 := s.sendCtlAll (s.lanesFor LaneUse.isDown) m
  let s2 := if s.isTray && s.cfg.role == .summit && a.origRole == 3 then s1.sendCtlAll (s1.lanesFor LaneUse.isPeer) m
    else s1
  s2.onArm a.id fun a => { a with down := true, lastRepeat := s.curEpoch }

/-- CONFIRM unless any STATUS is REFUSE, or ALL_OR_NONE is set and any is not ALL (R208). -/
def Arm.verdict (a : Arm) : Bool := !(a.merged == 2 || (a.aon && a.merged != 0))

/-- Take a decision at the originating team: an own CANCEL ends its command. -/
def decide_ (a : Arm) (s : State) : State :=
  (declareNoAck a s).onArm a.id fun a => { a with decision := some a.verdict }

/-- The twin holds belay with this member (R208). -/
def State.withTwin (s : State) : Bool := s.twin.paired && s.belayUp

/-- This member decides two-phase changes at ACK_DEADLINE (R208, 18 R480, R481): side A, or an unpaired side B; not one that
has been detached. Where every belay lane was lost after the arm was taken, side B waits for its own deadline. -/
def State.decidesArm (s : State) (a : Arm) : Bool :=
  s.carrying && (s.cfg.side == .a || (!s.twin.paired && (!a.paired || s.belayUp)))

/-- At ACK_DEADLINE the member that decides does; with a paired twin on belay the decision goes to side B first, and down
only after its echo (R208). -/
def execArmAckDeadline (id : BitVec 64) (s : State) : Res :=
  onTray "ARM_ACK_DEADLINE" s fun s =>
    match s.arm? id with
    | some a =>
      if !a.own || s.now < a.ackDeadline || !s.decidesArm a then s
      else
        let s1 := if a.decision.isNone then decide_ a s else s
        match s1.arm? id with
        | some b =>
          match b.decision with
          | some d =>
            if b.down then s1
            else if s1.withTwin then s1.sendBelay (decisionMsg id b.epochT d)
            else sendDown b d s1
          | none => s1
        | none => s1
    | none => s

/-- Side B's echo lets side A send the decision down (R208). -/
def execDecisionEcho (lane : Nat) (msg : Bytes) (s : State) : Res :=
  onTray "DECISION_ECHO" s fun s =>
    let s := s.taken lane msg
    match s.arm? (BitVec.ofNat 64 (fld msg 4 8)) with
    | some a =>
      match a.own && s.carrying && s.cfg.side == .a && !a.down, a.decision with
      | true, some d => sendDown a d (s.onArm a.id fun a => { a with echoed := true })
      | _, _ => s
    | none => s

/-- With every belay lane lost, side B sends on a decision that it holds, or decides from its own merged view at
ACK_DEADLINE + 2 µs (R208). -/
def execSideBDecide (id : BitVec 64) (s : State) : Res :=
  onTray "SIDE_B_DECIDE" s fun s =>
    match s.arm? id with
    | some a =>
      if !a.own || !s.carrying || s.cfg.side == .a || s.belayUp || a.down then s
      else
        match a.decision with
        | some d => sendDown a d s
        | none =>
          if a.ackDeadline + nsT 2000 ≤ s.now then sendDown a a.verdict (decide_ a s) else s
    | none => s

/-- ARM_LATE of R210, in a tray block ERR_CNT_20 (17 R456). -/
def countArmLate (s : State) : State :=
  let s1 := if s.isTray then s.errCount 20 1 else s
  { s1 with red := { s1.red with armLate := s1.red.armLate + 1 } }

/-- A decision arrives (R208 to R210): the first copy is kept and forwarded; after DECIDE_BY it is ignored and counted.
Side B of the originating team echoes every copy, and forwards the first as any node does (R209). -/
def takeDecision (lane : Nat) (confirm : Bool) (msg : Bytes) (s : State) : State :=
  let late := countArmLate s
  match s.arm? (BitVec.ofNat 64 (fld msg 4 8)) with
  | none => if s.red.ended.contains (BitVec.ofNat 64 (fld msg 4 8)) then late else s
  | some a =>
    if a.decideBy < s.now then late
    else if a.own then
      if s.isBelayLane lane && s.cfg.side == .b then
        let s1 := s.sendCtl lane (decisionMsg a.id a.epochT confirm)
        if a.decision.isSome then s1
        else sendDown a confirm (s1.onArm a.id fun a => { a with decision := some confirm })
      else s
    else if a.decision.isSome then s
    else
      let s1 := s.onArm a.id fun a => { a with decision := some confirm }
      match s.profile with
      | .leaf => s1
      | .tray =>
        let s2 := sendDown a confirm s1
        if s.cfg.role == .summit && !s.isBelayLane lane && s.twin.paired then
          s2.sendBelay (decisionMsg a.id a.epochT confirm)
        else s2

def execConfirm (lane : Nat) (msg : Bytes) (s : State) : Res :=
  .next (whenClocked s fun s => takeDecision lane true msg (s.taken lane msg))

def execCancel (lane : Nat) (msg : Bytes) (s : State) : Res :=
  .next (whenClocked s fun s => takeDecision lane false msg (s.taken lane msg))

/-- Once per epoch until DECIDE_BY a node that has sent a decision down repeats it (R209). -/
def repeatDecisions (s : State) : State :=
  s.red.arms.foldl (fun s a =>
    match a.decision with
    | some d => if a.down && s.now ≤ a.decideBy && a.lastRepeat < s.curEpoch then sendDown a d s else s
    | none => s) s

/-- The decision that side A repeats in every control cell on a belay lane until side B's echo (R208). -/
def belayRepeats (s : State) : List Bytes :=
  (s.red.arms.filter fun a => a.own && s.carrying && s.cfg.side == .a && !a.echoed && !a.down && s.now ≤ a.decideBy).filterMap fun a =>
    a.decision.map fun d => decisionMsg a.id a.epochT d

/-- Every belay lane has left UP (R208): each member goes on alone. -/
def armsAlone (s : State) : State :=
  s.red.arms.foldl (fun s a =>
    match a.decision with
    | some d => if a.own && !a.down then sendDown a d s else s
    | none => s) s

/-! ## DECIDE_BY and T_eff (R210) -/

/-- A leaf drops a STOP arm that does not take effect. -/
def unarmStop (a : Arm) (s : State) : State :=
  if a.kind == kindStop && s.isLeaf && s.stop.phase == .armed then
    { s with stop := { s.stop with phase := .idle, confirmed := false } } else s

/-- A node that holds CONFIRM keeps the change for T_eff; with CANCEL it drops the arm; with neither it drops the arm and
counts ARM_ORPHAN (R210). Side A drops a decision that was never echoed while belay stayed UP (R208). -/
def execArmDecideBy (id : BitVec 64) (s : State) : Res :=
  .next <|
    match s.arm? id with
    | none => s
    | some a =>
      if s.now < a.decideBy then s
      else
        let orphan := fun s : State =>
          let s1 := dropSetup a (unarmStop a (logArm a a.merged 3 (s.dropArm id)))
          let s2 := if s1.isTray then s1.errCount 19 1 else s1
          { s2 with red := { s2.red with armOrphan := s2.red.armOrphan + 1 } }.setBit .rstState 23
        let unechoed := a.own && s.cfg.side == .a && !a.down && s.withTwin
        match a.decision with
        | some true =>
          if unechoed then orphan s
          else
            let s1 := s.onArm id fun a => { a with settled := true }
            if a.kind == kindStop && s.isLeaf then { s1 with stop := { s1.stop with confirmed := true } } else s1
        | some false => dropSetup a (unarmStop a (logArm a a.merged 2 (s.dropArm id)))
        | none => orphan s

/-- A confirmed EPOCH_SET gives a new anchor at its boundary and discards D (03 R104). -/
def applyEpochSet (a : Arm) (k : Nat) (t : Ticks) (s : State) : State :=
  { s with
    sched := { s.sched with anchor := some { k0 := k, t0 := t, epochNs := a.arg2.toNat }, d := 0, knots := [(k, t)] }
    cfg := { s.cfg with epochNs := a.arg2.toNat } }

/-- A confirmed PLAN_SET puts the plan into force from its boundary (R198). -/
def applyPlanSet (a : Arm) (k : Nat) (s : State) : State :=
  { s with red := { s.red with
    plans := mapIf (fun p => p.ctx == a.ctx && p.plan.planId == bits a.arg.toNat 15 0)
      (fun p => { p with since := some k }) s.red.plans } }

/-- What a confirmed change does at T_eff (R210). -/
def applyArm (a : Arm) (k : Nat) (t : Ticks) (s : State) : State :=
  let s1 :=
    if a.kind == kindEpochSet then applyEpochSet a k t s
    else if a.kind == kindSlotPhase then { s with sched := { s.sched with d := a.arg2.toInt } }
    else if a.kind == kindCtxStart then ctxStart a k s
    else if a.kind == kindCtxEnd then ctxEnd a k t s
    else if a.kind == kindPlanSet then applyPlanSet a k s
    else s
  logArm a a.merged 1 (s1.dropArm a.id)

/-- The changes due at boundary k, in the order in which they were armed; a STOP ends as an arm with its stop time. -/
def applyArms (k : Nat) (t : Ticks) (s : State) : State :=
  (s.red.arms.filter fun a => a.settled && (if a.kind == kindStop then a.tEff ≤ t else a.epochT == k)).foldl
    (fun s a => applyArm a k t s) s

/-! ## The slot phase (03 R101, R102) -/

/-- D of a full window: the average rounded to the nearest ns, if it exceeds SLOT_TOL and the spread does not exceed twice
that; boundaries without an edge give no deviation. -/
def slotPhaseOf (tol : Nat) (devs : List Int) : Option Int :=
  match devs with
  | [] => none
  | d :: ds =>
    let sum := devs.foldl (· + ·) 0
    let n := devs.length
    let hi := ds.foldl max d
    let lo := ds.foldl min d
    if ((nsT tol * n : Nat) : Int) < (sum.natAbs : Int) && hi - lo ≤ (nsT (2 * tol) : Nat) then
      some (nearestDiv sum (n * 2 ^ 32))
    else none

/-- The end of a window of 64 epochs at the slot master (R102). -/
def execSlotPhaseWindow (s : State) : Res :=
  onTray "SLOT_PHASE_WINDOW" s fun s =>
    if s.sched.slotWindow.length < 64 then s
    else
      let fresh := { s with sched := { s.sched with slotWindow := [] } }
      let may := s.slotMaster && s.cfg.slotSyncUse && !s.slotLost && s.sched.settled && s.carrying
        && !(s.red.arms.any fun a => phaseKind a.kind)
      match may, slotPhaseOf s.cfg.slotTol ((s.sched.slotWindow.take 64).filterMap id) with
      | true, some d => (originate kindSlotPhase true (s.curEpoch + 8) 0 0 (s.genOf 0) (BitVec.ofInt 32 d) none fresh).2
      | _, _ => fresh

end Sys2Proof.Machine
end

