-- ==== Sys2Proof/Machine/Placing.lean ====
section
/-!
DEFINITION. Placement (11 R320 to R326): which rows are scored in which epochs, the bounds of a placement, verdict codes and
records (05 R151, R152; 12 R330 to R335), and when a sheaf's verdicts are final (11 R323).
-/

namespace Sys2Proof.Machine

/-! ## Look-ups -/

def State.table? (s : State) (id : Nat) : Option Table := s.mem.tables.find? (·.img.tableId == id)

def State.onTable (s : State) (id : Nat) (f : Table → Table) : State :=
  { s with mem := { s.mem with tables := mapIf (·.img.tableId == id) f s.mem.tables } }

def Table.row? (t : Table) (r : Nat) : Option Row := t.rows.find? (·.row == r)

def Table.onRow (t : Table) (r : Nat) (f : Row → Row) : Table := { t with rows := mapIf (·.row == r) f t.rows }

def State.model? (s : State) (id : Nat) : Option HeldModel := s.mem.models.find? (·.m.modelId == id)

/-- The placement of a context in force at an epoch. -/
def placeAt (ps : List PlaceInForce) (ctx k : Nat) : Option PlaceInForce :=
  ps.foldl (fun b p => if p.ctx != ctx || k < p.since then b else match b with
    | some x => if x.since ≤ p.since then some p else some x
    | none => some p) none

/-! ## Images (R320, R331) -/

def parsePlace (b : Bytes) : Option PlaceEntry :=
  let l := fld b 5 1
  if b.length == 32 && crcOk b && fld b 24 4 == 0 && (fld b 4 1 == 1 || fld b 4 1 == 2)
      && [1, 2, 4, 8, 16, 32, 64].contains l && 1 ≤ fld b 6 1 then
    some { modelId := fld b 0 2, tableId := fld b 2 2, deep := fld b 4 1 == 2, lanes := l, nsets := fld b 6 1
           lane0 := fld b 7 1, period := fld b 8 2, nbatch := fld b 10 2, row0 := fld b 12 4, nrows := fld b 16 4
           goff := fld b 20 4 }
  else none

def parseRule (b : Bytes) : Option VerdictRule :=
  let p := fld b 2 1
  let jb := fld b 5 1
  if b.length == 32 && (p == 1 || p == 2) && fld b 3 1 < 4 && fld b 6 2 == 0 && (p != 1 || jb == 0xFF)
      && (jb != 0xFF || fld b 24 8 == 0) && decide (signed 64 (fld b 8 8) ≤ signed 64 (fld b 16 8)) then
    some { modelId := fld b 0 2, drift := p == 2, radio := bit (fld b 3 1) 0, useRaw := bit (fld b 3 1) 1, jA := fld b 4 1
           jB := if jb == 0xFF then none else some jb, tLo := signed 64 (fld b 8 8), tHi := signed 64 (fld b 16 8)
           tB := signed 64 (fld b 24 8) }
  else none

def parsePlacement (p : PlaceParts) : Option Placement :=
  let es := p.entries.map parsePlace
  let rs := p.rules.map parseRule
  let fs := p.fallbacks.map fun f => (f.1, f.2.map parsePlace)
  if es.all (·.isSome) && rs.all (·.isSome) && fs.all (fun f => f.2.all (·.isSome)) then
    some { entries := es.filterMap id, rules := rs.filterMap id, fallbacks := fs.map fun f => (f.1, f.2.filterMap id) }
  else none

/-! ## Rows of an entry (R320 to R322) -/

/-- Position p of a row in its set. -/
def PlaceEntry_pos (e : PlaceEntry) (r : Nat) : Nat := (r - e.row0) / e.nsets

def PlaceEntry_has (e : PlaceEntry) (r : Nat) : Bool := e.row0 ≤ r && r < e.row0 + e.nrows

/-- The logical lanes of a row's set. -/
def PlaceEntry_lanes (e : PlaceEntry) (r : Nat) : List Nat :=
  (List.range e.lanes).map fun j => e.lane0 + (r - e.row0) % e.nsets * e.lanes + j

/-- A slot row is scored in epoch k (R321). -/
def slotDue (e : PlaceEntry) (r k : Nat) : Bool := PlaceEntry_has e r && PlaceEntry_pos e r % e.period == k % e.period

/-- A deep row belongs to the batch of the period that begins at ks (R322). -/
def deepDue (e : PlaceEntry) (r ks : Nat) : Bool :=
  PlaceEntry_has e r && ks % e.period == 0 && PlaceEntry_pos e r % e.nbatch == ks / e.period % e.nbatch

/-- The job of a model runs for an epoch (09 R271, R272). -/
def State.jobRuns (s : State) (ctx model k : Nat) : Bool :=
  !(s.mem.stopped.any fun j => j.ctx == ctx && j.model == model && j.since < k)

/-- A row that has not had its first update is scored in no epoch before that (09 R261, 11 R319). -/
def Row.began (r : Row) (k : Nat) : Bool := r.v.epoch != r.old.epoch || r.v.epoch < k

/-- The verdict records due with epoch k of a context (R323): entry, row, SCORED_EPOCH. A deep period whose placement was
replaced before it ended is due no record (assumption 28). -/
def State.dueRows (s : State) (ctx k : Nat) : List (PlaceEntry × Nat × Nat) :=
  match placeAt s.mem.places ctx k with
  | none => []
  | some p =>
    p.entries.flatMap fun e =>
      match s.model? e.modelId, s.table? e.tableId with
      | some _, some t =>
        let rows := (t.rows.filter (·.began k)).map (·.row)
        if !e.deep then
          if s.jobRuns ctx e.modelId k then (rows.filter fun r => slotDue e r k).map fun r => (e, r, k) else []
        else if k % e.period == 0 && e.period ≤ k then
          let ks := k - e.period
          let old := match placeAt s.mem.places ctx ks with
            | some q => q.entries.contains e
            | none => false
          if old && s.jobRuns ctx e.modelId ks then (rows.filter fun r => deepDue e r ks).map fun r => (e, r, ks) else []
        else []
      | _, _ => []

def State.job? (s : State) (model row ks : Nat) : Option ScoreJob :=
  s.mem.jobs.find? fun j => j.model == model && j.row == row && j.ks == ks

def State.onJob (s : State) (model row ks : Nat) (f : ScoreJob → ScoreJob) : State :=
  { s with mem := { s.mem with jobs := mapIf (fun j => j.model == model && j.row == row && j.ks == ks) f s.mem.jobs } }

/-- Every verdict record due with epoch k is final. -/
def State.verdictsDone (s : State) (ctx k : Nat) : Bool :=
  (s.dueRows ctx k).all fun x => match s.job? x.1.modelId x.2.1 x.2.2 with
    | some j => j.record.isSome
    | none => false

/-- The finished records of epoch k, in the order of 05 R152. -/
def State.recordsOf (s : State) (ctx k : Nat) : List Bytes :=
  sortBy (fun b => fld b 16 4 * 2 ^ 16 + fld b 20 2)
    ((s.mem.jobs.filter fun j => j.ctx == ctx && j.pub == k).filterMap (·.record))

/-! ## Verdicts (12 R330 to R335) -/

def vNormal : Nat := 0
def vNone : Nat := 0xFF

/-- The code of a scored pair (R332). -/
def verdictOf (rule : Option VerdictRule) (status : Nat) (raw : List Int) (outs : List Nat) : Nat :=
  if status != 0 then vNone
  else match rule with
    | none => vNormal
    | some r =>
      let value := fun j => if r.useRaw then nth raw j 0 else ((nth outs j 0 : Nat) : Int)
      let a := value r.jA
      if !r.drift then
        if r.tHi ≤ a then (if r.radio then 3 else 2) else if r.tLo ≤ a then 1 else vNormal
      else
        let self := decide (r.tHi ≤ a)
        let cohort := match r.jB with
          | some j => decide (r.tB ≤ value j)
          | none => false
        if self && cohort then 0x13 else if self then 0x11 else if cohort then 0x12
        else if r.tLo ≤ a then 0x10 else vNormal

/-- The row of the action table that applies (R335): the lowest-numbered match. -/
def actionOf (rows : List ActRow) (model verdict : Nat) : Option (Nat × ActRow) :=
  (rows.zipIdx.find? fun x => x.1.modelId == model && x.1.verdict == verdict).map fun x => (x.2, x.1)

/-- The action table in force at an epoch (R334). -/
def actRowsAt (l : List (Nat × List ActRow)) (k : Nat) : List ActRow :=
  (l.foldl (fun b x => if x.1 ≤ k && b.1 ≤ x.1 then x else b) (0, [])).2

/-- ACTION of a record (R335). -/
def State.actionFor (s : State) (ctx model status verdict k : Nat) : Nat :=
  if ctx == 0 && status == 0 && s.cfg.role == .tray && s.isTray then
    match actionOf (actRowsAt s.act.rows k) model verdict with
    | some (i, _) => i
    | none => 0xFFFF
  else 0xFFFF

/-- A verdict record (05 R151). -/
def verdictBytes (j : ScoreJob) (nOut verdict action : Nat) (raw : List Int) (outs : List Nat) : Bytes :=
  sealCrc (le 8 j.pub ++ le 8 j.ks ++ le 4 j.entity.toNat ++ le 2 j.model ++ le 1 j.ctx ++ le 1 nOut ++ le 2 j.gen.toNat
    ++ le 1 verdict ++ le 1 j.status ++ le 2 action ++ zeros 2
    ++ ((List.range 8).flatMap fun i => le 6 (code 48 (nth raw i 0)))
    ++ ((List.range 8).flatMap fun i => le 4 (nth outs i 0)) ++ zeros 12)

/-- Is a record published (05 R152)? -/
def published (b : Bytes) : Bool := fld b 26 1 != vNormal || fld b 27 1 != 0

/-- A summary entry (12 R333). -/
def summaryBytes (rule : Option VerdictRule) (b : Bytes) : Bytes :=
  let out := fun j => fld b (80 + 4 * j) 4
  let (a, c) := match rule with
    | some r => (out r.jA, match r.jB with
        | some j => out j
        | none => 0)
    | none => (0, 0)
  le 4 (fld b 16 4) ++ le 2 (fld b 20 2) ++ le 1 (fld b 26 1) ++ le 1 (fld b 22 1) ++ le 8 (fld b 8 8) ++ le 4 a ++ le 4 c
    ++ le 2 (fld b 28 2) ++ le 2 (fld b 24 2) ++ zeros 4

/-- The verdict rule of a model: the first, where an image has two of one MODEL_ID (assumption 181). -/
def ruleOf (p : Option PlaceInForce) (model : Nat) : Option VerdictRule :=
  p.bind fun p => p.p.rules.find? (·.modelId == model)

/-- The summary section of a sheaf (12 R333): published records with STATUS OK and VERDICT other than NORMAL, at most
1,024. -/
def summarySection (p : Option PlaceInForce) (rs : List Bytes) : Bytes :=
  let es := rs.filter fun b => fld b 27 1 == 0 && fld b 26 1 != vNormal
  le 4 (min 1024 es.length) ++ le 1 (b2n (decide (1024 < es.length))) ++ zeros 59
    ++ (es.take 1024).flatMap fun b => summaryBytes (ruleOf p (fld b 20 2)) b

/-! ## A sheaf's rows and verdicts are final (R323, 07 R201) -/

/-- Every row that a context's plan observes stands at the sheaf's epoch. -/
def State.rowsReady (s : State) (h : Sheaf) : Bool :=
  s.mem.tables.all fun t => t.ctx != h.ctx || t.rows.all (fun r => h.k ≤ r.v.epoch) ||
    !(h.plan.fields.any fun f => f.srcKind == 4 && (TableImg_col t.img f.srcId).isSome)

/-- Make the verdicts of an open sheaf final once every record due has its result and every observed row its update. -/
def refreshVerdicts (ctx k : Nat) (s : State) : State :=
  match s.red.sheaves.find? fun h => h.ctx == ctx && h.k == k && h.level != .shard && !h.verdictsFinal with
  | none => s
  | some h =>
    if s.verdictsDone ctx k && s.rowsReady h then
      let rs := (s.recordsOf ctx k).filter published
      let sum := if h.level == .fleet then [] else summarySection (placeAt s.mem.places ctx k) rs
      s.onSheaf h fun x => { x with verdicts := rs, verdictsFinal := true, summary := sum }
    else s

/-! ## A placement takes effect (R324, 09 R266) -/

/-- The hot rows that the placements in force at an epoch call for. -/
def State.hotRows (s : State) (k : Nat) : List (Nat × Nat) :=
  let ctxs := (s.mem.places.map (·.ctx)).eraseDups
  (ctxs.flatMap fun c => match placeAt s.mem.places c k with
    | none => []
    | some p => p.entries.flatMap fun e => if e.deep then [] else match s.table? e.tableId with
      | some t => ((t.rows.map (·.row)).filter (PlaceEntry_has e)).map fun r => (e.tableId, r)
      | none => []).eraseDups

/-- Where a hot row is installed: in each bank group of its set, from line GOFF + p ROW_LEN of the share's part on (R320).
Lane i reads group i, also where a spare does its work (09 R265). -/
def State.hotPlaces (s : State) (k table row : Nat) : List (Nat × Nat) :=
  let ctxs := (s.mem.places.map (·.ctx)).eraseDups
  (ctxs.flatMap fun c => match placeAt s.mem.places c k with
    | none => []
    | some p => p.entries.flatMap fun e => match e.tableId == table && !e.deep && PlaceEntry_has e row, s.table? table with
      | true, some t => (PlaceEntry_lanes e row).map fun l => (nth p.lanes l l, e.goff + PlaceEntry_pos e row * t.img.rowLen)
      | _, _ => []).eraseDups

/-- Mark the hot rows: a newly hot row waits for its install, as does one that moves to other lines or groups; a row that
no model reads leaves the Granary. -/
def setHot (k : Nat) (s : State) : State :=
  let want := if s.isTray then s.hotRows k else []
  let put := fun w : Nat × Nat =>
    let at_ := s.hotPlaces k w.1 w.2
    match s.mem.hot.find? fun h => h.table == w.1 && h.row == w.2 && h.places == at_ with
    | some h => h
    | none => ({ table := w.1, row := w.2, places := at_, vers := [], held := [] } : HotRow)
  { s with mem := { s.mem with
    hot := want.map put
    tables := s.mem.tables.map fun t =>
      { t with rows := t.rows.map fun r => { r with hot := want.contains (t.img.tableId, r.row) } } } }

/-- A placement is in force from boundary k; a context keeps those that earlier epochs may still need. -/
def putPlacement (p : PlaceInForce) (k : Nat) (s : State) : State :=
  let keep := s.mem.places.filter fun q => q.ctx != p.ctx || k < q.since + 8192 || some q == placeAt s.mem.places p.ctx k
  setHot k { s with mem := { s.mem with places := keep ++ [{ p with since := k }] } }

/-- The lanes of the profile. -/
def State.laneCount (s : State) : Nat := if s.isTray then 64 else 4

/-- In-service lanes in ascending order (R324). -/
def State.lanesIn (s : State) : List Nat :=
  match s.unit? clsLane with
  | some u => (List.range s.laneCount).filter fun i => !u.lost.contains i
  | none => List.range s.laneCount

/-- A row needs a lane that was lost without a spare (10 R300). -/
def State.laneLost (s : State) (p : PlaceInForce) (e : PlaceEntry) (r : Nat) : Bool :=
  (PlaceEntry_lanes e r).any fun l => !s.lanesIn.contains (nth p.lanes l l)

/-! ## The bounds of a placement (R325, R326) -/

/-- The set tables and lanes of an entry are within the profile, its model and table are held, its periods in range. Rows
past the end of the table, and a SLOT entry on a BACK table, break it too (assumption 181). -/
def State.entryOk (s : State) (ctx : Nat) (e : PlaceEntry) : Bool :=
  let lanes := s.laneCount
  (match s.model? e.modelId with
    | some m => m.m.ctx == ctx
    | none => false) &&
  (match s.table? e.tableId with
    | some t => t.ctx == ctx && (t.img.slot || e.deep) && e.row0 + e.nrows ≤ t.rows.length
    | none => false) &&
  e.lane0 + e.nsets * e.lanes ≤ lanes &&
  (if e.deep then s.isTray && 2 ≤ e.period && e.period ≤ 4096 && 1 ≤ e.nbatch
   else 1 ≤ e.period && e.period ≤ 256 && e.nbatch == 0)

/-- The constraints of a rule (12 R331). -/
def State.ruleOk (s : State) (ctx : Nat) (es : List PlaceEntry) (r : VerdictRule) : Bool :=
  (es.any fun e => e.modelId == r.modelId) && (!r.radio || ctx == 0) &&
  match s.model? r.modelId with
  | some m => r.jA < m.m.nOut && (match r.jB with
      | some j => j < m.m.nOut
      | none => true)
  | none => false

/-- The set q of an entry that a lane belongs to, and the lane's place in it. -/
def PlaceEntry_place (e : PlaceEntry) (lane : Nat) : Option (Nat × Nat) :=
  if e.lane0 ≤ lane && lane < e.lane0 + e.nsets * e.lanes then
    some ((lane - e.lane0) / e.lanes, (lane - e.lane0) % e.lanes) else none

/-- Numbers below n that are r modulo d. -/
def countMod (n r d : Nat) : Nat := (n + d - 1 - r % d) / d

/-- The rows of set q: their positions p run from 0. -/
def PlaceEntry_rows (e : PlaceEntry) (q : Nat) : Nat := countMod e.nrows q e.nsets

def stepsOf (m : Model) (ts : List Nat) : Nat := sumNat (ts.map (treeSteps m))

/-- Node-steps of an entry on a lane in epoch k (R321, R322, R326). -/
def State.laneSteps (s : State) (e : PlaceEntry) (lane k : Nat) : Nat :=
  match s.model? e.modelId, PlaceEntry_place e lane with
  | some h, some (q, j) =>
    let m := h.m
    let (a, b) := laneTrees m.ntrees e.lanes j
    let n := b - a
    let range := (List.range n).map (· + a)
    if e.deep then
      let i := k % e.period
      let lo := (i - 1) * n / (e.period - 1)
      let hi := i * n / (e.period - 1)
      if i = 0 then 0
      else countMod (PlaceEntry_rows e q) (k / e.period) e.nbatch
        * ((if i = 1 then 1 else 0) + stepsOf m ((range.drop lo).take (hi - lo)))
    else countMod (PlaceEntry_rows e q) k e.period * (1 + stepsOf m range)
  | _, _ => 0

/-- After how many epochs the work of an entry recurs. -/
def PlaceEntry_cycle (e : PlaceEntry) : Nat := max 1 (if e.deep then e.period * e.nbatch else e.period)

/-- In every epoch the node-steps of the entries on a lane keep within a bound given in tenths. -/
def State.stepsOk (s : State) (es : List PlaceEntry) (lane sc bound : Nat) : Bool :=
  (List.range (es.foldl (fun c e => Nat.lcm c (PlaceEntry_cycle e)) 1)).all fun k =>
    decide (10 * sc * sumNat (es.map fun e => s.laneSteps e lane k) ≤ bound)

/-- Resident nodes of an entry on a lane. -/
def State.laneNodes (s : State) (e : PlaceEntry) (lane : Nat) : Nat :=
  match s.model? e.modelId, PlaceEntry_place e lane with
  | some h, some (_, j) =>
    if h.m.streamed then 0
    else
      let (a, b) := laneTrees h.m.ntrees e.lanes j
      sumNat ((List.range (b - a)).map fun i => treeNodes h.m (a + i))
  | _, _ => 0

/-- Installed lines of an entry in a group: hot rows, or the frozen copies of a batch. -/
def State.laneLines (s : State) (e : PlaceEntry) (lane : Nat) : Nat :=
  match s.table? e.tableId, PlaceEntry_place e lane with
  | some t, some (q, _) =>
    let n := PlaceEntry_rows e q
    (if e.deep then (n + e.nbatch - 1) / e.nbatch else n) * t.img.rowLen
  | _, _ => 0

/-- SLOT entries that share their installed rows (R320) count once. -/
def shareRows (es : List PlaceEntry) : List PlaceEntry :=
  es.foldl (fun acc e => if !e.deep && acc.any (fun x => !x.deep && x.tableId == e.tableId && x.lanes == e.lanes
    && x.nsets == e.nsets && x.lane0 == e.lane0 && x.row0 == e.row0 && x.nrows == e.nrows && x.goff == e.goff)
    then acc else acc ++ [e]) []

/-- Bytes that a deep entry streams and installs in a period, over all lanes. -/
def State.streamBytes (s : State) (e : PlaceEntry) : Nat :=
  match s.model? e.modelId, s.table? e.tableId with
  | some h, some t =>
    (if h.m.streamed then 16 * e.nsets * sumNat ((List.range h.m.ntrees).map (treeNodes h.m)) else 0)
      + (e.nrows + e.nbatch - 1) / e.nbatch * t.img.rowLen * 64 * e.lanes
  | _, _ => 0

/-- The bounds of R326 for the entries of a context. -/
def State.budgetOk (s : State) (es : List PlaceEntry) : Bool :=
  let sc := s.cfg.shareCount
  let lanes := List.range s.laneCount
  let bank := (if s.isTray then 65536 else 8192) / sc
  let hot := (if s.isTray then 2 * 2 ^ 20 else 65536) / sc
  let e0 := s.cfg.epochNs
  let sum := fun (f : PlaceEntry → Nat) => sumNat (es.map f)
  let deeps := es.filter (·.deep)
  let slotOk := fun l => s.stepsOk (es.filter (!·.deep)) l sc (64 * (if s.isTray then 14000 else e0 - 700))
  let deepOk := fun l => s.stepsOk deeps l sc (64 * (e0 - 14000))
  let nodesOk := fun l => decide (sum (fun e => s.laneNodes e l) ≤ bank)
  let linesOk := fun l => decide (64 * sumNat ((shareRows es).map fun e => s.laneLines e l) ≤ hot)
  let streamOk := deeps.all fun e =>
    decide (sumNat (deeps.map s.streamBytes) ≤ (e.period - 1) * 512 * 64 * ((e0 * 125 / 320 - 2176) / (2 * sc)))
  lanes.all (fun l => slotOk l && deepOk l && nodesOk l && linesOk l) && streamOk

end Sys2Proof.Machine
end

