-- ==== Sys2Proof/Machine/Thresher.lean ====
section
/-!
DEFINITION. The Thresher (09 R254 to R264, 11 R315 to R319, R327 to R329): the inputs of a row, its update for an epoch,
history copies and repair; also the leaf's feature updates.
-/

namespace Sys2Proof.Machine

/-! ## Tables -/

/-- Rows as they exist from boundary b on (16 R437): zeroed, AGE 0; their first update is that of epoch b (assumption
26). -/
def freshRow (rowLen b : Nat) (x : BitVec 32 × Nat) : Row :=
  let v : RowVer := { epoch := b - 1, age := 0, absent := false, poisoned := false, badLines := []
                      words := List.replicate (16 * rowLen) 0 }
  { row := x.2, entity := x.1, v := v, old := v, skips := 0, hot := false, seeded := false }

def newTable (ctx : Nat) (gen : BitVec 16) (img : TableImg) (b : Nat) : Table :=
  { ctx := ctx, gen := gen, img := img, rows := img.entities.zipIdx.map (freshRow img.rowLen b), rebuilding := false
    seeded := false, poisonAny := false, lastEpoch := b - 1, ckptEpoch := 0, seed := none, ring1s := [], ring1m := [] }

def entityLeaf (e : BitVec 32) : Nat := e.toNat / 2 ^ 15

/-! ## Records (R261, 13 R362) -/

/-- A record from the raw ring, when its block decodes (13 R362, R368). -/
def State.rawRecord (s : State) (slot k : Nat) : Option (Except GlumeErr Bytes) :=
  (s.raw.blocks.find? fun b => b.slot == slot && b.k == k).map fun b =>
    glumeDecode b.poisoned (some (k, (subjectOf s.red.changes slot).getD 0 % 2 ^ 17 + 2 ^ 24)) b.bytes

/-- A record that is wanted from the raw ring does not decode (13 R362). -/
def State.noteDecode (s : State) (k slot : Nat) : State :=
  match s.landed? slot k, s.rawRecord slot k with
  | none, some (.error e) => decFail e s
  | _, _ => s

/-- A leaf's record of epoch k: the landing area, else the raw ring. -/
def State.recordOf (s : State) (slot k : Nat) : Option Bytes :=
  match s.profile with
  | .leaf => (s.cap.ring.find? fun r => r.k == k && r.whole && !r.lost).map fun r => r.record s.cfg.leafId false
  | .tray =>
    match s.landed? slot k with
    | some b => some b
    | none => match s.rawRecord slot k with
      | some (.ok b) => some b
      | _ => none

/-- What an input gives a column. -/
inductive Inp where
  /-- No update: a delta under FIRST, a source that is not this context's or does not exist. -/
  | none
  /-- A LAT_DELAY of 0xFFFF: the column's MISSING code (R315). -/
  | missing
  /-- A line of the record that holds the input is poisoned (R315). -/
  | poisoned
  /-- The tray block's own memory returned the input poisoned (09 R270, R271). -/
  | bad
  /-- The source exists and holds no value (assumption 27). -/
  | gone
  | value (v : Int)
  /-- The input does not stand at k - 1 yet (R316). -/
  | wait
  deriving DecidableEq, Repr

/-- The context owns a stook's unit: at a tray in cut k, at a leaf now. -/
def State.ownsIn (s : State) (ctx slot stook k : Nat) : Bool :=
  match s.profile with
  | .tray => s.ownsStook ctx slot stook k
  | .leaf => match s.cfg.stooks.find? (·.s == stook) with
    | some c => nth s.cap.owner c.unit 0 == ctx
    | none => false

def ofObs (sg : Bool) : Obs → Inp
  | .none => .none
  | .poisoned => .poisoned
  | .value v => .value (if sg then v.toInt else (v.toNat : Int))

/-- The header of a stook in a record with its offset. -/
def recStookHdr (b : Bytes) (stook : Nat) : Option (Nat × Nat) :=
  ((recHeaders b).zipIdx.find? fun x => hdrStook x.1 == stook).map fun x => (x.1, 64 + 16 * x.2)

/-- A header that holds the stop time in place of REGION_CYC (04 R117). -/
def hdrStopped (h : Nat) : Bool := bits h 87 86 != 0

/-- LAT_DELAY and the REGION_CYC delta of a stook (R314); a stopped region has no REGION_CYC. -/
def headerInput (lat : Bool) (stook : Nat) (b : Bytes) (prev : Option Bytes) : Inp :=
  match recStookHdr b stook with
  | none => .none
  | some (h, o) =>
    if recPoisoned b o then .poisoned
    else if lat then (if bits h 127 112 == 0xFFFF then .missing else .value (bits h 127 112))
    else if recFirst b then .none
    else
      match prev.bind fun p => (recStookHdr p stook).map fun x => (p, x.1, x.2) with
      | some (p, hp, op) =>
        if recPoisoned p op then .poisoned
        else if hdrStopped h || hdrStopped hp then .gone
        else .value ((bits h 79 32 + 2 ^ 48 - bits hp 79 32) % 2 ^ 48 : Nat)
      | none => .none

/-- A counter or health source of a leaf record (R188, R314): deltas are skipped under FIRST (R259). -/
def counterInput (s : State) (ctx slot k kind id : Nat) (b : Bytes) (prev : Option Bytes) : Inp :=
  match kind with
  | 1 =>
    if recFirst b || !s.ownsIn ctx slot (id / 256) k then .none
    else match counterOff b id, prev.bind fun p => (counterOff p id).map fun q => (p, q) with
      | some (o, _), some (p, po, ph) => ofObs false (if bit ph 83 then deltaAt b o none else deltaAt b o (some (p, po)))
      | some (o, _), none => ofObs false (deltaAt b o none)
      | none, _ => .none
  | 2 =>
    if recFirst b || ctx != 0 then .none
    else match prev with
      | some p => ofObs false (deltaAt b (recHealthOff b + 8 * id) (some (p, recHealthOff p + 8 * id)))
      | none => .none
  | _ => if ctx != 0 then .none else ofObs true (deltaAt b (recHealthOff b + 8 * id) none)

/-- The value of a field state as a source (R316). -/
def fieldValue (p : Plan) (lv : Level) (fs : List FieldSt) (i : Nat) : Option Int :=
  match p.fields[i]? with
  | none => none
  | some f =>
    if f.opAt lv == .quant then
      match p.fields[f.srcId]?, fs[f.srcId]? with
      | some g, some (.hist h) => some (signed 64 (fld (quantBytes f g (g.opAt lv) h) 0 8))
      | _, _ => none
    else match fs[i]? with
      | some (.sum v) => some (v.setWidth 64).toInt
      | some (.pair v _) => some v.toInt
      | some (.count n) => some n.toInt
      | _ => none

/-- A field of the context's tray sheaf of an epoch (R316): it waits while that sheaf is still open. -/
def trayField (s : State) (ctx k i : Nat) : Inp :=
  match s.red.sheaves.find? fun h => h.ctx == ctx && h.k == k && h.level == .tray with
  | some h =>
    if !h.sent then .wait
    else match fieldValue h.plan .tray h.fields i with
      | some v => .value v
      | none => .none
  | none => .none

/-- A field of a child sheaf's body (R317). -/
def childField (p : Plan) (lv : Level) (b : Bytes) (i : Nat) : Inp :=
  let body := slice b (fld b 72 4) (fld b 76 4)
  let offs := fieldOffsets p lv
  match p.fields[i]? with
  | none => .none
  | some f =>
    let o := offs.getD i 0
    if f.opAt lv == .quant then .value (signed 64 (fld body o 8))
    else
      let fs := p.fields.zipIdx.map fun x => if x.2 = i then readField f (f.opAt lv) (slice body o (f.size (f.opAt lv)))
        else FieldSt.none
      match fieldValue p lv fs i with
      | some v => .value v
      | none => .none

/-- The summary entry that names an entity (R317, 12 R333): the first in order. -/
def summaryEntry (sum : Bytes) (ent : BitVec 32) : Option Bytes :=
  ((List.range (fld sum 0 4)).map fun i => slice sum (64 + 32 * i) 32).find? fun e => fld e 0 4 == ent.toNat

/-- A word of a related row of the same leaf as it stood at k - 1 (R316), signed (R315); poison in its line travels with
it (09 R270). In a rebuild the related row may have gone further than it is held (assumption 27). -/
def rowColInput (t : Table) (leaf rel word k : Nat) : Inp :=
  match t.rowOf leaf rel with
  | none => .none
  | some r =>
    let get := fun v : RowVer =>
      if v.badLines.contains 0 || v.badLines.contains (word / 16) then Inp.bad else .value (wordAt v.words word).toInt
    if r.v.epoch + 1 = k then get r.v
    else if r.v.epoch = k && r.old.epoch + 1 = k then get r.old
    else if t.rebuilding && k ≤ r.v.epoch then .gone
    else .wait

/-- The rows that read a row by ROW_COL (R316). -/
def Table.readers (t : Table) (r : Row) : List Row :=
  let leaf := r.entity.toNat / 2 ^ 15
  let les := (t.img.upds.filter fun e => e.srcKind == 9 && e.sstride == r.entity.toNat % 2 ^ 15).flatMap updEntities
  les.filterMap (t.rowOf leaf)

/-! ## The update of a row -/

/-- The entries that feed a row, with their repetition. -/
def feeds (t : TableImg) (ent : BitVec 32) : List (UpdEntry × Nat) :=
  t.upds.flatMap fun e => ((List.range e.rep).filter fun i => e.le0 + i * e.estride == ent.toNat % 2 ^ 15).map fun i => (e, i)

/-- What a row's contributor brings for an epoch (R261): nothing yet, its absence, or its record with the one before. -/
inductive Feed where
  | wait
  | absent
  | leaf (slot : Nat) (b : Bytes) (prev : Option Bytes)
  | child (bytes summary : Bytes)

/-- A row of a rope team: local entity 0, fed from fields of its child's sheaf (R317). -/
def teamRow (t : TableImg) (ent : BitVec 32) : Bool :=
  ent.toNat % 2 ^ 15 == 0 && (feeds t ent).any fun x => x.1.srcKind == 0x0C

/-- The slot whose contribution feeds a row: its leaf, its rope team, or the child whose scope holds its leaf (R317). -/
def State.rowSlot (s : State) (t : TableImg) (ent : BitVec 32) : Option Nat :=
  if s.cfg.role == .tray then s.leafSlot (entityLeaf ent)
  else if teamRow t ent then
    (s.red.changes.find? fun c => c.e.subject == entityLeaf ent && c.e.kind != 1 && c.slot < belowSlot).map (·.slot)
  else s.childOfLeaf (entityLeaf ent)

/-- The feed of a row for epoch k. A slot that the context does not expect is absent. During a rebuild a record that
cannot be decoded is absent too (13 R362). To its own tables a leaf is absent in an epoch without a cut, in one whose
record was lost, and in one whose record lacks the record before it (05 R143; assumption 159). -/
def State.feed (s : State) (t : Table) (ent : BitVec 32) (k : Nat) : Feed :=
  match s.profile with
  | .leaf =>
    match s.recordOf 0 k with
    | some b =>
      let prev := s.recordOf 0 (k - 1)
      if recFirst b || prev.isSome then .leaf 0 b prev else .absent
    | none => if s.cap.ring.any (fun r => r.k == k && !r.lost) || s.curEpoch < k then .wait else .absent
  | .tray =>
    match s.rowSlot t.img ent with
    | none => .absent
    | some slot =>
      if absentAt s.red.changes t.ctx slot k || !expectedAt s.red.changes t.ctx slot k then .absent
      else if s.cfg.role == .tray then
        match s.recordOf slot k with
        | some b =>
          let prev := s.recordOf slot (k - 1)
          if recFirst b || prev.isSome then .leaf slot b prev else .wait
        | none => if t.rebuilding && (s.rawRecord slot k).isSome then .absent else .wait
      else
        match s.red.children.find? fun c => c.ctx == t.ctx && c.slot == slot && c.k == k with
        | some c => .child c.bytes c.summary
        | none => .wait

/-- The input of one repetition of an entry. A CHILD_FIELD feeds only the row of its rope team (R317). -/
def State.input (s : State) (t : Table) (ent : BitVec 32) (k : Nat) (f : Feed) (e : UpdEntry) (i : Nat) : Inp :=
  let id := e.srcId + i * e.sstride
  match e.srcKind, f with
  | 9, _ => rowColInput t (entityLeaf ent) e.sstride e.srcId k
  | 0x0A, _ => trayField s t.ctx (k - 1) id
  | 4, .leaf slot b prev => if s.ownsIn t.ctx slot id k then headerInput true id b prev else .none
  | 5, .leaf slot b prev => if s.ownsIn t.ctx slot id k then headerInput false id b prev else .none
  | 0x0C, .child b _ =>
    match planAt s.red.plans t.ctx k, teamRow t.img ent with
    | some p, true => childField p (if s.cfg.role == .chassis then .tray else .chassis) b id
    | _, _ => .none
  | 0x0D, .child _ sum =>
    match summaryEntry sum ent with
    | some x => .value (BitVec.ofNat 32 (fld x (4 * id) 4)).toInt
    | none => .none
  | n, .leaf slot b prev => counterInput s t.ctx slot k n id b prev
  | _, _ => .none

/-- One input of the row with its column. -/
structure RowInput where
  col : Column
  entry : UpdEntry
  inp : Inp

def State.inputs (s : State) (t : Table) (ent : BitVec 32) (k : Nat) (f : Feed) : List RowInput :=
  (feeds t.img ent).filterMap fun x =>
    (TableImg_col t.img x.1.colId).map fun c => { col := c, entry := x.1, inp := s.input t ent k f x.1 x.2 }

/-- A column of which one input is poisoned takes none in that epoch (R315, 09 R271). -/
def columnWise (ins : List RowInput) : List RowInput :=
  ins.map fun x =>
    let mine := ins.filter (·.col.colId == x.col.colId)
    if mine.any (·.inp == .bad) then { x with inp := .bad }
    else if mine.any (·.inp == .poisoned) then { x with inp := .poisoned }
    else x

/-- Apply one input (R258, R315, R271): an update that reads poisoned memory is not applied and marks the row. -/
def RowInput.apply (r : RowInput) (pre : List (BitVec 32)) (v : RowVer) : RowVer :=
  let isShift : Bool := r.col.op == ColOp.shift
  let put := fun (x : Option Int) =>
    let lines := match x with
      | some x => touched r.col x
      | none => if isShift then touched r.col 0 else []
    if lines.any v.badLines.contains then { v with poisoned := true }
    else
      match x with
      | some x => { v with words := applyOp r.col pre v.words x }
      | none => if isShift then { v with words := shiftIn r.col v.words r.col.missing } else v
  match r.inp with
  | .value x => put (some (convert r.entry r.col.format x))
  | .missing => put (some (match r.col.format with
      | .u32 | .cnt32 => (r.col.missing.toNat : Int)
      | _ => r.col.missing.toInt))
  | .poisoned | .gone => put none
  | .bad => { v with poisoned := true }
  | .none | .wait => v

/-- Saturating count of 32 bits. -/
def inc32 (n : Nat) : Nat := min 0xFFFFFFFF (n + 1)

/-- FIRST of a feed. -/
def Feed.first : Feed → Bool
  | .leaf _ b _ => recFirst b
  | _ => false

/-- The seed values that a row takes before this epoch's updates (11 R328). -/
def Table.seedFor (t : Table) (r : Row) (k : Nat) (first : Bool) : Option (List (Nat × Int)) :=
  match t.seed with
  | some sd => if !r.seeded && sd.start ≤ k && !first then some sd.values else none
  | none => none

/-- The row after epoch k (R258 to R261, R328): `none` where it must wait, for its inputs, for rows that still read it as it
stands now (R316), or for the repair of its poisoned header, which is no longer readable (R271). -/
def State.rowUpdate (s : State) (t : Table) (r : Row) (k : Nat) : Option Row :=
  if r.v.epoch + 1 ≠ k || r.v.badLines.contains 0 || (t.readers r).any (fun q => q.v.epoch + 1 < k) then none
  else
    match s.feed t r.entity k with
    | .wait => none
    | .absent =>
      some { r with
        v := { skipRow t.img.cols r.v with epoch := k, absent := true }
        old := r.v
        skips := inc32 r.skips }
    | f =>
      let ins := columnWise (s.inputs t r.entity k f)
      if ins.any fun x => x.inp == .wait then none
      else
        let sd := t.seedFor r k f.first
        let v0 := match sd with
          | some vals => { r.v with words := seedWords t.img.cols vals r.v.words, age := maxWin t.img }
          | none => r.v
        let v1 := ins.foldl (fun v x => x.apply v0.words v) v0
        some { r with
          v := { v1 with epoch := k, absent := false, age := if f.first then 0 else inc32 v0.age }
          old := r.v
          seeded := r.seeded || sd.isSome }

/-! ## Effects of an update -/

/-- The row epochs' least value (R255, R261). -/
def Table.least (t : Table) : Nat :=
  match t.rows with
  | [] => t.lastEpoch
  | r :: rs => rs.foldl (fun m x => min m x.v.epoch) r.v.epoch

/-- Two tags, which keep 16 bits of their epochs (R265), name the same version. -/
def sameTag (a b : Nat) : Bool := a % 2 ^ 16 == b % 2 ^ 16

/-- The tag of epoch e is not after k: tags are compared modulo 2^16 (R267). -/
def tagNotAfter (e k : Nat) : Bool := (k % 2 ^ 16 + 2 ^ 16 - e % 2 ^ 16) % 2 ^ 16 < 2 ^ 15

/-- The version that a lane reads for epoch k: the largest tag that is not after k (R267). -/
def versionAt (vers : List RowVer) (k : Nat) : Option RowVer := vers.find? fun v => tagNotAfter v.epoch k

/-- A forward writes the version of its tag, if there is one, else over the older of the pair (R267). -/
def takeVersion (v : RowVer) (vers : List RowVer) : List RowVer :=
  if vers.any fun x => sameTag x.epoch v.epoch then vers.map fun x => if sameTag x.epoch v.epoch then v else x
  else v :: vers.take 1

/-- The version that a forward of epoch e would overwrite with another tag. -/
def HotRow.victim (h : HotRow) (e : Nat) : Option RowVer :=
  if h.vers.any fun x => sameTag x.epoch e then none else h.vers[1]?

/-- Forwards to a pair in order; from one on that would overwrite a version under read they wait (R267). -/
def HotRow.settle (busy : RowVer → Bool) : List RowVer → HotRow → HotRow
  | [], h => { h with held := [] }
  | v :: vs, h =>
    if (h.victim v.epoch).any busy then { h with held := v :: vs }
    else HotRow.settle busy vs { h with vers := takeVersion v h.vers }

/-- A scoring in progress reads this version of a row. -/
def State.underRead (s : State) (t r : Nat) (g : RowVer) : Bool :=
  s.mem.jobs.any fun j => j.table == t && j.row == r && j.record.isNone && j.pub == j.ks && sameTag j.ver.epoch g.epoch

def State.onHot (s : State) (t r : Nat) (f : HotRow → HotRow) : State :=
  { s with mem := { s.mem with hot := mapIf (fun h => h.table == t && h.row == r) f s.mem.hot } }

/-- Forward a hot row's new version to the Granary (R266, R267). -/
def forward (t r : Nat) (v : RowVer) (s : State) : State :=
  let put := fun h : HotRow => if h.vers.isEmpty then h else h.settle (s.underRead t r) (h.held ++ [v])
  let s1 := s.onHot t r put
  if s1.mem.hot.any fun h => h.table == t && h.row == r && !h.held.isEmpty then s1.setBit .grn 31 else s1

/-- A scoring of a row has ended: forwards that waited for it go on. -/
def resumeForwards (t r : Nat) (s : State) : State := s.onHot t r fun h => h.settle (s.underRead t r) h.held

/-- The feature-column fields of a plan that a table's rows feed, each with its place and column (07 R188). -/
def rowFields (t : Table) (p : Plan) : List (PlanField × Nat × Column) :=
  p.fields.zipIdx.filterMap fun x => match x.1.srcKind == 4, TableImg_col t.img x.1.srcId with
    | true, some c => some (x.1, x.2, c)
    | _, _ => none

/-- A line that holds a column's words is poisoned, or the row's header is. -/
def columnBad (c : Column) (v : RowVer) : Bool :=
  v.badLines.contains 0 || (List.range c.nwords).any fun i => v.badLines.contains ((c.word + i) / 16)

/-- The row is one observation of every feature-column field of its context's plan, once, at a TRAY-role instance (07 R188,
R189). Words that the memory returned poisoned are not taken: the sheaf waits until the row is obtained again (R201). An
absent row is no observation. -/
def Sheaf.observe (sh : Sheaf) (t : Table) (r : Row) : Sheaf :=
  let id := (t.img.tableId, r.row)
  let fs := rowFields t sh.plan
  if sh.rows.contains id || fs.isEmpty then sh
  else if r.v.absent then { sh with rows := id :: sh.rows, owed := sh.owed.filter (· != id) }
  else if fs.any fun x => columnBad x.2.2 r.v then { sh with owed := id :: sh.owed.filter (· != id) }
  else { fs.foldl (fun sh x => sh.fold x.2.1 x.1 (.value (columnObs x.2.2 r.v.words)) r.entity) sh with
    rows := id :: sh.rows
    owed := sh.owed.filter (· != id) }

/-- An updated or repaired row enters the open sheaf of its epoch. -/
def observeRow (t : Table) (r : Row) (s : State) : State :=
  match s.red.sheaves.find? fun h => h.ctx == t.ctx && h.k == r.v.epoch && h.stage == .open && !h.sent with
  | some h => if h.level == .tray then s.onSheaf h fun sh => sh.observe t r else s
  | none => s

/-- Put an updated row into its table. -/
def storeRow (t : Table) (r : Row) (s : State) : State :=
  s.onTable t.img.tableId fun x =>
    let y := x.onRow r.row fun _ => r
    let caught := x.rebuilding && y.rows.all fun z => z.v.epoch + 1 ≥ s.curEpoch
    { y with
      lastEpoch := y.least
      poisonAny := y.poisonAny || r.v.poisoned
      seeded := y.seeded || r.seeded
      rebuilding := y.rebuilding && !caught }

/-- The channel of a row (R254). -/
def Table.channel (t : Table) (row : Nat) : Nat := (t.img.ch0 + row) % 512

/-- The class of a table's updates (R251): S for a SLOT table, that of its share for a BACK table. -/
def Table.xferClass (t : Table) : XferClass := if t.img.slot then .s else .c t.ctx

/-- The words of a row's n-th latest copy in a ring are lost. -/
def loseEntry (row n : Nat) (miss : List (BitVec 32)) (l : List History) : List History :=
  match (l.filter (·.row == row)).reverse[n]? with
  | some h => mapIf (fun x => x.row == row && x.epoch == h.epoch) (fun x => { x with words := miss }) l
  | none => l

/-- A line becomes poisoned (R270, R271). A landed record that is not logged yet is never compressed: its block is abandoned
with INPUT_POISON (13 R364). -/
def poisonLine (l : HbmLine) (s : State) : State :=
  match l with
  | .table t row line =>
    s.onTable t fun x =>
      x.onRow row fun r => { r with v := { r.v with
        poisoned := r.v.poisoned || line == 0
        badLines := if r.v.badLines.contains line then r.v.badLines else line :: r.v.badLines } }
  | .history t row minute entry =>
    s.onTable t fun x =>
      let miss := x.img.cols.flatMap fun c => if c.dec then List.replicate c.nwords c.missing else []
      if minute then { x with ring1m := loseEntry row entry miss x.ring1m }
      else { x with ring1s := loseEntry row entry miss x.ring1s }
  | .model id =>
    { s with mem := { s.mem with models := mapIf (·.m.modelId == id) (fun m => { m with poisoned := true }) s.mem.models } }
  | .landing slot k =>
    let s := if s.red.landing.any fun l => l.slot == slot && l.k == k && !l.logged then s.setBit .glm 29 else s
    let s1 := { s with red := { s.red with landing := s.red.landing.filter fun l => !(l.slot == slot && l.k == k) } }
    if (s.landed? slot k).isSome then startRecovery 0 slot k s1 else s1
  | .raw slot k =>
    let s1 : State := { s with
      raw := { s.raw with
        blocks := mapIf (fun b => b.slot == slot && b.k == k) (fun b => { b with poisoned := true }) s.raw.blocks }
      red := { s.red with
        landing := mapIf (fun l => l.slot == slot && l.k == k) (fun l => { l with logged := false }) s.red.landing } }
    let held := s.raw.blocks.any fun b => b.slot == slot && b.k == k
    if held && (s.landed? slot k).isNone then startRecovery 0 slot k s1 else s1
  | .checkpoint =>
    match s.raw.ckpts.reverse with
    | c :: _ => { s with raw := { s.raw with ckpts := mapIf (·.k == c.k) (fun c => { c with poisoned := true }) s.raw.ckpts } }
    | [] => s
  | .other n => { s with mem := { s.mem with bad := if s.mem.bad.contains n then s.mem.bad else n :: s.mem.bad } }

/-- What the memory controller finds in a line that it reads (R270): one error is corrected and counted; more than its code
covers poison the line. Its row may meet the trigger of a repair (17 R454). -/
def hbmRead (l : HbmLine) (errs : Nat) (s : State) : State :=
  match errs with
  | 0 => s
  | 1 => noteHbm (Config.hbmRow l) ((s.errCount 7 1).setBit .thr 29)
  | _ => poisonLine l (queuePpr (Config.hbmRow l) (((s.errCount 8 1).errBit 31).setBit .thr 30))

/-- The update of epoch k that a row takes: its table, the row, and the row after it. -/
def State.nextRow (s : State) (table row k : Nat) : Option (Table × Row × Row) :=
  (s.table? table).bind fun t => (t.row? row).bind fun r => (s.rowUpdate t r k).map fun r' => (t, r, r')

/-- Put a row after its update of epoch k into its table and the Granary; the table's header is written anew when LAST_EPOCH
rises (R261). The RMWs of a row are those that its update list names, whatever the inputs bring (R252, R260). -/
def writeRow (t : Table) (r r' : Row) (k : Nat) (s : State) : State :=
  let id := t.img.tableId
  let poisoned := ((s.inputs t r.entity k (s.feed t r.entity k)).filter fun x => x.inp == .poisoned).length
  let s := if t.rebuilding then (s.rowSlot t.img r.entity).elim s (s.noteDecode k) else s
  let s0 := s.xfer t.xferClass (t.channel r.row) (2 * rowLineUpdates t.img r.entity)
  let s1 := if s.isTray && 0 < poisoned then s0.errCount 22 poisoned else s0
  let s2 := storeRow t r' s1
  let s3 := if (s2.table? id).any fun y => t.lastEpoch < y.lastEpoch then s2.xfer t.xferClass t.img.ch0 1 else s2
  let s4 := observeRow t r' (forward id r.row r'.v s3)
  if t.img.slot then noteTail k s4 else s4

/-- Apply a row's updates for epoch k (R261) once the lines that it changes are read (R270). A step whose check failed for
good with no spare to finish it writes nothing (R264). -/
def thresherUpdate (cls table row k : Nat) (x : RowStep) (s : State) : State :=
  if (s.nextRow table row k).isNone then s
  else
    let s1 := if s.isTray then x.hbm.foldl (fun s l => hbmRead (.table table row l.1) l.2 s) s else s
    match s1.nextRow table row k with
    | none => s1
    | some (t, r, r') =>
      if s1.stepLost cls x.check then unitCheck cls x.check s1
      else refreshVerdicts t.ctx k (unitCheck cls x.check (writeRow t r r' k s1))

/-- At T_k + 18 µs some class-S work of the latest epoch is unfinished (R273): a SLOT row has not reached it, or transfers of
the class wait in a channel. -/
def execSlotLate (s : State) : Res :=
  onTray "SLOT_LATE" s fun s =>
    match s.sched.past with
    | b :: _ =>
      let behind := s.mem.tables.any fun t => t.img.slot && t.rows.any fun r => r.v.epoch < b.k
      if b.t + nsT 18000 ≤ s.now && (behind || s.chans.any fun c => 0 < c.sReady) then s.setBit .thr 31 else s
    | [] => s

def repeatCopy (s : State) : State := (s.setBit .thr 27)

/-- A row copy ends (R263): it is kept with its ROW_EPOCH, unless the row's next update has become ready; then it is
abandoned, to be taken again after that update. -/
def execRowCopy (table row : Nat) (s : State) : Res :=
  onTray "ROW_COPY" s fun s =>
    match s.table? table with
    | none => s
    | some t =>
      match t.row? row with
      | none => s
      | some r =>
        if (s.rowUpdate t r (r.v.epoch + 1)).isSome then repeatCopy s
        else
          let s1 := s.xfer .p (t.channel row) t.img.rowLen
          { s1 with raw := { s1.raw with
            copies := putBack (fun c => c.1 == table && c.2.row == row) (table, r) s.raw.copies } }

/-! ## Decimated history (R262, R271) -/

/-- The words of the decimated columns; those of a poisoned line are MISSING. -/
def decimated (t : TableImg) (v : RowVer) : List (BitVec 32) :=
  (t.cols.filter (·.dec)).flatMap fun c => (List.range c.nwords).map fun i =>
    if v.badLines.contains ((c.word + i) / 16) then c.missing else wordAt v.words (c.word + i)

/-- Push a copy into a row's ring, which keeps n entries of each row. -/
def pushHistory (n : Nat) (h : History) (l : List History) : List History :=
  let mine := ((l.filter (·.row == h.row)) ++ [h]).reverse.take n |>.reverse
  l.filter (fun x => x.row != h.row) ++ mine

/-- The copies of the first boundary at or after a whole TAI second (R262), each in its row's channel (assumption 134). -/
def decimate (t : Ticks) (s : State) : State :=
  let sec := t / secT
  if sec ≤ s.mem.decimSec then s
  else
    let n := s.mem.decims + 1
    let minute := n % 60 == 0
    let one := fun (x : Table) => x.rows.foldl (fun x r =>
      let h : History := { row := r.row, epoch := r.v.epoch, words := decimated x.img r.v }
      { x with
        ring1s := pushHistory x.img.ring1s h x.ring1s
        ring1m := if minute then pushHistory x.img.ring1m h x.ring1m else x.ring1m }) x
    let lines := fun x : Table =>
      lineCount (4 * sumNat ((x.img.cols.filter (·.dec)).map (·.nwords))) * (if minute then 2 else 1)
    let s1 := s.mem.tables.foldl (fun s x => x.rows.foldl (fun s r => s.xfer .p (x.channel r.row) (lines x)) s) s
    { s1 with mem := { s1.mem with tables := s.mem.tables.map one, decimSec := sec, decims := n } }

/-! ## Repair (R270 to R272, 11 R329) -/

/-- The oldest epoch of which the raw ring or the landing area holds a record (13 R368). -/
def State.oldestRecord (s : State) : Option Nat :=
  match s.raw.blocks.map (·.k) ++ s.red.landing.map (·.k) with
  | [] => none
  | k :: ks => some (ks.foldl min k)

/-- The latest usable checkpoint (07 R217). -/
def State.usableCkpt (s : State) : Option Ckpt :=
  (s.raw.ckpts.filter (·.usable)).foldl (fun m c => match m with
    | some x => if x.k ≤ c.k then some c else some x
    | none => some c) none

/-- The row as a checkpoint holds it. One whose next needed epoch is no longer held keeps that state with AGE 0 and goes on
with the records that are held, the oldest of which only gives the values before them (11 R329, 05 R143). -/
def State.rowFrom (s : State) (c : Ckpt) (table row : Nat) : Option Row :=
  ((c.tables.find? (·.1 == table)).bind fun t => t.2.find? (·.row == row)).map fun r =>
    let from_ := s.oldestRecord.getD s.curEpoch
    let v := { r.v with badLines := [], poisoned := false }
    { r with v := if r.v.epoch + 1 < from_ then { v with epoch := from_, age := 0 } else v }

/-- Reinstall a hot row in the Granary with its newest version. -/
def reinstall (table row : Nat) (v : RowVer) (s : State) : State :=
  s.onHot table row fun h => { h with vers := [v], held := [] }

/-- A row taken from the twin, whole; the sheaves that still wait for it observe it at their epochs (07 R201). -/
def takeTwinRow (t : Table) (r : Row) (w : TwinRow) (s : State) : State :=
  let at_ := fun (k : Nat) (words : List (BitVec 32)) =>
    { r.v with epoch := k, age := w.age, absent := w.absent, words := words, badLines := [], poisoned := false }
  let v := at_ w.epoch w.words
  let old := match w.past.find? fun p => p.1 + 1 == w.epoch with
    | some p => at_ p.1 p.2
    | none => r.old
  let s1 := reinstall t.img.tableId r.row v (s.onTable t.img.tableId fun t => t.onRow r.row fun r => { r with v := v, old := old })
  (w.past ++ [(w.epoch, w.words)]).foldl (fun s p =>
    refreshVerdicts t.ctx p.1 (observeRow t { r with v := at_ p.1 p.2 } s)) s1

/-- The rows that a rebuild of one sets back: also the leaf's others where a ROW_COL entry reads one from another (R316). -/
def Table.rebuilt (t : Table) (r : Row) : List Row :=
  if t.img.upds.any (·.srcKind == 9) then t.rows.filter fun q => entityLeaf q.entity == entityLeaf r.entity else [r]

/-- A poisoned row is taken from the twin, or rebuilt from the latest usable checkpoint and the raw ring (R272); the
records after it are then replayed by the row's updates. Whole-line writes clear the poison. -/
def execRowRepair (table row : Nat) (twinRow : Option TwinRow) (s : State) : Res :=
  onTray "ROW_REPAIR" s fun s =>
    match (s.table? table).bind fun t => (t.row? row).map fun r => (t, r) with
    | none => s
    | some (t, r) =>
      match twinRow, s.twin.paired with
      | some w, true => takeTwinRow t r w (s.xfer .p (t.channel row) t.img.rowLen)
      | none, false =>
        let s := noteCkpt s
        (t.rebuilt r).foldl (fun s q =>
          match s.usableCkpt.bind fun c => s.rowFrom c table q.row with
          | some r' =>
            reinstall table q.row r'.v ((s.xfer .p (t.channel q.row) t.img.rowLen).onTable table fun t =>
              { (t.onRow q.row fun x => { r' with hot := x.hot, seeded := x.seeded }) with rebuilding := true })
          | none => s) s
      | _, _ => s

/-- The channel of a line by what it holds (R247, R254). A line of decimated history is taken in its row's channel, and the
others whose place no rule gives in channel 0 (assumption 134). -/
def State.lineChannel (s : State) (l : HbmLine) : Nat :=
  match l with
  | .table t row _ | .history t row _ _ => ((s.table? t).map fun x => x.channel row).getD 0
  | .other n => s.channelOf (64 * n)
  | _ => 0

/-- The patrol reads a line (17 R451) in class P; a line that is corrected or poisoned is written back. -/
def execPatrolScrub (l : HbmLine) (errs : Nat) (s : State) : Res :=
  onTray "PATROL_SCRUB" s fun s => hbmRead l errs (s.xfer .p (s.lineChannel l) (if errs = 0 then 1 else 2))

/-- THRESHER_UPDATE (R261). -/
def execThresherUpdate (table row epoch : Nat) (x : RowStep) (s : State) : Res :=
  onTray "THRESHER_UPDATE" s <| byUnit clsThresher x.check <| thresherUpdate clsThresher table row epoch x

/-- The leaf's update unit (11 R319): from T_k + 5.3 µs, once the epoch before has been scored; without the unit leaf
models stop (17 R449). -/
def execLeafFeatureUpdate (table row epoch : Nat) (check : CheckOutcome) (s : State) : Res :=
  onLeaf "LEAF_FEATURE_UPDATE" s <| byUnit clsUpdate check fun s =>
    let up := match s.unit? clsUpdate with
      | some u => 0 < u.inService
      | none => false
    let due := match s.boundary? epoch with
      | some b => b.t + nsT 5300 ≤ s.now
      | none => false
    let scored := (s.ctxs.map (·.id)).all fun c => s.verdictsDone c (epoch - 1)
    if up && due && scored then thresherUpdate clsUpdate table row epoch { check := check, hbm := [] } s else s

end Sys2Proof.Machine
end

