-- ==== Sys2Proof/Machine/Score.lean ====
section
/-!
DEFINITION. Scoring (10 R279, R287 to R292; 11 R319 to R323): installs in the Granary, the start and the end of a row's
scoring, leaf models.
-/

namespace Sys2Proof.Machine

/-! ## Installs (09 R266, 11 R322) -/

/-- A newly hot row is installed with its ROW_EPOCH as the tag of every line (R266). -/
def execHotRowInstall (table row : Nat) (s : State) : Res :=
  onTray "HOT_ROW_INSTALL" s fun s =>
    match (s.table? table).bind fun t => t.row? row with
    | some r =>
      let s1 := (s.table? table).elim s fun t => s.xfer (.c t.ctx) (t.channel row) t.img.rowLen
      { s1 with mem := { s1.mem with
        hot := mapIf (fun h => h.table == table && h.row == row && h.vers.isEmpty) (fun h => { h with vers := [r.v] })
          s.mem.hot } }
    | none => s

/-- The placed entry of a model with a row, in force at an epoch. -/
def State.entryFor (s : State) (deep : Bool) (model row k : Nat) : Option (PlaceInForce × PlaceEntry) :=
  match s.model? model with
  | none => none
  | some m =>
    (placeAt s.mem.places m.m.ctx k).bind fun p =>
      (p.entries.find? fun e => e.deep == deep && e.modelId == model && PlaceEntry_has e row).map fun e => (p, e)

/-- A newcomer scores only deep periods that begin at or after its CATCHUP (18 R484). -/
def State.scoresPeriod (s : State) (ks : Nat) : Bool :=
  s.twin.scoresFrom ≤ ks && !s.twin.attach.any fun a => !a.carrier && (a.phase == .config || a.phase == .bulk)

/-- The deep periods of a context's model that a row may still be scored for, oldest first, each with its entry: those whose
records a sheaf still waits for, and the present one. -/
def State.openPeriods (s : State) (ctx model row : Nat) : List (PlaceEntry × Nat) :=
  let held := sortBy id ((s.red.sheaves.filter fun h => h.ctx == ctx && !h.verdictsFinal).map (·.k))
  let past := held.filterMap fun k => (s.entryFor true model row k).bind fun x =>
    if k % x.2.period == 0 && x.2.period ≤ k then some (x.2, k - x.2.period) else none
  let now := (s.entryFor true model row s.curEpoch).map fun x => (x.2, s.curEpoch / x.2.period * x.2.period)
  past ++ now.toList

/-- A row of a period's batch awaits its install. -/
def State.awaitsInstall (s : State) (ctx model row : Nat) (e : PlaceEntry) (ks : Nat) : Bool :=
  let placed := match placeAt s.mem.places ctx ks with
    | some p => p.entries.contains e
    | none => false
  placed && deepDue e row ks && s.scoresPeriod ks && s.jobRuns ctx model ks && (s.job? model row ks).isNone
    && !s.mem.frozen.any fun f => f.model == model && f.row == row && f.ks == ks

/-- A lane of the row's set has slices of an earlier period of the model to finish, or copies of one that it has not
begun. -/
def State.setBusy (s : State) (e : PlaceEntry) (row ks : Nat) : Bool :=
  let same := fun r : Nat => (r - e.row0) % e.nsets == (row - e.row0) % e.nsets
  (s.mem.jobs.any fun j => j.model == e.modelId && j.ks < ks && same j.row && j.record.isNone && j.slices + 1 < e.period)
    || s.mem.frozen.any fun f => f.model == e.modelId && f.ks < ks && same f.row && (s.job? f.model f.row f.ks).isNone

/-- A frozen copy is installed for the oldest deep period that awaits the row (11 R322), once every row of the batch stands
at its first epoch and the set has finished the period before. A copy that the next update overtook is taken again as the
row then stands (R263; assumption 29). -/
def execDeepInstall (model row : Nat) (s : State) : Res :=
  onTray "DEEP_INSTALL" s fun s =>
    let ctx := ((s.model? model).map (·.m.ctx)).getD 0
    match (s.openPeriods ctx model row).find? fun x => s.awaitsInstall ctx model row x.1 x.2 with
    | none => s
    | some (e, ks) =>
      match (s.table? e.tableId).bind fun t => (t.row? row).map fun r => (t, r) with
      | none => s
      | some (t, r) =>
        let ready := t.rows.all fun q => !deepDue e q.row ks || ks ≤ q.v.epoch
        if !ready || s.setBusy e row ks then s
        else
          let s0 := s.xfer (.c t.ctx) (t.channel row) t.img.rowLen
          let s1 := if ks < r.v.epoch then repeatCopy s0 else s0
          let keep := s1.mem.frozen.filter fun f => !(f.model == model && f.row == row)
          { s1 with mem := { s1.mem with frozen := keep ++ [{ model := model, row := row, ks := ks, ver := r.v }] } }

/-! ## The row test and the walk (10 R287) -/

def stOk : Nat := 0
def stPoisoned : Nat := 1
def stCold : Nat := 2
def stAbsent : Nat := 3

/-- Tests 1 to 3 of R287. -/
def rowTest (m : Model) (v : RowVer) (badLines : List Nat) : Nat :=
  if v.poisoned || badLines.contains 0 then stPoisoned
  else if v.absent then stAbsent
  else if v.age < m.maxWin then stCold
  else stOk

/-- Poisoned lines that a lane sees: those of the version, and a Granary line that it cannot correct. -/
def seenLines (v : RowVer) (rd : LaneRead) : List Nat :=
  match rd with
  | .granary l => l :: v.badLines
  | _ => v.badLines

/-- A lane-memory word that the lane cannot correct (10 R301). -/
def lostWord : LaneRead → Bool
  | .node _ | .feature _ | .set _ | .tree _ | .header => true
  | .good | .corrected _ _ _ | .granary _ | .store _ => false

/-- The row test with what precedes and follows it: a row without its install or with a lane lost is COLD (09 R266, 10 R300);
the model's header, which holds MAXWIN, may be lost, or its store be poisoned (R287, 09 R271). -/
def firstStatus (cold : Bool) (h : HeldModel) (v : RowVer) (rd : LaneRead) : Nat :=
  let st := rowTest h.m v (seenLines v rd)
  if cold then stCold
  else if st == stPoisoned || st == stAbsent then st
  else if rd == .header then stPoisoned
  else if st == stOk && h.poisoned then stPoisoned
  else st

/-- Score trees into the accumulators of a job whose STATUS is OK so far; with the line of the row at which the walk ended,
where it read one poisoned. -/
def ScoreJob.scoreTrees (j : ScoreJob) (m : Model) (ts : List Nat) (rd : LaneRead) : ScoreJob × Option Nat :=
  if j.status != stOk then (j, none)
  else
    match walkTrees m { words := j.ver.words, badLines := seenLines j.ver rd, lost := rd } ts j.acc with
    | .sums acc => ({ j with acc := acc }, none)
    | .line l => ({ j with status := stPoisoned }, some l)
    | .word => ({ j with status := stPoisoned }, none)

/-- What a read that is not good sets (09 R268, R270, 10 R301, 17 R450). -/
def noteRead (model : Nat) (rd : LaneRead) (s : State) : State :=
  match rd with
  | .good => s
  | .corrected bank row n => correctedRow bank row n s
  | .granary _ =>
    let s1 := s.errBit 31
    if s1.isTray then (s1.errCount 11 1).setBit .grn 30
    else s1.countHealth 304 1
  | .node _ | .feature _ | .set _ | .tree _ | .header =>
    let s1 := (s.errBit 31).count 11 306 1
    (s1.setBit .win 28)
  | .store errs => if s.isTray then hbmRead (.model model) errs s else s

/-- A job that consumed a poisoned table line, or whose model store is poisoned, stops at the end of the epoch, and its
context's status line shows it (09 R271, R272). -/
def stopJob (ctx model : Nat) (row : Option (Nat × Nat)) (k : Nat) (s : State) : State :=
  let mine := fun j : StoppedJob => j.ctx == ctx && j.model == model
  let old := s.mem.stopped.find? mine
  let j : StoppedJob := match old with
    | some j => j
    | none => { ctx := ctx, model := model, rows := [], store := false, since := k }
  let j1 := match row with
    | some r => { j with rows := r :: j.rows }
    | none => { j with store := true }
  ({ s with mem := { s.mem with stopped := putBack mine j1 s.mem.stopped } }).onCtx ctx fun c => { c with jobStopped := true }

def putJob (j : ScoreJob) (s : State) : State := { s with mem := { s.mem with jobs := s.mem.jobs ++ [j] } }

/-- A job at its start: accumulators at BASE (R292). -/
def newJob (m : Model) (gen : BitVec 16) (e : PlaceEntry) (row : Nat) (ent : BitVec 32) (ks pub status : Nat) (v : RowVer) :
    ScoreJob :=
  { ctx := m.ctx, gen := gen, model := m.modelId, table := e.tableId, row := row, entity := ent, ks := ks, pub := pub
    slices := 0, status := status, acc := m.base.take m.nOut, ver := v, record := none }

/-- What poisoned data that a job consumed does to its context: a line of the table read by the row test or, `line`, by the
walk, and a poisoned model store (09 R271, R272). A Granary line alone leaves the job running (09 R268). -/
def afterRead (h : HeldModel) (j : ScoreJob) (line : Option Nat) (k : Nat) (s : State) : State :=
  if j.status != stPoisoned then s
  else
    let ate := j.ver.badLines.contains 0 || line.any j.ver.badLines.contains
    let s1 := if ate then stopJob j.ctx j.model (some (j.table, j.row)) k s else s
    if h.poisoned then stopJob j.ctx j.model none k s1 else s1

/-- What scoring trees reads from HBM in class C of the share: the trees of a streamed model and a lane-memory word that
could not be corrected, from the model store, and the row's line in place of a lost Granary line (09 R251, R268, 10
R301). -/
def readTrees (m : Model) (t : Table) (row : Nat) (ts : List Nat) (rd : LaneRead) (s : State) : State :=
  let trees := if m.streamed then lineCount (16 * sumNat (ts.map (treeNodes m))) else 0
  let s1 := s.stripe (.c m.ctx) 0 (trees + b2n (lostWord rd))
  match rd with
  | .granary _ => s1.xfer (.c m.ctx) (t.channel row) 1
  | _ => s1

/-- A lane's stream buffer after it has streamed trees: they went through its halves in turn (10 R281). -/
def streamTrees (m : Model) (lane : Nat) (ts : List Nat) (s : State) : State :=
  match (streamHalves m (LaneMem.stream.part s.isLeaf s.cfg.shareCount / 32) ts [] 0).reverse with
  | [] => s
  | h :: hs =>
    let b : StreamBuf := { lane := lane, ctx := m.ctx, half0 := h, half1 := hs.headD [] }
    { s with mem := { s.mem with stream := putBack (fun x => x.lane == lane && x.ctx == m.ctx) b s.mem.stream } }

/-- A step whose check failed for good on a lane without a spare gives no result: the row is COLD (10 R298, R300). -/
def ScoreJob.unlessLost (lost : Bool) (old j : ScoreJob) : ScoreJob :=
  if lost && old.status == stOk then { j with status := stCold, acc := old.acc } else j

/-- Slot work on a row for epoch k (R279): it starts once ROW_EPOCH ≥ k and the version to read is in place. A hot row
without a version that is not after k, newly installed or overtaken by two forwards, counts as an install that is unfinished
(09 R266; assumption 183). -/
def slotStart (model row k : Nat) (check : CheckOutcome) (rd : LaneRead) (s : State) : Option (ScoreJob × State) :=
  match s.model? model, s.entryFor false model row k with
  | some h0, some (p, e) =>
    match (s.table? e.tableId).bind fun t => (t.row? row).map fun r => (t, r) with
    | none => none
    | some (t, r) =>
      let hot := s.mem.hot.find? fun x => x.table == e.tableId && x.row == row
      let owed := hot.any fun x => x.held.any fun v => tagNotAfter v.epoch k
      if !slotDue e row k || r.v.epoch < k || (s.job? model row k).isSome || !s.jobRuns h0.m.ctx model k || owed then none
      else
        let s0 := noteRead model rd s
        let h := (s0.model? model).getD h0
        let inst := if s.isLeaf then some r.v else hot.bind fun x => versionAt x.vers k
        let late := inst.isNone
        let v := inst.getD r.v
        let st := firstStatus (late || s.laneLost p e row) h v rd
        let j0 := newJob h.m (s.genOf h.m.ctx) e row r.entity k k st v
        let (j, line) := j0.scoreTrees h.m (slotTrees h.m) rd
        let s1 := readTrees h.m t row (slotTrees h.m) rd s0
        let s2 := if late then (s1.setBit .grn 29) else s1
        some ({ ScoreJob.unlessLost (s.stepLost clsLane check) j0 j with slices := 1 }, afterRead h j line k s2)
  | _, _ => none

/-- A slice of a deep period (11 R322): slices run in order, the row test once in slice 1. A row that needs a lane lost since
is COLD (10 R300), and one whose model store is poisoned POISONED (09 R271). -/
def deepSlice (model row k : Nat) (check : CheckOutcome) (rd : LaneRead) (s : State) : State :=
  match s.model? model, s.entryFor true model row k with
  | some h0, some (p, e) =>
    let ks := k / e.period * e.period
    let i := k - ks
    match s.mem.frozen.find? (fun f => f.model == model && f.row == row && f.ks == ks), s.table? e.tableId with
    | some f, some t =>
      if i = 0 || !s.jobRuns h0.m.ctx model k then s
      else
        let s0 := noteRead model rd s
        let h := (s0.model? model).getD h0
        let ent := ((t.row? row).map (·.entity)).getD 0
        let start := s.job? model row ks
        let cold := s.laneLost p e row
        let fresh := newJob h.m (s.genOf h.m.ctx) e row ent ks (ks + e.period) (firstStatus cold h f.ver rd) f.ver
        let again := fun j : ScoreJob =>
          if j.status != stOk then j
          else if cold then { j with status := stCold }
          else if h.poisoned || rd == .header then { j with status := stPoisoned }
          else j
        let j0 := (start.map again).getD fresh
        if j0.slices + 1 ≠ i then s
        else
          let trees := sliceTrees h.m e.lanes e.period i
          let (j, line) := j0.scoreTrees h.m trees rd
          let j1 := { ScoreJob.unlessLost (s.stepLost clsLane check) j0 j with slices := i }
          let s1 := readTrees h.m t row trees rd s0
          let lanes := (PlaceEntry_lanes e row).zipIdx
          let s2 := if h.m.streamed then lanes.foldl (fun s l =>
              streamTrees h.m (nth p.lanes l.1 l.1) (laneSlice h.m e.lanes e.period i l.2) s) s1 else s1
          let s3 := if start.isSome then s2.onJob model row ks fun _ => j1 else putJob j1 s2
          afterRead h j1 line k s3
    | _, _ => s
  | _, _ => s

/-- SCORE_START (R279): slot work of a model for an epoch, or the slice of a deep model that runs in it. -/
def execScoreStart (model row epoch : Nat) (check : CheckOutcome) (read : LaneRead) (s : State) : Res :=
  onTray "SCORE_START" s <| byUnit clsLane check fun s =>
    match slotStart model row epoch check read s with
    | some (j, s1) => unitCheck clsLane check (putJob j s1)
    | none =>
      if (s.entryFor true model row epoch).isSome then unitCheck clsLane check (deepSlice model row epoch check read s) else s

/-! ## Results (R292 to R296, 05 R151, 12 R332) -/

/-- Finish a job: transform, verdict, record. With any STATUS other than OK, RAW and OUT are zero. -/
def finishJob (m : Model) (j : ScoreJob) (s : State) : ScoreJob :=
  let raw := if j.status == stOk then j.acc else []
  let outs := if j.status == stOk then transform m j.acc else []
  let v := verdictOf (ruleOf (placeAt s.mem.places j.ctx j.ks) j.model) j.status raw outs
  { j with record := some (verdictBytes j m.nOut v (s.actionFor j.ctx j.model j.status v j.pub) raw outs) }

/-- Count a verdict code in the fields of the context's plan, at a TRAY-role instance (07 R188, R199): one observation of
the row's entity, in the sheaf of the record's epoch once there is one (12 R330). -/
def countVerdict (j : ScoreJob) (b : Bytes) (s : State) : State :=
  match s.red.sheaves.find? fun h => h.ctx == j.ctx && h.k == j.pub && h.level == .tray && !h.sent with
  | none => s
  | some h =>
    s.onSheaf h fun sh => sh.plan.fields.zipIdx.foldl (fun sh x =>
      if x.1.srcKind == 5 && x.1.srcId == j.model then
        sh.fold x.2 x.1 (.value (BitVec.ofNat 64 (fld b 26 1))) j.entity
      else sh) sh

/-- The finished records of an epoch whose sheaf opens now are counted in it: a deep period may end before its boundary
(11 R323). -/
def countFinished (ctx k : Nat) (s : State) : State :=
  (s.mem.jobs.filter fun j => j.ctx == ctx && j.pub == k).foldl (fun s j => j.record.elim s fun b => countVerdict j b s) s

/-- Finished records of epochs from b on take their ACTION from an action table that takes effect there (12 R334, R335). -/
def refreshActions (b : Nat) (s : State) : State :=
  let one := fun j : ScoreJob => if j.record.isNone || j.pub < b then j else ((s.model? j.model).map fun h => finishJob h.m j s).getD j
  { s with mem := { s.mem with jobs := s.mem.jobs.map one } }

/-- A result whose GEN is not the context's is discarded (10 R279, 14 R382). -/
def discardJob (j : ScoreJob) (s : State) : State :=
  let s1 := if s.isTray then s.errCount 24 1 else s
  let s2 := { s1 with mem := { s1.mem with
    jobs := s1.mem.jobs.filter fun x => !(x.model == j.model && x.row == j.row && x.ks == j.ks) } }
  s2.onCtx j.ctx fun c => { c with genDiscard := c.genDiscard + 1 }

/-- SCORE_COMPLETE: the scoring of a row whose record is published with the step's epoch is final (R292). The transform
unit's operations carry the lane's checks (R297); without a result of theirs the row is COLD. -/
def execScoreComplete (model row : Nat) (x : ScoreEnd) (s : State) : Res :=
  onTray "SCORE_COMPLETE" s <| byUnit clsLane x.check fun s =>
    match s.mem.jobs.find? fun j => j.model == model && j.row == row && j.pub == x.epoch, s.model? model with
    | some j, some h =>
      let need := if j.pub == j.ks then 1 else j.pub - j.ks - 1
      if j.record.isSome || j.slices < need then s
      else if s.genOf j.ctx != j.gen then resumeForwards j.table row (discardJob j s)
      else
        let j1 := finishJob h.m (ScoreJob.unlessLost (s.stepLost clsLane x.check) j j) s
        let s1 := resumeForwards j.table row (unitCheck clsLane x.check (s.onJob model row j.ks fun _ => j1))
        let s2 := { s1 with mem := { s1.mem with
          frozen := s1.mem.frozen.filter fun f => !(f.model == model && f.row == row && f.ks == j.ks && j.pub != j.ks) } }
        refreshVerdicts j.ctx j.pub (countVerdict j1 (j1.record.getD []) s2)
    | _, _ => s

/-- At T_k + 32 µs some slot work of the latest epoch is unfinished (R279). -/
def execWinLate (s : State) : Res :=
  .next <|
    match s.sched.past with
    | b :: _ =>
      let open_ := (s.ctxs.map (·.id)).any fun c => (s.dueRows c b.k).any fun x =>
        !x.1.deep && match s.job? x.1.modelId x.2.1 b.k with
          | some j => j.record.isNone
          | none => true
      if b.t + nsT 32000 ≤ s.now && open_ then (s.setBit .win 29) else s
    | [] => s

/-! ## Leaf models (11 R319) -/

/-- A leaf verdict message (R319, 08 R226): at most 128 records. -/
def leafVerdictMsg (s : State) (ctx : Nat) (gen : BitVec 16) (k tseq : Nat) (rs : List Bytes) : Bytes :=
  let head := captHead s 0x0A ctx gen k rs.length tseq
  let body := rs.flatten
  sealCrc (head ++ body ++ poisonTrailer [])

/-- Send the leaf verdict records of a context and epoch (14 R399 holds those of tenants back). -/
def sendLeafVerdicts (ctx k : Nat) (s : State) : State :=
  match s.mem.leafVerdicts.find? fun x => x.1 == ctx && x.2.2.1 == k with
  | none => s
  | some (_, gen, _, rs) =>
    let parts := (List.range ((rs.length + 127) / 128)).map fun i => (rs.drop (128 * i)).take 128
    let s1 := parts.foldl (fun s p => s.sendNumbered ctx gen fun q => leafVerdictMsg s ctx gen k q p) s
    { s1 with mem := { s1.mem with
      leafVerdicts := s1.mem.leafVerdicts.filter fun x => !(x.1 == ctx && x.2.2.1 == k) } }

/-- Keep a finished leaf record with those of its context and epoch. -/
def keepLeafVerdict (j : ScoreJob) (b : Bytes) (s : State) : State :=
  let mine := fun x : Nat × BitVec 16 × Nat × List Bytes => x.1 == j.ctx && x.2.2.1 == j.pub
  let old := ((s.mem.leafVerdicts.find? mine).map (·.2.2.2)).getD []
  let rs := if published b then old ++ [b] else old
  { s with mem := { s.mem with leafVerdicts := putBack mine (j.ctx, j.gen, j.pub, rs) s.mem.leafVerdicts } }

/-- The updates of an epoch have ended at a leaf. -/
def State.updatesDone (s : State) (k : Nat) : Bool := s.mem.tables.all fun t => t.rows.all fun r => k ≤ r.v.epoch

/-- A leaf lane scores a row once the updates of the epoch have ended (R319). A feature-buffer word that it cannot correct
makes the row start from zero at its next update (17 R450). The provider's records leave with the last one due; those of
tenants wait for their release. -/
def execLeafModelScore (model row epoch : Nat) (check : CheckOutcome) (read : LaneRead) (s : State) : Res :=
  onLeaf "LEAF_MODEL_SCORE" s <| byUnit clsLane check fun s =>
    let up := match s.unit? clsUpdate with
      | some u => 0 < u.inService
      | none => false
    if !up || !s.updatesDone epoch then s
    else
      match slotStart model row epoch check read s, s.model? model with
      | some (j, s1), some h =>
        if s1.genOf j.ctx != j.gen then s
        else
          let j1 := finishJob h.m j s1
          let s2 := keepLeafVerdict j1 (j1.record.getD []) (unitCheck clsLane check (putJob j1 s1))
          let s3 := match read with
            | .granary _ => s2.onTable j.table fun t => t.onRow row fun r =>
                { r with v := { r.v with age := 0, words := r.v.words.map fun _ => 0 } }
            | _ => s2
          if j.ctx == 0 && s3.verdictsDone 0 epoch then sendLeafVerdicts 0 epoch s3 else s3
      | _, _ => s

end Sys2Proof.Machine
end

