-- ==== Sys2Proof/Machine/Grants.lean ====
section
/-!
DEFINITION. Grants (12 R334 to R340, R347, R348; 02 R59, R60): holds, the grant step, safe grants, and a leaf's offers.
-/

namespace Sys2Proof.Machine

/-! ## Holds (R335, R336) -/

def holdActive (h : Option (Nat × Nat)) (k : Nat) : Bool :=
  match h with
  | some (_, u) => k ≤ u
  | none => false

/-- A row with cap c and hold n is applied in epoch k. -/
def applyHold (h : Option (Nat × Nat)) (k c n : Nat) : Option (Nat × Nat) :=
  match h with
  | some (hc, u) => if u < k then some (c, k + n - 1) else some (min hc c, max u (k + n - 1))
  | none => some (c, k + n - 1)

def State.die (s : State) (d : Nat) : Die := (s.act.dies.find? (·.d == d)).getD { d := d, g := none, hold := none }

def State.putDie (s : State) (x : Die) : State :=
  { s with act := { s.act with dies := putBack (·.d == x.d) x s.act.dies } }

/-- The dies of the tray that are members at an epoch, by down-lane pair. -/
def State.memberDies (s : State) (k : Nat) : List Nat :=
  sortBy id ((expectedSlots s.red.changes 0 k).filter fun d => !absentAt s.red.changes 0 d k)

/-- The action rows that the records of epoch k apply, by die: (die, row number, CAP, HOLD) (R335). -/
def State.capRows (s : State) (k : Nat) : List (Nat × Nat × Nat × Nat) :=
  let rows := actRowsAt s.act.rows k
  (s.recordsOf 0 k).flatMap fun b =>
    match rows[fld b 28 2]? with
    | none => []
    | some r =>
      let hit := fun d => (d, fld b 28 2, r.cap, r.hold)
      match r.kind with
      | .mark => []
      | .capDie => match s.leafSlot (fld b 16 4 / 2 ^ 15) with
        | some d => [hit d]
        | none => []
      | .capTray => (s.memberDies k).map hit

/-! ## The grant step (R337) -/

/-- The policy of a die in force at an epoch. -/
def policyAt (ps : List (Nat × Nat × Nat)) (d k : Nat) : Option Nat :=
  (ps.foldl (fun (b : Option (Nat × Nat)) p => if p.1 == d && p.2.1 ≤ k then (match b with
      | some (e, w) => if e ≤ p.2.1 then some (p.2.1, p.2.2) else some (e, w)
      | none => some (p.2.1, p.2.2)) else b) none).map (·.2)

/-- B in force at T_k. -/
def State.budgetAt (s : State) (k : Nat) : Nat :=
  match s.act.bAt.find? (·.1 == k) with
  | some x => x.2
  | none => match s.act.bAt with
    | x :: _ => x.2
    | [] => 0

/-- One die's next grant from its target. -/
def stepGrant (up dn g target : Nat) : Nat := if g < target then min target (g + up) else max target (g - dn)

/-- GRANT (R339). -/
def grantMsg (k grant : Nat) (live safe : Bool) (action : Nat) : Bytes :=
  ctlMsg 0x01 (le 4 k ++ le 2 grant ++ le 1 (b2n live + 2 * b2n safe) ++ le 1 0 ++ le 2 action ++ zeros 2)

/-- Every due verdict of context 0 is final, the epoch has come and the instance runs its role (R337, R338, R348). -/
def State.grantReady (s : State) (k : Nat) : Bool :=
  s.cfg.role == .tray && s.carrying && !s.act.safe && k ≤ s.curEpoch && s.verdictsDone 0 k

/-- A JOIN of epoch k names the slot of a die; the silent entries of a start are none (R551). -/
def State.joins (s : State) (k d : Nat) : Bool :=
  s.red.changes.any fun c => c.ctx == 0 && c.slot == d && c.e.join && c.e.epoch == k && !c.silent

/-- The grant step of epoch k. A die that joins at k starts from its policy, also after an absence. -/
def grantStep (k : Nat) (s : State) : State :=
  let s := { s with act := { s.act with dies := mapIf (fun x => s.joins k x.d) (fun x => { x with g := none }) s.act.dies } }
  let caps := s.capRows k
  let s1 := caps.foldl (fun s c => let x := s.die c.1; s.putDie { x with hold := applyHold x.hold k c.2.2.1 c.2.2.2 }) s
  let dies := (s1.memberDies k).filterMap fun d => (policyAt s1.act.policies d k).map fun w => (d, w)
  let target := fun x : Nat × Nat => match (s1.die x.1).hold with
    | some (hc, u) => if k ≤ u then min x.2 hc else x.2
    | none => x.2
  let ts := dies.map fun x => (x.1, x.2, target x)
  let total := sumNat (ts.map fun x => x.2.2)
  let b := s.budgetAt k
  let scaled := decide (b < total)
  let s2 := ts.foldl (fun s x =>
    let d := s.die x.1
    let t := if scaled then x.2.2 * b / total else x.2.2
    let g := stepGrant s.cfg.stepUp s.cfg.stepDn (d.g.getD x.2.1) t
    let action := (caps.filter (·.1 == x.1)).foldl (fun m c => min m c.2.1) 0xFFFF
    (s.putDie { d with g := some g }).sendCtlAll (s.slotLanes x.1) (grantMsg k g true false action)) s1
  let s3 := { s2 with act := { s2.act with lastStep := k } }
  if scaled then s3.setBit .act 27 else s3

/-- Grant steps run in epoch order (R338). -/
def execGrantStep (s : State) : Res :=
  onTray "GRANT_STEP" s fun s => 
    let k := s.act.lastStep + 1
    if s.grantReady k then
      let late := (s.boundary? k).any fun b => b.t + nsT 34000 < s.now
      let s0 := grantStep k s
      let s1 := if late then s0.setBit .act 28 else s0
      { s1 with evr := { s1.evr with grantDone := (s.boundary? k).map fun b => (s.now - b.t) / nsT 10 } }
    else s

/-- The step of an epoch has not run by T_k + 34 µs (R338). -/
def execGrantLate (s : State) : Res :=
  onTray "GRANT_LATE" s fun s =>
    match s.boundary? (s.act.lastStep + 1) with
    | some b =>
      if s.cfg.role == .tray && s.carrying && !s.act.safe && b.t + nsT 34000 ≤ s.now then
        (s.setBit .act 28)
      else s
    | none => s

/-! ## Safe values (R347, R348) -/

/-- The safe grant in 1/16 W; code 0 clears LIVE. -/
def safeGrant (code : Nat) : Nat := 160 * code

/-- The safe grants of a boundary: to every leaf, once per epoch (R348). -/
def sendSafeGrants (k : Nat) (s : State) : State :=
  if s.isTray && s.act.safe && s.cfg.role == .tray && s.mode != .off then
    let c := s.straps.safeGrant.toNat
    let planned := (s.lanes.filter fun l => l.plan.use.isDown && l.plan.active).map (·.n)
    s.sendCtlAll (if s.mode == .bivouac then planned else s.lanesFor LaneUse.isDown)
      (grantMsg k (safeGrant c) (c != 0) true 0xFFFF)
  else s

/-- The instance leaves its safe values (R348): the loop starts from the safe duty and B_HOLD, a die with a policy from its
safe grant, or from its policy with code 0. -/
def leaveSafe (bHold : Nat) (s : State) : State :=
  let u : Int := ((safeDuty s.straps.safeValve.toNat / 250 * 2 ^ 20 : Nat) : Int)
  let c := s.straps.safeGrant.toNat
  let ds := ((s.act.policies.map (·.1)).eraseDups).filterMap fun d =>
    (policyAt s.act.policies d s.curEpoch).map fun w =>
      ({ d := d, g := some (if c = 0 then w else safeGrant c), hold := none } : Die)
  { s with act := { s.act with
    safe := false
    u := u
    integ := u
    b := bHold
    bAt := [(s.curEpoch, bHold)]
    dies := ds
    lastStep := s.curEpoch } }

/-! ## A leaf's grants (R340) -/

/-- Later modulo 2^32. -/
def laterEpoch (e last : BitVec 32) : Bool := let d := (e - last).toNat; 1 ≤ d && d ≤ 2 ^ 31 - 1

/-- Has a count of boundaries since an event reached GRANT_STALE? None counts as never. -/
def State.grantOld (s : State) (n : Option Nat) : Bool :=
  match n with
  | some n => s.cfg.grantStale ≤ n
  | none => true

/-- Take a grant: PG_LIVE follows LIVE, and with LIVE the value waits for an offer; either replaces a waiting one (R59). -/
def takeGrant (live safe : Bool) (epoch : BitVec 32) (w : BitVec 16) (s : State) : State :=
  { s with
    pins := { s.pins with pgLive := live }
    grant := { s.grant with
      last := if safe then s.grant.last else some epoch
      sinceNonSafe := if safe then s.grant.sinceNonSafe else some 0
      sinceAny := some 0
      waiting := if live then some w else none } }

/-- GRANT at a leaf (R340): the table of R340 from its first row. -/
def execGrant (lane : Nat) (msg : Bytes) (s : State) : Res :=
  onLeaf "GRANT" s fun s =>
    let s := s.taken lane msg
    let e := BitVec.ofNat 32 (fld msg 4 4)
    let w := BitVec.ofNat 16 (fld msg 8 2)
    let live := bit (fld msg 10 1) 0
    if bit (fld msg 10 1) 1 then
      if s.grantOld s.grant.sinceNonSafe then takeGrant live true e w s else s
    else
      let later := match s.grant.last with
        | some l => laterEpoch e l
        | none => true
      if later then takeGrant live false e w s else s

/-- The leaf raises PG_VLD with the latest grant, at or above the PG_FLOOR of that cycle (R59, R60), once PG_VLD has been
low for a CK_C cycle. -/
def execGrantOffer (floor : BitVec 16) (s : State) : Res :=
  onLeaf "GRANT_OFFER" s fun s =>
    match s.grant.waiting with
    | some w =>
      if s.pins.pgVld || s.grant.droppedAt.any (fun e => s.edges < e + 2) then s
      else
        let clamp := decide (w.toNat < floor.toNat)
        let s1 := { s with
          pins := { s.pins with pgVld := true, pgWatt := if clamp then floor else w }
          grant := { s.grant with waiting := none, raisedAt := some s.now, noAck := false } }
        if clamp then s1.countHealth 315 1 else s1
    | none => s

/-- PG_ACK ends the offer (R59). -/
def execPgAck (s : State) : Res :=
  onLeaf "PG_ACK" s fun s =>
    if s.pins.pgVld then
      { s with
        pins := { s.pins with pgVld := false }
        grant := { s.grant with raisedAt := none, noAck := false, droppedAt := some s.edges } }
    else s

/-- An offer without PG_ACK 64 CK_C cycles, 80 ns, after it rose is reported once; the leaf keeps offering (R59). -/
def execGrantNoAck (s : State) : Res :=
  onLeaf "GRANT_NO_ACK" s fun s =>
    let due := s.grant.raisedAt.any fun t => decide (t + nsT 80 ≤ s.now)
    if s.pins.pgVld && due && !s.grant.noAck then
      let s1 := s.countHealth 314 1
      { s1 with grant := { s1.grant with noAck := true } }.setBit .rstState 21
    else s

/-- No grant taken in the last GRANT_STALE epochs (R340). -/
def execGrantStale (s : State) : Res :=
  onLeaf "GRANT_STALE" s fun s =>
    if s.grantOld s.grant.sinceAny then { s with pins := { s.pins with pgLive := false } } else s

/-- Both counts of R340 run over the boundaries of the leaf's own schedule. -/
def countGrantBoundary (s : State) : State :=
  { s with grant := { s.grant with
    sinceNonSafe := s.grant.sinceNonSafe.map (· + 1)
    sinceAny := s.grant.sinceAny.map (· + 1) } }

end Sys2Proof.Machine
end

