-- ==== Sys2Proof/Machine/Loop.lean ====
section
/-!
DEFINITION. The tray loop (12 R341 to R346): bus samples, the loop step, mastership, converter limits.
-/

namespace Sys2Proof.Machine

/-- P_GRANT_MAX and B_HOLD with their defaults (R344). -/
def State.pGrantMax (s : State) : Nat :=
  match s.act.loop.pGrantMax with
  | some p => p
  | none => sumNat (((s.act.policies.map (·.1)).eraseDups).filterMap fun d => policyAt s.act.policies d s.curEpoch)

/-- The default of B_HOLD is the sum of the radio floors reported at attach. -/
def State.bHold (s : State) : Nat := s.act.loop.bHold.getD (sumNat (s.act.floors.map (·.2)))

/-- The slew limit (R343). -/
def slew : Int := 335

/-- u and integ after a period (R343). -/
def loopDuty (c : LoopCfg) (safeU : Int) (tOut : Option Int) (u integ : Int) : Int × Int :=
  match tOut with
  | some t =>
    let e := t - c.tSet
    let cand := c.kp * e + integ
    let un := clampInt (u - slew) (u + slew) (clampInt c.uMin c.uMax cand)
    let move := un = cand ∨ (cand > un ∧ e < 0) ∨ (cand < un ∧ e > 0)
    (un, if move then clampInt c.uMin c.uMax (integ + c.ki * e) else integ)
  | none => (clampInt (u - slew) (u + slew) safeU, integ)

/-- The duty in steps of 1/4,000. -/
def dutyOf (u : Int) : Nat := ((u * 4000 + 2 ^ 23) / 2 ^ 24).toNat

/-- B after a period (R343). -/
def loopBudget (c : LoopCfg) (pMax bHold : Nat) (tOut : Option Int) (vAvg b : Nat) : Nat :=
  let t0 : Int := if vAvg < c.vHold then bHold else pMax
  let t1 := match tOut with
    | some t => if c.tHigh < t then min t0 (pMax - c.kt * (t - c.tHigh)) else t0
    | none => t0
  let t := (max t1 0).toNat
  if t < b then t else min t (b + c.bUp)

/-- The TAI millisecond of a time. -/
def milli (t : Ticks) : Nat := t / nsT 1000000

/-- Bus averages of the period just ended; without a sample the last ones stand. -/
def busAverage (s : State) : Nat × Nat :=
  if s.act.samples = 0 then (s.act.vAvg, s.act.iAvg)
  else ((freeDiv s.act.vSum s.act.samples).toNat, (freeDiv s.act.iSum s.act.samples).toNat)

/-- The word of a read, of its retry where the first fails (02 R74). -/
def pmbValue (x : PmbRead) : Option (BitVec 16) := x.first <|> x.second

/-- The transactions that a read takes. -/
def pmbReads (command : Nat) (l : List (Nat × PmbRead)) : List Out :=
  l.flatMap fun x => if x.2.first.isSome then [.pmbusRead x.1 command] else [.pmbusRead x.1 command, .pmbusRead x.1 command]

/-- What the master sends its twin after a period (R342); its layout is open (assumption 10). -/
def loopShare (m v i : Nat) (lost : Bool) (tOut : Option Int) (iout : List (Nat × PmbRead)) : Bytes :=
  Config.ctlPayload 0x80 ([m, v, i, b2n lost, code 32 (tOut.getD 0), b2n tOut.isSome]
    ++ iout.flatMap fun x => [x.1, ((pmbValue x.2).map (·.toNat)).getD 0, b2n (pmbValue x.2).isSome])

def State.conv (s : State) (c : Nat) : Conv :=
  (s.act.convs.find? (·.c == c)).getD { c := c, written := none, unreachable := false, tried := none, iout := none,
                                          vin := none, safeDone := false }

def State.putConv (s : State) (x : Conv) : State :=
  { s with act := { s.act with convs := putBack (·.c == x.c) x s.act.convs } }

/-- A converter that failed its retry (02 R74). -/
def convFail (c : Nat) (s : State) : State :=
  let s1 := s.putConv { s.conv c with unreachable := true, tried := some s.now }
  (s1.setBit .act 24)

/-- A converter that is CONV_UNREACHABLE is retried once per second (R345). -/
def State.convDue (s : State) (c : Nat) : Bool :=
  match (s.conv c).unreachable, (s.conv c).tried with
  | true, some t => decide (t + secT ≤ s.now)
  | _, _ => true

/-- The reads of a period that the master makes: one of each of at most 8 converters (02 R74, R342, R345). -/
def State.dueReads (s : State) (l : List (Nat × PmbRead)) : List (Nat × PmbRead) :=
  ((List.range 8).filter s.convDue).filterMap fun c => l.find? (·.1 == c)

def takeIout (l : List (Nat × PmbRead)) (s : State) : State :=
  l.foldl (fun s x => match pmbValue x.2 with
    | some v => s.putConv { s.conv x.1 with iout := some v, unreachable := false }
    | none => convFail x.1 s) s

def takeVin (l : List (Nat × PmbRead)) (s : State) : State :=
  l.foldl (fun s x => match pmbValue x.2 with
    | some v => s.putConv { s.conv x.1 with vin := some v }
    | none => convFail x.1 s) s

/-- The I3C target of T_OUT, when the bus has it (02 R73; assumption 140). -/
def State.tOutAddr (s : State) : Option Nat :=
  s.act.loop.target.bind fun n => (s.i3c[n]?).map (·.1)

/-- What the master reads in a period: T_OUT over I3C, then READ_IOUT and READ_VIN over SMBus (02 R73, R74). A converter
that fails the first read is not asked for the second. -/
def issueReads (i : LoopIn) (s : State) : State :=
  let io := s.dueReads i.iout
  let s1 := takeIout io (s.emits ((s.tOutAddr.map Out.i3cRead).toList ++ pmbReads 0x8C io))
  let vin := s1.dueReads i.vin
  takeVin vin (s1.emits (pmbReads 0x88 vin))

/-- What the other member takes of the master's readings of the converters (R342): those that did not fail. -/
def takeReadings (l : List (Nat × PmbRead)) (s : State) : State :=
  takeIout (((List.range 8).filterMap fun c => l.find? (·.1 == c)).filter fun x => (pmbValue x.2).isSome) s

/-- T_OUT counts as not read without a named target; ten periods without it set SENSE_LOST (R344). -/
def countRead (tOut : Option Int) (s : State) : State :=
  let n := if tOut.isSome then 0 else s.act.noRead + 1
  let s1 := { s with act := { s.act with noRead := n, tOut := tOut } }
  if 10 ≤ n then (s1.setBit .act 26) else s1

/-- The loop step of a period from the master's inputs, its results due at the first boundary at or after the start of
period m + 2. While the master's BUS_SENSE_LOST is set B holds its value (R345). -/
def loopStep (m v i : Nat) (lost : Bool) (tOut : Option Int) (s : State) : State :=
  let c := s.act.loop
  let safeU : Int := ((safeDuty s.straps.safeValve.toNat / 250 * 2 ^ 20 : Nat) : Int)
  let (u, integ) := loopDuty c safeU tOut s.act.u s.act.integ
  let b := if lost then s.act.b else loopBudget c s.pGrantMax s.bHold tOut v s.act.b
  let s1 := countRead tOut s
  { s1 with act := { s1.act with
    u := u
    integ := integ
    b := b
    vAvg := v
    iAvg := i
    holdup := decide (v < c.vHold)
    outs := s1.act.outs ++ [{ m := m, duty := dutyOf u, b := b }] } }

/-- New settings are used from the period that begins now, with integ clamped (16 R438). -/
def nextSettings (s : State) : State :=
  match s.act.nextLoop with
  | some c => { s with act := { s.act with loop := c, nextLoop := none, integ := clampInt c.uMin c.uMax s.act.integ } }
  | none => s

/-- A newcomer follows the loop from its CATCHUP on, so that it has the pair's B and duty at its join (R337, R342). -/
def State.followsLoop (s : State) : Bool := s.twin.attach.any fun a => !a.carrier && (a.phase == .catchup || a.phase == .join)

/-- The first loop step of a member that carries the role leaves the safe values (R348). -/
def firstStep (s : State) : State := if s.act.safe && s.carrying then leaveSafe s.bHold s else s

/-- A loop step at the loop master: its averages and readings, and their copy to the twin over belay. -/
def masterStep (m : Nat) (i : LoopIn) (s : State) : State :=
  let s0 := firstStep s
  let (v, a) := busAverage s0
  let lost := s0.sticky.act.getLsbD 25
  let tOut := if s0.tOutAddr.isSome then i.tOut else none
  let s1 := issueReads i (loopStep m v a lost tOut s0)
  if s1.belayUp then
    s1.sendMsgAll ((s1.bundleLane LaneUse.isBelay 1).toList) 3 0 0 (s1.genOf 0) (loopShare m v a lost tOut (s0.dueReads i.iout))
  else s1

/-- The end of a loop period (R342). In bivouac and before the role is carried there is no step (R348); the bus averages of
a period take its own samples alone. -/
def execLoopPeriod (i : LoopIn) (s : State) : Res :=
  onTray "LOOP_PERIOD" s fun s =>
    let m := milli s.now - 1
    let clear := fun s : State => { s with act := { s.act with vSum := 0, iSum := 0, samples := 0 } }
    if s.cfg.role != .tray || !(s.carrying || s.followsLoop) then clear s
    else
      let master := s.carrying && s.loopMaster
      let s2 := if master then masterStep m i s
        else match i.fromTwin with
          | some (v, a, lost) => takeReadings i.iout (loopStep m v a lost i.tOut (firstStep s))
          | none => s
      let temps := (i.temps.take 8).zipIdx.map fun x => (x.2, x.1)
      let tSeen := match i.tOut with
        | some t => if master then [(8, t)] else []
        | none => []
      let s3 := s2.metrics (temps ++ tSeen ++ [(9, (s2.act.vAvg : Int)), (10, (s2.act.iAvg : Int)),
        (11, (s2.act.duty : Int)), (12, (s2.act.b : Int))])
      nextSettings (clear s3)

/-- The results of the periods whose time has come take effect at a boundary (R342); a newcomer's valve stays at its safe
duty until it joins (18 R482). -/
def applyLoop (k : Nat) (t : Ticks) (s : State) : State :=
  let due := s.act.outs.filter fun o => nsT ((o.m + 2) * 1000000) ≤ t
  let bNow := match s.act.bAt with
    | x :: _ => x.2
    | [] => 0
  match due.reverse with
  | o :: _ =>
    { s with
      act := { s.act with
        duty := o.duty
        outs := s.act.outs.filter fun o => t < nsT ((o.m + 2) * 1000000)
        bAt := ((k, o.b) :: s.act.bAt).take 4096 }
      pins := { s.pins with pwmValve := if s.carrying then o.duty else s.pins.pwmValve } }
  | [] => { s with act := { s.act with bAt := ((k, bNow) :: s.act.bAt).take 4096 } }

/-- Side B becomes loop master once belay and every leaf's lane to side A have been down for 1 ms (R341). -/
def execLoopMasterTakeover (s : State) : Res :=
  onTray "LOOP_MASTER_TAKEOVER" s fun s =>
    if s.cutOff && s.act.aloneSince.any (fun t => t + nsT 1000000 ≤ s.now) then { s with act := { s.act with takeover := true } }
    else s

/-- A bus sample (02 R78). -/
def execV42Stb (v i : BitVec 16) (s : State) : Res :=
  onTray "V42_STB" s fun s =>
    { s with act := { s.act with
      vSum := s.act.vSum + v.toNat
      iSum := s.act.iSum + i.toNat
      samples := s.act.samples + 1
      strobe := s.tim.cycle } }

/-- No strobe for 1 ms, 1,600,000 CK_E cycles, or since the block left reset (02 R78). -/
def execBusSenseLost (s : State) : Res :=
  onTray "BUS_SENSE_LOST" s fun s =>
    if s.act.strobe + 1600000 ≤ s.tim.cycle then s.setBit .act 25 else s

/-- LINEAR11 of a whole number of amperes, with exponent 0 (assumption 30). -/
def linear11 (n : Nat) : BitVec 16 := BitVec.ofNat 16 (n % 1024)

/-- The limit that the master wants on a converter (R345, R347, R348). -/
def State.wantedLimit (s : State) (c : Nat) : Option (BitVec 16) :=
  if s.act.safe then
    let n := s.straps.safeIlim.toNat
    if n = 0 || (s.conv c).safeDone then none else some (linear11 (4 * n))
  else nth (if s.act.holdup then s.act.loop.ilimHold else s.act.loop.ilim) c none

/-- May the master write converter c now (R345)? -/
def State.mayWrite (s : State) (c : Nat) (v : BitVec 16) : Bool :=
  let x := s.conv c
  let rested := match x.written with
    | some (w, t) => s.act.safe || w != v && decide (t + nsT 100000000 ≤ s.now)
    | none => true
  s.loopMaster && !s.sticky.act.getLsbD 25 && rested && s.convDue c && c < 8

/-- The master writes a changed limit, once more when its packet error check fails (R345, 02 R74). -/
def execConverterLimitWrite (c : Nat) (acks : PmbWrite) (s : State) : Res :=
  onTray "CONVERTER_LIMIT_WRITE" s fun s =>
    match s.wantedLimit c with
    | some v =>
      if !s.mayWrite c v then s
      else
        let s1 := s.emits (if acks.first then [.pmbusWrite c 0x46 v] else [.pmbusWrite c 0x46 v, .pmbusWrite c 0x46 v])
        if acks.first || acks.second then
          s1.putConv { s1.conv c with written := some (v, s1.now), unreachable := false, tried := none, safeDone := s1.act.safe }
        else convFail c s1
    | none => s

/-- SMB_ALERT_N sets a status bit and has no other effect (02 R74). -/
def execSmbAlert (s : State) : Res := onTray "SMB_ALERT" s fun s => { s with act := { s.act with smbAlert := true } }

end Sys2Proof.Machine
end

