-- ==== Sys2Proof/Machine/Ether.lean ====
section
/-!
DEFINITION. The management port's MAC and its clause 49 PCS (02 R72). The spec names IEEE 802.3 and restates none of it:
the framing, the check sequence, the block coding and the scrambler below are PRESUMED (assumption 168).
-/

namespace Sys2Proof.Machine

/-! ## The MAC -/

/-- CRC-32 of IEEE 802.3: reflected polynomial 0xEDB8_8320, initial value and final XOR all ones. -/
def fcsBit (c : BitVec 32) : BitVec 32 := if c.getLsbD 0 then (c >>> 1) ^^^ 0xEDB88320#32 else c >>> 1

def fcsByte (c : BitVec 32) (b : Byte) : BitVec 32 := (List.range 8).foldl (fun c _ => fcsBit c) (c ^^^ b.setWidth 32)

def fcs (b : Bytes) : Bytes := le 4 (~~~ (b.foldl fcsByte 0xFFFFFFFF#32)).toNat

/-- A frame from its destination address to its check sequence, padded to 64 bytes. -/
def macFrame (b : Bytes) : Bytes := let p := b ++ zeros (60 - b.length); p ++ fcs p

/-- A frame that the MAC keeps: at least 64 bytes and a right check sequence. -/
def macOk (f : Bytes) : Bool := 64 ≤ f.length && fcs (f.take (f.length - 4)) == f.drop (f.length - 4)

/-! ## The PCS -/

/-- The block type of a block that ends a frame after n octets. -/
def endType (n : Nat) : Nat := [0x87, 0x99, 0xAA, 0xB4, 0xCC, 0xD2, 0xE1, 0xFF][n]?.getD 0

/-- The preamble's last seven octets, after the start control character. -/
def preamble : Bytes := List.replicate 6 0x55#8 ++ [0xD5#8]

/-- The coded blocks of a frame, as sync header and payload: the start block, the data blocks and the end block, whose
remaining control codes are idles. -/
def pcsBlocks (f : Bytes) : List (BitVec 2 × Bytes) :=
  let n := f.length / 8
  (1, 0x78#8 :: preamble) :: ((List.range n).map fun i => (2, slice f (8 * i) 8))
    ++ [(1, padTo 8 (BitVec.ofNat 8 (endType (f.length % 8)) :: f.drop (8 * n)))]

/-- One bit through the self-synchronous scrambler x^58 + x^39 + 1, whose register holds the last 58 bits sent. -/
def scrambleBit (r : BitVec 58) (b : Bool) : BitVec 58 × Bool :=
  let o := b ^^ r.getLsbD 38 ^^ r.getLsbD 57
  ((r <<< 1) ||| (BitVec.ofBool o).setWidth 58, o)

def scrambleBits (r : BitVec 58) : List Bool → BitVec 58 × List Bool
  | [] => (r, [])
  | b :: bs =>
    let x := scrambleBit r b
    let y := scrambleBits x.1 bs
    (y.1, x.2 :: y.2)

def byteBits (b : Byte) : List Bool := (List.range 8).map b.getLsbD

/-- The bits of the blocks on MG_TXD, first bit first: the sync header as it is, then the scrambled payload. -/
def txBits (r : BitVec 58) : List (BitVec 2 × Bytes) → List Bool
  | [] => []
  | x :: xs =>
    let y := scrambleBits r (x.2.flatMap byteBits)
    x.1.getLsbD 0 :: x.1.getLsbD 1 :: y.2 ++ txBits y.1 xs

/-- The 32-bit words of MG_TXD, each with its first bit in bit 0. -/
def txWords (bits : List Bool) : List (BitVec 32) :=
  (List.range ((bits.length + 31) / 32)).map fun i =>
    BitVec.ofNat 32 ((((bits.drop (32 * i)).take 32).zipIdx).foldl (fun a x => if x.1 then a + 2 ^ x.2 else a) 0)

/-- A UDP datagram that leaves the port, with the words of MG_TXD that carry it. The headers below it and what the
scrambler holds are free (assumption 168). -/
def State.mgmtOut (s : State) (dest : NetSource) (b : Bytes) : Out :=
  .mgmtSend dest b (txWords (txBits (Config.mgScrambler s.edges) (pcsBlocks (macFrame (Config.mgHeader dest b ++ b)))))

end Sys2Proof.Machine
end

