-- ==== Sys2Proof/Machine/RawRing.lean ====
section
/-!
DEFINITION. The raw ring, checkpoints and capture areas (07 R216, R217, 08 R227, 13 R363 to R370, 05 R138).
-/

namespace Sys2Proof.Machine

/-! ## The log (13 R366 to R370) -/

/-- Lines of the log: the raw ring less its index of 1 GiB. -/
def State.logLines (s : State) : Nat := (((s.cfg.regions.getD 0 (0, 0)).2) - 2 ^ 30) / 64

/-- The index entry of an epoch is shared with the epochs that differ by a multiple of 2^21. -/
def sameIndex (a b : Nat) : Bool := a % 2 ^ 21 == b % 2 ^ 21

def overlaps (a n b m : Nat) : Bool := a < b + m && b < a + n

/-- Write a block at the log's write position: VALID of every block that it enters is cleared first (R368), and EPOCH of
the index entry becomes k (R367). A block that would pass the end of the log starts again at its first line. -/
def appendBlock (slot k : Nat) (b : Bytes) (s : State) : State :=
  let n := (b.length + 63) / 64
  let at_ := if s.raw.pos + n ≤ s.logLines then s.raw.pos else 0
  let keep := s.raw.blocks.filter fun x =>
    !overlaps at_ n x.line x.lines && !(sameIndex x.k k && x.k != k) && !(x.slot == slot && x.k == k)
  let s1 := s.stripe .p at_ n
  { s1 with
    raw := { s.raw with
      pos := at_ + n
      blocks := keep ++ [{ slot := slot, k := k, line := at_, lines := n, bytes := b, poisoned := false }] }
    red := { s.red with
      landing := mapIf (fun l => l.slot == slot && l.k == k) (fun l => { l with logged := true }) s.red.landing } }

/-- VALID bit of a slot and epoch (R366), of a block that does not read poisoned (09 R271). -/
def State.logged (s : State) (slot k : Nat) : Bool := s.raw.blocks.any fun b => b.slot == slot && b.k == k && !b.poisoned

/-- Subject of a raw-ring block (R365): the leaf id, kind 0x01. -/
def rawSubject (b : Bytes) : Nat := recLeaf b + 2 ^ 24

/-- A landed record enters an engine and is logged (R367, R369); one whose bit is set is not logged again. A block restarts on
another engine while there is one (R363). -/
def execRawRingLog (slot epoch : Nat) (check : CheckOutcome) (s : State) : Res :=
  onTray "RAW_RING_LOG" s <| byUnit clsGlume check fun s =>
    match s.landed? slot epoch with
    | none => s
    | some b =>
      if s.cfg.role != .tray || s.glumeEngines == 0 then s
      else if s.logged slot epoch then
        { s with red := { s.red with
          landing := mapIf (fun l => l.slot == slot && l.k == epoch) (fun l => { l with logged := true }) s.red.landing } }
      else
        let s1 := (unitCheck clsGlume check s).stripe .p 0 (lineCount b.length)
        if s1.glumeEngines == 0 then s1
        else appendBlock slot epoch (glumeBlock .none false false epoch (rawSubject b) b) s1

/-- With fewer than 7 engines in service a record that has not entered one by T_(k+14) is logged with every chunk RAW
(R370). -/
def execRawCopyPath (slot epoch : Nat) (s : State) : Res :=
  onTray "RAW_COPY_PATH" s fun s =>
    let late := match s.timeOf (epoch + 14) with
      | some t => decide (t ≤ s.now)
      | none => false
    match s.landed? slot epoch with
    | some b =>
      if s.cfg.role == .tray && s.glumeEngines < 7 && late && !s.logged slot epoch then
        let s1 := appendBlock slot epoch (glumeBlock .none false true epoch (rawSubject b) b) s
        (s1.setBit .glm 31)
      else s
    | none => s

/-- LOG_LAG (R372): epochs whose records are all landed but not all logged. -/
def State.logLag (s : State) : Nat :=
  let ks := (s.red.landing.map (·.k)).eraseDups
  let whole := fun k => (expectedSlots s.red.changes 0 k).all fun n => absentAt s.red.changes 0 n k || (s.landed? n k).isSome
  min 0xFFF (ks.filter fun k => whole k && s.red.landing.any fun l => l.k == k && !l.logged).length

/-! ## Checkpoints (07 R217, 13 R365, R369) -/

/-- A row with its header line (09 R257). -/
def rowBytes (r : Row) : Bytes :=
  let head := le 4 r.entity.toNat ++ le 4 r.v.age ++ le 8 r.v.epoch ++ le 4 r.skips
    ++ le 4 (b2n r.v.poisoned + 2 * b2n r.hot + 4 * b2n r.v.absent) ++ zeros 40
  head ++ ((r.v.words.drop 16).flatMap fun w => le 4 w.toNat)

/-- The header of a table (09 R255). -/
def tableHeader (t : Table) : Bytes :=
  sealCrc (le 2 t.img.tableId ++ le 1 t.ctx ++ le 1 (if t.img.slot then 1 else 2) ++ le 2 t.gen.toNat ++ le 2 t.img.rowLen
    ++ le 4 t.rows.length ++ le 4 (b2n t.rebuilding + 2 * b2n t.seeded + 4 * b2n t.poisonAny) ++ le 8 t.lastEpoch
    ++ le 8 t.ckptEpoch ++ zeros 28)

def historyBytes (h : History) : Bytes := le 4 h.row ++ le 8 h.epoch ++ h.words.flatMap fun w => le 4 w.toNat

/-- Blocks of a part of any length: ULEN of a block is at most 16 MiB (13 R351). -/
def splitPart (b : Bytes) : List Bytes :=
  (List.range ((b.length + 2 ^ 24 - 1) / 2 ^ 24)).map fun i => (b.drop (2 ^ 24 * i)).take (2 ^ 24)

/-- Each member leaf's latest record, by slot. -/
def State.latestRecords (s : State) : List (Nat × Bytes) :=
  ((s.red.changes.map (·.slot)).eraseDups).filterMap fun n =>
    ((s.red.landing.filter (·.slot == n)).foldl (fun m l => match m with
      | some x => if x.k < l.k then some l else some x
      | none => some l) none).map fun l => (n, l.raw)

/-- The parts of a checkpoint: each table with its header, its history rings, and the leaf values (R217, R365), with W4 and
PRED. -/
def State.ckptParts (s : State) (tabs : List (Table × List Row)) (withLeaves : Bool) : List (Pred × Bool × Bytes) :=
  let rows := tabs.map fun t => (Pred.xor, true, padTo 8 (tableHeader t.1 ++ t.2.flatMap rowBytes))
  let rings := tabs.flatMap fun t => [t.1.ring1s, t.1.ring1m].map fun h => (Pred.xor, true, padTo 8 (h.flatMap historyBytes))
  let vals := if withLeaves then [(Pred.none, false, padTo 8 (s.latestRecords.flatMap (·.2)))] else []
  (rows ++ rings ++ vals).flatMap fun x => (splitPart x.2.2).map fun b => (x.1, x.2.1, b)

/-- The blocks of a checkpoint, its parts numbered within the manifest, kind 0x02 (R365). -/
def ckptBlocks (k : Nat) (parts : List (Pred × Bool × Bytes)) : List Bytes :=
  parts.zipIdx.map fun x => glumeBlock x.1.1 x.1.2.1 false k (x.2 + 2 ^ 25) x.1.2.2

/-- Membership of each context with its MEMBER_SEQ: the expected contributors and those absent, and the changes of the
epoch; and the schedule (R217). -/
def State.ckptState (s : State) : Bytes :=
  let k := s.curEpoch
  let member := s.ctxs.flatMap fun c =>
    let ex := expectedSlots s.red.changes c.id k
    le 1 c.id ++ le 2 (s.genOf c.id).toNat ++ le 4 (memberSeqAt s.red.changes c.id k)
      ++ le 16 (mapOf ex) ++ le 16 (mapOf (ex.filter fun n => absentAt s.red.changes c.id n k))
      ++ (entriesAt s.red.changes c.id k).flatMap entryBytes
  let sched := match s.sched.past with
    | b :: _ => le 8 b.k ++ timeBytes b.t ++ le 4 b.epochNs
    | [] => []
  member ++ sched

/-- The row that the checkpoint takes: the copy made under class P, or the row as it stands between its updates. -/
def State.ckptRow (s : State) (t : Nat) (r : Row) : Row :=
  match s.raw.copies.find? fun c => c.1 == t && c.2.row == r.row with
  | some c => c.2
  | none => r

/-- The writes of a checkpoint into a context's area: its blocks in order, then the manifest (R217). A checkpoint that
does not fit in the area is not written there. -/
def areaWrites (a : CkptArea) (blocks : List Bytes) (manifest : Bytes) : List Out :=
  let all := (blocks.flatMap (padTo 64)) ++ padTo 64 manifest
  if a.base == 0 || a.size < all.length then []
  else (linesOf all).zipIdx.map fun x => .store64 a.ctx (a.base + 64 * x.2) x.1

/-- Class-P transfers of a checkpoint (09 R251): rows without a copy yet are read in their channels, and the parts are written
to staging, whose lines lie across the channels. -/
def State.ckptXfers (s : State) (tabs : List (Table × List Row)) (len : Nat) : State :=
  let copied := fun (t : Table) (r : Row) => s.raw.copies.any fun c => c.1 == t.img.tableId && c.2.row == r.row
  let read := tabs.foldl (fun s t => t.2.foldl (fun x r =>
    if copied t.1 r then x else x.xfer .p (t.1.channel r.row) t.1.img.rowLen) s) s
  read.stripe .p 0 (lineCount len)

/-- A checkpoint is written (R217). A poisoned row or history abandons its block: the manifest is never written
(13 R364). -/
def execCheckpointWrite (s : State) : Res :=
  onTray "CHECKPOINT_WRITE" s fun s =>
    match s.raw.due with
    | [] => s
    | k :: rest =>
      let tabs := s.mem.tables.map fun t => (t, t.rows.map (s.ckptRow t.img.tableId))
      let bad := tabs.any fun t => t.2.any fun r => r.v.poisoned || !r.v.badLines.isEmpty
      let parts := s.ckptParts tabs true
      let blocks := ckptBlocks k parts
      let manifest := sealCrc (Config.manifestBody k s.ckptState (blocks.map crc32c))
      let c : Ckpt :=
        { k := k, tables := tabs.map fun t => (t.1.img.tableId, t.2), leaves := s.latestRecords,
          blocks := blocks, manifest := if bad then [] else manifest, poisoned := false }
      let old := s.raw.ckpts.reverse.take 1 |>.reverse
      let held : List Table := if bad then s.mem.tables else s.mem.tables.map fun t => { t with ckptEpoch := k }
      let s0 := s.ckptXfers tabs (sumNat (blocks.map (·.length)) + c.manifest.length)
      let s1 : State := { s0 with
        raw := { s0.raw with ckpts := old ++ [c], copies := [], due := rest }
        mem := { s0.mem with tables := held } }
      let areas := s.raw.areas.filter fun a =>
        a.since ≤ k && !(s.raw.areas.any fun x => x.ctx == a.ctx && a.since < x.since && x.since ≤ k)
      if bad then s1.setBit .glm 29
      else s1.issue (areas.flatMap fun a =>
        let own := tabs.filter fun t => t.1.ctx == a.ctx
        let mine := ckptBlocks k (s.ckptParts own (a.ctx == 0))
        areaWrites a mine (sealCrc (Config.manifestBody k s.ckptState (mine.map crc32c))))

/-- A checkpoint falls due every CKPT_EPOCHS epochs; one that must wait for the previous one sets CKPT_DEFER (R369). -/
def ckptDue (k : Nat) (s : State) : State :=
  if s.isTray && s.carrying && 0 < s.cfg.ckptEpochs && k % s.cfg.ckptEpochs == 0 then
    let s1 := { s with raw := { s.raw with due := s.raw.due ++ [k] } }
    if s.raw.due.isEmpty then s1 else s1.setBit .glm 27
  else s

/-! ## Capture areas (08 R227, 05 R138) -/

/-- The area of a context for a message's epoch. -/
def State.captArea? (s : State) (ctx k : Nat) : Option CaptArea :=
  (s.capt.filter fun a => a.ctx == ctx && a.since ≤ k).foldl (fun m a => match m with
    | some x => if x.since ≤ a.since then some a else some x
    | none => some a) none

/-- A unit discards an item of another generation (14 R382). -/
def genDiscard (ctx : Nat) (s : State) : State :=
  (s.errCount 24 1).onCtx ctx fun c => { c with genDiscard := c.genDiscard + 1 }

/-- Message q of the context goes into entry q mod N of this twin's half; its FADD comes first (R227, 05 R154). -/
def captureMessage (ctx : Nat) (msg : Bytes) (s : State) : State :=
  match s.captArea? ctx (fld msg 8 8) with
  | some a =>
    if a.base == 0 || a.z < 64 + msg.length then s
    else
      let half := if s.cfg.side == .a then 0 else a.n * a.z
      let i := a.q % a.n
      let addr := a.base + half + i * a.z
      let old := match a.stored.find? (·.1 == i) with
        | some x => x.2
        | none => 0
      let s1 := { s with
        capt := mapIf (fun x => x.ctx == ctx && x.since == a.since)
          (fun x => { x with q := x.q + 1, stored := putBack (fun y => y.1 == i) (i, a.q + 1) x.stored }) s.capt
        captOut := s.captOut ++ [({ ctx := ctx, q := a.q, addr := addr, expect := old, bytes := msg } : CaptMsg)] }
      s1.issue [.fadd ctx addr (BitVec.ofInt 64 (-(old : Int)))]
  | none => s

/-- A message of a share as a tray block verifies it: its trailer's CRC-32C, RTYPE and generation (08 R226, 05 R137). -/
def takeCapture (kinds : List Nat) (msg : Bytes) (s : State) : State :=
  let ctx := fld msg 48 1 % 16
  if !s.carrying || msg.length < 128 || !crcOk msg || !kinds.contains (fld msg 0 1) || fld msg 1 1 != 1 then s
  else if s.heldGen ctx != some (BitVec.ofNat 16 (fld msg 50 2)) then genDiscard ctx s
  else captureMessage ctx msg s

/-- An interval record (05 R138), in its context's share. -/
def execIntervalRecord (lane ctx : Nat) (msg : Bytes) (s : State) : Res :=
  onTray "INTERVAL_RECORD" s fun s =>
    let s1 := s.taken lane msg
    if !s1.carrying || msg.length < 128 || !crcOk msg || fld msg 0 1 != 5 then s1
    else if (s1.heldGen ctx).isNone then genDiscard ctx s1
    else captureMessage ctx msg s1

/-- Trace, watch and scan messages, plain or as Glume, and leaf verdict messages (08 R226, R227, 13 R371, 11 R319). -/
def execCaptureMessage (lane : Nat) (msg : Bytes) (s : State) : Res :=
  onTray "CAPTURE_MESSAGE" s fun s => takeCapture [7, 8, 9, 10, 11, 12] msg (s.taken lane msg)

end Sys2Proof.Machine
end

