-- ==== Sys2Proof/Machine/Flags.lean ====
section
/-!
DEFINITION. The status registers as they read: each RO field from the state that it reports, each W1C field from its
sticky word (03 R84 to R96, 04 R132, 06 R186, 08 R242, 09 R273, R274, 10 R302, 12 R349, 13 R372, 14 R401, 15 R424,
17 R457, R462, 18 R489, R490, 19 R504, 20 R519 to R529).
-/

namespace Sys2Proof.Machine

/-- A field of a register: its value at bits lo and above. -/
def fieldAt (lo v : Nat) : Word := BitVec.ofNat 32 (v * 2 ^ lo)

def stateCode : TimeState → Nat
  | .free => 0
  | .acquire => 1
  | .locked => 2
  | .suspect => 3
  | .holdover => 4

def sourceCode : TimeSource → Nat
  | .none => 0x7F
  | .lane n => n
  | .grandmaster => 0x7E

def modeCode : Mode → Nat
  | .off | .reset | .held | .starting => 0
  | .bivouac => 1
  | .service => 2
  | .detached => 3
  | .degraded => 4

/-- RST_STATE (R523); its STATE changes only at a boundary or a reset, and TIME_ACQUIRE reads its reset value 0 while the
block is not clocked. -/
def State.rstState (s : State) : Word :=
  let acquire := s.clocked && (s.tim.state == .free || s.tim.state == .acquire)
  s.sticky.rstState ||| fieldAt 29 (modeCode s.boot.shown) ||| fieldAt 26 s.boot.bivCause ||| fieldAt 25 (b2n acquire)
    ||| fieldAt 0 (s.boot.semItem % 2 ^ 16)

/-- RST_PITON (14 R401); its reset value shows context 0 ACTIVE, which from then on holds from leaving bivouac. -/
def State.rstPiton (s : State) : Word :=
  let of := fun (p : CtxLife → Bool) => mapOf ((s.ctxs.filter fun c => p c.life && c.id < 16).map (·.id))
  let draining := of fun l => match l with
    | .draining _ => true
    | _ => false
  let active := of fun l => match l with
    | .active _ => true
    | _ => false
  fieldAt 16 draining ||| fieldAt 0 active ||| fieldAt 0 (b2n (!s.clocked))

/-- TIM_STATUS (03 R84 to R96). -/
def State.timStatus (s : State) : Word :=
  s.sticky.tim ||| fieldAt 17 (b2n !s.sched.settled) ||| fieldAt 14 (b2n s.slotLost)
    ||| fieldAt 7 (sourceCode s.tim.source) ||| fieldAt 5 (s.tim.rank % 4) ||| fieldAt 0 (stateCode s.tim.state)

/-- CAP_DRAIN_STAT (04 R132). -/
def State.capDrainStat (s : State) : Word :=
  s.sticky.cap ||| fieldAt 14 (min 0x3FFF s.cap.drainCyc) ||| fieldAt 0 (min 0x3FFF s.cap.maxWait)

def phaseCode : StopPhase → Nat
  | .idle => 0
  | .armed => 1
  | .stopping => 2
  | .stopped => 3
  | .scanning => 4

/-- TRC_STOP_STAT (08 R242). -/
def State.trcStopStat (s : State) : Word :=
  s.sticky.trc ||| fieldAt 29 (phaseCode s.stop.phase) ||| fieldAt 0 (s.stop.segDone % 2 ^ 16)

def State.sparesOf (s : State) (cls : Nat) : Nat :=
  match s.unit? cls with
  | some u => u.spares
  | none => 0

def State.servingOf (s : State) (cls : Nat) : Nat :=
  match s.unit? cls with
  | some u => u.inService
  | none => 0

/-- WIN_STAT (10 R302). -/
def State.winStat (s : State) : Word :=
  s.sticky.win ||| fieldAt 16 (s.sparesOf clsLane % 256) ||| fieldAt 0 (s.servingOf clsLane % 128)

/-- GLM_STAT (13 R372). -/
def State.glmStat (s : State) : Word :=
  s.sticky.glm ||| fieldAt 20 (s.servingOf clsGlume % 16) ||| fieldAt 16 (s.sparesOf clsGlume % 16)
    ||| fieldAt 12 (s.raw.lastErr % 16) ||| fieldAt 0 (if s.isTray then s.logLag else 0)

/-- THR_STAT (09 R273). -/
def State.thrStat (s : State) : Word :=
  s.sticky.thr ||| fieldAt 16 (s.sparesOf clsThresher % 64) ||| fieldAt 0 (min 0xFFFF (s.mem.slotTail / nsT 10))

/-- GRN_STAT (09 R274). -/
def State.grnStat (s : State) : Word :=
  s.sticky.grn ||| fieldAt 0 ((s.mem.hot.filter fun h => !h.vers.isEmpty).length % 2 ^ 14)

/-- Dies with a hold in force (12 R349). -/
def State.holds (s : State) : Nat :=
  (s.act.dies.filter fun d => match d.hold with
    | some (_, u) => decide (s.curEpoch ≤ u)
    | none => false).length

/-- ACT_STAT (12 R349). -/
def State.actStat (s : State) : Word :=
  s.sticky.act ||| fieldAt 31 (b2n s.loopMaster) ||| fieldAt 30 (b2n s.act.safe) ||| fieldAt 29 (b2n s.act.holdup)
    ||| fieldAt 12 (s.pins.pwmValve % 2 ^ 12) ||| fieldAt 0 (s.holds % 256)

/-- Slot and RSEQ of the latest valid record (19 R501, R504). -/
def State.latestRec? (s : State) : Option RingRec :=
  (s.flash.ring.filter (·.valid)).foldl (fun m r => match m with
    | some x => if fld x.bytes 4 4 ≤ fld r.bytes 4 4 then some r else some x
    | none => some r) none

/-- EVR_STAT (19 R504). -/
def State.evrStat (s : State) : Word :=
  match s.latestRec? with
  | some r => s.sticky.evr ||| fieldAt 12 (r.slot % 2 ^ 12) ||| fieldAt 0 (fld r.bytes 4 4 % 2 ^ 12)
  | none => s.sticky.evr

/-- FAB_STAT (20 R527). -/
def State.fabStat (s : State) : Word :=
  s.sticky.fab ||| fieldAt 27 (b2n s.fab.base.isSome) ||| fieldAt 0 (s.fab.tallies.length % 2 ^ 13)

/-- ERR_SUM (17 R457). -/
def State.errSum (s : State) : Word :=
  s.sticky.err ||| fieldAt 23 (b2n (s.mode == .degraded)) ||| fieldAt 8 (s.rowsLeft % 256)
    ||| fieldAt 0 (min 255 s.err.otpFree)

/-- AGE_STAT (17 R462). -/
def State.ageStat (s : State) : Word :=
  let (m, w) := match s.age.pdm with
    | [] => (255, 0)
    | l => leastOf l
  s.sticky.age ||| fieldAt 24 (code 8 s.age.vmApplied) ||| fieldAt 16 (min 255 m) ||| fieldAt 0 (w % 64)

def laneCode : LaneState → Nat
  | .off => 0
  | .detect => 1
  | .equalise => 2
  | .align => 3
  | .hello => 4
  | .auth => 5
  | .keyed => 6
  | .up => 7
  | .standby => 8
  | .failed => 9

/-- ZL_LSTAT (06 R186). -/
def Lane.lstat (l : Lane) : Word :=
  fieldAt 28 (laneCode l.st) ||| fieldAt 24 (l.cause % 16) ||| fieldAt 16 l.peerLane.toNat ||| fieldAt 8 l.peerProto.toNat
    ||| fieldAt 7 (b2n (l.active && l.st == .up)) ||| fieldAt 6 (b2n l.partner) ||| fieldAt 5 (b2n l.retunePending)

/-- ZL_EQ_SET of a lane (02 R45, R65): the setting that the lane uses, and its reset value on a lane that is not configured
and in reset. -/
def State.zlEqSet (s : State) (n : Nat) : BitVec 24 := ((s.lanes.find? (·.n == n)).map (·.eqSet)).getD eqReset

/-- ZL_UP_w (R528). -/
def State.zlUp (s : State) (w : Nat) : Word :=
  fieldAt 0 (mapOf ((s.lanes.filter fun l => l.st == .up && l.n / 32 == w).map (·.n % 32)))

/-- A word of lane status line n (R529). -/
def State.laneWord (s : State) (n w : Nat) : Word :=
  match s.lane? n with
  | some l => if w = 0 then l.lstat else (nth l.ctr (w - 1) 0).setWidth 32
  | none => if w = 0 then 0x00FF0000 else 0

/-- ID_STRAPS (R520). -/
def State.idStraps (s : State) : Word :=
  if s.isLeaf then 0
  else
    let t := s.straps
    fieldAt 16 (b2n t.mgmtEn) ||| fieldAt 12 t.safeIlim.toNat ||| fieldAt 8 t.safeValve.toNat ||| fieldAt 4 t.safeGrant.toNat
      ||| fieldAt 1 t.boot.toNat ||| fieldAt 0 (if t.side == .b then 1 else 0)

def roleCode : Role → Nat
  | .tray => 1
  | .chassis => 2
  | .summit => 3

/-- The place of a tray block in the layout of recorder offset 40 (19 R498). -/
def State.trayPlace (s : State) : Nat :=
  s.cfg.team % 2 ^ 12 + (if s.cfg.side == .b then 2 ^ 12 else 0) + roleCode s.cfg.role * 2 ^ 13

/-- ID_PLACE (R521). -/
def State.idPlace (s : State) : Word :=
  if s.ident.configured then fieldAt 31 1 ||| fieldAt 0 (if s.isLeaf then s.cfg.leafId % 2 ^ 17 else s.trayPlace)
  else 0

/-- ID_REVISION (00 R6). -/
def State.idRevision (s : State) : Word := if s.isLeaf then 0x03012200 else 0x03012201

end Sys2Proof.Machine
end

