-- ==== Sys2Proof/Machine/Registers.lean ====
section
/-!
DEFINITION. The register map (20 R513 to R518, R526 to R529), its reads with their latches and read effects, and its
writes.
-/

namespace Sys2Proof.Machine

/-! ## Bases (15 R403, 20 R516, R526) -/

/-- STW_RING_FAB and STW_LOAD_FAB: 0 until the window base is known. -/
def State.ringFab (s : State) : Nat :=
  match s.fab.base with
  | some b => b + 0x01000000
  | none => 0

def State.loadFab (s : State) : Nat :=
  match s.fab.base with
  | some b => b + 0x40000000
  | none => 0

/-- A tenant id that holds a context. -/
def State.heldId (s : State) (c : Nat) : Bool := (s.heldGen c).isSome

/-- The bases of mailboxes 0 and 16 are known: an image is in force, or in bivouac its MAILBOX item has passed (21 R545). -/
def State.mailboxKnown (s : State) : Bool := s.ident.configured || s.cfg.retBase16 != 0

/-- The command ring of mailbox n (R403, R526): at a leaf in bivouac without its image, the service ring of the boot
descriptor (21 R545). -/
def State.cmdBase (s : State) (n : Nat) : Nat :=
  if 1 ≤ n && n ≤ 15 then
    if !s.heldId n then 0
    else if s.isLeaf then (match s.ctx? n with
      | some c => c.winBase
      | none => 0)
    else s.ringFab + 0x4000 * n
  else if s.isTray then (if s.mailboxKnown then s.ringFab + 0x4000 * n else 0)
  else if s.mailboxKnown then (if n == 0 then s.cfg.cmdBase0 else s.cfg.cmdBase16)
  else match s.boot.desc, s.mode with
    | some d, .bivouac => if n == 16 then d.svcCmd else 0
    | _, _ => 0

def State.mbx? (s : State) (n : Nat) : Option Mbx := s.stw.mbxs.find? (·.n == n)

def State.onMbx (s : State) (n : Nat) (f : Mbx → Mbx) : State :=
  { s with stw := { s.stw with mbxs := mapIf (·.n == n) f s.stw.mbxs } }

/-- The return area of mailbox n (R403, R405, R526). -/
def State.retBase (s : State) (n : Nat) : Nat :=
  if s.isTray then
    match s.mbx? n with
    | some m => if 1 ≤ n && n ≤ 15 && !s.heldId n then 0 else m.ret
    | none => 0
  else if 1 ≤ n && n ≤ 15 then
    if !s.heldId n then 0
    else match s.ctx? n with
      | some c => c.winBase + 0x4000
      | none => 0
  else if s.mailboxKnown then (if n == 0 then s.cfg.retBase0 else s.cfg.retBase16)
  else match s.boot.desc, s.mode with
    | some d, .bivouac => if n == 16 then d.svcRet else 0
    | _, _ => 0

/-- STW_STAT (15 R424). -/
def State.stwStat (s : State) : Word :=
  let most := s.stw.mbxs.foldl (fun m x => max m x.waiting.length) 0
  let set := mapOf ((List.range 16).filter fun c => s.retBase c != 0 || (c == 0 && !s.clocked))
  s.sticky.stw ||| fieldAt 16 (min 31 most) ||| fieldAt 0 set

/-! ## The map (R518) -/

/-- Word i of a value of several words. -/
def wordOf (v i : Nat) : Word := BitVec.ofNat 32 (v / 2 ^ (32 * i))

/-- The lanes of the profile. -/
def State.laneMax (s : State) : Nat := if s.isTray then 80 else 2

/-- The registers of several words: where they start, how many words, and their value. -/
def State.wideReg (s : State) (a : Nat) : Option (Nat × Nat × Nat) :=
  if 0x10 ≤ a && a < 0x18 then some (0x10, 2, s.ident.deviceId.toNat)
  else if 0x200 ≤ a && a < 0x210 then some (0x200, 4, s.tim.now.toBits.toNat)
  else if 0x410 ≤ a && a < 0x418 then if s.isTray then some (0x410, 2, s.ringFab) else none
  else if 0x418 ≤ a && a < 0x420 then if s.isTray then some (0x418, 2, s.loadFab) else none
  else if 0x500 ≤ a && a < 0x588 then
    let n := (a - 0x500) / 8
    some (0x500 + 8 * n, 2, s.cmdBase n)
  else if 0x600 ≤ a && a < 0x688 then
    let n := (a - 0x600) / 8
    some (0x600 + 8 * n, 2, s.retBase n)
  else if 0x828 ≤ a && a < 0x830 then if s.isTray then some (0x828, 2, s.optime % 2 ^ 48) else none
  else if 0x834 ≤ a && a < 0x83C then if s.isTray then some (0x834, 2, s.fab.base.getD 0) else none
  else none

/-- A register of one word that only a tray block has. -/
def State.trayReg (s : State) (a : Nat) : Option Word :=
  match a with
  | 0x234 => some s.sched.slotDev
  | 0x810 => some s.thrStat
  | 0x814 => some s.grnStat
  | 0x818 => some s.actStat
  | 0x81C => some (BitVec.ofNat 32 ((s.act.bAt.head?.map (·.2)).getD 0))
  | 0x820 => some s.evrStat
  | 0x824 => some (BitVec.ofNat 32 s.evr.pcyc)
  | 0x830 => some s.fabStat
  | 0xA04 => some (s.zlUp 1)
  | 0xA08 => some (s.zlUp 2)
  | _ => if 0x900 ≤ a && a < 0xA00 && a % 4 == 0 then some (nth s.err.cnt ((a - 0x900) / 4) 0) else none

/-- A register of one word: none where the address is unmapped in the profile. -/
def State.narrowReg (s : State) (a : Nat) : Option Word :=
  match a with
  | 0x000 => some s.idRevision
  | 0x004 => some s.ident.fwif
  | 0x008 => some s.idStraps
  | 0x00C => some s.idPlace
  | 0x100 => some s.rstState
  | 0x104 => some s.boot.cause
  | 0x108 => some s.sticky.rstHang
  | 0x10C => some s.rstPiton
  | 0x110 => some s.sticky.pitonEv
  | 0x210 | 0x214 | 0x218 | 0x21C | 0x220 | 0x224 => some 0
  | 0x228 => some s.tim.stagedFrac
  | 0x22C => some (s.tim.intReg.setWidth 32)
  | 0x230 => some s.timStatus
  | 0x300 => if s.isLeaf then some s.capDrainStat else none
  | 0x304 => if s.isLeaf then some s.trcStopStat else none
  | 0x400 => some (if s.ident.fwif == 0 then 0 else s.stw.boot)
  | 0x404 => some s.stwStat
  | 0x408 => some s.stw.heart
  | 0x800 => some s.winStat
  | 0x804 => some s.err.winTransient
  | 0x808 => some s.glmStat
  | 0x840 => some s.errSum
  | 0x844 => some s.ageStat
  | 0x848 => some s.lifeHours
  | 0xA00 => some (s.zlUp 0)
  | _ =>
    if 0x1000 ≤ a && a < 0x1000 + 64 * s.laneMax && a % 4 == 0 then some (s.laneWord ((a - 0x1000) / 64) ((a - 0x1000) % 64 / 4))
    else if s.isTray then s.trayReg a else none

/-- The address is mapped in the profile (R513). -/
def State.mapped (s : State) (a : Nat) : Bool :=
  a % 4 == 0 && ((s.wideReg a).isSome || (s.narrowReg a).isSome)

/-! ## Reads -/

def State.latched (s : State) (p : Path) (a : Nat) : Word :=
  match s.latches.find? fun l => l.1 == p && l.2.1 == a with
  | some l => l.2.2
  | none => 0

/-- Reading the lowest word of a register latches the others for that path (R515). -/
def latchWide (p : Path) (start n v : Nat) (s : State) : State :=
  setLatches p ((List.range (n - 1)).map fun i => (start + 4 * (i + 1), wordOf v (i + 1))) s

/-- An RC register clears when it is read (00 R16): it then holds the events of that cycle alone (R18). -/
def clearRC (a : Nat) (s : State) : State :=
  let e := s.err
  let i := (a - 0x900) / 4
  if a = 0x804 then { s with err := { e with winTransient := e.winNow, winBefore := 0 } }
  else if s.isTray && 0x900 ≤ a && a < 0xA00 then
    { s with err := { e with
      cnt := modifyAt e.cnt i fun _ => nth e.cntNow i 0
      cntBefore := modifyAt e.cntBefore i fun _ => 0 } }
  else s

/-- What a read of a one-word register returns: an RC counter the value before the cycle (00 R18). -/
def State.readValue (s : State) (p : Path) (a : Nat) (v : Word) : Word :=
  if p == .regRead then v
  else if a = 0x804 then s.err.winBefore
  else if s.isTray && 0x900 ≤ a && a < 0xA00 then nth s.err.cntBefore ((a - 0x900) / 4) 0
  else v

/-- A read of a register on a path (R513 to R515): an unmapped address reads 0. REG_READ clears no RC register. -/
def readReg (p : Path) (a : Nat) (s : State) : Word × State :=
  match s.wideReg a with
  | some (start, n, v) => if a = start then (wordOf v 0, latchWide p start n v s) else (s.latched p a, s)
  | none =>
    match s.narrowReg a with
    | some v => (s.readValue p a v, if p == .regRead then s else clearRC a s)
    | none => (0, s)

/-- Registers at consecutive addresses, read in address order (R517). -/
def readRegs (p : Path) : Nat → Nat → State → List Word × State
  | 0, _, s => ([], s)
  | n + 1, a, s =>
    let (v, s1) := readReg p a s
    let (vs, s2) := readRegs p n (a + 4) s1
    (v :: vs, s2)

/-! ## Writes -/

/-- The host writes W1C bits only (R514); a write to a TIM_ register is refused (03 R85). -/
def hostWrite (a : Nat) (v : Word) (s : State) : State :=
  let k := s.sticky
  let n := s.raisedNow
  match a with
  | 0x100 => { s with sticky := { k with rstState := w1c 0x01F80000 n.rstState k.rstState v } }
  | 0x108 => { s with sticky := { k with rstHang := w1c 0x80000300 n.rstHang k.rstHang v } }
  | 0x110 => { s with sticky := { k with pitonEv := w1c 0xFFFFFFFF n.pitonEv k.pitonEv v } }
  | 0x300 => { s with sticky := { k with cap := w1c 0xF0000000 n.cap k.cap v } }
  | 0x304 => { s with sticky := { k with trc := w1c 0x1F800000 n.trc k.trc v } }
  | 0x404 => { s with sticky := { k with stw := w1c 0xF0000000 n.stw k.stw v } }
  | 0x800 => { s with sticky := { k with win := w1c 0xF8000000 n.win k.win v } }
  | 0x808 => { s with sticky := { k with glm := w1c 0xF8000000 n.glm k.glm v } }
  | 0x810 => { s with sticky := { k with thr := w1c 0xF8000000 n.thr k.thr v } }
  | 0x814 => { s with sticky := { k with grn := w1c 0xE0000000 n.grn k.grn v } }
  | 0x818 => { s with sticky := { k with act := w1c 0x1F000000 n.act k.act v } }
  | 0x820 => { s with sticky := { k with evr := w1c 0xF0000000 n.evr k.evr v } }
  | 0x830 => { s with sticky := { k with fab := w1c 0xF0000000 n.fab k.fab v } }
  | 0x840 => { s with sticky := { k with err := w1c 0xFF000000 n.err k.err v } }
  | 0x844 => { s with sticky := { k with age := w1c 0x0000F000 n.age k.age v } }
  | _ => s

/-- The TIM_ registers that a leaf maps (R518). -/
def isTimReg (a : Nat) : Bool := 0x200 ≤ a && a ≤ 0x230 && a % 4 == 0

/-! ## The commands -/

/-- The port answers for one CK_S cycle: SB_ACK with SB_ERR as given. -/
def sbAnswer (err : Bool) (s : State) : State :=
  { s with pins := { s.pins with sbAck := true, sbErr := err }, sb := { s.sb with ackAt := some s.edges } }

/-- A sideband access of a leaf (02 R63, 03 R85). Where the port's own logic fails, the access and every later one get no
SB_ACK until a reset. -/
def execSidebandAccess (op : SbOp) (addr : Nat) (v : Word) (s : State) : Res :=
  onLeafEver "SIDEBAND_ACCESS" s fun s =>
    let a := addr % 2 ^ 18
    if op == .failed || s.sb.dead then { s with sb := { s.sb with dead := true } }
    else if s.inReset then sbAnswer true { s with pins := { s.pins with sbRdata := 0 } }
    else if op == .write then
      if isTimReg a then sbAnswer true s else sbAnswer false (hostWrite a v s)
    else
      let (r, s1) := readReg .sideband a s
      sbAnswer false { s1 with pins := { s1.pins with sbRdata := r } }

/-- A write to a register on a path: W1C bits clear and the rest is ignored (00 R16, R514). -/
def execRegisterWrite (p : Path) (addr : Nat) (v : Word) (s : State) : Res :=
  .next <| if s.serves p && p != .regRead then hostWrite (addr % 2 ^ 18) v s else s

/-- A read of the lowest word of a register of several words, or of any other register (R515). -/
def readOn (p : Path) (addr : Nat) (s : State) : State :=
  if s.serves p then
    let (v, s1) := readReg p addr s
    s1.emit (.regValue p addr v)
  else s

def execLowestWordRead (p : Path) (addr : Nat) (s : State) : Res := .next (readOn p (addr % 2 ^ 18) s)

/-- EVR_OPT_0 latches both words of OPTIME (19 R504). -/
def execEvrOptRead (p : Path) (s : State) : Res := onTray "EVR_OPT_READ" s (readOn p 0x828)

/-- WIN_TRANSIENT_CNT is cleared by its read (10 R303). -/
def execWinTransientCntRead (p : Path) (s : State) : Res := .next (readOn p 0x804 s)

/-- ERR_CNT_i is cleared by its read (17 R456). -/
def execErrCntRead (p : Path) (i : Nat) (s : State) : Res :=
  onTray "ERR_CNT_READ" s (readOn p (0x900 + 4 * (i % 64)))

end Sys2Proof.Machine
end

