-- ==== Sys2Proof/Machine/Fabric.lean ====
section
/-!
DEFINITION. The tray block's fabric port as a target (02 R71, 05 R157 to R161, 15 R404, 16 R427, 20 R516, R517).
-/

namespace Sys2Proof.Machine

/-! ## Memory behind the port -/

def State.region (s : State) (i : Nat) : Nat × Nat := s.cfg.regions.getD i (0, 0)

/-- HBM address of the staging region's working space that holds the rings and load windows (R403, R427). -/
def State.winAddr (s : State) (off : Nat) : Nat := (s.region 4).1 + 2 ^ 30 + off

/-- HBM address of the contended-store log, behind the landing area (09 R248). -/
def State.clogAddr (s : State) : Nat := (s.region 4).1 + 2 ^ 29

/-- An HBM address lies in a context's part of a region (09 R249): in the feature-table region, in its part of each
channel's portion. -/
def State.inPart (s : State) (ctx a : Nat) : Bool :=
  let n := max 1 s.cfg.shareCount
  let within := fun (r : Nat × Nat) => r.1 ≤ a && a < r.1 + r.2
  let f := s.region 1
  let chan := f.2 / 512
  (within f && 0 < chan / n && (a - f.1) % chan / (chan / n) == ctx) ||
  [s.region 2, s.region 3].any fun r => within r && 0 < r.2 / n && (a - r.1) / (r.2 / n) == ctx

/-- A line that holds nothing of the key under which it would be read: what stands in it was written by a generation whose
key pair has been destroyed (09 R269). -/
def State.stale (s : State) (line : Nat) : Bool :=
  s.mem.rekeyed.any (fun c => s.inPart c (64 * line)) && !s.mem.live.contains line

/-- Such lines of n bytes from a. -/
def State.staleLines (s : State) (a n : Nat) : List Nat :=
  ((List.range ((a + n + 63) / 64 - a / 64)).map (a / 64 + ·)).filter s.stale

/-- What a stale line reads as. -/
def staleLine (line : Nat) : Bytes := (List.range 64).map fun i => Config.staleByte (64 * line + i)

/-- Write bytes; a line that is written whole loses its poison (09 R270). The rest of a stale line is written as it reads. -/
def putBytes (a : Nat) (b : Bytes) (s : State) : State :=
  let old := s.staleLines a b.length
  let hbm := old.foldl (fun m l => memWrites m (64 * l) (staleLine l)) s.mem.hbm
  { s with mem := { s.mem with
    hbm := memWrites hbm a b
    live := s.mem.live ++ old
    bad := s.mem.bad.filter fun l => !(a ≤ 64 * l && 64 * l + 64 ≤ a + b.length) } }

def State.getBytes (s : State) (a n : Nat) : Bytes :=
  (List.range n).map fun i =>
    if s.stale ((a + i) / 64) then Config.staleByte (a + i) else memRead s.mem.hbm (a + i)

/-- Some line of a range reads poisoned. -/
def State.rangeBad (s : State) (a n : Nat) : Bool := s.mem.bad.any fun l => a / 64 ≤ l && l ≤ (a + n - 1) / 64

/-! ## Tally lines (R157 to R159) -/

def State.tally? (s : State) (a : Nat) : Option Tally := s.fab.tallies.find? (·.addr == a / 64 * 64)

def State.onTally (s : State) (a : Nat) (f : Tally → Tally) : State :=
  { s with fab := { s.fab with tallies := mapIf (·.addr == a / 64 * 64) f s.fab.tallies } }

def wordsAdd (x y : Bytes) : Bytes :=
  (List.range 8).flatMap fun i => le 8 ((fld x (8 * i) 8 + fld y (8 * i) 8) % 2 ^ 64)

def bytesOr (x y : Bytes) : Bytes := (List.range 64).map fun i => x.getD i 0 ||| y.getD i 0

/-- Replace n bytes at offset o of a line. -/
def putIn (l : Bytes) (o : Nat) (b : Bytes) : Bytes := l.take o ++ b ++ l.drop (o + b.length)

/-- The merged line goes to memory (R157), a transfer of its share. -/
def writeBack (t : Tally) (s : State) : State := (putBytes t.addr t.line s).xfer (.c t.ctx) (s.channelOf t.addr) 1

/-- Before a FLAG is applied the merged lines go to memory (R157). -/
def flushTallies (s : State) : State := s.fab.tallies.foldl (fun s t => writeBack t s) s

/-- An operation combines with a tally line; a FADD returns the word as it stood (R159), and on an OR line ends with an
access fault (R158). -/
def tallyOp (t : Tally) (op : FabOp) (s : State) : State :=
  match op with
  | .store64 a l => s.onTally a fun t => { t with line := if t.add then wordsAdd t.line l else bytesOr t.line l }
  | .fadd a v =>
    if t.add then
      let o := a % 64 / 8 * 8
      let old := fld t.line o 8
      (s.onTally a fun t => { t with line := putIn t.line o (le 8 ((old + v.toNat) % 2 ^ 64)) }).emit
        (.fabricAnswer (le 8 old) false)
    else s.emit .accessFault
  | .flag a v =>
    (flushTallies s).onTally a fun t => { t with line := putIn t.line (a % 64 / 8 * 8) (le 8 v.toNat) }
  | .read _ => (writeBack t s).emit (.fabricAnswer t.line false)

/-! ## Ordinary lines (R160, R161) -/

/-- An entry of the contended-store log; a wrap of the ring is counted in FAB_CLOG_WRAP. -/
def logStore (x : StoreSeen) (s : State) : State :=
  let e := le 8 x.line ++ le 2 x.src.toNat ++ zeros 2 ++ le 4 x.seq
  let a := s.clogAddr + 16 * s.fab.clogPos
  let s1 := (putBytes a e s).xfer .p (s.channelOf a) 1
  if s.fab.clogPos = 65535 then { s1.errCount 23 1 with fab := { s1.fab with clogPos := 0 } }
  else { s1 with fab := { s1.fab with clogPos := s1.fab.clogPos + 1 } }

/-- Stores of two or more sources that reach one line within 1 µs are logged, each of them once and with its own ingress
sequence number (R161). -/
def noteStore (line : Nat) (src : BitVec 16) (s : State) : State :=
  let x : StoreSeen := { line := line, src := src, at_ := s.now, seq := s.fab.clogSeq.toNat, logged := false }
  let recent := (s.fab.recent.filter fun r => s.now ≤ r.at_ + nsT 1000) ++ [x]
  let mine := recent.filter (·.line == line)
  if mine.all (·.src == src) then { s with fab := { s.fab with recent := recent } }
  else
    let s1 := (mine.filter fun r => !r.logged).foldl (fun s r => logStore r s) s
    { s1 with fab := { s1.fab with recent := mapIf (·.line == line) (fun r => { r with logged := true }) recent } }

/-- An operation on an ordinary line of memory, in ingress order. -/
def plainOp (src : BitVec 16) (a : Nat) (op : FabOp) (s : State) : State :=
  match op with
  | .store64 _ l => noteStore (a / 64 * 64) src (putBytes (a / 64 * 64) (slice l 0 64) s)
  | .flag _ v => noteStore (a / 64 * 64) src (putBytes (a / 8 * 8) (le 8 v.toNat) (flushTallies s))
  | .fadd _ v =>
    let old := unle (s.getBytes (a / 8 * 8) 8)
    (putBytes (a / 8 * 8) (le 8 ((old + v.toNat) % 2 ^ 64)) s).emit (.fabricAnswer (le 8 old) false)
  | .read _ => s.emit (.fabricAnswer (s.getBytes (a / 64 * 64) 64) (s.rangeBad (a / 64 * 64) 64))

/-! ## Register windows (R517) -/

def fabFlag (i : Nat) (s : State) : State := (s.setBit .fab i)

/-- A line read of the read window returns 16 registers with their read effects. -/
def readWindow (src : FabSource) (off : Nat) (s : State) : State :=
  if src.ctx ≠ 0 then (fabFlag 31 s).emit .accessFault
  else
    let (ws, s1) := readRegs .fabric 16 (off / 64 * 64) s
    s1.emit (.fabricAnswer (ws.flatMap fun w => le 4 w.toNat) false)

/-- A STORE64 to the line of register a writes bytes 0 to 3; the other bytes must be zero. -/
def writeWindow (src : FabSource) (off : Nat) (line : Bytes) (s : State) : State :=
  if src.ctx ≠ 0 then fabFlag 31 s
  else if !isZero (slice line 4 60) then fabFlag 30 s
  else hostWrite (off / 64 * 4) (BitVec.ofNat 32 (fld line 0 4)) s

/-! ## The window (R516) -/

/-- Offset of an operation's address in the target window. -/
def fabAddr : FabOp → Nat
  | .store64 a _ => a
  | .fadd a _ => a
  | .flag a _ => a
  | .read a => a

/-- A FLAG into the service ring posts a slot over the fabric, so its entries go to no management source (15 R420). -/
def postedByFabric (off : Nat) (op : FabOp) (s : State) : State :=
  match op with
  | .flag _ _ =>
    if 0x1040000 ≤ off && off < 0x1044000 then
      { s with stw := { s.stw with mgmtFrom := s.stw.mgmtFrom.filter (·.1 != (off - 0x1040000) / 256) } }
    else s
  | .store64 _ _ | .fadd _ _ | .read _ => s

/-- Rings and load windows: only their own context reaches them, context 0 those of the service mailbox (15 R404). -/
def ownWindow (src : FabSource) (n off : Nat) (op : FabOp) (s : State) : State :=
  let owner := if n = 16 then 0 else n
  if src.ctx = owner then plainOp src.source (s.winAddr off) op (postedByFabric off op s)
  else
    let s1 := (s.setBit .stw 31)
    match op with
    | .store64 _ _ | .flag _ _ => s1
    | .fadd _ _ | .read _ => s1.emit .accessFault

/-- A combiner performs an operation on a tally line (17 R443): one whose check never passes is not merged (17 R445), and
its fabric lane gives it up, to be sent again by its partner (17 R449). -/
def combine (src : FabSource) (f : State → State) : State → State :=
  byUnit clsCombiner src.check fun s => unitCheck clsCombiner src.check (if src.check.permanent then s else f s)

/-- The HBM window: only the issuing context's part, while it is ACTIVE (14 R390); its tally lines combine. -/
def hbmOp (src : FabSource) (a : Nat) (op : FabOp) (s : State) : State :=
  if !s.inPart src.ctx a then (fabFlag 29 s).emit .accessFault
  else if !s.isActive src.ctx then s.emit .accessFault
  else
    match s.tally? a with
    | some t => combine src (tallyOp t (match op with
        | .store64 _ l => .store64 a l
        | .fadd _ v => .fadd a v
        | .flag _ v => .flag a v
        | .read _ => .read a)) s
    | none => plainOp src.source a op s

/-- An operation by its offset in the window. -/
def windowOp (src : FabSource) (off : Nat) (op : FabOp) (s : State) : State :=
  if off < 0x40000 then
    match op with
    | .read _ => readWindow src off s
    | _ => if src.ctx ≠ 0 then fabFlag 31 s else s.emit .accessFault
  else if 0x400000 ≤ off && off < 0x800000 then
    match op with
    | .store64 _ l => writeWindow src (off - 0x400000) l s
    | .read _ => if src.ctx ≠ 0 then (fabFlag 31 s).emit .accessFault else s.emit (.fabricAnswer (zeros 64) false)
    | _ => if src.ctx ≠ 0 then fabFlag 31 s else s.emit .accessFault
  else if 0x1000000 ≤ off && off < 0x1000000 + 17 * 0x4000 then ownWindow src ((off - 0x1000000) / 0x4000) off op s
  else if 0x40000000 ≤ off && off < 0x40000000 + 17 * 0x4000000 then
    ownWindow src ((off - 0x40000000) / 0x4000000) off op s
  else if 0x10000000000 ≤ off then hbmOp src (off - 0x10000000000) op s
  else s.emit .accessFault

/-- An operation that ingresses at the fabric port: from a context that holds no generation here, or outside the window,
it ends with an access fault. -/
def fabricOp (src : FabSource) (op : FabOp) (s : State) : State :=
  let s0 := { s with fab := { s.fab with clogSeq := s.fab.clogSeq + 1 } }
  match s.fab.base with
  | some b =>
    if src.ctx != 0 && !s.heldId src.ctx then s0.emit .accessFault
    else if b ≤ fabAddr op && fabAddr op < b + 2 ^ 41 then windowOp src (fabAddr op - b) op s0
    else s0.emit .accessFault
  | none => s0.emit .accessFault

/-! ## The commands -/

def execFabricStore (src : FabSource) (op : FabOp) (s : State) : Res := onTray "FABRIC_STORE" s (fabricOp src op)

def execFabricFadd (src : FabSource) (addr : Nat) (v : BitVec 64) (s : State) : Res :=
  onTray "FABRIC_FADD" s (fabricOp src (.fadd addr v))

def execTallyOperation (src : FabSource) (op : FabOp) (s : State) : Res := onTray "TALLY_OPERATION" s (fabricOp src op)

/-- The combiner writes a merged line to memory (R157). -/
def execTallyWriteback (line : Nat) (s : State) : Res :=
  onTray "TALLY_WRITEBACK" s fun s =>
    match s.tally? line with
    | some t => writeBack t s
    | none => s

def execRegWindowRead (src : FabSource) (offset : Nat) (s : State) : Res :=
  onTray "REG_WINDOW_READ" s fun s => readWindow src (offset % 0x40000) s

def execRegWindowWrite (src : FabSource) (offset : Nat) (line : Bytes) (s : State) : Res :=
  onTray "REG_WINDOW_WRITE" s fun s => writeWindow src (offset % 0x400000) line s

end Sys2Proof.Machine
end

