-- ==== Sys2Proof/Machine/Steward.lean ====
section
/-!
DEFINITION. The steward and its mailboxes (15): turns, posts, checks, completions, waiting commands.
-/

namespace Sys2Proof.Machine

/-! ## Completions (R413, R414) -/

/-- The context that a mailbox belongs to (R402). -/
def mbxCtx (n : Nat) : Nat := if n = 16 then 0 else n

/-- TOKEN: CMD_CRC and CURSOR, in ACCEPTED, WAITING and PARTIAL (R417). -/
def Cmd.token (c : Cmd) : Nat := if c.state == 4 then 0 else c.crc * 2 ^ 32 + c.cursor % 2 ^ 32

/-- Lines 1 to 3 of an entry. -/
def entryLines (n upd : Nat) (boot : BitVec 32) (now : Ticks) (c : Cmd) : Bytes :=
  let r := slice c.result 0 122
  let body := le 2 c.op ++ le 2 c.status ++ le 2 c.gen.toNat ++ le 1 (mbxCtx n) ++ zeros 1 ++ le 8 c.tag ++ le 8 c.token
    ++ le 8 c.cursor ++ le 4 boot.toNat ++ zeros 4 ++ timeBytes now ++ zeros 7 ++ le 1 upd ++ slice r 0 63 ++ le 1 upd
    ++ slice r 63 59
  sealCrc body ++ le 1 upd

def entryFlag (upd : Nat) (c : Cmd) : BitVec 64 :=
  BitVec.ofNat 64 (c.seq + c.gen.toNat * 2 ^ 16 + c.state * 2 ^ 32 + upd * 2 ^ 40)

/-- Lines that a leaf's mailbox service reads or writes draw on the fixed allowance of R57 (assumption 139). -/
def drawLines (n : Nat) (s : State) : State := if s.isLeaf then { s with hfAllow := s.hfAllow - 1600 * n } else s

/-- The allowance covers n more lines; a tray block has none to keep. -/
def State.mayDraw (s : State) (n : Nat) : Bool := !s.isLeaf || 1600 * (n : Int) ≤ s.hfAllow

/-- A page or an entry is written to memory: lines, then its flag word, which a leaf orders and a tray block sends as
FLAG. -/
def State.storeOut (s : State) (ctx addr : Nat) (lines : Bytes) (flag : BitVec 64) : State :=
  if s.isLeaf then
    (drawLines ((linesOf lines).length + 1) s).emits ((linesOf lines).zipIdx.map (fun x => Out.hfWrite (addr + 64 + 64 * x.2) x.1) ++ [.hfFlag addr flag])
  else
    s.issue ((linesOf lines).zipIdx.map (fun x => Out.store64 ctx (addr + 64 + 64 * x.2) x.1) ++ [.flag ctx addr flag])

/-- Write the entry of a command: UPD rises by one (R413). Without a return area nothing is stored; an entry of a slot
that came over the management network is also sent back there (R420). -/
def writeEntry (n : Nat) (c : Cmd) (s : State) : State :=
  match s.mbx? n with
  | none => s
  | some m =>
    let upd := (nth m.upd c.slot 0 + 1) % 256
    let s1 := s.onMbx n fun m => { m with upd := modifyAt m.upd c.slot fun _ => upd }
    let lines := entryLines n upd s.stw.boot s.now c
    let base := s.retBase n
    let s2 := if base = 0 then s1 else s1.storeOut (mbxCtx n) (base + 256 * c.slot) lines (entryFlag upd c)
    match s.stw.mgmtFrom.find? fun x => n == 16 && x.1 == c.slot with
    | some x => s2.emit (s2.mgmtOut x.2 (le 4 c.slot ++ le 8 (entryFlag upd c).toNat ++ zeros 56 ++ lines))
    | none => s2

/-- The running command of mailbox n ends with a status. -/
def finish (n : Nat) (c : Cmd) (status : Nat) (result : Bytes) (s : State) : State :=
  writeEntry n { c with state := 4, status := status, result := result } (s.onMbx n fun m => { m with running := none })

/-- It ends with its status and no RESULT. -/
def fail (n : Nat) (c : Cmd) (status : Nat) (s : State) : State := finish n c status [] s

/-- The running command waits and no longer holds the mailbox (R410). -/
def wait (n : Nat) (c : Cmd) (w : Wait) (s : State) : State :=
  let c1 := { c with state := 2, wait := w }
  writeEntry n c1 (s.onMbx n fun m => { m with running := none, waiting := m.waiting ++ [c1] })

/-- A progress record of the running command (R414). -/
def progress (n : Nat) (c : Cmd) (s : State) : State :=
  writeEntry n c (s.onMbx n fun m => { m with running := some c })

/-- The running command of mailbox n, when it has this opcode, is carried out. -/
def onRunning (n op : Nat) (f : Cmd → State → State) (s : State) : State :=
  match s.mbx? n with
  | some { running := some c, .. } => if c.op == op then f c s else s
  | _ => s

/-- A SHORT command whose own checks pass completes with OK. -/
def done (n : Nat) (c : Cmd) (result : Bytes) (s : State) : State := finish n c stOK result s

/-! ## TEAM commands (R418) and named boundaries (16 R428) -/

/-- Side A of a paired rope team relays over belay, and so does the carrier of an attach (18 R483). -/
def State.relays (s : State) : Bool := s.isTray && (s.twin.paired || s.twin.attach.any (·.carrier)) && s.belayUp

/-- Side A relays a command and its image (R418); the relay's layout is open (assumption 10). -/
def relay (n : Nat) (c : Cmd) (b : Nat) (image : Bytes) (s : State) : State :=
  match s.bundleLane LaneUse.isBelay 1 with
  | some l => if s.relays then
      s.sendMsg l 3 0 0 (s.genOf 0) (Config.ctlPayload 0x81 [n, c.op, b, c.turn] ++ c.payload ++ image) else s
  | none => s

/-- A summit member relays a PUB_AREA_SET over its peer lanes too (05 R153), in the share of its context. -/
def relayFleet (n : Nat) (c : Cmd) (b : Nat) (s : State) : State :=
  if s.cfg.role == .summit && c.op == 0x0503 then
    s.sendMsgAll (s.lanesFor LaneUse.isPeer) 2 (mbxCtx n) (mbxCtx n) (s.genOf (mbxCtx n))
      (Config.ctlPayload 0x89 [n, c.op, b] ++ c.payload)
  else s

/-- How many epochs ahead side A names a boundary: at least 4 after the echo that is to come (11 R324). -/
def State.leadEpochs (_s : State) : Nat := 5 + Config.boundaryLead

/-- The boundary that a BND command names (16 R428). -/
def State.nameBoundary (s : State) (team : Bool) : Nat :=
  if team && s.isTray then s.curEpoch + s.leadEpochs else s.curEpoch + 2

/-- Queue an effect for its boundary; with a twin it waits for the echo. -/
def queueBnd (b turn : Nat) (a : Bnd) (team : Bool) (s : State) : State :=
  { s with stw := { s.stw with bnd := s.stw.bnd ++ [{ b := b, act := a, echoed := !(team && s.relays), turn := turn }] } }

/-- A BND command of mailbox n whose checks passed, for boundary b: a SHORT one completes now, another waits for its
boundary, which RESULT bytes 0 to 7 name. -/
def bndAt (b n : Nat) (c : Cmd) (short team : Bool) (a : Bnd) (image rest : Bytes) (s : State) : State :=
  let s1 := queueBnd b c.turn a team s
  let s2 := if team then relayFleet n c b (relay n c b image s1) else s1
  let c1 := { c with result := le 8 b ++ rest }
  if short then finish n c1 stOK c1.result s2 else wait n c1 (.boundary b) s2

/-- The boundary that a BND command named when it was accepted; one that has come by then is named again. -/
def State.namedBoundary (s : State) (c : Cmd) (team : Bool) : Nat :=
  let b := fld c.result 0 8
  if s.curEpoch < b then b else s.nameBoundary team

/-- The same for the boundary that R428 lays down. -/
def bndDone (n : Nat) (c : Cmd) (short team : Bool) (a : Bnd) (image rest : Bytes) (s : State) : State :=
  bndAt (s.namedBoundary c team) n c short team a image rest s

/-- A TEAM command without a boundary: DONE at once when unpaired, else once the echo comes. -/
def teamDone (n : Nat) (c : Cmd) (image rest : Bytes) (s : State) : State :=
  if s.relays then wait n { c with result := rest } .echo (relay n c 0 image s) else finish n c stOK rest s

/-! ## Two-phase commands (16 R429) -/

/-- RESULT of a 2PH command. -/
def phaseResult (id : BitVec 64) (epochT merged decision noAck : Nat) (setup : BitVec 64) : Bytes :=
  le 8 id.toNat ++ le 8 epochT ++ le 1 merged ++ le 1 decision ++ zeros 2 ++ le 4 noAck ++ le 8 setup.toNat

/-- T_eff of an arm as this instance computes it (07 R204). -/
def armAt (kind epochT : Nat) (arg : BitVec 128) (s : State) : Option Ticks :=
  if kind == kindStop then some (ITime.ofBits arg).toTicks else s.timeOf epochT

/-- T_eff lies too near the acceptance of the command, or there is no schedule yet that gives it (assumption 35). -/
def State.tooSoon (s : State) (accepted : Ticks) (kind epochT : Nat) (arg : BitVec 128) : Bool :=
  match armAt kind epochT arg s with
  | some t => t < accepted + nsT (4 * s.cfg.epochNs + 10000)
  | none => true

/-- The arm of a command of mailbox n as its originator judges it. -/
def State.cmdArm (s : State) (n kind : Nat) (aon : Bool) (epochT : Nat) (arg : BitVec 128) (ctx : Nat) (gen : BitVec 16)
    (arg2 : BitVec 32) : Arm :=
  { id := 0, kind := kind, aon := aon, height := s.height, epochT := epochT, arg := arg, ctx := ctx, gen := gen
    arg2 := arg2, own := true, paired := s.twin.paired, mbx := some n, epochNs := 0, tEff := 0, expected := [], answers := [], twinView := []
    statusSent := false, decision := none, echoed := false, down := false, lastRepeat := 0, settled := false }

/-- The change is armed and the command waits; refused by the originator itself it is cancelled (R429). -/
def issueArm (n : Nat) (c : Cmd) (kind : Nat) (aon : Bool) (epochT : Nat) (arg : BitVec 128) (ctx : Nat)
    (gen : BitVec 16) (arg2 : BitVec 32) (setup : BitVec 64) (s : State) : State :=
  match s.answerArm (s.cmdArm n kind aon epochT arg ctx gen arg2) with
  | .accept =>
    let (id, s1) := originate kind aon epochT arg ctx gen arg2 (some n) s
    wait n { c with result := phaseResult id epochT 0xFF 0 0 setup } (.armed id) s1
  | _ => finish n c stCANCELLED (phaseResult 0 epochT 2 2 0 setup) s

/-- A two-phase change is issued (R429): too near it completes TOO_SOON. -/
def twoPhase (n : Nat) (c : Cmd) (kind : Nat) (aon : Bool) (epochT : Nat) (arg : BitVec 128) (ctx : Nat) (gen : BitVec 16)
    (arg2 : BitVec 32) (setup : BitVec 64) (s : State) : State :=
  if s.tooSoon c.accepted kind epochT arg then fail n c stTOO_SOON s
  else issueArm n c kind aon epochT arg ctx gen arg2 setup s

/-! ## Waiting commands (R410, R414) -/

def setWaiting (n : Nat) (old : Cmd) (new : Option Cmd) (s : State) : State :=
  s.onMbx n fun m => { m with waiting := m.waiting.flatMap fun c => if c == old then new.toList else [c] }

/-- A waiting command ends. -/
def endWaiting (n : Nat) (c : Cmd) (state status : Nat) (s : State) : State :=
  writeEntry n { c with state := state, status := status } (setWaiting n c none s)

/-- A command that waits for a two-phase change: written again when the decision is held, and at its end (R429). -/
def armedProgress (n : Nat) (c : Cmd) (id : BitVec 64) (s : State) : State :=
  match s.arm? id with
  | some a =>
    match a.decision with
    | some true =>
      if fld c.result 17 1 == 0 then
        let r := phaseResult id a.epochT a.merged 1 a.silent.length (BitVec.ofNat 64 (fld c.result 24 8))
        let c1 := { c with result := r }
        writeEntry n c1 (setWaiting n c (some c1) s)
      else s
    | some false =>
      let r := phaseResult id a.epochT a.merged 2 0 (BitVec.ofNat 64 (fld c.result 24 8))
      endWaiting n { c with result := r } 4 stCANCELLED (setWaiting n c (some { c with result := r }) s)
    | none => s
  | none =>
    match s.red.armLog.find? (·.1 == id) with
    | some (_, merged, 1, noAcks) =>
      let r := phaseResult id (fld c.result 8 8) merged 1 noAcks (BitVec.ofNat 64 (fld c.result 24 8))
      let ctx := fld c.payload 0 1
      let drains := c.op == 0x0A02 && !bit (fld c.payload 1 1) 0
      let c1 := { c with result := r, wait := .drain ctx }
      if drains then writeEntry n c1 (setWaiting n c (some c1) s)
      else endWaiting n { c with result := r } 4 stOK (setWaiting n c (some { c with result := r }) s)
    | some (_, merged, _, _) =>
      let r := phaseResult id (fld c.result 8 8) merged 2 0 (BitVec.ofNat 64 (fld c.result 24 8))
      endWaiting n { c with result := r } 4 stCANCELLED (setWaiting n c (some { c with result := r }) s)
    | none => s

/-- What a waiting command has come to, judged in its mailbox's turn. -/
def waitProgress (n : Nat) (c : Cmd) (s : State) : State :=
  match c.wait with
  | .boundary b =>
    let open_ := s.stw.bnd.any fun x => x.b == b && !x.echoed
    if b ≤ s.curEpoch && (s.boundary? b).isSome && !open_ then endWaiting n c 4 stOK s else s
  | .armed id => armedProgress n c id s
  | .drain ctx => if (s.heldGen ctx).isNone then endWaiting n c 4 stOK s else s
  | .echo => if c.echoed || !s.relays then endWaiting n c 4 stOK s else s
  | .resume core => if s.brk.resumes.any fun r => r.1 == core then s else endWaiting n c 4 stOK s
  | .leaves ids => if ids.isEmpty then endWaiting n c 4 stOK s else s
  | .attach | .none => s

def progressAll (n : Nat) (s : State) : State :=
  match s.mbx? n with
  | some m => m.waiting.foldl (fun s c => waitProgress n c s) s
  | none => s

/-! ## Posts and checks (R407, R409, R411) -/

/-- The 256 bytes of slot H: a leaf reads host memory, where a poisoned or ended read gives no valid slot (02 R58), a tray
block its staging region (R403). -/
def State.slotBytes (s : State) (n h : Nat) (host : HostView) : Option Bytes :=
  if s.isLeaf then hostRead host (s.cmdBase n + 256 * h) 256
  else
    let a := s.winAddr (0x1000000 + 0x4000 * n + 256 * h)
    if s.rangeBad a 256 then none else some (s.getBytes a 256)

/-- The generation that a post must carry (R407). -/
def State.postGen (s : State) (n : Nat) : Option (BitVec 16) :=
  if n = 0 || n = 16 then some s.cfg.ctx0Gen else s.heldGen n

/-- The post of slot H is the next command of the mailbox. -/
def State.postMatches (s : State) (m : Mbx) (b : Bytes) : Bool :=
  slotBoot b == s.stw.boot.toNat && slotSeq b == m.seq && (s.postGen m.n).any fun g => g.toNat == slotGen b

/-- The instance serves BIV opcodes only (R411 check 8, 18 R482). -/
def State.bivOnly (s : State) : Bool := s.mode == .bivouac || s.mode == .detached

/-- Checks 1 to 9 of R411; none where all pass. -/
def State.slotStatus (s : State) (n : Nat) (b : Bytes) : Option Nat :=
  let plen := slotPlen b
  let reserved := bits (slotFlags b) 15 1 == 0 && bits (slotCtx b) 7 4 == 0 && plen ≤ 220
    && isZero ((slotPayload b).drop plen) && (bit (slotFlags b) 0 || slotToken b == 0)
  if !slotCrcOk b then some stBAD_CRC
  else if slotIface b != bits s.ident.fwif.toNat 15 8 then some stIFACE_MISMATCH
  else if bits (slotCtx b) 3 0 != mbxCtx n || !reserved then some stBAD_FIELD
  else match opcode? s.isLeaf (slotOp b) with
    | none => some stBAD_OPCODE
    | some o =>
      if o.svc && 1 ≤ n && n ≤ 15 then some stNOT_OWNER
      else if (o.svc && n == 0) || (!o.svc && n == 16) then some stWRONG_MAILBOX
      else if 1 ≤ n && n ≤ 15 && !s.isActive n then some stCTX_GONE
      else if s.bivOnly && !o.biv then some stBIVOUAC
      else if o.team && s.isTray && s.twin.paired && s.cfg.side == .b then some stUSE_SIDE_A
      else none

/-- The store or dump that a reset left open, as its command (16 R430). -/
def State.openWork (s : State) (op : Nat) : List (Nat × BitVec 32 × Nat) :=
  let of := fun (o : Option (Nat × BitVec 32)) (len : Nat) => o.toList.map fun x => (x.1, x.2, len)
  match op with
  | 0x0102 => s.flash.cfg.flatMap fun c => of c.owner c.bytes.length
  | 0x0104 => s.flash.fw.flatMap fun c => of c.owner c.bytes.length
  | 0x0D02 => of s.dump.owner (2 ^ 32)
  | _ => []

/-- The low half of a cursor, as a token holds it, at a resume point of its opcode (R430). For an image with DEST_LEAVES
each leaf count is one; for TWIN_ATTACH the start of a phase lies at any count of BULK bytes (18 R486). -/
def resumePoint (op : Nat) (payload : Bytes) (cursor : Nat) : Bool :=
  match op with
  | 0x0102 | 0x0104 => cursor % 65536 == 0
  | 0x0D02 => true
  | 0x0D04 => true
  | _ => bit (fld payload 32 1) 1 || cursor % 2 ^ 20 == 0

/-- Checks 10 and 11 of R411, with RESUME set (R417, R430). -/
def State.resumeStatus (s : State) (b : Bytes) : Option Nat :=
  let op := slotOp b
  let crc := slotToken b / 2 ^ 32
  let cursor := slotToken b % 2 ^ 32
  let res := (opcode? s.isLeaf op).any (·.res)
  if !bit (slotFlags b) 0 then none
  else if !res || crc != slotCmdCrc b || !resumePoint op (slotPayload b) cursor then some stBAD_TOKEN
  else if (s.openWork op).any fun x => x.1 == crc && x.2.1 != s.stw.boot && cursor ≤ x.2.2 then none
  else some stRESUME_LOST

/-- The command of a slot, ACCEPTED (R413). -/
def readCmd (h : Nat) (b : Bytes) : Cmd :=
  { slot := h, seq := slotSeq b, gen := BitVec.ofNat 16 (slotGen b), op := slotOp b, resume := bit (slotFlags b) 0
    tag := slotTag b, payload := slotPayload b, crc := slotCmdCrc b, state := 1, status := 0
    cursor := if bit (slotFlags b) 0 then slotToken b % 2 ^ 32 else 0, result := [], wait := .none, echoed := false }

/-- A BND command names its boundary from its first write on (16 R428): not a part without LAST, and not with DEST_LEAVES,
which names it after the last leaf; a TABLE_SEED no earlier than its EPOCH_T. -/
def State.nameAtAccept (s : State) (c : Cmd) : Cmd :=
  let image := [0x0701, 0x0704, 0x0803, 0x0901].contains c.op
  let p := readPart c.payload
  let b := s.nameBoundary ((opcode? s.isLeaf c.op).any (·.team))
  if !bndOpcode c.op || (image && (!p.last || p.toLeaves)) then c
  else { c with result := le 8 (if c.op == 0x0702 then max b (fld c.payload 8 8) else b) }

def nextSeq (q : Nat) : Nat := if q = 65535 then 1 else q + 1

def mbxNoReturn (s : State) : State := (s.setBit .stw 30)

/-- A tenant mailbox of a tray block before its MBX_ATTACH (R405). -/
def State.noReturn (s : State) (n : Nat) : Bool := s.isTray && 1 ≤ n && n ≤ 15 && s.retBase n == 0

/-- Take the slot at H: its SEQ is consumed; a failed check completes it, otherwise it runs, ACCEPTED (R411). Without a
return area every command but MBX_ATTACH is discarded (R405). -/
def takeSlot (n : Nat) (m : Mbx) (b : Bytes) (s : State) : State :=
  let c := { readCmd m.h b with turn := s.stw.turn, accepted := s.now }
  let s1 := s.onMbx n fun m => { m with h := (m.h + 1) % 64, seq := nextSeq m.seq }
  let bad := match s.slotStatus n b with
    | some e => some e
    | none => s.resumeStatus b
  match bad with
  | some e =>
    if s.noReturn n then mbxNoReturn s1
    else writeEntry n { c with state := 4, status := e } (if e == stBAD_CRC then s1.setBit .stw 29 else s1)
  | none =>
    if s.noReturn n && c.op != 0x0101 then mbxNoReturn s1
    else
      let c1 := s.nameAtAccept c
      let s2 := s1.onMbx n fun m => { m with running := some c1 }
      if c.op == 0x0101 then s2 else writeEntry n c1 s2

/-- Slot H is read: its POST, and with a matching one the rest. -/
def readSlot (n : Nat) (m : Mbx) (host : HostView) (s : State) : State :=
  match s.slotBytes n m.h host with
  | some b => if s.postMatches m b then takeSlot n m b (drawLines 4 s) else drawLines 1 s
  | none => if s.isLeaf then drawLines 1 (hostFaults host (s.cmdBase n + 256 * m.h) 256 s) else s

/-- One pass of the loop of R409, in a leaf when the allowance of R57 covers the slot. -/
def turnPass (n : Nat) (host : HostView) (s : State) : State :=
  match s.mbx? n with
  | none => s
  | some m => if m.running.isSome || 16 ≤ m.waiting.length || !s.mayDraw 4 then s else readSlot n m host s

/-- The slot that a pass reads holds the POST that it looks for. -/
def State.postFound (s : State) (n : Nat) (host : HostView) : Bool :=
  (s.mbx? n).any fun m => (s.slotBytes n m.h host).any (s.postMatches m)

/-- The passes of a turn; the loop ends at the first slot whose POST does not match or whose read fails (R409, 02 R58). -/
def turnPasses (n : Nat) (host : HostView) : Nat → State → State
  | 0, s => s
  | k + 1, s => if s.postFound n host then turnPasses n host k (turnPass n host s) else turnPass n host s

/-- The mailbox of turn t (R409). -/
def turnMailbox (shareCount t : Nat) : Nat := if t % 2 = 0 then 16 else (t - 1) / 2 % max 1 shareCount

/-- A turn, or the loop of the turn that has begun: `begins` starts turn t, which continues the mailbox's waiting
commands, and counts in STW_HEART (R409, R466, R525). -/
def execMailboxTurn (begins : Bool) (passes : Nat) (host : HostView) (s : State) : Res :=
  .next <|
    if !s.stw.scanning then s
    else if begins then
      let n := turnMailbox s.cfg.shareCount s.stw.turn
      let s1 := { s with stw := { s.stw with turn := s.stw.turn + 1, heart := s.stw.heart + 1, beatAt := s.edges } }
      turnPasses n host passes (progressAll n s1)
    else turnPasses (turnMailbox s.cfg.shareCount (s.stw.turn - 1)) host passes s

/-- A command ends PARTIAL with a status (R415, R416). -/
def partialAll (n status : Nat) (s : State) : State :=
  match s.mbx? n with
  | none => s
  | some m =>
    let s1 := s.onMbx n fun m => { m with running := none, waiting := [], asm := [] }
    (m.running.toList ++ m.waiting).foldl (fun s c => writeEntry n { c with state := 3, status := status } s) s1

/-! ## The management network (R420) -/

/-- A service command as a datagram: 260 bytes from a listed source, or from any in bivouac without a usable MGMT item
(21 R545). -/
def execMgmtDatagram (source : NetSource) (payload : Bytes) (s : State) : Res :=
  onTray "MGMT_DATAGRAM" s fun s =>
    let slot := fld payload 0 4
    let listed := s.cfg.mgmtSources.contains source.addr || (s.mode == .bivouac && !s.cfg.hasMgmt)
    if !s.straps.mgmtEn || !listed || payload.length != 260 || 64 ≤ slot then
      (s.setBit .stw 28)
    else
      let s1 := putBytes (s.winAddr (0x1000000 + 0x4000 * 16 + 256 * slot)) (slice payload 4 256) s
      { s1 with stw := { s1.stw with mgmtFrom := putBack (·.1 == slot) (slot, source) s1.stw.mgmtFrom } }

/-! ## Status pages (R421, R422, 20 R530) -/

def pageRegs : List (List Nat) := [
  [0x000, 0x004, 0x008, 0x100, 0x104, 0x108, 0x10C, 0x110, 0x400, 0x404, 0x230, 0x234, 0x840, 0x844, 0x848],
  [0x810, 0x814, 0x800, 0x804, 0x808, 0x818, 0x81C, 0x820, 0x824, 0x828, 0x82C, 0x830, 0xA00, 0xA04, 0xA08],
  [0x300, 0x304, 0x408, 0x00C]]

/-- The current value of a register, without read effects. -/
def State.peek (s : State) (a : Nat) : Word :=
  match s.wideReg a with
  | some (start, _, v) => wordOf v ((a - start) / 4)
  | none => (s.narrowReg a).getD 0

/-- A line of the service page: 15 words, three zero bytes, and k mod 256. -/
def pageLine (ws : List Word) (k : Nat) : Bytes :=
  slice (ws.flatMap fun w => le 4 w.toNat) 0 60 ++ zeros 3 ++ le 1 (k % 256)

/-- Lines 1 to 15 of the provider status line (R530). -/
def State.servicePage (s : State) (k : Nat) : Bytes :=
  let top := pageRegs.flatMap fun l => pageLine (l.map s.peek) k
  let cnt := (List.range 64).map fun i => if s.isTray then nth s.err.cnt i 0 else 0
  let errs := (List.range 5).flatMap fun i => pageLine ((cnt.drop (15 * i)).take 15) k
  top ++ errs ++ (List.range 7).flatMap fun _ => pageLine [] k

/-- Line 1 of a context page, and the lines 2 to 15 (R422). -/
def State.contextPage (s : State) (n k : Nat) : Bytes :=
  let c := s.ctx? n
  let life := match c with
    | some { life := .active _, .. } => 1
    | some { life := .draining _, .. } => 2
    | _ => 0
  let m := s.mbx? n
  let flags := match c with
    | some x => b2n x.jobStopped + 2 * b2n x.clobbered + 4 * b2n x.firstDue
    | none => 0
  let w := if s.isLeaf then s.watch? n else none
  let dseq := (w.map (·.consumed)).getD 0
  let overrun := (w.map (·.overrun)).getD 0
  let bad := (w.map (·.bad)).getD 0
  let tseq := if s.isLeaf then s.nextTseq n - 1 else 0
  let skips := (c.map (·.skips)).getD 0
  let line := le 1 life ++ zeros 1 ++ le 2 (s.genOf n).toNat ++ le 2 ((m.map (·.seq)).getD 0) ++ le 1 ((m.map (·.h)).getD 0)
    ++ le 1 ((m.map (·.waiting.length)).getD 0) ++ le 8 k ++ le 4 flags ++ le 8 dseq ++ le 4 overrun ++ le 4 bad ++ le 8 tseq
    ++ le 4 skips ++ zeros 15 ++ le 1 (k % 256)
  line ++ (List.range 14).flatMap fun _ => pageLine [] k

/-- At T_k + 60 µs of an epoch with k mod STATUS_EPOCHS = 0 each status page is written (R421), in a leaf as far as the
allowance of R57 covers it. -/
def execStatusPageWrite (s : State) : Res :=
  .next <|
    let k := s.curEpoch
    let due := match s.boundary? k with
      | some b => b.t + nsT 60000 ≤ s.now
      | none => false
    if !s.stw.scanning || !due || k % max 1 s.cfg.statusEpochs != 0 then s
    else
      let flag := BitVec.ofNat 64 (k + 1)
      (s.stw.mbxs.map (·.n)).foldl (fun s n =>
        let base := s.retBase n
        let served := n == 16 || n < s.cfg.shareCount || n == 0
        if base = 0 || !served || !s.mayDraw 16 then s
        else s.storeOut (mbxCtx n) (base + 0x4000) (if n == 16 then s.servicePage k else s.contextPage n k) flag) s

end Sys2Proof.Machine
end

