-- ==== Sys2Proof/Machine/OpsTray.lean ====
section
/-!
DEFINITION. Mailbox opcodes of a tray block that carry no image (16 R433, R434, R436, R438, R439), with REG_READ and the
drops and resets that both profiles serve.
-/

namespace Sys2Proof.Machine

/-- A command whose own checks give a status fails with it; otherwise it has its effect. -/
def checked (n : Nat) (c : Cmd) (e : Option Nat) (f : State → State) (s : State) : State :=
  match e with
  | some st => fail n c st s
  | none => f s

/-- BAD_FIELD unless b holds. -/
def fieldCheck (b : Bool) : Option Nat := if b then none else some stBAD_FIELD

/-! ## Mailbox and registers (R433, 15 R405) -/

/-- MBX_ATTACH: the return area moves, and the one completion goes to the new area. A failing one is answered in the area
in force; with none it is discarded. -/
def execMbxAttach (m : Nat) (s : State) : Res :=
  onTray "MBX_ATTACH" s <| onRunning m 0x0101 fun c s =>
    let base := fld c.payload 0 8
    if unnamedZero c.payload [(0, 8)] && base % 4096 == 0 && base < 2 ^ 52 then
      done m c [] (s.onMbx m fun x => { x with ret := base })
    else if s.noReturn m then mbxNoReturn (s.onMbx m fun x => { x with running := none })
    else fail m c stBAD_FIELD s

/-- The register addresses of a REG_READ. -/
def regAddrs (p : Bytes) : List Nat := (List.range (fld p 0 4)).map fun i => fld p (4 + 4 * i) 4

/-- Registers read in order on the mailbox path. -/
def regWords (as : List Nat) (s : State) : Bytes × State :=
  as.foldl (fun x a => let (v, t) := readReg .regRead a x.2; (x.1 ++ le 4 v.toNat, t)) ([], s)

def execRegRead (m : Nat) (s : State) : Res :=
  .next <| onRunning m 0x0106 (fun c s =>
    let n := fld c.payload 0 4
    if 1 ≤ n && n ≤ 30 && unnamedZero c.payload [(0, 4 + 4 * n)] && (regAddrs c.payload).all s.mapped then
      let (r, s1) := regWords (regAddrs c.payload) s
      done m c r s1
    else fail m c stBAD_FIELD s) s

/-! ## Two-phase commands (R434, R436) -/

def execEpochSet (m : Nat) (s : State) : Res :=
  onTray "EPOCH_SET" s <| onRunning m 0x0201 fun c s =>
    let p := c.payload
    let ns := fld p 8 4
    if !unnamedZero p [(0, 12)] then fail m c stBAD_FIELD s
    else if !s.grandmasterMember then fail m c stNOT_SLOT_MASTER s
    else if !epochNsOk ns then fail m c stBAD_FIELD s
    else twoPhase m c kindEpochSet true (fld p 0 8) 0 0 (s.genOf 0) (BitVec.ofNat 32 ns) 0 s

/-- STOP_ARM names the epoch that contains the stop time (R434). -/
def execStopArm (m : Nat) (s : State) : Res :=
  onTray "STOP_ARM" s <| onRunning m 0x0406 fun c s =>
    let t := ITime.ofBytes c.payload
    if !unnamedZero c.payload [(0, 16)] then fail m c stBAD_FIELD s
    else if t.malformed then fail m c stBAD_TIME s
    else match s.epochAt t.toTicks with
      | some k => twoPhase m c kindStop true k t.toBits 0 (s.genOf 0) 0 0 s
      | none => fail m c stTOO_SOON s

/-- A plan of a context that is held. -/
def State.planHeld (s : State) (ctx id : Nat) : Bool := s.red.plans.any fun p => p.ctx == ctx && p.plan.planId == id

def execPlanSet (m : Nat) (s : State) : Res :=
  onTray "PLAN_SET" s <| onRunning m 0x0502 fun c s =>
    let ctx := mbxCtx m
    let id := fld c.payload 0 2
    if !unnamedZero c.payload [(0, 2), (8, 8)] then fail m c stBAD_FIELD s
    else if !s.planHeld ctx id then fail m c stNOT_LOADED s
    else twoPhase m c kindPlanSet true (fld c.payload 8 8) (BitVec.ofNat 128 id) ctx (s.genOf ctx) 0 0 s

/-! ## Areas (R436, 05 R153, 08 R227) -/

/-- The level whose sheaves an instance publishes. -/
def State.ownLevel (s : State) : Level :=
  match s.cfg.role with
  | .tray => .tray
  | .chassis => .chassis
  | .summit => .fleet

/-- Subjects in the scope of what an instance publishes: the leaves below it, at a chassis its trays with theirs, and at a
summit member those of the fleet (assumption 36). -/
def State.subjects (s : State) : Nat :=
  if s.cfg.role == .summit then s.cfg.fleetSubjects else sumNat (s.cfg.scope.map fun x => x.2.length) + s.downSlots.length

/-- The largest publication of a context: flag line, sheaf under its largest plan held with an entry for every subject,
and the verdict records of its placements (05 R140, R153; assumption 36). -/
def State.worstSheaf (s : State) (ctx : Nat) : Nat :=
  let body := (s.red.plans.filter (·.ctx == ctx)).foldl (fun m p => max m (bodyLen p.plan s.ownLevel)) 0
  let rows := (s.mem.places.filter (·.ctx == ctx)).foldl (fun m p => max m (sumNat (p.entries.map (·.nrows)))) 0
  64 + 192 + (16 * s.subjects + 63) / 64 * 64 + body + 64 + 128 * rows

def pubBnd (ctx : Nat) (p : Bytes) : Bnd := .pub ctx (fld p 0 8) (fld p 8 4) (4096 * fld p 12 4)

def pubCheck (ctx : Nat) (p : Bytes) (s : State) : Option Nat :=
  if !unnamedZero p [(0, 16)] || fld p 0 8 % 4096 != 0 then some stBAD_FIELD
  else if fld p 0 8 == 0 then none
  else if !powerIn (fld p 8 4) 64 4096 then some stBAD_FIELD
  else if 4096 * fld p 12 4 < s.worstSheaf ctx then some stPUB_TOO_SMALL
  else none

def execPubAreaSet (m : Nat) (s : State) : Res :=
  onTray "PUB_AREA_SET" s <| onRunning m 0x0503 fun c s =>
    checked m c (pubCheck (mbxCtx m) c.payload s) (bndDone m c false true (pubBnd (mbxCtx m) c.payload) [] []) s

def ckptBnd (ctx : Nat) (p : Bytes) : Bnd := .ckptArea ctx (fld p 0 8) (fld p 8 8)

def execCkptAreaSet (m : Nat) (s : State) : Res :=
  onTray "CKPT_AREA_SET" s <| onRunning m 0x0504 fun c s =>
    checked m c (fieldCheck (unnamedZero c.payload [(0, 16)] && fld c.payload 8 8 % 4096 == 0))
      (bndDone m c false true (ckptBnd (mbxCtx m) c.payload) [] []) s

def captBnd (ctx : Nat) (p : Bytes) : Bnd := .captArea ctx (fld p 0 8) (fld p 8 4) (4096 * fld p 12 4)

def execCaptAreaSet (m : Nat) (s : State) : Res :=
  onTray "CAPT_AREA_SET" s <| onRunning m 0x0505 fun c s =>
    let p := c.payload
    checked m c (fieldCheck (unnamedZero p [(0, 16)] && powerIn (fld p 8 4) 64 4096 && 5 ≤ fld p 12 4))
      (bndDone m c false true (captBnd (mbxCtx m) p) [] []) s

/-! ## Tally lines (R436, 05 R157) -/

/-- The tally lines of a context: its share of 4,096. -/
def State.tallyLimit (s : State) : Nat := 4096 / max 1 s.cfg.shareCount

def tallyCheck (ctx : Nat) (p : Bytes) (s : State) : Option Nat :=
  let a := fld p 0 8
  if !unnamedZero p [(0, 9)] || a % 64 != 0 || 1 < fld p 8 1 || !s.inPart ctx a then some stBAD_FIELD
  else if (s.tally? a).isSome then some stIN_USE
  else if s.tallyLimit ≤ (s.fab.tallies.filter (·.ctx == ctx)).length then some stSHARE_EXCEEDED
  else none

def execTallySet (m : Nat) (s : State) : Res :=
  onTray "TALLY_SET" s <| onRunning m 0x0601 fun c s =>
    let a := fld c.payload 0 8
    checked m c (tallyCheck (mbxCtx m) c.payload s) (fun s =>
      let t : Tally := { ctx := mbxCtx m, addr := a, add := fld c.payload 8 1 == 0, line := s.getBytes a 64 }
      done m c [] { s with fab := { s.fab with tallies := s.fab.tallies ++ [t] } }) s

def execTallyClear (m : Nat) (s : State) : Res :=
  onTray "TALLY_CLEAR" s <| onRunning m 0x0602 fun c s =>
    let a := fld c.payload 0 8
    if !unnamedZero c.payload [(0, 8)] then fail m c stBAD_FIELD s
    else match s.fab.tallies.find? fun t => t.ctx == mbxCtx m && t.addr == a with
      | some t =>
        let s1 := writeBack t s
        done m c [] { s1 with fab := { s1.fab with tallies := s1.fab.tallies.filter (· != t) } }
      | none => fail m c stNOT_LOADED s

/-! ## Seeds and drops (R437, 11 R327, R329) -/

/-- The lower edge of a metric's bin (19 R493). -/
def binEdge (offset : Int) (oLo b : Nat) : Int :=
  if b = 0 then offset else offset + ((2 ^ (oLo + b / 4) + b % 4 * 2 ^ (oLo + b / 4) / 4 : Nat) : Int)

/-- The packed bin counts of a metric entry. -/
def storedBins (e : Bytes) : List (BitVec 32) := (List.range 32).map fun i => BitVec.ofNat 32 (bits (fld e 22 40) (10 * i + 9) (10 * i))

/-- The statistic of a recorder metric in a record (11 R327): 1 minimum, 2 median, 3 q90, 4 maximum; none without
samples, and for a number that names no recorder metric (assumption 37). -/
def recordStat (cfg : Cfg) (rec_ : Bytes) (metric stat : Nat) : Option Int :=
  let e := slice rec_ (64 + 62 * metric) 62
  let (off, oLo) := metricScale cfg metric
  let n := sumNat ((storedBins e).map (·.toNat))
  let rank := fun num den : Nat => max 1 ((num * n + den - 1) / den)
  if 64 ≤ metric || bit (fld e 0 1) 0 then none
  else match stat with
    | 1 => some (signed 32 (fld e 2 4))
    | 2 => some (binEdge off oLo (cumIndex (storedBins e) (rank 1 2) 0))
    | 3 => some (binEdge off oLo (cumIndex (storedBins e) (rank 9 10) 0))
    | 4 => some (signed 32 (fld e 12 4))
    | _ => none

/-- The seed values of a table from a recorder record: each column with a window, converted by its first update entry.
None where a column has no seed or its metric no samples (R327; assumption 37). -/
def seedValues (cfg : Cfg) (rec_ : Bytes) (t : TableImg) : Option (List (Nat × Int)) :=
  let one := fun c : Column =>
    if c.seedStat == 0 || !([ColOp.ewma, .cusum, .shift].contains c.op) then none
    else match recordStat cfg rec_ c.seedMetric c.seedStat, t.upds.find? (·.colId == c.colId) with
      | some v, some e => some (c.colId, convert e c.format v)
      | _, _ => none
  let vs := (t.cols.filter fun c => 0 < c.win).map one
  if vs.all (·.isSome) then some (vs.filterMap id) else none

/-- The checkpoint of an epoch that is usable (07 R217). -/
def State.ckptOf (s : State) (k : Nat) : Option Ckpt :=
  s.raw.ckpts.find? fun c => c.k == k && c.usable

/-- The checkpoint area of a context that is in force (16 R436): the latest one set, unless its base is 0. -/
def State.ckptArea? (s : State) (ctx : Nat) : Option CkptArea :=
  ((s.raw.areas.filter fun a => a.ctx == ctx && a.since ≤ s.curEpoch).foldl (fun m a => match m with
    | some x => if x.since ≤ a.since then some a else some x
    | none => some a) none).filter fun a => a.base != 0

/-- The checkpoint of an epoch from which a context seeds (R329, 21 R553): one in staging, else the one that its checkpoint
area holds. -/
def State.seedCkpt? (s : State) (ctx k : Nat) (area : Option Ckpt) : Option Ckpt :=
  match s.ckptOf k with
  | some c => some c
  | none => area.filter fun c => c.k == k && c.usable && (s.ckptArea? ctx).isSome

/-- The effect of a TABLE_SEED: from the recorder's latest record, which side A sends its twin, or from a checkpoint. -/
def seedBnd (p rec_ : Bytes) (ckpt : Option Ckpt) (s : State) : Option Bnd :=
  match s.table? (fld p 0 2) with
  | none => none
  | some t =>
    if fld p 2 1 == 0 then (seedValues s.cfg rec_ t.img).map fun v => .seed t.img.tableId v
    else ckpt.map fun c => .seedCkpt t.img.tableId c

/-- TABLE_SEED: its boundary is the one that side A names, and no earlier than EPOCH_T (assumption 38). `area` is the
checkpoint of CKPT_EPOCH that the context's checkpoint area holds (assumption 124). -/
def execTableSeed (m : Nat) (area : Option Ckpt) (s : State) : Res :=
  onTray "TABLE_SEED" s <| onRunning m 0x0702 fun c s =>
    let p := c.payload
    let ckpt := s.seedCkpt? (mbxCtx m) (fld p 16 8) area
    let rec_ := ((s.latestRec?).map (·.bytes)).getD []
    let b := max (s.namedBoundary c true) (fld p 8 8)
    if !unnamedZero p [(0, 3), (8, 16)] || 1 < fld p 2 1 then fail m c stBAD_FIELD s
    else match s.table? (fld p 0 2) with
      | none => fail m c stNOT_LOADED s
      | some t =>
        if t.ctx != mbxCtx m then fail m c stNOT_OWNER s
        else if fld p 2 1 == 0 && rec_.isEmpty then fail m c stSEED_UNAVAILABLE s
        else if fld p 2 1 == 1 && ckpt.isNone then fail m c stSEED_UNAVAILABLE s
        else match seedBnd p rec_ ckpt s with
          | some a => bndAt b m c false true a (if fld p 2 1 == 0 then rec_ else []) [] s
          | none => fail m c stSEED_UNAVAILABLE s

/-- Placement entries in force, waiting or listed as fallbacks. -/
def State.placedEntries (s : State) : List PlaceEntry :=
  let now := s.mem.places.flatMap fun p => if (placeAt s.mem.places p.ctx s.curEpoch) == some p || s.curEpoch < p.since then
    p.entries ++ p.p.fallbacks.flatMap (·.2) else []
  let waiting := s.stw.bnd.flatMap fun b => match b.act with
    | .place _ p => p.entries ++ p.fallbacks.flatMap (·.2)
    | _ => []
  now ++ waiting

def dropCheck (p : Bytes) (owner : Option Nat) (ctx : Nat) (used : Bool) : Option Nat :=
  if !unnamedZero p [(0, 2)] then some stBAD_FIELD
  else match owner with
    | none => some stNOT_LOADED
    | some o => if o != ctx then some stNOT_OWNER else if used then some stIN_USE else none

/-- TABLE_DROP, in both profiles; in a leaf the TEAM attribute has no effect (R425). -/
def execTableDrop (m : Nat) (s : State) : Res :=
  .next <| onRunning m 0x0703 (fun c s =>
    let id := fld c.payload 0 2
    let used := s.placedEntries.any fun e => e.tableId == id
    checked m c (dropCheck c.payload ((s.table? id).map (·.ctx)) (mbxCtx m) used)
      (bndDone m c false true (.tableDrop id) [] []) s) s

def execModelDrop (m : Nat) (s : State) : Res :=
  .next <| onRunning m 0x0802 (fun c s =>
    let id := fld c.payload 0 2
    let used := s.placedEntries.any fun e => e.modelId == id
    checked m c (dropCheck c.payload ((s.model? id).map (·.m.ctx)) (mbxCtx m) used)
      (bndDone m c false true (.modelDrop id) [] []) s) s

/-! ## Grant policies and the loop (R438, 12 R337, R344) -/

def policyBnd (p : Bytes) : Bnd :=
  .policy (fld p 0 1) ((List.range (fld p 1 1)).map fun i => fld p (4 + 2 * i) 2)

def execGrantPolicySet (m : Nat) (s : State) : Res :=
  onTray "GRANT_POLICY_SET" s <| onRunning m 0x0902 fun c s =>
    let p := c.payload
    let n := fld p 1 1
    checked m c (fieldCheck (unnamedZero p [(0, 2), (4, 2 * n)] && 1 ≤ n && fld p 0 1 + n ≤ 48))
      (bndDone m c false true (policyBnd p) [] []) s

/-- The settings of a LOOP_SET; a converter whose bit is clear is left as found. -/
def readLoop (p : Bytes) : LoopCfg :=
  let lim := fun base : Nat => (List.range 8).map fun i =>
    if bit (fld p 38 1) i then some (BitVec.ofNat 16 (fld p (base + 2 * i) 2)) else none
  { tSet := signed 16 (fld p 0 2), tHigh := signed 16 (fld p 2 2), kp := fld p 4 4, ki := fld p 8 4
    uMin := fld p 12 4, uMax := fld p 16 4, pGrantMax := some (fld p 20 4), bHold := some (fld p 24 4)
    bUp := fld p 28 4, kt := fld p 32 4, vHold := fld p 36 2, ilim := lim 40, ilimHold := lim 56
    target := if fld p 72 1 = 255 then none else some (fld p 72 1) }

/-- The ranges of R344. -/
def loopOk (p : Bytes) : Bool :=
  unnamedZero p [(0, 39), (40, 33)] && fld p 0 2 ≤ fld p 2 2 && fld p 2 2 ≤ 1600 && fld p 4 4 ≤ 2 ^ 24 && fld p 8 4 ≤ 2 ^ 24
    && fld p 12 4 ≤ fld p 16 4 && fld p 16 4 ≤ 2 ^ 24 && fld p 24 4 ≤ fld p 20 4 && 1 ≤ fld p 28 4
    && fld p 28 4 ≤ 2 ^ 20 && fld p 32 4 ≤ 2 ^ 16 && fld p 36 2 ≤ 32767

/-- The settings are used from the loop period that begins next (R438). -/
def setLoop (p : Bytes) (s : State) : State := { s with act := { s.act with nextLoop := some (readLoop p) } }

/-- LOOP_SET: with a twin the settings wait for its echo. -/
def execLoopSet (m : Nat) (s : State) : Res :=
  onTray "LOOP_SET" s <| onRunning m 0x0903 fun c s =>
    checked m c (fieldCheck (loopOk c.payload))
      (fun s => teamDone m c [] [] (if s.relays then s else setLoop c.payload s)) s

/-! ## Contexts (R439, 14 R380 to R389) -/

/-- HBM address of byte o of mailbox n's load window (R427). -/
def State.loadAddr (s : State) (n o : Nat) : Nat := s.winAddr (0x40000000 + 0x4000000 * n + o)

/-- The setup or release table that a command names in the service load window: none past the window's end. -/
def setupTable (p : Bytes) (s : State) : List Bytes :=
  (List.range (fld p 4 4)).map fun i => s.getBytes (s.loadAddr 16 (fld p 8 8 + 64 * i)) 64

/-- The checks of an entry under CTX_OPEN, or of a release table under CTX_CLOSE. -/
def setupEntryOk (release : Bool) (b : Bytes) (s : State) : Bool :=
  let e := readSetupEntry b
  crcOk b && isZero (slice b 4 4) && isZero (slice b 28 32) && fld b 0 4 < 2 ^ 17 && (s.childOfLeaf e.leaf).isSome
    && (if release then e.winBase == 0 && e.winSize == 0
      else e.winBase % 65536 == 0 && e.winBase < 2 ^ 52 && 1 ≤ e.winSize && e.winSize ≤ 2 ^ 20)

def rising : List Nat → Bool
  | a :: b :: l => a < b && rising (b :: l)
  | _ => true

/-- The table's checks: in the window, unpoisoned, entries well formed and in strictly ascending leaf id. -/
def tableCheck (release : Bool) (p : Bytes) (s : State) : Option Nat :=
  let n := fld p 4 4
  let es := setupTable p s
  if n = 0 then none
  else if 2 ^ 26 < fld p 8 8 + 64 * n then some stADDR_FAULT
  else if s.rangeBad (s.loadAddr 16 (fld p 8 8)) (64 * n) then some stPOISONED
  else if !es.all (fun b => setupEntryOk release b s) || !rising (es.map fun b => (readSetupEntry b).leaf) then some stBAD_FIELD
  else none

/-- BAD_CTX of CTX_OPEN (R383, R380). -/
def State.openable (s : State) (id : Nat) (gen : BitVec 16) (extend : Bool) : Bool :=
  1 ≤ id && id < s.cfg.shareCount && match s.ctx? id with
    | some x => if extend then x.life == .active gen
        else x.life == .free && (match x.last with
          | some g => gen == g + 1
          | none => true)
    | none => false

/-- SETUP_ID: unique per originator, otherwise free (R384; assumption 34). -/
def State.newSetupId (s : State) : BitVec 64 := Config.setupIdBase + BitVec.ofNat 64 (s.red.armSeq + 1)

/-- Some CTX_SETUP message has not left this instance. -/
def State.setupQueued (s : State) : Bool :=
  s.lanes.any fun l => l.txs.any fun t => t.vc == 2 && t.share == 0 && t.queue.any fun m => fld m.bytes 8 1 == 0x0D

/-- The arm of a context command goes out once every CTX_SETUP has left, at the latest at T_eff - 4 EPOCH_NS (R386);
until then the command runs on with its SETUP_ID in RESULT. -/
def armCtx (m : Nat) (c : Cmd) (kind : Nat) (aon flag : Bool) (setup : BitVec 64) (s : State) : State :=
  let p := c.payload
  let epochT := fld p 16 8
  let last : Bool := match armAt kind epochT 0 s with
    | some t => decide (t ≤ s.now + nsT (4 * s.cfg.epochNs))
    | none => true
  let c1 := { c with result := phaseResult 0 epochT 0xFF 0 0 setup }
  if s.setupQueued && !last then s.onMbx m fun x => { x with running := some c1 }
  else
    let arg := BitVec.ofNat 128 (setup.toNat + b2n flag * 2 ^ 64)
    issueArm m c kind aon epochT arg (fld p 0 1) (BitVec.ofNat 16 (fld p 2 2)) (BitVec.ofNat 32 (fld p 4 4)) setup s

/-- The set-up table of a context command. -/
def setupOfCmd (p : Bytes) (flags : Nat) (id : BitVec 64) (s : State) : Setup :=
  { setupId := id, ctx := fld p 0 1, gen := BitVec.ofNat 16 (fld p 2 2), flags := flags
    entries := (setupTable p s).map readSetupEntry }

/-- The set-up bytes that side A relays with a context command. -/
def setupImage (id : BitVec 64) (p : Bytes) (s : State) : Bytes := le 8 id.toNat ++ (setupTable p s).flatten

def openCheck (c : Cmd) (s : State) : Option Nat :=
  let p := c.payload
  let f := fld p 1 1
  if !unnamedZero p [(0, 24)] || 4 ≤ f then some stBAD_FIELD
  else if !s.openable (fld p 0 1) (BitVec.ofNat 16 (fld p 2 2)) (bit f 1) then some stBAD_CTX
  else match tableCheck false p s with
    | some e => some e
    | none => if s.tooSoon c.accepted kindCtxStart (fld p 16 8) 0 then some stTOO_SOON else none

/-- CTX_OPEN: the table is sent and KIND 0x0004 armed. -/
def execCtxOpen (m : Nat) (s : State) : Res :=
  onTray "CTX_OPEN" s <| onRunning m 0x0A01 fun c s =>
    let p := c.payload
    let f := fld p 1 1
    if c.result.isEmpty then
      checked m c (openCheck c s) (fun s =>
        let id := s.newSetupId
        let s1 := relay m c 0 (setupImage id p s) (takeSetup (setupOfCmd p f id s) s)
        armCtx m c kindCtxStart (bit f 0) (bit f 1) id s1) s
    else armCtx m c kindCtxStart (bit f 0) (bit f 1) (BitVec.ofNat 64 (fld c.result 24 8)) s

def closeCheck (c : Cmd) (s : State) : Option Nat :=
  let p := c.payload
  let part := bit (fld p 1 1) 0
  let n := fld p 4 4
  let held : Bool := match s.ctx? (fld p 0 1) with
    | some x => x.life == .active (BitVec.ofNat 16 (fld p 2 2))
    | none => false
  if !unnamedZero p [(0, 24)] || 2 ≤ fld p 1 1 || part != (0 < n) then some stBAD_FIELD
  else if !held || fld p 0 1 == 0 then some stBAD_CTX
  else match tableCheck true p s with
    | some e => some e
    | none => if s.tooSoon c.accepted kindCtxEnd (fld p 16 8) 0 then some stTOO_SOON else none

/-- CTX_CLOSE arms KIND 0x0005; with PARTIAL a release table goes out first (R389). -/
def execCtxClose (m : Nat) (s : State) : Res :=
  onTray "CTX_CLOSE" s <| onRunning m 0x0A02 fun c s =>
    let p := c.payload
    let part := bit (fld p 1 1) 0
    if c.result.isEmpty then
      checked m c (closeCheck c s) (fun s =>
        let id := if part then s.newSetupId else 0
        let s1 := if part then takeSetup (setupOfCmd p 4 id s) s else s
        armCtx m c kindCtxEnd false part id (relay m c 0 (if part then setupImage id p s else []) s1)) s
    else armCtx m c kindCtxEnd false part (BitVec.ofNat 64 (fld c.result 24 8)) s

/-! ## Recorder (R440) -/

/-- Valid records of the ring, latest first (by RSEQ). -/
def State.validRecs (s : State) : List RingRec :=
  (sortBy (fun r : RingRec => fld r.bytes 4 4) (s.flash.ring.filter (·.valid))).reverse

/-- RECORD_READ writes a record at DEST before its completion. -/
def execRecordRead (m : Nat) (s : State) : Res :=
  onTray "RECORD_READ" s <| onRunning m 0x0B01 fun c s =>
    let p := c.payload
    let dest := fld p 8 8
    if !unnamedZero p [(0, 4), (8, 8)] || dest % 4096 != 0 then fail m c stBAD_FIELD s
    else match s.validRecs[fld p 0 4]? with
      | some r =>
        let page := slice (r.bytes ++ le 8 0x45565245434F5244) 0 4096
        done m c (slice r.bytes 4 4)
          (s.issue ((linesOf page).zipIdx.map fun x => Out.store64 0 (dest + 64 * x.2) x.1))
      | none => fail m c stNOT_LOADED s

def execRecordPeriodSet (m : Nat) (s : State) : Res :=
  onTray "RECORD_PERIOD_SET" s <| onRunning m 0x0B02 fun c s =>
    let n := fld c.payload 0 4
    checked m c (fieldCheck (unnamedZero c.payload [(0, 4)] && 600 ≤ n && n ≤ 86400))
      (fun s => done m c [] { s with evr := { s.evr with nextPeriod := n } }) s

/-! ## Resets (R440) -/

/-- The twin is UP on belay and carries the role. -/
def State.twinCarries (s : State) : Bool := s.isTray && s.twin.paired && s.belayUp

/-- BLOCK_RESET writes DONE; the reset starts 10 µs after the flag is issued. -/
def execBlockReset (m : Nat) (s : State) : Res :=
  .next <| onRunning m 0x0D01 (fun c s =>
    let f := fld c.payload 0 1
    if !unnamedZero c.payload [(0, 1)] || 2 ≤ f then fail m c stBAD_FIELD s
    else if bit f 0 && !s.twinCarries then fail m c stNO_TWIN s
    else
      let s1 := done m c [] s
      { s1 with stw := { s1.stw with resetDue := some (.cmd, s.now + nsT 10000) } }) s

end Sys2Proof.Machine
end

