-- ==== Sys2Proof/Machine/Recorder.lean ====
section
/-!
DEFINITION. The event recorder: clock area, records and their flash ring, per-second metrics (19 R491 to R504); firmware
security version and hour marks in OTP (19 R505, R508).
-/

namespace Sys2Proof.Machine

def evrBit (i : Nat) (s : State) : State := (s.setBit .evr i)

/-! ## The clock area (R492) -/

/-- The valid entry with the highest PCYC, and the highest OPTIME within it. -/
def latestClock (es : List ClockEntry) : Option ClockEntry :=
  (es.filter (·.valid)).foldl (fun m e => match m with
    | some x => if x.pcyc < e.pcyc || (x.pcyc == e.pcyc && x.optime ≤ e.optime) then some e else some x
    | none => some e) none

/-- Where the next entry goes: the first erased place after the latest valid entry in its block, else the start of the
other block, which is erased; and the entries left after that. -/
def clockPlace (es : List ClockEntry) : Nat × List ClockEntry :=
  match latestClock es with
  | none => (0, es.filter fun e => 1024 ≤ e.place)
  | some l =>
    let blk := l.place / 1024
    let free := (List.range 1024).filter fun i =>
      let p := blk * 1024 + i
      l.place < p && !(es.any fun e => e.place == p)
    match free with
    | i :: _ => (blk * 1024 + i, es)
    | [] =>
      let other := 1 - blk
      (other * 1024, es.filter fun e => e.place / 1024 != other)

/-- The valid mark that ends a clock entry and a record (R492, R498). -/
def validMark : Bytes := le 8 0x45565245434F5244

/-- Bytes 0 to 55 of an entry of the clock area (R492). -/
def clockBytes (kind pcyc optime : Nat) : Bytes :=
  sealCrc (le 2 0x4B43 ++ le 1 kind ++ zeros 1 ++ le 4 pcyc ++ le 6 optime ++ zeros 38)

/-- Write an entry of the clock area, its mark last, after an erase of the block that it begins; one whose verify fails
stays invalid and sets FLASH_FAULT. -/
def writeClock (kind pcyc optime : Nat) (flash : FlashAnswer) (s : State) : State :=
  let (p, es) := clockPlace s.flash.clock
  let at_ := 0x02000000 + 64 * p
  let erase := if p % 1024 == 0 then [Out.flashErase (at_ / eraseBlock)] else []
  let mark := if flash == .ok then [Out.flashProgram (at_ + 56) validMark] else []
  let sa := s.emits (erase ++ [.flashProgram at_ (clockBytes kind pcyc optime)] ++ mark)
  let skipped := es.any fun e => !e.valid && e.place / 1024 == p / 1024 && e.place < p
  let e : ClockEntry := { place := p, kind := kind, pcyc := pcyc, optime := optime, valid := flash == .ok }
  let s1 := { sa with flash := { sa.flash with clock := es ++ [e] } }
  let s2 := if skipped then evrBit 30 s1 else s1
  if flash == .ok then s2 else evrBit 31 s2

/-- Each 60 s of OPTIME a TICK entry is written (R492). -/
def execClockTick (flash : FlashAnswer) (s : State) : Res :=
  onTray "CLOCK_TICK" s fun s =>
    let done := s.flash.clock.any fun e => e.valid && e.kind == 2 && e.pcyc == s.evr.pcyc && e.optime == s.optime
    if s.optime % 960 == 0 && s.stw.scanning && !done then writeClock 2 s.evr.pcyc (s.optime % 2 ^ 48) flash s else s

/-! ## Records (R497 to R499) -/

/-- SH: the smallest shift under which every count is at most 1,023. -/
def scaleShift (bins : List Nat) : Nat :=
  ((List.range 23).find? fun sh => bins.all fun c => c / 2 ^ sh ≤ 1023).getD 22

def storedCount (sh c : Nat) : Nat := if c = 0 then 0 else max 1 (c / 2 ^ sh)

/-- Saturated to signed 32 bits. -/
def sat32 (v : Int) : Int := clampInt (-(2 ^ 31)) (2 ^ 31 - 1) v

/-- A metric entry (R499). -/
def Metric.bytes (m : Metric) : Bytes :=
  match m.least, m.most with
  | some (lo, tLo), some (hi, tHi) =>
    let sh := scaleShift m.bins
    let packed := (m.bins.zipIdx).foldl (fun a x => a + storedCount sh x.1 * 2 ^ (10 * x.2)) 0
    le 1 (if m.sat then 2 else 0) ++ le 1 sh ++ le 4 (code 32 (sat32 lo)) ++ le 6 tLo ++ le 4 (code 32 (sat32 hi)) ++ le 6 tHi
      ++ le 40 packed
  | _, _ => le 1 1 ++ zeros 61

def State.timeKnown (s : State) : Bool := s.tim.state == .locked || s.tim.state == .suspect || s.tim.state == .holdover

/-- Bytes 0 to 4,087 of the record of the period that ends now (R498). -/
def State.recordBytes (s : State) : Bytes :=
  let flags := b2n s.evr.start + 2 * b2n s.timeKnown + 4 * b2n s.evr.bivSeen
  let head := le 2 0x5645 ++ le 1 1 ++ le 1 flags ++ le 4 (s.evr.rseq + 1) ++ le 4 s.evr.pcyc ++ le 4 s.evr.period
    ++ le 6 s.evr.optStart ++ le 6 s.optime ++ le 4 s.evr.cause.toNat ++ le 8 (if s.timeKnown then s.now / secT else 0)
    ++ le 2 s.trayPlace ++ zeros 22
  sealCrc (head ++ s.evr.metrics.flatMap Metric.bytes) ++ zeros 52

/-- A new period begins. -/
def newPeriod (start : Bool) (s : State) : State :=
  { s with evr := { s.evr with
    period := s.evr.nextPeriod
    optStart := s.optime
    start := start
    bivSeen := s.mode == .bivouac
    cause := s.boot.cause
    metrics := List.replicate 64 Metric.empty } }

/-- A period ends when OPTIME reaches a multiple of 16 × PERIOD (R497); an older record still unwritten is dropped
(R502). -/
def execRecorderPeriodEnd (s : State) : Res :=
  onTray "RECORDER_PERIOD_END" s fun s =>
    if s.optime % (16 * s.evr.period) == 0 && s.evr.optStart < s.optime then
      let s1 := if s.evr.waiting.isSome then evrBit 29 s else s
      newPeriod false { s1 with evr := { s1.evr with waiting := some s.recordBytes } }
    else s

/-! ## The flash ring (R501) -/

/-- The first erased slot of an erase block of 16 slots, from `lo` on. -/
def freeSlot (ring : List RingRec) (blk lo : Nat) : Option Nat :=
  ((List.range 16).map fun i => blk * 16 + i).find? fun p => lo ≤ p && !(ring.any fun r => r.slot == p)

/-- The next slot, the ring after any erase, whether a torn slot was skipped, and whether the slot's block is erased: the
first erased slot behind the latest valid record in its erase block of 16 slots, else the first of the next block, whose
records are given up. A record whose verify failed in that erased block goes on to the slot after it. -/
def nextSlot (ring : List RingRec) (latest : Option RingRec) : Nat × List RingRec × Bool × Bool :=
  let blk := match latest with
    | some l => l.slot / 16
    | none => 0
  let lo := match latest with
    | some l => l.slot + 1
    | none => 0
  let torn := fun p : Nat => ring.any fun r => lo ≤ r.slot && r.slot < p && r.slot / 16 == blk
  match freeSlot ring blk lo with
  | some p => (p, ring, torn p, false)
  | none =>
    let nxt := (blk + 1) % 256
    let there := ring.filter fun r => r.slot / 16 == nxt
    let begun := !there.isEmpty && there.all fun r => !r.valid
    match if begun then freeSlot ring nxt (nxt * 16) else none with
    | some p => (p, ring, true, false)
    | none => (nxt * 16, ring.filter fun r => r.slot / 16 != nxt, torn (16 * blk + 16), true)

/-- The finished record is programmed, read back and marked (R501); on a failed verify it goes to the next slot. -/
def execRecordFlashWrite (flash : FlashAnswer) (s : State) : Res :=
  onTray "RECORD_FLASH_WRITE" s fun s =>
    match s.evr.waiting with
    | none => s
    | some b =>
      let (slot, ring, torn, erased) := nextSlot s.flash.ring s.latestRec?
      let ok := flash == .ok
      let at_ := 0x03000000 + 4096 * slot
      let erase := if erased then [Out.flashErase (at_ / eraseBlock)] else []
      let s1 := { s with
        flash := { s.flash with ring := ring ++ [{ slot := slot, bytes := if ok then b ++ validMark else b, valid := ok }] }
        evr := { s.evr with
          waiting := if ok then none else some b
          rseq := if ok then s.evr.rseq + 1 else s.evr.rseq } }
      let s2 := if torn then evrBit 30 s1 else s1
      let s3 := s2.emits (erase ++ [.flashProgram at_ b])
      if ok then s3.emit (.flashProgram (at_ + 4088) validMark) else evrBit 31 s3

/-! ## Per-second metrics (R494) -/

/-- The counts that metrics 24 to 31 take increments of; none of them falls when a counter is read. -/
def State.secondCounts (s : State) : List Nat :=
  let e := fun i : Nat => nth s.err.total i 0
  let lanes := fun i : Nat => sumNat (s.lanes.map fun l => (nth l.ctr i 0).toNat)
  [e 7, e 10, s.err.transients, lanes 2 + lanes 3, lanes 11, e 14 + e 15 + e 16, e 18, e 24]

/-- An OPTIME second (R494). -/
def execOptimeSecond (s : State) : Res :=
  onTray "OPTIME_SECOND" s fun s =>
    if s.optime % 16 != 0 then s
    else
      let cur := s.secondCounts
      let incs := (cur.zipIdx).map fun x => (24 + x.2, ((x.1 - nth s.evr.lastCounts x.2 0 : Nat) : Int))
      let s1 := s.metrics ((15, ((s.tim.sourceChanges : Nat) : Int)) :: incs)
      { s1 with
        tim := { s1.tim with sourceChanges := 0 }
        evr := { s1.evr with lastCounts := cur } }

/-! ## OTP counts (R505, R508) -/

/-- Set bits of a run of OTP words. -/
def State.otpBits (s : State) (a n : Nat) : Nat :=
  sumNat ((List.range n).map fun i => popcount (s.otpRead (a + i)).toNat)

/-- The firmware security version in OTP (R508). -/
def State.otpSvn (s : State) : Nat := s.otpBits 1024 512

/-- Set the bits below n of a unary count, in ascending order. -/
def raiseUnary (a n : Nat) (s : State) : State :=
  (List.range ((n + 31) / 32)).foldl (fun s i =>
    let v := s.otpRead (a + i) ||| BitVec.ofNat 32 (2 ^ min 32 (n - 32 * i) - 1)
    if v == s.otpRead (a + i) then s else s.otpProgram (a + i) v) s

/-- SEC raises the OTP SVN after 1 h of operating time out of bivouac without a steward-caused reset (R508). -/
def execSvnRaise (s : State) : Res :=
  .next <|
    let ran := match s.boot.runFrom with
      | some t => decide (t + 57600 ≤ s.optime)
      | none => false
    let stewardReset := s.boot.cause.getLsbD 27 || s.boot.cause.getLsbD 26 || s.boot.cause.getLsbD 25
    if ran && s.mode != .bivouac && !stewardReset && s.otpSvn < s.ident.svn.toNat then
      raiseUnary 1024 (min 16384 s.ident.svn.toNat) s
    else s

/-- A leaf sets the next HOUR_MARKS bit at each 64 operating hours (R505). -/
def execHourMark (s : State) : Res :=
  onLeaf "HOUR_MARK" s fun s =>
    let n := s.otpBits 80 48
    if 64 * (n + 1) ≤ s.opHours && n < 1536 then raiseUnary 80 (n + 1) s else s

end Sys2Proof.Machine
end

