-- ==== Sys2Proof/Machine/Identity.lean ====
section
/-!
DEFINITION. Identity (19 R505 to R512): the keys that SEC derives, the check of a firmware image, AUTH, CERT_READ and
EVIDENCE_SIGN.
-/

namespace Sys2Proof.Machine

/-! ## OTP fields (R505) -/

/-- UDS: OTP words 0 to 11. -/
def State.uds (s : State) : Bytes := (List.range 12).flatMap fun i => le 4 (s.otpRead i).toNat

def State.udsSet (s : State) : Bool := (s.otpRead 12).getLsbD 0
def State.enrolled (s : State) : Bool := (s.otpRead 12).getLsbD 1

/-- OWNER_HASH: words 16 to 27. -/
def State.ownerHash (s : State) : Bytes := (List.range 12).flatMap fun i => le 4 (s.otpRead (16 + i)).toNat

/-- The DeviceID and the issuing-CA certificates in DER. -/
def State.deviceCert (s : State) : Bytes :=
  let n := (s.otpRead 128).toNat % 65536
  ((List.range ((n + 3) / 4)).flatMap fun i => le 4 (s.otpRead (129 + i)).toNat).take n

def State.issuerCert (s : State) : Bytes :=
  let n := (s.otpRead 128).toNat % 65536
  let m := (s.otpRead 128).toNat / 65536
  (((List.range ((n + m + 3) / 4)).flatMap fun i => le 4 (s.otpRead (129 + i)).toNat).drop n).take m

/-! ## Keys (R507, R509) -/

/-- The ASCII texts IKIELM-DEVICEID and IKIELM-ALIAS. -/
def textDeviceId : Bytes := [0x49, 0x4B, 0x49, 0x45, 0x4C, 0x4D, 0x2D, 0x44, 0x45, 0x56, 0x49, 0x43, 0x45, 0x49, 0x44].map
  (BitVec.ofNat 8)
def textAlias : Bytes := [0x49, 0x4B, 0x49, 0x45, 0x4C, 0x4D, 0x2D, 0x41, 0x4C, 0x49, 0x41, 0x53].map (BitVec.ofNat 8)

def deviceScalar (uds : Bytes) : Bytes := Config.scal (Config.hkdfExpand (Config.hkdfExtract [] uds) textDeviceId 56)

def aliasScalar (uds m : Bytes) (svn : BitVec 16) : Bytes :=
  Config.scal (Config.hkdfExpand (Config.hkdfExtract (m ++ le 2 svn.toNat) uds) textAlias 56)

/-- DEVICE_ID: the first 8 bytes of the SHA-384 of the uncompressed DeviceID public key, read as a little-endian number
(20 R522). -/
def deviceIdOf (scalar : Bytes) : BitVec 64 := BitVec.ofNat 64 (fld (Config.sha384 (Config.p384Public scalar)) 0 8)

/-! ## Firmware images (R508) -/

/-- Bytes of an image that its header names: header, certificate, body, signature. -/
def fwLen (b : Bytes) : Nat := 64 + (fld b 12 4 + 63) / 64 * 64 + fld b 16 4 + 96

def fwBody (b : Bytes) : Bytes := slice b (64 + (fld b 12 4 + 63) / 64 * 64) (fld b 16 4)

def fwSvn (b : Bytes) : BitVec 16 := BitVec.ofNat 16 (fld b 6 2)
def fwRev (b : Bytes) : BitVec 32 := BitVec.ofNat 32 (fld b 8 4)

def profileCode : Profile → Nat
  | .leaf => 0
  | .tray => 1

/-- SEC accepts an image; bytes behind it are zero padding to a multiple of 64 (assumption 41). -/
def fwOk (p : Profile) (otpSvn : Nat) (b : Bytes) : Bool :=
  let n := fwLen b
  let cert := slice b 64 (fld b 12 4)
  let pad := slice b (64 + fld b 12 4) ((fld b 12 4 + 63) / 64 * 64 - fld b 12 4)
  fld b 0 4 == 0x57464B49 && n ≤ b.length && b.length ≤ (n + 63) / 64 * 64 && isZero (b.drop n) && isZero pad
    && fld b 4 1 == profileCode p && fld b 5 1 == 0 && fld b 16 4 % 64 == 0 && isZero (slice b 20 44)
    && otpSvn ≤ fld b 6 2 && Config.certVerify cert Config.rootKey
    && Config.ecdsaVerify (Config.certKey cert) (Config.sha384 (b.take (n - 96))) (slice b (n - 96) 96)

/-- The identity under a started firmware image: DeviceID, alias key and certificate (R507, R509). -/
def startIdentity (fw : Bytes) (s : State) : State :=
  let m := Config.sha384 (fwBody fw)
  let dev := deviceScalar s.uds
  let al := aliasScalar s.uds m (fwSvn fw)
  { s with ident := { s.ident with
    deviceId := deviceIdOf dev
    deviceKey := dev
    aliasKey := al
    aliasCert := Config.aliasCert dev (Config.p384Public al) s.profile (fwRev fw) (fwSvn fw) m
    m := m
    svn := fwSvn fw
    fwif := fwRev fw } }

/-! ## AUTH (R510, 06 R175, R179) -/

/-- The fields of a HELLO as it is hashed; its layout is open (assumption 10). -/
def helloBytes (proto fwif profile role side lane id blkRev : Nat) (nonce : Bytes) : Bytes :=
  Config.ctlPayload 0x90 [proto, blkRev, fwif, profile, role, side, lane, id] ++ nonce

def sideCode : Side → Nat
  | .a => 0
  | .b => 1

/-- This end's HELLO on a lane (06 R180). -/
def State.ownHello (s : State) (l : Lane) : Hello where
  proto := ownProto
  blkRev := 0x0301
  fwif := s.ident.fwif
  profile := s.profile
  role := s.cfg.role
  side := s.cfg.side
  lane := l.n
  id := if s.isLeaf then s.cfg.leafId else s.cfg.team
  nonce := l.ownNonce
  carrying := s.carrying

def helloText (h : Hello) : Bytes :=
  helloBytes h.proto.toNat h.fwif.toNat (profileCode h.profile) (roleCode h.role) (sideCode h.side) h.lane h.id
    h.blkRev.toNat h.nonce

/-- The transcript that both ends sign: HELLOs, chains and ephemeral keys, in lower-then-upper order (06 R179). -/
def transcript (lower : Bool) (own peer : Bytes × Bytes × Bytes) : Bytes :=
  let (a, b) := if lower then (own, peer) else (peer, own)
  Config.sha384 (a.1 ++ b.1 ++ a.2.1 ++ b.2.1 ++ a.2.2 ++ b.2.2)

/-- The profile that a lane requires of its far end. -/
def State.requiredProfile (s : State) (u : LaneUse) : Profile :=
  match u with
  | .down _ => if s.isTray && s.cfg.role == .tray then .leaf else .tray
  | _ => .tray

/-- This end's messages of AUTH on VC3 as clear cells (06 R179): its certificates, its ephemeral key, its signature, one
message each (assumption 175). -/
def authMessages (gen : BitVec 16) (certs eph sig : Bytes) : List Bytes :=
  clearCells gen 0 certs ++ clearCells gen 1 eph ++ clearCells gen 2 sig

/-- The far end's chain, signature, profile, deny list and version (R510, 06 R180). -/
def State.authOk (s : State) (l : Lane) (h : Hello) (a : AuthIn) (t : Bytes) : Bool :=
  let key := Config.certKey a.deviceCert
  s.enrolled && Config.certVerify a.issuerCert Config.rootKey && Config.certVerify a.deviceCert (Config.certKey a.issuerCert)
    && Config.certVerify a.aliasCert key && Config.ecdsaVerify key t a.signature
    && Config.certProfile a.deviceCert == s.requiredProfile l.plan.use
    && !s.cfg.denyList.contains (Config.certDeviceId a.deviceCert)
    && Config.certVersion a.aliasCert == h.fwif

/-- AUTH: this end sends its chain, ephemeral key and signature as VC3 messages in clear; with both verified the keys of the
pitch's generation are derived, and the lane is KEYED once its own messages have left, otherwise it returns to DETECT with
AUTH_FAIL. -/
def execAuth (lane : Nat) (a : AuthIn) (s : State) : Res :=
  .next <| match s.lane? lane with
  | none => s
  | some l =>
    match l.st, l.peer with
    | .auth, some h =>
      if l.authKeys.isSome then s
      else
      let lower := s.isLower l
      let own := (helloText (s.ownHello l), s.deviceCert ++ s.issuerCert ++ s.ident.aliasCert, Config.p384Public a.ownEphemeral)
      let far := (helloText h, a.deviceCert ++ a.issuerCert ++ a.aliasCert, a.ephemeral)
      let t := transcript lower own far
      let s1 := s.emit (.authSent lane [s.deviceCert, s.issuerCert, s.ident.aliasCert] own.2.2
        (Config.ecdsaSign s.ident.deviceKey t))
      if s.authOk l h a t then
        s1.onLane lane fun l => { l with
          authCells := authMessages (s.genOf 0) (s.deviceCert ++ s.issuerCert ++ s.ident.aliasCert) own.2.2
            (Config.ecdsaSign s.ident.deviceKey t)
          authKeys := some (l.keysFor lower a.ownEphemeral a.ephemeral ((l.txPitch >>> 32).setWidth 32)) }
      else s1.onLane lane fun l => l.toDetect 6 s.now
    | _, _ => s

/-! ## CERT_READ and EVIDENCE_SIGN (R511, R512) -/

/-- Bytes written at a DEST of the service owner: host memory at a leaf, a fabric address at a tray block (16 R440). -/
def writeDest (addr : Nat) (b : Bytes) (s : State) : State :=
  s.issue ((linesOf b).zipIdx.map fun x =>
    if s.isLeaf then Out.hfWrite (addr + 64 * x.2) x.1 else Out.store64 0 (addr + 64 * x.2) x.1)

def State.certItem (s : State) (item : Nat) : Option Bytes :=
  match item with
  | 0 => some s.deviceCert
  | 1 => some s.issuerCert
  | 2 => some s.ident.aliasCert
  | 3 => some (Config.p384Public s.ident.deviceKey)
  | 4 => some Config.rootKey
  | _ => none

/-- An answer of known length goes to DEST, or completes BAD_FIELD with the length that it needs. -/
def toDest (n : Nat) (c : Cmd) (dest destLen : Nat) (b : Bytes) (s : State) : State :=
  if dest % 4096 != 0 then fail n c stBAD_FIELD s
  else if destLen < b.length then finish n c stBAD_FIELD (le 4 b.length) s
  else done n c (le 4 b.length) (writeDest dest b s)

def execCertRead (m : Nat) (s : State) : Res :=
  .next <| onRunning m 0x0C01 (fun c s =>
    let p := c.payload
    if !unnamedZero p [(0, 1), (8, 12)] then fail m c stBAD_FIELD s
    else match s.certItem (fld p 0 1) with
      | some b => toDest m c (fld p 8 8) (fld p 16 4) b s
      | none => fail m c stBAD_FIELD s) s

/-- Bytes 0 to 255 of the evidence. -/
def State.evidence (s : State) (nonce : Bytes) : Bytes :=
  let place := if s.isLeaf then le 4 (s.cfg.leafId % 2 ^ 17) else le 4 s.trayPlace
  le 2 0x4549 ++ le 1 1 ++ le 1 (profileCode s.profile) ++ le 4 s.idRevision.toNat ++ le 4 s.ident.fwif.toNat
    ++ le 2 s.ident.svn.toNat ++ le 2 s.otpSvn ++ slice nonce 0 48 ++ slice s.ident.m 0 48
    ++ (if s.ident.configured then slice s.ident.cfgHash 0 48 else zeros 48) ++ timeBytes s.now ++ le 4 s.stw.boot.toNat
    ++ le 4 s.boot.cause.toNat ++ le 4 (if s.isLeaf then 0 else s.evr.pcyc) ++ le 6 (if s.isLeaf then 0 else s.optime)
    ++ zeros 2 ++ place ++ le 8 s.ident.deviceId.toNat ++ zeros 48

def execEvidenceSign (m : Nat) (s : State) : Res :=
  .next <| onRunning m 0x0C02 (fun c s =>
    let p := c.payload
    if !unnamedZero p [(0, 60)] then fail m c stBAD_FIELD s
    else
      let e := s.evidence (slice p 0 48)
      toDest m c (fld p 48 8) (fld p 56 4) (e ++ slice (Config.ecdsaSign s.ident.aliasKey (Config.sha384 e)) 0 96) s) s

end Sys2Proof.Machine
end

