-- ==== Sys2Proof/Machine/OpsLoad.lean ====
section
/-!
DEFINITION. The mailbox opcodes that carry an image (16 R427, R436, R437, R438): parts and their assembly, the checks of
plans, tables, rows, models, placements and action tables, and images for the member leaves.
-/

namespace Sys2Proof.Machine

/-! ## Parts (R427) -/

/-- Bytes of a context's part of the model store (09 R249): the room for its assemblies and models. -/
def State.modelPart (s : State) : Nat := (s.region 3).2 / max 1 s.cfg.shareCount

/-- The bytes of a part: from the load window at a tray block, from host memory at a leaf. -/
def State.partBytes (s : State) (n : Nat) (p : Part) (host : HostImage) : Except Nat Bytes :=
  if s.isTray then
    if s.rangeBad (s.loadAddr n p.src) p.len then .error stPOISONED else .ok (s.getBytes (s.loadAddr n p.src) p.len)
  else match host with
    | .bytes b => .ok (slice b 0 p.len)
    | .poisoned _ => .error stPOISONED
    | .fault _ => .error stADDR_FAULT

/-- The assembly of an opcode on a mailbox. -/
def State.assembly? (s : State) (n op : Nat) : Option Assembly :=
  (s.mbx? n).bind fun m => m.asm.find? (·.op == op)

def dropAssembly (n op : Nat) (s : State) : State :=
  s.onMbx n fun m => { m with asm := m.asm.filter (·.op != op) }

/-- The part's own checks; `named` payload bytes follow the header. -/
def partCheck (n op named : Nat) (pay : Bytes) (s : State) : Option (Nat × Bytes) :=
  let p := readPart pay
  let have_ := ((s.assembly? n op).map (·.bytes.length)).getD 0
  let sameLen := p.pos == 0 || ((s.assembly? n op).map (·.len)) == some p.imgLen
  let leavesOk := !p.toLeaves || (s.isTray && s.cfg.role == .tray && [0x0701, 0x0704, 0x0801, 0x0803].contains op)
  if !unnamedZero pay [(0, 36 + named)] || !partReserved pay || !p.lenOk || !leavesOk then some (stBAD_FIELD, [])
  else if s.isLeaf && (p.pos != 0 || !p.last || p.len != p.imgLen) then some (stBAD_FIELD, [])
  else if s.isLeaf && mbxCtx n != 0 && !s.inWindow (mbxCtx n) p.src p.len then some (stADDR_FAULT, [])
  else if s.isTray && 2 ^ 26 < p.src + p.len then some (stADDR_FAULT, [])
  else if p.pos != 0 && p.pos != have_ then some (stBAD_FIELD, le 8 have_)
  else if !sameLen || p.imgLen < p.pos + p.len || (p.last && p.pos + p.len != p.imgLen) then some (stBAD_FIELD, [])
  else if s.isTray && s.modelPart < p.imgLen then some (stSHARE_EXCEEDED, [])
  else none

/-- What an image does once its LAST part is there: a status that refuses it, or its effect. -/
inductive ImageEffect where
  | refuse (status : Nat)
  | bnd (a : Bnd) (rest : Bytes)
  | now (f : State → State)

/-- The progress records of a part copied: one at each multiple of 1 MiB inside it (15 R414, R430). -/
def copyProgress (n len : Nat) (c : Cmd) (s : State) : State :=
  (List.range ((len - 1) / 2 ^ 20)).foldl (fun s i => writeEntry n { c with cursor := (i + 1) * 2 ^ 20 } s) s

/-- Take a part (R427). A part without LAST completes with OK, at side A once side B has echoed it; with LAST the image's
own checks run and its effect follows. With DEST_LEAVES the image goes to the member leaves instead (`leaves`). -/
def takePart (n named : Nat) (c : Cmd) (host : HostImage) (effect : Bytes → ImageEffect)
    (leaves : Cmd → Bytes → State → State) (s : State) : State :=
  let p := readPart c.payload
  match partCheck n c.op named c.payload s with
  | some (st, r) => finish n c st r s
  | none =>
    match s.partBytes n p host with
    | .error st => fail n c st (imageFault p.src host (dropAssembly n c.op s))
    | .ok b =>
      let old := if p.pos == 0 then [] else ((s.assembly? n c.op).map (·.bytes)).getD []
      let img := old ++ b
      let c1 := { c with cursor := p.len }
      let s1 := copyProgress n p.len c (dropAssembly n c.op s)
      if !p.last then
        let s2 := s1.onMbx n fun m => { m with asm := m.asm ++ [{ op := c.op, len := p.imgLen, bytes := img }] }
        teamDone n c1 b [] s2
      else if p.toLeaves then leaves c1 img s1
      else match effect img with
        | .refuse st => fail n c1 st s1
        | .bnd a rest => bndDone n c1 false true a b rest s1
        | .now f => teamDone n c1 b [] (f s1)

/-! ## Plans (07 R198, R199) -/

/-- A plan in force, that is, the one that sheaves of this epoch take, or armed. -/
def State.planUsed (s : State) (ctx id : Nat) : Bool :=
  ((planAt s.red.plans ctx s.curEpoch).any fun p => p.planId == id) ||
  s.red.arms.any fun a => a.kind == kindPlanSet && a.ctx == ctx && bits a.arg.toNat 15 0 == id

/-- Hold a plan in place of an earlier one of its id. -/
def holdPlan (ctx : Nat) (p : Plan) (s : State) : State :=
  { s with red := { s.red with
    plans := putBack (fun x => x.ctx == ctx && x.plan.planId == p.planId) { ctx := ctx, plan := p, since := none } s.red.plans } }

def planEffect (ctx : Nat) (pay img : Bytes) (s : State) : ImageEffect :=
  match parsePlan img with
  | none => .refuse stBAD_PLAN
  | some p =>
    if fld pay 36 2 != p.planId then .refuse stBAD_FIELD
    else if s.planUsed ctx p.planId then .refuse stIN_USE
    else if !s.planHeld ctx p.planId && 4 ≤ (s.red.plans.filter (·.ctx == ctx)).length then .refuse stSHARE_EXCEEDED
    else .now (holdPlan ctx p)

/-! ## Tables (R437, 09 R249, R253, R254, 11 R319) -/

/-- A table of this id is held or waits for its boundary. -/
def State.tableTaken (s : State) (id : Nat) : Bool :=
  (s.table? id).isSome || s.stw.bnd.any fun b => match b.act with
    | .table _ _ img => img.tableId == id
    | _ => false

/-- The table images of a context, waiting ones included. -/
def State.tablesOf (s : State) (ctx : Nat) : List TableImg :=
  (s.mem.tables.filter (·.ctx == ctx)).map (·.img) ++ s.stw.bnd.filterMap fun b => match b.act with
    | .table c _ img => if c == ctx then some img else none
    | _ => none

/-- Lines of a channel that tables take: their rows, their headers in CH0 (09 R254, R255), and the context's entity index
(09 R256), a page for each leaf with entities. -/
def channelLines (ts : List TableImg) (ch : Nat) : Nat :=
  let pages := ((ts.flatMap fun t => t.entities.map entityLeaf).eraseDups).length
  sumNat (ts.map fun t => b2n (t.ch0 == ch)
    + sumNat ((List.range t.entities.length).map fun r => if (t.ch0 + r) % 512 == ch then t.rowLen else 0))
    + (if ts.isEmpty then 0 else indexLines pages)

/-- Bytes of decimated history of a table: its rings hold the words of its decimated columns (09 R262). -/
def historyLen (t : TableImg) : Nat :=
  4 * (t.ring1s + t.ring1m) * t.entities.length * sumNat ((t.cols.filter (·.dec)).map (·.nwords))

/-- The tables fit in a context's parts (09 R249); at a leaf in its part of the feature buffer (11 R319). -/
def State.tablesFit (s : State) (ts : List TableImg) : Bool :=
  let n := max 1 s.cfg.shareCount
  if s.isTray then
    (List.range 512).all (fun ch => 64 * channelLines ts ch ≤ (s.region 1).2 / 512 / n)
      && sumNat (ts.map historyLen) ≤ (s.region 2).2 / n
  else 64 * sumNat (ts.map fun t => t.rowLen * t.entities.length) ≤ 262144 / n

/-- The update list is within the slot window (09 R253), at a leaf within 1,088 line updates (11 R319). -/
def State.updatesFit (s : State) (ts : List TableImg) : Bool :=
  if s.isTray then slotBudgetOk s.cfg.recSizes (max 1 s.cfg.shareCount) ts
  else sumNat (ts.map fun t => sumNat (t.entities.map (rowLineUpdates t))) ≤ 1088

def tableEffect (ctx : Nat) (gen : BitVec 16) (pay img : Bytes) (s : State) : ImageEffect :=
  match (Config.tableParts img).bind parseTable with
  | none => .refuse stBAD_TABLE
  | some t =>
    let ts := s.tablesOf ctx ++ [t]
    if fld pay 36 2 != t.tableId then .refuse stBAD_FIELD
    else if !tableOk s.isLeaf s.cfg.role t then .refuse stBAD_TABLE
    else if s.tableTaken t.tableId then .refuse stIN_USE
    else if !s.updatesFit ts then .refuse stSLOT_BUDGET
    else if !s.tablesFit ts then .refuse stSHARE_EXCEEDED
    else .bnd (.table ctx gen t) []

/-! ## Rows (R437) -/

/-- The records of a ROW_LOAD image. -/
def rowRecords (img : Bytes) : List Bytes := (List.range (img.length / 64)).map fun i => slice img (64 * i) 64

/-- A record writes 1 to 14 words of LOADED columns. -/
def rowRecordOk (t : TableImg) (b : Bytes) : Bool :=
  let w := fld b 4 2
  let n := fld b 6 2
  1 ≤ n && n ≤ 14 && isZero (slice b (8 + 4 * n) (56 - 4 * n)) && (List.range n).all fun i =>
    t.cols.any fun c => c.op == .loaded && c.word ≤ w + i && w + i < c.word + c.nwords

def recordEntity (b : Bytes) : BitVec 32 := BitVec.ofNat 32 (fld b 0 4)

def rowEffect (ctx : Nat) (pay img : Bytes) (s : State) : ImageEffect :=
  match s.table? (fld pay 36 2) with
  | none => .refuse stNOT_LOADED
  | some t =>
    let rs := rowRecords img
    if t.ctx != ctx then .refuse stNOT_OWNER
    else if !rs.all (rowRecordOk t.img) then .refuse stBAD_FIELD
    else
      let lost := (rs.filter fun b => !t.rows.any fun r => r.entity == recordEntity b).length
      .bnd (.rows t.img.tableId img) (zeros 12 ++ le 4 lost)

/-! ## Models (R437, 10 R286, 09 R271) -/

/-- The parts that a share has of the lane memories (10 R275, R276) and of the model store. -/
def State.modelRoom (s : State) : ModelRoom :=
  let part := fun m : LaneMem => m.part s.isLeaf s.cfg.shareCount
  { sets := part .sets / 512, half := part .stream / 32, banks := s.laneCount * (part .nodes / 16), bank := part .nodes / 16
    maps := part .maps, dirs := s.laneCount * part .headers, dir := part .headers, store := s.modelPart / 16 }

/-- Bytes of a model in the model store. -/
def modelSize (m : Model) : Nat := 64 + 4 * m.dir.length + 8 * m.fmap.length + 16 * m.nodes.length + 512 * m.sets.length

/-- A model stopped by poison in the model store may be replaced by an image with the same header (09 R271). -/
def State.reloads (s : State) (h : HeldModel) (m : Model) : Bool :=
  h.m.ctx == m.ctx && h.m.header.take 60 == m.header.take 60 && s.mem.stopped.any fun j => j.model == m.modelId && j.store

/-- Hold a model; a reload clears its poison, and its job resumes at the next boundary. -/
def holdModel (m : Model) (s : State) : State :=
  let s := if s.isTray then s.stripe (.c m.ctx) 0 (lineCount (modelSize m)) else s
  { s with mem := { s.mem with
    models := putBack (·.m.modelId == m.modelId) { m := m, poisoned := false } s.mem.models
    stopped := mapIf (·.model == m.modelId) (fun j => { j with store := false }) s.mem.stopped } }

/-- Bytes of a context's reduction plans in the model store (09 R248): a header, 32 a field, in whole lines. -/
def State.planBytes (s : State) (ctx : Nat) : Nat :=
  sumNat ((s.red.plans.filter (·.ctx == ctx)).map fun p => (64 + 32 * p.plan.fields.length + 63) / 64 * 64)

/-- Some table of the context has every word that the feature map names (10 R286, 11 R318): an image names no table, so a
context without one is checked when the model is placed (assumption 92). -/
def State.wordsFit (s : State) (ctx : Nat) (m : Model) : Bool :=
  let ts := s.tablesOf ctx
  ts.isEmpty || ts.any fun t => m.fmap.all fun f => f.word < 16 * t.rowLen

def modelEffect (ctx : Nat) (gen : BitVec 16) (pay img : Bytes) (s : State) : ImageEffect :=
  match (Config.modelParts img).bind (parseModel (img.take 64)) with
  | none => .refuse stBAD_MODEL
  | some m =>
    let others := (s.mem.models.filter fun h => h.m.ctx == ctx && h.m.modelId != m.modelId).map (·.m)
    if fld pay 36 2 != m.modelId then .refuse stBAD_FIELD
    else if m.ctx != ctx || m.gen != gen then .refuse stNOT_OWNER
    else if !modelOk s.modelRoom m || !s.wordsFit ctx m then .refuse stBAD_MODEL
    else if s.isTray && s.modelPart < sumNat ((m :: others).map modelSize) + s.planBytes ctx then .refuse stSHARE_EXCEEDED
    else match s.model? m.modelId with
      | some h => if s.reloads h m then .now (holdModel m) else .refuse stIN_USE
      | none => .now (holdModel m)

/-! ## Placements (R437, 11 R320, R324 to R326, 12 R331) -/

/-- Every word that a placed model names lies in the rows of its table (10 R286). -/
def State.wordsOk (s : State) (e : PlaceEntry) : Bool :=
  match s.model? e.modelId, s.table? e.tableId with
  | some h, some t => h.m.fmap.all fun f => f.word < 16 * t.img.rowLen
  | _, _ => false

/-- The entries of a placement, then those of each fallback (11 R325). -/
def Placement_sets (p : Placement) : List (List PlaceEntry) := p.entries :: p.fallbacks.map (·.2)

/-- Entries, their words, the lanes of the fallbacks and the rules of a placement are right (BAD_PLACE otherwise). -/
def State.placementOk (s : State) (ctx : Nat) (p : Placement) : Bool :=
  (Placement_sets p).all (fun es => es.all fun e => s.entryOk ctx e && s.wordsOk e)
    && (p.fallbacks.all fun f => f.2.all fun e => e.lane0 + e.nsets * e.lanes ≤ f.1)
    && p.rules.all (s.ruleOk ctx p.entries)

def placeEffect (ctx : Nat) (img : Bytes) (s : State) : ImageEffect :=
  match (Config.placeParts img).bind parsePlacement with
  | none => .refuse stBAD_PLACE
  | some p =>
    if !s.placementOk ctx p then .refuse stBAD_PLACE
    else if !(Placement_sets p).all s.budgetOk then .refuse stPLACE_BUDGET
    else .bnd (.place ctx p) []

/-! ## Action tables (R438, 12 R334) -/

def actKindOf (n : Nat) : Option ActKind :=
  match n with
  | 0 => some .mark
  | 1 => some .capDie
  | 2 => some .capTray
  | _ => none

/-- A verdict code of 12 R330 other than NONE. -/
def verdictCode (v : Nat) : Bool := [0x00, 0x01, 0x02, 0x03, 0x10, 0x11, 0x12, 0x13].contains v

/-- A row of the action table; none where it breaks R334. -/
def parseAct (b : Bytes) (s : State) : Option ActRow :=
  let cap := fld b 4 2
  let hold := fld b 8 4
  match actKindOf (fld b 3 1), s.model? (fld b 0 2) with
  | some k, some h =>
    let own := if k == .mark then cap == 0 && hold == 0 else 1 ≤ hold && hold ≤ 2 ^ 24
    if h.m.ctx == 0 && verdictCode (fld b 2 1) && own && isZero (slice b 6 2) && isZero (slice b 12 4) then
      some { modelId := fld b 0 2, verdict := fld b 2 1, kind := k, cap := cap, hold := hold }
    else none
  | _, _ => none

def actEffect (pay img : Bytes) (s : State) : ImageEffect :=
  let n := fld pay 36 2
  let rows := (List.range n).map fun i => parseAct (slice img (16 * i) 16) s
  if 1 ≤ n && n ≤ 1024 && img.length == (16 * n + 63) / 64 * 64 && isZero (img.drop (16 * n)) && rows.all (·.isSome) then
    .bnd (.acts (rows.filterMap id)) []
  else .refuse stBAD_FIELD

/-! ## The effect of an opcode's image -/

def imageEffect (ctx op : Nat) (pay img : Bytes) (s : State) : ImageEffect :=
  let gen := s.genOf ctx
  if op == 0x0501 then planEffect ctx pay img s
  else if op == 0x0701 then tableEffect ctx gen pay img s
  else if op == 0x0704 then rowEffect ctx pay img s
  else if op == 0x0801 then modelEffect ctx gen pay img s
  else if op == 0x0803 then placeEffect ctx img s
  else actEffect pay img s

/-! ## DEST_LEAVES (R427, R428) -/

/-- The member leaves of a context with their slots. -/
def State.memberLeaves (s : State) (ctx : Nat) : List (Nat × Nat) :=
  (expectedSlots s.red.changes ctx s.curEpoch).filterMap fun n => (subjectOf s.red.changes n).map fun l => (n, l)

/-- The image goes on VC2, in the context's share, to every member leaf; the command waits for their answers. The
message's layout is open (assumption 10). -/
def sendToLeaves (n : Nat) (c : Cmd) (img : Bytes) (s : State) : State :=
  let ctx := mbxCtx n
  let ls := s.memberLeaves ctx
  let s1 := ls.foldl (fun s x => s.sendMsgAll (s.slotLanes x.1) 2 ctx ctx (s.genOf ctx)
    (Config.ctlPayload 0x82 [ctx, c.op] ++ c.payload ++ img)) s
  let c1 := { c with cursor := 0, result := zeros 20 }
  if ls.isEmpty then finish n c1 stOK c1.result s1 else wait n c1 (.leaves (ls.map (·.2))) s1

/-- RESULT bytes 8 to 19 after a leaf's answer: leaves loaded and refused, and the first refusal. -/
def countLeaf (r : Bytes) (leaf status : Nat) : Bytes :=
  let ok := fld r 8 4
  let no := fld r 12 4
  if status == stOK then slice r 0 8 ++ le 4 (ok + 1) ++ slice r 12 8
  else if no == 0 then slice r 0 12 ++ le 4 1 ++ le 2 leaf ++ le 1 (leaf / 2 ^ 16 % 2) ++ le 1 status
  else slice r 0 12 ++ le 4 (no + 1) ++ slice r 16 4

/-- The opcodes that take effect at a boundary. -/
def imageBnd (op : Nat) : Bool := op != 0x0501 && op != 0x0801

/-- A leaf's answer is counted. After the last one the boundary is named to the leaves, at least 4 epochs ahead, or a
MODEL_LOAD completes. -/
def leafAnswered (n leaf status : Nat) (s : State) : State :=
  let waits := fun c : Cmd => match c.wait with
    | .leaves ids => ids.contains leaf
    | _ => false
  match (s.mbx? n).bind fun m => m.waiting.find? waits with
  | none => s
  | some c =>
    let left := match c.wait with
      | .leaves ids => ids.filter (· != leaf)
      | _ => []
    let c1 := { c with cursor := c.cursor + 1, result := countLeaf c.result leaf status, wait := .leaves left }
    if !left.isEmpty then writeEntry n c1 (setWaiting n c (some c1) s)
    else if imageBnd c.op then
      let b := s.nameBoundary true
      let c2 := { c1 with result := le 8 b ++ slice c1.result 8 12, wait := .boundary b }
      let ctx := mbxCtx n
      let s1 := (s.memberLeaves ctx).foldl (fun s x => s.sendMsgAll (s.slotLanes x.1) 2 ctx ctx (s.genOf ctx)
        (Config.ctlPayload 0x83 [ctx, b])) s
      writeEntry n c2 (setWaiting n c (some c2) s1)
    else endWaiting n c1 4 stOK (setWaiting n c (some c1) s)

/-- A leaf loads an image as it would on its own mailbox, and answers its tray block with the status; one that takes
effect at a boundary waits for its name. A leaf that refuses keeps its state. -/
def leafTakes (ctx op : Nat) (pay img : Bytes) (s : State) : State :=
  let answer := fun (st : Nat) (s : State) =>
    s.sendMsgAll (s.lanesFor LaneUse.isUp) 2 ctx ctx (s.genOf ctx) (Config.ctlPayload 0x84 [ctx, s.cfg.leafId, st])
  if !s.isActive ctx then answer stCTX_GONE s
  else match imageEffect ctx op pay img s with
    | .refuse st => answer st s
    | .bnd a _ => answer stOK { s with stw := { s.stw with bnd := s.stw.bnd ++ [{ b := 0, act := a, echoed := false }] } }
    | .now f => answer stOK (f s)

/-- The context that a queued image effect belongs to. -/
def State.bndCtx (s : State) : Bnd → Option Nat
  | .table c _ _ => some c
  | .place c _ => some c
  | .rows id _ => (s.table? id).map (·.ctx)
  | _ => none

/-- The boundary of the images that wait for it at a leaf. -/
def leafNamed (ctx b : Nat) (s : State) : State :=
  { s with stw := { s.stw with
    bnd := mapIf (fun x => !x.echoed && s.bndCtx x.act == some ctx) (fun x => { x with b := b, echoed := true }) s.stw.bnd } }

def execLeafImageLoad (x : LeafImage) (s : State) : Res :=
  .next <| match x, s.profile with
  | .answered n leaf st, .tray => leafAnswered n leaf st.toNat s
  | .arrived ctx op pay img, .leaf => leafTakes ctx op pay img s
  | .named ctx b, .leaf => leafNamed ctx b s
  | _, _ => s

/-! ## The commands -/

/-- The running command of mailbox n takes its part as an image of its opcode. -/
def runImage (n op named : Nat) (host : HostImage) (s : State) : State :=
  onRunning n op (fun c s => takePart n named c host (fun img => imageEffect (mbxCtx n) op c.payload img s) (sendToLeaves n) s) s

def execPlanLoad (m : Nat) (s : State) : Res := onTray "PLAN_LOAD" s (runImage m 0x0501 2 (.poisoned 0))

def execTableLoad (m : Nat) (host : HostImage) (s : State) : Res := .next (runImage m 0x0701 2 host s)

def execRowLoad (m : Nat) (host : HostImage) (s : State) : Res := .next (runImage m 0x0704 2 host s)

def execModelLoad (m : Nat) (host : HostImage) (s : State) : Res := .next (runImage m 0x0801 2 host s)

def execPlaceLoad (m : Nat) (host : HostImage) (s : State) : Res := .next (runImage m 0x0803 0 host s)

def execActLoad (m : Nat) (s : State) : Res := onTray "ACT_LOAD" s (runImage m 0x0901 2 (.poisoned 0))

end Sys2Proof.Machine
end

