-- ==== Sys2Proof/Machine/Images.lean ====
section
/-!
DEFINITION. Configuration images and the serial flash copies (21 R532, R535 to R541): the judgement of an image and the
opcodes CONFIG_STORE, CONFIG_APPLY, FW_STORE and FW_ACTIVATE (16 R433).
-/

namespace Sys2Proof.Machine

/-! ## The image (R535, R536) -/

def imgLen (b : Bytes) : Nat := fld b 8 4
def cfgSeq (b : Bytes) : Nat := fld b 12 4

/-- The end marker's magic. -/
def endMagic : Nat := 0x444E454749464E43

/-- Step 1 of R538: the end marker is there, with the header's IMG_LEN and CFG_SEQ. -/
def markerOk (b : Bytes) : Bool :=
  let o := imgLen b - 64
  384 ≤ imgLen b && imgLen b % 64 == 0 && imgLen b ≤ 2 ^ 23 && imgLen b ≤ b.length && fld b o 8 == endMagic
    && fld b (o + 8) 4 == imgLen b && fld b (o + 12) 4 == cfgSeq b

/-- Directory entry i, from 0: kind, offset, length, CRC. -/
def dirEntry (b : Bytes) (i : Nat) : Nat × Nat × Nat × Nat :=
  let o := 64 + 16 * i
  (fld b o 2, fld b (o + 4) 4, fld b (o + 8) 4, fld b (o + 12) 4)

def itemCount (b : Bytes) : Nat := fld b 6 2

def directory (b : Bytes) : List (Nat × Nat × Nat × Nat) := (List.range (itemCount b)).map (dirEntry b)

/-- Items lie in order between `from_` and the owner key, 64-byte aligned and without overlap. -/
def itemsPlaced (top : Nat) : Nat → List (Nat × Nat × Nat × Nat) → Bool
  | _, [] => true
  | from_, e :: es => e.2.1 % 64 == 0 && from_ ≤ e.2.1 && e.2.1 + e.2.2.1 ≤ top && itemsPlaced top (e.2.1 + e.2.2.1) es

/-- Step 2: CRC-32C, MAGIC, VERSION, PROFILE, reserved bytes, directory and item CRCs. -/
def imageChecks (p : Profile) (b : Bytes) : Bool :=
  let n := imgLen b
  let es := directory b
  fld b (n - 4) 4 == (crc32c (b.take (n - 4))).toNat && fld b 0 4 == 0x46434B49 && fld b 4 1 == 1
    && fld b 5 1 == profileCode p && 1 ≤ itemCount b && itemCount b ≤ 64 && isZero (slice b 16 48)
    && isZero (slice b (n - 48) 44) && isZero (slice b (n - 223) 31) && isZero (slice b (n - 96) 32)
    && ((List.range (itemCount b)).all fun i => fld b (64 + 16 * i + 2) 2 == 0)
    && itemsPlaced (n - 320) (64 + 16 * itemCount b) es
    && es.all fun e => e.2.2.2 == (crc32c (slice b e.2.1 e.2.2.1)).toNat

/-- Step 3: the owner key under OWNER_HASH, and the signature (R539). -/
def ownerOk (ownerHash b : Bytes) : Bool :=
  let n := imgLen b
  let key := slice b (n - 320) 97
  (isZero ownerHash || Config.sha384 key == ownerHash)
    && Config.ecdsaVerify key (Config.sha384 (b.take (n - 192))) (slice b (n - 192) 96)

/-! ## Semantic checks (R537, R541) -/

/-- Kinds that a profile may hold, and those it must. -/
def profileKinds (p : Profile) : List Nat :=
  match p with
  | .leaf => [1, 2, 3, 4, 7, 8, 9, 0xB, 0xC]
  | .tray => [1, 2, 3, 4, 5, 6, 7, 0xA, 0xB, 0xC, 0xD]

def requiredKinds (p : Profile) : List Nat :=
  match p with
  | .leaf => [1, 2, 3, 4, 7, 0xC]
  | .tray => [1, 2, 3, 4, 6, 7, 0xC]

/-- The lanes of a role's groups (02 R67, R68). -/
def laneUseOk (p : Profile) (role : Role) (n : Nat) (u : LaneUse) : Bool :=
  let within := fun lo hi : Nat => decide (lo ≤ n ∧ n ≤ hi)
  match p with
  | .leaf => n < 2 && u.isUp
  | .tray =>
    match role, u with
    | .tray, .down k => within 0 47 && k == n
    | .tray, .up s => within 48 59 && (s == .a) == (n % 2 == 0)
    | .tray, .belay k => within 60 67 && k + 60 == n
    | .tray, .fabric _ => within 68 75
    | .tray, .spare => within 76 79
    | .tray, .peer _ => false
    | .chassis, .down k => within 0 63 && k == n / 2
    | .chassis, .up s => within 64 67 && (s == .a) == (n % 2 == 0)
    | .chassis, .belay k => within 68 75 && k + 68 == n
    | .chassis, .fabric _ | .chassis, .spare => within 76 79
    | .chassis, .peer _ => false
    | .summit, .down k => within 0 63 && k < 128
    | .summit, .peer t => within 64 67 && t < 4
    | .summit, .belay k => within 68 75 && k + 68 == n
    | .summit, .fabric _ => within 76 79
    | .summit, .up _ | .summit, .spare => false

/-- Lanes that carry traffic from the start, and spare lanes (02 R67, 06 R183). -/
def activeOk (l : LanePlan) : Bool :=
  match l.use with
  | .down _ | .belay _ | .fabric _ => l.active
  | .spare => !l.active
  | .up _ | .peer _ => true

/-- The up lanes of a parity (02 R68): the lowest wired lane, which must be the one named, is active, and the others are
its sparing partners. -/
def upLanesOk (lanes : List LanePlan) (lowest : Nat) : Bool :=
  let mine := sortBy (·.lane) (lanes.filter fun l => l.use.isUp && l.lane % 2 == lowest % 2)
  match mine with
  | l :: rest => l.lane == lowest && l.active && l.partners == rest.map (·.lane) && rest.all fun r => !r.active
  | [] => false

/-- The peer lane n of summit rope team t (02 R68, 01 R27): active, to team (t + i) mod 4. -/
def peerLaneOk (lanes : List LanePlan) (t i : Nat) : Bool :=
  lanes.any fun l => l.lane == 63 + i && l.active && l.use == .peer ((t + i) % 4)

/-- A summit member serves the chassis rope teams of its own shard, at most 32, over at most two lanes each (01 R26). -/
def shardLanesOk (lanes : List LanePlan) (t : Nat) : Bool :=
  let slots := lanes.filterMap fun l => match l.use with
    | .down k => some k
    | _ => none
  slots.eraseDups.length ≤ 32 && slots.all fun k => k % 4 == t && slots.count k ≤ 2

/-- The wiring of a role (01 R24 to R27, 02 R68): a leaf has exactly two active lanes, one to each side. -/
def wiringOk (p : Profile) (c : Cfg) : Bool :=
  match p, c.role with
  | .leaf, _ => c.lanes.length == 2 && c.lanes.all (·.active) && (c.lanes.map (·.use)).Nodup
  | .tray, .tray => upLanesOk c.lanes 48 && upLanesOk c.lanes 49
  | .tray, .chassis => upLanesOk c.lanes 64 && upLanesOk c.lanes 65 && c.lanes.any fun l => l.use.isFabric
  | .tray, .summit => peerLaneOk c.lanes c.summitTeam 1 && peerLaneOk c.lanes c.summitTeam 2
      && peerLaneOk c.lanes c.summitTeam 3 && shardLanesOk c.lanes c.summitTeam
      && c.lanes.all fun l => l.lane != 67 || !l.active

/-- The region map (09 R248). -/
def regionsOk (rs : List (Nat × Nat)) : Bool :=
  let g := 2 ^ 30
  let size := fun i : Nat => (rs.getD i (0, 0)).2
  rs.length == 5 && rs.all (fun r => r.1 % g == 0 && r.2 % g == 0)
    && disjoint (sortBy (·.1) (rs.map fun r => (r.1, r.1 + r.2)))
    && 512 * g ≤ size 0 && 16 * g ≤ size 4 && size 1 % (64 * g) == 0

/-- The leaf's own tables, models and placement (11 R319). -/
def leafCore (c : Cfg) (s : State) : State :=
  { s with mem := { s.mem with
    tables := c.leafTables.map fun t => newTable 0 c.ctx0Gen t 0
    models := c.leafModels.map fun m => { m := m, poisoned := false }
    places := [{ ctx := 0, since := 0, entries := c.leafPlacement.entries, p := c.leafPlacement
                 lanes := List.range s.laneCount, count := s.laneCount }] } }

/-- What a leaf image holds of its own core (11 R319): its tables, models and placement pass the checks that their loads
make at a tray block, with a leaf's limits. -/
def leafCoreOk (c : Cfg) : Bool :=
  let s := leafCore c { State.reset with profile := .leaf, cfg := c }
  c.leafTables.all (tableOk true c.role) && (c.leafTables.map (·.tableId)).Nodup
    && s.updatesFit c.leafTables && s.tablesFit c.leafTables
    && (c.leafModels.map (·.modelId)).Nodup && c.leafModels.all (modelOk s.modelRoom)
    && s.placementOk 0 c.leafPlacement && s.budgetOk c.leafPlacement.entries
    && 8 ≤ c.grantStale && c.grantStale ≤ 8000

/-- The counter map of a leaf (04 R114, 14 R377): every counter has an engine, the engines of a stook belong to its unit,
and a unit, which contexts hold whole, starts in one context. -/
def mapOk (stooks : List StookCfg) (engines : List EngineCfg) : Bool :=
  let of := fun n : Nat => engines.find? (·.engine == n)
  (stooks.map (·.s)).Nodup && (engines.map (·.engine)).Nodup
    && (stooks.all fun s => 1 ≤ s.n && s.n ≤ 256 && s.unit < 64 && s.engines.length == s.n
      && s.engines.all fun n => (of n).any (·.unit == s.unit))
    && engines.all fun e => e.unit < 64 && engines.all fun f => f.unit != e.unit || f.ctx == e.ctx

/-- The limits of a scan plan (08 R240). -/
def scanPlanOk (segs : List ScanSeg) : Bool :=
  segs.length ≤ 1024 && segs.all fun g => 1 ≤ g.irLen && g.irLen ≤ 32 && 1 ≤ g.drLen && g.drLen ≤ 2 ^ 24

/-- The semantic checks, each with the kinds of the items that it joins: ranges and consistency. -/
def itemChecks (p : Profile) (strap : Straps) (c : Cfg) : List (List Nat × Bool) :=
  [([1], (p == .leaf || c.side == strap.side) && c.leafId < 2 ^ 17 && c.team < 2 ^ 12 && c.summitTeam < 4),
   ([2], [1, 2, 4, 8, 16].contains c.shareCount),
   ([3], epochNsOk c.epochNs && 5 ≤ c.slotTol && c.slotTol ≤ 10000 && 4 ≤ c.memberWait && c.memberWait ≤ 16
      && 800 ≤ c.ckptEpochs && c.ckptEpochs ≤ 480000 && 1 ≤ c.statusEpochs && c.statusEpochs ≤ 8000
      && 500000000 ≤ c.startWaitNs && c.startWaitNs ≤ 60000000000),
   ([4], c.denyList.length ≤ 64 && (c.lanes.map (·.lane)).Nodup && c.lanes.all activeOk),
   ([1, 4], c.lanes.all (fun l => laneUseOk p c.role l.lane l.use) && wiringOk p c),
   ([5], c.transmitters.length ≤ 4 && c.mgmtSources.length ≤ 4),
   ([6], p == .leaf || regionsOk c.regions),
   ([7], p == .tray || mapOk c.stooks c.engines),
   ([2, 7], p == .tray || c.engines.all fun e => e.ctx < c.shareCount),
   ([1, 3, 7], p == .leaf || c.role != .tray || sumNat (c.recSizes.map (·.2)) ≤ 112 * c.epochNs),
   ([8], 1000000 ≤ c.stopHoldMaxNs && c.stopHoldMaxNs ≤ 600000000000 && 1000 ≤ c.drnWinNs && c.drnWinNs ≤ 1000000
      && 5 ≤ c.twBudget && c.twBudget ≤ 30 && 1000 ≤ c.feedPollNs && c.feedPollNs ≤ 1000000
      && 1000 ≤ c.stopDoneWaitNs && c.stopDoneWaitNs ≤ 10000000 && scanPlanOk c.scanPlan),
   ([9], leafCoreOk c),
   ([0xA], 1 ≤ c.stepUp && c.stepUp ≤ 4096 && 1 ≤ c.stepDn && c.stepDn ≤ 4096),
   ([0xB], 2 ≤ c.hangEpochs && c.hangEpochs ≤ 4096 && 8 ≤ c.transientLimit && c.transientLimit ≤ 4096
      && 1 ≤ c.scrubMin && c.scrubMin ≤ 60 && 1 ≤ c.marginCrit && c.marginCrit ≤ c.marginLo
      && c.marginLo + 2 ≤ c.marginHi && c.marginHi ≤ 255 && c.vmMax ≤ 80),
   ([0xD], c.userMetrics.all fun u => u.u < 16 && u.health < 1024 && u.agg ≤ 2 && u.olo ≤ 55)]

/-- Directory index, from 1, of the first entry that satisfies p. -/
def firstItem (b : Bytes) (p : Nat → Nat → Bool) : Option Nat :=
  let kinds := (directory b).map (·.1)
  (kinds.zipIdx.find? fun x => p x.2 x.1).map fun x => x.2 + 1

/-- SEM_ITEM of a check that fails: the later of the items that it joins (R541). -/
def chargedItem (b : Bytes) (kinds : List Nat) : Option Nat :=
  (kinds.mapM fun k => firstItem b fun _ x => x == k).map fun l => l.foldl max 0

/-- An item is there and every check that it is part of holds. -/
def itemPassed (p : Profile) (strap : Straps) (c : Cfg) (b : Bytes) (kind : Nat) : Bool :=
  (directory b).any (fun e => e.1 == kind) && (itemChecks p strap c).all fun x => x.2 || !x.1.contains kind

/-- Step 4: the settings, or SEM_ITEM of the first failing item. -/
def semantic (p : Profile) (strap : Straps) (b : Bytes) : Except Nat Cfg :=
  let kinds := (directory b).map (·.1)
  match firstItem b fun i k => !(profileKinds p).contains k || (kinds.take i).contains k with
  | some i => .error i
  | none =>
    if (requiredKinds p).any fun k => !kinds.contains k then .error 0xFFFF
    else match Config.settingsOf b with
      | none => .error (Config.itemFault b).toNat
      | some c =>
        let failing := ((itemChecks p strap c).filter fun x => !x.2).filterMap fun x => chargedItem b x.1
        match failing with
        | [] => .ok c
        | i :: is => .error (is.foldl min i)

/-- The judgement of an image whose step 1 is known (R538): settings, or BIV_CAUSE with SEM_ITEM. -/
def judge (p : Profile) (strap : Straps) (ownerHash b : Bytes) : Except (Nat × Nat) Cfg :=
  if !markerOk b then .error (2, 0)
  else if !imageChecks p b then .error (3, 0)
  else if !ownerOk ownerHash b then .error (4, 0)
  else match semantic p strap b with
    | .ok c => .ok c
    | .error i => .error (5, i)

/-- The stored copies whose step 1 passes, and the one that a start takes: the higher CFG_SEQ (R540). -/
def cfgComplete (c : CfgCopy) : Bool := c.marked && markerOk c.bytes

def storedCfg (cs : List CfgCopy) : Option (Nat × CfgCopy) :=
  ((cs.zipIdx.filter fun x => cfgComplete x.1).map fun x => (x.2, x.1)).foldl (fun (m : Option (Nat × CfgCopy)) x => match m with
    | some y => if cfgSeq y.2.bytes < cfgSeq x.2.bytes then some x else some y
    | none => some x) none

/-! ## Storing in flash (R427, R430, R433, 21 R532, R540) -/

/-- The copy that is written: the one that is not in force, and copy 0 where none is (assumption 40). -/
def spareCopy (inForce : Option Nat) : Nat :=
  match inForce with
  | some 0 => 1
  | _ => 0

/-- The next erase block's bytes of a part: from the cursor to the block's end or the part's. -/
def nextBlock (cursor : Nat) (p : Part) : Nat := min (p.pos + p.len) ((cursor / eraseBlock + 1) * eraseBlock)

/-- The checks of a part for a flash copy that holds `stored` bytes of an image of length `len`; a command that goes on
behind its cursor has passed those of its position. -/
def flashPartCheck (n limit stored len : Nat) (c : Cmd) (s : State) : Option (Nat × Bytes) :=
  let p := readPart c.payload
  let goesOn := c.resume || c.cursor != 0
  if !unnamedZero c.payload [(0, 36)] || !partReserved c.payload || !p.lenOk || p.toLeaves then some (stBAD_FIELD, [])
  else if 2 ^ 26 < p.src + p.len then some (stADDR_FAULT, [])
  else if p.pos != 0 && p.pos != stored && !goesOn then some (stBAD_FIELD, le 8 stored)
  else if p.pos != 0 && p.imgLen != len then some (stBAD_FIELD, [])
  else if p.imgLen < p.pos + p.len || (p.last && p.pos + p.len != p.imgLen) then some (stBAD_FIELD, [])
  else if limit < p.imgLen then some (stBAD_IMAGE, [])
  else if s.rangeBad (s.loadAddr n p.src) p.len then some (stPOISONED, [])
  else none

/-- Where the command continues: the part's start, or the cursor of a resume or of its last block. -/
def flashCursor (c : Cmd) : Nat := max c.cursor (readPart c.payload).pos

/-- The copy's bytes after the next block, and the flash operations that write it: an erase at the start of a block. -/
def storeBlock (base n : Nat) (c : Cmd) (old : Bytes) (s : State) : Bytes × Nat × List Out :=
  let p := readPart c.payload
  let cur := flashCursor c
  let fin := nextBlock cur p
  let data := s.getBytes (s.loadAddr n (p.src + (cur - p.pos))) (fin - cur)
  let erase := if cur % eraseBlock == 0 then [Out.flashErase ((base + cur) / eraseBlock)] else []
  (old.take cur ++ data, fin, erase ++ [.flashProgram (base + cur) data])

/-- The command ends, or goes on with a progress record after each erase block (R430). -/
def flashStep (n : Nat) (c : Cmd) (fin : Nat) (last : Cmd → State → State) (s : State) : State :=
  let p := readPart c.payload
  let c1 := { c with cursor := fin }
  if fin < p.pos + p.len then progress n c1 s
  else if p.last then last c1 s
  else done n c1 [] s

def setCfgCopy (i : Nat) (c : CfgCopy) (s : State) : State :=
  { s with flash := { s.flash with cfg := modifyAt s.flash.cfg i fun _ => c } }

def setFwCopy (i : Nat) (c : FwCopy) (s : State) : State :=
  { s with flash := { s.flash with fw := modifyAt s.flash.fw i fun _ => c } }

def emptyCfg : CfgCopy := { bytes := [], marked := false, owner := none }
def emptyFw : FwCopy := { bytes := [], whole := false, act := none, owner := none }

/-- The end of a CONFIG_STORE: steps 2 and 3 of R538, then the end marker (R540). -/
def endConfigStore (n i : Nat) (b : Bytes) (c : Cmd) (s : State) : State :=
  if markerOk b && imageChecks s.profile b && ownerOk s.ownerHash b then
    let s1 := setCfgCopy i { bytes := b, marked := true, owner := none } s
    done n c [] (s1.emit (.flashProgram (0x01000000 + 0x800000 * i + imgLen b - 64) (slice b (imgLen b - 64) 64)))
  else fail n c stBAD_IMAGE (setCfgCopy i { bytes := b, marked := false, owner := none } s)

/-- CONFIG_STORE writes one erase block of the configuration copy that is not in force. -/
def execConfigStore (m : Nat) (flash : FlashAnswer) (s : State) : Res :=
  onTray "CONFIG_STORE" s <| onRunning m 0x0102 fun c s =>
    let i := spareCopy s.boot.cfgCopy
    let old := nth s.flash.cfg i emptyCfg
    match flashPartCheck m (2 ^ 23) old.bytes.length old.len c s with
    | some (st, r) => finish m c st r s
    | none =>
      let (b, fin, ops) := storeBlock (0x01000000 + 0x800000 * i) m c old.bytes s
      let s1 := s.emits ops
      match flash with
      | .verifyFail => fail m c stFLASH_FAULT (setCfgCopy i { bytes := old.bytes.take (flashCursor c), marked := false, owner := none, len := (readPart c.payload).imgLen } s1)
      | .ok =>
        let s2 := setCfgCopy i { bytes := b, marked := false, owner := some (c.crc, s.stw.boot), len := (readPart c.payload).imgLen } s1
        flashStep m c fin (endConfigStore m i b) s2

/-- The end of a FW_STORE: SEC's checks (R508); a failed image leaves the copy invalid. -/
def endFwStore (n i : Nat) (b : Bytes) (c : Cmd) (s : State) : State :=
  let ok := fwOk s.profile s.otpSvn b
  finish n c (if ok then stOK else stBAD_IMAGE) [] (setFwCopy i { bytes := b, whole := ok, act := none, owner := none } s)

/-- FW_STORE writes one erase block of the firmware copy that does not run; its activation record is erased with it. -/
def execFwStore (m : Nat) (flash : FlashAnswer) (s : State) : Res :=
  onTray "FW_STORE" s <| onRunning m 0x0104 fun c s =>
    let i := spareCopy s.boot.fwCopy
    let old := nth s.flash.fw i emptyFw
    match flashPartCheck m (2 ^ 23 - 64) old.bytes.length old.len c s with
    | some (st, r) => finish m c st r s
    | none =>
      let (b, fin, ops) := storeBlock (0x800000 * i) m c old.bytes s
      let s1 := s.emits ops
      match flash with
      | .verifyFail =>
        fail m c stFLASH_FAULT (setFwCopy i { bytes := old.bytes.take (flashCursor c), whole := false, act := none, owner := none, len := (readPart c.payload).imgLen } s1)
      | .ok =>
        let s2 := setFwCopy i { bytes := b, whole := false, act := none, owner := some (c.crc, s.stw.boot), len := (readPart c.payload).imgLen } s1
        flashStep m c fin (endFwStore m i b) s2

/-! ## CONFIG_APPLY and FW_ACTIVATE -/

/-- The image that a CONFIG_APPLY names, or the status that it completes with. -/
def applyImage (p : Bytes) (host : HostImage) (s : State) : Except Nat Bytes :=
  match s.profile with
  | .tray =>
    if fld p 0 1 != 0 then .error stBAD_FIELD
    else match storedCfg s.flash.cfg with
      | some x => .ok x.2.bytes
      | none => .error stNOT_LOADED
  | .leaf =>
    let fits := s.boot.desc.any fun d => d.cfgAddr == fld p 8 8 && d.cfgLen == fld p 16 4
    if fld p 0 1 != 1 || !fits then .error stBAD_FIELD
    else match host with
      | .bytes b => .ok (slice b 0 (fld p 16 4))
      | .poisoned _ => .error stPOISONED
      | .fault _ => .error stADDR_FAULT

/-- The reset that follows a command: 10 µs after its DONE (R440, R431). -/
def dueReset (s : State) : State := { s with stw := { s.stw with resetDue := some (.cmd, s.now + nsT 10000) } }

/-- CONFIG_APPLY checks CRC and signature, writes DONE, and restarts configuration. -/
def execConfigApply (m : Nat) (host : HostImage) (s : State) : Res :=
  .next <| onRunning m 0x0103 (fun c s =>
    let p := c.payload
    if !unnamedZero p [(0, 1), (8, 12)] then fail m c stBAD_FIELD s
    else match applyImage p host s with
      | .error st => fail m c st (if st == stADDR_FAULT || st == stPOISONED then imageFault (fld p 8 8) host s else s)
      | .ok b =>
        if markerOk b && imageChecks s.profile b && ownerOk s.ownerHash b then dueReset (done m c [] s)
        else fail m c stBAD_IMAGE s) s

/-- FW_ACTIVATE writes the activation record of the stored copy (R532). -/
def execFwActivate (m : Nat) (flash : FlashAnswer) (s : State) : Res :=
  onTray "FW_ACTIVATE" s <| onRunning m 0x0105 fun c s =>
    let f := fld c.payload 0 1
    let i := spareCopy s.boot.fwCopy
    let copy := nth s.flash.fw i emptyFw
    let seq := match (nth s.flash.fw (1 - i) emptyFw).act with
      | some n => n + 1
      | none => 1
    if !unnamedZero c.payload [(0, 1)] || 2 ≤ f then fail m c stBAD_FIELD s
    else if !copy.whole then fail m c stNOT_LOADED s
    else
      let head := le 4 seq ++ zeros 48
      let rec_ := sealCrc head ++ le 8 0x45565245434F5244
      let s1 := s.emit (.flashProgram (0x800000 * i + 0x7FFFC0) rec_)
      match flash with
      | .verifyFail => fail m c stFLASH_FAULT s1
      | .ok =>
        let s2 := done m c [] (setFwCopy i { copy with act := some seq } s1)
        if bit f 0 then dueReset s2 else s2

end Sys2Proof.Machine
end

