-- ==== Sys2Proof/Machine/Pitons.lean ====
section
/-!
DEFINITION. Pitons (14): the drain of a context and its end, the hard cap, the context reset (18 R469, R470) with
CTX_RESET, and the release of a leaf's records (14 R399, 05 R138).
-/

namespace Sys2Proof.Machine

/-! ## The end of a context (R391) -/

def otherCtx {α : Type} (f : α → Nat) (c : Nat) (l : List α) : List α := l.filter fun x => f x != c

/-- The share's SRAM parts are zeroed: everything that its engines hold of the context (R391, R392). -/
def zeroMem (c : Nat) (m : MemSt) : MemSt :=
  let ids := (m.tables.filter (·.ctx == c)).map (·.img.tableId)
  let models := (m.models.filter (·.m.ctx == c)).map (·.m.modelId)
  { m with
    tables := otherCtx (·.ctx) c m.tables
    models := otherCtx (·.m.ctx) c m.models
    places := otherCtx (·.ctx) c m.places
    hot := m.hot.filter fun h => !ids.contains h.table
    frozen := m.frozen.filter fun f => !models.contains f.model
    jobs := otherCtx (·.ctx) c m.jobs
    leafVerdicts := otherCtx (·.1) c m.leafVerdicts
    stopped := otherCtx (·.ctx) c m.stopped
    stream := otherCtx (·.ctx) c m.stream }

/-- What reduction holds of the context: sheaves, contributions, membership, plans and areas. -/
def zeroRed (c : Nat) (r : RedSt) : RedSt :=
  { r with
    sheaves := otherCtx (·.ctx) c r.sheaves
    children := otherCtx (·.ctx) c r.children
    changes := otherCtx (·.ctx) c r.changes
    plans := otherCtx (·.ctx) c r.plans
    pubs := otherCtx (·.ctx) c r.pubs
    leafExp := otherCtx (·.1) c r.leafExp
    shardExp := otherCtx (·.1) c r.shardExp
    recover := otherCtx (·.ctx) c r.recover
    queries := otherCtx (·.1) c r.queries
    noneAnswered := otherCtx (·.1) c r.noneAnswered
    holds := otherCtx (·.1) c r.holds }

/-- Does a queued effect act on a share of context c, of which tables `ids` and models `models` are? A generation that has
ended takes nothing from it (R382). -/
def Bnd.inShare (c : Nat) (ids models : List Nat) (a : Bnd) : Bool :=
  match a with
  | .table ctx _ _ | .place ctx _ | .fallback ctx _ | .pub ctx _ _ _ | .ckptArea ctx _ _ | .captArea ctx _ _ _
  | .sample ctx _ => ctx == c
  | .tableDrop id | .seed id _ | .seedCkpt id _ | .rows id _ => ids.contains id
  | .modelDrop id => models.contains id
  | .acts _ | .policy _ _ | .detach _ | .handOver | .join | .teamStart | .release _ _ | .assign _ _ _ => false

/-- The tables of a context, those that wait for their boundary among them. -/
def State.tableIds (s : State) (c : Nat) : List Nat :=
  (s.mem.tables.filter (·.ctx == c)).map (·.img.tableId) ++ s.stw.bnd.filterMap fun x => match x.act with
    | .table ctx _ img => if ctx == c then some img.tableId else none
    | _ => none

/-- The share is zeroed, its key pair destroyed, and the id is FREE (R391). -/
def freeCtx (c : Nat) (s : State) : State :=
  let s := closeWatch c s
  let ids := s.tableIds c
  let models := (s.mem.models.filter (·.m.ctx == c)).map (·.m.modelId)
  let s1 := { s with
    mem := { zeroMem c s.mem with
      rekeyed := c :: s.mem.rekeyed.filter (· != c)
      live := s.mem.live.filter fun l => !s.inPart c (64 * l) }
    red := zeroRed c s.red
    raw := { s.raw with
      copies := s.raw.copies.filter fun x => !ids.contains x.1
      areas := otherCtx (·.ctx) c s.raw.areas }
    capt := otherCtx (·.ctx) c s.capt
    captOut := otherCtx (·.ctx) c s.captOut
    fab := { s.fab with tallies := otherCtx (·.ctx) c s.fab.tallies }
    setups := otherCtx (·.ctx) c s.setups
    stw := { s.stw with
      mbxs := mapIf (·.n == c) (fun m => { m with asm := [] }) s.stw.mbxs
      bnd := s.stw.bnd.filter fun x : BndItem => !x.act.inShare c ids models }
    trc := { s.trc with shares := otherCtx (·.ctx) c s.trc.shares }
    cap := { s.cap with
      plans := otherCtx (·.ctx) c s.cap.plans
      ring := s.cap.ring.map fun r : RingSlot => { r with ints := otherCtx (·.ctx) c r.ints } } }
  s1.onCtx c fun x => { x with life := .free, changed := s.now, before := x.life.gen?, keyGen := none }

/-! ## The drain (R391) -/

/-- What a tray block still has of a draining context with end boundary e, its issued class-C transfers among it. -/
def State.trayOpen (s : State) (c e : Nat) : Bool :=
  (s.red.sheaves.any fun h => h.ctx == c && h.k ≤ e && h.stage != .done)
    || !s.verdictsDone c e
    || (s.mem.tables.any fun t => t.ctx == c && t.rows.any fun r => r.v.epoch < e)
    || s.captOut.any (·.ctx == c)
    || s.chans.any fun x => x.cReady.any (·.1 == c)

/-- Messages of a context that wait on its stream of VC2, or go out there. -/
def State.queuedFor (s : State) (c : Nat) : Bool :=
  s.lanes.any fun l => l.txs.any fun t => t.vc == 2 && t.queue.any (·.ctx == c)

/-- What a leaf still has of it, its messages on the lanes among them. -/
def State.leafOpen (s : State) (c e : Nat) : Bool :=
  let dump := fun w : ShareWatch => w.dump.isSome || !w.releases.isEmpty
  let trace := fun x : ShareTrc => !x.beats.isEmpty || !x.marks.isEmpty
  (s.watch.any fun w => w.ctx == c && dump w)
    || (s.trc.shares.any fun x => x.ctx == c && trace x)
    || (s.brk.abort.any fun x => x.2.1 == c)
    || (s.cap.ring.any fun r => r.ints.any fun b => b.ctx == c)
    || (s.mem.leafVerdicts.any fun x => x.1 == c)
    || s.queuedFor c
    || !s.verdictsDone c e
    || (s.mem.tables.any fun t => t.ctx == c && t.rows.any fun r => r.v.epoch < e)

/-- A command of the context's mailbox that was accepted and has not completed. -/
def State.commandsOpen (s : State) (c : Nat) : Bool :=
  match s.mbx? c with
  | some m => m.running.isSome || !m.waiting.isEmpty
  | none => false

/-- Every item of R391 has finished. -/
def State.drained (s : State) (x : Ctx) : Bool :=
  let own := if s.isTray then s.trayOpen x.id x.endB else s.leafOpen x.id x.endB
  x.endB ≤ s.curEpoch && !own && !s.commandsOpen x.id

def State.draining? (s : State) (c : Nat) : Option Ctx :=
  (s.ctx? c).filter fun x => match x.life with
    | .draining _ => true
    | _ => false

/-- The drain completes (R391). -/
def execContextDrainComplete (ctx : Nat) (s : State) : Res :=
  .next <| match s.draining? ctx with
  | some x => if s.drained x then freeCtx ctx s else s
  | none => s

/-- A watch dump in progress ends with CTX_GONE (R393). While reads of it are out its release word waits for them (08
R234). -/
def endWatch (c : Nat) (s : State) : State :=
  match (s.watch? c).bind (·.dump) with
  | some d =>
    if d.flight.isEmpty then endDump c d 3 s
    else watchMark c d.idx 2 d.step d.tensor.toNat (sendPart c d 3 s)
  | none => s

/-- RESULT byte 32 of a CTX_CLOSE that waits for this drain records HARD_CAP (16 R439). -/
def markHardCap (c : Nat) (s : State) : State :=
  let mark := fun x : Cmd => if x.wait == .drain c then { x with result := slice x.result 0 32 ++ le 1 1 } else x
  { s with stw := { s.stw with mbxs := s.stw.mbxs.map fun m => { m with waiting := m.waiting.map mark } } }

/-- Messages of the ended generation that no lane has begun are discarded when they surface there, and counted (R382). -/
def dropQueued (c : Nat) (s : State) : State :=
  let old := fun (t : TxStream) (m : OutMsg) => t.vc == 2 && m.ctx == c && m.sent == 0
  let n := (s.lanes.flatMap fun l => l.txs.flatMap fun t => t.queue.filter (old t)).length
  let s1 := { s with lanes := s.lanes.map fun l : Lane => { l with
    txs := l.txs.map fun t : TxStream => { t with queue := t.queue.filter fun m => !old t m } } }
  (s1.errCount 24 n).onCtx c fun x => { x with genDiscard := x.genDiscard + n }

/-- The hard cap (R393, R416): what is left is answered with CTX_GONE, and the id is FREE. -/
def execContextHardCap (ctx : Nat) (s : State) : Res :=
  .next <| match s.draining? ctx with
  | some x =>
    if x.endT + nsT 10000000 ≤ s.now then
      let s1 := markHardCap ctx (partialAll ctx stCTX_GONE (endWatch ctx (dropQueued ctx s)))
      freeCtx ctx (s1.setBit .pitonEv (16 + ctx))
    else s
  | none => s

/-! ## The context reset (18 R469, R470) -/

/-- A leaf reports the reset and names boundary r, the first at least 2 epochs after it; its units return there. -/
def nameRelease_ (c : Nat) (g : BitVec 16) (s : State) : State :=
  if s.isLeaf then
    let r := s.curEpoch + 3
    let s1 := s.sendLeafStatus 5 [c, r]
    { s1 with stw := { s1.stw with bnd := s1.stw.bnd ++ [{ b := r, act := .release c g, echoed := true }] } }
  else s

/-- Context reset of c at generation g at this instance (R469). -/
def contextReset (c : Nat) (g : BitVec 16) (s : State) : State :=
  let s1 := partialAll c stPARTIAL (dropQueued c s)
  let s2 := if s1.isLeaf then brkGone c (endWatch c s1) else s1
  nameRelease_ c g (freeCtx c s2)

/-- CTX_RESET (16 R439): DONE once the context's work is removed. -/
def execCtxReset (m : Nat) (s : State) : Res :=
  .next <| onRunning m 0x0A03 (fun c s =>
    let p := c.payload
    let id := fld p 0 1
    let g := BitVec.ofNat 16 (fld p 2 2)
    if !unnamedZero p [(0, 1), (2, 2)] then fail m c stBAD_FIELD s
    else if id == 0 || s.heldGen id != some g then fail m c stBAD_CTX s
    else done m c [] (contextReset id g s)) s

/-! ## The release of a leaf's records (R399, 05 R138) -/

/-- The lines of an interval record that poisoned ring lines reach (04 R126, R128): its first 64 bytes come from the cut
header of the annex part, its bursts from the context's share of the interval space behind the mapped counters. -/
def intervalPoison (s : State) (r : RingSlot) (b : IntBursts) : List Nat :=
  let base := r.mappedLen + b.ctx * s.sampleShare
  let bursts := (List.range ((b.bytes.length + 63) / 64)).filterMap fun i =>
    if r.poison.any fun p => !p.1 && overlapsBytes (64 * p.2) 64 (base + 64 * i) 64 then some (i + 1) else none
  (if r.poison.contains (true, 0) then [0] else []) ++ bursts

/-- An interval record: the first 64 bytes of its cut's record with RTYPE 5 and no stooks, the INT bursts, the trailer. -/
def intervalRecord (s : State) (r : RingSlot) (b : IntBursts) : Bytes :=
  sealCrc (r.head 5 0 s.cfg.leafId false ++ zeros 16 ++ b.bytes ++ poisonTrailer (intervalPoison s r b))

/-- The interval records of a context up to epoch k. -/
def sendIntervals (c k : Nat) (s : State) : State :=
  let due := sortBy (·.k) (s.cap.ring.filter (·.k ≤ k))
  let s1 := due.foldl (fun s r => (r.ints.filter (·.ctx == c)).foldl (fun s b =>
    s.sendShare c b.gen (intervalRecord s r b)) s) s
  { s1 with cap := { s1.cap with
    ring := mapIf (·.k ≤ k) (fun r => { r with ints := otherCtx (·.ctx) c r.ints }) s1.cap.ring } }

/-- The verdict records of a context up to epoch k. -/
def sendVerdicts (c k : Nat) (s : State) : State :=
  let ks := sortBy id ((s.mem.leafVerdicts.filter fun x => x.1 == c && x.2.2.1 ≤ k).map (·.2.2.1))
  ks.foldl (fun s e => sendLeafVerdicts c e s) s

/-- At T_(k+1) + 10 µs the records of epoch k go to the lanes, never earlier; one that is not ready is counted and sent
when it is (R399). Context 0's interval records go with the same event. -/
def execTenantRecordRelease (ctx : Nat) (ready : Bool) (s : State) : Res :=
  onLeaf "TENANT_RECORD_RELEASE" s fun s =>
    match s.sched.past with
    | b :: _ =>
      if s.now < b.t + nsT 10000 then s
      else if ready then sendVerdicts ctx (b.k - 1) (sendIntervals ctx (b.k - 1) s)
      else if ctx == 0 then s
      else (s.countHealth 320 1).setBit .rstState 22
    | [] => s

end Sys2Proof.Machine
end

