-- ==== Sys2Proof/Machine/Recovery.lean ====
section
/-!
DEFINITION. Hangs, fences and dumps (18 R463 to R479): the hang samples, HANG_DETECT, unit resets, the automatic dump and
DUMP_TAKE (16 R440).
-/

namespace Sys2Proof.Machine

/-! ## Row repair (17 R450, R452) -/

/-- A line of a record held is poisoned: its trailer names it (05 R137). -/
def poisonRecord (line : Nat) (b : Bytes) : Bytes :=
  let t := b.drop (b.length - 64)
  let n := fld t 0 2
  let old := (List.range (min n 14)).map fun i => fld t (4 + 4 * i) 4
  if old.contains line then b
  else
    let ls := sortBy id (line :: old)
    sealCrc (b.take (b.length - 64) ++ le 2 (min 0xFFFF (n + 1)) ++ zeros 2
      ++ (List.range 14).flatMap fun i => le 4 (ls.getD i 0xFFFFFFFF))

/-- A buffer line reads poisoned: its record, message or part carries the poison (R450). -/
def poisonBuffer (s : State) : BufLine → State
  | .landed slot k line => { s with red := { s.red with
      landing := mapIf (fun x => x.slot == slot && x.k == k) (fun x => { x with raw := poisonRecord line x.raw }) s.red.landing } }
  | .trace ctx line => s.onShareTrc ctx fun x =>
      if line < x.beats.length then { x with poison := line :: x.poison } else x
  | .dump ctx line => s.onWatch ctx fun w => { w with
      dump := w.dump.map fun d => if line < d.lines.length then { d with poison := line :: d.poison } else d }

/-- The words of a row that returned an uncorrectable error are copied as poisoned, and their owner handles them
(R450, R452). Words of the feature memories and the lanes are counted where a read returns them. -/
def lostRow (bank row : Nat) (s : State) : State :=
  let s1 := s.errBit 31
  match Config.bankKind bank with
  | .ring =>
    let ls := Config.ringLines bank row
    if s1.isTray then s1.errCount 11 1 else (poisonRing ls s1).countHealth 302 ls.length
  | .buffer => (Config.bufferLines bank row).foldl poisonBuffer (if s1.isTray then s1.errCount 11 1 else s1)
  | .feature | .lanes => s1

/-- A row that returned an uncorrectable error, or four corrected ones within 24 h, is repaired (R452). -/
def execSramRowRepair (bank row : Nat) (uncorrectable : Bool) (s : State) : Res :=
  .next <| whenClocked s fun s =>
    if uncorrectable then repairRow bank row (lostRow bank row s)
    else if s.err.repairQ.contains (bank, row) then repairRow bank row s
    else s

/-! ## Samples (R464, R465) -/

/-- The run of a unit after a sample: it goes on while READY is 1 and PROG stands. The context kept is that of the item at
the head of the queue at the first sample of the run (R468). -/
def nextRun (hs : List HangRun) (u : UnitSample) : HangRun :=
  let first : HangRun := { cls := u.cls, idx := u.idx, prog := u.prog, run := b2n u.ready, ctx := u.ctx }
  match hs.find? fun h => h.cls == u.cls && h.idx == u.idx with
  | some h => if u.ready && 0 < h.run && h.prog == u.prog then { h with run := h.run + 1 } else first
  | none => first

/-- The samples of a boundary, and the run of a leaf's stalled host ports. -/
def hangSample (us : List UnitSample) (stall : Bool) (s : State) : State :=
  let run := if stall then s.hostStall + 1 else 0
  let s1 := { s with hangs := us.map (nextRun s.hangs), hostStall := run }
  if s.isLeaf && s.cfg.hangEpochs ≤ run then (s1.setBit .rstHang 8)
  else s1

/-! ## Dump entries (R476 to R479) -/

/-- One entry: unit, STATUS, KIND, SOURCE and the segment's bits. -/
def dumpEntry (x : UnitScan) (status kind source : Nat) (t : Ticks) (seg : List Bool) : Bytes :=
  let data := bitsToBytes ((seg.length + 7) / 8) seg
  le 4 (x.cls * 2 ^ 24 + x.idx % 2 ^ 24) ++ le 1 status ++ le 1 kind ++ le 1 source ++ zeros 1 ++ le 4 seg.length
    ++ le 4 (if seg.isEmpty then 0 else (crc32c data).toNat) ++ timeBytes t ++ zeros 32 ++ padTo 64 data

/-- The provider may read DATA of a unit: attributed to context 0 or BLOCK (R476). -/
def dataShown (ctx : Option Nat) : Bool :=
  match ctx with
  | some c => c == 0
  | none => true

/-- The entries of a unit: CONTROL, and for a fenced one DATA or MASKED; a unit that does not answer has one entry
without data (R478). -/
def unitEntries (source : Nat) (t : Ticks) (fenced : Bool) (ctx : Option Nat) (x : UnitScan) : List Bytes :=
  if !x.answered then [dumpEntry x 1 1 source t []]
  else
    let control := dumpEntry x 0 1 source t x.control
    let dataT := t + nsT (40 * x.control.length)
    if !fenced then [control]
    else if dataShown ctx then [control, dumpEntry x 0 2 source dataT x.data]
    else [control, dumpEntry x 2 2 source dataT []]

def dumpHeader (seq count epoch : Nat) (t : Ticks) (cause boot : BitVec 32) : Bytes :=
  sealCrc (le 4 seq ++ le 4 count ++ le 8 epoch ++ timeBytes t ++ le 4 cause.toNat ++ le 4 boot.toNat ++ zeros 20)

/-- How long reading a unit's segments takes (R477). -/
def scanTime (ctx : Option Nat) (x : UnitScan) : Ticks :=
  nsT (40 * (x.control.length + if dataShown ctx then x.data.length else 0))

/-- The automatic dump of a unit replaces the buffer; DUMP_SEQ rises (R477). -/
def autoDump (fenced : Bool) (ctx : Option Nat) (x : UnitScan) (s : State) : State :=
  let seq := s.dump.seq + 1
  let w := (s.sticky.rstHang &&& 0xFFFFFF00#32) ||| BitVec.ofNat 32 (seq % 256)
  { s with
    sticky := { s.sticky with rstHang := w }
    dump := { s.dump with
      seq := seq
      epoch := s.curEpoch
      time := s.now
      cause := s.boot.cause
      boot := s.stw.boot
      entries := unitEntries 1 s.now fenced ctx x } }.setBit .rstHang 9

/-! ## The fence and the recovery (R467, R468, R471) -/

/-- The fields of RST_HANG that a fence writes (R490); HOST_STALL, AUTO_DUMP_VALID and DUMP_SEQ stand. -/
def hangWord (old : BitVec 32) (block recur : Bool) (ctx : Option Nat) (cls idx : Nat) : BitVec 32 :=
  let c := match ctx with
    | some c => c % 16
    | none => 0
  (old &&& 0x3FF#32) ||| BitVec.ofNat 32 (2 ^ 31 + b2n block * 2 ^ 30 + b2n recur * 2 ^ 29 + b2n ctx.isNone * 2 ^ 28
    + cls % 16 * 2 ^ 24 + c * 2 ^ 20 + idx % 1024 * 2 ^ 10)

/-- A unit is fenced; a spare takes over while there is one. -/
def fenceUnit (cls idx : Nat) (ctx : Option Nat) (s : State) : State :=
  s.onClass cls fun u => { u.leave idx with fenced := (idx, ctx) :: u.fenced }

/-- Another unit has taken the place of this one. -/
def UnitClass.replaced (u : UnitClass) (idx : Nat) : Bool := u.stands.any fun x => x.1 != idx && x.2 == u.standsFor idx

/-- A fenced unit returns, as a spare where another has taken its place, otherwise in its own (R469). -/
def unfence (cls idx : Nat) (s : State) : State :=
  s.onClass cls fun u =>
    let u1 := { u with fenced := u.fenced.filter (·.1 != idx) }
    if u.replaced idx then { u1 with
      spares := u.spares + 1
      pool := u.pool ++ [idx]
      stands := u.stands.filter (·.1 != idx) }
    else { u1 with inService := u.inService + 1 }

/-- The unit was reset after a hang in the last 3,600 s (R471). -/
def State.recurs (s : State) (cls idx : Nat) : Bool :=
  match s.unit? cls with
  | some u => u.resets.any fun r => r.1 == idx && decide (s.now ≤ r.2 + 3600 * secT)
  | none => false

/-- Recovery of a fenced unit: a context reset, or a block reset once the dump is read. -/
def recoverHang (block : Bool) (ctx : Option Nat) (x : UnitScan) (s : State) : State :=
  match block, ctx with
  | false, some c =>
    match s.heldGen c with
    | some g => contextReset c g s
    | none => s
  | _, _ => { s with stw := { s.stw with resetDue := some (.hang, s.now + scanTime ctx x) } }

/-- HANG_DETECT: a unit that was READY with the same PROG at HANG_EPOCHS + 1 samples in a row is fenced, dumped and
recovered (R464, R467, R468); one that hangs again after its unit reset is retired (R471). -/
def execHangDetect (u : UnitSample) (scan : UnitScan) (s : State) : Res :=
  .next <|
    match s.hangs.find? fun h => h.cls == u.cls && h.idx == u.idx, s.unit? u.cls with
    | some h, some uc =>
      if h.run < s.cfg.hangEpochs + 1 || uc.fenced.any (·.1 == u.idx) || uc.retired.contains u.idx then s
      else
        let tenant := match h.ctx with
          | some c => c != 0
          | none => false
        let block := s.cfg.resetScopeBlock || !tenant
        let recur := s.recurs u.cls u.idx
        let s0 := if recur then retireUnit u.cls u.idx false s else fenceUnit u.cls u.idx h.ctx s
        let s1 := autoDump true h.ctx scan s0
        let s2 := { s1 with sticky := { s1.sticky with
          rstHang := hangWord s1.sticky.rstHang block recur h.ctx u.cls u.idx } }.setBit .rstHang 31
        recoverHang block h.ctx scan s2
    | _, _ => s

/-- UNIT_RESET: a fenced unit is reset and returns, as a spare of its class when another has taken its place (R469). -/
def execUnitReset (cls idx : Nat) (s : State) : Res :=
  .next <| match s.unit? cls with
  | some u =>
    if u.fenced.any (·.1 == idx) && s.stw.resetDue.isNone then
      let s1 := unfence cls idx s
      { s1.onClass cls fun u => { u with resets := (idx, s.now) :: u.resets } with
        hangs := s1.hangs.filter fun h => !(h.cls == cls && h.idx == idx) }
    else s
  | none => s

/-! ## DUMP_TAKE (R477, 16 R440) -/

/-- Entries that fit in a length, in order. -/
def fitting : List Bytes → Nat → List Bytes
  | [], _ => []
  | e :: es, room => if e.length ≤ room then e :: fitting es (room - e.length) else []

/-- How long the live pass spends on a unit: 40 ns a bit, or two attempts of 4,096 TCK cycles (R477, R478). -/
def liveTime (x : UnitScan) : Ticks :=
  if !x.answered then nsT (2 * 163840)
  else if x.fenced then scanTime x.ctx x
  else nsT (40 * x.control.length)

/-- The entries of units read one after the other from t on. -/
def entriesFrom (t : Ticks) : List UnitScan → List Bytes
  | [] => []
  | x :: xs => unitEntries 0 t x.fenced x.ctx x ++ entriesFrom (t + liveTime x) xs

/-- The live pass: every unit in class-code order. -/
def liveEntries (scans : List UnitScan) (t : Ticks) : List Bytes :=
  entriesFrom t (sortBy (fun x : UnitScan => x.cls * 2 ^ 24 + x.idx) scans)

/-- The command ends PARTIAL with a status and its cursor. -/
def endPartial (n : Nat) (c : Cmd) (status cursor : Nat) (result : Bytes) (s : State) : State :=
  writeEntry n { c with state := 3, status := status, cursor := cursor, result := result }
    (s.onMbx n fun m => { m with running := none })

/-- DUMP_TAKE writes the automatic dump when it is valid, then the live pass. The header is that of the automatic dump
when there is one, otherwise of this pass. A resumed command goes on behind the entries that it has written. -/
def execDumpTake (m : Nat) (scans : List UnitScan) (s : State) : Res :=
  .next <| onRunning m 0x0D02 (fun c s =>
    let p := c.payload
    let dest := fld p 0 8
    if !unnamedZero p [(0, 16)] || dest % 4096 != 0 then fail m c stBAD_FIELD s
    else
      let valid := s.sticky.rstHang.getLsbD 9
      let auto_ := if valid then s.dump.entries else []
      let all := auto_ ++ liveEntries scans s.now
      let head := if valid then dumpHeader s.dump.seq all.length s.dump.epoch s.dump.time s.dump.cause s.dump.boot
        else dumpHeader s.dump.seq all.length s.curEpoch s.now s.boot.cause s.stw.boot
      let kept := fitting all (fld p 8 8 - 64)
      let skip := min c.cursor kept.length
      let first := sumNat ((kept.take skip).map (·.length))
      let bytes := (if skip = 0 then head else []) ++ (kept.drop skip).flatten
      let at_ := if skip = 0 then dest else dest + 64 + first
      let bad := (scans.filter fun x => !x.answered).length
      let r := le 8 (64 + sumNat (kept.map (·.length))) ++ le 4 (scans.length - bad) ++ le 4 bad
      let s1 := { s with dump := { s.dump with owner := none } }
      if fld p 8 8 < 64 then endPartial m c stADDR_FAULT 0 (zeros 16) s1
      else
        let s2 := writeDest at_ bytes s1
        if kept.length < all.length then endPartial m c stADDR_FAULT kept.length r s2
        else finish m { c with cursor := all.length } (if 0 < bad then stUNIT_UNREADABLE else stOK) r s2) s

end Sys2Proof.Machine
end

