-- ==== Sys2Proof/Machine/Twin.lean ====
section
/-!
DEFINITION. The rope team (18 R480 to R487, 21 R549 to R552): going alone, pairing, the attach, detach, the relay of TEAM
commands (15 R418), the entry into bivouac (21 R544), and TWIN_DETACH and TWIN_ATTACH (16 R440).
-/

namespace Sys2Proof.Machine

/-! ## Commands that wait -/

/-- Change every waiting command that satisfies p. -/
def forWaiting (p : Cmd → Bool) (f : Nat → Cmd → State → State) (s : State) : State :=
  s.stw.mbxs.foldl (fun s m => (m.waiting.filter p).foldl (fun s c => f m.n c s) s) s

def onWaiting (n : Nat) (old new : Cmd) (s : State) : State := setWaiting n old (some new) s

/-- A TWIN_ATTACH that waits ends with a status. -/
def endAttachCmd (status : Nat) (s : State) : State :=
  forWaiting (fun c => c.wait == .attach) (fun n c s => endWaiting n c 4 status s) s

/-- The newcomer refuses the pairing for its configuration identity: TWIN_REFUSED with PLAN_MISMATCH (R483, 16 R440). -/
def refuseAttachCmd (s : State) : State :=
  forWaiting (fun c => c.wait == .attach) (fun n c s =>
    let c1 := { c with result := le 1 3 }
    endWaiting n c1 4 stTWIN_REFUSED (setWaiting n c (some c1) s)) s

/-- Its CURSOR: the phase code and the bytes sent in BULK (R486). -/
def attachCursor (phase bytes : Nat) (s : State) : State :=
  forWaiting (fun c => c.wait == .attach) (fun n c s =>
    let c1 := { c with cursor := phase * 2 ^ 56 + bytes }
    writeEntry n c1 (onWaiting n c c1 s)) s

/-! ## Boundaries named over belay -/

def sideOf (x : Side) : Nat := if x == .a then 0 else 1

def moveCode : TwinMove → Nat
  | .start => 0
  | .join => 1
  | .detach b => 2 + b2n b
  | .handOver => 4
  | .fallback c n => 32 * (1 + 128 * c + n)

/-- A message over belay on VC3 (R483, 15 R418); the layouts are open (assumption 10). -/
def sendTwin (b : Bytes) (s : State) : State := s.sendMsgAll (s.bundleLane LaneUse.isBelay 1).toList 3 0 0 (s.genOf 0) b

/-- Name the boundary of a change to the twin; it is done there once the twin has echoed it (11 R324). -/
def nameMove (m : TwinMove) (a : Bnd) (b : Nat) (s : State) : State :=
  let s1 := { s with stw := { s.stw with bnd := s.stw.bnd ++ [{ b := b, act := a, echoed := false, turn := s.stw.turn }] } }
  sendTwin (Config.ctlPayload 0x87 [moveCode m, b]) s1

/-- What a named boundary does at the member that receives the name. -/
def moveBnd : TwinMove → Bnd
  | .start => .teamStart
  | .join => .join
  | .detach sender => .detach (!sender)
  | .handOver => .handOver
  | .fallback c n => .fallback c n

/-- An effect at a boundary for which no echo is needed, of a command that was accepted in a turn of the twin. -/
def queueAt (turn : Nat) (a : Bnd) (b : Nat) (s : State) : State :=
  { s with stw := { s.stw with bnd := s.stw.bnd ++ [{ b := b, act := a, echoed := true, turn := turn }] } }

/-- The same for an effect that this member takes in by itself. -/
def queueAlone (a : Bnd) (b : Nat) (s : State) : State := queueAt s.stw.turn a b s

/-! ## The entry into bivouac (21 R543, R544) -/

/-- The outputs and lanes of an instance in bivouac, where it holds no grant state (12 R348); BIV_CAUSE, SEM_ITEM and the
raising of BLK_LIVE. -/
def enterBivouac (cause item : Nat) (s : State) : State :=
  let park := fun l : Lane => if l.st == .up && !l.plan.use.isFabric then { l with st := .standby, active := false } else l
  let s1 := { s with
    mode := .bivouac
    boot := { s.boot with bivCause := cause, semItem := item, shown := .bivouac }
    pins := { s.pins with blkLive := true }
    twin := { s.twin with paired := false }
    stw := { s.stw with scanning := true }
    evr := { s.evr with bivSeen := true } }
  match s.profile with
  | .leaf =>
    let s2 := s1.sendLeafStatus 2 [s.curEpoch]
    { s2 with
      lanes := s2.lanes.map park
      pins := { s2.pins with pgLive := false, stopOut := false, drnReq := false, rsmReq := false, trcSreq := false } }
  | .tray =>
    let d := safeDuty s.straps.safeValve.toNat
    { s1 with
      lanes := s1.lanes.map park
      act := { s1.act with safe := true, duty := d, dies := [], outs := [], bAt := [], convs := s1.act.convs.map fun c => { c with safeDone := false } }
      pins := { s1.pins with pwmValve := d } }

/-- A wiring difference found in training, whenever the lane trains (02 R69, 06 R180, 21 R541): the instance goes to bivouac,
naming the later of the PLACE and LANES entries. -/
def planMismatch (s : State) : State :=
  if s.mode == .starting || s.mode == .service || s.mode == .detached || s.mode == .degraded then
    let idx := fun k : Nat => match s.boot.kinds.zipIdx.find? fun x => x.1 == k with
      | some x => x.2 + 1
      | none => 0
    enterBivouac 5 (max (idx 1) (idx 4)) s
  else s

/-! ## Going alone (R480, R485) -/

/-- A newcomer whose carrier is gone takes the role from the next boundary; its rows come from the latest checkpoint that
it holds, or start with AGE 0 (R485). -/
def abandonAttach (s : State) : State :=
  let b := s.curEpoch + 1
  let row := fun (t : Table) (r : Row) =>
    ((s.usableCkpt.bind fun c => s.rowFrom c t.img.tableId r.row)).getD (freshRow t.img.rowLen b (r.entity, r.row))
  let phase := (s.twin.attach.map (·.phase)).getD .config
  let s1 := { s with
    mem := { s.mem with tables := s.mem.tables.map fun t => { t with rows := t.rows.map (row t) } }
    twin := { s.twin with attach := none } }
  queueAlone (if phase == .config then .teamStart else .join) b (noteCkpt s1)

/-- LOOP_SETs that wait for the twin's echo are used without it. -/
def loopAlone (s : State) : State :=
  forWaiting (fun c => c.wait == .echo && c.op == 0x0903 && !c.echoed) (fun _ c s => setLoop c.payload s) s

/-- The twin is lost (R480): this member decides alone; boundaries need no echo; an attach ends. -/
def goAlone (s : State) : State :=
  let newcomer := s.twin.attach.any fun a => !a.carrier
  let carrier := s.twin.attach.any (·.carrier)
  let s1 := loopAlone (armsAlone s)
  let s2 := { s1 with
    stw := { s1.stw with bnd := s1.stw.bnd.map fun x => if x.b == 0 then x else { x with echoed := true } }
    twin := { s1.twin with
      paired := false
      lostPair := s1.twin.lostPair || s1.twin.paired
      attach := if carrier then none else s1.twin.attach } }
  let s3 := if carrier then endAttachCmd stRESUME_LOST s2 else s2
  if newcomer then abandonAttach s3 else s3

/-! ## Lanes that go and come -/

/-- A lane has left UP: the time source follows (03 R92), a leaf reports, and the loss of every belay lane leaves the
members alone (R480). -/
def linkLost (s : State) : State :=
  let s1 := reselect s
  match s1.profile with
  | .leaf => reportLanes s1
  | .tray => if !s1.belayUp && (s1.twin.paired || s1.twin.attach.isSome) then goAlone s1 else s1

/-- Begin an attach as carrier (R483, R486). -/
def beginAttach (commanded : Bool) (s : State) : State :=
  let a : Attach := { carrier := true, phase := .config, bytes := 0, join := none, commanded := commanded }
  sendTwin (Config.ctlPayload 0x85 [1, 0]) { s with twin := { s.twin with attach := some a } }

/-- A member that finds its twin carrying the role enters DETACHED (R482, R549). -/
def enterDetached (s : State) : State :=
  { s with mode := .detached, pins := { s.pins with blkLive := false } }

/-- Side A names the start of the team (R551). -/
def nameStart (s : State) : State :=
  let b := s.curEpoch + s.leadEpochs
  nameMove .start .teamStart b { s with twin := { s.twin with startAt := some (b, false) } }

/-- The twin answers at the start (R549): the member enters DETACHED under a twin that carries the role, and side A names
the start of the team once its time is locked. -/
def meetTwin (s : State) : State :=
  if s.mode != .starting || !s.belayUp || s.twin.belayVersion then s
  else if s.twinSeenCarrying then enterDetached s
  else if s.cfg.side == .a && s.twin.startAt.isNone && !s.tim.state.settable then nameStart s
  else s

/-- A belay lane has come UP. -/
def twinCameUp (s : State) : State :=
  if s.twin.belayVersion then s
  else if s.mode == .starting then meetTwin s
  else if s.carrying && !s.twin.paired && !s.twinSeenCarrying && s.cfg.autoAttach && !s.twin.twinDetached
      && s.twin.attach.isNone then beginAttach false s
  else s

/-- A lane has come UP or, in bivouac, STANDBY: a carrying tray block sends its schedule to a child or peer (21 R547,
R548), a leaf reports its lanes, and in bivouac CAPTURE_LOST (R544). -/
def linkCameUp (lane : Nat) (u : LaneUse) (s : State) : State :=
  let s1 := reselect s
  match s1.profile with
  | .leaf => if s1.mode == .bivouac then s1.sendCtl lane (leafStatusMsg 2 [s1.curEpoch]) else reportAttach lane s1
  | .tray =>
    let s2 := if s1.carrying && (u.isDown || u.isPeer) then sendSchedSync lane s1 else s1
    if u.isBelay then twinCameUp s2 else s2

/-- The twin's HELLO (00 R10): twins of different revisions stay unpaired and each carries its role alone. -/
def belayRevisions (h : Hello) (s : State) : State :=
  let same := h.blkRev == 0x0301#16 && h.fwif == s.ident.fwif
  let s1 := { s with twin := { s.twin with belayVersion := !same } }
  if same then s1
  else if s1.mode == .starting then queueAlone .teamStart (s1.curEpoch + 1) s1
  else if s1.twin.attach.any (fun a => !a.carrier) then abandonAttach s1
  else s1

/-! ## Starting (R549 to R551) -/

/-- START_WAIT: both members start the team, or with no answer from the twin this member carries the role alone. Side B
waits until no leaf has reported its lane to side A UP for START_WAIT (R550). -/
def execStartWait (s : State) : Res :=
  onTray "START_WAIT" s fun s =>
    let past := fun t : Ticks => decide (t + nsT s.cfg.startWaitNs ≤ s.now)
    let agreed := s.stw.bnd.any fun x => x.act == .teamStart && x.echoed
    let sideAUp := s.red.reports.any fun r => r.2.1 == 5 && r.2.2 == 0
    let quiet : Bool := match s.cfg.side, s.twin.sideASeen with
      | .b, some t => !sideAUp && past t
      | .b, none => !sideAUp
      | .a, _ => true
    if s.mode != .starting || agreed || s.tim.state.settable then s
    else if past s.twin.startSince && quiet then
      queueAlone .teamStart (s.curEpoch + 1) { s with
        stw := { s.stw with bnd := s.stw.bnd.filter fun x => x.act != .teamStart }
        twin := { s.twin with startAt := none } }
    else meetTwin s

/-- The subject of a slot at a team start: what attached there, else the lane plan's. -/
def State.startSubject (s : State) (n : Nat) : Nat × Bool :=
  match s.lanes.find? fun l => l.plan.use == .down n && l.st == .up && l.peer.isSome with
  | some l => ((l.peer.map (·.id)).getD n, true)
  | none =>
    if s.cfg.role == .tray then (((s.cfg.scope.find? (·.1 == n)).bind fun x => x.2.head?).getD n, false) else (n, false)

/-- The absence that a start declares for a slot at which nothing attached (R551). -/
def State.startReason (s : State) : Nat :=
  match s.cfg.role with
  | .tray => 2
  | .chassis => 4
  | .summit => 5

/-- Context 0's membership from epoch b (R551). -/
def startSlots (b : Nat) (s : State) : State :=
  s.downSlots.foldl (fun s n =>
    let (subj, attached) := s.startSubject n
    let e : MemberEntry := { epoch := b, subject := subj, kind := s.subjectKind, join := true, reason := 0 }
    let s1 := s.addChange { ctx := 0, slot := n, e := e, silent := true }
    if attached then s1
    else s1.addChange { ctx := 0, slot := n, e := { e with join := false, reason := s.startReason }, silent := false }) s

/-- The team, or this member alone, begins to carry the role at boundary b. -/
def teamStart (b : Nat) (s : State) : State :=
  let s1 := { s with
    mode := .service
    boot := { s.boot with runFrom := some s.optime }
    pins := { s.pins with blkLive := true }
    twin := { s.twin with paired := s.belayUp && s.twin.startAt.isSome && !s.twin.belayVersion, startAt := none, lanes := 64, toldLanes := 64 } }
  startSlots b (activate 0 s.cfg.ctx0Gen b 0 0 s1)

/-- A starting member meets its twin; in epoch s - 1 every attached child is sent the schedule (R549, R551). -/
def startSync (k : Nat) (s : State) : State :=
  let s1 := meetTwin s
  if s1.stw.bnd.any fun x => x.act == .teamStart && x.b == k + 1 then
    (s1.lanesFor LaneUse.isDown).foldl (fun s n => sendSchedSync n s) s1
  else s1

/-! ## Join and detach (R481, R482, R484) -/

/-- Entries of a publication area that N writes for the first time since its join. -/
def PubArea.refresh (a : PubArea) : PubArea := { a with stored := [], fresh := List.range a.p }

/-- The join boundary: the newcomer is a paired member, or a lone one after R485; the carrier completes TWIN_ATTACH. -/
def joinTeam (s : State) : State :=
  let s1 := { s with twin := { s.twin with
    paired := s.twin.attach.isSome && s.belayUp
    attach := none
    detachAt := none
    twinDetachAt := none
    twinDetached := false
    lostPair := false
    lanes := 64
    toldLanes := 64 } }
  let s2 := { s1 with act := { s1.act with takeover := false, aloneSince := none } }
  if s.carrying then endAttachCmd stOK s2
  else
    let copied := s.twin.attach.any fun a => a.phase == .join
    { s2 with
      mode := .service
      boot := { s2.boot with runFrom := some s.optime }
      red := { s2.red with pubs := s2.red.pubs.map PubArea.refresh }
      act := { s2.act with safe := !copied }
      pins := { s2.pins with blkLive := true, pwmValve := if copied then s2.act.duty else s2.pins.pwmValve } }

/-- At d the detached member stops (R481): its unpublished sheaves are never published. -/
def detachSelf (d : Nat) (s : State) : State :=
  let duty := safeDuty s.straps.safeValve.toNat
  { s with
    mode := .detached
    twin := { s.twin with paired := false, detachAt := none, attach := none }
    red := { s.red with sheaves := s.red.sheaves.filter fun h => h.stage != .open || d ≤ h.k }
    act := { s.act with outs := [], duty := duty, takeover := false }
    pins := { s.pins with blkLive := false, pwmValve := duty } }

/-- The survivor of a detach carries the role alone, as loop master without the 1 ms wait (R480, R481). -/
def detachTwin (s : State) : State :=
  let s1 := armsAlone s
  { s1 with
    twin := { s1.twin with paired := false, lostPair := false, twinDetached := true, twinDetachAt := none }
    act := { s1.act with takeover := s1.act.takeover || s1.cfg.side == .b } }

/-- The twin has become DEGRADED and hands its role on as under a detach (17 R449). It was not detached by TWIN_DETACH. -/
def twinHandsOver (s : State) : State :=
  let s1 := detachTwin s
  { s1 with twin := { s1.twin with twinDetached := s.twin.twinDetached } }

/-- A member that became DEGRADED names the boundary from which its twin carries the role alone (17 R449). -/
def handOver (s : State) : State :=
  if s.twin.handOver then
    sendTwin (Config.ctlPayload 0x87 [moveCode .handOver, s.curEpoch + s.leadEpochs])
      { s with twin := { s.twin with handOver := false } }
  else s

/-! ## The attach (R483) -/

/-- The carrier's next phase: BULK with the bytes sent, CATCHUP, and with N READY the join boundary. -/
def carrierPhase (a : Attach) (p : AttachPhase) (bytes : Nat) (s : State) : State :=
  let put := fun a' : Attach => { s with twin := { s.twin with attach := some a' } }
  match a.phase, p with
  | .config, .config => attachCursor 1 0 s
  | .config, .bulk | .bulk, .bulk => attachCursor 2 bytes (put { a with phase := .bulk, bytes := max a.bytes bytes })
  | .bulk, .catchup => attachCursor 3 0 (put { a with phase := .catchup })
  | .catchup, .join =>
    let j := s.curEpoch + s.leadEpochs
    attachCursor 4 0 (nameMove .join .join j (put { a with phase := .join, join := some j }))
  | _, _ => s

/-- A context as a newcomer takes it: its own XTS keys (09 R269), its own counts. -/
def Ctx.copied (c : Ctx) : Ctx :=
  { c with
    keyGen := match c.life with
      | .active g => some g
      | _ => none
    genDiscard := 0
    skips := 0
    clobbered := false
    jobStopped := false }

/-- A placement taken from the twin, on this member's own lanes (11 R324). -/
def State.ownLanes (s : State) (p : PlaceInForce) : PlaceInForce :=
  { p with lanes := if p.lanes == List.range s.laneCount then p.lanes else s.lanesIn }

/-- CONFIG at the newcomer. -/
def takeTwinConfig (c : TwinConfig) (s : State) : State :=
  { s with
    ctxs := c.ctxs.map Ctx.copied
    setups := c.setups
    sched := { s.sched with anchor := c.anchor, d := c.d, knots := [] }
    red := { s.red with
      changes := c.changes
      owners := c.owners
      arms := c.arms.map fun a => { a with mbx := none }
      plans := c.plans
      pubs := c.pubs }
    mem := { s.mem with tables := c.tables, models := c.models, places := c.places.map s.ownLanes }
    act := { s.act with rows := c.acts, policies := c.policies, loop := c.loop }
    raw := { s.raw with areas := c.ckptAreas }
    capt := c.captAreas
    fab := { s.fab with tallies := c.tallies }
    stw := { s.stw with bnd := c.waiting.map fun x => { x with echoed := true } }
    twin := { s.twin with attach := some { carrier := false, phase := .config, bytes := 0, join := none, commanded := false } } }

/-- CATCHUP at the newcomer: grants, loop and records of deep periods, counted in the sheaves that are open; hot rows are
installed. -/
def takeCatchup (c : TwinCatchup) (s : State) : State :=
  let newest := fun h : HotRow => match (s.table? h.table).bind fun t => t.row? h.row with
    | some r => { h with vers := [r.v], held := [] }
    | none => h
  let s1 := setHot s.curEpoch s
  let s2 : State := { s1 with
    twin := { s1.twin with scoresFrom := if s1.twin.attach.any (·.phase == .bulk) then s.curEpoch else s1.twin.scoresFrom }
    act := { s1.act with
      dies := c.dies
      lastStep := c.lastStep
      b := c.b
      bAt := c.bAt
      u := c.u
      integ := c.integ
      outs := c.outs
      duty := c.duty }
    mem := { s1.mem with hot := s1.mem.hot.map newest, jobs := s1.mem.jobs ++ c.records } }
  c.records.foldl (fun s j => j.record.elim s fun b => countVerdict j b s) s2

/-- READY: every SLOT row stands at the latest epoch by T_k + 18 µs, and every BACK row within 16 epochs. -/
def State.attachReady (s : State) : Bool :=
  let k := s.curEpoch
  let inTime : Bool := match s.boundary? k with
    | some b => decide (s.now ≤ b.t + nsT 18000)
    | none => false
  inTime && s.mem.tables.all fun t => t.rows.all fun r => if t.img.slot then r.v.epoch == k else k ≤ r.v.epoch + 16

def setAttachPhase (p : AttachPhase) (s : State) : State :=
  { s with twin := { s.twin with attach := s.twin.attach.map fun a => { a with phase := p } } }

/-- The newcomer's part of a phase. A configuration identity that differs ends the attach (R483, R485). -/
def newcomerPhase (p : AttachPhase) (copy : TwinCopy) (s : State) : State :=
  let phase : Option AttachPhase := s.twin.attach.map (·.phase)
  match p, copy, phase with
  | .config, .config c, _ =>
    if Config.cfgIdentity c.cfgHash == Config.cfgIdentity s.ident.cfgHash then takeTwinConfig c s
    else abandonAttach (sendTwin (Config.ctlPayload 0x85 [0, 3]) s)
  | .bulk, .bulk ts ms, some .config | .bulk, .bulk ts ms, some .bulk =>
    setAttachPhase .bulk { s with mem := { s.mem with tables := ts, models := ms } }
  | .catchup, .catchup c, some .bulk | .catchup, .catchup c, some .catchup => setAttachPhase .catchup (takeCatchup c s)
  | .join, _, some .catchup =>
    if s.attachReady then sendTwin (Config.ctlPayload 0x85 [4, s.curEpoch]) (setAttachPhase .join s) else s
  | _, _, _ => s

def execAttachPhase (p : AttachPhase) (bytes : Nat) (copy : TwinCopy) (s : State) : Res :=
  onTray "ATTACH_PHASE" s fun s =>
    match s.twin.attach with
    | some a =>
      if !a.carrier then newcomerPhase p copy s
      else if copy == .refused then refuseAttachCmd { s with twin := { s.twin with attach := none } }
      else carrierPhase a p bytes s
    | none => if s.mode == .detached && s.twinSeenCarrying then newcomerPhase p copy s else s

/-! ## The relay of TEAM commands (15 R418) -/

/-- The effect at its boundary of a relayed command without an image assembly. A member that lacks the checkpoint named
takes its rows from its twin (11 R329). -/
def relayBnd (ctx op : Nat) (p image : Bytes) (ckpt : Option Ckpt) (s : State) : Option Bnd :=
  if op == 0x0503 then some (pubBnd ctx p)
  else if op == 0x0504 then some (ckptBnd ctx p)
  else if op == 0x0505 then some (captBnd ctx p)
  else if op == 0x0702 then seedBnd p image ((s.ckptOf (fld p 16 8)).or ckpt) s
  else if op == 0x0703 then some (.tableDrop (fld p 0 2))
  else if op == 0x0802 then some (.modelDrop (fld p 0 2))
  else if op == 0x0902 then some (policyBnd p)
  else none

/-- A relayed part: an image is assembled, and with its last part takes effect. -/
def relayPart (n op b turn : Nat) (pay part : Bytes) (s : State) : State :=
  let p := readPart pay
  let old := if p.pos == 0 then [] else ((s.assembly? n op).map (·.bytes)).getD []
  let img := old ++ part
  let s1 := dropAssembly n op s
  if !p.last then s1.onMbx n fun m => { m with asm := m.asm ++ [{ op := op, len := p.imgLen, bytes := img }] }
  else match imageEffect (mbxCtx n) op pay img s1 with
    | .refuse _ => s1
    | .bnd a _ => queueAt turn a b s1
    | .now f => f s1

/-- The set-up table of a relayed context command. -/
def relaySetup (op : Nat) (p image : Bytes) (s : State) : State :=
  if image.isEmpty then s
  else
    let es := (List.range (image.length / 64)).map fun i => readSetupEntry (slice image (8 + 64 * i) 64)
    takeSetup { setupId := BitVec.ofNat 64 (fld image 0 8), ctx := fld p 0 1, gen := BitVec.ofNat 16 (fld p 2 2)
                flags := if op == 0x0A01 then fld p 1 1 else 4, entries := es } s

/-- Side B carries out what side A relayed. -/
def carryOut (n op b turn : Nat) (p image : Bytes) (ckpt : Option Ckpt) (s : State) : State :=
  if [0x0501, 0x0701, 0x0704, 0x0801, 0x0803, 0x0901].contains op then relayPart n op b turn p image s
  else if op == 0x0903 then setLoop p s
  else if op == 0x0A01 || op == 0x0A02 then relaySetup op p image s
  else match relayBnd (mbxCtx n) op p image ckpt s with
    | some a => queueAt turn a b s
    | none => s

/-- The twin has echoed the oldest command of a mailbox that waits for it. -/
def echoCommand (n : Nat) (s : State) : State :=
  match (s.mbx? n).bind fun m => m.waiting.find? fun c => c.wait == .echo && !c.echoed with
  | some c =>
    let s1 := onWaiting n c { c with echoed := true } s
    if c.op == 0x0903 then setLoop c.payload s1 else s1
  | none => s

/-- A later boundary is named in place of one (assumption 45). -/
def renameBnds (old new : Nat) (s : State) : State :=
  { s with stw := { s.stw with bnd := mapIf (fun x => x.b == old && old != 0) (fun x => { x with b := new }) s.stw.bnd } }

/-- The twin has echoed a boundary. -/
def echoBoundary (b : Nat) (s : State) : State :=
  { s with
    stw := { s.stw with bnd := mapIf (fun x => x.b == b && b != 0) (fun x => { x with echoed := true }) s.stw.bnd }
    twin := { s.twin with startAt := s.twin.startAt.map fun x => if x.1 == b then (b, true) else x } }

/-- The twin has named a boundary: it is echoed. -/
def takeMove (m : TwinMove) (b : Nat) (s : State) : State :=
  let s1 := queueAlone (moveBnd m) b s
  let s2 := match m with
    | .start => { s1 with twin := { s1.twin with startAt := some (b, true) } }
    | .join => { s1 with twin := { s1.twin with attach := s1.twin.attach.map fun a => { a with phase := .join, join := some b } } }
    | .detach true => { s1 with twin := { s1.twin with twinDetachAt := some b } }
    | .detach false => { s1 with twin := { s1.twin with detachAt := some b } }
    | .handOver | .fallback _ _ => s1
  sendTwin (Config.ctlPayload 0x87 [16 + moveCode m, b]) s2

def execTeamRelayEcho (e : EchoOf) (s : State) : Res :=
  onTray "TEAM_RELAY_ECHO" s fun s =>
    match e with
    | .command n => echoCommand n s
    | .boundary b => echoBoundary b s
    | .relayed n op b turn p image ckpt => sendTwin (Config.ctlPayload 0x86 [n, op, b]) (carryOut n op b turn p image ckpt s)
    | .move m b => takeMove m b s
    | .renamed o n => sendTwin (Config.ctlPayload 0x88 [o, n]) (renameBnds o n s)
    | .lanes n => { s with twin := { s.twin with lanes := n } }
    | .fleet n op b p =>
      sendTwin (Config.ctlPayload 0x81 [n, op, b, s.stw.turn] ++ p) (carryOut n op b s.stw.turn p [] none s)

/-! ## TWIN_DETACH and TWIN_ATTACH (16 R440) -/

/-- TWIN_DETACH names the boundary d at which SELF or the twin is detached; DONE at d (R481). -/
def execTwinDetach (m : Nat) (s : State) : Res :=
  onTray "TWIN_DETACH" s <| onRunning m 0x0D03 fun c s =>
    let f := fld c.payload 0 1
    if !unnamedZero c.payload [(0, 1)] || 2 ≤ f then fail m c stBAD_FIELD s
    else if !s.twinCarries then fail m c stNO_TWIN s
    else
      let self := bit f 0
      let d := s.curEpoch + s.leadEpochs
      let s1 := nameMove (.detach self) (.detach self) d s
      let s2 := { s1 with twin := { s1.twin with
        detachAt := if self then some d else s1.twin.detachAt
        twinDetachAt := if self then s1.twin.twinDetachAt else some d } }
      wait m { c with result := le 8 d } (.boundary d) s2

/-- Why no attach can begin: RESULT byte 0. -/
def State.twinRefusal (s : State) : Option Nat :=
  let cause := fun n : Nat => s.lanes.any fun l => l.plan.use.isBelay && l.st != .up && l.cause == n
  if s.twin.belayVersion then some 1
  else if cause 6 then some 2
  else if cause 7 then some 3
  else none

/-- TWIN_ATTACH at the carrier: DONE at the join boundary. A paired member has nothing to attach and answers OK. -/
def execTwinAttach (m : Nat) (s : State) : Res :=
  onTray "TWIN_ATTACH" s <| onRunning m 0x0D04 fun c s =>
    if !unnamedZero c.payload [] then fail m c stBAD_FIELD s
    else if !s.carrying then fail m c stNO_TWIN s
    else if s.twin.paired then done m c [] s
    else match s.twinRefusal with
      | some r => finish m c stTWIN_REFUSED (le 1 r) s
      | none =>
        if !s.belayUp then fail m c stNO_TWIN s
        else
          let s1 := { s with twin := { s.twin with twinDetached := false } }
          let s2 := match s1.twin.attach with
            | some a => { s1 with twin := { s1.twin with attach := some { a with commanded := true } } }
            | none => beginAttach true s1
          wait m { c with cursor := 2 ^ 56 } .attach s2

end Sys2Proof.Machine
end

