-- ==== Sys2Proof/Machine/Boot.lean ====
section
/-!
DEFINITION. Reset and start (02 R45 to R50, 18 R472 to R475, R489, 21 R531 to R553): power, the root PLL, the block reset,
the firmware start with its ROM recovery and boot descriptor, configuration, and the steward watchdog. The phases of a
start (18 R474, R475, 21 R542) are one step; lane training and time acquisition follow as their own commands.
-/

namespace Sys2Proof.Machine

/-! ## What a reset clears and keeps (18 R472, 21 R553) -/

/-- Output pins at their reset values; the root PLL and its reference go on when it stays locked. -/
def resetPins (s : State) : Pins :=
  { Pins.reset (safeDuty s.straps.safeValve.toNat) with pllLock := s.pins.pllLock, ckROut := s.pins.ckROut }

/-- A block reset clears everything but the kept state: RST_CAUSE and RST_HANG, the dump buffer, OTP and flash with the log
of HBM repairs, and the margin sum. BIV_CAUSE and SEM_ITEM hold until an image passes (21 R546), and STW_BOOT names the
value that the next one must differ from (15 R423). What was emitted and the waiting commands are not the block's. -/
def clearBlock (s : State) : State :=
  let z := State.atReset s.profile s.straps
  { z with
    pins := resetPins s
    edges := s.edges
    pwrEdge := s.pwrEdge
    otp := s.otp
    flash := s.flash
    optime := s.optime
    err := { z.err with ppr := s.err.ppr }
    age := { z.age with vmApplied := s.age.vmApplied, baseline := s.age.baseline }
    dump := s.dump
    sticky := { z.sticky with rstHang := s.sticky.rstHang }
    stw := { z.stw with boot := s.stw.boot, beatAt := s.edges }
    boot := { z.boot with cause := s.boot.cause, bivCause := s.boot.bivCause, semItem := s.boot.semItem }
    out := s.out
    pending := s.pending }

/-- A loss of power keeps flash and OTP alone, and the ageing baseline of the first power-up (17 R458; assumption 162). -/
def clearPower (straps : Straps) (s : State) : State :=
  let z := State.atReset s.profile straps
  { z with
    otp := s.otp
    flash := s.flash
    err := { z.err with ppr := s.err.ppr }
    age := { z.age with baseline := s.age.baseline }
    out := s.out
    pending := s.pending }

/-- A DUMP_TAKE that the reset interrupts may be resumed (16 R430). -/
def openDump (s : State) : State :=
  let runs := (s.stw.mbxs.filterMap (·.running)).find? fun c => c.op == 0x0D02
  match runs with
  | some c => { s with dump := { s.dump with owner := some (c.crc, s.stw.boot) } }
  | none => s

def causeBit : ResetCause → Nat
  | .pin => 30
  | .cmd => 29
  | .hang => 28
  | .stwWdt => 27
  | .stwMismatch => 26
  | .stwUe => 25

/-- RST_CAUSE after a block reset (18 R489). -/
def nextCause (old : BitVec 32) (c : ResetCause) : BitVec 32 :=
  BitVec.ofNat 32 (2 ^ causeBit c + min 0xFFFF (old.toNat % 2 ^ 16 + 1))

/-! ## SEC layer 0 and the OTP (19 R505 to R507, 17 R453, R457, R461) -/

/-- At the first power-up SEC programs the drawn UDS over what an interrupted programming left, and sets UDS_SET. -/
def programUds (draw : List (BitVec 32)) (s : State) : State :=
  if s.udsSet then s
  else ((List.range 12).foldl (fun s i => s.otpProgram i (nth draw i 0)) s).otpProgram 12 1

/-- DeviceID is formed and ID_DEVICE written. -/
def layer0 (draw : List (BitVec 32)) (s : State) : State :=
  let s1 := programUds draw s
  let key := deviceScalar s1.uds
  { s1 with
    pins := resetPins s1
    ident := { s1.ident with deviceKey := key, deviceId := deviceIdOf key } }

/-- The words of the repair area that are in use. -/
def State.repairWords (s : State) : List (BitVec 32) :=
  (((List.range 2560).map fun i => s.otpRead (1536 + i)).filter fun w => w != 0)

/-- The row repairs logged in OTP: bank, row, spare. -/
def State.loggedRepairs (s : State) : List (Nat × Nat × Nat) :=
  (s.repairWords.filter fun w => bits w.toNat 31 30 == 1).map fun w =>
    (bits w.toNat 29 20, bits w.toNat 19 4, bits w.toNat 3 0)

/-- The margin steps logged in OTP: sign and operating hours. -/
def State.loggedSteps (s : State) : List (Bool × Nat) :=
  (s.repairWords.filter fun w => bits w.toNat 31 30 == 3).map fun w => (w.getLsbD 29, bits w.toNat 28 0)

/-- The margin sum of the step log, or the one that flash keeps. -/
def State.marginSum (s : State) : Int :=
  s.flash.margin.getD (s.loggedSteps.foldl (fun a x => if x.1 then a - 1 else a + 1) 0)

/-- Logged repairs are applied, unused words counted, and the hours of the steps read back. -/
def readOtp (s : State) : State :=
  { s with
    err := { s.err with
      repairs := s.loggedRepairs
      otpFree := 2560 - s.repairWords.length }
    age := { s.age with upHours := (s.loggedSteps.filter fun x => !x.1).map (·.2) } }

/-- A leaf's operating time at power-on: 64 h for each HOUR_MARKS bit (19 R505). -/
def hourStart (s : State) : State :=
  if s.isLeaf then { s with optime := 57600 * 64 * s.otpBits 80 48 } else s

/-! ## The firmware start (21 R531 to R534, R542, R543) -/

/-- The copies that have an activation record, in descending ACT_SEQ. -/
def State.fwOrder (s : State) : List (Nat × FwCopy) :=
  let acted := (s.flash.fw.zipIdx.map fun x => (x.2, x.1)).filter fun x => x.2.act.isSome
  (sortBy (fun x : Nat × FwCopy => x.2.act.getD 0) acted).reverse

/-- The first copy that passes SEC's checks (R532). -/
def State.pickFw (s : State) : Option (Nat × FwCopy) :=
  s.fwOrder.find? fun x => fwOk s.profile s.otpSvn x.2.bytes

/-- STRAP_BOOT 0b01 with the management port (R531). -/
def State.romListens (s : State) : Bool := s.isTray && s.straps.boot == 1 && s.straps.mgmtEn

/-- The boot value of a firmware start: SEC's draw, which is neither 0 nor the value that it replaces (15 R423). -/
def bootValue (old draw : BitVec 32) : BitVec 32 :=
  if draw != 0 && draw != old then draw
  else if draw + 1 != 0 && draw + 1 != old then draw + 1
  else draw + 2

/-- The reset that led to this start was a power-on reset (18 R489). -/
def State.powerOn (s : State) : Bool := s.boot.cause.getLsbD 31

/-- The recorder's clock at a start (19 R491, R492): OPTIME resumes from the latest entry; a power-on reset raises PCYC
and writes a POWER_ON entry. -/
def clockStart (flash : FlashAnswer) (s : State) : State :=
  let up := b2n s.powerOn
  let (pcyc, opt, lost) := match latestClock s.flash.clock with
    | some e => (e.pcyc + up, e.optime, false)
    | none => (1, 0, true)
  let s1 := { s with optime := opt, evr := { s.evr with pcyc := pcyc } }
  let s2 := if lost then evrBit 28 s1 else s1
  if s.powerOn then writeClock 1 pcyc opt flash s2 else s2

/-- The recorder at a start: its clock, RSEQ of the latest valid record, and a first period that carries START (19 R497,
R501). -/
def recorderStart (flash : FlashAnswer) (s : State) : State :=
  if s.isTray then
    let s1 := clockStart flash s
    let rseq := match s1.latestRec? with
      | some r => fld r.bytes 4 4
      | none => 0
    newPeriod true { s1 with evr := { s1.evr with rseq := rseq } }
  else s

/-- After a power-on reset the margin sum is asked for (17 R461). -/
def marginStart (s : State) : State :=
  if s.powerOn then restoreNext { s with age := { s.age with restore := s.marginSum, vmApplied := 0 } } else s

/-! ## Configuration (21 R538, R540, R541, R544, R545) -/

def Lane.fresh (p : LanePlan) : Lane where
  n := p.lane
  plan := p
  st := .detect
  openedAt := none
  cause := 0
  peerLane := 0xFF
  peerProto := 0
  active := false
  partner := !p.active || p.use == .spare
  retunePending := false
  since := 0
  overruns := 0
  eqSet := eqReset
  latAdj := 0
  bit := 0
  misses := 0
  rxPitch := none
  txPitch := 0
  txPos := 63
  minor := 2
  ownNonce := []
  peer := none
  ownEph := []
  keys := none
  oldKeys := none
  nextKeys := none
  offerOwn := none
  offerPeer := none
  txGroup := 0
  rxGroup := 0
  stalled := false
  rot := 0
  txs := []
  rxs := []
  sentUnits := List.replicate 19 0
  retUnits := List.replicate 19 0
  freed := List.replicate 19 0
  ctl := []
  placed := 0
  ctlWait := []
  authCells := []
  authKeys := none
  offerQ := []
  mseqTx := 0
  mseqRx := none
  timeOut := []
  lastResp := none
  eseq := 0
  exch := none
  exchRun := 0
  farState := none
  farFollows := false
  delay := 0
  tagFails := []
  ctr := List.replicate 15 0
  spareSent := none
  spareGot := none

/-- Without a plan every lane of the profile trains as a spare (R545). -/
def unplanned (p : Profile) : List LanePlan :=
  (List.range (if p == .tray then 80 else 2)).map fun n =>
    { lane := n, use := .spare, active := false, txlat := 0, rxlat := 0, asym := 0, partners := [], pinned := [] }

def lanesOf (p : Profile) (c : Cfg) : List Lane :=
  (if c.lanes.isEmpty then unplanned p else c.lanes).map Lane.fresh

/-- The settings that hold in bivouac: those of the items that have passed, place and lanes together (R545). -/
def bivouacCfg (p : Profile) (strap : Straps) (b : Bytes) : Cfg :=
  match Config.settingsOf b with
  | none => Cfg.default
  | some c =>
    let passed := itemPassed p strap c b
    let d := Cfg.default
    let d1 := if passed 1 && passed 4 then
        { d with role := c.role, side := c.side, leafId := c.leafId, team := c.team, summitTeam := c.summitTeam
                 lanes := c.lanes, denyList := c.denyList, scope := c.scope }
      else { d with side := strap.side }
    let d2 := if passed 5 then
        { d1 with mgPhyTx := c.mgPhyTx, mgPhyRx := c.mgPhyRx, transmitters := c.transmitters, mgmtSources := c.mgmtSources
                  hasMgmt := c.hasMgmt }
      else d1
    if passed 0xC then
      { d2 with cmdBase0 := c.cmdBase0, cmdBase16 := c.cmdBase16, retBase0 := c.retBase0, retBase16 := c.retBase16 }
    else d2

/-- The return areas of mailboxes 0 and 16 of a tray block (15 R403). -/
def setBases (c : Cfg) (s : State) : State :=
  let put := fun m : Mbx => if m.n == 0 then { m with ret := c.retBase0 } else if m.n == 16 then { m with ret := c.retBase16 } else m
  { s with stw := { s.stw with mbxs := s.stw.mbxs.map put } }

/-- A start ends in bivouac. -/
def startBivouac (c : Cfg) (cause item : Nat) (s : State) : State :=
  enterBivouac cause item (setBases c { s with cfg := c, lanes := lanesOf s.profile c })

/-- A stook of the counter map, its views at zero (04 R110, R114). -/
def Stook.fresh (c : StookCfg) : Stook where
  s := c.s
  aligned := c.aligned
  unit := c.unit
  obs := List.replicate c.n 0
  host := List.replicate c.n 0
  base := List.replicate c.n 0
  regionCyc := 0
  hrst := 0
  edge := .none
  hold := none
  unannounced := false
  stopRun := 0
  lastEdge := none
  cutWait := none
  cut := none
  intWait := none
  int := none
  skipped := false
  skipNext := false
  moving := false

/-- The owner of each assignment unit at the start: the initial context of its engines (04 R114). -/
def firstOwners (es : List EngineCfg) : List Nat :=
  (List.range 64).map fun u => ((es.find? (·.unit == u)).map (·.ctx)).getD 0

/-- The same at a tray block, for a leaf slot. -/
def slotOwners (slot : Nat) (es : List EngineCfg) : List UnitOwner :=
  ((es.filter (·.ctx != 0)).map fun e => ({ slot := slot, unit := e.unit, ctx := e.ctx, after := 0 } : UnitOwner)).eraseDups

/-- The image passes: the settings are in force. A tray block begins to look for its twin on the default grid (R547,
R549); a leaf is in service and waits for its schedule (R548). -/
def startService (c : Cfg) (s : State) : State :=
  let s1 := setBases c { s with
    cfg := c
    lanes := lanesOf s.profile c
    ident := { s.ident with configured := true }
    boot := { s.boot with bivCause := 0, semItem := 0 } }
  let s2 := match s1.profile with
    | .tray =>
      { s1 with
        mode := .starting
        sched := { s1.sched with anchor := some { k0 := 0, t0 := 0, epochNs := c.epochNs } }
        red := { s1.red with owners := c.slotEngines.flatMap fun x => slotOwners x.1 x.2 }
        twin := { s1.twin with startSince := s1.now } }
    | .leaf =>
      leafCore c (activate 0 c.ctx0Gen 0 0 0 { s1 with
        mode := .service
        boot := { s1.boot with runFrom := some s1.optime }
        cap := { s1.cap with stooks := c.stooks.map Stook.fresh, owner := firstOwners c.engines } })
  if s2.age.restore = 0 then startLive s2 else s2

/-- The item whose check depends on hardware that the start finds, when it fails (R541): the stacks in the region map, the
stooks in the counter map. -/
def hardwareFault (p : Profile) (found : StartFound) (c : Cfg) (b : Bytes) : Option Nat :=
  let idx := fun k : Nat => (firstItem b fun _ x => x == k).getD 0
  let listed := c.stooks.map (·.s)
  let same := listed.all found.stkPresent.contains && found.stkPresent.all listed.contains
  match p with
  | .tray => if found.stacksOk then none else some (idx 6)
  | .leaf => if same then none else some (idx 7)

/-- An image is judged (R538) and leads into service or bivouac. -/
def applyCfg (b : Bytes) (found : StartFound) (s : State) : State :=
  let s1 := { s with
    boot := { s.boot with kinds := (directory b).map (·.1) }
    ident := { s.ident with cfgHash := Config.sha384 (b.take (imgLen b)) } }
  match judge s.profile s.straps s.ownerHash b with
  | .error (5, i) => startBivouac (bivouacCfg s.profile s.straps b) 5 i s1
  | .error (c, i) => startBivouac (bivouacCfg s.profile s.straps []) c i s
  | .ok c =>
    match hardwareFault s.profile found c b with
    | some i => startBivouac c 5 i s1
    | none => startService c s1

/-- STRAP_BOOT holds the instance for the host unless a command led to the reset (R531). -/
def State.waitsForHost (s : State) : Bool := s.straps.boot.getLsbD 1 && !s.boot.cause.getLsbD 29

/-- The stored copy that a tray block judges, or BIV_CAUSE (R531, R540, 02 R75). -/
def State.bootImage (found : StartFound) (s : State) : Except Nat (Nat × CfgCopy) :=
  if s.waitsForHost || !found.sfdpOk then .error 1
  else match storedCfg s.flash.cfg with
    | some x => .ok x
    | none => .error (if s.flash.cfg.all fun c => c.bytes.isEmpty && !c.marked then 1 else 2)

def configureTray (found : StartFound) (s : State) : State :=
  match s.bootImage found with
  | .error c => startBivouac { Cfg.default with side := s.straps.side } c 0 s
  | .ok (i, c) => applyCfg c.bytes found { s with boot := { s.boot with cfgCopy := some i } }

/-- The I3C controller gives each target that answers, 32 at most, a dynamic address (02 R73): from 0x08 up in the order
in which they answer (assumption 140). -/
def assignI3c (pids : List (BitVec 48)) (s : State) : State :=
  let t : List (Nat × BitVec 48) := (pids.take 32).zipIdx.map fun x => (8 + x.2, x.1)
  ({ s with i3c := t } : State).emits (t.map fun x => Out.i3cAssign x.1 x.2)

/-- The firmware starts: identity, the boot value, the recorder, the repairs and the margin. -/
def startFirmware (fw : Bytes) (copy : Option Nat) (found : StartFound) (s : State) : State :=
  let s1 := startIdentity fw s
  let s2 := { s1 with
    mode := .reset
    stw := { s1.stw with boot := bootValue s1.stw.boot found.bootDraw }
    boot := { s1.boot with fwCopy := copy, rom := none } }
  let s3 := if s2.isTray then assignI3c found.i3c s2 else s2
  marginStart (readOtp (recorderStart found.clockFlash s3))

/-- A tray block starts from flash; with no copy that passes it holds, and its ROM loader listens where it may (R532,
R533). -/
def startTray (found : StartFound) (s : State) : State :=
  match s.pickFw with
  | some (i, c) => configureTray found (startFirmware c.bytes (some i) found s)
  | none => { s with mode := .held, boot := { s.boot with rom := if s.romListens then some [] else none } }

/-- A start after a reset: layer 0, then a tray block's firmware; a leaf waits for its boot descriptor (R534). -/
def start (found : StartFound) (s : State) : State :=
  let s1 := layer0 found.udsDraw s
  match s1.profile with
  | .tray => startTray found s1
  | .leaf => { s1 with mode := .held }

/-! ## POWER_ON_RESET, POWER_LOSS, PLL_LOCK -/

/-- RST_PWR_N deasserts: the straps are sampled once, and the instance starts (R79, R542). -/
def execPowerOnReset (straps : Straps) (found : StartFound) (s : State) : Res :=
  .next <|
    let s1 := hourStart (clearPower (if s.isTray then straps else noStraps) s)
    start found { s1 with pwrEdge := some s1.edges }

/-- RST_PWR_N is deasserted: the block has power and is not in the state before its first start. -/
def State.powered (s : State) : Bool := s.mode != .off && s.mode != .reset

/-- RST_PWR_N deasserted in the CK_S cycle that runs (R50). -/
def State.justPowered (s : State) : Bool := s.pwrEdge.any fun e => e / 16 == s.edges / 16

/-- RST_PWR_N asserts or power is lost: every output is at its reset value and the instance stops (R45, R553). -/
def execPowerLoss (s : State) : Res := .next { clearPower s.straps s with mode := .off }

/-- The root PLL locks after RST_PWR_N deasserts (R49). -/
def execPllLock (s : State) : Res :=
  .next <|
    if s.powered then { s with pins := { s.pins with pllLock := true, ckROut := true } } else s

/-! ## The block reset (18 R472, R473) -/

/-- A block reset for a cause. Only RST_BLK_N, or power, brings back a sideband port whose own logic failed (02 R63). -/
def blockReset (cause : ResetCause) (found : StartFound) (s : State) : State :=
  let s1 := clearBlock (openDump s)
  start found { s1 with
    boot := { s1.boot with cause := nextCause s.boot.cause cause }
    sb := { s1.sb with dead := s.sb.dead && cause != .pin } }

/-- A cause other than the pin acts when a command or a hang has led to it and its time has come. -/
def State.resetComes (s : State) (c : ResetCause) : Bool :=
  match c, s.stw.resetDue with
  | .pin, _ => true
  | _, some (d, t) => d == c && t ≤ s.now
  | _, none => false

/-- RST_BLK_N, or a reset from within. With RST_PWR_N asserted, or deasserted in the same CK_S cycle, the block follows
the sequence of RST_PWR_N (R50). -/
def execRstBlkN (cause : ResetCause) (found : StartFound) (s : State) : Res :=
  .next <| if s.powered && !s.justPowered && s.resetComes cause then blockReset cause found s else s

/-- Steward hang: 800,000 CK_C cycles without a heartbeat in a tray block, 1,600,000 in a leaf (18 R466). -/
def State.stewardSilent (s : State) : Bool := s.stw.beatAt + (if s.isTray then 1600000 else 3200000) ≤ s.edges

/-- The steward hangs, disagrees with itself, or loses an SRAM word (18 R466, 17 R444): its segments are dumped and a
block reset follows; a disagreement that the third run settles is only counted. -/
def execStewardWatchdog (fault : StewardFault) (scan : UnitScan) (found : StartFound) (s : State) : Res :=
  .next <|
    if !s.clocked then s
    else match fault with
      | .silent => if s.stewardSilent then blockReset .stwWdt found (autoDump true none scan s) else s
      | .disagrees true => dupMismatch true s
      | .disagrees false => blockReset .stwMismatch found (autoDump true none scan (dupMismatch false s))
      | .lostWord => blockReset .stwUe found (autoDump true none scan s)

/-! ## ROM recovery (R533) -/

/-- Byte i of the parts received, the latest first. -/
def romByte (parts : List (Nat × Bytes)) (i : Nat) : Option Byte :=
  match parts.find? fun p => p.1 ≤ i && i < p.1 + p.2.length with
  | some p => p.2[i - p.1]?
  | none => none

/-- The first n bytes, once every one is held. -/
def romImage (parts : List (Nat × Bytes)) (n : Nat) : Option Bytes := (List.range n).mapM (romByte parts)

/-- The whole image whose length its header names. -/
def romWhole (parts : List (Nat × Bytes)) : Option Bytes :=
  match romImage parts 64 with
  | some h => romImage parts (fwLen h)
  | none => none

/-- A datagram of the ROM loader: stored, its offset echoed, and the whole image verified and started from SRAM. -/
def execRomRecoveryDatagram (source : NetSource) (offset : BitVec 64) (part : Bytes) (found : StartFound) (s : State) : Res :=
  onTrayEver "ROM_RECOVERY_DATAGRAM" s fun s =>
    match s.boot.rom with
    | none => s
    | some parts =>
      if s.mode != .held || part.length < 64 || 1024 < part.length then s
      else
        let all := (offset.toNat, part) :: parts
        let s1 := { s with boot := { s.boot with rom := some all } }.emit (s.mgmtOut source (le 8 offset.toNat))
        match romWhole all with
        | some fw => if fwOk s1.profile s1.otpSvn fw then configureTray found (startFirmware fw none found s1) else s1
        | none => s1

/-! ## The boot descriptor of a leaf (R534) -/

/-- The descriptor of a 64-byte line whose MAGIC and CRC-32C match. -/
def readDesc (b : Bytes) : Option BootDesc :=
  if fld b 0 4 == 0x44424B49 && crcOk b then
    some { fwLen := fld b 4 4, fwAddr := fld b 8 8, cfgAddr := fld b 16 8, cfgLen := fld b 24 4, svcCmd := fld b 32 8
           svcRet := fld b 40 8 }
  else none

/-- A leaf judges the image that its descriptor names. -/
def configureLeaf (d : BootDesc) (host : HostView) (found : StartFound) (s : State) : State :=
  if d.cfgLen = 0 then startBivouac Cfg.default 1 0 s
  else applyCfg ((hostRead host d.cfgAddr d.cfgLen).getD []) found (hostFaults host d.cfgAddr d.cfgLen s)

/-- A poll of the boot descriptor: with a valid one the leaf reads its firmware and image. A firmware image that fails
leaves it held. Poisoned data is no valid descriptor or image, and a read that ended is reported (02 R58). -/
def execBootDescriptorPoll (host : HostView) (found : StartFound) (s : State) : Res :=
  onLeafEver "BOOT_DESCRIPTOR_POLL" s fun s =>
    if s.mode != .held || s.boot.desc.isSome then s
    else
      let s0 := hostFaults host (4096 * Config.leafBootPage) 64 s
      match (hostRead host (4096 * Config.leafBootPage) 64).bind readDesc with
      | none => s0
      | some d =>
        let s1 := hostFaults host d.fwAddr d.fwLen { s0 with boot := { s0.boot with desc := some d } }
        let fw := (hostRead host d.fwAddr d.fwLen).getD []
        if fwOk s1.profile s1.otpSvn fw then configureLeaf d host found (startFirmware fw none found s1) else s1

end Sys2Proof.Machine
end

