-- ==== Sys2Proof/Machine/Boundary.lean ====
section
/-!
DEFINITION. The epoch boundary: which boundary is due (01 R31, 03 R101 to R104, R554), the leaf's cut (04 R105 to R117,
R132), effects that wait for a boundary (16 R428), new sheaves, grants, loop and status of a tray block.
-/

namespace Sys2Proof.Machine

/-! ## The boundary that is due -/

/-- The latest boundary of an anchor's grid, when this is its cairn edge: the first CK_E edge at or after T_k. -/
def State.gridBoundary (s : State) (a : Anchor) : Option (Nat × Ticks × Anchor) :=
  if s.now < a.t0 then none
  else
    let n := (s.now - a.t0) / nsT a.epochNs
    let t := a.t0 + n * nsT a.epochNs
    if s.now < t + s.tim.inc && (s.sched.past.head?.map (·.k)) != some (a.k0 + n) then some (a.k0 + n, t, a) else none

/-- While the time may still be set or stepped: the boundary of the epoch that contains the time, when this is its cairn
edge. Corrections made before and one that is pending stand (03 R103). -/
def State.setBoundary (s : State) (a : Anchor) : Option (Nat × Ticks × Anchor) :=
  match s.epochAt s.now with
  | some k => match s.timeOf k with
    | some t => if s.now < t + s.tim.inc && (s.sched.past.head?.map (·.k)) != some k then some (k, t, a) else none
    | none => none
  | none => none

/-- The boundary that is due with its anchor: of a SCHED_SYNC that has come (07 R213), of the epoch of the time while that
is not acquired or no boundary has passed, otherwise the next one of the schedule. -/
def State.dueBoundary (s : State) : Option (Nat × Ticks × Anchor) :=
  match s.sched.adopt.bind s.gridBoundary with
  | some x => some x
  | none =>
    match s.sched.anchor with
    | none => none
    | some a =>
      if s.sched.past.isEmpty || s.tim.state.settable then s.setBoundary a
      else if s.sched.nextT ≤ s.now then some (s.sched.nextK, s.sched.nextT, a) else none

/-- Take the anchor of the boundary that has come: a new one sets EPOCH_NS and D = 0 (R213). -/
def takeAnchor (a : Anchor) (s : State) : State :=
  if s.sched.adopt == some a then
    { s with
      sched := { s.sched with anchor := some a, adopt := none, d := 0, knots := [(a.k0, a.t0)] }
      cfg := { s.cfg with epochNs := a.epochNs } }
  else s

/-- Boundaries that a set or stepped time passes over take their corrections (03 R103): D before boundary k, and the
knots. -/
def skipTo (k : Nat) (s : State) : State :=
  match s.sched.anchor with
  | some a =>
    if s.sched.nextK < k && !s.sched.past.isEmpty then
      let w := s.toCome a
      { s with sched := { s.sched with
        d := ((w.find? fun x => x.1 == k).map (·.2.2)).getD 0
        knots := (((w.drop 1).filter fun x => x.1 ≤ k).map fun x => (x.1, x.2.1)).reverse ++ s.knots a } }
    else s
  | none => s

/-- The boundary passes: its epoch's length and the next boundary (03 R103). A boundary that comes again after the time
was set back keeps the length that its epoch had. -/
def pushBoundary (k : Nat) (t : Ticks) (s : State) : State :=
  let e := s.cfg.epochNs
  let again : Option Ticks := match s.sched.knots with
    | (k0, _) :: _ => if k < k0 then knotTime e s.sched.knots (k + 1) else none
    | [] => none
  let (len, irr, d) := match again with
    | some t1 => ((t1 - t) / 2 ^ 32, decide (e + e / 64 < (t1 - t) / 2 ^ 32), s.sched.d)
    | none => epochStep e s.sched.d
  let from_ := match s.sched.anchor with
    | some a => s.knots a
    | none => [(k, t)]
  let knots := if again.isNone && len != e then (k + 1, t + nsT len) :: from_ else from_
  let b : Boundary := { k := k, t := t, epochNs := e, len := len, irregular := irr }
  { s with sched := { s.sched with
    d := d, nextK := k + 1, nextT := t + nsT len, past := (b :: s.sched.past).take 64, knots := knots } }

/-! ## The cut (04) -/

/-- A stook at the cairn edge: ALIGNED and stopped ones latch at once, the others wait for their edge (R105, R107). -/
def Stook.cutAt (st : Stook) (k : Nat) (t : Ticks) : Stook :=
  if st.aligned then st.loadCut k t .running 0 st.obs
  else match st.hold with
    | some (v, h) => st.loadCut k t (.stopped h.toTicks) 0xFFFF v
    | none => { st with cutWait := some (k, t) }

/-- A boundary without a cut: the bases of moved units still take the raw values (R112). -/
def Stook.rebase (st : Stook) : Stook := if st.moving then { st with base := st.obs, moving := false } else st

/-- Health counters that a cut carries from other fields: lane counters, gauges, bus wait and drain length (R113). -/
def cutHealth (b : BoundaryIn) (s : State) : State :=
  let lanes := (s.lanes.filter (·.n < 2)).flatMap fun l => (l.ctr.take 15).zipIdx.map fun c => (128 * l.n + c.2, c.1)
  let gauges := (b.gauges.filter fun g => 256 ≤ g.1 && g.1 < 288).map fun g => (g.1, BitVec.ofInt 64 g.2)
  let own := [(291, BitVec.ofNat 64 s.cap.maxWait), (292, BitVec.ofNat 64 s.cap.drainCyc)]
  (lanes ++ gauges ++ own).foldl (fun s x => s.setHealth x.1 x.2) s

/-- DRAIN_CYC and MAX_WAIT of the epoch that ends, at every cairn edge (R132): a first beat on the edge itself falls in
the epoch that begins. An epoch that began without a cut leaves DRAIN_CYC, and DRAIN_LATE with it. -/
def closeDrain (s : State) : State :=
  let drained := (s.cap.cutCycle.filter (· == s.cap.cairnCycle)).map (s.cap.lastCutBeat - ·)
  let cap0 := s.cap.settleWait (s.tim.cycle - 1)
  let s1 := { s with cap := { cap0 with
    drainCyc := drained.getD s.cap.drainCyc, maxWait := cap0.waitNow, waitNow := 0, cairnCycle := s.tim.cycle, cairnAt := s.now } }
  if drained.any (8417 < ·) then (s1.setBit .cap 31) else s1

/-- A stook whose INT bank is undrained at T_(k+1) skips its next sample (R124). -/
def Stook.skipLate (st : Stook) : Stook := if st.int.isSome then { st with skipNext := true } else st

/-- The record flags FIRST, IRREGULAR, TIME_SUSPECT and TIME_HOLDOVER of a cut (05 R136). -/
def State.cutFlags (s : State) (irregular : Bool) : BitVec 32 :=
  BitVec.ofNat 32 (b2n s.cap.first + 2 * b2n irregular + 4 * b2n (s.tim.state == .suspect) + 8 * b2n (s.tim.state == .holdover))

/-- MAP_SEQ rises with a change of the ownership map, which is in force after the boundary. -/
def nextMap (s : State) : State :=
  if s.cap.stooks.any (·.moving) then { s with cap := { s.cap with mapSeq := s.cap.mapSeq + 1 } } else s

/-- The rows of a leaf's tables begin with its first cut: their first update is that of epoch k (assumption 26). -/
def firstRows (k : Nat) (s : State) : State :=
  let put := fun v : RowVer => { v with epoch := max v.epoch (k - 1) }
  let rows := fun t : Table => t.rows.map fun r => { r with v := put r.v, old := put r.old }
  if s.cap.first then
    { s with mem := { s.mem with tables := s.mem.tables.map fun t => { t with rows := rows t, lastEpoch := max t.lastEpoch (k - 1) } } }
  else s

/-- Cut k: its ring slot, the latches of the cairn edge and their requests, and the restart of INT requests (R105, R126,
R129). -/
def cut (k : Nat) (x : Boundary) (b : BoundaryIn) (s : State) : State :=
  let s1 := cutHealth b (firstRows k s)
  let stooks := s1.cap.stooks.map fun st => st.cutAt k x.t
  let slot : RingSlot := {
    k := k, t := x.t, len := x.len, epochNs := x.epochNs, flags := s1.cutFlags x.irregular, mapSeq := s1.cap.mapSeq
    waiting := [], headers := [], health := s1.cap.health
    counts := sortBy (·.1) (stooks.map fun st => (st.s, st.obs.length)), values := [], drained := [], ints := [], poison := [], lost := false, sent := false }
  let now := s1.tim.cycle + 1
  let hlt : BusReq := { idx := 1, raised := now, ageStart := now, bursts := [32, 32, 32, 32], begun := false, stook := 0 }
  let latched := stooks.filter fun st => st.cutWait.isNone
  let s2 := nextMap s1
  let reqs := s2.cap.reqs.map (·.restart s1.tim.cycle) ++ ([hlt] ++ latched.map fun st => cutReq st now)
  let s3 := syncHeaders { s2 with cap := { s2.cap with
    stooks := stooks
    ring := slot :: s2.cap.ring.filter fun r => r.k % 16 != k % 16
    reqs := reqs
    cutCycle := some s1.tim.cycle
    first := false } }
  latched.foldl (fun s st => countStop (st.cut.map (·.2.1)) s) s3

/-- The leaf cuts in service once its time is acquired (03 R96, 21 R544, R548). -/
def State.cuts (s : State) : Bool := s.isLeaf && s.mode == .service && !s.tim.state.settable && !s.cap.dieLost

/-- The leaf's part of a boundary. -/
def leafBoundary (k : Nat) (b : BoundaryIn) (s : State) : State :=
  let s := overwriteRing k (closeDrain s)
  let s := { s with cap := { s.cap with
    dieLost := s.cap.dieLost || b.dieLost, stooks := s.cap.stooks.map Stook.skipLate } }
  let s1 := match s.sched.past with
    | x :: _ => if s.cuts then cut k x b s
      else
        let s2 := nextMap s
        { s2 with cap := { s2.cap with stooks := s2.cap.stooks.map Stook.rebase } }
    | [] => s
  let s2 := if s1.cap.dieLost then s1.sendLeafStatus 1 [] else s1
  countGrantBoundary (reportLanes s2)

/-! ## Effects at a boundary (16 R428) -/

/-- ROW_LOAD: the words of each record are written before the row's update of the epoch (R437), each in an RMW. -/
def applyRows (id : Nat) (img : Bytes) (s : State) : State :=
  let one := fun (t : Table) (r : Bytes) =>
    let ws := (List.range (fld r 6 2)).map fun i => BitVec.ofNat 32 (fld r (8 + 4 * i) 4)
    let put := fun x : Row => { x with v := { x.v with words := setWords x.v.words (fld r 4 2) ws } }
    { t with rows := mapIf (fun x => x.entity == recordEntity r) put t.rows }
  let hit := fun (t : Table) => (rowRecords img).filterMap fun b => (t.rows.find? fun r => r.entity == recordEntity b).map (·.row)
  let s1 := (s.table? id).elim s fun t => (hit t).foldl (fun s r => s.xfer (.c t.ctx) (t.channel r) 2) s
  s1.onTable id fun t => (rowRecords img).foldl one t

/-- TABLE_SEED from a checkpoint (11 R329): each row as it is held there, hot rows in the Granary too; the records after it
are replayed. -/
def applySeedCkpt (id : Nat) (c : Ckpt) (s : State) : State :=
  let put := fun r : Row => match s.rowFrom c id r.row with
    | some x => { x with hot := r.hot, seeded := r.seeded }
    | none => r
  let again := fun (s : State) (r : Row) => match s.rowFrom c id r.row with
    | some x => reinstall id r.row x.v s
    | none => s
  let rows := ((s.table? id).map (·.rows)).getD []
  rows.foldl again (s.onTable id fun t => { t with rows := t.rows.map put, seeded := true, rebuilding := true })

def dropTable (id : Nat) (s : State) : State :=
  { s with
    mem := { s.mem with
      tables := s.mem.tables.filter (·.img.tableId != id)
      hot := s.mem.hot.filter (·.table != id) }
    raw := { s.raw with copies := s.raw.copies.filter (·.1 != id) } }

/-- A leaf applies a unit assignment (14 R394): the id at its generation with its units, or its end. -/
def applyAssign (c : Nat) (g : BitVec 16) (e : Option SetupEntry) (k : Nat) (t : Ticks) (s : State) : State :=
  match e with
  | none => if (s.heldGen c).isSome then leafEnd c (beginDrain c k t s) else s
  | some x =>
    let s1 := if s.heldGen c == some g then s else activate c g k x.winBase x.winSize s
    let back := (List.range 64).filter fun u => nth s1.cap.owner u 0 == c && !x.units.getLsbD u
    moveUnits (unitsOf x.units) c (moveUnits back 0 s1)

/-- The smaller in-service count of the two members (11 R324). -/
def State.teamLanes (s : State) : Nat :=
  if s.twin.paired then min s.lanesIn.length s.twin.lanes else s.lanesIn.length

/-- The fallback of the placement in force for n lanes, on the member's own in-service lanes in ascending order (11
R324). -/
def applyFallback (ctx n k : Nat) (s : State) : State :=
  match placeAt s.mem.places ctx k with
  | some q => match q.p.fallbacks.find? (·.1 == n) with
    | some f => putPlacement { q with entries := f.2, lanes := s.lanesIn, count := s.teamLanes } k s
    | none => s
  | none => s

/-- One effect at boundary k. -/
def applyBnd (k : Nat) (t : Ticks) (a : Bnd) (s : State) : State :=
  match a with
  | .table ctx gen img =>
    let rows := List.range img.entities.length
    let s1 := rows.foldl (fun s r => s.xfer (.c ctx) (img.ch0 + r) img.rowLen) (s.xfer (.c ctx) img.ch0 1)
    { s1 with mem := { s1.mem with tables := s1.mem.tables ++ [newTable ctx gen img k] } }
  | .tableDrop id => dropTable id s
  | .seed id vs => s.onTable id fun t =>
      { t with seed := some { start := k, values := vs }, rows := t.rows.map fun r => { r with seeded := false } }
  | .seedCkpt id c => applySeedCkpt id c s
  | .rows id img => applyRows id img s
  | .modelDrop id => { s with mem := { s.mem with models := s.mem.models.filter (·.m.modelId != id) } }
  | .place ctx p => putPlacement { ctx := ctx, since := k, entries := p.entries, p := p, lanes := List.range s.laneCount, count := s.teamLanes } k s
  | .fallback ctx n => applyFallback ctx n k s
  | .acts rows => refreshActions k { s with act := { s.act with rows := s.act.rows ++ [(k, rows)] } }
  | .policy first vs => { s with act := { s.act with policies := s.act.policies ++ vs.zipIdx.map fun v => (first + v.2, k, v.1) } }
  | .pub ctx base p z => { s with red := { s.red with
      pubs := s.red.pubs ++ [{ ctx := ctx, since := k, base := base, p := p, z := z, stored := [], fresh := [] }] } }
  | .ckptArea ctx base size => { s with raw := { s.raw with
      areas := s.raw.areas ++ [{ ctx := ctx, since := k, base := base, size := size }] } }
  | .captArea ctx base n z => { s with
      capt := s.capt ++ [{ ctx := ctx, since := k, base := base, n := n, z := z, q := 0, stored := [] }] }
  | .sample ctx plan => { s with cap := { s.cap with plans := s.cap.plans.filter (·.ctx != ctx) ++ plan.toList } }
  | .detach true => detachSelf k s
  | .detach false => detachTwin s
  | .handOver => twinHandsOver s
  | .join => joinTeam s
  | .teamStart => teamStart k s
  | .release ctx _ => moveUnits ((List.range 64).filter fun u => nth s.cap.owner u 0 == ctx) 0 s
  | .assign ctx gen e => applyAssign ctx gen e k t s

/-- Effects whose boundary comes without the twin's echo are named anew (11 R324, assumption 45), to the twin and to the other
summit teams that were told of them (05 R153); their commands wait on. -/
def renameUnechoed (k : Nat) (s : State) : State :=
  let late := fun x : BndItem => x.b != 0 && x.b ≤ k && !x.echoed
  if s.stw.bnd.any late then
    let b' := k + s.leadEpochs
    let olds := ((s.stw.bnd.filter late).map (·.b)).eraseDups
    let cmd := fun c : Cmd => match c.wait with
      | .boundary b => if olds.contains b then { c with wait := .boundary b', result := le 8 b' ++ c.result.drop 8 } else c
      | _ => c
    let s1 := { s with stw := { s.stw with
      bnd := mapIf late (fun x => { x with b := b' }) s.stw.bnd
      mbxs := s.stw.mbxs.map fun m => { m with waiting := m.waiting.map cmd } } }
    let peers := if s.cfg.role == .summit then s.lanesFor LaneUse.isPeer else []
    olds.foldl (fun s o => (sendTwin (Config.ctlPayload 0x88 [o, b']) s).sendMsgAll peers 2 0 0 (s.genOf 0)
      (Config.ctlPayload 0x88 [o, b'])) s1
  else s

/-- The effects of boundary k, in the order in which their commands were accepted (15 R419). -/
def applyBnds (k : Nat) (t : Ticks) (s : State) : State :=
  let due := fun x : BndItem => x.b != 0 && x.b ≤ k && x.echoed
  let s1 := { s with stw := { s.stw with bnd := s.stw.bnd.filter fun x => !due x } }
  renameUnechoed k ((sortBy (·.turn) (s.stw.bnd.filter due)).foldl (fun s x => applyBnd k t x.act s) s1)

/-! ## The tray block's part -/

/-- The contexts for which cut k makes a sheaf: context 0 from its start, a tenant from the boundary after it (14 R387), to
the end boundary (R390). -/
def State.sheafCtxs (s : State) (k : Nat) : List Ctx :=
  s.ctxs.filter fun c => match c.life with
    | .active _ => if c.id == 0 then c.start ≤ k else c.start < k
    | .draining _ => c.start < k && k ≤ c.endB
    | .free => false

/-- The sheaves that a role makes of a boundary: at SUMMIT role its shard partial and the fleet sheaf. -/
def roleLevels : Role → List Level
  | .tray => [.tray]
  | .chassis => [.chassis]
  | .summit => [.shard, .fleet]

/-- The new sheaves of a boundary. An epoch that an adopted anchor names once more keeps the sheaf it has (07 R218). -/
def newSheaves (x : Boundary) (s : State) : State :=
  let keep := s.red.sheaves.filter fun h => h.stage != .done || x.k < h.k + 64
  let s0 := { s with red := { s.red with
    sheaves := keep
    children := s.red.children.filter fun c => x.k < c.k + 64
    noneAnswered := s.red.noneAnswered.filter fun n => x.k < n.2.2 + 64 } }
  (s0.sheafCtxs x.k).foldl (fun s c =>
    let p := (planAt s.red.plans c.id x.k).getD noPlan
    let made := (roleLevels s.cfg.role).map fun lv =>
      newSheaf lv c.id (s.genOf c.id) x p (c.firstEpoch == x.k) (lv == .shard)
    let new := made.filter fun h => !s.red.sheaves.any fun y => y.ctx == h.ctx && y.gen == h.gen && y.k == h.k && y.level == h.level
    let s1 := { s with red := { s.red with sheaves := s.red.sheaves ++ new } }
    let s2 := if new.isEmpty then s1 else countFinished c.id x.k s1
    refreshVerdicts c.id x.k (s2.onCtx c.id fun c => { c with firstDue := false })) s0

/-- HOLD_NOTICE for each earlier sheaf that is held (05 R150). -/
def holdNotices (k : Nat) (s : State) : State :=
  if s.cfg.role == .summit then s
  else
    (s.red.sheaves.filter fun h => h.stage == .open && h.k < k).foldl
      (fun s h => s.sendCtlAll (s.lanesFor LaneUse.isUp) (holdNoticeMsg h.ctx h.k)) s

/-- SCHED_SYNC that was owed, once no correction is pending (07 R213), and to each attached leaf that is silent (21
R548). -/
def sendSchedules (s : State) : State :=
  let owed := if s.sched.settled then s.red.schedOwed else []
  let s1 := if s.sched.settled then { s with red := { s.red with schedOwed := [] } } else s
  let silent := (s.lanes.filter fun l => l.plan.use.isDown && l.active && l.st == .up &&
    !(s.red.landing.any fun r => some r.slot == s.laneSlot l.n)).map (·.n)
  let more := if s.cfg.role == .tray then silent.filter fun n => !owed.contains n else []
  (owed ++ more).foldl (fun s n => sendSchedSync n s) s1

/-- The unit assignment of a leaf that has rejoined: one message for every tenant id (14 R394, assumption 44). -/
def sendAssignment (slot k : Nat) (s : State) : State :=
  let leaf := (subjectOf s.red.changes slot).getD 0
  (s.ctxs.filter fun c => 1 ≤ c.id && c.id < s.cfg.shareCount).foldl (fun s c =>
    let active : Bool := match c.life with
      | .active _ => true
      | _ => false
    let win := (s.setups.filter (·.ctx == c.id)).flatMap fun x => x.entries.filter (·.leaf == leaf)
    let units := if active then slotUnits s.red.owners slot c.id k else []
    let base := (win.head?).getD { leaf := leaf, units := 0, winBase := 0, winSize := 0 }
    let e := { base with units := BitVec.ofNat 64 (mapOf units) }
    let su : Setup := { setupId := assignmentId, ctx := c.id, gen := s.genOf c.id, flags := 0, entries := [e] }
    s.sendMsgAll (s.slotLanes slot) 2 0 0 (s.genOf 0) (setupMsg su [e])) s

def sendAssignments (k : Nat) (s : State) : State :=
  if s.cfg.role == .tray then
    s.red.assignOwed.foldl (fun s n => sendAssignment n k s) { s with red := { s.red with assignOwed := [] } }
  else s

/-- The deviation of SLOT_SYNC at a boundary (03 R101): an edge in the half epoch before it; one that follows it comes
later. The boundary before is complete: it joins the window of R102, which starts anew after a phase correction, and
without an edge it counts towards SLOT_SYNC_LOST. -/
def slotBoundary (t : Ticks) (s : State) : State :=
  let old := s.sched.slotNow
  let prev := (s.sched.past.drop 1).head?
  let near := s.sched.slotEdges.filter fun e => decide (t ≤ e + nsT s.cfg.epochNs / 2 ∧ e ≤ t)
  let dev : Option Int := near.foldl (fun (d : Option Int) (e : Ticks) => nearerDev d ((e : Int) - (t : Int))) none
  let s1 := { s with sched := { s.sched with
    slotEdges := []
    slotWindow := if s.sched.settled && prev.any (fun b => b.len == b.epochNs) then (old :: s.sched.slotWindow).take 64 else []
    slotMiss := if dev.isSome then 0 else if prev.isSome && old.isNone then s.sched.slotMiss + 1 else s.sched.slotMiss
    slotNow := dev
    slotDev := slotDevCode dev } }
  match old with
  | some d => s1.metric 16 ((d.natAbs / 2 ^ 32 : Nat) : Int)
  | none => s1

/-- The largest, least or sum of a health counter over present leaves. -/
def aggregate (agg : Nat) (l : List Int) : Int :=
  if agg = 0 then l.foldl max (l.headD 0) else if agg = 1 then l.foldl min (l.headD 0) else l.foldl (· + ·) 0

/-- The metrics of an epoch (19 R494, R495), from the records of the epoch before. -/
def epochMetrics (k : Nat) (s : State) : State :=
  let recs := (s.red.landing.filter fun l => l.k + 1 == k && expectedAt s.red.changes 0 l.slot l.k).map (·.raw)
  let temps := recs.flatMap fun b => (List.range 8).map fun i => signed 64 (recHealth b (256 + i))
  let of := fun (n : Nat) (o : Option Nat) => match o with
    | some v => [(n, ((v : Nat) : Int))]
    | none => []
  let absent := ((slotsOf s.red.changes 0).filter fun x => absentAt s.red.changes 0 x k).length
  let users := if recs.isEmpty then [] else s.cfg.userMetrics.map fun u =>
    (48 + u.u, aggregate u.agg (recs.map fun b => signed 64 (recHealth b u.health)))
  let hot := if temps.isEmpty then [] else [(13, aggregate 0 temps)]
  let s1 := s.metrics (hot ++ [(17, ((s.mem.slotTail / nsT 10 : Nat) : Int))] ++ of 18 s.evr.grantDone
    ++ of 19 s.evr.sheafOut ++ of 20 s.evr.skewMax ++ of 21 (some absent) ++ of 22 (some s.holds)
    ++ of 23 (some s.logLag) ++ users)
  { s1 with evr := { s1.evr with grantDone := none, sheafOut := none, skewMax := none } }

/-- Jobs that were stopped resume at the first boundary at which every row they read is repaired and their model is
good (09 R272). -/
def resumeJobs (s : State) : State :=
  let bad := fun x : Nat × Nat => match (s.table? x.1).bind fun t => t.row? x.2 with
    | some r => !r.v.badLines.isEmpty
    | none => false
  { s with mem := { s.mem with stopped := s.mem.stopped.filter fun j => j.store || j.rows.any bad } }

/-- Scorings whose publication is long past are forgotten. -/
def pruneJobs (k : Nat) (s : State) : State :=
  { s with mem := { s.mem with jobs := s.mem.jobs.filter fun j => j.record.isNone || k < j.pub + 64 } }

/-- Tell the twin how many lanes are in service, when that has changed (11 R324). The layout is open (assumption 10). -/
def tellLanes (s : State) : State :=
  let n := s.lanesIn.length
  if s.twin.paired && n != s.twin.toldLanes then
    sendTwin (Config.ctlPayload 0x8C [n]) { s with twin := { s.twin with toldLanes := n } }
  else s

/-- The deciding member names a boundary for a fallback placement when either member has lost lanes without a spare: the
largest listed count that does not exceed the smaller in-service count of the two (11 R324). -/
def nameFallback (ctx : Nat) (s : State) : State :=
  match placeAt s.mem.places ctx s.curEpoch with
  | none => s
  | some p =>
    let n := s.teamLanes
    let queued := s.stw.bnd.any fun x => match x.act with
      | .fallback c _ => c == ctx
      | .place c _ => c == ctx
      | _ => false
    let fits := p.p.fallbacks.filter fun f => f.1 ≤ n
    let best := fits.foldl (fun (b : Option (Nat × List PlaceEntry)) f => match b with
      | some g => if g.1 < f.1 then some f else some g
      | none => some f) none
    match best with
    | some f =>
      let b := s.nameBoundary true
      if queued || p.count ≤ n || !s.decides then s
      else if s.relays then nameMove (.fallback ctx f.1) (.fallback ctx f.1) b s
      else queueAlone (.fallback ctx f.1) b s
    | none => s

/-- A tray block takes part in cut k unless its time is being acquired (03 R96). -/
def State.takesCut (s : State) : Bool := !s.tim.state.settable

/-- What a carrying tray block does at a boundary. -/
def carryBoundary (k : Nat) (x : Boundary) (s : State) : State :=
  let s0 := pruneJobs k (resumeJobs s)
  let s1 := if s0.takesCut then newSheaves x s0 else s0
  let s2 := holdNotices k (ckptDue k (decimate x.t s1))
  let s3 := sendAssignments k (sendSchedules (repeatDecisions s2))
  epochMetrics k ((s3.ctxs.map (·.id)).foldl (fun s c => nameFallback c s) (tellLanes s3))

/-- The tray block's part of a boundary. -/
def trayBoundary (k : Nat) (x : Boundary) (s : State) : State :=
  let s1 := startSync k (sendSafeGrants k (applyLoop k x.t (slotBoundary x.t s)))
  if s1.carrying then carryBoundary k x s1 else s1

/-! ## EPOCH_BOUNDARY -/

/-- Boundary k at T_k: confirmed changes, the boundary itself, effects that were named for it, and each profile's part.
STATE of RST_STATE follows (20 R523). -/
def boundary (k : Nat) (t : Ticks) (b : BoundaryIn) (s : State) : State :=
  let s1 := applyBnds k t (pushBoundary k t (applyArms k t (skipTo k s)))
  let s2 := match s1.sched.past, s1.profile with
    | _, .leaf => leafBoundary k b s1
    | x :: _, .tray => trayBoundary k x s1
    | [], .tray => s1
  let s3 := handOver (hangSample b.units b.hostStall (ageSample b.pdm b.ro s2))
  { s3 with boot := { s3.boot with shown := s3.mode } }

def execEpochBoundary (b : BoundaryIn) (s : State) : Res :=
  .next <| match s.dueBoundary with
  | some (k, t, a) => if s.clocked then boundary k t b (takeAnchor a s) else s
  | none => s

end Sys2Proof.Machine
end

