-- ==== Sys2Proof/Machine/Links.lean ====
section
/-!
DEFINITION. Zhelen lanes (06), the commands: cells, groups, training, keys and sparing. AUTH is in Identity.lean.
-/

namespace Sys2Proof.Machine

def idleCell : Bytes := zeros 256

/-- The cell of a data position and the lane after it (R169). -/
def Lane.dataCell (l : Lane) (belay : Bool) (shareCount : Nat) (now : Ticks) : Bytes × Lane :=
  if !l.active then (idleCell, l)
  else
    let stall := l.vc1Stalls
    let l := if stall && !l.stalled then { l with stalled := true }.bump 8 else l
    match l.ready 1 0 with
    | some t => (l.sendCell now t).getD (idleCell, l)
    | none =>
      let l := { l with rot := l.rot + 1 }
      let o := rotationOwner belay shareCount l.rot
      match l.ready o.1 o.2 with
      | some t => (l.sendCell now t).getD (idleCell, l)
      | none => (idleCell, l)

/-- The lane sends pitches from ALIGN on (R179). -/
def Lane.sending (l : Lane) : Bool :=
  match l.st with
  | .off | .detect | .equalise | .failed => false
  | _ => true

/-- The lane sends the PRBS31 idle pattern (R179). -/
def Lane.idling (l : Lane) : Bool :=
  match l.st with
  | .detect | .equalise => true
  | _ => false

/-- The cell of a data position of a lane that trains: in AUTH the next clear cell of this end's messages, otherwise an idle
cell. With the last of them gone and the far end verified the lane is KEYED (R179). -/
def Lane.trainCell (l : Lane) (now openedAt : Ticks) : Bytes × Lane :=
  match l.st, l.authCells with
  | .auth, c :: cs =>
    let l' := { l with authCells := cs }
    (c, if cs.isEmpty && l.authKeys.isSome then l'.enterKeyed now openedAt else l')
  | _, _ => (idleCell, l)

/-- A data position, 1 to 63 of the pitch (R162, R169); while the lane trains it carries an idle cell or AUTH's messages, and
in DETECT and EQUALISE the time of a cell carries the idle pattern (R179). -/
def execDataPosition (lane : Nat) (s : State) : Res :=
  .next <| match s.lane? lane with
  | some l =>
    if l.idling then
      { s with pins := { s.pins with zlTxd := s.pins.zlTxd.filter (· != lane) } }.emit (.idlePattern lane)
    else if l.sending && l.txPos < 63 then
      let (c, l') := if l.trained then l.dataCell l.plan.use.isBelay s.cfg.shareCount s.now
        else l.trainCell s.now (openingTime (s.isLower l) s.now)
      (s.onLane lane fun _ => { l' with txPos := l.txPos + 1 }).emit (.cell lane (lineCell l.txPitch (l.txPos + 1) c))
    else s
  | none => s

/-- The streams of a failed lane as the partner takes them: messages above the reported MID are sent again, whole. -/
def resendAbove (mids : List (BitVec 32)) (t : TxStream) : TxStream :=
  let i := if t.vc == 1 then 0 else if t.vc == 3 then 1 else 2 + t.share
  let m := nth mids i 0
  let again := (t.kept.map (·.2)).filter fun k => (k.mid - (m + 1)).toNat < 2 ^ 31
  { t with group := none, queue := (again ++ t.queue).map fun q => { q with sent := 0 } }

/-- Messages join a stream that the partner already has: they are numbered after its own. -/
def TxStream.join (u t : TxStream) : TxStream :=
  let add := t.queue.zipIdx.map fun q =>
    let mid := u.nextMid + BitVec.ofNat 32 q.2
    { q.1 with mid := mid, bytes := le 4 mid.toNat ++ q.1.bytes.drop 4 }
  { u with nextMid := u.nextMid + BitVec.ofNat 32 add.length, queue := u.queue ++ add }

/-- A stream is put on a lane, beside the streams that it has. -/
def Lane.takeStream (p : Lane) (t : TxStream) : Lane :=
  match p.txs.find? fun u => u.vc == t.vc && u.share == t.share with
  | some u => { p with txs := putBack (fun u => u.vc == t.vc && u.share == t.share) (u.join t) p.txs }
  | none => { p with txs := p.txs ++ [t] }

/-- Every stream of a failed lane moves to its partner, with what it receives (R183). A lane that still stands UP at this
end, one that is to be re-tuned, stands by, and stays so (R182). -/
def moveStreams (lane failed : Nat) (mids : List (BitVec 32)) (s : State) : State :=
  match s.lane? failed with
  | none => s
  | some f =>
    let newRx := fun p : Lane => (f.rxs.map fun r => ({ r with part := none } : RxStream)).filter fun t =>
      !p.rxs.any fun u => u.vc == t.vc && u.share == t.share
    let own := fun p : Lane => { p.plan with
      use := if p.plan.use == .spare then f.plan.use else p.plan.use, active := true }
    let move := fun p : Lane => ({ (f.txs.map (resendAbove mids)).foldl Lane.takeStream p with
      st := .up
      active := true
      partner := false
      spareSent := none
      spareGot := none
      rxs := p.rxs ++ newRx p
      plan := { (if p.plan.use == .spare || !p.plan.active then own p else p.plan) with
        pinned := p.plan.pinned ++ f.plan.pinned } } : Lane).bump 13
    let leave := fun f : Lane => ({ f with
      partner := true
      active := false
      st := if f.st == .up then .standby else f.st
      plan := { f.plan with
        active := f.plan.active && f.st != .up && (f.plan.use.isBelay || f.plan.use.isFabric)
        pinned := [] }
      txs := []
      rxs := [] } : Lane).bump 13
    (s.onLane lane move).onLane failed leave

/-- The move of R183 is due at a new pitch of the partner: SPARE_SWITCH has been received, and this end's own has left. A
lane that was to be re-tuned then is (R182). -/
def spareMove (lane : Nat) (s : State) : State :=
  match s.lane? lane with
  | some p => match p.spareGot, p.spareSent with
    | some (f, mids), some g =>
      if f == g && !(p.ctl ++ p.ctlWait).any (fun m => fld m 0 1 == 0x11) then
        let s1 := moveStreams lane f mids s
        if s1.age.retuning == some f then startRetune f s1 else s1
      else s
    | _, _ => s
  | none => s

/-- A control cell, after the 63 data positions of the pitch before it (R162); on a belay lane it repeats side A's decisions
until their echo (07 R208). -/
def execControlCellSend (lane : Nat) (s : State) : Res :=
  .next <|
  let s := spareMove lane s
  match s.lane? lane with
  | some l =>
    if l.sending && l.txPos == 63 then
      let repeats := if l.plan.use.isBelay && l.trained then belayRepeats s else []
      let l0 := repeats.foldl (fun l m =>
        if l.placed + m.length ≤ 144 then { l with ctl := l.ctl ++ [m], placed := l.placed + m.length } else l) l
      let (c, l') := l0.controlCell s.tim.state (s.tim.source == .lane lane)
      let s1 := s.onLane lane fun _ => l'
      { s1 with pins := { s1.pins with zlTxd := s1.pins.zlTxd.filter (· != lane) ++ [lane] } }.emit
        (.cell lane (lineCell l'.txPitch 0 c))
    else s
  | none => s

def timeStateOf (n : Nat) : Option TimeState :=
  match n with
  | 0 => some .free
  | 1 => some .acquire
  | 2 => some .locked
  | 3 => some .suspect
  | 4 => some .holdover
  | _ => none

/-- A STAMP (R174) as a full time: its seconds are modulo 2^32, those nearest to the local time. -/
def stampTicks (now : Ticks) (b : Bytes) : Ticks :=
  let local_ := now / secT
  let sec := local_ / 2 ^ 32 * 2 ^ 32 + fld b 0 4
  let near := if local_ + 2 ^ 31 < sec ∧ 2 ^ 32 ≤ sec then sec - 2 ^ 32 else if sec + 2 ^ 31 ≤ local_ then sec + 2 ^ 32 else sec
  near * secT + fld b 4 4 * 2 ^ 32 + fld b 8 4

/-- The time area of a verified control cell (R174): the far end's state, and RESP for the open exchange. REQ and
FOLLOW wait in the inbox for their rows. -/
def takeTimeArea (lane : Nat) (area : Bytes) (t4 : Ticks) (s : State) : State :=
  let s1 := s.onLane lane fun l =>
    let l := { l with farState := timeStateOf (fld area 2 1 % 8), farFollows := bit (fld area 2 1) 3 }
    if fld area 0 1 == 2 then
      match l.exch with
      | some e =>
        if e.eseq.toNat == fld area 1 1 then
          { l with exch := some { e with t2t4 := some (stampTicks s.now (slice area 4 12), t4) } }
        else l.dropExchange
      | none => l
    else l
  if fld area 0 1 == 1 || fld area 0 1 == 3 then
    { s1 with inbox := s1.inbox ++ [{ lane := lane, vc := 4, ctx := 0, bytes := area }] }
  else s1

/-- Credits, time area and messages of a control cell (R170, R171, R172); PITCH_RX counts one with a good tag (R185). -/
def takeControl (lane : Nat) (good : Bool) (body : Bytes) (pitch : BitVec 56) (t4 : Ticks) (s : State) : State :=
  let msgs := splitCtl 9 (slice body 80 144)
  let rets := [fld body 0 2, fld body 2 2, fld body 4 2] ++ (List.range 16).map fun i => fld body (8 + 2 * i) 2
  let gap := fun (l : Lane) => match msgs.head?, l.mseqRx with
    | some m, some q => (fld m 2 2 + 65536 - (q.toNat + 1)) % 65536
    | _, _ => 0
  let s1 := s.onLane lane fun l =>
    { l with
      rxPitch := some pitch
      misses := 0
      retUnits := rets.map (BitVec.ofNat 16)
      mseqRx := match msgs.getLast? with
        | some m => some (BitVec.ofNat 16 (fld m 2 2))
        | none => l.mseqRx
      ctr := modifyAt (modifyAt l.ctr 0 (· + BitVec.ofNat 64 (b2n good))) 7 (· + BitVec.ofNat 64 (gap l))
      freed := modifyAt l.freed 2 (· + BitVec.ofNat 16 (sumNat (msgs.map (·.length / 16)))) }
  let s2 := takeTimeArea lane (slice body 40 32) t4 s1
  { s2 with inbox := s2.inbox ++ msgs.map fun m => { lane := lane, vc := 0, ctx := 0, bytes := m } }

/-- A received control cell (R171): its marker ends a run of misses (R164); descrambled, verified under the key of its
pitch's generation, taken or discarded whole (R177). Before KEYED a clear one, without a tag, is taken as it is. -/
def execControlCellReceive (lane : Nat) (cell : Bytes) (stamp : Ticks) (latAdj : BitVec 8) (s : State) : Res :=
  .next <| match s.lane? lane with
  | some l =>
    let pitch := BitVec.ofNat 56 (fld cell 9 7)
    let c := lineCell pitch 0 cell
    let t4 := l.rxTime stamp latAdj
    let s0 := s.onLane lane fun l => { l with latAdj := latAdj, misses := 0 }
    let failed :=
      let s1 := s0.onLane lane fun l => l.tagFail 2 pitch
      match s1.lane? lane with
      | some l1 => if l1.tagRate then linkLost (laneDrop lane 4 s1) else s1
      | none => s1
    if !l.sending || fld c 0 8 != pitchMarker then s
    else
      match l.keys.isNone && slice c 240 16 == zeros 16, l.keysAt pitch with
      | true, _ => takeControl lane false (slice c 16 224) pitch t4 s0
      | false, some k =>
        let iv := k.sRx ++ be 8 (2 ^ 63 + pitch.toNat)
        let body := slice (Config.gcmCrypt k.kRx iv (slice c 16 224)) 0 224
        if Config.gcmTag k.kRx iv (slice c 0 16) body == slice c 240 16 then
          reselect (takeControl lane true body pitch t4 s0)
        else failed
      | false, none => failed
  | none => s

/-! ## Groups (R165 to R167, R177, R178) -/

/-- The 63-bit group counter nearest to the highest one seen (R166). -/
def nearestGroup (high gseq : Nat) : Nat :=
  let base := high / 2 ^ 24 * 2 ^ 24 + gseq
  if high + 2 ^ 23 < base ∧ 2 ^ 24 ≤ base then base - 2 ^ 24
  else if base + 2 ^ 23 < high then base + 2 ^ 24 else base

/-- The twin has no lane of its own to the leaf of a slot, as the leaf reported it: its records are relayed (R184). -/
def State.relaysFor (s : State) (slot : Nat) : Bool :=
  s.red.reports.contains (slot, 4, if s.cfg.side == .a then 1 else 0)

/-- A verified cell of a leaf's VC1 stream goes to the twin over belay, cut through as it arrives (R184): `part` is what has
come of its message. A record that had begun when the leaf reported the loss of the twin's lane is relayed from its start. -/
def relayCell (lane : Nat) (part pay : Bytes) (s : State) : State :=
  match s.bundleLane LaneUse.isBelay 0, s.lane? lane with
  | some n, some l => match l.plan.use with
    | .down slot => s.onLane n fun b =>
        if b.txs.any fun t => t.vc == 1 && t.queue.any (·.follows lane) then
          b.onCut lane fun m => { m with bytes := m.bytes ++ pay }
        else if s.relaysFor slot then b.openMsg 1 0 0 (s.genOf 0) (fld part 4 4) (part.drop 8) (some lane)
        else b
    | _ => s
  | _, _ => s

/-- A message that arrived in part is given up; so is its relay. -/
def unrelay (lane : Nat) (s : State) : State :=
  { s with lanes := mapIf (fun l => l.plan.use.isBelay) (fun l => l.dropCut lane) s.lanes }

/-- One verified cell of a stream: SOM opens a message, EOM closes and delivers it once (R167). -/
def takeCell (lane vc share : Nat) (hdr : Nat) (pay : Bytes) (s : State) : State :=
  match s.lane? lane with
  | none => s
  | some l =>
    let isMine := fun r : RxStream => r.vc == vc && r.share == share
    let r := (l.rxs.find? isMine).getD { vc := vc, share := share, lastMid := none, part := none }
    let part := if bit hdr 39 then some pay else r.part.map (· ++ pay)
    let s := if bit hdr 39 && vc == 1 && s.isTray then unrelay lane s else s
    let s := if vc == 1 && s.isTray && part.isSome then relayCell lane (part.getD []) pay s else s
    let put := fun r' : RxStream => s.onLane lane fun l => { l with rxs := putBack isMine r' l.rxs }
    match bit hdr 38, part with
    | true, some b =>
      let mid := BitVec.ofNat 32 (fld b 0 4)
      let whole := b.length == 8 + fld b 4 4
      let new := match r.lastMid with
        | some m => decide (m.toNat < mid.toNat)
        | none => true
      if whole && new then
        let s1 := put { r with lastMid := some mid, part := none }
        { s1 with inbox := s1.inbox ++ [{ lane := lane, vc := vc, ctx := share, bytes := b.drop 8 }] }
      else
        (put { r with part := none }).onLane lane fun l => if whole then l.bump 6 else l.bump 4
    | _, p => put { r with part := p }

/-- A leaf record that was discarded fails its check (R177), and is obtained again (01 R40). Its epoch is read from what
has come of it; where its header has not come it is the latest epoch (assumption 145). -/
def recordDiscarded (lane : Nat) (part : Bytes) (s : State) : State :=
  match s.lane? lane, s.cfg.role with
  | some l, .tray =>
    let known := 24 ≤ part.length
    let slot := match l.plan.use with
      | .down n => some n
      | _ => if known then s.leafSlot (recLeaf (part.drop 8)) else none
    match slot with
    | some n => if s.isTray && s.carrying then startRecovery 0 n (if known then recEpoch (part.drop 8) else s.curEpoch) s else s
    | none => s
  | _, _ => s

/-- The message in assembly on a stream is discarded with the messages that begin in these cells (R177, R178); each is
counted once. -/
def discard (lane vc share counter : Nat) (hdrs : List Nat) (s : State) : State :=
  match s.lane? lane with
  | none => s
  | some l =>
    let isMine := fun r : RxStream => r.vc == vc && r.share == share
    let part := (l.rxs.find? isMine).bind (·.part)
    let goesOn := part.isSome && !bit (hdrs.headD 0) 39
    let n := b2n goesOn + (hdrs.filter (bit · 39)).length
    let s1 := s.onLane lane fun l => { l with
      rxs := mapIf isMine (fun r => { r with part := none }) l.rxs
      ctr := modifyAt l.ctr counter (· + BitVec.ofNat 64 n) }
    if vc == 1 && 0 < n then recordDiscarded lane (if goesOn then part.getD [] else []) (unrelay lane s1) else s1

/-- The cells of a verified group in their order. A VC2 cell of another generation than the one held at its arrival takes
its whole message with it (R178). -/
def takeCells (lane vc share : Nat) : List RxCell → List Nat → List Bytes → State → State
  | c :: cs, h :: hs, p :: ps, s =>
    let held := vc != 2 || s.heldGenAt share c.arrived == some (BitVec.ofNat 16 (bits h 55 40))
    takeCells lane vc share cs hs ps (if held then takeCell lane vc share h p s else discard lane vc share 5 [h] s)
  | _, _, _, s => s

/-- The plaintext of a group, cut into its cells' payloads. -/
def cutPlain : List Nat → Bytes → List Bytes
  | [], _ => []
  | n :: ns, b => b.take n :: cutPlain ns (b.drop n)

/-- The headers of a group are in order (R165, R166): data cells of one stream and counter, GIDX from 0, GEND on the last
only, and lengths that fit. -/
def groupShape (hdrs : List Nat) : Bool :=
  let h0 := hdrs.headD 0
  let n := hdrs.length
  n ≤ 7 && (List.range n).all fun i =>
    let h := hdrs.getD i 0
    bits h 63 62 == 1 && bits h 61 60 == bits h0 61 60 && bits h 59 56 == bits h0 59 56 && bits h 27 25 == i
      && bits h 23 0 == bits h0 23 0 && bit h 37 == (i + 1 == n) && bits h 35 28 ≤ (if i + 1 == n then 232 else 248)

/-- A GCM group (R166) of a lane with keys: released only when its tag verifies under the key of its pitches' generation
(R176); a group that fails, or has no such key, is discarded with every message that has a cell in it (R177). -/
def execDataGroupReceive (lane : Nat) (cells : List RxCell) (s : State) : Res :=
  .next <| match s.lane? lane, cells with
  | some l, c0 :: _ =>
    match l.keys with
    | none => s
    | some _ =>
      let clear := cells.map fun c => lineCell c.pitch c.pos c.line
      let hdrs := clear.map fun b => fld b 0 8
      let lens := hdrs.map (bits · 35 28)
      let vc := bits (hdrs.headD 0) 61 60
      let share := bits (hdrs.headD 0) 59 56
      let gseq := nearestGroup l.rxGroup (bits (hdrs.headD 0) 23 0)
      let aad := clear.flatMap fun b => b.take 8
      let good := (l.keysAt c0.pitch).bind fun k =>
        let iv := k.sRx ++ be 8 gseq
        let plain := Config.gcmCrypt k.kRx iv ((clear.zip lens).flatMap fun x => slice x.1 8 x.2)
        if groupShape hdrs && Config.gcmTag k.kRx iv aad plain == slice (clear.getLastD []) 240 16 then some plain else none
      let s0 := s.onLane lane fun l => l.release (account vc share) cells.length
      match good with
      | some plain =>
        takeCells lane vc share cells hdrs (cutPlain lens plain) (s0.onLane lane fun l => { l with rxGroup := max l.rxGroup gseq })
      | none =>
        let s1 := discard lane vc share 4 hdrs (s0.onLane lane fun l => l.tagFail 3 c0.pitch)
        match s1.lane? lane with
        | some l1 => if l1.tagRate then linkLost (laneDrop lane 4 s1) else s1
        | none => s1
  | _, _ => s

/-! ## Training (R179 to R181) -/

def Lane.enter (l : Lane) (st : LaneState) (now : Ticks) : Lane := { l with st := st, since := now }

/-- Eight lanes of a tray block are in EQUALISE, as many as it equalises at a time (R179). -/
def State.equalisesFull (s : State) : Bool := s.isTray && 8 ≤ (s.lanes.filter fun l => l.st == .equalise).length

def execLaneDetect (lane : Nat) (s : State) : Res :=
  .next <| if s.equalisesFull then s else s.onLane lane fun l => if l.st == .detect then l.enter .equalise s.now else l

/-- The best preset: the one with the fewest errors in 10^15 bits; an error ratio below 10^-12 leaves EQUALISE. -/
def bestPreset (ps : List (BitVec 24 × Nat)) : Option (BitVec 24 × Nat) :=
  ps.foldl (fun b p => match b with
    | some q => if p.2 < q.2 then some p else some q
    | none => some p) none

/-- The steward tries presets in order and keeps the best, the earliest of equals; a re-tune tries the preset in force
first (R182). -/
def execEqualise (lane : Nat) (presets : List (BitVec 24 × Nat)) (s : State) : Res :=
  .next <| s.onLane lane fun l =>
    match l.st, bestPreset presets with
    | .equalise, some (e, errs) =>
      if l.cause == 10 && (presets.head?).map (·.1) != some l.eqSet then l
      else if errs < 1000 then { l with eqSet := e }.enter .align s.now else { l with eqSet := e }
    | _, _ => l

/-- Each pitch number is one higher than the one before (R164). -/
def consecutive : List (BitVec 56) → Bool
  | a :: b :: r => b == a + 1 && consecutive (b :: r)
  | _ => true

/-- Alignment after 8 markers (R164) at both ends moves a lane from ALIGN to HELLO, which sends this end's HELLO with a fresh
nonce. -/
def execPitchAlign (lane : Nat) (pitches : List (BitVec 56)) (seen : AlignSeen) (nonce : Bytes) (s : State) : Res :=
  .next <| match s.lane? lane with
  | some l =>
    if l.st == .align && 8 ≤ pitches.length && consecutive pitches && seen.far then
      let l' : Lane := { l.enter .hello s.now with bit := seen.bit, rxPitch := pitches.getLast?, misses := 0, ownNonce := nonce }
      (s.onLane lane fun _ => l').emit (.helloSent lane (s.ownHello l'))
    else s
  | none => s

/-- The lanes of an instance that reach this end in a use, by the far end's number (02 R67, R68): the far end's role, side,
id and lane against this end's own. -/
def helloFitsUse (s : State) (own : Nat) (u : LaneUse) (h : Hello) : Bool :=
  let mine := fun n : Nat => (s.cfg.side == .a) == (n % 2 == 0)
  match u with
  | .up x => h.profile == .tray && h.side == x && (match s.isLeaf, s.cfg.role with
      | true, _ => h.role == .tray && h.lane ≤ 47
      | false, .tray => h.role == .chassis && h.lane ≤ 63
      | false, _ => h.role == .summit && h.lane ≤ 63 && h.id == s.cfg.summitTeam)
  | .down n => (match s.cfg.role with
      | .tray => h.profile == .leaf && h.lane ≤ 1
      | .chassis => h.profile == .tray && h.role == .tray && 48 ≤ h.lane && h.lane ≤ 59 && mine h.lane
      | .summit => h.profile == .tray && h.role == .chassis && 64 ≤ h.lane && h.lane ≤ 67 && mine h.lane && h.id == n)
  | .peer t => h.profile == .tray && h.role == .summit && h.side == s.cfg.side && h.id == t
      && (if own == 67 then h.lane == 67 else h.lane + own == 130)
  | .belay _ => h.profile == .tray && h.role == s.cfg.role && h.side != s.cfg.side && h.id == s.cfg.team && h.lane == own
  | .fabric _ => h.profile == .tray && (if h.role == .tray then 68 ≤ h.lane && h.lane ≤ 75 else 76 ≤ h.lane && h.lane ≤ 79)
  | .spare => true

/-- A trained lane of the same slot or group shows the same instance or its twin (01 R25, R26): both lanes of a slot come
from the two members of one rope team, and all up lanes of a side from one member. -/
def helloAgrees (s : State) (own : Nat) (u : LaneUse) (h : Hello) : Bool :=
  s.lanes.all fun x => x.n == own || !x.trained || (match u, x.plan.use, x.peer with
    | .down a, .down b, some p => a != b || (p.id == h.id && p.side != h.side)
    | .up _, .up _, some p => p.id == h.id
    | _, _, _ => true)

/-- Does the far end fit this end's lane plan (R180, 02 R68, R69)? A spare lane reaches the instance of a lane that it
spares, on whichever lane the far end spares with. -/
def helloFits (s : State) (l : Lane) (h : Hello) : Bool :=
  match l.plan.use with
  | .spare =>
    let spares := s.lanes.filter fun x => x.plan.partners.contains l.n
    spares.isEmpty || spares.any fun x => match x.peer with
      | some p => p.profile == h.profile && p.role == h.role && p.side == h.side && p.id == h.id
      | none => h.profile == s.requiredProfile x.plan.use
  | u => helloFitsUse s l.n u h && helloAgrees s l.n u h

/-- A leaf id that is already attached on another slot (01 R23). -/
def leafIdTaken (s : State) (slot : Nat) (h : Hello) : Bool :=
  h.profile == .leaf && s.lanes.any fun l => match l.plan.use, l.peer with
    | .down n, some p => n != slot && p.profile == .leaf && p.id == h.id && (l.st == .auth || l.exchanging)
    | _, _ => false

/-- In bivouac, where a data lane is to stand by (21 R545), and a fabric lane whose combiner is retired (17 R449). -/
def State.standsBy (s : State) (l : Lane) : Bool :=
  (s.mode == .bivouac && !l.plan.use.isFabric) ||
  (s.unit? clsCombiner).any fun u => u.lost.any fun i => s.combinerLane i == some l.n

/-- The plan check is left out in bivouac while PLACE or LANES has not passed (21 R545). -/
def State.checksPlan (s : State) : Bool := s.mode != .bivouac || !s.cfg.lanes.isEmpty

/-- The minor revision in force: the lower of both (00 R9). -/
def minorOf (h : Hello) : BitVec 4 := BitVec.ofNat 4 (min 2 (h.proto.toNat % 16))

/-- HELLO (R180): protocol revision first (00 R9), then the plan (R69), then the leaf id (01 R23), whose refusal leaves CAUSE
7 (assumption 160). Twins of different revisions stay unpaired and report it (00 R10). -/
def execHello (lane : Nat) (h : Hello) (s : State) : Res :=
  .next <| match s.lane? lane with
  | some l =>
    if l.st != .hello then s
    else
      let seen := s.onLane lane fun l => { l with peerLane := BitVec.ofNat 8 h.lane, peerProto := h.proto }
      if h.proto >>> 4 != ownProto >>> 4 then seen.onLane lane fun l => l.toDetect 5 s.now
      else if s.checksPlan && !helloFits s l h then planMismatch (seen.onLane lane fun l => l.toDetect 7 s.now)
      else
        match l.plan.use with
        | .down n =>
          if leafIdTaken s n h then
            ((seen.onLane lane fun l => l.toDetect 7 s.now).setBit .rstState 19).errCount 25 1
          else seen.onLane lane fun l => { l.enter .auth s.now with peer := some h, minor := minorOf h }
        | .belay _ =>
          belayRevisions h (seen.onLane lane fun l =>
            { l.enter .auth s.now with peer := some h, minor := minorOf h })
        | _ => seen.onLane lane fun l => { l.enter .auth s.now with peer := some h, minor := minorOf h }
  | none => s

/-- A lane comes up: rotation 0 (R169). Its KEY_OFFER for the next generation waits for free space (R173, R176); the far
end's may have come before. -/
def Lane.comeUp (l : Lane) (now : Ticks) (lower standBy : Bool) (eph : Bytes) : Lane :=
  let up := l.plan.active && !standBy
  { l with
    st := if up then .up else .standby
    since := now
    overruns := 0
    active := up
    rot := 0
    retunePending := false
    offerOwn := some eph
    offerQ := [keyOfferMsg eph] }.deriveNext lower

/-- After 64 exchanges a KEYED lane enters UP or STANDBY (R179); fabric lanes that first come UP bring the window base
(20 R516), and belay lanes the twin (18). -/
def execKeyed (lane : Nat) (fabBase : Nat) (nextEphemeral : Bytes) (s : State) : Res :=
  .next <| match s.lane? lane with
  | some l =>
    if l.st == .keyed && 64 ≤ l.exchRun then
      let s1 := s.onLane lane fun l => l.comeUp s.now (s.isLower l)
        (s.standsBy l) nextEphemeral
      let s2 := if l.plan.use.isFabric && s1.fab.base.isNone then
          { s1 with fab := { s1.fab with base := some (fabBase / 2 ^ 41 * 2 ^ 41) } } else s1
      let s3 := linkCameUp lane l.plan.use s2
      if l.cause == 10 then retuneGo s3.age.retuneQ (s3.onLane lane fun l => l.bump 12) else s3
    else s
  | none => s

/-- The time each training state may take (R179). -/
def stateLimit : LaneState → Option Ticks
  | .detect => some (nsT 10000000)
  | .equalise => some (nsT 40000000)
  | .align => some (nsT 1000000)
  | .hello => some (nsT 1000000)
  | .auth => some (nsT 15000000)
  | .keyed => some (nsT 5000000)
  | _ => none

/-- A state that overruns its time returns the lane to DETECT (R179). A lane that waits in DETECT while eight others
equalise does not overrun (assumption 146). -/
def execTrainTimeout (lane : Nat) (s : State) : Res :=
  .next <| s.onLane lane fun l =>
    match stateLimit l.st with
    | some lim =>
      if l.since + lim < s.now && !(l.st == .detect && s.equalisesFull) then
        let l' := { l.toDetect 9 s.now with overruns := l.overruns + 1 }
        if 3 ≤ l'.overruns then l'.enter .failed s.now else l'
      else l
    | none => l

def execLaneFailedRetry (lane : Nat) (s : State) : Res :=
  .next <| s.onLane lane fun l =>
    if l.st == .failed && l.since + 10 * secT ≤ s.now then { l.enter .detect s.now with overruns := 0 } else l

def execLaneLeaveUp (lane : Nat) (cdr : Bool) (s : State) : Res :=
  .next (linkLost (laneDrop lane (if cdr then 2 else 1) s))

/-- Missing markers are counted; the third in a row loses alignment (R164, R181). -/
def execMarkerLost (lane : Nat) (misses : Nat) (s : State) : Res :=
  .next <|
    let s1 := s.onLane lane fun l =>
      { l with misses := l.misses + misses, ctr := modifyAt l.ctr 1 (· + BitVec.ofNat 64 misses) }
    match s1.lane? lane with
    | some l =>
      if 3 ≤ l.misses then
        if l.trained then linkLost (laneDrop lane 3 s1)
        else if l.sending then s1.onLane lane fun l => l.toDetect 3 s.now else s1
      else s1
    | none => s1

/-! ## Key generations (R176) and sparing (R183) -/

def execKeyOffer (lane : Nat) (key : Bytes) (s : State) : Res :=
  .next <| (s.onLane lane fun l =>
    if l.exchanging then { l with offerPeer := some (slice key 0 97) }.deriveNext (s.isLower l) else l).taken lane
    (ctlMsg 0x10 key)

def execKeyGeneration (lane : Nat) (nextEphemeral : Bytes) (s : State) : Res :=
  .next <| s.onLane lane fun l =>
    match l.keys, l.nextKeys with
    | some k, some k' =>
      if l.trained && (l.txPitch >>> 32).setWidth 32 == k.gen + 1 then
        { l with
          keys := some k'
          oldKeys := some k
          nextKeys := none
          offerOwn := some nextEphemeral
          offerPeer := none
          offerQ := [keyOfferMsg nextEphemeral] }.bump 14
      else l
    | _, _ => l

def execKeyTimeout (lane : Nat) (s : State) : Res :=
  .next <| match s.lane? lane with
  | some l =>
    let late := fun p : BitVec 56 => decide (2 ^ 32 - 2 ^ 20 ≤ (p.setWidth 32).toNat)
    if l.trained && l.nextKeys.isNone && (late l.txPitch || l.rxPitch.any late) then
      linkLost (laneDrop lane 8 s)
    else s
  | none => s

/-- This end's lane that the far end of a partner calls `failed` (assumption 174): the lane to the same instance whose far
end has that number. -/
def State.farLane (s : State) (p : Lane) (failed : Nat) : Option Lane :=
  let who := fun h : Hello => (h.profile, h.role, h.side, h.id)
  s.lanes.find? fun f => f.n != p.n && f.peerLane.toNat == failed && f.peer.map who == p.peer.map who

/-- SPARE_SWITCH on a partner (R183): an end that has not sent its own sends it, and both move every stream of the failed
lane from the first pitch after they have both sent and received it. -/
def execSpareSwitch (lane : Nat) (failed : Nat) (mids : List (BitVec 32)) (s : State) : Res :=
  .next <| match s.lane? lane, (s.lane? lane).bind (s.farLane · failed) with
  | some p, some f =>
    if !p.trained then s
    else
      (s.onLane lane fun p =>
        { (if p.spareSent == some f.n then p else p.place (spareSwitchMsg f.n f.midsDelivered)) with
          spareGot := some (f.n, mids), spareSent := some f.n }).taken lane (spareSwitchMsg failed mids)
  | _, _ => s

end Sys2Proof.Machine
end

