-- ==== Sys2Proof/Machine/OpsLeaf.lean ====
section
/-!
DEFINITION. The mailbox opcodes of a leaf (16 R434, R435): interval plans, counter reads, trace, watch, breakpoints and the
release of a stop.
-/

namespace Sys2Proof.Machine

/-! ## SAMPLE_SET (04 R121, R125, 14 R399) -/

/-- The selections of a SAMPLE_SET: stook, first index, count. -/
def sampleSel (p : Bytes) : List (Nat × Nat × Nat) :=
  (List.range (fld p 1 1)).map fun i => (fld p (4 + 4 * i) 1, fld p (5 + 4 * i) 1, fld p (6 + 4 * i) 1 + 1)

/-- Bytes of interval samples of a plan in an epoch (04 R125). -/
def sampleBytes (m : Nat) (sel : List (Nat × Nat × Nat)) : Nat := (2 ^ m - 1) * sumNat (sel.map fun x => 8 + 8 * x.2.2)

/-- The owner of a stook's unit. -/
def State.stookOwner (s : State) (st : Stook) : Nat := nth s.cap.owner st.unit 0

/-- The own checks of SAMPLE_SET; none where they pass. -/
def sampleCheck (ctx : Nat) (p : Bytes) (s : State) : Option Nat :=
  let m := fld p 0 1
  let n := fld p 1 1
  let sel := sampleSel p
  let inRange := fun x : Nat × Nat × Nat => (s.stook? x.1).any fun st => x.2.1 + x.2.2 ≤ st.obs.length
  let mine := fun x : Nat × Nat × Nat => (s.stook? x.1).any fun st => s.stookOwner st == ctx
  let entries := (List.range n).all fun i => fld p (7 + 4 * i) 1 == 0
  if 4 < m || 8 < n || !unnamedZero p [(0, 2), (4, 4 * n)] || !entries || !sel.all inRange then some stBAD_FIELD
  else if !sel.all mine then some stNOT_OWNER
  else if s.sampleShare < sampleBytes m sel then some stSHARE_EXCEEDED
  else if 1 < s.cfg.shareCount && 1 ≤ m && s.cfg.epochNs / 2 ^ m < 9795 then some stSAMPLE_TOO_DENSE
  else none

/-- SAMPLE_SET replaces the interval plan of its context from boundary b; M = 0 clears it (R435). -/
def execSampleSet (m : Nat) (s : State) : Res :=
  onLeaf "SAMPLE_SET" s <| onRunning m 0x0301 fun c s =>
    let ctx := mbxCtx m
    match sampleCheck ctx c.payload s with
    | some e => fail m c e s
    | none =>
      let d := fld c.payload 0 1
      let plan : IntPlan := { ctx := ctx, gen := s.genOf ctx, m := d, sel := sampleSel c.payload, taken := (0, 0) }
      bndDone m c true false (.sample ctx (if d = 0 then none else some plan)) [] [] s

/-! ## CNT_READ -/

/-- LAT_DELAY of the latest cut of a stook: from its CUT bank, else from the latest ring slot that holds its header. -/
def State.latestDelay (s : State) (st : Stook) : BitVec 16 :=
  match st.cut with
  | some (_, h, _) => (h >>> 112).setWidth 16
  | none =>
    match (s.cap.ring.flatMap fun r => (r.headers.filter (·.1 == st.s)).map fun h => (r.k, h.2)).foldl
        (fun (m : Option (Nat × BitVec 128)) x => match m with
          | some y => if y.1 ≤ x.1 then some x else some y
          | none => some x) none with
    | some x => (x.2 >>> 112).setWidth 16
    | none => Config.noCutDelay

/-- The stop time of a stopped region: of HOLD, or for an unannounced stop the lower bound of R106. -/
def Stook.stopTime (st : Stook) : Option Ticks :=
  match st.hold with
  | some (_, t) => some t.toTicks
  | none => if st.unannounced then st.lastEdge else none

/-- RESULT of CNT_READ (R435). -/
def State.cntResult (s : State) (st : Stook) (i : Nat) : Bytes :=
  let stop := match st.stopTime with
    | some t => timeBytes t
    | none => zeros 16
  le 8 (nth st.obs i 0 - nth st.base i 0).toNat ++ le 6 (nth st.host i 0).toNat ++ zeros 2 ++ stop
    ++ le 2 (s.latestDelay st).toNat ++ le 6 st.regionCyc.toNat ++ timeBytes s.now

/-- CNT_READ reads a counter of the caller's unit. -/
def execCntRead (m : Nat) (s : State) : Res :=
  onLeaf "CNT_READ" s <| onRunning m 0x0302 fun c s =>
    let id := fld c.payload 0 2
    if !unnamedZero c.payload [(0, 2)] then fail m c stBAD_FIELD s
    else match s.stook? (id / 256) with
      | none => fail m c stBAD_FIELD s
      | some st =>
        if st.obs.length ≤ id % 256 then fail m c stBAD_FIELD s
        else if s.stookOwner st != mbxCtx m then fail m c stNOT_OWNER s
        else done m c (s.cntResult st (id % 256)) s

/-! ## Trace (08 R221) -/

def execTraceSet (m : Nat) (s : State) : Res :=
  onLeaf "TRACE_SET" s <| onRunning m 0x0401 fun c s =>
    let ctx := mbxCtx m
    let div := fld c.payload 32 2
    let cores := (List.range 256).filter fun i => bit (fld c.payload 0 32) i
    if !unnamedZero c.payload [(0, 34)] || 4096 < div then fail m c stBAD_FIELD s
    else if !cores.all (fun i => s.coreOwner i == ctx) then fail m c stNOT_OWNER s
    else done m c [] (s.onShareTrc ctx fun x => { x with pendingSet := some (if div = 0 then [] else cores, div) })

/-! ## Tensor watch (08 R228 to R231) -/

def execWatchFeedSet (m : Nat) (s : State) : Res :=
  onLeaf "WATCH_FEED_SET" s <| onRunning m 0x0402 fun c s =>
    let ctx := mbxCtx m
    let p := c.payload
    let base := fld p 0 8
    let f := fld p 8 2
    let dseq := fld p 16 8
    if !unnamedZero p [(0, 10), (16, 8)] then fail m c stBAD_FIELD s
    else if f = 0 then done m c [] (s.onWatch ctx fun w => { w with nextFeed := some (0, 0, 0) })
    else if !powerIn f 64 4096 || dseq = 0 || base % 64 != 0 then fail m c stBAD_FIELD s
    else if !s.inWindow ctx base (64 * f) then fail m c stWATCH_OUT_OF_WINDOW s
    else done m c [] (s.onWatch ctx fun w => { w with nextFeed := some (base, f, dseq) })

def execWatchSet (m : Nat) (s : State) : Res :=
  onLeaf "WATCH_SET" s <| onRunning m 0x0403 fun c s =>
    let p := c.payload
    let e : WatchEntry := { idx := fld p 0 1, tensor := BitVec.ofNat 32 (fld p 4 4), step0 := fld p 8 8
                            stride := fld p 16 8, count := fld p 24 2, off := fld p 28 4, dlen := fld p 32 4 }
    if !unnamedZero p [(0, 1), (4, 22), (28, 8)] || 64 / max 1 s.cfg.shareCount ≤ e.idx || e.count = 0
        || e.off % 64 != 0 || e.dlen % 64 != 0 then fail m c stBAD_FIELD s
    else done m c [] (s.onWatch (mbxCtx m) fun w => { w with
      entries := sortBy (·.idx) (putBack (·.idx == e.idx) e w.entries) })

def execWatchClear (m : Nat) (s : State) : Res :=
  onLeaf "WATCH_CLEAR" s <| onRunning m 0x0404 fun c s =>
    let mask := fld c.payload 0 8
    if !unnamedZero c.payload [(0, 8)] then fail m c stBAD_FIELD s
    else done m c [] (s.onWatch (mbxCtx m) fun w => { w with entries := w.entries.filter fun e => !bit mask e.idx })

/-! ## Breakpoints (08 R246) -/

/-- The core is queued, draining or waits for the acknowledgement of its abort. -/
def State.drainPending (s : State) (core : Nat) : Bool :=
  s.brk.queue.any (·.1 == core) || s.brk.drain.any (·.1 == core) || s.brk.abort.any (·.1 == core)

/-- The context that may resume a core: its owner, or context 0 alone where the context that it stopped in has ended. -/
def State.resumeOwner (s : State) (core : Nat) : Nat := if s.brk.orphans.contains core then 0 else s.coreOwner core

def execBrkResume (m : Nat) (s : State) : Res :=
  onLeaf "BRK_RESUME" s <| onRunning m 0x0405 fun c s =>
    let core := fld c.payload 0 1
    if !unnamedZero c.payload [(0, 1)] then fail m c stBAD_FIELD s
    else if s.drainPending core then fail m c stDRAIN_PENDING s
    else if s.resumeOwner core != mbxCtx m then fail m c stNOT_OWNER s
    else wait m c (.resume core) { s with brk := { s.brk with resumes := s.brk.resumes ++ [(core, mbxCtx m)] } }

/-! ## The release of a stop (08 R241, R434) -/

def execStopRelease (m : Nat) (s : State) : Res :=
  onLeaf "STOP_RELEASE" s <| onRunning m 0x0407 fun c s =>
    let t := ITime.ofBytes c.payload
    if !unnamedZero c.payload [(0, 16)] then fail m c stBAD_FIELD s
    else if t.malformed then fail m c stBAD_TIME s
    else done m c (le 1 (phaseCode s.stop.phase)) (nameRelease t.toTicks s)

end Sys2Proof.Machine
end

