-- ==== Sys2Proof/Machine/Recompute.lean ====
section
/-!
DEFINITION. Recompute (07 R214, R215): a tray block rebuilds a tray sheaf from the raw ring, starting at a usable
checkpoint, and answers requests for contributions.
-/

namespace Sys2Proof.Machine

/-- The boundary of an epoch: as it is held, or as any leaf record of that epoch gives it. -/
def State.replayBoundary (s : State) (k : Nat) : Option Boundary :=
  match s.boundary? k with
  | some b => some b
  | none => ((slotsOf s.red.changes 0).findSome? fun n => s.recordOf n k).map fun b =>
      { k := k, t := (ITime.ofBits (BitVec.ofNat 128 (fld b 16 16))).toTicks, epochNs := fld b 36 4, len := fld b 32 4, irregular := bit (fld b 40 4) 1 }

/-- The scratch state of a recompute: a context's tables as a checkpoint holds them with their hot rows, the twin's raw
records beside the own ones, and of its sheaves only those up to epoch k0. -/
def replayBase (ctx k0 : Nat) (c : Ckpt) (twinRaw : List Bytes) (s : State) : State :=
  let rows := fun t : Table => t.rows.map fun r =>
    match (c.tables.find? (·.1 == t.img.tableId)).bind fun x => x.2.find? (·.row == r.row) with
    | some x => { x with hot := r.hot }
    | none => r
  let tabs := (s.mem.tables.filter (·.ctx == ctx)).map fun t => { t with rows := rows t, rebuilding := true }
  let vers := fun h : HotRow => ((tabs.find? (·.img.tableId == h.table)).bind fun t => t.row? h.row).map (·.v)
  let lands := (twinRaw.filter recOk).filterMap fun b => (s.leafSlot (recLeaf b)).map fun n =>
    ({ slot := n, k := recEpoch b, raw := b, logged := true } : Landed)
  { s with
    mem := { s.mem with
      tables := tabs
      hot := s.mem.hot.map fun h => { h with vers := (vers h).toList, held := [] }
      jobs := s.mem.jobs.filter fun j => j.record.isSome && j.pub ≤ k0
      frozen := [] }
    red := { s.red with
      landing := s.red.landing ++ lands
      sheaves := s.red.sheaves.filter fun h => h.ctx == ctx && h.k ≤ k0 && h.sent } }

/-- Merge every present leaf's record of the open sheaf of epoch k, each with its predecessor (05 R143, R190). -/
def replayLeaves (ctx k : Nat) (h : Sheaf) (s : State) : State :=
  let slots := (expectedSlots s.red.changes ctx k).filter fun n => !absentAt s.red.changes ctx n k
  slots.foldl (fun s n => match s.recordOf n k with
    | some b =>
      let prev := s.recordOf n (k - 1)
      if recFirst b || prev.isSome then s.onSheaf h (mergeLeaf s n b prev) else s
    | none => s) s

/-- Update every row of the context's tables for an epoch (09 R261). -/
def replayRows (k : Nat) (s : State) : State :=
  s.mem.tables.foldl (fun s t => t.rows.foldl (fun s r => thresherUpdate clsThresher t.img.tableId r.row k { check := .pass, hbm := [] } s) s) s

/-- Frozen copies for the deep periods that begin at an epoch (11 R322). -/
def replayFreeze (ctx k : Nat) (s : State) : State :=
  let es := ((placeAt s.mem.places ctx k).map (·.entries)).getD []
  (es.filter (·.deep)).foldl (fun s e =>
    let rows := ((s.table? e.tableId).map (·.rows)).getD []
    let due := rows.filter fun r => deepDue e r.row k && r.v.epoch == k
    { s with mem := { s.mem with
      frozen := s.mem.frozen ++ due.map fun r => { model := e.modelId, row := r.row, ks := k, ver := r.v } } }) s

/-- Score a row due with an epoch to its finished record (10 R292). -/
def replayScore (k : Nat) (x : PlaceEntry × Nat × Nat) (s : State) : State :=
  let (e, row, ks) := x
  let close := fun (j : ScoreJob) (m : Model) (s : State) =>
    let j1 := finishJob m j s
    countVerdict j1 (j1.record.getD []) (putJob j1 s)
  match s.model? e.modelId with
  | none => s
  | some h =>
    if !e.deep then match slotStart e.modelId row k .pass .good s with
      | some (j, s1) => close j h.m s1
      | none => s
    else match s.mem.frozen.find? fun f => f.model == e.modelId && f.row == row && f.ks == ks with
      | some f =>
        let ent := (((s.table? e.tableId).bind fun t => t.row? row).map (·.entity)).getD 0
        let st := firstStatus false h f.ver .good
        close ((newJob h.m (s.genOf h.m.ctx) e row ent ks k st f.ver).scoreTrees h.m (slotTrees h.m) .good).1 h.m s
      | none => s

/-- One epoch of a recompute: its sheaf, leaves, rows and scores, in the order of the epoch itself. -/
def replayEpoch (ctx k : Nat) (s : State) : State :=
  match s.replayBoundary k with
  | some b =>
    let p := (planAt s.red.plans ctx k).getD noPlan
    let first := s.ctxs.any fun c => c.id == ctx && c.firstEpoch == k
    let h := newSheaf .tray ctx (s.genOf ctx) b p first false
    let s0 := { s with red := { s.red with sheaves := s.red.sheaves ++ [h] } }
    let s1 := replayFreeze ctx k (replayRows k (replayLeaves ctx k h s0))
    let s2 := (s1.dueRows ctx k).foldl (fun s x => replayScore k x s) s1
    (refreshVerdicts ctx k s2).onSheaf h fun x => { x with sent := x.verdictsFinal && x.complete s.red.changes }
  | none => s

def replayFrom (ctx k0 : Nat) : Nat → State → State
  | 0, s => s
  | n + 1, s => replayEpoch ctx (k0 + n + 1) (replayFrom ctx k0 n s)

/-- A tray sheaf of an epoch recomputed from the raw ring (R215, R217), or none where an input lies before the ring: a
column that takes a field of the sheaf before needs that sheaf in the buffer. -/
def State.rebuildSheaf (s : State) (ctx k : Nat) (twinRaw : List Bytes) : Option Bytes :=
  let tabs := s.mem.tables.filter (·.ctx == ctx)
  let none_ : Ckpt := { k := k - 1, tables := [], leaves := [], blocks := [], manifest := [], poisoned := false }
  let c := if tabs.isEmpty then some none_
    else (s.raw.ckpts.filter fun c => c.usable && c.k < k).getLast?
  c.bind fun c =>
    let eps := (c.tables.filter fun t => tabs.any (·.img.tableId == t.1)).flatMap fun t => t.2.map (·.v.epoch)
    let k0 := eps.foldl min (k - 1)
    let old := tabs.any fun t => t.img.upds.any (·.srcKind == 0x0A)
    if old && !(s.red.sheaves.any fun h => h.ctx == ctx && h.k == k0 && h.sent) then none
    else
      let r := replayFrom ctx k0 (k - k0) (replayBase ctx k0 c twinRaw s)
      (r.red.sheaves.find? fun h => h.ctx == ctx && h.k == k && h.sent).map fun h =>
        h.build s.red.changes s.red.leafExp (s.scopeOf h.level) ++ h.summary

/-! ## Requests for contributions (R214) -/

/-- A leaf record as a resend: flag RESEND (05 R136), with its check formed again. -/
def markResend (b : Bytes) : Bytes :=
  let body := b.take (b.length - 4)
  sealCrc (body.take 40 ++ le 4 (fld b 40 4 ||| 2 ^ 6) ++ body.drop 44)

/-- The request to the twin for records of its raw ring, over belay on VC3 (06 R168, assumption 148). -/
def rawFetchMsg (k ctx : Nat) : Bytes := Config.ctlPayload 0x8A [k, ctx]

/-- The twin's received copy of a contribution (R215): at TRAY role the landing area or raw ring, above it the child's
sheaf; at SUMMIT role a rope team of another shard names a shard partial (01 R27). -/
def State.twinCopy (s : State) (subj ctx k : Nat) : Option Bytes :=
  match s.cfg.role with
  | .tray => (s.leafSlot subj).bind fun n => (s.recordOf n k).map markResend
  | .chassis => ((s.red.changes.find? fun c => c.e.subject == subj && c.slot < belowSlot).map (·.slot)).bind fun n =>
      s.contribution? ctx n k
  | .summit =>
    if subj % 4 != s.cfg.team % 4 then s.contribution? ctx (1000 + subj) k
    else ((s.red.changes.find? fun c => c.e.subject == subj && c.slot < 1000).map (·.slot)).bind fun n => s.contribution? ctx n k

/-- A tray block answers its twin with the contribution, passes a request for a leaf's ring on to the leaf, and answers a
parent from its sheaf buffer or, at TRAY role, by recompute: from its own raw ring, else with the records that its twin's
holds. -/
def trayResend (lane k subj ctx what : Nat) (twinRaw : List Bytes) (s : State) : State :=
  match what with
  | 1 =>
    match s.leafSlot subj with
    | some slot => s.sendCtlAll (s.slotLanes slot) (resendReqMsg k subj ctx 1)
    | none => s
  | 4 =>
    let s := if s.cfg.role == .tray then (s.leafSlot subj).elim s (s.noteDecode k) else s
    match s.twinCopy subj ctx k with
    | some b => if s.cfg.role == .tray then s.sendMsg lane 1 0 0 (s.genOf 0) b else s.sendMsg lane 2 ctx ctx (s.genOf ctx) b
    | none => s
  | _ =>
    match s.red.sheaves.find? fun h => h.ctx == ctx && h.k == k && h.sent with
    | some h => s.sendMsg lane 2 ctx ctx h.gen (h.bytes ++ h.summary)
    | none =>
      if s.cfg.role != .tray then s
      else
      let s := (expectedSlots s.red.changes ctx k).foldl (fun s n => (s.noteDecode k n).noteDecode (k - 1) n) (noteCkpt s)
      match s.rebuildSheaf ctx k [] with
        | some b => s.sendMsg lane 2 ctx ctx (s.genOf ctx) b
        | none =>
          let s1 := sendTwin (rawFetchMsg k ctx) s
          match s.rebuildSheaf ctx k twinRaw with
          | some b => s1.sendMsg lane 2 ctx ctx (s.genOf ctx) b
          | none => s1

def execResendReq (lane : Nat) (x : ResendIn) (s : State) : Res :=
  let k := fld x.msg 4 8
  let w := fld x.msg 12 4
  .next <| whenClocked s fun s =>
    let s := s.taken lane x.msg
    match s.profile with
    | .leaf => if bits w 27 24 == 1 then leafResend lane k s else s
    | .tray => trayResend lane k (w % 2 ^ 17) (bits w 23 20) (bits w 27 24) x.twinRaw s

end Sys2Proof.Machine
end

