-- ==== Sys2Proof/Machine/Dispatch.lean ====
section
/-!
DEFINITION. The command's effect on everything but the queue: one arm per row of the table.
-/

namespace Sys2Proof.Machine

def exec (i : Instr) (s : State) : Host.Outcome State Fault Refusal :=
  match i with
  | .powerOnReset a0 a1 => Sys2Proof.Machine.execPowerOnReset a0 a1 s
  | .rstBlkN a0 a1 => Sys2Proof.Machine.execRstBlkN a0 a1 s
  | .pllLock => Sys2Proof.Machine.execPllLock s
  | .romRecoveryDatagram a0 a1 a2 a3 => Sys2Proof.Machine.execRomRecoveryDatagram a0 a1 a2 a3 s
  | .bootDescriptorPoll a0 a1 => Sys2Proof.Machine.execBootDescriptorPoll a0 a1 s
  | .clockTick a0 => Sys2Proof.Machine.execClockTick a0 s
  | .epochBoundary a0 => Sys2Proof.Machine.execEpochBoundary a0 s
  | .stookLatch a0 a1 a2 a3 => Sys2Proof.Machine.execStookLatch a0 a1 a2 a3 s
  | .stookLatchTimeout a0 => Sys2Proof.Machine.execStookLatchTimeout a0 s
  | .stookHoldLoad a0 a1 => Sys2Proof.Machine.execStookHoldLoad a0 a1 s
  | .stookHostReset a0 => Sys2Proof.Machine.execStookHostReset a0 s
  | .subBoundary a0 a1 => Sys2Proof.Machine.execSubBoundary a0 a1 s
  | .captureBusArbitration a0 => Sys2Proof.Machine.execCaptureBusArbitration a0 s
  | .trcToken => Sys2Proof.Machine.execTrcToken s
  | .leafCutRecordSend => Sys2Proof.Machine.execLeafCutRecordSend s
  | .timIncFracWrite a0 => Sys2Proof.Machine.execTimIncFracWrite a0 s
  | .timIncIntWrite a0 => Sys2Proof.Machine.execTimIncIntWrite a0 s
  | .timSet a0 => Sys2Proof.Machine.execTimSet a0 s
  | .timStep a0 => Sys2Proof.Machine.execTimStep a0 s
  | .timNowRead a0 => Sys2Proof.Machine.execTimNowRead a0 s
  | .evrOptRead a0 => Sys2Proof.Machine.execEvrOptRead a0 s
  | .timDupFail => Sys2Proof.Machine.execTimDupFail s
  | .timeExchangeOpen a0 a1 => Sys2Proof.Machine.execTimeExchangeOpen a0 a1 s
  | .timeReqReceive a0 a1 a2 => Sys2Proof.Machine.execTimeReqReceive a0 a1 a2 s
  | .timeFollowSend a0 a1 => Sys2Proof.Machine.execTimeFollowSend a0 a1 s
  | .timeExchangeComplete a0 a1 a2 => Sys2Proof.Machine.execTimeExchangeComplete a0 a1 a2 s
  | .ppsInEdge a0 => Sys2Proof.Machine.execPpsInEdge a0 s
  | .ppsOutPulse => Sys2Proof.Machine.execPpsOutPulse s
  | .slotSyncEdge a0 => Sys2Proof.Machine.execSlotSyncEdge a0 s
  | .slotPhaseWindow => Sys2Proof.Machine.execSlotPhaseWindow s
  | .ptpMessageReceive a0 => Sys2Proof.Machine.execPtpMessageReceive a0 s
  | .pitchAlign a0 a1 a2 a3 => Sys2Proof.Machine.execPitchAlign a0 a1 a2 a3 s
  | .markerLost a0 a1 => Sys2Proof.Machine.execMarkerLost a0 a1 s
  | .dataPosition a0 => Sys2Proof.Machine.execDataPosition a0 s
  | .controlCellSend a0 => Sys2Proof.Machine.execControlCellSend a0 s
  | .controlCellReceive a0 a1 a2 a3 => Sys2Proof.Machine.execControlCellReceive a0 a1 a2 a3 s
  | .dataGroupReceive a0 a1 => Sys2Proof.Machine.execDataGroupReceive a0 a1 s
  | .laneDetect a0 => Sys2Proof.Machine.execLaneDetect a0 s
  | .equalise a0 a1 => Sys2Proof.Machine.execEqualise a0 a1 s
  | .hello a0 a1 => Sys2Proof.Machine.execHello a0 a1 s
  | .auth a0 a1 => Sys2Proof.Machine.execAuth a0 a1 s
  | .keyed a0 a1 a2 => Sys2Proof.Machine.execKeyed a0 a1 a2 s
  | .trainTimeout a0 => Sys2Proof.Machine.execTrainTimeout a0 s
  | .laneFailedRetry a0 => Sys2Proof.Machine.execLaneFailedRetry a0 s
  | .laneLeaveUp a0 a1 => Sys2Proof.Machine.execLaneLeaveUp a0 a1 s
  | .keyOffer a0 a1 => Sys2Proof.Machine.execKeyOffer a0 a1 s
  | .keyGeneration a0 a1 => Sys2Proof.Machine.execKeyGeneration a0 a1 s
  | .keyTimeout a0 => Sys2Proof.Machine.execKeyTimeout a0 s
  | .spareSwitch a0 a1 a2 => Sys2Proof.Machine.execSpareSwitch a0 a1 a2 s
  | .grant a0 a1 => Sys2Proof.Machine.execGrant a0 a1 s
  | .arm a0 a1 => Sys2Proof.Machine.execArm a0 a1 s
  | .armAck a0 a1 a2 => Sys2Proof.Machine.execArmAck a0 a1 a2 s
  | .confirm a0 a1 => Sys2Proof.Machine.execConfirm a0 a1 s
  | .cancel a0 a1 => Sys2Proof.Machine.execCancel a0 a1 s
  | .decisionEcho a0 a1 => Sys2Proof.Machine.execDecisionEcho a0 a1 s
  | .holdNotice a0 a1 a2 => Sys2Proof.Machine.execHoldNotice a0 a1 a2 s
  | .resendReq a0 a1 => Sys2Proof.Machine.execResendReq a0 a1 s
  | .memberQuery a0 a1 a2 a3 => Sys2Proof.Machine.execMemberQuery a0 a1 a2 a3 s
  | .memberAnswer a0 a1 a2 a3 a4 => Sys2Proof.Machine.execMemberAnswer a0 a1 a2 a3 a4 s
  | .memberDecide a0 a1 a2 a3 => Sys2Proof.Machine.execMemberDecide a0 a1 a2 a3 s
  | .leafStatus a0 a1 => Sys2Proof.Machine.execLeafStatus a0 a1 s
  | .schedSync a0 a1 => Sys2Proof.Machine.execSchedSync a0 a1 s
  | .leafCutRecord a0 a1 a2 => Sys2Proof.Machine.execLeafCutRecord a0 a1 a2 s
  | .intervalRecord a0 a1 a2 => Sys2Proof.Machine.execIntervalRecord a0 a1 a2 s
  | .captureMessage a0 a1 => Sys2Proof.Machine.execCaptureMessage a0 a1 s
  | .ctxSetup a0 a1 => Sys2Proof.Machine.execCtxSetup a0 a1 s
  | .childSheaf a0 a1 a2 => Sys2Proof.Machine.execChildSheaf a0 a1 a2 s
  | .shardPartial a0 a1 => Sys2Proof.Machine.execShardPartial a0 a1 s
  | .contributionMerge a0 a1 a2 a3 => Sys2Proof.Machine.execContributionMerge a0 a1 a2 a3 s
  | .sheafPublish a0 a1 => Sys2Proof.Machine.execSheafPublish a0 a1 s
  | .publishFaddReturn a0 a1 a2 => Sys2Proof.Machine.execPublishFaddReturn a0 a1 a2 s
  | .memberWaitDeadline a0 a1 a2 => Sys2Proof.Machine.execMemberWaitDeadline a0 a1 a2 s
  | .memberQueryRetry a0 a1 a2 => Sys2Proof.Machine.execMemberQueryRetry a0 a1 a2 s
  | .resendRetry a0 a1 => Sys2Proof.Machine.execResendRetry a0 a1 s
  | .resendSourceTimeout a0 a1 => Sys2Proof.Machine.execResendSourceTimeout a0 a1 s
  | .rawRingLog a0 a1 a2 => Sys2Proof.Machine.execRawRingLog a0 a1 a2 s
  | .rawCopyPath a0 a1 => Sys2Proof.Machine.execRawCopyPath a0 a1 s
  | .checkpointWrite => Sys2Proof.Machine.execCheckpointWrite s
  | .armLevelDeadline a0 => Sys2Proof.Machine.execArmLevelDeadline a0 s
  | .armAckDeadline a0 => Sys2Proof.Machine.execArmAckDeadline a0 s
  | .armDecideBy a0 => Sys2Proof.Machine.execArmDecideBy a0 s
  | .thresherUpdate a0 a1 a2 a3 => Sys2Proof.Machine.execThresherUpdate a0 a1 a2 a3 s
  | .slotLate => Sys2Proof.Machine.execSlotLate s
  | .rowCopy a0 a1 => Sys2Proof.Machine.execRowCopy a0 a1 s
  | .hotRowInstall a0 a1 => Sys2Proof.Machine.execHotRowInstall a0 a1 s
  | .deepInstall a0 a1 => Sys2Proof.Machine.execDeepInstall a0 a1 s
  | .rowRepair a0 a1 a2 => Sys2Proof.Machine.execRowRepair a0 a1 a2 s
  | .patrolScrub a0 a1 => Sys2Proof.Machine.execPatrolScrub a0 a1 s
  | .sramScrub a0 a1 a2 => Sys2Proof.Machine.execSramScrub a0 a1 a2 s
  | .sramRowRepair a0 a1 a2 => Sys2Proof.Machine.execSramRowRepair a0 a1 a2 s
  | .hbmPpr a0 a1 a2 a3 => Sys2Proof.Machine.execHbmPpr a0 a1 a2 a3 s
  | .scoreStart a0 a1 a2 a3 a4 => Sys2Proof.Machine.execScoreStart a0 a1 a2 a3 a4 s
  | .scoreComplete a0 a1 a2 => Sys2Proof.Machine.execScoreComplete a0 a1 a2 s
  | .winLate => Sys2Proof.Machine.execWinLate s
  | .leafFeatureUpdate a0 a1 a2 a3 => Sys2Proof.Machine.execLeafFeatureUpdate a0 a1 a2 a3 s
  | .leafModelScore a0 a1 a2 a3 a4 => Sys2Proof.Machine.execLeafModelScore a0 a1 a2 a3 a4 s
  | .grantStep => Sys2Proof.Machine.execGrantStep s
  | .grantLate => Sys2Proof.Machine.execGrantLate s
  | .grantOffer a0 => Sys2Proof.Machine.execGrantOffer a0 s
  | .pgAck => Sys2Proof.Machine.execPgAck s
  | .grantNoAck => Sys2Proof.Machine.execGrantNoAck s
  | .grantStale => Sys2Proof.Machine.execGrantStale s
  | .loopPeriod a0 => Sys2Proof.Machine.execLoopPeriod a0 s
  | .loopMasterTakeover => Sys2Proof.Machine.execLoopMasterTakeover s
  | .v42Stb a0 a1 => Sys2Proof.Machine.execV42Stb a0 a1 s
  | .busSenseLost => Sys2Proof.Machine.execBusSenseLost s
  | .converterLimitWrite a0 a1 => Sys2Proof.Machine.execConverterLimitWrite a0 a1 s
  | .smbAlert => Sys2Proof.Machine.execSmbAlert s
  | .trcSampleSlot a0 => Sys2Proof.Machine.execTrcSampleSlot a0 s
  | .trcVld a0 a1 => Sys2Proof.Machine.execTrcVld a0 a1 s
  | .noResponse => Sys2Proof.Machine.execNoResponse s
  | .watchFeedPoll a0 => Sys2Proof.Machine.execWatchFeedPoll a0 s
  | .watchFeedRead a0 a1 => Sys2Proof.Machine.execWatchFeedRead a0 a1 s
  | .watchDumpRead a0 a1 => Sys2Proof.Machine.execWatchDumpRead a0 a1 s
  | .stopOutRise => Sys2Proof.Machine.execStopOutRise s
  | .stopDone => Sys2Proof.Machine.execStopDone s
  | .stopDoneWait => Sys2Proof.Machine.execStopDoneWait s
  | .scanSegment a0 a1 => Sys2Proof.Machine.execScanSegment a0 a1 s
  | .stopReleaseTime => Sys2Proof.Machine.execStopReleaseTime s
  | .autoReleased => Sys2Proof.Machine.execAutoReleased s
  | .brkVld a0 => Sys2Proof.Machine.execBrkVld a0 s
  | .drainWindow => Sys2Proof.Machine.execDrainWindow s
  | .drnDone => Sys2Proof.Machine.execDrnDone s
  | .drainWindowEnd => Sys2Proof.Machine.execDrainWindowEnd s
  | .drnPortFault => Sys2Proof.Machine.execDrnPortFault s
  | .contextDrainComplete a0 => Sys2Proof.Machine.execContextDrainComplete a0 s
  | .contextHardCap a0 => Sys2Proof.Machine.execContextHardCap a0 s
  | .tenantRecordRelease a0 a1 => Sys2Proof.Machine.execTenantRecordRelease a0 a1 s
  | .hangDetect a0 a1 => Sys2Proof.Machine.execHangDetect a0 a1 s
  | .unitReset a0 a1 => Sys2Proof.Machine.execUnitReset a0 a1 s
  | .stewardWatchdog a0 a1 a2 => Sys2Proof.Machine.execStewardWatchdog a0 a1 a2 s
  | .mailboxTurn a0 a1 a2 => Sys2Proof.Machine.execMailboxTurn a0 a1 a2 s
  | .teamRelayEcho a0 => Sys2Proof.Machine.execTeamRelayEcho a0 s
  | .leafImageLoad a0 => Sys2Proof.Machine.execLeafImageLoad a0 s
  | .statusPageWrite => Sys2Proof.Machine.execStatusPageWrite s
  | .mgmtDatagram a0 a1 => Sys2Proof.Machine.execMgmtDatagram a0 a1 s
  | .attachPhase a0 a1 a2 => Sys2Proof.Machine.execAttachPhase a0 a1 a2 s
  | .startWait => Sys2Proof.Machine.execStartWait s
  | .recorderPeriodEnd => Sys2Proof.Machine.execRecorderPeriodEnd s
  | .recordFlashWrite a0 => Sys2Proof.Machine.execRecordFlashWrite a0 s
  | .ageingPoint => Sys2Proof.Machine.execAgeingPoint s
  | .vmAck => Sys2Proof.Machine.execVmAck s
  | .vmNak => Sys2Proof.Machine.execVmNak s
  | .vmTimeout => Sys2Proof.Machine.execVmTimeout s
  | .urgentStep => Sys2Proof.Machine.execUrgentStep s
  | .svnRaise => Sys2Proof.Machine.execSvnRaise s
  | .hourMark => Sys2Proof.Machine.execHourMark s
  | .tallyOperation a0 a1 => Sys2Proof.Machine.execTallyOperation a0 a1 s
  | .tallyWriteback a0 => Sys2Proof.Machine.execTallyWriteback a0 s
  | .fabricStore a0 a1 => Sys2Proof.Machine.execFabricStore a0 a1 s
  | .regWindowRead a0 a1 => Sys2Proof.Machine.execRegWindowRead a0 a1 s
  | .regWindowWrite a0 a1 a2 => Sys2Proof.Machine.execRegWindowWrite a0 a1 a2 s
  | .sidebandAccess a0 a1 a2 => Sys2Proof.Machine.execSidebandAccess a0 a1 a2 s
  | .registerWrite a0 a1 a2 => Sys2Proof.Machine.execRegisterWrite a0 a1 a2 s
  | .winTransientCntRead a0 => Sys2Proof.Machine.execWinTransientCntRead a0 s
  | .errCntRead a0 a1 => Sys2Proof.Machine.execErrCntRead a0 a1 s
  | .mbxAttach a0 => Sys2Proof.Machine.execMbxAttach a0 s
  | .configStore a0 a1 => Sys2Proof.Machine.execConfigStore a0 a1 s
  | .configApply a0 a1 => Sys2Proof.Machine.execConfigApply a0 a1 s
  | .fwStore a0 a1 => Sys2Proof.Machine.execFwStore a0 a1 s
  | .fwActivate a0 a1 => Sys2Proof.Machine.execFwActivate a0 a1 s
  | .regRead a0 => Sys2Proof.Machine.execRegRead a0 s
  | .epochSet a0 => Sys2Proof.Machine.execEpochSet a0 s
  | .sampleSet a0 => Sys2Proof.Machine.execSampleSet a0 s
  | .cntRead a0 => Sys2Proof.Machine.execCntRead a0 s
  | .traceSet a0 => Sys2Proof.Machine.execTraceSet a0 s
  | .watchFeedSet a0 => Sys2Proof.Machine.execWatchFeedSet a0 s
  | .watchSet a0 => Sys2Proof.Machine.execWatchSet a0 s
  | .watchClear a0 => Sys2Proof.Machine.execWatchClear a0 s
  | .brkResume a0 => Sys2Proof.Machine.execBrkResume a0 s
  | .stopArm a0 => Sys2Proof.Machine.execStopArm a0 s
  | .stopRelease a0 => Sys2Proof.Machine.execStopRelease a0 s
  | .planLoad a0 => Sys2Proof.Machine.execPlanLoad a0 s
  | .planSet a0 => Sys2Proof.Machine.execPlanSet a0 s
  | .pubAreaSet a0 => Sys2Proof.Machine.execPubAreaSet a0 s
  | .ckptAreaSet a0 => Sys2Proof.Machine.execCkptAreaSet a0 s
  | .captAreaSet a0 => Sys2Proof.Machine.execCaptAreaSet a0 s
  | .tallySet a0 => Sys2Proof.Machine.execTallySet a0 s
  | .tallyClear a0 => Sys2Proof.Machine.execTallyClear a0 s
  | .tableLoad a0 a1 => Sys2Proof.Machine.execTableLoad a0 a1 s
  | .tableSeed a0 a1 => Sys2Proof.Machine.execTableSeed a0 a1 s
  | .tableDrop a0 => Sys2Proof.Machine.execTableDrop a0 s
  | .rowLoad a0 a1 => Sys2Proof.Machine.execRowLoad a0 a1 s
  | .modelLoad a0 a1 => Sys2Proof.Machine.execModelLoad a0 a1 s
  | .modelDrop a0 => Sys2Proof.Machine.execModelDrop a0 s
  | .placeLoad a0 a1 => Sys2Proof.Machine.execPlaceLoad a0 a1 s
  | .actLoad a0 => Sys2Proof.Machine.execActLoad a0 s
  | .grantPolicySet a0 => Sys2Proof.Machine.execGrantPolicySet a0 s
  | .loopSet a0 => Sys2Proof.Machine.execLoopSet a0 s
  | .ctxOpen a0 => Sys2Proof.Machine.execCtxOpen a0 s
  | .ctxClose a0 => Sys2Proof.Machine.execCtxClose a0 s
  | .ctxReset a0 => Sys2Proof.Machine.execCtxReset a0 s
  | .recordRead a0 => Sys2Proof.Machine.execRecordRead a0 s
  | .recordPeriodSet a0 => Sys2Proof.Machine.execRecordPeriodSet a0 s
  | .certRead a0 => Sys2Proof.Machine.execCertRead a0 s
  | .evidenceSign a0 => Sys2Proof.Machine.execEvidenceSign a0 s
  | .blockReset a0 => Sys2Proof.Machine.execBlockReset a0 s
  | .dumpTake a0 a1 => Sys2Proof.Machine.execDumpTake a0 a1 s
  | .twinDetach a0 => Sys2Proof.Machine.execTwinDetach a0 s
  | .twinAttach a0 => Sys2Proof.Machine.execTwinAttach a0 s
  | .stkClkEdge a0 a1 => Sys2Proof.Machine.execStkClkEdge a0 a1 s
  | .powerLoss => Sys2Proof.Machine.execPowerLoss s
  | .lowestWordRead a0 a1 => Sys2Proof.Machine.execLowestWordRead a0 a1 s
  | .optimeSecond => Sys2Proof.Machine.execOptimeSecond s
  | .ntpMessageReceive a0 => Sys2Proof.Machine.execNtpMessageReceive a0 s
  | .fabricFadd a0 a1 a2 => Sys2Proof.Machine.execFabricFadd a0 a1 a2 s
  | .sideBDecide a0 => Sys2Proof.Machine.execSideBDecide a0 s
  | .belayViewSend a0 => Sys2Proof.Machine.execBelayViewSend a0 s

end Sys2Proof.Machine
end

