-- ==== Sys2Proof/Safety.lean ====
section
/-!
DEFINITION. What the claims call a well-formed state: the shapes that every step keeps, whatever the command.
-/

namespace Sys2Proof

/-- The one profile that has a command (00 R2); none where both have it. -/
def Instr.profile? (c : Instr) : Option Profile :=
  match c with
  | .romRecoveryDatagram .. | .clockTick .. | .evrOptRead .. | .ppsInEdge .. | .ppsOutPulse | .slotSyncEdge ..
  | .slotPhaseWindow | .ptpMessageReceive .. | .armAck .. | .decisionEcho .. | .holdNotice .. | .memberQuery ..
  | .memberAnswer .. | .memberDecide .. | .leafStatus .. | .leafCutRecord .. | .intervalRecord ..
  | .captureMessage .. | .childSheaf .. | .shardPartial .. | .contributionMerge .. | .sheafPublish ..
  | .publishFaddReturn .. | .memberWaitDeadline .. | .memberQueryRetry .. | .resendRetry ..
  | .resendSourceTimeout .. | .rawRingLog .. | .rawCopyPath .. | .checkpointWrite | .armLevelDeadline ..
  | .armAckDeadline .. | .thresherUpdate .. | .slotLate | .rowCopy .. | .hotRowInstall .. | .deepInstall ..
  | .rowRepair .. | .patrolScrub .. | .hbmPpr .. | .scoreStart .. | .scoreComplete .. | .grantStep | .grantLate
  | .loopPeriod .. | .loopMasterTakeover | .v42Stb .. | .busSenseLost | .converterLimitWrite .. | .smbAlert
  | .teamRelayEcho .. | .mgmtDatagram .. | .attachPhase .. | .startWait | .recorderPeriodEnd | .recordFlashWrite ..
  | .tallyOperation .. | .tallyWriteback .. | .fabricStore .. | .regWindowRead .. | .regWindowWrite ..
  | .errCntRead .. | .mbxAttach .. | .configStore .. | .fwStore .. | .fwActivate .. | .epochSet .. | .stopArm ..
  | .planLoad .. | .planSet .. | .pubAreaSet .. | .ckptAreaSet .. | .captAreaSet .. | .tallySet .. | .tallyClear ..
  | .tableSeed .. | .actLoad .. | .grantPolicySet .. | .loopSet .. | .ctxOpen .. | .ctxClose .. | .recordRead ..
  | .recordPeriodSet .. | .twinDetach .. | .twinAttach .. | .optimeSecond | .ntpMessageReceive .. | .fabricFadd ..
  | .sideBDecide .. | .belayViewSend .. => some .tray
  | .bootDescriptorPoll .. | .stookLatch .. | .stookLatchTimeout .. | .stookHoldLoad .. | .stookHostReset ..
  | .subBoundary .. | .captureBusArbitration .. | .trcToken | .leafCutRecordSend | .grant .. | .leafFeatureUpdate ..
  | .leafModelScore .. | .grantOffer .. | .pgAck | .grantNoAck | .grantStale | .trcSampleSlot .. | .trcVld ..
  | .noResponse | .watchFeedPoll .. | .watchFeedRead .. | .watchDumpRead .. | .stopOutRise | .stopDone
  | .stopDoneWait | .scanSegment .. | .stopReleaseTime | .autoReleased | .brkVld .. | .drainWindow | .drnDone
  | .drainWindowEnd | .drnPortFault | .tenantRecordRelease .. | .hourMark | .sidebandAccess .. | .sampleSet ..
  | .cntRead .. | .traceSet .. | .watchFeedSet .. | .watchSet .. | .watchClear .. | .brkResume .. | .stopRelease ..
  | .stkClkEdge .. => some .leaf
  | .powerOnReset .. | .rstBlkN .. | .pllLock | .epochBoundary .. | .timIncFracWrite .. | .timIncIntWrite ..
  | .timSet .. | .timStep .. | .timNowRead .. | .timDupFail | .timeExchangeOpen .. | .timeReqReceive ..
  | .timeFollowSend .. | .timeExchangeComplete .. | .pitchAlign .. | .markerLost .. | .dataPosition ..
  | .controlCellSend .. | .controlCellReceive .. | .dataGroupReceive .. | .laneDetect .. | .equalise .. | .hello ..
  | .auth .. | .keyed .. | .trainTimeout .. | .laneFailedRetry .. | .laneLeaveUp .. | .keyOffer ..
  | .keyGeneration .. | .keyTimeout .. | .spareSwitch .. | .arm .. | .confirm .. | .cancel .. | .resendReq ..
  | .schedSync .. | .ctxSetup .. | .armDecideBy .. | .sramScrub .. | .sramRowRepair .. | .winLate
  | .contextDrainComplete .. | .contextHardCap .. | .hangDetect .. | .unitReset .. | .stewardWatchdog ..
  | .mailboxTurn .. | .leafImageLoad .. | .statusPageWrite | .ageingPoint | .vmAck | .vmNak | .vmTimeout
  | .urgentStep | .svnRaise | .registerWrite .. | .winTransientCntRead .. | .configApply .. | .regRead ..
  | .tableLoad .. | .tableDrop .. | .rowLoad .. | .modelLoad .. | .modelDrop .. | .placeLoad .. | .ctxReset ..
  | .certRead .. | .evidenceSign .. | .blockReset .. | .dumpTake .. | .powerLoss | .lowestWordRead .. => none

end Sys2Proof

namespace Sys2Proof.Machine

/-- RST_CAUSE has exactly one of bits 31:25 set and reads 0 in bits 24:16 (18 R489). -/
def causeOk (w : BitVec 32) : Prop :=
  w.toNat / 2 ^ 25 ∈ [1, 2, 4, 8, 16, 32, 64] ∧ w.toNat / 2 ^ 16 % 2 ^ 9 = 0

/-- The invariant of the block: the bytes that software stored over the fabric port are in canonical form, and RST_CAUSE
names exactly one cause. -/
def BlockInv (s : State) : Prop := Memory.wf s.mem.hbm = true ∧ causeOk s.boot.cause

/-- Only the lane of that number differs between two states, and it is l in the second. -/
def onlyLane (n : Nat) (l : Lane) (s t : State) : Prop :=
  t = { s with lanes := t.lanes } ∧ t.lane? n = some l ∧ ∀ m, m ≠ n → t.lane? m = s.lane? m

/-- Mailbox n runs the command c, whose opcode is op. -/
def State.runs (s : State) (n op : Nat) (c : Cmd) : Prop := ∃ m, s.mbx? n = some m ∧ m.running = some c ∧ c.op = op

/-- The combiner that performs a fabric operation is in service, and its checks pass (17 R443). -/
def State.passes (s : State) (src : FabSource) : Prop :=
  s.unitGone clsCombiner src.check.unit = false ∧ src.check.permanent = false ∧ src.check.transients = 0

/-- The command c of mailbox n has stopped running and waits, with this result. -/
def waits (n : Nat) (c : Cmd) (w : Wait) (r : Bytes) (s u : State) : Prop :=
  ∃ x y, s.mbx? n = some x ∧ u.mbx? n = some y ∧ y.running = none ∧
    y.waiting = x.waiting ++ [{ c with state := 2, wait := w, result := r }]

/-- A boundary command of a tray block without a twin: it waits for the boundary that it was named when it was accepted (a
new one if that has come), at which a takes effect; its result names it, and nothing else changes. -/
def queuedAt (n : Nat) (c : Cmd) (a : Bnd) (rest : Bytes) (s u : State) : Prop :=
  let b := s.namedBoundary c true
  waits n c (.boundary b) (le 8 b ++ rest) s u ∧ u.stw.bnd = s.stw.bnd ++ [⟨b, a, true, c.turn⟩] ∧
    u = { s with stw := { s.stw with mbxs := u.stw.mbxs, bnd := u.stw.bnd }, lanes := u.lanes, out := u.out }

/-- A change of this kind for epoch k is armed, and the command c of mailbox n waits for it. -/
def armedFor (n : Nat) (c : Cmd) (kind k : Nat) (s u : State) : Prop :=
  ∃ id a x y, a ∈ u.red.arms ∧ a.id = id ∧ a.kind = kind ∧ a.epochT = k ∧ u.red.armSeq = s.red.armSeq + 1 ∧
    s.mbx? n = some x ∧ u.mbx? n = some y ∧ y.running = none ∧
    ∃ d, y.waiting = x.waiting ++ [d] ∧ d.slot = c.slot ∧ d.tag = c.tag ∧ d.state = 2 ∧ d.wait = .armed id

/-- The running command c of mailbox n of a tray block without a twin brings the one whole part of an image, which passes
the checks of a part; its bytes are img. -/
def wholeImage (s : State) (n op named : Nat) (c : Cmd) (img : Bytes) : Prop :=
  let p := readPart c.payload
  s.runsAs .tray = true ∧ s.relays = false ∧ s.runs n op c ∧ partCheck n op named c.payload s = none ∧ p.last = true ∧
    p.pos = 0 ∧ p.toLeaves = false ∧ s.rangeBad (s.loadAddr n p.src) p.len = false ∧
    img = s.getBytes (s.loadAddr n p.src) p.len

end Sys2Proof.Machine
end

