-- ==== Sys2Proof/Certificates/Slice0/Obligations.lean ====
section
/-!
DEFINITION. The statements for the provers: what the commands of the block do, from the numbered rules of the spec.
-/

open Sys2Proof Sys2Proof.Machine

/-- For every command c and state s, the step of s with c at the front of its queue is exec of c on s with the queue's
rest (the queue is the model's, log entry 3). (00_scope.md, The block and its surroundings) -/
def Obligations.StepRunsFrontCommand : Prop :=
  ∀ (c : Instr) (cs : List Instr) (s : State), step { s with pending := c :: cs } = exec c { s with pending := cs }

/-- With an empty queue a step of a clocked block moves the time counter by one CK_E edge, and OPTIME at every
100,000,000th; it ends the SB_ACK pulse of an earlier CK_S cycle, raises PPS_OUT as Ikielm time crosses a TAI second
and drops it after 100 us, and leaves the queue, contexts, schedule, memory and mode as they are, and the lanes unless
the counter is set or stepped, which moves the times that they hold with it. Without clocks only the cycle moves, and
without power nothing. That the idle step is an edge is the model's choice (log entry 3). (03_clocks_and_time.md, The
time counter, 19_event_recorder_and_identity.md, Operating time and power cycles) -/
def Obligations.IdleStepIsClockEdge : Prop :=
  ∀ s : State, s.pending = [] →
    (s.clocked = true → ∃ t, step s = .next t ∧ t.tim = s.tim.edge ∧ t.edges = s.edges + 1 ∧ t.pending = [] ∧
      (∀ e, s.sb.ackAt = some e → e / 16 < (s.edges + 1) / 16 → t.pins.sbAck = false ∧ t.pins.sbErr = false) ∧
      (s.profile = .tray → t.pins.ppsOut =
        ((s.pins.ppsOut || s.tim.now.sec != s.tim.edge.now.sec) && t.now % secT < nsT 100000)) ∧
      t.mode = s.mode ∧ t.sched = s.sched ∧ t.ctxs = s.ctxs ∧ t.mem = s.mem ∧ t.boot = s.boot ∧
      (s.tim.setPend = none → s.tim.stepPend = none → t.lanes = s.lanes) ∧
      (s.tim.edge.cycle % 100000000 ≠ 0 → t.optime = s.optime) ∧
      (s.tim.edge.cycle % 100000000 = 0 → t.optime = (s.optime + 1) % 2 ^ 48)) ∧
    (s.clocked = false → s.mode ≠ .off → ∃ t, step s = .next t ∧ t.edges = s.edges + 1 ∧ t.tim = s.tim ∧
      t.optime = s.optime ∧ t.lanes = s.lanes ∧ t.mem = s.mem ∧ t.boot = s.boot ∧ t.mode = s.mode ∧ t.pending = []) ∧
    (s.mode = .off → step s = .next s)

/-- State.reset meets BlockInv: nothing is stored in memory, and RST_CAUSE names a power-on reset alone.
(18_reset_fencing_recovery.md, Registers, 20_register_map.md, The map) -/
def Obligations.ResetStateMeetsInvariant : Prop :=
  BlockInv State.reset

/-- Whatever command stands at the front of the queue, and on the idle edge, a step from a state that meets BlockInv
leads to a state that meets BlockInv: the stored bytes stay in canonical form, and RST_CAUSE has exactly one of bits
31:25 set with bits 24:16 zero. (18_reset_fencing_recovery.md, Registers, 09_memory_and_thresher.md, Address space and
regions) -/
def Obligations.StepKeepsInvariant : Prop :=
  ∀ s s' : State, BlockInv s → step s = .next s' → BlockInv s'

/-- A command that both profiles have, or that the profile of the instance has, answers a next state in every state; a
command of the other profile is refused as absent. In the next state the profile is the one the RTL was built with and
the queue of waiting commands is unchanged. (00_scope.md, The block and its surroundings) -/
def Obligations.ExecKeepsQueueAndProfile : Prop :=
  (∀ (c : Instr) (s : State), (∀ p, c.profile? = some p → p = s.profile) →
    ∃ t, exec c s = .next t ∧ t.pending = s.pending ∧ t.profile = s.profile) ∧
  (∀ (c : Instr) (s : State) p, c.profile? = some p → p ≠ s.profile → ∃ n, exec c s = .refused (.absentInProfile n))

/-- A step whose command is not POWER_ON_RESET leaves the sampled straps as they are. (02_ports_and_integration.md,
Tray-block ports) -/
def Obligations.StrapsChangeOnlyAtPowerOn : Prop :=
  ∀ (c : Instr) (s t : State), (∀ st f, c ≠ .powerOnReset st f) → exec c s = .next t → t.straps = s.straps

/-- RST_CAUSE stands over every command but POWER_ON_RESET, POWER_LOSS, RST_BLK_N and STEWARD_WATCHDOG.
(18_reset_fencing_recovery.md, Block reset, 18_reset_fencing_recovery.md, Registers) -/
def Obligations.ResetCauseChangesOnlyAtReset : Prop :=
  ∀ (c : Instr) (s t : State), (∀ st f, c ≠ .powerOnReset st f) → c ≠ .powerLoss → (∀ k f, c ≠ .rstBlkN k f) →
    (∀ k x f, c ≠ .stewardWatchdog k x f) → exec c s = .next t → t.boot.cause = s.boot.cause

/-- Right after reset, at a tray block and at a leaf, every register of one word that has a stated reset value reads
it, every register of several words reads zero, and no latch is held. (20_register_map.md, The map) -/
def Obligations.ResetRegisterValues : Prop :=
  (let r := fun (p : Profile) (a : Nat) => (readReg .fabric a (State.atReset p noStraps)).1
   (∀ p : Profile, r p 0x004 = 0 ∧ r p 0x00C = 0 ∧ r p 0x010 = 0 ∧ r p 0x014 = 0 ∧ r p 0x100 = 0 ∧ r p 0x104 = 0x80000000 ∧
     r p 0x108 = 0 ∧ r p 0x10C = 1 ∧ r p 0x110 = 0 ∧ r p 0x200 = 0 ∧ r p 0x20C = 0 ∧ r p 0x210 = 0 ∧ r p 0x224 = 0 ∧
     r p 0x228 = 0xA0000000 ∧ r p 0x22C = 0 ∧ r p 0x230 = 0x00003F80 ∧ r p 0x400 = 0 ∧ r p 0x404 = 1 ∧ r p 0x408 = 0 ∧
     r p 0x500 = 0 ∧ r p 0x580 = 0 ∧ r p 0x600 = 0 ∧ r p 0x680 = 0 ∧ r p 0x804 = 0 ∧ r p 0x840 = 0x000008FF ∧
     r p 0x844 = 0x00FF0000 ∧ r p 0x848 = 0xFFFFFFFF ∧ r p 0xA00 = 0 ∧ r p 0x1000 = 0x00FF0000 ∧ r p 0x1004 = 0) ∧
   r .leaf 0x000 = 0x03012200 ∧ r .tray 0x000 = 0x03012201 ∧ r .leaf 0x300 = 0 ∧ r .leaf 0x304 = 0 ∧
   r .tray 0x234 = 0x80000000 ∧ r .tray 0x810 = 0x00200000 ∧ r .tray 0x814 = 0 ∧ r .tray 0x81C = 0 ∧ r .tray 0x820 = 0 ∧
   r .tray 0x824 = 0 ∧ r .tray 0x828 = 0 ∧ r .tray 0x830 = 0 ∧ r .tray 0x834 = 0 ∧ r .tray 0x900 = 0 ∧ r .tray 0x9FC = 0) ∧
  (∀ p : Profile, (State.atReset p noStraps).latches = []) ∧ State.reset = State.atReset .tray noStraps

/-- POWER_LOSS always completes: flash and OTP stand, HBM contents, the raw ring and all context state are lost, every
tenant id is FREE, the pins are at their reset values and the instance is off. PLL_LOCK at an instance whose RST_PWR_N
is deasserted shows PLL_LOCK and changes nothing else; without power it changes nothing.
(21_power_up_and_configuration.md, The power-up sequence, 02_ports_and_integration.md, Clocks and resets (both
profiles)) -/
def Obligations.PowerLossKeepsFlashAndOtp : Prop :=
  (∀ s : State, ∃ t, exec .powerLoss s = .next t ∧ t.mode = .off ∧ t.flash = s.flash ∧ t.otp = s.otp ∧
    t.pins = Pins.reset (safeDuty s.straps.safeValve.toNat) ∧ t.mem = MemSt.fresh ∧ t.raw = RawSt.fresh ∧
    t.ctxs = (List.range 16).map Ctx.fresh ∧ t.lanes = [] ∧ t.cap = CapSt.fresh ∧ t.red = RedSt.fresh ∧
    t.sticky = Sticky.clear ∧ t.latches = [] ∧ t.err.cnt = List.replicate 64 0 ∧ t.boot.cause = 0x80000000) ∧
  (∀ s : State, s.mode ≠ .off → s.mode ≠ .reset →
    exec .pllLock s = .next { s with pins := { s.pins with pllLock := true, ckROut := true } }) ∧
  (∀ s : State, s.mode = .off → exec .pllLock s = .next s)

/-- A power-on reset sets RST_CAUSE to 0x8000_0000. A block reset sets its own bit alone of bits 31:25 (30 pin, 29
command, 28 hang, 27 to 25 the steward) and counts RESET_COUNT up, saturating, with bits 24:16 zero. The register
reads at its address, writes to it are ignored, and after a power loss it holds its reset value. (R489) -/
def Obligations.ResetCauseNamesLatestReset : Prop :=
  (∀ s st f, ∃ t, exec (.powerOnReset st f) s = .next t ∧ t.boot.cause = 0x80000000) ∧
  (∀ (s : State) f, s.powered = true → s.justPowered = false → ∃ t, exec (.rstBlkN .pin f) s = .next t ∧
    t.boot.cause.toNat = 2 ^ 30 + min 0xFFFF (s.boot.cause.toNat % 2 ^ 16 + 1)) ∧
  (∀ (s : State) f d, s.powered = true → s.justPowered = false → s.stw.resetDue = some (.cmd, d) → d ≤ s.now →
    ∃ t, exec (.rstBlkN .cmd f) s = .next t ∧
      t.boot.cause.toNat = 2 ^ 29 + min 0xFFFF (s.boot.cause.toNat % 2 ^ 16 + 1)) ∧
  (∀ (s : State) f d, s.powered = true → s.justPowered = false → s.stw.resetDue = some (.hang, d) → d ≤ s.now →
    ∃ t, exec (.rstBlkN .hang f) s = .next t ∧
      t.boot.cause.toNat = 2 ^ 28 + min 0xFFFF (s.boot.cause.toNat % 2 ^ 16 + 1)) ∧
  (∀ (s : State) f, s.powered = true → s.justPowered = true → exec (.rstBlkN .pin f) s = .next s) ∧
  (∀ (s : State) x f, s.clocked = true → s.stewardSilent = true → ∃ t1 t2 t3,
    exec (.stewardWatchdog .silent x f) s = .next t1 ∧ exec (.stewardWatchdog (.disagrees false) x f) s = .next t2 ∧
    exec (.stewardWatchdog .lostWord x f) s = .next t3 ∧
    t1.boot.cause.toNat = 2 ^ 27 + min 0xFFFF (s.boot.cause.toNat % 2 ^ 16 + 1) ∧
    t2.boot.cause.toNat = 2 ^ 26 + min 0xFFFF (s.boot.cause.toNat % 2 ^ 16 + 1) ∧
    t3.boot.cause.toNat = 2 ^ 25 + min 0xFFFF (s.boot.cause.toNat % 2 ^ 16 + 1)) ∧
  (∀ (s : State) p v, (readReg p 0x104 s).1 = s.boot.cause ∧ hostWrite 0x104 v s = s) ∧
  State.reset.boot.cause = 0x80000000

/-- A power-on reset of a tray block samples the straps. With no activated firmware copy in flash it holds with STATE
reading RESET, every output at its reset value and no lane training; its ROM loader listens exactly when STRAP_BOOT is
0b01 with the management port. A leaf has no straps and waits for its boot descriptor. A start of the firmware draws a
boot value that is neither 0 nor the value that it replaces. (21_power_up_and_configuration.md, Boot sources,
02_ports_and_integration.md, Tray-block ports) -/
def Obligations.PowerOnWithoutFirmwareHolds : Prop :=
  (∀ s st f, s.profile = .tray → (∀ x ∈ s.flash.fw, x.act = none) → ∃ t, exec (.powerOnReset st f) s = .next t ∧
    t.straps = st ∧ t.mode = .held ∧ t.clocked = false ∧ t.pins = Pins.reset (safeDuty st.safeValve.toNat) ∧
    t.lanes = [] ∧ t.rstState.toNat / 2 ^ 29 = 0 ∧
    t.boot.rom = (if st.boot = 1 ∧ st.mgmtEn = true then some [] else none)) ∧
  (∀ s st f, s.profile = .leaf → ∃ t, exec (.powerOnReset st f) s = .next t ∧ t.straps = noStraps ∧ t.mode = .held ∧
    t.boot.desc = none ∧ t.lanes = [] ∧ t.cap = CapSt.fresh) ∧
  (∀ fw copy f s, (startFirmware fw copy f s).stw.boot ≠ 0 ∧ (startFirmware fw copy f s).stw.boot ≠ s.stw.boot)

/-- A pin reset of a leaf keeps RST_HANG, the dump buffer with its sequence number, the flash, the OTP repair log and
the regulator's margin sum, and clears everything else: tenants are FREE, counters, observer views, links, reduction
and status bits are at their reset values, and the leaf waits for its boot descriptor. (18_reset_fencing_recovery.md,
Block reset) -/
def Obligations.BlockResetKeepsItsList : Prop :=
  ∀ (s : State) f, s.profile = .leaf → s.powered = true → s.justPowered = false → ∃ t, exec (.rstBlkN .pin f) s = .next t ∧
    t.sticky = { Sticky.clear with rstHang := s.sticky.rstHang } ∧ t.dump.seq = s.dump.seq ∧ t.dump.entries = s.dump.entries ∧
    t.flash = s.flash ∧ t.age.vmApplied = s.age.vmApplied ∧ (s.udsSet = true → t.otp = s.otp) ∧ t.optime = s.optime ∧
    t.ctxs = (List.range 16).map Ctx.fresh ∧ t.cap = CapSt.fresh ∧ t.lanes = [] ∧ t.red = RedSt.fresh ∧
    t.err.cnt = List.replicate 64 0 ∧ t.latches = [] ∧ t.trc = TrcSt.fresh ∧ t.stop = StopSt.fresh ∧ t.brk = BrkSt.fresh ∧
    t.tim = TimeSt.fresh ∧ t.mode = .held ∧ t.boot.desc = none ∧ t.stw.boot = s.stw.boot

/-- A held tray block whose ROM loader listens stores a part of 64 to 1,024 bytes and echoes its 8-byte offset to the
sender; as long as the image is not whole nothing else changes. A held leaf that reads no valid descriptor waits on;
one that reads a descriptor with the right MAGIC and CRC keeps it; with a firmware image that fails it stays held,
with one that passes STW_BOOT is drawn anew. (21_power_up_and_configuration.md, Boot sources) -/
def Obligations.RomLoaderAndBootDescriptor : Prop :=
  (∀ (s : State) src off part f parts, s.profile = .tray → s.mode = .held → s.boot.rom = some parts →
    64 ≤ part.length → part.length ≤ 1024 → romWhole ((off.toNat, part) :: parts) = none →
    exec (.romRecoveryDatagram src off part f) s = .next { s with
      boot := { s.boot with rom := some ((off.toNat, part) :: parts) }
      out := s.out ++ [s.mgmtOut src (le 8 off.toNat)] }) ∧
  (∀ (s : State) host f d, s.profile = .leaf → s.mode = .held → s.boot.desc = none →
    (hostRead host (4096 * Config.leafBootPage) 64).bind readDesc = some d →
    let fw := (hostRead host d.fwAddr d.fwLen).getD []
    ∃ t, exec (.bootDescriptorPoll host f) s = .next t ∧ t.boot.desc = some d ∧
      (fwOk .leaf s.otpSvn fw = false → t.mode = .held ∧ t.stw.boot = s.stw.boot) ∧
      (fwOk .leaf s.otpSvn fw = true → t.stw.boot ≠ 0 ∧ t.stw.boot ≠ s.stw.boot)) ∧
  (∀ (s : State) host f, s.profile = .leaf → s.mode = .held → s.boot.desc = none →
    (hostRead host (4096 * Config.leafBootPage) 64).bind readDesc = none →
    ∃ t, exec (.bootDescriptorPoll host f) s = .next t ∧ t.boot = s.boot ∧ t.mode = .held)

/-- On a CK_E edge with no write pending, the nanoseconds and fraction grow by TIM_INC; at 10^9 ns they carry into the
seconds, which never repeat or skip. UTC from NTP is taken as TAI by adding TAI_UTC_OFFSET to its seconds, whose
default is 37 s, its fraction kept. (R84) -/
def Obligations.TimeCounterAddsIncrement : Prop :=
  (∀ t : TimeSt, t.commit = none → t.setPend = none → t.stepPend = none →
    let f := t.now.ns.toNat * 2 ^ 32 + t.now.frac.toNat + t.incInt.toNat * 2 ^ 32 + t.incFrac.toNat
    let carry := 1000000000 * 2 ^ 32 ≤ f
    t.edge.now.sec = (if carry then t.now.sec + 1 else t.now.sec) ∧
    t.edge.now.ns.toNat * 2 ^ 32 + t.edge.now.frac.toNat = (if carry then f - 1000000000 * 2 ^ 32 else f)) ∧
  (∀ (s : State) (n : NtpTime), s.runsAs .tray = true → s.mgmtOn = true → s.ptpMaster = none →
    exec (.ntpMessageReceive n) s = .next { s with tim := { s.tim with
      coarse := some (((n.utcSec.toNat : Int) + s.cfg.taiUtc).toNat * secT + n.frac.toNat * 1000000000, s.now) } }) ∧
  Cfg.default.taiUtc = 37

/-- A write to TIM_INC_FRAC is staged. A write to TIM_INC_INT commits both parts on the next CK_E edge when the
integer part is 0 and the fraction lies from 0x9FF7_CED9 to 0xA008_3127; otherwise the increment in force stays and
TIM_INC_RANGE is set. A host's sideband write to a TIM_ register completes with SB_ERR, and one over the fabric port
is dropped. The registers read what was last written, at reset 0 and 0xA000_0000. (R85) -/
def Obligations.TimeIncrementIsStagedAndCommitted : Prop :=
  (∀ v (s : State), s.clocked = true → exec (.timIncFracWrite v) s = .next { s with tim := { s.tim with stagedFrac := v } }) ∧
  (∀ (v : Word) (s : State), s.clocked = true → v.toNat % 256 = 0 → 0x9FF7CED9 ≤ s.tim.stagedFrac.toNat → s.tim.stagedFrac.toNat ≤ 0xA0083127 →
    exec (.timIncIntWrite v) s = .next { s with tim := { s.tim with
      intReg := v.setWidth 8, commit := some (0, s.tim.stagedFrac) } }) ∧
  (∀ (v : Word) (s : State), s.clocked = true →
    ¬ (v.toNat % 256 = 0 ∧ 0x9FF7CED9 ≤ s.tim.stagedFrac.toNat ∧ s.tim.stagedFrac.toNat ≤ 0xA0083127) →
    ∃ t, exec (.timIncIntWrite v) s = .next t ∧ t.sticky = { s.sticky with tim := s.sticky.tim ||| 0x00008000 } ∧
      t = { s with tim := { s.tim with intReg := v.setWidth 8 }, sticky := t.sticky, raisedNow := t.raisedNow }) ∧
  (∀ (t : TimeSt) i f, t.commit = some (i, f) → t.edge.incInt = i ∧ t.edge.incFrac = f ∧ t.edge.commit = none) ∧
  (∀ t : TimeSt, t.commit = none → t.edge.incInt = t.incInt ∧ t.edge.incFrac = t.incFrac) ∧
  (∀ (s : State) (a : Nat) v, s.profile = .leaf → s.inReset = false → s.sb.dead = false → 0x200 ≤ a → a ≤ 0x230 → a % 4 = 0 →
    exec (.sidebandAccess .write a v) s = .next { s with
      pins := { s.pins with sbAck := true, sbErr := true }
      sb := { s.sb with ackAt := some s.edges } }) ∧
  (∀ (s : State) (a : Nat) v, 0x200 ≤ a → a ≤ 0x237 → exec (.registerWrite .fabric a v) s = .next s) ∧
  (∀ (s : State) p, (readReg p 0x228 s).1 = s.tim.stagedFrac ∧ (readReg p 0x22C s).1 = s.tim.intReg.setWidth 32) ∧
  State.reset.tim.stagedFrac = 0xA0000000 ∧ State.reset.tim.intReg = 0

/-- In FREE or ACQUIRE a well-formed TIM_SET and any TIM_STEP wait for the next CK_E edge, which loads the time, or
adds the signed step after the increment. In any other state, and for a TIM_SET with malformed nanoseconds, the write
has no effect but TIM_WRITE_REFUSED. (03_clocks_and_time.md, The time counter) -/
def Obligations.TimeSetAndStepOnlyBeforeLock : Prop :=
  (∀ v (s : State), s.clocked = true → (s.tim.state = .free ∨ s.tim.state = .acquire) → (ITime.ofBits v).ns.toNat ≤ 999999999 →
    exec (.timSet v) s = .next { s with tim := { s.tim with setPend := some v } }) ∧
  (∀ v (s : State), s.clocked = true → (s.tim.state = .free ∨ s.tim.state = .acquire) →
    exec (.timStep v) s = .next { s with tim := { s.tim with stepPend := some v } }) ∧
  (∀ v (s : State), s.clocked = true →
    ¬ (s.tim.state = .free ∨ s.tim.state = .acquire) ∨ 999999999 < (ITime.ofBits v).ns.toNat →
    ∃ t, exec (.timSet v) s = .next t ∧ t.sticky = { s.sticky with tim := s.sticky.tim ||| 0x00010000 } ∧
      t = { s with sticky := t.sticky, raisedNow := t.raisedNow }) ∧
  (∀ v (s : State), s.clocked = true → ¬ (s.tim.state = .free ∨ s.tim.state = .acquire) →
    ∃ t, exec (.timStep v) s = .next t ∧ t.sticky = { s.sticky with tim := s.sticky.tim ||| 0x00010000 } ∧
      t = { s with sticky := t.sticky, raisedNow := t.raisedNow }) ∧
  (∀ (t : TimeSt) v, t.setPend = some v → t.edge.now = ITime.ofBits v ∧ t.edge.setPend = none) ∧
  (∀ (t : TimeSt) d, t.commit = none → t.setPend = none → t.stepPend = some d →
    t.edge.now = stepBy (addInc t.now t.incInt t.incFrac) d.toInt ∧ t.edge.stepPend = none)

/-- A read of TIM_NOW_0 on a path answers bits 31:0 of the counter and latches the other three words for that path;
every other latch stands. A read of TIM_NOW_1 to 3 returns the latched word of its path and changes no latch; it is
zero when the path has not read TIM_NOW_0 since reset, since reset clears every latch. (R86) -/
def Obligations.TimNowReadLatches : Prop :=
  (∀ p (s : State), s.serves p = true → ∃ t, exec (.timNowRead p) s = .next t ∧
    t = { s with latches := t.latches, out := s.out ++ [.regValue p 0x200 (s.tim.now.toBits.setWidth 32)] } ∧
    t.latched p 0x204 = (s.tim.now.toBits >>> 32).setWidth 32 ∧ t.latched p 0x208 = (s.tim.now.toBits >>> 64).setWidth 32 ∧
    t.latched p 0x20C = (s.tim.now.toBits >>> 96).setWidth 32 ∧
    (∀ q a, ¬ (q = p ∧ (a = 0x204 ∨ a = 0x208 ∨ a = 0x20C)) → t.latched q a = s.latched q a)) ∧
  (∀ p a (s : State), s.serves p = true → (a = 0x204 ∨ a = 0x208 ∨ a = 0x20C) →
    exec (.lowestWordRead p a) s = .next { s with out := s.out ++ [.regValue p a (s.latched p a)] }) ∧
  (∀ p a (s : State), (∀ l ∈ s.latches, ¬ (l.1 = p ∧ l.2.1 = a)) → s.latched p a = 0) ∧
  State.reset.latches = [] ∧
  (∀ (s : State) f, s.powered = true → s.justPowered = false → ∃ t, exec (.rstBlkN .pin f) s = .next t ∧ t.latches = [])

/-- On a lane that carries exchanges the end that opens them sends REQ under the next ESEQ at each opening time of R89
that has come, once, with t1 the launch edge at the resolution of the stamps plus ZL_PHY_TXLAT; an exchange still open
is dropped first. The responder queues RESP with t2, its receive edge corrected by ZL_PHY_RXLAT, ZL_LATADJ and the bit
position, ahead of a REQ of its own; FOLLOW with t3 answers the RESP last sent and counts the exchange there. When
FOLLOW completes the open exchange, delay is ((t2 - t1) + (t4 - t3)) / 2, the exchange closes and is counted, and an
instance in ACQUIRE whose source is this lane steps by -theta when |theta| exceeds 100 ns, theta being ((t4 - t3) -
(t2 - t1) + path_asym) / 2; a half unit that is left is rounded freely (log entry 7). A FOLLOW that answers no open
exchange drops it. No other lane changes. (03_clocks_and_time.md, Time sources, 06_zhelen_links.md, Time exchange) -/
def Obligations.TimeExchangeMessages : Prop :=
  (∀ (s : State) lane (edge : Ticks) l, s.lane? lane = some l → s.opensOn l = true → l.exchanging = true → l.exch = none →
    openingTime (s.isLower l) s.now ≤ s.now → l.openedAt ≠ some (openingTime (s.isLower l) s.now) →
    ∃ t, exec (.timeExchangeOpen lane edge) s = .next t ∧
      onlyLane lane { l with
        openedAt := some (openingTime (s.isLower l) s.now)
        exch := some { eseq := l.eseq, t1 := (tdc edge + (l.plan.txlat.toNat * 2 ^ 24 : Nat)).toNat, t2t4 := none }
        eseq := l.eseq + 1
        timeOut := l.timeOut ++ [{ kind := 1, eseq := l.eseq, stamp := 0 }] } s t) ∧
  (∀ (s : State) lane (edge : Ticks) l, s.lane? lane = some l → l.openedAt = some (openingTime (s.isLower l) s.now) →
    exec (.timeExchangeOpen lane edge) s = .next s) ∧
  (∀ (s : State) lane e (edge : Ticks) l, s.lane? lane = some l → l.exchanging = true →
    let t2 := (tdc edge + freeDiv (l.bit * 2 ^ 32) 400 - (l.plan.rxlat.toNat * 2 ^ 24 : Nat) - l.latAdj.toInt * 2 ^ 26).toNat
    ∃ t, exec (.timeReqReceive lane e edge) s = .next t ∧
      onlyLane lane { l with
        timeOut := l.timeOut.filter (·.kind != 1) ++ [{ kind := 2, eseq := e, stamp := t2 }] ++ l.timeOut.filter (·.kind == 1)
        } s t) ∧
  (∀ (s : State) lane e (edge : Ticks) l, s.lane? lane = some l → l.lastResp = some e →
    let t3 := (tdc edge + (l.plan.txlat.toNat * 2 ^ 24 : Nat)).toNat
    ∃ t, exec (.timeFollowSend lane edge) s = .next t ∧
      onlyLane lane { l with
        timeOut := l.timeOut.filter (·.kind != 1) ++ [{ kind := 3, eseq := e, stamp := t3 }] ++ l.timeOut.filter (·.kind == 1)
        lastResp := none
        exchRun := l.exchRun + 1 } s t) ∧
  (∀ (s : State) lane e (t1 t2 t3 t4 : Ticks) l, s.lane? lane = some l →
    l.exch = some { eseq := e, t1 := t1, t2t4 := some (t2, t4) } →
    let theta := freeDiv (((t4 : Int) - t3) - ((t2 : Int) - t1) + l.plan.asym * 2 ^ 24) 2
    ∃ t, exec (.timeExchangeComplete lane e t3) s = .next t ∧
      t.lane? lane = some { l with
        exch := none
        delay := freeDiv (((t2 : Int) - t1) + ((t4 : Int) - t3)) 2
        exchRun := l.exchRun + 1
        ctr := l.ctr.modify 9 (· + 1) } ∧
      (∀ m, m ≠ lane → t.lane? m = s.lane? m) ∧ t.ctxs = s.ctxs ∧ t.mem = s.mem ∧ t.sched = s.sched ∧
      (s.tim.state = .acquire → t.tim.source = .lane lane → 100 * 2 ^ 32 < theta.natAbs →
        t.tim.stepPend = some (BitVec.ofInt 64 (-theta)))) ∧
  (∀ (s : State) lane e t3 l, s.lane? lane = some l → l.exch = none →
    ∃ t, exec (.timeExchangeComplete lane e t3) s = .next t ∧ (∀ m, t.lane? m = s.lane? m) ∧ t.ctxs = s.ctxs ∧ t.mem = s.mem)

/-- A rising PPS edge at a grandmaster member is recorded with the time of the edge that samples it; a falling one
does nothing. PPS_OUT is high for 100 us from the TAI second. A rising SLOT_SYNC edge within half an epoch of the
latest boundary gives its deviation in TIM_SLOT_DEV, the nearer edge counting, and is kept for the boundary that
follows. With the management port in use an Announce of a listed transmitter is noted with its time, a one-step Sync
of the transmitter in use gives coarse TAI, a two-step Sync waits for its Follow_Up, and a Pdelay_Req is answered with
its corrected receive stamp, over UDP/IPv6 with its checksum formed anew. A full slot-phase window of 64 epochs
empties; away from the slot master nothing is armed, and at the slot master an average beyond SLOT_TOL whose spread is
within twice that arms the correction 8 epochs ahead. When the duplicated counters disagree, TIM_DUP_FAIL is counted,
ERR_SUM bit 24 is set and the time state is ACQUIRE. (03_clocks_and_time.md, Time sources, 03_clocks_and_time.md, The
slot boundary, 03_clocks_and_time.md, IEEE 1588 on the management port, 17_checks_errors_and_ageing.md, Counters and
summaries) -/
def Obligations.GrandmasterAndSlotInputs : Prop :=
  (∀ s : State, s.runsAs .tray = true → s.grandmasterMember = true →
    ∃ t, exec (.ppsInEdge true) s = .next t ∧ t.tim.ppsAt = some s.now ∧ t.lanes = s.lanes ∧ t.sched = s.sched) ∧
  (∀ s : State, s.profile = .tray → exec (.ppsInEdge false) s = .next s ∧ exec (.slotSyncEdge false) s = .next s) ∧
  (∀ s : State, s.runsAs .tray = true → exec .ppsOutPulse s =
    .next { s with pins := { s.pins with ppsOut := decide (s.now % secT < nsT 100000) } }) ∧
  (∀ (s : State) b bs, s.runsAs .tray = true → s.sched.past = b :: bs → b.t ≤ s.now + nsT b.epochNs / 2 →
    s.now ≤ b.t + nsT b.epochNs / 2 → s.sched.slotNow = none →
    exec (.slotSyncEdge true) s = .next { s with sched := { s.sched with
      slotDev := slotDevCode (some ((s.now : Int) - b.t))
      slotNow := some ((s.now : Int) - b.t)
      slotMiss := 0
      slotEdges := s.now :: s.sched.slotEdges.take 7 } }) ∧
  (∀ (s : State) m i, s.runsAs .tray = true → s.mgmtOn = true → m.transportOk = true → m.kind = .announce →
    m.sender = some i → ∃ t, exec (.ptpMessageReceive m) s = .next t ∧
      t.tim.announced = (i, s.mgRx m.edge) :: s.tim.announced.filter (·.1 != i) ∧ t.lanes = s.lanes ∧ t.sched = s.sched) ∧
  (∀ (s : State) m i, s.runsAs .tray = true → s.mgmtOn = true → m.transportOk = true → m.kind = .sync →
    m.twoStep = false → m.sender = some i → s.ptpMaster = some i → ∃ t, exec (.ptpMessageReceive m) s = .next t ∧
      t.tim.coarse = some (((m.origin : Int) + m.correction + s.tim.peerDelay.getD 0).toNat, s.mgRx m.edge) ∧
      (s.tim.peerDelay.isSome = true → t.tim.syncAt = some (s.mgRx m.edge)) ∧ t.lanes = s.lanes ∧ t.sched = s.sched) ∧
  (∀ (s : State) m i, s.runsAs .tray = true → s.mgmtOn = true → m.transportOk = true → m.kind = .sync →
    m.twoStep = true → m.sender = some i → s.ptpMaster = some i → exec (.ptpMessageReceive m) s =
      .next { s with tim := { s.tim with twoStep := some (m.seq, s.mgRx m.edge, m.correction) } }) ∧
  (∀ (s : State) m, s.runsAs .tray = true → s.mgmtOn = true → m.transportOk = true → m.kind = .pdelayReq →
    exec (.ptpMessageReceive m) s = .next { s with
      tim := { s.tim with pdelayAnswers := s.tim.pdelayAnswers + 1 }
      out := s.out ++ [.ptpSend .pdelayResp m.seq (s.mgRx m.edge) (s.mgTx s.now)
        (if m.udp6 then some (Config.udpChecksum (Config.ptpBytes 3 m.seq (s.mgRx m.edge) (s.mgTx s.now))) else none)] }) ∧
  (∀ s : State, s.runsAs .tray = true → 64 ≤ s.sched.slotWindow.length → s.slotMaster = false →
    exec .slotPhaseWindow s = .next { s with sched := { s.sched with slotWindow := [] } }) ∧
  (∀ (s : State) d, s.runsAs .tray = true → 64 ≤ s.sched.slotWindow.length → s.slotMaster = true →
    s.cfg.slotSyncUse = true → s.slotLost = false → s.sched.settled = true → s.carrying = true → s.red.arms = [] →
    slotPhaseOf s.cfg.slotTol ((s.sched.slotWindow.take 64).filterMap id) = some d →
    ∃ t a, exec .slotPhaseWindow s = .next t ∧ t.sched.slotWindow = [] ∧ a ∈ t.red.arms ∧ a.kind = kindSlotPhase ∧
      a.epochT = s.curEpoch + 8 ∧ a.arg2 = BitVec.ofInt 32 d) ∧
  (∀ s : State, s.runsAs .tray = true → ∃ t, exec .timDupFail s = .next t ∧
    t.err.cnt = s.err.cnt.modify 6 (fun v => BitVec.ofNat 32 (min 0xFFFFFFFF (v.toNat + 1))) ∧
    t.sticky = { s.sticky with err := s.sticky.err ||| 0x01000000 } ∧
    t = { s with
      err := { s.err with cnt := t.err.cnt, cntNow := t.err.cntNow, total := t.err.total }
      sticky := t.sticky
      raisedNow := t.raisedNow
      tim := { s.tim with state := .acquire, lockRun := 0, overRun := 0, integ := 0, dupFail := true } }) ∧
  (∀ s : State, s.runsAs .leaf = true → ∃ t, exec .timDupFail s = .next t ∧
    t.sticky = { s.sticky with err := s.sticky.err ||| 0x01000000 } ∧
    t = { s with
      cap := { s.cap with health := s.cap.health.modify 300 (· + 1) }
      sticky := t.sticky
      raisedNow := t.raisedNow
      tim := { s.tim with state := .acquire, lockRun := 0, overRun := 0, integ := 0, dupFail := true } })

/-- At a leaf in service whose time is LOCKED and whose die is not lost, past its first boundary and with no change
named for it, the boundary that is due passes: it becomes the latest one with its length, the next boundary follows by
that length, and the ring takes a slot for cut k. Every ALIGNED stook loads its CUT bank with its counters less its
bases, a stopped stook loads what HOLD keeps, every other stook waits for its edge; the number of stooks stands, and
the next cut is not FIRST. (04_counters_and_capture.md, The cairn latch, 04_counters_and_capture.md, The capture-bus
arbiter) -/
def Obligations.LeafBoundaryTakesCut : Prop :=
  ∀ (s : State) b k tk anchor, s.profile = .leaf → s.mode = .service → s.tim.state = .locked →
    s.dueBoundary = some (k, tk, anchor) → s.sched.adopt = none → s.red.arms = [] → s.stw.bnd = [] →
    s.sched.past ≠ [] → (∀ x ∈ s.sched.knots, x.1 ≤ k) → s.cap.dieLost = false → b.dieLost = false →
    ∃ t, exec (.epochBoundary b) s = .next t ∧
      (let x := epochStep s.cfg.epochNs s.sched.d
       t.sched.past.head? = some { k := k, t := tk, epochNs := s.cfg.epochNs, len := x.1, irregular := x.2.1 } ∧
       t.sched.nextK = k + 1 ∧ t.sched.nextT = tk + nsT x.1) ∧
      (∃ r, t.cap.ring.head? = some r ∧ r.k = k ∧ r.t = tk ∧ r.epochNs = s.cfg.epochNs ∧ r.lost = false ∧ r.sent = false) ∧
      t.cap.first = false ∧ t.boot.shown = .service ∧
      t.cap.stooks.length = s.cap.stooks.length ∧
      ∀ (i : Nat) (st : Stook), s.cap.stooks[i]? = some st →
        (st.aligned = true → ∃ h, (t.cap.stooks[i]?).map Stook.cut = some (some (k, h, List.zipWith (· - ·) st.obs st.base))) ∧
        (∀ v w, st.aligned = false → st.hold = some (v, w) →
          ∃ h, (t.cap.stooks[i]?).map Stook.cut = some (some (k, h, List.zipWith (· - ·) v st.base))) ∧
        (st.aligned = false → st.hold = none → (t.cap.stooks[i]?).map Stook.cutWait = some (some (k, tk)))

/-- On a region edge every counter of the stook adds its STK_INC in the observer and the host view, modulo their
widths, REGION_CYC counts, and HOLD ends. A running stook that waits for a cut latches its counters on the first edge
late enough, with LAT_DELAY, and raises its bus request 2 or 3 cycles later. With no edge for 1,023 ns the frozen
counters are read with STOP_UNANNOUNCED and health counter 289 counts; a stopped stook is read from HOLD instead. The
last edge of a stopping region keeps the counters and the stop time in HOLD, marked when STK_STOPPING was not asserted
two edges before; a cut that waits and for which that edge comes too early is taken from HOLD. STK_HRST clears the
host views alone and counts in HRST_COUNT. No other stook changes. (04_counters_and_capture.md, The cairn latch,
04_counters_and_capture.md, Reset and latch in the same region cycle, 03_clocks_and_time.md, Stretched and stopped
regions) -/
def Obligations.StookEdgesAndLatches : Prop :=
  (∀ (s : State) n e st, s.runsAs .leaf = true → s.stook? n = some st →
    ∃ t, exec (.stkClkEdge n e) s = .next t ∧ t = { s with cap := { s.cap with stooks := t.cap.stooks } } ∧
      (∃ u, t.stook? n = some u ∧ u.regionCyc = st.regionCyc + 1 ∧ u.base = st.base ∧ u.cut = st.cut ∧ u.hold = none ∧
        (∀ i v, st.obs[i]? = some v → u.obs[i]? = some (v + (nth e.incs i 0).setWidth 64)) ∧
        (∀ i v, st.host[i]? = some v → u.host[i]? = some (v + (nth e.incs i 0).setWidth 48))) ∧
      ∀ m, m ≠ n → t.stook? m = s.stook? m) ∧
  (∀ (s : State) n edge lat third st k tk, s.runsAs .leaf = true → n < 256 → s.stook? n = some st →
    st.cutWait = some (k, tk) → st.unannounced = false → edgeOk tk edge = true → latOk lat tk edge = true →
    ∃ t, exec (.stookLatch n edge lat third) s = .next t ∧
      (∃ u h, t.stook? n = some u ∧ u.cut = some (k, h, List.zipWith (· - ·) st.obs st.base) ∧
        h = st.header .running lat st.moving tk ∧ u.cutWait = none ∧ u.lastEdge = some edge ∧ u.hrst = 0 ∧ u.obs = st.obs ∧
        u.host = st.host) ∧
      t.cap.reqs = s.cap.reqs ++ [cutReq st (s.tim.cycle + (if third then 3 else 2))] ∧ t.cap.health = s.cap.health ∧
      ∀ m, m ≠ n → t.stook? m = s.stook? m) ∧
  (∀ (s : State) n st k tk, s.runsAs .leaf = true → s.stook? n = some st → st.cutWait = some (k, tk) →
    tk + nsT 1023 ≤ s.now → ∃ t u h, exec (.stookLatchTimeout n) s = .next t ∧ t.stook? n = some u ∧
      (st.hold = none → u.cut = some (k, h, List.zipWith (· - ·) st.obs st.base) ∧ u.unannounced = true ∧
        h = st.header (.unannounced st.lastEdge) 0xFFFF st.moving tk ∧
        t.cap.health = s.cap.health.modify 289 (· + 1)) ∧
      (∀ v w, st.hold = some (v, w) → u.cut = some (k, h, List.zipWith (· - ·) v st.base) ∧
        h = st.header (.stopped w.toTicks) 0xFFFF st.moving tk) ∧
      ∀ m, m ≠ n → t.stook? m = s.stook? m) ∧
  (∀ (s : State) n (edge : Ticks) st, s.runsAs .leaf = true → s.stook? n = some st → st.stopRun ≠ 0 →
    st.cutWait = none → st.intWait = none →
    ∃ t, exec (.stookHoldLoad n edge) s = .next t ∧ t = { s with cap := { s.cap with stooks := t.cap.stooks } } ∧
      t.stook? n = some { st with
        hold := some (st.obs, ITime.ofTicks edge), unannounced := st.unannounced || decide (st.stopRun < 3) } ∧
      ∀ m, m ≠ n → t.stook? m = s.stook? m) ∧
  (∀ (s : State) n (edge : Ticks) st k tk, s.runsAs .leaf = true → s.stook? n = some st → st.stopRun ≠ 0 →
    st.cutWait = some (k, tk) → edgeOk tk edge = false →
    ∃ t u h, exec (.stookHoldLoad n edge) s = .next t ∧ t.stook? n = some u ∧ u.cutWait = none ∧
      u.hold = some (st.obs, ITime.ofTicks edge) ∧ u.cut = some (k, h, List.zipWith (· - ·) st.obs st.base)) ∧
  (∀ (s : State) n st, s.runsAs .leaf = true → s.stook? n = some st → st.edge = .none →
    ∃ t, exec (.stookHostReset n) s = .next t ∧
      t.stook? n = some { st with host := st.host.map fun _ => 0, hrst := min 255 (st.hrst + 1) } ∧
      t.cap.health = s.cap.health ∧ ∀ m, m ≠ n → t.stook? m = s.stook? m)

/-- An idle capture bus grants the request of the highest level among those raised before the cycle and is busy for
its burst: HLT's burst leaves all else as it is, a CUT burst empties the stook's bank into the ring slot of its epoch,
an INT request's last burst empties the INT bank. A word good on its second read counts in health counter 307 as well;
one that fails twice counts in 308 too and loses the record of the epoch. While its group runs, TRC holds a token that
it takes each 128 cycles and spends on a request when a full beat waits. A sub-boundary that has come marks every plan
of its division that is in force and has not taken it; the other plans stand. The record of the earliest cut that is
not yet sent is fed to both lanes as far as it is in the ring; once it is whole the cut is marked sent.
(04_counters_and_capture.md, The capture-bus arbiter, 04_counters_and_capture.md, Interval sampling,
05_snapshots_and_sheaves.md, Leaf records, 08_trace_stop_and_watch.md, Delivery) -/
def Obligations.CaptureBusAndRecord : Prop :=
  (∀ (s : State) w, s.runsAs .leaf = true → s.cap.busUntil ≤ s.tim.cycle → winner s.tim.cycle s.cap.reqs = some w → w.idx = 1 →
    ∃ t, exec (.captureBusArbitration .good) s = .next t ∧ t.cap.busUntil = s.tim.cycle + w.bursts.headD 1 ∧
      t.cap.reqs = dropBurst w s.cap.reqs ∧ t.cap.stooks = s.cap.stooks ∧ t.cap.health = s.cap.health ∧
      t = { s with cap := t.cap }) ∧
  (∀ (s : State) w st k h v, s.runsAs .leaf = true → s.cap.busUntil ≤ s.tim.cycle →
    winner s.tim.cycle s.cap.reqs = some w → 2 ≤ w.idx → w.idx < 258 → s.stook? w.stook = some st → st.cut = some (k, h, v) →
    ∃ t, exec (.captureBusArbitration .good) s = .next t ∧ t.cap.busUntil = s.tim.cycle + w.bursts.headD 1 ∧
      t.stook? w.stook = some { st with cut := none } ∧ (∀ r ∈ t.cap.ring, r.k = k → (w.stook, v) ∈ r.values) ∧
      t = { s with cap := t.cap }) ∧
  (∀ (s : State) w st j, s.runsAs .leaf = true → s.cap.busUntil ≤ s.tim.cycle →
    winner s.tim.cycle s.cap.reqs = some w → 258 ≤ w.idx → w.bursts.length ≤ 1 → s.stook? w.stook = some st →
    st.int = some j → ∃ t, exec (.captureBusArbitration .good) s = .next t ∧
      t.stook? w.stook = some { st with int := none } ∧ t = { s with cap := t.cap }) ∧
  (∀ (s : State) w, s.runsAs .leaf = true → s.cap.busUntil ≤ s.tim.cycle → winner s.tim.cycle s.cap.reqs = some w → w.idx ≠ 0 →
    ∃ t u, exec (.captureBusArbitration .good) s = .next t ∧ exec (.captureBusArbitration .second) s = .next u ∧
      u = { t with cap := { t.cap with health := t.cap.health.modify 307 (· + 1) } }) ∧
  (∀ (s : State) w bank row k, s.runsAs .leaf = true → s.cap.busUntil ≤ s.tim.cycle →
    winner s.tim.cycle s.cap.reqs = some w → burstEpoch w s = some k →
    ∃ t, exec (.captureBusArbitration (.lost bank row)) s = .next t ∧
      t.cap.health = (s.cap.health.modify 307 (· + 1)).modify 308 (· + 1) ∧ (∀ r ∈ t.cap.ring, r.k = k → r.lost = true) ∧
      t.sticky.rstState = s.sticky.rstState ||| 0x01000000) ∧
  (∀ s : State, s.runsAs .leaf = true → s.tim.cycle / 128 ≤ s.trc.group → s.trc.buffered ≠ [] →
    (s.cap.token = true ∨ s.cap.tokenCycle ≠ s.tim.cycle / 128 * 128 + 1) → s.cap.reqs.any (·.idx == 0) = false →
    ∃ t, exec .trcToken s = .next t ∧ t.cap.token = false ∧ t.cap.tokenCycle = s.tim.cycle / 128 * 128 + 1 ∧
      t.cap.reqs = s.cap.reqs ++ [{ idx := 0, raised := s.tim.cycle, ageStart := s.tim.cycle, bursts := [1], begun := false
                                    stook := 0 }] ∧ t = { s with cap := t.cap }) ∧
  (∀ s : State, s.runsAs .leaf = true → s.tim.cycle / 128 ≤ s.trc.group → s.trc.buffered = [] → s.cap.tokenCycle ≠ s.tim.cycle / 128 * 128 + 1 →
    exec .trcToken s = .next { s with cap := { s.cap with
      token := true, tokenCycle := s.tim.cycle / 128 * 128 + 1 } }) ∧
  (∀ (s : State) m j b bs, s.runsAs .leaf = true → s.sched.past = b :: bs → 1 ≤ j → j < 2 ^ m →
    b.t + nsT (j * (b.epochNs / 2 ^ m)) ≤ s.now → ∃ t, exec (.subBoundary m j) s = .next t ∧
      (∀ p ∈ s.cap.plans, p.m = m → s.heldGen p.ctx = some p.gen → p.taken.1 < b.k →
        { p with taken := (b.k, j) } ∈ t.cap.plans) ∧
      (∀ p ∈ s.cap.plans, p.m ≠ m → p ∈ t.cap.plans) ∧ t.cap.ring = s.cap.ring ∧ t.mem = s.mem ∧ t.lanes = s.lanes) ∧
  (∀ (s : State) r, s.runsAs .leaf = true → s.cap.dieLost = false →
    s.cap.ring.reverse.find? (fun r => !r.lost && !r.sent) = some r → r.readyBytes s.tim.cycle ≠ 0 →
    (r.whole = true → r.recordLen ≤ r.readyBytes s.tim.cycle → exec .leafCutRecordSend s = .next { s with
      lanes := s.lanes.map fun l => l.feedRecord (s.genOf 0) r.recordLen (r.record s.cfg.leafId false) r.k
      cap := { s.cap with ring := mapIf (·.k == r.k) (fun r => { r with sent := true }) s.cap.ring } }) ∧
    (r.whole = false → exec .leafCutRecordSend s = .next { s with
      lanes := s.lanes.map fun l => l.feedRecord (s.genOf 0) r.recordLen
        ((r.recordBody s.cfg.leafId false).take (r.readyBytes s.tim.cycle)) r.k }))

/-- A data position of an active lane carries a cell of VC1 whenever VC1 has one and a credit, otherwise one of the
stream that the rotation owns, otherwise an idle cell; a lane that stands by or trains from ALIGN on sends idle cells,
in AUTH its own messages until the last of them, with which it is KEYED once the far end is verified, and one in
DETECT or EQUALISE the idle pattern. A control cell, after the 63 data positions, opens the next pitch with its marker
and number and takes the head of the waiting time areas. Eight consecutive markers at both ends align a lane, which
then sends its own HELLO. Fewer than three missed markers are only counted. A received control cell whose tag fails
delivers nothing and one that verifies is taken; the cells of a received group are freed, and a group whose tag fails,
or whose generation has no key, delivers nothing. (06_zhelen_links.md, Words, cells and pitches, 06_zhelen_links.md,
Control cells and control messages, 06_zhelen_links.md, Data cells, groups and messages) -/
def Obligations.CellsOfPitch : Prop :=
  (∀ (s : State) lane l ts c l', s.lane? lane = some l → l.trained = true → l.txPos < 63 → l.active = true →
    l.vc1Stalls = false → l.ready 1 0 = some ts → l.sendCell s.now ts = some (c, l') →
    ∃ t, exec (.dataPosition lane) s = .next t ∧ t.lane? lane = some { l' with txPos := l.txPos + 1 } ∧
      t.out = s.out ++ [.cell lane (lineCell l.txPitch (l.txPos + 1) c)] ∧ t = { s with lanes := t.lanes, out := t.out } ∧
      ∀ m, m ≠ lane → t.lane? m = s.lane? m) ∧
  (∀ (s : State) lane l ts c l', s.lane? lane = some l → l.trained = true → l.txPos < 63 → l.active = true →
    l.vc1Stalls = false → l.ready 1 0 = none →
    let o := rotationOwner l.plan.use.isBelay s.cfg.shareCount (l.rot + 1)
    l.ready o.1 o.2 = some ts → ({ l with rot := l.rot + 1 } : Lane).sendCell s.now ts = some (c, l') →
    ∃ t, exec (.dataPosition lane) s = .next t ∧ t.lane? lane = some { l' with txPos := l.txPos + 1 } ∧
      t.out = s.out ++ [.cell lane (lineCell l.txPitch (l.txPos + 1) c)]) ∧
  (∀ (s : State) lane l, s.lane? lane = some l → l.trained = true → l.txPos < 63 → l.active = true →
    l.vc1Stalls = false → l.ready 1 0 = none →
    (let o := rotationOwner l.plan.use.isBelay s.cfg.shareCount (l.rot + 1); l.ready o.1 o.2 = none) →
    ∃ t, exec (.dataPosition lane) s = .next t ∧
      t.lane? lane = some { l with rot := l.rot + 1, txPos := l.txPos + 1 } ∧
      t.out = s.out ++ [.cell lane (lineCell l.txPitch (l.txPos + 1) (zeros 256))]) ∧
  (∀ (s : State) lane l, s.lane? lane = some l → l.idling = true → ∃ t, exec (.dataPosition lane) s = .next t ∧
    t.out = s.out ++ [.idlePattern lane] ∧ t.lanes = s.lanes) ∧
  (∀ (s : State) lane l, s.lane? lane = some l → l.sending = true → l.txPos < 63 →
    (l.trained = false ∨ l.active = false) → (l.st ≠ .auth ∨ l.authCells = []) →
    ∃ t, exec (.dataPosition lane) s = .next t ∧ t.lane? lane = some { l with txPos := l.txPos + 1 } ∧
      t.out = s.out ++ [.cell lane (lineCell l.txPitch (l.txPos + 1) (zeros 256))]) ∧
  (∀ (s : State) lane l c cs, s.lane? lane = some l → l.st = .auth → l.txPos < 63 → l.authCells = c :: cs →
    ∃ t l', exec (.dataPosition lane) s = .next t ∧ t.lane? lane = some l' ∧ l'.authCells = cs ∧
      t.out = s.out ++ [.cell lane (lineCell l.txPitch (l.txPos + 1) c)] ∧
      (cs = [] ∧ l.authKeys.isSome = true → l'.st = .keyed ∧ l'.keys = l.authKeys ∧ l'.exchRun = 0) ∧
      (cs ≠ [] ∨ l.authKeys = none → l'.st = .auth ∧ l'.keys = l.keys)) ∧
  (∀ (s : State) lane l, s.lane? lane = some l → l.sending = true → l.txPos = 63 → l.plan.use.isBelay = false →
    l.spareGot = none → ∃ t c l', exec (.controlCellSend lane) s = .next t ∧ t.lane? lane = some l' ∧ l'.txPitch = l.txPitch + 1 ∧ l'.txPos = 0 ∧
      l'.timeOut = l.timeOut.drop 1 ∧ l'.st = l.st ∧ l'.keys = l.keys ∧ c.take 8 = le 8 pitchMarker ∧
      t.out = s.out ++ [.cell lane (lineCell (l.txPitch + 1) 0 c)] ∧
      t = { s with lanes := t.lanes, out := t.out, pins := { s.pins with zlTxd := t.pins.zlTxd } }) ∧
  (∀ (s : State) lane l pitches b nonce, s.lane? lane = some l → b.far = false →
    exec (.pitchAlign lane pitches b nonce) s = .next s) ∧
  (∀ (s : State) lane l pitches b nonce, s.lane? lane = some l → l.st = .align → 8 ≤ pitches.length →
    consecutive pitches = true → b.far = true →
    let l' : Lane := { l with st := .hello, since := s.now, bit := b.bit, rxPitch := pitches.getLast?, misses := 0
                              ownNonce := nonce }
    ∃ t, exec (.pitchAlign lane pitches b nonce) s = .next t ∧ t.lane? lane = some l' ∧
      t.out = s.out ++ [.helloSent lane (s.ownHello l')] ∧ ∀ m, m ≠ lane → t.lane? m = s.lane? m) ∧
  (∀ (s : State) lane l n, s.lane? lane = some l → l.misses + n < 3 → ∃ t, exec (.markerLost lane n) s = .next t ∧
    onlyLane lane { l with misses := l.misses + n, ctr := l.ctr.modify 1 (· + BitVec.ofNat 64 n) } s t) ∧
  (∀ (s : State) lane l cell stamp adj, s.lane? lane = some l → l.sending = true → l.keys = none →
    fld (lineCell (BitVec.ofNat 56 (fld cell 9 7)) 0 cell) 0 8 = pitchMarker →
    slice (lineCell (BitVec.ofNat 56 (fld cell 9 7)) 0 cell) 240 16 = zeros 16 →
    ∃ t l', exec (.controlCellReceive lane cell stamp adj) s = .next t ∧ t.lane? lane = some l' ∧ l'.misses = 0 ∧
      l'.rxPitch = some (BitVec.ofNat 56 (fld cell 9 7)) ∧ l'.latAdj = adj ∧ l'.st = l.st ∧ t.mem = s.mem ∧ t.out = s.out) ∧
  (∀ (s : State) lane l k cell stamp adj, s.lane? lane = some l → l.sending = true → l.keys.isSome = true →
    l.keysAt (BitVec.ofNat 56 (fld cell 9 7)) = some k →
    let c := lineCell (BitVec.ofNat 56 (fld cell 9 7)) 0 cell
    let iv := k.sRx ++ be 8 (2 ^ 63 + (BitVec.ofNat 56 (fld cell 9 7)).toNat)
    let body := slice (Config.gcmCrypt k.kRx iv (slice c 16 224)) 0 224
    fld c 0 8 = pitchMarker → ∃ t, exec (.controlCellReceive lane cell stamp adj) s = .next t ∧
      (Config.gcmTag k.kRx iv (slice c 0 16) body ≠ slice c 240 16 → t.inbox = s.inbox) ∧
      (Config.gcmTag k.kRx iv (slice c 0 16) body = slice c 240 16 →
        ∃ l', t.lane? lane = some l' ∧ l'.misses = 0 ∧ l'.rxPitch = some (BitVec.ofNat 56 (fld cell 9 7)))) ∧
  (∀ (s : State) lane l k c0 cells, s.lane? lane = some l → l.keys.isSome = true → l.keysAt c0.pitch = some k →
    let clear := (c0 :: cells).map fun c : RxCell => lineCell c.pitch c.pos c.line
    let h0 := fld (clear.headD []) 0 8
    let iv := k.sRx ++ be 8 (nearestGroup l.rxGroup (bits h0 23 0))
    let plain := Config.gcmCrypt k.kRx iv (clear.map fun b => slice b 8 (bits (fld b 0 8) 35 28)).flatten
    ∃ t l', exec (.dataGroupReceive lane (c0 :: cells)) s = .next t ∧ t.lane? lane = some l' ∧
      l'.freed = l.freed.modify (account (bits h0 61 60) (bits h0 59 56)) (· + BitVec.ofNat 16 (cells.length + 1)) ∧
      (Config.gcmTag k.kRx iv (clear.flatMap fun b => b.take 8) plain ≠ slice (clear.getLastD []) 240 16 →
        t.inbox = s.inbox)) ∧
  (∀ (s : State) lane l c0 cells, s.lane? lane = some l → l.keys.isSome = true → l.keysAt c0.pitch = none →
    ∃ t, exec (.dataGroupReceive lane (c0 :: cells)) s = .next t ∧ t.inbox = s.inbox)

/-- Detection leads to EQUALISE where fewer than eight lanes equalise, an error count below 1,000 in 10^15 bits leads
to ALIGN, a fitting HELLO to AUTH, one of another major revision back to DETECT with cause 5 and one that does not fit
the lane plan with cause 7, AUTH to the keys of the session, which stand once its own messages have left, or to DETECT
with cause 6, and 64 exchanges to UP or STANDBY. A state that overruns its time returns to DETECT with cause 9, the
third time to FAILED, which tries again after 10 s. A lane that leaves UP is in DETECT without keys, with its cause,
and the loss is counted. (06_zhelen_links.md, Training, 06_zhelen_links.md, Faults, retraining and sparing) -/
def Obligations.LaneTrainingStates : Prop :=
  (∀ (s : State) lane l, s.lane? lane = some l → l.st = .detect → s.equalisesFull = false →
    ∃ t, exec (.laneDetect lane) s = .next t ∧
    onlyLane lane { l with st := .equalise, since := s.now } s t) ∧
  (∀ (s : State) lane l ps e n, s.lane? lane = some l → l.st = .equalise → bestPreset ps = some (e, n) → n < 1000 →
    l.cause ≠ 10 →
    ∃ t, exec (.equalise lane ps) s = .next t ∧ onlyLane lane { l with eqSet := e, st := .align, since := s.now } s t) ∧
  (∀ (s : State) lane l (h : Hello), s.lane? lane = some l → l.st = .hello → h.proto >>> 4 = 2#8 →
    helloFits s l h = true → (∀ n, l.plan.use = .down n → leafIdTaken s n h = false) →
    ∃ t l', exec (.hello lane h) s = .next t ∧ t.lane? lane = some l' ∧ l'.st = .auth ∧ l'.peer = some h ∧
      l'.minor = minorOf h ∧ l'.peerProto = h.proto ∧ l'.keys = l.keys) ∧
  (∀ (s : State) lane l (h : Hello), s.lane? lane = some l → l.st = .hello → h.proto >>> 4 ≠ 2#8 →
    ∃ t l', exec (.hello lane h) s = .next t ∧ t.lane? lane = some l' ∧ l'.st = .detect ∧ l'.cause = 5 ∧ l'.keys = none ∧
      t = { s with lanes := t.lanes } ∧ ∀ m, m ≠ lane → t.lane? m = s.lane? m) ∧
  (∀ (s : State) lane l (h : Hello), s.lane? lane = some l → l.st = .hello → h.proto >>> 4 = 2#8 →
    s.checksPlan = true → helloFits s l h = false → ∃ t l', exec (.hello lane h) s = .next t ∧ t.lane? lane = some l' ∧
      l'.st = .detect ∧ l'.cause = 7 ∧ l'.keys = none) ∧
  (∀ (s : State) lane l h a, s.lane? lane = some l → l.st = .auth → l.peer = some h → l.authKeys = none →
    ∃ t l', exec (.auth lane a) s = .next t ∧ t.lane? lane = some l' ∧ t = { s with lanes := t.lanes, out := t.out } ∧
      t.out.length = s.out.length + 1 ∧ (l'.st = .auth ∧ l'.authKeys.isSome = true ∧ l'.keys = l.keys ∨
        l'.st = .detect ∧ l'.cause = 6 ∧ l'.keys = none) ∧ ∀ m, m ≠ lane → t.lane? m = s.lane? m) ∧
  (∀ (s : State) lane l base eph, s.lane? lane = some l → l.st = .keyed → 64 ≤ l.exchRun → l.cause ≠ 10 →
    ∃ t l', exec (.keyed lane base eph) s = .next t ∧ t.lane? lane = some l' ∧
      l'.st = (if l.plan.active && !s.standsBy l then .up else .standby) ∧ l'.overruns = 0 ∧ l'.rot = 0) ∧
  (∀ (s : State) lane l lim, s.lane? lane = some l → stateLimit l.st = some lim → l.since + lim < s.now →
    s.equalisesFull = false →
    ∃ t l', exec (.trainTimeout lane) s = .next t ∧ onlyLane lane l' s t ∧ l'.overruns = l.overruns + 1 ∧ l'.cause = 9 ∧
      l'.st = (if 3 ≤ l.overruns + 1 then .failed else .detect) ∧ l'.keys = none) ∧
  (∀ (s : State) lane l, s.lane? lane = some l → l.st = .failed → l.since + 10 * secT ≤ s.now →
    ∃ t, exec (.laneFailedRetry lane) s = .next t ∧ onlyLane lane { l with st := .detect, since := s.now, overruns := 0 } s t) ∧
  (∀ (s : State) lane l cdr, s.lane? lane = some l → l.trained = true → ∃ t l', exec (.laneLeaveUp lane cdr) s = .next t ∧
    t.lane? lane = some l' ∧ l'.st = .detect ∧ l'.cause = (if cdr then 2 else 1) ∧ l'.keys = none ∧ l'.active = false ∧
    l'.ctr = l.ctr.modify 11 (· + 1))

/-- A KEY_OFFER on a trained lane is kept, and with this end's own offer the next keys are derived. At the pitch of
the next generation they come into force, a new offer waits, and the change is counted. A lane without next keys 2^20
pitches before the end of its generation leaves UP with cause 8. SPARE_SWITCH on a trained partner names the far end's
failed lane: it is noted for this end's lane of that link and, where this end has not sent its own, answered; with its
first control cell after both have gone the partner is UP with the streams of the failed lane, which keeps none, and
both count it. (06_zhelen_links.md, Encryption and keys, 06_zhelen_links.md, Faults, retraining and sparing) -/
def Obligations.KeyGenerationsAndSparing : Prop :=
  (∀ (s : State) lane l key, s.lane? lane = some l → l.trained = true → ∃ t l', exec (.keyOffer lane key) s = .next t ∧
    t.lane? lane = some l' ∧ l'.offerPeer = some (slice key 0 97) ∧ l'.st = l.st ∧ l'.keys = l.keys ∧
    (∀ o k, l.offerOwn = some o → l.keys = some k →
      l'.nextKeys = some (l.keysFor (s.isLower l) o (slice key 0 97) (k.gen + 1))) ∧
    ∀ m, m ≠ lane → t.lane? m = s.lane? m) ∧
  (∀ (s : State) lane l k k' eph, s.lane? lane = some l → l.trained = true → l.keys = some k → l.nextKeys = some k' →
    (l.txPitch >>> 32).setWidth 32 = k.gen + 1 → ∃ t, exec (.keyGeneration lane eph) s = .next t ∧
      onlyLane lane { l with
        keys := some k'
        oldKeys := some k
        nextKeys := none
        offerOwn := some eph
        offerPeer := none
        offerQ := [keyOfferMsg eph]
        ctr := l.ctr.modify 14 (· + 1) } s t) ∧
  (∀ (s : State) lane l, s.lane? lane = some l → l.trained = true → l.nextKeys = none →
    2 ^ 32 - 2 ^ 20 ≤ (l.txPitch.setWidth 32).toNat → ∃ t l', exec (.keyTimeout lane) s = .next t ∧
      t.lane? lane = some l' ∧ l'.st = .detect ∧ l'.cause = 8 ∧ l'.keys = none) ∧
  (∀ (s : State) lane far p f mids, s.lane? lane = some p → s.farLane p far = some f → p.trained = true →
    ∃ t, exec (.spareSwitch lane far mids) s = .next t ∧
      t.lane? lane = some { (if p.spareSent = some f.n then p else p.place (spareSwitchMsg f.n f.midsDelivered)) with
        spareGot := some (f.n, mids), spareSent := some f.n } ∧
      (∀ m, m ≠ lane → t.lane? m = s.lane? m) ∧ t.mem = s.mem ∧ t.ctxs = s.ctxs) ∧
  (∀ (s : State) lane failed p f mids, lane ≠ failed → s.lane? lane = some p → s.lane? failed = some f → p.trained = true →
    p.txPos = 63 → p.spareGot = some (failed, mids) → p.spareSent = some failed →
    (p.ctl ++ p.ctlWait).any (fun m => fld m 0 1 == 0x11) = false → s.age.retuning ≠ some failed →
    ∃ t p' f', exec (.controlCellSend lane) s = .next t ∧ t.lane? lane = some p' ∧ t.lane? failed = some f' ∧
      p'.st = .up ∧ p'.active = true ∧ p'.partner = false ∧ p'.ctr = p.ctr.modify 13 (· + 1) ∧ f'.partner = true ∧
      f'.txs = [] ∧ f'.rxs = [] ∧ f'.st ≠ .up ∧ f'.ctr = f.ctr.modify 13 (· + 1) ∧ t.mem = s.mem ∧ t.ctxs = s.ctxs)

/-- While the clocks run: a second copy of an ARM_ID only leaves the inbox. A leaf that accepts a change holds it with
its answer sent, answers ALL on its lanes, with a STOP is armed for its stop time, and keeps memory and contexts; a
tray block that accepts it holds it, undecided, and keeps memory. A node that refuses a change other than a context
start holds nothing and answers REFUSE. A SCHED_SYNC whose time and EPOCH_NS are good is to be adopted at the next
boundary, and one that is not only leaves the inbox. The message leaves the inbox. (07_reduction.md, Changes at a
named boundary) -/
def Obligations.ArmArrivesOnce : Prop :=
  (∀ (s : State) lane msg, s.clocked = true → (readArm msg).kind ≠ kindSchedSync → (readArm msg).id ∈ s.red.seen →
    exec (.arm lane msg) s = .next (s.taken lane msg)) ∧
  (∀ (s : State) lane msg, s.runsAs .leaf = true → (readArm msg).kind ≠ kindSchedSync → (readArm msg).id ∉ s.red.seen →
    s.answerArm (readArm msg) = .accept → ∃ t, exec (.arm lane msg) s = .next t ∧
      (∃ b ∈ t.red.arms, b.id = (readArm msg).id ∧ b.kind = (readArm msg).kind ∧ b.epochT = (readArm msg).epochT ∧
        b.statusSent = true ∧ b.decision = none) ∧
      t.red.seen = (readArm msg).id :: s.red.seen ∧
      t.lanes = (s.sendCtlAll (s.lanesFor LaneUse.isUp) (ackMsg (readArm msg).id 0)).lanes ∧
      ((readArm msg).kind = kindStop → t.stop.phase = .armed ∧ t.stop.confirmed = false) ∧
      ((readArm msg).kind ≠ kindStop → t.stop = s.stop) ∧ t.inbox = (s.taken lane msg).inbox ∧ t.mem = s.mem ∧ t.ctxs = s.ctxs) ∧
  (∀ (s : State) lane msg, s.runsAs .tray = true → (readArm msg).kind ≠ kindSchedSync → (readArm msg).id ∉ s.red.seen →
    s.answerArm (readArm msg) = .accept → ∃ t, exec (.arm lane msg) s = .next t ∧
      (∃ b ∈ t.red.arms, b.id = (readArm msg).id ∧ b.kind = (readArm msg).kind ∧ b.epochT = (readArm msg).epochT ∧
        b.decision = none) ∧ t.red.seen = (readArm msg).id :: s.red.seen ∧ t.inbox = (s.taken lane msg).inbox ∧
      t.mem = s.mem) ∧
  (∀ (s : State) lane msg, s.clocked = true → (readArm msg).kind ≠ kindSchedSync → (readArm msg).kind ≠ kindCtxStart →
    (readArm msg).id ∉ s.red.seen → s.answerArm (readArm msg) = .refuse → ∃ t, exec (.arm lane msg) s = .next t ∧
      t = { s.taken lane msg with
        red := { s.red with seen := (readArm msg).id :: s.red.seen }
        lanes := (s.sendCtlAll (s.answerLanes (readArm msg)) (ackMsg (readArm msg).id 2)).lanes }) ∧
  (∀ (s : State) lane msg, s.clocked = true → (ITime.ofBits (readArm msg).arg).malformed = false →
    epochNsOk (readArm msg).arg2.toNat = true →
    exec (.schedSync lane msg) s = .next { s.taken lane msg with sched := { s.sched with
      adopt := some { k0 := (readArm msg).epochT, t0 := (ITime.ofBits (readArm msg).arg).toTicks
                      epochNs := (readArm msg).arg2.toNat } } }) ∧
  (∀ (s : State) lane msg, s.clocked = true → ((ITime.ofBits (readArm msg).arg).malformed = true ∨
    epochNsOk (readArm msg).arg2.toNat = false) → exec (.schedSync lane msg) s = .next (s.taken lane msg))

/-- A tray block keeps a child's answer to an arm, of two the graver, and over belay its twin's view. At its level's
deadline a node that has not answered sets its STATUS as sent. A member sends its view of the answers to its twin. At
ACK_DEADLINE side A, or a side B without a twin that was alone when it took the arm or holds belay, decides by the
merged answers; without its twin the decision goes down, with it side B's echo sends it down. Side B without belay
sends down what it holds, or what it decides 2 us later. The first decision in time is kept by a node below, and by
side B of the originating team, which sends it down; one after DECIDE_BY is only counted. At DECIDE_BY a confirmed arm
is settled, a cancelled one dropped, and an undecided one dropped and counted as an orphan. (07_reduction.md, Changes
at a named boundary) -/
def Obligations.ArmAnswersAndDecisions : Prop :=
  (∀ (s : State) lane msg v a n, s.runsAs .tray = true → s.isBelayLane lane = false → s.laneChild lane = some n →
    s.arm? (BitVec.ofNat 64 (fld msg 4 8)) = some a →
    ∃ t b, exec (.armAck lane msg v) s = .next t ∧ t.arm? a.id = some b ∧ b.decision = a.decision ∧
      b.answers = (if a.answers.any (·.1 == n) then mapIf (·.1 == n) (fun x => (n, max x.2 (fld msg 12 1))) a.answers
        else a.answers ++ [(n, fld msg 12 1)])) ∧
  (∀ (s : State) lane v a, s.runsAs .tray = true → s.isBelayLane lane = true → s.arm? a.id = some a →
    (∀ x ∈ s.red.arms, x.id ≠ a.id → viewMsg x.id v ≠ viewMsg a.id v) →
    ∃ t b, exec (.armAck lane (viewMsg a.id v) v) s = .next t ∧ t.arm? a.id = some b ∧ b.decision = a.decision ∧
      b.answers = a.answers ∧ b.twinView = v) ∧
  (∀ (s : State) id a, s.runsAs .tray = true → s.arm? id = some a → a.own = false → a.statusSent = false →
    a.lvlDeadline s.height ≤ s.now → ∃ t b, exec (.armLevelDeadline id) s = .next t ∧ t.arm? id = some b ∧
      b.statusSent = true ∧ b.decision = a.decision) ∧
  (∀ (s : State) id a, s.runsAs .tray = true → s.arm? id = some a → s.twin.paired = true →
    exec (.belayViewSend id) s = .next (s.sendBelay (viewMsg id a.answers))) ∧
  (∀ (s : State) id a, s.runsAs .tray = true → s.arm? id = some a → a.own = true → a.ackDeadline ≤ s.now → a.decision = none →
    a.down = false → s.carrying = true →
    (s.cfg.side = .a ∨ s.twin.paired = false ∧ (a.paired = false ∨ s.belayUp = true)) → ∃ t b, exec (.armAckDeadline id) s = .next t ∧
      t.arm? id = some b ∧ b.decision = some a.verdict ∧ b.down = !s.withTwin) ∧
  (∀ (s : State) lane msg a d, s.runsAs .tray = true → s.arm? (BitVec.ofNat 64 (fld msg 4 8)) = some a → a.own = true →
    s.carrying = true → s.cfg.side = .a → a.down = false → a.decision = some d → ∃ t b, exec (.decisionEcho lane msg) s = .next t ∧
      t.arm? a.id = some b ∧ b.echoed = true ∧ b.down = true ∧ b.decision = some d) ∧
  (∀ (s : State) id a, s.runsAs .tray = true → s.arm? id = some a → a.own = true → s.carrying = true → s.cfg.side = .b → s.belayUp = false →
    a.down = false → (a.decision.isSome = true ∨ a.ackDeadline + nsT 2000 ≤ s.now) →
    ∃ t b, exec (.sideBDecide id) s = .next t ∧ t.arm? id = some b ∧ b.down = true ∧
      b.decision = some (a.decision.getD a.verdict)) ∧
  (∀ (s : State) lane msg a (c : Bool), s.clocked = true → s.arm? (BitVec.ofNat 64 (fld msg 4 8)) = some a → s.now ≤ a.decideBy →
    a.own = false → a.decision = none →
    ∃ t b, exec (if c then .confirm lane msg else .cancel lane msg) s = .next t ∧ t.arm? a.id = some b ∧
      b.decision = some c) ∧
  (∀ (s : State) lane msg a (c : Bool), s.clocked = true → s.arm? (BitVec.ofNat 64 (fld msg 4 8)) = some a → s.now ≤ a.decideBy →
    a.own = true → s.isBelayLane lane = true → s.cfg.side = .b → a.decision = none →
    ∃ t b, exec (if c then .confirm lane msg else .cancel lane msg) s = .next t ∧ t.arm? a.id = some b ∧
      b.decision = some c ∧ b.down = true) ∧
  (∀ (s : State) lane msg a (c : Bool), s.clocked = true → s.arm? (BitVec.ofNat 64 (fld msg 4 8)) = some a → a.decideBy < s.now →
    ∃ t, exec (if c then .confirm lane msg else .cancel lane msg) s = .next t ∧
      t = { s.taken lane msg with red := { s.red with armLate := s.red.armLate + 1 }, err := t.err }) ∧
  (∀ (s : State) id a, s.arm? id = some a → a.decideBy ≤ s.now → (a.own = false ∨ s.cfg.side = .b ∨ a.down = true) →
    (a.decision = some true → ∃ t b, exec (.armDecideBy id) s = .next t ∧ t.arm? id = some b ∧ b.settled = true) ∧
    (a.decision = some false → ∃ t, exec (.armDecideBy id) s = .next t ∧ t.arm? id = none ∧
      t.red.armOrphan = s.red.armOrphan) ∧
    (a.decision = none → ∃ t, exec (.armDecideBy id) s = .next t ∧ t.arm? id = none ∧
      t.red.armOrphan = s.red.armOrphan + 1 ∧ t.sticky.rstState = s.sticky.rstState ||| 0x00800000))

/-- At MEMBER_WAIT epochs without a contribution of an expected child, an unpaired member declares it absent from that
epoch with the reason of 01; side A of a pair with belay asks side B, and repeats the query after 20 us; without belay
the query ends. Side B with the contribution answers and sends it, a record on VC1 and a sheaf or partial on VC2 in
its context's share; without it it answers NONE and will discard it. On NONE a query ends, and without a twin the
child is declared absent if still missing and expected; a record in the answer is taken as if it had arrived. A
decision received over belay joins the membership record. (05_snapshots_and_sheaves.md, Completeness and membership,
01_fleet_and_roles.md, From cut to fleet sheaf) -/
def Obligations.MembershipOverBelay : Prop :=
  (∀ (s : State) ctx slot k w, s.profile = .tray → s.mode = .service → slot < 1000 → (s.cfg.role ≠ .tray ∨ ctx ∈ s.ctxs.map (·.id)) →
    s.waitFrom ctx slot k = some w →
    w + nsT (s.cfg.memberWait * s.cfg.epochNs) ≤ s.now → s.missing ctx slot k = true →
    expectedAt s.red.changes ctx slot k = true → absentAt s.red.changes ctx slot k = false → s.twin.paired = false →
    ∃ t, exec (.memberWaitDeadline ctx slot k) s = .next t ∧
      t = { s with red := { s.red with changes := t.red.changes, assignOwed := t.red.assignOwed } } ∧
      ∃ c ∈ t.red.changes, c.ctx = ctx ∧ c.slot = slot ∧ c.e.epoch = k ∧ c.e.join = false ∧
        c.e.reason = s.absenceReason slot k false) ∧
  (∀ (s : State) ctx slot k w, s.profile = .tray → s.mode = .service → slot < 1000 → s.waitFrom ctx slot k = some w →
    w + nsT (s.cfg.memberWait * s.cfg.epochNs) ≤ s.now → s.missing ctx slot k = true →
    expectedAt s.red.changes ctx slot k = true → absentAt s.red.changes ctx slot k = false → s.twin.paired = true →
    s.belayUp = true → s.cfg.side = .a → ∃ t, exec (.memberWaitDeadline ctx slot k) s = .next t ∧
      (ctx, slot, k, s.now) ∈ t.red.queries ∧ t.red.changes = s.red.changes ∧
      t.lanes = (s.sendBelay (memberQueryMsg ctx slot k)).lanes) ∧
  (∀ (s : State) ctx slot k t0, s.runsAs .tray = true → s.belayUp = true →
    s.red.queries.find? (fun q => q.1 == ctx && q.2.1 == slot && q.2.2.1 == k) = some (ctx, slot, k, t0) →
    t0 + nsT 20000 ≤ s.now → ∃ t, exec (.memberQueryRetry ctx slot k) s = .next t ∧ (ctx, slot, k, s.now) ∈ t.red.queries ∧
      t.lanes = (s.sendBelay (memberQueryMsg ctx slot k)).lanes ∧ t.red.changes = s.red.changes) ∧
  (∀ (s : State) ctx slot k q, s.runsAs .tray = true → s.belayUp = false →
    s.red.queries.find? (fun q => q.1 == ctx && q.2.1 == slot && q.2.2.1 == k) = some q →
    ∃ t, exec (.memberQueryRetry ctx slot k) s = .next t ∧
      t.red.queries = s.red.queries.filter fun q => !(q.1 == ctx && q.2.1 == slot && q.2.2.1 == k)) ∧
  (∀ (s : State) lane ctx slot k, s.runsAs .tray = true → s.contribution? ctx slot k = none →
    ∃ t, exec (.memberQuery lane ctx slot k) s = .next t ∧ t.red.noneAnswered = (ctx, slot, k) :: s.red.noneAnswered ∧
      t.lanes = (s.sendCtl lane (memberAnswerMsg ctx slot k false (!(s.slotLanes slot).isEmpty))).lanes ∧
      t.tooLate ctx slot k = true) ∧
  (∀ (s : State) lane ctx slot k b, s.runsAs .tray = true → s.contribution? ctx slot k = some b →
    exec (.memberQuery lane ctx slot k) s = .next (
      let u := s.sendCtl lane (memberAnswerMsg ctx slot k true true)
      if s.cfg.role = .tray then u.sendMsg lane 1 0 0 (s.genOf 0) b else u.sendMsg lane 2 ctx ctx (s.genOf ctx) b)) ∧
  (∀ (s : State) lane ctx slot k up, s.runsAs .tray = true → ∃ t, exec (.memberAnswer lane ctx slot k (.none up)) s = .next t ∧
    t.red.queries = (s.red.queries.filter fun q => !(q.1 == ctx && q.2.1 == slot && q.2.2.1 == k)) ∧
    (s.missing ctx slot k = false → t.red.changes = s.red.changes) ∧
    (s.missing ctx slot k = true → slot < 1000 → expectedAt s.red.changes ctx slot k = true → absentAt s.red.changes ctx slot k = false →
      s.twin.paired = false → (s.cfg.role ≠ .tray ∨ ctx ∈ s.ctxs.map (·.id)) →
      ∃ c ∈ t.red.changes, c.ctx = ctx ∧ c.slot = slot ∧ c.e.epoch = k ∧ c.e.join = false ∧
        c.e.reason = s.absenceReason slot k up)) ∧
  (∀ (s : State) lane ctx slot k b, s.runsAs .tray = true → s.cfg.role = .tray →
    exec (.memberAnswer lane ctx slot k (.record b)) s = .next (takeRecord b { s with red := { s.red with
      queries := s.red.queries.filter fun q => !(q.1 == ctx && q.2.1 == slot && q.2.2.1 == k) } })) ∧
  (∀ (s : State) lane ctx slot e, s.runsAs .tray = true → ∃ t, exec (.memberDecide lane ctx slot e) s = .next t ∧
    { ctx := ctx, slot := slot, e := e, silent := decide (shardSlot < slot) } ∈ t.red.changes ∧
    (∀ c ∈ s.red.changes, c ∈ t.red.changes) ∧ t.lanes = s.lanes ∧ t.ctxs = s.ctxs ∧ t.mem = s.mem)

/-- A HOLD_NOTICE of a child is kept with its time. A leaf's report of a lost die, a lost capture, an overwritten
epoch, its lanes' state or its die's radio floor is kept; of a context reset at the leaf the deciding member declares
LEAVE CTX_RELEASED from the next epoch where the context expects the leaf. A leaf answers a RESEND_REQ from its ring,
counting health counter 318, or with RING_OVERWRITTEN, counting 319; the ring stands. A tray block passes a request
for a leaf's ring to the leaf's lanes, and answers one for a sheaf that it has sent with that sheaf on VC2.
(06_zhelen_links.md, Control cells and control messages, 05_snapshots_and_sheaves.md, Completeness and membership,
07_reduction.md, Recompute) -/
def Obligations.StatusMessagesOfChildren : Prop :=
  (∀ (s : State) lane ctx k slot, s.runsAs .tray = true → s.laneSlot lane = some slot →
    ∃ t, exec (.holdNotice lane ctx k) s = .next t ∧ (ctx, slot, k, s.now) ∈ t.red.holds ∧
      t = { s with red := { s.red with holds := t.red.holds }, inbox := t.inbox }) ∧
  (∀ (s : State) lane slot r x, s.runsAs .tray = true → s.laneSlot lane = some slot →
    (r = .dieLost ∧ x = (slot, 1, s.curEpoch) ∨ (∃ k, r = .captureLost k ∧ x = (slot, 2, k)) ∨
      ∃ k, r = .ringOverwritten k ∧ x = (slot, 3, k)) →
    ∃ t, exec (.leafStatus lane r) s = .next t ∧ x ∈ t.red.reports ∧ (∀ y ∈ s.red.reports, y ∈ t.red.reports) ∧
      t = { s with red := { s.red with reports := t.red.reports } }) ∧
  (∀ (s : State) lane slot a b, s.runsAs .tray = true → s.laneSlot lane = some slot →
    ∃ t, exec (.leafStatus lane (.laneUp a b)) s = .next t ∧ (slot, (if a then 5 else 4), 0) ∈ t.red.reports ∧
      (slot, (if b then 5 else 4), 1) ∈ t.red.reports) ∧
  (∀ (s : State) lane slot w, s.runsAs .tray = true → s.laneSlot lane = some slot →
    exec (.leafStatus lane (.radioFloor w)) s = .next { s with act := { s.act with
      floors := putBack (fun x => x.1 == slot) (slot, w.toNat) s.act.floors } }) ∧
  (∀ (s : State) lane slot ctx r, s.runsAs .tray = true → s.laneSlot lane = some slot → s.decides = true →
    expectedAt s.red.changes ctx slot (r + 1) = true → ∃ t, exec (.leafStatus lane (.ctxReset ctx r)) s = .next t ∧
      ∃ c ∈ t.red.changes, c.ctx = ctx ∧ c.slot = slot ∧ c.e.epoch = r + 1 ∧ c.e.join = false ∧ c.e.reason = 7) ∧
  (∀ (s : State) lane x r, s.runsAs .leaf = true → bits (fld x.msg 12 4) 27 24 = 1 →
    s.cap.ring.find? (fun r => r.k == fld x.msg 4 8 && r.whole && !r.lost) = some r →
    ∃ t, exec (.resendReq lane x) s = .next t ∧ t.cap = { s.cap with health := s.cap.health.modify 318 (· + 1) } ∧
      t.lanes = (s.sendMsg lane 1 0 0 (s.genOf 0) (r.record s.cfg.leafId true)).lanes) ∧
  (∀ (s : State) lane x, s.runsAs .leaf = true → bits (fld x.msg 12 4) 27 24 = 1 →
    s.cap.ring.find? (fun r => r.k == fld x.msg 4 8 && r.whole && !r.lost) = none →
    ∃ t, exec (.resendReq lane x) s = .next t ∧ t.cap = { s.cap with health := s.cap.health.modify 319 (· + 1) } ∧
      t.lanes = (s.sendCtl lane (leafStatusMsg 3 [fld x.msg 4 8])).lanes) ∧
  (∀ (s : State) lane x slot, s.runsAs .tray = true → bits (fld x.msg 12 4) 27 24 = 1 →
    s.leafSlot (fld x.msg 12 4 % 2 ^ 17) = some slot → exec (.resendReq lane x) s = .next ((s.taken lane x.msg).sendCtlAll
      (s.slotLanes slot) (resendReqMsg (fld x.msg 4 8) (fld x.msg 12 4 % 2 ^ 17) (bits (fld x.msg 12 4) 23 20) 1))) ∧
  (∀ (s : State) lane x h, s.runsAs .tray = true → (bits (fld x.msg 12 4) 27 24 = 2 ∨ bits (fld x.msg 12 4) 27 24 = 3) →
    s.red.sheaves.find? (fun h => h.ctx == bits (fld x.msg 12 4) 23 20 && h.k == fld x.msg 4 8 && h.sent) = some h →
    exec (.resendReq lane x) s = .next ((s.taken lane x.msg).sendMsg lane 2 (bits (fld x.msg 12 4) 23 20)
      (bits (fld x.msg 12 4) 23 20) h.gen (h.bytes ++ h.summary)))

/-- At a tray block that carries its role a verified leaf record, direct or relayed on its kind of lane, that agrees
with the schedule and is neither held nor late lands for its slot and epoch, and the sheaves stand; a child sheaf at
CHASSIS and SUMMIT role and a shard partial at SUMMIT role join the children. A verified interval record of a held
context, or capture message of a held generation, takes the next entry of its capture area, its FADD first; a capture
message of another generation is counted as discarded. A leaf keeps its own entries of a verified set-up table, a tray
block all of them. (07_reduction.md, Contributions and the fold, 05_snapshots_and_sheaves.md, Leaf records,
08_trace_stop_and_watch.md, Delivery, 14_contexts_and_separation.md, Set-up) -/
def Obligations.ContributionsLand : Prop :=
  (∀ (s : State) lane b rel slot, s.profile = .tray → s.mode = .service →
    (s.lanes.any fun l => l.n == lane && l.plan.use.isBelay) = rel → s.leafSlot (recLeaf b) = some slot → recOk b = true →
    s.agrees b = true → s.landed? slot (recEpoch b) = none → s.tooLate 0 slot (recEpoch b) = false →
    ∃ t, exec (.leafCutRecord lane b rel) s = .next t ∧ t.landed? slot (recEpoch b) = some b ∧
      (∀ x ∈ s.red.landing, x.k + 16 > recEpoch b → x ∈ t.red.landing) ∧ t.red.sheaves = s.red.sheaves) ∧
  (∀ (s : State) lane b sm slot rt, s.profile = .tray → s.mode = .service →
    (s.cfg.role = .chassis ∧ rt = 2 ∨ s.cfg.role = .summit ∧ rt = 3) → s.childSlot lane b = some slot →
    sheafOk rt b = true → s.sheafAgrees b = true →
    s.red.children.any (fun c => c.ctx == fld b 48 1 % 16 && c.slot == slot && c.k == fld b 8 8) = false →
    s.tooLate (fld b 48 1 % 16) slot (fld b 8 8) = false → ∃ t, exec (.childSheaf lane b sm) s = .next t ∧
      t.red.children = s.red.children ++ [{ ctx := fld b 48 1 % 16, slot := slot, k := fld b 8 8
                                            bytes := b.take (fld b 88 4), summary := sm }]) ∧
  (∀ (s : State) lane b, s.profile = .tray → s.mode = .service → s.cfg.role = .summit → sheafOk 6 b = true →
    s.sheafAgrees b = true → s.red.children.any (fun c => c.ctx == fld b 48 1 % 16 && c.slot == 1000 + fld b 4 4 % 4
      && c.k == fld b 8 8) = false → s.tooLate (fld b 48 1 % 16) (1000 + fld b 4 4 % 4) (fld b 8 8) = false →
    ∃ t, exec (.shardPartial lane b) s = .next t ∧
      t.red.children = s.red.children ++ [{ ctx := fld b 48 1 % 16, slot := 1000 + fld b 4 4 % 4, k := fld b 8 8
                                            bytes := b.take (fld b 88 4), summary := [] }]) ∧
  (∀ (s : State) lane ctx msg a, s.profile = .tray → s.mode = .service → 128 ≤ msg.length → crcOk msg = true →
    fld msg 0 1 = 5 → (s.heldGen ctx).isSome = true → s.captArea? ctx (fld msg 8 8) = some a → a.base ≠ 0 →
    64 + msg.length ≤ a.z → ∃ t addr old, exec (.intervalRecord lane ctx msg) s = .next t ∧
      t.captOut = s.captOut ++ [{ ctx := ctx, q := a.q, addr := addr, expect := old, bytes := msg }] ∧
      t.out = s.out ++ [.fadd ctx addr (BitVec.ofInt 64 (-(old : Int)))] ∧
      addr = a.base + (if s.cfg.side = .a then 0 else a.n * a.z) + a.q % a.n * a.z) ∧
  (∀ (s : State) lane msg, s.profile = .tray → s.mode = .service → 128 ≤ msg.length → crcOk msg = true →
    fld msg 0 1 ∈ [7, 8, 9, 10, 11, 12] → fld msg 1 1 = 1 →
    ∃ t, exec (.captureMessage lane msg) s = .next t ∧
      (∀ a, s.heldGen (fld msg 48 1 % 16) = some (BitVec.ofNat 16 (fld msg 50 2)) →
        s.captArea? (fld msg 48 1 % 16) (fld msg 8 8) = some a → a.base ≠ 0 → 64 + msg.length ≤ a.z →
        t.captOut.length = s.captOut.length + 1 ∧ t.out.length = s.out.length + 1) ∧
      (s.heldGen (fld msg 48 1 % 16) ≠ some (BitVec.ofNat 16 (fld msg 50 2)) →
        t.captOut = s.captOut ∧ t.out = s.out ∧
        t.err.cnt = s.err.cnt.modify 24 fun v => BitVec.ofNat 32 (min 0xFFFFFFFF (v.toNat + 1)))) ∧
  (∀ (s : State) lane msg, s.runsAs .tray = true → 64 ≤ msg.length → fld msg 0 1 = 0x0D → fld msg 1 1 = 1 →
    crcOk (msg.take 64) = true → ∃ t, exec (.ctxSetup lane msg) s = .next t ∧
      ∃ su ∈ t.setups, su.setupId = BitVec.ofNat 64 (fld msg 8 8) ∧ su.ctx = fld msg 2 1 % 16 ∧
        su.gen = BitVec.ofNat 16 (fld msg 4 2) ∧ ∀ e ∈ setupEntries msg, e ∈ su.entries) ∧
  (∀ (s : State) lane msg, s.runsAs .leaf = true → 64 ≤ msg.length → fld msg 0 1 = 0x0D → fld msg 1 1 = 1 →
    crcOk (msg.take 64) = true → BitVec.ofNat 64 (fld msg 8 8) ≠ assignmentId →
    ∃ t, exec (.ctxSetup lane msg) s = .next t ∧ t = { s.taken lane msg with setups := t.setups } ∧
      ∃ su ∈ t.setups, su.setupId = BitVec.ofNat 64 (fld msg 8 8) ∧ su.ctx = fld msg 2 1 % 16 ∧
        su.gen = BitVec.ofNat 16 (fld msg 4 2) ∧ ∀ e ∈ setupEntries msg, e.leaf = s.cfg.leafId → e ∈ su.entries)

/-- A present, expected leaf record whose predecessor is held or that carries FIRST, and a present child sheaf or
partial, is merged into the open sheaf of its epoch, also when its unit's checks fail and a repeat or a spare finishes
it; a second merge is only counted, in DUP_MERGE. A check that fails for good without a spare, or a unit that is gone,
merges nothing. A complete sheaf that is no shard partial is built, a fleet sheaf with the chassis of a lost shard
expected, and sent; with an area that holds it, a FADD on its slot's flag word starts the publication, and without an
area nothing more goes out. A complete shard partial joins this member's own contributions. When the FADD of an entry
written before returns, the sheaf's lines follow and then the flag with the epoch plus 1, and a return of the value
last stored reports nothing; the first return of a fresh entry brings a FADD of minus the value; the return for a
capture entry brings its lines and then the flag with q + 1. (07_reduction.md, Contributions and the fold,
05_snapshots_and_sheaves.md, Publication, 05_snapshots_and_sheaves.md, Sheaves) -/
def Obligations.SheafMergesAndPublishes : Prop :=
  (∀ (s : State) ctx slot k h b chk, s.runsAs .tray = true → s.sheaf? ctx k slot = some h → h.level = .tray → slot ∉ h.merged →
    expectedAt s.red.changes ctx slot k = true → absentAt s.red.changes ctx slot k = false → s.landed? slot k = some b →
    (recFirst b = true ∨ (s.landed? slot (k - 1)).isSome = true) →
    s.unitGone clsReduce chk.unit = false → s.stepLost clsReduce chk = false →
    ∃ t, exec (.contributionMerge ctx slot k chk) s = .next t ∧
      ∃ h' ∈ t.red.sheaves, h'.ctx = ctx ∧ h'.k = k ∧ h'.level = .tray ∧ slot ∈ h'.merged) ∧
  (∀ (s : State) ctx slot k h c chk, s.runsAs .tray = true → s.sheaf? ctx k slot = some h → h.level ≠ .tray →
    slot ∉ h.merged → (h.level = .fleet ∨ expectedAt s.red.changes ctx slot k = true) →
    absentAt s.red.changes ctx (changeSlot slot) k = false → s.unitGone clsReduce chk.unit = false →
    s.stepLost clsReduce chk = false →
    s.red.children.find? (fun c => c.ctx == ctx && c.slot == slot && c.k == k) = some c →
    ∃ t, exec (.contributionMerge ctx slot k chk) s = .next t ∧
      ∃ h' ∈ t.red.sheaves, h'.ctx = ctx ∧ h'.k = k ∧ h'.level = h.level ∧ slot ∈ h'.merged) ∧
  (∀ (s : State) ctx slot k h chk, s.runsAs .tray = true → s.sheaf? ctx k slot = some h → slot ∈ h.merged →
    s.unitGone clsReduce chk.unit = false → ∃ t, exec (.contributionMerge ctx slot k chk) s = .next t ∧
      t = { s with red := { s.red with dupMerge := s.red.dupMerge + 1 }, err := t.err }) ∧
  (∀ (s : State) ctx slot k h chk, s.runsAs .tray = true → s.sheaf? ctx k slot = some h → slot ∉ h.merged →
    s.stepLost clsReduce chk = true → ∃ t, exec (.contributionMerge ctx slot k chk) s = .next t ∧ t.red = s.red) ∧
  (∀ (s : State) ctx slot k (chk : CheckOutcome), s.runsAs .tray = true → s.unitGone clsReduce chk.unit = true →
    exec (.contributionMerge ctx slot k chk) s = .next s) ∧
  (∀ (s : State) ctx k h, s.profile = .tray → s.mode = .service →
    s.red.sheaves.find? (fun h => h.ctx == ctx && h.k == k && h.stage == .open && h.complete s.red.changes) = some h →
    h.level ≠ .shard → ∃ t, exec (.sheafPublish ctx k) s = .next t ∧
      (∃ h' ∈ t.red.sheaves, h'.ctx = ctx ∧ h'.k = k ∧ h'.level = h.level ∧ h'.sent = true ∧
        h'.bytes = (s.withLost h).build s.red.changes s.red.leafExp (s.scopeOf h.level) ∧ h'.stage ≠ .open) ∧
      (s.pub? ctx k = none → t.out = s.out) ∧
      (∀ a, s.pub? ctx k = some a →
        64 + ((s.withLost h).build s.red.changes s.red.leafExp (s.scopeOf h.level) ++ h.verdicts.flatten).length ≤ a.z →
        t.out = s.out ++ [.fadd ctx (a.slotAddr k (s.pubSlots h.level).1 (s.pubSlots h.level).2)
          (BitVec.ofInt 64 (-((if a.firstTime k then 0 else a.storedAt k : Nat) : Int)))])) ∧
  (∀ (s : State) ctx k h, s.profile = .tray → s.mode = .service →
    s.red.sheaves.find? (fun h => h.ctx == ctx && h.k == k && h.stage == .open && h.complete s.red.changes) = some h →
    h.level = .shard → ∃ t, exec (.sheafPublish ctx k) s = .next t ∧ t.out = s.out ∧
      t.red.children = s.red.children ++ [{ ctx := h.ctx, slot := 1000 + s.cfg.team, k := h.k
                                            bytes := h.build s.red.changes s.red.leafExp s.cfg.team, summary := [] }]) ∧
  (∀ (s : State) ctx k h a ret, s.runsAs .tray = true →
    s.red.sheaves.find? (fun h => h.ctx == ctx && h.k == k && h.stage == .adding) = some h → s.pub? ctx k = some a →
    a.firstTime k = true → ∃ t, exec (.publishFaddReturn ctx k ret) s = .next t ∧ t.out = s.out ++
      [.fadd ctx (a.slotAddr k (s.pubSlots h.level).1 (s.pubSlots h.level).2) (-ret)]) ∧
  (∀ (s : State) ctx k c ret, s.runsAs .tray = true →
    s.red.sheaves.find? (fun h => h.ctx == ctx && h.k == k && h.stage == .adding) = none →
    s.captOut.find? (fun c => c.ctx == ctx && c.q == k) = some c → ∃ t, exec (.publishFaddReturn ctx k ret) s = .next t ∧
      c ∉ t.captOut ∧ t.out = s.out ++ (linesOf c.bytes).zipIdx.map (fun x => Out.store64 ctx (c.addr + 64 + 64 * x.2) x.1)
        ++ [.flag ctx c.addr (BitVec.ofNat 64 (k + 1))]) ∧
  (∀ (s : State) ctx k h a ret, s.runsAs .tray = true →
    s.red.sheaves.find? (fun h => h.ctx == ctx && h.k == k && h.stage == .adding) = some h → s.pub? ctx k = some a →
    a.firstTime k = false → ∃ t, exec (.publishFaddReturn ctx k ret) s = .next t ∧
      (let addr := a.slotAddr k (s.pubSlots h.level).1 (s.pubSlots h.level).2
       t.out = s.out ++ (linesOf (h.bytes ++ h.verdicts.flatten)).zipIdx.map (fun x => Out.store64 ctx (addr + 64 + 64 * x.2) x.1)
         ++ [.flag ctx addr (BitVec.ofNat 64 (k + 1))]) ∧
      (ret.toNat = a.storedAt k → t.sticky = s.sticky ∧ t.ctxs = s.ctxs))

/-- The recovery of a missing contribution, at TRAY role a record for every context and above it a sheaf or partial of
one, starts at the twin, or without belay at the next source of the role; a twin silent for 20 us, or without belay,
passes it on to that source; a request to the leaf is repeated after 2 us. At TRAY role a landed record is logged in
the raw ring as a valid block while an engine is left, and past T_(k+14) with fewer than 7 engines RAW_COPY_PATH logs
it and GLM_STAT says so. A due checkpoint with no poisoned row has its manifest; a poisoned row abandons the manifest.
(07_reduction.md, Recompute, 13_glume_compression.md, The raw ring) -/
def Obligations.RecomputeRingAndCheckpoint : Prop :=
  (∀ (s : State) slot k c x, s.runsAs .tray = true →
    let ctx := if s.cfg.role = .tray then 0 else c
    s.recovery? ctx slot k = none → s.missing ctx slot k = true →
    ∃ t, exec (.resendSourceTimeout { slot := slot, epoch := k, ctx := c } x) s = .next t ∧
      { ctx := ctx, slot := slot, k := k, source := if s.belayUp then 1 else s.afterTwin, since := s.now, asked := s.now } ∈ t.red.recover) ∧
  (∀ (s : State) slot k c r x, s.runsAs .tray = true →
    s.recovery? (if s.cfg.role = .tray then 0 else c) slot k = some r → r.source = 1 →
    (s.belayUp = false ∨ r.since + nsT 20000 ≤ s.now) →
    ∃ t, exec (.resendSourceTimeout { slot := slot, epoch := k, ctx := c } x) s = .next t ∧
      { r with source := s.afterTwin, since := s.now, asked := s.now } ∈ t.red.recover) ∧
  (∀ (s : State) slot k r, s.runsAs .tray = true → s.recovery? 0 slot k = some r → r.source = 2 → r.asked + nsT 2000 ≤ s.now →
    ∃ t, exec (.resendRetry slot k) s = .next t ∧ { r with asked := s.now } ∈ t.red.recover ∧
      t = { s with red := { s.red with recover := t.red.recover }, lanes := t.lanes }) ∧
  (∀ (s : State) slot k b chk, s.runsAs .tray = true → s.cfg.role = .tray → s.landed? slot k = some b → s.glumeEngines ≠ 0 →
    s.logged slot k = false → s.unitGone clsGlume chk.unit = false → (unitCheck clsGlume chk s).glumeEngines ≠ 0 →
    ∃ t, exec (.rawRingLog slot k chk) s = .next t ∧ t.logged slot k = true ∧
      ∃ x ∈ t.raw.blocks, x.slot = slot ∧ x.k = k ∧ x.poisoned = false ∧
        x.bytes = glumeBlock .none false false k (rawSubject b) b) ∧
  (∀ (s : State) slot k b w, s.runsAs .tray = true → s.cfg.role = .tray → s.landed? slot k = some b → s.glumeEngines < 7 →
    s.logged slot k = false → s.timeOf (k + 14) = some w → w ≤ s.now → ∃ t, exec (.rawCopyPath slot k) s = .next t ∧
      t.logged slot k = true ∧ t.sticky = { s.sticky with glm := s.sticky.glm ||| 0x80000000 } ∧
      t = { s with raw := t.raw, red := { s.red with landing := t.red.landing }, sticky := t.sticky, raisedNow := t.raisedNow
                   chans := t.chans }) ∧
  (∀ (s : State) k ks, s.runsAs .tray = true → s.raw.due = k :: ks →
    (∀ t ∈ s.mem.tables, ∀ r ∈ t.rows, (s.ckptRow t.img.tableId r).v.poisoned = false ∧
      (s.ckptRow t.img.tableId r).v.badLines = []) →
    ∃ t c, exec .checkpointWrite s = .next t ∧ t.raw.ckpts.getLast? = some c ∧ c.k = k ∧ 4 ≤ c.manifest.length ∧
      t.raw.due = ks ∧ t.raw.copies = [] ∧ t.sticky = s.sticky) ∧
  (∀ (s : State) k ks x r, s.runsAs .tray = true → s.raw.due = k :: ks → x ∈ s.mem.tables → r ∈ x.rows →
    (s.ckptRow x.img.tableId r).v.poisoned = true → ∃ t c, exec .checkpointWrite s = .next t ∧
      t.raw.ckpts.getLast? = some c ∧ c.k = k ∧ c.manifest = [] ∧ t.out = s.out ∧
      t.sticky = { s.sticky with glm := s.sticky.glm ||| 0x20000000 } ∧ t.mem = s.mem)

/-- When a row's inputs of epoch k are there and its ROW_EPOCH is k - 1, its update leaves the row of the update rules
with ROW_EPOCH k and the version before it, the other rows of its table standing, when its unit is in service and its
checks give a result and the lines read are good or corrected; a step that no unit can finish, or of a unit that is
gone, leaves the tables, and a poisoned header line stops the row's updates. The update of a row whose ROW_EPOCH is
not k - 1 changes nothing. The leaf's update unit does the same from T_k + 5.3 us once the epoch before has been
scored. A row copy keeps the row with its ROW_EPOCH, or sets bit 27 of THR_STAT when the row's next update is ready. A
newly hot row is installed, and the deep row next due frozen once its batch has come to its period and its set is
free. Class-S work unfinished at T_k + 18 us sets SLOT_LATE, bit 31 of THR_STAT. (09_memory_and_thresher.md, Feature
tables, 09_memory_and_thresher.md, The Granary, 09_memory_and_thresher.md, The slot window, 11_models_and_features.md,
Model kinds, 11_models_and_features.md, Leaf features) -/
def Obligations.TableRowsUpdateOncePerEpoch : Prop :=
  (∀ (s : State) tab row k x t r r', s.runsAs .tray = true → s.table? tab = some t → t.row? row = some r →
    s.rowUpdate t r k = some r' → s.unitGone clsThresher x.check.unit = false → s.stepLost clsThresher x.check = false →
    (∀ l ∈ x.hbm, l.2 ≤ 1) → ∃ u y, exec (.thresherUpdate tab row k x) s = .next u ∧ u.table? tab = some y ∧
      y.row? row = some r' ∧ r'.v.epoch = k ∧ r.v.epoch + 1 = k ∧ r'.old = r.v ∧ ∀ m, m ≠ row → y.row? m = t.row? m) ∧
  (∀ (s : State) tab row k x t r, s.runsAs .tray = true → s.table? tab = some t → t.row? row = some r → r.v.epoch + 1 ≠ k →
    exec (.thresherUpdate tab row k x) s = .next s) ∧
  (∀ (s : State) tab row k x, s.runsAs .tray = true → s.stepLost clsThresher x.check = true → (∀ l ∈ x.hbm, l.2 ≤ 1) →
    ∃ u, exec (.thresherUpdate tab row k x) s = .next u ∧ u.mem = s.mem) ∧
  (∀ (s : State) tab row k (x : RowStep), s.runsAs .tray = true → s.unitGone clsThresher x.check.unit = true →
    exec (.thresherUpdate tab row k x) s = .next s) ∧
  (∀ (s : State) tab row k x n t r r', s.runsAs .tray = true → s.table? tab = some t → t.row? row = some r →
    s.rowUpdate t r k = some r' → s.unitGone clsThresher x.check.unit = false → x.hbm = [(0, n + 2)] →
    ∃ u y q, exec (.thresherUpdate tab row k x) s = .next u ∧ u.table? tab = some y ∧ y.row? row = some q ∧
      0 ∈ q.v.badLines ∧ q.v.poisoned = true ∧ q.v.epoch = r.v.epoch ∧ q.v.words = r.v.words) ∧
  (∀ (s : State) tab row k chk t r r' u0 b, s.runsAs .leaf = true → s.unit? clsUpdate = some u0 → 0 < u0.inService →
    s.boundary? k = some b → b.t + nsT 5300 ≤ s.now → (∀ c ∈ s.ctxs, s.verdictsDone c.id (k - 1) = true) →
    s.table? tab = some t → t.row? row = some r → s.rowUpdate t r k = some r' →
    s.unitGone clsUpdate chk.unit = false → s.stepLost clsUpdate chk = false →
    ∃ u y, exec (.leafFeatureUpdate tab row k chk) s = .next u ∧ u.table? tab = some y ∧ y.row? row = some r' ∧
      r'.v.epoch = k) ∧
  (∀ (s : State) tab row t r, s.runsAs .tray = true → s.table? tab = some t → t.row? row = some r →
    s.rowUpdate t r (r.v.epoch + 1) = none → ∃ u, exec (.rowCopy tab row) s = .next u ∧ (tab, r) ∈ u.raw.copies ∧
      u = { s with raw := { s.raw with copies := u.raw.copies }, chans := u.chans }) ∧
  (∀ (s : State) tab row t r r', s.runsAs .tray = true → s.table? tab = some t → t.row? row = some r →
    s.rowUpdate t r (r.v.epoch + 1) = some r' → ∃ u, exec (.rowCopy tab row) s = .next u ∧
      u = { s with sticky := { s.sticky with thr := s.sticky.thr ||| 0x08000000 }, raisedNow := u.raisedNow }) ∧
  (∀ (s : State) tab row t r h, s.runsAs .tray = true → s.table? tab = some t → t.row? row = some r → h ∈ s.mem.hot →
    h.table = tab → h.row = row → h.vers = [] → ∃ u, exec (.hotRowInstall tab row) s = .next u ∧
      { h with vers := [r.v] } ∈ u.mem.hot ∧ u = { s with mem := { s.mem with hot := u.mem.hot }, chans := u.chans }) ∧
  (∀ (s : State) model row h e ks t r, s.runsAs .tray = true → s.model? model = some h →
    (s.openPeriods h.m.ctx model row).find? (fun x => s.awaitsInstall h.m.ctx model row x.1 x.2) = some (e, ks) →
    s.table? e.tableId = some t → t.row? row = some r → (∀ q ∈ t.rows, deepDue e q.row ks = true → ks ≤ q.v.epoch) →
    s.setBusy e row ks = false →
    ∃ u, exec (.deepInstall model row) s = .next u ∧ { model := model, row := row, ks := ks, ver := r.v } ∈ u.mem.frozen ∧
      u = { s with
        mem := { s.mem with frozen := u.mem.frozen }
        chans := u.chans
        raisedNow := u.raisedNow
        sticky := { s.sticky with thr := s.sticky.thr ||| if ks < r.v.epoch then 0x08000000 else 0 } }) ∧
  (∀ (s : State) b bs, s.runsAs .tray = true → s.sched.past = b :: bs → b.t + nsT 18000 ≤ s.now →
    (∃ t ∈ s.mem.tables, t.img.slot = true ∧ ∃ r ∈ t.rows, r.v.epoch < b.k) ∨ (∃ c ∈ s.chans, 0 < c.sReady) → ∃ u, exec .slotLate s = .next u ∧
      u = { s with sticky := { s.sticky with thr := s.sticky.thr ||| 0x80000000 }, raisedNow := u.raisedNow })

/-- The patrol counts a corrected line in HBM_CE; a table line beyond the code is poisoned in its row, counted in
HBM_UE and raises ERR_SUM bit 31. A paired member's row takes its twin's epoch, age and words and loses its poison.
Corrected SRAM errors are counted, and kept by row; a row that returned an uncorrectable error, or that is queued, is
repaired with the bank's next of 8 spares while one is left, and leaves the queue. A post-package repair of a waiting
row is counted and logged in flash, and without a resource ERR_SUM bit 26 is set; the row leaves the queue.
(09_memory_and_thresher.md, Memory errors and poison, 17_checks_errors_and_ageing.md, Memory protection and repair) -/
def Obligations.MemoryErrorsAndRepair : Prop :=
  (∀ (s : State) l, s.runsAs .tray = true → ∃ t, exec (.patrolScrub l 1) s = .next t ∧
    t = { s with err := t.err, sticky := { s.sticky with thr := s.sticky.thr ||| 0x20000000 }, raisedNow := t.raisedNow
                 chans := t.chans } ∧
    t.err.cnt = s.err.cnt.modify 7 fun v => BitVec.ofNat 32 (min 0xFFFFFFFF (v.toNat + 1))) ∧
  (∀ (s : State) tab row line n t r, s.runsAs .tray = true → s.table? tab = some t → t.row? row = some r →
    ∃ u y x, exec (.patrolScrub (.table tab row line) (n + 2)) s = .next u ∧ u.table? tab = some y ∧ y.row? row = some x ∧
      line ∈ x.v.badLines ∧ x.v.words = r.v.words ∧ x.v.epoch = r.v.epoch ∧
      u.sticky.err = s.sticky.err ||| 0x80000000 ∧
      u.err.cnt = s.err.cnt.modify 8 fun v => BitVec.ofNat 32 (min 0xFFFFFFFF (v.toNat + 1))) ∧
  (∀ (s : State) tab row w t r, s.runsAs .tray = true → s.twin.paired = true → s.table? tab = some t → t.row? row = some r →
    ∃ u y x, exec (.rowRepair tab row (some w)) s = .next u ∧ u.table? tab = some y ∧ y.row? row = some x ∧
      x.v = { epoch := w.epoch, age := w.age, absent := w.absent, words := w.words, badLines := [], poisoned := false } ∧
      u = { s with
        mem := { s.mem with tables := u.mem.tables, hot := u.mem.hot }
        red := { s.red with sheaves := u.red.sheaves }
        chans := u.chans }) ∧
  (∀ (s : State) bank row n, s.clocked = true → n ≠ 0 → ∃ u, exec (.sramScrub bank row n) s = .next u ∧
    u.err.rowErrors = (noteRow s.err.rowErrors bank row n s.now).1 ∧ u.err.repairs = s.err.repairs ∧
    (s.runsAs .tray = true →
      u.err.cnt = s.err.cnt.modify 10 fun v => BitVec.ofNat 32 (min 0xFFFFFFFF (v.toNat + n))) ∧
    (s.profile = .leaf → u.cap.health =
      s.cap.health.modify (ceCounter (Config.bankKind bank)) (· + BitVec.ofNat 64 n))) ∧
  (∀ (s : State) bank row ue, s.clocked = true → (ue = true ∨ (bank, row) ∈ s.err.repairQ) → s.bankUsed bank < 8 → ∃ u, exec (.sramRowRepair bank row ue) s = .next u ∧
    u.err.repairs = s.err.repairs ++ [(bank, row, s.bankUsed bank)] ∧ (bank, row) ∉ u.err.repairQ ∧ u.mem = s.mem) ∧
  (∀ (s : State) bank row ue, s.clocked = true → (ue = true ∨ (bank, row) ∈ s.err.repairQ) → 8 ≤ s.bankUsed bank →
    ∃ u, exec (.sramRowRepair bank row ue) s = .next u ∧ u.err.repairs = s.err.repairs ∧ (bank, row) ∉ u.err.repairQ) ∧
  (∀ (s : State) stack row, s.runsAs .tray = true → (stack, row) ∈ s.err.pprQ →
    ∃ u, exec (.hbmPpr stack row true .ok) s = .next u ∧ (stack, row) ∉ u.err.pprQ ∧ u.err.ppr = s.err.ppr ++ [(stack, row)] ∧ u.out = s.out ++ [.flashProgram (0x02020000 + 8 * s.err.ppr.length) (le 4 stack ++ le 4 row)] ∧
    u.err.cnt = s.err.cnt.modify 9 (fun v => BitVec.ofNat 32 (min 0xFFFFFFFF (v.toNat + 1))) ∧
    u = { s with err := u.err, out := u.out, chans := u.chans }) ∧
  (∀ (s : State) stack row fl, s.runsAs .tray = true → (stack, row) ∈ s.err.pprQ →
    ∃ u, exec (.hbmPpr stack row false fl) s = .next u ∧ (stack, row) ∉ u.err.pprQ ∧ u = { s with
      err := { s.err with pprQ := u.err.pprQ }
      sticky := { s.sticky with err := s.sticky.err ||| 0x04000000 }
      raisedNow := u.raisedNow })

/-- With nothing poisoned on its lane, slot work on a due row that is installed and whose lane is in service starts
one job for the epoch: POISONED, ABSENT or COLD by the row test with its accumulators at BASE, or, when every tree can
be walked, OK with the sums of the trees, POISONED where the walk reads a poisoned line, COLD where no lane can finish
the step. A job of the generation held that has run all its slices completes with its record. Slot work unfinished at
T_k + 32 us sets WIN_LATE, bit 29 of WIN_STAT. A leaf scores a due row of its own tables, once the updates of the
epoch have ended, to its record. (10_winnow_engine.md, Rows, features and comparison, 10_winnow_engine.md,
Accumulation, 05_snapshots_and_sheaves.md, Verdict records, 11_models_and_features.md, Leaf features) -/
def Obligations.ScoringJobsAndRecords : Prop :=
  (∀ (s : State) model row k chk h p e t r x v, s.runsAs .tray = true → s.model? model = some h →
    s.entryFor false model row k = some (p, e) → s.table? e.tableId = some t → t.row? row = some r →
    slotDue e row k = true → k ≤ r.v.epoch → s.job? model row k = none → s.jobRuns h.m.ctx model k = true →
    s.mem.hot.find? (fun x => x.table == e.tableId && x.row == row) = some x → versionAt x.vers k = some v →
    x.held.any (fun y => tagNotAfter y.epoch k) = false → s.laneLost p e row = false → h.poisoned = false →
    s.unitGone clsLane chk.unit = false →
    ∃ u j, exec (.scoreStart model row k chk .good) s = .next u ∧ j ∈ u.mem.jobs ∧ j.model = h.m.modelId ∧ j.row = row ∧
      j.ks = k ∧ j.pub = k ∧ j.ver = v ∧ j.record = none ∧ j.slices = 1 ∧ (∀ j' ∈ s.mem.jobs, j' ∈ u.mem.jobs) ∧
      (rowTest h.m v v.badLines ≠ stOk → j.status = rowTest h.m v v.badLines ∧ j.acc = h.m.base.take h.m.nOut) ∧
      (rowTest h.m v v.badLines = stOk → s.stepLost clsLane chk = true → j.status = stCold) ∧
      (rowTest h.m v v.badLines = stOk → s.stepLost clsLane chk = false →
        let walk := walkTrees h.m { words := v.words, badLines := v.badLines, lost := .good } (slotTrees h.m)
          (h.m.base.take h.m.nOut)
        (∀ acc, walk = .sums acc → j.status = stOk ∧ j.acc = acc) ∧ ∀ l, walk = .line l → j.status = stPoisoned)) ∧
  (∀ (s : State) model row x j h, s.runsAs .tray = true →
    s.mem.jobs.find? (fun j => j.model == model && j.row == row && j.pub == x.epoch) = some j → s.model? model = some h →
    j.record = none → (if j.pub = j.ks then 1 else j.pub - j.ks - 1) ≤ j.slices → s.genOf j.ctx = j.gen →
    s.unitGone clsLane x.check.unit = false → s.stepLost clsLane x.check = false →
    ∃ u b, exec (.scoreComplete model row x) s = .next u ∧ { j with record := some b } ∈ u.mem.jobs ∧
      u.mem.jobs.length = s.mem.jobs.length ∧ u.mem.tables = s.mem.tables) ∧
  (∀ (s : State) b bs, s.sched.past = b :: bs → b.t + nsT 32000 ≤ s.now →
    (∃ c ∈ s.ctxs, ∃ x ∈ s.dueRows c.id b.k, x.1.deep = false ∧
      ∀ j, s.job? x.1.modelId x.2.1 b.k = some j → j.record = none) →
    ∃ u, exec .winLate s = .next u ∧
      u = { s with sticky := { s.sticky with win := s.sticky.win ||| 0x20000000 }, raisedNow := u.raisedNow }) ∧
  (∀ (s : State) model row k chk h j s1 u0, s.runsAs .leaf = true → s.unit? clsUpdate = some u0 → 0 < u0.inService →
    s.updatesDone k = true → s.model? model = some h → slotStart model row k chk .good s = some (j, s1) →
    s1.genOf j.ctx = j.gen → s.unitGone clsLane chk.unit = false → ∃ u b, exec (.leafModelScore model row k chk .good) s = .next u ∧
      { j with record := some b } ∈ u.mem.jobs ∧ u.mem.tables = s1.mem.tables)

/-- A ready grant step by T_k + 34 us closes its epoch; with one die that holds no cap, and no rows that cap, its
grant moves by STEP_UP or STEP_DN toward its policy, or toward its share of the budget when the policies exceed it,
which ACT_STAT bit 27 shows; a die that joins starts from its policy. A step still open at T_k + 34 us sets bit 28. A
leaf takes a later grant and ignores an earlier one, takes a safe grant only once no other has come for GRANT_STALE
epochs, offers the latest grant at or above PG_FLOOR once PG_VLD has been low for a CK_C cycle, ends the offer on
PG_ACK, reports an offer unanswered for 80 ns once, and drops PG_LIVE when every grant is stale.
(12_verdicts_and_actions.md, Grants, 02_ports_and_integration.md, Leaf ports) -/
def Obligations.GrantsOfTrayAndLeaf : Prop :=
  (∀ (s : State) d w g, s.profile = .tray → s.grantReady (s.act.lastStep + 1) = true → s.capRows (s.act.lastStep + 1) = [] →
    s.memberDies (s.act.lastStep + 1) = [d] →
    (∀ b, s.boundary? (s.act.lastStep + 1) = some b → s.now ≤ b.t + nsT 34000) → policyAt s.act.policies d (s.act.lastStep + 1) = some w →
    (s.die d).hold = none → (if s.joins (s.act.lastStep + 1) d then g = w else (s.die d).g = some g) →
    let b := s.budgetAt (s.act.lastStep + 1)
    ∃ t, exec .grantStep s = .next t ∧ t.act.lastStep = s.act.lastStep + 1 ∧
      (w ≤ b → (t.die d).g = some (stepGrant s.cfg.stepUp s.cfg.stepDn g w) ∧ t.sticky = s.sticky) ∧
      (b < w → (t.die d).g = some (stepGrant s.cfg.stepUp s.cfg.stepDn g (w * b / w)) ∧
        t.sticky = { s.sticky with act := s.sticky.act ||| 0x08000000 })) ∧
  (∀ (s : State) b, s.profile = .tray → s.boundary? (s.act.lastStep + 1) = some b → s.cfg.role = .tray → s.mode = .service →
    s.act.safe = false → b.t + nsT 34000 ≤ s.now → ∃ t, exec .grantLate s = .next t ∧
      t = { s with sticky := { s.sticky with act := s.sticky.act ||| 0x10000000 }, raisedNow := t.raisedNow }) ∧
  (∀ (s : State) lane msg l, s.runsAs .leaf = true → bit (fld msg 10 1) 1 = false → s.grant.last = some l →
    (laterEpoch (BitVec.ofNat 32 (fld msg 4 4)) l = true → exec (.grant lane msg) s = .next { s.taken lane msg with
      pins := { s.pins with pgLive := bit (fld msg 10 1) 0 }
      grant := { s.grant with
        last := some (BitVec.ofNat 32 (fld msg 4 4))
        sinceNonSafe := some 0
        sinceAny := some 0
        waiting := if bit (fld msg 10 1) 0 then some (BitVec.ofNat 16 (fld msg 8 2)) else none } }) ∧
    (laterEpoch (BitVec.ofNat 32 (fld msg 4 4)) l = false → exec (.grant lane msg) s = .next (s.taken lane msg))) ∧
  (∀ (s : State) lane msg, s.runsAs .leaf = true → bit (fld msg 10 1) 1 = true →
    (s.grantOld s.grant.sinceNonSafe = true → ∃ t, exec (.grant lane msg) s = .next t ∧ t.grant.last = s.grant.last ∧
      t.grant.sinceAny = some 0 ∧ t.pins.pgLive = bit (fld msg 10 1) 0) ∧
    (s.grantOld s.grant.sinceNonSafe = false → exec (.grant lane msg) s = .next (s.taken lane msg))) ∧
  (∀ (s : State) fl w, s.runsAs .leaf = true → s.grant.waiting = some w → s.pins.pgVld = false →
    (∀ e, s.grant.droppedAt = some e → e + 2 ≤ s.edges) →
    ∃ t, exec (.grantOffer fl) s = .next t ∧ t.pins.pgVld = true ∧ t.pins.pgWatt.toNat = max w.toNat fl.toNat ∧
      t.grant.waiting = none ∧ t.cap.health = (if w.toNat < fl.toNat then s.cap.health.modify 315 (· + 1) else s.cap.health) ∧
      t = { s with pins := t.pins, grant := t.grant, cap := { s.cap with health := t.cap.health } }) ∧
  (∀ s : State, s.runsAs .leaf = true → s.pins.pgVld = true → exec .pgAck s = .next { s with
    pins := { s.pins with pgVld := false }
    grant := { s.grant with raisedAt := none, noAck := false, droppedAt := some s.edges } }) ∧
  (∀ (s : State) r, s.runsAs .leaf = true → s.pins.pgVld = true → s.grant.raisedAt = some r → r + nsT 80 ≤ s.now →
    s.grant.noAck = false → ∃ t, exec .grantNoAck s = .next t ∧ t = { s with
      cap := { s.cap with health := s.cap.health.modify 314 (· + 1) }
      grant := { s.grant with noAck := true }
      sticky := { s.sticky with rstState := s.sticky.rstState ||| 0x00200000 }
      raisedNow := t.raisedNow }) ∧
  (∀ s : State, s.runsAs .leaf = true → s.grantOld s.grant.sinceAny = true → exec .grantStale s =
    .next { s with pins := { s.pins with pgLive := false } })

/-- A period of the loop master that carries its role, once out of its safe values, ends with the duty and the budget
of the loop's formulas for the averages of the bus samples, queued as results of that period, while the samples start
again; with BUS_SENSE_LOST the budget stands. The other member makes the same step from the master's averages. Side B
cut off from side A for 1 ms takes the loop over. A bus sample adds to the sums, and 1 ms without one sets
BUS_SENSE_LOST. An allowed limit write is sent, once more if it fails, and kept, or marks the converter unreachable.
SMB_ALERT_N sets its bit alone. (12_verdicts_and_actions.md, The tray loop, 12_verdicts_and_actions.md, Safe values,
02_ports_and_integration.md, Tray-block ports) -/
def Obligations.TrayLoopAndConverters : Prop :=
  (∀ (s : State) i, s.profile = .tray → s.cfg.role = .tray → s.mode = .service → s.act.safe = false → s.loopMaster = true →
    ∃ t, exec (.loopPeriod i) s = .next t ∧
      (let tOut := if s.tOutAddr.isSome then i.tOut else none
       let avg := busAverage s
       let safeU : Int := ((safeDuty s.straps.safeValve.toNat / 250 * 2 ^ 20 : Nat) : Int)
       let u := (loopDuty s.act.loop safeU tOut s.act.u s.act.integ).1
       let b := if s.sticky.act.getLsbD 25 then s.act.b else loopBudget s.act.loop s.pGrantMax s.bHold tOut avg.1 s.act.b
       t.act.u = u ∧ t.act.b = b ∧ t.act.outs = s.act.outs ++ [{ m := milli s.now - 1, duty := dutyOf u, b := b }] ∧
       t.act.vAvg = avg.1 ∧ t.act.iAvg = avg.2 ∧ t.act.holdup = decide (avg.1 < s.act.loop.vHold)) ∧
      t.act.samples = 0 ∧ t.act.vSum = 0 ∧ t.act.iSum = 0 ∧ t.act.duty = s.act.duty ∧ t.pins = s.pins) ∧
  (∀ (s : State) i v a lost, s.profile = .tray → s.cfg.role = .tray → s.mode = .service → s.act.safe = false →
    s.loopMaster = false → i.fromTwin = some (v, a, lost) → ∃ t, exec (.loopPeriod i) s = .next t ∧
      (let safeU : Int := ((safeDuty s.straps.safeValve.toNat / 250 * 2 ^ 20 : Nat) : Int)
       let u := (loopDuty s.act.loop safeU i.tOut s.act.u s.act.integ).1
       let b := if lost then s.act.b else loopBudget s.act.loop s.pGrantMax s.bHold i.tOut v s.act.b
       t.act.u = u ∧ t.act.b = b ∧ t.act.outs = s.act.outs ++ [{ m := milli s.now - 1, duty := dutyOf u, b := b }] ∧
       t.act.vAvg = v ∧ t.act.iAvg = a ∧ t.pins = s.pins)) ∧
  (∀ (s : State) a, s.runsAs .tray = true → s.cutOff = true → s.act.aloneSince = some a → a + nsT 1000000 ≤ s.now →
    exec .loopMasterTakeover s = .next { s with act := { s.act with takeover := true } }) ∧
  (∀ (s : State) v i, s.runsAs .tray = true → exec (.v42Stb v i) s = .next { s with act := { s.act with
    vSum := s.act.vSum + v.toNat
    iSum := s.act.iSum + i.toNat
    samples := s.act.samples + 1
    strobe := s.tim.cycle } }) ∧
  (∀ s : State, s.runsAs .tray = true → s.act.strobe + 1600000 ≤ s.tim.cycle → ∃ t, exec .busSenseLost s = .next t ∧
    t = { s with sticky := { s.sticky with act := s.sticky.act ||| 0x02000000 }, raisedNow := t.raisedNow }) ∧
  (∀ (s : State) c v a, s.runsAs .tray = true → s.wantedLimit c = some v → s.mayWrite c v = true →
    ∃ t, exec (.converterLimitWrite c a) s = .next t ∧
      t.out = s.out ++ (if a.first then [.pmbusWrite c 0x46 v] else [.pmbusWrite c 0x46 v, .pmbusWrite c 0x46 v]) ∧
      ((a.first || a.second) = true → (t.conv c).written = some (v, s.now) ∧ (t.conv c).unreachable = false ∧
        t.sticky = s.sticky) ∧
      ((a.first || a.second) = false → (t.conv c).written = (s.conv c).written ∧ (t.conv c).unreachable = true ∧
        t.sticky = { s.sticky with act := s.sticky.act ||| 0x01000000 })) ∧
  (∀ s : State, s.runsAs .tray = true → exec .smbAlert s = .next { s with act := { s.act with smbAlert := true } })

/-- In the CK_E cycle of slot 0 the group of that cycle begins. In the cycle of a later slot, with no request waiting,
of a share whose context holds a generation: the next waiting mark becomes the record; with none, every DIV-th own
slot raises TRC_SREQ for the next listed core, and every other is EMPTY and takes no SEQ; so is a slot of a share
without a generation. TRC_VLD within 8 CK_C cycles ends the request with its PC, codes 14 and 15 becoming 15, and a
later one changes nothing; past them NO_RESPONSE ends it with code 14 and PC zero. The four records of a group that
has ended are one beat of its share. Nothing but the trace unit, its pins and the capture status word changes.
(08_trace_stop_and_watch.md, Program-counter sampling, 02_ports_and_integration.md, Leaf ports) -/
def Obligations.TraceSlotsSampleCores : Prop :=
  (∀ s : State, s.runsAs .leaf = true → s.slotStarts 0 = true → ∃ u, exec (.trcSampleSlot 0) s = .next u ∧
    u.trc.group = s.tim.cycle / 128 ∧ u.trc.recs.length ≤ 1 ∧ u.trc.slotAt = some s.tim.cycle ∧
    u = { s with trc := u.trc, pins := u.pins, sticky := { s.sticky with cap := u.sticky.cap }, raisedNow := u.raisedNow }) ∧
  (∀ s : State, s.runsAs .leaf = true → s.slotStarts 0 = true → s.trc.req = none → s.trc.recs.length = 4 →
    s.trc.group < s.tim.cycle / 128 → ∃ u, exec (.trcSampleSlot 0) s = .next u ∧
    u.trc.buffered = s.trc.buffered ++ [⟨s.groupShare, s.trc.closedK, s.trc.recs, s.trc.closes⟩]) ∧
  (∀ (s : State) j x m ms, s.runsAs .leaf = true → s.slotStarts j = true → j ≠ 0 → s.trc.req = none →
    s.trc.recs.length = j → s.trc.shares.find? (·.ctx == s.groupShare) = some x → (s.heldGen s.groupShare).isSome = true →
    x.marks = m :: ms → ∃ u y, exec (.trcSampleSlot j) s = .next u ∧
      u.trc.recs = s.trc.recs ++ [⟨some s.now, trcWord m.payload m.core m.stall m.kind x.seq⟩] ∧
      u.trc.shares.find? (·.ctx == s.groupShare) = some y ∧
      y = { x with marks := ms, slots := x.slots + 1, seq := x.seq + 1 } ∧
      u = { s with trc := u.trc, sticky := { s.sticky with cap := u.sticky.cap }, raisedNow := u.raisedNow }) ∧
  (∀ (s : State) j x, s.runsAs .leaf = true → s.slotStarts j = true → j ≠ 0 → s.trc.req = none → s.trc.recs.length = j →
    s.trc.shares.find? (·.ctx == s.groupShare) = some x → (s.heldGen s.groupShare).isSome = true → x.marks = [] →
    0 < x.div → x.cores ≠ [] → x.slots % x.div = 0 →
    ∃ u y, exec (.trcSampleSlot j) s = .next u ∧
      u.trc.req = some (nth x.cores (x.pos % x.cores.length) 0, s.now, s.tim.cycle) ∧ u.trc.recs = s.trc.recs ∧
      u.pins = { s.pins with
        trcSreq := true
        trcSel := BitVec.ofNat 8 (nth x.cores (x.pos % x.cores.length) 0) } ∧
      u.trc.shares.find? (·.ctx == s.groupShare) = some y ∧ y = { x with pos := x.pos + 1, slots := x.slots + 1 } ∧
      u = { s with trc := u.trc, pins := u.pins }) ∧
  (∀ (s : State) j x, s.runsAs .leaf = true → s.slotStarts j = true → j ≠ 0 → s.trc.req = none → s.trc.recs.length = j →
    s.trc.shares.find? (·.ctx == s.groupShare) = some x → (s.heldGen s.groupShare).isSome = true → x.marks = [] →
    (x.div = 0 ∨ x.cores = [] ∨ x.slots % x.div ≠ 0) →
    ∃ u y, exec (.trcSampleSlot j) s = .next u ∧ u.trc.recs = s.trc.recs ++ [⟨none, 0⟩] ∧
      u.trc.shares.find? (·.ctx == s.groupShare) = some y ∧ y = { x with slots := x.slots + 1 } ∧
      u = { s with trc := u.trc, sticky := { s.sticky with cap := u.sticky.cap }, raisedNow := u.raisedNow }) ∧
  (∀ (s : State) j, s.runsAs .leaf = true → s.slotStarts j = true → j ≠ 0 → s.trc.req = none → s.trc.recs.length = j →
    s.heldGen s.groupShare = none →
    ∃ u, exec (.trcSampleSlot j) s = .next u ∧ u.trc.recs = s.trc.recs ++ [⟨none, 0⟩] ∧ u.trc.shares = s.trc.shares ∧
      u = { s with trc := u.trc, sticky := { s.sticky with cap := u.sticky.cap }, raisedNow := u.raisedNow }) ∧
  (∀ (s : State) core t c x pc stall, s.runsAs .leaf = true → s.trc.req = some (core, t, c) →
    s.trc.shares.find? (·.ctx == s.groupShare) = some x → s.tim.cycle ≤ c + 16 →
    ∃ u, exec (.trcVld pc stall) s = .next u ∧ u.trc.req = none ∧ u.pins.trcSreq = false ∧
      u.trc.recs = s.trc.recs ++ [⟨some t, trcWord pc core (if 14 ≤ stall.toNat then 15 else stall.toNat) 1 x.seq⟩] ∧
      (u.trc.shares.find? (·.ctx == s.groupShare)).map (·.seq) = some (x.seq + 1) ∧
      u = { s with
        trc := u.trc
        pins := { s.pins with trcSreq := false, trcSel := 0 }
        sticky := { s.sticky with cap := u.sticky.cap }
        raisedNow := u.raisedNow }) ∧
  (∀ (s : State) core t c pc stall, s.runsAs .leaf = true → s.trc.req = some (core, t, c) → c + 16 < s.tim.cycle →
    exec (.trcVld pc stall) s = .next s) ∧
  (∀ (s : State) core t c x, s.runsAs .leaf = true → s.trc.req = some (core, t, c) →
    s.trc.shares.find? (·.ctx == s.groupShare) = some x → c + 16 < s.tim.cycle →
    ∃ u, exec .noResponse s = .next u ∧ u.trc.req = none ∧ u.pins.trcSreq = false ∧
      u.trc.recs = s.trc.recs ++ [⟨some t, trcWord 0 core 14 1 x.seq⟩] ∧
      u.trc.buffered = s.trc.buffered ∧
      u = { s with
        trc := u.trc
        pins := { s.pins with trcSreq := false, trcSel := 0 }
        sticky := { s.sticky with cap := u.sticky.cap }
        raisedNow := u.raisedNow })

/-- After FEED_POLL the next entry is to be read, from a newly set ring if there is one. An entry that fails its
check, or is below the expected DSEQ, is polled again. A descriptor whose range is not of whole lines, or longer than
16 MiB, is counted and dumps nothing; one that no entry matches owes its release word under HOLD; one that the only
entry matches starts a dump of the range and lowers the entry's COUNT. A fault sets RST_STATE bit 20, counts in health
counter 313, is reported, and ends the feed. A returned line whose turn it is joins the part, named in its poison if
it is poisoned, and one ahead of its turn waits; the last line ends the dump, with its part, its mark and its release
word. A line of a generation that has ended is counted in the context and dropped. (08_trace_stop_and_watch.md, Tensor
watch, 02_ports_and_integration.md, Leaf ports) -/
def Obligations.WatchFeedAndDump : Prop :=
  (∀ (s : State) c w, s.runsAs .leaf = true → s.watch? c = some w → w.reading = none → w.wantFeed = false → w.dump = none →
    w.pollAt ≤ s.now → s.isActive c = true → ∃ u y, exec (.watchFeedPoll c) s = .next u ∧ u.watch? c = some y ∧
      (w.nextFeed = none → y = { w with wantFeed := w.feed.isSome }) ∧
      (∀ b f q, w.nextFeed = some (b, f, q) → f ≠ 0 →
        y = { w with feed := some (b, f), dseq := q, nextFeed := none, wantFeed := true }) ∧
      (∀ b q, w.nextFeed = some (b, 0, q) → y = { w with feed := none, dseq := q, nextFeed := none, wantFeed := false }) ∧
      u = { s with watch := u.watch }) ∧
  (∀ (s : State) c w fd b, s.runsAs .leaf = true → s.watch? c = some w → w.reading.isSome = true → w.feed = some fd →
    (crcOk (slice b 0 64) = false ∨ fld (slice b 0 64) 0 8 < w.dseq) →
    ∃ u, exec (.watchFeedRead c (.data b)) s = .next u ∧
      u.watch? c = some { w with reading := none, pollAt := s.now + nsT s.cfg.feedPollNs } ∧ u = { s with watch := u.watch }) ∧
  (∀ (s : State) c w fd b, s.runsAs .leaf = true → s.watch? c = some w → w.reading.isSome = true → w.feed = some fd →
    let d := slice b 0 64
    crcOk d = true → w.dseq ≤ fld d 0 8 → (fld d 24 8 % 64 ≠ 0 ∨ fld d 32 4 % 64 ≠ 0 ∨ 2 ^ 24 < fld d 32 4) →
    ∃ u y, exec (.watchFeedRead c (.data b)) s = .next u ∧ u.watch? c = some y ∧ y.bad = w.bad + 1 ∧ y.dump = w.dump ∧
      y.dseq = fld d 0 8 + 1 ∧ y.consumed = fld d 0 8 ∧ y.entries = w.entries ∧ y.releases = w.releases ∧
      (w.dseq < fld d 0 8 → y.overrun = w.overrun + 1) ∧ (fld d 0 8 = w.dseq → y.overrun = w.overrun) ∧
      u = { s with watch := u.watch }) ∧
  (∀ (s : State) c w fd b a, s.runsAs .leaf = true → s.watch? c = some w → w.reading.isSome = true → w.feed = some fd →
    let d := slice b 0 64
    crcOk d = true → w.dseq = fld d 0 8 → fld d 24 8 % 64 = 0 → fld d 32 4 % 64 = 0 → fld d 32 4 ≤ 2 ^ 24 →
    s.inWindow c (fld d 24 8) (fld d 32 4) = true → bit (fld d 36 4) 0 = true → a = fld d 40 8 → a % 8 = 0 →
    s.inWindow c a 8 = true → (∀ e ∈ w.entries, e.hits (BitVec.ofNat 32 (fld d 8 4)) (fld d 16 8) = false) →
    ∃ u y, exec (.watchFeedRead c (.data b)) s = .next u ∧ u.watch? c = some y ∧ y.releases = w.releases ++ [(a, fld d 0 8)] ∧
      y.dump = w.dump ∧ y.bad = w.bad ∧ u = { s with watch := u.watch }) ∧
  (∀ (s : State) c w fd b e, s.runsAs .leaf = true → s.watch? c = some w → w.reading.isSome = true → w.feed = some fd →
    let d := slice b 0 64
    crcOk d = true → w.dseq = fld d 0 8 → fld d 24 8 % 64 = 0 → fld d 32 4 % 64 = 0 → fld d 32 4 ≤ 2 ^ 24 → 0 < fld d 32 4 →
    s.inWindow c (fld d 24 8) (fld d 32 4) = true → bit (fld d 36 4) 0 = false →
    w.entries = [e] → e.hits (BitVec.ofNat 32 (fld d 8 4)) (fld d 16 8) = true → e.off = 0 → e.dlen = 0 →
    ∃ u y x, exec (.watchFeedRead c (.data b)) s = .next u ∧ u.watch? c = some y ∧ y.dump = some x ∧ x.idx = e.idx ∧
      x.issue = fld d 24 8 ∧ x.next = fld d 24 8 ∧ x.fin = fld d 24 8 + fld d 32 4 ∧ x.dseq = fld d 0 8 ∧ x.rel = none ∧
      y.entries = (if e.count = 1 then [] else [{ e with count := e.count - 1 }]) ∧
      u.trc = (watchMark c e.idx 1 (fld d 16 8) (fld d 8 4) s).trc ∧ u = { s with watch := u.watch, trc := u.trc }) ∧
  (∀ (s : State) c w base f, s.runsAs .leaf = true → s.watch? c = some w → w.reading.isSome = true →
    w.feed = some (base, f) → ∃ u, exec (.watchFeedRead c .fault) s = .next u ∧
      u.watch? c = some { w with reading := none, feed := none } ∧
      u.sticky = { s.sticky with rstState := orBit s.sticky.rstState 20 } ∧
      u.cap.health = s.cap.health.modify 313 (· + 1) ∧ u.out = s.out ++ [.hfFault (base + (w.dseq - 1) % f * 64)]) ∧
  (∀ (s : State) c w d l g, s.runsAs .leaf = true → s.watch? c = some w → w.dump = some d →
    d.flight.find? (·.1 == g) = some (g, d.next) → d.early = [] → d.gone = false → d.failed = false →
    d.next + 64 ≠ d.fin → d.lines.length + 1 ≠ partLines s.cfg.shareCount → s.lateReads.any (·.tags.contains g) = false →
    ∃ u v, exec (.watchDumpRead c { tag := g, ans := .data l }) s = .next u ∧
      exec (.watchDumpRead c { tag := g, ans := .poisoned l }) s = .next v ∧
      u.watch? c = some { w with dump := some { d with
        flight := d.flight.filter (·.1 != g), lines := d.lines ++ [slice l 0 64], next := d.next + 64 } } ∧
      u = { s with watch := u.watch } ∧ (v.watch? c).bind (·.dump) = some { d with
        flight := d.flight.filter (·.1 != g)
        lines := d.lines ++ [slice l 0 64]
        poison := d.poison ++ [d.lines.length]
        next := d.next + 64 }) ∧
  (∀ (s : State) c w d l g a, s.runsAs .leaf = true → s.watch? c = some w → w.dump = some d →
    d.flight.find? (·.1 == g) = some (g, a) → a ≠ d.next → d.early = [] → d.gone = false → d.failed = false →
    d.next ≠ d.fin → s.lateReads.any (·.tags.contains g) = false → ∃ u, exec (.watchDumpRead c { tag := g, ans := .data l }) s = .next u ∧
      u.watch? c = some { w with dump := some { d with
        flight := d.flight.filter (·.1 != g), early := [(a, l, false)] } } ∧ u = { s with watch := u.watch }) ∧
  (∀ (s : State) c w d l g, s.runsAs .leaf = true → s.watch? c = some w → w.dump = some d →
    d.flight.find? (·.1 == g) = some (g, d.next) → d.early = [] → d.gone = false → d.failed = false →
    d.next + 64 = d.fin → s.lateReads.any (·.tags.contains g) = false → ∃ u y, exec (.watchDumpRead c { tag := g, ans := .data l }) s = .next u ∧
      u.watch? c = some y ∧ y.dump = none ∧
      (∀ a, d.rel = some a → y.releases = w.releases ++ [(a, d.dseq)]) ∧ (d.rel = none → y.releases = w.releases) ∧
      u.trc = (watchMark c d.idx 2 d.step d.tensor.toNat (s.onShareTrc c fun x => { x with tseq := x.tseq + 1 })).trc ∧
      u = { s with watch := u.watch, trc := u.trc, lanes := u.lanes }) ∧
  (∀ (s : State) c r x y, s.runsAs .leaf = true → s.lateReads.find? (·.tags.contains r.tag) = some x → s.ctx? x.ctx = some y →
    ∃ u z, exec (.watchDumpRead c r) s = .next u ∧ u.ctx? x.ctx = some z ∧ z.genDiscard = y.genDiscard + 1 ∧
      u.watch = s.watch ∧ u.out = s.out ++ (match x.tags.filter (· != r.tag), x.rel with
        | [], some (a, v) => [.hfFlag a (BitVec.ofNat 64 v)]
        | _, _ => []))

/-- A confirmed stop raises STOP_OUT at its time, with mark 1. The first STOP_DONE while it is high, or STOP_DONE_WAIT
after it rose (which sets bit 28), begins the plan, or ends in STOPPED where there is none, with marks 2 and 4. Each
segment is shifted, with VERIFY twice, and sent and counted; a VERIFY that differs sets bit 24; after the last the
leaf is STOPPED. A release time that has come, or STOP_HOLD_MAX (bit 27), drops STOP_OUT with mark 3 and idles, or in
a scan waits for the end of the segment, which then abandons the plan with bit 25. (08_trace_stop_and_watch.md, The
timed global stop, 08_trace_stop_and_watch.md, Scan-out, 08_trace_stop_and_watch.md, Release,
02_ports_and_integration.md, Leaf ports) -/
def Obligations.TimedStopAndScan : Prop :=
  (∀ s : State, s.runsAs .leaf = true → s.stop.phase = .armed → s.stop.confirmed = true → s.stop.at_ ≤ s.now →
    ∃ u, exec .stopOutRise s = .next u ∧ u.pins = { s.pins with stopOut := true } ∧ u.trc = (stopMark 1 s.now s).trc ∧
      u.stop = { s.stop with
        phase := .stopping, doneSeen := false, release := none, rose := s.now, seg := 0, segDone := 0, leaving := false } ∧
      u = { s with stop := u.stop, pins := u.pins, trc := u.trc }) ∧
  (∀ s : State, s.runsAs .leaf = true → s.pins.stopOut = true → s.stop.doneSeen = false → s.stop.phase = .stopping →
    ∃ u, exec .stopDone s = .next u ∧ u.stop.doneSeen = true ∧ u.trc = (stopMark 2 s.now s).trc ∧
      (s.cfg.scanPlan = [] → u.stop.phase = .stopped ∧ u.pins = s.pins) ∧
      (s.cfg.scanPlan ≠ [] → u.stop.phase = .scanning ∧ u.stop.seg = 0 ∧ u.pins = { s.pins with scnTms := false }) ∧
      u = { s with stop := u.stop, pins := u.pins, trc := u.trc }) ∧
  (∀ s : State, s.runsAs .leaf = true → s.stop.phase = .stopping → s.stop.rose + nsT s.cfg.stopDoneWaitNs ≤ s.now →
    ∃ u, exec .stopDoneWait s = .next u ∧ u.sticky = { s.sticky with trc := orBit s.sticky.trc 28 } ∧
      u.trc = (stopMark 4 s.now s).trc ∧ (s.cfg.scanPlan = [] → u.stop.phase = .stopped) ∧
      (s.cfg.scanPlan ≠ [] → u.stop.phase = .scanning) ∧
      u = { s with stop := u.stop, pins := u.pins, trc := u.trc, sticky := u.sticky, raisedNow := u.raisedNow }) ∧
  (∀ (s : State) bits second seg, s.runsAs .leaf = true → s.stop.phase = .scanning → s.stop.leaving = false →
    s.cfg.scanPlan[s.stop.seg]? = some seg →
    ∃ u, exec (.scanSegment bits second) s = .next u ∧ u.stop.seg = s.stop.seg + 1 ∧ u.stop.segDone = s.stop.segDone + 1 ∧
      u.out = s.out ++ (bits.take seg.drLen :: (if seg.verify then [second.take seg.drLen] else [])).map
        (.scanShift seg.ir seg.irLen ·) ∧
      (s.stop.seg + 1 < s.cfg.scanPlan.length → u.stop.phase = .scanning ∧ u.pins = s.pins) ∧
      (s.stop.seg + 1 = s.cfg.scanPlan.length → u.stop.phase = .stopped ∧ u.pins = { s.pins with scnTms := true }) ∧
      (seg.verify = true → second.take seg.drLen ≠ bits.take seg.drLen →
        u.sticky = { s.sticky with trc := orBit s.sticky.trc 24 }) ∧
      ((seg.verify = false ∨ second.take seg.drLen = bits.take seg.drLen) → u.sticky = s.sticky) ∧
      u = { s with stop := u.stop, pins := u.pins, sticky := u.sticky, raisedNow := u.raisedNow, lanes := u.lanes
                   trc := u.trc, out := u.out }) ∧
  (∀ (s : State) bits second seg, s.runsAs .leaf = true → s.stop.phase = .scanning → s.stop.leaving = true →
    s.cfg.scanPlan[s.stop.seg]? = some seg → ∃ u, exec (.scanSegment bits second) s = .next u ∧ u.stop.phase = .idle ∧
      u.stop.segDone = s.stop.segDone + 1 ∧ u.pins = { s.pins with stopOut := false, scnTms := true } ∧
      u.sticky.trc.getLsbD 25 = true) ∧
  (∀ (s : State) t, s.runsAs .leaf = true → s.stop.release = some t → s.stopActive = true → t ≤ s.now →
    ∃ u, exec .stopReleaseTime s = .next u ∧
      (s.stop.phase = .scanning → u = { s with stop := { s.stop with leaving := true } }) ∧
      (s.stop.phase ≠ .scanning → u.trc = (stopMark 3 s.now s).trc ∧ u = { s with
        stop := { s.stop with phase := .idle, confirmed := false, release := none, leaving := false }
        pins := { s.pins with stopOut := false, scnTms := true }
        trc := u.trc })) ∧
  (∀ s : State, s.runsAs .leaf = true → s.stopActive = true → s.stop.leaving = false →
    s.stop.at_ + nsT s.cfg.stopHoldMaxNs ≤ s.now →
    ∃ u, exec .autoReleased s = .next u ∧ u.sticky = { s.sticky with trc := orBit s.sticky.trc 27 } ∧
      (s.stop.phase = .scanning → u.stop = { s.stop with leaving := true } ∧ u.pins = s.pins ∧ u.trc = s.trc) ∧
      (s.stop.phase ≠ .scanning →
        u.stop = { s.stop with phase := .idle, confirmed := false, release := none, leaving := false } ∧
        u.pins = { s.pins with stopOut := false, scnTms := true } ∧ u.trc = (stopMark 3 s.now s).trc) ∧
      u = { s with stop := u.stop, pins := u.pins, trc := u.trc, sticky := u.sticky, raisedNow := u.raisedNow })

/-- A breakpoint hit queues the core for the owner of its core with mark 1; a full queue only marks it. The start of a
share's window, with the port idle, drains its oldest queued core, with DRN_REQ and DRN_CORE, or with none queued
pulses the first of its waiting resumes; with the port not idle the window's drain is owed, and the acknowledgement of
an abort in the window starts it. DRN_DONE ends the drain with mark 2, and the core is stopped. A drain that has not
ended with its window is dropped with mark 3, and its core is queued first. DRN_DONE within 16 CK_C cycles
acknowledges an abort, and in the very cycle of the drop counts as a completed drain; an abort without it is a port
fault: bit 23, and no drain starts. (08_trace_stop_and_watch.md, Breakpoints and draining,
02_ports_and_integration.md, Leaf ports) -/
def Obligations.BreakpointsDrainInWindows : Prop :=
  (∀ (s : State) core, s.runsAs .leaf = true → ∃ u, exec (.brkVld core) s = .next u ∧
    u.trc = (brkMark (s.coreOwner core.toNat) core.toNat 1 0 s).trc ∧
    (s.brk.queue.length < 256 → u.brk = { s.brk with queue := s.brk.queue ++ [(core.toNat, s.coreOwner core.toNat)] }) ∧
    (256 ≤ s.brk.queue.length → u.brk = s.brk) ∧ u = { s with brk := u.brk, trc := u.trc }) ∧
  (∀ (s : State) q, s.runsAs .leaf = true → s.drainIdle = true → s.brk.window ≠ s.drainWindow + 1 →
    s.now < nsT (s.drainWindow * s.cfg.drnWinNs) + s.tim.inc →
    let c := s.drainWindow % s.cfg.shareCount
    s.brk.queue.find? (·.2 == c) = some q →
    exec .drainWindow s = .next { s with
      brk := { s.brk with
        window := s.drainWindow + 1
        due := none
        serve := s.brk.resumes.filter (·.2 == c)
        queue := s.brk.queue.erase q
        drain := some (q.1, c, s.drainWindow, s.tim.cycle) }
      pins := { s.pins with drnReq := true, drnCore := BitVec.ofNat 8 q.1 } }) ∧
  (∀ (s : State) r, s.runsAs .leaf = true → s.drainIdle = true → s.brk.window ≠ s.drainWindow + 1 →
    s.now < nsT (s.drainWindow * s.cfg.drnWinNs) + s.tim.inc →
    let c := s.drainWindow % s.cfg.shareCount
    s.brk.queue.find? (·.2 == c) = none → (s.brk.resumes.filter (·.2 == c)).head? = some r → s.pins.rsmReq = false →
    ∃ u, exec .drainWindow s = .next u ∧ u.out = s.out ++ [.rsmPulse r.1] ∧ u.brk.drain = none ∧
      u.brk.resumes = s.brk.resumes.erase r ∧ u.brk.serve = (s.brk.resumes.filter (·.2 == c)).erase r ∧ u.brk.stopped = s.brk.stopped.filter (· != r.1) ∧
      u.trc = (brkMark c r.1 4 0 s).trc ∧ u.pins = { s.pins with rsmReq := true, drnCore := BitVec.ofNat 8 r.1 } ∧
      u = { s with brk := u.brk, trc := u.trc, pins := u.pins, out := u.out }) ∧
  (∀ s : State, s.runsAs .leaf = true → s.drainIdle = false → s.brk.drain = none → s.brk.window ≠ s.drainWindow + 1 →
    s.now < nsT (s.drainWindow * s.cfg.drnWinNs) + s.tim.inc → exec .drainWindow s = .next { s with brk := { s.brk with
      window := s.drainWindow + 1
      due := some s.drainWindow
      serve := s.brk.resumes.filter (·.2 == s.drainWindow % s.cfg.shareCount) } }) ∧
  (∀ s : State, s.runsAs .leaf = true →
    (s.brk.window = s.drainWindow + 1 ∨ nsT (s.drainWindow * s.cfg.drnWinNs) + s.tim.inc ≤ s.now) →
    exec .drainWindow s = .next s) ∧
  (∀ (s : State) core c w t, s.runsAs .leaf = true → s.brk.drain = some (core, c, w, t) →
    (∀ r ∈ s.brk.serve, r.2 ≠ s.drainWindow % s.cfg.shareCount) →
    ∃ u, exec .drnDone s = .next u ∧
      u.brk = { s.brk with drain := none, abort := none, stopped := s.brk.stopped ++ [core] } ∧
      u.pins = { s.pins with drnReq := false } ∧ u.trc = (brkMark c core 2 ((s.tim.cycle - t) / 2) s).trc ∧
      u = { s with brk := u.brk, pins := u.pins, trc := u.trc }) ∧
  (∀ (s : State) core c t, s.runsAs .leaf = true → s.brk.drain = none → s.brk.abort = some (core, c, t) →
    (t / 2 ≠ s.tim.cycle / 2 ∨ (core, c) ∉ s.brk.queue) → s.tim.cycle ≤ t + 32 → s.brk.due ≠ some s.drainWindow →
    exec .drnDone s = .next { s with brk := { s.brk with abort := none } }) ∧
  (∀ (s : State) core c t q, s.runsAs .leaf = true → s.brk.drain = none → s.brk.abort = some (core, c, t) →
    (t / 2 ≠ s.tim.cycle / 2 ∨ (core, c) ∉ s.brk.queue) → s.tim.cycle ≤ t + 32 → s.brk.due = some s.drainWindow →
    s.pins.stopOut = false → s.brk.portFault = false →
    s.brk.queue.find? (·.2 == s.drainWindow % s.cfg.shareCount) = some q → exec .drnDone s = .next { s with
      brk := { s.brk with
        abort := none
        due := none
        queue := s.brk.queue.erase q
        drain := some (q.1, s.drainWindow % s.cfg.shareCount, s.drainWindow, s.tim.cycle) }
      pins := { s.pins with drnReq := true, drnCore := BitVec.ofNat 8 q.1 } }) ∧
  (∀ (s : State) core c t, s.runsAs .leaf = true → s.brk.drain = none → s.brk.abort = some (core, c, t) →
    t / 2 = s.tim.cycle / 2 → (core, c) ∈ s.brk.queue → s.brk.due ≠ some s.drainWindow → ∃ u, exec .drnDone s = .next u ∧
      u = { s with trc := u.trc, brk := { s.brk with
        abort := none, queue := s.brk.queue.erase (core, c), stopped := s.brk.stopped ++ [core] } }) ∧
  (∀ (s : State) core c w t, s.runsAs .leaf = true → s.brk.drain = some (core, c, w, t) → w < s.drainWindow →
    ∃ u, exec .drainWindowEnd s = .next u ∧ u.brk = { s.brk with
        drain := none
        abort := some (core, c, s.tim.cycle)
        queue := (core, c) :: s.brk.queue } ∧ u.pins = { s.pins with drnReq := false } ∧
      u.trc = (brkMark c core 3 ((s.tim.cycle - t) / 2) s).trc ∧ u = { s with brk := u.brk, pins := u.pins, trc := u.trc }) ∧
  (∀ (s : State) core c t, s.runsAs .leaf = true → s.brk.abort = some (core, c, t) → t + 32 < s.tim.cycle →
    ∃ u, exec .drnPortFault s = .next u ∧ u = { s with
      brk := { s.brk with abort := none, portFault := true }
      sticky := { s.sticky with trc := orBit s.sticky.trc 23 }
      raisedNow := u.raisedNow })

/-- When all that a DRAINING context still has is finished, what its tables, models, sheaves, plans, watch, trace and
tally lines hold is gone, its key is gone and its id FREE, and the other contexts, their tables and sheaves, memory,
lanes and status words stand; before that nothing happens. 10 ms after T_e it is FREE in any case: no command of it is
open, and HARD_CAP is set; before that nothing happens. Once T_(k+1) + 10 us has passed, a context's ready interval
records up to epoch k leave the leaf's ring; a tenant's that are not ready count in health counter 320 and set
RST_STATE bit 22, and before the time nothing happens. (14_contexts_and_separation.md, Teardown,
14_contexts_and_separation.md, No timing channel) -/
def Obligations.ContextsDrainAndEnd : Prop :=
  (∀ (s : State) c x, s.draining? c = some x → s.drained x = true → ∃ u, exec (.contextDrainComplete c) s = .next u ∧
    (∀ y, u.ctx? c = some y → y.life = .free ∧ y.keyGen = none) ∧ (∀ d, d ≠ c → u.ctx? d = s.ctx? d) ∧
    u.mem.tables = s.mem.tables.filter (·.ctx != c) ∧ u.mem.models = s.mem.models.filter (·.m.ctx != c) ∧
    u.red.sheaves = s.red.sheaves.filter (·.ctx != c) ∧ u.red.plans = s.red.plans.filter (·.ctx != c) ∧
    u.watch = s.watch.filter (·.ctx != c) ∧ u.trc.shares = s.trc.shares.filter (·.ctx != c) ∧
    u.fab.tallies = s.fab.tallies.filter (·.ctx != c) ∧
    (s.profile = .leaf ∨ s.watch? c = none → u.out = s.out) ∧ u.lanes = s.lanes ∧ u.mem.hbm = s.mem.hbm ∧
    u.sticky = s.sticky) ∧
  (∀ (s : State) c x, s.draining? c = some x → s.drained x = false → exec (.contextDrainComplete c) s = .next s) ∧
  (∀ (s : State) c x, s.draining? c = some x → x.endT + nsT 10000000 ≤ s.now → ∃ u, exec (.contextHardCap c) s = .next u ∧
    (∀ y, u.ctx? c = some y → y.life = .free ∧ y.keyGen = none) ∧ (∀ t ∈ u.mem.tables, t.ctx ≠ c) ∧
    (∀ m, u.mbx? c = some m → m.running = none ∧ m.waiting = []) ∧
    u.sticky.pitonEv = orBit s.sticky.pitonEv (16 + c) ∧ u.red.landing = s.red.landing) ∧
  (∀ (s : State) c x, s.draining? c = some x → s.now < x.endT + nsT 10000000 → exec (.contextHardCap c) s = .next s) ∧
  (∀ (s : State) c b bs, s.runsAs .leaf = true → s.sched.past = b :: bs → b.t + nsT 10000 ≤ s.now →
    (∃ u, exec (.tenantRecordRelease c true) s = .next u ∧
      u.cap = { s.cap with ring := s.cap.ring.map fun r =>
        if r.k ≤ b.k - 1 then { r with ints := r.ints.filter (·.ctx != c) } else r } ∧
      u = { s with
        cap := u.cap
        mem := { s.mem with leafVerdicts := u.mem.leafVerdicts }
        trc := u.trc
        lanes := u.lanes }) ∧
    (c ≠ 0 → ∃ u, exec (.tenantRecordRelease c false) s = .next u ∧ u = { s with
      cap := { s.cap with health := s.cap.health.modify 320 (· + 1) }
      sticky := { s.sticky with rstState := orBit s.sticky.rstState 22 }
      raisedNow := u.raisedNow })) ∧
  (∀ (s : State) c r b bs, s.runsAs .leaf = true → s.sched.past = b :: bs → s.now < b.t + nsT 10000 →
    exec (.tenantRecordRelease c r) s = .next s)

/-- After HANG_EPOCHS + 1 samples without progress a unit, not reset after a hang in the last hour, is fenced with the
context of its item, RST_HANG shows a fence and a valid automatic dump, whose entries are the unit's, and a spare, if
there is one, takes its place. The recovery of a unit of a tenant that holds a generation is a context reset, of any
other or with RESET_SCOPE BLOCK a block reset once the dump is read. Before that many samples nothing happens. With no
block reset due, a unit reset lifts the fence, as a spare if another took the place, and its run begins anew; of a
unit that is not fenced it does nothing. (18_reset_fencing_recovery.md, Progress watchdogs,
18_reset_fencing_recovery.md, Fencing, 18_reset_fencing_recovery.md, Context reset, 18_reset_fencing_recovery.md, The
crash dump) -/
def Obligations.HangsAreFencedAndReset : Prop :=
  (∀ (s : State) u x h uc, s.hangs.find? (fun h => h.cls == u.cls && h.idx == u.idx) = some h → s.unit? u.cls = some uc →
    s.cfg.hangEpochs + 1 ≤ h.run → uc.fenced.any (·.1 == u.idx) = false → u.idx ∉ uc.retired →
    s.recurs u.cls u.idx = false →
    ∃ t v, exec (.hangDetect u x) s = .next t ∧ t.unit? u.cls = some v ∧ (u.idx, h.ctx) ∈ v.fenced ∧
      ((uc.nextSpare u.idx).isSome = true → v.inService = uc.inService ∧ v.spares = uc.spares - 1) ∧
      (uc.nextSpare u.idx = none → v.inService = uc.inService - 1 ∧ v.spares = uc.spares) ∧
      t.dump.seq = s.dump.seq + 1 ∧ t.dump.entries = unitEntries 1 s.now true h.ctx x ∧
      t.sticky.rstHang.getLsbD 31 = true ∧ t.sticky.rstHang.getLsbD 9 = true ∧
      ((s.cfg.resetScopeBlock = true ∨ h.ctx = none ∨ h.ctx = some 0) →
        t.stw.resetDue = some (.hang, s.now + scanTime h.ctx x) ∧ t.ctxs = s.ctxs ∧ t.mem = s.mem) ∧
      (∀ c g, s.cfg.resetScopeBlock = false → h.ctx = some c → c ≠ 0 → s.heldGen c = some g →
        t.stw.resetDue = s.stw.resetDue ∧ ∀ y, t.ctx? c = some y → y.life = .free)) ∧
  (∀ (s : State) u x h, s.hangs.find? (fun h => h.cls == u.cls && h.idx == u.idx) = some h → h.run ≤ s.cfg.hangEpochs →
    exec (.hangDetect u x) s = .next s) ∧
  (∀ (s : State) cls idx u, s.unit? cls = some u → u.fenced.any (·.1 == idx) = true → s.stw.resetDue = none →
    ∃ t v, exec (.unitReset cls idx) s = .next t ∧ t.unit? cls = some v ∧ v.fenced = u.fenced.filter (·.1 != idx) ∧
      v.resets = (idx, s.now) :: u.resets ∧ t.hangs = s.hangs.filter (fun h => !(h.cls == cls && h.idx == idx)) ∧
      (u.replaced idx = false → v.inService = u.inService + 1 ∧ v.spares = u.spares) ∧
      (u.replaced idx = true → v.inService = u.inService ∧ v.spares = u.spares + 1) ∧
      t = { s with err := { s.err with units := t.err.units }, hangs := t.hangs }) ∧
  (∀ (s : State) cls idx u, s.unit? cls = some u → u.fenced.any (·.1 == idx) = false →
    exec (.unitReset cls idx) s = .next s)

/-- A steward that does not scan does nothing in a turn. While it scans, a turn raises the turn count and STW_HEART;
with nothing waiting and no pass, that is all. A post that matches, read with the allowance to read it, advances H and
the sequence: one that passes every check becomes the running command, one that fails is answered and nothing runs; a
bad CRC sets STW_STAT bit 29; one that does not match, or reads poisoned, is no command. A service datagram of a
listed address fills its slot of the staging ring; one of a wrong length or slot, of another source (but in bivouac
without a MGMT item), or to a port that is off, sets bit 28. Status pages are written when due, the service page, at a
leaf with an allowance for every page, with k + 1 in its flag word; before the time nothing is written.
(15_steward_and_mailboxes.md, Scanning and turns, 15_steward_and_mailboxes.md, The command slot,
15_steward_and_mailboxes.md, The management network, 15_steward_and_mailboxes.md, Status pages) -/
def Obligations.MailboxTurnsTakePosts : Prop :=
  (∀ s : State, s.stw.scanning = false → ∀ b n host, exec (.mailboxTurn b n host) s = .next s) ∧
  (∀ (s : State) m host, s.stw.scanning = true → s.mbx? (turnMailbox s.cfg.shareCount s.stw.turn) = some m → m.waiting = [] →
    exec (.mailboxTurn true 0 host) s =
      .next { s with stw := { s.stw with turn := s.stw.turn + 1, heart := s.stw.heart + 1, beatAt := s.edges } }) ∧
  (∀ (s : State) m host b, let n := turnMailbox s.cfg.shareCount (s.stw.turn - 1)
    s.slotBytes n m.h host = some b → s.mayDraw 4 = true → s.stw.scanning = true → s.mbx? n = some m → m.running = none → m.waiting.length < 16 → s.postMatches m b = true →
    s.slotStatus n b = none → s.resumeStatus b = none → s.noReturn n = false →
    ∃ u y, exec (.mailboxTurn false 1 host) s = .next u ∧ u.mbx? n = some y ∧ y.running =
      some (s.nameAtAccept { readCmd m.h b with turn := s.stw.turn, accepted := s.now }) ∧
      y.h = (m.h + 1) % 64 ∧ y.seq = nextSeq m.seq ∧ y.waiting = m.waiting ∧
      u = { s with stw := { s.stw with mbxs := u.stw.mbxs }, out := u.out, lanes := u.lanes, hfAllow := u.hfAllow }) ∧
  (∀ (s : State) m host b e, let n := turnMailbox s.cfg.shareCount (s.stw.turn - 1)
    s.slotBytes n m.h host = some b → s.mayDraw 4 = true → s.stw.scanning = true → s.mbx? n = some m → m.running = none → m.waiting.length < 16 → s.postMatches m b = true →
    s.slotStatus n b = some e → s.noReturn n = false →
    ∃ u y, exec (.mailboxTurn false 1 host) s = .next u ∧ u.mbx? n = some y ∧ y.running = none ∧
      y.h = (m.h + 1) % 64 ∧ y.seq = nextSeq m.seq ∧ y.waiting = m.waiting ∧
      u.sticky = (if e = stBAD_CRC then { s.sticky with stw := orBit s.sticky.stw 29 } else s.sticky) ∧
      u = { s with stw := { s.stw with mbxs := u.stw.mbxs }, out := u.out, sticky := u.sticky, raisedNow := u.raisedNow
                   lanes := u.lanes, hfAllow := u.hfAllow }) ∧
  (∀ (s : State) m host, let n := turnMailbox s.cfg.shareCount (s.stw.turn - 1)
    s.stw.scanning = true → s.mbx? n = some m → (∀ b, s.slotBytes n m.h host = some b → s.postMatches m b = false) →
    ∃ u, exec (.mailboxTurn false 1 host) s = .next u ∧ u.stw = s.stw ∧ u.ctxs = s.ctxs ∧ u.mem = s.mem ∧ u.lanes = s.lanes) ∧
  (∀ (s : State) (src : NetSource) p slot, s.runsAs .tray = true → s.straps.mgmtEn = true →
    (src.addr ∈ s.cfg.mgmtSources ∨ s.mode = .bivouac ∧ s.cfg.hasMgmt = false) → p.length = 260 →
    fld p 0 4 = slot → slot < 64 → Memory.wf s.mem.hbm = true → (s.region 4).1 % 64 = 0 →
    let a := s.winAddr (0x1000000 + 0x4000 * 16 + 256 * slot)
    ∃ u, exec (.mgmtDatagram src p) s = .next u ∧ u.getBytes a 256 = slice p 4 256 ∧ (slot, src) ∈ u.stw.mgmtFrom ∧
      (∀ x, (x < a ∨ a + 256 ≤ x) → u.getBytes x 1 = s.getBytes x 1) ∧
      u = { s with
        mem := { s.mem with hbm := u.mem.hbm, bad := u.mem.bad, live := u.mem.live }
        stw := { s.stw with mgmtFrom := u.stw.mgmtFrom } }) ∧
  (∀ (s : State) (src : NetSource) p, s.runsAs .tray = true → (s.straps.mgmtEn = false ∨ p.length ≠ 260 ∨ 64 ≤ fld p 0 4 ∨
      src.addr ∉ s.cfg.mgmtSources ∧ (s.mode ≠ .bivouac ∨ s.cfg.hasMgmt = true)) →
    ∃ u, exec (.mgmtDatagram src p) s = .next u ∧
      u = { s with sticky := { s.sticky with stw := orBit s.sticky.stw 28 }, raisedNow := u.raisedNow }) ∧
  (∀ (s : State) b bs, s.sched.past = b :: bs → s.stw.scanning = true → b.t + nsT 60000 ≤ s.now →
    b.k % max 1 s.cfg.statusEpochs = 0 → ∃ u l, exec .statusPageWrite s = .next u ∧ u.out = s.out ++ l ∧
      u = { s with out := u.out, lanes := u.lanes, hfAllow := u.hfAllow } ∧
      (∀ m ∈ s.stw.mbxs, m.n = 16 → s.retBase 16 ≠ 0 →
        (s.profile = .tray ∨ 1600 * (16 * s.stw.mbxs.length : Int) ≤ s.hfAllow) →
        (s.profile = .leaf → .hfFlag (s.retBase 16 + 0x4000) (BitVec.ofNat 64 (b.k + 1)) ∈ l) ∧
        (s.profile = .tray → .flag 0 (s.retBase 16 + 0x4000) (BitVec.ofNat 64 (b.k + 1)) ∈ l))) ∧
  (∀ (s : State) b bs, s.sched.past = b :: bs → s.now < b.t + nsT 60000 → exec .statusPageWrite s = .next s)

/-- START_WAIT that has passed with the time locked and no start agreed queues the start of this member alone, at side
B once no leaf reports its lane to side A UP; in any other mode than starting it does nothing. The carrier of an
attach goes from CONFIG to BULK with the bytes sent; a phase out of order changes nothing. An echo of a command marks
the oldest that waits for it; an echoed boundary is no longer open; a join boundary that the twin names is queued; the
twin's lane count is kept. A leaf's waiting images take the boundary that is named, and a leaf answers for an image of
a context it does not hold without taking it, and queues one that takes effect at a boundary; an answer at the tray
block counts its leaf. (18_reset_fencing_recovery.md, Takeover, detach and attach, 15_steward_and_mailboxes.md, Twins
and order, 16_command_reference.md, Attributes and common rules, 21_power_up_and_configuration.md, Bringing up a rope
team) -/
def Obligations.TwinsStartAttachAndRelay : Prop :=
  (∀ s : State, s.profile = .tray → s.mode = .starting → s.tim.state.settable = false →
    s.stw.bnd.any (fun x => x.act == .teamStart && x.echoed) = false → s.twin.startSince + nsT s.cfg.startWaitNs ≤ s.now →
    (s.cfg.side = .a ∨ (s.red.reports.any fun r => r.2.1 == 5 && r.2.2 == 0) = false ∧
      ∀ t, s.twin.sideASeen = some t → t + nsT s.cfg.startWaitNs ≤ s.now) →
    exec .startWait s = .next { s with
      stw := { s.stw with
        bnd := (s.stw.bnd.filter fun x => x.act != .teamStart) ++ [⟨s.curEpoch + 1, .teamStart, true, s.stw.turn⟩] }
      twin := { s.twin with startAt := none } }) ∧
  (∀ s : State, s.profile = .tray → s.mode ≠ .starting → exec .startWait s = .next s) ∧
  (∀ (s : State) a n copy, s.runsAs .tray = true → copy ≠ .refused → s.twin.attach = some a → a.carrier = true →
    a.phase = .config → ∃ u, exec (.attachPhase .bulk n copy) s = .next u ∧ u.twin.attach = some { a with phase := .bulk, bytes := max a.bytes n } ∧
      u = { s with twin := u.twin, stw := { s.stw with mbxs := u.stw.mbxs }, out := u.out, lanes := u.lanes }) ∧
  (∀ (s : State) a n copy, s.runsAs .tray = true → copy ≠ .refused → s.twin.attach = some a → a.carrier = true →
    a.phase = .config → exec (.attachPhase .catchup n copy) s = .next s ∧ exec (.attachPhase .join n copy) s = .next s) ∧
  (∀ (s : State) n m c, s.runsAs .tray = true → s.mbx? n = some m →
    m.waiting.find? (fun c => c.wait == .echo && !c.echoed) = some c → c.op ≠ 0x0903 →
    ∃ u y, exec (.teamRelayEcho (.command n)) s = .next u ∧ u.mbx? n = some y ∧ { c with echoed := true } ∈ y.waiting ∧
      y.waiting.length = m.waiting.length ∧ u = { s with stw := { s.stw with mbxs := u.stw.mbxs } }) ∧
  (∀ (s : State) n, s.runsAs .tray = true →
    exec (.teamRelayEcho (.lanes n)) s = .next { s with twin := { s.twin with lanes := n } }) ∧
  (∀ (s : State) b, s.runsAs .tray = true → b ≠ 0 → ∃ u, exec (.teamRelayEcho (.boundary b)) s = .next u ∧
    u.stw.bnd = s.stw.bnd.map (fun x => if x.b = b then { x with echoed := true } else x) ∧
    u = { s with stw := { s.stw with bnd := u.stw.bnd }, twin := u.twin }) ∧
  (∀ (s : State) b, s.runsAs .tray = true → ∃ u, exec (.teamRelayEcho (.move .join b)) s = .next u ∧
    u.stw.bnd = s.stw.bnd ++ [⟨b, .join, true, s.stw.turn⟩] ∧
    u.twin.attach = s.twin.attach.map (fun a => { a with phase := .join, join := some b }) ∧
    u = { s with stw := { s.stw with bnd := u.stw.bnd }, twin := u.twin, lanes := u.lanes }) ∧
  (∀ (s : State) c b, s.profile = .leaf → exec (.leafImageLoad (.named c b)) s = .next { s with stw := { s.stw with
    bnd := s.stw.bnd.map fun x =>
      if !x.echoed && s.bndCtx x.act == some c then { x with b := b, echoed := true } else x } }) ∧
  (∀ (s : State) c op p img, s.profile = .leaf → s.isActive c = false →
    ∃ u, exec (.leafImageLoad (.arrived c op p img)) s = .next u ∧ u = { s with lanes := u.lanes }) ∧
  (∀ (s : State) c op p img a r, s.profile = .leaf → s.isActive c = true → imageEffect c op p img s = .bnd a r →
    ∃ u, exec (.leafImageLoad (.arrived c op p img)) s = .next u ∧
      u = { s with stw := { s.stw with bnd := s.stw.bnd ++ [⟨0, a, false, 0⟩] }, lanes := u.lanes }) ∧
  (∀ (s : State) n leaf st m c x y l, s.profile = .tray → s.mbx? n = some m →
    m.waiting = [c] → c.wait = .leaves (x :: y :: l) → leaf = x → x ∉ y :: l →
    ∃ u v, exec (.leafImageLoad (.answered n leaf st)) s = .next u ∧ u.mbx? n = some v ∧
      v.waiting = [{ c with
        cursor := c.cursor + 1
        result := countLeaf c.result x st.toNat
        wait := .leaves (y :: l) }] ∧
      u = { s with stw := { s.stw with mbxs := u.stw.mbxs }, out := u.out, lanes := u.lanes })

/-- When OPTIME reaches a multiple of 16 PERIOD the record of the period waits, an older one still waiting is dropped
with EVR_STAT bit 29, and a new period begins; at no other time does anything happen. A record whose program verifies
is programmed with its mark, enters the ring, and RSEQ rises; otherwise it still waits and bit 31 is set. Each 60 s of
OPTIME a TICK entry with PCYC and OPTIME is programmed, its mark last, once; a failed verify leaves it invalid and
sets bit 31. An OPTIME second takes the counts. The next HOUR_MARKS bit and the SVN of a firmware that ran for an hour
are set, and no OTP bit is ever cleared by them. (19_event_recorder_and_identity.md, Periods and records,
19_event_recorder_and_identity.md, Flash, 19_event_recorder_and_identity.md, Operating time and power cycles,
19_event_recorder_and_identity.md, Metrics, 19_event_recorder_and_identity.md, OTP contents) -/
def Obligations.RecorderPeriodsAndFlash : Prop :=
  (∀ s : State, s.runsAs .tray = true → s.optime % (16 * s.evr.period) = 0 → s.evr.optStart < s.optime →
    ∃ u, exec .recorderPeriodEnd s = .next u ∧ u.evr.waiting = some s.recordBytes ∧ u.evr.period = s.evr.nextPeriod ∧
      u.evr.optStart = s.optime ∧ u.evr.start = false ∧ u.evr.metrics = List.replicate 64 Metric.empty ∧
      u.evr.rseq = s.evr.rseq ∧ u.evr.pcyc = s.evr.pcyc ∧
      u.sticky = (if s.evr.waiting.isSome then { s.sticky with evr := orBit s.sticky.evr 29 } else s.sticky) ∧
      u = { s with evr := u.evr, sticky := u.sticky, raisedNow := u.raisedNow }) ∧
  (∀ s : State, s.runsAs .tray = true → s.optime % (16 * s.evr.period) ≠ 0 → exec .recorderPeriodEnd s = .next s) ∧
  (∀ (s : State) b, s.runsAs .tray = true → s.evr.waiting = some b → ∃ u slot er, exec (.recordFlashWrite .ok) s = .next u ∧
    u.evr = { s.evr with waiting := none, rseq := s.evr.rseq + 1 } ∧
    u.flash.ring.getLast? = some ⟨slot, b ++ le 8 0x45565245434F5244, true⟩ ∧
    u.out = s.out ++ er ++ [.flashProgram (0x03000000 + 4096 * slot) b,
      .flashProgram (0x03000000 + 4096 * slot + 4088) (le 8 0x45565245434F5244)] ∧
    (er = [] ∨ slot % 16 = 0 ∧ er = [.flashErase ((0x03000000 + 4096 * slot) / eraseBlock)]) ∧
    u = { s with
      evr := u.evr, flash := { s.flash with ring := u.flash.ring }
      sticky := u.sticky, raisedNow := u.raisedNow, out := u.out }) ∧
  (∀ (s : State) b f, s.runsAs .tray = true → s.evr.waiting = some b → f ≠ .ok → ∃ u, exec (.recordFlashWrite f) s = .next u ∧
    u.evr = s.evr ∧ u.sticky.evr.getLsbD 31 = true ∧ (∀ r ∈ u.flash.ring, r.valid = true → r ∈ s.flash.ring)) ∧
  (∀ (s : State) f, s.runsAs .tray = true → s.optime % 960 = 0 → s.stw.scanning = true → s.optime < 2 ^ 48 →
    (∀ e ∈ s.flash.clock, e.valid = true → e.kind = 2 → e.pcyc = s.evr.pcyc → e.optime ≠ s.optime) →
    ∃ u e er, exec (.clockTick f) s = .next u ∧ u.flash.clock.getLast? = some e ∧ e.kind = 2 ∧ e.pcyc = s.evr.pcyc ∧
      e.optime = s.optime ∧ e.valid = (f == .ok) ∧ (f ≠ .ok → u.sticky.evr.getLsbD 31 = true) ∧
      u.out = s.out ++ er ++ .flashProgram (0x02000000 + 64 * e.place) (clockBytes 2 s.evr.pcyc s.optime) ::
        (if f = .ok then [.flashProgram (0x02000000 + 64 * e.place + 56) (le 8 0x45565245434F5244)] else []) ∧
      (er = [] ∨ e.place % 1024 = 0 ∧ er = [.flashErase ((0x02000000 + 64 * e.place) / eraseBlock)]) ∧
      u = { s with
        flash := { s.flash with clock := u.flash.clock }
        sticky := u.sticky, raisedNow := u.raisedNow, out := u.out }) ∧
  (∀ (s : State) f, s.runsAs .tray = true → s.optime % 960 ≠ 0 → exec (.clockTick f) s = .next s) ∧
  (∀ s : State, s.runsAs .tray = true → s.optime % 16 = 0 → ∃ u, exec .optimeSecond s = .next u ∧
    u.evr.lastCounts = s.secondCounts ∧ u.evr.metrics.length = s.evr.metrics.length ∧
    u = { s with
      tim := { s.tim with sourceChanges := 0 }
      evr := { s.evr with metrics := u.evr.metrics, lastCounts := u.evr.lastCounts } }) ∧
  (∀ s : State, s.runsAs .leaf = true → 64 * (s.otpBits 80 48 + 1) ≤ s.opHours → s.otpBits 80 48 < 1536 →
    ∃ u, exec .hourMark s = .next u ∧
      (∀ i, i ≤ s.otpBits 80 48 → (u.otpRead (80 + i / 32)).getLsbD (i % 32) = true) ∧
      (∀ a i, (s.otpRead a).getLsbD i = true → (u.otpRead a).getLsbD i = true) ∧
      (∀ a, (a < 80 ∨ 128 ≤ a) → u.otpRead a = s.otpRead a) ∧ u = { s with otp := u.otp, pins := u.pins, out := u.out }) ∧
  (∀ s : State, s.runsAs .leaf = true → s.opHours < 64 * (s.otpBits 80 48 + 1) → exec .hourMark s = .next s) ∧
  (∀ (s : State) t, s.boot.runFrom = some t → t + 57600 ≤ s.optime → s.mode ≠ .bivouac →
    s.boot.cause.getLsbD 27 = false → s.boot.cause.getLsbD 26 = false → s.boot.cause.getLsbD 25 = false →
    s.otpSvn < s.ident.svn.toNat → ∃ u, exec .svnRaise s = .next u ∧
      (∀ i, i < min 16384 s.ident.svn.toNat → (u.otpRead (1024 + i / 32)).getLsbD (i % 32) = true) ∧
      (∀ a, (a < 1024 ∨ 1536 ≤ a) → u.otpRead a = s.otpRead a) ∧ u = { s with otp := u.otp, pins := u.pins, out := u.out })

/-- An ageing hour is closed once: its least path-delay margins become the readings, and a margin below MARGIN_LO
requests a step up unless the limit is reached. VM_ACK applies the step, never below 0, and logs it; VM_NAK keeps it
refused and sets AGE_STAT bit 14; no answer within 1 ms withdraws it and sets bit 13; in each case VM_REQ falls. 64
critical samples, below the limit and 60 s after the last step, request an urgent step and set bit 12, but not while a
refused step waits for the next hourly point. (17_checks_errors_and_ageing.md, Ageing) -/
def Obligations.AgeingPointAndMargin : Prop :=
  (∀ s : State, s.age.lastHour < s.ageHour → ∃ u, exec .ageingPoint s = .next u ∧ u.age.lastHour = s.ageHour ∧
    u.age.pdm = s.age.pdmMin ∧ u.age.pdmMin = [] ∧ u.age.vmApplied = s.age.vmApplied ∧ u.age.refused = none ∧
    (s.age.pdmMin ≠ [] → (leastOf s.age.pdmMin).1 < s.cfg.marginLo → s.age.vmApplied < s.cfg.vmMax → s.age.req = none →
      s.age.restore = 0 → u.age.req = some (1, s.now) ∧ u.pins.vmReq = true ∧ u.pins.vmStep = 1) ∧
    (s.age.pdmMin ≠ [] → (leastOf s.age.pdmMin).1 < s.cfg.marginLo → s.cfg.vmMax ≤ s.age.vmApplied →
      u.sticky.age.getLsbD 15 = true)) ∧
  (∀ s : State, s.ageHour ≤ s.age.lastHour → exec .ageingPoint s = .next s) ∧
  (∀ (s : State) step t, s.age.req = some (step, t) → s.age.restore = 0 → ∃ u, exec .vmAck s = .next u ∧ u.age.req = none ∧
    u.age.vmApplied = max 0 (s.age.vmApplied + step) ∧ u.age.lastStep = some s.now ∧ u.pins.vmReq = false ∧
    u.pins.vmStep = 0 ∧ u.age.upHours = (if step = 1 then s.age.upHours ++ [s.opHours] else s.age.upHours) ∧
    (∀ a, s.otpUnused = some a → u.otpRead a =
      BitVec.ofNat 32 (3 * 2 ^ 30 + (if step < 0 then 2 ^ 29 else 0) + s.opHours % 2 ^ 29)) ∧
    (s.otpUnused = none → s.profile = .tray → u.flash.margin = some u.age.vmApplied)) ∧
  (∀ (s : State) step t, s.age.req = some (step, t) → s.age.restore = 0 → ∃ u, exec .vmNak s = .next u ∧
    u.age = { s.age with req := none, refused := some step } ∧ u.pins = { s.pins with vmReq := false, vmStep := 0 } ∧
    u.sticky = { s.sticky with age := orBit s.sticky.age 14 } ∧
    (s.profile = .leaf → u.cap.health = s.cap.health.modify 316 (· + 1)) ∧
    u = { s with age := u.age, pins := u.pins, sticky := u.sticky, raisedNow := u.raisedNow, cap := u.cap }) ∧
  (∀ (s : State) step t, s.age.req = some (step, t) → s.age.restore = 0 → t + nsT 1000000 ≤ s.now →
    ∃ u, exec .vmTimeout s = .next u ∧ u.age = { s.age with req := none } ∧ u.pins = { s.pins with vmReq := false, vmStep := 0 } ∧
      u.sticky = { s.sticky with age := orBit s.sticky.age 13 } ∧
      (s.profile = .leaf → u.cap.health = s.cap.health.modify 317 (· + 1)) ∧
      u = { s with age := u.age, pins := u.pins, sticky := u.sticky, raisedNow := u.raisedNow, cap := u.cap }) ∧
  (∀ (s : State) step t, s.age.req = some (step, t) → s.now < t + nsT 1000000 → exec .vmTimeout s = .next s) ∧
  (∀ s : State, 64 ≤ s.age.critRun → s.age.vmApplied < s.cfg.vmMax → s.age.req = none → s.age.refused = none →
    (∀ t, s.age.lastStep = some t → t + 60 * secT ≤ s.now) → ∃ u, exec .urgentStep s = .next u ∧ u = { s with
      age := { s.age with req := some (1, s.now) }
      pins := { s.pins with vmReq := true, vmStep := 1 }
      sticky := { s.sticky with age := orBit s.sticky.age 12 }
      raisedNow := u.raisedNow }) ∧
  (∀ s : State, (s.age.critRun < 64 ∨ s.age.refused.isSome = true) → exec .urgentStep s = .next s)

/-- In a context's own part of HBM a STORE64 replaces its line and, with no other store in the last 1 us, no other
byte; after one of another source both are logged, each with its own ingress sequence number. A FADD adds to its word
and returns the word as it stood. On an ADD tally line words add modulo 2^64 and a FADD returns the old word; on an OR
line bytes combine, and a FADD ends with an access fault; two stores leave the same line in either order. An operation
whose check never passes is not merged. A merged line goes to memory by writeback. An operation outside the window, or
outside the context's part, changes no memory. (05_snapshots_and_sheaves.md, Tally lines and contended stores,
20_register_map.md, Fabric windows of the tray block) -/
def Obligations.FabricStoresAndTallies : Prop :=
  (∀ (s : State) src a l base, s.runsAs .tray = true → s.fab.base = some base → l.length = 64 → a % 64 = 0 →
    (src.ctx = 0 ∨ s.heldId src.ctx = true) → a < 2 ^ 40 → s.inPart src.ctx a = true → s.isActive src.ctx = true →
    s.tally? a = none → s.fab.recent = [] → Memory.wf s.mem.hbm = true →
    ∃ u, exec (.fabricStore src (.store64 (base + 2 ^ 40 + a) l)) s = .next u ∧ u.getBytes a 64 = l ∧
      (∀ x, (x < a ∨ a + 64 ≤ x) → u.getBytes x 1 = s.getBytes x 1) ∧ (a / 64) ∉ u.mem.bad ∧
      u = { s with mem := { s.mem with hbm := u.mem.hbm, bad := u.mem.bad, live := u.mem.live }, fab := u.fab }) ∧
  (∀ (s : State) (src : FabSource) a l base x, s.runsAs .tray = true → s.fab.base = some base → a % 64 = 0 →
    (src.ctx = 0 ∨ s.heldId src.ctx = true) → a < 2 ^ 40 → s.inPart src.ctx a = true → s.isActive src.ctx = true →
    s.tally? a = none → s.fab.recent = [x] → x.line = a → x.src ≠ src.source → x.logged = false →
    s.now ≤ x.at_ + nsT 1000 → s.fab.clogPos + 2 ≤ 65535 → Memory.wf s.mem.hbm = true →
    ∃ u, exec (.fabricStore src (.store64 (base + 2 ^ 40 + a) l)) s = .next u ∧ u.fab.clogPos = s.fab.clogPos + 2 ∧
      u.getBytes (s.clogAddr + 16 * s.fab.clogPos) 16 = le 8 a ++ le 2 x.src.toNat ++ zeros 2 ++ le 4 x.seq ∧
      (∀ y ∈ u.fab.recent, y.line = a → y.logged = true) ∧
      u.getBytes (s.clogAddr + 16 * (s.fab.clogPos + 1)) 16 =
        le 8 a ++ le 2 src.source.toNat ++ zeros 2 ++ le 4 (s.fab.clogSeq + 1).toNat) ∧
  (∀ (s : State) src a v base, s.runsAs .tray = true → s.fab.base = some base → a % 8 = 0 →
    (src.ctx = 0 ∨ s.heldId src.ctx = true) → a < 2 ^ 40 → s.inPart src.ctx a = true → s.isActive src.ctx = true →
    s.tally? a = none → Memory.wf s.mem.hbm = true → ∃ u, exec (.fabricFadd src (base + 2 ^ 40 + a) v) s = .next u ∧
      unle (u.getBytes a 8) = (unle (s.getBytes a 8) + v.toNat) % 2 ^ 64 ∧
      u.out = s.out ++ [.fabricAnswer (le 8 (unle (s.getBytes a 8))) false] ∧
      (∀ x, (x < a ∨ a + 8 ≤ x) → u.getBytes x 1 = s.getBytes x 1)) ∧
  (∀ (s : State) src a v base t, s.runsAs .tray = true → s.fab.base = some base →
    (src.ctx = 0 ∨ s.heldId src.ctx = true) → a < 2 ^ 40 → s.inPart src.ctx a = true → s.isActive src.ctx = true →
    s.tally? a = some t → s.passes src → let o := a % 64 / 8 * 8
    ∃ u, exec (.tallyOperation src (.fadd (base + 2 ^ 40 + a) v)) s = .next u ∧ u.mem = s.mem ∧
      (t.add = false → u.out = s.out ++ [.accessFault] ∧ u.tally? a = some t) ∧
      (t.add = true → u.out = s.out ++ [.fabricAnswer (le 8 (fld t.line o 8)) false] ∧
        u.tally? a = some { t with line := putIn t.line o (le 8 ((fld t.line o 8 + v.toNat) % 2 ^ 64)) })) ∧
  (∀ (s : State) src src' a l l' base t, s.runsAs .tray = true → s.fab.base = some base →
    (src.ctx = 0 ∨ s.heldId src.ctx = true) → (src'.ctx = 0 ∨ s.heldId src'.ctx = true) → a < 2 ^ 40 →
    s.inPart src.ctx a = true → s.isActive src.ctx = true → s.inPart src'.ctx a = true → s.isActive src'.ctx = true →
    s.tally? a = some t → s.passes src → s.passes src' → ∃ u v u' v' y, exec (.tallyOperation src (.store64 (base + 2 ^ 40 + a) l)) s = .next u ∧
      exec (.tallyOperation src' (.store64 (base + 2 ^ 40 + a) l')) u = .next v ∧
      exec (.tallyOperation src' (.store64 (base + 2 ^ 40 + a) l')) s = .next u' ∧
      exec (.tallyOperation src (.store64 (base + 2 ^ 40 + a) l)) u' = .next v' ∧ v = v' ∧
      u.tally? a = some y ∧ y.line = (if t.add then wordsAdd t.line l else bytesOr t.line l) ∧ u.mem = s.mem ∧
      u.out = s.out) ∧
  (∀ (s : State) src a op base t, s.runsAs .tray = true → s.fab.base = some base →
    (src.ctx = 0 ∨ s.heldId src.ctx = true) → a < 2 ^ 40 → fabAddr op = base + 2 ^ 40 + a →
    s.inPart src.ctx a = true → s.isActive src.ctx = true → s.tally? a = some t → src.check.permanent = true →
    ∃ u, exec (.tallyOperation src op) s = .next u ∧ u.fab.tallies = s.fab.tallies ∧ u.mem.hbm = s.mem.hbm) ∧
  (∀ (s : State) a t, s.runsAs .tray = true → s.tally? a = some t → t.line.length = 64 → Memory.wf s.mem.hbm = true →
    ∃ u, exec (.tallyWriteback a) s = .next u ∧ u.getBytes t.addr 64 = t.line ∧
      (∀ x, (x < t.addr ∨ t.addr + 64 ≤ x) → u.getBytes x 1 = s.getBytes x 1) ∧
      u = { s with mem := { s.mem with hbm := u.mem.hbm, bad := u.mem.bad, live := u.mem.live }, chans := u.chans }) ∧
  (∀ (s : State) src op, s.runsAs .tray = true → s.fab.base = none → ∃ u, exec (.fabricStore src op) s = .next u ∧
    u.mem = s.mem ∧ u.out = s.out ++ [.accessFault]) ∧
  (∀ (s : State) src a l base, s.runsAs .tray = true → s.fab.base = some base → (src.ctx = 0 ∨ s.heldId src.ctx = true) →
    a < 2 ^ 40 → s.inPart src.ctx a = false → ∃ u, exec (.fabricStore src (.store64 (base + 2 ^ 40 + a) l)) s = .next u ∧
      u.mem = s.mem ∧ u.sticky = { s.sticky with fab := orBit s.sticky.fab 29 } ∧ u.out = s.out ++ [.accessFault])

/-- A read of the read window by context 0 answers the 16 registers of its line in address order, each as a single
read of it at that point gives. A store to the write window clears the W1C bits of its register, but none raised in
the same cycle, if bytes 4 to 63 are zero, and otherwise sets FAB_STAT bit 30 and does nothing else. A source that is
not context 0 sets bit 31 and reaches no register. In reset neither window has an effect. (20_register_map.md, Fabric
windows of the tray block, 20_register_map.md, Address space and access paths) -/
def Obligations.RegisterWindows : Prop :=
  (∀ (s : State) src off, s.runsAs .tray = true → src.ctx = 0 → off < 0x40000 → off % 64 = 0 →
    ∃ u, exec (.regWindowRead src off) s = .next u ∧ u.mem = s.mem ∧ u.sticky = s.sticky ∧
      (readRegs .fabric 16 off s).1.length = 16 ∧ u = { (readRegs .fabric 16 off s).2 with
        out := s.out ++ [.fabricAnswer ((readRegs .fabric 16 off s).1.flatMap fun w => le 4 w.toNat) false] } ∧
      (∀ i, i < 16 → ((readRegs .fabric 16 off s).1)[i]? =
        some (readReg .fabric (off + 4 * i) (readRegs .fabric i off s).2).1)) ∧
  (∀ (s : State) src a w, s.runsAs .tray = true → src.ctx = 0 → a < 0x40000 → a % 4 = 0 →
    exec (.regWindowWrite src (16 * a) (le 4 (BitVec.toNat (w : Word)) ++ zeros 60)) s = .next (hostWrite a w s)) ∧
  (∀ (s : State) src off l, s.runsAs .tray = true → src.ctx = 0 → isZero (slice l 4 60) = false →
    ∃ u, exec (.regWindowWrite src off l) s = .next u ∧
      u = { s with sticky := { s.sticky with fab := orBit s.sticky.fab 30 }, raisedNow := u.raisedNow }) ∧
  (∀ (s : State) src off l, s.runsAs .tray = true → src.ctx ≠ 0 →
    (∃ u, exec (.regWindowWrite src off l) s = .next u ∧
      u = { s with sticky := { s.sticky with fab := orBit s.sticky.fab 31 }, raisedNow := u.raisedNow }) ∧
    ∃ u, exec (.regWindowRead src off) s = .next u ∧ u = { s with
      sticky := { s.sticky with fab := orBit s.sticky.fab 31 }
      raisedNow := u.raisedNow
      out := s.out ++ [.accessFault] }) ∧
  (∀ (s : State) src off l, s.profile = .tray → s.clocked = false → exec (.regWindowWrite src off l) s = .next s) ∧
  (∀ (s : State) a w,
    hostWrite a w s = { s with sticky := (hostWrite a w s).sticky } ∧
    (hostWrite 0x840 w s).sticky = { s.sticky with
      err := s.sticky.err &&& ~~~ (w &&& 0xFF000000 &&& ~~~ s.raisedNow.err) } ∧
    (hostWrite 0x100 w s).sticky = { s.sticky with
      rstState := s.sticky.rstState &&& ~~~ (w &&& 0x01F80000 &&& ~~~ s.raisedNow.rstState) })

/-- A read of the lowest word of a register of several words answers it and latches the other words for that path
alone; OPTIME is read so. WIN_TRANSIENT_CNT and an error counter answer their value before the cycle and keep after
the read only what the cycle itself added, except on the REG_READ path, which clears nothing. A sideband read answers
the register and acknowledges without error; a sideband write to a TIM_ register is answered with SB_ERR and changes
nothing else; in reset every access is an error; a port whose own logic failed acknowledges no access. A write on any
path changes the sticky bits at most, and clears no bit raised in the same cycle. (20_register_map.md, Address space
and access paths, 10_winnow_engine.md, Status registers, 17_checks_errors_and_ageing.md, Counters and summaries,
19_event_recorder_and_identity.md, Flash) -/
def Obligations.RegisterPaths : Prop :=
  (∀ (s : State) p a n v, s.serves p = true → a < 2 ^ 18 → s.wideReg a = some (a, n, v) → ∃ u, exec (.lowestWordRead p a) s = .next u ∧
    u.out = s.out ++ [.regValue p a (wordOf v 0)] ∧
    (∀ i, 0 < i → i < n → u.latched p (a + 4 * i) = wordOf v i) ∧
    (∀ q b, q ≠ p → u.latched q b = s.latched q b) ∧ u = { s with latches := u.latches, out := u.out }) ∧
  (∀ (s : State) p, s.runsAs .tray = true → s.serves p = true → ∃ u, exec (.evrOptRead p) s = .next u ∧
    u.out = s.out ++ [.regValue p 0x828 (BitVec.ofNat 32 s.optime)] ∧
    u.latched p 0x82C = BitVec.ofNat 32 (s.optime % 2 ^ 48 / 2 ^ 32) ∧ u = { s with latches := u.latches, out := u.out }) ∧
  (∀ s : State, (s.serves .regRead = true → exec (.winTransientCntRead .regRead) s =
      .next { s with out := s.out ++ [.regValue .regRead 0x804 s.err.winTransient] }) ∧
    (∀ p, s.serves p = true → p ≠ .regRead → exec (.winTransientCntRead p) s = .next { s with
      err := { s.err with winTransient := s.err.winNow, winBefore := 0 }
      out := s.out ++ [.regValue p 0x804 s.err.winBefore] })) ∧
  (∀ (s : State) i, s.runsAs .tray = true → i < 64 →
    (s.serves .regRead = true → exec (.errCntRead .regRead i) s =
      .next { s with out := s.out ++ [.regValue .regRead (0x900 + 4 * i) (s.err.cnt.getD i 0)] }) ∧
    (∀ p, s.serves p = true → p ≠ .regRead → exec (.errCntRead p i) s = .next { s with
      err := { s.err with
        cnt := s.err.cnt.modify i fun _ => s.err.cntNow.getD i 0
        cntBefore := s.err.cntBefore.modify i fun _ => 0 }
      out := s.out ++ [.regValue p (0x900 + 4 * i) (s.err.cntBefore.getD i 0)] })) ∧
  (∀ (s : State) a v, s.profile = .leaf → s.mode ≠ .off → s.sb.dead = false → s.inReset = false → a < 2 ^ 18 →
    (∃ u, exec (.sidebandAccess .read a v) s = .next u ∧
      u.pins = { s.pins with sbAck := true, sbErr := false, sbRdata := (readReg .sideband a s).1 } ∧
      u = { (readReg .sideband a s).2 with pins := u.pins, sb := { s.sb with ackAt := some s.edges } }) ∧
    (isTimReg a = true → exec (.sidebandAccess .write a v) s = .next { s with
      pins := { s.pins with sbAck := true, sbErr := true }
      sb := { s.sb with ackAt := some s.edges } }) ∧
    (isTimReg a = false → exec (.sidebandAccess .write a v) s = .next { hostWrite a v s with
      pins := { s.pins with sbAck := true, sbErr := false }
      sb := { s.sb with ackAt := some s.edges } })) ∧
  (∀ (s : State) op a v, s.profile = .leaf → s.mode ≠ .off → s.sb.dead = false → s.inReset = true → op ≠ .failed →
    exec (.sidebandAccess op a v) s = .next { s with
      pins := { s.pins with sbAck := true, sbErr := true, sbRdata := 0 }
      sb := { s.sb with ackAt := some s.edges } }) ∧
  (∀ (s : State) op a v, s.profile = .leaf → s.mode ≠ .off → (op = .failed ∨ s.sb.dead = true) →
    exec (.sidebandAccess op a v) s = .next { s with sb := { s.sb with dead := true } }) ∧
  (∀ (s : State) p a v, ∃ u, exec (.registerWrite p a v) s = .next u ∧ u = { s with sticky := u.sticky } ∧
    (p = .regRead → u = s) ∧ (a = 0x804 → u = s)) ∧
  (∀ (s : State) p v, p ≠ .regRead → s.serves p = true → exec (.registerWrite p 0x404 v) s = .next { s with
    sticky := { s.sticky with stw := s.sticky.stw &&& ~~~ (v &&& 0xF0000000 &&& ~~~ s.raisedNow.stw) } })

/-- When the running command of a mailbox ends, the mailbox runs nothing, its waiting commands and its next post stay,
UPD of the command's slot rises by one modulo 256, no other mailbox changes, and nothing else of the block changes but
what it sends. With a return area the last thing sent is the entry's flag word at 256 bytes per slot, with SEQ,
generation, state 4 and UPD; without one nothing is sent. A command that waits is answered the same way with state 2
and stands last among the waiting. (15_steward_and_mailboxes.md, Completions, 15_steward_and_mailboxes.md, Mailboxes
and where they lie) -/
def Obligations.CompletionsAnswerCommands : Prop :=
  (∀ (s : State) n m c st r, s.mbx? n = some m → let u := finish n c st r s
    let upd := (m.upd.getD c.slot 0 + 1) % 256
    u.mbx? n = some { m with running := none, upd := m.upd.modify c.slot fun _ => upd } ∧
      (∀ k, k ≠ n → u.mbx? k = s.mbx? k) ∧
      u = { s with stw := { s.stw with mbxs := u.stw.mbxs }, lanes := u.lanes, hfAllow := u.hfAllow, out := u.out } ∧
      (s.retBase n = 0 → n ≠ 16 → u.out = s.out) ∧
      (s.retBase n ≠ 0 → n ≠ 16 → s.profile = .leaf → u.out.getLast? = some (.hfFlag (s.retBase n + 256 * c.slot)
        (BitVec.ofNat 64 (c.seq + c.gen.toNat * 2 ^ 16 + 4 * 2 ^ 32 + upd * 2 ^ 40)))) ∧
      (s.retBase n ≠ 0 → n ≠ 16 → s.profile = .tray → u.out.getLast? = some (.flag n (s.retBase n + 256 * c.slot)
        (BitVec.ofNat 64 (c.seq + c.gen.toNat * 2 ^ 16 + 4 * 2 ^ 32 + upd * 2 ^ 40))))) ∧
  (∀ (s : State) n m c w, s.mbx? n = some m → let u := wait n c w s
    waits n c w c.result s u ∧ (∀ k, k ≠ n → u.mbx? k = s.mbx? k) ∧
      u = { s with stw := { s.stw with mbxs := u.stw.mbxs }, lanes := u.lanes, hfAllow := u.hfAllow, out := u.out })

/-- MBX_ATTACH makes its page-aligned address the return area. REG_READ answers the registers in order and clears
none; an address that is not mapped is BAD_FIELD. RECORD_PERIOD_SET takes 600 to 86,400 s for the next period.
RECORD_READ stores the record of its rank at DEST and answers its RSEQ; without one it is NOT_LOADED. CERT_READ and
EVIDENCE_SIGN write their item at an aligned DEST and answer its length, or answer BAD_FIELD with the length that they
need. (16_command_reference.md, Mailbox, configuration and firmware, 16_command_reference.md, Recorder, identity,
reset and twins) -/
def Obligations.MailboxBasics : Prop :=
  (∀ (s : State) m c, s.runsAs .tray = true → s.runs m 0x0101 c → unnamedZero c.payload [(0, 8)] = true →
    fld c.payload 0 8 % 4096 = 0 → fld c.payload 0 8 < 2 ^ 52 → ∃ u v, exec (.mbxAttach m) s = .next u ∧
      u.mbx? m = some v ∧ v.ret = fld c.payload 0 8 ∧ v.running = none ∧
      u = { s with stw := { s.stw with mbxs := u.stw.mbxs }, lanes := u.lanes, hfAllow := u.hfAllow, out := u.out }) ∧
  (∀ (s : State) m c n, s.runs m 0x0106 c → n = fld c.payload 0 4 → 1 ≤ n → n ≤ 30 →
    unnamedZero c.payload [(0, 4 + 4 * n)] = true → (regAddrs c.payload).all s.mapped = true →
    ∃ u, exec (.regRead m) s = .next u ∧
      u = finish m c stOK (regWords (regAddrs c.payload) s).1 (regWords (regAddrs c.payload) s).2 ∧
      (regWords (regAddrs c.payload) s).1.length = 4 * n ∧ u.err = s.err ∧ u.sticky = s.sticky ∧
      u = { s with
        stw := { s.stw with mbxs := u.stw.mbxs }
        latches := u.latches, lanes := u.lanes, hfAllow := u.hfAllow, out := u.out }) ∧
  (∀ (s : State) m c a, s.runs m 0x0106 c → a ∈ regAddrs c.payload → s.mapped a = false →
    exec (.regRead m) s = .next (finish m c stBAD_FIELD [] s)) ∧
  (∀ (s : State) m c, s.runsAs .tray = true → s.runs m 0x0B02 c → unnamedZero c.payload [(0, 4)] = true →
    exec (.recordPeriodSet m) s = .next (if 600 ≤ fld c.payload 0 4 ∧ fld c.payload 0 4 ≤ 86400 then
      finish m c stOK [] { s with evr := { s.evr with nextPeriod := fld c.payload 0 4 } }
    else finish m c stBAD_FIELD [] s)) ∧
  (∀ (s : State) m c r, s.runsAs .tray = true → s.runs m 0x0B01 c → unnamedZero c.payload [(0, 4), (8, 8)] = true →
    fld c.payload 8 8 % 4096 = 0 → s.validRecs[fld c.payload 0 4]? = some r → ∃ u l, exec (.recordRead m) s = .next u ∧
      l.length = 64 ∧ (∀ i, i < 64 → l[i]? = some (.store64 0 (fld c.payload 8 8 + 64 * i)
        (slice (slice (r.bytes ++ le 8 0x45565245434F5244) 0 4096) (64 * i) 64))) ∧
      u = finish m c stOK (slice r.bytes 4 4) (s.issue l)) ∧
  (∀ (s : State) m c, s.runsAs .tray = true → s.runs m 0x0B01 c → unnamedZero c.payload [(0, 4), (8, 8)] = true →
    fld c.payload 8 8 % 4096 = 0 → s.validRecs.length ≤ fld c.payload 0 4 →
    exec (.recordRead m) s = .next (finish m c stNOT_LOADED [] s)) ∧
  (∀ (s : State) m c b, s.runs m 0x0C01 c → unnamedZero c.payload [(0, 1), (8, 12)] = true →
    s.certItem (fld c.payload 0 1) = some b → fld c.payload 8 8 % 4096 = 0 →
    exec (.certRead m) s = .next (if fld c.payload 16 4 < b.length then finish m c stBAD_FIELD (le 4 b.length) s
      else finish m c stOK (le 4 b.length) (writeDest (fld c.payload 8 8) b s))) ∧
  (∀ (s : State) m c, s.runs m 0x0C02 c → unnamedZero c.payload [(0, 60)] = true → fld c.payload 48 8 % 4096 = 0 →
    let e := s.evidence (slice c.payload 0 48)
    let b := e ++ slice (Config.ecdsaSign s.ident.aliasKey (Config.sha384 e)) 0 96
    b.length = 352 ∧ exec (.evidenceSign m) s = .next (if fld c.payload 56 4 < 352 then
        finish m c stBAD_FIELD (le 4 352) s
      else finish m c stOK (le 4 352) (writeDest (fld c.payload 48 8) b s)))

/-- CONFIG_STORE and FW_STORE write one erase block of the spare copy and go on running until the part is there; after
the last part a configuration copy is marked, and a firmware copy whole, exactly if its checks hold, and BAD_IMAGE is
answered otherwise. A failed verify answers FLASH_FAULT and leaves the copy without its end. FW_ACTIVATE writes the
activation record of a whole copy and with bit 0 a reset follows 10 us later. CONFIG_APPLY at a tray block restarts
from the stored image if it passes its checks. (16_command_reference.md, Mailbox, configuration and firmware,
21_power_up_and_configuration.md, The configuration image) -/
def Obligations.StoresAndActivation : Prop :=
  (∀ (s : State) m c f, s.runsAs .tray = true → s.runs m 0x0102 c → s.flash.cfg.length = 2 →
    let i := spareCopy s.boot.cfgCopy
    let old := nth s.flash.cfg i emptyCfg
    flashPartCheck m (2 ^ 23) old.bytes.length old.len c s = none → nextBlock (flashCursor c) (readPart c.payload) <
      (readPart c.payload).pos + (readPart c.payload).len →
    let (b, fin, ops) := storeBlock (0x01000000 + 0x800000 * i) m c old.bytes s
    ∃ u x, exec (.configStore m f) s = .next u ∧ u.mbx? m = some x ∧ (f = .ok →
        u.flash.cfg[i]? = some ⟨b, false, some (c.crc, s.stw.boot), (readPart c.payload).imgLen⟩ ∧ x.running = some { c with cursor := fin } ∧
        ops <:+: u.out) ∧
      (f ≠ .ok → u.flash.cfg[i]? = some ⟨old.bytes.take (flashCursor c), false, none, (readPart c.payload).imgLen⟩ ∧ x.running = none) ∧
      (∀ j, j ≠ i → u.flash.cfg[j]? = s.flash.cfg[j]?) ∧ u.boot = s.boot) ∧
  (∀ (s : State) m c, s.runsAs .tray = true → s.runs m 0x0102 c → s.flash.cfg.length = 2 →
    let i := spareCopy s.boot.cfgCopy
    let old := nth s.flash.cfg i emptyCfg
    let p := readPart c.payload
    flashPartCheck m (2 ^ 23) old.bytes.length old.len c s = none → nextBlock (flashCursor c) p = p.pos + p.len → p.last = true →
    let b := (storeBlock (0x01000000 + 0x800000 * i) m c old.bytes s).1
    ∃ u x, exec (.configStore m .ok) s = .next u ∧ u.mbx? m = some x ∧ x.running = none ∧
      u.flash.cfg[i]? = some ⟨b, markerOk b && imageChecks .tray b && ownerOk s.ownerHash b, none, 0⟩ ∧
      (∀ j, j ≠ i → u.flash.cfg[j]? = s.flash.cfg[j]?) ∧ u.stw.resetDue = s.stw.resetDue) ∧
  (∀ (s : State) m c, s.runsAs .tray = true → s.runs m 0x0104 c → s.flash.fw.length = 2 →
    let i := spareCopy s.boot.fwCopy
    let old := nth s.flash.fw i emptyFw
    let p := readPart c.payload
    flashPartCheck m (2 ^ 23 - 64) old.bytes.length old.len c s = none → nextBlock (flashCursor c) p = p.pos + p.len →
    let b := (storeBlock (0x800000 * i) m c old.bytes s).1
    ∃ u x, exec (.fwStore m .ok) s = .next u ∧ u.mbx? m = some x ∧ x.running = none ∧
      (p.last = true → u.flash.fw[i]? = some ⟨b, fwOk .tray s.otpSvn b, none, none, 0⟩) ∧
      (p.last = false → u.flash.fw[i]? = some ⟨b, false, none, some (c.crc, s.stw.boot), p.imgLen⟩) ∧
      (∀ j, j ≠ i → u.flash.fw[j]? = s.flash.fw[j]?) ∧ u.boot = s.boot) ∧
  (∀ (s : State) m c k, s.runsAs .tray = true → s.runs m 0x0105 c → s.flash.fw.length = 2 →
    unnamedZero c.payload [(0, 1)] = true → fld c.payload 0 1 < 2 → s.boot.fwCopy = some 0 → s.flash.fw[1]? = some k →
    k.whole = true → ∃ u x n, exec (.fwActivate m .ok) s = .next u ∧ u.mbx? m = some x ∧ x.running = none ∧
      u.flash.fw[1]? = some { k with act := some n } ∧ (∀ y, ((s.flash.fw[0]?).bind (·.act)) = some y → y < n) ∧
      u.stw.resetDue = (if fld c.payload 0 1 = 1 then some (.cmd, s.now + nsT 10000) else s.stw.resetDue)) ∧
  (∀ (s : State) m c f, s.runsAs .tray = true → s.runs m 0x0105 c → unnamedZero c.payload [(0, 1)] = true →
    fld c.payload 0 1 < 2 → (nth s.flash.fw (spareCopy s.boot.fwCopy) emptyFw).whole = false →
    exec (.fwActivate m f) s = .next (finish m c stNOT_LOADED [] s)) ∧
  (∀ (s : State) m c host x, s.runsAs .tray = true → s.runs m 0x0103 c → unnamedZero c.payload [(0, 1), (8, 12)] = true →
    fld c.payload 0 1 = 0 → storedCfg s.flash.cfg = some x →
    let b := x.2.bytes
    let ok := markerOk b && imageChecks .tray b && ownerOk s.ownerHash b
    ∃ u y, exec (.configApply m host) s = .next u ∧ u.mbx? m = some y ∧ y.running = none ∧
      u.stw.resetDue = (if ok then some (.cmd, s.now + nsT 10000) else s.stw.resetDue) ∧
      u = { s with
        stw := { s.stw with mbxs := u.stw.mbxs, resetDue := u.stw.resetDue }
        lanes := u.lanes, hfAllow := u.hfAllow, out := u.out })

/-- BLOCK_RESET completes and a reset of cause CMD follows 10 us later; asked to leave the role to the twin it needs
one. DUMP_TAKE writes the automatic dump, if there is one, and every live entry behind its header, or as many as fit
with ADDR_FAULT. TWIN_DETACH names a boundary at which the member named is detached and waits for it. TWIN_ATTACH at
the carrier begins an attach and waits; with the twin attached it is OK, with a cause that refuses the twin
TWIN_REFUSED. (16_command_reference.md, Recorder, identity, reset and twins, 18_reset_fencing_recovery.md, Takeover,
detach and attach) -/
def Obligations.ResetDumpAndTwinCommands : Prop :=
  (∀ (s : State) m c, s.runs m 0x0D01 c → unnamedZero c.payload [(0, 1)] = true → fld c.payload 0 1 = 0 →
    ∃ u x, exec (.blockReset m) s = .next u ∧ u.mbx? m = some x ∧ x.running = none ∧
      u.stw.resetDue = some (.cmd, s.now + nsT 10000) ∧
      u = { s with
        stw := { s.stw with mbxs := u.stw.mbxs, resetDue := u.stw.resetDue }
        lanes := u.lanes, hfAllow := u.hfAllow, out := u.out }) ∧
  (∀ (s : State) m c, s.runs m 0x0D01 c → unnamedZero c.payload [(0, 1)] = true → fld c.payload 0 1 = 1 →
    s.twinCarries = false → exec (.blockReset m) s = .next (finish m c stNO_TWIN [] s)) ∧
  (∀ (s : State) m c scans, s.runs m 0x0D02 c → unnamedZero c.payload [(0, 16)] = true → fld c.payload 0 8 % 4096 = 0 →
    64 ≤ fld c.payload 8 8 → c.cursor = 0 → s.sticky.rstHang.getLsbD 9 = false →
    let es := liveEntries scans s.now
    let bad := (scans.filter fun x => !x.answered).length
    let kept := fitting es (fld c.payload 8 8 - 64)
    let head := dumpHeader s.dump.seq es.length s.curEpoch s.now s.boot.cause s.stw.boot
    let r := le 8 (64 + (kept.map (·.length)).sum) ++ le 4 (scans.length - bad) ++ le 4 bad
    let t := writeDest (fld c.payload 0 8) (head ++ kept.flatten) { s with dump := { s.dump with owner := none } }
    exec (.dumpTake m scans) s = .next (if kept.length < es.length then endPartial m c stADDR_FAULT kept.length r t
      else finish m { c with cursor := es.length } (if 0 < bad then stUNIT_UNREADABLE else stOK) r t)) ∧
  (∀ (s : State) m c f, s.runsAs .tray = true → s.runs m 0x0D03 c → unnamedZero c.payload [(0, 1)] = true →
    fld c.payload 0 1 = f → f < 2 → s.twinCarries = true →
    let d := s.curEpoch + s.leadEpochs
    ∃ u, exec (.twinDetach m) s = .next u ∧ waits m c (.boundary d) (le 8 d) s u ∧
      u.stw.bnd = s.stw.bnd ++ [⟨d, .detach (f == 1), false, s.stw.turn⟩] ∧
      u.twin = (if f = 1 then { s.twin with detachAt := some d } else { s.twin with twinDetachAt := some d }) ∧
      u = { s with
        stw := { s.stw with mbxs := u.stw.mbxs, bnd := u.stw.bnd }
        twin := u.twin
        lanes := u.lanes
        out := u.out }) ∧
  (∀ (s : State) m c, s.runsAs .tray = true → s.runs m 0x0D03 c → unnamedZero c.payload [(0, 1)] = true →
    fld c.payload 0 1 < 2 → s.twinCarries = false → exec (.twinDetach m) s = .next (finish m c stNO_TWIN [] s)) ∧
  (∀ (s : State) m c, s.runsAs .tray = true → s.runs m 0x0D04 c → unnamedZero c.payload [] = true → s.carrying = true →
    s.twin.paired = false → s.twinRefusal = none → s.belayUp = true → s.twin.attach = none →
    ∃ u, exec (.twinAttach m) s = .next u ∧ waits m { c with cursor := 2 ^ 56 } .attach c.result s u ∧
      u.twin = { s.twin with twinDetached := false, attach := some ⟨true, .config, 0, none, true⟩ } ∧
      u = { s with stw := { s.stw with mbxs := u.stw.mbxs }, twin := u.twin, lanes := u.lanes, out := u.out }) ∧
  (∀ (s : State) m c, s.runsAs .tray = true → s.runs m 0x0D04 c → unnamedZero c.payload [] = true → s.carrying = true →
    s.twin.paired = true → exec (.twinAttach m) s = .next (finish m c stOK [] s)) ∧
  (∀ (s : State) m c r, s.runsAs .tray = true → s.runs m 0x0D04 c → unnamedZero c.payload [] = true → s.carrying = true →
    s.twin.paired = false → s.twinRefusal = some r → exec (.twinAttach m) s = .next (finish m c stTWIN_REFUSED (le 1 r) s))

/-- EPOCH_SET at a member that is grandmaster, with an EPOCH_NS in range, arms its change for the epoch named and
waits for it, unless the epoch is too near (TOO_SOON); elsewhere it is NOT_SLOT_MASTER. STOP_ARM arms the stop for the
epoch that holds its time, and a malformed time is BAD_TIME. STOP_RELEASE names the release time of a stop in
progress, late if it has passed, and answers the stop's state; with no stop in progress it changes nothing.
(16_command_reference.md, Time and the timed stop, 16_command_reference.md, Attributes and common rules) -/
def Obligations.TimeAndStopCommands : Prop :=
  (∀ (s : State) m c, s.runsAs .tray = true → s.runs m 0x0201 c → unnamedZero c.payload [(0, 12)] = true →
    s.grandmasterMember = true → epochNsOk (fld c.payload 8 4) = true → s.tooSoon c.accepted kindEpochSet (fld c.payload 0 8) 0 = false →
    s.answerArm (s.cmdArm m kindEpochSet true (fld c.payload 0 8) 0 0 (s.genOf 0) (BitVec.ofNat 32 (fld c.payload 8 4))) =
      .accept → ∃ u, exec (.epochSet m) s = .next u ∧ armedFor m c kindEpochSet (fld c.payload 0 8) s u) ∧
  (∀ (s : State) m c, s.runsAs .tray = true → s.runs m 0x0201 c → unnamedZero c.payload [(0, 12)] = true →
    (s.grandmasterMember = false → exec (.epochSet m) s = .next (finish m c stNOT_SLOT_MASTER [] s)) ∧
    (s.grandmasterMember = true → epochNsOk (fld c.payload 8 4) = true →
      s.tooSoon c.accepted kindEpochSet (fld c.payload 0 8) 0 = true → exec (.epochSet m) s = .next (finish m c stTOO_SOON [] s))) ∧
  (∀ (s : State) m c t k, s.runsAs .tray = true → s.runs m 0x0406 c → unnamedZero c.payload [(0, 16)] = true →
    t = ITime.ofBytes c.payload → t.malformed = false → s.epochAt t.toTicks = some k →
    s.tooSoon c.accepted kindStop k t.toBits = false →
    s.answerArm (s.cmdArm m kindStop true k t.toBits 0 (s.genOf 0) 0) = .accept →
    ∃ u, exec (.stopArm m) s = .next u ∧ armedFor m c kindStop k s u) ∧
  (∀ (s : State) m c, s.runsAs .tray = true → s.runs m 0x0406 c → unnamedZero c.payload [(0, 16)] = true →
    (ITime.ofBytes c.payload).malformed = true → exec (.stopArm m) s = .next (finish m c stBAD_TIME [] s)) ∧
  (∀ (s : State) m c t, s.runsAs .leaf = true → s.runs m 0x0407 c → unnamedZero c.payload [(0, 16)] = true →
    t = ITime.ofBytes c.payload → t.malformed = false → ∃ u, exec (.stopRelease m) s = .next u ∧
      (s.stopActive = true → u.stop = { s.stop with release := some t.toTicks }) ∧
      (s.stopActive = false → u.stop = s.stop) ∧
      u.sticky = (if s.stopActive = true ∧ t.toTicks < s.now then { s.sticky with trc := orBit s.sticky.trc 26 }
        else s.sticky) ∧
      u = finish m c stOK (le 1 (phaseCode s.stop.phase))
        { s with stop := u.stop, sticky := u.sticky, raisedNow := u.raisedNow })

/-- A SAMPLE_SET that passes its checks takes effect at the boundary named when it was accepted, or one two epochs
ahead if that has come, and completes now. CNT_READ answers the counter of a stook that the caller owns, and for
another it is NOT_OWNER. TRACE_SET replaces its share's list and divider from its next group; WATCH_FEED_SET names the
next ring, WATCH_SET puts an entry in its place, WATCH_CLEAR removes the entries of its mask. BRK_RESUME waits for the
resume of its core; a core that still drains is DRAIN_PENDING. (16_command_reference.md, Capture, trace and watch
(leaf)) -/
def Obligations.CaptureTraceAndWatchCommands : Prop :=
  (∀ (s : State) m c, s.runsAs .leaf = true → s.runs m 0x0301 c → sampleCheck (mbxCtx m) c.payload s = none →
    let d := fld c.payload 0 1
    let plan : IntPlan := ⟨mbxCtx m, s.genOf (mbxCtx m), d, sampleSel c.payload, (0, 0)⟩
    let b := s.namedBoundary c false
    exec (.sampleSet m) s = .next (finish m c stOK (le 8 b) { s with stw := { s.stw with
      bnd := s.stw.bnd ++ [⟨b, .sample (mbxCtx m) (if d = 0 then none else some plan), true, c.turn⟩] } })) ∧
  (∀ (s : State) m c e, s.runsAs .leaf = true → s.runs m 0x0301 c → sampleCheck (mbxCtx m) c.payload s = some e →
    exec (.sampleSet m) s = .next (finish m c e [] s)) ∧
  (∀ (s : State) m c st, s.runsAs .leaf = true → s.runs m 0x0302 c → unnamedZero c.payload [(0, 2)] = true →
    s.stook? (fld c.payload 0 2 / 256) = some st → fld c.payload 0 2 % 256 < st.obs.length → exec (.cntRead m) s = .next
      (if s.cap.owner.getD st.unit 0 = mbxCtx m then finish m c stOK (s.cntResult st (fld c.payload 0 2 % 256)) s
      else finish m c stNOT_OWNER [] s)) ∧
  (∀ (s : State) m c x, s.runsAs .leaf = true → s.runs m 0x0401 c → unnamedZero c.payload [(0, 34)] = true →
    fld c.payload 32 2 ≤ 4096 → (∀ i, i < 256 → bit (fld c.payload 0 32) i = true → s.coreOwner i = mbxCtx m) →
    s.trc.shares.find? (·.ctx == mbxCtx m) = some x → ∃ u y, exec (.traceSet m) s = .next u ∧
      u.trc.shares.find? (·.ctx == mbxCtx m) = some y ∧ y = { x with pendingSet := y.pendingSet } ∧
      (∀ l, y.pendingSet = some l → l.2 = fld c.payload 32 2 ∧
        ∀ i, i ∈ l.1 ↔ (l.2 ≠ 0 ∧ i < 256 ∧ bit (fld c.payload 0 32) i = true)) ∧ y.pendingSet.isSome = true ∧
      u = finish m c stOK [] { s with trc := { s.trc with shares := u.trc.shares } }) ∧
  (∀ (s : State) m c w f, s.runsAs .leaf = true → s.runs m 0x0402 c → unnamedZero c.payload [(0, 10), (16, 8)] = true →
    s.watch? (mbxCtx m) = some w → f = fld c.payload 8 2 → ((f = 0) ∨ (powerIn f 64 4096 = true ∧ fld c.payload 16 8 ≠ 0 ∧
      fld c.payload 0 8 % 64 = 0 ∧ s.inWindow (mbxCtx m) (fld c.payload 0 8) (64 * f) = true)) →
    ∃ u, exec (.watchFeedSet m) s = .next u ∧ u.watch? (mbxCtx m) = some { w with
        nextFeed := if f = 0 then some (0, 0, 0) else some (fld c.payload 0 8, f, fld c.payload 16 8) } ∧
      u = finish m c stOK [] { s with watch := u.watch }) ∧
  (∀ (s : State) m c w, s.runsAs .leaf = true → s.runs m 0x0403 c →
    unnamedZero c.payload [(0, 1), (4, 22), (28, 8)] = true → fld c.payload 0 1 < 64 / max 1 s.cfg.shareCount →
    fld c.payload 24 2 ≠ 0 → fld c.payload 28 4 % 64 = 0 → fld c.payload 32 4 % 64 = 0 → s.watch? (mbxCtx m) = some w →
    ∃ u y e, exec (.watchSet m) s = .next u ∧ u.watch? (mbxCtx m) = some y ∧ e ∈ y.entries ∧ e.idx = fld c.payload 0 1 ∧
      e.tensor.toNat = fld c.payload 4 4 ∧ e.step0 = fld c.payload 8 8 ∧ e.stride = fld c.payload 16 8 ∧
      e.count = fld c.payload 24 2 ∧ e.off = fld c.payload 28 4 ∧ e.dlen = fld c.payload 32 4 ∧
      (∀ e', e' ≠ e → (e' ∈ y.entries ↔ (e' ∈ w.entries ∧ e'.idx ≠ e.idx))) ∧ y = { w with entries := y.entries } ∧
      u = finish m c stOK [] { s with watch := u.watch }) ∧
  (∀ (s : State) m c w, s.runsAs .leaf = true → s.runs m 0x0404 c → unnamedZero c.payload [(0, 8)] = true →
    s.watch? (mbxCtx m) = some w → ∃ u, exec (.watchClear m) s = .next u ∧ u.watch? (mbxCtx m) = some { w with
        entries := w.entries.filter fun e => !bit (fld c.payload 0 8) e.idx } ∧
      u = finish m c stOK [] { s with watch := u.watch }) ∧
  (∀ (s : State) m c core, s.runsAs .leaf = true → s.runs m 0x0405 c → unnamedZero c.payload [(0, 1)] = true →
    core = fld c.payload 0 1 → s.drainPending core = false → s.resumeOwner core = mbxCtx m →
    ∃ u, exec (.brkResume m) s = .next u ∧ waits m c (.resume core) c.result s u ∧
      u.brk = { s.brk with resumes := s.brk.resumes ++ [(core, mbxCtx m)] } ∧
      u = { s with stw := { s.stw with mbxs := u.stw.mbxs }, brk := u.brk, hfAllow := u.hfAllow, out := u.out }) ∧
  (∀ (s : State) m c, s.runsAs .leaf = true → s.runs m 0x0405 c → unnamedZero c.payload [(0, 1)] = true →
    s.drainPending (fld c.payload 0 1) = true → exec (.brkResume m) s = .next (finish m c stDRAIN_PENDING [] s))

/-- A PLAN_LOAD whose image is a plan of the id named, not in use and within four, holds it; an image that is none is
BAD_PLAN. PLAN_SET of a held plan arms it and waits, one not held is NOT_LOADED. The three AREA_SETs take effect at
the boundary that they name and wait for it. TALLY_SET makes a line of the caller's part a tally line with the line's
bytes; a line that is one is IN_USE. TALLY_CLEAR writes the line back and ends its designation, and only the caller's.
(16_command_reference.md, Reduction, publication and tally lines (tray block)) -/
def Obligations.ReductionCommands : Prop :=
  (∀ (s : State) m c img p, wholeImage s m 0x0501 2 c img → parsePlan img = some p → fld c.payload 36 2 = p.planId →
    s.planUsed (mbxCtx m) p.planId = false →
    (s.planHeld (mbxCtx m) p.planId = true ∨ (s.red.plans.filter (·.ctx == mbxCtx m)).length < 4) →
    ∃ u x, exec (.planLoad m) s = .next u ∧ (⟨mbxCtx m, p, none⟩ : CtxPlan) ∈ u.red.plans ∧
      (∀ q, (q.ctx ≠ mbxCtx m ∨ q.plan.planId ≠ p.planId) → (q ∈ u.red.plans ↔ q ∈ s.red.plans)) ∧
      u.mbx? m = some x ∧ x.running = none ∧ u = { s with
        red := { s.red with plans := u.red.plans }
        stw := { s.stw with mbxs := u.stw.mbxs }
        lanes := u.lanes, out := u.out }) ∧
  (∀ (s : State) m c img, wholeImage s m 0x0501 2 c img → parsePlan img = none → ∃ u x, exec (.planLoad m) s = .next u ∧
    u.mbx? m = some x ∧ x.running = none ∧ u.red = s.red) ∧
  (∀ (s : State) m c id, s.runsAs .tray = true → s.runs m 0x0502 c → unnamedZero c.payload [(0, 2), (8, 8)] = true →
    id = fld c.payload 0 2 → s.planHeld (mbxCtx m) id = true →
    s.tooSoon c.accepted kindPlanSet (fld c.payload 8 8) (BitVec.ofNat 128 id) = false →
    s.answerArm (s.cmdArm m kindPlanSet true (fld c.payload 8 8) (BitVec.ofNat 128 id) (mbxCtx m) (s.genOf (mbxCtx m)) 0) =
      .accept → ∃ u, exec (.planSet m) s = .next u ∧ armedFor m c kindPlanSet (fld c.payload 8 8) s u) ∧
  (∀ (s : State) m c, s.runsAs .tray = true → s.runs m 0x0502 c → unnamedZero c.payload [(0, 2), (8, 8)] = true →
    s.planHeld (mbxCtx m) (fld c.payload 0 2) = false →
    exec (.planSet m) s = .next (finish m c stNOT_LOADED [] s)) ∧
  (∀ (s : State) m c, s.runsAs .tray = true → s.relays = false → s.runs m 0x0503 c → pubCheck (mbxCtx m) c.payload s = none →
    ∃ u, exec (.pubAreaSet m) s = .next u ∧ queuedAt m c
      (.pub (mbxCtx m) (fld c.payload 0 8) (fld c.payload 8 4) (4096 * fld c.payload 12 4)) [] s u) ∧
  (∀ (s : State) m c, s.runsAs .tray = true → s.relays = false → s.runs m 0x0504 c →
    unnamedZero c.payload [(0, 16)] = true → fld c.payload 8 8 % 4096 = 0 →
    ∃ u, exec (.ckptAreaSet m) s = .next u ∧
      queuedAt m c (.ckptArea (mbxCtx m) (fld c.payload 0 8) (fld c.payload 8 8)) [] s u) ∧
  (∀ (s : State) m c, s.runsAs .tray = true → s.relays = false → s.runs m 0x0505 c →
    unnamedZero c.payload [(0, 16)] = true → powerIn (fld c.payload 8 4) 64 4096 = true → 5 ≤ fld c.payload 12 4 →
    ∃ u, exec (.captAreaSet m) s = .next u ∧ queuedAt m c
      (.captArea (mbxCtx m) (fld c.payload 0 8) (fld c.payload 8 4) (4096 * fld c.payload 12 4)) [] s u) ∧
  (∀ (s : State) m c, s.runsAs .tray = true → s.runs m 0x0601 c → tallyCheck (mbxCtx m) c.payload s = none →
    let a := fld c.payload 0 8
    exec (.tallySet m) s = .next (finish m c stOK [] { s with fab := { s.fab with
      tallies := s.fab.tallies ++ [⟨mbxCtx m, a, fld c.payload 8 1 == 0, s.getBytes a 64⟩] } })) ∧
  (∀ (s : State) m c e, s.runsAs .tray = true → s.runs m 0x0601 c → tallyCheck (mbxCtx m) c.payload s = some e →
    exec (.tallySet m) s = .next (finish m c e [] s)) ∧
  (∀ (s : State) m c t, s.runsAs .tray = true → s.runs m 0x0602 c → unnamedZero c.payload [(0, 8)] = true →
    s.fab.tallies.find? (fun t => t.ctx == mbxCtx m && t.addr == fld c.payload 0 8) = some t → t.line.length = 64 →
    Memory.wf s.mem.hbm = true → ∃ u x, exec (.tallyClear m) s = .next u ∧ t ∉ u.fab.tallies ∧
      (∀ y, y ≠ t → (y ∈ u.fab.tallies ↔ y ∈ s.fab.tallies)) ∧ u.getBytes t.addr 64 = t.line ∧
      (∀ x, (x < t.addr ∨ t.addr + 64 ≤ x) → t.addr % 64 = 0 → u.getBytes x 1 = s.getBytes x 1) ∧
      u.mbx? m = some x ∧ x.running = none)

/-- With the parts of the image as its layout gives them, a TABLE_LOAD, ROW_LOAD or PLACE_LOAD whose checks hold waits
for its boundary with its effect queued; a MODEL_LOAD holds the model now; a refused image completes and changes
nothing but the assembly. A part without LAST joins its assembly. TABLE_SEED waits for the later of its boundary and
EPOCH_T (log entry 38) with its seed queued: from a checkpoint held in staging or in the context's checkpoint area,
with neither SEED_UNAVAILABLE, or from the recorder's latest record. A table or model that nothing places is dropped
at its boundary; one placed is IN_USE, one not held NOT_LOADED, another context's NOT_OWNER. (16_command_reference.md,
Tables, models and placement) -/
def Obligations.TableAndModelCommands : Prop :=
  (∀ (s : State) m c host img, wholeImage s m 0x0701 2 c img →
    ∃ u, exec (.tableLoad m host) s = .next u ∧
      (∀ t, (Config.tableParts img).bind parseTable = some t → fld c.payload 36 2 = t.tableId →
        tableOk false s.cfg.role t = true → s.tableTaken t.tableId = false →
        s.updatesFit (s.tablesOf (mbxCtx m) ++ [t]) = true → s.tablesFit (s.tablesOf (mbxCtx m) ++ [t]) = true →
        ∃ c', c' = { c with cursor := (readPart c.payload).len } ∧
          queuedAt m c' (.table (mbxCtx m) (s.genOf (mbxCtx m)) t) [] (dropAssembly m 0x0701 s) u) ∧
      ((Config.tableParts img).bind parseTable = none → u.stw.bnd = s.stw.bnd ∧ u.mem = s.mem)) ∧
  (∀ (s : State) m c host img t, wholeImage s m 0x0704 2 c img → s.table? (fld c.payload 36 2) = some t →
    t.ctx = mbxCtx m → (rowRecords img).all (rowRecordOk t.img) = true →
    let lost := ((rowRecords img).filter fun b => !t.rows.any fun r => r.entity == recordEntity b).length
    ∃ u, exec (.rowLoad m host) s = .next u ∧
      queuedAt m { c with cursor := (readPart c.payload).len } (.rows t.img.tableId img) (zeros 12 ++ le 4 lost)
        (dropAssembly m 0x0704 s) u) ∧
  (∀ (s : State) m c host img, wholeImage s m 0x0801 2 c img →
    ∃ u x, exec (.modelLoad m host) s = .next u ∧ u.mbx? m = some x ∧ x.running = none ∧ u.stw.bnd = s.stw.bnd ∧
      (∀ d, (Config.modelParts img).bind (parseModel (img.take 64)) = some d → fld c.payload 36 2 = d.modelId →
        d.ctx = mbxCtx m → d.gen = s.genOf (mbxCtx m) → modelOk s.modelRoom d = true → s.wordsFit (mbxCtx m) d = true →
        sumNat ((d :: (s.mem.models.filter fun h => h.m.ctx == mbxCtx m && h.m.modelId != d.modelId).map (·.m)).map modelSize) +
          s.planBytes (mbxCtx m) ≤ s.modelPart → s.model? d.modelId = none → ⟨d, false⟩ ∈ u.mem.models ∧ ∀ h ∈ s.mem.models, h ∈ u.mem.models) ∧
      ((Config.modelParts img).bind (parseModel (img.take 64)) = none → u.mem = s.mem)) ∧
  (∀ (s : State) m c host img, wholeImage s m 0x0803 0 c img →
    ∃ u, exec (.placeLoad m host) s = .next u ∧
      (∀ p, placeEffect (mbxCtx m) img s = .bnd (.place (mbxCtx m) p) [] →
        queuedAt m { c with cursor := (readPart c.payload).len } (.place (mbxCtx m) p) [] (dropAssembly m 0x0803 s) u) ∧
      ((Config.placeParts img).bind parsePlacement = none → u.stw.bnd = s.stw.bnd ∧ u.mem = s.mem)) ∧
  (∀ (s : State) m c op x, (op, x) ∈ [(0x0701, Instr.tableLoad m (.fault 0)), (0x0704, .rowLoad m (.fault 0)),
      (0x0801, .modelLoad m (.fault 0))] → s.runsAs .tray = true → s.relays = false → s.runs m op c →
    let p := readPart c.payload
    partCheck m op 2 c.payload s = none → p.last = false → p.pos = 0 → s.rangeBad (s.loadAddr m p.src) p.len = false →
    ∃ u a, exec x s = .next u ∧ u.assembly? m op = some a ∧ a.len = p.imgLen ∧
      a.bytes = s.getBytes (s.loadAddr m p.src) p.len ∧
      u = { s with stw := { s.stw with mbxs := u.stw.mbxs }, lanes := u.lanes, out := u.out }) ∧
  (∀ (s : State) m c t k area, s.runsAs .tray = true → s.relays = false → s.runs m 0x0702 c →
    unnamedZero c.payload [(0, 3), (8, 16)] = true → s.table? (fld c.payload 0 2) = some t → t.ctx = mbxCtx m →
    fld c.payload 2 1 = 1 → s.seedCkpt? (mbxCtx m) (fld c.payload 16 8) area = some k →
    let b := max (s.namedBoundary c true) (fld c.payload 8 8)
    ∃ u, exec (.tableSeed m area) s = .next u ∧ waits m c (.boundary b) (le 8 b) s u ∧
      u.stw.bnd = s.stw.bnd ++ [⟨b, .seedCkpt t.img.tableId k, true, c.turn⟩]) ∧
  (∀ (s : State) m c, s.runsAs .tray = true → s.relays = false → s.runs m 0x0703 c → unnamedZero c.payload [(0, 2)] = true →
    (∀ t, s.table? (fld c.payload 0 2) = some t → t.ctx = mbxCtx m → ∃ u, exec (.tableDrop m) s = .next u ∧
      (s.placedEntries.any (·.tableId == fld c.payload 0 2) = false → queuedAt m c (.tableDrop (fld c.payload 0 2)) [] s u) ∧
      (s.placedEntries.any (·.tableId == fld c.payload 0 2) = true → u = finish m c stIN_USE [] s)) ∧
    (∀ t, s.table? (fld c.payload 0 2) = some t → t.ctx ≠ mbxCtx m →
      exec (.tableDrop m) s = .next (finish m c stNOT_OWNER [] s)) ∧
    (s.table? (fld c.payload 0 2) = none → exec (.tableDrop m) s = .next (finish m c stNOT_LOADED [] s))) ∧
  (∀ (s : State) m c h, s.runsAs .tray = true → s.relays = false → s.runs m 0x0802 c →
    unnamedZero c.payload [(0, 2)] = true → s.model? (fld c.payload 0 2) = some h → h.m.ctx = mbxCtx m →
    ∃ u, exec (.modelDrop m) s = .next u ∧
      (s.placedEntries.any (·.modelId == fld c.payload 0 2) = false → queuedAt m c (.modelDrop (fld c.payload 0 2)) [] s u) ∧
      (s.placedEntries.any (·.modelId == fld c.payload 0 2) = true → u = finish m c stIN_USE [] s)) ∧
  (∀ (s : State) m c t area, s.runsAs .tray = true → s.runs m 0x0702 c →
    unnamedZero c.payload [(0, 3), (8, 16)] = true → s.table? (fld c.payload 0 2) = some t → t.ctx = mbxCtx m →
    fld c.payload 2 1 = 1 → s.seedCkpt? (mbxCtx m) (fld c.payload 16 8) area = none →
    exec (.tableSeed m area) s = .next (finish m c stSEED_UNAVAILABLE [] s)) ∧
  (∀ (s : State) m c t r vs area, s.runsAs .tray = true → s.relays = false → s.runs m 0x0702 c →
    unnamedZero c.payload [(0, 3), (8, 16)] = true → s.table? (fld c.payload 0 2) = some t → t.ctx = mbxCtx m →
    fld c.payload 2 1 = 0 → s.latestRec? = some r → r.bytes.isEmpty = false →
    seedValues s.cfg r.bytes t.img = some vs →
    let b := max (s.namedBoundary c true) (fld c.payload 8 8)
    ∃ u, exec (.tableSeed m area) s = .next u ∧ waits m c (.boundary b) (le 8 b) s u ∧
      u.stw.bnd = s.stw.bnd ++ [⟨b, .seed t.img.tableId vs, true, c.turn⟩])

/-- An ACT_LOAD of 1 to 1,024 rows, each well formed, waits for its boundary with the rows queued; any other image is
refused and queues nothing. A GRANT_POLICY_SET within the 48 dies waits for its boundary; one beyond them is
BAD_FIELD. LOOP_SET in the ranges of the loop takes the settings for the next period at once without a twin; with one
it waits for the twin's echo and the settings with it. (16_command_reference.md, Actions and the tray loop) -/
def Obligations.ActionCommands : Prop :=
  (∀ (s : State) m c img rows, wholeImage s m 0x0901 2 c img → let n := fld c.payload 36 2
    1 ≤ n → n ≤ 1024 → img.length = (16 * n + 63) / 64 * 64 → isZero (img.drop (16 * n)) = true →
    ((List.range n).map fun i => parseAct (slice img (16 * i) 16) s) = rows.map some →
    ∃ u, exec (.actLoad m) s = .next u ∧
      queuedAt m { c with cursor := (readPart c.payload).len } (.acts rows) [] (dropAssembly m 0x0901 s) u) ∧
  (∀ (s : State) m c img, wholeImage s m 0x0901 2 c img → (fld c.payload 36 2 = 0 ∨ 1024 < fld c.payload 36 2) →
    ∃ u x, exec (.actLoad m) s = .next u ∧ u.mbx? m = some x ∧ x.running = none ∧ u.stw.bnd = s.stw.bnd ∧ u.act = s.act) ∧
  (∀ (s : State) m c n, s.runsAs .tray = true → s.relays = false → s.runs m 0x0902 c → n = fld c.payload 1 1 →
    unnamedZero c.payload [(0, 2), (4, 2 * n)] = true → 1 ≤ n → fld c.payload 0 1 + n ≤ 48 →
    ∃ u, exec (.grantPolicySet m) s = .next u ∧ queuedAt m c
      (.policy (fld c.payload 0 1) ((List.range n).map fun i => fld c.payload (4 + 2 * i) 2)) [] s u) ∧
  (∀ (s : State) m c, s.runsAs .tray = true → s.runs m 0x0902 c → 48 < fld c.payload 0 1 + fld c.payload 1 1 →
    exec (.grantPolicySet m) s = .next (finish m c stBAD_FIELD [] s)) ∧
  (∀ (s : State) m c, s.runsAs .tray = true → s.relays = false → s.runs m 0x0903 c → loopOk c.payload = true →
    exec (.loopSet m) s =
      .next (finish m c stOK [] { s with act := { s.act with nextLoop := some (readLoop c.payload) } })) ∧
  (∀ (s : State) m c, s.runsAs .tray = true → s.relays = true → s.runs m 0x0903 c → loopOk c.payload = true →
    ∃ u, exec (.loopSet m) s = .next u ∧ waits m c .echo [] s u ∧ u.act = s.act ∧ u.stw.bnd = s.stw.bnd) ∧
  (∀ (s : State) m c, s.runsAs .tray = true → s.runs m 0x0903 c → fld c.payload 2 2 < fld c.payload 0 2 →
    exec (.loopSet m) s = .next (finish m c stBAD_FIELD [] s))

/-- A CTX_OPEN that passes its checks holds its set-up table under a new SETUP_ID and, once no set-up message is
queued, arms KIND 4 for its epoch and waits; while one is queued and time remains it runs on with that id in its
result. CTX_CLOSE does the same with KIND 5, its table only with PARTIAL. A check that fails answers its status.
CTX_RESET of the generation held frees the id and drops its tables and sheaves; of any other generation it is BAD_CTX.
(16_command_reference.md, Contexts, 14_contexts_and_separation.md, Set-up) -/
def Obligations.ContextCommands : Prop :=
  (∀ (s : State) m c e, s.runsAs .tray = true → s.runs m 0x0A01 c → c.result = [] → openCheck c s = some e →
    exec (.ctxOpen m) s = .next (finish m c e [] s)) ∧
  (∀ (s : State) m c, s.runsAs .tray = true → s.runs m 0x0A01 c → c.result = [] → openCheck c s = none →
    let p := c.payload
    let su : Setup := ⟨s.newSetupId, fld p 0 1, BitVec.ofNat 16 (fld p 2 2), fld p 1 1, (setupTable p s).map readSetupEntry⟩
    ∃ u x, exec (.ctxOpen m) s = .next u ∧ u.mbx? m = some x ∧ u.ctxs = s.ctxs ∧ u.mem = s.mem ∧
      (∃ t ∈ u.setups, t.setupId = su.setupId ∧ t.ctx = su.ctx ∧ t.gen = su.gen ∧ ∀ y ∈ su.entries, y ∈ t.entries)) ∧
  (∀ (s : State) m c, s.runsAs .tray = true → s.runs m 0x0A01 c → c.result ≠ [] → s.setupQueued = true →
    (∃ t, s.timeOf (fld c.payload 16 8) = some t ∧ s.now + nsT (4 * s.cfg.epochNs) < t) →
    ∃ u x, exec (.ctxOpen m) s = .next u ∧ u.mbx? m = some x ∧ x.running = some { c with
        result := phaseResult 0 (fld c.payload 16 8) 0xFF 0 0 (BitVec.ofNat 64 (fld c.result 24 8)) } ∧
      u = { s with stw := { s.stw with mbxs := u.stw.mbxs } }) ∧
  (∀ (s : State) m c, s.runsAs .tray = true → s.runs m 0x0A01 c → c.result ≠ [] → s.setupQueued = false →
    let p := c.payload
    let arg := BitVec.ofNat 128 (fld c.result 24 8 + (if bit (fld p 1 1) 1 then 1 else 0) * 2 ^ 64)
    s.answerArm (s.cmdArm m kindCtxStart (bit (fld p 1 1) 0) (fld p 16 8) arg (fld p 0 1) (BitVec.ofNat 16 (fld p 2 2))
      (BitVec.ofNat 32 (fld p 4 4))) = .accept →
    ∃ u, exec (.ctxOpen m) s = .next u ∧ armedFor m c kindCtxStart (fld p 16 8) s u) ∧
  (∀ (s : State) m c e, s.runsAs .tray = true → s.runs m 0x0A02 c → c.result = [] → closeCheck c s = some e →
    exec (.ctxClose m) s = .next (finish m c e [] s)) ∧
  (∀ (s : State) m c, s.runsAs .tray = true → s.relays = false → s.runs m 0x0A02 c → c.result = [] →
    closeCheck c s = none → s.setupQueued = false → bit (fld c.payload 1 1) 0 = false →
    let p := c.payload
    s.answerArm (s.cmdArm m kindCtxEnd false (fld p 16 8) 0 (fld p 0 1) (BitVec.ofNat 16 (fld p 2 2))
      (BitVec.ofNat 32 (fld p 4 4))) = .accept →
    ∃ u, exec (.ctxClose m) s = .next u ∧ armedFor m c kindCtxEnd (fld p 16 8) s u ∧ u.setups = s.setups) ∧
  (∀ (s : State) m c id g, s.runs m 0x0A03 c → unnamedZero c.payload [(0, 1), (2, 2)] = true → id = fld c.payload 0 1 →
    id ≠ 0 → g = BitVec.ofNat 16 (fld c.payload 2 2) → s.heldGen id = some g →
    ∃ u, exec (.ctxReset m) s = .next u ∧ (∀ y, u.ctx? id = some y → y.life = .free ∧ y.keyGen = none) ∧
      u.mem.tables = s.mem.tables.filter (·.ctx != id) ∧ u.red.sheaves = s.red.sheaves.filter (·.ctx != id) ∧
      (∀ d, d ≠ id → u.ctx? d = s.ctx? d) ∧ u.mem.hbm = s.mem.hbm ∧
      (s.profile = .leaf → ⟨s.curEpoch + 3, .release id g, true, 0⟩ ∈ u.stw.bnd)) ∧
  (∀ (s : State) m c, s.runs m 0x0A03 c → unnamedZero c.payload [(0, 1), (2, 2)] = true →
    s.heldGen (fld c.payload 0 1) ≠ some (BitVec.ofNat 16 (fld c.payload 2 2)) →
    exec (.ctxReset m) s = .next (finish m c stBAD_CTX [] s))
end

