-- ==== Sys2Proof/Laws/Memory.lean ====
section
/-!
SUPPORT. The memory: every operation keeps its canonical form, a read after a write gives the value written, and a write
leaves every other byte alone.
-/

namespace Sys2Proof.Machine

set_option Elab.async false

/-- The canonical form, cell by cell: no listed zero, and every later address is larger. -/
theorem wf_cons (a : Nat) (b : Byte) (m : List Host.Cell) :
    Memory.wf ((a, b) :: m) = true ↔ b ≠ 0 ∧ (∀ c ∈ m, a < c.1) ∧ Memory.wf m = true := by
  induction m generalizing a b with
  | nil => simp [Memory.wf]
  | cons c m ih =>
    obtain ⟨a', b'⟩ := c
    have h := ih a' b'
    simp only [Memory.wf, Bool.and_eq_true, bne_iff_ne, decide_eq_true_eq, List.forall_mem_cons, ne_eq]
    constructor
    · rintro ⟨⟨h1, h2⟩, h3⟩
      exact ⟨h1, ⟨h2, fun c hc => Nat.lt_trans h2 ((h.mp h3).2.1 c hc)⟩, h3⟩
    · rintro ⟨h1, ⟨h2, -⟩, h3⟩
      exact ⟨⟨h1, h2⟩, h3⟩

theorem mem_memWrite {m : List Host.Cell} {x : Nat} {v : Byte} {c : Host.Cell} (h : c ∈ memWrite m x v) :
    c ∈ m ∨ c = (x, v) := by
  induction m with
  | nil =>
    unfold memWrite at h
    split at h <;> simp_all
  | cons d m ih =>
    obtain ⟨a, b⟩ := d
    unfold memWrite at h
    split at h
    · rcases List.mem_cons.mp h with h | h
      · simp [h]
      · rcases ih h with h | h <;> simp [h]
    · split at h <;> split at h <;> simp_all <;> grind

/-- A write of one byte keeps the canonical form. -/
theorem wf_memWrite {m : List Host.Cell} (x : Nat) (v : Byte) (h : Memory.wf m = true) :
    Memory.wf (memWrite m x v) = true := by
  induction m with
  | nil =>
    unfold memWrite
    split
    · rfl
    · simpa [Memory.wf] using ‹_›
  | cons d m ih =>
    obtain ⟨a, b⟩ := d
    obtain ⟨hb, ha, hm⟩ := (wf_cons a b m).mp h
    unfold memWrite
    split
    · refine (wf_cons _ _ _).mpr ⟨hb, fun c hc => ?_, ih hm⟩
      rcases mem_memWrite hc with hc | hc
      · exact ha c hc
      · simpa [hc] using ‹a < x›
    · split
      · subst_vars
        split
        · exact hm
        · exact (wf_cons _ _ _).mpr ⟨‹_›, ha, hm⟩
      · split
        · exact h
        · refine (wf_cons _ _ _).mpr ⟨‹_›, fun c hc => ?_, h⟩
          rcases List.mem_cons.mp hc with hc | hc
          · subst hc; simp only; omega
          · have := ha c hc; omega

/-- A write of bytes keeps the canonical form. -/
theorem wf_memWrites {m : List Host.Cell} (a : Nat) (bs : Bytes) (h : Memory.wf m = true) :
    Memory.wf (memWrites m a bs) = true := by
  induction bs generalizing m a with
  | nil => exact h
  | cons b bs ih => exact ih (a + 1) (wf_memWrite a b h)

/-- An address below every listed one reads 0. -/
theorem memRead_low {m : List Host.Cell} {y : Nat} (h : ∀ c ∈ m, y < c.1) : memRead m y = 0 := by
  induction m with
  | nil => rfl
  | cons d m ih =>
    obtain ⟨a, b⟩ := d
    have h1 : y < a := h (a, b) List.mem_cons_self
    rw [memRead, if_neg (by omega)]
    exact ih fun c hc => h c (List.mem_cons_of_mem _ hc)

/-- A read after a write of one byte. -/
theorem memRead_memWrite {m : List Host.Cell} (x y : Nat) (v : Byte) (h : Memory.wf m = true) :
    memRead (memWrite m x v) y = if y = x then v else memRead m y := by
  induction m with
  | nil =>
    unfold memWrite
    by_cases hv : v = 0
    · simp [hv, memRead]
    · simp only [hv, if_false, memRead]
      by_cases hy : x = y
      · simp [hy]
      · simp [hy, Ne.symm hy]
  | cons d m ih =>
    obtain ⟨a, b⟩ := d
    obtain ⟨hb, ha, hm⟩ := (wf_cons a b m).mp h
    have ih := ih hm
    unfold memWrite
    by_cases h1 : a < x
    · rw [if_pos h1, memRead, memRead, ih]
      by_cases h2 : a = y
      · rw [if_pos h2, if_pos h2, if_neg (by omega)]
      · rw [if_neg h2, if_neg h2]
    · rw [if_neg h1]
      by_cases h2 : a = x
      · subst h2
        rw [if_pos rfl]
        by_cases hv : v = 0
        · rw [if_pos hv]
          by_cases h3 : y = a
          · subst h3; rw [if_pos rfl, memRead_low ha, hv]
          · rw [if_neg h3, memRead, if_neg (Ne.symm h3)]
        · rw [if_neg hv, memRead]
          by_cases h3 : y = a
          · simp [h3]
          · rw [if_neg (Ne.symm h3), if_neg h3, memRead, if_neg (Ne.symm h3)]
      · rw [if_neg h2]
        have low : ∀ c ∈ (a, b) :: m, x < c.1 := by
          intro c hc
          rcases List.mem_cons.mp hc with hc | hc
          · subst hc; simp only; omega
          · have := ha c hc; omega
        by_cases hv : v = 0
        · rw [if_pos hv]
          by_cases h3 : y = x
          · subst h3; rw [if_pos rfl, memRead_low low, hv]
          · rw [if_neg h3]
        · rw [if_neg hv, memRead]
          by_cases h3 : y = x
          · simp [h3]
          · rw [if_neg (Ne.symm h3), if_neg h3]

/-- A write of bytes leaves every byte outside them alone. -/
theorem memRead_memWrites_frame {m : List Host.Cell} (a : Nat) (bs : Bytes) (x : Nat) (h : Memory.wf m = true)
    (hx : x < a ∨ a + bs.length ≤ x) : memRead (memWrites m a bs) x = memRead m x := by
  induction bs generalizing m a with
  | nil => rfl
  | cons b bs ih =>
    simp only [List.length_cons] at hx
    rw [memWrites, ih (a + 1) (wf_memWrite a b h) (by omega), memRead_memWrite a x b h, if_neg (by omega)]

/-- A byte written reads as written. -/
theorem memRead_memWrites {m : List Host.Cell} (a : Nat) (bs : Bytes) (i : Nat) (h : Memory.wf m = true)
    (hi : i < bs.length) : memRead (memWrites m a bs) (a + i) = bs[i] := by
  induction bs generalizing m a i with
  | nil => simp at hi
  | cons b bs ih =>
    cases i with
    | zero => rw [memWrites, memRead_memWrites_frame _ _ _ (wf_memWrite a b h) (by omega), memRead_memWrite a _ b h]; simp
    | succ i =>
      simp only [List.length_cons] at hi
      have := ih (a + 1) i (wf_memWrite a b h) (by omega)
      rw [memWrites, show a + (i + 1) = a + 1 + i by omega, this]
      simp

/-- The bytes written read back. -/
theorem memReads_memWrites {m : List Host.Cell} (a : Nat) (bs : Bytes) (h : Memory.wf m = true) :
    memReads (memWrites m a bs) a bs.length = bs := by
  apply List.ext_getElem
  · simp [memReads]
  · intro i h1 h2
    simp only [memReads, List.getElem_map, List.getElem_range]
    exact memRead_memWrites a bs i h h2

/-- Writes one after the other keep the form. -/
theorem wf_writeEach (f : Nat → Nat) (g : Nat → Bytes) (ls : List Nat) {m : List Host.Cell} (h : Memory.wf m = true) :
    Memory.wf (ls.foldl (fun m l => memWrites m (f l) (g l)) m) = true := by
  induction ls generalizing m with
  | nil => exact h
  | cons l ls ih => exact ih (wf_memWrites _ _ h)

theorem wf_putBytes (a : Nat) (b : Bytes) (s : State) (h : Memory.wf s.mem.hbm = true) :
    Memory.wf (putBytes a b s).mem.hbm = true := by
  rw [putBytes]
  exact wf_memWrites a b (wf_writeEach _ _ _ h)

/-- The memory of the state after reset has the form. -/
theorem wf_reset : Memory.wf State.reset.mem.hbm = true := rfl

end Sys2Proof.Machine
end

