-- ==== Sys2Proof/Laws/Keeps.lean ====
section
/-!
SUPPORT. What a meaning keeps: Keeps says that the bytes of memory, RST_CAUSE, the profile and the queue are as they
    were,
KeepsW that memory keeps its canonical form and RST_CAUSE its shape. Both compose from one operation to the next.
-/

/-!
SUPPORT. What a meaning keeps: Keeps says that the bytes of memory, RST_CAUSE, the profile and the queue are as they
    were,
KeepsW that memory keeps its canonical form and RST_CAUSE its shape. Both compose from one operation to the next.
-/
namespace Sys2Proof.Machine

structure Keeps (s t : State) : Prop where
  profile : t.profile = s.profile
  hbm : t.mem.hbm = s.mem.hbm
  cause : t.boot.cause = s.boot.cause
  pending : t.pending = s.pending

theorem Keeps.refl (s : State) : Keeps s s := ⟨rfl, rfl, rfl, rfl⟩

theorem Keeps.trans {s t u : State} (h : Keeps s t) (h' : Keeps t u) : Keeps s u :=
  ⟨h'.profile.trans h.profile, h'.hbm.trans h.hbm, h'.cause.trans h.cause, h'.pending.trans h.pending⟩

/-- The four fields of a state that Keeps speaks of. -/
def KeepsL (s : State) (p : Profile) (m : List Host.Cell) (c : BitVec 32) (q : List Instr) : Prop :=
  p = s.profile ∧ m = s.mem.hbm ∧ c = s.boot.cause ∧ q = s.pending

theorem KeepsL.of {s t : State} (h : Keeps s t) : KeepsL s t.profile t.mem.hbm t.boot.cause t.pending :=
  ⟨h.profile, h.hbm, h.cause, h.pending⟩

theorem keeps_mk (s : State) (profile : Profile) (cfg : Cfg) (straps : Straps) (pins : Pins) (edges : Nat) (pwrEdge
    : Option Nat) (sb : SbSt) (i3c : List (Nat × BitVec 48)) (hfAllow : Int) (tim : TimeSt) (sched : Sched) (lanes
    : List Lane) (cap : CapSt) (ctxs : List Ctx) (setups : List Setup) (red : RedSt) (trc : TrcSt) (watch
    : List ShareWatch) (lateReads : List LateRead) (stop : StopSt) (brk : BrkSt)
    (capt : List CaptArea) (captOut : List CaptMsg) (mem : MemSt)
    (chans : List Chan) (raw : RawSt) (act : ActSt) (grant : GrantSt) (err : ErrSt) (age : AgeSt) (otp : List
    (Nat × BitVec 32)) (optime : Nat) (fab : FabSt) (stw : StwSt) (flash : FlashSt) (evr : EvrSt) (ident : IdSt)
    (boot : BootSt) (hangs : List HangRun) (hostStall : Nat) (dump : DumpSt) (mode : Mode) (twin : TwinSt) (sticky
    : Sticky) (raisedNow : Sticky) (latches : List (Path × Nat × Word)) (inbox : List RxMsg) (out : List Out)
    (pending : List Instr) :
    Keeps s
    (State.mk profile cfg straps pins edges pwrEdge sb i3c hfAllow tim sched lanes cap ctxs setups red trc watch
    lateReads
    stop brk capt captOut mem chans raw act grant err age otp optime fab stw flash evr ident boot hangs hostStall dump
    mode twin sticky raisedNow latches inbox out pending) = KeepsL s profile mem.hbm boot.cause pending :=
  propext ⟨fun h => ⟨h.profile, h.hbm, h.cause, h.pending⟩, fun h => ⟨h.1, h.2.1, h.2.2.1, h.2.2.2⟩⟩

theorem Keeps.foldl {α : Type} {s t : State} {f : State → α → State} {l : List α} (h : Keeps s t)
    (hf : ∀ u a, Keeps u (f u a)) : Keeps s (l.foldl f t) := by
  induction l generalizing t with
  | nil => exact h
  | cons a l ih => exact ih (h.trans (hf t a))

theorem Keeps.elim {α : Type} {s t : State} {f : α → State} {o : Option α} (h : Keeps s t)
    (hf : ∀ a, Keeps s (f a)) : Keeps s (o.elim t f) := by
  cases o with
  | none => exact h
  | some a => exact hf a

def KeepsR (s : State) : Res → Prop
  | .next t => Keeps s t
  | _ => True

theorem KeepsR.next {s t : State} (h : Keeps s t) : KeepsR s (.next t) := h

theorem whenClocked_keeps {s s0 : State} {f : State → State} (hs : Keeps s0 s) (h : Keeps s (f s)) :
    Keeps s0 (whenClocked s f) := by
  unfold whenClocked
  split
  · exact hs.trans h
  · exact hs

theorem onTrayEver_keeps {s : State} {n : String} {f : State → State} (h : Keeps s (f s)) :
    KeepsR s (onTrayEver n s f) := by
  unfold onTrayEver
  split
  · exact h
  · trivial

theorem onLeafEver_keeps {s : State} {n : String} {f : State → State} (h : Keeps s (f s)) :
    KeepsR s (onLeafEver n s f) := by
  unfold onLeafEver
  split
  · exact h
  · trivial

theorem onTray_keeps {s : State} {n : String} {f : State → State} (h : Keeps s (f s)) : KeepsR s (onTray n s f) :=
  onTrayEver_keeps (whenClocked_keeps (Keeps.refl s) h)

theorem onLeaf_keeps {s : State} {n : String} {f : State → State} (h : Keeps s (f s)) : KeepsR s (onLeaf n s f) :=
  onLeafEver_keeps (whenClocked_keeps (Keeps.refl s) h)

/-- An image effect that acts now keeps them. -/
def NowKeeps (e : ImageEffect) : Prop := ∀ f, e = .now f → ∀ u, Keeps u (f u)

theorem NowKeeps.refuse {n : Nat} : NowKeeps (.refuse n) := fun _ h => by cases h
theorem NowKeeps.bnd {a : Bnd} {r : Bytes} : NowKeeps (.bnd a r) := fun _ h => by cases h
theorem NowKeeps.now {f : State → State} (h : ∀ u, Keeps u (f u)) : NowKeeps
    (.now f) := fun _ e u => by cases e; exact h u

/-- From s to t the memory keeps its canonical form, RST_CAUSE its shape, and the profile and the queue are the same.
    -/
structure KeepsW (s t : State) : Prop where
  profile : t.profile = s.profile
  pending : t.pending = s.pending
  inv : BlockInv s → BlockInv t

theorem KeepsW.refl (s : State) : KeepsW s s := ⟨rfl, rfl, id⟩

theorem Keeps.toW {s t : State} (h : Keeps s t) : KeepsW s t :=
  ⟨h.profile, h.pending, fun i => by unfold BlockInv at *; rw [h.hbm, h.cause]; exact i⟩

theorem KeepsW.trans {s t u : State} (h : KeepsW s t) (h' : KeepsW t u) : KeepsW s u :=
  ⟨h'.profile.trans h.profile, h'.pending.trans h.pending, fun i => h'.inv (h.inv i)⟩

theorem KeepsW.step {s t u : State} (h : KeepsW s t) (k : Keeps t u) : KeepsW s u := h.trans k.toW

theorem KeepsW.foldl {α : Type} {s t : State} {f : State → α → State} {l : List α} (h : KeepsW s t)
    (hf : ∀ u a, KeepsW u (f u a)) : KeepsW s (l.foldl f t) := by
  induction l generalizing t with
  | nil => exact h
  | cons a l ih => exact ih (h.trans (hf t a))

/-- The fields of a state that KeepsW speaks of. -/
def KeepsWL (s : State) (p : Profile) (m : List Host.Cell) (c : BitVec 32) (q : List Instr) : Prop :=
  p = s.profile ∧ q = s.pending ∧ (BlockInv s → Memory.wf m = true ∧ causeOk c)

theorem KeepsWL.of {s t : State} (h : KeepsW s t) : KeepsWL s t.profile t.mem.hbm t.boot.cause t.pending :=
  ⟨h.profile, h.pending, h.inv⟩

theorem keepsW_mk (s : State) (profile : Profile) (cfg : Cfg) (straps : Straps) (pins : Pins) (edges : Nat)
    (pwrEdge : Option Nat) (sb : SbSt) (i3c : List (Nat × BitVec 48)) (hfAllow : Int) (tim : TimeSt) (sched : Sched)
    (lanes : List Lane) (cap : CapSt) (ctxs : List Ctx) (setups : List Setup) (red : RedSt) (trc : TrcSt) (watch
    : List ShareWatch) (lateReads : List LateRead) (stop : StopSt) (brk : BrkSt)
    (capt : List CaptArea) (captOut : List CaptMsg) (mem : MemSt)
    (chans : List Chan) (raw : RawSt) (act : ActSt) (grant : GrantSt) (err : ErrSt) (age : AgeSt) (otp : List
    (Nat × BitVec 32)) (optime : Nat) (fab : FabSt) (stw : StwSt) (flash : FlashSt) (evr : EvrSt) (ident : IdSt)
    (boot : BootSt) (hangs : List HangRun) (hostStall : Nat) (dump : DumpSt) (mode : Mode) (twin : TwinSt) (sticky
    : Sticky) (raisedNow : Sticky) (latches : List (Path × Nat × Word)) (inbox : List RxMsg) (out : List Out)
    (pending : List Instr) :
    KeepsW s
    (State.mk profile cfg straps pins edges pwrEdge sb i3c hfAllow tim sched lanes cap ctxs setups red trc watch
    lateReads
    stop brk capt captOut mem chans raw act grant err age otp optime fab stw flash evr ident boot hangs hostStall dump
    mode twin sticky raisedNow latches inbox out pending) = KeepsWL s profile mem.hbm boot.cause pending :=
  propext ⟨fun h => ⟨h.profile, h.pending, h.inv⟩, fun h => ⟨h.1, h.2.1, h.2.2⟩⟩

/-- A next state of an outcome is reached from s with what KeepsW says. -/
def KeepsRW (s : State) : Res → Prop
  | .next t => KeepsW s t
  | _ => True

theorem KeepsR.toW {s : State} {r : Res} (h : KeepsR s r) : KeepsRW s r := by
  unfold KeepsRW
  split
  · exact Keeps.toW h
  · trivial

theorem KeepsRW.next {s t : State} (h : KeepsW s t) : KeepsRW s (.next t) := h

theorem whenClocked_keepsW {s s0 : State} {f : State → State} (hs : KeepsW s0 s) (h : KeepsW s (f s)) :
    KeepsW s0 (whenClocked s f) := by
  unfold whenClocked
  split
  · exact hs.trans h
  · exact hs

theorem onTrayEver_keepsW {s : State} {n : String} {f : State → State} (h : KeepsW s (f s)) :
    KeepsRW s (onTrayEver n s f) := by
  unfold onTrayEver
  split
  · exact h
  · trivial

theorem onLeafEver_keepsW {s : State} {n : String} {f : State → State} (h : KeepsW s (f s)) :
    KeepsRW s (onLeafEver n s f) := by
  unfold onLeafEver
  split
  · exact h
  · trivial

theorem onTray_keepsW {s : State} {n : String} {f : State → State} (h : KeepsW s (f s)) : KeepsRW s (onTray n s f) :=
  onTrayEver_keepsW (whenClocked_keepsW (KeepsW.refl s) h)

theorem onLeaf_keepsW {s : State} {n : String} {f : State → State} (h : KeepsW s (f s)) : KeepsRW s (onLeaf n s f) :=
  onLeafEver_keepsW (whenClocked_keepsW (KeepsW.refl s) h)

end Sys2Proof.Machine
end

