-- ==== Sys2Proof/Laws/KeepsUnits.lean ====
section
/-!
SUPPORT. What each operation and command keeps: time, lanes and units.
-/

namespace Sys2Proof.Machine

theorem State.setBit_keeps {s : State} {r : StatReg} {i : Nat} {s0 : State} (hs : Keeps s0 s) : Keeps s0
    (State.setBit s r i) :=
  hs.trans ⟨rfl, rfl, rfl, rfl⟩

theorem State.emit_keeps {s : State} {o : Out} {s0 : State} (hs : Keeps s0 s) : Keeps s0 (State.emit s o) :=
  hs.trans ⟨rfl, rfl, rfl, rfl⟩

theorem State.emits_keeps {s : State} {o : List Out} {s0 : State} (hs : Keeps s0 s) : Keeps s0 (State.emits s o) :=
  hs.trans ⟨rfl, rfl, rfl, rfl⟩

theorem State.onLane_keeps {s : State} {n : Nat} {f : Lane → Lane} {s0 : State} (hs : Keeps s0 s) : Keeps s0
    (State.onLane s n f) :=
  hs.trans ⟨rfl, rfl, rfl, rfl⟩

theorem State.countHealth_keeps {s : State} {i n : Nat} {s0 : State} (hs : Keeps s0 s) : Keeps s0
    (State.countHealth s i n) :=
  hs.trans ⟨rfl, rfl, rfl, rfl⟩

theorem State.setHealth_keeps {s : State} {i : Nat} {v : BitVec 64} {s0 : State} (hs : Keeps s0 s) : Keeps s0
    (State.setHealth s i v) :=
  hs.trans ⟨rfl, rfl, rfl, rfl⟩

theorem State.sendCtl_keeps {s : State} {n : Nat} {m : Bytes} {s0 : State} (hs : Keeps s0 s) : Keeps s0
    (State.sendCtl s n m) := by
  unfold State.sendCtl
  try dsimp only
  repeat' (first
    | with_reducible exact hs
    | with_reducible exact Keeps.refl _
    | with_reducible apply State.onLane_keeps
    | intro _
    | split)

theorem State.sendCtlAll_keeps {s : State} {ns : List Nat} {m : Bytes} {s0 : State} (hs : Keeps s0 s) : Keeps s0
    (State.sendCtlAll s ns m) := by
  unfold State.sendCtlAll
  try dsimp only
  repeat' (first
    | with_reducible exact hs
    | with_reducible exact Keeps.refl _
    | with_reducible apply State.sendCtl_keeps
    | with_reducible apply Keeps.foldl
    | intro _)

theorem State.sendBelay_keeps {s : State} {m : Bytes} {s0 : State} (hs : Keeps s0 s) : Keeps s0
    (State.sendBelay s m) := by
  unfold State.sendBelay
  try dsimp only
  repeat' (first
    | with_reducible exact hs
    | with_reducible apply State.sendCtl_keeps
    | (simp only [↓keeps_mk]; with_reducible refine KeepsL.of ?_)
    | split)

theorem State.taken_keeps {s : State} {lane : Nat} {b : Bytes} {s0 : State} (hs : Keeps s0 s) : Keeps s0
    (State.taken s lane b) :=
  hs.trans ⟨rfl, rfl, rfl, rfl⟩

theorem State.onCtx_keeps {s : State} {c : Nat} {f : Ctx → Ctx} {s0 : State} (hs : Keeps s0 s) : Keeps s0
    (State.onCtx s c f) :=
  hs.trans ⟨rfl, rfl, rfl, rfl⟩

theorem transferSlots_keeps {s : State} {s0 : State} (hs : Keeps s0 s) : Keeps s0 (transferSlots s) := by
  unfold transferSlots
  try dsimp only
  repeat' (first
    | with_reducible exact hs
    | (simp only [↓keeps_mk]; with_reducible refine KeepsL.of ?_)
    | split)

theorem State.xfer_keeps {s : State} {cls : XferClass} {chan n : Nat} {s0 : State} (hs : Keeps s0 s) : Keeps s0
    (State.xfer s cls chan n) :=
  hs.trans ⟨rfl, rfl, rfl, rfl⟩

theorem State.stripe_keeps {s : State} {cls : XferClass} {first n : Nat} {s0 : State} (hs : Keeps s0 s) : Keeps s0
    (State.stripe s cls first n) :=
  hs.trans ⟨rfl, rfl, rfl, rfl⟩

theorem noteTail_keeps {k : Nat} {s : State} {s0 : State} (hs : Keeps s0 s) : Keeps s0 (noteTail k s) := by
  unfold noteTail
  try dsimp only
  repeat' (first
    | with_reducible exact hs
    | (simp only [↓keeps_mk]; with_reducible refine KeepsL.of ?_)
    | split)

theorem State.metric_keeps {s : State} {n : Nat} {raw : Int} {s0 : State} (hs : Keeps s0 s) : Keeps s0
    (State.metric s n raw) := by
  unfold State.metric
  try dsimp only
  repeat' (first
    | with_reducible exact hs
    | with_reducible exact Keeps.refl _
    | with_reducible apply State.metrics_keeps
    | (simp only [↓keeps_mk]; with_reducible refine KeepsL.of ?_)
    | intro _
    | split)

theorem State.metrics_keeps {s : State} {l : List (Nat × Int)} {s0 : State} (hs : Keeps s0 s) : Keeps s0
    (State.metrics s l) := by
  unfold State.metrics
  try dsimp only
  repeat' (first
    | with_reducible exact hs
    | with_reducible exact Keeps.refl _
    | with_reducible apply State.metric_keeps
    | with_reducible apply Keeps.foldl
    | intro _)

theorem writeIncInt_keeps {v : BitVec 8} {s : State} {s0 : State} (hs : Keeps s0 s) : Keeps s0 (writeIncInt v s) := by
  unfold writeIncInt
  try dsimp only
  repeat' (first
    | with_reducible exact hs
    | with_reducible apply State.setBit_keeps
    | (simp only [↓keeps_mk]; with_reducible refine KeepsL.of ?_)
    | split)

theorem writeIncFrac_keeps {v : BitVec 32} {s : State} {s0 : State} (hs : Keeps s0 s) : Keeps s0 (writeIncFrac v s) :=
  hs.trans ⟨rfl, rfl, rfl, rfl⟩

theorem refuseTimWrite_keeps {s : State} {s0 : State} (hs : Keeps s0 s) : Keeps s0 (refuseTimWrite s) := by
  unfold refuseTimWrite
  try dsimp only
  repeat' (first
    | with_reducible exact hs
    | with_reducible apply State.setBit_keeps)

theorem stepTime_keeps {v : BitVec 64} {s : State} {s0 : State} (hs : Keeps s0 s) : Keeps s0 (stepTime v s) := by
  unfold stepTime
  try dsimp only
  repeat' (first
    | with_reducible exact hs
    | with_reducible apply refuseTimWrite_keeps
    | (simp only [↓keeps_mk]; with_reducible refine KeepsL.of ?_)
    | split)

theorem setTime_keeps {v : BitVec 128} {s : State} {s0 : State} (hs : Keeps s0 s) : Keeps s0 (setTime v s) := by
  unfold setTime
  try dsimp only
  repeat' (first
    | with_reducible exact hs
    | with_reducible apply refuseTimWrite_keeps
    | (simp only [↓keeps_mk]; with_reducible refine KeepsL.of ?_)
    | split)

theorem writeInc_keeps {v : Nat} {s : State} {s0 : State} (hs : Keeps s0 s) : Keeps s0 (writeInc v s) := by
  unfold writeInc
  try dsimp only
  repeat' (first
    | with_reducible exact hs
    | with_reducible apply writeIncFrac_keeps
    | with_reducible apply writeIncInt_keeps)

theorem holdOver_keeps {s : State} {s0 : State} (hs : Keeps s0 s) : Keeps s0 (holdOver s) := by
  unfold holdOver
  try dsimp only
  repeat' (first
    | with_reducible exact hs
    | with_reducible apply writeInc_keeps
    | (simp only [↓keeps_mk]; with_reducible refine KeepsL.of ?_)
    | split)

theorem reselect_keeps {s : State} {s0 : State} (hs : Keeps s0 s) : Keeps s0 (reselect s) := by
  unfold reselect
  try dsimp only
  repeat' (first
    | with_reducible exact hs
    | with_reducible apply servo_keeps
    | with_reducible apply holdOver_keeps
    | (simp only [↓keeps_mk]; with_reducible refine KeepsL.of ?_)
    | split)

theorem servoLoop_keeps {theta : Int} {s : State} {s0 : State} (hs : Keeps s0 s) : Keeps s0 (servoLoop theta s) := by
  unfold servoLoop
  try dsimp only
  repeat' (first
    | with_reducible exact hs
    | with_reducible apply writeInc_keeps
    | (simp only [↓keeps_mk]; with_reducible refine KeepsL.of ?_)
    | split)

theorem lockTime_keeps {s : State} {s0 : State} (hs : Keeps s0 s) : Keeps s0 (lockTime s) :=
  hs.trans ⟨rfl, rfl, rfl, rfl⟩

theorem servo_keeps {theta : Int} {s : State} {s0 : State} (hs : Keeps s0 s) : Keeps s0 (servo theta s) := by
  unfold servo
  try dsimp only
  repeat' (first
    | with_reducible exact hs
    | with_reducible exact Keeps.refl _
    | with_reducible apply lockTime_keeps
    | with_reducible apply stepTime_keeps
    | with_reducible apply servoLoop_keeps
    | (simp only [↓keeps_mk]; with_reducible refine KeepsL.of ?_)
    | intro _
    | split)

theorem execTimIncFracWrite_keeps {v : Word} {s : State} : KeepsR s (execTimIncFracWrite v s) := by
  unfold execTimIncFracWrite
  try dsimp only
  repeat' (first
    | with_reducible exact Keeps.refl _
    | with_reducible apply whenClocked_keeps
    | with_reducible apply KeepsR.next
    | with_reducible apply writeIncFrac_keeps)

theorem execTimIncIntWrite_keeps {v : Word} {s : State} : KeepsR s (execTimIncIntWrite v s) := by
  unfold execTimIncIntWrite
  try dsimp only
  repeat' (first
    | with_reducible exact Keeps.refl _
    | with_reducible apply whenClocked_keeps
    | with_reducible apply KeepsR.next
    | with_reducible apply writeIncInt_keeps)

theorem execTimSet_keeps {v : BitVec 128} {s : State} : KeepsR s (execTimSet v s) := by
  unfold execTimSet
  try dsimp only
  repeat' (first
    | with_reducible exact Keeps.refl _
    | with_reducible apply whenClocked_keeps
    | with_reducible apply KeepsR.next
    | with_reducible apply setTime_keeps)

theorem execTimStep_keeps {v : BitVec 64} {s : State} : KeepsR s (execTimStep v s) := by
  unfold execTimStep
  try dsimp only
  repeat' (first
    | with_reducible exact Keeps.refl _
    | with_reducible apply whenClocked_keeps
    | with_reducible apply KeepsR.next
    | with_reducible apply stepTime_keeps)

theorem setLatches_keeps {p : Path} {words : List (Nat × Word)} {s : State} {s0 : State} (hs : Keeps s0 s)
    : Keeps s0 (setLatches p words s) :=
  hs.trans ⟨rfl, rfl, rfl, rfl⟩

theorem readTimNow_keeps {p : Path} {s s0 : State} (hs : Keeps s0 s) : Keeps s0
    (readTimNow p s).2 := setLatches_keeps hs

theorem execTimNowRead_keeps {p : Path} {s : State} : KeepsR s (execTimNowRead p s) := by
  unfold execTimNowRead
  try dsimp only
  repeat' (first
    | with_reducible exact Keeps.refl _
    | with_reducible apply KeepsR.next
    | with_reducible apply State.emit_keeps
    | with_reducible apply readTimNow_keeps
    | split)

theorem execTimeExchangeOpen_keeps {lane : Nat} {edge : Ticks} {s : State} : KeepsR s
    (execTimeExchangeOpen lane edge s) := by
  unfold execTimeExchangeOpen
  try dsimp only
  repeat' (first
    | with_reducible exact Keeps.refl _
    | with_reducible apply KeepsR.next
    | with_reducible apply State.onLane_keeps
    | (simp only [↓keeps_mk]; with_reducible refine KeepsL.of ?_)
    | intro _
    | split)

theorem execTimeReqReceive_keeps {lane : Nat} {eseq : BitVec 8} {edge : Ticks} {s : State} : KeepsR s
    (execTimeReqReceive lane eseq edge s) := by
  unfold execTimeReqReceive
  try dsimp only
  repeat' (first
    | with_reducible exact Keeps.refl _
    | with_reducible apply KeepsR.next
    | with_reducible apply State.onLane_keeps
    | intro _
    | split)

theorem execTimeFollowSend_keeps {lane : Nat} {edge : Ticks} {s : State} : KeepsR s
    (execTimeFollowSend lane edge s) := by
  unfold execTimeFollowSend
  try dsimp only
  repeat' (first
    | with_reducible exact Keeps.refl _
    | with_reducible apply KeepsR.next
    | with_reducible apply State.onLane_keeps
    | (simp only [↓keeps_mk]; with_reducible refine KeepsL.of ?_)
    | intro _
    | split)

theorem execTimeExchangeComplete_keeps {lane : Nat} {eseq : BitVec 8} {t3 : Ticks} {s : State} : KeepsR s
    (execTimeExchangeComplete lane eseq t3 s) := by
  unfold execTimeExchangeComplete
  try dsimp only
  repeat' (first
    | with_reducible exact Keeps.refl _
    | with_reducible apply KeepsR.next
    | with_reducible apply reselect_keeps
    | with_reducible apply State.metric_keeps
    | with_reducible apply servo_keeps
    | with_reducible apply State.onLane_keeps
    | (simp only [↓keeps_mk]; with_reducible refine KeepsL.of ?_)
    | intro _
    | split)

theorem execPpsInEdge_keeps {rising : Bool} {s : State} : KeepsR s (execPpsInEdge rising s) := by
  unfold execPpsInEdge
  try dsimp only
  repeat' (first
    | with_reducible exact Keeps.refl _
    | with_reducible apply onTray_keeps
    | with_reducible apply reselect_keeps
    | with_reducible apply servo_keeps
    | (simp only [↓keeps_mk]; with_reducible refine KeepsL.of ?_)
    | intro _
    | split)

theorem execPpsOutPulse_keeps {s : State} : KeepsR s (execPpsOutPulse s) := by
  unfold execPpsOutPulse
  try dsimp only
  repeat' (first
    | with_reducible exact Keeps.refl _
    | with_reducible apply onTray_keeps
    | (simp only [↓keeps_mk]; with_reducible refine KeepsL.of ?_)
    | intro _)

theorem noteSlotEdge_keeps {stamp : Ticks} {s : State} {s0 : State} (hs : Keeps s0 s) : Keeps s0
    (noteSlotEdge stamp s) := by
  unfold noteSlotEdge
  try dsimp only
  repeat' (first
    | with_reducible exact hs
    | (simp only [↓keeps_mk]; with_reducible refine KeepsL.of ?_))

theorem execSlotSyncEdge_keeps {rising : Bool} {s : State} : KeepsR s (execSlotSyncEdge rising s) := by
  unfold execSlotSyncEdge
  try dsimp only
  repeat' (first
    | with_reducible exact Keeps.refl _
    | with_reducible apply onTray_keeps
    | with_reducible apply noteSlotEdge_keeps
    | (simp only [↓keeps_mk]; with_reducible refine KeepsL.of ?_)
    | intro _
    | split)

theorem ptpTake_keeps {origin t2 : Ticks} {correction : Int} {s : State} {s0 : State} (hs : Keeps s0 s) : Keeps s0
    (ptpTake origin t2 correction s) := by
  unfold ptpTake
  try dsimp only
  repeat' (first
    | with_reducible exact hs
    | with_reducible apply reselect_keeps
    | with_reducible apply servo_keeps
    | (simp only [↓keeps_mk]; with_reducible refine KeepsL.of ?_)
    | split)

theorem sendPdelay_keeps {s : State} {s0 : State} (hs : Keeps s0 s) : Keeps s0 (sendPdelay s) := by
  unfold sendPdelay
  try dsimp only
  repeat' (first
    | with_reducible exact hs
    | with_reducible apply State.emit_keeps
    | (simp only [↓keeps_mk]; with_reducible refine KeepsL.of ?_))

theorem putPeerDelay_keeps {d : Int} {s : State} {s0 : State} (hs : Keeps s0 s) : Keeps s0 (putPeerDelay d s) :=
  hs.trans ⟨rfl, rfl, rfl, rfl⟩

theorem takePdelayResp_keeps {m : PtpMsg} {t4 : Ticks} {s : State} {s0 : State} (hs : Keeps s0 s) : Keeps s0
    (takePdelayResp m t4 s) := by
  unfold takePdelayResp
  try dsimp only
  repeat' (first
    | with_reducible exact hs
    | with_reducible apply putPeerDelay_keeps
    | (simp only [↓keeps_mk]; with_reducible refine KeepsL.of ?_)
    | split)

theorem takePdelayFollow_keeps {m : PtpMsg} {s : State} {s0 : State} (hs : Keeps s0 s) : Keeps s0
    (takePdelayFollow m s) := by
  unfold takePdelayFollow
  try dsimp only
  repeat' (first
    | with_reducible exact hs
    | with_reducible apply putPeerDelay_keeps
    | (simp only [↓keeps_mk]; with_reducible refine KeepsL.of ?_)
    | split)

theorem execPtpMessageReceive_keeps {m : PtpMsg} {s : State} : KeepsR s (execPtpMessageReceive m s) := by
  unfold execPtpMessageReceive
  try dsimp only
  repeat' (first
    | with_reducible exact Keeps.refl _
    | with_reducible apply onTray_keeps
    | with_reducible apply sendPdelay_keeps
    | with_reducible apply takePdelayResp_keeps
    | with_reducible apply takePdelayFollow_keeps
    | with_reducible apply ptpTake_keeps
    | with_reducible apply State.emit_keeps
    | (simp only [↓keeps_mk]; with_reducible refine KeepsL.of ?_)
    | intro _
    | split)

theorem execNtpMessageReceive_keeps {t : NtpTime} {s : State} : KeepsR s (execNtpMessageReceive t s) := by
  unfold execNtpMessageReceive
  try dsimp only
  repeat' (first
    | with_reducible exact Keeps.refl _
    | with_reducible apply onTray_keeps
    | (simp only [↓keeps_mk]; with_reducible refine KeepsL.of ?_)
    | intro _
    | split)

theorem State.sendMsg_keeps {s : State} {lane vc share ctx : Nat} {gen : BitVec 16} {body : Bytes} {s0 : State} (hs
    : Keeps s0 s) : Keeps s0 (State.sendMsg s lane vc share ctx gen body) := by
  unfold State.sendMsg
  try dsimp only
  repeat' (first
    | with_reducible exact hs
    | with_reducible exact Keeps.refl _
    | with_reducible apply State.onLane_keeps
    | intro _
    | split)

theorem State.sendMsgAll_keeps {s : State} {lanes : List Nat} {vc share ctx : Nat} {gen : BitVec 16} {body : Bytes}
    {s0 : State} (hs : Keeps s0 s) : Keeps s0 (State.sendMsgAll s lanes vc share ctx gen body) := by
  unfold State.sendMsgAll
  try dsimp only
  repeat' (first
    | with_reducible exact hs
    | with_reducible exact Keeps.refl _
    | with_reducible apply State.sendMsg_keeps
    | with_reducible apply Keeps.foldl
    | intro _)

theorem State.issueOne_keeps {s : State} {ctx kind addr : Nat} {data : Bytes} {s0 : State} (hs : Keeps s0 s)
    : Keeps s0 (State.issueOne s ctx kind addr data) := by
  unfold State.issueOne
  try dsimp only
  repeat' (first
    | with_reducible exact hs
    | with_reducible apply State.sendMsgAll_keeps)

theorem State.issue_keeps {s : State} {os : List Out} {s0 : State} (hs : Keeps s0 s) : Keeps s0
    (State.issue s os) := by
  unfold State.issue
  try dsimp only
  repeat' (first
    | with_reducible exact hs
    | with_reducible exact Keeps.refl _
    | with_reducible apply State.issueOne_keeps
    | with_reducible apply State.emits_keeps
    | with_reducible apply Keeps.foldl
    | (simp only [↓keeps_mk]; with_reducible refine KeepsL.of ?_)
    | intro _
    | split)

theorem laneDrop_keeps {n cause : Nat} {s : State} {s0 : State} (hs : Keeps s0 s) : Keeps s0
    (laneDrop n cause s) := by
  unfold laneDrop
  try dsimp only
  repeat' (first
    | with_reducible exact hs
    | with_reducible exact Keeps.refl _
    | with_reducible apply State.onLane_keeps
    | (simp only [↓keeps_mk]; with_reducible refine KeepsL.of ?_)
    | intro _
    | split)

theorem State.sendLeafStatus_keeps {s : State} {kind : Nat} {args : List Nat} {s0 : State} (hs : Keeps s0 s)
    : Keeps s0 (State.sendLeafStatus s kind args) := by
  unfold State.sendLeafStatus
  try dsimp only
  repeat' (first
    | with_reducible exact hs
    | with_reducible apply State.sendCtlAll_keeps)

theorem reportLanes_keeps {s : State} {s0 : State} (hs : Keeps s0 s) : Keeps s0 (reportLanes s) := by
  unfold reportLanes
  try dsimp only
  repeat' (first
    | with_reducible exact hs
    | with_reducible exact Keeps.refl _
    | with_reducible apply State.sendLeafStatus_keeps
    | intro _)

theorem reportAttach_keeps {lane : Nat} {s : State} {s0 : State} (hs : Keeps s0 s) : Keeps s0
    (reportAttach lane s) := by
  unfold reportAttach
  try dsimp only
  repeat' (first
    | with_reducible exact hs
    | with_reducible apply reportLanes_keeps
    | with_reducible apply State.sendCtl_keeps)

theorem State.errCount_keeps {s : State} {i n : Nat} {s0 : State} (hs : Keeps s0 s) : Keeps s0
    (State.errCount s i n) := by
  unfold State.errCount
  try dsimp only
  repeat' (first
    | with_reducible exact hs
    | with_reducible exact Keeps.refl _
    | (simp only [↓keeps_mk]; with_reducible refine KeepsL.of ?_)
    | intro _)

theorem State.count_keeps {s : State} {i h n : Nat} {s0 : State} (hs : Keeps s0 s) : Keeps s0
    (State.count s i h n) := by
  unfold State.count
  try dsimp only
  repeat' (first
    | with_reducible exact hs
    | with_reducible apply State.countHealth_keeps
    | with_reducible apply State.errCount_keeps
    | (simp only [↓keeps_mk]; with_reducible refine KeepsL.of ?_)
    | split)

theorem State.errBit_keeps {s : State} {i : Nat} {s0 : State} (hs : Keeps s0 s) : Keeps s0 (State.errBit s i) := by
  unfold State.errBit
  try dsimp only
  repeat' (first
    | with_reducible exact hs
    | with_reducible apply State.setBit_keeps)

theorem dupMismatch_keeps {third : Bool} {s : State} {s0 : State} (hs : Keeps s0 s) : Keeps s0
    (dupMismatch third s) := by
  unfold dupMismatch
  try dsimp only
  repeat' (first
    | with_reducible exact hs
    | with_reducible apply State.count_keeps
    | with_reducible apply State.errBit_keeps
    | (simp only [↓keeps_mk]; with_reducible refine KeepsL.of ?_)
    | split)

theorem execTimDupFail_keeps {s : State} : KeepsR s (execTimDupFail s) := by
  unfold execTimDupFail
  try dsimp only
  repeat' (first
    | with_reducible exact Keeps.refl _
    | with_reducible apply whenClocked_keeps
    | with_reducible apply KeepsR.next
    | with_reducible apply State.count_keeps
    | with_reducible apply State.errBit_keeps
    | (simp only [↓keeps_mk]; with_reducible refine KeepsL.of ?_)
    | intro _)

theorem State.onClass_keeps {s : State} {cls : Nat} {f : UnitClass → UnitClass} {s0 : State} (hs : Keeps s0 s)
    : Keeps s0 (State.onClass s cls f) :=
  hs.trans ⟨rfl, rfl, rfl, rfl⟩

theorem degrade_keeps {s : State} {s0 : State} (hs : Keeps s0 s) : Keeps s0 (degrade s) :=
  hs.trans ⟨rfl, rfl, rfl, rfl⟩

theorem countTransient_keeps {cls n : Nat} {s : State} {s0 : State} (hs : Keeps s0 s) : Keeps s0
    (countTransient cls n s) := by
  unfold countTransient
  try dsimp only
  repeat' (first
    | with_reducible exact hs
    | with_reducible exact Keeps.refl _
    | with_reducible apply State.count_keeps
    | with_reducible apply State.countHealth_keeps
    | with_reducible apply State.errBit_keeps
    | with_reducible apply State.errCount_keeps
    | with_reducible apply State.setBit_keeps
    | (simp only [↓keeps_mk]; with_reducible refine KeepsL.of ?_)
    | intro _
    | split)

theorem retireUnit_keeps {cls unit : Nat} {rate : Bool} {s s0 : State} (hs : Keeps s0 s) :
    Keeps s0 (retireUnit cls unit rate s) := by
  unfold retireUnit
  split
  · exact hs
  · extract_lets spare s1 s2 s3 t s4
    have h1 : Keeps s0 s1 := State.errBit_keeps (State.onClass_keeps hs)
    have h3 : Keeps s0 s3 := by
      unfold s3
      split
      · exact State.count_keeps (State.errBit_keeps (State.count_keeps h1))
      · exact State.count_keeps h1
    have ht : Keeps s0 t := State.setBit_keeps h3
    have h4 : Keeps s0 s4 := by
      unfold s4
      split
      · split
        · exact State.countHealth_keeps ht
        · exact ht
      · split
        · split
          · exact State.setBit_keeps h3
          · exact h3
        · split
          · exact State.setBit_keeps h3
          · exact h3
    split
    · exact degrade_keeps h4
    · split
      · exact h4.elim fun _ => laneDrop_keeps h4
      · exact h4

theorem byUnit_keeps {cls : Nat} {c : CheckOutcome} {f : State → State} {s s0 : State} (hs : Keeps s0 s)
    (hf : ∀ u, Keeps u (f u)) : Keeps s0 (byUnit cls c f s) := by
  unfold byUnit
  split
  · exact hs
  · exact hs.trans (hf s)
theorem byUnit_keepsW {cls : Nat} {c : CheckOutcome} {f : State → State} {s s0 : State} (hs : KeepsW s0 s)
    (hf : ∀ u, KeepsW u (f u)) : KeepsW s0 (byUnit cls c f s) := by
  unfold byUnit
  split
  · exact hs
  · exact hs.trans (hf s)

theorem unitCheck_keeps {cls : Nat} {c : CheckOutcome} {s : State} {s0 : State} (hs : Keeps s0 s) : Keeps s0
    (unitCheck cls c s) := by
  unfold unitCheck
  try dsimp only
  repeat' (first
    | with_reducible exact hs
    | with_reducible exact Keeps.refl _
    | with_reducible apply retireUnit_keeps
    | with_reducible apply countTransient_keeps
    | with_reducible apply State.onClass_keeps
    | (simp only [↓keeps_mk]; with_reducible refine KeepsL.of ?_)
    | intro _
    | split)

theorem State.otpProgram_keeps {s : State} {a : Nat} {v : BitVec 32} {s0 : State} (hs : Keeps s0 s) : Keeps s0
    (State.otpProgram s a v) := by
  unfold State.otpProgram
  try dsimp only
  repeat' (first
    | with_reducible exact hs
    | with_reducible apply State.emit_keeps
    | (simp only [↓keeps_mk]; with_reducible refine KeepsL.of ?_)
    | split)

theorem State.otpLog_keeps {s : State} {v : BitVec 32} {s0 : State} (hs : Keeps s0 s) : Keeps s0
    (State.otpLog s v) := by
  unfold State.otpLog
  try dsimp only
  repeat' (first
    | with_reducible exact hs
    | with_reducible apply State.count_keeps
    | with_reducible apply State.otpProgram_keeps
    | with_reducible apply State.errBit_keeps
    | (simp only [↓keeps_mk]; with_reducible refine KeepsL.of ?_)
    | split)

theorem queueRepair_keeps {bank row : Nat} {s : State} {s0 : State} (hs : Keeps s0 s) : Keeps s0
    (queueRepair bank row s) := by
  unfold queueRepair
  try dsimp only
  repeat' (first
    | with_reducible exact hs
    | (simp only [↓keeps_mk]; with_reducible refine KeepsL.of ?_)
    | split)

theorem correctedRow_keeps {bank row errs : Nat} {s : State} {s0 : State} (hs : Keeps s0 s) : Keeps s0
    (correctedRow bank row errs s) := by
  unfold correctedRow
  try dsimp only
  repeat' (first
    | with_reducible exact hs
    | with_reducible apply State.count_keeps
    | with_reducible apply queueRepair_keeps
    | (simp only [↓keeps_mk]; with_reducible refine KeepsL.of ?_)
    | split)

theorem execSramScrub_keeps {bank row errs : Nat} {s : State} : KeepsR s (execSramScrub bank row errs s) := by
  unfold execSramScrub
  try dsimp only
  repeat' (first
    | with_reducible exact Keeps.refl _
    | with_reducible apply whenClocked_keeps
    | with_reducible apply KeepsR.next
    | with_reducible apply correctedRow_keeps)

theorem repairRow_keeps {bank row : Nat} {s : State} {s0 : State} (hs : Keeps s0 s) : Keeps s0
    (repairRow bank row s) := by
  unfold repairRow
  try dsimp only
  repeat' (first
    | with_reducible exact hs
    | with_reducible exact Keeps.refl _
    | with_reducible apply State.count_keeps
    | with_reducible apply State.otpLog_keeps
    | (simp only [↓keeps_mk]; with_reducible refine KeepsL.of ?_)
    | intro _
    | split)

theorem queuePpr_keeps {row : Nat × Nat} {s : State} {s0 : State} (hs : Keeps s0 s) : Keeps s0 (queuePpr row s) := by
  unfold queuePpr
  try dsimp only
  repeat' (first
    | with_reducible exact hs
    | (simp only [↓keeps_mk]; with_reducible refine KeepsL.of ?_)
    | split)

theorem noteHbm_keeps {row : Nat × Nat} {s : State} {s0 : State} (hs : Keeps s0 s) : Keeps s0 (noteHbm row s) := by
  unfold noteHbm
  try dsimp only
  repeat' (first
    | with_reducible exact hs
    | with_reducible apply queuePpr_keeps
    | (simp only [↓keeps_mk]; with_reducible refine KeepsL.of ?_)
    | split)

theorem poisonRing_keeps {ls : List (Nat × Bool × Nat)} {s : State} {s0 : State} (hs : Keeps s0 s) : Keeps s0
    (poisonRing ls s) := by
  unfold poisonRing
  try dsimp only
  repeat' (first
    | with_reducible exact hs
    | with_reducible exact Keeps.refl _
    | (simp only [↓keeps_mk]; with_reducible refine KeepsL.of ?_)
    | intro _)

theorem execHbmPpr_keeps {stack row : Nat} {resource : Bool} {flash : FlashAnswer} {s : State} : KeepsR s
    (execHbmPpr stack row resource flash s) := by
  unfold execHbmPpr
  try dsimp only
  repeat' (first
    | with_reducible exact Keeps.refl _
    | with_reducible apply onTray_keeps
    | with_reducible apply State.xfer_keeps
    | with_reducible apply State.emit_keeps
    | with_reducible apply State.errBit_keeps
    | with_reducible apply State.errCount_keeps
    | with_reducible apply State.setBit_keeps
    | (simp only [↓keeps_mk]; with_reducible refine KeepsL.of ?_)
    | intro _
    | split)

theorem ageSample_keeps {pdm raw : List Nat} {s : State} {s0 : State} (hs : Keeps s0 s) : Keeps s0
    (ageSample pdm raw s) := by
  unfold ageSample
  try dsimp only
  repeat' (first
    | with_reducible exact hs
    | (simp only [↓keeps_mk]; with_reducible refine KeepsL.of ?_)
    | split)

theorem requestStep_keeps {step : Int} {s : State} {s0 : State} (hs : Keeps s0 s) : Keeps s0
    (requestStep step s) := by
  unfold requestStep
  try dsimp only
  repeat' (first
    | with_reducible exact hs
    | (simp only [↓keeps_mk]; with_reducible refine KeepsL.of ?_)
    | split)

theorem restoreNext_keeps {s : State} {s0 : State} (hs : Keeps s0 s) : Keeps s0 (restoreNext s) := by
  unfold restoreNext
  try dsimp only
  repeat' (first
    | with_reducible exact hs
    | with_reducible apply requestStep_keeps
    | split)

theorem State.ageBit_keeps {s : State} {i : Nat} {s0 : State} (hs : Keeps s0 s) : Keeps s0 (State.ageBit s i) := by
  unfold State.ageBit
  try dsimp only
  repeat' (first
    | with_reducible exact hs
    | with_reducible apply State.setBit_keeps)

theorem ageDecide_keeps {s : State} {s0 : State} (hs : Keeps s0 s) : Keeps s0 (ageDecide s) := by
  unfold ageDecide
  try dsimp only
  repeat' (first
    | with_reducible exact hs
    | with_reducible apply State.ageBit_keeps
    | with_reducible apply requestStep_keeps
    | (simp only [↓keeps_mk]; with_reducible refine KeepsL.of ?_)
    | split)

theorem ageClose_keeps {s : State} {s0 : State} (hs : Keeps s0 s) : Keeps s0 (ageClose s) := by
  unfold ageClose
  try dsimp only
  repeat' (first
    | with_reducible exact hs
    | with_reducible exact Keeps.refl _
    | (simp only [↓keeps_mk]; with_reducible refine KeepsL.of ?_)
    | intro _
    | split)

theorem startRetune_keeps {n : Nat} {s : State} {s0 : State} (hs : Keeps s0 s) : Keeps s0 (startRetune n s) := by
  unfold startRetune
  try dsimp only
  repeat' (first
    | with_reducible exact hs
    | with_reducible exact Keeps.refl _
    | with_reducible apply State.onLane_keeps
    | with_reducible apply reportLanes_keeps
    | (simp only [↓keeps_mk]; with_reducible refine KeepsL.of ?_)
    | intro _
    | split)

theorem retuneGo_keeps {l : List Nat} {s s0 : State} (hs : Keeps s0 s) : Keeps s0 (retuneGo l s) := by
  induction l generalizing s with
  | nil => unfold retuneGo; simp only [↓keeps_mk]; exact KeepsL.of hs
  | cons n ns ih =>
    unfold retuneGo
    dsimp only
    repeat' (first
      | with_reducible exact hs
      | with_reducible apply State.onLane_keeps
      | with_reducible apply ih
      | with_reducible apply startRetune_keeps
      | (simp only [↓keeps_mk]; with_reducible refine KeepsL.of ?_)
      | split)

theorem ageMetrics_keeps {s : State} {s0 : State} (hs : Keeps s0 s) : Keeps s0 (ageMetrics s) := by
  unfold ageMetrics
  try dsimp only
  repeat' (first
    | with_reducible exact hs
    | with_reducible exact Keeps.refl _
    | with_reducible apply State.metrics_keeps
    | with_reducible apply Keeps.foldl
    | (simp only [↓keeps_mk]; with_reducible refine KeepsL.of ?_)
    | intro _
    | split)

theorem noteLeafPdm_keeps {b : Bytes} {s : State} {s0 : State} (hs : Keeps s0 s) : Keeps s0 (noteLeafPdm b s) := by
  unfold noteLeafPdm
  try dsimp only
  repeat' (first
    | with_reducible exact hs
    | with_reducible exact Keeps.refl _
    | (simp only [↓keeps_mk]; with_reducible refine KeepsL.of ?_)
    | intro _)

theorem execAgeingPoint_keeps {s : State} : KeepsR s (execAgeingPoint s) := by
  unfold execAgeingPoint
  try dsimp only
  repeat' (first
    | with_reducible exact Keeps.refl _
    | with_reducible apply KeepsR.next
    | with_reducible apply ageDecide_keeps
    | with_reducible apply restoreNext_keeps
    | with_reducible apply ageMetrics_keeps
    | with_reducible apply ageClose_keeps
    | with_reducible apply retuneGo_keeps
    | split)

theorem endRequest_keeps {s : State} {s0 : State} (hs : Keeps s0 s) : Keeps s0 (endRequest s) :=
  hs.trans ⟨rfl, rfl, rfl, rfl⟩

theorem startLive_keeps {s : State} {s0 : State} (hs : Keeps s0 s) : Keeps s0 (startLive s) := by
  unfold startLive
  try dsimp only
  repeat' (first
    | with_reducible exact hs
    | (simp only [↓keeps_mk]; with_reducible refine KeepsL.of ?_)
    | split)

theorem restoreFails_keeps {s : State} {s0 : State} (hs : Keeps s0 s) : Keeps s0 (restoreFails s) := by
  unfold restoreFails
  try dsimp only
  repeat' (first
    | with_reducible exact hs
    | with_reducible apply startLive_keeps
    | split)

theorem logStep_keeps {step : Int} {s : State} {s0 : State} (hs : Keeps s0 s) : Keeps s0 (logStep step s) := by
  unfold logStep
  try dsimp only
  repeat' (first
    | with_reducible exact hs
    | with_reducible apply State.otpLog_keeps
    | (simp only [↓keeps_mk]; with_reducible refine KeepsL.of ?_)
    | split)

theorem execVmAck_keeps {s : State} : KeepsR s (execVmAck s) := by
  unfold execVmAck
  try dsimp only
  repeat' (first
    | with_reducible exact Keeps.refl _
    | with_reducible apply KeepsR.next
    | with_reducible apply restoreNext_keeps
    | with_reducible apply logStep_keeps
    | with_reducible apply State.setHealth_keeps
    | with_reducible apply startLive_keeps
    | with_reducible apply endRequest_keeps
    | (simp only [↓keeps_mk]; with_reducible refine KeepsL.of ?_)
    | split)

theorem execVmNak_keeps {s : State} : KeepsR s (execVmNak s) := by
  unfold execVmNak
  try dsimp only
  repeat' (first
    | with_reducible exact Keeps.refl _
    | with_reducible exact True.intro
    | with_reducible apply KeepsR.next
    | with_reducible apply State.countHealth_keeps
    | with_reducible apply restoreFails_keeps
    | with_reducible apply State.ageBit_keeps
    | with_reducible apply endRequest_keeps
    | (simp only [↓keeps_mk]; with_reducible refine KeepsL.of ?_)
    | split)

theorem execVmTimeout_keeps {s : State} : KeepsR s (execVmTimeout s) := by
  unfold execVmTimeout
  try dsimp only
  repeat' (first
    | with_reducible exact Keeps.refl _
    | with_reducible apply KeepsR.next
    | with_reducible apply State.countHealth_keeps
    | with_reducible apply restoreFails_keeps
    | with_reducible apply State.ageBit_keeps
    | with_reducible apply endRequest_keeps
    | (simp only [↓keeps_mk]; with_reducible refine KeepsL.of ?_)
    | split)

theorem execUrgentStep_keeps {s : State} : KeepsR s (execUrgentStep s) := by
  unfold execUrgentStep
  try dsimp only
  repeat' (first
    | with_reducible exact Keeps.refl _
    | with_reducible exact True.intro
    | with_reducible apply KeepsR.next
    | with_reducible apply State.ageBit_keeps
    | with_reducible apply requestStep_keeps
    | (simp only [↓keeps_mk]; with_reducible refine KeepsL.of ?_)
    | split)

theorem State.addChange_keeps {s : State} {c : Change} {s0 : State} (hs : Keeps s0 s) : Keeps s0
    (State.addChange s c) := by
  unfold State.addChange
  try dsimp only
  repeat' (first
    | with_reducible exact hs
    | (simp only [↓keeps_mk]; with_reducible refine KeepsL.of ?_)
    | split)

theorem State.decideChange_keeps {s : State} {c : Change} {s0 : State} (hs : Keeps s0 s) : Keeps s0
    (State.decideChange s c) := by
  unfold State.decideChange
  try dsimp only
  repeat' (first
    | with_reducible exact hs
    | with_reducible apply State.addChange_keeps
    | with_reducible apply State.sendBelay_keeps
    | split)

theorem decFail_keeps {e : GlumeErr} {s : State} {s0 : State} (hs : Keeps s0 s) : Keeps s0 (decFail e s) :=
  hs.trans ⟨rfl, rfl, rfl, rfl⟩

theorem noteCkpt_keeps {s : State} {s0 : State} (hs : Keeps s0 s) : Keeps s0 (noteCkpt s) := by
  unfold noteCkpt
  try dsimp only
  repeat' (first
    | with_reducible exact hs
    | with_reducible exact Keeps.refl _
    | with_reducible apply decFail_keeps
    | (simp only [↓keeps_mk]; with_reducible refine KeepsL.of ?_)
    | intro _
    | split)

theorem hfFaultAt_keeps {a : Nat} {s : State} {s0 : State} (hs : Keeps s0 s) : Keeps s0 (hfFaultAt a s) := by
  unfold hfFaultAt
  try dsimp only
  repeat' (first
    | with_reducible exact hs
    | with_reducible apply State.countHealth_keeps
    | with_reducible apply State.setBit_keeps
    | with_reducible apply State.emit_keeps)

theorem hfPoison_keeps {n : Nat} {s : State} {s0 : State} (hs : Keeps s0 s) : Keeps s0 (hfPoison n s) := by
  unfold hfPoison
  try dsimp only
  repeat' (first
    | with_reducible exact hs
    | with_reducible apply State.countHealth_keeps)

theorem hostFaults_keeps {host : HostView} {a n : Nat} {s : State} {s0 : State} (hs : Keeps s0 s) : Keeps s0
    (hostFaults host a n s) := by
  unfold hostFaults
  try dsimp only
  repeat' (first
    | with_reducible exact hs
    | with_reducible exact Keeps.refl _
    | with_reducible apply hfFaultAt_keeps
    | with_reducible apply hfPoison_keeps
    | with_reducible apply Keeps.foldl
    | intro _)

theorem imageFault_keeps {src : Nat} {host : HostImage} {s : State} {s0 : State} (hs : Keeps s0 s) : Keeps s0
    (imageFault src host s) := by
  unfold imageFault
  try dsimp only
  repeat' (first
    | with_reducible exact hs
    | with_reducible apply hfFaultAt_keeps
    | with_reducible apply hfPoison_keeps
    | (simp only [↓keeps_mk]; with_reducible refine KeepsL.of ?_)
    | split)

end Sys2Proof.Machine
end

