-- ==== Sys2Proof/Laws/KeepsCuts.lean ====
section
/-!
SUPPORT. What each operation and command keeps: cuts, reduction, trace, watch and stop.
-/

namespace Sys2Proof.Machine

theorem State.onStook_keeps {s : State} {n : Nat} {f : Stook → Stook} {s0 : State} (hs : Keeps s0 s) : Keeps s0
    (State.onStook s n f) :=
  hs.trans ⟨rfl, rfl, rfl, rfl⟩

theorem execStkClkEdge_keeps {n : Nat} {e : RegionEdge} {s : State} : KeepsR s (execStkClkEdge n e s) := by
  unfold execStkClkEdge
  try dsimp only
  repeat' (first
    | with_reducible exact Keeps.refl _
    | with_reducible apply onLeaf_keeps
    | with_reducible apply State.onStook_keeps
    | intro _)

theorem syncHeaders_keeps {s : State} {s0 : State} (hs : Keeps s0 s) : Keeps s0 (syncHeaders s) := by
  unfold syncHeaders
  try dsimp only
  repeat' (first
    | with_reducible exact hs
    | with_reducible exact Keeps.refl _
    | (simp only [↓keeps_mk]; with_reducible refine KeepsL.of ?_)
    | intro _
    | split)

theorem State.raise_keeps {s : State} {r : BusReq} {s0 : State} (hs : Keeps s0 s) : Keeps s0 (State.raise s r) := by
  unfold State.raise
  try dsimp only
  repeat' (first
    | with_reducible exact hs
    | (simp only [↓keeps_mk]; with_reducible refine KeepsL.of ?_)
    | split)

theorem giveToken_keeps {full : Bool} {s : State} {s0 : State} (hs : Keeps s0 s) : Keeps s0 (giveToken full s) := by
  unfold giveToken
  try dsimp only
  repeat' (first
    | with_reducible exact hs
    | with_reducible apply State.raise_keeps
    | (simp only [↓keeps_mk]; with_reducible refine KeepsL.of ?_)
    | split)

theorem countStop_keeps {h : Option (BitVec 128)} {s : State} {s0 : State} (hs : Keeps s0 s) : Keeps s0
    (countStop h s) := by
  unfold countStop
  try dsimp only
  repeat' (first
    | with_reducible exact hs
    | with_reducible apply State.countHealth_keeps
    | split)

theorem noteStretch_keeps {latched : Ticks} {s : State} {s0 : State} (hs : Keeps s0 s) : Keeps s0
    (noteStretch latched s) := by
  unfold noteStretch
  try dsimp only
  repeat' (first
    | with_reducible exact hs
    | with_reducible apply State.setBit_keeps
    | split)

theorem takeCut_keeps {n k : Nat} {t : Ticks} {m : Latch} {lat : BitVec 16} {raw : List (BitVec 64)} {raised : Nat}
    {s : State} {s0 : State} (hs : Keeps s0 s) : Keeps s0 (takeCut n k t m lat raw raised s) := by
  unfold takeCut
  try dsimp only
  repeat' (first
    | with_reducible exact hs
    | with_reducible exact Keeps.refl _
    | with_reducible apply State.onStook_keeps
    | with_reducible apply State.raise_keeps
    | with_reducible apply syncHeaders_keeps
    | with_reducible apply countStop_keeps
    | (simp only [↓keeps_mk]; with_reducible refine KeepsL.of ?_)
    | intro _
    | split)

theorem takeInt_keeps {n : Nat} {j : IntJob} {t : Ticks} {m : Latch} {lat : BitVec 16} {raised : Nat} {s : State}
    {s0 : State} (hs : Keeps s0 s) : Keeps s0 (takeInt n j t m lat raised s) := by
  unfold takeInt
  try dsimp only
  repeat' (first
    | with_reducible exact hs
    | with_reducible exact Keeps.refl _
    | with_reducible apply State.onStook_keeps
    | with_reducible apply State.raise_keeps
    | with_reducible apply countStop_keeps
    | (simp only [↓keeps_mk]; with_reducible refine KeepsL.of ?_)
    | intro _
    | split)

theorem execStookLatch_keeps {n : Nat} {edge : Ticks} {lat : BitVec 16} {third : Bool} {s : State} : KeepsR s
    (execStookLatch n edge lat third s) := by
  unfold execStookLatch
  try dsimp only
  repeat' (first
    | with_reducible exact Keeps.refl _
    | with_reducible apply onLeaf_keeps
    | with_reducible apply takeInt_keeps
    | with_reducible apply takeCut_keeps
    | with_reducible apply noteStretch_keeps
    | with_reducible apply State.onStook_keeps
    | (simp only [↓keeps_mk]; with_reducible refine KeepsL.of ?_)
    | intro _
    | split)

theorem execStookLatchTimeout_keeps {n : Nat} {s : State} : KeepsR s (execStookLatchTimeout n s) := by
  unfold execStookLatchTimeout
  try dsimp only
  repeat' (first
    | with_reducible exact Keeps.refl _
    | with_reducible apply onLeaf_keeps
    | with_reducible apply takeInt_keeps
    | with_reducible apply takeCut_keeps
    | with_reducible apply noteStretch_keeps
    | with_reducible apply State.onStook_keeps
    | (simp only [↓keeps_mk]; with_reducible refine KeepsL.of ?_)
    | intro _
    | split)

theorem execStookHoldLoad_keeps {n : Nat} {edge : Ticks} {s : State} : KeepsR s (execStookHoldLoad n edge s) := by
  unfold execStookHoldLoad
  try dsimp only
  repeat' (first
    | with_reducible exact Keeps.refl _
    | with_reducible apply onLeaf_keeps
    | with_reducible apply takeInt_keeps
    | with_reducible apply takeCut_keeps
    | with_reducible apply noteStretch_keeps
    | with_reducible apply State.onStook_keeps
    | (simp only [↓keeps_mk]; with_reducible refine KeepsL.of ?_)
    | intro _
    | split)

theorem execStookHostReset_keeps {n : Nat} {s : State} : KeepsR s (execStookHostReset n s) := by
  unfold execStookHostReset
  try dsimp only
  repeat' (first
    | with_reducible exact Keeps.refl _
    | with_reducible apply onLeaf_keeps
    | with_reducible apply State.countHealth_keeps
    | with_reducible apply State.onStook_keeps
    | with_reducible apply syncHeaders_keeps
    | (simp only [↓keeps_mk]; with_reducible refine KeepsL.of ?_)
    | intro _
    | split)

theorem sampleStook_keeps {k : Nat} {t : Ticks} {p : IntPlan} {j : Nat} {sel : Nat × Nat × Nat} {s : State} {s0
    : State} (hs : Keeps s0 s) : Keeps s0 (sampleStook k t p j sel s) := by
  unfold sampleStook
  try dsimp only
  repeat' (first
    | with_reducible exact hs
    | with_reducible exact Keeps.refl _
    | with_reducible apply takeInt_keeps
    | with_reducible apply State.countHealth_keeps
    | with_reducible apply State.onStook_keeps
    | with_reducible apply State.onCtx_keeps
    | (simp only [↓keeps_mk]; with_reducible refine KeepsL.of ?_)
    | intro _
    | split)

theorem execSubBoundary_keeps {m j : Nat} {s : State} : KeepsR s (execSubBoundary m j s) := by
  unfold execSubBoundary
  try dsimp only
  repeat' (first
    | with_reducible exact Keeps.refl _
    | with_reducible apply onLeaf_keeps
    | with_reducible apply State.taken_keeps
    | with_reducible apply sampleStook_keeps
    | with_reducible apply Keeps.foldl
    | (simp only [↓keeps_mk]; with_reducible refine KeepsL.of ?_)
    | intro _
    | split)

theorem execLeafCutRecordSend_keeps {s : State} : KeepsR s (execLeafCutRecordSend s) := by
  unfold execLeafCutRecordSend
  try dsimp only
  repeat' (first
    | with_reducible exact Keeps.refl _
    | with_reducible apply onLeaf_keeps
    | with_reducible apply done_keeps
    | (simp only [↓keeps_mk]; with_reducible refine KeepsL.of ?_)
    | intro _
    | split)

theorem captureLost_keeps {k : Nat} {s : State} {s0 : State} (hs : Keeps s0 s) : Keeps s0 (captureLost k s) := by
  unfold captureLost
  try dsimp only
  repeat' (first
    | with_reducible exact hs
    | with_reducible exact Keeps.refl _
    | with_reducible apply State.setBit_keeps
    | with_reducible apply State.sendLeafStatus_keeps
    | (simp only [↓keeps_mk]; with_reducible refine KeepsL.of ?_)
    | intro _)

theorem overwrite_keeps {k : Nat} {s : State} {s0 : State} (hs : Keeps s0 s) : Keeps s0 (overwrite k s) := by
  unfold overwrite
  try dsimp only
  repeat' (first
    | with_reducible exact hs
    | with_reducible exact Keeps.refl _
    | with_reducible apply State.countHealth_keeps
    | with_reducible apply State.sendCtl_keeps
    | with_reducible apply Keeps.foldl
    | (simp only [↓keeps_mk]; with_reducible refine KeepsL.of ?_)
    | intro _)

theorem overwriteRing_keeps {k : Nat} {s : State} {s0 : State} (hs : Keeps s0 s) : Keeps s0 (overwriteRing k s) := by
  unfold overwriteRing
  try dsimp only
  repeat' (first
    | with_reducible exact hs
    | with_reducible exact Keeps.refl _
    | with_reducible apply overwrite_keeps
    | with_reducible apply Keeps.foldl
    | intro _)

theorem storeInt_keeps {j : IntJob} {b : Bytes} {s : State} {s0 : State} (hs : Keeps s0 s) : Keeps s0
    (storeInt j b s) := by
  unfold storeInt
  try dsimp only
  repeat' (first
    | with_reducible exact hs
    | with_reducible exact Keeps.refl _
    | (simp only [↓keeps_mk]; with_reducible refine KeepsL.of ?_)
    | intro _)

theorem grantBurst_keeps {w : BusReq} {s : State} {s0 : State} (hs : Keeps s0 s) : Keeps s0 (grantBurst w s) := by
  unfold grantBurst
  try dsimp only
  repeat' (first
    | with_reducible exact hs
    | with_reducible exact Keeps.refl _
    | with_reducible apply cut_keeps
    | with_reducible apply done_keeps
    | with_reducible apply storeInt_keeps
    | with_reducible apply State.onStook_keeps
    | (simp only [↓keeps_mk]; with_reducible refine KeepsL.of ?_)
    | intro _
    | split)

theorem sendSchedSync_keeps {lane : Nat} {s : State} {s0 : State} (hs : Keeps s0 s) : Keeps s0
    (sendSchedSync lane s) := by
  unfold sendSchedSync
  try dsimp only
  repeat' (first
    | with_reducible exact hs
    | with_reducible apply State.sendCtl_keeps
    | (simp only [↓keeps_mk]; with_reducible refine KeepsL.of ?_)
    | split)

theorem askSource_keeps {r : Recovery} {s : State} {s0 : State} (hs : Keeps s0 s) : Keeps s0 (askSource r s) := by
  unfold askSource
  try dsimp only
  repeat' (first
    | with_reducible exact hs
    | with_reducible apply State.sendCtlAll_keeps
    | with_reducible apply State.sendBelay_keeps
    | with_reducible apply State.sendCtl_keeps
    | (simp only [↓keeps_mk]; with_reducible refine KeepsL.of ?_)
    | split)

theorem setRecovery_keeps {r : Recovery} {s : State} {s0 : State} (hs : Keeps s0 s) : Keeps s0 (setRecovery r s) :=
  hs.trans ⟨rfl, rfl, rfl, rfl⟩

theorem startRecovery_keeps {ctx slot k : Nat} {s : State} {s0 : State} (hs : Keeps s0 s) : Keeps s0
    (startRecovery ctx slot k s) := by
  unfold startRecovery
  try dsimp only
  repeat' (first
    | with_reducible exact hs
    | with_reducible apply setRecovery_keeps
    | with_reducible apply askSource_keeps
    | split)

theorem endRecovery_keeps {ctx slot k : Nat} {s : State} {s0 : State} (hs : Keeps s0 s) : Keeps s0
    (endRecovery ctx slot k s) := by
  unfold endRecovery
  try dsimp only
  repeat' (first
    | with_reducible exact hs
    | with_reducible exact Keeps.refl _
    | with_reducible apply State.errCount_keeps
    | (simp only [↓keeps_mk]; with_reducible refine KeepsL.of ?_)
    | intro _
    | split)

theorem execResendRetry_keeps {slot epoch : Nat} {s : State} : KeepsR s (execResendRetry slot epoch s) := by
  unfold execResendRetry
  try dsimp only
  repeat' (first
    | with_reducible exact Keeps.refl _
    | with_reducible apply onTray_keeps
    | with_reducible apply setRecovery_keeps
    | with_reducible apply askSource_keeps
    | (simp only [↓keeps_mk]; with_reducible refine KeepsL.of ?_)
    | intro _
    | split)

theorem countDup_keeps {s : State} {s0 : State} (hs : Keeps s0 s) : Keeps s0 (countDup s) := by
  unfold countDup
  try dsimp only
  repeat' (first
    | with_reducible exact hs
    | with_reducible apply State.errCount_keeps
    | (simp only [↓keeps_mk]; with_reducible refine KeepsL.of ?_))

theorem countLate_keeps {s : State} {s0 : State} (hs : Keeps s0 s) : Keeps s0 (countLate s) := by
  unfold countLate
  try dsimp only
  repeat' (first
    | with_reducible exact hs
    | with_reducible apply State.errCount_keeps
    | (simp only [↓keeps_mk]; with_reducible refine KeepsL.of ?_))

theorem State.declareJoin_keeps {s : State} {ctx slot k : Nat} {left : MemberEntry} {s0 : State} (hs : Keeps s0 s)
    : Keeps s0 (State.declareJoin s ctx slot k left) := by
  unfold State.declareJoin
  try dsimp only
  repeat' (first
    | with_reducible exact hs
    | with_reducible apply State.decideChange_keeps
    | (simp only [↓keeps_mk]; with_reducible refine KeepsL.of ?_)
    | split)

theorem State.declareShardJoin_keeps {s : State} {ctx slot j : Nat} {left : MemberEntry} {s0 : State} (hs
    : Keeps s0 s) : Keeps s0 (State.declareShardJoin s ctx slot j left) := by
  unfold State.declareShardJoin
  try dsimp only
  repeat' (first
    | with_reducible exact hs
    | with_reducible exact Keeps.refl _
    | with_reducible apply State.decideChange_keeps
    | with_reducible apply Keeps.foldl
    | (simp only [↓keeps_mk]; with_reducible refine KeepsL.of ?_)
    | intro _)

theorem State.rejoin_keeps {s : State} {ctx slot k : Nat} {s0 : State} (hs : Keeps s0 s) : Keeps s0
    (State.rejoin s ctx slot k) := by
  unfold State.rejoin
  try dsimp only
  repeat' (first
    | with_reducible exact hs
    | with_reducible apply State.declareShardJoin_keeps
    | with_reducible apply State.declareJoin_keeps
    | (simp only [↓keeps_mk]; with_reducible refine KeepsL.of ?_)
    | split)

theorem maybeRejoin_keeps {slot k : Nat} {s : State} {s0 : State} (hs : Keeps s0 s) : Keeps s0
    (maybeRejoin slot k s) := by
  unfold maybeRejoin
  try dsimp only
  repeat' (first
    | with_reducible exact hs
    | with_reducible exact Keeps.refl _
    | with_reducible apply State.rejoin_keeps
    | with_reducible apply Keeps.foldl
    | intro _)

theorem countNoRow_keeps {n : Nat} {s : State} {s0 : State} (hs : Keeps s0 s) : Keeps s0 (countNoRow n s) := by
  unfold countNoRow
  try dsimp only
  repeat' (first
    | with_reducible exact hs
    | with_reducible apply State.errCount_keeps
    | split)

theorem landRecord_keeps {slot : Nat} {b : Bytes} {s : State} {s0 : State} (hs : Keeps s0 s) : Keeps s0
    (landRecord slot b s) := by
  unfold landRecord
  try dsimp only
  repeat' (first
    | with_reducible exact hs
    | with_reducible exact Keeps.refl _
    | with_reducible apply endRecovery_keeps
    | with_reducible apply countNoRow_keeps
    | with_reducible apply noteTail_keeps
    | with_reducible apply maybeRejoin_keeps
    | with_reducible apply noteLeafPdm_keeps
    | with_reducible apply State.stripe_keeps
    | (simp only [↓keeps_mk]; with_reducible refine KeepsL.of ?_)
    | intro _)

theorem execResendSourceTimeout_keeps {x : SlotEpoch} {area : Option Ckpt} {s : State} : KeepsR s
    (execResendSourceTimeout x area s) := by
  unfold execResendSourceTimeout
  try dsimp only
  repeat' (first
    | with_reducible exact Keeps.refl _
    | with_reducible apply onTray_keeps
    | with_reducible apply setRecovery_keeps
    | with_reducible apply startRecovery_keeps
    | with_reducible apply askSource_keeps
    | with_reducible apply noteCkpt_keeps
    | with_reducible apply landRecord_keeps
    | (simp only [↓keeps_mk]; with_reducible refine KeepsL.of ?_)
    | intro _
    | split)

theorem takeRecord_keeps {b : Bytes} {s : State} {s0 : State} (hs : Keeps s0 s) : Keeps s0 (takeRecord b s) := by
  unfold takeRecord
  try dsimp only
  repeat' (first
    | with_reducible exact hs
    | with_reducible exact Keeps.refl _
    | with_reducible apply countDup_keeps
    | with_reducible apply startRecovery_keeps
    | with_reducible apply countLate_keeps
    | with_reducible apply sendSchedSync_keeps
    | with_reducible apply landRecord_keeps
    | with_reducible apply Keeps.foldl
    | (simp only [↓keeps_mk]; with_reducible refine KeepsL.of ?_)
    | intro _
    | split)

theorem execLeafCutRecord_keeps {lane : Nat} {b : Bytes} {relayed : Bool} {s : State} : KeepsR s
    (execLeafCutRecord lane b relayed s) := by
  unfold execLeafCutRecord
  try dsimp only
  repeat' (first
    | with_reducible exact Keeps.refl _
    | with_reducible apply onTray_keeps
    | with_reducible apply State.taken_keeps
    | with_reducible apply takeRecord_keeps
    | intro _
    | split)

theorem takeChild_keeps {lane slot rtype : Nat} {b summary : Bytes} {s : State} {s0 : State} (hs : Keeps s0 s)
    : Keeps s0 (takeChild lane slot rtype b summary s) := by
  unfold takeChild
  try dsimp only
  repeat' (first
    | with_reducible exact hs
    | with_reducible exact Keeps.refl _
    | with_reducible apply endRecovery_keeps
    | with_reducible apply countDup_keeps
    | with_reducible apply countNoRow_keeps
    | with_reducible apply startRecovery_keeps
    | with_reducible apply countLate_keeps
    | with_reducible apply sendSchedSync_keeps
    | with_reducible apply State.rejoin_keeps
    | (simp only [↓keeps_mk]; with_reducible refine KeepsL.of ?_)
    | intro _
    | split)

theorem execChildSheaf_keeps {lane : Nat} {b summary : Bytes} {s : State} : KeepsR s
    (execChildSheaf lane b summary s) := by
  unfold execChildSheaf
  try dsimp only
  repeat' (first
    | with_reducible exact Keeps.refl _
    | with_reducible apply onTray_keeps
    | with_reducible apply State.taken_keeps
    | with_reducible apply takeChild_keeps
    | (simp only [↓keeps_mk]; with_reducible refine KeepsL.of ?_)
    | intro _
    | split)

theorem execShardPartial_keeps {lane : Nat} {b : Bytes} {s : State} : KeepsR s (execShardPartial lane b s) := by
  unfold execShardPartial
  try dsimp only
  repeat' (first
    | with_reducible exact Keeps.refl _
    | with_reducible apply onTray_keeps
    | with_reducible apply State.taken_keeps
    | with_reducible apply takeChild_keeps
    | intro _
    | split)

theorem State.onSheaf_keeps {s : State} {h0 : Sheaf} {f : Sheaf → Sheaf} {s0 : State} (hs : Keeps s0 s) : Keeps s0
    (State.onSheaf s h0 f) :=
  hs.trans ⟨rfl, rfl, rfl, rfl⟩

theorem addBelow_keeps {ctx slot : Nat} {es : List MemberEntry} {s : State} {s0 : State} (hs : Keeps s0 s)
    : Keeps s0 (addBelow ctx slot es s) := by
  unfold addBelow
  try dsimp only
  repeat' (first
    | with_reducible exact hs
    | with_reducible exact Keeps.refl _
    | with_reducible apply State.addChange_keeps
    | with_reducible apply Keeps.foldl
    | intro _
    | split)

theorem execContributionMerge_keeps {ctx slot epoch : Nat} {check : CheckOutcome} {s : State} : KeepsR s
    (execContributionMerge ctx slot epoch check s) := by
  unfold execContributionMerge
  try dsimp only
  repeat' (first
    | with_reducible exact Keeps.refl _
    | with_reducible apply onTray_keeps
    | with_reducible apply countDup_keeps
    | with_reducible apply unitCheck_keeps
    | with_reducible apply addBelow_keeps
    | with_reducible apply State.onSheaf_keeps
    | with_reducible apply byUnit_keeps
    | (simp only [↓keeps_mk]; with_reducible refine KeepsL.of ?_)
    | intro _
    | split)

theorem declareShardLost_keeps {ctx slot k : Nat} {s : State} {s0 : State} (hs : Keeps s0 s) : Keeps s0
    (declareShardLost ctx slot k s) := by
  unfold declareShardLost
  try dsimp only
  repeat' (first
    | with_reducible exact hs
    | with_reducible exact Keeps.refl _
    | with_reducible apply State.decideChange_keeps
    | with_reducible apply Keeps.foldl
    | intro _)

theorem declareAbsent_keeps {ctx slot k : Nat} {otherUp : Bool} {s : State} {s0 : State} (hs : Keeps s0 s)
    : Keeps s0 (declareAbsent ctx slot k otherUp s) := by
  unfold declareAbsent
  try dsimp only
  repeat' (first
    | with_reducible exact hs
    | with_reducible exact Keeps.refl _
    | with_reducible apply declareShardLost_keeps
    | with_reducible apply State.decideChange_keeps
    | with_reducible apply State.rejoin_keeps
    | with_reducible apply Keeps.foldl
    | intro _
    | split)

theorem settleAbsent_keeps {ctx slot m : Nat} {otherUp : Bool} {s : State} {s0 : State} (hs : Keeps s0 s) : Keeps s0
    (settleAbsent ctx slot m otherUp s) := by
  unfold settleAbsent
  try dsimp only
  repeat' (first
    | with_reducible exact hs
    | with_reducible apply declareAbsent_keeps
    | split)

theorem sendQuery_keeps {ctx slot k : Nat} {s : State} {s0 : State} (hs : Keeps s0 s) : Keeps s0
    (sendQuery ctx slot k s) := by
  unfold sendQuery
  try dsimp only
  repeat' (first
    | with_reducible exact hs
    | with_reducible exact Keeps.refl _
    | with_reducible apply State.sendBelay_keeps
    | (simp only [↓keeps_mk]; with_reducible refine KeepsL.of ?_)
    | intro _)

theorem dropQuery_keeps {ctx slot k : Nat} {s : State} {s0 : State} (hs : Keeps s0 s) : Keeps s0
    (dropQuery ctx slot k s) :=
  hs.trans ⟨rfl, rfl, rfl, rfl⟩

theorem execMemberWaitDeadline_keeps {ctx slot epoch : Nat} {s : State} : KeepsR s
    (execMemberWaitDeadline ctx slot epoch s) := by
  unfold execMemberWaitDeadline
  try dsimp only
  repeat' (first
    | with_reducible exact Keeps.refl _
    | with_reducible apply onTray_keeps
    | with_reducible apply sendQuery_keeps
    | with_reducible apply declareAbsent_keeps
    | (simp only [↓keeps_mk]; with_reducible refine KeepsL.of ?_)
    | intro _
    | split)

theorem execMemberQueryRetry_keeps {ctx slot epoch : Nat} {s : State} : KeepsR s
    (execMemberQueryRetry ctx slot epoch s) := by
  unfold execMemberQueryRetry
  try dsimp only
  repeat' (first
    | with_reducible exact Keeps.refl _
    | with_reducible apply onTray_keeps
    | with_reducible apply sendQuery_keeps
    | with_reducible apply dropQuery_keeps
    | with_reducible apply settleAbsent_keeps
    | (simp only [↓keeps_mk]; with_reducible refine KeepsL.of ?_)
    | intro _
    | split)

theorem execMemberQuery_keeps {lane ctx slot epoch : Nat} {s : State} : KeepsR s
    (execMemberQuery lane ctx slot epoch s) := by
  unfold execMemberQuery
  try dsimp only
  repeat' (first
    | with_reducible exact Keeps.refl _
    | with_reducible apply onTray_keeps
    | with_reducible apply State.sendMsg_keeps
    | with_reducible apply State.sendCtl_keeps
    | (simp only [↓keeps_mk]; with_reducible refine KeepsL.of ?_)
    | intro _
    | split)

theorem execMemberAnswer_keeps {lane ctx slot epoch : Nat} {ans : MemberAnswer} {s : State} : KeepsR s
    (execMemberAnswer lane ctx slot epoch ans s) := by
  unfold execMemberAnswer
  try dsimp only
  repeat' (first
    | with_reducible exact Keeps.refl _
    | with_reducible apply onTray_keeps
    | with_reducible apply takeChild_keeps
    | with_reducible apply dropQuery_keeps
    | with_reducible apply settleAbsent_keeps
    | with_reducible apply takeRecord_keeps
    | (simp only [↓keeps_mk]; with_reducible refine KeepsL.of ?_)
    | intro _
    | split)

theorem execMemberDecide_keeps {lane ctx slot : Nat} {e : MemberEntry} {s : State} : KeepsR s
    (execMemberDecide lane ctx slot e s) := by
  unfold execMemberDecide
  try dsimp only
  repeat' (first
    | with_reducible exact Keeps.refl _
    | with_reducible apply onTray_keeps
    | with_reducible apply State.taken_keeps
    | with_reducible apply State.addChange_keeps
    | intro _)

theorem execHoldNotice_keeps {lane ctx epoch : Nat} {s : State} : KeepsR s (execHoldNotice lane ctx epoch s) := by
  unfold execHoldNotice
  try dsimp only
  repeat' (first
    | with_reducible exact Keeps.refl _
    | with_reducible apply onTray_keeps
    | with_reducible apply State.taken_keeps
    | (simp only [↓keeps_mk]; with_reducible refine KeepsL.of ?_)
    | intro _
    | split)

theorem execLeafStatus_keeps {lane : Nat} {r : LeafReport} {s : State} : KeepsR s (execLeafStatus lane r s) := by
  unfold execLeafStatus
  try dsimp only
  repeat' (first
    | with_reducible exact Keeps.refl _
    | with_reducible apply onTray_keeps
    | with_reducible apply State.decideChange_keeps
    | with_reducible apply boundary_keeps
    | (simp only [↓keeps_mk]; with_reducible refine KeepsL.of ?_)
    | intro _
    | split)

theorem leafResend_keeps {lane k : Nat} {s : State} {s0 : State} (hs : Keeps s0 s) : Keeps s0
    (leafResend lane k s) := by
  unfold leafResend
  try dsimp only
  repeat' (first
    | with_reducible exact hs
    | with_reducible exact Keeps.refl _
    | with_reducible apply State.countHealth_keeps
    | with_reducible apply State.sendMsg_keeps
    | with_reducible apply State.sendCtl_keeps
    | (simp only [↓keeps_mk]; with_reducible refine KeepsL.of ?_)
    | intro _
    | split)

theorem State.onPub_keeps {s : State} {a : PubArea} {f : PubArea → PubArea} {s0 : State} (hs : Keeps s0 s)
    : Keeps s0 (State.onPub s a f) :=
  hs.trans ⟨rfl, rfl, rfl, rfl⟩

theorem sendPartial_keeps {h : Sheaf} {s : State} {s0 : State} (hs : Keeps s0 s) : Keeps s0 (sendPartial h s) := by
  unfold sendPartial
  try dsimp only
  repeat' (first
    | with_reducible exact hs
    | with_reducible exact Keeps.refl _
    | with_reducible apply State.sendMsgAll_keeps
    | with_reducible apply State.onSheaf_keeps
    | (simp only [↓keeps_mk]; with_reducible refine KeepsL.of ?_)
    | intro _)

theorem publishSheaf_keeps {h : Sheaf} {s : State} {s0 : State} (hs : Keeps s0 s) : Keeps s0 (publishSheaf h s) := by
  unfold publishSheaf
  try dsimp only
  repeat' (first
    | with_reducible exact hs
    | with_reducible exact Keeps.refl _
    | with_reducible apply State.sendMsgAll_keeps
    | with_reducible apply State.onSheaf_keeps
    | with_reducible apply State.issue_keeps
    | (simp only [↓keeps_mk]; with_reducible refine KeepsL.of ?_)
    | intro _
    | split)

theorem execSheafPublish_keeps {ctx epoch : Nat} {s : State} : KeepsR s (execSheafPublish ctx epoch s) := by
  unfold execSheafPublish
  try dsimp only
  repeat' (first
    | with_reducible exact Keeps.refl _
    | with_reducible apply onTray_keeps
    | with_reducible apply sendPartial_keeps
    | with_reducible apply publishSheaf_keeps
    | (simp only [↓keeps_mk]; with_reducible refine KeepsL.of ?_)
    | intro _
    | split)

theorem captReturn_keeps {c : CaptMsg} {ret : BitVec 64} {s : State} {s0 : State} (hs : Keeps s0 s) : Keeps s0
    (captReturn c ret s) := by
  unfold captReturn
  try dsimp only
  repeat' (first
    | with_reducible exact hs
    | with_reducible exact Keeps.refl _
    | with_reducible apply State.issue_keeps
    | with_reducible apply State.setBit_keeps
    | with_reducible apply State.onCtx_keeps
    | (simp only [↓keeps_mk]; with_reducible refine KeepsL.of ?_)
    | intro _
    | split)

theorem execPublishFaddReturn_keeps {ctx epoch : Nat} {ret : BitVec 64} {s : State} : KeepsR s
    (execPublishFaddReturn ctx epoch ret s) := by
  unfold execPublishFaddReturn
  try dsimp only
  repeat' (first
    | with_reducible exact Keeps.refl _
    | with_reducible apply onTray_keeps
    | with_reducible apply State.onSheaf_keeps
    | with_reducible apply captReturn_keeps
    | with_reducible apply State.onPub_keeps
    | with_reducible apply State.issue_keeps
    | with_reducible apply State.setBit_keeps
    | with_reducible apply State.onCtx_keeps
    | (simp only [↓keeps_mk]; with_reducible refine KeepsL.of ?_)
    | intro _
    | split)

theorem State.onShareTrc_keeps {s : State} {c : Nat} {f : ShareTrc → ShareTrc} {s0 : State} (hs : Keeps s0 s)
    : Keeps s0 (State.onShareTrc s c f) :=
  hs.trans ⟨rfl, rfl, rfl, rfl⟩

theorem putMark_keeps {c : Nat} {m : Mark} {s : State} {s0 : State} (hs : Keeps s0 s) : Keeps s0 (putMark c m s) := by
  unfold putMark
  try dsimp only
  repeat' (first
    | with_reducible exact hs
    | with_reducible exact Keeps.refl _
    | with_reducible apply State.onShareTrc_keeps
    | (simp only [↓keeps_mk]; with_reducible refine KeepsL.of ?_)
    | intro _)

theorem stopMark_keeps {phase : Nat} {t : Ticks} {s : State} {s0 : State} (hs : Keeps s0 s) : Keeps s0
    (stopMark phase t s) := by
  unfold stopMark
  try dsimp only
  repeat' (first
    | with_reducible exact hs
    | with_reducible apply putMark_keeps)

theorem brkMark_keeps {c core phase : Nat} {cyc : Nat} {s : State} {s0 : State} (hs : Keeps s0 s) : Keeps s0
    (brkMark c core phase cyc s) := by
  unfold brkMark
  try dsimp only
  repeat' (first
    | with_reducible exact hs
    | with_reducible apply putMark_keeps)

theorem watchMark_keeps {c idx phase step tensor : Nat} {s : State} {s0 : State} (hs : Keeps s0 s) : Keeps s0
    (watchMark c idx phase step tensor s) := by
  unfold watchMark
  try dsimp only
  repeat' (first
    | with_reducible exact hs
    | with_reducible apply putMark_keeps)

theorem State.sendShare_keeps {s : State} {ctx : Nat} {gen : BitVec 16} {body : Bytes} {s0 : State} (hs
    : Keeps s0 s) : Keeps s0 (State.sendShare s ctx gen body) := by
  unfold State.sendShare
  try dsimp only
  repeat' (first
    | with_reducible exact hs
    | with_reducible apply State.sendMsgAll_keeps)

theorem State.sendNumbered_keeps {s : State} {c : Nat} {gen : BitVec 16} {body : Nat → Bytes} {s0 : State} (hs
    : Keeps s0 s) : Keeps s0 (State.sendNumbered s c gen body) := by
  unfold State.sendNumbered
  try dsimp only
  repeat' (first
    | with_reducible exact hs
    | with_reducible exact Keeps.refl _
    | with_reducible apply State.onShareTrc_keeps
    | with_reducible apply State.sendShare_keeps
    | (simp only [↓keeps_mk]; with_reducible refine KeepsL.of ?_)
    | intro _)

theorem closeTrace_keeps {c : Nat} {s : State} {s0 : State} (hs : Keeps s0 s) : Keeps s0 (closeTrace c s) := by
  unfold closeTrace
  try dsimp only
  repeat' (first
    | with_reducible exact hs
    | with_reducible exact Keeps.refl _
    | with_reducible apply State.onShareTrc_keeps
    | with_reducible apply State.sendNumbered_keeps
    | (simp only [↓keeps_mk]; with_reducible refine KeepsL.of ?_)
    | intro _
    | split)

theorem takeBeat_keeps {b : TrcBeat} {s : State} {s0 : State} (hs : Keeps s0 s) : Keeps s0 (takeBeat b s) := by
  unfold takeBeat
  try dsimp only
  repeat' (first
    | with_reducible exact hs
    | with_reducible exact Keeps.refl _
    | with_reducible apply State.onShareTrc_keeps
    | with_reducible apply closeTrace_keeps
    | with_reducible apply Keeps.foldl
    | (simp only [↓keeps_mk]; with_reducible refine KeepsL.of ?_)
    | intro _
    | split)

theorem pushRec_keeps {r : TrcRec} {s : State} {s0 : State} (hs : Keeps s0 s) : Keeps s0 (pushRec r s) := by
  unfold pushRec
  try dsimp only
  repeat' (first
    | with_reducible exact hs
    | (simp only [↓keeps_mk]; with_reducible refine KeepsL.of ?_))

theorem recordOf_keeps {share : Nat} {t : Ticks} {m : Mark} {s : State} {s0 : State} (hs : Keeps s0 s) : Keeps s0
    (recordOf share t m s) := by
  unfold recordOf
  try dsimp only
  repeat' (first
    | with_reducible exact hs
    | with_reducible exact Keeps.refl _
    | with_reducible apply State.onShareTrc_keeps
    | with_reducible apply pushRec_keeps
    | (simp only [↓keeps_mk]; with_reducible refine KeepsL.of ?_)
    | intro _
    | split)

theorem pushEmpty_keeps {s : State} {s0 : State} (hs : Keeps s0 s) : Keeps s0 (pushEmpty s) := by
  unfold pushEmpty
  try dsimp only
  repeat' (first
    | with_reducible exact hs
    | with_reducible apply pushRec_keeps)

theorem beginGroup_keeps {s : State} {s0 : State} (hs : Keeps s0 s) : Keeps s0 (beginGroup s) := by
  unfold beginGroup
  try dsimp only
  repeat' (first
    | with_reducible exact hs
    | with_reducible exact Keeps.refl _
    | with_reducible apply State.onShareTrc_keeps
    | (simp only [↓keeps_mk]; with_reducible refine KeepsL.of ?_)
    | intro _
    | split)

theorem raiseSample_keeps {share core : Nat} {s : State} {s0 : State} (hs : Keeps s0 s) : Keeps s0
    (raiseSample share core s) := by
  unfold raiseSample
  try dsimp only
  repeat' (first
    | with_reducible exact hs
    | with_reducible exact Keeps.refl _
    | with_reducible apply State.onShareTrc_keeps
    | (simp only [↓keeps_mk]; with_reducible refine KeepsL.of ?_)
    | intro _)

theorem endSample_keeps {stall : Nat} {pc : BitVec 64} {s : State} {s0 : State} (hs : Keeps s0 s) : Keeps s0
    (endSample stall pc s) := by
  unfold endSample
  try dsimp only
  repeat' (first
    | with_reducible exact hs
    | with_reducible apply recordOf_keeps
    | (simp only [↓keeps_mk]; with_reducible refine KeepsL.of ?_)
    | split)

theorem closeGroup_keeps {s : State} {s0 : State} (hs : Keeps s0 s) : Keeps s0 (closeGroup s) := by
  unfold closeGroup
  try dsimp only
  repeat' (first
    | with_reducible exact hs
    | with_reducible apply State.setBit_keeps
    | with_reducible apply endSample_keeps
    | (simp only [↓keeps_mk]; with_reducible refine KeepsL.of ?_)
    | split)

theorem fillSlot_keeps {s : State} {s0 : State} (hs : Keeps s0 s) : Keeps s0 (fillSlot s) := by
  unfold fillSlot
  try dsimp only
  repeat' (first
    | with_reducible exact hs
    | with_reducible exact Keeps.refl _
    | with_reducible apply State.onShareTrc_keeps
    | with_reducible apply recordOf_keeps
    | with_reducible apply pushEmpty_keeps
    | with_reducible apply raiseSample_keeps
    | (simp only [↓keeps_mk]; with_reducible refine KeepsL.of ?_)
    | intro _
    | split)

theorem execTrcSampleSlot_keeps {j : Nat} {s : State} : KeepsR s (execTrcSampleSlot j s) := by
  unfold execTrcSampleSlot
  try dsimp only
  repeat' (first
    | with_reducible exact Keeps.refl _
    | with_reducible apply onLeaf_keeps
    | with_reducible apply endSample_keeps
    | with_reducible apply beginGroup_keeps
    | with_reducible apply closeGroup_keeps
    | with_reducible apply fillSlot_keeps
    | (simp only [↓keeps_mk]; with_reducible refine KeepsL.of ?_)
    | intro _
    | split)

theorem execTrcVld_keeps {pc : BitVec 64} {stall : BitVec 4} {s : State} : KeepsR s (execTrcVld pc stall s) := by
  unfold execTrcVld
  try dsimp only
  repeat' (first
    | with_reducible exact Keeps.refl _
    | with_reducible apply onLeaf_keeps
    | with_reducible apply endSample_keeps
    | (simp only [↓keeps_mk]; with_reducible refine KeepsL.of ?_)
    | intro _
    | split)

theorem execNoResponse_keeps {s : State} : KeepsR s (execNoResponse s) := by
  unfold execNoResponse
  try dsimp only
  repeat' (first
    | with_reducible exact Keeps.refl _
    | with_reducible apply onLeaf_keeps
    | with_reducible apply endSample_keeps
    | (simp only [↓keeps_mk]; with_reducible refine KeepsL.of ?_)
    | intro _
    | split)

theorem execTrcToken_keeps {s : State} : KeepsR s (execTrcToken s) := by
  unfold execTrcToken
  try dsimp only
  repeat' (first
    | with_reducible exact Keeps.refl _
    | with_reducible apply onLeaf_keeps
    | with_reducible apply giveToken_keeps
    | with_reducible apply closeGroup_keeps
    | intro _)

theorem crossBeat_keeps {s : State} {s0 : State} (hs : Keeps s0 s) : Keeps s0 (crossBeat s) := by
  unfold crossBeat
  try dsimp only
  repeat' (first
    | with_reducible exact hs
    | with_reducible apply takeBeat_keeps
    | (simp only [↓keeps_mk]; with_reducible refine KeepsL.of ?_)
    | split)

theorem execCaptureBusArbitration_keeps {parity : ParityRead} {s : State} : KeepsR s
    (execCaptureBusArbitration parity s) := by
  unfold execCaptureBusArbitration
  try dsimp only
  repeat' (first
    | with_reducible exact Keeps.refl _
    | with_reducible apply onLeaf_keeps
    | with_reducible apply queueRepair_keeps
    | with_reducible apply State.countHealth_keeps
    | with_reducible apply captureLost_keeps
    | with_reducible apply grantBurst_keeps
    | with_reducible apply crossBeat_keeps
    | (simp only [↓keeps_mk]; with_reducible refine KeepsL.of ?_)
    | intro _
    | split)

theorem State.onWatch_keeps {s : State} {c : Nat} {f : ShareWatch → ShareWatch} {s0 : State} (hs : Keeps s0 s)
    : Keeps s0 (State.onWatch s c f) :=
  hs.trans ⟨rfl, rfl, rfl, rfl⟩

theorem hfRequest_keeps {op : BitVec 2} {addr : Nat} {tag : BitVec 6} {data : BitVec 512} {s : State} {s0 : State}
    (hs : Keeps s0 s) : Keeps s0 (hfRequest op addr tag data s) :=
  hs.trans ⟨rfl, rfl, rfl, rfl⟩

theorem watchIssue_keeps {c : Nat} {s : State} {s0 : State} (hs : Keeps s0 s) : Keeps s0 (watchIssue c s) := by
  unfold watchIssue
  try dsimp only
  repeat' (first
    | with_reducible exact hs
    | with_reducible exact Keeps.refl _
    | with_reducible apply State.onWatch_keeps
    | with_reducible apply hfRequest_keeps
    | with_reducible apply State.emit_keeps
    | (simp only [↓keeps_mk]; with_reducible refine KeepsL.of ?_)
    | intro _
    | split)

theorem watchCycle_keeps {s : State} {s0 : State} (hs : Keeps s0 s) : Keeps s0 (watchCycle s) := by
  unfold watchCycle
  try dsimp only
  repeat' (first
    | with_reducible exact hs
    | with_reducible exact Keeps.refl _
    | with_reducible apply watchIssue_keeps
    | (simp only [↓keeps_mk]; with_reducible refine KeepsL.of ?_)
    | intro _
    | split)

theorem execWatchFeedPoll_keeps {c : Nat} {s : State} : KeepsR s (execWatchFeedPoll c s) := by
  unfold execWatchFeedPoll
  try dsimp only
  repeat' (first
    | with_reducible exact Keeps.refl _
    | with_reducible apply onLeaf_keeps
    | with_reducible apply KeepsR.next
    | with_reducible apply State.onWatch_keeps
    | (simp only [↓keeps_mk]; with_reducible refine KeepsL.of ?_)
    | intro _
    | split)

theorem oweRelease_keeps {c : Nat} {rel : Option Nat} {dseq : Nat} {s : State} {s0 : State} (hs : Keeps s0 s)
    : Keeps s0 (oweRelease c rel dseq s) := by
  unfold oweRelease
  try dsimp only
  repeat' (first
    | with_reducible exact hs
    | with_reducible exact Keeps.refl _
    | with_reducible apply State.onWatch_keeps
    | (simp only [↓keeps_mk]; with_reducible refine KeepsL.of ?_)
    | intro _
    | split)

theorem sendPart_keeps {c : Nat} {d : Dump} {status : Nat} {s : State} {s0 : State} (hs : Keeps s0 s) : Keeps s0
    (sendPart c d status s) := by
  unfold sendPart
  try dsimp only
  repeat' (first
    | with_reducible exact hs
    | with_reducible exact Keeps.refl _
    | with_reducible apply State.sendNumbered_keeps
    | (simp only [↓keeps_mk]; with_reducible refine KeepsL.of ?_)
    | intro _
    | split)

theorem endDump_keeps {c : Nat} {d : Dump} {status : Nat} {s : State} {s0 : State} (hs : Keeps s0 s) : Keeps s0
    (endDump c d status s) := by
  unfold endDump
  try dsimp only
  repeat' (first
    | with_reducible exact hs
    | with_reducible exact Keeps.refl _
    | with_reducible apply State.onWatch_keeps
    | with_reducible apply sendPart_keeps
    | with_reducible apply watchMark_keeps
    | with_reducible apply oweRelease_keeps
    | (simp only [↓keeps_mk]; with_reducible refine KeepsL.of ?_)
    | intro _
    | split)

theorem takeDescriptor_keeps {c : Nat} {b : Bytes} {s : State} {s0 : State} (hs : Keeps s0 s) : Keeps s0
    (takeDescriptor c b s) := by
  unfold takeDescriptor
  try dsimp only
  repeat' (first
    | with_reducible exact hs
    | with_reducible exact Keeps.refl _
    | with_reducible apply State.onWatch_keeps
    | with_reducible apply State.count_keeps
    | with_reducible apply State.issue_keeps
    | with_reducible apply watchMark_keeps
    | with_reducible apply start_keeps
    | with_reducible apply oweRelease_keeps
    | with_reducible apply endDump_keeps
    | (simp only [↓keeps_mk]; with_reducible refine KeepsL.of ?_)
    | intro _
    | split)

theorem execWatchFeedRead_keeps {c : Nat} {ans : HostAnswer} {s : State} : KeepsR s (execWatchFeedRead c ans s) := by
  unfold execWatchFeedRead
  try dsimp only
  repeat' (first
    | with_reducible exact Keeps.refl _
    | with_reducible exact True.intro
    | with_reducible apply onLeaf_keeps
    | with_reducible apply State.onWatch_keeps
    | with_reducible apply hfFaultAt_keeps
    | with_reducible apply takeDescriptor_keeps
    | with_reducible apply hfPoison_keeps
    | (simp only [↓keeps_mk]; with_reducible refine KeepsL.of ?_)
    | intro _
    | split)

theorem takeLine_keeps {c : Nat} {l : Bytes} {bad : Bool} {d : Dump} {s : State} {s0 : State} (hs : Keeps s0 s)
    : Keeps s0 (takeLine c l bad d s) := by
  unfold takeLine
  try dsimp only
  repeat' (first
    | with_reducible exact hs
    | with_reducible exact Keeps.refl _
    | with_reducible apply State.onWatch_keeps
    | with_reducible apply sendPart_keeps
    | with_reducible apply State.issue_keeps
    | (simp only [↓keeps_mk]; with_reducible refine KeepsL.of ?_)
    | intro _
    | split)

theorem takeLines_keeps {c n : Nat} {s s0 : State} (hs : Keeps s0 s) : Keeps s0 (takeLines c n s) := by
  induction n generalizing s with
  | zero => exact hs
  | succ n ih =>
    unfold takeLines
    split
    · split
      · exact ih (takeLine_keeps hs)
      · exact hs
    · exact hs

theorem settleDump_keeps {c : Nat} {s : State} {s0 : State} (hs : Keeps s0 s) : Keeps s0 (settleDump c s) := by
  unfold settleDump
  try dsimp only
  repeat' (first
    | with_reducible exact hs
    | with_reducible apply endDump_keeps
    | (simp only [↓keeps_mk]; with_reducible refine KeepsL.of ?_)
    | split)

theorem dropLate_keeps {tag : BitVec 6} {x : LateRead} {s : State} {s0 : State} (hs : Keeps s0 s) : Keeps s0
    (dropLate tag x s) := by
  unfold dropLate
  try dsimp only
  repeat' (first
    | with_reducible exact hs
    | with_reducible exact Keeps.refl _
    | with_reducible apply genDiscard_keeps
    | with_reducible apply State.emit_keeps
    | with_reducible apply State.onCtx_keeps
    | (simp only [↓keeps_mk]; with_reducible refine KeepsL.of ?_)
    | intro _
    | split)

theorem closeWatch_keeps {c : Nat} {s : State} {s0 : State} (hs : Keeps s0 s) : Keeps s0 (closeWatch c s) := by
  unfold closeWatch
  try dsimp only
  repeat' (first
    | with_reducible exact hs
    | with_reducible exact Keeps.refl _
    | with_reducible apply State.emits_keeps
    | (simp only [↓keeps_mk]; with_reducible refine KeepsL.of ?_)
    | intro _
    | split)

theorem execWatchDumpRead_keeps {c : Nat} {r : DumpReturn} {s : State} : KeepsR s (execWatchDumpRead c r s) := by
  unfold execWatchDumpRead
  try dsimp only
  repeat' (first
    | with_reducible exact Keeps.refl _
    | with_reducible exact True.intro
    | with_reducible apply onLeaf_keeps
    | with_reducible apply State.onWatch_keeps
    | with_reducible apply dropLate_keeps
    | with_reducible apply hfFaultAt_keeps
    | with_reducible apply settleDump_keeps
    | with_reducible apply takeLines_keeps
    | with_reducible apply hfPoison_keeps
    | (simp only [↓keeps_mk]; with_reducible refine KeepsL.of ?_)
    | intro _
    | split)

theorem watchGone_keeps {c : Nat} {s : State} {s0 : State} (hs : Keeps s0 s) : Keeps s0 (watchGone c s) := by
  unfold watchGone
  try dsimp only
  repeat' (first
    | with_reducible exact hs
    | with_reducible exact Keeps.refl _
    | with_reducible apply State.onWatch_keeps
    | with_reducible apply settleDump_keeps
    | (simp only [↓keeps_mk]; with_reducible refine KeepsL.of ?_)
    | intro _)

theorem State.stopBit_keeps {s : State} {i : Nat} {s0 : State} (hs : Keeps s0 s) : Keeps s0 (State.stopBit s i) := by
  unfold State.stopBit
  try dsimp only
  repeat' (first
    | with_reducible exact hs
    | with_reducible apply State.setBit_keeps)

theorem beginScan_keeps {s : State} {s0 : State} (hs : Keeps s0 s) : Keeps s0 (beginScan s) := by
  unfold beginScan
  try dsimp only
  repeat' (first
    | with_reducible exact hs
    | (simp only [↓keeps_mk]; with_reducible refine KeepsL.of ?_)
    | split)

theorem endScan_keeps {s : State} {s0 : State} (hs : Keeps s0 s) : Keeps s0 (endScan s) :=
  hs.trans ⟨rfl, rfl, rfl, rfl⟩

theorem execStopOutRise_keeps {s : State} : KeepsR s (execStopOutRise s) := by
  unfold execStopOutRise
  try dsimp only
  repeat' (first
    | with_reducible exact Keeps.refl _
    | with_reducible apply onLeaf_keeps
    | with_reducible apply stopMark_keeps
    | (simp only [↓keeps_mk]; with_reducible refine KeepsL.of ?_)
    | intro _
    | split)

theorem execStopDone_keeps {s : State} : KeepsR s (execStopDone s) := by
  unfold execStopDone
  try dsimp only
  repeat' (first
    | with_reducible exact Keeps.refl _
    | with_reducible apply onLeaf_keeps
    | with_reducible apply stopMark_keeps
    | with_reducible apply beginScan_keeps
    | (simp only [↓keeps_mk]; with_reducible refine KeepsL.of ?_)
    | intro _
    | split)

theorem execStopDoneWait_keeps {s : State} : KeepsR s (execStopDoneWait s) := by
  unfold execStopDoneWait
  try dsimp only
  repeat' (first
    | with_reducible exact Keeps.refl _
    | with_reducible apply onLeaf_keeps
    | with_reducible apply State.stopBit_keeps
    | with_reducible apply stopMark_keeps
    | with_reducible apply beginScan_keeps
    | intro _
    | split)

theorem sendScanPart_keeps {seg : ScanSeg} {part : Nat} {last : Bool} {data : Bytes} {s : State} {s0 : State} (hs
    : Keeps s0 s) : Keeps s0 (sendScanPart seg part last data s) := by
  unfold sendScanPart
  try dsimp only
  repeat' (first
    | with_reducible exact hs
    | with_reducible exact Keeps.refl _
    | with_reducible apply State.sendNumbered_keeps
    | intro _)

theorem sendScan_keeps {seg : ScanSeg} {n part : Nat} {b : Bytes} {s s0 : State} (hs : Keeps s0 s) :
    Keeps s0 (sendScan seg n part b s) := by
  induction n generalizing part b s with
  | zero => exact hs
  | succ n ih =>
    unfold sendScan
    dsimp only
    split
    · exact sendScanPart_keeps hs
    · exact ih (sendScanPart_keeps hs)

theorem dropStop_keeps {s : State} {s0 : State} (hs : Keeps s0 s) : Keeps s0 (dropStop s) := by
  unfold dropStop
  try dsimp only
  repeat' (first
    | with_reducible exact hs
    | with_reducible apply stopMark_keeps
    | (simp only [↓keeps_mk]; with_reducible refine KeepsL.of ?_))

theorem abandonScan_keeps {s : State} {s0 : State} (hs : Keeps s0 s) : Keeps s0 (abandonScan s) := by
  unfold abandonScan
  try dsimp only
  repeat' (first
    | with_reducible exact hs
    | with_reducible apply State.stopBit_keeps
    | with_reducible apply dropStop_keeps)

theorem execScanSegment_keeps {bits second : List Bool} {s : State} : KeepsR s (execScanSegment bits second s) := by
  unfold execScanSegment
  try dsimp only
  repeat' (first
    | with_reducible exact Keeps.refl _
    | with_reducible apply onLeaf_keeps
    | with_reducible apply sendScan_keeps
    | with_reducible apply State.stopBit_keeps
    | with_reducible apply endScan_keeps
    | with_reducible apply abandonScan_keeps
    | with_reducible apply State.emits_keeps
    | (simp only [↓keeps_mk]; with_reducible refine KeepsL.of ?_)
    | intro _
    | split)

theorem releaseStop_keeps {s : State} {s0 : State} (hs : Keeps s0 s) : Keeps s0 (releaseStop s) := by
  unfold releaseStop
  try dsimp only
  repeat' (first
    | with_reducible exact hs
    | with_reducible apply dropStop_keeps
    | (simp only [↓keeps_mk]; with_reducible refine KeepsL.of ?_)
    | split)

theorem execStopReleaseTime_keeps {s : State} : KeepsR s (execStopReleaseTime s) := by
  unfold execStopReleaseTime
  try dsimp only
  repeat' (first
    | with_reducible exact Keeps.refl _
    | with_reducible apply onLeaf_keeps
    | with_reducible apply releaseStop_keeps
    | (simp only [↓keeps_mk]; with_reducible refine KeepsL.of ?_)
    | intro _
    | split)

theorem execAutoReleased_keeps {s : State} : KeepsR s (execAutoReleased s) := by
  unfold execAutoReleased
  try dsimp only
  repeat' (first
    | with_reducible exact Keeps.refl _
    | with_reducible apply onLeaf_keeps
    | with_reducible apply State.stopBit_keeps
    | with_reducible apply releaseStop_keeps
    | intro _
    | split)

theorem nameRelease_keeps {t : Ticks} {s : State} {s0 : State} (hs : Keeps s0 s) : Keeps s0 (nameRelease t s) := by
  unfold nameRelease
  try dsimp only
  repeat' (first
    | with_reducible exact hs
    | with_reducible apply State.stopBit_keeps
    | (simp only [↓keeps_mk]; with_reducible refine KeepsL.of ?_)
    | split)

theorem execBrkVld_keeps {core : BitVec 8} {s : State} : KeepsR s (execBrkVld core s) := by
  unfold execBrkVld
  try dsimp only
  repeat' (first
    | with_reducible exact Keeps.refl _
    | with_reducible apply onLeaf_keeps
    | with_reducible apply brkMark_keeps
    | (simp only [↓keeps_mk]; with_reducible refine KeepsL.of ?_)
    | intro _
    | split)

theorem pulseResume_keeps {r : Nat × Nat} {s : State} {s0 : State} (hs : Keeps s0 s) : Keeps s0
    (pulseResume r s) := by
  unfold pulseResume
  try dsimp only
  repeat' (first
    | with_reducible exact hs
    | with_reducible apply brkMark_keeps
    | with_reducible apply State.emit_keeps
    | (simp only [↓keeps_mk]; with_reducible refine KeepsL.of ?_))

theorem nextResume_keeps {s : State} {s0 : State} (hs : Keeps s0 s) : Keeps s0 (nextResume s) := by
  unfold nextResume
  try dsimp only
  repeat' (first
    | with_reducible exact hs
    | with_reducible apply pulseResume_keeps
    | (simp only [↓keeps_mk]; with_reducible refine KeepsL.of ?_)
    | split)

theorem startDrain_keeps {c w : Nat} {s : State} {s0 : State} (hs : Keeps s0 s) : Keeps s0 (startDrain c w s) := by
  unfold startDrain
  try dsimp only
  repeat' (first
    | with_reducible exact hs
    | with_reducible apply nextResume_keeps
    | (simp only [↓keeps_mk]; with_reducible refine KeepsL.of ?_)
    | split)

theorem owedWindow_keeps {s : State} {s0 : State} (hs : Keeps s0 s) : Keeps s0 (owedWindow s) := by
  unfold owedWindow
  try dsimp only
  repeat' (first
    | with_reducible exact hs
    | with_reducible apply startDrain_keeps
    | split)

theorem completeDrain_keeps {core c t : Nat} {s : State} {s0 : State} (hs : Keeps s0 s) : Keeps s0
    (completeDrain core c t s) := by
  unfold completeDrain
  try dsimp only
  repeat' (first
    | with_reducible exact hs
    | with_reducible apply nextResume_keeps
    | with_reducible apply brkMark_keeps
    | (simp only [↓keeps_mk]; with_reducible refine KeepsL.of ?_))

theorem abortDrain_keeps {requeue : Bool} {s : State} {s0 : State} (hs : Keeps s0 s) : Keeps s0
    (abortDrain requeue s) := by
  unfold abortDrain
  try dsimp only
  repeat' (first
    | with_reducible exact hs
    | with_reducible apply brkMark_keeps
    | (simp only [↓keeps_mk]; with_reducible refine KeepsL.of ?_)
    | split)

theorem endWindow_keeps {s : State} {s0 : State} (hs : Keeps s0 s) : Keeps s0 (endWindow s) := by
  unfold endWindow
  try dsimp only
  repeat' (first
    | with_reducible exact hs
    | with_reducible apply abortDrain_keeps
    | (simp only [↓keeps_mk]; with_reducible refine KeepsL.of ?_)
    | split)

theorem execDrainWindow_keeps {s : State} : KeepsR s (execDrainWindow s) := by
  unfold execDrainWindow
  try dsimp only
  repeat' (first
    | with_reducible exact Keeps.refl _
    | with_reducible apply onLeaf_keeps
    | with_reducible apply endWindow_keeps
    | with_reducible apply owedWindow_keeps
    | (simp only [↓keeps_mk]; with_reducible refine KeepsL.of ?_)
    | intro _
    | split)

theorem undoAbort_keeps {core c : Nat} {s : State} {s0 : State} (hs : Keeps s0 s) : Keeps s0
    (undoAbort core c s) := by
  unfold undoAbort
  try dsimp only
  repeat' (first
    | with_reducible exact hs
    | with_reducible exact Keeps.refl _
    | with_reducible apply State.onShareTrc_keeps
    | (simp only [↓keeps_mk]; with_reducible refine KeepsL.of ?_)
    | intro _)

theorem execDrnDone_keeps {s : State} : KeepsR s (execDrnDone s) := by
  unfold execDrnDone
  try dsimp only
  repeat' (first
    | with_reducible exact Keeps.refl _
    | with_reducible apply onLeaf_keeps
    | with_reducible apply undoAbort_keeps
    | with_reducible apply owedWindow_keeps
    | with_reducible apply completeDrain_keeps
    | (simp only [↓keeps_mk]; with_reducible refine KeepsL.of ?_)
    | intro _
    | split)

theorem execDrainWindowEnd_keeps {s : State} : KeepsR s (execDrainWindowEnd s) := by
  unfold execDrainWindowEnd
  try dsimp only
  repeat' (first
    | with_reducible exact Keeps.refl _
    | with_reducible apply onLeaf_keeps
    | with_reducible apply endWindow_keeps)

theorem execDrnPortFault_keeps {s : State} : KeepsR s (execDrnPortFault s) := by
  unfold execDrnPortFault
  try dsimp only
  repeat' (first
    | with_reducible exact Keeps.refl _
    | with_reducible apply onLeaf_keeps
    | with_reducible apply State.stopBit_keeps
    | (simp only [↓keeps_mk]; with_reducible refine KeepsL.of ?_)
    | intro _
    | split)

theorem brkGone_keeps {c : Nat} {s : State} {s0 : State} (hs : Keeps s0 s) : Keeps s0 (brkGone c s) := by
  unfold brkGone
  try dsimp only
  repeat' (first
    | with_reducible exact hs
    | with_reducible exact Keeps.refl _
    | with_reducible apply abortDrain_keeps
    | with_reducible apply brkMark_keeps
    | with_reducible apply Keeps.foldl
    | (simp only [↓keeps_mk]; with_reducible refine KeepsL.of ?_)
    | intro _
    | split)

theorem moveCores_keeps {s : State} {s0 : State} (hs : Keeps s0 s) : Keeps s0 (moveCores s) :=
  hs.trans ⟨rfl, rfl, rfl, rfl⟩

end Sys2Proof.Machine
end

