-- ==== Sys2Proof/Laws/KeepsTeam.lean ====
section
/-!
SUPPORT. What each operation and command keeps: contexts, two-phase changes, placements and the Thresher.
-/

namespace Sys2Proof.Machine

theorem forwardSetup_keeps {su : Setup} {es : List SetupEntry} {s : State} {s0 : State} (hs : Keeps s0 s) : Keeps s0
    (forwardSetup su es s) := by
  unfold forwardSetup
  try dsimp only
  repeat' (first
    | with_reducible exact hs
    | with_reducible exact Keeps.refl _
    | with_reducible apply State.sendMsgAll_keeps
    | with_reducible apply Keeps.foldl
    | intro _
    | split)

theorem takeSetup_keeps {su : Setup} {s : State} {s0 : State} (hs : Keeps s0 s) : Keeps s0 (takeSetup su s) := by
  unfold takeSetup
  try dsimp only
  repeat' (first
    | with_reducible exact hs
    | with_reducible exact Keeps.refl _
    | with_reducible apply forwardSetup_keeps
    | (simp only [↓keeps_mk]; with_reducible refine KeepsL.of ?_)
    | intro _
    | split)

theorem takeAssignment_keeps {ctx : Nat} {g : BitVec 16} {es : List SetupEntry} {s : State} {s0 : State} (hs
    : Keeps s0 s) : Keeps s0 (takeAssignment ctx g es s) := by
  unfold takeAssignment
  try dsimp only
  repeat' (first
    | with_reducible exact hs
    | with_reducible exact Keeps.refl _
    | (simp only [↓keeps_mk]; with_reducible refine KeepsL.of ?_)
    | intro _)

theorem execCtxSetup_keeps {lane : Nat} {msg : Bytes} {s : State} : KeepsR s (execCtxSetup lane msg s) := by
  unfold execCtxSetup
  try dsimp only
  repeat' (first
    | with_reducible exact Keeps.refl _
    | with_reducible apply whenClocked_keeps
    | with_reducible apply KeepsR.next
    | with_reducible apply takeSetup_keeps
    | with_reducible apply State.taken_keeps
    | with_reducible apply takeAssignment_keeps
    | intro _
    | split)

theorem moveUnits_keeps {us : List Nat} {c : Nat} {s : State} {s0 : State} (hs : Keeps s0 s) : Keeps s0
    (moveUnits us c s) := by
  unfold moveUnits
  try dsimp only
  repeat' (first
    | with_reducible exact hs
    | with_reducible exact Keeps.refl _
    | with_reducible apply moveCores_keeps
    | with_reducible apply Keeps.foldl
    | (simp only [↓keeps_mk]; with_reducible refine KeepsL.of ?_)
    | intro _)

theorem activate_keeps {c : Nat} {g : BitVec 16} {k winBase winSize : Nat} {s : State} {s0 : State} (hs
    : Keeps s0 s) : Keeps s0 (activate c g k winBase winSize s) := by
  unfold activate
  try dsimp only
  repeat' (first
    | with_reducible exact hs
    | with_reducible exact Keeps.refl _
    | with_reducible apply start_keeps
    | with_reducible apply State.onCtx_keeps
    | (simp only [↓keeps_mk]; with_reducible refine KeepsL.of ?_)
    | intro _
    | split)

theorem noteOwners_keeps {su : Setup} {c k : Nat} {s : State} {s0 : State} (hs : Keeps s0 s) : Keeps s0
    (noteOwners su c k s) := by
  unfold noteOwners
  try dsimp only
  repeat' (first
    | with_reducible exact hs
    | with_reducible exact Keeps.refl _
    | (simp only [↓keeps_mk]; with_reducible refine KeepsL.of ?_)
    | intro _
    | split)

theorem startMembers_keeps {su : Setup} {c k : Nat} {extend : Bool} {s : State} {s0 : State} (hs : Keeps s0 s)
    : Keeps s0 (startMembers su c k extend s) := by
  unfold startMembers
  try dsimp only
  repeat' (first
    | with_reducible exact hs
    | with_reducible exact Keeps.refl _
    | with_reducible apply State.decideChange_keeps
    | with_reducible apply State.addChange_keeps
    | with_reducible apply Keeps.foldl
    | intro _
    | split)

theorem ctxStart_keeps {a : Arm} {k : Nat} {s : State} {s0 : State} (hs : Keeps s0 s) : Keeps s0
    (ctxStart a k s) := by
  unfold ctxStart
  try dsimp only
  repeat' (first
    | with_reducible exact hs
    | with_reducible apply startMembers_keeps
    | with_reducible apply noteOwners_keeps
    | with_reducible apply moveUnits_keeps
    | with_reducible apply activate_keeps
    | (simp only [↓keeps_mk]; with_reducible refine KeepsL.of ?_)
    | split)

theorem leafEnd_keeps {c : Nat} {s : State} {s0 : State} (hs : Keeps s0 s) : Keeps s0 (leafEnd c s) := by
  unfold leafEnd
  try dsimp only
  repeat' (first
    | with_reducible exact hs
    | with_reducible exact Keeps.refl _
    | with_reducible apply brkGone_keeps
    | with_reducible apply State.onShareTrc_keeps
    | with_reducible apply watchGone_keeps
    | with_reducible apply moveUnits_keeps
    | (simp only [↓keeps_mk]; with_reducible refine KeepsL.of ?_)
    | intro _)

theorem beginDrain_keeps {c k : Nat} {t : Ticks} {s : State} {s0 : State} (hs : Keeps s0 s) : Keeps s0
    (beginDrain c k t s) := by
  unfold beginDrain
  try dsimp only
  repeat' (first
    | with_reducible exact hs
    | with_reducible exact Keeps.refl _
    | with_reducible apply State.onCtx_keeps
    | (simp only [↓keeps_mk]; with_reducible refine KeepsL.of ?_)
    | intro _
    | split)

theorem returnUnits_keeps {c k : Nat} {s : State} {s0 : State} (hs : Keeps s0 s) : Keeps s0 (returnUnits c k s) := by
  unfold returnUnits
  try dsimp only
  repeat' (first
    | with_reducible exact hs
    | with_reducible exact Keeps.refl _
    | (simp only [↓keeps_mk]; with_reducible refine KeepsL.of ?_)
    | intro _)

theorem releaseMembers_keeps {su : Setup} {c k : Nat} {s : State} {s0 : State} (hs : Keeps s0 s) : Keeps s0
    (releaseMembers su c k s) := by
  unfold releaseMembers
  try dsimp only
  repeat' (first
    | with_reducible exact hs
    | with_reducible exact Keeps.refl _
    | with_reducible apply State.decideChange_keeps
    | with_reducible apply Keeps.foldl
    | intro _
    | split)

theorem ctxEnd_keeps {a : Arm} {k : Nat} {t : Ticks} {s : State} {s0 : State} (hs : Keeps s0 s) : Keeps s0
    (ctxEnd a k t s) := by
  unfold ctxEnd
  try dsimp only
  repeat' (first
    | with_reducible exact hs
    | with_reducible exact Keeps.refl _
    | with_reducible apply releaseMembers_keeps
    | with_reducible apply returnUnits_keeps
    | with_reducible apply noteOwners_keeps
    | with_reducible apply beginDrain_keeps
    | with_reducible apply leafEnd_keeps
    | with_reducible apply moveUnits_keeps
    | (simp only [↓keeps_mk]; with_reducible refine KeepsL.of ?_)
    | intro _
    | split)

theorem State.onArm_keeps {s : State} {id : BitVec 64} {f : Arm → Arm} {s0 : State} (hs : Keeps s0 s) : Keeps s0
    (State.onArm s id f) :=
  hs.trans ⟨rfl, rfl, rfl, rfl⟩

theorem State.dropArm_keeps {s : State} {id : BitVec 64} {s0 : State} (hs : Keeps s0 s) : Keeps s0
    (State.dropArm s id) :=
  hs.trans ⟨rfl, rfl, rfl, rfl⟩

theorem logArm_keeps {a : Arm} {merged outcome : Nat} {s : State} {s0 : State} (hs : Keeps s0 s) : Keeps s0
    (logArm a merged outcome s) := by
  unfold logArm
  try dsimp only
  repeat' (first
    | with_reducible exact hs
    | (simp only [↓keeps_mk]; with_reducible refine KeepsL.of ?_)
    | split)

theorem declareNoAck_keeps {a : Arm} {s : State} {s0 : State} (hs : Keeps s0 s) : Keeps s0 (declareNoAck a s) := by
  unfold declareNoAck
  try dsimp only
  repeat' (first
    | with_reducible exact hs
    | with_reducible exact Keeps.refl _
    | with_reducible apply State.decideChange_keeps
    | with_reducible apply Keeps.foldl
    | (simp only [↓keeps_mk]; with_reducible refine KeepsL.of ?_)
    | intro _
    | split)

theorem sendStatus_keeps {a : Arm} {s : State} {s0 : State} (hs : Keeps s0 s) : Keeps s0 (sendStatus a s) := by
  unfold sendStatus
  try dsimp only
  repeat' (first
    | with_reducible exact hs
    | with_reducible exact Keeps.refl _
    | with_reducible apply State.sendCtlAll_keeps
    | with_reducible apply State.onArm_keeps
    | with_reducible apply declareNoAck_keeps
    | (simp only [↓keeps_mk]; with_reducible refine KeepsL.of ?_)
    | intro _)

theorem forwardArm_keeps {a : Arm} {fromBelay : Bool} {s : State} {s0 : State} (hs : Keeps s0 s) : Keeps s0
    (forwardArm a fromBelay s) := by
  unfold forwardArm
  try dsimp only
  repeat' (first
    | with_reducible exact hs
    | with_reducible apply State.sendCtlAll_keeps
    | with_reducible apply State.sendBelay_keeps
    | split)

theorem holdArm_keeps {a : Arm} {fromBelay : Bool} {s : State} {s0 : State} (hs : Keeps s0 s) : Keeps s0
    (holdArm a fromBelay s) := by
  unfold holdArm
  try dsimp only
  repeat' (first
    | with_reducible exact hs
    | with_reducible exact Keeps.refl _
    | with_reducible apply State.sendCtlAll_keeps
    | with_reducible apply sendStatus_keeps
    | with_reducible apply State.onArm_keeps
    | with_reducible apply forwardArm_keeps
    | (simp only [↓keeps_mk]; with_reducible refine KeepsL.of ?_)
    | intro _
    | split)

theorem dropSetup_keeps {a : Arm} {s : State} {s0 : State} (hs : Keeps s0 s) : Keeps s0 (dropSetup a s) := by
  unfold dropSetup
  try dsimp only
  repeat' (first
    | with_reducible exact hs
    | (simp only [↓keeps_mk]; with_reducible refine KeepsL.of ?_)
    | split)

theorem refuseArm_keeps {a : Arm} {s : State} {s0 : State} (hs : Keeps s0 s) : Keeps s0 (refuseArm a s) := by
  unfold refuseArm
  try dsimp only
  repeat' (first
    | with_reducible exact hs
    | with_reducible apply State.sendCtlAll_keeps
    | with_reducible apply dropSetup_keeps
    | with_reducible apply State.setBit_keeps
    | split)

theorem takeSchedSync_keeps {m : Bytes} {s : State} {s0 : State} (hs : Keeps s0 s) : Keeps s0
    (takeSchedSync m s) := by
  unfold takeSchedSync
  try dsimp only
  repeat' (first
    | with_reducible exact hs
    | (simp only [↓keeps_mk]; with_reducible refine KeepsL.of ?_)
    | split)

theorem execArm_keeps {lane : Nat} {msg : Bytes} {s : State} : KeepsR s (execArm lane msg s) := by
  unfold execArm
  try dsimp only
  repeat' (first
    | with_reducible exact Keeps.refl _
    | with_reducible apply whenClocked_keeps
    | with_reducible apply KeepsR.next
    | with_reducible apply refuseArm_keeps
    | with_reducible apply holdArm_keeps
    | with_reducible apply State.taken_keeps
    | with_reducible apply takeSchedSync_keeps
    | (simp only [↓keeps_mk]; with_reducible refine KeepsL.of ?_)
    | intro _
    | split)

theorem execSchedSync_keeps {lane : Nat} {msg : Bytes} {s : State} : KeepsR s (execSchedSync lane msg s) := by
  unfold execSchedSync
  try dsimp only
  repeat' (first
    | with_reducible exact Keeps.refl _
    | with_reducible apply whenClocked_keeps
    | with_reducible apply KeepsR.next
    | with_reducible apply State.taken_keeps
    | with_reducible apply takeSchedSync_keeps
    | intro _)

theorem originate_keeps {kind : Nat} {aon : Bool} {epochT : Nat} {arg : BitVec 128} {ctx : Nat} {gen : BitVec 16}
    {arg2 : BitVec 32} {mbx : Option Nat} {s s0 : State} (hs : Keeps s0 s) :
    Keeps s0 (originate kind aon epochT arg ctx gen arg2 mbx s).2 := by
  unfold originate
  dsimp only
  apply holdArm_keeps
  simp only [↓keeps_mk]
  exact KeepsL.of hs

theorem execArmAck_keeps {lane : Nat} {msg : Bytes} {view : List (Nat × Nat)} {s : State} : KeepsR s
    (execArmAck lane msg view s) := by
  unfold execArmAck
  try dsimp only
  repeat' (first
    | with_reducible exact Keeps.refl _
    | with_reducible apply onTray_keeps
    | with_reducible apply sendStatus_keeps
    | with_reducible apply State.taken_keeps
    | with_reducible apply State.onArm_keeps
    | (simp only [↓keeps_mk]; with_reducible refine KeepsL.of ?_)
    | intro _
    | split)

theorem execArmLevelDeadline_keeps {id : BitVec 64} {s : State} : KeepsR s (execArmLevelDeadline id s) := by
  unfold execArmLevelDeadline
  try dsimp only
  repeat' (first
    | with_reducible exact Keeps.refl _
    | with_reducible apply onTray_keeps
    | with_reducible apply sendStatus_keeps
    | (simp only [↓keeps_mk]; with_reducible refine KeepsL.of ?_)
    | intro _
    | split)

theorem execBelayViewSend_keeps {id : BitVec 64} {s : State} : KeepsR s (execBelayViewSend id s) := by
  unfold execBelayViewSend
  try dsimp only
  repeat' (first
    | with_reducible exact Keeps.refl _
    | with_reducible apply onTray_keeps
    | with_reducible apply State.sendBelay_keeps
    | (simp only [↓keeps_mk]; with_reducible refine KeepsL.of ?_)
    | intro _
    | split)

theorem sendDown_keeps {a : Arm} {d : Bool} {s : State} {s0 : State} (hs : Keeps s0 s) : Keeps s0
    (sendDown a d s) := by
  unfold sendDown
  try dsimp only
  repeat' (first
    | with_reducible exact hs
    | with_reducible exact Keeps.refl _
    | with_reducible apply State.sendCtlAll_keeps
    | with_reducible apply State.onArm_keeps
    | (simp only [↓keeps_mk]; with_reducible refine KeepsL.of ?_)
    | intro _
    | split)

theorem decide__keeps {a : Arm} {s : State} {s0 : State} (hs : Keeps s0 s) : Keeps s0 (decide_ a s) := by
  unfold decide_
  try dsimp only
  repeat' (first
    | with_reducible exact hs
    | with_reducible exact Keeps.refl _
    | with_reducible apply State.onArm_keeps
    | with_reducible apply declareNoAck_keeps
    | (simp only [↓keeps_mk]; with_reducible refine KeepsL.of ?_)
    | intro _)

theorem execArmAckDeadline_keeps {id : BitVec 64} {s : State} : KeepsR s (execArmAckDeadline id s) := by
  unfold execArmAckDeadline
  try dsimp only
  repeat' (first
    | with_reducible exact Keeps.refl _
    | with_reducible apply onTray_keeps
    | with_reducible apply sendDown_keeps
    | with_reducible apply decide__keeps
    | with_reducible apply State.sendBelay_keeps
    | (simp only [↓keeps_mk]; with_reducible refine KeepsL.of ?_)
    | intro _
    | split)

theorem execDecisionEcho_keeps {lane : Nat} {msg : Bytes} {s : State} : KeepsR s (execDecisionEcho lane msg s) := by
  unfold execDecisionEcho
  try dsimp only
  repeat' (first
    | with_reducible exact Keeps.refl _
    | with_reducible apply onTray_keeps
    | with_reducible apply sendDown_keeps
    | with_reducible apply State.taken_keeps
    | with_reducible apply State.onArm_keeps
    | (simp only [↓keeps_mk]; with_reducible refine KeepsL.of ?_)
    | intro _
    | split)

theorem execSideBDecide_keeps {id : BitVec 64} {s : State} : KeepsR s (execSideBDecide id s) := by
  unfold execSideBDecide
  try dsimp only
  repeat' (first
    | with_reducible exact Keeps.refl _
    | with_reducible apply onTray_keeps
    | with_reducible apply sendDown_keeps
    | with_reducible apply decide__keeps
    | (simp only [↓keeps_mk]; with_reducible refine KeepsL.of ?_)
    | intro _
    | split)

theorem countArmLate_keeps {s : State} {s0 : State} (hs : Keeps s0 s) : Keeps s0 (countArmLate s) := by
  unfold countArmLate
  try dsimp only
  repeat' (first
    | with_reducible exact hs
    | with_reducible apply State.errCount_keeps
    | (simp only [↓keeps_mk]; with_reducible refine KeepsL.of ?_)
    | split)

theorem takeDecision_keeps {lane : Nat} {confirm : Bool} {msg : Bytes} {s : State} {s0 : State} (hs : Keeps s0 s)
    : Keeps s0 (takeDecision lane confirm msg s) := by
  unfold takeDecision
  try dsimp only
  repeat' (first
    | with_reducible exact hs
    | with_reducible exact Keeps.refl _
    | with_reducible apply sendDown_keeps
    | with_reducible apply State.onArm_keeps
    | with_reducible apply countArmLate_keeps
    | with_reducible apply State.sendBelay_keeps
    | with_reducible apply State.sendCtl_keeps
    | (simp only [↓keeps_mk]; with_reducible refine KeepsL.of ?_)
    | intro _
    | split)

theorem execConfirm_keeps {lane : Nat} {msg : Bytes} {s : State} : KeepsR s (execConfirm lane msg s) := by
  unfold execConfirm
  try dsimp only
  repeat' (first
    | with_reducible exact Keeps.refl _
    | with_reducible apply whenClocked_keeps
    | with_reducible apply KeepsR.next
    | with_reducible apply State.taken_keeps
    | with_reducible apply takeDecision_keeps
    | intro _)

theorem execCancel_keeps {lane : Nat} {msg : Bytes} {s : State} : KeepsR s (execCancel lane msg s) := by
  unfold execCancel
  try dsimp only
  repeat' (first
    | with_reducible exact Keeps.refl _
    | with_reducible apply whenClocked_keeps
    | with_reducible apply KeepsR.next
    | with_reducible apply State.taken_keeps
    | with_reducible apply takeDecision_keeps
    | intro _)

theorem repeatDecisions_keeps {s : State} {s0 : State} (hs : Keeps s0 s) : Keeps s0 (repeatDecisions s) := by
  unfold repeatDecisions
  try dsimp only
  repeat' (first
    | with_reducible exact hs
    | with_reducible exact Keeps.refl _
    | with_reducible apply sendDown_keeps
    | with_reducible apply Keeps.foldl
    | (simp only [↓keeps_mk]; with_reducible refine KeepsL.of ?_)
    | intro _
    | split)

theorem armsAlone_keeps {s : State} {s0 : State} (hs : Keeps s0 s) : Keeps s0 (armsAlone s) := by
  unfold armsAlone
  try dsimp only
  repeat' (first
    | with_reducible exact hs
    | with_reducible exact Keeps.refl _
    | with_reducible apply sendDown_keeps
    | with_reducible apply Keeps.foldl
    | (simp only [↓keeps_mk]; with_reducible refine KeepsL.of ?_)
    | intro _
    | split)

theorem unarmStop_keeps {a : Arm} {s : State} {s0 : State} (hs : Keeps s0 s) : Keeps s0 (unarmStop a s) := by
  unfold unarmStop
  try dsimp only
  repeat' (first
    | with_reducible exact hs
    | (simp only [↓keeps_mk]; with_reducible refine KeepsL.of ?_)
    | split)

theorem execArmDecideBy_keeps {id : BitVec 64} {s : State} : KeepsR s (execArmDecideBy id s) := by
  unfold execArmDecideBy
  try dsimp only
  repeat' (first
    | with_reducible exact Keeps.refl _
    | with_reducible apply KeepsR.next
    | with_reducible apply logArm_keeps
    | with_reducible apply dropSetup_keeps
    | with_reducible apply State.onArm_keeps
    | with_reducible apply State.setBit_keeps
    | with_reducible apply State.errCount_keeps
    | with_reducible apply State.dropArm_keeps
    | with_reducible apply unarmStop_keeps
    | (simp only [↓keeps_mk]; with_reducible refine KeepsL.of ?_)
    | intro _
    | split)

theorem applyEpochSet_keeps {a : Arm} {k : Nat} {t : Ticks} {s : State} {s0 : State} (hs : Keeps s0 s) : Keeps s0
    (applyEpochSet a k t s) :=
  hs.trans ⟨rfl, rfl, rfl, rfl⟩

theorem applyPlanSet_keeps {a : Arm} {k : Nat} {s : State} {s0 : State} (hs : Keeps s0 s) : Keeps s0
    (applyPlanSet a k s) :=
  hs.trans ⟨rfl, rfl, rfl, rfl⟩

theorem applyArm_keeps {a : Arm} {k : Nat} {t : Ticks} {s : State} {s0 : State} (hs : Keeps s0 s) : Keeps s0
    (applyArm a k t s) := by
  unfold applyArm
  try dsimp only
  repeat' (first
    | with_reducible exact hs
    | with_reducible apply applyEpochSet_keeps
    | with_reducible apply logArm_keeps
    | with_reducible apply applyPlanSet_keeps
    | with_reducible apply ctxEnd_keeps
    | with_reducible apply State.dropArm_keeps
    | with_reducible apply ctxStart_keeps
    | (simp only [↓keeps_mk]; with_reducible refine KeepsL.of ?_)
    | split)

theorem applyArms_keeps {k : Nat} {t : Ticks} {s : State} {s0 : State} (hs : Keeps s0 s) : Keeps s0
    (applyArms k t s) := by
  unfold applyArms
  try dsimp only
  repeat' (first
    | with_reducible exact hs
    | with_reducible exact Keeps.refl _
    | with_reducible apply applyArm_keeps
    | with_reducible apply Keeps.foldl
    | intro _
    | split)

theorem execSlotPhaseWindow_keeps {s : State} : KeepsR s (execSlotPhaseWindow s) := by
  unfold execSlotPhaseWindow
  try dsimp only
  repeat' (first
    | with_reducible exact Keeps.refl _
    | with_reducible apply onTray_keeps
    | with_reducible apply originate_keeps
    | (simp only [↓keeps_mk]; with_reducible refine KeepsL.of ?_)
    | intro _
    | split)

theorem State.onTable_keeps {s : State} {id : Nat} {f : Table → Table} {s0 : State} (hs : Keeps s0 s) : Keeps s0
    (State.onTable s id f) :=
  hs.trans ⟨rfl, rfl, rfl, rfl⟩

theorem State.onJob_keeps {s : State} {model row ks : Nat} {f : ScoreJob → ScoreJob} {s0 : State} (hs : Keeps s0 s)
    : Keeps s0 (State.onJob s model row ks f) :=
  hs.trans ⟨rfl, rfl, rfl, rfl⟩

theorem refreshVerdicts_keeps {ctx k : Nat} {s : State} {s0 : State} (hs : Keeps s0 s) : Keeps s0
    (refreshVerdicts ctx k s) := by
  unfold refreshVerdicts
  try dsimp only
  repeat' (first
    | with_reducible exact hs
    | with_reducible exact Keeps.refl _
    | with_reducible apply State.onSheaf_keeps
    | (simp only [↓keeps_mk]; with_reducible refine KeepsL.of ?_)
    | intro _
    | split)

theorem setHot_keeps {k : Nat} {s : State} {s0 : State} (hs : Keeps s0 s) : Keeps s0 (setHot k s) := by
  unfold setHot
  try dsimp only
  repeat' (first
    | with_reducible exact hs
    | with_reducible exact Keeps.refl _
    | (simp only [↓keeps_mk]; with_reducible refine KeepsL.of ?_)
    | intro _
    | split)

theorem putPlacement_keeps {p : PlaceInForce} {k : Nat} {s : State} {s0 : State} (hs : Keeps s0 s) : Keeps s0
    (putPlacement p k s) := by
  unfold putPlacement
  try dsimp only
  repeat' (first
    | with_reducible exact hs
    | with_reducible exact Keeps.refl _
    | with_reducible apply setHot_keeps
    | (simp only [↓keeps_mk]; with_reducible refine KeepsL.of ?_)
    | intro _)

theorem State.noteDecode_keeps {s : State} {k slot : Nat} {s0 : State} (hs : Keeps s0 s) : Keeps s0
    (State.noteDecode s k slot) := by
  unfold State.noteDecode
  try dsimp only
  repeat' (first
    | with_reducible exact hs
    | with_reducible apply decFail_keeps
    | (simp only [↓keeps_mk]; with_reducible refine KeepsL.of ?_)
    | split)

theorem State.onHot_keeps {s : State} {t r : Nat} {f : HotRow → HotRow} {s0 : State} (hs : Keeps s0 s) : Keeps s0
    (State.onHot s t r f) := by
  unfold State.onHot
  try dsimp only
  repeat' (first
    | with_reducible exact hs
    | with_reducible exact Keeps.refl _
    | (simp only [↓keeps_mk]; with_reducible refine KeepsL.of ?_)
    | intro _)

theorem forward_keeps {t r : Nat} {v : RowVer} {s : State} {s0 : State} (hs : Keeps s0 s) : Keeps s0
    (forward t r v s) := by
  unfold forward
  try dsimp only
  repeat' (first
    | with_reducible exact hs
    | with_reducible exact Keeps.refl _
    | with_reducible apply State.onHot_keeps
    | with_reducible apply State.setBit_keeps
    | intro _
    | split)

theorem resumeForwards_keeps {t r : Nat} {s : State} {s0 : State} (hs : Keeps s0 s) : Keeps s0
    (resumeForwards t r s) := by
  unfold resumeForwards
  try dsimp only
  repeat' (first
    | with_reducible exact hs
    | with_reducible exact Keeps.refl _
    | with_reducible apply State.onHot_keeps
    | intro _)

theorem observeRow_keeps {t : Table} {r : Row} {s : State} {s0 : State} (hs : Keeps s0 s) : Keeps s0
    (observeRow t r s) := by
  unfold observeRow
  try dsimp only
  repeat' (first
    | with_reducible exact hs
    | with_reducible exact Keeps.refl _
    | with_reducible apply State.onSheaf_keeps
    | (simp only [↓keeps_mk]; with_reducible refine KeepsL.of ?_)
    | intro _
    | split)

theorem storeRow_keeps {t : Table} {r : Row} {s : State} {s0 : State} (hs : Keeps s0 s) : Keeps s0
    (storeRow t r s) := by
  unfold storeRow
  try dsimp only
  repeat' (first
    | with_reducible exact hs
    | with_reducible exact Keeps.refl _
    | with_reducible apply State.onTable_keeps
    | (simp only [↓keeps_mk]; with_reducible refine KeepsL.of ?_)
    | intro _)

theorem poisonLine_keeps {l : HbmLine} {s : State} {s0 : State} (hs : Keeps s0 s) : Keeps s0 (poisonLine l s) := by
  unfold poisonLine
  try dsimp only
  repeat' (first
    | with_reducible exact hs
    | with_reducible exact Keeps.refl _
    | with_reducible apply startRecovery_keeps
    | with_reducible apply State.setBit_keeps
    | with_reducible apply State.onTable_keeps
    | (simp only [↓keeps_mk]; with_reducible refine KeepsL.of ?_)
    | intro _
    | split)

theorem hbmRead_keeps {l : HbmLine} {errs : Nat} {s : State} {s0 : State} (hs : Keeps s0 s) : Keeps s0
    (hbmRead l errs s) := by
  unfold hbmRead
  try dsimp only
  repeat' (first
    | with_reducible exact hs
    | with_reducible apply noteHbm_keeps
    | with_reducible apply queuePpr_keeps
    | with_reducible apply State.setBit_keeps
    | with_reducible apply State.errCount_keeps
    | with_reducible apply poisonLine_keeps
    | with_reducible apply State.errBit_keeps
    | (simp only [↓keeps_mk]; with_reducible refine KeepsL.of ?_)
    | split)

theorem writeRow_keeps {t : Table} {r r' : Row} {k : Nat} {s : State} {s0 : State} (hs : Keeps s0 s) : Keeps s0
    (writeRow t r r' k s) := by
  unfold writeRow
  try dsimp only
  repeat' (first
    | with_reducible exact hs
    | with_reducible exact Keeps.refl _
    | with_reducible apply storeRow_keeps
    | with_reducible apply observeRow_keeps
    | with_reducible apply State.xfer_keeps
    | with_reducible apply State.errCount_keeps
    | with_reducible apply forward_keeps
    | with_reducible apply noteTail_keeps
    | with_reducible apply State.noteDecode_keeps
    | with_reducible apply Keeps.elim
    | intro _
    | split)

theorem thresherUpdate_keeps {cls table row k : Nat} {x : RowStep} {s : State} {s0 : State} (hs : Keeps s0 s)
    : Keeps s0 (thresherUpdate cls table row k x s) := by
  unfold thresherUpdate
  try dsimp only
  repeat' (first
    | with_reducible exact hs
    | with_reducible exact Keeps.refl _
    | with_reducible apply refreshVerdicts_keeps
    | with_reducible apply unitCheck_keeps
    | with_reducible apply hbmRead_keeps
    | with_reducible apply writeRow_keeps
    | with_reducible apply Keeps.foldl
    | (simp only [↓keeps_mk]; with_reducible refine KeepsL.of ?_)
    | intro _
    | split)

theorem execSlotLate_keeps {s : State} : KeepsR s (execSlotLate s) := by
  unfold execSlotLate
  try dsimp only
  repeat' (first
    | with_reducible exact Keeps.refl _
    | with_reducible apply onTray_keeps
    | with_reducible apply State.setBit_keeps
    | (simp only [↓keeps_mk]; with_reducible refine KeepsL.of ?_)
    | intro _
    | split)

theorem repeatCopy_keeps {s : State} {s0 : State} (hs : Keeps s0 s) : Keeps s0 (repeatCopy s) := by
  unfold repeatCopy
  try dsimp only
  repeat' (first
    | with_reducible exact hs
    | with_reducible apply State.setBit_keeps)

theorem execRowCopy_keeps {table row : Nat} {s : State} : KeepsR s (execRowCopy table row s) := by
  unfold execRowCopy
  try dsimp only
  repeat' (first
    | with_reducible exact Keeps.refl _
    | with_reducible apply onTray_keeps
    | with_reducible apply State.xfer_keeps
    | with_reducible apply repeatCopy_keeps
    | (simp only [↓keeps_mk]; with_reducible refine KeepsL.of ?_)
    | intro _
    | split)

theorem decimate_keeps {t : Ticks} {s : State} {s0 : State} (hs : Keeps s0 s) : Keeps s0 (decimate t s) := by
  unfold decimate
  try dsimp only
  repeat' (first
    | with_reducible exact hs
    | with_reducible exact Keeps.refl _
    | with_reducible apply State.xfer_keeps
    | with_reducible apply Keeps.foldl
    | (simp only [↓keeps_mk]; with_reducible refine KeepsL.of ?_)
    | intro _
    | split)

theorem reinstall_keeps {table row : Nat} {v : RowVer} {s : State} {s0 : State} (hs : Keeps s0 s) : Keeps s0
    (reinstall table row v s) :=
  hs.trans ⟨rfl, rfl, rfl, rfl⟩

theorem takeTwinRow_keeps {t : Table} {r : Row} {w : TwinRow} {s : State} {s0 : State} (hs : Keeps s0 s) : Keeps s0
    (takeTwinRow t r w s) := by
  unfold takeTwinRow
  try dsimp only
  repeat' (first
    | with_reducible exact hs
    | with_reducible exact Keeps.refl _
    | with_reducible apply refreshVerdicts_keeps
    | with_reducible apply observeRow_keeps
    | with_reducible apply reinstall_keeps
    | with_reducible apply State.onTable_keeps
    | with_reducible apply Keeps.foldl
    | (simp only [↓keeps_mk]; with_reducible refine KeepsL.of ?_)
    | intro _
    | split)

theorem execRowRepair_keeps {table row : Nat} {twinRow : Option TwinRow} {s : State} : KeepsR s
    (execRowRepair table row twinRow s) := by
  unfold execRowRepair
  try dsimp only
  repeat' (first
    | with_reducible exact Keeps.refl _
    | with_reducible apply onTray_keeps
    | with_reducible apply State.xfer_keeps
    | with_reducible apply reinstall_keeps
    | with_reducible apply noteCkpt_keeps
    | with_reducible apply takeTwinRow_keeps
    | with_reducible apply State.onTable_keeps
    | with_reducible apply Keeps.foldl
    | (simp only [↓keeps_mk]; with_reducible refine KeepsL.of ?_)
    | intro _
    | split)

theorem execPatrolScrub_keeps {l : HbmLine} {errs : Nat} {s : State} : KeepsR s (execPatrolScrub l errs s) := by
  unfold execPatrolScrub
  try dsimp only
  repeat' (first
    | with_reducible exact Keeps.refl _
    | with_reducible apply onTray_keeps
    | with_reducible apply State.xfer_keeps
    | with_reducible apply hbmRead_keeps
    | intro _
    | split)

theorem execThresherUpdate_keeps {table row epoch : Nat} {x : RowStep} {s : State} :
    KeepsR s (execThresherUpdate table row epoch x s) :=
  onTray_keeps (byUnit_keeps (Keeps.refl s) fun u => thresherUpdate_keeps (Keeps.refl u))

theorem execLeafFeatureUpdate_keeps {table row epoch : Nat} {check : CheckOutcome} {s : State} : KeepsR s
    (execLeafFeatureUpdate table row epoch check s) := by
  unfold execLeafFeatureUpdate
  try dsimp only
  repeat' (first
    | with_reducible exact Keeps.refl _
    | with_reducible apply onLeaf_keeps
    | with_reducible apply thresherUpdate_keeps
    | with_reducible apply byUnit_keeps
    | (simp only [↓keeps_mk]; with_reducible refine KeepsL.of ?_)
    | intro _
    | split)

theorem appendBlock_keeps {slot k : Nat} {b : Bytes} {s : State} {s0 : State} (hs : Keeps s0 s) : Keeps s0
    (appendBlock slot k b s) := by
  unfold appendBlock
  try dsimp only
  repeat' (first
    | with_reducible exact hs
    | with_reducible exact Keeps.refl _
    | with_reducible apply State.stripe_keeps
    | (simp only [↓keeps_mk]; with_reducible refine KeepsL.of ?_)
    | intro _
    | split)

theorem execRawRingLog_keeps {slot epoch : Nat} {check : CheckOutcome} {s : State} : KeepsR s
    (execRawRingLog slot epoch check s) := by
  unfold execRawRingLog
  try dsimp only
  repeat' (first
    | with_reducible exact Keeps.refl _
    | with_reducible apply onTray_keeps
    | with_reducible apply unitCheck_keeps
    | with_reducible apply State.stripe_keeps
    | with_reducible apply appendBlock_keeps
    | with_reducible apply byUnit_keeps
    | (simp only [↓keeps_mk]; with_reducible refine KeepsL.of ?_)
    | intro _
    | split)

theorem execRawCopyPath_keeps {slot epoch : Nat} {s : State} : KeepsR s (execRawCopyPath slot epoch s) := by
  unfold execRawCopyPath
  try dsimp only
  repeat' (first
    | with_reducible exact Keeps.refl _
    | with_reducible apply onTray_keeps
    | with_reducible apply State.setBit_keeps
    | with_reducible apply appendBlock_keeps
    | (simp only [↓keeps_mk]; with_reducible refine KeepsL.of ?_)
    | intro _
    | split)

theorem State.ckptXfers_keeps {s : State} {tabs : List (Table × List Row)} {len : Nat} {s0 : State} (hs
    : Keeps s0 s) : Keeps s0 (State.ckptXfers s tabs len) := by
  unfold State.ckptXfers
  try dsimp only
  repeat' (first
    | with_reducible exact hs
    | with_reducible exact Keeps.refl _
    | with_reducible apply State.xfer_keeps
    | with_reducible apply State.stripe_keeps
    | with_reducible apply Keeps.foldl
    | intro _
    | split)

theorem execCheckpointWrite_keeps {s : State} : KeepsR s (execCheckpointWrite s) := by
  unfold execCheckpointWrite
  try dsimp only
  repeat' (first
    | with_reducible exact Keeps.refl _
    | with_reducible apply onTray_keeps
    | with_reducible apply State.ckptXfers_keeps
    | with_reducible apply State.issue_keeps
    | with_reducible apply State.setBit_keeps
    | (simp only [↓keeps_mk]; with_reducible refine KeepsL.of ?_)
    | intro _
    | split)

theorem ckptDue_keeps {k : Nat} {s : State} {s0 : State} (hs : Keeps s0 s) : Keeps s0 (ckptDue k s) := by
  unfold ckptDue
  try dsimp only
  repeat' (first
    | with_reducible exact hs
    | with_reducible apply State.setBit_keeps
    | (simp only [↓keeps_mk]; with_reducible refine KeepsL.of ?_)
    | split)

theorem genDiscard_keeps {ctx : Nat} {s : State} {s0 : State} (hs : Keeps s0 s) : Keeps s0 (genDiscard ctx s) := by
  unfold genDiscard
  try dsimp only
  repeat' (first
    | with_reducible exact hs
    | with_reducible exact Keeps.refl _
    | with_reducible apply State.errCount_keeps
    | with_reducible apply State.onCtx_keeps
    | (simp only [↓keeps_mk]; with_reducible refine KeepsL.of ?_)
    | intro _)

theorem captureMessage_keeps {ctx : Nat} {msg : Bytes} {s : State} {s0 : State} (hs : Keeps s0 s) : Keeps s0
    (captureMessage ctx msg s) := by
  unfold captureMessage
  try dsimp only
  repeat' (first
    | with_reducible exact hs
    | with_reducible exact Keeps.refl _
    | with_reducible apply State.issue_keeps
    | (simp only [↓keeps_mk]; with_reducible refine KeepsL.of ?_)
    | intro _
    | split)

theorem takeCapture_keeps {kinds : List Nat} {msg : Bytes} {s : State} {s0 : State} (hs : Keeps s0 s) : Keeps s0
    (takeCapture kinds msg s) := by
  unfold takeCapture
  try dsimp only
  repeat' (first
    | with_reducible exact hs
    | with_reducible apply genDiscard_keeps
    | with_reducible apply captureMessage_keeps
    | split)

theorem execIntervalRecord_keeps {lane ctx : Nat} {msg : Bytes} {s : State} : KeepsR s
    (execIntervalRecord lane ctx msg s) := by
  unfold execIntervalRecord
  try dsimp only
  repeat' (first
    | with_reducible exact Keeps.refl _
    | with_reducible apply onTray_keeps
    | with_reducible apply genDiscard_keeps
    | with_reducible apply State.taken_keeps
    | with_reducible apply captureMessage_keeps
    | intro _
    | split)

theorem execCaptureMessage_keeps {lane : Nat} {msg : Bytes} {s : State} : KeepsR s
    (execCaptureMessage lane msg s) := by
  unfold execCaptureMessage
  try dsimp only
  repeat' (first
    | with_reducible exact Keeps.refl _
    | with_reducible apply onTray_keeps
    | with_reducible apply takeCapture_keeps
    | with_reducible apply State.taken_keeps
    | intro _)

end Sys2Proof.Machine
end

