-- ==== Sys2Proof/Laws/KeepsPorts.lean ====
section
/-!
SUPPORT. What each operation and command keeps: registers, the fabric port, the steward, scoring, grants and the loop.
-/

namespace Sys2Proof.Machine

theorem State.onMbx_keeps {s : State} {n : Nat} {f : Mbx → Mbx} {s0 : State} (hs : Keeps s0 s) : Keeps s0
    (State.onMbx s n f) :=
  hs.trans ⟨rfl, rfl, rfl, rfl⟩

theorem latchWide_keeps {p : Path} {start n v : Nat} {s : State} {s0 : State} (hs : Keeps s0 s) : Keeps s0
    (latchWide p start n v s) := by
  unfold latchWide
  try dsimp only
  repeat' (first
    | with_reducible exact hs
    | with_reducible exact Keeps.refl _
    | with_reducible apply start_keeps
    | with_reducible apply setLatches_keeps
    | intro _)

theorem clearRC_keeps {a : Nat} {s : State} {s0 : State} (hs : Keeps s0 s) : Keeps s0 (clearRC a s) := by
  unfold clearRC
  try dsimp only
  repeat' (first
    | with_reducible exact hs
    | with_reducible exact Keeps.refl _
    | (simp only [↓keeps_mk]; with_reducible refine KeepsL.of ?_)
    | intro _
    | split)

theorem readReg_keeps {p : Path} {a : Nat} {s s0 : State} (hs : Keeps s0 s) : Keeps s0 (readReg p a s).2 := by
  unfold readReg
  repeat' (first
    | with_reducible exact hs
    | with_reducible apply latchWide_keeps
    | with_reducible apply clearRC_keeps
    | split)

theorem readRegs_keeps {p : Path} {n a : Nat} {s s0 : State} (hs : Keeps s0 s) : Keeps s0 (readRegs p n a s).2 := by
  induction n generalizing a s with
  | zero => exact hs
  | succ n ih => exact ih (readReg_keeps hs)

theorem hostWrite_keeps {a : Nat} {v : Word} {s : State} {s0 : State} (hs : Keeps s0 s) : Keeps s0
    (hostWrite a v s) := by
  unfold hostWrite
  try dsimp only
  repeat' (first
    | with_reducible exact hs
    | (simp only [↓keeps_mk]; with_reducible refine KeepsL.of ?_)
    | split)

theorem sbAnswer_keeps {err : Bool} {s : State} {s0 : State} (hs : Keeps s0 s) : Keeps s0 (sbAnswer err s) :=
  hs.trans ⟨rfl, rfl, rfl, rfl⟩

theorem execSidebandAccess_keeps {op : SbOp} {addr : Nat} {v : Word} {s : State} : KeepsR s
    (execSidebandAccess op addr v s) := by
  unfold execSidebandAccess
  try dsimp only
  repeat' (first
    | with_reducible exact Keeps.refl _
    | with_reducible apply onLeafEver_keeps
    | with_reducible apply onLeafEver_keeps
    | with_reducible apply readReg_keeps
    | with_reducible apply sbAnswer_keeps
    | with_reducible apply hostWrite_keeps
    | (simp only [↓keeps_mk]; with_reducible refine KeepsL.of ?_)
    | intro _
    | split)

theorem execRegisterWrite_keeps {p : Path} {addr : Nat} {v : Word} {s : State} : KeepsR s
    (execRegisterWrite p addr v s) := by
  unfold execRegisterWrite
  try dsimp only
  repeat' (first
    | with_reducible exact Keeps.refl _
    | with_reducible apply KeepsR.next
    | with_reducible apply hostWrite_keeps
    | split)

theorem readOn_keeps {p : Path} {addr : Nat} {s : State} {s0 : State} (hs : Keeps s0 s) : Keeps s0
    (readOn p addr s) := by
  unfold readOn
  try dsimp only
  repeat' (first
    | with_reducible exact hs
    | with_reducible apply readReg_keeps
    | with_reducible apply State.emit_keeps
    | split)

theorem execLowestWordRead_keeps {p : Path} {addr : Nat} {s : State} : KeepsR s (execLowestWordRead p addr s) := by
  unfold execLowestWordRead
  try dsimp only
  repeat' (first
    | with_reducible exact Keeps.refl _
    | with_reducible apply KeepsR.next
    | with_reducible apply readOn_keeps)

theorem execEvrOptRead_keeps {p : Path} {s : State} : KeepsR s (execEvrOptRead p s) := by
  unfold execEvrOptRead
  try dsimp only
  repeat' (first
    | with_reducible exact Keeps.refl _
    | with_reducible apply onTray_keeps
    | with_reducible apply readOn_keeps)

theorem execWinTransientCntRead_keeps {p : Path} {s : State} : KeepsR s (execWinTransientCntRead p s) := by
  unfold execWinTransientCntRead
  try dsimp only
  repeat' (first
    | with_reducible exact Keeps.refl _
    | with_reducible apply KeepsR.next
    | with_reducible apply readOn_keeps)

theorem execErrCntRead_keeps {p : Path} {i : Nat} {s : State} : KeepsR s (execErrCntRead p i s) := by
  unfold execErrCntRead
  try dsimp only
  repeat' (first
    | with_reducible exact Keeps.refl _
    | with_reducible apply onTray_keeps
    | with_reducible apply readOn_keeps)

theorem putBytes_keepsW {a : Nat} {b : Bytes} {s s0 : State} (hs : KeepsW s0 s) : KeepsW s0 (putBytes a b s) :=
  hs.trans ⟨rfl, rfl, fun i => ⟨wf_putBytes a b s i.1, i.2⟩⟩

theorem State.onTally_keeps {s : State} {a : Nat} {f : Tally → Tally} {s0 : State} (hs : Keeps s0 s) : Keeps s0
    (State.onTally s a f) :=
  hs.trans ⟨rfl, rfl, rfl, rfl⟩

theorem writeBack_keepsW {t : Tally} {s : State} {s0 : State} (hs : KeepsW s0 s) : KeepsW s0 (writeBack t s) := by
  unfold writeBack
  try dsimp only
  repeat' (first
    | with_reducible exact hs
    | with_reducible exact KeepsW.refl _
    | with_reducible apply putBytes_keepsW
    | with_reducible refine KeepsW.step ?_ (State.xfer_keeps (Keeps.refl _)))

theorem flushTallies_keepsW {s : State} {s0 : State} (hs : KeepsW s0 s) : KeepsW s0 (flushTallies s) := by
  unfold flushTallies
  try dsimp only
  repeat' (first
    | with_reducible exact hs
    | with_reducible exact KeepsW.refl _
    | with_reducible apply writeBack_keepsW
    | with_reducible apply KeepsW.foldl
    | intro _)

theorem tallyOp_keepsW {t : Tally} {op : FabOp} {s : State} {s0 : State} (hs : KeepsW s0 s) : KeepsW s0
    (tallyOp t op s) := by
  unfold tallyOp
  try dsimp only
  repeat' (first
    | with_reducible exact hs
    | with_reducible exact KeepsW.refl _
    | with_reducible apply writeBack_keepsW
    | with_reducible apply flushTallies_keepsW
    | with_reducible refine KeepsW.step ?_ (State.onTally_keeps (Keeps.refl _))
    | with_reducible refine KeepsW.step ?_ (State.emit_keeps (Keeps.refl _))
    | (simp only [↓keepsW_mk]; with_reducible refine KeepsWL.of ?_)
    | intro _
    | split)

theorem logStore_keepsW {x : StoreSeen} {s s0 : State} (hs : KeepsW s0 s) : KeepsW s0 (logStore x s) := by
  have h (a : Nat) (e : Bytes) : KeepsW s0 ((putBytes a e s).xfer .p (s.channelOf a) 1) :=
    KeepsW.step (putBytes_keepsW hs) (State.xfer_keeps (Keeps.refl _))
  unfold logStore
  dsimp only
  generalize le 8 x.line ++ le 2 x.src.toNat ++ zeros 2 ++ le 4 x.seq = e
  split
  · simp only [↓keepsW_mk]
    exact KeepsWL.of (KeepsW.step (h _ e) (State.errCount_keeps (Keeps.refl _)))
  · simp only [↓keepsW_mk]
    exact KeepsWL.of (h _ e)

theorem noteStore_keepsW {line : Nat} {src : BitVec 16} {s : State} {s0 : State} (hs : KeepsW s0 s) : KeepsW s0
    (noteStore line src s) := by
  unfold noteStore
  try dsimp only
  repeat' (first
    | with_reducible exact hs
    | with_reducible exact KeepsW.refl _
    | with_reducible apply logStore_keepsW
    | with_reducible apply KeepsW.foldl
    | (simp only [↓keepsW_mk]; with_reducible refine KeepsWL.of ?_)
    | intro _
    | split)

theorem plainOp_keepsW {src : BitVec 16} {a : Nat} {op : FabOp} {s : State} {s0 : State} (hs : KeepsW s0 s)
    : KeepsW s0 (plainOp src a op s) := by
  unfold plainOp
  try dsimp only
  repeat' (first
    | with_reducible exact hs
    | with_reducible exact KeepsW.refl _
    | with_reducible apply flushTallies_keepsW
    | with_reducible apply putBytes_keepsW
    | with_reducible apply noteStore_keepsW
    | with_reducible refine KeepsW.step ?_ (State.emit_keeps (Keeps.refl _))
    | (simp only [↓keepsW_mk]; with_reducible refine KeepsWL.of ?_)
    | split)

theorem fabFlag_keeps {i : Nat} {s : State} {s0 : State} (hs : Keeps s0 s) : Keeps s0 (fabFlag i s) := by
  unfold fabFlag
  try dsimp only
  repeat' (first
    | with_reducible exact hs
    | with_reducible apply State.setBit_keeps)

theorem readWindow_keeps {src : FabSource} {off : Nat} {s : State} {s0 : State} (hs : Keeps s0 s) : Keeps s0
    (readWindow src off s) := by
  unfold readWindow
  try dsimp only
  repeat' (first
    | with_reducible exact hs
    | with_reducible exact Keeps.refl _
    | with_reducible apply readRegs_keeps
    | with_reducible apply fabFlag_keeps
    | with_reducible apply State.emit_keeps
    | intro _
    | split)

theorem writeWindow_keeps {src : FabSource} {off : Nat} {line : Bytes} {s : State} {s0 : State} (hs : Keeps s0 s)
    : Keeps s0 (writeWindow src off line s) := by
  unfold writeWindow
  try dsimp only
  repeat' (first
    | with_reducible exact hs
    | with_reducible apply fabFlag_keeps
    | with_reducible apply hostWrite_keeps
    | split)

theorem postedByFabric_keeps {off : Nat} {op : FabOp} {s : State} {s0 : State} (hs : Keeps s0 s) : Keeps s0
    (postedByFabric off op s) := by
  unfold postedByFabric
  try dsimp only
  repeat' (first
    | with_reducible exact hs
    | (simp only [↓keeps_mk]; with_reducible refine KeepsL.of ?_)
    | split)

theorem ownWindow_keepsW {src : FabSource} {n off : Nat} {op : FabOp} {s : State} {s0 : State} (hs : KeepsW s0 s)
    : KeepsW s0 (ownWindow src n off op s) := by
  unfold ownWindow
  try dsimp only
  repeat' (first
    | with_reducible exact hs
    | with_reducible exact KeepsW.refl _
    | with_reducible apply plainOp_keepsW
    | with_reducible refine KeepsW.step ?_ (postedByFabric_keeps (Keeps.refl _))
    | with_reducible refine KeepsW.step ?_ (State.setBit_keeps (Keeps.refl _))
    | with_reducible refine KeepsW.step ?_ (State.emit_keeps (Keeps.refl _))
    | (simp only [↓keepsW_mk]; with_reducible refine KeepsWL.of ?_)
    | split)

theorem combine_keepsW {src : FabSource} {f : State → State} {s s0 : State} (hs : KeepsW s0 s)
    (hf : ∀ u, KeepsW u (f u)) : KeepsW s0 (combine src f s) := by
  unfold combine
  refine byUnit_keepsW hs fun u => KeepsW.step ?_ (unitCheck_keeps (Keeps.refl _))
  split
  · exact KeepsW.refl u
  · exact hf u

theorem hbmOp_keepsW {src : FabSource} {a : Nat} {op : FabOp} {s s0 : State} (hs : KeepsW s0 s) :
    KeepsW s0 (hbmOp src a op s) := by
  unfold hbmOp
  split
  · exact KeepsW.step hs (State.emit_keeps (fabFlag_keeps (Keeps.refl _)))
  · split
    · exact KeepsW.step hs (State.emit_keeps (Keeps.refl _))
    · split
      · exact combine_keepsW hs fun u => tallyOp_keepsW (KeepsW.refl u)
      · exact plainOp_keepsW hs

theorem windowOp_keepsW {src : FabSource} {off : Nat} {op : FabOp} {s : State} {s0 : State} (hs : KeepsW s0 s)
    : KeepsW s0 (windowOp src off op s) := by
  unfold windowOp
  try dsimp only
  repeat' (first
    | with_reducible exact hs
    | with_reducible exact KeepsW.refl _
    | with_reducible apply hbmOp_keepsW
    | with_reducible apply ownWindow_keepsW
    | with_reducible refine KeepsW.step ?_ (readWindow_keeps (Keeps.refl _))
    | with_reducible refine KeepsW.step ?_ (writeWindow_keeps (Keeps.refl _))
    | with_reducible refine KeepsW.step ?_ (fabFlag_keeps (Keeps.refl _))
    | with_reducible refine KeepsW.step ?_ (State.emit_keeps (Keeps.refl _))
    | (simp only [↓keepsW_mk]; with_reducible refine KeepsWL.of ?_)
    | split)

theorem fabricOp_keepsW {src : FabSource} {op : FabOp} {s : State} {s0 : State} (hs : KeepsW s0 s) : KeepsW s0
    (fabricOp src op s) := by
  unfold fabricOp
  try dsimp only
  repeat' (first
    | with_reducible exact hs
    | with_reducible exact KeepsW.refl _
    | with_reducible apply windowOp_keepsW
    | with_reducible refine KeepsW.step ?_ (State.emit_keeps (Keeps.refl _))
    | (simp only [↓keepsW_mk]; with_reducible refine KeepsWL.of ?_)
    | split)

theorem execFabricStore_keepsW {src : FabSource} {op : FabOp} {s : State} : KeepsRW s (execFabricStore src op s) := by
  unfold execFabricStore
  try dsimp only
  repeat' (first
    | with_reducible exact KeepsW.refl _
    | with_reducible apply onTray_keepsW
    | with_reducible apply fabricOp_keepsW)

theorem execFabricFadd_keepsW {src : FabSource} {addr : Nat} {v : BitVec 64} {s : State} : KeepsRW s
    (execFabricFadd src addr v s) := by
  unfold execFabricFadd
  try dsimp only
  repeat' (first
    | with_reducible exact KeepsW.refl _
    | with_reducible apply onTray_keepsW
    | with_reducible apply fabricOp_keepsW)

theorem execTallyOperation_keepsW {src : FabSource} {op : FabOp} {s : State} : KeepsRW s
    (execTallyOperation src op s) := by
  unfold execTallyOperation
  try dsimp only
  repeat' (first
    | with_reducible exact KeepsW.refl _
    | with_reducible apply onTray_keepsW
    | with_reducible apply fabricOp_keepsW)

theorem execTallyWriteback_keepsW {line : Nat} {s : State} : KeepsRW s (execTallyWriteback line s) := by
  unfold execTallyWriteback
  try dsimp only
  repeat' (first
    | with_reducible exact KeepsW.refl _
    | with_reducible apply onTray_keepsW
    | with_reducible apply writeBack_keepsW
    | (simp only [↓keepsW_mk]; with_reducible refine KeepsWL.of ?_)
    | intro _
    | split)

theorem execRegWindowRead_keeps {src : FabSource} {offset : Nat} {s : State} : KeepsR s
    (execRegWindowRead src offset s) := by
  unfold execRegWindowRead
  try dsimp only
  repeat' (first
    | with_reducible exact Keeps.refl _
    | with_reducible apply onTray_keeps
    | with_reducible apply readWindow_keeps
    | intro _)

theorem execRegWindowWrite_keeps {src : FabSource} {offset : Nat} {line : Bytes} {s : State} : KeepsR s
    (execRegWindowWrite src offset line s) := by
  unfold execRegWindowWrite
  try dsimp only
  repeat' (first
    | with_reducible exact Keeps.refl _
    | with_reducible apply onTray_keeps
    | with_reducible apply writeWindow_keeps
    | intro _)

theorem drawLines_keeps {n : Nat} {s : State} {s0 : State} (hs : Keeps s0 s) : Keeps s0 (drawLines n s) := by
  unfold drawLines
  try dsimp only
  repeat' (first
    | with_reducible exact hs
    | (simp only [↓keeps_mk]; with_reducible refine KeepsL.of ?_)
    | split)

theorem State.storeOut_keeps {s : State} {ctx addr : Nat} {lines : Bytes} {flag : BitVec 64} {s0 : State} (hs
    : Keeps s0 s) : Keeps s0 (State.storeOut s ctx addr lines flag) := by
  unfold State.storeOut
  try dsimp only
  repeat' (first
    | with_reducible exact hs
    | with_reducible exact Keeps.refl _
    | with_reducible apply State.issue_keeps
    | with_reducible apply State.emits_keeps
    | with_reducible apply drawLines_keeps
    | intro _
    | split)

theorem writeEntry_keeps {n : Nat} {c : Cmd} {s : State} {s0 : State} (hs : Keeps s0 s) : Keeps s0
    (writeEntry n c s) := by
  unfold writeEntry
  try dsimp only
  repeat' (first
    | with_reducible exact hs
    | with_reducible exact Keeps.refl _
    | with_reducible apply State.storeOut_keeps
    | with_reducible apply State.onMbx_keeps
    | with_reducible apply State.emit_keeps
    | (simp only [↓keeps_mk]; with_reducible refine KeepsL.of ?_)
    | intro _
    | split)

theorem finish_keeps {n : Nat} {c : Cmd} {status : Nat} {result : Bytes} {s : State} {s0 : State} (hs : Keeps s0 s)
    : Keeps s0 (finish n c status result s) := by
  unfold finish
  try dsimp only
  repeat' (first
    | with_reducible exact hs
    | with_reducible exact Keeps.refl _
    | with_reducible apply State.onMbx_keeps
    | with_reducible apply writeEntry_keeps
    | (simp only [↓keeps_mk]; with_reducible refine KeepsL.of ?_)
    | intro _)

theorem fail_keeps {n : Nat} {c : Cmd} {status : Nat} {s : State} {s0 : State} (hs : Keeps s0 s) : Keeps s0
    (fail n c status s) := by
  unfold fail
  try dsimp only
  repeat' (first
    | with_reducible exact hs
    | with_reducible apply finish_keeps)

theorem wait_keeps {n : Nat} {c : Cmd} {w : Wait} {s : State} {s0 : State} (hs : Keeps s0 s) : Keeps s0
    (wait n c w s) := by
  unfold wait
  try dsimp only
  repeat' (first
    | with_reducible exact hs
    | with_reducible exact Keeps.refl _
    | with_reducible apply State.onMbx_keeps
    | with_reducible apply writeEntry_keeps
    | (simp only [↓keeps_mk]; with_reducible refine KeepsL.of ?_)
    | intro _)

theorem progress_keeps {n : Nat} {c : Cmd} {s : State} {s0 : State} (hs : Keeps s0 s) : Keeps s0
    (progress n c s) := by
  unfold progress
  try dsimp only
  repeat' (first
    | with_reducible exact hs
    | with_reducible exact Keeps.refl _
    | with_reducible apply State.onMbx_keeps
    | with_reducible apply writeEntry_keeps
    | (simp only [↓keeps_mk]; with_reducible refine KeepsL.of ?_)
    | intro _)

theorem onRunning_keeps {n op : Nat} {f : Cmd → State → State} {s s0 : State} (hs : Keeps s0 s)
    (hf : ∀ c u, Keeps u (f c u)) : Keeps s0 (onRunning n op f s) := by
  unfold onRunning
  split
  · split
    · exact hs.trans (hf _ _)
    · exact hs
  · exact hs
theorem onRunning_keepsW {n op : Nat} {f : Cmd → State → State} {s s0 : State} (hs : KeepsW s0 s)
    (hf : ∀ c u, KeepsW u (f c u)) : KeepsW s0 (onRunning n op f s) := by
  unfold onRunning
  split
  · split
    · exact hs.trans (hf _ _)
    · exact hs
  · exact hs

theorem done_keeps {n : Nat} {c : Cmd} {result : Bytes} {s : State} {s0 : State} (hs : Keeps s0 s) : Keeps s0
    (done n c result s) := by
  unfold done
  try dsimp only
  repeat' (first
    | with_reducible exact hs
    | with_reducible apply finish_keeps)

theorem relay_keeps {n : Nat} {c : Cmd} {b : Nat} {image : Bytes} {s : State} {s0 : State} (hs : Keeps s0 s)
    : Keeps s0 (relay n c b image s) := by
  unfold relay
  try dsimp only
  repeat' (first
    | with_reducible exact hs
    | with_reducible apply State.sendMsg_keeps
    | (simp only [↓keeps_mk]; with_reducible refine KeepsL.of ?_)
    | split)

theorem relayFleet_keeps {n : Nat} {c : Cmd} {b : Nat} {s : State} {s0 : State} (hs : Keeps s0 s) : Keeps s0
    (relayFleet n c b s) := by
  unfold relayFleet
  try dsimp only
  repeat' (first
    | with_reducible exact hs
    | with_reducible apply State.sendMsgAll_keeps
    | split)

theorem queueBnd_keeps {b turn : Nat} {a : Bnd} {team : Bool} {s : State} {s0 : State} (hs : Keeps s0 s) : Keeps s0
    (queueBnd b turn a team s) :=
  hs.trans ⟨rfl, rfl, rfl, rfl⟩

theorem bndAt_keeps {b n : Nat} {c : Cmd} {short team : Bool} {a : Bnd} {image rest : Bytes} {s : State} {s0
    : State} (hs : Keeps s0 s) : Keeps s0 (bndAt b n c short team a image rest s) := by
  unfold bndAt
  try dsimp only
  repeat' (first
    | with_reducible exact hs
    | with_reducible apply relayFleet_keeps
    | with_reducible apply relay_keeps
    | with_reducible apply wait_keeps
    | with_reducible apply finish_keeps
    | with_reducible apply queueBnd_keeps
    | (simp only [↓keeps_mk]; with_reducible refine KeepsL.of ?_)
    | split)

theorem bndDone_keeps {n : Nat} {c : Cmd} {short team : Bool} {a : Bnd} {image rest : Bytes} {s : State} {s0
    : State} (hs : Keeps s0 s) : Keeps s0 (bndDone n c short team a image rest s) := by
  unfold bndDone
  try dsimp only
  repeat' (first
    | with_reducible exact hs
    | with_reducible apply bndAt_keeps)

theorem teamDone_keeps {n : Nat} {c : Cmd} {image rest : Bytes} {s : State} {s0 : State} (hs : Keeps s0 s)
    : Keeps s0 (teamDone n c image rest s) := by
  unfold teamDone
  try dsimp only
  repeat' (first
    | with_reducible exact hs
    | with_reducible apply relay_keeps
    | with_reducible apply wait_keeps
    | with_reducible apply finish_keeps
    | (simp only [↓keeps_mk]; with_reducible refine KeepsL.of ?_)
    | split)

theorem issueArm_keeps {n : Nat} {c : Cmd} {kind : Nat} {aon : Bool} {epochT : Nat} {arg : BitVec 128} {ctx : Nat}
    {gen : BitVec 16} {arg2 : BitVec 32} {setup : BitVec 64} {s : State} {s0 : State} (hs : Keeps s0 s) : Keeps s0
    (issueArm n c kind aon epochT arg ctx gen arg2 setup s) := by
  unfold issueArm
  try dsimp only
  repeat' (first
    | with_reducible exact hs
    | with_reducible apply originate_keeps
    | with_reducible apply wait_keeps
    | with_reducible apply finish_keeps
    | (simp only [↓keeps_mk]; with_reducible refine KeepsL.of ?_)
    | split)

theorem twoPhase_keeps {n : Nat} {c : Cmd} {kind : Nat} {aon : Bool} {epochT : Nat} {arg : BitVec 128} {ctx : Nat}
    {gen : BitVec 16} {arg2 : BitVec 32} {setup : BitVec 64} {s : State} {s0 : State} (hs : Keeps s0 s) : Keeps s0
    (twoPhase n c kind aon epochT arg ctx gen arg2 setup s) := by
  unfold twoPhase
  try dsimp only
  repeat' (first
    | with_reducible exact hs
    | with_reducible apply fail_keeps
    | with_reducible apply issueArm_keeps
    | split)

theorem setWaiting_keeps {n : Nat} {old : Cmd} {new : Option Cmd} {s : State} {s0 : State} (hs : Keeps s0 s)
    : Keeps s0 (setWaiting n old new s) := by
  unfold setWaiting
  try dsimp only
  repeat' (first
    | with_reducible exact hs
    | with_reducible exact Keeps.refl _
    | with_reducible apply State.onMbx_keeps
    | (simp only [↓keeps_mk]; with_reducible refine KeepsL.of ?_)
    | intro _
    | split)

theorem endWaiting_keeps {n : Nat} {c : Cmd} {state status : Nat} {s : State} {s0 : State} (hs : Keeps s0 s)
    : Keeps s0 (endWaiting n c state status s) := by
  unfold endWaiting
  try dsimp only
  repeat' (first
    | with_reducible exact hs
    | with_reducible apply setWaiting_keeps
    | with_reducible apply writeEntry_keeps
    | (simp only [↓keeps_mk]; with_reducible refine KeepsL.of ?_))

theorem armedProgress_keeps {n : Nat} {c : Cmd} {id : BitVec 64} {s : State} {s0 : State} (hs : Keeps s0 s)
    : Keeps s0 (armedProgress n c id s) := by
  unfold armedProgress
  try dsimp only
  repeat' (first
    | with_reducible exact hs
    | with_reducible apply setWaiting_keeps
    | with_reducible apply endWaiting_keeps
    | with_reducible apply wait_keeps
    | with_reducible apply writeEntry_keeps
    | (simp only [↓keeps_mk]; with_reducible refine KeepsL.of ?_)
    | split)

theorem waitProgress_keeps {n : Nat} {c : Cmd} {s : State} {s0 : State} (hs : Keeps s0 s) : Keeps s0
    (waitProgress n c s) := by
  unfold waitProgress
  try dsimp only
  repeat' (first
    | with_reducible exact hs
    | with_reducible exact Keeps.refl _
    | with_reducible apply endWaiting_keeps
    | with_reducible apply armedProgress_keeps
    | (simp only [↓keeps_mk]; with_reducible refine KeepsL.of ?_)
    | intro _
    | split)

theorem progressAll_keeps {n : Nat} {s : State} {s0 : State} (hs : Keeps s0 s) : Keeps s0 (progressAll n s) := by
  unfold progressAll
  try dsimp only
  repeat' (first
    | with_reducible exact hs
    | with_reducible exact Keeps.refl _
    | with_reducible apply waitProgress_keeps
    | with_reducible apply Keeps.foldl
    | (simp only [↓keeps_mk]; with_reducible refine KeepsL.of ?_)
    | intro _
    | split)

theorem mbxNoReturn_keeps {s : State} {s0 : State} (hs : Keeps s0 s) : Keeps s0 (mbxNoReturn s) := by
  unfold mbxNoReturn
  try dsimp only
  repeat' (first
    | with_reducible exact hs
    | with_reducible apply State.setBit_keeps)

theorem takeSlot_keeps {n : Nat} {m : Mbx} {b : Bytes} {s : State} {s0 : State} (hs : Keeps s0 s) : Keeps s0
    (takeSlot n m b s) := by
  unfold takeSlot
  try dsimp only
  repeat' (first
    | with_reducible exact hs
    | with_reducible exact Keeps.refl _
    | with_reducible apply mbxNoReturn_keeps
    | with_reducible apply State.setBit_keeps
    | with_reducible apply State.onMbx_keeps
    | with_reducible apply writeEntry_keeps
    | (simp only [↓keeps_mk]; with_reducible refine KeepsL.of ?_)
    | intro _
    | split)

theorem readSlot_keeps {n : Nat} {m : Mbx} {host : HostView} {s : State} {s0 : State} (hs : Keeps s0 s) : Keeps s0
    (readSlot n m host s) := by
  unfold readSlot
  try dsimp only
  repeat' (first
    | with_reducible exact hs
    | with_reducible apply takeSlot_keeps
    | with_reducible apply hostFaults_keeps
    | with_reducible apply drawLines_keeps
    | (simp only [↓keeps_mk]; with_reducible refine KeepsL.of ?_)
    | split)

theorem turnPass_keeps {n : Nat} {host : HostView} {s : State} {s0 : State} (hs : Keeps s0 s) : Keeps s0
    (turnPass n host s) := by
  unfold turnPass
  try dsimp only
  repeat' (first
    | with_reducible exact hs
    | with_reducible apply readSlot_keeps
    | (simp only [↓keeps_mk]; with_reducible refine KeepsL.of ?_)
    | split)

theorem turnPasses_keeps {n : Nat} {host : HostView} {k : Nat} {s s0 : State} (hs : Keeps s0 s) :
    Keeps s0 (turnPasses n host k s) := by
  induction k generalizing s with
  | zero => exact hs
  | succ k ih =>
    unfold turnPasses
    split
    · exact ih (turnPass_keeps hs)
    · exact turnPass_keeps hs

theorem execMailboxTurn_keeps {begins : Bool} {passes : Nat} {host : HostView} {s : State} : KeepsR s
    (execMailboxTurn begins passes host s) := by
  unfold execMailboxTurn
  try dsimp only
  repeat' (first
    | with_reducible exact Keeps.refl _
    | with_reducible apply KeepsR.next
    | with_reducible apply turnPasses_keeps
    | with_reducible apply progressAll_keeps
    | (simp only [↓keeps_mk]; with_reducible refine KeepsL.of ?_)
    | split)

theorem partialAll_keeps {n status : Nat} {s : State} {s0 : State} (hs : Keeps s0 s) : Keeps s0
    (partialAll n status s) := by
  unfold partialAll
  try dsimp only
  repeat' (first
    | with_reducible exact hs
    | with_reducible exact Keeps.refl _
    | with_reducible apply State.onMbx_keeps
    | with_reducible apply writeEntry_keeps
    | with_reducible apply Keeps.foldl
    | (simp only [↓keeps_mk]; with_reducible refine KeepsL.of ?_)
    | intro _
    | split)

theorem execMgmtDatagram_keepsW {source : NetSource} {payload : Bytes} {s : State} : KeepsRW s
    (execMgmtDatagram source payload s) := by
  unfold execMgmtDatagram
  try dsimp only
  repeat' (first
    | with_reducible exact KeepsW.refl _
    | with_reducible apply onTray_keepsW
    | with_reducible apply putBytes_keepsW
    | with_reducible refine KeepsW.step ?_ (State.setBit_keeps (Keeps.refl _))
    | (simp only [↓keepsW_mk]; with_reducible refine KeepsWL.of ?_)
    | intro _
    | split)

theorem execStatusPageWrite_keeps {s : State} : KeepsR s (execStatusPageWrite s) := by
  unfold execStatusPageWrite
  try dsimp only
  repeat' (first
    | with_reducible exact Keeps.refl _
    | with_reducible apply KeepsR.next
    | with_reducible apply State.storeOut_keeps
    | with_reducible apply Keeps.foldl
    | (simp only [↓keeps_mk]; with_reducible refine KeepsL.of ?_)
    | intro _
    | split)

theorem execHotRowInstall_keeps {table row : Nat} {s : State} : KeepsR s (execHotRowInstall table row s) := by
  unfold execHotRowInstall
  try dsimp only
  repeat' (first
    | with_reducible exact Keeps.refl _
    | with_reducible apply onTray_keeps
    | with_reducible apply State.xfer_keeps
    | with_reducible apply Keeps.elim
    | (simp only [↓keeps_mk]; with_reducible refine KeepsL.of ?_)
    | intro _
    | split)

theorem execDeepInstall_keeps {model row : Nat} {s : State} : KeepsR s (execDeepInstall model row s) := by
  unfold execDeepInstall
  try dsimp only
  repeat' (first
    | with_reducible exact Keeps.refl _
    | with_reducible apply onTray_keeps
    | with_reducible apply State.xfer_keeps
    | with_reducible apply repeatCopy_keeps
    | (simp only [↓keeps_mk]; with_reducible refine KeepsL.of ?_)
    | intro _
    | split)

theorem noteRead_keeps {model : Nat} {rd : LaneRead} {s : State} {s0 : State} (hs : Keeps s0 s) : Keeps s0
    (noteRead model rd s) := by
  unfold noteRead
  try dsimp only
  repeat' (first
    | with_reducible exact hs
    | with_reducible apply correctedRow_keeps
    | with_reducible apply State.countHealth_keeps
    | with_reducible apply hbmRead_keeps
    | with_reducible apply State.count_keeps
    | with_reducible apply State.setBit_keeps
    | with_reducible apply State.errCount_keeps
    | with_reducible apply State.errBit_keeps
    | (simp only [↓keeps_mk]; with_reducible refine KeepsL.of ?_)
    | split)

theorem stopJob_keeps {ctx model : Nat} {row : Option (Nat × Nat)} {k : Nat} {s : State} {s0 : State} (hs
    : Keeps s0 s) : Keeps s0 (stopJob ctx model row k s) := by
  unfold stopJob
  try dsimp only
  repeat' (first
    | with_reducible exact hs
    | with_reducible exact Keeps.refl _
    | with_reducible apply State.onCtx_keeps
    | (simp only [↓keeps_mk]; with_reducible refine KeepsL.of ?_)
    | intro _
    | split)

theorem putJob_keeps {j : ScoreJob} {s : State} {s0 : State} (hs : Keeps s0 s) : Keeps s0 (putJob j s) :=
  hs.trans ⟨rfl, rfl, rfl, rfl⟩

theorem afterRead_keeps {h : HeldModel} {j : ScoreJob} {line : Option Nat} {k : Nat} {s : State} {s0 : State} (hs
    : Keeps s0 s) : Keeps s0 (afterRead h j line k s) := by
  unfold afterRead
  try dsimp only
  repeat' (first
    | with_reducible exact hs
    | with_reducible apply stopJob_keeps
    | split)

theorem readTrees_keeps {m : Model} {t : Table} {row : Nat} {ts : List Nat} {rd : LaneRead} {s : State} {s0 : State}
    (hs : Keeps s0 s) : Keeps s0 (readTrees m t row ts rd s) := by
  unfold readTrees
  try dsimp only
  repeat' (first
    | with_reducible exact hs
    | with_reducible apply State.xfer_keeps
    | with_reducible apply State.stripe_keeps
    | (simp only [↓keeps_mk]; with_reducible refine KeepsL.of ?_)
    | split)

theorem streamTrees_keeps {m : Model} {lane : Nat} {ts : List Nat} {s : State} {s0 : State} (hs : Keeps s0 s)
    : Keeps s0 (streamTrees m lane ts s) := by
  unfold streamTrees
  try dsimp only
  repeat' (first
    | with_reducible exact hs
    | with_reducible exact Keeps.refl _
    | (simp only [↓keeps_mk]; with_reducible refine KeepsL.of ?_)
    | intro _
    | split)

theorem slotStart_keeps {model row k : Nat} {check : CheckOutcome} {rd : LaneRead} {s s0 t : State} {j : ScoreJob}
    (hs : Keeps s0 s) (h : slotStart model row k check rd s = some (j, t)) : Keeps s0 t := by
  unfold slotStart at h
  dsimp only at h
  repeat' split at h
  all_goals cases h
  all_goals
    apply afterRead_keeps
    first
      | exact readTrees_keeps (noteRead_keeps hs)
      | exact State.setBit_keeps (readTrees_keeps (noteRead_keeps hs))

theorem deepSlice_keeps {model row k : Nat} {check : CheckOutcome} {rd : LaneRead} {s : State} {s0 : State} (hs
    : Keeps s0 s) : Keeps s0 (deepSlice model row k check rd s) := by
  unfold deepSlice
  try dsimp only
  repeat' (first
    | with_reducible exact hs
    | with_reducible exact Keeps.refl _
    | with_reducible apply streamTrees_keeps
    | with_reducible apply State.onJob_keeps
    | with_reducible apply start_keeps
    | with_reducible apply noteRead_keeps
    | with_reducible apply afterRead_keeps
    | with_reducible apply readTrees_keeps
    | with_reducible apply putJob_keeps
    | with_reducible apply Keeps.foldl
    | (simp only [↓keeps_mk]; with_reducible refine KeepsL.of ?_)
    | intro _
    | split)

theorem execScoreStart_keeps {model row epoch : Nat} {check : CheckOutcome} {read : LaneRead} {s : State} :
    KeepsR s (execScoreStart model row epoch check read s) := by
  refine onTray_keeps (byUnit_keeps (Keeps.refl s) fun u => ?_)
  split
  · exact unitCheck_keeps (putJob_keeps (slotStart_keeps (Keeps.refl u) ‹_›))
  · split
    · exact unitCheck_keeps (deepSlice_keeps (Keeps.refl u))
    · exact Keeps.refl u

theorem countVerdict_keeps {j : ScoreJob} {b : Bytes} {s : State} {s0 : State} (hs : Keeps s0 s) : Keeps s0
    (countVerdict j b s) := by
  unfold countVerdict
  try dsimp only
  repeat' (first
    | with_reducible exact hs
    | with_reducible exact Keeps.refl _
    | with_reducible apply State.onSheaf_keeps
    | with_reducible apply Keeps.foldl
    | (simp only [↓keeps_mk]; with_reducible refine KeepsL.of ?_)
    | intro _
    | split)

theorem countFinished_keeps {ctx k : Nat} {s : State} {s0 : State} (hs : Keeps s0 s) : Keeps s0
    (countFinished ctx k s) := by
  unfold countFinished
  try dsimp only
  repeat' (first
    | with_reducible exact hs
    | with_reducible exact Keeps.refl _
    | with_reducible apply countVerdict_keeps
    | with_reducible apply Keeps.foldl
    | with_reducible apply Keeps.elim
    | intro _)

theorem refreshActions_keeps {b : Nat} {s : State} {s0 : State} (hs : Keeps s0 s) : Keeps s0
    (refreshActions b s) := by
  unfold refreshActions
  try dsimp only
  repeat' (first
    | with_reducible exact hs
    | with_reducible exact Keeps.refl _
    | (simp only [↓keeps_mk]; with_reducible refine KeepsL.of ?_)
    | intro _
    | split)

theorem discardJob_keeps {j : ScoreJob} {s : State} {s0 : State} (hs : Keeps s0 s) : Keeps s0 (discardJob j s) := by
  unfold discardJob
  try dsimp only
  repeat' (first
    | with_reducible exact hs
    | with_reducible exact Keeps.refl _
    | with_reducible apply genDiscard_keeps
    | with_reducible apply State.errCount_keeps
    | with_reducible apply State.onCtx_keeps
    | (simp only [↓keeps_mk]; with_reducible refine KeepsL.of ?_)
    | intro _
    | split)

theorem execScoreComplete_keeps {model row : Nat} {x : ScoreEnd} {s : State} : KeepsR s
    (execScoreComplete model row x s) := by
  unfold execScoreComplete
  try dsimp only
  repeat' (first
    | with_reducible exact Keeps.refl _
    | with_reducible apply onTray_keeps
    | with_reducible apply unitCheck_keeps
    | with_reducible apply discardJob_keeps
    | with_reducible apply countVerdict_keeps
    | with_reducible apply State.onJob_keeps
    | with_reducible apply resumeForwards_keeps
    | with_reducible apply refreshVerdicts_keeps
    | with_reducible apply byUnit_keeps
    | (simp only [↓keeps_mk]; with_reducible refine KeepsL.of ?_)
    | intro _
    | split)

theorem execWinLate_keeps {s : State} : KeepsR s (execWinLate s) := by
  unfold execWinLate
  try dsimp only
  repeat' (first
    | with_reducible exact Keeps.refl _
    | with_reducible apply KeepsR.next
    | with_reducible apply State.setBit_keeps
    | (simp only [↓keeps_mk]; with_reducible refine KeepsL.of ?_)
    | intro _
    | split)

theorem sendLeafVerdicts_keeps {ctx k : Nat} {s : State} {s0 : State} (hs : Keeps s0 s) : Keeps s0
    (sendLeafVerdicts ctx k s) := by
  unfold sendLeafVerdicts
  try dsimp only
  repeat' (first
    | with_reducible exact hs
    | with_reducible exact Keeps.refl _
    | with_reducible apply State.sendNumbered_keeps
    | with_reducible apply Keeps.foldl
    | (simp only [↓keeps_mk]; with_reducible refine KeepsL.of ?_)
    | intro _
    | split)

theorem keepLeafVerdict_keeps {j : ScoreJob} {b : Bytes} {s : State} {s0 : State} (hs : Keeps s0 s) : Keeps s0
    (keepLeafVerdict j b s) := by
  unfold keepLeafVerdict
  try dsimp only
  repeat' (first
    | with_reducible exact hs
    | with_reducible exact Keeps.refl _
    | (simp only [↓keeps_mk]; with_reducible refine KeepsL.of ?_)
    | intro _
    | split)

theorem execLeafModelScore_keeps {model row epoch : Nat} {check : CheckOutcome} {read : LaneRead} {s : State} :
    KeepsR s (execLeafModelScore model row epoch check read s) := by
  refine onLeaf_keeps (byUnit_keeps (Keeps.refl s) fun u => ?_)
  dsimp only
  repeat' (first
    | with_reducible exact Keeps.refl _
    | with_reducible apply sendLeafVerdicts_keeps
    | with_reducible apply keepLeafVerdict_keeps
    | with_reducible apply unitCheck_keeps
    | with_reducible apply putJob_keeps
    | with_reducible apply State.onTable_keeps
    | exact slotStart_keeps (Keeps.refl u) ‹_›
    | split)

theorem State.putDie_keeps {s : State} {x : Die} {s0 : State} (hs : Keeps s0 s) : Keeps s0 (State.putDie s x) :=
  hs.trans ⟨rfl, rfl, rfl, rfl⟩

theorem grantStep_keeps {k : Nat} {s : State} {s0 : State} (hs : Keeps s0 s) : Keeps s0 (grantStep k s) := by
  unfold grantStep
  try dsimp only
  repeat' (first
    | with_reducible exact hs
    | with_reducible exact Keeps.refl _
    | with_reducible apply State.sendCtlAll_keeps
    | with_reducible apply State.setBit_keeps
    | with_reducible apply State.putDie_keeps
    | with_reducible apply Keeps.foldl
    | (simp only [↓keeps_mk]; with_reducible refine KeepsL.of ?_)
    | intro _
    | split)

theorem execGrantStep_keeps {s : State} : KeepsR s (execGrantStep s) := by
  unfold execGrantStep
  try dsimp only
  repeat' (first
    | with_reducible exact Keeps.refl _
    | with_reducible apply onTray_keeps
    | with_reducible apply grantStep_keeps
    | with_reducible apply State.setBit_keeps
    | (simp only [↓keeps_mk]; with_reducible refine KeepsL.of ?_)
    | intro _
    | split)

theorem execGrantLate_keeps {s : State} : KeepsR s (execGrantLate s) := by
  unfold execGrantLate
  try dsimp only
  repeat' (first
    | with_reducible exact Keeps.refl _
    | with_reducible apply onTray_keeps
    | with_reducible apply State.setBit_keeps
    | (simp only [↓keeps_mk]; with_reducible refine KeepsL.of ?_)
    | intro _
    | split)

theorem sendSafeGrants_keeps {k : Nat} {s : State} {s0 : State} (hs : Keeps s0 s) : Keeps s0
    (sendSafeGrants k s) := by
  unfold sendSafeGrants
  try dsimp only
  repeat' (first
    | with_reducible exact hs
    | with_reducible exact Keeps.refl _
    | with_reducible apply State.sendCtlAll_keeps
    | intro _
    | split)

theorem leaveSafe_keeps {bHold : Nat} {s : State} {s0 : State} (hs : Keeps s0 s) : Keeps s0 (leaveSafe bHold s) := by
  unfold leaveSafe
  try dsimp only
  repeat' (first
    | with_reducible exact hs
    | with_reducible exact Keeps.refl _
    | (simp only [↓keeps_mk]; with_reducible refine KeepsL.of ?_)
    | intro _
    | split)

theorem takeGrant_keeps {live safe : Bool} {epoch : BitVec 32} {w : BitVec 16} {s : State} {s0 : State} (hs
    : Keeps s0 s) : Keeps s0 (takeGrant live safe epoch w s) :=
  hs.trans ⟨rfl, rfl, rfl, rfl⟩

theorem execGrant_keeps {lane : Nat} {msg : Bytes} {s : State} : KeepsR s (execGrant lane msg s) := by
  unfold execGrant
  try dsimp only
  repeat' (first
    | with_reducible exact Keeps.refl _
    | with_reducible apply onLeaf_keeps
    | with_reducible apply State.taken_keeps
    | with_reducible apply takeGrant_keeps
    | (simp only [↓keeps_mk]; with_reducible refine KeepsL.of ?_)
    | intro _
    | split)

theorem execGrantOffer_keeps {floor : BitVec 16} {s : State} : KeepsR s (execGrantOffer floor s) := by
  unfold execGrantOffer
  try dsimp only
  repeat' (first
    | with_reducible exact Keeps.refl _
    | with_reducible apply onLeaf_keeps
    | with_reducible apply State.countHealth_keeps
    | (simp only [↓keeps_mk]; with_reducible refine KeepsL.of ?_)
    | intro _
    | split)

theorem execPgAck_keeps {s : State} : KeepsR s (execPgAck s) := by
  unfold execPgAck
  try dsimp only
  repeat' (first
    | with_reducible exact Keeps.refl _
    | with_reducible apply onLeaf_keeps
    | (simp only [↓keeps_mk]; with_reducible refine KeepsL.of ?_)
    | intro _
    | split)

theorem execGrantNoAck_keeps {s : State} : KeepsR s (execGrantNoAck s) := by
  unfold execGrantNoAck
  try dsimp only
  repeat' (first
    | with_reducible exact Keeps.refl _
    | with_reducible apply onLeaf_keeps
    | with_reducible apply State.countHealth_keeps
    | with_reducible apply State.setBit_keeps
    | (simp only [↓keeps_mk]; with_reducible refine KeepsL.of ?_)
    | intro _
    | split)

theorem execGrantStale_keeps {s : State} : KeepsR s (execGrantStale s) := by
  unfold execGrantStale
  try dsimp only
  repeat' (first
    | with_reducible exact Keeps.refl _
    | with_reducible apply onLeaf_keeps
    | (simp only [↓keeps_mk]; with_reducible refine KeepsL.of ?_)
    | intro _
    | split)

theorem countGrantBoundary_keeps {s : State} {s0 : State} (hs : Keeps s0 s) : Keeps s0 (countGrantBoundary s) :=
  hs.trans ⟨rfl, rfl, rfl, rfl⟩

theorem State.putConv_keeps {s : State} {x : Conv} {s0 : State} (hs : Keeps s0 s) : Keeps s0 (State.putConv s x) :=
  hs.trans ⟨rfl, rfl, rfl, rfl⟩

theorem convFail_keeps {c : Nat} {s : State} {s0 : State} (hs : Keeps s0 s) : Keeps s0 (convFail c s) := by
  unfold convFail
  try dsimp only
  repeat' (first
    | with_reducible exact hs
    | with_reducible apply State.setBit_keeps
    | with_reducible apply State.putConv_keeps
    | (simp only [↓keeps_mk]; with_reducible refine KeepsL.of ?_))

theorem takeIout_keeps {l : List (Nat × PmbRead)} {s : State} {s0 : State} (hs : Keeps s0 s) : Keeps s0
    (takeIout l s) := by
  unfold takeIout
  try dsimp only
  repeat' (first
    | with_reducible exact hs
    | with_reducible exact Keeps.refl _
    | with_reducible apply convFail_keeps
    | with_reducible apply State.putConv_keeps
    | with_reducible apply Keeps.foldl
    | (simp only [↓keeps_mk]; with_reducible refine KeepsL.of ?_)
    | intro _
    | split)

theorem takeVin_keeps {l : List (Nat × PmbRead)} {s : State} {s0 : State} (hs : Keeps s0 s) : Keeps s0
    (takeVin l s) := by
  unfold takeVin
  try dsimp only
  repeat' (first
    | with_reducible exact hs
    | with_reducible exact Keeps.refl _
    | with_reducible apply convFail_keeps
    | with_reducible apply State.putConv_keeps
    | with_reducible apply Keeps.foldl
    | (simp only [↓keeps_mk]; with_reducible refine KeepsL.of ?_)
    | intro _
    | split)

theorem issueReads_keeps {i : LoopIn} {s : State} {s0 : State} (hs : Keeps s0 s) : Keeps s0 (issueReads i s) := by
  unfold issueReads
  try dsimp only
  repeat' (first
    | with_reducible exact hs
    | with_reducible apply takeIout_keeps
    | with_reducible apply takeVin_keeps
    | with_reducible apply State.emits_keeps)

theorem takeReadings_keeps {l : List (Nat × PmbRead)} {s : State} {s0 : State} (hs : Keeps s0 s) : Keeps s0
    (takeReadings l s) := by
  unfold takeReadings
  try dsimp only
  repeat' (first
    | with_reducible exact hs
    | with_reducible exact Keeps.refl _
    | with_reducible apply takeIout_keeps
    | intro _)

theorem countRead_keeps {tOut : Option Int} {s : State} {s0 : State} (hs : Keeps s0 s) : Keeps s0
    (countRead tOut s) := by
  unfold countRead
  try dsimp only
  repeat' (first
    | with_reducible exact hs
    | with_reducible apply State.setBit_keeps
    | (simp only [↓keeps_mk]; with_reducible refine KeepsL.of ?_)
    | split)

theorem loopStep_keeps {m v i : Nat} {lost : Bool} {tOut : Option Int} {s : State} {s0 : State} (hs : Keeps s0 s)
    : Keeps s0 (loopStep m v i lost tOut s) := by
  unfold loopStep
  try dsimp only
  repeat' (first
    | with_reducible exact hs
    | with_reducible apply countRead_keeps
    | (simp only [↓keeps_mk]; with_reducible refine KeepsL.of ?_)
    | split)

theorem nextSettings_keeps {s : State} {s0 : State} (hs : Keeps s0 s) : Keeps s0 (nextSettings s) := by
  unfold nextSettings
  try dsimp only
  repeat' (first
    | with_reducible exact hs
    | (simp only [↓keeps_mk]; with_reducible refine KeepsL.of ?_)
    | split)

theorem firstStep_keeps {s : State} {s0 : State} (hs : Keeps s0 s) : Keeps s0 (firstStep s) := by
  unfold firstStep
  try dsimp only
  repeat' (first
    | with_reducible exact hs
    | with_reducible apply leaveSafe_keeps
    | split)

theorem masterStep_keeps {m : Nat} {i : LoopIn} {s : State} {s0 : State} (hs : Keeps s0 s) : Keeps s0
    (masterStep m i s) := by
  unfold masterStep
  try dsimp only
  repeat' (first
    | with_reducible exact hs
    | with_reducible apply loopStep_keeps
    | with_reducible apply State.sendMsgAll_keeps
    | with_reducible apply issueReads_keeps
    | with_reducible apply firstStep_keeps
    | split)

theorem execLoopPeriod_keeps {i : LoopIn} {s : State} : KeepsR s (execLoopPeriod i s) := by
  unfold execLoopPeriod
  try dsimp only
  repeat' (first
    | with_reducible exact Keeps.refl _
    | with_reducible apply onTray_keeps
    | with_reducible apply loopStep_keeps
    | with_reducible apply State.metrics_keeps
    | with_reducible apply takeReadings_keeps
    | with_reducible apply masterStep_keeps
    | with_reducible apply nextSettings_keeps
    | with_reducible apply firstStep_keeps
    | (simp only [↓keeps_mk]; with_reducible refine KeepsL.of ?_)
    | intro _
    | split)

theorem applyLoop_keeps {k : Nat} {t : Ticks} {s : State} {s0 : State} (hs : Keeps s0 s) : Keeps s0
    (applyLoop k t s) := by
  unfold applyLoop
  try dsimp only
  repeat' (first
    | with_reducible exact hs
    | with_reducible exact Keeps.refl _
    | (simp only [↓keeps_mk]; with_reducible refine KeepsL.of ?_)
    | intro _
    | split)

theorem execLoopMasterTakeover_keeps {s : State} : KeepsR s (execLoopMasterTakeover s) := by
  unfold execLoopMasterTakeover
  try dsimp only
  repeat' (first
    | with_reducible exact Keeps.refl _
    | with_reducible apply onTray_keeps
    | (simp only [↓keeps_mk]; with_reducible refine KeepsL.of ?_)
    | intro _
    | split)

theorem execV42Stb_keeps {v i : BitVec 16} {s : State} : KeepsR s (execV42Stb v i s) := by
  unfold execV42Stb
  try dsimp only
  repeat' (first
    | with_reducible exact Keeps.refl _
    | with_reducible apply onTray_keeps
    | (simp only [↓keeps_mk]; with_reducible refine KeepsL.of ?_)
    | intro _)

theorem execBusSenseLost_keeps {s : State} : KeepsR s (execBusSenseLost s) := by
  unfold execBusSenseLost
  try dsimp only
  repeat' (first
    | with_reducible exact Keeps.refl _
    | with_reducible apply onTray_keeps
    | with_reducible apply State.setBit_keeps
    | intro _
    | split)

theorem execConverterLimitWrite_keeps {c : Nat} {acks : PmbWrite} {s : State} : KeepsR s
    (execConverterLimitWrite c acks s) := by
  unfold execConverterLimitWrite
  try dsimp only
  repeat' (first
    | with_reducible exact Keeps.refl _
    | with_reducible apply onTray_keeps
    | with_reducible apply convFail_keeps
    | with_reducible apply State.putConv_keeps
    | with_reducible apply State.emits_keeps
    | (simp only [↓keeps_mk]; with_reducible refine KeepsL.of ?_)
    | intro _
    | split)

theorem execSmbAlert_keeps {s : State} : KeepsR s (execSmbAlert s) := by
  unfold execSmbAlert
  try dsimp only
  repeat' (first
    | with_reducible exact Keeps.refl _
    | with_reducible apply onTray_keeps
    | (simp only [↓keeps_mk]; with_reducible refine KeepsL.of ?_)
    | intro _)

end Sys2Proof.Machine
end

