-- ==== Sys2Proof/Laws/KeepsCommands.lean ====
section
/-!
SUPPORT. What each operation and command keeps: mailbox commands and the recorder.
-/

namespace Sys2Proof.Machine

theorem checked_keeps {n : Nat} {c : Cmd} {e : Option Nat} {f : State → State} {s s0 : State} (hs : Keeps s0 s)
    (hf : ∀ u, Keeps u (f u)) : Keeps s0 (checked n c e f s) := by
  unfold checked
  split
  · exact fail_keeps hs
  · exact hs.trans (hf _)

theorem execMbxAttach_keeps {m : Nat} {s : State} : KeepsR s (execMbxAttach m s) := by
  unfold execMbxAttach
  try dsimp only
  repeat' (first
    | with_reducible exact Keeps.refl _
    | with_reducible apply onTray_keeps
    | with_reducible apply fail_keeps
    | with_reducible apply done_keeps
    | with_reducible apply mbxNoReturn_keeps
    | with_reducible apply onRunning_keeps
    | with_reducible apply State.onMbx_keeps
    | (simp only [↓keeps_mk]; with_reducible refine KeepsL.of ?_)
    | intro _
    | split)

theorem regWords_keeps {as : List Nat} {s s0 : State} (hs : Keeps s0 s) : Keeps s0 (regWords as s).2 := by
  have h : ∀ (as : List Nat) (x : Bytes × State), Keeps s0 x.2 → Keeps s0 (as.foldl (fun x a =>
      let (v, t) := readReg .regRead a x.2; (x.1 ++ le 4 v.toNat, t)) x).2 := by
    intro as
    induction as with
    | nil => exact fun _ h => h
    | cons a as ih => exact fun x h => ih _ (readReg_keeps h)
  exact h as _ hs

theorem execRegRead_keeps {m : Nat} {s : State} : KeepsR s (execRegRead m s) := by
  unfold execRegRead
  try dsimp only
  repeat' (first
    | with_reducible exact Keeps.refl _
    | with_reducible apply KeepsR.next
    | with_reducible apply fail_keeps
    | with_reducible apply done_keeps
    | with_reducible apply onRunning_keeps
    | with_reducible apply regWords_keeps
    | intro _
    | split)

theorem execEpochSet_keeps {m : Nat} {s : State} : KeepsR s (execEpochSet m s) := by
  unfold execEpochSet
  try dsimp only
  repeat' (first
    | with_reducible exact Keeps.refl _
    | with_reducible apply onTray_keeps
    | with_reducible apply fail_keeps
    | with_reducible apply twoPhase_keeps
    | with_reducible apply onRunning_keeps
    | intro _
    | split)

theorem execStopArm_keeps {m : Nat} {s : State} : KeepsR s (execStopArm m s) := by
  unfold execStopArm
  try dsimp only
  repeat' (first
    | with_reducible exact Keeps.refl _
    | with_reducible apply onTray_keeps
    | with_reducible apply fail_keeps
    | with_reducible apply twoPhase_keeps
    | with_reducible apply onRunning_keeps
    | (simp only [↓keeps_mk]; with_reducible refine KeepsL.of ?_)
    | intro _
    | split)

theorem execPlanSet_keeps {m : Nat} {s : State} : KeepsR s (execPlanSet m s) := by
  unfold execPlanSet
  try dsimp only
  repeat' (first
    | with_reducible exact Keeps.refl _
    | with_reducible apply onTray_keeps
    | with_reducible apply fail_keeps
    | with_reducible apply twoPhase_keeps
    | with_reducible apply onRunning_keeps
    | intro _
    | split)

theorem execPubAreaSet_keeps {m : Nat} {s : State} : KeepsR s (execPubAreaSet m s) := by
  unfold execPubAreaSet
  try dsimp only
  repeat' (first
    | with_reducible exact Keeps.refl _
    | with_reducible apply onTray_keeps
    | with_reducible apply checked_keeps
    | with_reducible apply bndDone_keeps
    | with_reducible apply onRunning_keeps
    | intro _)

theorem execCkptAreaSet_keeps {m : Nat} {s : State} : KeepsR s (execCkptAreaSet m s) := by
  unfold execCkptAreaSet
  try dsimp only
  repeat' (first
    | with_reducible exact Keeps.refl _
    | with_reducible apply onTray_keeps
    | with_reducible apply checked_keeps
    | with_reducible apply bndDone_keeps
    | with_reducible apply onRunning_keeps
    | intro _)

theorem execCaptAreaSet_keeps {m : Nat} {s : State} : KeepsR s (execCaptAreaSet m s) := by
  unfold execCaptAreaSet
  try dsimp only
  repeat' (first
    | with_reducible exact Keeps.refl _
    | with_reducible apply onTray_keeps
    | with_reducible apply checked_keeps
    | with_reducible apply bndDone_keeps
    | with_reducible apply onRunning_keeps
    | intro _)

theorem execTallySet_keeps {m : Nat} {s : State} : KeepsR s (execTallySet m s) := by
  unfold execTallySet
  try dsimp only
  repeat' (first
    | with_reducible exact Keeps.refl _
    | with_reducible apply onTray_keeps
    | with_reducible apply done_keeps
    | with_reducible apply checked_keeps
    | with_reducible apply onRunning_keeps
    | (simp only [↓keeps_mk]; with_reducible refine KeepsL.of ?_)
    | intro _)

theorem execTallyClear_keepsW {m : Nat} {s : State} : KeepsRW s (execTallyClear m s) := by
  apply onTray_keepsW
  refine onRunning_keepsW (KeepsW.refl s) fun c u => ?_
  have hf (st : Nat) : KeepsW u (fail m c st u) := (fail_keeps (Keeps.refl u)).toW
  dsimp only
  split
  · exact hf _
  · split
    · refine KeepsW.step ?_ (done_keeps (Keeps.refl _))
      simp only [↓keepsW_mk]
      exact KeepsWL.of (writeBack_keepsW (KeepsW.refl u))
    · exact hf _

theorem execTableSeed_keeps {m : Nat} {area : Option Ckpt} {s : State} : KeepsR s (execTableSeed m area s) := by
  unfold execTableSeed
  try dsimp only
  repeat' (first
    | with_reducible exact Keeps.refl _
    | with_reducible apply onTray_keeps
    | with_reducible apply fail_keeps
    | with_reducible apply onRunning_keeps
    | with_reducible apply bndAt_keeps
    | (simp only [↓keeps_mk]; with_reducible refine KeepsL.of ?_)
    | intro _
    | split)

theorem execTableDrop_keeps {m : Nat} {s : State} : KeepsR s (execTableDrop m s) := by
  unfold execTableDrop
  try dsimp only
  repeat' (first
    | with_reducible exact Keeps.refl _
    | with_reducible apply KeepsR.next
    | with_reducible apply checked_keeps
    | with_reducible apply bndDone_keeps
    | with_reducible apply onRunning_keeps
    | intro _)

theorem execModelDrop_keeps {m : Nat} {s : State} : KeepsR s (execModelDrop m s) := by
  unfold execModelDrop
  try dsimp only
  repeat' (first
    | with_reducible exact Keeps.refl _
    | with_reducible apply KeepsR.next
    | with_reducible apply checked_keeps
    | with_reducible apply bndDone_keeps
    | with_reducible apply onRunning_keeps
    | intro _)

theorem execGrantPolicySet_keeps {m : Nat} {s : State} : KeepsR s (execGrantPolicySet m s) := by
  unfold execGrantPolicySet
  try dsimp only
  repeat' (first
    | with_reducible exact Keeps.refl _
    | with_reducible apply onTray_keeps
    | with_reducible apply checked_keeps
    | with_reducible apply bndDone_keeps
    | with_reducible apply onRunning_keeps
    | intro _)

theorem setLoop_keeps {p : Bytes} {s : State} {s0 : State} (hs : Keeps s0 s) : Keeps s0 (setLoop p s) :=
  hs.trans ⟨rfl, rfl, rfl, rfl⟩

theorem execLoopSet_keeps {m : Nat} {s : State} : KeepsR s (execLoopSet m s) := by
  unfold execLoopSet
  try dsimp only
  repeat' (first
    | with_reducible exact Keeps.refl _
    | with_reducible apply onTray_keeps
    | with_reducible apply setLoop_keeps
    | with_reducible apply checked_keeps
    | with_reducible apply onRunning_keeps
    | with_reducible apply teamDone_keeps
    | intro _
    | split)

theorem armCtx_keeps {m : Nat} {c : Cmd} {kind : Nat} {aon flag : Bool} {setup : BitVec 64} {s : State} {s0 : State}
    (hs : Keeps s0 s) : Keeps s0 (armCtx m c kind aon flag setup s) := by
  unfold armCtx
  try dsimp only
  repeat' (first
    | with_reducible exact hs
    | with_reducible exact Keeps.refl _
    | with_reducible apply issueArm_keeps
    | with_reducible apply State.onMbx_keeps
    | (simp only [↓keeps_mk]; with_reducible refine KeepsL.of ?_)
    | intro _
    | split)

theorem execCtxOpen_keeps {m : Nat} {s : State} : KeepsR s (execCtxOpen m s) := by
  unfold execCtxOpen
  try dsimp only
  repeat' (first
    | with_reducible exact Keeps.refl _
    | with_reducible apply onTray_keeps
    | with_reducible apply takeSetup_keeps
    | with_reducible apply checked_keeps
    | with_reducible apply onRunning_keeps
    | with_reducible apply relay_keeps
    | with_reducible apply armCtx_keeps
    | intro _
    | split)

theorem execCtxClose_keeps {m : Nat} {s : State} : KeepsR s (execCtxClose m s) := by
  unfold execCtxClose
  try dsimp only
  repeat' (first
    | with_reducible exact Keeps.refl _
    | with_reducible apply onTray_keeps
    | with_reducible apply takeSetup_keeps
    | with_reducible apply checked_keeps
    | with_reducible apply onRunning_keeps
    | with_reducible apply relay_keeps
    | with_reducible apply armCtx_keeps
    | intro _
    | split)

theorem execRecordRead_keeps {m : Nat} {s : State} : KeepsR s (execRecordRead m s) := by
  unfold execRecordRead
  try dsimp only
  repeat' (first
    | with_reducible exact Keeps.refl _
    | with_reducible apply onTray_keeps
    | with_reducible apply fail_keeps
    | with_reducible apply done_keeps
    | with_reducible apply State.issue_keeps
    | with_reducible apply onRunning_keeps
    | (simp only [↓keeps_mk]; with_reducible refine KeepsL.of ?_)
    | intro _
    | split)

theorem execRecordPeriodSet_keeps {m : Nat} {s : State} : KeepsR s (execRecordPeriodSet m s) := by
  unfold execRecordPeriodSet
  try dsimp only
  repeat' (first
    | with_reducible exact Keeps.refl _
    | with_reducible apply onTray_keeps
    | with_reducible apply done_keeps
    | with_reducible apply checked_keeps
    | with_reducible apply onRunning_keeps
    | (simp only [↓keeps_mk]; with_reducible refine KeepsL.of ?_)
    | intro _)

theorem execBlockReset_keeps {m : Nat} {s : State} : KeepsR s (execBlockReset m s) := by
  unfold execBlockReset
  try dsimp only
  repeat' (first
    | with_reducible exact Keeps.refl _
    | with_reducible apply KeepsR.next
    | with_reducible apply fail_keeps
    | with_reducible apply done_keeps
    | with_reducible apply onRunning_keeps
    | (simp only [↓keeps_mk]; with_reducible refine KeepsL.of ?_)
    | intro _
    | split)

theorem evrBit_keeps {i : Nat} {s : State} {s0 : State} (hs : Keeps s0 s) : Keeps s0 (evrBit i s) := by
  unfold evrBit
  try dsimp only
  repeat' (first
    | with_reducible exact hs
    | with_reducible apply State.setBit_keeps)

theorem writeClock_keeps {kind pcyc optime : Nat} {flash : FlashAnswer} {s : State} {s0 : State} (hs : Keeps s0 s)
    : Keeps s0 (writeClock kind pcyc optime flash s) := by
  unfold writeClock
  try dsimp only
  repeat' (first
    | with_reducible exact hs
    | with_reducible exact Keeps.refl _
    | with_reducible apply evrBit_keeps
    | with_reducible apply State.emits_keeps
    | (simp only [↓keeps_mk]; with_reducible refine KeepsL.of ?_)
    | intro _
    | split)

theorem execClockTick_keeps {flash : FlashAnswer} {s : State} : KeepsR s (execClockTick flash s) := by
  unfold execClockTick
  try dsimp only
  repeat' (first
    | with_reducible exact Keeps.refl _
    | with_reducible apply onTray_keeps
    | with_reducible apply done_keeps
    | with_reducible apply writeClock_keeps
    | intro _
    | split)

theorem newPeriod_keeps {start : Bool} {s : State} {s0 : State} (hs : Keeps s0 s) : Keeps s0 (newPeriod start s) :=
  hs.trans ⟨rfl, rfl, rfl, rfl⟩

theorem execRecorderPeriodEnd_keeps {s : State} : KeepsR s (execRecorderPeriodEnd s) := by
  unfold execRecorderPeriodEnd
  try dsimp only
  repeat' (first
    | with_reducible exact Keeps.refl _
    | with_reducible apply onTray_keeps
    | with_reducible apply newPeriod_keeps
    | with_reducible apply evrBit_keeps
    | (simp only [↓keeps_mk]; with_reducible refine KeepsL.of ?_)
    | intro _
    | split)

theorem execRecordFlashWrite_keeps {flash : FlashAnswer} {s : State} : KeepsR s (execRecordFlashWrite flash s) := by
  unfold execRecordFlashWrite
  try dsimp only
  repeat' (first
    | with_reducible exact Keeps.refl _
    | with_reducible apply onTray_keeps
    | with_reducible apply evrBit_keeps
    | with_reducible apply State.emit_keeps
    | with_reducible apply State.emits_keeps
    | (simp only [↓keeps_mk]; with_reducible refine KeepsL.of ?_)
    | intro _
    | split)

theorem execOptimeSecond_keeps {s : State} : KeepsR s (execOptimeSecond s) := by
  unfold execOptimeSecond
  try dsimp only
  repeat' (first
    | with_reducible exact Keeps.refl _
    | with_reducible apply onTray_keeps
    | with_reducible apply State.metrics_keeps
    | (simp only [↓keeps_mk]; with_reducible refine KeepsL.of ?_)
    | intro _
    | split)

theorem raiseUnary_keeps {a n : Nat} {s : State} {s0 : State} (hs : Keeps s0 s) : Keeps s0 (raiseUnary a n s) := by
  unfold raiseUnary
  try dsimp only
  repeat' (first
    | with_reducible exact hs
    | with_reducible exact Keeps.refl _
    | with_reducible apply State.otpProgram_keeps
    | with_reducible apply Keeps.foldl
    | intro _
    | split)

theorem execSvnRaise_keeps {s : State} : KeepsR s (execSvnRaise s) := by
  unfold execSvnRaise
  try dsimp only
  repeat' (first
    | with_reducible exact Keeps.refl _
    | with_reducible apply KeepsR.next
    | with_reducible apply raiseUnary_keeps
    | (simp only [↓keeps_mk]; with_reducible refine KeepsL.of ?_)
    | split)

theorem execHourMark_keeps {s : State} : KeepsR s (execHourMark s) := by
  unfold execHourMark
  try dsimp only
  repeat' (first
    | with_reducible exact Keeps.refl _
    | with_reducible apply onLeaf_keeps
    | with_reducible apply raiseUnary_keeps
    | intro _
    | split)

theorem startIdentity_keeps {fw : Bytes} {s : State} {s0 : State} (hs : Keeps s0 s) : Keeps s0
    (startIdentity fw s) := by
  unfold startIdentity
  try dsimp only
  repeat' (first
    | with_reducible exact hs
    | (simp only [↓keeps_mk]; with_reducible refine KeepsL.of ?_))

theorem execAuth_keeps {lane : Nat} {a : AuthIn} {s : State} : KeepsR s (execAuth lane a s) := by
  unfold execAuth
  try dsimp only
  repeat' (first
    | with_reducible exact Keeps.refl _
    | with_reducible apply KeepsR.next
    | with_reducible apply State.emit_keeps
    | with_reducible apply State.onLane_keeps
    | (simp only [↓keeps_mk]; with_reducible refine KeepsL.of ?_)
    | intro _
    | split)

theorem writeDest_keeps {addr : Nat} {b : Bytes} {s : State} {s0 : State} (hs : Keeps s0 s) : Keeps s0
    (writeDest addr b s) := by
  unfold writeDest
  try dsimp only
  repeat' (first
    | with_reducible exact hs
    | with_reducible exact Keeps.refl _
    | with_reducible apply State.issue_keeps
    | intro _
    | split)

theorem toDest_keeps {n : Nat} {c : Cmd} {dest destLen : Nat} {b : Bytes} {s : State} {s0 : State} (hs
    : Keeps s0 s) : Keeps s0 (toDest n c dest destLen b s) := by
  unfold toDest
  try dsimp only
  repeat' (first
    | with_reducible exact hs
    | with_reducible apply fail_keeps
    | with_reducible apply done_keeps
    | with_reducible apply writeDest_keeps
    | with_reducible apply finish_keeps
    | split)

theorem execCertRead_keeps {m : Nat} {s : State} : KeepsR s (execCertRead m s) := by
  unfold execCertRead
  try dsimp only
  repeat' (first
    | with_reducible exact Keeps.refl _
    | with_reducible apply KeepsR.next
    | with_reducible apply fail_keeps
    | with_reducible apply onRunning_keeps
    | with_reducible apply toDest_keeps
    | (simp only [↓keeps_mk]; with_reducible refine KeepsL.of ?_)
    | intro _
    | split)

theorem execEvidenceSign_keeps {m : Nat} {s : State} : KeepsR s (execEvidenceSign m s) := by
  unfold execEvidenceSign
  try dsimp only
  repeat' (first
    | with_reducible exact Keeps.refl _
    | with_reducible apply KeepsR.next
    | with_reducible apply fail_keeps
    | with_reducible apply onRunning_keeps
    | with_reducible apply toDest_keeps
    | intro _
    | split)

theorem dropAssembly_keeps {n op : Nat} {s : State} {s0 : State} (hs : Keeps s0 s) : Keeps s0
    (dropAssembly n op s) := by
  unfold dropAssembly
  try dsimp only
  repeat' (first
    | with_reducible exact hs
    | with_reducible exact Keeps.refl _
    | with_reducible apply State.onMbx_keeps
    | (simp only [↓keeps_mk]; with_reducible refine KeepsL.of ?_)
    | intro _)

theorem copyProgress_keeps {n len : Nat} {c : Cmd} {s : State} {s0 : State} (hs : Keeps s0 s) : Keeps s0
    (copyProgress n len c s) := by
  unfold copyProgress
  try dsimp only
  repeat' (first
    | with_reducible exact hs
    | with_reducible exact Keeps.refl _
    | with_reducible apply writeEntry_keeps
    | with_reducible apply Keeps.foldl
    | (simp only [↓keeps_mk]; with_reducible refine KeepsL.of ?_)
    | intro _)

theorem takePart_keeps {n named : Nat} {c : Cmd} {host : HostImage} {effect : Bytes → ImageEffect}
    {leaves : Cmd → Bytes → State → State} {s s0 : State} (hs : Keeps s0 s) (he : ∀ img, NowKeeps (effect img))
    (hl : ∀ c b u, Keeps u (leaves c b u)) : Keeps s0 (takePart n named c host effect leaves s) := by
  have hd := dropAssembly_keeps (n := n) (op := c.op) hs
  have hc (k : Nat) := copyProgress_keeps (n := n) (len := k) (c := c) hd
  unfold takePart
  dsimp only
  repeat' (first
    | with_reducible exact hs
    | with_reducible exact hd
    | with_reducible exact hc _
    | with_reducible apply finish_keeps
    | with_reducible apply fail_keeps
    | with_reducible apply imageFault_keeps
    | with_reducible apply teamDone_keeps
    | with_reducible apply bndDone_keeps
    | with_reducible apply State.onMbx_keeps
    | with_reducible exact (hc _).trans (hl _ _ _)
    | exact (hc _).trans (he _ _ ‹_› _)
    | split)

theorem holdPlan_keeps {ctx : Nat} {p : Plan} {s : State} {s0 : State} (hs : Keeps s0 s) : Keeps s0
    (holdPlan ctx p s) :=
  hs.trans ⟨rfl, rfl, rfl, rfl⟩

theorem planEffect_keeps {ctx : Nat} {pay img : Bytes} {s : State} : NowKeeps (planEffect ctx pay img s) := by
  unfold planEffect
  try dsimp only
  repeat' (first
    | with_reducible exact NowKeeps.refuse
    | with_reducible exact NowKeeps.bnd
    | with_reducible apply NowKeeps.now
    | with_reducible exact Keeps.refl _
    | with_reducible apply holdPlan_keeps
    | split
    | intro _)

theorem tableEffect_keeps {ctx : Nat} {gen : BitVec 16} {pay img : Bytes} {s : State} : NowKeeps
    (tableEffect ctx gen pay img s) := by
  unfold tableEffect
  try dsimp only
  repeat' (first
    | with_reducible exact NowKeeps.refuse
    | with_reducible exact NowKeeps.bnd
    | with_reducible apply NowKeeps.now
    | with_reducible exact Keeps.refl _
    | split
    | intro _)

theorem rowEffect_keeps {ctx : Nat} {pay img : Bytes} {s : State} : NowKeeps (rowEffect ctx pay img s) := by
  unfold rowEffect
  try dsimp only
  repeat' (first
    | with_reducible exact NowKeeps.refuse
    | with_reducible exact NowKeeps.bnd
    | with_reducible apply NowKeeps.now
    | with_reducible exact Keeps.refl _
    | split
    | intro _)

theorem holdModel_keeps {m : Model} {s : State} {s0 : State} (hs : Keeps s0 s) : Keeps s0 (holdModel m s) := by
  unfold holdModel
  try dsimp only
  repeat' (first
    | with_reducible exact hs
    | with_reducible exact Keeps.refl _
    | with_reducible apply State.stripe_keeps
    | (simp only [↓keeps_mk]; with_reducible refine KeepsL.of ?_)
    | intro _
    | split)

theorem modelEffect_keeps {ctx : Nat} {gen : BitVec 16} {pay img : Bytes} {s : State} : NowKeeps
    (modelEffect ctx gen pay img s) := by
  unfold modelEffect
  try dsimp only
  repeat' (first
    | with_reducible exact NowKeeps.refuse
    | with_reducible exact NowKeeps.bnd
    | with_reducible apply NowKeeps.now
    | with_reducible exact Keeps.refl _
    | with_reducible apply holdModel_keeps
    | split
    | intro _)

theorem placeEffect_keeps {ctx : Nat} {img : Bytes} {s : State} : NowKeeps (placeEffect ctx img s) := by
  unfold placeEffect
  try dsimp only
  repeat' (first
    | with_reducible exact NowKeeps.refuse
    | with_reducible exact NowKeeps.bnd
    | with_reducible apply NowKeeps.now
    | with_reducible exact Keeps.refl _
    | split
    | intro _)

theorem actEffect_keeps {pay img : Bytes} {s : State} : NowKeeps (actEffect pay img s) := by
  unfold actEffect
  try dsimp only
  repeat' (first
    | with_reducible exact NowKeeps.refuse
    | with_reducible exact NowKeeps.bnd
    | with_reducible apply NowKeeps.now
    | with_reducible exact Keeps.refl _
    | split
    | intro _)

theorem imageEffect_keeps {ctx op : Nat} {pay img : Bytes} {s : State} : NowKeeps (imageEffect ctx op pay img s) := by
  unfold imageEffect
  try dsimp only
  repeat' (first
    | with_reducible exact NowKeeps.refuse
    | with_reducible exact NowKeeps.bnd
    | with_reducible apply NowKeeps.now
    | with_reducible exact Keeps.refl _
    | with_reducible apply actEffect_keeps
    | with_reducible apply tableEffect_keeps
    | with_reducible apply modelEffect_keeps
    | with_reducible apply placeEffect_keeps
    | with_reducible apply planEffect_keeps
    | with_reducible apply rowEffect_keeps
    | split
    | intro _)

theorem sendToLeaves_keeps {n : Nat} {c : Cmd} {img : Bytes} {s : State} {s0 : State} (hs : Keeps s0 s) : Keeps s0
    (sendToLeaves n c img s) := by
  unfold sendToLeaves
  try dsimp only
  repeat' (first
    | with_reducible exact hs
    | with_reducible exact Keeps.refl _
    | with_reducible apply State.sendMsgAll_keeps
    | with_reducible apply wait_keeps
    | with_reducible apply finish_keeps
    | with_reducible apply Keeps.foldl
    | (simp only [↓keeps_mk]; with_reducible refine KeepsL.of ?_)
    | intro _
    | split)

theorem leafAnswered_keeps {n leaf status : Nat} {s : State} {s0 : State} (hs : Keeps s0 s) : Keeps s0
    (leafAnswered n leaf status s) := by
  unfold leafAnswered
  try dsimp only
  repeat' (first
    | with_reducible exact hs
    | with_reducible exact Keeps.refl _
    | with_reducible apply State.sendMsgAll_keeps
    | with_reducible apply setWaiting_keeps
    | with_reducible apply endWaiting_keeps
    | with_reducible apply wait_keeps
    | with_reducible apply writeEntry_keeps
    | with_reducible apply Keeps.foldl
    | (simp only [↓keeps_mk]; with_reducible refine KeepsL.of ?_)
    | intro _
    | split)

theorem leafTakes_keeps {ctx op : Nat} {pay img : Bytes} {s s0 : State} (hs : Keeps s0 s) :
    Keeps s0 (leafTakes ctx op pay img s) := by
  unfold leafTakes
  dsimp only
  split
  · exact State.sendMsgAll_keeps hs
  · split
    · exact State.sendMsgAll_keeps hs
    · apply State.sendMsgAll_keeps
      simp only [↓keeps_mk]
      exact KeepsL.of hs
    · exact State.sendMsgAll_keeps (hs.trans (imageEffect_keeps _ ‹_› _))

theorem leafNamed_keeps {ctx b : Nat} {s : State} {s0 : State} (hs : Keeps s0 s) : Keeps s0 (leafNamed ctx b s) :=
  hs.trans ⟨rfl, rfl, rfl, rfl⟩

theorem execLeafImageLoad_keeps {x : LeafImage} {s : State} : KeepsR s (execLeafImageLoad x s) := by
  unfold execLeafImageLoad
  try dsimp only
  repeat' (first
    | with_reducible exact Keeps.refl _
    | with_reducible apply KeepsR.next
    | with_reducible apply leafNamed_keeps
    | with_reducible apply leafAnswered_keeps
    | with_reducible apply leafTakes_keeps
    | (simp only [↓keeps_mk]; with_reducible refine KeepsL.of ?_)
    | split)

theorem runImage_keeps {n op named : Nat} {host : HostImage} {s : State} {s0 : State} (hs : Keeps s0 s) : Keeps s0
    (runImage n op named host s) := by
  unfold runImage
  try dsimp only
  repeat' (first
    | with_reducible exact hs
    | with_reducible exact Keeps.refl _
    | with_reducible apply imageEffect_keeps
    | with_reducible apply sendToLeaves_keeps
    | with_reducible apply onRunning_keeps
    | with_reducible apply takePart_keeps
    | intro _)

theorem execPlanLoad_keeps {m : Nat} {s : State} : KeepsR s (execPlanLoad m s) := by
  unfold execPlanLoad
  try dsimp only
  repeat' (first
    | with_reducible exact Keeps.refl _
    | with_reducible apply onTray_keeps
    | with_reducible apply runImage_keeps)

theorem execTableLoad_keeps {m : Nat} {host : HostImage} {s : State} : KeepsR s (execTableLoad m host s) := by
  unfold execTableLoad
  try dsimp only
  repeat' (first
    | with_reducible exact Keeps.refl _
    | with_reducible apply KeepsR.next
    | with_reducible apply runImage_keeps)

theorem execRowLoad_keeps {m : Nat} {host : HostImage} {s : State} : KeepsR s (execRowLoad m host s) := by
  unfold execRowLoad
  try dsimp only
  repeat' (first
    | with_reducible exact Keeps.refl _
    | with_reducible apply KeepsR.next
    | with_reducible apply runImage_keeps)

theorem execModelLoad_keeps {m : Nat} {host : HostImage} {s : State} : KeepsR s (execModelLoad m host s) := by
  unfold execModelLoad
  try dsimp only
  repeat' (first
    | with_reducible exact Keeps.refl _
    | with_reducible apply KeepsR.next
    | with_reducible apply runImage_keeps)

theorem execPlaceLoad_keeps {m : Nat} {host : HostImage} {s : State} : KeepsR s (execPlaceLoad m host s) := by
  unfold execPlaceLoad
  try dsimp only
  repeat' (first
    | with_reducible exact Keeps.refl _
    | with_reducible apply KeepsR.next
    | with_reducible apply runImage_keeps)

theorem execActLoad_keeps {m : Nat} {s : State} : KeepsR s (execActLoad m s) := by
  unfold execActLoad
  try dsimp only
  repeat' (first
    | with_reducible exact Keeps.refl _
    | with_reducible apply onTray_keeps
    | with_reducible apply runImage_keeps)

theorem leafCore_keeps {c : Cfg} {s : State} {s0 : State} (hs : Keeps s0 s) : Keeps s0 (leafCore c s) :=
  hs.trans ⟨rfl, rfl, rfl, rfl⟩

theorem flashStep_keeps {n : Nat} {c : Cmd} {fin : Nat} {last : Cmd → State → State} {s s0 : State} (hs : Keeps s0 s)
    (hf : ∀ c u, Keeps u (last c u)) : Keeps s0 (flashStep n c fin last s) := by
  unfold flashStep
  dsimp only
  split
  · exact progress_keeps hs
  · split
    · exact hs.trans (hf _ _)
    · exact done_keeps hs

theorem setCfgCopy_keeps {i : Nat} {c : CfgCopy} {s : State} {s0 : State} (hs : Keeps s0 s) : Keeps s0
    (setCfgCopy i c s) :=
  hs.trans ⟨rfl, rfl, rfl, rfl⟩

theorem setFwCopy_keeps {i : Nat} {c : FwCopy} {s : State} {s0 : State} (hs : Keeps s0 s) : Keeps s0
    (setFwCopy i c s) :=
  hs.trans ⟨rfl, rfl, rfl, rfl⟩

theorem endConfigStore_keeps {n i : Nat} {b : Bytes} {c : Cmd} {s : State} {s0 : State} (hs : Keeps s0 s) : Keeps s0
    (endConfigStore n i b c s) := by
  unfold endConfigStore
  try dsimp only
  repeat' (first
    | with_reducible exact hs
    | with_reducible apply fail_keeps
    | with_reducible apply done_keeps
    | with_reducible apply setCfgCopy_keeps
    | with_reducible apply State.emit_keeps
    | split)

theorem execConfigStore_keeps {m : Nat} {flash : FlashAnswer} {s : State} : KeepsR s (execConfigStore m flash s) := by
  unfold execConfigStore
  try dsimp only
  repeat' (first
    | with_reducible exact Keeps.refl _
    | with_reducible apply onTray_keeps
    | with_reducible apply fail_keeps
    | with_reducible apply endConfigStore_keeps
    | with_reducible apply flashStep_keeps
    | with_reducible apply setCfgCopy_keeps
    | with_reducible apply onRunning_keeps
    | with_reducible apply finish_keeps
    | with_reducible apply State.emits_keeps
    | (simp only [↓keeps_mk]; with_reducible refine KeepsL.of ?_)
    | intro _
    | split)

theorem endFwStore_keeps {n i : Nat} {b : Bytes} {c : Cmd} {s : State} {s0 : State} (hs : Keeps s0 s) : Keeps s0
    (endFwStore n i b c s) := by
  unfold endFwStore
  try dsimp only
  repeat' (first
    | with_reducible exact hs
    | with_reducible apply finish_keeps
    | with_reducible apply setFwCopy_keeps
    | split)

theorem execFwStore_keeps {m : Nat} {flash : FlashAnswer} {s : State} : KeepsR s (execFwStore m flash s) := by
  unfold execFwStore
  try dsimp only
  repeat' (first
    | with_reducible exact Keeps.refl _
    | with_reducible apply onTray_keeps
    | with_reducible apply fail_keeps
    | with_reducible apply flashStep_keeps
    | with_reducible apply endFwStore_keeps
    | with_reducible apply onRunning_keeps
    | with_reducible apply finish_keeps
    | with_reducible apply setFwCopy_keeps
    | with_reducible apply State.emits_keeps
    | (simp only [↓keeps_mk]; with_reducible refine KeepsL.of ?_)
    | intro _
    | split)

theorem dueReset_keeps {s : State} {s0 : State} (hs : Keeps s0 s) : Keeps s0 (dueReset s) :=
  hs.trans ⟨rfl, rfl, rfl, rfl⟩

theorem execConfigApply_keeps {m : Nat} {host : HostImage} {s : State} : KeepsR s (execConfigApply m host s) := by
  unfold execConfigApply
  try dsimp only
  repeat' (first
    | with_reducible exact Keeps.refl _
    | with_reducible apply KeepsR.next
    | with_reducible apply fail_keeps
    | with_reducible apply done_keeps
    | with_reducible apply imageFault_keeps
    | with_reducible apply dueReset_keeps
    | with_reducible apply onRunning_keeps
    | (simp only [↓keeps_mk]; with_reducible refine KeepsL.of ?_)
    | intro _
    | split)

theorem execFwActivate_keeps {m : Nat} {flash : FlashAnswer} {s : State} : KeepsR s (execFwActivate m flash s) := by
  unfold execFwActivate
  try dsimp only
  repeat' (first
    | with_reducible exact Keeps.refl _
    | with_reducible apply onTray_keeps
    | with_reducible apply fail_keeps
    | with_reducible apply done_keeps
    | with_reducible apply dueReset_keeps
    | with_reducible apply onRunning_keeps
    | with_reducible apply State.emit_keeps
    | with_reducible apply setFwCopy_keeps
    | (simp only [↓keeps_mk]; with_reducible refine KeepsL.of ?_)
    | intro _
    | split)

theorem freeCtx_keeps {c : Nat} {s s0 : State} (hs : Keeps s0 s) : Keeps s0 (freeCtx c s) := by
  have h : Keeps s0 (closeWatch c s) := closeWatch_keeps hs
  have h1 : ∀ t : State, t.profile = (closeWatch c s).profile → t.mem.hbm = (closeWatch c s).mem.hbm →
      t.boot.cause = (closeWatch c s).boot.cause → t.pending = (closeWatch c s).pending → Keeps s0 t :=
    fun t a b d e => ⟨a.trans h.profile, b.trans h.hbm, d.trans h.cause, e.trans h.pending⟩
  unfold freeCtx
  exact State.onCtx_keeps (h1 _ rfl rfl rfl rfl)

theorem execContextDrainComplete_keeps {ctx : Nat} {s : State} : KeepsR s (execContextDrainComplete ctx s) := by
  unfold execContextDrainComplete
  try dsimp only
  repeat' (first
    | with_reducible exact Keeps.refl _
    | with_reducible apply KeepsR.next
    | with_reducible apply freeCtx_keeps
    | (simp only [↓keeps_mk]; with_reducible refine KeepsL.of ?_)
    | split)

theorem endWatch_keeps {c : Nat} {s : State} {s0 : State} (hs : Keeps s0 s) : Keeps s0 (endWatch c s) := by
  unfold endWatch
  try dsimp only
  repeat' (first
    | with_reducible exact hs
    | with_reducible apply endDump_keeps
    | with_reducible apply watchMark_keeps
    | with_reducible apply sendPart_keeps
    | (simp only [↓keeps_mk]; with_reducible refine KeepsL.of ?_)
    | split)

theorem markHardCap_keeps {c : Nat} {s : State} {s0 : State} (hs : Keeps s0 s) : Keeps s0 (markHardCap c s) := by
  unfold markHardCap
  try dsimp only
  repeat' (first
    | with_reducible exact hs
    | with_reducible exact Keeps.refl _
    | (simp only [↓keeps_mk]; with_reducible refine KeepsL.of ?_)
    | intro _
    | split)

theorem dropQueued_keeps {c : Nat} {s : State} {s0 : State} (hs : Keeps s0 s) : Keeps s0 (dropQueued c s) := by
  unfold dropQueued
  try dsimp only
  repeat' (first
    | with_reducible exact hs
    | with_reducible apply State.onCtx_keeps
    | with_reducible apply State.errCount_keeps
    | (simp only [↓keeps_mk]; with_reducible refine KeepsL.of ?_)
    | intro _
    | split)

theorem execContextHardCap_keeps {ctx : Nat} {s : State} : KeepsR s (execContextHardCap ctx s) := by
  unfold execContextHardCap
  try dsimp only
  repeat' (first
    | with_reducible exact Keeps.refl _
    | with_reducible apply KeepsR.next
    | with_reducible apply endWatch_keeps
    | with_reducible apply dropQueued_keeps
    | with_reducible apply freeCtx_keeps
    | with_reducible apply partialAll_keeps
    | with_reducible apply State.setBit_keeps
    | with_reducible apply markHardCap_keeps
    | (simp only [↓keeps_mk]; with_reducible refine KeepsL.of ?_)
    | split)

theorem nameRelease__keeps {c : Nat} {g : BitVec 16} {s : State} {s0 : State} (hs : Keeps s0 s) : Keeps s0
    (nameRelease_ c g s) := by
  unfold nameRelease_
  try dsimp only
  repeat' (first
    | with_reducible exact hs
    | with_reducible apply State.sendLeafStatus_keeps
    | (simp only [↓keeps_mk]; with_reducible refine KeepsL.of ?_)
    | split)

theorem contextReset_keeps {c : Nat} {g : BitVec 16} {s : State} {s0 : State} (hs : Keeps s0 s) : Keeps s0
    (contextReset c g s) := by
  unfold contextReset
  try dsimp only
  repeat' (first
    | with_reducible exact hs
    | with_reducible apply endWatch_keeps
    | with_reducible apply dropQueued_keeps
    | with_reducible apply freeCtx_keeps
    | with_reducible apply partialAll_keeps
    | with_reducible apply nameRelease__keeps
    | with_reducible apply brkGone_keeps
    | split)

theorem execCtxReset_keeps {m : Nat} {s : State} : KeepsR s (execCtxReset m s) := by
  unfold execCtxReset
  try dsimp only
  repeat' (first
    | with_reducible exact Keeps.refl _
    | with_reducible apply KeepsR.next
    | with_reducible apply fail_keeps
    | with_reducible apply onRunning_keeps
    | with_reducible apply contextReset_keeps
    | with_reducible apply done_keeps
    | intro _
    | split)

theorem sendIntervals_keeps {c k : Nat} {s : State} {s0 : State} (hs : Keeps s0 s) : Keeps s0
    (sendIntervals c k s) := by
  unfold sendIntervals
  try dsimp only
  repeat' (first
    | with_reducible exact hs
    | with_reducible exact Keeps.refl _
    | with_reducible apply State.sendShare_keeps
    | with_reducible apply Keeps.foldl
    | (simp only [↓keeps_mk]; with_reducible refine KeepsL.of ?_)
    | intro _)

theorem sendVerdicts_keeps {c k : Nat} {s : State} {s0 : State} (hs : Keeps s0 s) : Keeps s0
    (sendVerdicts c k s) := by
  unfold sendVerdicts
  try dsimp only
  repeat' (first
    | with_reducible exact hs
    | with_reducible exact Keeps.refl _
    | with_reducible apply sendLeafVerdicts_keeps
    | with_reducible apply Keeps.foldl
    | intro _)

theorem execTenantRecordRelease_keeps {ctx : Nat} {ready : Bool} {s : State} : KeepsR s
    (execTenantRecordRelease ctx ready s) := by
  unfold execTenantRecordRelease
  try dsimp only
  repeat' (first
    | with_reducible exact Keeps.refl _
    | with_reducible apply onLeaf_keeps
    | with_reducible apply sendVerdicts_keeps
    | with_reducible apply State.setBit_keeps
    | with_reducible apply sendIntervals_keeps
    | with_reducible apply State.countHealth_keeps
    | (simp only [↓keeps_mk]; with_reducible refine KeepsL.of ?_)
    | intro _
    | split)

theorem poisonBuffer_keeps {b : BufLine} {s s0 : State} (hs : Keeps s0 s) : Keeps s0 (poisonBuffer s b) := by
  cases b with
  | landed => exact hs.trans ⟨rfl, rfl, rfl, rfl⟩
  | trace => exact State.onShareTrc_keeps hs
  | dump => exact State.onWatch_keeps hs

theorem lostRow_keeps {bank row : Nat} {s : State} {s0 : State} (hs : Keeps s0 s) : Keeps s0
    (lostRow bank row s) := by
  unfold lostRow
  try dsimp only
  repeat' (first
    | with_reducible exact hs
    | with_reducible exact Keeps.refl _
    | with_reducible apply State.errCount_keeps
    | with_reducible apply poisonBuffer_keeps
    | with_reducible apply State.countHealth_keeps
    | with_reducible apply poisonRing_keeps
    | with_reducible apply State.errBit_keeps
    | with_reducible apply Keeps.foldl
    | (simp only [↓keeps_mk]; with_reducible refine KeepsL.of ?_)
    | intro _
    | split)

theorem execSramRowRepair_keeps {bank row : Nat} {uncorrectable : Bool} {s : State} : KeepsR s
    (execSramRowRepair bank row uncorrectable s) := by
  unfold execSramRowRepair
  try dsimp only
  repeat' (first
    | with_reducible exact Keeps.refl _
    | with_reducible apply whenClocked_keeps
    | with_reducible apply KeepsR.next
    | with_reducible apply repairRow_keeps
    | with_reducible apply lostRow_keeps
    | intro _
    | split)

theorem hangSample_keeps {us : List UnitSample} {stall : Bool} {s : State} {s0 : State} (hs : Keeps s0 s) : Keeps s0
    (hangSample us stall s) := by
  unfold hangSample
  try dsimp only
  repeat' (first
    | with_reducible exact hs
    | with_reducible apply State.setBit_keeps
    | (simp only [↓keeps_mk]; with_reducible refine KeepsL.of ?_)
    | split)

theorem autoDump_keeps {fenced : Bool} {ctx : Option Nat} {x : UnitScan} {s : State} {s0 : State} (hs : Keeps s0 s)
    : Keeps s0 (autoDump fenced ctx x s) := by
  unfold autoDump
  try dsimp only
  repeat' (first
    | with_reducible exact hs
    | with_reducible apply State.setBit_keeps
    | (simp only [↓keeps_mk]; with_reducible refine KeepsL.of ?_))

theorem fenceUnit_keeps {cls idx : Nat} {ctx : Option Nat} {s : State} {s0 : State} (hs : Keeps s0 s) : Keeps s0
    (fenceUnit cls idx ctx s) := by
  unfold fenceUnit
  try dsimp only
  repeat' (first
    | with_reducible exact hs
    | with_reducible exact Keeps.refl _
    | with_reducible apply State.onClass_keeps
    | (simp only [↓keeps_mk]; with_reducible refine KeepsL.of ?_)
    | intro _)

theorem unfence_keeps {cls idx : Nat} {s : State} {s0 : State} (hs : Keeps s0 s) : Keeps s0 (unfence cls idx s) := by
  unfold unfence
  try dsimp only
  repeat' (first
    | with_reducible exact hs
    | with_reducible exact Keeps.refl _
    | with_reducible apply State.onClass_keeps
    | (simp only [↓keeps_mk]; with_reducible refine KeepsL.of ?_)
    | intro _
    | split)

theorem recoverHang_keeps {block : Bool} {ctx : Option Nat} {x : UnitScan} {s : State} {s0 : State} (hs
    : Keeps s0 s) : Keeps s0 (recoverHang block ctx x s) := by
  unfold recoverHang
  try dsimp only
  repeat' (first
    | with_reducible exact hs
    | with_reducible apply contextReset_keeps
    | (simp only [↓keeps_mk]; with_reducible refine KeepsL.of ?_)
    | split)

theorem execHangDetect_keeps {u : UnitSample} {scan : UnitScan} {s : State} : KeepsR s (execHangDetect u scan s) := by
  unfold execHangDetect
  try dsimp only
  repeat' (first
    | with_reducible exact Keeps.refl _
    | with_reducible apply KeepsR.next
    | with_reducible apply retireUnit_keeps
    | with_reducible apply recoverHang_keeps
    | with_reducible apply State.setBit_keeps
    | with_reducible apply fenceUnit_keeps
    | with_reducible apply autoDump_keeps
    | (simp only [↓keeps_mk]; with_reducible refine KeepsL.of ?_)
    | intro _
    | split)

theorem execUnitReset_keeps {cls idx : Nat} {s : State} : KeepsR s (execUnitReset cls idx s) := by
  unfold execUnitReset
  try dsimp only
  repeat' (first
    | with_reducible exact Keeps.refl _
    | with_reducible apply KeepsR.next
    | with_reducible apply unfence_keeps
    | with_reducible apply State.onClass_keeps
    | (simp only [↓keeps_mk]; with_reducible refine KeepsL.of ?_)
    | intro _
    | split)

theorem endPartial_keeps {n : Nat} {c : Cmd} {status cursor : Nat} {result : Bytes} {s : State} {s0 : State} (hs
    : Keeps s0 s) : Keeps s0 (endPartial n c status cursor result s) := by
  unfold endPartial
  try dsimp only
  repeat' (first
    | with_reducible exact hs
    | with_reducible exact Keeps.refl _
    | with_reducible apply writeEntry_keeps
    | with_reducible apply State.onMbx_keeps
    | (simp only [↓keeps_mk]; with_reducible refine KeepsL.of ?_)
    | intro _)

theorem execDumpTake_keeps {m : Nat} {scans : List UnitScan} {s : State} : KeepsR s (execDumpTake m scans s) := by
  unfold execDumpTake
  try dsimp only
  repeat' (first
    | with_reducible exact Keeps.refl _
    | with_reducible apply KeepsR.next
    | with_reducible apply finish_keeps
    | with_reducible apply fail_keeps
    | with_reducible apply onRunning_keeps
    | with_reducible apply writeDest_keeps
    | with_reducible apply endPartial_keeps
    | (simp only [↓keeps_mk]; with_reducible refine KeepsL.of ?_)
    | intro _
    | split)

end Sys2Proof.Machine
end

