-- ==== Sys2Proof/Laws/KeepsBlock.lean ====
section
/-!
SUPPORT. What each operation and command keeps: the twin, resets, boundaries, the clock and the lanes.
-/

namespace Sys2Proof.Machine

theorem forWaiting_keeps {p : Cmd → Bool} {f : Nat → Cmd → State → State} {s s0 : State} (hs : Keeps s0 s)
    (hf : ∀ n c u, Keeps u (f n c u)) : Keeps s0 (forWaiting p f s) :=
  Keeps.foldl hs fun u _ => Keeps.foldl (Keeps.refl u) fun v c => hf _ c v

theorem onWaiting_keeps {n : Nat} {old new : Cmd} {s : State} {s0 : State} (hs : Keeps s0 s) : Keeps s0
    (onWaiting n old new s) := by
  unfold onWaiting
  try dsimp only
  repeat' (first
    | with_reducible exact hs
    | with_reducible apply setWaiting_keeps)

theorem endAttachCmd_keeps {status : Nat} {s : State} {s0 : State} (hs : Keeps s0 s) : Keeps s0
    (endAttachCmd status s) := by
  unfold endAttachCmd
  try dsimp only
  repeat' (first
    | with_reducible exact hs
    | with_reducible exact Keeps.refl _
    | with_reducible apply forWaiting_keeps
    | with_reducible apply endWaiting_keeps
    | intro _)

theorem refuseAttachCmd_keeps {s : State} {s0 : State} (hs : Keeps s0 s) : Keeps s0 (refuseAttachCmd s) := by
  unfold refuseAttachCmd
  try dsimp only
  repeat' (first
    | with_reducible exact hs
    | with_reducible exact Keeps.refl _
    | with_reducible apply forWaiting_keeps
    | with_reducible apply endWaiting_keeps
    | with_reducible apply setWaiting_keeps
    | (simp only [↓keeps_mk]; with_reducible refine KeepsL.of ?_)
    | intro _)

theorem attachCursor_keeps {phase bytes : Nat} {s : State} {s0 : State} (hs : Keeps s0 s) : Keeps s0
    (attachCursor phase bytes s) := by
  unfold attachCursor
  try dsimp only
  repeat' (first
    | with_reducible exact hs
    | with_reducible exact Keeps.refl _
    | with_reducible apply writeEntry_keeps
    | with_reducible apply onWaiting_keeps
    | with_reducible apply forWaiting_keeps
    | (simp only [↓keeps_mk]; with_reducible refine KeepsL.of ?_)
    | intro _)

theorem sendTwin_keeps {b : Bytes} {s : State} {s0 : State} (hs : Keeps s0 s) : Keeps s0 (sendTwin b s) := by
  unfold sendTwin
  try dsimp only
  repeat' (first
    | with_reducible exact hs
    | with_reducible apply State.sendMsgAll_keeps)

theorem nameMove_keeps {m : TwinMove} {a : Bnd} {b : Nat} {s : State} {s0 : State} (hs : Keeps s0 s) : Keeps s0
    (nameMove m a b s) := by
  unfold nameMove
  try dsimp only
  repeat' (first
    | with_reducible exact hs
    | with_reducible apply sendTwin_keeps
    | (simp only [↓keeps_mk]; with_reducible refine KeepsL.of ?_))

theorem queueAt_keeps {turn : Nat} {a : Bnd} {b : Nat} {s : State} {s0 : State} (hs : Keeps s0 s) : Keeps s0
    (queueAt turn a b s) := by
  unfold queueAt
  try dsimp only
  repeat' (first
    | with_reducible exact hs
    | (simp only [↓keeps_mk]; with_reducible refine KeepsL.of ?_))

theorem queueAlone_keeps {a : Bnd} {b : Nat} {s : State} {s0 : State} (hs : Keeps s0 s) : Keeps s0
    (queueAlone a b s) :=
  hs.trans ⟨rfl, rfl, rfl, rfl⟩

theorem enterBivouac_keeps {cause item : Nat} {s : State} {s0 : State} (hs : Keeps s0 s) : Keeps s0
    (enterBivouac cause item s) := by
  unfold enterBivouac
  try dsimp only
  repeat' (first
    | with_reducible exact hs
    | with_reducible exact Keeps.refl _
    | with_reducible apply State.sendLeafStatus_keeps
    | (simp only [↓keeps_mk]; with_reducible refine KeepsL.of ?_)
    | intro _
    | split)

theorem planMismatch_keeps {s : State} {s0 : State} (hs : Keeps s0 s) : Keeps s0 (planMismatch s) := by
  unfold planMismatch
  try dsimp only
  repeat' (first
    | with_reducible exact hs
    | with_reducible exact Keeps.refl _
    | with_reducible apply enterBivouac_keeps
    | (simp only [↓keeps_mk]; with_reducible refine KeepsL.of ?_)
    | intro _
    | split)

theorem abandonAttach_keeps {s : State} {s0 : State} (hs : Keeps s0 s) : Keeps s0 (abandonAttach s) := by
  unfold abandonAttach
  try dsimp only
  repeat' (first
    | with_reducible exact hs
    | with_reducible exact Keeps.refl _
    | with_reducible apply noteCkpt_keeps
    | with_reducible apply queueAlone_keeps
    | (simp only [↓keeps_mk]; with_reducible refine KeepsL.of ?_)
    | intro _
    | split)

theorem loopAlone_keeps {s : State} {s0 : State} (hs : Keeps s0 s) : Keeps s0 (loopAlone s) := by
  unfold loopAlone
  try dsimp only
  repeat' (first
    | with_reducible exact hs
    | with_reducible exact Keeps.refl _
    | with_reducible apply forWaiting_keeps
    | with_reducible apply setLoop_keeps
    | intro _)

theorem goAlone_keeps {s : State} {s0 : State} (hs : Keeps s0 s) : Keeps s0 (goAlone s) := by
  unfold goAlone
  try dsimp only
  repeat' (first
    | with_reducible exact hs
    | with_reducible exact Keeps.refl _
    | with_reducible apply loopAlone_keeps
    | with_reducible apply abandonAttach_keeps
    | with_reducible apply endAttachCmd_keeps
    | with_reducible apply armsAlone_keeps
    | (simp only [↓keeps_mk]; with_reducible refine KeepsL.of ?_)
    | intro _
    | split)

theorem linkLost_keeps {s : State} {s0 : State} (hs : Keeps s0 s) : Keeps s0 (linkLost s) := by
  unfold linkLost
  try dsimp only
  repeat' (first
    | with_reducible exact hs
    | with_reducible apply reselect_keeps
    | with_reducible apply goAlone_keeps
    | with_reducible apply reportLanes_keeps
    | (simp only [↓keeps_mk]; with_reducible refine KeepsL.of ?_)
    | split)

theorem beginAttach_keeps {commanded : Bool} {s : State} {s0 : State} (hs : Keeps s0 s) : Keeps s0
    (beginAttach commanded s) := by
  unfold beginAttach
  try dsimp only
  repeat' (first
    | with_reducible exact hs
    | with_reducible apply sendTwin_keeps
    | (simp only [↓keeps_mk]; with_reducible refine KeepsL.of ?_))

theorem enterDetached_keeps {s : State} {s0 : State} (hs : Keeps s0 s) : Keeps s0 (enterDetached s) :=
  hs.trans ⟨rfl, rfl, rfl, rfl⟩

theorem nameStart_keeps {s : State} {s0 : State} (hs : Keeps s0 s) : Keeps s0 (nameStart s) := by
  unfold nameStart
  try dsimp only
  repeat' (first
    | with_reducible exact hs
    | with_reducible apply nameMove_keeps
    | (simp only [↓keeps_mk]; with_reducible refine KeepsL.of ?_))

theorem meetTwin_keeps {s : State} {s0 : State} (hs : Keeps s0 s) : Keeps s0 (meetTwin s) := by
  unfold meetTwin
  try dsimp only
  repeat' (first
    | with_reducible exact hs
    | with_reducible apply nameStart_keeps
    | with_reducible apply enterDetached_keeps
    | split)

theorem twinCameUp_keeps {s : State} {s0 : State} (hs : Keeps s0 s) : Keeps s0 (twinCameUp s) := by
  unfold twinCameUp
  try dsimp only
  repeat' (first
    | with_reducible exact hs
    | with_reducible apply beginAttach_keeps
    | with_reducible apply meetTwin_keeps
    | split)

theorem linkCameUp_keeps {lane : Nat} {u : LaneUse} {s : State} {s0 : State} (hs : Keeps s0 s) : Keeps s0
    (linkCameUp lane u s) := by
  unfold linkCameUp
  try dsimp only
  repeat' (first
    | with_reducible exact hs
    | with_reducible apply twinCameUp_keeps
    | with_reducible apply reportAttach_keeps
    | with_reducible apply State.sendCtl_keeps
    | with_reducible apply reselect_keeps
    | with_reducible apply sendSchedSync_keeps
    | (simp only [↓keeps_mk]; with_reducible refine KeepsL.of ?_)
    | split)

theorem belayRevisions_keeps {h : Hello} {s : State} {s0 : State} (hs : Keeps s0 s) : Keeps s0
    (belayRevisions h s) := by
  unfold belayRevisions
  try dsimp only
  repeat' (first
    | with_reducible exact hs
    | with_reducible exact Keeps.refl _
    | with_reducible apply queueAlone_keeps
    | with_reducible apply abandonAttach_keeps
    | (simp only [↓keeps_mk]; with_reducible refine KeepsL.of ?_)
    | intro _
    | split)

theorem execStartWait_keeps {s : State} : KeepsR s (execStartWait s) := by
  unfold execStartWait
  try dsimp only
  repeat' (first
    | with_reducible exact Keeps.refl _
    | with_reducible apply onTray_keeps
    | with_reducible apply meetTwin_keeps
    | with_reducible apply queueAlone_keeps
    | (simp only [↓keeps_mk]; with_reducible refine KeepsL.of ?_)
    | intro _
    | split)

theorem startSlots_keeps {b : Nat} {s : State} {s0 : State} (hs : Keeps s0 s) : Keeps s0 (startSlots b s) := by
  unfold startSlots
  try dsimp only
  repeat' (first
    | with_reducible exact hs
    | with_reducible exact Keeps.refl _
    | with_reducible apply State.addChange_keeps
    | with_reducible apply Keeps.foldl
    | (simp only [↓keeps_mk]; with_reducible refine KeepsL.of ?_)
    | intro _
    | split)

theorem teamStart_keeps {b : Nat} {s : State} {s0 : State} (hs : Keeps s0 s) : Keeps s0 (teamStart b s) := by
  unfold teamStart
  try dsimp only
  repeat' (first
    | with_reducible exact hs
    | with_reducible apply activate_keeps
    | with_reducible apply startSlots_keeps
    | (simp only [↓keeps_mk]; with_reducible refine KeepsL.of ?_))

theorem startSync_keeps {k : Nat} {s : State} {s0 : State} (hs : Keeps s0 s) : Keeps s0 (startSync k s) := by
  unfold startSync
  try dsimp only
  repeat' (first
    | with_reducible exact hs
    | with_reducible exact Keeps.refl _
    | with_reducible apply meetTwin_keeps
    | with_reducible apply sendSchedSync_keeps
    | with_reducible apply Keeps.foldl
    | intro _
    | split)

theorem joinTeam_keeps {s : State} {s0 : State} (hs : Keeps s0 s) : Keeps s0 (joinTeam s) := by
  unfold joinTeam
  try dsimp only
  repeat' (first
    | with_reducible exact hs
    | with_reducible exact Keeps.refl _
    | with_reducible apply endAttachCmd_keeps
    | (simp only [↓keeps_mk]; with_reducible refine KeepsL.of ?_)
    | intro _
    | split)

theorem detachSelf_keeps {d : Nat} {s : State} {s0 : State} (hs : Keeps s0 s) : Keeps s0 (detachSelf d s) := by
  unfold detachSelf
  try dsimp only
  repeat' (first
    | with_reducible exact hs
    | with_reducible exact Keeps.refl _
    | (simp only [↓keeps_mk]; with_reducible refine KeepsL.of ?_)
    | intro _)

theorem detachTwin_keeps {s : State} {s0 : State} (hs : Keeps s0 s) : Keeps s0 (detachTwin s) := by
  unfold detachTwin
  try dsimp only
  repeat' (first
    | with_reducible exact hs
    | with_reducible apply armsAlone_keeps
    | (simp only [↓keeps_mk]; with_reducible refine KeepsL.of ?_))

theorem twinHandsOver_keeps {s : State} {s0 : State} (hs : Keeps s0 s) : Keeps s0 (twinHandsOver s) := by
  unfold twinHandsOver
  try dsimp only
  repeat' (first
    | with_reducible exact hs
    | with_reducible apply detachTwin_keeps
    | (simp only [↓keeps_mk]; with_reducible refine KeepsL.of ?_))

theorem handOver_keeps {s : State} {s0 : State} (hs : Keeps s0 s) : Keeps s0 (handOver s) := by
  unfold handOver
  try dsimp only
  repeat' (first
    | with_reducible exact hs
    | with_reducible apply sendTwin_keeps
    | (simp only [↓keeps_mk]; with_reducible refine KeepsL.of ?_)
    | split)

theorem carrierPhase_keeps {a : Attach} {p : AttachPhase} {bytes : Nat} {s : State} {s0 : State} (hs : Keeps s0 s)
    : Keeps s0 (carrierPhase a p bytes s) := by
  unfold carrierPhase
  try dsimp only
  repeat' (first
    | with_reducible exact hs
    | with_reducible exact Keeps.refl _
    | with_reducible apply nameMove_keeps
    | with_reducible apply attachCursor_keeps
    | (simp only [↓keeps_mk]; with_reducible refine KeepsL.of ?_)
    | intro _
    | split)

theorem takeTwinConfig_keeps {c : TwinConfig} {s : State} {s0 : State} (hs : Keeps s0 s) : Keeps s0
    (takeTwinConfig c s) :=
  hs.trans ⟨rfl, rfl, rfl, rfl⟩

theorem takeCatchup_keeps {c : TwinCatchup} {s : State} {s0 : State} (hs : Keeps s0 s) : Keeps s0
    (takeCatchup c s) := by
  unfold takeCatchup
  try dsimp only
  repeat' (first
    | with_reducible exact hs
    | with_reducible exact Keeps.refl _
    | with_reducible apply setHot_keeps
    | with_reducible apply countVerdict_keeps
    | with_reducible apply Keeps.foldl
    | with_reducible apply Keeps.elim
    | (simp only [↓keeps_mk]; with_reducible refine KeepsL.of ?_)
    | intro _
    | split)

theorem setAttachPhase_keeps {p : AttachPhase} {s : State} {s0 : State} (hs : Keeps s0 s) : Keeps s0
    (setAttachPhase p s) :=
  hs.trans ⟨rfl, rfl, rfl, rfl⟩

theorem newcomerPhase_keeps {p : AttachPhase} {copy : TwinCopy} {s : State} {s0 : State} (hs : Keeps s0 s)
    : Keeps s0 (newcomerPhase p copy s) := by
  unfold newcomerPhase
  try dsimp only
  repeat' (first
    | with_reducible exact hs
    | with_reducible apply sendTwin_keeps
    | with_reducible apply setAttachPhase_keeps
    | with_reducible apply takeCatchup_keeps
    | with_reducible apply abandonAttach_keeps
    | with_reducible apply takeTwinConfig_keeps
    | (simp only [↓keeps_mk]; with_reducible refine KeepsL.of ?_)
    | split)

theorem execAttachPhase_keeps {p : AttachPhase} {bytes : Nat} {copy : TwinCopy} {s : State} : KeepsR s
    (execAttachPhase p bytes copy s) := by
  unfold execAttachPhase
  try dsimp only
  repeat' (first
    | with_reducible exact Keeps.refl _
    | with_reducible exact True.intro
    | with_reducible apply onTray_keeps
    | with_reducible apply relay_keeps
    | with_reducible apply refuseAttachCmd_keeps
    | with_reducible apply newcomerPhase_keeps
    | with_reducible apply carrierPhase_keeps
    | (simp only [↓keeps_mk]; with_reducible refine KeepsL.of ?_)
    | intro _
    | split)

theorem relayPart_keeps {n op b turn : Nat} {pay part : Bytes} {s s0 : State} (hs : Keeps s0 s) :
    Keeps s0 (relayPart n op b turn pay part s) := by
  have hd := dropAssembly_keeps (n := n) (op := op) hs
  unfold relayPart
  dsimp only
  split
  · exact State.onMbx_keeps hd
  · split
    · exact hd
    · exact queueAt_keeps hd
    · exact hd.trans (imageEffect_keeps _ ‹_› _)

theorem relaySetup_keeps {op : Nat} {p image : Bytes} {s : State} {s0 : State} (hs : Keeps s0 s) : Keeps s0
    (relaySetup op p image s) := by
  unfold relaySetup
  try dsimp only
  repeat' (first
    | with_reducible exact hs
    | with_reducible exact Keeps.refl _
    | with_reducible apply takeSetup_keeps
    | intro _
    | split)

theorem carryOut_keeps {n op b turn : Nat} {p image : Bytes} {ckpt : Option Ckpt} {s : State} {s0 : State} (hs
    : Keeps s0 s) : Keeps s0 (carryOut n op b turn p image ckpt s) := by
  unfold carryOut
  try dsimp only
  repeat' (first
    | with_reducible exact hs
    | with_reducible apply queueAt_keeps
    | with_reducible apply relayPart_keeps
    | with_reducible apply setLoop_keeps
    | with_reducible apply relaySetup_keeps
    | (simp only [↓keeps_mk]; with_reducible refine KeepsL.of ?_)
    | split)

theorem echoCommand_keeps {n : Nat} {s : State} {s0 : State} (hs : Keeps s0 s) : Keeps s0 (echoCommand n s) := by
  unfold echoCommand
  try dsimp only
  repeat' (first
    | with_reducible exact hs
    | with_reducible exact Keeps.refl _
    | with_reducible apply onWaiting_keeps
    | with_reducible apply setLoop_keeps
    | (simp only [↓keeps_mk]; with_reducible refine KeepsL.of ?_)
    | intro _
    | split)

theorem renameBnds_keeps {old new : Nat} {s : State} {s0 : State} (hs : Keeps s0 s) : Keeps s0
    (renameBnds old new s) := by
  unfold renameBnds
  try dsimp only
  repeat' (first
    | with_reducible exact hs
    | with_reducible exact Keeps.refl _
    | (simp only [↓keeps_mk]; with_reducible refine KeepsL.of ?_)
    | intro _)

theorem echoBoundary_keeps {b : Nat} {s : State} {s0 : State} (hs : Keeps s0 s) : Keeps s0 (echoBoundary b s) :=
  hs.trans ⟨rfl, rfl, rfl, rfl⟩

theorem takeMove_keeps {m : TwinMove} {b : Nat} {s : State} {s0 : State} (hs : Keeps s0 s) : Keeps s0
    (takeMove m b s) := by
  unfold takeMove
  try dsimp only
  repeat' (first
    | with_reducible exact hs
    | with_reducible exact Keeps.refl _
    | with_reducible apply sendTwin_keeps
    | with_reducible apply queueAlone_keeps
    | (simp only [↓keeps_mk]; with_reducible refine KeepsL.of ?_)
    | intro _
    | split)

theorem execTeamRelayEcho_keeps {e : EchoOf} {s : State} : KeepsR s (execTeamRelayEcho e s) := by
  unfold execTeamRelayEcho
  try dsimp only
  repeat' (first
    | with_reducible exact Keeps.refl _
    | with_reducible apply onTray_keeps
    | with_reducible apply sendTwin_keeps
    | with_reducible apply takeMove_keeps
    | with_reducible apply echoBoundary_keeps
    | with_reducible apply renameBnds_keeps
    | with_reducible apply carryOut_keeps
    | with_reducible apply echoCommand_keeps
    | (simp only [↓keeps_mk]; with_reducible refine KeepsL.of ?_)
    | intro _
    | split)

theorem execTwinDetach_keeps {m : Nat} {s : State} : KeepsR s (execTwinDetach m s) := by
  unfold execTwinDetach
  try dsimp only
  repeat' (first
    | with_reducible exact Keeps.refl _
    | with_reducible apply onTray_keeps
    | with_reducible apply fail_keeps
    | with_reducible apply wait_keeps
    | with_reducible apply nameMove_keeps
    | with_reducible apply onRunning_keeps
    | (simp only [↓keeps_mk]; with_reducible refine KeepsL.of ?_)
    | intro _
    | split)

theorem execTwinAttach_keeps {m : Nat} {s : State} : KeepsR s (execTwinAttach m s) := by
  unfold execTwinAttach
  try dsimp only
  repeat' (first
    | with_reducible exact Keeps.refl _
    | with_reducible apply onTray_keeps
    | with_reducible apply finish_keeps
    | with_reducible apply fail_keeps
    | with_reducible apply wait_keeps
    | with_reducible apply beginAttach_keeps
    | with_reducible apply onRunning_keeps
    | with_reducible apply done_keeps
    | (simp only [↓keeps_mk]; with_reducible refine KeepsL.of ?_)
    | intro _
    | split)

theorem clearBlock_keepsW {s s0 : State} (hs : KeepsW s0 s) : KeepsW s0 (clearBlock s) :=
  hs.trans ⟨rfl, rfl, fun i => ⟨rfl, i.2⟩⟩

theorem clearPower_keepsW {straps : Straps} {s s0 : State} (hs : KeepsW s0 s) : KeepsW s0 (clearPower straps s) :=
  hs.trans ⟨rfl, rfl, fun _ => ⟨rfl, show causeOk 0x80000000 by unfold causeOk; decide⟩⟩

theorem openDump_keeps {s : State} {s0 : State} (hs : Keeps s0 s) : Keeps s0 (openDump s) := by
  unfold openDump
  try dsimp only
  repeat' (first
    | with_reducible exact hs
    | with_reducible exact Keeps.refl _
    | (simp only [↓keeps_mk]; with_reducible refine KeepsL.of ?_)
    | intro _
    | split)

theorem programUds_keeps {draw : List (BitVec 32)} {s : State} {s0 : State} (hs : Keeps s0 s) : Keeps s0
    (programUds draw s) := by
  unfold programUds
  try dsimp only
  repeat' (first
    | with_reducible exact hs
    | with_reducible exact Keeps.refl _
    | with_reducible apply State.otpProgram_keeps
    | with_reducible apply Keeps.foldl
    | intro _
    | split)

theorem layer0_keeps {draw : List (BitVec 32)} {s : State} {s0 : State} (hs : Keeps s0 s) : Keeps s0
    (layer0 draw s) := by
  unfold layer0
  try dsimp only
  repeat' (first
    | with_reducible exact hs
    | with_reducible apply programUds_keeps
    | (simp only [↓keeps_mk]; with_reducible refine KeepsL.of ?_))

theorem readOtp_keeps {s : State} {s0 : State} (hs : Keeps s0 s) : Keeps s0 (readOtp s) := by
  unfold readOtp
  try dsimp only
  repeat' (first
    | with_reducible exact hs
    | with_reducible exact Keeps.refl _
    | (simp only [↓keeps_mk]; with_reducible refine KeepsL.of ?_)
    | intro _)

theorem hourStart_keeps {s : State} {s0 : State} (hs : Keeps s0 s) : Keeps s0 (hourStart s) := by
  unfold hourStart
  try dsimp only
  repeat' (first
    | with_reducible exact hs
    | with_reducible apply start_keeps
    | (simp only [↓keeps_mk]; with_reducible refine KeepsL.of ?_)
    | split)

theorem clockStart_keeps {flash : FlashAnswer} {s : State} {s0 : State} (hs : Keeps s0 s) : Keeps s0
    (clockStart flash s) := by
  unfold clockStart
  try dsimp only
  repeat' (first
    | with_reducible exact hs
    | with_reducible apply writeClock_keeps
    | with_reducible apply evrBit_keeps
    | (simp only [↓keeps_mk]; with_reducible refine KeepsL.of ?_)
    | split)

theorem recorderStart_keeps {flash : FlashAnswer} {s : State} {s0 : State} (hs : Keeps s0 s) : Keeps s0
    (recorderStart flash s) := by
  unfold recorderStart
  try dsimp only
  repeat' (first
    | with_reducible exact hs
    | with_reducible apply newPeriod_keeps
    | with_reducible apply clockStart_keeps
    | (simp only [↓keeps_mk]; with_reducible refine KeepsL.of ?_)
    | split)

theorem marginStart_keeps {s : State} {s0 : State} (hs : Keeps s0 s) : Keeps s0 (marginStart s) := by
  unfold marginStart
  try dsimp only
  repeat' (first
    | with_reducible exact hs
    | with_reducible apply restoreNext_keeps
    | (simp only [↓keeps_mk]; with_reducible refine KeepsL.of ?_)
    | split)

theorem setBases_keeps {c : Cfg} {s : State} {s0 : State} (hs : Keeps s0 s) : Keeps s0 (setBases c s) := by
  unfold setBases
  try dsimp only
  repeat' (first
    | with_reducible exact hs
    | with_reducible exact Keeps.refl _
    | (simp only [↓keeps_mk]; with_reducible refine KeepsL.of ?_)
    | intro _
    | split)

theorem startBivouac_keeps {c : Cfg} {cause item : Nat} {s : State} {s0 : State} (hs : Keeps s0 s) : Keeps s0
    (startBivouac c cause item s) := by
  unfold startBivouac
  try dsimp only
  repeat' (first
    | with_reducible exact hs
    | with_reducible apply enterBivouac_keeps
    | with_reducible apply setBases_keeps
    | (simp only [↓keeps_mk]; with_reducible refine KeepsL.of ?_))

theorem startService_keeps {c : Cfg} {s : State} {s0 : State} (hs : Keeps s0 s) : Keeps s0 (startService c s) := by
  unfold startService
  try dsimp only
  repeat' (first
    | with_reducible exact hs
    | with_reducible exact Keeps.refl _
    | with_reducible apply activate_keeps
    | with_reducible apply setBases_keeps
    | with_reducible apply leafCore_keeps
    | with_reducible apply startLive_keeps
    | (simp only [↓keeps_mk]; with_reducible refine KeepsL.of ?_)
    | intro _
    | split)

theorem applyCfg_keeps {b : Bytes} {found : StartFound} {s : State} {s0 : State} (hs : Keeps s0 s) : Keeps s0
    (applyCfg b found s) := by
  unfold applyCfg
  try dsimp only
  repeat' (first
    | with_reducible exact hs
    | with_reducible apply startBivouac_keeps
    | with_reducible apply startService_keeps
    | (simp only [↓keeps_mk]; with_reducible refine KeepsL.of ?_)
    | split)

theorem configureTray_keeps {found : StartFound} {s : State} {s0 : State} (hs : Keeps s0 s) : Keeps s0
    (configureTray found s) := by
  unfold configureTray
  try dsimp only
  repeat' (first
    | with_reducible exact hs
    | with_reducible apply startBivouac_keeps
    | with_reducible apply applyCfg_keeps
    | (simp only [↓keeps_mk]; with_reducible refine KeepsL.of ?_)
    | split)

theorem assignI3c_keeps {pids : List (BitVec 48)} {s : State} {s0 : State} (hs : Keeps s0 s) : Keeps s0
    (assignI3c pids s) := by
  unfold assignI3c
  try dsimp only
  repeat' (first
    | with_reducible exact hs
    | with_reducible exact Keeps.refl _
    | with_reducible apply State.emits_keeps
    | (simp only [↓keeps_mk]; with_reducible refine KeepsL.of ?_)
    | intro _)

theorem startFirmware_keeps {fw : Bytes} {copy : Option Nat} {found : StartFound} {s : State} {s0 : State} (hs
    : Keeps s0 s) : Keeps s0 (startFirmware fw copy found s) := by
  unfold startFirmware
  try dsimp only
  repeat' (first
    | with_reducible exact hs
    | with_reducible apply marginStart_keeps
    | with_reducible apply readOtp_keeps
    | with_reducible apply assignI3c_keeps
    | with_reducible apply startIdentity_keeps
    | with_reducible apply recorderStart_keeps
    | (simp only [↓keeps_mk]; with_reducible refine KeepsL.of ?_)
    | split)

theorem startTray_keeps {found : StartFound} {s : State} {s0 : State} (hs : Keeps s0 s) : Keeps s0
    (startTray found s) := by
  unfold startTray
  try dsimp only
  repeat' (first
    | with_reducible exact hs
    | with_reducible apply startFirmware_keeps
    | with_reducible apply configureTray_keeps
    | (simp only [↓keeps_mk]; with_reducible refine KeepsL.of ?_)
    | split)

theorem start_keeps {found : StartFound} {s : State} {s0 : State} (hs : Keeps s0 s) : Keeps s0 (start found s) := by
  unfold start
  try dsimp only
  repeat' (first
    | with_reducible exact hs
    | with_reducible apply startTray_keeps
    | with_reducible apply layer0_keeps
    | (simp only [↓keeps_mk]; with_reducible refine KeepsL.of ?_)
    | split)

theorem execPowerOnReset_keepsW {straps : Straps} {found : StartFound} {s : State} : KeepsRW s
    (execPowerOnReset straps found s) := by
  unfold execPowerOnReset
  try dsimp only
  repeat' (first
    | with_reducible exact KeepsW.refl _
    | with_reducible apply KeepsRW.next
    | with_reducible apply clearPower_keepsW
    | with_reducible refine KeepsW.step ?_ (hourStart_keeps (Keeps.refl _))
    | with_reducible refine KeepsW.step ?_ (start_keeps (Keeps.refl _))
    | (simp only [↓keepsW_mk]; with_reducible refine KeepsWL.of ?_)
    | split)

theorem execPowerLoss_keepsW {s : State} : KeepsRW s (execPowerLoss s) := by
  unfold execPowerLoss
  try dsimp only
  repeat' (first
    | with_reducible exact KeepsW.refl _
    | with_reducible apply KeepsRW.next
    | with_reducible apply clearPower_keepsW
    | (simp only [↓keepsW_mk]; with_reducible refine KeepsWL.of ?_))

theorem execPllLock_keeps {s : State} : KeepsR s (execPllLock s) := by
  unfold execPllLock
  try dsimp only
  repeat' (first
    | with_reducible exact Keeps.refl _
    | with_reducible apply KeepsR.next
    | (simp only [↓keeps_mk]; with_reducible refine KeepsL.of ?_)
    | split)

theorem causeOk_nextCause (old : BitVec 32) (c : ResetCause) : causeOk (nextCause old c) := by
  have h : min 0xFFFF (old.toNat % 2 ^ 16 + 1) < 2 ^ 16 := by omega
  unfold causeOk nextCause
  generalize min 0xFFFF (old.toNat % 2 ^ 16 + 1) = n at h
  cases c <;> simp only [causeBit, BitVec.toNat_ofNat, List.mem_cons, List.not_mem_nil, or_false] <;> omega
theorem blockReset_keepsW {cause : ResetCause} {found : StartFound} {s s0 : State} (hs : KeepsW s0 s) :
    KeepsW s0 (blockReset cause found s) := by
  have h := clearBlock_keepsW (KeepsW.step hs (openDump_keeps (Keeps.refl _)))
  unfold blockReset
  refine KeepsW.step ?_ (start_keeps (Keeps.refl _))
  exact h.trans ⟨rfl, rfl, fun i => ⟨i.1, causeOk_nextCause _ _⟩⟩

theorem execRstBlkN_keepsW {cause : ResetCause} {found : StartFound} {s : State} : KeepsRW s
    (execRstBlkN cause found s) := by
  unfold execRstBlkN
  try dsimp only
  repeat' (first
    | with_reducible exact KeepsW.refl _
    | with_reducible apply KeepsRW.next
    | with_reducible apply blockReset_keepsW
    | split)

theorem execStewardWatchdog_keepsW {fault : StewardFault} {scan : UnitScan} {found : StartFound} {s : State}
    : KeepsRW s (execStewardWatchdog fault scan found s) := by
  unfold execStewardWatchdog
  try dsimp only
  repeat' (first
    | with_reducible exact KeepsW.refl _
    | with_reducible apply KeepsRW.next
    | with_reducible apply blockReset_keepsW
    | with_reducible refine KeepsW.step ?_ (dupMismatch_keeps (Keeps.refl _))
    | with_reducible refine KeepsW.step ?_ (autoDump_keeps (Keeps.refl _))
    | (simp only [↓keepsW_mk]; with_reducible refine KeepsWL.of ?_)
    | split)

theorem execRomRecoveryDatagram_keeps {source : NetSource} {offset : BitVec 64} {part : Bytes} {found : StartFound}
    {s : State} : KeepsR s (execRomRecoveryDatagram source offset part found s) := by
  unfold execRomRecoveryDatagram
  try dsimp only
  repeat' (first
    | with_reducible exact Keeps.refl _
    | with_reducible apply onTrayEver_keeps
    | with_reducible apply onTrayEver_keeps
    | with_reducible apply State.emit_keeps
    | with_reducible apply startFirmware_keeps
    | with_reducible apply configureTray_keeps
    | (simp only [↓keeps_mk]; with_reducible refine KeepsL.of ?_)
    | intro _
    | split)

theorem configureLeaf_keeps {d : BootDesc} {host : HostView} {found : StartFound} {s : State} {s0 : State} (hs
    : Keeps s0 s) : Keeps s0 (configureLeaf d host found s) := by
  unfold configureLeaf
  try dsimp only
  repeat' (first
    | with_reducible exact hs
    | with_reducible apply startBivouac_keeps
    | with_reducible apply hostFaults_keeps
    | with_reducible apply applyCfg_keeps
    | split)

theorem execBootDescriptorPoll_keeps {host : HostView} {found : StartFound} {s : State} : KeepsR s
    (execBootDescriptorPoll host found s) := by
  unfold execBootDescriptorPoll
  try dsimp only
  repeat' (first
    | with_reducible exact Keeps.refl _
    | with_reducible apply onLeafEver_keeps
    | with_reducible apply onLeafEver_keeps
    | with_reducible apply startFirmware_keeps
    | with_reducible apply configureLeaf_keeps
    | with_reducible apply hostFaults_keeps
    | (simp only [↓keeps_mk]; with_reducible refine KeepsL.of ?_)
    | intro _
    | split)

theorem takeAnchor_keeps {a : Anchor} {s : State} {s0 : State} (hs : Keeps s0 s) : Keeps s0 (takeAnchor a s) := by
  unfold takeAnchor
  try dsimp only
  repeat' (first
    | with_reducible exact hs
    | (simp only [↓keeps_mk]; with_reducible refine KeepsL.of ?_)
    | split)

theorem skipTo_keeps {k : Nat} {s : State} {s0 : State} (hs : Keeps s0 s) : Keeps s0 (skipTo k s) := by
  unfold skipTo
  try dsimp only
  repeat' (first
    | with_reducible exact hs
    | with_reducible exact Keeps.refl _
    | (simp only [↓keeps_mk]; with_reducible refine KeepsL.of ?_)
    | intro _
    | split)

theorem pushBoundary_keeps {k : Nat} {t : Ticks} {s : State} {s0 : State} (hs : Keeps s0 s) : Keeps s0
    (pushBoundary k t s) := by
  unfold pushBoundary
  try dsimp only
  repeat' (first
    | with_reducible exact hs
    | with_reducible apply cut_keeps
    | (simp only [↓keeps_mk]; with_reducible refine KeepsL.of ?_)
    | split)

theorem cutHealth_keeps {b : BoundaryIn} {s : State} {s0 : State} (hs : Keeps s0 s) : Keeps s0 (cutHealth b s) := by
  unfold cutHealth
  try dsimp only
  repeat' (first
    | with_reducible exact hs
    | with_reducible exact Keeps.refl _
    | with_reducible apply State.setHealth_keeps
    | with_reducible apply Keeps.foldl
    | intro _)

theorem closeDrain_keeps {s : State} {s0 : State} (hs : Keeps s0 s) : Keeps s0 (closeDrain s) := by
  unfold closeDrain
  try dsimp only
  repeat' (first
    | with_reducible exact hs
    | with_reducible apply State.setBit_keeps
    | (simp only [↓keeps_mk]; with_reducible refine KeepsL.of ?_)
    | split)

theorem nextMap_keeps {s : State} {s0 : State} (hs : Keeps s0 s) : Keeps s0 (nextMap s) := by
  unfold nextMap
  try dsimp only
  repeat' (first
    | with_reducible exact hs
    | (simp only [↓keeps_mk]; with_reducible refine KeepsL.of ?_)
    | split)

theorem firstRows_keeps {k : Nat} {s : State} {s0 : State} (hs : Keeps s0 s) : Keeps s0 (firstRows k s) := by
  unfold firstRows
  try dsimp only
  repeat' (first
    | with_reducible exact hs
    | with_reducible exact Keeps.refl _
    | (simp only [↓keeps_mk]; with_reducible refine KeepsL.of ?_)
    | intro _
    | split)

theorem cut_keeps {k : Nat} {x : Boundary} {b : BoundaryIn} {s : State} {s0 : State} (hs : Keeps s0 s) : Keeps s0
    (cut k x b s) := by
  unfold cut
  try dsimp only
  repeat' (first
    | with_reducible exact hs
    | with_reducible exact Keeps.refl _
    | with_reducible apply firstRows_keeps
    | with_reducible apply countStop_keeps
    | with_reducible apply cutHealth_keeps
    | with_reducible apply nextMap_keeps
    | with_reducible apply syncHeaders_keeps
    | with_reducible apply Keeps.foldl
    | (simp only [↓keeps_mk]; with_reducible refine KeepsL.of ?_)
    | intro _)

theorem leafBoundary_keeps {k : Nat} {b : BoundaryIn} {s : State} {s0 : State} (hs : Keeps s0 s) : Keeps s0
    (leafBoundary k b s) := by
  unfold leafBoundary
  try dsimp only
  repeat' (first
    | with_reducible exact hs
    | with_reducible apply overwriteRing_keeps
    | with_reducible apply boundary_keeps
    | with_reducible apply nextMap_keeps
    | with_reducible apply cut_keeps
    | with_reducible apply State.sendLeafStatus_keeps
    | with_reducible apply countGrantBoundary_keeps
    | with_reducible apply closeDrain_keeps
    | with_reducible apply reportLanes_keeps
    | (simp only [↓keeps_mk]; with_reducible refine KeepsL.of ?_)
    | split)

theorem applyRows_keeps {id : Nat} {img : Bytes} {s : State} {s0 : State} (hs : Keeps s0 s) : Keeps s0
    (applyRows id img s) := by
  unfold applyRows
  try dsimp only
  repeat' (first
    | with_reducible exact hs
    | with_reducible exact Keeps.refl _
    | with_reducible apply State.xfer_keeps
    | with_reducible apply State.onTable_keeps
    | with_reducible apply Keeps.foldl
    | with_reducible apply Keeps.elim
    | (simp only [↓keeps_mk]; with_reducible refine KeepsL.of ?_)
    | intro _)

theorem applySeedCkpt_keeps {id : Nat} {c : Ckpt} {s : State} {s0 : State} (hs : Keeps s0 s) : Keeps s0
    (applySeedCkpt id c s) := by
  unfold applySeedCkpt
  try dsimp only
  repeat' (first
    | with_reducible exact hs
    | with_reducible exact Keeps.refl _
    | with_reducible apply reinstall_keeps
    | with_reducible apply State.onTable_keeps
    | with_reducible apply Keeps.foldl
    | (simp only [↓keeps_mk]; with_reducible refine KeepsL.of ?_)
    | intro _
    | split)

theorem dropTable_keeps {id : Nat} {s : State} {s0 : State} (hs : Keeps s0 s) : Keeps s0 (dropTable id s) :=
  hs.trans ⟨rfl, rfl, rfl, rfl⟩

theorem applyAssign_keeps {c : Nat} {g : BitVec 16} {e : Option SetupEntry} {k : Nat} {t : Ticks} {s : State} {s0
    : State} (hs : Keeps s0 s) : Keeps s0 (applyAssign c g e k t s) := by
  unfold applyAssign
  try dsimp only
  repeat' (first
    | with_reducible exact hs
    | with_reducible exact Keeps.refl _
    | with_reducible apply activate_keeps
    | with_reducible apply moveUnits_keeps
    | with_reducible apply beginDrain_keeps
    | with_reducible apply leafEnd_keeps
    | (simp only [↓keeps_mk]; with_reducible refine KeepsL.of ?_)
    | intro _
    | split)

theorem applyFallback_keeps {ctx n k : Nat} {s : State} {s0 : State} (hs : Keeps s0 s) : Keeps s0
    (applyFallback ctx n k s) := by
  unfold applyFallback
  try dsimp only
  repeat' (first
    | with_reducible exact hs
    | with_reducible apply putPlacement_keeps
    | (simp only [↓keeps_mk]; with_reducible refine KeepsL.of ?_)
    | split)

theorem applyBnd_keeps {k : Nat} {t : Ticks} {a : Bnd} {s : State} {s0 : State} (hs : Keeps s0 s) : Keeps s0
    (applyBnd k t a s) := by
  unfold applyBnd
  try dsimp only
  repeat' (first
    | with_reducible exact hs
    | with_reducible exact Keeps.refl _
    | with_reducible apply applyFallback_keeps
    | with_reducible apply moveUnits_keeps
    | with_reducible apply applySeedCkpt_keeps
    | with_reducible apply detachSelf_keeps
    | with_reducible apply teamStart_keeps
    | with_reducible apply joinTeam_keeps
    | with_reducible apply State.xfer_keeps
    | with_reducible apply putPlacement_keeps
    | with_reducible apply twinHandsOver_keeps
    | with_reducible apply applyAssign_keeps
    | with_reducible apply start_keeps
    | with_reducible apply detachTwin_keeps
    | with_reducible apply applyRows_keeps
    | with_reducible apply State.onTable_keeps
    | with_reducible apply refreshActions_keeps
    | with_reducible apply dropTable_keeps
    | with_reducible apply Keeps.foldl
    | (simp only [↓keeps_mk]; with_reducible refine KeepsL.of ?_)
    | intro _
    | split)

theorem renameUnechoed_keeps {k : Nat} {s : State} {s0 : State} (hs : Keeps s0 s) : Keeps s0
    (renameUnechoed k s) := by
  unfold renameUnechoed
  try dsimp only
  repeat' (first
    | with_reducible exact hs
    | with_reducible exact Keeps.refl _
    | with_reducible apply sendTwin_keeps
    | with_reducible apply wait_keeps
    | with_reducible apply State.sendMsgAll_keeps
    | with_reducible apply Keeps.foldl
    | (simp only [↓keeps_mk]; with_reducible refine KeepsL.of ?_)
    | intro _
    | split)

theorem applyBnds_keeps {k : Nat} {t : Ticks} {s : State} {s0 : State} (hs : Keeps s0 s) : Keeps s0
    (applyBnds k t s) := by
  unfold applyBnds
  try dsimp only
  repeat' (first
    | with_reducible exact hs
    | with_reducible exact Keeps.refl _
    | with_reducible apply renameUnechoed_keeps
    | with_reducible apply applyBnd_keeps
    | with_reducible apply Keeps.foldl
    | (simp only [↓keeps_mk]; with_reducible refine KeepsL.of ?_)
    | intro _)

theorem newSheaves_keeps {x : Boundary} {s : State} {s0 : State} (hs : Keeps s0 s) : Keeps s0 (newSheaves x s) := by
  unfold newSheaves
  try dsimp only
  repeat' (first
    | with_reducible exact hs
    | with_reducible exact Keeps.refl _
    | with_reducible apply countFinished_keeps
    | with_reducible apply refreshVerdicts_keeps
    | with_reducible apply State.onCtx_keeps
    | with_reducible apply Keeps.foldl
    | (simp only [↓keeps_mk]; with_reducible refine KeepsL.of ?_)
    | intro _
    | split)

theorem holdNotices_keeps {k : Nat} {s : State} {s0 : State} (hs : Keeps s0 s) : Keeps s0 (holdNotices k s) := by
  unfold holdNotices
  try dsimp only
  repeat' (first
    | with_reducible exact hs
    | with_reducible exact Keeps.refl _
    | with_reducible apply State.sendCtlAll_keeps
    | with_reducible apply Keeps.foldl
    | intro _
    | split)

theorem sendSchedules_keeps {s : State} {s0 : State} (hs : Keeps s0 s) : Keeps s0 (sendSchedules s) := by
  unfold sendSchedules
  try dsimp only
  repeat' (first
    | with_reducible exact hs
    | with_reducible exact Keeps.refl _
    | with_reducible apply sendSchedSync_keeps
    | with_reducible apply Keeps.foldl
    | (simp only [↓keeps_mk]; with_reducible refine KeepsL.of ?_)
    | intro _
    | split)

theorem sendAssignment_keeps {slot k : Nat} {s : State} {s0 : State} (hs : Keeps s0 s) : Keeps s0
    (sendAssignment slot k s) := by
  unfold sendAssignment
  try dsimp only
  repeat' (first
    | with_reducible exact hs
    | with_reducible exact Keeps.refl _
    | with_reducible apply State.sendMsgAll_keeps
    | with_reducible apply Keeps.foldl
    | (simp only [↓keeps_mk]; with_reducible refine KeepsL.of ?_)
    | intro _
    | split)

theorem sendAssignments_keeps {k : Nat} {s : State} {s0 : State} (hs : Keeps s0 s) : Keeps s0
    (sendAssignments k s) := by
  unfold sendAssignments
  try dsimp only
  repeat' (first
    | with_reducible exact hs
    | with_reducible exact Keeps.refl _
    | with_reducible apply sendAssignment_keeps
    | with_reducible apply Keeps.foldl
    | (simp only [↓keeps_mk]; with_reducible refine KeepsL.of ?_)
    | intro _
    | split)

theorem slotBoundary_keeps {t : Ticks} {s : State} {s0 : State} (hs : Keeps s0 s) : Keeps s0 (slotBoundary t s) := by
  unfold slotBoundary
  try dsimp only
  repeat' (first
    | with_reducible exact hs
    | with_reducible exact Keeps.refl _
    | with_reducible apply State.metric_keeps
    | with_reducible apply Keeps.foldl
    | (simp only [↓keeps_mk]; with_reducible refine KeepsL.of ?_)
    | intro _
    | split)

theorem epochMetrics_keeps {k : Nat} {s : State} {s0 : State} (hs : Keeps s0 s) : Keeps s0 (epochMetrics k s) := by
  unfold epochMetrics
  try dsimp only
  repeat' (first
    | with_reducible exact hs
    | with_reducible exact Keeps.refl _
    | with_reducible apply State.metrics_keeps
    | (simp only [↓keeps_mk]; with_reducible refine KeepsL.of ?_)
    | intro _
    | split)

theorem resumeJobs_keeps {s : State} {s0 : State} (hs : Keeps s0 s) : Keeps s0 (resumeJobs s) := by
  unfold resumeJobs
  try dsimp only
  repeat' (first
    | with_reducible exact hs
    | with_reducible exact Keeps.refl _
    | (simp only [↓keeps_mk]; with_reducible refine KeepsL.of ?_)
    | intro _
    | split)

theorem pruneJobs_keeps {k : Nat} {s : State} {s0 : State} (hs : Keeps s0 s) : Keeps s0 (pruneJobs k s) :=
  hs.trans ⟨rfl, rfl, rfl, rfl⟩

theorem tellLanes_keeps {s : State} {s0 : State} (hs : Keeps s0 s) : Keeps s0 (tellLanes s) := by
  unfold tellLanes
  try dsimp only
  repeat' (first
    | with_reducible exact hs
    | with_reducible apply sendTwin_keeps
    | (simp only [↓keeps_mk]; with_reducible refine KeepsL.of ?_)
    | split)

theorem nameFallback_keeps {ctx : Nat} {s : State} {s0 : State} (hs : Keeps s0 s) : Keeps s0
    (nameFallback ctx s) := by
  unfold nameFallback
  try dsimp only
  repeat' (first
    | with_reducible exact hs
    | with_reducible exact Keeps.refl _
    | with_reducible apply nameMove_keeps
    | with_reducible apply State.count_keeps
    | with_reducible apply queueAlone_keeps
    | with_reducible apply Keeps.foldl
    | (simp only [↓keeps_mk]; with_reducible refine KeepsL.of ?_)
    | intro _
    | split)

theorem carryBoundary_keeps {k : Nat} {x : Boundary} {s : State} {s0 : State} (hs : Keeps s0 s) : Keeps s0
    (carryBoundary k x s) := by
  unfold carryBoundary
  try dsimp only
  repeat' (first
    | with_reducible exact hs
    | with_reducible exact Keeps.refl _
    | with_reducible apply holdNotices_keeps
    | with_reducible apply sendSchedules_keeps
    | with_reducible apply tellLanes_keeps
    | with_reducible apply epochMetrics_keeps
    | with_reducible apply decimate_keeps
    | with_reducible apply resumeJobs_keeps
    | with_reducible apply nameFallback_keeps
    | with_reducible apply newSheaves_keeps
    | with_reducible apply ckptDue_keeps
    | with_reducible apply repeatDecisions_keeps
    | with_reducible apply sendAssignments_keeps
    | with_reducible apply pruneJobs_keeps
    | with_reducible apply Keeps.foldl
    | intro _
    | split)

theorem trayBoundary_keeps {k : Nat} {x : Boundary} {s : State} {s0 : State} (hs : Keeps s0 s) : Keeps s0
    (trayBoundary k x s) := by
  unfold trayBoundary
  try dsimp only
  repeat' (first
    | with_reducible exact hs
    | with_reducible apply applyLoop_keeps
    | with_reducible apply startSync_keeps
    | with_reducible apply sendSafeGrants_keeps
    | with_reducible apply carryBoundary_keeps
    | with_reducible apply slotBoundary_keeps
    | split)

theorem boundary_keeps {k : Nat} {t : Ticks} {b : BoundaryIn} {s : State} {s0 : State} (hs : Keeps s0 s) : Keeps s0
    (boundary k t b s) := by
  unfold boundary
  try dsimp only
  repeat' (first
    | with_reducible exact hs
    | with_reducible apply handOver_keeps
    | with_reducible apply trayBoundary_keeps
    | with_reducible apply skipTo_keeps
    | with_reducible apply hangSample_keeps
    | with_reducible apply applyArms_keeps
    | with_reducible apply applyBnds_keeps
    | with_reducible apply leafBoundary_keeps
    | with_reducible apply pushBoundary_keeps
    | with_reducible apply ageSample_keeps
    | (simp only [↓keeps_mk]; with_reducible refine KeepsL.of ?_)
    | split)

theorem execEpochBoundary_keeps {b : BoundaryIn} {s : State} : KeepsR s (execEpochBoundary b s) := by
  unfold execEpochBoundary
  try dsimp only
  repeat' (first
    | with_reducible exact Keeps.refl _
    | with_reducible apply KeepsR.next
    | with_reducible apply boundary_keeps
    | with_reducible apply takeAnchor_keeps
    | (simp only [↓keeps_mk]; with_reducible refine KeepsL.of ?_)
    | split)

theorem countOptime_keeps {s : State} {s0 : State} (hs : Keeps s0 s) : Keeps s0 (countOptime s) := by
  unfold countOptime
  try dsimp only
  repeat' (first
    | with_reducible exact hs
    | (simp only [↓keeps_mk]; with_reducible refine KeepsL.of ?_)
    | split)

theorem endPulses_keeps {s : State} {s0 : State} (hs : Keeps s0 s) : Keeps s0 (endPulses s) := by
  unfold endPulses
  try dsimp only
  repeat' (first
    | with_reducible exact hs
    | with_reducible exact Keeps.refl _
    | (simp only [↓keeps_mk]; with_reducible refine KeepsL.of ?_)
    | intro _
    | split)

theorem beginCycle_keeps {s : State} {s0 : State} (hs : Keeps s0 s) : Keeps s0 (beginCycle s) := by
  unfold beginCycle
  try dsimp only
  repeat' (first
    | with_reducible exact hs
    | (simp only [↓keeps_mk]; with_reducible refine KeepsL.of ?_)
    | split)

theorem ppsEdge_keeps {before : BitVec 64} {s : State} {s0 : State} (hs : Keeps s0 s) : Keeps s0
    (ppsEdge before s) := by
  unfold ppsEdge
  try dsimp only
  repeat' (first
    | with_reducible exact hs
    | (simp only [↓keeps_mk]; with_reducible refine KeepsL.of ?_))

theorem valveEdge_keeps {t : Ticks} {s : State} {s0 : State} (hs : Keeps s0 s) : Keeps s0 (valveEdge t s) :=
  hs.trans ⟨rfl, rfl, rfl, rfl⟩

theorem shiftLanes_keeps {d : Int} {s : State} {s0 : State} (hs : Keeps s0 s) : Keeps s0 (shiftLanes d s) := by
  unfold shiftLanes
  try dsimp only
  repeat' (first
    | with_reducible exact hs
    | with_reducible exact Keeps.refl _
    | (simp only [↓keeps_mk]; with_reducible refine KeepsL.of ?_)
    | intro _
    | split)

theorem aloneEdge_keeps {s : State} {s0 : State} (hs : Keeps s0 s) : Keeps s0 (aloneEdge s) :=
  hs.trans ⟨rfl, rfl, rfl, rfl⟩

theorem trstEdge_keeps {s : State} {s0 : State} (hs : Keeps s0 s) : Keeps s0 (trstEdge s) := by
  unfold trstEdge
  try dsimp only
  repeat' (first
    | with_reducible exact hs
    | (simp only [↓keeps_mk]; with_reducible refine KeepsL.of ?_)
    | split)

theorem fillAllowance_keeps {s : State} {s0 : State} (hs : Keeps s0 s) : Keeps s0 (fillAllowance s) :=
  hs.trans ⟨rfl, rfl, rfl, rfl⟩

theorem resumeEdge_keeps {s : State} {s0 : State} (hs : Keeps s0 s) : Keeps s0 (resumeEdge s) := by
  unfold resumeEdge
  try dsimp only
  repeat' (first
    | with_reducible exact hs
    | with_reducible apply nextResume_keeps
    | split)

theorem clockEdge_keeps {s : State} {s0 : State} (hs : Keeps s0 s) : Keeps s0 (clockEdge s) := by
  unfold clockEdge
  try dsimp only
  repeat' (first
    | with_reducible exact hs
    | with_reducible apply shiftLanes_keeps
    | with_reducible apply aloneEdge_keeps
    | with_reducible apply resumeEdge_keeps
    | with_reducible apply fillAllowance_keeps
    | with_reducible apply watchCycle_keeps
    | with_reducible apply valveEdge_keeps
    | with_reducible apply countOptime_keeps
    | with_reducible apply ppsEdge_keeps
    | with_reducible apply trstEdge_keeps
    | with_reducible apply transferSlots_keeps
    | (simp only [↓keeps_mk]; with_reducible refine KeepsL.of ?_))

theorem tick_keeps {s : State} {s0 : State} (hs : Keeps s0 s) : Keeps s0 (tick s) := by
  unfold tick
  try dsimp only
  repeat' (first
    | with_reducible exact hs
    | with_reducible apply clockEdge_keeps
    | with_reducible apply beginCycle_keeps
    | with_reducible apply valveEdge_keeps
    | with_reducible apply endPulses_keeps
    | (simp only [↓keeps_mk]; with_reducible refine KeepsL.of ?_)
    | split)

theorem execDataPosition_keeps {lane : Nat} {s : State} : KeepsR s (execDataPosition lane s) := by
  unfold execDataPosition
  try dsimp only
  repeat' (first
    | with_reducible exact Keeps.refl _
    | with_reducible apply KeepsR.next
    | with_reducible apply State.onLane_keeps
    | with_reducible apply State.emit_keeps
    | (simp only [↓keeps_mk]; with_reducible refine KeepsL.of ?_)
    | intro _
    | split)

theorem moveStreams_keeps {lane failed : Nat} {mids : List (BitVec 32)} {s : State} {s0 : State} (hs : Keeps s0 s)
    : Keeps s0 (moveStreams lane failed mids s) := by
  unfold moveStreams
  try dsimp only
  repeat' (first
    | with_reducible exact hs
    | with_reducible exact Keeps.refl _
    | with_reducible apply State.onLane_keeps
    | with_reducible apply Keeps.foldl
    | (simp only [↓keeps_mk]; with_reducible refine KeepsL.of ?_)
    | intro _
    | split)

theorem spareMove_keeps {lane : Nat} {s : State} {s0 : State} (hs : Keeps s0 s) : Keeps s0 (spareMove lane s) := by
  unfold spareMove
  try dsimp only
  repeat' (first
    | with_reducible exact hs
    | with_reducible exact Keeps.refl _
    | with_reducible apply startRetune_keeps
    | with_reducible apply moveStreams_keeps
    | (simp only [↓keeps_mk]; with_reducible refine KeepsL.of ?_)
    | intro _
    | split)

theorem execControlCellSend_keeps {lane : Nat} {s : State} : KeepsR s (execControlCellSend lane s) := by
  unfold execControlCellSend
  try dsimp only
  repeat' (first
    | with_reducible exact Keeps.refl _
    | with_reducible apply KeepsR.next
    | with_reducible apply State.onLane_keeps
    | with_reducible apply spareMove_keeps
    | with_reducible apply State.emit_keeps
    | with_reducible apply Keeps.foldl
    | (simp only [↓keeps_mk]; with_reducible refine KeepsL.of ?_)
    | intro _
    | split)

theorem takeTimeArea_keeps {lane : Nat} {area : Bytes} {t4 : Ticks} {s : State} {s0 : State} (hs : Keeps s0 s)
    : Keeps s0 (takeTimeArea lane area t4 s) := by
  unfold takeTimeArea
  try dsimp only
  repeat' (first
    | with_reducible exact hs
    | with_reducible exact Keeps.refl _
    | with_reducible apply State.onLane_keeps
    | (simp only [↓keeps_mk]; with_reducible refine KeepsL.of ?_)
    | intro _
    | split)

theorem takeControl_keeps {lane : Nat} {good : Bool} {body : Bytes} {pitch : BitVec 56} {t4 : Ticks} {s : State}
    {s0 : State} (hs : Keeps s0 s) : Keeps s0 (takeControl lane good body pitch t4 s) := by
  unfold takeControl
  try dsimp only
  repeat' (first
    | with_reducible exact hs
    | with_reducible exact Keeps.refl _
    | with_reducible apply State.onLane_keeps
    | with_reducible apply takeTimeArea_keeps
    | (simp only [↓keeps_mk]; with_reducible refine KeepsL.of ?_)
    | intro _
    | split)

theorem execControlCellReceive_keeps {lane : Nat} {cell : Bytes} {stamp : Ticks} {latAdj : BitVec 8} {s : State}
    : KeepsR s (execControlCellReceive lane cell stamp latAdj s) := by
  unfold execControlCellReceive
  try dsimp only
  repeat' (first
    | with_reducible exact Keeps.refl _
    | with_reducible apply KeepsR.next
    | with_reducible apply State.onLane_keeps
    | with_reducible apply linkLost_keeps
    | with_reducible apply reselect_keeps
    | with_reducible apply laneDrop_keeps
    | with_reducible apply takeControl_keeps
    | (simp only [↓keeps_mk]; with_reducible refine KeepsL.of ?_)
    | intro _
    | split)

theorem relayCell_keeps {lane : Nat} {part pay : Bytes} {s : State} {s0 : State} (hs : Keeps s0 s) : Keeps s0
    (relayCell lane part pay s) := by
  unfold relayCell
  try dsimp only
  repeat' (first
    | with_reducible exact hs
    | with_reducible exact Keeps.refl _
    | with_reducible apply State.onLane_keeps
    | (simp only [↓keeps_mk]; with_reducible refine KeepsL.of ?_)
    | intro _
    | split)

theorem unrelay_keeps {lane : Nat} {s : State} {s0 : State} (hs : Keeps s0 s) : Keeps s0 (unrelay lane s) :=
  hs.trans ⟨rfl, rfl, rfl, rfl⟩

theorem takeCell_keeps {lane vc share : Nat} {hdr : Nat} {pay : Bytes} {s : State} {s0 : State} (hs : Keeps s0 s)
    : Keeps s0 (takeCell lane vc share hdr pay s) := by
  unfold takeCell
  try dsimp only
  repeat' (first
    | with_reducible exact hs
    | with_reducible exact Keeps.refl _
    | with_reducible apply State.onLane_keeps
    | with_reducible apply unrelay_keeps
    | with_reducible apply relayCell_keeps
    | (simp only [↓keeps_mk]; with_reducible refine KeepsL.of ?_)
    | intro _
    | split)

theorem recordDiscarded_keeps {lane : Nat} {part : Bytes} {s : State} {s0 : State} (hs : Keeps s0 s) : Keeps s0
    (recordDiscarded lane part s) := by
  unfold recordDiscarded
  try dsimp only
  repeat' (first
    | with_reducible exact hs
    | with_reducible apply startRecovery_keeps
    | (simp only [↓keeps_mk]; with_reducible refine KeepsL.of ?_)
    | split)

theorem discard_keeps {lane vc share counter : Nat} {hdrs : List Nat} {s : State} {s0 : State} (hs : Keeps s0 s)
    : Keeps s0 (discard lane vc share counter hdrs s) := by
  unfold discard
  try dsimp only
  repeat' (first
    | with_reducible exact hs
    | with_reducible exact Keeps.refl _
    | with_reducible apply State.onLane_keeps
    | with_reducible apply recordDiscarded_keeps
    | with_reducible apply unrelay_keeps
    | (simp only [↓keeps_mk]; with_reducible refine KeepsL.of ?_)
    | intro _
    | split)

theorem takeCells_keeps {lane vc share : Nat} {cells : List RxCell} {hs : List Nat} {ps : List Bytes} {s s0 : State}
    (h : Keeps s0 s) : Keeps s0 (takeCells lane vc share cells hs ps s) := by
  induction cells generalizing hs ps s with
  | nil => exact h
  | cons c cs ih =>
    cases hs with
    | nil => exact h
    | cons a hs =>
      cases ps with
      | nil => exact h
      | cons p ps =>
        unfold takeCells
        dsimp only
        split
        · exact ih (takeCell_keeps h)
        · exact ih (discard_keeps h)

theorem execDataGroupReceive_keeps {lane : Nat} {cells : List RxCell} {s : State} : KeepsR s
    (execDataGroupReceive lane cells s) := by
  unfold execDataGroupReceive
  try dsimp only
  repeat' (first
    | with_reducible exact Keeps.refl _
    | with_reducible apply KeepsR.next
    | with_reducible apply discard_keeps
    | with_reducible apply State.onLane_keeps
    | with_reducible apply takeCells_keeps
    | with_reducible apply linkLost_keeps
    | with_reducible apply laneDrop_keeps
    | (simp only [↓keeps_mk]; with_reducible refine KeepsL.of ?_)
    | intro _
    | split)

theorem execLaneDetect_keeps {lane : Nat} {s : State} : KeepsR s (execLaneDetect lane s) := by
  unfold execLaneDetect
  try dsimp only
  repeat' (first
    | with_reducible exact Keeps.refl _
    | with_reducible apply KeepsR.next
    | with_reducible apply State.onLane_keeps
    | intro _
    | split)

theorem execEqualise_keeps {lane : Nat} {presets : List (BitVec 24 × Nat)} {s : State} : KeepsR s
    (execEqualise lane presets s) := by
  unfold execEqualise
  try dsimp only
  repeat' (first
    | with_reducible exact Keeps.refl _
    | with_reducible apply KeepsR.next
    | with_reducible apply State.onLane_keeps
    | (simp only [↓keeps_mk]; with_reducible refine KeepsL.of ?_)
    | intro _
    | split)

theorem execPitchAlign_keeps {lane : Nat} {pitches : List (BitVec 56)} {seen : AlignSeen} {nonce : Bytes} {s
    : State} : KeepsR s (execPitchAlign lane pitches seen nonce s) := by
  unfold execPitchAlign
  try dsimp only
  repeat' (first
    | with_reducible exact Keeps.refl _
    | with_reducible apply KeepsR.next
    | with_reducible apply State.onLane_keeps
    | with_reducible apply State.emit_keeps
    | (simp only [↓keeps_mk]; with_reducible refine KeepsL.of ?_)
    | intro _
    | split)

theorem execHello_keeps {lane : Nat} {h : Hello} {s : State} : KeepsR s (execHello lane h s) := by
  unfold execHello
  try dsimp only
  repeat' (first
    | with_reducible exact Keeps.refl _
    | with_reducible apply KeepsR.next
    | with_reducible apply belayRevisions_keeps
    | with_reducible apply State.onLane_keeps
    | with_reducible apply planMismatch_keeps
    | with_reducible apply State.setBit_keeps
    | with_reducible apply State.errCount_keeps
    | (simp only [↓keeps_mk]; with_reducible refine KeepsL.of ?_)
    | intro _
    | split)

theorem execKeyed_keeps {lane : Nat} {fabBase : Nat} {nextEphemeral : Bytes} {s : State} : KeepsR s
    (execKeyed lane fabBase nextEphemeral s) := by
  unfold execKeyed
  try dsimp only
  repeat' (first
    | with_reducible exact Keeps.refl _
    | with_reducible apply KeepsR.next
    | with_reducible apply State.onLane_keeps
    | with_reducible apply linkCameUp_keeps
    | with_reducible apply retuneGo_keeps
    | (simp only [↓keeps_mk]; with_reducible refine KeepsL.of ?_)
    | intro _
    | split)

theorem execTrainTimeout_keeps {lane : Nat} {s : State} : KeepsR s (execTrainTimeout lane s) := by
  unfold execTrainTimeout
  try dsimp only
  repeat' (first
    | with_reducible exact Keeps.refl _
    | with_reducible apply KeepsR.next
    | with_reducible apply State.onLane_keeps
    | (simp only [↓keeps_mk]; with_reducible refine KeepsL.of ?_)
    | intro _
    | split)

theorem execLaneFailedRetry_keeps {lane : Nat} {s : State} : KeepsR s (execLaneFailedRetry lane s) := by
  unfold execLaneFailedRetry
  try dsimp only
  repeat' (first
    | with_reducible exact Keeps.refl _
    | with_reducible apply KeepsR.next
    | with_reducible apply State.onLane_keeps
    | (simp only [↓keeps_mk]; with_reducible refine KeepsL.of ?_)
    | intro _
    | split)

theorem execLaneLeaveUp_keeps {lane : Nat} {cdr : Bool} {s : State} : KeepsR s (execLaneLeaveUp lane cdr s) := by
  unfold execLaneLeaveUp
  try dsimp only
  repeat' (first
    | with_reducible exact Keeps.refl _
    | with_reducible apply KeepsR.next
    | with_reducible apply linkLost_keeps
    | with_reducible apply laneDrop_keeps
    | split)

theorem execMarkerLost_keeps {lane : Nat} {misses : Nat} {s : State} : KeepsR s (execMarkerLost lane misses s) := by
  unfold execMarkerLost
  try dsimp only
  repeat' (first
    | with_reducible exact Keeps.refl _
    | with_reducible apply KeepsR.next
    | with_reducible apply State.onLane_keeps
    | with_reducible apply linkLost_keeps
    | with_reducible apply laneDrop_keeps
    | (simp only [↓keeps_mk]; with_reducible refine KeepsL.of ?_)
    | intro _
    | split)

theorem execKeyOffer_keeps {lane : Nat} {key : Bytes} {s : State} : KeepsR s (execKeyOffer lane key s) := by
  unfold execKeyOffer
  try dsimp only
  repeat' (first
    | with_reducible exact Keeps.refl _
    | with_reducible apply KeepsR.next
    | with_reducible apply State.taken_keeps
    | with_reducible apply State.onLane_keeps
    | (simp only [↓keeps_mk]; with_reducible refine KeepsL.of ?_)
    | intro _
    | split)

theorem execKeyGeneration_keeps {lane : Nat} {nextEphemeral : Bytes} {s : State} : KeepsR s
    (execKeyGeneration lane nextEphemeral s) := by
  unfold execKeyGeneration
  try dsimp only
  repeat' (first
    | with_reducible exact Keeps.refl _
    | with_reducible apply KeepsR.next
    | with_reducible apply State.onLane_keeps
    | (simp only [↓keeps_mk]; with_reducible refine KeepsL.of ?_)
    | intro _
    | split)

theorem execKeyTimeout_keeps {lane : Nat} {s : State} : KeepsR s (execKeyTimeout lane s) := by
  unfold execKeyTimeout
  try dsimp only
  repeat' (first
    | with_reducible exact Keeps.refl _
    | with_reducible apply KeepsR.next
    | with_reducible apply linkLost_keeps
    | with_reducible apply laneDrop_keeps
    | (simp only [↓keeps_mk]; with_reducible refine KeepsL.of ?_)
    | intro _
    | split)

theorem execSpareSwitch_keeps {lane : Nat} {failed : Nat} {mids : List (BitVec 32)} {s : State} : KeepsR s
    (execSpareSwitch lane failed mids s) := by
  unfold execSpareSwitch
  try dsimp only
  repeat' (first
    | with_reducible exact Keeps.refl _
    | with_reducible apply KeepsR.next
    | with_reducible apply State.taken_keeps
    | with_reducible apply State.onLane_keeps
    | (simp only [↓keeps_mk]; with_reducible refine KeepsL.of ?_)
    | intro _
    | split)

theorem execSampleSet_keeps {m : Nat} {s : State} : KeepsR s (execSampleSet m s) := by
  unfold execSampleSet
  try dsimp only
  repeat' (first
    | with_reducible exact Keeps.refl _
    | with_reducible apply onLeaf_keeps
    | with_reducible apply fail_keeps
    | with_reducible apply bndDone_keeps
    | with_reducible apply onRunning_keeps
    | (simp only [↓keeps_mk]; with_reducible refine KeepsL.of ?_)
    | intro _
    | split)

theorem execCntRead_keeps {m : Nat} {s : State} : KeepsR s (execCntRead m s) := by
  unfold execCntRead
  try dsimp only
  repeat' (first
    | with_reducible exact Keeps.refl _
    | with_reducible apply onLeaf_keeps
    | with_reducible apply fail_keeps
    | with_reducible apply onRunning_keeps
    | with_reducible apply done_keeps
    | (simp only [↓keeps_mk]; with_reducible refine KeepsL.of ?_)
    | intro _
    | split)

theorem execTraceSet_keeps {m : Nat} {s : State} : KeepsR s (execTraceSet m s) := by
  unfold execTraceSet
  try dsimp only
  repeat' (first
    | with_reducible exact Keeps.refl _
    | with_reducible apply onLeaf_keeps
    | with_reducible apply fail_keeps
    | with_reducible apply onRunning_keeps
    | with_reducible apply State.onShareTrc_keeps
    | with_reducible apply done_keeps
    | (simp only [↓keeps_mk]; with_reducible refine KeepsL.of ?_)
    | intro _
    | split)

theorem execWatchFeedSet_keeps {m : Nat} {s : State} : KeepsR s (execWatchFeedSet m s) := by
  unfold execWatchFeedSet
  try dsimp only
  repeat' (first
    | with_reducible exact Keeps.refl _
    | with_reducible apply onLeaf_keeps
    | with_reducible apply State.onWatch_keeps
    | with_reducible apply fail_keeps
    | with_reducible apply onRunning_keeps
    | with_reducible apply done_keeps
    | (simp only [↓keeps_mk]; with_reducible refine KeepsL.of ?_)
    | intro _
    | split)

theorem execWatchSet_keeps {m : Nat} {s : State} : KeepsR s (execWatchSet m s) := by
  unfold execWatchSet
  try dsimp only
  repeat' (first
    | with_reducible exact Keeps.refl _
    | with_reducible apply onLeaf_keeps
    | with_reducible apply State.onWatch_keeps
    | with_reducible apply fail_keeps
    | with_reducible apply State.count_keeps
    | with_reducible apply onRunning_keeps
    | with_reducible apply done_keeps
    | (simp only [↓keeps_mk]; with_reducible refine KeepsL.of ?_)
    | intro _
    | split)

theorem execWatchClear_keeps {m : Nat} {s : State} : KeepsR s (execWatchClear m s) := by
  unfold execWatchClear
  try dsimp only
  repeat' (first
    | with_reducible exact Keeps.refl _
    | with_reducible apply onLeaf_keeps
    | with_reducible apply State.onWatch_keeps
    | with_reducible apply fail_keeps
    | with_reducible apply onRunning_keeps
    | with_reducible apply done_keeps
    | (simp only [↓keeps_mk]; with_reducible refine KeepsL.of ?_)
    | intro _
    | split)

theorem execBrkResume_keeps {m : Nat} {s : State} : KeepsR s (execBrkResume m s) := by
  unfold execBrkResume
  try dsimp only
  repeat' (first
    | with_reducible exact Keeps.refl _
    | with_reducible apply onLeaf_keeps
    | with_reducible apply fail_keeps
    | with_reducible apply wait_keeps
    | with_reducible apply onRunning_keeps
    | (simp only [↓keeps_mk]; with_reducible refine KeepsL.of ?_)
    | intro _
    | split)

theorem execStopRelease_keeps {m : Nat} {s : State} : KeepsR s (execStopRelease m s) := by
  unfold execStopRelease
  try dsimp only
  repeat' (first
    | with_reducible exact Keeps.refl _
    | with_reducible apply onLeaf_keeps
    | with_reducible apply fail_keeps
    | with_reducible apply onRunning_keeps
    | with_reducible apply nameRelease_keeps
    | with_reducible apply done_keeps
    | intro _
    | split)

theorem replayBase_keeps {ctx k0 : Nat} {c : Ckpt} {twinRaw : List Bytes} {s : State} {s0 : State} (hs
    : Keeps s0 s) : Keeps s0 (replayBase ctx k0 c twinRaw s) := by
  unfold replayBase
  try dsimp only
  repeat' (first
    | with_reducible exact hs
    | with_reducible exact Keeps.refl _
    | (simp only [↓keeps_mk]; with_reducible refine KeepsL.of ?_)
    | intro _
    | split)

theorem replayLeaves_keeps {ctx k : Nat} {h : Sheaf} {s : State} {s0 : State} (hs : Keeps s0 s) : Keeps s0
    (replayLeaves ctx k h s) := by
  unfold replayLeaves
  try dsimp only
  repeat' (first
    | with_reducible exact hs
    | with_reducible exact Keeps.refl _
    | with_reducible apply State.onSheaf_keeps
    | with_reducible apply Keeps.foldl
    | (simp only [↓keeps_mk]; with_reducible refine KeepsL.of ?_)
    | intro _
    | split)

theorem replayRows_keeps {k : Nat} {s : State} {s0 : State} (hs : Keeps s0 s) : Keeps s0 (replayRows k s) := by
  unfold replayRows
  try dsimp only
  repeat' (first
    | with_reducible exact hs
    | with_reducible exact Keeps.refl _
    | with_reducible apply thresherUpdate_keeps
    | with_reducible apply Keeps.foldl
    | intro _)

theorem replayFreeze_keeps {ctx k : Nat} {s : State} {s0 : State} (hs : Keeps s0 s) : Keeps s0
    (replayFreeze ctx k s) := by
  unfold replayFreeze
  try dsimp only
  repeat' (first
    | with_reducible exact hs
    | with_reducible exact Keeps.refl _
    | with_reducible apply Keeps.foldl
    | (simp only [↓keeps_mk]; with_reducible refine KeepsL.of ?_)
    | intro _)

theorem replayScore_keeps {k : Nat} {x : PlaceEntry × Nat × Nat} {s s0 : State} (hs : Keeps s0 s) :
    Keeps s0 (replayScore k x s) := by
  unfold replayScore
  dsimp only
  split
  · exact hs
  · split
    · split
      · exact countVerdict_keeps (putJob_keeps (slotStart_keeps hs ‹_›))
      · exact hs
    · split
      · exact countVerdict_keeps (putJob_keeps hs)
      · exact hs

theorem replayEpoch_keeps {ctx k : Nat} {s : State} {s0 : State} (hs : Keeps s0 s) : Keeps s0
    (replayEpoch ctx k s) := by
  unfold replayEpoch
  try dsimp only
  repeat' (first
    | with_reducible exact hs
    | with_reducible exact Keeps.refl _
    | with_reducible apply refreshVerdicts_keeps
    | with_reducible apply replayLeaves_keeps
    | with_reducible apply replayRows_keeps
    | with_reducible apply State.onSheaf_keeps
    | with_reducible apply replayFreeze_keeps
    | with_reducible apply replayScore_keeps
    | with_reducible apply Keeps.foldl
    | (simp only [↓keeps_mk]; with_reducible refine KeepsL.of ?_)
    | intro _
    | split)

theorem replayFrom_keeps {ctx k0 n : Nat} {s s0 : State} (hs : Keeps s0 s) : Keeps s0 (replayFrom ctx k0 n s) := by
  induction n generalizing s with
  | zero => exact hs
  | succ n ih => exact replayEpoch_keeps (ih hs)

theorem trayResend_keeps {lane k subj ctx what : Nat} {twinRaw : List Bytes} {s : State} {s0 : State} (hs
    : Keeps s0 s) : Keeps s0 (trayResend lane k subj ctx what twinRaw s) := by
  unfold trayResend
  try dsimp only
  repeat' (first
    | with_reducible exact hs
    | with_reducible exact Keeps.refl _
    | with_reducible apply sendTwin_keeps
    | with_reducible apply noteCkpt_keeps
    | with_reducible apply State.sendCtlAll_keeps
    | with_reducible apply State.sendMsg_keeps
    | with_reducible apply State.noteDecode_keeps
    | with_reducible apply Keeps.foldl
    | with_reducible apply Keeps.elim
    | (simp only [↓keeps_mk]; with_reducible refine KeepsL.of ?_)
    | intro _
    | split)

theorem execResendReq_keeps {lane : Nat} {x : ResendIn} {s : State} : KeepsR s (execResendReq lane x s) := by
  unfold execResendReq
  try dsimp only
  repeat' (first
    | with_reducible exact Keeps.refl _
    | with_reducible apply whenClocked_keeps
    | with_reducible apply KeepsR.next
    | with_reducible apply State.taken_keeps
    | with_reducible apply leafResend_keeps
    | with_reducible apply trayResend_keeps
    | (simp only [↓keeps_mk]; with_reducible refine KeepsL.of ?_)
    | intro _
    | split)

end Sys2Proof.Machine
end

