-- ==== Sys2Proof/Laws/Keyed.lean ====
section
/-!
SUPPORT. Lists keyed by a number: what changing the entry of one key does to a search for a key, for lanes, stooks, contexts,
mailboxes and unit classes.
-/

namespace Sys2Proof.Machine

set_option Elab.async false

/-- Changing the entries of key n, keys kept, changes what a search for n finds and no other search. -/
theorem find_mapIf {α : Type} (key : α → Nat) (f : α → α) (hf : ∀ a, key (f a) = key a) (l : List α) (n m : Nat) :
    (mapIf (fun a => key a == n) f l).find? (fun a => key a == m) =
      if m = n then (l.find? fun a => key a == m).map f else l.find? fun a => key a == m := by
  induction l with
  | nil => simp [mapIf]
  | cons a l ih =>
    have hm : mapIf (fun a => key a == n) f (a :: l) =
        (if key a == n then f a else a) :: mapIf (fun a => key a == n) f l := rfl
    have hk : key (if key a == n then f a else a) = key a := by split <;> simp [hf]
    rw [hm, List.find?_cons, List.find?_cons, ih, hk]
    by_cases h2 : key a = m
    · subst h2
      by_cases h3 : key a = n <;> simp [h3]
    · have h2' : (key a == m) = false := by simp [h2]
      rw [h2']

theorem lane?_onLane (s : State) (f : Lane → Lane) (hf : ∀ l, (f l).n = l.n) (n m : Nat) :
    (s.onLane n f).lane? m = if m = n then (s.lane? m).map f else s.lane? m :=
  find_mapIf (fun l : Lane => l.n) f hf s.lanes n m

theorem stook?_onStook (s : State) (f : Stook → Stook) (hf : ∀ x, (f x).s = x.s) (n m : Nat) :
    (s.onStook n f).stook? m = if m = n then (s.stook? m).map f else s.stook? m :=
  find_mapIf (fun x : Stook => x.s) f hf s.cap.stooks n m

theorem ctx?_onCtx (s : State) (f : Ctx → Ctx) (hf : ∀ x, (f x).id = x.id) (n m : Nat) :
    (s.onCtx n f).ctx? m = if m = n then (s.ctx? m).map f else s.ctx? m :=
  find_mapIf (fun x : Ctx => x.id) f hf s.ctxs n m

theorem mbx?_onMbx (s : State) (f : Mbx → Mbx) (hf : ∀ x, (f x).n = x.n) (n m : Nat) :
    (s.onMbx n f).mbx? m = if m = n then (s.mbx? m).map f else s.mbx? m :=
  find_mapIf (fun x : Mbx => x.n) f hf s.stw.mbxs n m

theorem unit?_onClass (s : State) (f : UnitClass → UnitClass) (hf : ∀ x, (f x).cls = x.cls) (n m : Nat) :
    (s.onClass n f).unit? m = if m = n then (s.unit? m).map f else s.unit? m :=
  find_mapIf (fun x : UnitClass => x.cls) f hf s.err.units n m

end Sys2Proof.Machine
end

