-- ==== Sys2Proof/Laws/State.lean ====
section
/-!
SUPPORT. What the small updates of the state leave as it was: for each, one simp lemma with an equation per field.
-/

namespace Sys2Proof.Machine

@[simp] theorem State.setBit_fields (s : State) (r : StatReg) (i : Nat) :
    (s.setBit r i).profile = s.profile ∧ (s.setBit r i).cfg = s.cfg ∧ (s.setBit r i).straps = s.straps ∧
    (s.setBit r i).pins = s.pins ∧ (s.setBit r i).edges = s.edges ∧ (s.setBit r i).pwrEdge = s.pwrEdge ∧
    (s.setBit r i).sb = s.sb ∧ (s.setBit r i).i3c = s.i3c ∧ (s.setBit r i).hfAllow = s.hfAllow ∧
    (s.setBit r i).tim = s.tim ∧ (s.setBit r i).sched = s.sched ∧ (s.setBit r i).lanes = s.lanes ∧
    (s.setBit r i).cap = s.cap ∧ (s.setBit r i).ctxs = s.ctxs ∧ (s.setBit r i).setups = s.setups ∧
    (s.setBit r i).red = s.red ∧ (s.setBit r i).trc = s.trc ∧ (s.setBit r i).watch = s.watch ∧
    (s.setBit r i).lateReads = s.lateReads ∧
    (s.setBit r i).stop = s.stop ∧ (s.setBit r i).brk = s.brk ∧ (s.setBit r i).capt = s.capt ∧
    (s.setBit r i).captOut = s.captOut ∧ (s.setBit r i).mem = s.mem ∧ (s.setBit r i).chans = s.chans ∧
    (s.setBit r i).raw = s.raw ∧ (s.setBit r i).act = s.act ∧ (s.setBit r i).grant = s.grant ∧
    (s.setBit r i).err = s.err ∧ (s.setBit r i).age = s.age ∧ (s.setBit r i).otp = s.otp ∧
    (s.setBit r i).optime = s.optime ∧ (s.setBit r i).fab = s.fab ∧ (s.setBit r i).stw = s.stw ∧
    (s.setBit r i).flash = s.flash ∧ (s.setBit r i).evr = s.evr ∧ (s.setBit r i).ident = s.ident ∧
    (s.setBit r i).boot = s.boot ∧ (s.setBit r i).hangs = s.hangs ∧ (s.setBit r i).hostStall = s.hostStall ∧
    (s.setBit r i).dump = s.dump ∧ (s.setBit r i).mode = s.mode ∧ (s.setBit r i).twin = s.twin ∧
    (s.setBit r i).latches = s.latches ∧ (s.setBit r i).inbox = s.inbox ∧ (s.setBit r i).out = s.out ∧
    (s.setBit r i).pending = s.pending := by
  and_intros <;> rfl

@[simp] theorem State.setBit_set (s : State) (r : StatReg) (i : Nat) :
    (s.setBit r i).sticky = s.sticky.set r i ∧
    (s.setBit r i).raisedNow = s.raisedNow.set r i := by
  and_intros <;> rfl

@[simp] theorem State.xfer_fields (s : State) (cls : XferClass) (chan n : Nat) :
    (s.xfer cls chan n).profile = s.profile ∧ (s.xfer cls chan n).cfg = s.cfg ∧
    (s.xfer cls chan n).straps = s.straps ∧ (s.xfer cls chan n).pins = s.pins ∧
    (s.xfer cls chan n).edges = s.edges ∧ (s.xfer cls chan n).pwrEdge = s.pwrEdge ∧ (s.xfer cls chan n).sb = s.sb ∧
    (s.xfer cls chan n).i3c = s.i3c ∧ (s.xfer cls chan n).hfAllow = s.hfAllow ∧ (s.xfer cls chan n).tim = s.tim ∧
    (s.xfer cls chan n).sched = s.sched ∧ (s.xfer cls chan n).lanes = s.lanes ∧ (s.xfer cls chan n).cap = s.cap ∧
    (s.xfer cls chan n).ctxs = s.ctxs ∧ (s.xfer cls chan n).setups = s.setups ∧ (s.xfer cls chan n).red = s.red ∧
    (s.xfer cls chan n).trc = s.trc ∧ (s.xfer cls chan n).watch = s.watch ∧
    (s.xfer cls chan n).lateReads = s.lateReads ∧ (s.xfer cls chan n).stop = s.stop ∧
    (s.xfer cls chan n).brk = s.brk ∧ (s.xfer cls chan n).capt = s.capt ∧ (s.xfer cls chan n).captOut = s.captOut ∧
    (s.xfer cls chan n).mem = s.mem ∧ (s.xfer cls chan n).raw = s.raw ∧ (s.xfer cls chan n).act = s.act ∧
    (s.xfer cls chan n).grant = s.grant ∧ (s.xfer cls chan n).err = s.err ∧ (s.xfer cls chan n).age = s.age ∧
    (s.xfer cls chan n).otp = s.otp ∧ (s.xfer cls chan n).optime = s.optime ∧ (s.xfer cls chan n).fab = s.fab ∧
    (s.xfer cls chan n).stw = s.stw ∧ (s.xfer cls chan n).flash = s.flash ∧ (s.xfer cls chan n).evr = s.evr ∧
    (s.xfer cls chan n).ident = s.ident ∧ (s.xfer cls chan n).boot = s.boot ∧ (s.xfer cls chan n).hangs = s.hangs ∧
    (s.xfer cls chan n).hostStall = s.hostStall ∧ (s.xfer cls chan n).dump = s.dump ∧
    (s.xfer cls chan n).mode = s.mode ∧ (s.xfer cls chan n).twin = s.twin ∧ (s.xfer cls chan n).sticky = s.sticky ∧
    (s.xfer cls chan n).raisedNow = s.raisedNow ∧ (s.xfer cls chan n).latches = s.latches ∧
    (s.xfer cls chan n).inbox = s.inbox ∧ (s.xfer cls chan n).out = s.out ∧
    (s.xfer cls chan n).pending = s.pending := by
  and_intros <;> rfl

@[simp] theorem State.xfer_set (s : State) (cls : XferClass) (chan n : Nat) :
    (s.xfer cls chan n).chans = modifyAt s.chans (chan % 512) (Chan.add cls n) := rfl

@[simp] theorem State.emit_fields (s : State) (o : Out) :
    (s.emit o).profile = s.profile ∧ (s.emit o).cfg = s.cfg ∧ (s.emit o).straps = s.straps ∧
    (s.emit o).pins = s.pins ∧ (s.emit o).edges = s.edges ∧ (s.emit o).pwrEdge = s.pwrEdge ∧ (s.emit o).sb = s.sb ∧
    (s.emit o).i3c = s.i3c ∧ (s.emit o).hfAllow = s.hfAllow ∧ (s.emit o).tim = s.tim ∧ (s.emit o).sched = s.sched ∧
    (s.emit o).lanes = s.lanes ∧ (s.emit o).cap = s.cap ∧ (s.emit o).ctxs = s.ctxs ∧ (s.emit o).setups = s.setups ∧
    (s.emit o).red = s.red ∧ (s.emit o).trc = s.trc ∧ (s.emit o).watch = s.watch ∧
    (s.emit o).lateReads = s.lateReads ∧ (s.emit o).stop = s.stop ∧
    (s.emit o).brk = s.brk ∧ (s.emit o).capt = s.capt ∧ (s.emit o).captOut = s.captOut ∧ (s.emit o).mem = s.mem ∧
    (s.emit o).chans = s.chans ∧ (s.emit o).raw = s.raw ∧ (s.emit o).act = s.act ∧ (s.emit o).grant = s.grant ∧
    (s.emit o).err = s.err ∧ (s.emit o).age = s.age ∧ (s.emit o).otp = s.otp ∧ (s.emit o).optime = s.optime ∧
    (s.emit o).fab = s.fab ∧ (s.emit o).stw = s.stw ∧ (s.emit o).flash = s.flash ∧ (s.emit o).evr = s.evr ∧
    (s.emit o).ident = s.ident ∧ (s.emit o).boot = s.boot ∧ (s.emit o).hangs = s.hangs ∧
    (s.emit o).hostStall = s.hostStall ∧ (s.emit o).dump = s.dump ∧ (s.emit o).mode = s.mode ∧
    (s.emit o).twin = s.twin ∧ (s.emit o).sticky = s.sticky ∧ (s.emit o).raisedNow = s.raisedNow ∧
    (s.emit o).latches = s.latches ∧ (s.emit o).inbox = s.inbox ∧ (s.emit o).pending = s.pending := by
  and_intros <;> rfl

@[simp] theorem State.emit_set (s : State) (o : Out) :
    (s.emit o).out = s.out ++ [o] := rfl

@[simp] theorem State.emits_fields (s : State) (o : List Out) :
    (s.emits o).profile = s.profile ∧ (s.emits o).cfg = s.cfg ∧ (s.emits o).straps = s.straps ∧
    (s.emits o).pins = s.pins ∧ (s.emits o).edges = s.edges ∧ (s.emits o).pwrEdge = s.pwrEdge ∧
    (s.emits o).sb = s.sb ∧ (s.emits o).i3c = s.i3c ∧ (s.emits o).hfAllow = s.hfAllow ∧ (s.emits o).tim = s.tim ∧
    (s.emits o).sched = s.sched ∧ (s.emits o).lanes = s.lanes ∧ (s.emits o).cap = s.cap ∧
    (s.emits o).ctxs = s.ctxs ∧ (s.emits o).setups = s.setups ∧ (s.emits o).red = s.red ∧ (s.emits o).trc = s.trc ∧
    (s.emits o).watch = s.watch ∧ (s.emits o).lateReads = s.lateReads ∧ (s.emits o).stop = s.stop ∧
    (s.emits o).brk = s.brk ∧ (s.emits o).capt = s.capt ∧
    (s.emits o).captOut = s.captOut ∧ (s.emits o).mem = s.mem ∧ (s.emits o).chans = s.chans ∧
    (s.emits o).raw = s.raw ∧ (s.emits o).act = s.act ∧ (s.emits o).grant = s.grant ∧ (s.emits o).err = s.err ∧
    (s.emits o).age = s.age ∧ (s.emits o).otp = s.otp ∧ (s.emits o).optime = s.optime ∧ (s.emits o).fab = s.fab ∧
    (s.emits o).stw = s.stw ∧ (s.emits o).flash = s.flash ∧ (s.emits o).evr = s.evr ∧ (s.emits o).ident = s.ident ∧
    (s.emits o).boot = s.boot ∧ (s.emits o).hangs = s.hangs ∧ (s.emits o).hostStall = s.hostStall ∧
    (s.emits o).dump = s.dump ∧ (s.emits o).mode = s.mode ∧ (s.emits o).twin = s.twin ∧
    (s.emits o).sticky = s.sticky ∧ (s.emits o).raisedNow = s.raisedNow ∧ (s.emits o).latches = s.latches ∧
    (s.emits o).inbox = s.inbox ∧ (s.emits o).pending = s.pending := by
  and_intros <;> rfl

@[simp] theorem State.emits_set (s : State) (o : List Out) :
    (s.emits o).out = s.out ++ o := rfl

@[simp] theorem State.onLane_fields (s : State) (n : Nat) (f : Lane → Lane) :
    (s.onLane n f).profile = s.profile ∧ (s.onLane n f).cfg = s.cfg ∧ (s.onLane n f).straps = s.straps ∧
    (s.onLane n f).pins = s.pins ∧ (s.onLane n f).edges = s.edges ∧ (s.onLane n f).pwrEdge = s.pwrEdge ∧
    (s.onLane n f).sb = s.sb ∧ (s.onLane n f).i3c = s.i3c ∧ (s.onLane n f).hfAllow = s.hfAllow ∧
    (s.onLane n f).tim = s.tim ∧ (s.onLane n f).sched = s.sched ∧ (s.onLane n f).cap = s.cap ∧
    (s.onLane n f).ctxs = s.ctxs ∧ (s.onLane n f).setups = s.setups ∧ (s.onLane n f).red = s.red ∧
    (s.onLane n f).trc = s.trc ∧ (s.onLane n f).watch = s.watch ∧ (s.onLane n f).lateReads = s.lateReads ∧
    (s.onLane n f).stop = s.stop ∧
    (s.onLane n f).brk = s.brk ∧ (s.onLane n f).capt = s.capt ∧ (s.onLane n f).captOut = s.captOut ∧
    (s.onLane n f).mem = s.mem ∧ (s.onLane n f).chans = s.chans ∧ (s.onLane n f).raw = s.raw ∧
    (s.onLane n f).act = s.act ∧ (s.onLane n f).grant = s.grant ∧ (s.onLane n f).err = s.err ∧
    (s.onLane n f).age = s.age ∧ (s.onLane n f).otp = s.otp ∧ (s.onLane n f).optime = s.optime ∧
    (s.onLane n f).fab = s.fab ∧ (s.onLane n f).stw = s.stw ∧ (s.onLane n f).flash = s.flash ∧
    (s.onLane n f).evr = s.evr ∧ (s.onLane n f).ident = s.ident ∧ (s.onLane n f).boot = s.boot ∧
    (s.onLane n f).hangs = s.hangs ∧ (s.onLane n f).hostStall = s.hostStall ∧ (s.onLane n f).dump = s.dump ∧
    (s.onLane n f).mode = s.mode ∧ (s.onLane n f).twin = s.twin ∧ (s.onLane n f).sticky = s.sticky ∧
    (s.onLane n f).raisedNow = s.raisedNow ∧ (s.onLane n f).latches = s.latches ∧ (s.onLane n f).inbox = s.inbox ∧
    (s.onLane n f).out = s.out ∧ (s.onLane n f).pending = s.pending := by
  and_intros <;> rfl

@[simp] theorem State.onLane_set (s : State) (n : Nat) (f : Lane → Lane) :
    (s.onLane n f).lanes = mapIf (·.n == n) f s.lanes := rfl

@[simp] theorem State.countHealth_fields (s : State) (i n : Nat) :
    (s.countHealth i n).profile = s.profile ∧ (s.countHealth i n).cfg = s.cfg ∧
    (s.countHealth i n).straps = s.straps ∧ (s.countHealth i n).pins = s.pins ∧
    (s.countHealth i n).edges = s.edges ∧ (s.countHealth i n).pwrEdge = s.pwrEdge ∧ (s.countHealth i n).sb = s.sb ∧
    (s.countHealth i n).i3c = s.i3c ∧ (s.countHealth i n).hfAllow = s.hfAllow ∧ (s.countHealth i n).tim = s.tim ∧
    (s.countHealth i n).sched = s.sched ∧ (s.countHealth i n).lanes = s.lanes ∧ (s.countHealth i n).ctxs = s.ctxs ∧
    (s.countHealth i n).setups = s.setups ∧ (s.countHealth i n).red = s.red ∧ (s.countHealth i n).trc = s.trc ∧
    (s.countHealth i n).watch = s.watch ∧ (s.countHealth i n).lateReads = s.lateReads ∧
    (s.countHealth i n).stop = s.stop ∧ (s.countHealth i n).brk = s.brk ∧
    (s.countHealth i n).capt = s.capt ∧ (s.countHealth i n).captOut = s.captOut ∧ (s.countHealth i n).mem = s.mem ∧
    (s.countHealth i n).chans = s.chans ∧ (s.countHealth i n).raw = s.raw ∧ (s.countHealth i n).act = s.act ∧
    (s.countHealth i n).grant = s.grant ∧ (s.countHealth i n).err = s.err ∧ (s.countHealth i n).age = s.age ∧
    (s.countHealth i n).otp = s.otp ∧ (s.countHealth i n).optime = s.optime ∧ (s.countHealth i n).fab = s.fab ∧
    (s.countHealth i n).stw = s.stw ∧ (s.countHealth i n).flash = s.flash ∧ (s.countHealth i n).evr = s.evr ∧
    (s.countHealth i n).ident = s.ident ∧ (s.countHealth i n).boot = s.boot ∧ (s.countHealth i n).hangs = s.hangs ∧
    (s.countHealth i n).hostStall = s.hostStall ∧ (s.countHealth i n).dump = s.dump ∧
    (s.countHealth i n).mode = s.mode ∧ (s.countHealth i n).twin = s.twin ∧ (s.countHealth i n).sticky = s.sticky ∧
    (s.countHealth i n).raisedNow = s.raisedNow ∧ (s.countHealth i n).latches = s.latches ∧
    (s.countHealth i n).inbox = s.inbox ∧ (s.countHealth i n).out = s.out ∧
    (s.countHealth i n).pending = s.pending := by
  and_intros <;> rfl

@[simp] theorem State.countHealth_set (s : State) (i n : Nat) :
    (s.countHealth i n).cap = { s.cap with health := modifyAt s.cap.health i (· + BitVec.ofNat 64 n) } := rfl

@[simp] theorem State.setHealth_fields (s : State) (i : Nat) (v : BitVec 64) :
    (s.setHealth i v).profile = s.profile ∧ (s.setHealth i v).cfg = s.cfg ∧ (s.setHealth i v).straps = s.straps ∧
    (s.setHealth i v).pins = s.pins ∧ (s.setHealth i v).edges = s.edges ∧ (s.setHealth i v).pwrEdge = s.pwrEdge ∧
    (s.setHealth i v).sb = s.sb ∧ (s.setHealth i v).i3c = s.i3c ∧ (s.setHealth i v).hfAllow = s.hfAllow ∧
    (s.setHealth i v).tim = s.tim ∧ (s.setHealth i v).sched = s.sched ∧ (s.setHealth i v).lanes = s.lanes ∧
    (s.setHealth i v).ctxs = s.ctxs ∧ (s.setHealth i v).setups = s.setups ∧ (s.setHealth i v).red = s.red ∧
    (s.setHealth i v).trc = s.trc ∧ (s.setHealth i v).watch = s.watch ∧ (s.setHealth i v).lateReads = s.lateReads ∧
    (s.setHealth i v).stop = s.stop ∧
    (s.setHealth i v).brk = s.brk ∧ (s.setHealth i v).capt = s.capt ∧ (s.setHealth i v).captOut = s.captOut ∧
    (s.setHealth i v).mem = s.mem ∧ (s.setHealth i v).chans = s.chans ∧ (s.setHealth i v).raw = s.raw ∧
    (s.setHealth i v).act = s.act ∧ (s.setHealth i v).grant = s.grant ∧ (s.setHealth i v).err = s.err ∧
    (s.setHealth i v).age = s.age ∧ (s.setHealth i v).otp = s.otp ∧ (s.setHealth i v).optime = s.optime ∧
    (s.setHealth i v).fab = s.fab ∧ (s.setHealth i v).stw = s.stw ∧ (s.setHealth i v).flash = s.flash ∧
    (s.setHealth i v).evr = s.evr ∧ (s.setHealth i v).ident = s.ident ∧ (s.setHealth i v).boot = s.boot ∧
    (s.setHealth i v).hangs = s.hangs ∧ (s.setHealth i v).hostStall = s.hostStall ∧
    (s.setHealth i v).dump = s.dump ∧ (s.setHealth i v).mode = s.mode ∧ (s.setHealth i v).twin = s.twin ∧
    (s.setHealth i v).sticky = s.sticky ∧ (s.setHealth i v).raisedNow = s.raisedNow ∧
    (s.setHealth i v).latches = s.latches ∧ (s.setHealth i v).inbox = s.inbox ∧ (s.setHealth i v).out = s.out ∧
    (s.setHealth i v).pending = s.pending := by
  and_intros <;> rfl

@[simp] theorem State.setHealth_set (s : State) (i : Nat) (v : BitVec 64) :
    (s.setHealth i v).cap = { s.cap with health := modifyAt s.cap.health i fun _ => v } := rfl

@[simp] theorem State.taken_fields (s : State) (lane : Nat) (b : Bytes) :
    (s.taken lane b).profile = s.profile ∧ (s.taken lane b).cfg = s.cfg ∧ (s.taken lane b).straps = s.straps ∧
    (s.taken lane b).pins = s.pins ∧ (s.taken lane b).edges = s.edges ∧ (s.taken lane b).pwrEdge = s.pwrEdge ∧
    (s.taken lane b).sb = s.sb ∧ (s.taken lane b).i3c = s.i3c ∧ (s.taken lane b).hfAllow = s.hfAllow ∧
    (s.taken lane b).tim = s.tim ∧ (s.taken lane b).sched = s.sched ∧ (s.taken lane b).lanes = s.lanes ∧
    (s.taken lane b).cap = s.cap ∧ (s.taken lane b).ctxs = s.ctxs ∧ (s.taken lane b).setups = s.setups ∧
    (s.taken lane b).red = s.red ∧ (s.taken lane b).trc = s.trc ∧ (s.taken lane b).watch = s.watch ∧
    (s.taken lane b).lateReads = s.lateReads ∧
    (s.taken lane b).stop = s.stop ∧ (s.taken lane b).brk = s.brk ∧ (s.taken lane b).capt = s.capt ∧
    (s.taken lane b).captOut = s.captOut ∧ (s.taken lane b).mem = s.mem ∧ (s.taken lane b).chans = s.chans ∧
    (s.taken lane b).raw = s.raw ∧ (s.taken lane b).act = s.act ∧ (s.taken lane b).grant = s.grant ∧
    (s.taken lane b).err = s.err ∧ (s.taken lane b).age = s.age ∧ (s.taken lane b).otp = s.otp ∧
    (s.taken lane b).optime = s.optime ∧ (s.taken lane b).fab = s.fab ∧ (s.taken lane b).stw = s.stw ∧
    (s.taken lane b).flash = s.flash ∧ (s.taken lane b).evr = s.evr ∧ (s.taken lane b).ident = s.ident ∧
    (s.taken lane b).boot = s.boot ∧ (s.taken lane b).hangs = s.hangs ∧ (s.taken lane b).hostStall = s.hostStall ∧
    (s.taken lane b).dump = s.dump ∧ (s.taken lane b).mode = s.mode ∧ (s.taken lane b).twin = s.twin ∧
    (s.taken lane b).sticky = s.sticky ∧ (s.taken lane b).raisedNow = s.raisedNow ∧
    (s.taken lane b).latches = s.latches ∧ (s.taken lane b).out = s.out ∧ (s.taken lane b).pending = s.pending := by
  and_intros <;> rfl

@[simp] theorem State.taken_set (s : State) (lane : Nat) (b : Bytes) :
    (s.taken lane b).inbox = s.inbox.filter fun m => !(m.lane == lane && m.bytes == b) := rfl

@[simp] theorem State.onCtx_fields (s : State) (c : Nat) (f : Ctx → Ctx) :
    (s.onCtx c f).profile = s.profile ∧ (s.onCtx c f).cfg = s.cfg ∧ (s.onCtx c f).straps = s.straps ∧
    (s.onCtx c f).pins = s.pins ∧ (s.onCtx c f).edges = s.edges ∧ (s.onCtx c f).pwrEdge = s.pwrEdge ∧
    (s.onCtx c f).sb = s.sb ∧ (s.onCtx c f).i3c = s.i3c ∧ (s.onCtx c f).hfAllow = s.hfAllow ∧
    (s.onCtx c f).tim = s.tim ∧ (s.onCtx c f).sched = s.sched ∧ (s.onCtx c f).lanes = s.lanes ∧
    (s.onCtx c f).cap = s.cap ∧ (s.onCtx c f).setups = s.setups ∧ (s.onCtx c f).red = s.red ∧
    (s.onCtx c f).trc = s.trc ∧ (s.onCtx c f).watch = s.watch ∧ (s.onCtx c f).lateReads = s.lateReads ∧
    (s.onCtx c f).stop = s.stop ∧
    (s.onCtx c f).brk = s.brk ∧ (s.onCtx c f).capt = s.capt ∧ (s.onCtx c f).captOut = s.captOut ∧
    (s.onCtx c f).mem = s.mem ∧ (s.onCtx c f).chans = s.chans ∧ (s.onCtx c f).raw = s.raw ∧
    (s.onCtx c f).act = s.act ∧ (s.onCtx c f).grant = s.grant ∧ (s.onCtx c f).err = s.err ∧
    (s.onCtx c f).age = s.age ∧ (s.onCtx c f).otp = s.otp ∧ (s.onCtx c f).optime = s.optime ∧
    (s.onCtx c f).fab = s.fab ∧ (s.onCtx c f).stw = s.stw ∧ (s.onCtx c f).flash = s.flash ∧
    (s.onCtx c f).evr = s.evr ∧ (s.onCtx c f).ident = s.ident ∧ (s.onCtx c f).boot = s.boot ∧
    (s.onCtx c f).hangs = s.hangs ∧ (s.onCtx c f).hostStall = s.hostStall ∧ (s.onCtx c f).dump = s.dump ∧
    (s.onCtx c f).mode = s.mode ∧ (s.onCtx c f).twin = s.twin ∧ (s.onCtx c f).sticky = s.sticky ∧
    (s.onCtx c f).raisedNow = s.raisedNow ∧ (s.onCtx c f).latches = s.latches ∧ (s.onCtx c f).inbox = s.inbox ∧
    (s.onCtx c f).out = s.out ∧ (s.onCtx c f).pending = s.pending := by
  and_intros <;> rfl

@[simp] theorem State.onCtx_set (s : State) (c : Nat) (f : Ctx → Ctx) :
    (s.onCtx c f).ctxs = mapIf (·.id == c) f s.ctxs := rfl

@[simp] theorem State.onStook_fields (s : State) (n : Nat) (f : Stook → Stook) :
    (s.onStook n f).profile = s.profile ∧ (s.onStook n f).cfg = s.cfg ∧ (s.onStook n f).straps = s.straps ∧
    (s.onStook n f).pins = s.pins ∧ (s.onStook n f).edges = s.edges ∧ (s.onStook n f).pwrEdge = s.pwrEdge ∧
    (s.onStook n f).sb = s.sb ∧ (s.onStook n f).i3c = s.i3c ∧ (s.onStook n f).hfAllow = s.hfAllow ∧
    (s.onStook n f).tim = s.tim ∧ (s.onStook n f).sched = s.sched ∧ (s.onStook n f).lanes = s.lanes ∧
    (s.onStook n f).ctxs = s.ctxs ∧ (s.onStook n f).setups = s.setups ∧ (s.onStook n f).red = s.red ∧
    (s.onStook n f).trc = s.trc ∧ (s.onStook n f).watch = s.watch ∧ (s.onStook n f).lateReads = s.lateReads ∧
    (s.onStook n f).stop = s.stop ∧
    (s.onStook n f).brk = s.brk ∧ (s.onStook n f).capt = s.capt ∧ (s.onStook n f).captOut = s.captOut ∧
    (s.onStook n f).mem = s.mem ∧ (s.onStook n f).chans = s.chans ∧ (s.onStook n f).raw = s.raw ∧
    (s.onStook n f).act = s.act ∧ (s.onStook n f).grant = s.grant ∧ (s.onStook n f).err = s.err ∧
    (s.onStook n f).age = s.age ∧ (s.onStook n f).otp = s.otp ∧ (s.onStook n f).optime = s.optime ∧
    (s.onStook n f).fab = s.fab ∧ (s.onStook n f).stw = s.stw ∧ (s.onStook n f).flash = s.flash ∧
    (s.onStook n f).evr = s.evr ∧ (s.onStook n f).ident = s.ident ∧ (s.onStook n f).boot = s.boot ∧
    (s.onStook n f).hangs = s.hangs ∧ (s.onStook n f).hostStall = s.hostStall ∧ (s.onStook n f).dump = s.dump ∧
    (s.onStook n f).mode = s.mode ∧ (s.onStook n f).twin = s.twin ∧ (s.onStook n f).sticky = s.sticky ∧
    (s.onStook n f).raisedNow = s.raisedNow ∧ (s.onStook n f).latches = s.latches ∧
    (s.onStook n f).inbox = s.inbox ∧ (s.onStook n f).out = s.out ∧ (s.onStook n f).pending = s.pending := by
  and_intros <;> rfl

@[simp] theorem State.onStook_set (s : State) (n : Nat) (f : Stook → Stook) :
    (s.onStook n f).cap = { s.cap with stooks := mapIf (·.s == n) f s.cap.stooks } := rfl

@[simp] theorem putBytes_fields (a : Nat) (b : Bytes) (s : State) :
    (putBytes a b s).profile = s.profile ∧ (putBytes a b s).cfg = s.cfg ∧ (putBytes a b s).straps = s.straps ∧
    (putBytes a b s).pins = s.pins ∧ (putBytes a b s).edges = s.edges ∧ (putBytes a b s).pwrEdge = s.pwrEdge ∧
    (putBytes a b s).sb = s.sb ∧ (putBytes a b s).i3c = s.i3c ∧ (putBytes a b s).hfAllow = s.hfAllow ∧
    (putBytes a b s).tim = s.tim ∧ (putBytes a b s).sched = s.sched ∧ (putBytes a b s).lanes = s.lanes ∧
    (putBytes a b s).cap = s.cap ∧ (putBytes a b s).ctxs = s.ctxs ∧ (putBytes a b s).setups = s.setups ∧
    (putBytes a b s).red = s.red ∧ (putBytes a b s).trc = s.trc ∧ (putBytes a b s).watch = s.watch ∧
    (putBytes a b s).lateReads = s.lateReads ∧
    (putBytes a b s).stop = s.stop ∧ (putBytes a b s).brk = s.brk ∧ (putBytes a b s).capt = s.capt ∧
    (putBytes a b s).captOut = s.captOut ∧ (putBytes a b s).chans = s.chans ∧ (putBytes a b s).raw = s.raw ∧
    (putBytes a b s).act = s.act ∧ (putBytes a b s).grant = s.grant ∧ (putBytes a b s).err = s.err ∧
    (putBytes a b s).age = s.age ∧ (putBytes a b s).otp = s.otp ∧ (putBytes a b s).optime = s.optime ∧
    (putBytes a b s).fab = s.fab ∧ (putBytes a b s).stw = s.stw ∧ (putBytes a b s).flash = s.flash ∧
    (putBytes a b s).evr = s.evr ∧ (putBytes a b s).ident = s.ident ∧ (putBytes a b s).boot = s.boot ∧
    (putBytes a b s).hangs = s.hangs ∧ (putBytes a b s).hostStall = s.hostStall ∧ (putBytes a b s).dump = s.dump ∧
    (putBytes a b s).mode = s.mode ∧ (putBytes a b s).twin = s.twin ∧ (putBytes a b s).sticky = s.sticky ∧
    (putBytes a b s).raisedNow = s.raisedNow ∧ (putBytes a b s).latches = s.latches ∧
    (putBytes a b s).inbox = s.inbox ∧ (putBytes a b s).out = s.out ∧ (putBytes a b s).pending = s.pending := by
  and_intros <;> rfl

@[simp] theorem putBytes_set (a : Nat) (b : Bytes) (s : State) :
    (putBytes a b s).mem = { s.mem with
      hbm := memWrites ((s.staleLines a b.length).foldl (fun m l => memWrites m (64 * l) (staleLine l)) s.mem.hbm) a b
      live := s.mem.live ++ s.staleLines a b.length
      bad := s.mem.bad.filter fun l => !(a ≤ 64 * l && 64 * l + 64 ≤ a + b.length) } := rfl

@[simp] theorem State.onTally_fields (s : State) (a : Nat) (f : Tally → Tally) :
    (s.onTally a f).profile = s.profile ∧ (s.onTally a f).cfg = s.cfg ∧ (s.onTally a f).straps = s.straps ∧
    (s.onTally a f).pins = s.pins ∧ (s.onTally a f).edges = s.edges ∧ (s.onTally a f).pwrEdge = s.pwrEdge ∧
    (s.onTally a f).sb = s.sb ∧ (s.onTally a f).i3c = s.i3c ∧ (s.onTally a f).hfAllow = s.hfAllow ∧
    (s.onTally a f).tim = s.tim ∧ (s.onTally a f).sched = s.sched ∧ (s.onTally a f).lanes = s.lanes ∧
    (s.onTally a f).cap = s.cap ∧ (s.onTally a f).ctxs = s.ctxs ∧ (s.onTally a f).setups = s.setups ∧
    (s.onTally a f).red = s.red ∧ (s.onTally a f).trc = s.trc ∧ (s.onTally a f).watch = s.watch ∧
    (s.onTally a f).lateReads = s.lateReads ∧
    (s.onTally a f).stop = s.stop ∧ (s.onTally a f).brk = s.brk ∧ (s.onTally a f).capt = s.capt ∧
    (s.onTally a f).captOut = s.captOut ∧ (s.onTally a f).mem = s.mem ∧ (s.onTally a f).chans = s.chans ∧
    (s.onTally a f).raw = s.raw ∧ (s.onTally a f).act = s.act ∧ (s.onTally a f).grant = s.grant ∧
    (s.onTally a f).err = s.err ∧ (s.onTally a f).age = s.age ∧ (s.onTally a f).otp = s.otp ∧
    (s.onTally a f).optime = s.optime ∧ (s.onTally a f).stw = s.stw ∧ (s.onTally a f).flash = s.flash ∧
    (s.onTally a f).evr = s.evr ∧ (s.onTally a f).ident = s.ident ∧ (s.onTally a f).boot = s.boot ∧
    (s.onTally a f).hangs = s.hangs ∧ (s.onTally a f).hostStall = s.hostStall ∧ (s.onTally a f).dump = s.dump ∧
    (s.onTally a f).mode = s.mode ∧ (s.onTally a f).twin = s.twin ∧ (s.onTally a f).sticky = s.sticky ∧
    (s.onTally a f).raisedNow = s.raisedNow ∧ (s.onTally a f).latches = s.latches ∧
    (s.onTally a f).inbox = s.inbox ∧ (s.onTally a f).out = s.out ∧ (s.onTally a f).pending = s.pending := by
  and_intros <;> rfl

@[simp] theorem State.onTally_set (s : State) (a : Nat) (f : Tally → Tally) :
    (s.onTally a f).fab = { s.fab with tallies := mapIf (·.addr == a / 64 * 64) f s.fab.tallies } := rfl

@[simp] theorem State.putDie_fields (s : State) (x : Die) :
    (s.putDie x).profile = s.profile ∧ (s.putDie x).cfg = s.cfg ∧ (s.putDie x).straps = s.straps ∧
    (s.putDie x).pins = s.pins ∧ (s.putDie x).edges = s.edges ∧ (s.putDie x).pwrEdge = s.pwrEdge ∧
    (s.putDie x).sb = s.sb ∧ (s.putDie x).i3c = s.i3c ∧ (s.putDie x).hfAllow = s.hfAllow ∧
    (s.putDie x).tim = s.tim ∧ (s.putDie x).sched = s.sched ∧ (s.putDie x).lanes = s.lanes ∧
    (s.putDie x).cap = s.cap ∧ (s.putDie x).ctxs = s.ctxs ∧ (s.putDie x).setups = s.setups ∧
    (s.putDie x).red = s.red ∧ (s.putDie x).trc = s.trc ∧ (s.putDie x).watch = s.watch ∧
    (s.putDie x).lateReads = s.lateReads ∧
    (s.putDie x).stop = s.stop ∧ (s.putDie x).brk = s.brk ∧ (s.putDie x).capt = s.capt ∧
    (s.putDie x).captOut = s.captOut ∧ (s.putDie x).mem = s.mem ∧ (s.putDie x).chans = s.chans ∧
    (s.putDie x).raw = s.raw ∧ (s.putDie x).grant = s.grant ∧ (s.putDie x).err = s.err ∧ (s.putDie x).age = s.age ∧
    (s.putDie x).otp = s.otp ∧ (s.putDie x).optime = s.optime ∧ (s.putDie x).fab = s.fab ∧
    (s.putDie x).stw = s.stw ∧ (s.putDie x).flash = s.flash ∧ (s.putDie x).evr = s.evr ∧
    (s.putDie x).ident = s.ident ∧ (s.putDie x).boot = s.boot ∧ (s.putDie x).hangs = s.hangs ∧
    (s.putDie x).hostStall = s.hostStall ∧ (s.putDie x).dump = s.dump ∧ (s.putDie x).mode = s.mode ∧
    (s.putDie x).twin = s.twin ∧ (s.putDie x).sticky = s.sticky ∧ (s.putDie x).raisedNow = s.raisedNow ∧
    (s.putDie x).latches = s.latches ∧ (s.putDie x).inbox = s.inbox ∧ (s.putDie x).out = s.out ∧
    (s.putDie x).pending = s.pending := by
  and_intros <;> rfl

@[simp] theorem State.putDie_set (s : State) (x : Die) :
    (s.putDie x).act = { s.act with dies := putBack (·.d == x.d) x s.act.dies } := rfl

@[simp] theorem State.putConv_fields (s : State) (x : Conv) :
    (s.putConv x).profile = s.profile ∧ (s.putConv x).cfg = s.cfg ∧ (s.putConv x).straps = s.straps ∧
    (s.putConv x).pins = s.pins ∧ (s.putConv x).edges = s.edges ∧ (s.putConv x).pwrEdge = s.pwrEdge ∧
    (s.putConv x).sb = s.sb ∧ (s.putConv x).i3c = s.i3c ∧ (s.putConv x).hfAllow = s.hfAllow ∧
    (s.putConv x).tim = s.tim ∧ (s.putConv x).sched = s.sched ∧ (s.putConv x).lanes = s.lanes ∧
    (s.putConv x).cap = s.cap ∧ (s.putConv x).ctxs = s.ctxs ∧ (s.putConv x).setups = s.setups ∧
    (s.putConv x).red = s.red ∧ (s.putConv x).trc = s.trc ∧ (s.putConv x).watch = s.watch ∧
    (s.putConv x).lateReads = s.lateReads ∧
    (s.putConv x).stop = s.stop ∧ (s.putConv x).brk = s.brk ∧ (s.putConv x).capt = s.capt ∧
    (s.putConv x).captOut = s.captOut ∧ (s.putConv x).mem = s.mem ∧ (s.putConv x).chans = s.chans ∧
    (s.putConv x).raw = s.raw ∧ (s.putConv x).grant = s.grant ∧ (s.putConv x).err = s.err ∧
    (s.putConv x).age = s.age ∧ (s.putConv x).otp = s.otp ∧ (s.putConv x).optime = s.optime ∧
    (s.putConv x).fab = s.fab ∧ (s.putConv x).stw = s.stw ∧ (s.putConv x).flash = s.flash ∧
    (s.putConv x).evr = s.evr ∧ (s.putConv x).ident = s.ident ∧ (s.putConv x).boot = s.boot ∧
    (s.putConv x).hangs = s.hangs ∧ (s.putConv x).hostStall = s.hostStall ∧ (s.putConv x).dump = s.dump ∧
    (s.putConv x).mode = s.mode ∧ (s.putConv x).twin = s.twin ∧ (s.putConv x).sticky = s.sticky ∧
    (s.putConv x).raisedNow = s.raisedNow ∧ (s.putConv x).latches = s.latches ∧ (s.putConv x).inbox = s.inbox ∧
    (s.putConv x).out = s.out ∧ (s.putConv x).pending = s.pending := by
  and_intros <;> rfl

@[simp] theorem State.putConv_set (s : State) (x : Conv) :
    (s.putConv x).act = { s.act with convs := putBack (·.c == x.c) x s.act.convs } := rfl

@[simp] theorem State.onTable_fields (s : State) (id : Nat) (f : Table → Table) :
    (s.onTable id f).profile = s.profile ∧ (s.onTable id f).cfg = s.cfg ∧ (s.onTable id f).straps = s.straps ∧
    (s.onTable id f).pins = s.pins ∧ (s.onTable id f).edges = s.edges ∧ (s.onTable id f).pwrEdge = s.pwrEdge ∧
    (s.onTable id f).sb = s.sb ∧ (s.onTable id f).i3c = s.i3c ∧ (s.onTable id f).hfAllow = s.hfAllow ∧
    (s.onTable id f).tim = s.tim ∧ (s.onTable id f).sched = s.sched ∧ (s.onTable id f).lanes = s.lanes ∧
    (s.onTable id f).cap = s.cap ∧ (s.onTable id f).ctxs = s.ctxs ∧ (s.onTable id f).setups = s.setups ∧
    (s.onTable id f).red = s.red ∧ (s.onTable id f).trc = s.trc ∧ (s.onTable id f).watch = s.watch ∧
    (s.onTable id f).lateReads = s.lateReads ∧
    (s.onTable id f).stop = s.stop ∧ (s.onTable id f).brk = s.brk ∧ (s.onTable id f).capt = s.capt ∧
    (s.onTable id f).captOut = s.captOut ∧ (s.onTable id f).chans = s.chans ∧ (s.onTable id f).raw = s.raw ∧
    (s.onTable id f).act = s.act ∧ (s.onTable id f).grant = s.grant ∧ (s.onTable id f).err = s.err ∧
    (s.onTable id f).age = s.age ∧ (s.onTable id f).otp = s.otp ∧ (s.onTable id f).optime = s.optime ∧
    (s.onTable id f).fab = s.fab ∧ (s.onTable id f).stw = s.stw ∧ (s.onTable id f).flash = s.flash ∧
    (s.onTable id f).evr = s.evr ∧ (s.onTable id f).ident = s.ident ∧ (s.onTable id f).boot = s.boot ∧
    (s.onTable id f).hangs = s.hangs ∧ (s.onTable id f).hostStall = s.hostStall ∧ (s.onTable id f).dump = s.dump ∧
    (s.onTable id f).mode = s.mode ∧ (s.onTable id f).twin = s.twin ∧ (s.onTable id f).sticky = s.sticky ∧
    (s.onTable id f).raisedNow = s.raisedNow ∧ (s.onTable id f).latches = s.latches ∧
    (s.onTable id f).inbox = s.inbox ∧ (s.onTable id f).out = s.out ∧ (s.onTable id f).pending = s.pending := by
  and_intros <;> rfl

@[simp] theorem State.onTable_set (s : State) (id : Nat) (f : Table → Table) :
    (s.onTable id f).mem = { s.mem with tables := mapIf (·.img.tableId == id) f s.mem.tables } := rfl

@[simp] theorem State.onJob_fields (s : State) (model row ks : Nat) (f : ScoreJob → ScoreJob) :
    (s.onJob model row ks f).profile = s.profile ∧ (s.onJob model row ks f).cfg = s.cfg ∧
    (s.onJob model row ks f).straps = s.straps ∧ (s.onJob model row ks f).pins = s.pins ∧
    (s.onJob model row ks f).edges = s.edges ∧ (s.onJob model row ks f).pwrEdge = s.pwrEdge ∧
    (s.onJob model row ks f).sb = s.sb ∧ (s.onJob model row ks f).i3c = s.i3c ∧
    (s.onJob model row ks f).hfAllow = s.hfAllow ∧ (s.onJob model row ks f).tim = s.tim ∧
    (s.onJob model row ks f).sched = s.sched ∧ (s.onJob model row ks f).lanes = s.lanes ∧
    (s.onJob model row ks f).cap = s.cap ∧ (s.onJob model row ks f).ctxs = s.ctxs ∧
    (s.onJob model row ks f).setups = s.setups ∧ (s.onJob model row ks f).red = s.red ∧
    (s.onJob model row ks f).trc = s.trc ∧ (s.onJob model row ks f).watch = s.watch ∧
    (s.onJob model row ks f).lateReads = s.lateReads ∧
    (s.onJob model row ks f).stop = s.stop ∧ (s.onJob model row ks f).brk = s.brk ∧
    (s.onJob model row ks f).capt = s.capt ∧ (s.onJob model row ks f).captOut = s.captOut ∧
    (s.onJob model row ks f).chans = s.chans ∧ (s.onJob model row ks f).raw = s.raw ∧
    (s.onJob model row ks f).act = s.act ∧ (s.onJob model row ks f).grant = s.grant ∧
    (s.onJob model row ks f).err = s.err ∧ (s.onJob model row ks f).age = s.age ∧
    (s.onJob model row ks f).otp = s.otp ∧ (s.onJob model row ks f).optime = s.optime ∧
    (s.onJob model row ks f).fab = s.fab ∧ (s.onJob model row ks f).stw = s.stw ∧
    (s.onJob model row ks f).flash = s.flash ∧ (s.onJob model row ks f).evr = s.evr ∧
    (s.onJob model row ks f).ident = s.ident ∧ (s.onJob model row ks f).boot = s.boot ∧
    (s.onJob model row ks f).hangs = s.hangs ∧ (s.onJob model row ks f).hostStall = s.hostStall ∧
    (s.onJob model row ks f).dump = s.dump ∧ (s.onJob model row ks f).mode = s.mode ∧
    (s.onJob model row ks f).twin = s.twin ∧ (s.onJob model row ks f).sticky = s.sticky ∧
    (s.onJob model row ks f).raisedNow = s.raisedNow ∧ (s.onJob model row ks f).latches = s.latches ∧
    (s.onJob model row ks f).inbox = s.inbox ∧ (s.onJob model row ks f).out = s.out ∧
    (s.onJob model row ks f).pending = s.pending := by
  and_intros <;> rfl

@[simp] theorem State.onJob_set (s : State) (model row ks : Nat) (f : ScoreJob → ScoreJob) :
    (s.onJob model row ks f).mem =
      { s.mem with jobs := mapIf (fun j => j.model == model && j.row == row && j.ks == ks) f s.mem.jobs } := rfl

@[simp] theorem putJob_fields (j : ScoreJob) (s : State) :
    (putJob j s).profile = s.profile ∧ (putJob j s).cfg = s.cfg ∧ (putJob j s).straps = s.straps ∧
    (putJob j s).pins = s.pins ∧ (putJob j s).edges = s.edges ∧ (putJob j s).pwrEdge = s.pwrEdge ∧
    (putJob j s).sb = s.sb ∧ (putJob j s).i3c = s.i3c ∧ (putJob j s).hfAllow = s.hfAllow ∧
    (putJob j s).tim = s.tim ∧ (putJob j s).sched = s.sched ∧ (putJob j s).lanes = s.lanes ∧
    (putJob j s).cap = s.cap ∧ (putJob j s).ctxs = s.ctxs ∧ (putJob j s).setups = s.setups ∧
    (putJob j s).red = s.red ∧ (putJob j s).trc = s.trc ∧ (putJob j s).watch = s.watch ∧
    (putJob j s).lateReads = s.lateReads ∧
    (putJob j s).stop = s.stop ∧ (putJob j s).brk = s.brk ∧ (putJob j s).capt = s.capt ∧
    (putJob j s).captOut = s.captOut ∧ (putJob j s).chans = s.chans ∧ (putJob j s).raw = s.raw ∧
    (putJob j s).act = s.act ∧ (putJob j s).grant = s.grant ∧ (putJob j s).err = s.err ∧ (putJob j s).age = s.age ∧
    (putJob j s).otp = s.otp ∧ (putJob j s).optime = s.optime ∧ (putJob j s).fab = s.fab ∧
    (putJob j s).stw = s.stw ∧ (putJob j s).flash = s.flash ∧ (putJob j s).evr = s.evr ∧
    (putJob j s).ident = s.ident ∧ (putJob j s).boot = s.boot ∧ (putJob j s).hangs = s.hangs ∧
    (putJob j s).hostStall = s.hostStall ∧ (putJob j s).dump = s.dump ∧ (putJob j s).mode = s.mode ∧
    (putJob j s).twin = s.twin ∧ (putJob j s).sticky = s.sticky ∧ (putJob j s).raisedNow = s.raisedNow ∧
    (putJob j s).latches = s.latches ∧ (putJob j s).inbox = s.inbox ∧ (putJob j s).out = s.out ∧
    (putJob j s).pending = s.pending := by
  and_intros <;> rfl

@[simp] theorem putJob_set (j : ScoreJob) (s : State) :
    (putJob j s).mem = { s.mem with jobs := s.mem.jobs ++ [j] } := rfl

@[simp] theorem State.onSheaf_fields (s : State) (h0 : Sheaf) (f : Sheaf → Sheaf) :
    (s.onSheaf h0 f).profile = s.profile ∧ (s.onSheaf h0 f).cfg = s.cfg ∧ (s.onSheaf h0 f).straps = s.straps ∧
    (s.onSheaf h0 f).pins = s.pins ∧ (s.onSheaf h0 f).edges = s.edges ∧ (s.onSheaf h0 f).pwrEdge = s.pwrEdge ∧
    (s.onSheaf h0 f).sb = s.sb ∧ (s.onSheaf h0 f).i3c = s.i3c ∧ (s.onSheaf h0 f).hfAllow = s.hfAllow ∧
    (s.onSheaf h0 f).tim = s.tim ∧ (s.onSheaf h0 f).sched = s.sched ∧ (s.onSheaf h0 f).lanes = s.lanes ∧
    (s.onSheaf h0 f).cap = s.cap ∧ (s.onSheaf h0 f).ctxs = s.ctxs ∧ (s.onSheaf h0 f).setups = s.setups ∧
    (s.onSheaf h0 f).trc = s.trc ∧ (s.onSheaf h0 f).watch = s.watch ∧ (s.onSheaf h0 f).lateReads = s.lateReads ∧
    (s.onSheaf h0 f).stop = s.stop ∧
    (s.onSheaf h0 f).brk = s.brk ∧ (s.onSheaf h0 f).capt = s.capt ∧ (s.onSheaf h0 f).captOut = s.captOut ∧
    (s.onSheaf h0 f).mem = s.mem ∧ (s.onSheaf h0 f).chans = s.chans ∧ (s.onSheaf h0 f).raw = s.raw ∧
    (s.onSheaf h0 f).act = s.act ∧ (s.onSheaf h0 f).grant = s.grant ∧ (s.onSheaf h0 f).err = s.err ∧
    (s.onSheaf h0 f).age = s.age ∧ (s.onSheaf h0 f).otp = s.otp ∧ (s.onSheaf h0 f).optime = s.optime ∧
    (s.onSheaf h0 f).fab = s.fab ∧ (s.onSheaf h0 f).stw = s.stw ∧ (s.onSheaf h0 f).flash = s.flash ∧
    (s.onSheaf h0 f).evr = s.evr ∧ (s.onSheaf h0 f).ident = s.ident ∧ (s.onSheaf h0 f).boot = s.boot ∧
    (s.onSheaf h0 f).hangs = s.hangs ∧ (s.onSheaf h0 f).hostStall = s.hostStall ∧ (s.onSheaf h0 f).dump = s.dump ∧
    (s.onSheaf h0 f).mode = s.mode ∧ (s.onSheaf h0 f).twin = s.twin ∧ (s.onSheaf h0 f).sticky = s.sticky ∧
    (s.onSheaf h0 f).raisedNow = s.raisedNow ∧ (s.onSheaf h0 f).latches = s.latches ∧
    (s.onSheaf h0 f).inbox = s.inbox ∧ (s.onSheaf h0 f).out = s.out ∧ (s.onSheaf h0 f).pending = s.pending := by
  and_intros <;> rfl

@[simp] theorem State.onSheaf_set (s : State) (h0 : Sheaf) (f : Sheaf → Sheaf) :
    (s.onSheaf h0 f).red =
      { s.red with sheaves := mapIf (fun h => h.ctx == h0.ctx && h.k == h0.k && h.level == h0.level) f s.red.sheaves } := rfl

@[simp] theorem State.onPub_fields (s : State) (a : PubArea) (f : PubArea → PubArea) :
    (s.onPub a f).profile = s.profile ∧ (s.onPub a f).cfg = s.cfg ∧ (s.onPub a f).straps = s.straps ∧
    (s.onPub a f).pins = s.pins ∧ (s.onPub a f).edges = s.edges ∧ (s.onPub a f).pwrEdge = s.pwrEdge ∧
    (s.onPub a f).sb = s.sb ∧ (s.onPub a f).i3c = s.i3c ∧ (s.onPub a f).hfAllow = s.hfAllow ∧
    (s.onPub a f).tim = s.tim ∧ (s.onPub a f).sched = s.sched ∧ (s.onPub a f).lanes = s.lanes ∧
    (s.onPub a f).cap = s.cap ∧ (s.onPub a f).ctxs = s.ctxs ∧ (s.onPub a f).setups = s.setups ∧
    (s.onPub a f).trc = s.trc ∧ (s.onPub a f).watch = s.watch ∧ (s.onPub a f).lateReads = s.lateReads ∧
    (s.onPub a f).stop = s.stop ∧
    (s.onPub a f).brk = s.brk ∧ (s.onPub a f).capt = s.capt ∧ (s.onPub a f).captOut = s.captOut ∧
    (s.onPub a f).mem = s.mem ∧ (s.onPub a f).chans = s.chans ∧ (s.onPub a f).raw = s.raw ∧
    (s.onPub a f).act = s.act ∧ (s.onPub a f).grant = s.grant ∧ (s.onPub a f).err = s.err ∧
    (s.onPub a f).age = s.age ∧ (s.onPub a f).otp = s.otp ∧ (s.onPub a f).optime = s.optime ∧
    (s.onPub a f).fab = s.fab ∧ (s.onPub a f).stw = s.stw ∧ (s.onPub a f).flash = s.flash ∧
    (s.onPub a f).evr = s.evr ∧ (s.onPub a f).ident = s.ident ∧ (s.onPub a f).boot = s.boot ∧
    (s.onPub a f).hangs = s.hangs ∧ (s.onPub a f).hostStall = s.hostStall ∧ (s.onPub a f).dump = s.dump ∧
    (s.onPub a f).mode = s.mode ∧ (s.onPub a f).twin = s.twin ∧ (s.onPub a f).sticky = s.sticky ∧
    (s.onPub a f).raisedNow = s.raisedNow ∧ (s.onPub a f).latches = s.latches ∧ (s.onPub a f).inbox = s.inbox ∧
    (s.onPub a f).out = s.out ∧ (s.onPub a f).pending = s.pending := by
  and_intros <;> rfl

@[simp] theorem State.onPub_set (s : State) (a : PubArea) (f : PubArea → PubArea) :
    (s.onPub a f).red =
      { s.red with pubs := mapIf (fun x => x.ctx == a.ctx && x.since == a.since) f s.red.pubs } := rfl

@[simp] theorem setRecovery_fields (r : Recovery) (s : State) :
    (setRecovery r s).profile = s.profile ∧ (setRecovery r s).cfg = s.cfg ∧ (setRecovery r s).straps = s.straps ∧
    (setRecovery r s).pins = s.pins ∧ (setRecovery r s).edges = s.edges ∧ (setRecovery r s).pwrEdge = s.pwrEdge ∧
    (setRecovery r s).sb = s.sb ∧ (setRecovery r s).i3c = s.i3c ∧ (setRecovery r s).hfAllow = s.hfAllow ∧
    (setRecovery r s).tim = s.tim ∧ (setRecovery r s).sched = s.sched ∧ (setRecovery r s).lanes = s.lanes ∧
    (setRecovery r s).cap = s.cap ∧ (setRecovery r s).ctxs = s.ctxs ∧ (setRecovery r s).setups = s.setups ∧
    (setRecovery r s).trc = s.trc ∧ (setRecovery r s).watch = s.watch ∧ (setRecovery r s).lateReads = s.lateReads ∧
    (setRecovery r s).stop = s.stop ∧
    (setRecovery r s).brk = s.brk ∧ (setRecovery r s).capt = s.capt ∧ (setRecovery r s).captOut = s.captOut ∧
    (setRecovery r s).mem = s.mem ∧ (setRecovery r s).chans = s.chans ∧ (setRecovery r s).raw = s.raw ∧
    (setRecovery r s).act = s.act ∧ (setRecovery r s).grant = s.grant ∧ (setRecovery r s).err = s.err ∧
    (setRecovery r s).age = s.age ∧ (setRecovery r s).otp = s.otp ∧ (setRecovery r s).optime = s.optime ∧
    (setRecovery r s).fab = s.fab ∧ (setRecovery r s).stw = s.stw ∧ (setRecovery r s).flash = s.flash ∧
    (setRecovery r s).evr = s.evr ∧ (setRecovery r s).ident = s.ident ∧ (setRecovery r s).boot = s.boot ∧
    (setRecovery r s).hangs = s.hangs ∧ (setRecovery r s).hostStall = s.hostStall ∧
    (setRecovery r s).dump = s.dump ∧ (setRecovery r s).mode = s.mode ∧ (setRecovery r s).twin = s.twin ∧
    (setRecovery r s).sticky = s.sticky ∧ (setRecovery r s).raisedNow = s.raisedNow ∧
    (setRecovery r s).latches = s.latches ∧ (setRecovery r s).inbox = s.inbox ∧ (setRecovery r s).out = s.out ∧
    (setRecovery r s).pending = s.pending := by
  and_intros <;> rfl

@[simp] theorem setRecovery_set (r : Recovery) (s : State) :
    (setRecovery r s).red =
      { s.red with recover := putBack (fun x => x.slot == r.slot && x.k == r.k && x.ctx == r.ctx) r s.red.recover } := rfl

@[simp] theorem dropQuery_fields (ctx slot k : Nat) (s : State) :
    (dropQuery ctx slot k s).profile = s.profile ∧ (dropQuery ctx slot k s).cfg = s.cfg ∧
    (dropQuery ctx slot k s).straps = s.straps ∧ (dropQuery ctx slot k s).pins = s.pins ∧
    (dropQuery ctx slot k s).edges = s.edges ∧ (dropQuery ctx slot k s).pwrEdge = s.pwrEdge ∧
    (dropQuery ctx slot k s).sb = s.sb ∧ (dropQuery ctx slot k s).i3c = s.i3c ∧
    (dropQuery ctx slot k s).hfAllow = s.hfAllow ∧ (dropQuery ctx slot k s).tim = s.tim ∧
    (dropQuery ctx slot k s).sched = s.sched ∧ (dropQuery ctx slot k s).lanes = s.lanes ∧
    (dropQuery ctx slot k s).cap = s.cap ∧ (dropQuery ctx slot k s).ctxs = s.ctxs ∧
    (dropQuery ctx slot k s).setups = s.setups ∧ (dropQuery ctx slot k s).trc = s.trc ∧
    (dropQuery ctx slot k s).watch = s.watch ∧ (dropQuery ctx slot k s).lateReads = s.lateReads ∧
    (dropQuery ctx slot k s).stop = s.stop ∧
    (dropQuery ctx slot k s).brk = s.brk ∧ (dropQuery ctx slot k s).capt = s.capt ∧
    (dropQuery ctx slot k s).captOut = s.captOut ∧ (dropQuery ctx slot k s).mem = s.mem ∧
    (dropQuery ctx slot k s).chans = s.chans ∧ (dropQuery ctx slot k s).raw = s.raw ∧
    (dropQuery ctx slot k s).act = s.act ∧ (dropQuery ctx slot k s).grant = s.grant ∧
    (dropQuery ctx slot k s).err = s.err ∧ (dropQuery ctx slot k s).age = s.age ∧
    (dropQuery ctx slot k s).otp = s.otp ∧ (dropQuery ctx slot k s).optime = s.optime ∧
    (dropQuery ctx slot k s).fab = s.fab ∧ (dropQuery ctx slot k s).stw = s.stw ∧
    (dropQuery ctx slot k s).flash = s.flash ∧ (dropQuery ctx slot k s).evr = s.evr ∧
    (dropQuery ctx slot k s).ident = s.ident ∧ (dropQuery ctx slot k s).boot = s.boot ∧
    (dropQuery ctx slot k s).hangs = s.hangs ∧ (dropQuery ctx slot k s).hostStall = s.hostStall ∧
    (dropQuery ctx slot k s).dump = s.dump ∧ (dropQuery ctx slot k s).mode = s.mode ∧
    (dropQuery ctx slot k s).twin = s.twin ∧ (dropQuery ctx slot k s).sticky = s.sticky ∧
    (dropQuery ctx slot k s).raisedNow = s.raisedNow ∧ (dropQuery ctx slot k s).latches = s.latches ∧
    (dropQuery ctx slot k s).inbox = s.inbox ∧ (dropQuery ctx slot k s).out = s.out ∧
    (dropQuery ctx slot k s).pending = s.pending := by
  and_intros <;> rfl

@[simp] theorem dropQuery_set (ctx slot k : Nat) (s : State) :
    (dropQuery ctx slot k s).red =
      { s.red with queries := s.red.queries.filter fun q => !(q.1 == ctx && q.2.1 == slot && q.2.2.1 == k) } := rfl

@[simp] theorem State.onArm_fields (s : State) (id : BitVec 64) (f : Arm → Arm) :
    (s.onArm id f).profile = s.profile ∧ (s.onArm id f).cfg = s.cfg ∧ (s.onArm id f).straps = s.straps ∧
    (s.onArm id f).pins = s.pins ∧ (s.onArm id f).edges = s.edges ∧ (s.onArm id f).pwrEdge = s.pwrEdge ∧
    (s.onArm id f).sb = s.sb ∧ (s.onArm id f).i3c = s.i3c ∧ (s.onArm id f).hfAllow = s.hfAllow ∧
    (s.onArm id f).tim = s.tim ∧ (s.onArm id f).sched = s.sched ∧ (s.onArm id f).lanes = s.lanes ∧
    (s.onArm id f).cap = s.cap ∧ (s.onArm id f).ctxs = s.ctxs ∧ (s.onArm id f).setups = s.setups ∧
    (s.onArm id f).trc = s.trc ∧ (s.onArm id f).watch = s.watch ∧ (s.onArm id f).lateReads = s.lateReads ∧
    (s.onArm id f).stop = s.stop ∧
    (s.onArm id f).brk = s.brk ∧ (s.onArm id f).capt = s.capt ∧ (s.onArm id f).captOut = s.captOut ∧
    (s.onArm id f).mem = s.mem ∧ (s.onArm id f).chans = s.chans ∧ (s.onArm id f).raw = s.raw ∧
    (s.onArm id f).act = s.act ∧ (s.onArm id f).grant = s.grant ∧ (s.onArm id f).err = s.err ∧
    (s.onArm id f).age = s.age ∧ (s.onArm id f).otp = s.otp ∧ (s.onArm id f).optime = s.optime ∧
    (s.onArm id f).fab = s.fab ∧ (s.onArm id f).stw = s.stw ∧ (s.onArm id f).flash = s.flash ∧
    (s.onArm id f).evr = s.evr ∧ (s.onArm id f).ident = s.ident ∧ (s.onArm id f).boot = s.boot ∧
    (s.onArm id f).hangs = s.hangs ∧ (s.onArm id f).hostStall = s.hostStall ∧ (s.onArm id f).dump = s.dump ∧
    (s.onArm id f).mode = s.mode ∧ (s.onArm id f).twin = s.twin ∧ (s.onArm id f).sticky = s.sticky ∧
    (s.onArm id f).raisedNow = s.raisedNow ∧ (s.onArm id f).latches = s.latches ∧ (s.onArm id f).inbox = s.inbox ∧
    (s.onArm id f).out = s.out ∧ (s.onArm id f).pending = s.pending := by
  and_intros <;> rfl

@[simp] theorem State.onArm_set (s : State) (id : BitVec 64) (f : Arm → Arm) :
    (s.onArm id f).red = { s.red with arms := mapIf (·.id == id) f s.red.arms } := rfl

@[simp] theorem State.dropArm_fields (s : State) (id : BitVec 64) :
    (s.dropArm id).profile = s.profile ∧ (s.dropArm id).cfg = s.cfg ∧ (s.dropArm id).straps = s.straps ∧
    (s.dropArm id).pins = s.pins ∧ (s.dropArm id).edges = s.edges ∧ (s.dropArm id).pwrEdge = s.pwrEdge ∧
    (s.dropArm id).sb = s.sb ∧ (s.dropArm id).i3c = s.i3c ∧ (s.dropArm id).hfAllow = s.hfAllow ∧
    (s.dropArm id).tim = s.tim ∧ (s.dropArm id).sched = s.sched ∧ (s.dropArm id).lanes = s.lanes ∧
    (s.dropArm id).cap = s.cap ∧ (s.dropArm id).ctxs = s.ctxs ∧ (s.dropArm id).setups = s.setups ∧
    (s.dropArm id).trc = s.trc ∧ (s.dropArm id).watch = s.watch ∧ (s.dropArm id).lateReads = s.lateReads ∧
    (s.dropArm id).stop = s.stop ∧
    (s.dropArm id).brk = s.brk ∧ (s.dropArm id).capt = s.capt ∧ (s.dropArm id).captOut = s.captOut ∧
    (s.dropArm id).mem = s.mem ∧ (s.dropArm id).chans = s.chans ∧ (s.dropArm id).raw = s.raw ∧
    (s.dropArm id).act = s.act ∧ (s.dropArm id).grant = s.grant ∧ (s.dropArm id).err = s.err ∧
    (s.dropArm id).age = s.age ∧ (s.dropArm id).otp = s.otp ∧ (s.dropArm id).optime = s.optime ∧
    (s.dropArm id).fab = s.fab ∧ (s.dropArm id).stw = s.stw ∧ (s.dropArm id).flash = s.flash ∧
    (s.dropArm id).evr = s.evr ∧ (s.dropArm id).ident = s.ident ∧ (s.dropArm id).boot = s.boot ∧
    (s.dropArm id).hangs = s.hangs ∧ (s.dropArm id).hostStall = s.hostStall ∧ (s.dropArm id).dump = s.dump ∧
    (s.dropArm id).mode = s.mode ∧ (s.dropArm id).twin = s.twin ∧ (s.dropArm id).sticky = s.sticky ∧
    (s.dropArm id).raisedNow = s.raisedNow ∧ (s.dropArm id).latches = s.latches ∧ (s.dropArm id).inbox = s.inbox ∧
    (s.dropArm id).out = s.out ∧ (s.dropArm id).pending = s.pending := by
  and_intros <;> rfl

@[simp] theorem State.dropArm_set (s : State) (id : BitVec 64) :
    (s.dropArm id).red = { s.red with arms := s.red.arms.filter (·.id != id), ended := id :: s.red.ended } := rfl

@[simp] theorem State.onMbx_fields (s : State) (n : Nat) (f : Mbx → Mbx) :
    (s.onMbx n f).profile = s.profile ∧ (s.onMbx n f).cfg = s.cfg ∧ (s.onMbx n f).straps = s.straps ∧
    (s.onMbx n f).pins = s.pins ∧ (s.onMbx n f).edges = s.edges ∧ (s.onMbx n f).pwrEdge = s.pwrEdge ∧
    (s.onMbx n f).sb = s.sb ∧ (s.onMbx n f).i3c = s.i3c ∧ (s.onMbx n f).hfAllow = s.hfAllow ∧
    (s.onMbx n f).tim = s.tim ∧ (s.onMbx n f).sched = s.sched ∧ (s.onMbx n f).lanes = s.lanes ∧
    (s.onMbx n f).cap = s.cap ∧ (s.onMbx n f).ctxs = s.ctxs ∧ (s.onMbx n f).setups = s.setups ∧
    (s.onMbx n f).red = s.red ∧ (s.onMbx n f).trc = s.trc ∧ (s.onMbx n f).watch = s.watch ∧
    (s.onMbx n f).lateReads = s.lateReads ∧
    (s.onMbx n f).stop = s.stop ∧ (s.onMbx n f).brk = s.brk ∧ (s.onMbx n f).capt = s.capt ∧
    (s.onMbx n f).captOut = s.captOut ∧ (s.onMbx n f).mem = s.mem ∧ (s.onMbx n f).chans = s.chans ∧
    (s.onMbx n f).raw = s.raw ∧ (s.onMbx n f).act = s.act ∧ (s.onMbx n f).grant = s.grant ∧
    (s.onMbx n f).err = s.err ∧ (s.onMbx n f).age = s.age ∧ (s.onMbx n f).otp = s.otp ∧
    (s.onMbx n f).optime = s.optime ∧ (s.onMbx n f).fab = s.fab ∧ (s.onMbx n f).flash = s.flash ∧
    (s.onMbx n f).evr = s.evr ∧ (s.onMbx n f).ident = s.ident ∧ (s.onMbx n f).boot = s.boot ∧
    (s.onMbx n f).hangs = s.hangs ∧ (s.onMbx n f).hostStall = s.hostStall ∧ (s.onMbx n f).dump = s.dump ∧
    (s.onMbx n f).mode = s.mode ∧ (s.onMbx n f).twin = s.twin ∧ (s.onMbx n f).sticky = s.sticky ∧
    (s.onMbx n f).raisedNow = s.raisedNow ∧ (s.onMbx n f).latches = s.latches ∧ (s.onMbx n f).inbox = s.inbox ∧
    (s.onMbx n f).out = s.out ∧ (s.onMbx n f).pending = s.pending := by
  and_intros <;> rfl

@[simp] theorem State.onMbx_set (s : State) (n : Nat) (f : Mbx → Mbx) :
    (s.onMbx n f).stw = { s.stw with mbxs := mapIf (·.n == n) f s.stw.mbxs } := rfl

@[simp] theorem queueBnd_fields (b turn : Nat) (a : Bnd) (team : Bool) (s : State) :
    (queueBnd b turn a team s).profile = s.profile ∧ (queueBnd b turn a team s).cfg = s.cfg ∧
    (queueBnd b turn a team s).straps = s.straps ∧ (queueBnd b turn a team s).pins = s.pins ∧
    (queueBnd b turn a team s).edges = s.edges ∧ (queueBnd b turn a team s).pwrEdge = s.pwrEdge ∧
    (queueBnd b turn a team s).sb = s.sb ∧ (queueBnd b turn a team s).i3c = s.i3c ∧
    (queueBnd b turn a team s).hfAllow = s.hfAllow ∧ (queueBnd b turn a team s).tim = s.tim ∧
    (queueBnd b turn a team s).sched = s.sched ∧ (queueBnd b turn a team s).lanes = s.lanes ∧
    (queueBnd b turn a team s).cap = s.cap ∧ (queueBnd b turn a team s).ctxs = s.ctxs ∧
    (queueBnd b turn a team s).setups = s.setups ∧ (queueBnd b turn a team s).red = s.red ∧
    (queueBnd b turn a team s).trc = s.trc ∧ (queueBnd b turn a team s).watch = s.watch ∧
    (queueBnd b turn a team s).lateReads = s.lateReads ∧
    (queueBnd b turn a team s).stop = s.stop ∧ (queueBnd b turn a team s).brk = s.brk ∧ (queueBnd b turn a team s).capt = s.capt ∧
    (queueBnd b turn a team s).captOut = s.captOut ∧ (queueBnd b turn a team s).mem = s.mem ∧
    (queueBnd b turn a team s).chans = s.chans ∧ (queueBnd b turn a team s).raw = s.raw ∧ (queueBnd b turn a team s).act = s.act ∧
    (queueBnd b turn a team s).grant = s.grant ∧ (queueBnd b turn a team s).err = s.err ∧ (queueBnd b turn a team s).age = s.age ∧
    (queueBnd b turn a team s).otp = s.otp ∧ (queueBnd b turn a team s).optime = s.optime ∧
    (queueBnd b turn a team s).fab = s.fab ∧ (queueBnd b turn a team s).flash = s.flash ∧ (queueBnd b turn a team s).evr = s.evr ∧
    (queueBnd b turn a team s).ident = s.ident ∧ (queueBnd b turn a team s).boot = s.boot ∧
    (queueBnd b turn a team s).hangs = s.hangs ∧ (queueBnd b turn a team s).hostStall = s.hostStall ∧
    (queueBnd b turn a team s).dump = s.dump ∧ (queueBnd b turn a team s).mode = s.mode ∧
    (queueBnd b turn a team s).twin = s.twin ∧ (queueBnd b turn a team s).sticky = s.sticky ∧
    (queueBnd b turn a team s).raisedNow = s.raisedNow ∧ (queueBnd b turn a team s).latches = s.latches ∧
    (queueBnd b turn a team s).inbox = s.inbox ∧ (queueBnd b turn a team s).out = s.out ∧
    (queueBnd b turn a team s).pending = s.pending := by
  and_intros <;> rfl

@[simp] theorem queueBnd_set (b turn : Nat) (a : Bnd) (team : Bool) (s : State) :
    (queueBnd b turn a team s).stw =
      { s.stw with bnd := s.stw.bnd ++ [{ b := b, act := a, echoed := !(team && s.relays), turn := turn }] } := rfl

@[simp] theorem dueReset_fields (s : State) :
    (dueReset s).profile = s.profile ∧ (dueReset s).cfg = s.cfg ∧ (dueReset s).straps = s.straps ∧
    (dueReset s).pins = s.pins ∧ (dueReset s).edges = s.edges ∧ (dueReset s).pwrEdge = s.pwrEdge ∧
    (dueReset s).sb = s.sb ∧ (dueReset s).i3c = s.i3c ∧ (dueReset s).hfAllow = s.hfAllow ∧
    (dueReset s).tim = s.tim ∧ (dueReset s).sched = s.sched ∧ (dueReset s).lanes = s.lanes ∧
    (dueReset s).cap = s.cap ∧ (dueReset s).ctxs = s.ctxs ∧ (dueReset s).setups = s.setups ∧
    (dueReset s).red = s.red ∧ (dueReset s).trc = s.trc ∧ (dueReset s).watch = s.watch ∧
    (dueReset s).lateReads = s.lateReads ∧
    (dueReset s).stop = s.stop ∧ (dueReset s).brk = s.brk ∧ (dueReset s).capt = s.capt ∧
    (dueReset s).captOut = s.captOut ∧ (dueReset s).mem = s.mem ∧ (dueReset s).chans = s.chans ∧
    (dueReset s).raw = s.raw ∧ (dueReset s).act = s.act ∧ (dueReset s).grant = s.grant ∧ (dueReset s).err = s.err ∧
    (dueReset s).age = s.age ∧ (dueReset s).otp = s.otp ∧ (dueReset s).optime = s.optime ∧
    (dueReset s).fab = s.fab ∧ (dueReset s).flash = s.flash ∧ (dueReset s).evr = s.evr ∧
    (dueReset s).ident = s.ident ∧ (dueReset s).boot = s.boot ∧ (dueReset s).hangs = s.hangs ∧
    (dueReset s).hostStall = s.hostStall ∧ (dueReset s).dump = s.dump ∧ (dueReset s).mode = s.mode ∧
    (dueReset s).twin = s.twin ∧ (dueReset s).sticky = s.sticky ∧ (dueReset s).raisedNow = s.raisedNow ∧
    (dueReset s).latches = s.latches ∧ (dueReset s).inbox = s.inbox ∧ (dueReset s).out = s.out ∧
    (dueReset s).pending = s.pending := by
  and_intros <;> rfl

@[simp] theorem dueReset_set (s : State) :
    (dueReset s).stw = { s.stw with resetDue := some (.cmd, s.now + nsT 10000) } := rfl

@[simp] theorem setCfgCopy_fields (i : Nat) (c : CfgCopy) (s : State) :
    (setCfgCopy i c s).profile = s.profile ∧ (setCfgCopy i c s).cfg = s.cfg ∧
    (setCfgCopy i c s).straps = s.straps ∧ (setCfgCopy i c s).pins = s.pins ∧ (setCfgCopy i c s).edges = s.edges ∧
    (setCfgCopy i c s).pwrEdge = s.pwrEdge ∧ (setCfgCopy i c s).sb = s.sb ∧ (setCfgCopy i c s).i3c = s.i3c ∧
    (setCfgCopy i c s).hfAllow = s.hfAllow ∧ (setCfgCopy i c s).tim = s.tim ∧ (setCfgCopy i c s).sched = s.sched ∧
    (setCfgCopy i c s).lanes = s.lanes ∧ (setCfgCopy i c s).cap = s.cap ∧ (setCfgCopy i c s).ctxs = s.ctxs ∧
    (setCfgCopy i c s).setups = s.setups ∧ (setCfgCopy i c s).red = s.red ∧ (setCfgCopy i c s).trc = s.trc ∧
    (setCfgCopy i c s).watch = s.watch ∧ (setCfgCopy i c s).lateReads = s.lateReads ∧
    (setCfgCopy i c s).stop = s.stop ∧ (setCfgCopy i c s).brk = s.brk ∧
    (setCfgCopy i c s).capt = s.capt ∧ (setCfgCopy i c s).captOut = s.captOut ∧ (setCfgCopy i c s).mem = s.mem ∧
    (setCfgCopy i c s).chans = s.chans ∧ (setCfgCopy i c s).raw = s.raw ∧ (setCfgCopy i c s).act = s.act ∧
    (setCfgCopy i c s).grant = s.grant ∧ (setCfgCopy i c s).err = s.err ∧ (setCfgCopy i c s).age = s.age ∧
    (setCfgCopy i c s).otp = s.otp ∧ (setCfgCopy i c s).optime = s.optime ∧ (setCfgCopy i c s).fab = s.fab ∧
    (setCfgCopy i c s).stw = s.stw ∧ (setCfgCopy i c s).evr = s.evr ∧ (setCfgCopy i c s).ident = s.ident ∧
    (setCfgCopy i c s).boot = s.boot ∧ (setCfgCopy i c s).hangs = s.hangs ∧
    (setCfgCopy i c s).hostStall = s.hostStall ∧ (setCfgCopy i c s).dump = s.dump ∧
    (setCfgCopy i c s).mode = s.mode ∧ (setCfgCopy i c s).twin = s.twin ∧ (setCfgCopy i c s).sticky = s.sticky ∧
    (setCfgCopy i c s).raisedNow = s.raisedNow ∧ (setCfgCopy i c s).latches = s.latches ∧
    (setCfgCopy i c s).inbox = s.inbox ∧ (setCfgCopy i c s).out = s.out ∧
    (setCfgCopy i c s).pending = s.pending := by
  and_intros <;> rfl

@[simp] theorem setCfgCopy_set (i : Nat) (c : CfgCopy) (s : State) :
    (setCfgCopy i c s).flash = { s.flash with cfg := modifyAt s.flash.cfg i fun _ => c } := rfl

@[simp] theorem setFwCopy_fields (i : Nat) (c : FwCopy) (s : State) :
    (setFwCopy i c s).profile = s.profile ∧ (setFwCopy i c s).cfg = s.cfg ∧ (setFwCopy i c s).straps = s.straps ∧
    (setFwCopy i c s).pins = s.pins ∧ (setFwCopy i c s).edges = s.edges ∧ (setFwCopy i c s).pwrEdge = s.pwrEdge ∧
    (setFwCopy i c s).sb = s.sb ∧ (setFwCopy i c s).i3c = s.i3c ∧ (setFwCopy i c s).hfAllow = s.hfAllow ∧
    (setFwCopy i c s).tim = s.tim ∧ (setFwCopy i c s).sched = s.sched ∧ (setFwCopy i c s).lanes = s.lanes ∧
    (setFwCopy i c s).cap = s.cap ∧ (setFwCopy i c s).ctxs = s.ctxs ∧ (setFwCopy i c s).setups = s.setups ∧
    (setFwCopy i c s).red = s.red ∧ (setFwCopy i c s).trc = s.trc ∧ (setFwCopy i c s).watch = s.watch ∧
    (setFwCopy i c s).lateReads = s.lateReads ∧
    (setFwCopy i c s).stop = s.stop ∧ (setFwCopy i c s).brk = s.brk ∧ (setFwCopy i c s).capt = s.capt ∧
    (setFwCopy i c s).captOut = s.captOut ∧ (setFwCopy i c s).mem = s.mem ∧ (setFwCopy i c s).chans = s.chans ∧
    (setFwCopy i c s).raw = s.raw ∧ (setFwCopy i c s).act = s.act ∧ (setFwCopy i c s).grant = s.grant ∧
    (setFwCopy i c s).err = s.err ∧ (setFwCopy i c s).age = s.age ∧ (setFwCopy i c s).otp = s.otp ∧
    (setFwCopy i c s).optime = s.optime ∧ (setFwCopy i c s).fab = s.fab ∧ (setFwCopy i c s).stw = s.stw ∧
    (setFwCopy i c s).evr = s.evr ∧ (setFwCopy i c s).ident = s.ident ∧ (setFwCopy i c s).boot = s.boot ∧
    (setFwCopy i c s).hangs = s.hangs ∧ (setFwCopy i c s).hostStall = s.hostStall ∧
    (setFwCopy i c s).dump = s.dump ∧ (setFwCopy i c s).mode = s.mode ∧ (setFwCopy i c s).twin = s.twin ∧
    (setFwCopy i c s).sticky = s.sticky ∧ (setFwCopy i c s).raisedNow = s.raisedNow ∧
    (setFwCopy i c s).latches = s.latches ∧ (setFwCopy i c s).inbox = s.inbox ∧ (setFwCopy i c s).out = s.out ∧
    (setFwCopy i c s).pending = s.pending := by
  and_intros <;> rfl

@[simp] theorem setFwCopy_set (i : Nat) (c : FwCopy) (s : State) :
    (setFwCopy i c s).flash = { s.flash with fw := modifyAt s.flash.fw i fun _ => c } := rfl

@[simp] theorem writeIncFrac_fields (v : BitVec 32) (s : State) :
    (writeIncFrac v s).profile = s.profile ∧ (writeIncFrac v s).cfg = s.cfg ∧
    (writeIncFrac v s).straps = s.straps ∧ (writeIncFrac v s).pins = s.pins ∧ (writeIncFrac v s).edges = s.edges ∧
    (writeIncFrac v s).pwrEdge = s.pwrEdge ∧ (writeIncFrac v s).sb = s.sb ∧ (writeIncFrac v s).i3c = s.i3c ∧
    (writeIncFrac v s).hfAllow = s.hfAllow ∧ (writeIncFrac v s).sched = s.sched ∧
    (writeIncFrac v s).lanes = s.lanes ∧ (writeIncFrac v s).cap = s.cap ∧ (writeIncFrac v s).ctxs = s.ctxs ∧
    (writeIncFrac v s).setups = s.setups ∧ (writeIncFrac v s).red = s.red ∧ (writeIncFrac v s).trc = s.trc ∧
    (writeIncFrac v s).watch = s.watch ∧ (writeIncFrac v s).lateReads = s.lateReads ∧
    (writeIncFrac v s).stop = s.stop ∧ (writeIncFrac v s).brk = s.brk ∧
    (writeIncFrac v s).capt = s.capt ∧ (writeIncFrac v s).captOut = s.captOut ∧ (writeIncFrac v s).mem = s.mem ∧
    (writeIncFrac v s).chans = s.chans ∧ (writeIncFrac v s).raw = s.raw ∧ (writeIncFrac v s).act = s.act ∧
    (writeIncFrac v s).grant = s.grant ∧ (writeIncFrac v s).err = s.err ∧ (writeIncFrac v s).age = s.age ∧
    (writeIncFrac v s).otp = s.otp ∧ (writeIncFrac v s).optime = s.optime ∧ (writeIncFrac v s).fab = s.fab ∧
    (writeIncFrac v s).stw = s.stw ∧ (writeIncFrac v s).flash = s.flash ∧ (writeIncFrac v s).evr = s.evr ∧
    (writeIncFrac v s).ident = s.ident ∧ (writeIncFrac v s).boot = s.boot ∧ (writeIncFrac v s).hangs = s.hangs ∧
    (writeIncFrac v s).hostStall = s.hostStall ∧ (writeIncFrac v s).dump = s.dump ∧
    (writeIncFrac v s).mode = s.mode ∧ (writeIncFrac v s).twin = s.twin ∧ (writeIncFrac v s).sticky = s.sticky ∧
    (writeIncFrac v s).raisedNow = s.raisedNow ∧ (writeIncFrac v s).latches = s.latches ∧
    (writeIncFrac v s).inbox = s.inbox ∧ (writeIncFrac v s).out = s.out ∧
    (writeIncFrac v s).pending = s.pending := by
  and_intros <;> rfl

@[simp] theorem writeIncFrac_set (v : BitVec 32) (s : State) :
    (writeIncFrac v s).tim = { s.tim with stagedFrac := v } := rfl

@[simp] theorem setLatches_fields (p : Path) (words : List (Nat × Word)) (s : State) :
    (setLatches p words s).profile = s.profile ∧ (setLatches p words s).cfg = s.cfg ∧
    (setLatches p words s).straps = s.straps ∧ (setLatches p words s).pins = s.pins ∧
    (setLatches p words s).edges = s.edges ∧ (setLatches p words s).pwrEdge = s.pwrEdge ∧
    (setLatches p words s).sb = s.sb ∧ (setLatches p words s).i3c = s.i3c ∧
    (setLatches p words s).hfAllow = s.hfAllow ∧ (setLatches p words s).tim = s.tim ∧
    (setLatches p words s).sched = s.sched ∧ (setLatches p words s).lanes = s.lanes ∧
    (setLatches p words s).cap = s.cap ∧ (setLatches p words s).ctxs = s.ctxs ∧
    (setLatches p words s).setups = s.setups ∧ (setLatches p words s).red = s.red ∧
    (setLatches p words s).trc = s.trc ∧ (setLatches p words s).watch = s.watch ∧
    (setLatches p words s).lateReads = s.lateReads ∧
    (setLatches p words s).stop = s.stop ∧ (setLatches p words s).brk = s.brk ∧
    (setLatches p words s).capt = s.capt ∧ (setLatches p words s).captOut = s.captOut ∧
    (setLatches p words s).mem = s.mem ∧ (setLatches p words s).chans = s.chans ∧
    (setLatches p words s).raw = s.raw ∧ (setLatches p words s).act = s.act ∧
    (setLatches p words s).grant = s.grant ∧ (setLatches p words s).err = s.err ∧
    (setLatches p words s).age = s.age ∧ (setLatches p words s).otp = s.otp ∧
    (setLatches p words s).optime = s.optime ∧ (setLatches p words s).fab = s.fab ∧
    (setLatches p words s).stw = s.stw ∧ (setLatches p words s).flash = s.flash ∧
    (setLatches p words s).evr = s.evr ∧ (setLatches p words s).ident = s.ident ∧
    (setLatches p words s).boot = s.boot ∧ (setLatches p words s).hangs = s.hangs ∧
    (setLatches p words s).hostStall = s.hostStall ∧ (setLatches p words s).dump = s.dump ∧
    (setLatches p words s).mode = s.mode ∧ (setLatches p words s).twin = s.twin ∧
    (setLatches p words s).sticky = s.sticky ∧ (setLatches p words s).raisedNow = s.raisedNow ∧
    (setLatches p words s).inbox = s.inbox ∧ (setLatches p words s).out = s.out ∧
    (setLatches p words s).pending = s.pending := by
  and_intros <;> rfl

@[simp] theorem setLatches_set (p : Path) (words : List (Nat × Word)) (s : State) :
    (setLatches p words s).latches =
      s.latches.filter (fun l => !(l.1 == p && words.any (·.1 == l.2.1))) ++ words.map fun w => (p, w.1, w.2) := rfl

@[simp] theorem State.onShareTrc_fields (s : State) (c : Nat) (f : ShareTrc → ShareTrc) :
    (s.onShareTrc c f).profile = s.profile ∧ (s.onShareTrc c f).cfg = s.cfg ∧
    (s.onShareTrc c f).straps = s.straps ∧ (s.onShareTrc c f).pins = s.pins ∧ (s.onShareTrc c f).edges = s.edges ∧
    (s.onShareTrc c f).pwrEdge = s.pwrEdge ∧ (s.onShareTrc c f).sb = s.sb ∧ (s.onShareTrc c f).i3c = s.i3c ∧
    (s.onShareTrc c f).hfAllow = s.hfAllow ∧ (s.onShareTrc c f).tim = s.tim ∧ (s.onShareTrc c f).sched = s.sched ∧
    (s.onShareTrc c f).lanes = s.lanes ∧ (s.onShareTrc c f).cap = s.cap ∧ (s.onShareTrc c f).ctxs = s.ctxs ∧
    (s.onShareTrc c f).setups = s.setups ∧ (s.onShareTrc c f).red = s.red ∧ (s.onShareTrc c f).watch = s.watch ∧
    (s.onShareTrc c f).lateReads = s.lateReads ∧
    (s.onShareTrc c f).stop = s.stop ∧ (s.onShareTrc c f).brk = s.brk ∧ (s.onShareTrc c f).capt = s.capt ∧
    (s.onShareTrc c f).captOut = s.captOut ∧ (s.onShareTrc c f).mem = s.mem ∧ (s.onShareTrc c f).chans = s.chans ∧
    (s.onShareTrc c f).raw = s.raw ∧ (s.onShareTrc c f).act = s.act ∧ (s.onShareTrc c f).grant = s.grant ∧
    (s.onShareTrc c f).err = s.err ∧ (s.onShareTrc c f).age = s.age ∧ (s.onShareTrc c f).otp = s.otp ∧
    (s.onShareTrc c f).optime = s.optime ∧ (s.onShareTrc c f).fab = s.fab ∧ (s.onShareTrc c f).stw = s.stw ∧
    (s.onShareTrc c f).flash = s.flash ∧ (s.onShareTrc c f).evr = s.evr ∧ (s.onShareTrc c f).ident = s.ident ∧
    (s.onShareTrc c f).boot = s.boot ∧ (s.onShareTrc c f).hangs = s.hangs ∧
    (s.onShareTrc c f).hostStall = s.hostStall ∧ (s.onShareTrc c f).dump = s.dump ∧
    (s.onShareTrc c f).mode = s.mode ∧ (s.onShareTrc c f).twin = s.twin ∧ (s.onShareTrc c f).sticky = s.sticky ∧
    (s.onShareTrc c f).raisedNow = s.raisedNow ∧ (s.onShareTrc c f).latches = s.latches ∧
    (s.onShareTrc c f).inbox = s.inbox ∧ (s.onShareTrc c f).out = s.out ∧
    (s.onShareTrc c f).pending = s.pending := by
  and_intros <;> rfl

@[simp] theorem State.onShareTrc_set (s : State) (c : Nat) (f : ShareTrc → ShareTrc) :
    (s.onShareTrc c f).trc = { s.trc with shares := mapIf (·.ctx == c) f s.trc.shares } := rfl

@[simp] theorem State.onWatch_fields (s : State) (c : Nat) (f : ShareWatch → ShareWatch) :
    (s.onWatch c f).profile = s.profile ∧ (s.onWatch c f).cfg = s.cfg ∧ (s.onWatch c f).straps = s.straps ∧
    (s.onWatch c f).pins = s.pins ∧ (s.onWatch c f).edges = s.edges ∧ (s.onWatch c f).pwrEdge = s.pwrEdge ∧
    (s.onWatch c f).sb = s.sb ∧ (s.onWatch c f).i3c = s.i3c ∧ (s.onWatch c f).hfAllow = s.hfAllow ∧
    (s.onWatch c f).tim = s.tim ∧ (s.onWatch c f).sched = s.sched ∧ (s.onWatch c f).lanes = s.lanes ∧
    (s.onWatch c f).cap = s.cap ∧ (s.onWatch c f).ctxs = s.ctxs ∧ (s.onWatch c f).setups = s.setups ∧
    (s.onWatch c f).red = s.red ∧ (s.onWatch c f).trc = s.trc ∧ (s.onWatch c f).stop = s.stop ∧
    (s.onWatch c f).brk = s.brk ∧ (s.onWatch c f).capt = s.capt ∧ (s.onWatch c f).captOut = s.captOut ∧
    (s.onWatch c f).mem = s.mem ∧ (s.onWatch c f).chans = s.chans ∧ (s.onWatch c f).raw = s.raw ∧
    (s.onWatch c f).act = s.act ∧ (s.onWatch c f).grant = s.grant ∧ (s.onWatch c f).err = s.err ∧
    (s.onWatch c f).age = s.age ∧ (s.onWatch c f).otp = s.otp ∧ (s.onWatch c f).optime = s.optime ∧
    (s.onWatch c f).fab = s.fab ∧ (s.onWatch c f).stw = s.stw ∧ (s.onWatch c f).flash = s.flash ∧
    (s.onWatch c f).evr = s.evr ∧ (s.onWatch c f).ident = s.ident ∧ (s.onWatch c f).boot = s.boot ∧
    (s.onWatch c f).hangs = s.hangs ∧ (s.onWatch c f).hostStall = s.hostStall ∧ (s.onWatch c f).dump = s.dump ∧
    (s.onWatch c f).mode = s.mode ∧ (s.onWatch c f).twin = s.twin ∧ (s.onWatch c f).sticky = s.sticky ∧
    (s.onWatch c f).raisedNow = s.raisedNow ∧ (s.onWatch c f).latches = s.latches ∧
    (s.onWatch c f).inbox = s.inbox ∧ (s.onWatch c f).out = s.out ∧ (s.onWatch c f).pending = s.pending := by
  and_intros <;> rfl

@[simp] theorem State.onWatch_set (s : State) (c : Nat) (f : ShareWatch → ShareWatch) :
    (s.onWatch c f).watch = mapIf (·.ctx == c) f s.watch := rfl

@[simp] theorem State.onClass_fields (s : State) (cls : Nat) (f : UnitClass → UnitClass) :
    (s.onClass cls f).profile = s.profile ∧ (s.onClass cls f).cfg = s.cfg ∧ (s.onClass cls f).straps = s.straps ∧
    (s.onClass cls f).pins = s.pins ∧ (s.onClass cls f).edges = s.edges ∧ (s.onClass cls f).pwrEdge = s.pwrEdge ∧
    (s.onClass cls f).sb = s.sb ∧ (s.onClass cls f).i3c = s.i3c ∧ (s.onClass cls f).hfAllow = s.hfAllow ∧
    (s.onClass cls f).tim = s.tim ∧ (s.onClass cls f).sched = s.sched ∧ (s.onClass cls f).lanes = s.lanes ∧
    (s.onClass cls f).cap = s.cap ∧ (s.onClass cls f).ctxs = s.ctxs ∧ (s.onClass cls f).setups = s.setups ∧
    (s.onClass cls f).red = s.red ∧ (s.onClass cls f).trc = s.trc ∧ (s.onClass cls f).watch = s.watch ∧
    (s.onClass cls f).lateReads = s.lateReads ∧
    (s.onClass cls f).stop = s.stop ∧ (s.onClass cls f).brk = s.brk ∧ (s.onClass cls f).capt = s.capt ∧
    (s.onClass cls f).captOut = s.captOut ∧ (s.onClass cls f).mem = s.mem ∧ (s.onClass cls f).chans = s.chans ∧
    (s.onClass cls f).raw = s.raw ∧ (s.onClass cls f).act = s.act ∧ (s.onClass cls f).grant = s.grant ∧
    (s.onClass cls f).age = s.age ∧ (s.onClass cls f).otp = s.otp ∧ (s.onClass cls f).optime = s.optime ∧
    (s.onClass cls f).fab = s.fab ∧ (s.onClass cls f).stw = s.stw ∧ (s.onClass cls f).flash = s.flash ∧
    (s.onClass cls f).evr = s.evr ∧ (s.onClass cls f).ident = s.ident ∧ (s.onClass cls f).boot = s.boot ∧
    (s.onClass cls f).hangs = s.hangs ∧ (s.onClass cls f).hostStall = s.hostStall ∧
    (s.onClass cls f).dump = s.dump ∧ (s.onClass cls f).mode = s.mode ∧ (s.onClass cls f).twin = s.twin ∧
    (s.onClass cls f).sticky = s.sticky ∧ (s.onClass cls f).raisedNow = s.raisedNow ∧
    (s.onClass cls f).latches = s.latches ∧ (s.onClass cls f).inbox = s.inbox ∧ (s.onClass cls f).out = s.out ∧
    (s.onClass cls f).pending = s.pending := by
  and_intros <;> rfl

@[simp] theorem State.onClass_set (s : State) (cls : Nat) (f : UnitClass → UnitClass) :
    (s.onClass cls f).err = { s.err with units := mapIf (·.cls == cls) f s.err.units } := rfl

@[simp] theorem setLoop_fields (p : Bytes) (s : State) :
    (setLoop p s).profile = s.profile ∧ (setLoop p s).cfg = s.cfg ∧ (setLoop p s).straps = s.straps ∧
    (setLoop p s).pins = s.pins ∧ (setLoop p s).edges = s.edges ∧ (setLoop p s).pwrEdge = s.pwrEdge ∧
    (setLoop p s).sb = s.sb ∧ (setLoop p s).i3c = s.i3c ∧ (setLoop p s).hfAllow = s.hfAllow ∧
    (setLoop p s).tim = s.tim ∧ (setLoop p s).sched = s.sched ∧ (setLoop p s).lanes = s.lanes ∧
    (setLoop p s).cap = s.cap ∧ (setLoop p s).ctxs = s.ctxs ∧ (setLoop p s).setups = s.setups ∧
    (setLoop p s).red = s.red ∧ (setLoop p s).trc = s.trc ∧ (setLoop p s).watch = s.watch ∧
    (setLoop p s).lateReads = s.lateReads ∧
    (setLoop p s).stop = s.stop ∧ (setLoop p s).brk = s.brk ∧ (setLoop p s).capt = s.capt ∧
    (setLoop p s).captOut = s.captOut ∧ (setLoop p s).mem = s.mem ∧ (setLoop p s).chans = s.chans ∧
    (setLoop p s).raw = s.raw ∧ (setLoop p s).grant = s.grant ∧ (setLoop p s).err = s.err ∧
    (setLoop p s).age = s.age ∧ (setLoop p s).otp = s.otp ∧ (setLoop p s).optime = s.optime ∧
    (setLoop p s).fab = s.fab ∧ (setLoop p s).stw = s.stw ∧ (setLoop p s).flash = s.flash ∧
    (setLoop p s).evr = s.evr ∧ (setLoop p s).ident = s.ident ∧ (setLoop p s).boot = s.boot ∧
    (setLoop p s).hangs = s.hangs ∧ (setLoop p s).hostStall = s.hostStall ∧ (setLoop p s).dump = s.dump ∧
    (setLoop p s).mode = s.mode ∧ (setLoop p s).twin = s.twin ∧ (setLoop p s).sticky = s.sticky ∧
    (setLoop p s).raisedNow = s.raisedNow ∧ (setLoop p s).latches = s.latches ∧ (setLoop p s).inbox = s.inbox ∧
    (setLoop p s).out = s.out ∧ (setLoop p s).pending = s.pending := by
  and_intros <;> rfl

@[simp] theorem setLoop_set (p : Bytes) (s : State) :
    (setLoop p s).act = { s.act with nextLoop := some (readLoop p) } := rfl

@[simp] theorem sbAnswer_fields (err : Bool) (s : State) :
    (sbAnswer err s).profile = s.profile ∧ (sbAnswer err s).cfg = s.cfg ∧ (sbAnswer err s).straps = s.straps ∧
    (sbAnswer err s).edges = s.edges ∧ (sbAnswer err s).pwrEdge = s.pwrEdge ∧ (sbAnswer err s).i3c = s.i3c ∧
    (sbAnswer err s).hfAllow = s.hfAllow ∧ (sbAnswer err s).tim = s.tim ∧ (sbAnswer err s).sched = s.sched ∧
    (sbAnswer err s).lanes = s.lanes ∧ (sbAnswer err s).cap = s.cap ∧ (sbAnswer err s).ctxs = s.ctxs ∧
    (sbAnswer err s).setups = s.setups ∧ (sbAnswer err s).red = s.red ∧ (sbAnswer err s).trc = s.trc ∧
    (sbAnswer err s).watch = s.watch ∧ (sbAnswer err s).lateReads = s.lateReads ∧ (sbAnswer err s).stop = s.stop ∧
    (sbAnswer err s).brk = s.brk ∧
    (sbAnswer err s).capt = s.capt ∧ (sbAnswer err s).captOut = s.captOut ∧ (sbAnswer err s).mem = s.mem ∧
    (sbAnswer err s).chans = s.chans ∧ (sbAnswer err s).raw = s.raw ∧ (sbAnswer err s).act = s.act ∧
    (sbAnswer err s).grant = s.grant ∧ (sbAnswer err s).err = s.err ∧ (sbAnswer err s).age = s.age ∧
    (sbAnswer err s).otp = s.otp ∧ (sbAnswer err s).optime = s.optime ∧ (sbAnswer err s).fab = s.fab ∧
    (sbAnswer err s).stw = s.stw ∧ (sbAnswer err s).flash = s.flash ∧ (sbAnswer err s).evr = s.evr ∧
    (sbAnswer err s).ident = s.ident ∧ (sbAnswer err s).boot = s.boot ∧ (sbAnswer err s).hangs = s.hangs ∧
    (sbAnswer err s).hostStall = s.hostStall ∧ (sbAnswer err s).dump = s.dump ∧ (sbAnswer err s).mode = s.mode ∧
    (sbAnswer err s).twin = s.twin ∧ (sbAnswer err s).sticky = s.sticky ∧
    (sbAnswer err s).raisedNow = s.raisedNow ∧ (sbAnswer err s).latches = s.latches ∧
    (sbAnswer err s).inbox = s.inbox ∧ (sbAnswer err s).out = s.out ∧ (sbAnswer err s).pending = s.pending := by
  and_intros <;> rfl

@[simp] theorem sbAnswer_set (err : Bool) (s : State) :
    (sbAnswer err s).pins = { s.pins with sbAck := true, sbErr := err } ∧
    (sbAnswer err s).sb = { s.sb with ackAt := some s.edges } := by
  and_intros <;> rfl

@[simp] theorem endRequest_fields (s : State) :
    (endRequest s).profile = s.profile ∧ (endRequest s).cfg = s.cfg ∧ (endRequest s).straps = s.straps ∧
    (endRequest s).edges = s.edges ∧ (endRequest s).pwrEdge = s.pwrEdge ∧ (endRequest s).sb = s.sb ∧
    (endRequest s).i3c = s.i3c ∧ (endRequest s).hfAllow = s.hfAllow ∧ (endRequest s).tim = s.tim ∧
    (endRequest s).sched = s.sched ∧ (endRequest s).lanes = s.lanes ∧ (endRequest s).cap = s.cap ∧
    (endRequest s).ctxs = s.ctxs ∧ (endRequest s).setups = s.setups ∧ (endRequest s).red = s.red ∧
    (endRequest s).trc = s.trc ∧ (endRequest s).watch = s.watch ∧ (endRequest s).lateReads = s.lateReads ∧
    (endRequest s).stop = s.stop ∧
    (endRequest s).brk = s.brk ∧ (endRequest s).capt = s.capt ∧ (endRequest s).captOut = s.captOut ∧
    (endRequest s).mem = s.mem ∧ (endRequest s).chans = s.chans ∧ (endRequest s).raw = s.raw ∧
    (endRequest s).act = s.act ∧ (endRequest s).grant = s.grant ∧ (endRequest s).err = s.err ∧
    (endRequest s).otp = s.otp ∧ (endRequest s).optime = s.optime ∧ (endRequest s).fab = s.fab ∧
    (endRequest s).stw = s.stw ∧ (endRequest s).flash = s.flash ∧ (endRequest s).evr = s.evr ∧
    (endRequest s).ident = s.ident ∧ (endRequest s).boot = s.boot ∧ (endRequest s).hangs = s.hangs ∧
    (endRequest s).hostStall = s.hostStall ∧ (endRequest s).dump = s.dump ∧ (endRequest s).mode = s.mode ∧
    (endRequest s).twin = s.twin ∧ (endRequest s).sticky = s.sticky ∧ (endRequest s).raisedNow = s.raisedNow ∧
    (endRequest s).latches = s.latches ∧ (endRequest s).inbox = s.inbox ∧ (endRequest s).out = s.out ∧
    (endRequest s).pending = s.pending := by
  and_intros <;> rfl

@[simp] theorem endRequest_set (s : State) :
    (endRequest s).age = { s.age with req := none } ∧
    (endRequest s).pins = { s.pins with vmReq := false, vmStep := 0 } := by
  and_intros <;> rfl

@[simp] theorem queueAt_fields (turn : Nat) (a : Bnd) (b : Nat) (s : State) :
    (queueAt turn a b s).profile = s.profile ∧ (queueAt turn a b s).cfg = s.cfg ∧
    (queueAt turn a b s).straps = s.straps ∧ (queueAt turn a b s).pins = s.pins ∧ (queueAt turn a b s).edges = s.edges ∧
    (queueAt turn a b s).pwrEdge = s.pwrEdge ∧ (queueAt turn a b s).sb = s.sb ∧ (queueAt turn a b s).i3c = s.i3c ∧
    (queueAt turn a b s).hfAllow = s.hfAllow ∧ (queueAt turn a b s).tim = s.tim ∧ (queueAt turn a b s).sched = s.sched ∧
    (queueAt turn a b s).lanes = s.lanes ∧ (queueAt turn a b s).cap = s.cap ∧ (queueAt turn a b s).ctxs = s.ctxs ∧
    (queueAt turn a b s).setups = s.setups ∧ (queueAt turn a b s).red = s.red ∧ (queueAt turn a b s).trc = s.trc ∧
    (queueAt turn a b s).watch = s.watch ∧ (queueAt turn a b s).lateReads = s.lateReads ∧
    (queueAt turn a b s).stop = s.stop ∧ (queueAt turn a b s).brk = s.brk ∧
    (queueAt turn a b s).capt = s.capt ∧ (queueAt turn a b s).captOut = s.captOut ∧ (queueAt turn a b s).mem = s.mem ∧
    (queueAt turn a b s).chans = s.chans ∧ (queueAt turn a b s).raw = s.raw ∧ (queueAt turn a b s).act = s.act ∧
    (queueAt turn a b s).grant = s.grant ∧ (queueAt turn a b s).err = s.err ∧ (queueAt turn a b s).age = s.age ∧
    (queueAt turn a b s).otp = s.otp ∧ (queueAt turn a b s).optime = s.optime ∧ (queueAt turn a b s).fab = s.fab ∧
    (queueAt turn a b s).flash = s.flash ∧ (queueAt turn a b s).evr = s.evr ∧ (queueAt turn a b s).ident = s.ident ∧
    (queueAt turn a b s).boot = s.boot ∧ (queueAt turn a b s).hangs = s.hangs ∧
    (queueAt turn a b s).hostStall = s.hostStall ∧ (queueAt turn a b s).dump = s.dump ∧
    (queueAt turn a b s).mode = s.mode ∧ (queueAt turn a b s).twin = s.twin ∧ (queueAt turn a b s).sticky = s.sticky ∧
    (queueAt turn a b s).raisedNow = s.raisedNow ∧ (queueAt turn a b s).latches = s.latches ∧
    (queueAt turn a b s).inbox = s.inbox ∧ (queueAt turn a b s).out = s.out ∧
    (queueAt turn a b s).pending = s.pending := by
  and_intros <;> rfl

@[simp] theorem queueAt_set (turn : Nat) (a : Bnd) (b : Nat) (s : State) :
    (queueAt turn a b s).stw =
      { s.stw with bnd := s.stw.bnd ++ [{ b := b, act := a, echoed := true, turn := turn }] } := rfl

@[simp] theorem queueAlone_eq (a : Bnd) (b : Nat) (s : State) : queueAlone a b s = queueAt s.stw.turn a b s := rfl

@[simp] theorem hfRequest_fields (op : BitVec 2) (addr : Nat) (tag : BitVec 6) (data : BitVec 512) (s : State) :
    (hfRequest op addr tag data s).profile = s.profile ∧ (hfRequest op addr tag data s).cfg = s.cfg ∧
    (hfRequest op addr tag data s).straps = s.straps ∧ (hfRequest op addr tag data s).edges = s.edges ∧
    (hfRequest op addr tag data s).pwrEdge = s.pwrEdge ∧ (hfRequest op addr tag data s).sb = s.sb ∧
    (hfRequest op addr tag data s).i3c = s.i3c ∧ (hfRequest op addr tag data s).hfAllow = s.hfAllow ∧
    (hfRequest op addr tag data s).tim = s.tim ∧ (hfRequest op addr tag data s).sched = s.sched ∧
    (hfRequest op addr tag data s).lanes = s.lanes ∧ (hfRequest op addr tag data s).cap = s.cap ∧
    (hfRequest op addr tag data s).ctxs = s.ctxs ∧ (hfRequest op addr tag data s).setups = s.setups ∧
    (hfRequest op addr tag data s).red = s.red ∧ (hfRequest op addr tag data s).trc = s.trc ∧
    (hfRequest op addr tag data s).watch = s.watch ∧ (hfRequest op addr tag data s).lateReads = s.lateReads ∧
    (hfRequest op addr tag data s).stop = s.stop ∧
    (hfRequest op addr tag data s).brk = s.brk ∧ (hfRequest op addr tag data s).capt = s.capt ∧
    (hfRequest op addr tag data s).captOut = s.captOut ∧ (hfRequest op addr tag data s).mem = s.mem ∧
    (hfRequest op addr tag data s).chans = s.chans ∧ (hfRequest op addr tag data s).raw = s.raw ∧
    (hfRequest op addr tag data s).act = s.act ∧ (hfRequest op addr tag data s).grant = s.grant ∧
    (hfRequest op addr tag data s).err = s.err ∧ (hfRequest op addr tag data s).age = s.age ∧
    (hfRequest op addr tag data s).otp = s.otp ∧ (hfRequest op addr tag data s).optime = s.optime ∧
    (hfRequest op addr tag data s).fab = s.fab ∧ (hfRequest op addr tag data s).stw = s.stw ∧
    (hfRequest op addr tag data s).flash = s.flash ∧ (hfRequest op addr tag data s).evr = s.evr ∧
    (hfRequest op addr tag data s).ident = s.ident ∧ (hfRequest op addr tag data s).boot = s.boot ∧
    (hfRequest op addr tag data s).hangs = s.hangs ∧ (hfRequest op addr tag data s).hostStall = s.hostStall ∧
    (hfRequest op addr tag data s).dump = s.dump ∧ (hfRequest op addr tag data s).mode = s.mode ∧
    (hfRequest op addr tag data s).twin = s.twin ∧ (hfRequest op addr tag data s).sticky = s.sticky ∧
    (hfRequest op addr tag data s).raisedNow = s.raisedNow ∧ (hfRequest op addr tag data s).latches = s.latches ∧
    (hfRequest op addr tag data s).inbox = s.inbox ∧ (hfRequest op addr tag data s).out = s.out ∧
    (hfRequest op addr tag data s).pending = s.pending := by
  and_intros <;> rfl

@[simp] theorem hfRequest_set (op : BitVec 2) (addr : Nat) (tag : BitVec 6) (data : BitVec 512) (s : State) :
    (hfRequest op addr tag data s).pins =
      { s.pins with hfAvld := true, hfAop := op, hfAddr := BitVec.ofNat 52 addr, hfAtag := tag, hfWdata := if op == 0 then s.pins.hfWdata else data } := rfl

/-! The W1C bits that have names of their own, and the two updates with a computed part. -/

@[simp] theorem State.errBit_eq (s : State) (i : Nat) : s.errBit i = s.setBit .err i := rfl

@[simp] theorem State.ageBit_eq (s : State) (i : Nat) : s.ageBit i = s.setBit .age i := rfl

@[simp] theorem State.stopBit_eq (s : State) (i : Nat) : s.stopBit i = s.setBit .trc i := rfl

@[simp] theorem evrBit_eq (i : Nat) (s : State) : evrBit i s = s.setBit .evr i := rfl

@[simp] theorem fabFlag_eq (i : Nat) (s : State) : fabFlag i s = s.setBit .fab i := rfl

@[simp] theorem mbxNoReturn_eq (s : State) : mbxNoReturn s = s.setBit .stw 30 := rfl

@[simp] theorem refuseTimWrite_eq (s : State) : refuseTimWrite s = s.setBit .tim 16 := rfl

@[simp] theorem State.raise_fields (s : State) (r : BusReq) :
    (s.raise r).profile = s.profile ∧ (s.raise r).cfg = s.cfg ∧ (s.raise r).straps = s.straps ∧
    (s.raise r).pins = s.pins ∧ (s.raise r).edges = s.edges ∧ (s.raise r).pwrEdge = s.pwrEdge ∧
    (s.raise r).sb = s.sb ∧ (s.raise r).i3c = s.i3c ∧ (s.raise r).hfAllow = s.hfAllow ∧ (s.raise r).tim = s.tim ∧
    (s.raise r).sched = s.sched ∧ (s.raise r).lanes = s.lanes ∧ (s.raise r).ctxs = s.ctxs ∧
    (s.raise r).setups = s.setups ∧ (s.raise r).red = s.red ∧ (s.raise r).trc = s.trc ∧
    (s.raise r).watch = s.watch ∧ (s.raise r).lateReads = s.lateReads ∧ (s.raise r).stop = s.stop ∧
    (s.raise r).brk = s.brk ∧ (s.raise r).capt = s.capt ∧
    (s.raise r).captOut = s.captOut ∧ (s.raise r).mem = s.mem ∧ (s.raise r).chans = s.chans ∧
    (s.raise r).raw = s.raw ∧ (s.raise r).act = s.act ∧ (s.raise r).grant = s.grant ∧ (s.raise r).err = s.err ∧
    (s.raise r).age = s.age ∧ (s.raise r).otp = s.otp ∧ (s.raise r).optime = s.optime ∧ (s.raise r).fab = s.fab ∧
    (s.raise r).stw = s.stw ∧ (s.raise r).flash = s.flash ∧ (s.raise r).evr = s.evr ∧ (s.raise r).ident = s.ident ∧
    (s.raise r).boot = s.boot ∧ (s.raise r).hangs = s.hangs ∧ (s.raise r).hostStall = s.hostStall ∧
    (s.raise r).dump = s.dump ∧ (s.raise r).mode = s.mode ∧ (s.raise r).twin = s.twin ∧
    (s.raise r).sticky = s.sticky ∧ (s.raise r).raisedNow = s.raisedNow ∧ (s.raise r).latches = s.latches ∧
    (s.raise r).inbox = s.inbox ∧ (s.raise r).out = s.out ∧ (s.raise r).pending = s.pending := by
  and_intros <;> rfl

@[simp] theorem State.errCount_fields (s : State) (i n : Nat) :
    (s.errCount i n).profile = s.profile ∧ (s.errCount i n).cfg = s.cfg ∧ (s.errCount i n).straps = s.straps ∧
    (s.errCount i n).pins = s.pins ∧ (s.errCount i n).edges = s.edges ∧ (s.errCount i n).pwrEdge = s.pwrEdge ∧
    (s.errCount i n).sb = s.sb ∧ (s.errCount i n).i3c = s.i3c ∧ (s.errCount i n).hfAllow = s.hfAllow ∧
    (s.errCount i n).tim = s.tim ∧ (s.errCount i n).sched = s.sched ∧ (s.errCount i n).lanes = s.lanes ∧
    (s.errCount i n).cap = s.cap ∧ (s.errCount i n).ctxs = s.ctxs ∧ (s.errCount i n).setups = s.setups ∧
    (s.errCount i n).red = s.red ∧ (s.errCount i n).trc = s.trc ∧ (s.errCount i n).watch = s.watch ∧
    (s.errCount i n).lateReads = s.lateReads ∧
    (s.errCount i n).stop = s.stop ∧ (s.errCount i n).brk = s.brk ∧ (s.errCount i n).capt = s.capt ∧
    (s.errCount i n).captOut = s.captOut ∧ (s.errCount i n).mem = s.mem ∧ (s.errCount i n).chans = s.chans ∧
    (s.errCount i n).raw = s.raw ∧ (s.errCount i n).act = s.act ∧ (s.errCount i n).grant = s.grant ∧
    (s.errCount i n).age = s.age ∧ (s.errCount i n).otp = s.otp ∧ (s.errCount i n).optime = s.optime ∧
    (s.errCount i n).fab = s.fab ∧ (s.errCount i n).stw = s.stw ∧ (s.errCount i n).flash = s.flash ∧
    (s.errCount i n).evr = s.evr ∧ (s.errCount i n).ident = s.ident ∧ (s.errCount i n).boot = s.boot ∧
    (s.errCount i n).hangs = s.hangs ∧ (s.errCount i n).hostStall = s.hostStall ∧ (s.errCount i n).dump = s.dump ∧
    (s.errCount i n).mode = s.mode ∧ (s.errCount i n).twin = s.twin ∧ (s.errCount i n).sticky = s.sticky ∧
    (s.errCount i n).raisedNow = s.raisedNow ∧ (s.errCount i n).latches = s.latches ∧
    (s.errCount i n).inbox = s.inbox ∧ (s.errCount i n).out = s.out ∧ (s.errCount i n).pending = s.pending := by
  and_intros <;> rfl

@[simp] theorem State.stripe_fields (s : State) (cls : XferClass) (first n : Nat) :
    (s.stripe cls first n).profile = s.profile ∧ (s.stripe cls first n).cfg = s.cfg ∧
    (s.stripe cls first n).straps = s.straps ∧ (s.stripe cls first n).pins = s.pins ∧
    (s.stripe cls first n).edges = s.edges ∧ (s.stripe cls first n).pwrEdge = s.pwrEdge ∧
    (s.stripe cls first n).sb = s.sb ∧ (s.stripe cls first n).i3c = s.i3c ∧
    (s.stripe cls first n).hfAllow = s.hfAllow ∧ (s.stripe cls first n).tim = s.tim ∧
    (s.stripe cls first n).sched = s.sched ∧ (s.stripe cls first n).lanes = s.lanes ∧
    (s.stripe cls first n).cap = s.cap ∧ (s.stripe cls first n).ctxs = s.ctxs ∧
    (s.stripe cls first n).setups = s.setups ∧ (s.stripe cls first n).red = s.red ∧
    (s.stripe cls first n).trc = s.trc ∧ (s.stripe cls first n).watch = s.watch ∧
    (s.stripe cls first n).lateReads = s.lateReads ∧
    (s.stripe cls first n).stop = s.stop ∧ (s.stripe cls first n).brk = s.brk ∧
    (s.stripe cls first n).capt = s.capt ∧ (s.stripe cls first n).captOut = s.captOut ∧
    (s.stripe cls first n).mem = s.mem ∧ (s.stripe cls first n).raw = s.raw ∧ (s.stripe cls first n).act = s.act ∧
    (s.stripe cls first n).grant = s.grant ∧ (s.stripe cls first n).err = s.err ∧
    (s.stripe cls first n).age = s.age ∧ (s.stripe cls first n).otp = s.otp ∧
    (s.stripe cls first n).optime = s.optime ∧ (s.stripe cls first n).fab = s.fab ∧
    (s.stripe cls first n).stw = s.stw ∧ (s.stripe cls first n).flash = s.flash ∧
    (s.stripe cls first n).evr = s.evr ∧ (s.stripe cls first n).ident = s.ident ∧
    (s.stripe cls first n).boot = s.boot ∧ (s.stripe cls first n).hangs = s.hangs ∧
    (s.stripe cls first n).hostStall = s.hostStall ∧ (s.stripe cls first n).dump = s.dump ∧
    (s.stripe cls first n).mode = s.mode ∧ (s.stripe cls first n).twin = s.twin ∧
    (s.stripe cls first n).sticky = s.sticky ∧ (s.stripe cls first n).raisedNow = s.raisedNow ∧
    (s.stripe cls first n).latches = s.latches ∧ (s.stripe cls first n).inbox = s.inbox ∧
    (s.stripe cls first n).out = s.out ∧ (s.stripe cls first n).pending = s.pending := by
  and_intros <;> rfl

@[simp] theorem State.raise_reqs (s : State) (r : BusReq) :
    (s.raise r).cap.reqs = s.cap.reqs ++ [match s.cap.cutCycle with
      | some c => if r.raised == c then r.restart c else r
      | none => r] := rfl

@[simp] theorem State.errCount_cnt (s : State) (i n : Nat) :
    (s.errCount i n).err.cnt = modifyAt s.err.cnt i (fun v => BitVec.ofNat 32 (min 0xFFFFFFFF (v.toNat + n))) ∧
    (s.errCount i n).err.total = modifyAt s.err.total i (· + n) := ⟨rfl, rfl⟩

end Sys2Proof.Machine
end

