-- ==== Sys2Proof/WellFormed.lean ====
section
/-!
DEFINITION. What the sender of a command owes: operand ranges and lengths that the spec gives (02 R63, 04 R122, 06 R162,
R166, R172, R173, 15 R402, 20 R513, 21 R533). A command outside them is no event of this hardware; its meaning is still
total.
-/

namespace Sys2Proof

/-- Lanes 0 to 79 (02 R67). -/
def laneOk (n : Nat) : Bool := n < 80

/-- Mailboxes 0 to 16 (15 R402). -/
def mbxOk (m : Nat) : Bool := m ≤ 16

/-- Stooks 0 to 255 (04 R108). -/
def stookOk (s : Nat) : Bool := s < 256

/-- Context ids 0 to 15 (14 R373). -/
def ctxOk (c : Nat) : Bool := c < 16

/-- Contributor slots 0 to 127 (05 R145). -/
def slotOk (n : Nat) : Bool := n < 128 || (1000 ≤ n && n < 1004)

/-- A control message is a whole number of 16-byte units (06 R172). -/
def ctlOk (m : Bytes) : Bool := m.length % 16 == 0 && 0 < m.length

/-- A cell is 256 bytes (06 R162). -/
def cellOk (b : Bytes) : Bool := b.length == 256

/-- A GCM group is 1 to 7 cells (06 R166), at data positions 1 to 63. -/
def groupOk (cs : List RxCell) : Bool :=
  0 < cs.length && cs.length ≤ 7 && cs.all fun c => cellOk c.line && 1 ≤ c.pos && c.pos ≤ 63

/-- A line is 64 bytes (02 R71). -/
def lineOk (b : Bytes) : Bool := b.length == 64

def opOk : FabOp → Bool
  | .store64 _ l => lineOk l
  | .fadd _ _ | .flag _ _ | .read _ => true

def answerOk : HostAnswer → Bool
  | .data l | .poisoned l => lineOk l
  | .fault => true

/-- A register address is a multiple of 4 in 256 KiB (20 R513). -/
def regOk (a : Nat) : Bool := a % 4 == 0 && a < 2 ^ 18

/-- A part of the ROM loader is 64 to 1,024 bytes (21 R533). -/
def partOk (b : Bytes) : Bool := 64 ≤ b.length && b.length ≤ 1024

/-- An offered key is an uncompressed P-384 point (06 R173, R176). -/
def keyOk (b : Bytes) : Bool := 97 ≤ b.length

/-- SEC draws 384 bits for the UDS (19 R506). -/
def foundOk (f : StartFound) : Bool := f.udsDraw.length == 12

/-- The command's operands are in range. -/
def Instr.wellFormed (i : Instr) : Bool :=
  match i with
  | .powerOnReset _ found => foundOk found
  | .rstBlkN _ found => foundOk found
  | .romRecoveryDatagram _ _ part found => partOk part && foundOk found
  | .bootDescriptorPoll _ found => foundOk found
  | .stookLatch s _ _ _ => stookOk s
  | .stookLatchTimeout s => stookOk s
  | .stookHoldLoad s _ => stookOk s
  | .stookHostReset s => stookOk s
  | .subBoundary m j => decide (1 ≤ m ∧ m ≤ 4 ∧ 1 ≤ j ∧ j < 2 ^ m)
  | .timeExchangeOpen lane _ => laneOk lane
  | .timeReqReceive lane _ _ => laneOk lane
  | .timeFollowSend lane _ => laneOk lane
  | .timeExchangeComplete lane _ _ => laneOk lane
  | .pitchAlign lane _ _ _ => laneOk lane
  | .markerLost lane _ => laneOk lane
  | .dataPosition lane => laneOk lane
  | .controlCellSend lane => laneOk lane
  | .controlCellReceive lane cell _ _ => laneOk lane && cellOk cell
  | .dataGroupReceive lane cells => laneOk lane && groupOk cells
  | .laneDetect lane => laneOk lane
  | .equalise lane _ => laneOk lane
  | .hello lane _ => laneOk lane
  | .auth lane _ => laneOk lane
  | .keyed lane _ _ => laneOk lane
  | .trainTimeout lane => laneOk lane
  | .laneFailedRetry lane => laneOk lane
  | .laneLeaveUp lane _ => laneOk lane
  | .keyOffer lane key => laneOk lane && keyOk key
  | .keyGeneration lane _ => laneOk lane
  | .keyTimeout lane => laneOk lane
  | .spareSwitch lane failed _ => laneOk lane && laneOk failed
  | .grant lane msg => laneOk lane && ctlOk msg
  | .arm lane msg => laneOk lane && ctlOk msg
  | .armAck lane msg _ => laneOk lane && ctlOk msg
  | .confirm lane msg => laneOk lane && ctlOk msg
  | .cancel lane msg => laneOk lane && ctlOk msg
  | .decisionEcho lane msg => laneOk lane && ctlOk msg
  | .holdNotice lane ctx _ => laneOk lane && ctxOk ctx
  | .resendReq lane x => laneOk lane && ctlOk x.msg
  | .memberQuery lane ctx slot _ => laneOk lane && ctxOk ctx && slotOk slot
  | .memberAnswer lane ctx slot _ _ => laneOk lane && ctxOk ctx && slotOk slot
  | .memberDecide lane ctx slot _ => laneOk lane && ctxOk ctx && slotOk slot
  | .leafStatus lane _ => laneOk lane
  | .schedSync lane msg => laneOk lane && ctlOk msg
  | .leafCutRecord lane _ _ => laneOk lane
  | .intervalRecord lane ctx _ => laneOk lane && ctxOk ctx
  | .captureMessage lane _ => laneOk lane
  | .ctxSetup lane _ => laneOk lane
  | .childSheaf lane _ _ => laneOk lane
  | .shardPartial lane _ => laneOk lane
  | .contributionMerge ctx slot _ _ => ctxOk ctx && slotOk slot
  | .sheafPublish ctx _ => ctxOk ctx
  | .publishFaddReturn ctx _ _ => ctxOk ctx
  | .memberWaitDeadline ctx slot _ => ctxOk ctx && slotOk slot
  | .memberQueryRetry ctx slot _ => ctxOk ctx && slotOk slot
  | .resendRetry slot _ => slotOk slot
  | .resendSourceTimeout x _ => slotOk x.slot
  | .rawRingLog slot _ _ => slotOk slot
  | .rawCopyPath slot _ => slotOk slot
  | .converterLimitWrite c _ => decide (c < 8)
  | .trcSampleSlot j => decide (j < 4)
  | .watchFeedPoll ctx => ctxOk ctx
  | .watchFeedRead ctx ans => ctxOk ctx && answerOk ans
  | .watchDumpRead ctx r => ctxOk ctx && answerOk r.ans
  | .contextDrainComplete ctx => ctxOk ctx
  | .contextHardCap ctx => ctxOk ctx
  | .tenantRecordRelease ctx _ => ctxOk ctx
  | .stewardWatchdog _ _ found => foundOk found
  | .tallyOperation src op => ctxOk src.ctx && opOk op
  | .fabricStore src op => ctxOk src.ctx && opOk op
  | .regWindowRead src _ => ctxOk src.ctx
  | .regWindowWrite src _ line => ctxOk src.ctx && lineOk line
  | .sidebandAccess _ addr _ => regOk addr
  | .registerWrite _ addr _ => regOk addr
  | .errCntRead _ i => decide (i < 64)
  | .mbxAttach m => mbxOk m
  | .configStore m _ => mbxOk m
  | .configApply m _ => mbxOk m
  | .fwStore m _ => mbxOk m
  | .fwActivate m _ => mbxOk m
  | .regRead m => mbxOk m
  | .epochSet m => mbxOk m
  | .sampleSet m => mbxOk m
  | .cntRead m => mbxOk m
  | .traceSet m => mbxOk m
  | .watchFeedSet m => mbxOk m
  | .watchSet m => mbxOk m
  | .watchClear m => mbxOk m
  | .brkResume m => mbxOk m
  | .stopArm m => mbxOk m
  | .stopRelease m => mbxOk m
  | .planLoad m => mbxOk m
  | .planSet m => mbxOk m
  | .pubAreaSet m => mbxOk m
  | .ckptAreaSet m => mbxOk m
  | .captAreaSet m => mbxOk m
  | .tallySet m => mbxOk m
  | .tallyClear m => mbxOk m
  | .tableLoad m _ => mbxOk m
  | .tableSeed m _ => mbxOk m
  | .tableDrop m => mbxOk m
  | .rowLoad m _ => mbxOk m
  | .modelLoad m _ => mbxOk m
  | .modelDrop m => mbxOk m
  | .placeLoad m _ => mbxOk m
  | .actLoad m => mbxOk m
  | .grantPolicySet m => mbxOk m
  | .loopSet m => mbxOk m
  | .ctxOpen m => mbxOk m
  | .ctxClose m => mbxOk m
  | .ctxReset m => mbxOk m
  | .recordRead m => mbxOk m
  | .recordPeriodSet m => mbxOk m
  | .certRead m => mbxOk m
  | .evidenceSign m => mbxOk m
  | .blockReset m => mbxOk m
  | .dumpTake m _ => mbxOk m
  | .twinDetach m => mbxOk m
  | .twinAttach m => mbxOk m
  | .stkClkEdge s e => stookOk s && decide (e.incs.length ≤ 256)
  | .lowestWordRead _ addr => regOk addr
  | .fabricFadd src _ _ => ctxOk src.ctx
  | .pllLock | .clockTick _ | .epochBoundary _ | .captureBusArbitration _ | .trcToken | .leafCutRecordSend
  | .timIncFracWrite _ | .timIncIntWrite _ | .timSet _ | .timStep _ | .timNowRead _ | .evrOptRead _ | .timDupFail
  | .ppsInEdge _ | .ppsOutPulse | .slotSyncEdge _ | .slotPhaseWindow | .ptpMessageReceive _ | .checkpointWrite
  | .armLevelDeadline _ | .armAckDeadline _ | .armDecideBy _ | .thresherUpdate _ _ _ _ | .slotLate | .rowCopy _ _
  | .hotRowInstall _ _ | .deepInstall _ _ | .rowRepair _ _ _ | .patrolScrub _ _ | .sramScrub _ _ _
  | .sramRowRepair _ _ _ | .hbmPpr _ _ _ _ | .scoreStart _ _ _ _ _ | .scoreComplete _ _ _ | .winLate
  | .leafFeatureUpdate _ _ _ _ | .leafModelScore _ _ _ _ _ | .grantStep | .grantLate | .grantOffer _ | .pgAck
  | .grantNoAck | .grantStale | .loopPeriod _ | .loopMasterTakeover | .v42Stb _ _ | .busSenseLost | .smbAlert
  | .trcVld _ _ | .noResponse | .stopOutRise | .stopDone | .stopDoneWait | .scanSegment _ _ | .stopReleaseTime
  | .autoReleased | .brkVld _ | .drainWindow | .drnDone | .drainWindowEnd | .drnPortFault | .hangDetect _ _
  | .unitReset _ _ | .mailboxTurn _ _ _ | .teamRelayEcho _ | .leafImageLoad _ | .statusPageWrite
  | .mgmtDatagram _ _ | .attachPhase _ _ _ | .startWait | .recorderPeriodEnd | .recordFlashWrite _ | .ageingPoint
  | .vmAck | .vmNak | .vmTimeout | .urgentStep | .svnRaise | .hourMark | .tallyWriteback _ | .winTransientCntRead _
  | .powerLoss | .optimeSecond | .ntpMessageReceive _ | .sideBDecide _ | .belayViewSend _ => true

end Sys2Proof
end

