-- ==== Sys2Proof/Tests/Slice0.lean ====
section
/-!
SUPPORT. Tests of the model, each about one command on a small state, and for every statement with hypotheses a state
and operands that meet them.
-/

namespace Sys2Proof.Machine

set_option Elab.async false

set_option maxRecDepth 100000

/-- A tray block in service. -/
def tray0 : State := { State.atReset .tray noStraps with mode := .service }

/-- A leaf in service. -/
def leaf0 : State := { State.atReset .leaf noStraps with mode := .service }

/-- What a start finds. -/
def found0 : StartFound :=
  { stacksOk := true, sfdpOk := true, stkPresent := [], bootDraw := 5, udsDraw := List.replicate 12 0, i3c := [], clockFlash := .ok }

/-- A lane of this use and state. -/
def lane0 (n : Nat) (u : LaneUse) (st : LaneState) : Lane :=
  let plan : LanePlan :=
    { lane := n, use := u, active := true, txlat := 0, rxlat := 0, asym := 0, partners := [], pinned := [] }
  { Lane.fresh plan with st := st }

/-- A tray block with this lane alone. -/
def trayL (l : Lane) : State := { tray0 with lanes := [l] }

/-- Some time: 2 s after TAI 0. -/
def at2s : TimeSt := { TimeSt.fresh with now := { sec := 2, ns := 0, frac := 0 } }

/-- Host memory that holds these bytes at an address. -/
def hostWith (a : Nat) (b : Bytes) : HostView :=
  { bytes := b.zipIdx.map fun x => (a + x.2, x.1), poisoned := [], faults := [] }

theorem find_hostWith (a : Nat) (b : Bytes) (k i : Nat) (h : k ≤ i) (hi : i < k + b.length) :
    ((b.zipIdx k).map fun x => (a + x.2, x.1)).find? (fun x => x.1 == a + i) = some (a + i, b[i - k]'(by omega)) := by
  induction b generalizing k with
  | nil => simp at hi; omega
  | cons x xs ih =>
    rw [List.zipIdx_cons, List.map_cons, List.find?_cons]
    by_cases e : k = i
    · subst e; simp
    · have e' : (a + k == a + i) = false := beq_eq_false_iff_ne.mpr (by omega)
      simp only [e']
      simp only [List.length_cons] at hi
      rw [ih (k + 1) (by omega) (by omega)]
      simp only [Option.some.injEq, Prod.mk.injEq, true_and]
      rw [List.getElem_cons, dif_neg (by omega)]
      congr 1

theorem hostBytes_hostWith (a : Nat) (b : Bytes) : hostBytes (hostWith a b) a b.length = b := by
  apply List.ext_getElem
  · simp [hostBytes]
  · intro i h1 h2
    have := find_hostWith a b 0 i (by omega) (by omega)
    simp only [hostBytes, List.getElem_map, List.getElem_range]
    unfold hostWith
    rw [this]
    rfl

/-- A boot descriptor of a leaf. -/
def desc0 : Bytes :=
  sealCrc (le 4 0x44424B49 ++ le 4 64 ++ le 8 0x1000 ++ le 8 0x2000 ++ le 8 0 ++ le 8 0x3000 ++ le 8 0x4000 ++ zeros 12)

theorem bytes_desc0 (a : Nat) : hostBytes (hostWith a desc0) a 64 = desc0 := by
  have h : desc0.length = 64 := by decide +kernel
  rw [← h]
  exact hostBytes_hostWith a desc0

/-- A time exchange this end has open, and its answer. -/
def exch0 : Exchange := { eseq := 1, t1 := 10, t2t4 := some (20, 40) }

/-- Epoch 7 began at 1 s. -/
def past0 : Boundary := { k := 7, t := secT, epochNs := 125000, len := 125000, irregular := false }

def ptp0 (k : PtpKind) : PtpMsg :=
  { kind := k, twoStep := false, transportOk := true, udp6 := false, sender := some 0, seq := 1, origin := 5 * secT, correction := 3, edge := 9 }

/-- A stook of two counters with one count of each view in the first. -/
def stook0 : Stook :=
  { Stook.fresh { s := 3, n := 2, aligned := false, unit := 5, engines := [] } with obs := [1, 0], host := [1, 0] }

/-- A leaf with this stook alone. -/
def leafK (st : Stook) : State := { leaf0 with cap := { CapSt.fresh with stooks := [st] }, tim := at2s }

/-- A cut of one stook that has drained. -/
def slot0 : RingSlot :=
  { k := 7, t := secT, len := 125000, epochNs := 125000, flags := 0, mapSeq := 0, waiting := [], headers := [(3, 1 <<< 96)]
    health := List.replicate 1024 0, counts := [(3, 2)], values := [(3, [1, 0])], drained := [(1, 1), (1, 2), (1, 3), (1, 4), (5, 5)], ints := [], poison := []
    lost := false, sent := false }

def intJob0 : IntJob := { ctx := 0, gen := 0, k := 7, j := 1, first := 0, count := 2, skipped := false }

/-- A stook whose CUT and INT banks wait for the bus. -/
def cutStook0 : Stook :=
  { stook0 with
    cut := some (7, 9, [1, 0])
    int := some (intJob0, 0, [1, 0]) }

def busReq0 (idx : Nat) : BusReq := { idx := idx, raised := 1, ageStart := 1, bursts := [2], begun := false, stook := 3 }

/-- A leaf whose stook 3 alone asks for the bus. -/
def busLeaf (idx : Nat) : State :=
  { leafK cutStook0 with
    tim := { at2s with cycle := 2 }
    cap := { CapSt.fresh with stooks := [cutStook0], ring := [slot0], reqs := [busReq0 idx] } }

def req0 (idx : Nat) : BusReq := { idx := idx, raised := 1, ageStart := 1, bursts := [32], begun := false, stook := 0 }

def bound0 : BoundaryIn := { gauges := [], pdm := [], ro := [], hostStall := false, units := [], dieLost := false }

def trcRec0 : TrcRec := { raised := none, word := 0 }

/-- A control cell of pitch 5, as it stands on the line. -/
def ctlCell0 : Bytes := le 8 pitchMarker ++ [0] ++ le 7 5 ++ zeros 240

def keys0 (g : BitVec 32) : LaneKeys := { gen := g, kTx := zeros 32, kRx := zeros 32, sTx := zeros 4, sRx := zeros 4 }

/-- A stream of a VC with one message of one cell. -/
def txs0 (vc : Nat) : TxStream :=
  { vc := vc, share := 0, nextMid := 1
    queue := [{ mid := 0, ctx := 0, gen := 0, total := 64, bytes := zeros 64, sent := 0, cut := none }], group := none, kept := [] }

/-- An active lane in service that carries data, at the start of a pitch. -/
def onLane0 : Lane := { lane0 3 (.down 0) .up with active := true, txPos := 0 }

/-- A keyed lane in service with that message to send. -/
def txLane0 (vc : Nat) : Lane := { onLane0 with keys := some (keys0 0), txs := [txs0 vc] }

/-- A spare lane at its last position whose SPARE_SWITCH for lane 3 has gone both ways. -/
def spareLane0 : Lane := { lane0 4 .spare .standby with txPos := 63, spareGot := some (3, []), spareSent := some 3 }

def hello0 (p : Profile) : Hello :=
  { proto := 0x22, blkRev := 0x0301, fwif := 0, profile := p, role := .tray, side := .a, lane := 1, id := 4, nonce := []
    carrying := false }

def auth0 : AuthIn :=
  { deviceCert := [], issuerCert := [], aliasCert := [], ephemeral := [], signature := [], ownEphemeral := [] }

/-- An armed change of a kind at epoch 100 from summit team 2, whose effect falls at the time t. -/
def arm0 (kind : Nat) (own : Bool) (t : Ticks) : Arm :=
  { id := 0x0300200000000001, kind := kind, aon := false, height := 3, epochT := 100, arg := 0, ctx := 0, gen := 0
    arg2 := 125000, own := own, paired := false, mbx := none, epochNs := 125000, tEff := t, expected := [4], answers := [], twinView := []
    statusSent := false, decision := none, echoed := false, down := false, lastRepeat := 0, settled := false }

/-- An instance at 2 s with this arm, 16 ms into the schedule. -/
def withArm (a : Arm) (s : State) : State := { s with tim := at2s, red := { RedSt.fresh with arms := [a] } }

/-- The same instance before any arm, with the schedule of epoch 7. -/
def scheduled (s : State) : State :=
  { s with
    tim := at2s
    sched := { Sched.fresh with
      anchor := some { k0 := 7, t0 := 2 * secT, epochNs := 125000 }
      past := [{ past0 with t := 2 * secT }]
      nextK := 8
      nextT := 2 * secT + nsT 125000 } }

/-- Contributor slot 4 of context 0 joined before epoch 1. -/
def join0 : Change :=
  { ctx := 0, slot := 4, e := { epoch := 1, subject := 4, kind := 0, join := true, reason := 0 }, silent := true }

/-- RESEND_REQ for the record of epoch 7. -/
def resend0 : Bytes := ctlMsg 0x06 (le 8 7 ++ le 4 (2 ^ 24))

/-- A record, sheaf or capture message of epoch 7 of context 0, of n bytes: its type, scope 1, the boundary of past0, and its
CRC-32C. -/
def msg0 (rtype n : Nat) : Bytes :=
  let h := [BitVec.ofNat 8 rtype, 1, 0, 0] ++ le 4 1 ++ le 8 7 ++ timeBytes secT ++ le 4 125000 ++ le 4 125000
  sealCrc (h ++ zeros (n - 4 - h.length))

/-- A sheaf of 256 bytes with its trailer. -/
def sheafMsg0 (rtype : Nat) : Bytes :=
  let h := (msg0 rtype 92).take 88
  sealCrc (h ++ le 4 256 ++ zeros 100 ++ le 8 7 ++ zeros 52)

/-- The instance holds epoch 7 and context 0. -/
def epoch7 (s : State) : State :=
  { s with
    sched := { Sched.fresh with past := [past0], nextK := 8, nextT := secT + nsT 125000 }
    tim := at2s
    ctxs := [{ Ctx.fresh 0 with life := .active 0 }] }

/-- A tray block that carries epoch 7. -/
def tray7 (r : Role) : State := epoch7 { tray0 with cfg := { Cfg.default with role := r } }

/-- Leaf 1 is attached on slot 4. -/
def down4 : Lane := { lane0 3 (.down 4) .up with peer := some { hello0 .leaf with id := 1 } }

def capt0 : CaptArea := { ctx := 0, since := 0, base := 0x10000, n := 4, z := 192, q := 6, stored := [] }

/-- A set-up table of context 1 that lists leaf 0. -/
def setupMsg0 : Bytes :=
  sealCrc ([0x0D, 1, 1, 0] ++ le 2 9 ++ zeros 2 ++ le 8 77 ++ le 4 1 ++ zeros 40) ++ le 4 0 ++ zeros 4 ++ le 8 6 ++ zeros 48

def plan0 : Plan := { planId := 0, lenT := 0, lenC := 0, lenF := 0, fields := [] }

/-- The sheaf of epoch 7 of context 0, still open. -/
def sheaf0 (lv : Level) : Sheaf :=
  { level := lv, ctx := 0, gen := 0, k := 7, t := secT, len := 125000, epochNs := 125000, irregular := false, ctxFirst := false
    plan := plan0, fields := [], poison := [], merged := [], firstMap := [], rows := [], owed := [], flags := 0, skew := 0, leafExp := 0, leafPres := 0
    below := [], partExp := 0, partPres := 0, partFirst := 0, verdicts := [], verdictsFinal := true, summary := [], sent := false
    stage := .open, bytes := [] }

def pub0 : PubArea := { ctx := 0, since := 0, base := 0x10000, p := 4, z := 4096, stored := [(3, 4)], fresh := [] }

/-- That sheaf once its FADD is out. -/
def adding0 : Sheaf := { sheaf0 .tray with stage := .adding, sent := true, bytes := zeros 128 }

def child0 : ChildSheaf := { ctx := 0, slot := 4, k := 7, bytes := sheafMsg0 2, summary := [] }

def captOut0 : CaptMsg := { ctx := 0, q := 7, addr := 0x10000, expect := 3, bytes := zeros 128 }

def land0 : Landed := { slot := 4, k := 7, raw := msg0 1 192, logged := false }

def recov0 (n : Nat) : Recovery := { ctx := 0, slot := 4, k := 7, source := n, since := 0, asked := 0 }

/-- A row as epoch 6 left it. -/
def ver0 : RowVer := { epoch := 6, age := 0, absent := false, poisoned := false, badLines := [], words := List.replicate 32 0 }

def row0 : Row := { row := 0, entity := 0x00400001, v := ver0, old := { ver0 with epoch := 5 }, skips := 0, hot := false, seeded := false }

/-- A table of one row of two lines. -/
def img0 (slot : Bool) : TableImg :=
  { tableId := 2, slot := slot, rowLen := 2, ch0 := 0, ring1s := 0, ring1m := 0, cols := [], upds := [], entities := [0x00400001] }

def table0 (rows : List Row) : Table :=
  { ctx := 0, gen := 0, img := img0 true, rows := rows, rebuilding := false, seeded := false, poisonAny := false, lastEpoch := 6
    ckptEpoch := 0, seed := none, ring1s := [], ring1m := [] }

/-- A table of this row in a state. -/
def withRow (r : Row) (s : State) : State := { s with mem := { s.mem with tables := [table0 [r]] } }

/-- The row after its update for epoch 7. -/
def row7 : Row := { row0 with v := { ver0 with epoch := 7 } }

/-- A step of unit 2 whose checks pass, with these errors in the lines it read. -/
def step0 (hbm : List (Nat × Nat)) : RowStep := { check := { CheckOutcome.pass with unit := 2 }, hbm := hbm }

def badStep0 : RowStep := { check := { unit := 2, ops := [[.twice 1 2, .twice 3 4, .twice 1 2]] }, hbm := [] }

/-- A tray block whose SRAM bank 1 has used n of its spare rows, and row 2 waits for one. -/
def repaired0 (n : Nat) : State :=
  { tray0 with err := { ErrSt.fresh .tray with repairs := (List.range n).map fun i => (1, 10 + i, i), repairQ := [(1, 2)] } }

def model0 : Model :=
  { modelId := 5, ctx := 0, nOut := 1, gen := 0, transform := .none, streamed := false, ntrees := 0, nfeat := 1, maxDepth := 1
    maxWin := 0, cpsi := 0, base := [9], header := [], dir := [], fmap := [], nodes := [], sets := [] }

def entry0 (deep : Bool) : PlaceEntry :=
  { modelId := 5, tableId := 2, deep := deep, lanes := 1, nsets := 1, lane0 := 0, period := 1, nbatch := 1, row0 := 0, nrows := 1
    goff := 0 }

def place0 (deep : Bool) : PlaceInForce :=
  { ctx := 0, since := 0, entries := [entry0 deep], p := { entries := [entry0 deep], rules := [], fallbacks := [] }
    lanes := List.range 64, count := 1 }

/-- A state that scores this row with model 5. -/
def scoring (deep : Bool) (r : Row) (s : State) : State :=
  { s with mem := { MemSt.fresh with
      tables := [table0 [r]]
      models := [{ m := model0, poisoned := false }]
      places := [place0 deep]
      hot := [{ table := 2, row := 0, places := [(0, 0)], vers := [r.v], held := [] }] } }

def job0 : ScoreJob :=
  { ctx := 0, gen := 0, model := 5, table := 2, row := 0, entity := 0x00400001, ks := 7, pub := 7, slices := 1, status := 0
    acc := [9], ver := row7.v, record := none }

/-- A tray block that applies actions, with die 4 at grant 100 under policy 120. -/
def grants0 (budget : Nat) : State :=
  { tray7 .tray with
    red := { RedSt.fresh with changes := [join0] }
    act := { ActSt.fresh 4000 with
      safe := false, lastStep := 6, policies := [(4, 0, 120)], dies := [{ d := 4, g := some 100, hold := none }]
      bAt := [(7, budget)] } }

/-- GRANT of an epoch to a leaf. -/
def leafG (g : GrantSt) : State := { leaf0 with grant := g }

/-- A leaf with context 0 in service and these traces. -/
def leafT (t : TrcSt) : State := { epoch7 leaf0 with trc := t }

/-- The same in that CK_E cycle. -/
def leafTAt (c : Nat) (t : TrcSt) : State := { leafT t with tim := { at2s with cycle := c } }

def share0 (marks : List Mark) : ShareTrc :=
  { ctx := 0, cores := [3, 9], div := 2, pendingSet := none, slots := 4, pos := 1, seq := 5, marks := marks, tseq := 0, beats := [] }

def mark0 : Mark := { kind := 2, core := 3, stall := 1, payload := 7 }

/-- A watch whose feed at 0x40000 of 64 descriptors is read from descriptor 5 on. -/
def watch0 : ShareWatch :=
  { ctx := 0, gen := 0, feed := some (0x40000, 64), dseq := 5, nextFeed := none, pollAt := secT, wantFeed := false
    reading := some 0, entries := [], dump := none, releases := [], tokens := 0, consumed := 4, overrun := 0, bad := 0 }

def leafW (w : ShareWatch) : State :=
  { epoch7 leaf0 with
    watch := [w], ctxs := [{ Ctx.fresh 0 with life := .active 0, winBase := 0x100000, winSize := 1 }] }

/-- A feed descriptor: DSEQ, tensor 7, step 2, address, length, flags, release address. -/
def feed0 (dseq addr len flags rel : Nat) : Bytes :=
  sealCrc (le 8 dseq ++ le 4 7 ++ zeros 4 ++ le 8 2 ++ le 8 addr ++ le 4 len ++ le 4 flags ++ le 8 rel ++ zeros 12)

def watchEntry0 : WatchEntry := { idx := 1, tensor := 7, step0 := 2, stride := 1, count := 1, off := 0, dlen := 0 }

def dump0 : Dump :=
  { idx := 1, tensor := 7, step := 2, dseq := 5, rel := some 0x100800, start := 0x100000, issue := 0x100080
    next := 0x100040, fin := 0x100100, flight := [(3, 0x100040)], early := [], ks := [7], part := 0, lines := [zeros 64]
    poison := [], failed := false, gone := false }

def leafStop (p : StopSt) (pins : Pins) : State := { epoch7 leaf0 with stop := p, pins := pins }

def stop0 (p : StopPhase) : StopSt := { StopSt.fresh with phase := p, at_ := 2 * secT, confirmed := true }

def scan0 : ScanSeg := { segId := 1, ir := 2, irLen := 4, drLen := 2, verify := true }

def leafB (b : BrkSt) : State := { epoch7 leaf0 with brk := b }

def leafBAt (c : Nat) (b : BrkSt) : State := { leafB b with tim := { at2s with cycle := c } }

/-- Context 1 of generation 5 drains; its end boundary was 7. -/
def draining0 (s : State) : State :=
  { epoch7 s with ctxs := [Ctx.fresh 0, { Ctx.fresh 1 with life := .draining 5, endB := 7, endT := 2 * secT - nsT 10000000 }] }

def scanOf (cls idx : Nat) : UnitScan :=
  { cls := cls, idx := idx, answered := true, ctx := some 0, fenced := true, control := [true], data := [] }

def sampleOf (cls idx : Nat) : UnitSample := { cls := cls, idx := idx, ready := true, prog := 3, ctx := some 0 }

/-- A lane of class 1 whose READY has stood for n samples. -/
def hung0 (n : Nat) (s : State) : State :=
  { epoch7 s with hangs := [{ cls := 1, idx := 2, prog := 3, run := n, ctx := some 0 }] }

/-- A class of units with unit 2 fenced. -/
def fenced0 : UnitClass := { UnitClass.built (1, 63, 4) with fenced := [(2, some 0)] }

/-- A slot that posts an opcode with a payload as the first command of mailbox 0 or 16. -/
def postBytes (op : Nat) (pay : Bytes) : Bytes :=
  let mid := le 2 op ++ zeros 4 ++ le 2 pay.length ++ le 8 77 ++ zeros 8 ++ pay ++ zeros (220 - pay.length)
  le 2 1 ++ zeros 6 ++ mid ++ le 4 (crc32c mid).toNat

/-- The service mailbox of a leaf at its first turn. -/
def leafPost : State :=
  { epoch7 leaf0 with
    ident := { IdSt.fresh with configured := true }
    cfg := { Cfg.default with cmdBase16 := 0x5000 }
    stw := { StwSt.fresh with scanning := true, turn := 1 } }

/-- An address and port that may send the management port its datagrams. -/
def net0 : NetSource := { addr := 9, port := 1 }

def mgmt0 : State :=
  { epoch7 tray0 with straps := { noStraps with mgmtEn := true }, cfg := { Cfg.default with mgmtSources := [9], hasMgmt := true } }

/-- A command of slot 3 with this opcode and payload. -/
def cmd0 (op : Nat) (pay : Bytes) : Cmd :=
  { slot := 3, seq := 4, gen := 0, op := op, resume := false, tag := 77, payload := pay ++ zeros (220 - pay.length), crc := 9
    state := 1, status := 0, cursor := 0, result := [], wait := .none, echoed := false }

def attach0 : Attach := { carrier := true, phase := .config, bytes := 0, join := none, commanded := false }

/-- Mailbox n with these waiting commands. -/
def waiting0 (n : Nat) (cs : List Cmd) (s : State) : State :=
  { s with stw := { StwSt.fresh with mbxs := [{ Mbx.fresh n with waiting := cs }] } }

/-- A tray block whose fabric window stands at 2^41, with these tally lines and stores of the last microsecond. -/
def fab0 (ts : List Tally) (recent : List StoreSeen) : State :=
  { epoch7 tray0 with fab := { base := some (2 ^ 41), tallies := ts, recent := recent, clogSeq := 0, clogPos := 65533 } }

def src0 (n ctx : Nat) : FabSource := { source := BitVec.ofNat 16 n, ctx := ctx }

/-- An operation of unit 2 that fails its check three times. -/
def badCheck0 : CheckOutcome := { unit := 2, ops := [[.twice 1 2, .twice 3 4, .twice 1 2]] }

def badSrc0 : FabSource := { source := 1, ctx := 0, check := badCheck0 }

/-- A class of one unit without spares; of `gone0` that unit is retired. -/
def lone0 (cls : Nat) (s : State) : State := { s with err := { s.err with units := [UnitClass.built (cls, 1, 0)] } }

def gone0 (cls : Nat) (s : State) : State :=
  { s with err := { s.err with units := [{ UnitClass.built (cls, 1, 0) with retired := [2] }] } }

/-- The store of source 2 to the line, a microsecond ago. -/
def seen0 : StoreSeen := { line := 0x8000000040, src := 2, at_ := 2 * secT - nsT 1000, seq := 7, logged := false }

def tally0 : Tally := { ctx := 0, addr := 0x8000000040, add := true, line := List.replicate 64 1 }

def leafAge (a : AgeSt) : State := { epoch7 leaf0 with age := a }

/-- A command with this whole payload. -/
def run0 (op : Nat) (pay : Bytes) : Cmd := { cmd0 op pay with state := 1 }

/-- Mailbox n runs this command. -/
def running0 (n : Nat) (c : Cmd) (s : State) : State :=
  { s with stw := { StwSt.fresh with scanning := true, mbxs := [{ Mbx.fresh n with running := some c }] } }

/-- A part header: length, position, image length, flags, and the bytes after it. -/
def part0 (len pos imgLen : Nat) (flags : Byte) (named : Bytes) : Bytes :=
  zeros 8 ++ le 4 len ++ zeros 4 ++ le 8 pos ++ le 8 imgLen ++ [flags] ++ zeros 3 ++ named

/-- A ring record of the recorder, of 4,084 bytes. -/
def ringRec0 : RingRec := { slot := 2, bytes := le 4 0x31525645 ++ le 4 6 ++ zeros 4076, valid := true }

/-- A configuration copy of one image that says it is 384 bytes long. -/
def cfgCopy0 : CfgCopy :=
  { bytes := zeros 8 ++ le 4 384 ++ le 4 9 ++ zeros 304 ++ le 8 endMagic ++ le 4 384 ++ le 4 9 ++ zeros 48, marked := true
    owner := none }

/-- A tray block with two blank configuration copies and two firmware copies, the second whole. -/
def flash0 : State :=
  { scheduled tray0 with
    boot := { BootSt.fresh with fwCopy := some 0 }
    flash := { FlashSt.blank with
      fw := [{ bytes := [], whole := true, act := some 4, owner := none }, { bytes := [], whole := true, act := none, owner := none }]
      cfg := [{ bytes := [], marked := false, owner := none }, cfgCopy0] } }

/-- A member of a pair whose belay is up. -/
def paired0 (s : State) : State :=
  { s with twin := { TwinSt.fresh with paired := true }, lanes := [lane0 5 (.belay 0) .up] }

/-- Side A alone, with its belay up. -/
def belay0 (s : State) : State := { s with lanes := [lane0 5 (.belay 0) .up] }

/-- A command of context 0 whose one part brings an image of n bytes, with the bytes that follow the part header. -/
def load0 (op n : Nat) (named : Bytes) : Cmd := run0 op (part0 n 0 n 1 named)

/-- Mailbox 0 runs such a command, and the image stands in its load window. -/
def image0 (op : Nat) (named img : Bytes) (s : State) : State :=
  putBytes (s.loadAddr 0 0) img (running0 0 (load0 op img.length named) s)

/-- A plan of one SUM field, as bytes and as parsed. -/
def planImg0 : Bytes :=
  let h := le 2 5 ++ le 2 1 ++ le 4 128 ++ le 4 128 ++ le 4 128 ++ zeros 44
  let b := [1, 1, 1, 0, 1, 0, 0, 0] ++ zeros 24
  h ++ le 4 (crc32c (h ++ b)).toNat ++ b ++ zeros 32

def plan5 : Plan := (parsePlan planImg0).getD plan0

/-- A tray block that holds plan 5 of context 0. -/
def planned0 (s : State) : State := { s with red := { RedSt.fresh with plans := [{ ctx := 0, plan := plan5, since := none }] } }

/-- A table with a LOADED word, of context c. -/
def tableOf (c : Nat) : Table :=
  { table0 [row0] with ctx := c, img := { img0 true with cols := [
    { colId := 1, format := .u32, op := .loaded, word := 3, nwords := 1, win := 0, missing := 0, p0 := 0, p1 := 0, dec := false
      missEn := false, seedMetric := 0, seedStat := 0 }] } }

def tabled0 (c : Nat) (s : State) : State := { s with mem := { MemSt.fresh with tables := [tableOf c] } }

def ckpt0 : Ckpt := { k := 6, tables := [], leaves := [], blocks := [], manifest := sealCrc [1], poisoned := false }

/-- A tray block that shares by two, in the schedule of epoch 7. -/
def shared0 : State := { scheduled tray0 with cfg := { Cfg.default with shareCount := 2 } }

/-- Context 1 of generation 5 is in service. -/
def active0 (s : State) : State := { s with ctxs := [Ctx.fresh 0, { Ctx.fresh 1 with life := .active 5 }] }

/-- A CTX_SETUP message waits on a lane. -/
def setupOut0 : OutMsg := { mid := 0, ctx := 1, gen := 5, total := 9, bytes := zeros 8 ++ [0x0D], sent := 0, cut := none }

def setupLane0 : Lane :=
  { down4 with txs := [{ vc := 2, share := 0, nextMid := 1, queue := [setupOut0], group := none, kept := [] }] }

/-- The management port is in use, and transmitter 0 has just announced itself. -/
def ptpTray0 : State :=
  { mgmt0 with cfg := { mgmt0.cfg with transmitters := [0] }, tim := { at2s with announced := [(0, 2 * secT)] } }

/-- The slot master, whose last 64 boundaries came 2 us after their SLOT_SYNC edge. -/
def slotTray0 : State :=
  { scheduled tray0 with
    cfg := { Cfg.default with role := .summit, slotSyncUse := true, slotTol := 1000 }
    sched := { (scheduled tray0).sched with slotWindow := List.replicate 64 (some (nsT 2000)) } }

theorem read_desc0 : hostRead (hostWith (4096 * Config.leafBootPage) desc0) (4096 * Config.leafBootPage) 64 = some desc0 :=
  congrArg some (bytes_desc0 _)

theorem read_poisoned0 :
    hostRead { bytes := [], poisoned := [4096 * Config.leafBootPage], faults := [] } (4096 * Config.leafBootPage) 64 = none := by
  have h : 4096 * Config.leafBootPage / 64 ≤ (4096 * Config.leafBootPage + 63) / 64 := by omega
  simp [hostRead, h]

/-! ## Every check of WellFormed refuses a term -/

theorem test_lane_ill : (Instr.laneDetect 80).wellFormed = false := by decide
theorem test_mailbox_ill : (Instr.mbxAttach 17).wellFormed = false := by decide
theorem test_stook_ill : (Instr.stookHostReset 256).wellFormed = false := by decide
theorem test_context_ill : (Instr.watchFeedPoll 16).wellFormed = false := by decide
theorem test_slot_ill : (Instr.resendRetry 128 0).wellFormed = false := by decide
theorem test_control_message_ill : (Instr.arm 0 (zeros 15)).wellFormed = false := by decide
theorem test_control_message_empty_ill : (Instr.arm 0 []).wellFormed = false := by decide
theorem test_cell_ill : (Instr.controlCellReceive 0 (zeros 255) 0 0).wellFormed = false := by decide
theorem test_group_ill : (Instr.dataGroupReceive 0 []).wellFormed = false := by decide
theorem test_line_ill : (Instr.regWindowWrite (src0 1 0) 0 (zeros 63)).wellFormed = false := by decide
theorem test_fabric_operation_ill : (Instr.fabricStore (src0 1 0) (.store64 0 (zeros 63))).wellFormed = false := by decide
theorem test_host_answer_ill : (Instr.watchFeedRead 0 (.data (zeros 65))).wellFormed = false := by decide
theorem test_register_ill : (Instr.registerWrite .fabric 0x202 0).wellFormed = false := by decide
theorem test_part_ill : (Instr.romRecoveryDatagram net0 0 (zeros 63) found0).wellFormed = false := by decide
theorem test_key_ill : (Instr.keyOffer 0 (zeros 96)).wellFormed = false := by decide
theorem test_found_ill : (Instr.powerOnReset noStraps { found0 with udsDraw := [] }).wellFormed = false := by decide
theorem test_division_ill : (Instr.subBoundary 2 4).wellFormed = false := by decide
theorem test_converter_ill : (Instr.converterLimitWrite 8 ⟨true, true⟩).wellFormed = false := by decide
theorem test_counter_ill : (Instr.errCntRead .fabric 64).wellFormed = false := by decide
theorem test_edge_ill : (Instr.stkClkEdge 0 ⟨List.replicate 257 1, false⟩).wellFormed = false := by decide
theorem test_sample_slot_ill : (Instr.trcSampleSlot 4).wellFormed = false := by decide

/-! ## The worked examples of the spec -/

/-- 00, the example of R15: 1,000,002 s and 500,125,000 ns, and the payload of the STOP_ARM example of 16. -/
theorem test_time_bytes : timeBytes (1000002 * secT + nsT 500125000) =
    [0, 0, 0, 0, 0x48, 0x4D, 0xCF, 0x1D, 0x42, 0x42, 0x0F, 0, 0, 0, 0, 0] := by decide +kernel

theorem test_time_read : (ITime.ofBytes [0, 0, 0, 0, 0x48, 0x4D, 0xCF, 0x1D, 0x42, 0x42, 0x0F, 0, 0, 0, 0, 0]).toTicks =
    1000002 * secT + nsT 500125000 := by decide +kernel

/-- 06, one exchange on a leaf lane: theta is 1.25 ns and the delay 40 ns; times are in hundredths of a nanosecond. -/
theorem test_exchange : let t : Nat → Ticks := fun n => nsT n / 100
    exchangeTheta (t 100000) (t 103900) (t 136668) (t 140768) 128 = (t 125 : Int) ∧
      exchangeDelay (t 100000) (t 103900) (t 136668) (t 140768) = (t 4000 : Int) := by decide +kernel

/-- 08, dumping a 1 MiB tensor: INC is 6,553. -/
theorem test_bucket : bucketInc { Cfg.default with shareCount := 4, hfBwGbps := 1024, twBudget := 20 } = 6553 := by decide

/-- 09, one row in epoch k: the EWMA, CUSUM and log2 results for x = 13.5. -/
theorem test_columns : ewma 3 655360 884736 = 684032 ∧ cusumUp 81920 884736 655360 32768 = 278528 ∧
    cusumDown 49152 884736 655360 32768 = 0 ∧ histLog2Idx 16 8 884736 = 15 := by decide

/-- 10, model 0x0021: the walk of its two trees over its row ends at 0 and reads 0x40000000 as LOGISTIC. -/
def model21 : Model :=
  { model0 with
    modelId := 0x21, ctx := 1, transform := .logistic, ntrees := 2, nfeat := 3, maxWin := 64, base := [0], dir := [0, 5]
    fmap := [0x0010600000000000, 0x0011100080000000, 0x0012800000000000].filterMap parseFeat
    nodes := [0x4001000002000000000000007FFFFFF4, 0xFF8000, 0x600000000200000000000000BFC00000, 0x4000, 0x12000,
      0xA0020000040000000000000000000222, 0x40010000020000000000000080000000, 0xFEE000, 0x8000, 0x20000] }

def reads21 (w16 : BitVec 32) : Reads :=
  { words := List.replicate 16 0 ++ [w16, 0xFFFFFFF4, 5], badLines := [], lost := .good }

theorem test_walk : model21.fmap.length = 3 ∧ walkTrees model21 (reads21 0x7FC00000) [0, 1] [0] = .sums [0] ∧
    walkTrees model21 (reads21 0x7FC00000) [0] [0] = .sums [73728] := by decide +kernel

theorem test_logistic : transform model21 [0] = [0x40000000] := by decide +kernel

/-- 12, a straggler rule: 0.75 on a LOGISTIC output is STRAGGLER, one below it STRAGGLER_WATCH. -/
theorem test_rule : let r : VerdictRule := 
      { modelId := 5, drift := false, radio := false, useRaw := false, jA := 0, jB := none, tLo := 0x30000000
        tHi := 0x60000000, tB := 0 }
    verdictOf (some r) 0 [0] [0x60000000] = 2 ∧ verdictOf (some r) 0 [0] [0x5FFFFFFF] = 1 := by decide

/-- 12, shedding one die: the hold's last epoch, the first two grants of the descent, its end, and the first step up. -/
theorem test_grants : applyHold none 100 960 16 = some (960, 115) ∧ stepGrant 4 128 1920 960 = 1792 ∧
    stepGrant 4 128 1792 960 = 1664 ∧ stepGrant 4 128 1024 960 = 960 ∧ stepGrant 4 128 960 1920 = 964 := by decide

/-- 13, the worked block of four words. -/
theorem test_glume : glumeBlock .delta2 false false 1000000000 10821 ((List.range 32).map (BitVec.ofNat 8)) =
    [0x47, 0x4C, 0x01, 0x04, 0x20, 0, 0, 0, 0x48, 0, 0, 0, 1, 0, 0, 0,
      0x00, 0xCA, 0x9A, 0x3B, 0, 0, 0, 0, 0x45, 0x2A, 0, 0, 0, 0, 0, 0,
      0x18, 0, 0, 0, 0x4E, 0x79, 0xDD, 0x46, 0x11, 0x10, 0x22, 0x02, 0x0E, 0x22, 0x04, 0x0C,
      0x22, 0x06, 0x0A, 0x22, 0x08, 0x08, 0x22, 0x0A, 0x06, 0x22, 0x0C, 0x04, 0x22, 0x0E, 0x02, 0x20,
      0x20, 0, 0, 0, 0x4E, 0x79, 0xDD, 0x46] := by decide +kernel

/-- 16, the STOP_ARM example: the entry's flag word when it is done. -/
theorem test_flag_word : entryFlag 4 { cmd0 0x0406 [] with seq := 0x40, gen := 1, state := 4 } = 0x0000040400010040 := by
  decide

/-- 17, a Thresher ADD on a U32 word: its check passes, and fails had bit 6 of the result flipped. -/
theorem test_residue : let s : ResVal := { v := 4294967280, gen1 := 51, gen2 := 51 }
    let x : ResVal := { v := 32, gen1 := 32, gen2 := 32 }
    resOf s.v = 51 ∧ (CheckedOp.add (some 32) s x true 0x10).passes = true ∧
      (CheckedOp.add (some 32) s x true 80).passes = false := by decide

/-- 19, metric 8 over one hour: the bins, the shift and the stored counts. -/
theorem test_metric : metricBin (-640) 9 360 = 3 ∧ metricBin (-640) 9 640 = 5 ∧ metricBin (-640) 9 960 = 6 ∧
    scaleShift [600000, 2400000, 600000] = 12 ∧ storedCount 12 600000 = 146 ∧ storedCount 12 2400000 = 585 := by decide

/-- 04, one EVENT counter: cycles 0 to 2 of its table, whose reset is in cycle 1. -/
theorem test_counter_views : let st : Stook := { stook0 with obs := [1000], host := [40] }
    let a := (st.clock ⟨[3], false⟩).clock ⟨[2], false⟩
    a.obs = [1005] ∧ a.host = [45] ∧ (a.hostReset.clock ⟨[4], false⟩).obs = [1009] ∧ (a.hostReset.clock ⟨[4], false⟩).host = [4] := by decide

/-! ## For every statement with hypotheses, a state and operands that meet those of each of its clauses -/

theorem witness_IdleStepIsClockEdge :
    ∃ (s : State),
    s.pending = [] :=
  ⟨State.reset, by decide +kernel⟩

theorem witness_StepKeepsInvariant :
    ∃ (s : State) (s' : State),
    BlockInv s ∧ step s = .next s' :=
  ⟨State.reset, _, ⟨by decide, by decide, by decide⟩, rfl⟩

theorem witness_ExecKeepsQueueAndProfile :
    (∃ (c : Instr) (s : State),
    ((∀ p, c.profile? = some p → p = s.profile))) ∧
    (∃ (c : Instr) (s : State) (p : Profile),
    c.profile? = some p ∧ p ≠ s.profile) :=
  ⟨⟨.pllLock, tray0, (fun _ h => nomatch h)⟩,
    ⟨.pgAck, tray0, .leaf, by decide +kernel⟩⟩

theorem witness_StrapsChangeOnlyAtPowerOn :
    ∃ (c : Instr),
    ((∀ st f, c ≠ .powerOnReset st f)) :=
  ⟨.pllLock, (fun _ _ h => nomatch h)⟩

theorem witness_ResetCauseChangesOnlyAtReset :
    ∃ (c : Instr),
    ((∀ st f, c ≠ .powerOnReset st f)) ∧ c ≠ .powerLoss ∧ ((∀ k f, c ≠ .rstBlkN k f)) ∧ ((∀ k x f,
      c ≠ .stewardWatchdog k x f)) :=
  ⟨.pllLock, (fun _ _ h => nomatch h), by decide +kernel, (fun _ _ h => nomatch h), (fun _ _ _ h => nomatch h)⟩

theorem witness_PowerLossKeepsFlashAndOtp :
    (∃ (s : State),
    s.mode ≠ .off ∧ s.mode ≠ .reset) ∧
    (∃ (s : State),
    s.mode = .off) :=
  ⟨⟨tray0, by decide +kernel⟩,
    ⟨{ tray0 with mode := .off }, by decide +kernel⟩⟩

theorem witness_ResetCauseNamesLatestReset :
    (∃ (s : State),
    s.powered = true ∧ s.justPowered = false) ∧
    (∃ (s : State) (d : Ticks),
    s.powered = true ∧ s.justPowered = false ∧ s.stw.resetDue = some (.cmd, d) ∧ d ≤ s.now) ∧
    (∃ (s : State) (d : Ticks),
    s.powered = true ∧ s.justPowered = false ∧ s.stw.resetDue = some (.hang, d) ∧ d ≤ s.now) ∧
    (∃ (s : State),
    s.powered = true ∧ s.justPowered = true) ∧
    (∃ (s : State),
    s.clocked = true ∧ s.stewardSilent = true) :=
  ⟨⟨leaf0, by decide +kernel⟩,
    ⟨{ tray0 with stw := { StwSt.fresh with resetDue := some (.cmd, 0) } }, 0, by decide +kernel⟩,
    ⟨{ tray0 with stw := { StwSt.fresh with resetDue := some (.hang, 0) } }, 0, by decide +kernel⟩,
    ⟨{ leaf0 with pwrEdge := some 0 }, by decide +kernel⟩,
    ⟨{ leaf0 with edges := 3200000 }, by decide +kernel⟩⟩

theorem witness_PowerOnWithoutFirmwareHolds :
    (∃ (s : State),
    s.profile = .tray ∧ ((∀ x ∈ s.flash.fw, x.act = none))) ∧
    (∃ (s : State),
    s.profile = .leaf) :=
  ⟨⟨tray0, by decide +kernel⟩,
    ⟨leaf0, by decide +kernel⟩⟩

theorem witness_BlockResetKeepsItsList :
    ∃ (s : State),
    s.profile = .leaf ∧ s.powered = true ∧ s.justPowered = false :=
  ⟨leaf0, by decide +kernel⟩

theorem witness_RomLoaderAndBootDescriptor :
    (∃ (s : State) (off : BitVec 64) (part : Bytes) (parts : List (Nat × Bytes)),
    s.profile = .tray ∧ s.mode = .held ∧ s.boot.rom = some parts ∧ 64 ≤ part.length ∧ part.length ≤ 1024 ∧
      romWhole ((off.toNat, part) :: parts) = none) ∧
    (∃ (s : State) (host : HostView) (d : BootDesc),
    s.profile = .leaf ∧ s.mode = .held ∧ s.boot.desc = none ∧
      (hostRead host (4096 * Config.leafBootPage) 64).bind readDesc = some d) ∧
    (∃ (s : State) (host : HostView),
    s.profile = .leaf ∧ s.mode = .held ∧ s.boot.desc = none ∧
      (hostRead host (4096 * Config.leafBootPage) 64).bind readDesc = none) :=
  ⟨⟨{ tray0 with mode := .held, boot := { BootSt.fresh with rom := some [] } }, 0, zeros 64, [], by decide +kernel⟩,
    ⟨{ leaf0 with mode := .held }, hostWith (4096 * Config.leafBootPage) desc0,
      { fwLen := 64, fwAddr := 0x1000, cfgAddr := 0x2000, cfgLen := 0, svcCmd := 0x3000, svcRet := 0x4000 },
      by decide +kernel, by decide +kernel, by decide +kernel, by rw [read_desc0]; decide +kernel⟩,
    ⟨{ leaf0 with mode := .held }, { bytes := [], poisoned := [4096 * Config.leafBootPage], faults := [] },
      by decide +kernel, by decide +kernel, by decide +kernel, by rw [read_poisoned0]; rfl⟩⟩

theorem witness_TimeCounterAddsIncrement :
    (∃ (t : TimeSt),
    t.commit = none ∧ t.setPend = none ∧ t.stepPend = none) ∧
    (∃ (s : State),
    s.runsAs .tray = true ∧ s.mgmtOn = true ∧ s.ptpMaster = none) :=
  ⟨⟨{ TimeSt.fresh with now := { sec := 2, ns := 999999999, frac := 0x60000000 } }, by decide +kernel⟩,
    ⟨mgmt0, by decide +kernel⟩⟩

theorem witness_TimeIncrementIsStagedAndCommitted :
    (∃ (s : State),
    s.clocked = true) ∧
    (∃ (v : Word) (s : State),
    s.clocked = true ∧ v.toNat % 256 = 0 ∧ 0x9FF7CED9 ≤ s.tim.stagedFrac.toNat ∧
      s.tim.stagedFrac.toNat ≤ 0xA0083127) ∧
    (∃ (v : Word) (s : State),
    s.clocked = true ∧ ¬ (v.toNat % 256 = 0 ∧ 0x9FF7CED9 ≤ s.tim.stagedFrac.toNat ∧
      s.tim.stagedFrac.toNat ≤ 0xA0083127)) ∧
    (∃ (t : TimeSt) (i : BitVec 8) (f : BitVec 32),
    t.commit = some (i, f)) ∧
    (∃ (t : TimeSt),
    t.commit = none) ∧
    (∃ (s : State) (a : Nat),
    s.profile = .leaf ∧ s.inReset = false ∧ s.sb.dead = false ∧ 0x200 ≤ a ∧ a ≤ 0x230 ∧ a % 4 = 0) ∧
    (∃ (a : Nat),
    0x200 ≤ a ∧ a ≤ 0x237) :=
  ⟨⟨tray0, by decide +kernel⟩,
    ⟨0x100, { tray0 with tim := { TimeSt.fresh with stagedFrac := 0xA0083127 } }, by decide +kernel⟩,
    ⟨0, { tray0 with tim := { TimeSt.fresh with stagedFrac := 0x9FF7CED8 } }, by decide +kernel⟩,
    ⟨{ TimeSt.fresh with commit := some (0, 0xA0000001) }, 0, 0xA0000001, by decide +kernel⟩,
    ⟨TimeSt.fresh, by decide +kernel⟩,
    ⟨leaf0, 0x230, by decide +kernel⟩,
    ⟨0x200, by decide +kernel⟩⟩

theorem witness_TimeSetAndStepOnlyBeforeLock :
    (∃ (v : BitVec 128) (s : State),
    s.clocked = true ∧ ((s.tim.state = .free ∨ s.tim.state = .acquire)) ∧ (ITime.ofBits v).ns.toNat ≤ 999999999) ∧
    (∃ (s : State),
    s.clocked = true ∧ ((s.tim.state = .free ∨ s.tim.state = .acquire))) ∧
    (∃ (v : BitVec 128) (s : State),
    s.clocked = true ∧ (¬ (s.tim.state = .free ∨ s.tim.state = .acquire) ∨ 999999999 < (ITime.ofBits v).ns.toNat)) ∧
    (∃ (s : State),
    s.clocked = true ∧ (¬ (s.tim.state = .free ∨ s.tim.state = .acquire))) ∧
    (∃ (t : TimeSt) (v : BitVec 128),
    t.setPend = some v) ∧
    (∃ (t : TimeSt) (d : BitVec 64),
    t.commit = none ∧ t.setPend = none ∧ t.stepPend = some d) :=
  ⟨⟨999999999 <<< 32, tray0, by decide +kernel⟩,
    ⟨{ tray0 with tim := { TimeSt.fresh with state := .acquire } }, by decide +kernel⟩,
    ⟨1000000000 <<< 32, tray0, by decide +kernel⟩,
    ⟨{ tray0 with tim := { TimeSt.fresh with state := .locked } }, by decide +kernel⟩,
    ⟨{ TimeSt.fresh with setPend := some 77 }, 77, by decide +kernel⟩,
    ⟨{ TimeSt.fresh with stepPend := some 77 }, 77, by decide +kernel⟩⟩

theorem witness_TimNowReadLatches :
    (∃ (p : Path) (s : State),
    s.serves p = true) ∧
    (∃ (p : Path) (a : Nat) (s : State),
    s.serves p = true ∧ ((a = 0x204 ∨ a = 0x208 ∨ a = 0x20C))) ∧
    (∃ (p : Path) (a : Nat) (s : State),
    ((∀ l ∈ s.latches, ¬ (l.1 = p ∧ l.2.1 = a)))) ∧
    (∃ (s : State),
    s.powered = true ∧ s.justPowered = false) :=
  ⟨⟨.fabric, tray0, by decide +kernel⟩,
    ⟨.fabric, 0x20C, { tray0 with latches := [(.fabric, 0x20C, 7)] }, by decide +kernel⟩,
    ⟨.sideband, 0x208, { tray0 with latches := [(.sideband, 0x20C, 7)] }, by decide +kernel⟩,
    ⟨tray0, by decide +kernel⟩⟩

theorem witness_TimeExchangeMessages :
    (∃ (s : State) (lane : Nat) (l : Lane),
    s.lane? lane = some l ∧ s.opensOn l = true ∧ l.exchanging = true ∧ l.exch = none ∧
      openingTime (s.isLower l) s.now ≤ s.now ∧ l.openedAt ≠ some (openingTime (s.isLower l) s.now)) ∧
    (∃ (s : State) (lane : Nat) (l : Lane),
    s.lane? lane = some l ∧ l.openedAt = some (openingTime (s.isLower l) s.now)) ∧
    (∃ (s : State) (lane : Nat) (l : Lane),
    s.lane? lane = some l ∧ l.exchanging = true) ∧
    (∃ (s : State) (lane : Nat) (e : BitVec 8) (l : Lane),
    s.lane? lane = some l ∧ l.lastResp = some e) ∧
    (∃ (s : State) (lane : Nat) (e : BitVec 8) (t1 : Ticks) (t2 : Ticks) (t4 : Ticks) (l : Lane),
    s.lane? lane = some l ∧ l.exch = some { eseq := e, t1 := t1, t2t4 := some (t2, t4) }) ∧
    (∃ (s : State) (lane : Nat) (l : Lane),
    s.lane? lane = some l ∧ l.exch = none) :=
  ⟨⟨{ trayL (lane0 3 (.peer 0) .keyed) with tim := at2s }, 3, lane0 3 (.peer 0) .keyed, by decide +kernel⟩,
    ⟨trayL { lane0 3 (.peer 0) .keyed with openedAt := some (nsT 2048) }, 3,
      { lane0 3 (.peer 0) .keyed with openedAt := some (nsT 2048) }, by decide +kernel⟩,
    ⟨trayL (lane0 3 (.down 0) .keyed), 3, lane0 3 (.down 0) .keyed, by decide +kernel⟩,
    ⟨trayL { lane0 3 (.down 0) .up with lastResp := some 7 }, 3, 7, { lane0 3 (.down 0) .up with lastResp := some 7 },
      by decide +kernel⟩,
    ⟨trayL { lane0 3 (.up .a) .up with exch := some exch0 }, 3, 1, 10, 20, 40,
      { lane0 3 (.up .a) .up with exch := some exch0 }, by decide +kernel⟩,
    ⟨trayL (lane0 3 (.up .a) .up), 3, lane0 3 (.up .a) .up, by decide +kernel⟩⟩

theorem witness_GrandmasterAndSlotInputs :
    (∃ (s : State),
    s.runsAs .tray = true ∧ s.grandmasterMember = true) ∧
    (∃ (s : State),
    s.profile = .tray) ∧
    (∃ (s : State),
    s.runsAs .tray = true) ∧
    (∃ (s : State) (b : Boundary) (bs : List Boundary),
    s.runsAs .tray = true ∧ s.sched.past = b :: bs ∧ b.t ≤ s.now + nsT b.epochNs / 2 ∧
      s.now ≤ b.t + nsT b.epochNs / 2 ∧ s.sched.slotNow = none) ∧
    (∃ (s : State) (m : PtpMsg) (i : Nat),
    s.runsAs .tray = true ∧ s.mgmtOn = true ∧ m.transportOk = true ∧ m.kind = .announce ∧ m.sender = some i) ∧
    (∃ (s : State) (m : PtpMsg) (i : Nat),
    s.runsAs .tray = true ∧ s.mgmtOn = true ∧ m.transportOk = true ∧ m.kind = .sync ∧ m.twoStep = false ∧
      m.sender = some i ∧ s.ptpMaster = some i) ∧
    (∃ (s : State) (m : PtpMsg) (i : Nat),
    s.runsAs .tray = true ∧ s.mgmtOn = true ∧ m.transportOk = true ∧ m.kind = .sync ∧ m.twoStep = true ∧
      m.sender = some i ∧ s.ptpMaster = some i) ∧
    (∃ (s : State) (m : PtpMsg),
    s.runsAs .tray = true ∧ s.mgmtOn = true ∧ m.transportOk = true ∧ m.kind = .pdelayReq) ∧
    (∃ (s : State),
    s.runsAs .tray = true ∧ 64 ≤ s.sched.slotWindow.length ∧ s.slotMaster = false) ∧
    (∃ (s : State) (d : Int),
    s.runsAs .tray = true ∧ 64 ≤ s.sched.slotWindow.length ∧ s.slotMaster = true ∧ s.cfg.slotSyncUse = true ∧
      s.slotLost = false ∧ s.sched.settled = true ∧ s.carrying = true ∧ s.red.arms = [] ∧
      slotPhaseOf s.cfg.slotTol ((s.sched.slotWindow.take 64).filterMap id) = some d) ∧
    (∃ (s : State),
    s.runsAs .tray = true) ∧
    (∃ (s : State),
    s.runsAs .leaf = true) :=
  ⟨⟨{ tray0 with cfg := { Cfg.default with role := .summit } }, by decide +kernel⟩,
    ⟨tray0, by decide +kernel⟩,
    ⟨tray0, by decide +kernel⟩,
    ⟨{ tray0 with sched := { Sched.fresh with past := [past0], slotWindow := [none] }, tim := { TimeSt.fresh with now := { sec := 1, ns := 62500, frac := 0 } } },
      past0, [], by decide +kernel⟩,
    ⟨mgmt0, ptp0 .announce, 0, by decide +kernel⟩,
    ⟨ptpTray0, ptp0 .sync, 0, by decide +kernel⟩,
    ⟨ptpTray0, { ptp0 .sync with twoStep := true }, 0, by decide +kernel⟩,
    ⟨mgmt0, ptp0 .pdelayReq, by decide +kernel⟩,
    ⟨{ tray0 with sched := { Sched.fresh with slotWindow := List.replicate 64 none } }, by decide +kernel⟩,
    ⟨slotTray0, 2000, by decide +kernel⟩,
    ⟨tray0, by decide +kernel⟩,
    ⟨leaf0, by decide +kernel⟩⟩

theorem witness_LeafBoundaryTakesCut :
    ∃ (s : State) (b : BoundaryIn) (k : Nat) (tk : Ticks) (anchor : Anchor),
    s.profile = .leaf ∧ s.mode = .service ∧ s.tim.state = .locked ∧ s.dueBoundary = some (k, tk, anchor) ∧
      s.sched.adopt = none ∧ s.red.arms = [] ∧ s.stw.bnd = [] ∧ s.sched.past ≠ [] ∧ ((∀ x ∈ s.sched.knots, x.1 ≤ k)) ∧
      s.cap.dieLost = false ∧ b.dieLost = false :=
  ⟨{ leafK stook0 with tim := { at2s with state := .locked }, sched := { Sched.fresh with anchor := some { k0 := 0, t0 := 0, epochNs := 125000 }, past := [past0], nextK := 8, nextT := 2 * secT } },
    bound0, 8, 2 * secT, { k0 := 0, t0 := 0, epochNs := 125000 }, by decide +kernel⟩

theorem witness_StookEdgesAndLatches :
    (∃ (s : State) (n : Nat) (st : Stook),
    s.runsAs .leaf = true ∧ s.stook? n = some st) ∧
    (∃ (s : State) (n : Nat) (edge : Ticks) (lat : BitVec 16) (st : Stook) (k : Nat) (tk : Ticks),
    s.runsAs .leaf = true ∧ n < 256 ∧ s.stook? n = some st ∧ st.cutWait = some (k, tk) ∧ st.unannounced = false ∧
      edgeOk tk edge = true ∧ latOk lat tk edge = true) ∧
    (∃ (s : State) (n : Nat) (st : Stook) (k : Nat) (tk : Ticks),
    s.runsAs .leaf = true ∧ s.stook? n = some st ∧ st.cutWait = some (k, tk) ∧ tk + nsT 1023 ≤ s.now) ∧
    (∃ (s : State) (n : Nat) (st : Stook),
    s.runsAs .leaf = true ∧ s.stook? n = some st ∧ st.stopRun ≠ 0 ∧ st.cutWait = none ∧ st.intWait = none) ∧
    (∃ (s : State) (n : Nat) (edge : Ticks) (st : Stook) (k : Nat) (tk : Ticks),
    s.runsAs .leaf = true ∧ s.stook? n = some st ∧ st.stopRun ≠ 0 ∧ st.cutWait = some (k, tk) ∧
      edgeOk tk edge = false) ∧
    (∃ (s : State) (n : Nat) (st : Stook),
    s.runsAs .leaf = true ∧ s.stook? n = some st ∧ st.edge = .none) :=
  ⟨⟨leafK stook0, 3, stook0, by decide +kernel⟩,
    ⟨leafK { stook0 with cutWait := some (8, 0) }, 3, nsT 1, 64, { stook0 with cutWait := some (8, 0) }, 8, 0,
      by decide +kernel⟩,
    ⟨leafK { stook0 with cutWait := some (8, secT) }, 3, { stook0 with cutWait := some (8, secT) }, 8, secT,
      by decide +kernel⟩,
    ⟨leafK { stook0 with stopRun := 1 }, 3, { stook0 with stopRun := 1 }, by decide +kernel⟩,
    ⟨leafK { stook0 with stopRun := 2, cutWait := some (8, secT) }, 3, nsT 9,
      { stook0 with stopRun := 2, cutWait := some (8, secT) }, 8, secT, by decide +kernel⟩,
    ⟨leafK { stook0 with hrst := 255 }, 3, { stook0 with hrst := 255 }, by decide +kernel⟩⟩

theorem witness_CaptureBusAndRecord :
    (∃ (s : State) (w : BusReq),
    s.runsAs .leaf = true ∧ s.cap.busUntil ≤ s.tim.cycle ∧ winner s.tim.cycle s.cap.reqs = some w ∧ w.idx = 1) ∧
    (∃ (s : State) (w : BusReq) (st : Stook) (k : Nat) (h : BitVec 128) (v : List (BitVec 64)),
    s.runsAs .leaf = true ∧ s.cap.busUntil ≤ s.tim.cycle ∧ winner s.tim.cycle s.cap.reqs = some w ∧ 2 ≤ w.idx ∧
      w.idx < 258 ∧ s.stook? w.stook = some st ∧ st.cut = some (k, h, v)) ∧
    (∃ (s : State) (w : BusReq) (st : Stook) (j : IntJob × BitVec 128 × List (BitVec 48)),
    s.runsAs .leaf = true ∧ s.cap.busUntil ≤ s.tim.cycle ∧ winner s.tim.cycle s.cap.reqs = some w ∧ 258 ≤ w.idx ∧
      w.bursts.length ≤ 1 ∧ s.stook? w.stook = some st ∧ st.int = some j) ∧
    (∃ (s : State) (w : BusReq),
    s.runsAs .leaf = true ∧ s.cap.busUntil ≤ s.tim.cycle ∧ winner s.tim.cycle s.cap.reqs = some w ∧ w.idx ≠ 0) ∧
    (∃ (s : State) (w : BusReq) (k : Nat),
    s.runsAs .leaf = true ∧ s.cap.busUntil ≤ s.tim.cycle ∧ winner s.tim.cycle s.cap.reqs = some w ∧
      burstEpoch w s = some k) ∧
    (∃ (s : State),
    s.runsAs .leaf = true ∧ s.tim.cycle / 128 ≤ s.trc.group ∧ s.trc.buffered ≠ [] ∧
      ((s.cap.token = true ∨ s.cap.tokenCycle ≠ s.tim.cycle / 128 * 128 + 1)) ∧ s.cap.reqs.any (·.idx == 0) = false) ∧
    (∃ (s : State),
    s.runsAs .leaf = true ∧ s.tim.cycle / 128 ≤ s.trc.group ∧ s.trc.buffered = [] ∧
      s.cap.tokenCycle ≠ s.tim.cycle / 128 * 128 + 1) ∧
    (∃ (s : State) (m : Nat) (j : Nat) (b : Boundary) (bs : List Boundary),
    s.runsAs .leaf = true ∧ s.sched.past = b :: bs ∧ 1 ≤ j ∧ j < 2 ^ m ∧
      b.t + nsT (j * (b.epochNs / 2 ^ m)) ≤ s.now) ∧
    (∃ (s : State) (r : RingSlot),
    s.runsAs .leaf = true ∧ s.cap.dieLost = false ∧ s.cap.ring.reverse.find? (fun r => !r.lost && !r.sent) = some r ∧
      r.readyBytes s.tim.cycle ≠ 0) :=
  ⟨⟨{ leaf0 with tim := { TimeSt.fresh with cycle := 2 }, cap := { CapSt.fresh with reqs := [req0 1] } }, req0 1,
    by decide +kernel⟩,
    ⟨busLeaf 3, busReq0 3, cutStook0, 7, 9, [1, 0], by decide +kernel⟩,
    ⟨busLeaf 260, busReq0 260, cutStook0, (intJob0, 0, [1, 0]), by decide +kernel⟩,
    ⟨busLeaf 3, busReq0 3, by decide +kernel⟩,
    ⟨busLeaf 3, busReq0 3, 7, by decide +kernel⟩,
    ⟨{ leaf0 with trc := { TrcSt.fresh with buffered := [{ share := 0, k := 7, recs := [trcRec0], closes := false }] }, cap := { CapSt.fresh with token := true } },
      by decide +kernel⟩,
    ⟨leaf0, by decide +kernel⟩,
    ⟨{ leaf0 with sched := { Sched.fresh with past := [past0] }, tim := at2s, cap := { CapSt.fresh with plans := [{ ctx := 0, gen := 0, m := 1, sel := [], taken := (0, 0) }] } },
      1, 1, past0, [], by decide +kernel⟩,
    ⟨{ leaf0 with cap := { CapSt.fresh with ring := [slot0] }, tim := { TimeSt.fresh with cycle := 9 } }, slot0,
      by decide +kernel⟩⟩

theorem witness_CellsOfPitch :
    (∃ (s : State) (lane : Nat) (l : Lane) (ts : TxStream) (c : Bytes) (l' : Lane),
    s.lane? lane = some l ∧ l.trained = true ∧ l.txPos < 63 ∧ l.active = true ∧ l.vc1Stalls = false ∧
      l.ready 1 0 = some ts ∧ l.sendCell s.now ts = some (c, l')) ∧
    (∃ (s : State) (lane : Nat) (l : Lane) (ts : TxStream) (c : Bytes) (l' : Lane),
    s.lane? lane = some l ∧ l.trained = true ∧ l.txPos < 63 ∧ l.active = true ∧ l.vc1Stalls = false ∧
      l.ready 1 0 = none ∧ (let o := rotationOwner l.plan.use.isBelay s.cfg.shareCount (l.rot + 1);
    l.ready o.1 o.2 = some ts ∧ ({ l with rot := l.rot + 1 } : Lane).sendCell s.now ts = some (c, l'))) ∧
    (∃ (s : State) (lane : Nat) (l : Lane),
    s.lane? lane = some l ∧ l.trained = true ∧ l.txPos < 63 ∧ l.active = true ∧ l.vc1Stalls = false ∧
      l.ready 1 0 = none ∧
      (let o := rotationOwner l.plan.use.isBelay s.cfg.shareCount (l.rot + 1); l.ready o.1 o.2 = none)) ∧
    (∃ (s : State) (lane : Nat) (l : Lane),
    s.lane? lane = some l ∧ l.idling = true) ∧
    (∃ (s : State) (lane : Nat) (l : Lane),
    s.lane? lane = some l ∧ l.sending = true ∧ l.txPos < 63 ∧ ((l.trained = false ∨ l.active = false)) ∧
      ((l.st ≠ .auth ∨ l.authCells = []))) ∧
    (∃ (s : State) (lane : Nat) (l : Lane) (c : Bytes) (cs : List Bytes),
    s.lane? lane = some l ∧ l.st = .auth ∧ l.txPos < 63 ∧ l.authCells = c :: cs) ∧
    (∃ (s : State) (lane : Nat) (l : Lane),
    s.lane? lane = some l ∧ l.sending = true ∧ l.txPos = 63 ∧ l.plan.use.isBelay = false ∧ l.spareGot = none) ∧
    (∃ (s : State) (lane : Nat) (l : Lane) (b : AlignSeen),
    s.lane? lane = some l ∧ b.far = false) ∧
    (∃ (s : State) (lane : Nat) (l : Lane) (pitches : List (BitVec 56)) (b : AlignSeen),
    s.lane? lane = some l ∧ l.st = .align ∧ 8 ≤ pitches.length ∧ consecutive pitches = true ∧ b.far = true) ∧
    (∃ (s : State) (lane : Nat) (l : Lane) (n : Nat),
    s.lane? lane = some l ∧ l.misses + n < 3) ∧
    (∃ (s : State) (lane : Nat) (l : Lane) (cell : Bytes),
    s.lane? lane = some l ∧ l.sending = true ∧ l.keys = none ∧
      fld (lineCell (BitVec.ofNat 56 (fld cell 9 7)) 0 cell) 0 8 = pitchMarker ∧
      slice (lineCell (BitVec.ofNat 56 (fld cell 9 7)) 0 cell) 240 16 = zeros 16) ∧
    (∃ (s : State) (lane : Nat) (l : Lane) (k : LaneKeys) (cell : Bytes),
    s.lane? lane = some l ∧ l.sending = true ∧ l.keys.isSome = true ∧
      l.keysAt (BitVec.ofNat 56 (fld cell 9 7)) = some k ∧ (let c := lineCell (BitVec.ofNat 56 (fld cell 9 7)) 0 cell;
    fld c 0 8 = pitchMarker)) ∧
    (∃ (s : State) (lane : Nat) (l : Lane) (k : LaneKeys) (c0 : RxCell),
    s.lane? lane = some l ∧ l.keys.isSome = true ∧ l.keysAt c0.pitch = some k) ∧
    (∃ (s : State) (lane : Nat) (l : Lane) (c0 : RxCell),
    s.lane? lane = some l ∧ l.keys.isSome = true ∧ l.keysAt c0.pitch = none) :=
  ⟨⟨trayL (txLane0 1), 3, txLane0 1, txs0 1, _, _, by decide +kernel, by decide +kernel, by decide +kernel,
    by decide +kernel, by decide +kernel, by decide +kernel, rfl⟩,
    ⟨trayL (txLane0 2), 3, txLane0 2, txs0 2, _, _, by decide +kernel, by decide +kernel, by decide +kernel,
      by decide +kernel, by decide +kernel, by decide +kernel, by decide +kernel, rfl⟩,
    ⟨trayL onLane0, 3, onLane0, by decide +kernel⟩,
    ⟨trayL (lane0 3 (.down 0) .detect), 3, lane0 3 (.down 0) .detect, by decide +kernel⟩,
    ⟨trayL { lane0 3 (.down 0) .up with active := false, txPos := 62 }, 3,
      { lane0 3 (.down 0) .up with active := false, txPos := 62 }, by decide +kernel⟩,
    ⟨trayL { lane0 3 (.down 0) .auth with authCells := [zeros 256], txPos := 0 }, 3,
      { lane0 3 (.down 0) .auth with authCells := [zeros 256], txPos := 0 }, zeros 256, [], by decide +kernel⟩,
    ⟨trayL { lane0 3 (.down 0) .align with txPos := 63 }, 3, { lane0 3 (.down 0) .align with txPos := 63 },
      by decide +kernel⟩,
    ⟨trayL (lane0 3 (.down 0) .align), 3, lane0 3 (.down 0) .align, { bit := 3, far := false }, by decide +kernel⟩,
    ⟨trayL (lane0 3 (.down 0) .align), 3, lane0 3 (.down 0) .align, [5, 6, 7, 8, 9, 10, 11, 12],
      { bit := 3, far := true }, by decide +kernel⟩,
    ⟨trayL { lane0 3 (.down 0) .up with misses := 1 }, 3, { lane0 3 (.down 0) .up with misses := 1 }, 1,
      by decide +kernel⟩,
    ⟨trayL (lane0 3 (.down 0) .hello), 3, lane0 3 (.down 0) .hello, lineCell 5 0 ctlCell0, by decide +kernel⟩,
    ⟨trayL (txLane0 1), 3, txLane0 1, keys0 0, ctlCell0, by decide +kernel⟩,
    ⟨trayL (txLane0 1), 3, txLane0 1, keys0 0, { pitch := 5, pos := 1, line := zeros 256, arrived := 0 },
      by decide +kernel⟩,
    ⟨trayL { onLane0 with keys := some (keys0 7) }, 3, { onLane0 with keys := some (keys0 7) },
      { pitch := 5, pos := 1, line := zeros 256, arrived := 0 }, by decide +kernel⟩⟩

theorem witness_LaneTrainingStates :
    (∃ (s : State) (lane : Nat) (l : Lane),
    s.lane? lane = some l ∧ l.st = .detect ∧ s.equalisesFull = false) ∧
    (∃ (s : State) (lane : Nat) (l : Lane) (ps : List (BitVec 24 × Nat)) (e : BitVec 24) (n : Nat),
    s.lane? lane = some l ∧ l.st = .equalise ∧ bestPreset ps = some (e, n) ∧ n < 1000 ∧ l.cause ≠ 10) ∧
    (∃ (s : State) (lane : Nat) (l : Lane) (h : Hello),
    s.lane? lane = some l ∧ l.st = .hello ∧ h.proto >>> 4 = 2#8 ∧ helloFits s l h = true ∧ ((∀ n,
      l.plan.use = .down n → leafIdTaken s n h = false))) ∧
    (∃ (s : State) (lane : Nat) (l : Lane) (h : Hello),
    s.lane? lane = some l ∧ l.st = .hello ∧ h.proto >>> 4 ≠ 2#8) ∧
    (∃ (s : State) (lane : Nat) (l : Lane) (h : Hello),
    s.lane? lane = some l ∧ l.st = .hello ∧ h.proto >>> 4 = 2#8 ∧ s.checksPlan = true ∧ helloFits s l h = false) ∧
    (∃ (s : State) (lane : Nat) (l : Lane) (h : Hello),
    s.lane? lane = some l ∧ l.st = .auth ∧ l.peer = some h ∧ l.authKeys = none) ∧
    (∃ (s : State) (lane : Nat) (l : Lane),
    s.lane? lane = some l ∧ l.st = .keyed ∧ 64 ≤ l.exchRun ∧ l.cause ≠ 10) ∧
    (∃ (s : State) (lane : Nat) (l : Lane) (lim : Ticks),
    s.lane? lane = some l ∧ stateLimit l.st = some lim ∧ l.since + lim < s.now ∧ s.equalisesFull = false) ∧
    (∃ (s : State) (lane : Nat) (l : Lane),
    s.lane? lane = some l ∧ l.st = .failed ∧ l.since + 10 * secT ≤ s.now) ∧
    (∃ (s : State) (lane : Nat) (l : Lane),
    s.lane? lane = some l ∧ l.trained = true) :=
  ⟨⟨trayL (lane0 3 (.down 0) .detect), 3, lane0 3 (.down 0) .detect, by decide +kernel⟩,
    ⟨trayL (lane0 3 (.down 0) .equalise), 3, lane0 3 (.down 0) .equalise, [(1, 1000), (2, 999)], 2, 999,
      by decide +kernel⟩,
    ⟨trayL (lane0 3 (.down 0) .hello), 3, lane0 3 (.down 0) .hello, hello0 .leaf, by decide +kernel,
      by decide +kernel, by decide +kernel, by decide +kernel, (fun n h => by cases h; decide +kernel)⟩,
    ⟨trayL (lane0 3 (.down 0) .hello), 3, lane0 3 (.down 0) .hello, { hello0 .leaf with proto := 0x12 },
      by decide +kernel⟩,
    ⟨trayL (lane0 3 (.down 0) .hello), 3, lane0 3 (.down 0) .hello, hello0 .tray, by decide +kernel⟩,
    ⟨trayL { lane0 3 (.down 0) .auth with peer := some (hello0 .leaf) }, 3,
      { lane0 3 (.down 0) .auth with peer := some (hello0 .leaf) }, hello0 .leaf, by decide +kernel⟩,
    ⟨trayL { lane0 3 (.down 0) .keyed with exchRun := 64 }, 3, { lane0 3 (.down 0) .keyed with exchRun := 64 },
      by decide +kernel⟩,
    ⟨{ trayL { lane0 3 (.down 0) .hello with overruns := 2 } with tim := at2s }, 3,
      { lane0 3 (.down 0) .hello with overruns := 2 }, nsT 1000000, by decide +kernel⟩,
    ⟨{ trayL (lane0 3 (.down 0) .failed) with tim := { TimeSt.fresh with now := { sec := 10, ns := 0, frac := 0 } } },
      3, lane0 3 (.down 0) .failed, by decide +kernel⟩,
    ⟨trayL (lane0 3 (.down 0) .standby), 3, lane0 3 (.down 0) .standby, by decide +kernel⟩⟩

theorem witness_KeyGenerationsAndSparing :
    (∃ (s : State) (lane : Nat) (l : Lane),
    s.lane? lane = some l ∧ l.trained = true) ∧
    (∃ (s : State) (lane : Nat) (l : Lane) (k : LaneKeys) (k' : LaneKeys),
    s.lane? lane = some l ∧ l.trained = true ∧ l.keys = some k ∧ l.nextKeys = some k' ∧
      (l.txPitch >>> 32).setWidth 32 = k.gen + 1) ∧
    (∃ (s : State) (lane : Nat) (l : Lane),
    s.lane? lane = some l ∧ l.trained = true ∧ l.nextKeys = none ∧ 2 ^ 32 - 2 ^ 20 ≤ (l.txPitch.setWidth 32).toNat) ∧
    (∃ (s : State) (lane : Nat) (far : Nat) (p : Lane) (f : Lane),
    s.lane? lane = some p ∧ s.farLane p far = some f ∧ p.trained = true) ∧
    (∃ (s : State) (lane : Nat) (failed : Nat) (p : Lane) (f : Lane) (mids : List (BitVec 32)),
    lane ≠ failed ∧ s.lane? lane = some p ∧ s.lane? failed = some f ∧ p.trained = true ∧ p.txPos = 63 ∧
      p.spareGot = some (failed, mids) ∧ p.spareSent = some failed ∧
      (p.ctl ++ p.ctlWait).any (fun m => fld m 0 1 == 0x11) = false ∧ s.age.retuning ≠ some failed) :=
  ⟨⟨trayL (lane0 3 (.down 0) .up), 3, lane0 3 (.down 0) .up, by decide +kernel⟩,
    ⟨trayL { lane0 3 (.down 0) .up with keys := some (keys0 1), nextKeys := some (keys0 2), txPitch := 2 <<< 32 }, 3,
      { lane0 3 (.down 0) .up with keys := some (keys0 1), nextKeys := some (keys0 2), txPitch := 2 <<< 32 }, keys0 1,
      keys0 2, by decide +kernel⟩,
    ⟨trayL { lane0 3 (.down 0) .up with txPitch := 0xFFF00000 }, 3,
      { lane0 3 (.down 0) .up with txPitch := 0xFFF00000 }, by decide +kernel⟩,
    ⟨{ tray0 with lanes := [{ lane0 3 (.down 0) .up with peerLane := 6 }, lane0 4 .spare .standby] }, 4, 6,
      lane0 4 .spare .standby, { lane0 3 (.down 0) .up with peerLane := 6 }, by decide +kernel⟩,
    ⟨{ tray0 with lanes := [lane0 3 (.down 0) .up, spareLane0] }, 4, 3, spareLane0, lane0 3 (.down 0) .up, [],
      by decide +kernel⟩⟩

theorem witness_ArmArrivesOnce :
    (∃ (s : State) (msg : Bytes),
    s.clocked = true ∧ (readArm msg).kind ≠ kindSchedSync ∧ (readArm msg).id ∈ s.red.seen) ∧
    (∃ (s : State) (msg : Bytes),
    s.runsAs .leaf = true ∧ (readArm msg).kind ≠ kindSchedSync ∧ (readArm msg).id ∉ s.red.seen ∧
      s.answerArm (readArm msg) = .accept) ∧
    (∃ (s : State) (msg : Bytes),
    s.runsAs .tray = true ∧ (readArm msg).kind ≠ kindSchedSync ∧ (readArm msg).id ∉ s.red.seen ∧
      s.answerArm (readArm msg) = .accept) ∧
    (∃ (s : State) (msg : Bytes),
    s.clocked = true ∧ (readArm msg).kind ≠ kindSchedSync ∧ (readArm msg).kind ≠ kindCtxStart ∧
      (readArm msg).id ∉ s.red.seen ∧ s.answerArm (readArm msg) = .refuse) ∧
    (∃ (s : State) (msg : Bytes),
    s.clocked = true ∧ (ITime.ofBits (readArm msg).arg).malformed = false ∧
      epochNsOk (readArm msg).arg2.toNat = true) ∧
    (∃ (s : State) (msg : Bytes),
    s.clocked = true ∧ (((ITime.ofBits (readArm msg).arg).malformed = true ∨
    epochNsOk (readArm msg).arg2.toNat = false))) :=
  ⟨⟨{ tray0 with red := { RedSt.fresh with seen := [0x0300200000000001] } }, armMsg (arm0 1 false 0),
    by decide +kernel⟩,
    ⟨scheduled { leaf0 with lanes := [lane0 0 (.up .a) .up] }, armMsg (arm0 1 false 0), by decide +kernel⟩,
    ⟨scheduled { tray0 with lanes := [lane0 0 (.up .a) .up, lane0 3 (.down 4) .up] }, armMsg (arm0 1 false 0),
      by decide +kernel⟩,
    ⟨scheduled { tray0 with lanes := [lane0 0 (.up .a) .up] }, armMsg { arm0 1 false 0 with arg2 := 31249 },
      by decide +kernel⟩,
    ⟨tray0, armMsg { arm0 7 false 0 with arg2 := 31250 }, by decide +kernel⟩,
    ⟨tray0, armMsg { arm0 7 false 0 with arg2 := 31249 }, by decide +kernel⟩⟩

theorem witness_ArmAnswersAndDecisions :
    (∃ (s : State) (lane : Nat) (msg : Bytes) (a : Arm) (n : Nat),
    s.runsAs .tray = true ∧ s.isBelayLane lane = false ∧ s.laneChild lane = some n ∧
      s.arm? (BitVec.ofNat 64 (fld msg 4 8)) = some a) ∧
    (∃ (s : State) (lane : Nat) (v : List (Nat × Nat)) (a : Arm),
    s.runsAs .tray = true ∧ s.isBelayLane lane = true ∧ s.arm? a.id = some a ∧ ((∀ x ∈ s.red.arms, x.id ≠ a.id →
      viewMsg x.id v ≠ viewMsg a.id v))) ∧
    (∃ (s : State) (id : BitVec 64) (a : Arm),
    s.runsAs .tray = true ∧ s.arm? id = some a ∧ a.own = false ∧ a.statusSent = false ∧
      a.lvlDeadline s.height ≤ s.now) ∧
    (∃ (s : State) (id : BitVec 64) (a : Arm),
    s.runsAs .tray = true ∧ s.arm? id = some a ∧ s.twin.paired = true) ∧
    (∃ (s : State) (id : BitVec 64) (a : Arm),
    s.runsAs .tray = true ∧ s.arm? id = some a ∧ a.own = true ∧ a.ackDeadline ≤ s.now ∧ a.decision = none ∧
      a.down = false ∧ s.carrying = true ∧ ((s.cfg.side = .a ∨ s.twin.paired = false ∧
      (a.paired = false ∨ s.belayUp = true)))) ∧
    (∃ (s : State) (msg : Bytes) (a : Arm) (d : Bool),
    s.runsAs .tray = true ∧ s.arm? (BitVec.ofNat 64 (fld msg 4 8)) = some a ∧ a.own = true ∧ s.carrying = true ∧
      s.cfg.side = .a ∧ a.down = false ∧ a.decision = some d) ∧
    (∃ (s : State) (id : BitVec 64) (a : Arm),
    s.runsAs .tray = true ∧ s.arm? id = some a ∧ a.own = true ∧ s.carrying = true ∧ s.cfg.side = .b ∧
      s.belayUp = false ∧ a.down = false ∧ ((a.decision.isSome = true ∨ a.ackDeadline + nsT 2000 ≤ s.now))) ∧
    (∃ (s : State) (msg : Bytes) (a : Arm),
    s.clocked = true ∧ s.arm? (BitVec.ofNat 64 (fld msg 4 8)) = some a ∧ s.now ≤ a.decideBy ∧ a.own = false ∧
      a.decision = none) ∧
    (∃ (s : State) (lane : Nat) (msg : Bytes) (a : Arm),
    s.clocked = true ∧ s.arm? (BitVec.ofNat 64 (fld msg 4 8)) = some a ∧ s.now ≤ a.decideBy ∧ a.own = true ∧
      s.isBelayLane lane = true ∧ s.cfg.side = .b ∧ a.decision = none) ∧
    (∃ (s : State) (msg : Bytes) (a : Arm),
    s.clocked = true ∧ s.arm? (BitVec.ofNat 64 (fld msg 4 8)) = some a ∧ a.decideBy < s.now) ∧
    (∃ (s : State) (id : BitVec 64) (a : Arm),
    s.arm? id = some a ∧ a.decideBy ≤ s.now ∧ ((a.own = false ∨ s.cfg.side = .b ∨ a.down = true))) :=
  ⟨⟨withArm (arm0 1 false 0) { tray0 with lanes := [lane0 3 (.down 4) .up] }, 3, ackMsg 0x0300200000000001 1,
    arm0 1 false 0, 4, by decide +kernel⟩,
    ⟨withArm (arm0 1 true 0) { tray0 with lanes := [lane0 9 (.belay 0) .up] }, 9, [(4, 2)], arm0 1 true 0,
      by decide +kernel⟩,
    ⟨withArm (arm0 1 false (2 * secT + nsT 265000)) tray0, 0x0300200000000001, arm0 1 false (2 * secT + nsT 265000),
      by decide +kernel⟩,
    ⟨{ withArm (arm0 1 true 0) tray0 with twin := { TwinSt.fresh with paired := true }, lanes := [lane0 9 (.belay 0) .up] },
      0x0300200000000001, arm0 1 true 0, by decide +kernel⟩,
    ⟨withArm (arm0 1 true (2 * secT + nsT 250000)) tray0, 0x0300200000000001, arm0 1 true (2 * secT + nsT 250000),
      by decide +kernel⟩,
    ⟨withArm { arm0 1 true 0 with decision := some true } tray0, decisionMsg 0x0300200000000001 100 true,
      { arm0 1 true 0 with decision := some true }, true, by decide +kernel⟩,
    ⟨{ withArm (arm0 1 true (2 * secT + nsT 248000)) tray0 with cfg := { Cfg.default with side := .b } },
      0x0300200000000001, arm0 1 true (2 * secT + nsT 248000), by decide +kernel⟩,
    ⟨withArm (arm0 1 false (2 * secT + nsT 31250)) leaf0, decisionMsg 0x0300200000000001 100 true,
      arm0 1 false (2 * secT + nsT 31250), by decide +kernel⟩,
    ⟨{ withArm (arm0 1 true (2 * secT + nsT 31250)) tray0 with cfg := { Cfg.default with side := .b }, lanes := [lane0 9 (.belay 0) .up] },
      9, decisionMsg 0x0300200000000001 100 false, arm0 1 true (2 * secT + nsT 31250), by decide +kernel⟩,
    ⟨withArm (arm0 1 false (2 * secT + nsT 31249)) leaf0, decisionMsg 0x0300200000000001 100 true,
      arm0 1 false (2 * secT + nsT 31249), by decide +kernel⟩,
    ⟨withArm (arm0 1 false (2 * secT + nsT 31250)) leaf0, 0x0300200000000001, arm0 1 false (2 * secT + nsT 31250),
      by decide +kernel⟩⟩

theorem witness_MembershipOverBelay :
    (∃ (s : State) (ctx : Nat) (slot : Nat) (k : Nat) (w : Ticks),
    s.profile = .tray ∧ s.mode = .service ∧ slot < 1000 ∧ ((s.cfg.role ≠ .tray ∨ ctx ∈ s.ctxs.map (·.id))) ∧
      s.waitFrom ctx slot k = some w ∧ w + nsT (s.cfg.memberWait * s.cfg.epochNs) ≤ s.now ∧
      s.missing ctx slot k = true ∧ expectedAt s.red.changes ctx slot k = true ∧
      absentAt s.red.changes ctx slot k = false ∧ s.twin.paired = false) ∧
    (∃ (s : State) (ctx : Nat) (slot : Nat) (k : Nat) (w : Ticks),
    s.profile = .tray ∧ s.mode = .service ∧ slot < 1000 ∧ s.waitFrom ctx slot k = some w ∧
      w + nsT (s.cfg.memberWait * s.cfg.epochNs) ≤ s.now ∧ s.missing ctx slot k = true ∧
      expectedAt s.red.changes ctx slot k = true ∧ absentAt s.red.changes ctx slot k = false ∧ s.twin.paired = true ∧
      s.belayUp = true ∧ s.cfg.side = .a) ∧
    (∃ (s : State) (ctx : Nat) (slot : Nat) (k : Nat) (t0 : Ticks),
    s.runsAs .tray = true ∧ s.belayUp = true ∧
      s.red.queries.find? (fun q => q.1 == ctx && q.2.1 == slot && q.2.2.1 == k) = some (ctx, slot, k, t0) ∧
      t0 + nsT 20000 ≤ s.now) ∧
    (∃ (s : State) (ctx : Nat) (slot : Nat) (k : Nat) (q : Nat × Nat × Nat × Ticks),
    s.runsAs .tray = true ∧ s.belayUp = false ∧
      s.red.queries.find? (fun q => q.1 == ctx && q.2.1 == slot && q.2.2.1 == k) = some q) ∧
    (∃ (s : State) (ctx : Nat) (slot : Nat) (k : Nat),
    s.runsAs .tray = true ∧ s.contribution? ctx slot k = none) ∧
    (∃ (s : State) (ctx : Nat) (slot : Nat) (k : Nat) (b : Bytes),
    s.runsAs .tray = true ∧ s.contribution? ctx slot k = some b) ∧
    (∃ (s : State),
    s.runsAs .tray = true) ∧
    (∃ (s : State),
    s.runsAs .tray = true ∧ s.cfg.role = .tray) ∧
    (∃ (s : State),
    s.runsAs .tray = true) :=
  ⟨⟨{ scheduled tray0 with cfg := { Cfg.default with role := .chassis, memberWait := 0 }, red := { RedSt.fresh with changes := [join0] } },
    0, 4, 7, 2 * secT, by decide +kernel⟩,
    ⟨{ scheduled tray0 with cfg := { Cfg.default with memberWait := 0 }, red := { RedSt.fresh with changes := [join0] }, lanes := [lane0 9 (.belay 0) .up], twin := { TwinSt.fresh with paired := true } },
      0, 4, 7, 2 * secT, by decide +kernel⟩,
    ⟨{ scheduled tray0 with lanes := [lane0 9 (.belay 0) .up], red := { RedSt.fresh with queries := [(0, 4, 7, 2 * secT - nsT 20000)] } },
      0, 4, 7, 2 * secT - nsT 20000, by decide +kernel⟩,
    ⟨{ scheduled tray0 with red := { RedSt.fresh with queries := [(0, 4, 7, 0)] } }, 0, 4, 7, (0, 4, 7, 0),
      by decide +kernel⟩,
    ⟨tray0, 0, 4, 7, by decide +kernel⟩,
    ⟨{ tray0 with red := { RedSt.fresh with landing := [{ slot := 4, k := 7, raw := zeros 64, logged := false }] } },
      0, 4, 7, zeros 64, by decide +kernel⟩,
    ⟨{ tray0 with red := { RedSt.fresh with landing := [{ slot := 4, k := 7, raw := zeros 64, logged := false }] } },
      by decide +kernel⟩,
    ⟨tray0, by decide +kernel⟩,
    ⟨tray0, by decide +kernel⟩⟩

theorem witness_StatusMessagesOfChildren :
    (∃ (s : State) (lane : Nat) (slot : Nat),
    s.runsAs .tray = true ∧ s.laneSlot lane = some slot) ∧
    (∃ (s : State) (lane : Nat) (slot : Nat) (r : LeafReport) (x : Nat × Nat × Nat),
    s.runsAs .tray = true ∧ s.laneSlot lane = some slot ∧ ((r = .dieLost ∧ x = (slot, 1, s.curEpoch) ∨ (∃ k,
      r = .captureLost k ∧ x = (slot, 2, k)) ∨
      ∃ k, r = .ringOverwritten k ∧ x = (slot, 3, k)))) ∧
    (∃ (s : State) (lane : Nat) (slot : Nat),
    s.runsAs .tray = true ∧ s.laneSlot lane = some slot) ∧
    (∃ (s : State) (lane : Nat) (slot : Nat),
    s.runsAs .tray = true ∧ s.laneSlot lane = some slot) ∧
    (∃ (s : State) (lane : Nat) (slot : Nat) (ctx : Nat) (r : Nat),
    s.runsAs .tray = true ∧ s.laneSlot lane = some slot ∧ s.decides = true ∧
      expectedAt s.red.changes ctx slot (r + 1) = true) ∧
    (∃ (s : State) (x : ResendIn) (r : RingSlot),
    s.runsAs .leaf = true ∧ bits (fld x.msg 12 4) 27 24 = 1 ∧
      s.cap.ring.find? (fun r => r.k == fld x.msg 4 8 && r.whole && !r.lost) = some r) ∧
    (∃ (s : State) (x : ResendIn),
    s.runsAs .leaf = true ∧ bits (fld x.msg 12 4) 27 24 = 1 ∧
      s.cap.ring.find? (fun r => r.k == fld x.msg 4 8 && r.whole && !r.lost) = none) ∧
    (∃ (s : State) (x : ResendIn) (slot : Nat),
    s.runsAs .tray = true ∧ bits (fld x.msg 12 4) 27 24 = 1 ∧ s.leafSlot (fld x.msg 12 4 % 2 ^ 17) = some slot) ∧
    (∃ (s : State) (x : ResendIn) (h : Sheaf),
    s.runsAs .tray = true ∧ ((bits (fld x.msg 12 4) 27 24 = 2 ∨ bits (fld x.msg 12 4) 27 24 = 3)) ∧
      s.red.sheaves.find? (fun h => h.ctx == bits (fld x.msg 12 4) 23 20 && h.k == fld x.msg 4 8 && h.sent) = some h) :=
  ⟨⟨trayL (lane0 3 (.down 4) .up), 3, 4, by decide +kernel⟩,
    ⟨trayL (lane0 3 (.down 4) .up), 3, 4, .ringOverwritten 7, (4, 3, 7), by decide +kernel, by decide +kernel,
      .inr (.inr ⟨7, rfl, rfl⟩)⟩,
    ⟨trayL (lane0 3 (.down 4) .up), 3, 4, by decide +kernel⟩,
    ⟨trayL (lane0 3 (.down 4) .up), 3, 4, by decide +kernel⟩,
    ⟨{ trayL (lane0 3 (.down 4) .up) with red := { RedSt.fresh with changes := [join0] } }, 3, 4, 0, 6,
      by decide +kernel⟩,
    ⟨{ leaf0 with cap := { CapSt.fresh with ring := [slot0] } }, { msg := resend0, twinRaw := [] }, slot0,
      by decide +kernel⟩,
    ⟨{ leaf0 with cap := { CapSt.fresh with ring := [{ slot0 with lost := true }] } },
      { msg := resend0, twinRaw := [] }, by decide +kernel⟩,
    ⟨trayL down4, { msg := resendReqMsg 7 1 0 1, twinRaw := [] }, 4, by decide +kernel⟩,
    ⟨{ tray7 .tray with red := { RedSt.fresh with sheaves := [{ sheaf0 .tray with sent := true }] } },
      { msg := resendReqMsg 7 1 0 2, twinRaw := [] }, { sheaf0 .tray with sent := true }, by decide +kernel⟩⟩

theorem witness_ContributionsLand :
    (∃ (s : State) (lane : Nat) (b : Bytes) (rel : Bool) (slot : Nat),
    s.profile = .tray ∧ s.mode = .service ∧ (s.lanes.any fun l => l.n == lane && l.plan.use.isBelay) = rel ∧
      s.leafSlot (recLeaf b) = some slot ∧ recOk b = true ∧ s.agrees b = true ∧ s.landed? slot (recEpoch b) = none ∧
      s.tooLate 0 slot (recEpoch b) = false) ∧
    (∃ (s : State) (lane : Nat) (b : Bytes) (slot : Nat) (rt : Nat),
    s.profile = .tray ∧ s.mode = .service ∧ ((s.cfg.role = .chassis ∧ rt = 2 ∨ s.cfg.role = .summit ∧ rt = 3)) ∧
      s.childSlot lane b = some slot ∧ sheafOk rt b = true ∧ s.sheafAgrees b = true ∧
      s.red.children.any (fun c => c.ctx == fld b 48 1 % 16 && c.slot == slot && c.k == fld b 8 8) = false ∧
      s.tooLate (fld b 48 1 % 16) slot (fld b 8 8) = false) ∧
    (∃ (s : State) (b : Bytes),
    s.profile = .tray ∧ s.mode = .service ∧ s.cfg.role = .summit ∧ sheafOk 6 b = true ∧ s.sheafAgrees b = true ∧
      s.red.children.any (fun c => c.ctx == fld b 48 1 % 16 && c.slot == 1000 + fld b 4 4 % 4
      && c.k == fld b 8 8) = false ∧ s.tooLate (fld b 48 1 % 16) (1000 + fld b 4 4 % 4) (fld b 8 8) = false) ∧
    (∃ (s : State) (ctx : Nat) (msg : Bytes) (a : CaptArea),
    s.profile = .tray ∧ s.mode = .service ∧ 128 ≤ msg.length ∧ crcOk msg = true ∧ fld msg 0 1 = 5 ∧
      (s.heldGen ctx).isSome = true ∧ s.captArea? ctx (fld msg 8 8) = some a ∧ a.base ≠ 0 ∧ 64 + msg.length ≤ a.z) ∧
    (∃ (s : State) (msg : Bytes),
    s.profile = .tray ∧ s.mode = .service ∧ 128 ≤ msg.length ∧ crcOk msg = true ∧ fld msg 0 1 ∈ [7, 8, 9, 10, 11,
      12] ∧ fld msg 1 1 = 1) ∧
    (∃ (s : State) (msg : Bytes),
    s.runsAs .tray = true ∧ 64 ≤ msg.length ∧ fld msg 0 1 = 0x0D ∧ fld msg 1 1 = 1 ∧ crcOk (msg.take 64) = true) ∧
    (∃ (s : State) (msg : Bytes),
    s.runsAs .leaf = true ∧ 64 ≤ msg.length ∧ fld msg 0 1 = 0x0D ∧ fld msg 1 1 = 1 ∧ crcOk (msg.take 64) = true ∧
      BitVec.ofNat 64 (fld msg 8 8) ≠ assignmentId) :=
  ⟨⟨{ tray7 .tray with lanes := [down4] }, 3, msg0 1 192, false, 4, by decide +kernel⟩,
    ⟨{ tray7 .chassis with lanes := [lane0 3 (.down 4) .up] }, 3, sheafMsg0 2, 4, 2, by decide +kernel⟩,
    ⟨tray7 .summit, sheafMsg0 6, by decide +kernel⟩,
    ⟨{ tray7 .tray with capt := [capt0] }, 0, msg0 5 128, capt0, by decide +kernel⟩,
    ⟨{ tray7 .tray with capt := [capt0] }, msg0 12 128, by decide +kernel⟩,
    ⟨tray0, setupMsg0, by decide +kernel⟩,
    ⟨leaf0, setupMsg0, by decide +kernel⟩⟩

theorem witness_SheafMergesAndPublishes :
    (∃ (s : State) (ctx : Nat) (slot : Nat) (k : Nat) (h : Sheaf) (b : Bytes) (chk : CheckOutcome),
    s.runsAs .tray = true ∧ s.sheaf? ctx k slot = some h ∧ h.level = .tray ∧ slot ∉ h.merged ∧
      expectedAt s.red.changes ctx slot k = true ∧ absentAt s.red.changes ctx slot k = false ∧
      s.landed? slot k = some b ∧ ((recFirst b = true ∨ (s.landed? slot (k - 1)).isSome = true)) ∧
      s.unitGone clsReduce chk.unit = false ∧ s.stepLost clsReduce chk = false) ∧
    (∃ (s : State) (ctx : Nat) (slot : Nat) (k : Nat) (h : Sheaf) (c : ChildSheaf) (chk : CheckOutcome),
    s.runsAs .tray = true ∧ s.sheaf? ctx k slot = some h ∧ h.level ≠ .tray ∧ slot ∉ h.merged ∧
      ((h.level = .fleet ∨ expectedAt s.red.changes ctx slot k = true)) ∧
      absentAt s.red.changes ctx (changeSlot slot) k = false ∧ s.unitGone clsReduce chk.unit = false ∧
      s.stepLost clsReduce chk = false ∧
      s.red.children.find? (fun c => c.ctx == ctx && c.slot == slot && c.k == k) = some c) ∧
    (∃ (s : State) (ctx : Nat) (slot : Nat) (k : Nat) (h : Sheaf) (chk : CheckOutcome),
    s.runsAs .tray = true ∧ s.sheaf? ctx k slot = some h ∧ slot ∈ h.merged ∧ s.unitGone clsReduce chk.unit = false) ∧
    (∃ (s : State) (ctx : Nat) (slot : Nat) (k : Nat) (h : Sheaf) (chk : CheckOutcome),
    s.runsAs .tray = true ∧ s.sheaf? ctx k slot = some h ∧ slot ∉ h.merged ∧ s.stepLost clsReduce chk = true) ∧
    (∃ (s : State) (chk : CheckOutcome),
    s.runsAs .tray = true ∧ s.unitGone clsReduce chk.unit = true) ∧
    (∃ (s : State) (ctx : Nat) (k : Nat) (h : Sheaf),
    s.profile = .tray ∧ s.mode = .service ∧
      s.red.sheaves.find? (fun h => h.ctx == ctx && h.k == k && h.stage == .open && h.complete s.red.changes) = some h ∧
      h.level ≠ .shard) ∧
    (∃ (s : State) (ctx : Nat) (k : Nat) (h : Sheaf),
    s.profile = .tray ∧ s.mode = .service ∧
      s.red.sheaves.find? (fun h => h.ctx == ctx && h.k == k && h.stage == .open && h.complete s.red.changes) = some h ∧
      h.level = .shard) ∧
    (∃ (s : State) (ctx : Nat) (k : Nat) (h : Sheaf) (a : PubArea),
    s.runsAs .tray = true ∧ s.red.sheaves.find? (fun h => h.ctx == ctx && h.k == k && h.stage == .adding) = some h ∧
      s.pub? ctx k = some a ∧ a.firstTime k = true) ∧
    (∃ (s : State) (ctx : Nat) (k : Nat) (c : CaptMsg),
    s.runsAs .tray = true ∧ s.red.sheaves.find? (fun h => h.ctx == ctx && h.k == k && h.stage == .adding) = none ∧
      s.captOut.find? (fun c => c.ctx == ctx && c.q == k) = some c) ∧
    (∃ (s : State) (ctx : Nat) (k : Nat) (h : Sheaf) (a : PubArea),
    s.runsAs .tray = true ∧ s.red.sheaves.find? (fun h => h.ctx == ctx && h.k == k && h.stage == .adding) = some h ∧
      s.pub? ctx k = some a ∧ a.firstTime k = false) :=
  ⟨⟨{ tray7 .tray with red := { RedSt.fresh with sheaves := [sheaf0 .tray], changes := [join0], landing := [land0, { land0 with k := 6 }] } },
    0, 4, 7, sheaf0 .tray, msg0 1 192, .pass, by decide +kernel⟩,
    ⟨{ tray7 .chassis with red := { RedSt.fresh with sheaves := [sheaf0 .chassis], changes := [join0], children := [child0] } },
      0, 4, 7, sheaf0 .chassis, child0, .pass, by decide +kernel⟩,
    ⟨{ tray7 .tray with red := { RedSt.fresh with sheaves := [{ sheaf0 .tray with merged := [4] }] } }, 0, 4, 7,
      { sheaf0 .tray with merged := [4] }, .pass, by decide +kernel⟩,
    ⟨lone0 clsReduce { tray7 .tray with red := { RedSt.fresh with sheaves := [sheaf0 .tray], changes := [join0], landing := [land0, { land0 with k := 6 }] } },
      0, 4, 7, sheaf0 .tray, badCheck0, by decide +kernel⟩,
    ⟨gone0 clsReduce tray0, badCheck0, by decide +kernel⟩,
    ⟨{ tray7 .tray with red := { RedSt.fresh with sheaves := [sheaf0 .tray], pubs := [pub0] } }, 0, 7, sheaf0 .tray,
      by decide +kernel⟩,
    ⟨{ tray7 .summit with red := { RedSt.fresh with sheaves := [sheaf0 .shard] } }, 0, 7, sheaf0 .shard,
      by decide +kernel⟩,
    ⟨{ tray7 .tray with red := { RedSt.fresh with sheaves := [adding0], pubs := [{ pub0 with stored := [], fresh := [3] }] } },
      0, 7, adding0, { pub0 with stored := [], fresh := [3] }, by decide +kernel⟩,
    ⟨{ tray7 .tray with captOut := [captOut0] }, 0, 7, captOut0, by decide +kernel⟩,
    ⟨{ tray7 .tray with red := { RedSt.fresh with sheaves := [adding0], pubs := [pub0] } }, 0, 7, adding0, pub0,
      by decide +kernel⟩⟩

theorem witness_RecomputeRingAndCheckpoint :
    (∃ (s : State) (slot : Nat) (k : Nat) (c : Nat),
    s.runsAs .tray = true ∧ (let ctx := if s.cfg.role = .tray then 0 else c;
    s.recovery? ctx slot k = none ∧ s.missing ctx slot k = true)) ∧
    (∃ (s : State) (slot : Nat) (k : Nat) (c : Nat) (r : Recovery),
    s.runsAs .tray = true ∧ s.recovery? (if s.cfg.role = .tray then 0 else c) slot k = some r ∧ r.source = 1 ∧
      ((s.belayUp = false ∨ r.since + nsT 20000 ≤ s.now))) ∧
    (∃ (s : State) (slot : Nat) (k : Nat) (r : Recovery),
    s.runsAs .tray = true ∧ s.recovery? 0 slot k = some r ∧ r.source = 2 ∧ r.asked + nsT 2000 ≤ s.now) ∧
    (∃ (s : State) (slot : Nat) (k : Nat) (b : Bytes) (chk : CheckOutcome),
    s.runsAs .tray = true ∧ s.cfg.role = .tray ∧ s.landed? slot k = some b ∧ s.glumeEngines ≠ 0 ∧
      s.logged slot k = false ∧ s.unitGone clsGlume chk.unit = false ∧ (unitCheck clsGlume chk s).glumeEngines ≠ 0) ∧
    (∃ (s : State) (slot : Nat) (k : Nat) (b : Bytes) (w : Ticks),
    s.runsAs .tray = true ∧ s.cfg.role = .tray ∧ s.landed? slot k = some b ∧ s.glumeEngines < 7 ∧
      s.logged slot k = false ∧ s.timeOf (k + 14) = some w ∧ w ≤ s.now) ∧
    (∃ (s : State) (k : Nat) (ks : List Nat),
    s.runsAs .tray = true ∧ s.raw.due = k :: ks ∧ ((∀ t ∈ s.mem.tables, ∀ r ∈ t.rows,
      (s.ckptRow t.img.tableId r).v.poisoned = false ∧
      (s.ckptRow t.img.tableId r).v.badLines = []))) ∧
    (∃ (s : State) (k : Nat) (ks : List Nat) (x : Table) (r : Row),
    s.runsAs .tray = true ∧ s.raw.due = k :: ks ∧ x ∈ s.mem.tables ∧ r ∈ x.rows ∧
      (s.ckptRow x.img.tableId r).v.poisoned = true) :=
  ⟨⟨tray7 .tray, 4, 7, 0, by decide +kernel⟩,
    ⟨{ tray7 .tray with red := { RedSt.fresh with recover := [recov0 1] } }, 4, 7, 0, recov0 1, by decide +kernel⟩,
    ⟨{ tray7 .tray with red := { RedSt.fresh with recover := [recov0 2] } }, 4, 7, recov0 2, by decide +kernel⟩,
    ⟨{ tray7 .tray with red := { RedSt.fresh with landing := [land0] } }, 4, 7, msg0 1 192, .pass, by decide +kernel⟩,
    ⟨{ scheduled tray0 with tim := { at2s with now := { sec := 3, ns := 0, frac := 0 } }, red := { RedSt.fresh with landing := [land0] }, err := { ErrSt.fresh .tray with units := [] } },
      4, 7, msg0 1 192, 2 * secT + nsT (14 * 125000), by decide +kernel⟩,
    ⟨{ tray7 .tray with raw := { RawSt.fresh with due := [7] } }, 7, [], by decide +kernel⟩,
    ⟨{ tray7 .tray with raw := { RawSt.fresh with due := [7] }, mem := { MemSt.fresh with tables := [table0 [{ row0 with v := { ver0 with poisoned := true } }]] } },
      7, [], table0 [{ row0 with v := { ver0 with poisoned := true } }],
      { row0 with v := { ver0 with poisoned := true } }, by decide +kernel⟩⟩

theorem witness_TableRowsUpdateOncePerEpoch :
    (∃ (s : State) (tab : Nat) (row : Nat) (k : Nat) (x : RowStep) (t : Table) (r : Row) (r' : Row),
    s.runsAs .tray = true ∧ s.table? tab = some t ∧ t.row? row = some r ∧ s.rowUpdate t r k = some r' ∧
      s.unitGone clsThresher x.check.unit = false ∧ s.stepLost clsThresher x.check = false ∧ ((∀ l ∈ x.hbm,
      l.2 ≤ 1))) ∧
    (∃ (s : State) (tab : Nat) (row : Nat) (k : Nat) (t : Table) (r : Row),
    s.runsAs .tray = true ∧ s.table? tab = some t ∧ t.row? row = some r ∧ r.v.epoch + 1 ≠ k) ∧
    (∃ (s : State) (x : RowStep),
    s.runsAs .tray = true ∧ s.stepLost clsThresher x.check = true ∧ ((∀ l ∈ x.hbm, l.2 ≤ 1))) ∧
    (∃ (s : State) (x : RowStep),
    s.runsAs .tray = true ∧ s.unitGone clsThresher x.check.unit = true) ∧
    (∃ (s : State) (tab : Nat) (row : Nat) (k : Nat) (x : RowStep) (n : Nat) (t : Table) (r : Row) (r' : Row),
    s.runsAs .tray = true ∧ s.table? tab = some t ∧ t.row? row = some r ∧ s.rowUpdate t r k = some r' ∧
      s.unitGone clsThresher x.check.unit = false ∧ x.hbm = [(0, n + 2)]) ∧
    (∃ (s : State) (tab : Nat) (row : Nat) (k : Nat) (chk : CheckOutcome) (t : Table) (r : Row) (r' : Row) (u0 : UnitClass) (b : Boundary),
    s.runsAs .leaf = true ∧ s.unit? clsUpdate = some u0 ∧ 0 < u0.inService ∧ s.boundary? k = some b ∧
      b.t + nsT 5300 ≤ s.now ∧ ((∀ c ∈ s.ctxs, s.verdictsDone c.id (k - 1) = true)) ∧ s.table? tab = some t ∧
      t.row? row = some r ∧ s.rowUpdate t r k = some r' ∧ s.unitGone clsUpdate chk.unit = false ∧
      s.stepLost clsUpdate chk = false) ∧
    (∃ (s : State) (tab : Nat) (row : Nat) (t : Table) (r : Row),
    s.runsAs .tray = true ∧ s.table? tab = some t ∧ t.row? row = some r ∧ s.rowUpdate t r (r.v.epoch + 1) = none) ∧
    (∃ (s : State) (tab : Nat) (row : Nat) (t : Table) (r : Row) (r' : Row),
    s.runsAs .tray = true ∧ s.table? tab = some t ∧ t.row? row = some r ∧ s.rowUpdate t r (r.v.epoch + 1) = some r') ∧
    (∃ (s : State) (tab : Nat) (row : Nat) (t : Table) (r : Row) (h : HotRow),
    s.runsAs .tray = true ∧ s.table? tab = some t ∧ t.row? row = some r ∧ h ∈ s.mem.hot ∧ h.table = tab ∧
      h.row = row ∧ h.vers = []) ∧
    (∃ (s : State) (model : Nat) (row : Nat) (h : HeldModel) (e : PlaceEntry) (ks : Nat) (t : Table) (r : Row),
    s.runsAs .tray = true ∧ s.model? model = some h ∧
      (s.openPeriods h.m.ctx model row).find? (fun x => s.awaitsInstall h.m.ctx model row x.1 x.2) = some (e, ks) ∧
      s.table? e.tableId = some t ∧ t.row? row = some r ∧ ((∀ q ∈ t.rows, deepDue e q.row ks = true →
      ks ≤ q.v.epoch)) ∧ s.setBusy e row ks = false) ∧
    (∃ (s : State) (b : Boundary) (bs : List Boundary),
    s.runsAs .tray = true ∧ s.sched.past = b :: bs ∧ b.t + nsT 18000 ≤ s.now ∧ ((∃ t ∈ s.mem.tables,
      t.img.slot = true ∧ ∃ r ∈ t.rows, r.v.epoch < b.k) ∨ (∃ c ∈ s.chans, 0 < c.sReady))) :=
  ⟨⟨withRow row0 (tray7 .tray), 2, 0, 7, step0 [(0, 1)], table0 [row0], row0,
    ((withRow row0 (tray7 .tray)).rowUpdate (table0 [row0]) row0 7).get (by decide +kernel), by decide +kernel,
    by decide +kernel, by decide +kernel, (Option.some_get _).symm, by decide +kernel⟩,
    ⟨withRow row7 (tray7 .tray), 2, 0, 7, table0 [row7], row7, by decide +kernel⟩,
    ⟨lone0 clsThresher (withRow row0 (tray7 .tray)), badStep0, by decide +kernel⟩,
    ⟨gone0 clsThresher (withRow row0 (tray7 .tray)), step0 [], by decide +kernel⟩,
    ⟨withRow row0 (tray7 .tray), 2, 0, 7, step0 [(0, 2)], 0, table0 [row0], row0,
      ((withRow row0 (tray7 .tray)).rowUpdate (table0 [row0]) row0 7).get (by decide +kernel), by decide +kernel,
      by decide +kernel, by decide +kernel, (Option.some_get _).symm, by decide +kernel⟩,
    ⟨withRow row0 (epoch7 { leaf0 with cap := { CapSt.fresh with ring := [slot0] } }), 2, 0, 7, .pass, table0 [row0],
      row0,
      ((withRow row0 (epoch7 { leaf0 with cap := { CapSt.fresh with ring := [slot0] } })).rowUpdate (table0 [row0]) row0 7).get (by decide +kernel),
      UnitClass.built (7, 1, 0), past0, by decide +kernel, by decide +kernel, by decide +kernel, by decide +kernel,
      by decide +kernel, by decide +kernel, by decide +kernel, by decide +kernel, (Option.some_get _).symm,
      by decide +kernel⟩,
    ⟨withRow { row0 with entity := 0x8000 } { tray7 .tray with lanes := [down4], red := { RedSt.fresh with changes := [join0] } },
      2, 0, table0 [{ row0 with entity := 0x8000 }], { row0 with entity := 0x8000 }, by decide +kernel⟩,
    ⟨withRow row0 (tray7 .tray), 2, 0, table0 [row0], row0,
      ((withRow row0 (tray7 .tray)).rowUpdate (table0 [row0]) row0 7).get (by decide +kernel), by decide +kernel,
      by decide +kernel, by decide +kernel, (Option.some_get _).symm⟩,
    ⟨{ tray7 .tray with mem := { MemSt.fresh with tables := [table0 [row7]], hot := [{ table := 2, row := 0, places := [(0, 0)], vers := [], held := [] }] } },
      2, 0, table0 [row7], row7, { table := 2, row := 0, places := [(0, 0)], vers := [], held := [] },
      by decide +kernel⟩,
    ⟨scoring true row7 (tray7 .tray), 5, 0, { m := model0, poisoned := false }, entry0 true, 7, table0 [row7], row7,
      by decide +kernel⟩,
    ⟨withRow row0 (tray7 .tray), past0, [], by decide +kernel⟩⟩

theorem witness_MemoryErrorsAndRepair :
    (∃ (s : State),
    s.runsAs .tray = true) ∧
    (∃ (s : State) (tab : Nat) (row : Nat) (t : Table) (r : Row),
    s.runsAs .tray = true ∧ s.table? tab = some t ∧ t.row? row = some r) ∧
    (∃ (s : State) (tab : Nat) (row : Nat) (t : Table) (r : Row),
    s.runsAs .tray = true ∧ s.twin.paired = true ∧ s.table? tab = some t ∧ t.row? row = some r) ∧
    (∃ (s : State) (n : Nat),
    s.clocked = true ∧ n ≠ 0) ∧
    (∃ (s : State) (bank : Nat) (row : Nat) (ue : Bool),
    s.clocked = true ∧ ((ue = true ∨ (bank, row) ∈ s.err.repairQ)) ∧ s.bankUsed bank < 8) ∧
    (∃ (s : State) (bank : Nat) (row : Nat) (ue : Bool),
    s.clocked = true ∧ ((ue = true ∨ (bank, row) ∈ s.err.repairQ)) ∧ 8 ≤ s.bankUsed bank) ∧
    (∃ (s : State) (stack : Nat) (row : Nat),
    s.runsAs .tray = true ∧ (stack, row) ∈ s.err.pprQ) ∧
    (∃ (s : State) (stack : Nat) (row : Nat),
    s.runsAs .tray = true ∧ (stack, row) ∈ s.err.pprQ) :=
  ⟨⟨tray0, by decide +kernel⟩,
    ⟨withRow row0 (tray7 .tray), 2, 0, table0 [row0], row0, by decide +kernel⟩,
    ⟨withRow { row0 with v := { ver0 with poisoned := true, badLines := [1] } } { tray7 .tray with twin := { TwinSt.fresh with paired := true } },
      2, 0, table0 [{ row0 with v := { ver0 with poisoned := true, badLines := [1] } }],
      { row0 with v := { ver0 with poisoned := true, badLines := [1] } }, by decide +kernel⟩,
    ⟨tray0, 1, by decide +kernel⟩,
    ⟨repaired0 7, 1, 2, true, by decide +kernel⟩,
    ⟨repaired0 8, 1, 2, false, by decide +kernel⟩,
    ⟨{ tray0 with err := { ErrSt.fresh .tray with pprQ := [(1, 2)] } }, 1, 2, by decide +kernel⟩,
    ⟨{ tray0 with err := { ErrSt.fresh .tray with pprQ := [(1, 2)] } }, 1, 2, by decide +kernel⟩⟩

theorem witness_ScoringJobsAndRecords :
    (∃ (s : State) (model : Nat) (row : Nat) (k : Nat) (chk : CheckOutcome) (h : HeldModel) (p : PlaceInForce) (e : PlaceEntry) (t : Table) (r : Row) (x : HotRow) (v : RowVer),
    s.runsAs .tray = true ∧ s.model? model = some h ∧ s.entryFor false model row k = some (p, e) ∧
      s.table? e.tableId = some t ∧ t.row? row = some r ∧ slotDue e row k = true ∧ k ≤ r.v.epoch ∧
      s.job? model row k = none ∧ s.jobRuns h.m.ctx model k = true ∧
      s.mem.hot.find? (fun x => x.table == e.tableId && x.row == row) = some x ∧ versionAt x.vers k = some v ∧
      x.held.any (fun y => tagNotAfter y.epoch k) = false ∧ s.laneLost p e row = false ∧ h.poisoned = false ∧
      s.unitGone clsLane chk.unit = false) ∧
    (∃ (s : State) (model : Nat) (row : Nat) (x : ScoreEnd) (j : ScoreJob) (h : HeldModel),
    s.runsAs .tray = true ∧
      s.mem.jobs.find? (fun j => j.model == model && j.row == row && j.pub == x.epoch) = some j ∧
      s.model? model = some h ∧ j.record = none ∧ (if j.pub = j.ks then 1 else j.pub - j.ks - 1) ≤ j.slices ∧
      s.genOf j.ctx = j.gen ∧ s.unitGone clsLane x.check.unit = false ∧ s.stepLost clsLane x.check = false) ∧
    (∃ (s : State) (b : Boundary) (bs : List Boundary),
    s.sched.past = b :: bs ∧ b.t + nsT 32000 ≤ s.now ∧ ((∃ c ∈ s.ctxs, ∃ x ∈ s.dueRows c.id b.k, x.1.deep = false ∧
      ∀ j, s.job? x.1.modelId x.2.1 b.k = some j → j.record = none))) ∧
    (∃ (s : State) (model : Nat) (row : Nat) (k : Nat) (chk : CheckOutcome) (h : HeldModel) (j : ScoreJob) (s1 : State) (u0 : UnitClass),
    s.runsAs .leaf = true ∧ s.unit? clsUpdate = some u0 ∧ 0 < u0.inService ∧ s.updatesDone k = true ∧
      s.model? model = some h ∧ slotStart model row k chk .good s = some (j, s1) ∧ s1.genOf j.ctx = j.gen ∧
      s.unitGone clsLane chk.unit = false) :=
  ⟨⟨scoring false row7 (tray7 .tray), 5, 0, 7, .pass, { m := model0, poisoned := false }, place0 false, entry0 false,
    table0 [row7], row7, { table := 2, row := 0, places := [(0, 0)], vers := [row7.v], held := [] }, row7.v,
    by decide +kernel⟩,
    ⟨{ tray7 .tray with mem := { MemSt.fresh with models := [{ m := model0, poisoned := false }], jobs := [job0] } },
      5, 0, { epoch := 7, check := .pass }, job0, { m := model0, poisoned := false }, by decide +kernel⟩,
    ⟨scoring false row7 (tray7 .tray), past0, [], by decide +kernel⟩,
    ⟨scoring false row7 (epoch7 leaf0), 5, 0, 7, .pass, { m := model0, poisoned := false },
      ((slotStart 5 0 7 .pass .good (scoring false row7 (epoch7 leaf0))).get (by decide +kernel)).1,
      ((slotStart 5 0 7 .pass .good (scoring false row7 (epoch7 leaf0))).get (by decide +kernel)).2,
      UnitClass.built (7, 1, 0), by decide +kernel, by decide +kernel, by decide +kernel, by decide +kernel,
      by decide +kernel, (Option.some_get (by decide +kernel)).symm, by decide +kernel⟩⟩

theorem witness_GrantsOfTrayAndLeaf :
    (∃ (s : State) (d : Nat) (w : Nat) (g : Nat),
    s.profile = .tray ∧ s.grantReady (s.act.lastStep + 1) = true ∧ s.capRows (s.act.lastStep + 1) = [] ∧
      s.memberDies (s.act.lastStep + 1) = [d] ∧ ((∀ b, s.boundary? (s.act.lastStep + 1) = some b →
      s.now ≤ b.t + nsT 34000)) ∧ policyAt s.act.policies d (s.act.lastStep + 1) = some w ∧ (s.die d).hold = none ∧
      (if s.joins (s.act.lastStep + 1) d then g = w else (s.die d).g = some g)) ∧
    (∃ (s : State) (b : Boundary),
    s.profile = .tray ∧ s.boundary? (s.act.lastStep + 1) = some b ∧ s.cfg.role = .tray ∧ s.mode = .service ∧
      s.act.safe = false ∧ b.t + nsT 34000 ≤ s.now) ∧
    (∃ (s : State) (msg : Bytes) (l : BitVec 32),
    s.runsAs .leaf = true ∧ bit (fld msg 10 1) 1 = false ∧ s.grant.last = some l) ∧
    (∃ (s : State) (msg : Bytes),
    s.runsAs .leaf = true ∧ bit (fld msg 10 1) 1 = true) ∧
    (∃ (s : State) (w : BitVec 16),
    s.runsAs .leaf = true ∧ s.grant.waiting = some w ∧ s.pins.pgVld = false ∧ ((∀ e, s.grant.droppedAt = some e →
      e + 2 ≤ s.edges))) ∧
    (∃ (s : State),
    s.runsAs .leaf = true ∧ s.pins.pgVld = true) ∧
    (∃ (s : State) (r : Ticks),
    s.runsAs .leaf = true ∧ s.pins.pgVld = true ∧ s.grant.raisedAt = some r ∧ r + nsT 80 ≤ s.now ∧
      s.grant.noAck = false) ∧
    (∃ (s : State),
    s.runsAs .leaf = true ∧ s.grantOld s.grant.sinceAny = true) :=
  ⟨⟨{ grants0 119 with tim := { at2s with now := { sec := 1, ns := 0, frac := 0 } } }, 4, 120, 100,
    by decide +kernel⟩,
    ⟨grants0 0, past0, by decide +kernel⟩,
    ⟨leafG { GrantSt.fresh with last := some 7 }, grantMsg 8 100 true false 0, 7, by decide +kernel⟩,
    ⟨leafG { GrantSt.fresh with sinceNonSafe := some 63 }, grantMsg 8 100 true true 0, by decide +kernel⟩,
    ⟨leafG { GrantSt.fresh with waiting := some 100 }, 100, by decide +kernel⟩,
    ⟨{ leaf0 with pins := { Pins.reset 0 with pgVld := true } }, by decide +kernel⟩,
    ⟨{ leafG { GrantSt.fresh with raisedAt := some (2 * secT - nsT 80) } with pins := { Pins.reset 0 with pgVld := true }, tim := at2s },
      2 * secT - nsT 80, by decide +kernel⟩,
    ⟨leafG { GrantSt.fresh with sinceAny := some 64 }, by decide +kernel⟩⟩

theorem witness_TrayLoopAndConverters :
    (∃ (s : State),
    s.profile = .tray ∧ s.cfg.role = .tray ∧ s.mode = .service ∧ s.act.safe = false ∧ s.loopMaster = true) ∧
    (∃ (s : State) (i : LoopIn) (v : Nat) (a : Nat) (lost : Bool),
    s.profile = .tray ∧ s.cfg.role = .tray ∧ s.mode = .service ∧ s.act.safe = false ∧ s.loopMaster = false ∧
      i.fromTwin = some (v, a, lost)) ∧
    (∃ (s : State) (a : Ticks),
    s.runsAs .tray = true ∧ s.cutOff = true ∧ s.act.aloneSince = some a ∧ a + nsT 1000000 ≤ s.now) ∧
    (∃ (s : State),
    s.runsAs .tray = true) ∧
    (∃ (s : State),
    s.runsAs .tray = true ∧ s.act.strobe + 1600000 ≤ s.tim.cycle) ∧
    (∃ (s : State) (c : Nat) (v : BitVec 16),
    s.runsAs .tray = true ∧ s.wantedLimit c = some v ∧ s.mayWrite c v = true) ∧
    (∃ (s : State),
    s.runsAs .tray = true) :=
  ⟨⟨grants0 0, by decide +kernel⟩,
    ⟨paired0 { grants0 0 with cfg := { Cfg.default with side := .b } },
      { tOut := none, iout := [], vin := [], fromTwin := some (48000, 3, false), temps := [] }, 48000, 3, false,
      by decide +kernel⟩,
    ⟨{ tray7 .tray with cfg := { Cfg.default with side := .b }, act := { ActSt.fresh 4000 with aloneSince := some (2 * secT - nsT 1000000) } },
      2 * secT - nsT 1000000, by decide +kernel⟩,
    ⟨tray0, by decide +kernel⟩,
    ⟨{ tray7 .tray with act := { ActSt.fresh 4000 with strobe := 5 }, tim := { at2s with cycle := 1600005 } },
      by decide +kernel⟩,
    ⟨{ grants0 0 with act := { ActSt.fresh 4000 with safe := false, loop := { LoopCfg.default with ilim := List.replicate 8 (some 9) } } },
      7, 9, by decide +kernel⟩,
    ⟨tray0, by decide +kernel⟩⟩

theorem witness_TraceSlotsSampleCores :
    (∃ (s : State),
    s.runsAs .leaf = true ∧ s.slotStarts 0 = true) ∧
    (∃ (s : State),
    s.runsAs .leaf = true ∧ s.slotStarts 0 = true ∧ s.trc.req = none ∧ s.trc.recs.length = 4 ∧
      s.trc.group < s.tim.cycle / 128) ∧
    (∃ (s : State) (j : Nat) (x : ShareTrc) (m : Mark) (ms : List Mark),
    s.runsAs .leaf = true ∧ s.slotStarts j = true ∧ j ≠ 0 ∧ s.trc.req = none ∧ s.trc.recs.length = j ∧
      s.trc.shares.find? (·.ctx == s.groupShare) = some x ∧ (s.heldGen s.groupShare).isSome = true ∧
      x.marks = m :: ms) ∧
    (∃ (s : State) (j : Nat) (x : ShareTrc),
    s.runsAs .leaf = true ∧ s.slotStarts j = true ∧ j ≠ 0 ∧ s.trc.req = none ∧ s.trc.recs.length = j ∧
      s.trc.shares.find? (·.ctx == s.groupShare) = some x ∧ (s.heldGen s.groupShare).isSome = true ∧ x.marks = [] ∧
      0 < x.div ∧ x.cores ≠ [] ∧ x.slots % x.div = 0) ∧
    (∃ (s : State) (j : Nat) (x : ShareTrc),
    s.runsAs .leaf = true ∧ s.slotStarts j = true ∧ j ≠ 0 ∧ s.trc.req = none ∧ s.trc.recs.length = j ∧
      s.trc.shares.find? (·.ctx == s.groupShare) = some x ∧ (s.heldGen s.groupShare).isSome = true ∧ x.marks = [] ∧
      ((x.div = 0 ∨ x.cores = [] ∨ x.slots % x.div ≠ 0))) ∧
    (∃ (s : State) (j : Nat),
    s.runsAs .leaf = true ∧ s.slotStarts j = true ∧ j ≠ 0 ∧ s.trc.req = none ∧ s.trc.recs.length = j ∧
      s.heldGen s.groupShare = none) ∧
    (∃ (s : State) (core : Nat) (t : Ticks) (c : Nat) (x : ShareTrc),
    s.runsAs .leaf = true ∧ s.trc.req = some (core, t, c) ∧ s.trc.shares.find? (·.ctx == s.groupShare) = some x ∧
      s.tim.cycle ≤ c + 16) ∧
    (∃ (s : State) (core : Nat) (t : Ticks) (c : Nat),
    s.runsAs .leaf = true ∧ s.trc.req = some (core, t, c) ∧ c + 16 < s.tim.cycle) ∧
    (∃ (s : State) (core : Nat) (t : Ticks) (c : Nat) (x : ShareTrc),
    s.runsAs .leaf = true ∧ s.trc.req = some (core, t, c) ∧ s.trc.shares.find? (·.ctx == s.groupShare) = some x ∧
      c + 16 < s.tim.cycle) :=
  ⟨⟨leafT TrcSt.fresh, by decide +kernel⟩,
    ⟨leafTAt 128 { TrcSt.fresh with recs := [trcRec0, trcRec0, trcRec0, trcRec0] }, by decide +kernel⟩,
    ⟨leafTAt 96 { TrcSt.fresh with shares := [share0 [mark0]], recs := [trcRec0, trcRec0, trcRec0] }, 3,
      share0 [mark0], mark0, [], by decide +kernel⟩,
    ⟨leafTAt 32 { TrcSt.fresh with shares := [share0 []], recs := [trcRec0] }, 1, share0 [], by decide +kernel⟩,
    ⟨leafTAt 32 { TrcSt.fresh with shares := [{ share0 [] with slots := 5 }], recs := [trcRec0] }, 1,
      { share0 [] with slots := 5 }, by decide +kernel⟩,
    ⟨{ leafTAt 96 { TrcSt.fresh with recs := [trcRec0, trcRec0, trcRec0] } with ctxs := [] }, 3, by decide +kernel⟩,
    ⟨leafTAt 48 { TrcSt.fresh with shares := [share0 []], req := some (9, 2 * secT - nsT 10, 32), recs := [trcRec0] },
      9, 2 * secT - nsT 10, 32, share0 [], by decide +kernel⟩,
    ⟨leafTAt 49 { TrcSt.fresh with req := some (9, 2 * secT - nsT 11, 32) }, 9, 2 * secT - nsT 11, 32,
      by decide +kernel⟩,
    ⟨leafTAt 113 { TrcSt.fresh with shares := [share0 []], req := some (9, 2 * secT - nsT 11, 96), recs := [trcRec0, trcRec0, trcRec0] },
      9, 2 * secT - nsT 11, 96, share0 [], by decide +kernel⟩⟩

theorem witness_WatchFeedAndDump :
    (∃ (s : State) (c : Nat) (w : ShareWatch),
    s.runsAs .leaf = true ∧ s.watch? c = some w ∧ w.reading = none ∧ w.wantFeed = false ∧ w.dump = none ∧
      w.pollAt ≤ s.now ∧ s.isActive c = true) ∧
    (∃ (s : State) (c : Nat) (w : ShareWatch) (fd : Nat × Nat) (b : Bytes),
    s.runsAs .leaf = true ∧ s.watch? c = some w ∧ w.reading.isSome = true ∧ w.feed = some fd ∧
      ((crcOk (slice b 0 64) = false ∨ fld (slice b 0 64) 0 8 < w.dseq))) ∧
    (∃ (s : State) (c : Nat) (w : ShareWatch) (fd : Nat × Nat) (b : Bytes),
    s.runsAs .leaf = true ∧ s.watch? c = some w ∧ w.reading.isSome = true ∧ w.feed = some fd ∧ (let d := slice b 0 64;
    crcOk d = true ∧ w.dseq ≤ fld d 0 8 ∧ ((fld d 24 8 % 64 ≠ 0 ∨ fld d 32 4 % 64 ≠ 0 ∨ 2 ^ 24 < fld d 32 4)))) ∧
    (∃ (s : State) (c : Nat) (w : ShareWatch) (fd : Nat × Nat) (b : Bytes) (a : Nat),
    s.runsAs .leaf = true ∧ s.watch? c = some w ∧ w.reading.isSome = true ∧ w.feed = some fd ∧ (let d := slice b 0 64;
    crcOk d = true ∧ w.dseq = fld d 0 8 ∧ fld d 24 8 % 64 = 0 ∧ fld d 32 4 % 64 = 0 ∧ fld d 32 4 ≤ 2 ^ 24 ∧
      s.inWindow c (fld d 24 8) (fld d 32 4) = true ∧ bit (fld d 36 4) 0 = true ∧ a = fld d 40 8 ∧ a % 8 = 0 ∧
      s.inWindow c a 8 = true ∧ ((∀ e ∈ w.entries, e.hits (BitVec.ofNat 32 (fld d 8 4)) (fld d 16 8) = false)))) ∧
    (∃ (s : State) (c : Nat) (w : ShareWatch) (fd : Nat × Nat) (b : Bytes) (e : WatchEntry),
    s.runsAs .leaf = true ∧ s.watch? c = some w ∧ w.reading.isSome = true ∧ w.feed = some fd ∧ (let d := slice b 0 64;
    crcOk d = true ∧ w.dseq = fld d 0 8 ∧ fld d 24 8 % 64 = 0 ∧ fld d 32 4 % 64 = 0 ∧ fld d 32 4 ≤ 2 ^ 24 ∧
      0 < fld d 32 4 ∧ s.inWindow c (fld d 24 8) (fld d 32 4) = true ∧ bit (fld d 36 4) 0 = false ∧ w.entries = [e] ∧
      e.hits (BitVec.ofNat 32 (fld d 8 4)) (fld d 16 8) = true ∧ e.off = 0 ∧ e.dlen = 0)) ∧
    (∃ (s : State) (c : Nat) (w : ShareWatch) (base : Nat) (f : Nat),
    s.runsAs .leaf = true ∧ s.watch? c = some w ∧ w.reading.isSome = true ∧ w.feed = some (base, f)) ∧
    (∃ (s : State) (c : Nat) (w : ShareWatch) (d : Dump) (g : BitVec 6),
    s.runsAs .leaf = true ∧ s.watch? c = some w ∧ w.dump = some d ∧ d.flight.find? (·.1 == g) = some (g, d.next) ∧
      d.early = [] ∧ d.gone = false ∧ d.failed = false ∧ d.next + 64 ≠ d.fin ∧
      d.lines.length + 1 ≠ partLines s.cfg.shareCount ∧ s.lateReads.any (·.tags.contains g) = false) ∧
    (∃ (s : State) (c : Nat) (w : ShareWatch) (d : Dump) (g : BitVec 6) (a : Nat),
    s.runsAs .leaf = true ∧ s.watch? c = some w ∧ w.dump = some d ∧ d.flight.find? (·.1 == g) = some (g, a) ∧
      a ≠ d.next ∧ d.early = [] ∧ d.gone = false ∧ d.failed = false ∧ d.next ≠ d.fin ∧
      s.lateReads.any (·.tags.contains g) = false) ∧
    (∃ (s : State) (c : Nat) (w : ShareWatch) (d : Dump) (g : BitVec 6),
    s.runsAs .leaf = true ∧ s.watch? c = some w ∧ w.dump = some d ∧ d.flight.find? (·.1 == g) = some (g, d.next) ∧
      d.early = [] ∧ d.gone = false ∧ d.failed = false ∧ d.next + 64 = d.fin ∧
      s.lateReads.any (·.tags.contains g) = false) ∧
    (∃ (s : State) (r : DumpReturn) (x : LateRead) (y : Ctx),
    s.runsAs .leaf = true ∧ s.lateReads.find? (·.tags.contains r.tag) = some x ∧ s.ctx? x.ctx = some y) :=
  ⟨⟨leafW { watch0 with reading := none }, 0, { watch0 with reading := none }, by decide +kernel⟩,
    ⟨leafW watch0, 0, watch0, (0x40000, 64), feed0 4 0x100000 64 0 0, by decide +kernel⟩,
    ⟨leafW watch0, 0, watch0, (0x40000, 64), feed0 6 0x100000 0x1000040 0 0, by decide +kernel⟩,
    ⟨leafW watch0, 0, watch0, (0x40000, 64), feed0 5 0x100000 64 1 0x10FFF8, 0x10FFF8, by decide +kernel⟩,
    ⟨leafW { watch0 with entries := [watchEntry0] }, 0, { watch0 with entries := [watchEntry0] }, (0x40000, 64),
      feed0 5 0x10FFC0 64 0 0, watchEntry0, by decide +kernel⟩,
    ⟨leafW watch0, 0, watch0, 0x40000, 64, by decide +kernel⟩,
    ⟨leafW { watch0 with dump := some dump0 }, 0, { watch0 with dump := some dump0 }, dump0, 3, by decide +kernel⟩,
    ⟨leafW { watch0 with dump := some { dump0 with flight := [(3, 0x100080)] } }, 0,
      { watch0 with dump := some { dump0 with flight := [(3, 0x100080)] } }, { dump0 with flight := [(3, 0x100080)] },
      3, 0x100080, by decide +kernel⟩,
    ⟨leafW { watch0 with dump := some { dump0 with fin := 0x100080 } }, 0,
      { watch0 with dump := some { dump0 with fin := 0x100080 } }, { dump0 with fin := 0x100080 }, 3,
      by decide +kernel⟩,
    ⟨{ leafW watch0 with lateReads := [{ ctx := 0, tags := [3], rel := some (0x100800, 5) }] },
      { tag := 3, ans := .data [1] }, { ctx := 0, tags := [3], rel := some (0x100800, 5) },
      { Ctx.fresh 0 with life := .active 0, winBase := 0x100000, winSize := 1 }, by decide +kernel⟩⟩

theorem witness_TimedStopAndScan :
    (∃ (s : State),
    s.runsAs .leaf = true ∧ s.stop.phase = .armed ∧ s.stop.confirmed = true ∧ s.stop.at_ ≤ s.now) ∧
    (∃ (s : State),
    s.runsAs .leaf = true ∧ s.pins.stopOut = true ∧ s.stop.doneSeen = false ∧ s.stop.phase = .stopping) ∧
    (∃ (s : State),
    s.runsAs .leaf = true ∧ s.stop.phase = .stopping ∧ s.stop.rose + nsT s.cfg.stopDoneWaitNs ≤ s.now) ∧
    (∃ (s : State) (seg : ScanSeg),
    s.runsAs .leaf = true ∧ s.stop.phase = .scanning ∧ s.stop.leaving = false ∧
      s.cfg.scanPlan[s.stop.seg]? = some seg) ∧
    (∃ (s : State) (seg : ScanSeg),
    s.runsAs .leaf = true ∧ s.stop.phase = .scanning ∧ s.stop.leaving = true ∧
      s.cfg.scanPlan[s.stop.seg]? = some seg) ∧
    (∃ (s : State) (t : Ticks),
    s.runsAs .leaf = true ∧ s.stop.release = some t ∧ s.stopActive = true ∧ t ≤ s.now) ∧
    (∃ (s : State),
    s.runsAs .leaf = true ∧ s.stopActive = true ∧ s.stop.leaving = false ∧
      s.stop.at_ + nsT s.cfg.stopHoldMaxNs ≤ s.now) :=
  ⟨⟨leafStop (stop0 .armed) (Pins.reset 0), by decide +kernel⟩,
    ⟨leafStop (stop0 .stopping) { Pins.reset 0 with stopOut := true }, by decide +kernel⟩,
    ⟨leafStop { stop0 .stopping with at_ := 2 * secT - nsT 10000, rose := 2 * secT - nsT 10000 } { Pins.reset 0 with stopOut := true },
      by decide +kernel⟩,
    ⟨{ leafStop (stop0 .scanning) { Pins.reset 0 with stopOut := true } with cfg := { Cfg.default with scanPlan := [scan0] } },
      scan0, by decide +kernel⟩,
    ⟨{ leafStop { stop0 .scanning with leaving := true } { Pins.reset 0 with stopOut := true } with cfg := { Cfg.default with scanPlan := [scan0] } },
      scan0, by decide +kernel⟩,
    ⟨leafStop { stop0 .scanning with release := some (2 * secT) } { Pins.reset 0 with stopOut := true }, 2 * secT,
      by decide +kernel⟩,
    ⟨{ leafStop { stop0 .stopped with at_ := secT } { Pins.reset 0 with stopOut := true } with cfg := { Cfg.default with stopHoldMaxNs := 1000000000 } },
      by decide +kernel⟩⟩

theorem witness_BreakpointsDrainInWindows :
    (∃ (s : State),
    s.runsAs .leaf = true) ∧
    (∃ (s : State) (q : Nat × Nat),
    s.runsAs .leaf = true ∧ s.drainIdle = true ∧ s.brk.window ≠ s.drainWindow + 1 ∧
      s.now < nsT (s.drainWindow * s.cfg.drnWinNs) + s.tim.inc ∧ (let c := s.drainWindow % s.cfg.shareCount;
    s.brk.queue.find? (·.2 == c) = some q)) ∧
    (∃ (s : State) (r : Nat × Nat),
    s.runsAs .leaf = true ∧ s.drainIdle = true ∧ s.brk.window ≠ s.drainWindow + 1 ∧
      s.now < nsT (s.drainWindow * s.cfg.drnWinNs) + s.tim.inc ∧ (let c := s.drainWindow % s.cfg.shareCount;
    s.brk.queue.find? (·.2 == c) = none ∧ (s.brk.resumes.filter (·.2 == c)).head? = some r ∧ s.pins.rsmReq = false)) ∧
    (∃ (s : State),
    s.runsAs .leaf = true ∧ s.drainIdle = false ∧ s.brk.drain = none ∧ s.brk.window ≠ s.drainWindow + 1 ∧
      s.now < nsT (s.drainWindow * s.cfg.drnWinNs) + s.tim.inc) ∧
    (∃ (s : State),
    s.runsAs .leaf = true ∧
      ((s.brk.window = s.drainWindow + 1 ∨ nsT (s.drainWindow * s.cfg.drnWinNs) + s.tim.inc ≤ s.now))) ∧
    (∃ (s : State) (core : Nat) (c : Nat) (w : Nat) (t : Nat),
    s.runsAs .leaf = true ∧ s.brk.drain = some (core, c, w, t) ∧ ((∀ r ∈ s.brk.serve,
      r.2 ≠ s.drainWindow % s.cfg.shareCount))) ∧
    (∃ (s : State) (core : Nat) (c : Nat) (t : Nat),
    s.runsAs .leaf = true ∧ s.brk.drain = none ∧ s.brk.abort = some (core, c, t) ∧ ((t / 2 ≠ s.tim.cycle / 2 ∨ (core,
      c) ∉ s.brk.queue)) ∧ s.tim.cycle ≤ t + 32 ∧ s.brk.due ≠ some s.drainWindow) ∧
    (∃ (s : State) (core : Nat) (c : Nat) (t : Nat) (q : Nat × Nat),
    s.runsAs .leaf = true ∧ s.brk.drain = none ∧ s.brk.abort = some (core, c, t) ∧ ((t / 2 ≠ s.tim.cycle / 2 ∨ (core,
      c) ∉ s.brk.queue)) ∧ s.tim.cycle ≤ t + 32 ∧ s.brk.due = some s.drainWindow ∧ s.pins.stopOut = false ∧
      s.brk.portFault = false ∧ s.brk.queue.find? (·.2 == s.drainWindow % s.cfg.shareCount) = some q) ∧
    (∃ (s : State) (core : Nat) (c : Nat) (t : Nat),
    s.runsAs .leaf = true ∧ s.brk.drain = none ∧ s.brk.abort = some (core, c, t) ∧ t / 2 = s.tim.cycle / 2 ∧ (core,
      c) ∈ s.brk.queue ∧ s.brk.due ≠ some s.drainWindow) ∧
    (∃ (s : State) (core : Nat) (c : Nat) (w : Nat) (t : Nat),
    s.runsAs .leaf = true ∧ s.brk.drain = some (core, c, w, t) ∧ w < s.drainWindow) ∧
    (∃ (s : State) (core : Nat) (c : Nat) (t : Nat),
    s.runsAs .leaf = true ∧ s.brk.abort = some (core, c, t) ∧ t + 32 < s.tim.cycle) :=
  ⟨⟨leafB BrkSt.fresh, by decide +kernel⟩,
    ⟨leafB { BrkSt.fresh with queue := [(9, 0)] }, (9, 0), by decide +kernel⟩,
    ⟨leafB { BrkSt.fresh with stopped := [9], resumes := [(9, 0)] }, (9, 0), by decide +kernel⟩,
    ⟨{ leafB BrkSt.fresh with pins := { Pins.reset 0 with stopOut := true } }, by decide +kernel⟩,
    ⟨{ leafB BrkSt.fresh with tim := { at2s with now := { sec := 2, ns := 5000, frac := 0 } } }, by decide +kernel⟩,
    ⟨leafB { BrkSt.fresh with drain := some (9, 0, 3, 0) }, 9, 0, 3, 0, by decide +kernel⟩,
    ⟨leafBAt 32 { BrkSt.fresh with abort := some (9, 0, 0) }, 9, 0, 0, by decide +kernel⟩,
    ⟨leafBAt 32 { BrkSt.fresh with abort := some (9, 0, 0), due := some 200000, queue := [(7, 0)] }, 9, 0, 0, (7, 0),
      by decide +kernel⟩,
    ⟨leafBAt 1 { BrkSt.fresh with abort := some (9, 0, 0), queue := [(9, 0)] }, 9, 0, 0, by decide +kernel⟩,
    ⟨leafBAt 8 { BrkSt.fresh with drain := some (9, 0, 199999, 0) }, 9, 0, 199999, 0, by decide +kernel⟩,
    ⟨leafBAt 33 { BrkSt.fresh with abort := some (9, 0, 0) }, 9, 0, 0, by decide +kernel⟩⟩

theorem witness_ContextsDrainAndEnd :
    (∃ (s : State) (c : Nat) (x : Ctx),
    s.draining? c = some x ∧ s.drained x = true) ∧
    (∃ (s : State) (c : Nat) (x : Ctx),
    s.draining? c = some x ∧ s.drained x = false) ∧
    (∃ (s : State) (c : Nat) (x : Ctx),
    s.draining? c = some x ∧ x.endT + nsT 10000000 ≤ s.now) ∧
    (∃ (s : State) (c : Nat) (x : Ctx),
    s.draining? c = some x ∧ s.now < x.endT + nsT 10000000) ∧
    (∃ (s : State) (b : Boundary) (bs : List Boundary),
    s.runsAs .leaf = true ∧ s.sched.past = b :: bs ∧ b.t + nsT 10000 ≤ s.now) ∧
    (∃ (s : State) (b : Boundary) (bs : List Boundary),
    s.runsAs .leaf = true ∧ s.sched.past = b :: bs ∧ s.now < b.t + nsT 10000) :=
  ⟨⟨draining0 tray0, 1, { Ctx.fresh 1 with life := .draining 5, endB := 7, endT := 2 * secT - nsT 10000000 },
    by decide +kernel⟩,
    ⟨{ draining0 tray0 with captOut := [{ ctx := 1, q := 0, addr := 0, expect := 0, bytes := [] }] }, 1,
      { Ctx.fresh 1 with life := .draining 5, endB := 7, endT := 2 * secT - nsT 10000000 }, by decide +kernel⟩,
    ⟨draining0 tray0, 1, { Ctx.fresh 1 with life := .draining 5, endB := 7, endT := 2 * secT - nsT 10000000 },
      by decide +kernel⟩,
    ⟨{ draining0 tray0 with tim := { TimeSt.fresh with now := { sec := 1, ns := 999999999, frac := 0 } } }, 1,
      { Ctx.fresh 1 with life := .draining 5, endB := 7, endT := 2 * secT - nsT 10000000 }, by decide +kernel⟩,
    ⟨epoch7 leaf0, past0, [], by decide +kernel⟩,
    ⟨{ epoch7 leaf0 with tim := { TimeSt.fresh with now := { sec := 1, ns := 9999, frac := 0xFFFFFFFF } } }, past0,
      [], by decide +kernel⟩⟩

theorem witness_HangsAreFencedAndReset :
    (∃ (s : State) (u : UnitSample) (h : HangRun) (uc : UnitClass),
    s.hangs.find? (fun h => h.cls == u.cls && h.idx == u.idx) = some h ∧ s.unit? u.cls = some uc ∧
      s.cfg.hangEpochs + 1 ≤ h.run ∧ uc.fenced.any (·.1 == u.idx) = false ∧ u.idx ∉ uc.retired ∧
      s.recurs u.cls u.idx = false) ∧
    (∃ (s : State) (u : UnitSample) (h : HangRun),
    s.hangs.find? (fun h => h.cls == u.cls && h.idx == u.idx) = some h ∧ h.run ≤ s.cfg.hangEpochs) ∧
    (∃ (s : State) (cls : Nat) (idx : Nat) (u : UnitClass),
    s.unit? cls = some u ∧ u.fenced.any (·.1 == idx) = true ∧ s.stw.resetDue = none) ∧
    (∃ (s : State) (cls : Nat) (idx : Nat) (u : UnitClass),
    s.unit? cls = some u ∧ u.fenced.any (·.1 == idx) = false) :=
  ⟨⟨hung0 9 tray0, sampleOf 1 2, { cls := 1, idx := 2, prog := 3, run := 9, ctx := some 0 }, UnitClass.built (1, 64,
    4), by decide +kernel⟩,
    ⟨hung0 8 tray0, sampleOf 1 2, { cls := 1, idx := 2, prog := 3, run := 8, ctx := some 0 }, by decide +kernel⟩,
    ⟨{ tray0 with err := { ErrSt.fresh .tray with units := [fenced0] } }, 1, 2, fenced0, by decide +kernel⟩,
    ⟨tray0, 1, 2, UnitClass.built (1, 64, 4), by decide +kernel⟩⟩

theorem witness_MailboxTurnsTakePosts :
    (∃ (s : State),
    s.stw.scanning = false) ∧
    (∃ (s : State) (m : Mbx),
    s.stw.scanning = true ∧ s.mbx? (turnMailbox s.cfg.shareCount s.stw.turn) = some m ∧ m.waiting = []) ∧
    (∃ (s : State) (m : Mbx) (host : HostView) (b : Bytes),
    (let n := turnMailbox s.cfg.shareCount (s.stw.turn - 1);
    s.slotBytes n m.h host = some b ∧ s.mayDraw 4 = true ∧ s.stw.scanning = true ∧ s.mbx? n = some m ∧
      m.running = none ∧ m.waiting.length < 16 ∧ s.postMatches m b = true ∧ s.slotStatus n b = none ∧
      s.resumeStatus b = none ∧ s.noReturn n = false)) ∧
    (∃ (s : State) (m : Mbx) (host : HostView) (b : Bytes) (e : Nat),
    (let n := turnMailbox s.cfg.shareCount (s.stw.turn - 1);
    s.slotBytes n m.h host = some b ∧ s.mayDraw 4 = true ∧ s.stw.scanning = true ∧ s.mbx? n = some m ∧
      m.running = none ∧ m.waiting.length < 16 ∧ s.postMatches m b = true ∧ s.slotStatus n b = some e ∧
      s.noReturn n = false)) ∧
    (∃ (s : State) (m : Mbx) (host : HostView),
    (let n := turnMailbox s.cfg.shareCount (s.stw.turn - 1);
    s.stw.scanning = true ∧ s.mbx? n = some m ∧ ((∀ b, s.slotBytes n m.h host = some b →
      s.postMatches m b = false)))) ∧
    (∃ (s : State) (src : NetSource) (p : Bytes) (slot : Nat),
    s.runsAs .tray = true ∧ s.straps.mgmtEn = true ∧ ((src.addr ∈ s.cfg.mgmtSources ∨ s.mode = .bivouac ∧
      s.cfg.hasMgmt = false)) ∧ p.length = 260 ∧ fld p 0 4 = slot ∧ slot < 64 ∧ Memory.wf s.mem.hbm = true ∧
      (s.region 4).1 % 64 = 0) ∧
    (∃ (s : State) (src : NetSource) (p : Bytes),
    s.runsAs .tray = true ∧ ((s.straps.mgmtEn = false ∨ p.length ≠ 260 ∨ 64 ≤ fld p 0 4 ∨
      src.addr ∉ s.cfg.mgmtSources ∧ (s.mode ≠ .bivouac ∨ s.cfg.hasMgmt = true)))) ∧
    (∃ (s : State) (b : Boundary) (bs : List Boundary),
    s.sched.past = b :: bs ∧ s.stw.scanning = true ∧ b.t + nsT 60000 ≤ s.now ∧ b.k % max 1 s.cfg.statusEpochs = 0) ∧
    (∃ (s : State) (b : Boundary) (bs : List Boundary),
    s.sched.past = b :: bs ∧ s.now < b.t + nsT 60000) :=
  ⟨⟨tray0, by decide +kernel⟩,
    ⟨leafPost, Mbx.fresh 0, by decide +kernel⟩,
    ⟨leafPost, Mbx.fresh 16, hostWith 0x5000 (postBytes 0x0106 (le 2 0x100)), postBytes 0x0106 (le 2 0x100),
      by decide +kernel⟩,
    ⟨leafPost, Mbx.fresh 16, hostWith 0x5000 (postBytes 0x0301 []), postBytes 0x0301 [], stWRONG_MAILBOX,
      by decide +kernel⟩,
    ⟨leafPost, Mbx.fresh 16, hostWith 0 [], by decide +kernel⟩,
    ⟨mgmt0, net0, le 4 63 ++ List.replicate 256 1, 63, by decide +kernel⟩,
    ⟨tray0, net0, [], by decide +kernel⟩,
    ⟨{ leafPost with cfg := { Cfg.default with retBase16 := 0x8000, statusEpochs := 7 } }, past0, [],
      by decide +kernel⟩,
    ⟨{ leafPost with tim := { TimeSt.fresh with now := { sec := 1, ns := 59999, frac := 0 } } }, past0, [],
      by decide +kernel⟩⟩

theorem witness_TwinsStartAttachAndRelay :
    (∃ (s : State),
    s.profile = .tray ∧ s.mode = .starting ∧ s.tim.state.settable = false ∧
      s.stw.bnd.any (fun x => x.act == .teamStart && x.echoed) = false ∧
      s.twin.startSince + nsT s.cfg.startWaitNs ≤ s.now ∧
      ((s.cfg.side = .a ∨ (s.red.reports.any fun r => r.2.1 == 5 && r.2.2 == 0) = false ∧
      ∀ t, s.twin.sideASeen = some t → t + nsT s.cfg.startWaitNs ≤ s.now))) ∧
    (∃ (s : State),
    s.profile = .tray ∧ s.mode ≠ .starting) ∧
    (∃ (s : State) (a : Attach) (copy : TwinCopy),
    s.runsAs .tray = true ∧ copy ≠ .refused ∧ s.twin.attach = some a ∧ a.carrier = true ∧ a.phase = .config) ∧
    (∃ (s : State) (a : Attach) (copy : TwinCopy),
    s.runsAs .tray = true ∧ copy ≠ .refused ∧ s.twin.attach = some a ∧ a.carrier = true ∧ a.phase = .config) ∧
    (∃ (s : State) (n : Nat) (m : Mbx) (c : Cmd),
    s.runsAs .tray = true ∧ s.mbx? n = some m ∧ m.waiting.find? (fun c => c.wait == .echo && !c.echoed) = some c ∧
      c.op ≠ 0x0903) ∧
    (∃ (s : State),
    s.runsAs .tray = true) ∧
    (∃ (s : State) (b : Nat),
    s.runsAs .tray = true ∧ b ≠ 0) ∧
    (∃ (s : State),
    s.runsAs .tray = true) ∧
    (∃ (s : State),
    s.profile = .leaf) ∧
    (∃ (s : State) (c : Nat),
    s.profile = .leaf ∧ s.isActive c = false) ∧
    (∃ (s : State) (c : Nat) (op : Nat) (p : Bytes) (img : Bytes) (a : Bnd) (r : Bytes),
    s.profile = .leaf ∧ s.isActive c = true ∧ imageEffect c op p img s = .bnd a r) ∧
    (∃ (s : State) (n : Nat) (leaf : Nat) (m : Mbx) (c : Cmd) (x : Nat) (y : Nat) (l : List Nat),
    s.profile = .tray ∧ s.mbx? n = some m ∧ m.waiting = [c] ∧ c.wait = .leaves (x :: y :: l) ∧ leaf = x ∧
      x ∉ y :: l) :=
  ⟨⟨{ epoch7 tray0 with mode := .starting, tim := { at2s with state := .locked }, cfg := { Cfg.default with startWaitNs := 2000000000 } },
    by decide +kernel, by decide +kernel, by decide +kernel, by decide +kernel, by decide +kernel, .inl rfl⟩,
    ⟨tray0, by decide +kernel⟩,
    ⟨{ tray0 with twin := { TwinSt.fresh with attach := some attach0 } }, attach0, .none, by decide +kernel⟩,
    ⟨{ tray0 with twin := { TwinSt.fresh with attach := some attach0 } }, attach0, .none, by decide +kernel⟩,
    ⟨waiting0 16 [{ cmd0 0x0901 [] with wait := .echo }] tray0, 16,
      { Mbx.fresh 16 with waiting := [{ cmd0 0x0901 [] with wait := .echo }] }, { cmd0 0x0901 [] with wait := .echo },
      by decide +kernel⟩,
    ⟨tray0, by decide +kernel⟩,
    ⟨{ tray0 with stw := { StwSt.fresh with bnd := [⟨9, .teamStart, false, 0⟩] } }, 9, by decide +kernel⟩,
    ⟨tray0, by decide +kernel⟩,
    ⟨leaf0, by decide +kernel⟩,
    ⟨leaf0, 1, by decide +kernel⟩,
    ⟨withRow row0 (epoch7 leaf0), 0, 0x0704, zeros 36 ++ le 2 2, [], .rows 2 [], zeros 16, by decide +kernel,
      by decide +kernel, rfl⟩,
    ⟨waiting0 16 [{ cmd0 0x0704 [] with wait := .leaves [1, 2], result := zeros 20 }] tray0, 16, 1,
      { Mbx.fresh 16 with waiting := [{ cmd0 0x0704 [] with wait := .leaves [1, 2], result := zeros 20 }] },
      { cmd0 0x0704 [] with wait := .leaves [1, 2], result := zeros 20 }, 1, 2, [], by decide +kernel⟩⟩

theorem witness_RecorderPeriodsAndFlash :
    (∃ (s : State),
    s.runsAs .tray = true ∧ s.optime % (16 * s.evr.period) = 0 ∧ s.evr.optStart < s.optime) ∧
    (∃ (s : State),
    s.runsAs .tray = true ∧ s.optime % (16 * s.evr.period) ≠ 0) ∧
    (∃ (s : State) (b : Bytes),
    s.runsAs .tray = true ∧ s.evr.waiting = some b) ∧
    (∃ (s : State) (b : Bytes) (f : FlashAnswer),
    s.runsAs .tray = true ∧ s.evr.waiting = some b ∧ f ≠ .ok) ∧
    (∃ (s : State),
    s.runsAs .tray = true ∧ s.optime % 960 = 0 ∧ s.stw.scanning = true ∧ s.optime < 2 ^ 48 ∧ ((∀ e ∈ s.flash.clock,
      e.valid = true → e.kind = 2 → e.pcyc = s.evr.pcyc → e.optime ≠ s.optime))) ∧
    (∃ (s : State),
    s.runsAs .tray = true ∧ s.optime % 960 ≠ 0) ∧
    (∃ (s : State),
    s.runsAs .tray = true ∧ s.optime % 16 = 0) ∧
    (∃ (s : State),
    s.runsAs .leaf = true ∧ 64 * (s.otpBits 80 48 + 1) ≤ s.opHours ∧ s.otpBits 80 48 < 1536) ∧
    (∃ (s : State),
    s.runsAs .leaf = true ∧ s.opHours < 64 * (s.otpBits 80 48 + 1)) ∧
    (∃ (s : State) (t : Nat),
    s.boot.runFrom = some t ∧ t + 57600 ≤ s.optime ∧ s.mode ≠ .bivouac ∧ s.boot.cause.getLsbD 27 = false ∧
      s.boot.cause.getLsbD 26 = false ∧ s.boot.cause.getLsbD 25 = false ∧ s.otpSvn < s.ident.svn.toNat) :=
  ⟨⟨{ tray0 with optime := 57600 }, by decide +kernel⟩,
    ⟨{ tray0 with optime := 57601 }, by decide +kernel⟩,
    ⟨{ tray0 with evr := { EvrSt.fresh with waiting := some [1, 2] } }, [1, 2], by decide +kernel⟩,
    ⟨{ tray0 with evr := { EvrSt.fresh with waiting := some [1, 2] } }, [1, 2], .verifyFail, by decide +kernel⟩,
    ⟨{ tray0 with optime := 960, stw := { StwSt.fresh with scanning := true } }, by decide +kernel⟩,
    ⟨{ tray0 with optime := 959 }, by decide +kernel⟩,
    ⟨{ tray0 with optime := 16 }, by decide +kernel⟩,
    ⟨{ leaf0 with optime := 57600 * 64 }, by decide +kernel⟩,
    ⟨{ leaf0 with optime := 57600 * 64 - 1 }, by decide +kernel⟩,
    ⟨{ leaf0 with optime := 57600, boot := { BootSt.fresh with runFrom := some 0 }, ident := { IdSt.fresh with svn := 1 } },
      0, by decide +kernel⟩⟩

theorem witness_AgeingPointAndMargin :
    (∃ (s : State),
    s.age.lastHour < s.ageHour) ∧
    (∃ (s : State),
    s.ageHour ≤ s.age.lastHour) ∧
    (∃ (s : State) (step : Int) (t : Ticks),
    s.age.req = some (step, t) ∧ s.age.restore = 0) ∧
    (∃ (s : State) (step : Int) (t : Ticks),
    s.age.req = some (step, t) ∧ s.age.restore = 0) ∧
    (∃ (s : State) (step : Int) (t : Ticks),
    s.age.req = some (step, t) ∧ s.age.restore = 0 ∧ t + nsT 1000000 ≤ s.now) ∧
    (∃ (s : State) (step : Int) (t : Ticks),
    s.age.req = some (step, t) ∧ s.now < t + nsT 1000000) ∧
    (∃ (s : State),
    64 ≤ s.age.critRun ∧ s.age.vmApplied < s.cfg.vmMax ∧ s.age.req = none ∧ s.age.refused = none ∧ ((∀ t,
      s.age.lastStep = some t → t + 60 * secT ≤ s.now))) ∧
    (∃ (s : State),
    ((s.age.critRun < 64 ∨ s.age.refused.isSome = true))) :=
  ⟨⟨{ leafAge AgeSt.fresh with tim := { TimeSt.fresh with now := { sec := 7260, ns := 0, frac := 0 } } },
    by decide +kernel⟩,
    ⟨leafAge AgeSt.fresh, by decide +kernel⟩,
    ⟨leafAge { AgeSt.fresh with req := some (1, 0) }, 1, 0, by decide +kernel⟩,
    ⟨leafAge { AgeSt.fresh with req := some (1, 0) }, 1, 0, by decide +kernel⟩,
    ⟨leafAge { AgeSt.fresh with req := some (-1, 2 * secT - nsT 1000000) }, -1, 2 * secT - nsT 1000000,
      by decide +kernel⟩,
    ⟨leafAge { AgeSt.fresh with req := some (-1, 2 * secT - nsT 999999) }, -1, 2 * secT - nsT 999999,
      by decide +kernel⟩,
    ⟨leafAge { AgeSt.fresh with critRun := 64, vmApplied := 39 }, by decide +kernel, by decide +kernel,
      by decide +kernel, by decide +kernel, (fun t h => by simp [leafAge, AgeSt.fresh] at h)⟩,
    ⟨leafAge { AgeSt.fresh with critRun := 63 }, by decide +kernel⟩⟩

theorem witness_FabricStoresAndTallies :
    (∃ (s : State) (src : FabSource) (a : Nat) (l : Bytes) (base : Nat),
    s.runsAs .tray = true ∧ s.fab.base = some base ∧ l.length = 64 ∧ a % 64 = 0 ∧
      ((src.ctx = 0 ∨ s.heldId src.ctx = true)) ∧ a < 2 ^ 40 ∧ s.inPart src.ctx a = true ∧ s.isActive src.ctx = true ∧
      s.tally? a = none ∧ s.fab.recent = [] ∧ Memory.wf s.mem.hbm = true) ∧
    (∃ (s : State) (src : FabSource) (a : Nat) (base : Nat) (x : StoreSeen),
    s.runsAs .tray = true ∧ s.fab.base = some base ∧ a % 64 = 0 ∧ ((src.ctx = 0 ∨ s.heldId src.ctx = true)) ∧
      a < 2 ^ 40 ∧ s.inPart src.ctx a = true ∧ s.isActive src.ctx = true ∧ s.tally? a = none ∧ s.fab.recent = [x] ∧
      x.line = a ∧ x.src ≠ src.source ∧ x.logged = false ∧ s.now ≤ x.at_ + nsT 1000 ∧ s.fab.clogPos + 2 ≤ 65535 ∧
      Memory.wf s.mem.hbm = true) ∧
    (∃ (s : State) (src : FabSource) (a : Nat) (base : Nat),
    s.runsAs .tray = true ∧ s.fab.base = some base ∧ a % 8 = 0 ∧ ((src.ctx = 0 ∨ s.heldId src.ctx = true)) ∧
      a < 2 ^ 40 ∧ s.inPart src.ctx a = true ∧ s.isActive src.ctx = true ∧ s.tally? a = none ∧
      Memory.wf s.mem.hbm = true) ∧
    (∃ (s : State) (src : FabSource) (a : Nat) (base : Nat) (t : Tally),
    s.runsAs .tray = true ∧ s.fab.base = some base ∧ ((src.ctx = 0 ∨ s.heldId src.ctx = true)) ∧ a < 2 ^ 40 ∧
      s.inPart src.ctx a = true ∧ s.isActive src.ctx = true ∧ s.tally? a = some t ∧ s.passes src) ∧
    (∃ (s : State) (src : FabSource) (src' : FabSource) (a : Nat) (base : Nat) (t : Tally),
    s.runsAs .tray = true ∧ s.fab.base = some base ∧ ((src.ctx = 0 ∨ s.heldId src.ctx = true)) ∧
      ((src'.ctx = 0 ∨ s.heldId src'.ctx = true)) ∧ a < 2 ^ 40 ∧ s.inPart src.ctx a = true ∧
      s.isActive src.ctx = true ∧ s.inPart src'.ctx a = true ∧ s.isActive src'.ctx = true ∧ s.tally? a = some t ∧
      s.passes src ∧ s.passes src') ∧
    (∃ (s : State) (src : FabSource) (a : Nat) (op : FabOp) (base : Nat) (t : Tally),
    s.runsAs .tray = true ∧ s.fab.base = some base ∧ ((src.ctx = 0 ∨ s.heldId src.ctx = true)) ∧ a < 2 ^ 40 ∧
      fabAddr op = base + 2 ^ 40 + a ∧ s.inPart src.ctx a = true ∧ s.isActive src.ctx = true ∧ s.tally? a = some t ∧
      src.check.permanent = true) ∧
    (∃ (s : State) (a : Nat) (t : Tally),
    s.runsAs .tray = true ∧ s.tally? a = some t ∧ t.line.length = 64 ∧ Memory.wf s.mem.hbm = true) ∧
    (∃ (s : State),
    s.runsAs .tray = true ∧ s.fab.base = none) ∧
    (∃ (s : State) (src : FabSource) (a : Nat) (base : Nat),
    s.runsAs .tray = true ∧ s.fab.base = some base ∧ ((src.ctx = 0 ∨ s.heldId src.ctx = true)) ∧ a < 2 ^ 40 ∧
      s.inPart src.ctx a = false) :=
  ⟨⟨fab0 [] [], src0 1 0, 0x8000000040, List.replicate 64 5, 2 ^ 41, by decide +kernel⟩,
    ⟨fab0 [] [seen0], src0 1 0, 0x8000000040, 2 ^ 41, seen0, by decide +kernel⟩,
    ⟨fab0 [] [], src0 1 0, 0x8000000038, 2 ^ 41, by decide +kernel⟩,
    ⟨fab0 [tally0] [], src0 1 0, 0x8000000078, 2 ^ 41, tally0, by decide +kernel, by decide +kernel,
      by decide +kernel, by decide +kernel, by decide +kernel, by decide +kernel, by decide +kernel,
      by unfold State.passes; decide +kernel⟩,
    ⟨fab0 [tally0] [], src0 1 0, src0 2 0, 0x8000000040, 2 ^ 41, tally0, by decide +kernel, by decide +kernel,
      by decide +kernel, by decide +kernel, by decide +kernel, by decide +kernel, by decide +kernel,
      by decide +kernel, by decide +kernel, by decide +kernel, by unfold State.passes; decide +kernel,
      by unfold State.passes; decide +kernel⟩,
    ⟨fab0 [tally0] [], badSrc0, 0x8000000040, .fadd (2 ^ 41 + 2 ^ 40 + 0x8000000040) 5, 2 ^ 41, tally0,
      by decide +kernel⟩,
    ⟨fab0 [tally0] [], 0x8000000040, tally0, by decide +kernel⟩,
    ⟨tray0, by decide +kernel⟩,
    ⟨fab0 [] [], src0 1 0, 0xF000000000, 2 ^ 41, by decide +kernel⟩⟩

theorem witness_RegisterWindows :
    (∃ (s : State) (src : FabSource) (off : Nat),
    s.runsAs .tray = true ∧ src.ctx = 0 ∧ off < 0x40000 ∧ off % 64 = 0) ∧
    (∃ (s : State) (src : FabSource) (a : Nat),
    s.runsAs .tray = true ∧ src.ctx = 0 ∧ a < 0x40000 ∧ a % 4 = 0) ∧
    (∃ (s : State) (src : FabSource) (l : Bytes),
    s.runsAs .tray = true ∧ src.ctx = 0 ∧ isZero (slice l 4 60) = false) ∧
    (∃ (s : State) (src : FabSource),
    s.runsAs .tray = true ∧ src.ctx ≠ 0) ∧
    (∃ (s : State),
    s.profile = .tray ∧ s.clocked = false) :=
  ⟨⟨tray0, src0 1 0, 0x3FFC0, by decide +kernel⟩,
    ⟨tray0, src0 1 0, 0x3FFFC, by decide +kernel⟩,
    ⟨tray0, src0 1 0, zeros 4 ++ [1], by decide +kernel⟩,
    ⟨tray0, src0 1 1, by decide +kernel⟩,
    ⟨{ tray0 with mode := .reset }, by decide +kernel⟩⟩

theorem witness_RegisterPaths :
    (∃ (s : State) (p : Path) (a : Nat) (n : Nat) (v : Nat),
    s.serves p = true ∧ a < 2 ^ 18 ∧ s.wideReg a = some (a, n, v)) ∧
    (∃ (s : State) (p : Path),
    s.runsAs .tray = true ∧ s.serves p = true) ∧
    (∃ (s : State) (i : Nat),
    s.runsAs .tray = true ∧ i < 64) ∧
    (∃ (s : State) (a : Nat),
    s.profile = .leaf ∧ s.mode ≠ .off ∧ s.sb.dead = false ∧ s.inReset = false ∧ a < 2 ^ 18) ∧
    (∃ (s : State) (op : SbOp),
    s.profile = .leaf ∧ s.mode ≠ .off ∧ s.sb.dead = false ∧ s.inReset = true ∧ op ≠ .failed) ∧
    (∃ (s : State) (op : SbOp),
    s.profile = .leaf ∧ s.mode ≠ .off ∧ ((op = .failed ∨ s.sb.dead = true))) ∧
    (∃ (s : State) (p : Path),
    p ≠ .regRead ∧ s.serves p = true) :=
  ⟨⟨tray0, .fabric, 0x200, 4, 0, by decide +kernel⟩,
    ⟨tray0, .fabric, by decide +kernel⟩,
    ⟨tray0, 63, by decide +kernel⟩,
    ⟨leaf0, 0x3FFFC, by decide +kernel⟩,
    ⟨{ leaf0 with mode := .reset }, .read, by decide +kernel⟩,
    ⟨leaf0, .failed, by decide +kernel⟩,
    ⟨tray0, .fabric, by decide +kernel⟩⟩

theorem witness_CompletionsAnswerCommands :
    (∃ (s : State) (n : Nat) (m : Mbx),
    s.mbx? n = some m) ∧
    (∃ (s : State) (n : Nat) (m : Mbx),
    s.mbx? n = some m) :=
  ⟨⟨running0 3 (cmd0 1 []) tray0, 3, { Mbx.fresh 3 with running := some (cmd0 1 []) }, by decide +kernel⟩,
    ⟨running0 3 (cmd0 1 []) tray0, 3, { Mbx.fresh 3 with running := some (cmd0 1 []) }, by decide +kernel⟩⟩

theorem witness_MailboxBasics :
    (∃ (s : State) (m : Nat) (c : Cmd),
    s.runsAs .tray = true ∧ s.runs m 0x0101 c ∧ unnamedZero c.payload [(0, 8)] = true ∧ fld c.payload 0 8 % 4096 = 0 ∧
      fld c.payload 0 8 < 2 ^ 52) ∧
    (∃ (s : State) (m : Nat) (c : Cmd) (n : Nat),
    s.runs m 0x0106 c ∧ n = fld c.payload 0 4 ∧ 1 ≤ n ∧ n ≤ 30 ∧ unnamedZero c.payload [(0, 4 + 4 * n)] = true ∧
      (regAddrs c.payload).all s.mapped = true) ∧
    (∃ (s : State) (m : Nat) (c : Cmd) (a : Nat),
    s.runs m 0x0106 c ∧ a ∈ regAddrs c.payload ∧ s.mapped a = false) ∧
    (∃ (s : State) (m : Nat) (c : Cmd),
    s.runsAs .tray = true ∧ s.runs m 0x0B02 c ∧ unnamedZero c.payload [(0, 4)] = true) ∧
    (∃ (s : State) (m : Nat) (c : Cmd) (r : RingRec),
    s.runsAs .tray = true ∧ s.runs m 0x0B01 c ∧ unnamedZero c.payload [(0, 4), (8, 8)] = true ∧
      fld c.payload 8 8 % 4096 = 0 ∧ s.validRecs[fld c.payload 0 4]? = some r) ∧
    (∃ (s : State) (m : Nat) (c : Cmd),
    s.runsAs .tray = true ∧ s.runs m 0x0B01 c ∧ unnamedZero c.payload [(0, 4), (8, 8)] = true ∧
      fld c.payload 8 8 % 4096 = 0 ∧ s.validRecs.length ≤ fld c.payload 0 4) ∧
    (∃ (s : State) (m : Nat) (c : Cmd) (b : Bytes),
    s.runs m 0x0C01 c ∧ unnamedZero c.payload [(0, 1), (8, 12)] = true ∧ s.certItem (fld c.payload 0 1) = some b ∧
      fld c.payload 8 8 % 4096 = 0) ∧
    (∃ (s : State) (m : Nat) (c : Cmd),
    s.runs m 0x0C02 c ∧ unnamedZero c.payload [(0, 60)] = true ∧ fld c.payload 48 8 % 4096 = 0) :=
  ⟨⟨running0 3 (run0 0x0101 (le 8 0x7000)) (scheduled tray0), 3, run0 0x0101 (le 8 0x7000), by decide +kernel, ⟨_,
    rfl, rfl, rfl⟩, by decide +kernel⟩,
    ⟨running0 3 (run0 0x0106 (le 4 2 ++ le 4 0x200 ++ le 4 0x204)) (scheduled tray0), 3,
      run0 0x0106 (le 4 2 ++ le 4 0x200 ++ le 4 0x204), 2, ⟨_, rfl, rfl, rfl⟩, by decide +kernel⟩,
    ⟨running0 3 (run0 0x0106 (le 4 1 ++ le 4 0x201)) (scheduled tray0), 3, run0 0x0106 (le 4 1 ++ le 4 0x201), 0x201,
      ⟨_, rfl, rfl, rfl⟩, by decide +kernel⟩,
    ⟨running0 0 (run0 0x0B02 (le 4 600)) (scheduled tray0), 0, run0 0x0B02 (le 4 600), by decide +kernel, ⟨_, rfl,
      rfl, rfl⟩, by decide +kernel⟩,
    ⟨running0 0 (run0 0x0B01 (le 4 0 ++ zeros 4 ++ le 8 0x3000)) ({ scheduled tray0 with flash := { FlashSt.blank with ring := [ringRec0] } }),
      0, run0 0x0B01 (le 4 0 ++ zeros 4 ++ le 8 0x3000), ringRec0, by decide +kernel, ⟨_, rfl, rfl, rfl⟩,
      by decide +kernel⟩,
    ⟨running0 0 (run0 0x0B01 (le 4 1 ++ zeros 4 ++ le 8 0x3000)) ({ scheduled tray0 with flash := { FlashSt.blank with ring := [ringRec0] } }),
      0, run0 0x0B01 (le 4 1 ++ zeros 4 ++ le 8 0x3000), by decide +kernel, ⟨_, rfl, rfl, rfl⟩, by decide +kernel⟩,
    ⟨running0 3 (run0 0x0C01 (le 4 2 ++ zeros 4 ++ le 8 0x3000 ++ le 4 8)) ({ scheduled tray0 with ident := { IdSt.fresh with aliasCert := zeros 9 } }),
      3, run0 0x0C01 (le 4 2 ++ zeros 4 ++ le 8 0x3000 ++ le 4 8), zeros 9, ⟨_, rfl, rfl, rfl⟩, by decide +kernel⟩,
    ⟨running0 3 (run0 0x0C02 (zeros 48 ++ le 8 0x3000 ++ le 4 352)) (scheduled tray0), 3,
      run0 0x0C02 (zeros 48 ++ le 8 0x3000 ++ le 4 352), ⟨_, rfl, rfl, rfl⟩, by decide +kernel⟩⟩

theorem witness_StoresAndActivation :
    (∃ (s : State) (m : Nat) (c : Cmd),
    s.runsAs .tray = true ∧ s.runs m 0x0102 c ∧ s.flash.cfg.length = 2 ∧ (let i := spareCopy s.boot.cfgCopy;
    (let old := nth s.flash.cfg i emptyCfg;
    flashPartCheck m (2 ^ 23) old.bytes.length old.len c s = none ∧ nextBlock (flashCursor c) (readPart c.payload) <
      (readPart c.payload).pos + (readPart c.payload).len))) ∧
    (∃ (s : State) (m : Nat) (c : Cmd),
    s.runsAs .tray = true ∧ s.runs m 0x0102 c ∧ s.flash.cfg.length = 2 ∧ (let i := spareCopy s.boot.cfgCopy;
    (let old := nth s.flash.cfg i emptyCfg;
    (let p := readPart c.payload;
    flashPartCheck m (2 ^ 23) old.bytes.length old.len c s = none ∧ nextBlock (flashCursor c) p = p.pos + p.len ∧
      p.last = true)))) ∧
    (∃ (s : State) (m : Nat) (c : Cmd),
    s.runsAs .tray = true ∧ s.runs m 0x0104 c ∧ s.flash.fw.length = 2 ∧ (let i := spareCopy s.boot.fwCopy;
    (let old := nth s.flash.fw i emptyFw;
    (let p := readPart c.payload;
    flashPartCheck m (2 ^ 23 - 64) old.bytes.length old.len c s = none ∧
      nextBlock (flashCursor c) p = p.pos + p.len)))) ∧
    (∃ (s : State) (m : Nat) (c : Cmd) (k : FwCopy),
    s.runsAs .tray = true ∧ s.runs m 0x0105 c ∧ s.flash.fw.length = 2 ∧ unnamedZero c.payload [(0, 1)] = true ∧
      fld c.payload 0 1 < 2 ∧ s.boot.fwCopy = some 0 ∧ s.flash.fw[1]? = some k ∧ k.whole = true) ∧
    (∃ (s : State) (m : Nat) (c : Cmd),
    s.runsAs .tray = true ∧ s.runs m 0x0105 c ∧ unnamedZero c.payload [(0, 1)] = true ∧ fld c.payload 0 1 < 2 ∧
      (nth s.flash.fw (spareCopy s.boot.fwCopy) emptyFw).whole = false) ∧
    (∃ (s : State) (m : Nat) (c : Cmd) (x : Nat × CfgCopy),
    s.runsAs .tray = true ∧ s.runs m 0x0103 c ∧ unnamedZero c.payload [(0, 1), (8, 12)] = true ∧
      fld c.payload 0 1 = 0 ∧ storedCfg s.flash.cfg = some x) :=
  ⟨⟨running0 3 (run0 0x0102 (part0 65600 0 131072 0 [])) (flash0), 3, run0 0x0102 (part0 65600 0 131072 0 []),
    by decide +kernel, ⟨_, rfl, rfl, rfl⟩, by decide +kernel⟩,
    ⟨running0 3 (run0 0x0102 (part0 384 0 384 1 [])) (flash0), 3, run0 0x0102 (part0 384 0 384 1 []),
      by decide +kernel, ⟨_, rfl, rfl, rfl⟩, by decide +kernel⟩,
    ⟨running0 3 (run0 0x0104 (part0 64 0 384 0 [])) (flash0), 3, run0 0x0104 (part0 64 0 384 0 []), by decide +kernel,
      ⟨_, rfl, rfl, rfl⟩, by decide +kernel⟩,
    ⟨running0 3 (run0 0x0105 (le 1 1)) (flash0), 3, run0 0x0105 (le 1 1),
      { bytes := [], whole := true, act := none, owner := none }, by decide +kernel, ⟨_, rfl, rfl, rfl⟩,
      by decide +kernel⟩,
    ⟨running0 3 (run0 0x0105 (le 1 1)) ({ flash0 with flash := FlashSt.blank }), 3, run0 0x0105 (le 1 1),
      by decide +kernel, ⟨_, rfl, rfl, rfl⟩, by decide +kernel⟩,
    ⟨running0 3 (run0 0x0103 ([])) (flash0), 3, run0 0x0103 ([]), (1, cfgCopy0), by decide +kernel, ⟨_, rfl, rfl,
      rfl⟩, by decide +kernel⟩⟩

theorem witness_ResetDumpAndTwinCommands :
    (∃ (s : State) (m : Nat) (c : Cmd),
    s.runs m 0x0D01 c ∧ unnamedZero c.payload [(0, 1)] = true ∧ fld c.payload 0 1 = 0) ∧
    (∃ (s : State) (m : Nat) (c : Cmd),
    s.runs m 0x0D01 c ∧ unnamedZero c.payload [(0, 1)] = true ∧ fld c.payload 0 1 = 1 ∧ s.twinCarries = false) ∧
    (∃ (s : State) (m : Nat) (c : Cmd),
    s.runs m 0x0D02 c ∧ unnamedZero c.payload [(0, 16)] = true ∧ fld c.payload 0 8 % 4096 = 0 ∧
      64 ≤ fld c.payload 8 8 ∧ c.cursor = 0 ∧ s.sticky.rstHang.getLsbD 9 = false) ∧
    (∃ (s : State) (m : Nat) (c : Cmd) (f : Nat),
    s.runsAs .tray = true ∧ s.runs m 0x0D03 c ∧ unnamedZero c.payload [(0, 1)] = true ∧ fld c.payload 0 1 = f ∧
      f < 2 ∧ s.twinCarries = true) ∧
    (∃ (s : State) (m : Nat) (c : Cmd),
    s.runsAs .tray = true ∧ s.runs m 0x0D03 c ∧ unnamedZero c.payload [(0, 1)] = true ∧ fld c.payload 0 1 < 2 ∧
      s.twinCarries = false) ∧
    (∃ (s : State) (m : Nat) (c : Cmd),
    s.runsAs .tray = true ∧ s.runs m 0x0D04 c ∧ unnamedZero c.payload [] = true ∧ s.carrying = true ∧
      s.twin.paired = false ∧ s.twinRefusal = none ∧ s.belayUp = true ∧ s.twin.attach = none) ∧
    (∃ (s : State) (m : Nat) (c : Cmd),
    s.runsAs .tray = true ∧ s.runs m 0x0D04 c ∧ unnamedZero c.payload [] = true ∧ s.carrying = true ∧
      s.twin.paired = true) ∧
    (∃ (s : State) (m : Nat) (c : Cmd) (r : Nat),
    s.runsAs .tray = true ∧ s.runs m 0x0D04 c ∧ unnamedZero c.payload [] = true ∧ s.carrying = true ∧
      s.twin.paired = false ∧ s.twinRefusal = some r) :=
  ⟨⟨running0 3 (run0 0x0D01 ([])) (scheduled leaf0), 3, run0 0x0D01 ([]), ⟨_, rfl, rfl, rfl⟩, by decide +kernel⟩,
    ⟨running0 3 (run0 0x0D01 ([1])) (scheduled tray0), 3, run0 0x0D01 ([1]), ⟨_, rfl, rfl, rfl⟩, by decide +kernel⟩,
    ⟨running0 3 (run0 0x0D02 (le 8 0x3000 ++ le 8 4096)) (scheduled tray0), 3, run0 0x0D02 (le 8 0x3000 ++ le 8 4096),
      ⟨_, rfl, rfl, rfl⟩, by decide +kernel⟩,
    ⟨running0 3 (run0 0x0D03 [1]) (paired0 (scheduled tray0)), 3, run0 0x0D03 [1], 1, by decide +kernel, ⟨_, rfl, rfl,
      rfl⟩, by decide +kernel⟩,
    ⟨running0 3 (run0 0x0D03 ([1])) (scheduled tray0), 3, run0 0x0D03 ([1]), by decide +kernel, ⟨_, rfl, rfl, rfl⟩,
      by decide +kernel⟩,
    ⟨running0 3 (run0 0x0D04 ([])) (belay0 (scheduled tray0)), 3, run0 0x0D04 ([]), by decide +kernel, ⟨_, rfl, rfl,
      rfl⟩, by decide +kernel⟩,
    ⟨running0 3 (run0 0x0D04 ([])) (paired0 (scheduled tray0)), 3, run0 0x0D04 ([]), by decide +kernel, ⟨_, rfl, rfl,
      rfl⟩, by decide +kernel⟩,
    ⟨running0 3 (run0 0x0D04 []) { belay0 (scheduled tray0) with twin := { TwinSt.fresh with belayVersion := true } },
      3, run0 0x0D04 [], 1, by decide +kernel, ⟨_, rfl, rfl, rfl⟩, by decide +kernel⟩⟩

theorem witness_TimeAndStopCommands :
    (∃ (s : State) (m : Nat) (c : Cmd),
    s.runsAs .tray = true ∧ s.runs m 0x0201 c ∧ unnamedZero c.payload [(0, 12)] = true ∧ s.grandmasterMember = true ∧
      epochNsOk (fld c.payload 8 4) = true ∧ s.tooSoon c.accepted kindEpochSet (fld c.payload 0 8) 0 = false ∧
      s.answerArm (s.cmdArm m kindEpochSet true (fld c.payload 0 8) 0 0 (s.genOf 0) (BitVec.ofNat 32 (fld c.payload 8 4))) =
      .accept) ∧
    (∃ (s : State) (m : Nat) (c : Cmd),
    s.runsAs .tray = true ∧ s.runs m 0x0201 c ∧ unnamedZero c.payload [(0, 12)] = true) ∧
    (∃ (s : State) (m : Nat) (c : Cmd) (t : ITime) (k : Nat),
    s.runsAs .tray = true ∧ s.runs m 0x0406 c ∧ unnamedZero c.payload [(0, 16)] = true ∧ t = ITime.ofBytes c.payload ∧
      t.malformed = false ∧ s.epochAt t.toTicks = some k ∧ s.tooSoon c.accepted kindStop k t.toBits = false ∧
      s.answerArm (s.cmdArm m kindStop true k t.toBits 0 (s.genOf 0) 0) = .accept) ∧
    (∃ (s : State) (m : Nat) (c : Cmd),
    s.runsAs .tray = true ∧ s.runs m 0x0406 c ∧ unnamedZero c.payload [(0, 16)] = true ∧
      (ITime.ofBytes c.payload).malformed = true) ∧
    (∃ (s : State) (m : Nat) (c : Cmd) (t : ITime),
    s.runsAs .leaf = true ∧ s.runs m 0x0407 c ∧ unnamedZero c.payload [(0, 16)] = true ∧ t = ITime.ofBytes c.payload ∧
      t.malformed = false) :=
  ⟨⟨running0 0 (run0 0x0201 (le 8 100 ++ le 4 250000)) ({ scheduled tray0 with cfg := { Cfg.default with role := .summit } }),
    0, run0 0x0201 (le 8 100 ++ le 4 250000), by decide +kernel, ⟨_, rfl, rfl, rfl⟩, by decide +kernel⟩,
    ⟨running0 0 (run0 0x0201 (le 8 100 ++ le 4 250000)) (scheduled tray0), 0, run0 0x0201 (le 8 100 ++ le 4 250000),
      by decide +kernel, ⟨_, rfl, rfl, rfl⟩, by decide +kernel⟩,
    ⟨running0 0 (run0 0x0406 (timeBytes (2 * secT + nsT 5000000))) ({ scheduled tray0 with cfg := { Cfg.default with role := .summit } }),
      0, run0 0x0406 (timeBytes (2 * secT + nsT 5000000)), ITime.ofBytes (timeBytes (2 * secT + nsT 5000000)), 47,
      by decide +kernel, ⟨_, rfl, rfl, rfl⟩, by decide +kernel⟩,
    ⟨running0 0 (run0 0x0406 (List.replicate 16 255)) ({ scheduled tray0 with cfg := { Cfg.default with role := .summit } }),
      0, run0 0x0406 (List.replicate 16 255), by decide +kernel, ⟨_, rfl, rfl, rfl⟩, by decide +kernel⟩,
    ⟨running0 0 (run0 0x0407 (timeBytes secT)) ({ scheduled leaf0 with stop := stop0 .stopped }), 0,
      run0 0x0407 (timeBytes secT), ITime.ofBytes (timeBytes secT), by decide +kernel, ⟨_, rfl, rfl, rfl⟩,
      by decide +kernel⟩⟩

theorem witness_CaptureTraceAndWatchCommands :
    (∃ (s : State) (m : Nat) (c : Cmd),
    s.runsAs .leaf = true ∧ s.runs m 0x0301 c ∧ sampleCheck (mbxCtx m) c.payload s = none) ∧
    (∃ (s : State) (m : Nat) (c : Cmd) (e : Nat),
    s.runsAs .leaf = true ∧ s.runs m 0x0301 c ∧ sampleCheck (mbxCtx m) c.payload s = some e) ∧
    (∃ (s : State) (m : Nat) (c : Cmd) (st : Stook),
    s.runsAs .leaf = true ∧ s.runs m 0x0302 c ∧ unnamedZero c.payload [(0, 2)] = true ∧
      s.stook? (fld c.payload 0 2 / 256) = some st ∧ fld c.payload 0 2 % 256 < st.obs.length) ∧
    (∃ (s : State) (m : Nat) (c : Cmd) (x : ShareTrc),
    s.runsAs .leaf = true ∧ s.runs m 0x0401 c ∧ unnamedZero c.payload [(0, 34)] = true ∧ fld c.payload 32 2 ≤ 4096 ∧
      ((∀ i, i < 256 → bit (fld c.payload 0 32) i = true → s.coreOwner i = mbxCtx m)) ∧
      s.trc.shares.find? (·.ctx == mbxCtx m) = some x) ∧
    (∃ (s : State) (m : Nat) (c : Cmd) (w : ShareWatch) (f : Nat),
    s.runsAs .leaf = true ∧ s.runs m 0x0402 c ∧ unnamedZero c.payload [(0, 10), (16, 8)] = true ∧
      s.watch? (mbxCtx m) = some w ∧ f = fld c.payload 8 2 ∧ (((f = 0) ∨ (powerIn f 64 4096 = true ∧
      fld c.payload 16 8 ≠ 0 ∧
      fld c.payload 0 8 % 64 = 0 ∧ s.inWindow (mbxCtx m) (fld c.payload 0 8) (64 * f) = true)))) ∧
    (∃ (s : State) (m : Nat) (c : Cmd) (w : ShareWatch),
    s.runsAs .leaf = true ∧ s.runs m 0x0403 c ∧ unnamedZero c.payload [(0, 1), (4, 22), (28, 8)] = true ∧
      fld c.payload 0 1 < 64 / max 1 s.cfg.shareCount ∧ fld c.payload 24 2 ≠ 0 ∧ fld c.payload 28 4 % 64 = 0 ∧
      fld c.payload 32 4 % 64 = 0 ∧ s.watch? (mbxCtx m) = some w) ∧
    (∃ (s : State) (m : Nat) (c : Cmd) (w : ShareWatch),
    s.runsAs .leaf = true ∧ s.runs m 0x0404 c ∧ unnamedZero c.payload [(0, 8)] = true ∧
      s.watch? (mbxCtx m) = some w) ∧
    (∃ (s : State) (m : Nat) (c : Cmd) (core : Nat),
    s.runsAs .leaf = true ∧ s.runs m 0x0405 c ∧ unnamedZero c.payload [(0, 1)] = true ∧ core = fld c.payload 0 1 ∧
      s.drainPending core = false ∧ s.resumeOwner core = mbxCtx m) ∧
    (∃ (s : State) (m : Nat) (c : Cmd),
    s.runsAs .leaf = true ∧ s.runs m 0x0405 c ∧ unnamedZero c.payload [(0, 1)] = true ∧
      s.drainPending (fld c.payload 0 1) = true) :=
  ⟨⟨running0 0 (run0 0x0301 ([1, 1, 0, 0, 3, 0, 1, 0])) (leafK stook0), 0, run0 0x0301 ([1, 1, 0, 0, 3, 0, 1, 0]),
    by decide +kernel, ⟨_, rfl, rfl, rfl⟩, by decide +kernel⟩,
    ⟨running0 0 (run0 0x0301 ([5])) (leafK stook0), 0, run0 0x0301 ([5]), stBAD_FIELD, by decide +kernel, ⟨_, rfl,
      rfl, rfl⟩, by decide +kernel⟩,
    ⟨running0 0 (run0 0x0302 (le 2 769)) (leafK stook0), 0, run0 0x0302 (le 2 769), stook0, by decide +kernel, ⟨_,
      rfl, rfl, rfl⟩, by decide +kernel⟩,
    ⟨running0 0 (run0 0x0401 ([8] ++ zeros 31 ++ le 2 7)) (leafT { TrcSt.fresh with shares := [share0 []] }), 0,
      run0 0x0401 ([8] ++ zeros 31 ++ le 2 7), share0 [], by decide +kernel, ⟨_, rfl, rfl, rfl⟩, by decide +kernel⟩,
    ⟨running0 0 (run0 0x0402 (le 8 0x100000 ++ le 2 64 ++ zeros 6 ++ le 8 0x200000)) (leafW watch0), 0,
      run0 0x0402 (le 8 0x100000 ++ le 2 64 ++ zeros 6 ++ le 8 0x200000), watch0, 64, by decide +kernel, ⟨_, rfl, rfl,
      rfl⟩, by decide +kernel⟩,
    ⟨running0 0 (run0 0x0403 ([1] ++ zeros 3 ++ le 4 7 ++ le 8 2 ++ le 8 1 ++ le 2 1 ++ zeros 2 ++ le 4 64 ++ le 4 64)) (leafW { watch0 with entries := [watchEntry0] }),
      0, run0 0x0403 ([1] ++ zeros 3 ++ le 4 7 ++ le 8 2 ++ le 8 1 ++ le 2 1 ++ zeros 2 ++ le 4 64 ++ le 4 64),
      { watch0 with entries := [watchEntry0] }, by decide +kernel, ⟨_, rfl, rfl, rfl⟩, by decide +kernel⟩,
    ⟨running0 0 (run0 0x0404 ([2])) (leafW { watch0 with entries := [watchEntry0] }), 0, run0 0x0404 ([2]),
      { watch0 with entries := [watchEntry0] }, by decide +kernel, ⟨_, rfl, rfl, rfl⟩, by decide +kernel⟩,
    ⟨running0 0 (run0 0x0405 ([3])) (scheduled leaf0), 0, run0 0x0405 ([3]), 3, by decide +kernel, ⟨_, rfl, rfl, rfl⟩,
      by decide +kernel⟩,
    ⟨running0 0 (run0 0x0405 ([3])) (leafB { BrkSt.fresh with queue := [(3, 0)] }), 0, run0 0x0405 ([3]),
      by decide +kernel, ⟨_, rfl, rfl, rfl⟩, by decide +kernel⟩⟩

theorem witness_ReductionCommands :
    (∃ (s : State) (m : Nat) (c : Cmd) (img : Bytes) (p : Plan),
    wholeImage s m 0x0501 2 c img ∧ parsePlan img = some p ∧ fld c.payload 36 2 = p.planId ∧
      s.planUsed (mbxCtx m) p.planId = false ∧
      ((s.planHeld (mbxCtx m) p.planId = true ∨ (s.red.plans.filter (·.ctx == mbxCtx m)).length < 4))) ∧
    (∃ (s : State) (m : Nat) (c : Cmd) (img : Bytes),
    wholeImage s m 0x0501 2 c img ∧ parsePlan img = none) ∧
    (∃ (s : State) (m : Nat) (c : Cmd) (id : Nat),
    s.runsAs .tray = true ∧ s.runs m 0x0502 c ∧ unnamedZero c.payload [(0, 2), (8, 8)] = true ∧
      id = fld c.payload 0 2 ∧ s.planHeld (mbxCtx m) id = true ∧
      s.tooSoon c.accepted kindPlanSet (fld c.payload 8 8) (BitVec.ofNat 128 id) = false ∧
      s.answerArm (s.cmdArm m kindPlanSet true (fld c.payload 8 8) (BitVec.ofNat 128 id) (mbxCtx m) (s.genOf (mbxCtx m)) 0) =
      .accept) ∧
    (∃ (s : State) (m : Nat) (c : Cmd),
    s.runsAs .tray = true ∧ s.runs m 0x0502 c ∧ unnamedZero c.payload [(0, 2), (8, 8)] = true ∧
      s.planHeld (mbxCtx m) (fld c.payload 0 2) = false) ∧
    (∃ (s : State) (m : Nat) (c : Cmd),
    s.runsAs .tray = true ∧ s.relays = false ∧ s.runs m 0x0503 c ∧ pubCheck (mbxCtx m) c.payload s = none) ∧
    (∃ (s : State) (m : Nat) (c : Cmd),
    s.runsAs .tray = true ∧ s.relays = false ∧ s.runs m 0x0504 c ∧ unnamedZero c.payload [(0, 16)] = true ∧
      fld c.payload 8 8 % 4096 = 0) ∧
    (∃ (s : State) (m : Nat) (c : Cmd),
    s.runsAs .tray = true ∧ s.relays = false ∧ s.runs m 0x0505 c ∧ unnamedZero c.payload [(0, 16)] = true ∧
      powerIn (fld c.payload 8 4) 64 4096 = true ∧ 5 ≤ fld c.payload 12 4) ∧
    (∃ (s : State) (m : Nat) (c : Cmd),
    s.runsAs .tray = true ∧ s.runs m 0x0601 c ∧ tallyCheck (mbxCtx m) c.payload s = none) ∧
    (∃ (s : State) (m : Nat) (c : Cmd) (e : Nat),
    s.runsAs .tray = true ∧ s.runs m 0x0601 c ∧ tallyCheck (mbxCtx m) c.payload s = some e) ∧
    (∃ (s : State) (m : Nat) (c : Cmd) (t : Tally),
    s.runsAs .tray = true ∧ s.runs m 0x0602 c ∧ unnamedZero c.payload [(0, 8)] = true ∧
      s.fab.tallies.find? (fun t => t.ctx == mbxCtx m && t.addr == fld c.payload 0 8) = some t ∧ t.line.length = 64 ∧
      Memory.wf s.mem.hbm = true) :=
  ⟨⟨image0 0x0501 (le 2 5) (planImg0) (scheduled tray0), 0, load0 0x0501 (planImg0).length (le 2 5), planImg0, plan5,
    ⟨rfl, by decide +kernel, ⟨_, rfl, rfl, rfl⟩, by and_intros <;> decide +kernel⟩, by decide +kernel⟩,
    ⟨image0 0x0501 (le 2 5) (zeros 64) (scheduled tray0), 0, load0 0x0501 (zeros 64).length (le 2 5), zeros 64, ⟨rfl,
      by decide +kernel, ⟨_, rfl, rfl, rfl⟩, by and_intros <;> decide +kernel⟩, by decide +kernel⟩,
    ⟨running0 0 (run0 0x0502 (le 2 5 ++ zeros 6 ++ le 8 100)) (planned0 (scheduled tray0)), 0,
      run0 0x0502 (le 2 5 ++ zeros 6 ++ le 8 100), 5, by decide +kernel, ⟨_, rfl, rfl, rfl⟩, by decide +kernel⟩,
    ⟨running0 0 (run0 0x0502 (le 2 5 ++ zeros 6 ++ le 8 100)) (scheduled tray0), 0,
      run0 0x0502 (le 2 5 ++ zeros 6 ++ le 8 100), by decide +kernel, ⟨_, rfl, rfl, rfl⟩, by decide +kernel⟩,
    ⟨running0 0 (run0 0x0503 (le 8 0x7000 ++ le 4 64 ++ le 4 2)) (scheduled tray0), 0,
      run0 0x0503 (le 8 0x7000 ++ le 4 64 ++ le 4 2), by decide +kernel, by decide +kernel, ⟨_, rfl, rfl, rfl⟩,
      by decide +kernel⟩,
    ⟨running0 0 (run0 0x0504 (le 8 0x7000 ++ le 8 0x9000)) (scheduled tray0), 0,
      run0 0x0504 (le 8 0x7000 ++ le 8 0x9000), by decide +kernel, by decide +kernel, ⟨_, rfl, rfl, rfl⟩,
      by decide +kernel⟩,
    ⟨running0 0 (run0 0x0505 (le 8 0x7000 ++ le 4 64 ++ le 4 5)) (scheduled tray0), 0,
      run0 0x0505 (le 8 0x7000 ++ le 4 64 ++ le 4 5), by decide +kernel, by decide +kernel, ⟨_, rfl, rfl, rfl⟩,
      by decide +kernel⟩,
    ⟨running0 0 (run0 0x0601 (le 8 0x8000000040)) (scheduled tray0), 0, run0 0x0601 (le 8 0x8000000040),
      by decide +kernel, ⟨_, rfl, rfl, rfl⟩, by decide +kernel⟩,
    ⟨running0 0 (run0 0x0601 (le 8 0x8000000041)) (scheduled tray0), 0, run0 0x0601 (le 8 0x8000000041), stBAD_FIELD,
      by decide +kernel, ⟨_, rfl, rfl, rfl⟩, by decide +kernel⟩,
    ⟨running0 0 (run0 0x0602 (le 8 0x8000000040)) (fab0 [tally0] []), 0, run0 0x0602 (le 8 0x8000000040), tally0,
      by decide +kernel, ⟨_, rfl, rfl, rfl⟩, by decide +kernel⟩⟩

theorem witness_TableAndModelCommands :
    (∃ (s : State) (m : Nat) (c : Cmd) (img : Bytes),
    wholeImage s m 0x0701 2 c img) ∧
    (∃ (s : State) (m : Nat) (c : Cmd) (img : Bytes) (t : Table),
    wholeImage s m 0x0704 2 c img ∧ s.table? (fld c.payload 36 2) = some t ∧ t.ctx = mbxCtx m ∧
      (rowRecords img).all (rowRecordOk t.img) = true) ∧
    (∃ (s : State) (m : Nat) (c : Cmd) (img : Bytes),
    wholeImage s m 0x0801 2 c img) ∧
    (∃ (s : State) (m : Nat) (c : Cmd) (img : Bytes),
    wholeImage s m 0x0803 0 c img) ∧
    (∃ (s : State) (m : Nat) (c : Cmd) (op : Nat) (x : Instr),
    (op, x) ∈ [(0x0701, Instr.tableLoad m (.fault 0)), (0x0704, .rowLoad m (.fault 0)),
      (0x0801, .modelLoad m (.fault 0))] ∧ s.runsAs .tray = true ∧ s.relays = false ∧ s.runs m op c ∧
        (let p := readPart c.payload;
    partCheck m op 2 c.payload s = none ∧ p.last = false ∧ p.pos = 0 ∧
      s.rangeBad (s.loadAddr m p.src) p.len = false)) ∧
    (∃ (s : State) (m : Nat) (c : Cmd) (t : Table) (k : Ckpt) (area : Option Ckpt),
    s.runsAs .tray = true ∧ s.relays = false ∧ s.runs m 0x0702 c ∧ unnamedZero c.payload [(0, 3), (8, 16)] = true ∧
      s.table? (fld c.payload 0 2) = some t ∧ t.ctx = mbxCtx m ∧ fld c.payload 2 1 = 1 ∧
      s.seedCkpt? (mbxCtx m) (fld c.payload 16 8) area = some k) ∧
    (∃ (s : State) (m : Nat) (c : Cmd),
    s.runsAs .tray = true ∧ s.relays = false ∧ s.runs m 0x0703 c ∧ unnamedZero c.payload [(0, 2)] = true) ∧
    (∃ (s : State) (m : Nat) (c : Cmd) (h : HeldModel),
    s.runsAs .tray = true ∧ s.relays = false ∧ s.runs m 0x0802 c ∧ unnamedZero c.payload [(0, 2)] = true ∧
      s.model? (fld c.payload 0 2) = some h ∧ h.m.ctx = mbxCtx m) ∧
    (∃ (s : State) (m : Nat) (c : Cmd) (t : Table) (area : Option Ckpt),
    s.runsAs .tray = true ∧ s.runs m 0x0702 c ∧ unnamedZero c.payload [(0, 3), (8, 16)] = true ∧
      s.table? (fld c.payload 0 2) = some t ∧ t.ctx = mbxCtx m ∧ fld c.payload 2 1 = 1 ∧
      s.seedCkpt? (mbxCtx m) (fld c.payload 16 8) area = none) ∧
    (∃ (s : State) (m : Nat) (c : Cmd) (t : Table) (r : RingRec) (vs : List (Nat × Int)),
    s.runsAs .tray = true ∧ s.relays = false ∧ s.runs m 0x0702 c ∧ unnamedZero c.payload [(0, 3), (8, 16)] = true ∧
      s.table? (fld c.payload 0 2) = some t ∧ t.ctx = mbxCtx m ∧ fld c.payload 2 1 = 0 ∧ s.latestRec? = some r ∧
      r.bytes.isEmpty = false ∧ seedValues s.cfg r.bytes t.img = some vs) :=
  ⟨⟨image0 0x0701 (le 2 5) (zeros 64) (scheduled tray0), 0, load0 0x0701 (zeros 64).length (le 2 5), zeros 64, ⟨rfl,
    by decide +kernel, ⟨_, rfl, rfl, rfl⟩, by and_intros <;> decide +kernel⟩⟩,
    ⟨image0 0x0704 (le 2 2) (le 4 0x00400001 ++ le 2 3 ++ le 2 1 ++ le 4 9 ++ zeros 52) (tabled0 0 (scheduled tray0)),
      0, load0 0x0704 (le 4 0x00400001 ++ le 2 3 ++ le 2 1 ++ le 4 9 ++ zeros 52).length (le 2 2),
      le 4 0x00400001 ++ le 2 3 ++ le 2 1 ++ le 4 9 ++ zeros 52, tableOf 0, ⟨rfl, by decide +kernel, ⟨_, rfl, rfl,
      rfl⟩, by and_intros <;> decide +kernel⟩, by decide +kernel⟩,
    ⟨image0 0x0801 (le 2 5) (zeros 64) (scheduled tray0), 0, load0 0x0801 (zeros 64).length (le 2 5), zeros 64, ⟨rfl,
      by decide +kernel, ⟨_, rfl, rfl, rfl⟩, by and_intros <;> decide +kernel⟩⟩,
    ⟨image0 0x0803 ([]) (zeros 64) (scheduled tray0), 0, load0 0x0803 (zeros 64).length ([]), zeros 64, ⟨rfl,
      by decide +kernel, ⟨_, rfl, rfl, rfl⟩, by and_intros <;> decide +kernel⟩⟩,
    ⟨running0 0 (run0 0x0701 (part0 64 0 128 0 (le 2 5))) (scheduled tray0), 0,
      run0 0x0701 (part0 64 0 128 0 (le 2 5)), 0x0701, .tableLoad 0 (.fault 0), by decide +kernel, by decide +kernel,
      by decide +kernel, ⟨_, rfl, rfl, rfl⟩, by decide +kernel⟩,
    ⟨running0 0 (run0 0x0702 (le 2 2 ++ [1] ++ zeros 5 ++ le 8 200 ++ le 8 6)) ({ tabled0 0 (scheduled tray0) with raw := { RawSt.fresh with areas := [{ ctx := 0, since := 0, base := 64, size := 0 }] } }),
      0, run0 0x0702 (le 2 2 ++ [1] ++ zeros 5 ++ le 8 200 ++ le 8 6), tableOf 0, ckpt0, some ckpt0,
      by decide +kernel, by decide +kernel, ⟨_, rfl, rfl, rfl⟩, by decide +kernel⟩,
    ⟨running0 0 (run0 0x0703 (le 2 2)) (tabled0 0 (scheduled tray0)), 0, run0 0x0703 (le 2 2), by decide +kernel,
      by decide +kernel, ⟨_, rfl, rfl, rfl⟩, by decide +kernel⟩,
    ⟨running0 0 (run0 0x0802 (le 2 5)) (scoring false row0 (scheduled tray0)), 0, run0 0x0802 (le 2 5),
      { m := model0, poisoned := false }, by decide +kernel, by decide +kernel, ⟨_, rfl, rfl, rfl⟩,
      by decide +kernel⟩,
    ⟨running0 0 (run0 0x0702 (le 2 2 ++ [1] ++ zeros 5 ++ le 8 200 ++ le 8 6)) (tabled0 0 (scheduled tray0)), 0,
      run0 0x0702 (le 2 2 ++ [1] ++ zeros 5 ++ le 8 200 ++ le 8 6), tableOf 0, some ckpt0, by decide +kernel, ⟨_, rfl,
      rfl, rfl⟩, by decide +kernel⟩,
    ⟨running0 0 (run0 0x0702 (le 2 2 ++ [0] ++ zeros 5 ++ le 8 200 ++ le 8 6)) ({ tabled0 0 (scheduled tray0) with flash := { FlashSt.blank with ring := [{ slot := 0, bytes := zeros 16, valid := true }] } }),
      0, run0 0x0702 (le 2 2 ++ [0] ++ zeros 5 ++ le 8 200 ++ le 8 6), tableOf 0,
      { slot := 0, bytes := zeros 16, valid := true }, [], by decide +kernel, by decide +kernel, ⟨_, rfl, rfl, rfl⟩,
      by decide +kernel⟩⟩

theorem witness_ActionCommands :
    (∃ (s : State) (m : Nat) (c : Cmd) (img : Bytes) (rows : List ActRow),
    wholeImage s m 0x0901 2 c img ∧ (let n := fld c.payload 36 2;
    1 ≤ n ∧ n ≤ 1024 ∧ img.length = (16 * n + 63) / 64 * 64 ∧ isZero (img.drop (16 * n)) = true ∧
      ((List.range n).map fun i => parseAct (slice img (16 * i) 16) s) = rows.map some)) ∧
    (∃ (s : State) (m : Nat) (c : Cmd) (img : Bytes),
    wholeImage s m 0x0901 2 c img ∧ ((fld c.payload 36 2 = 0 ∨ 1024 < fld c.payload 36 2))) ∧
    (∃ (s : State) (m : Nat) (c : Cmd) (n : Nat),
    s.runsAs .tray = true ∧ s.relays = false ∧ s.runs m 0x0902 c ∧ n = fld c.payload 1 1 ∧ unnamedZero c.payload [(0,
      2), (4, 2 * n)] = true ∧ 1 ≤ n ∧ fld c.payload 0 1 + n ≤ 48) ∧
    (∃ (s : State) (m : Nat) (c : Cmd),
    s.runsAs .tray = true ∧ s.runs m 0x0902 c ∧ 48 < fld c.payload 0 1 + fld c.payload 1 1) ∧
    (∃ (s : State) (m : Nat) (c : Cmd),
    s.runsAs .tray = true ∧ s.relays = false ∧ s.runs m 0x0903 c ∧ loopOk c.payload = true) ∧
    (∃ (s : State) (m : Nat) (c : Cmd),
    s.runsAs .tray = true ∧ s.relays = true ∧ s.runs m 0x0903 c ∧ loopOk c.payload = true) ∧
    (∃ (s : State) (m : Nat) (c : Cmd),
    s.runsAs .tray = true ∧ s.runs m 0x0903 c ∧ fld c.payload 2 2 < fld c.payload 0 2) :=
  ⟨⟨image0 0x0901 (le 2 1) (le 2 5 ++ [1, 0] ++ zeros 60) (scoring false row0 (scheduled tray0)), 0,
    load0 0x0901 (le 2 5 ++ [1, 0] ++ zeros 60).length (le 2 1), le 2 5 ++ [1, 0] ++ zeros 60,
    [{ modelId := 5, verdict := 1, kind := .mark, cap := 0, hold := 0 }], ⟨by decide +kernel, by decide +kernel,
    ⟨{ Mbx.fresh 0 with running := some (load0 0x0901 (le 2 5 ++ [1, 0] ++ zeros 60).length (le 2 1)) },
    by decide +kernel, by decide +kernel, by decide +kernel⟩, by decide +kernel, by decide +kernel, by decide +kernel,
    by decide +kernel, by decide +kernel, by decide +kernel⟩, by decide +kernel⟩,
    ⟨image0 0x0901 (le 2 0) (zeros 64) (scheduled tray0), 0, load0 0x0901 (zeros 64).length (le 2 0), zeros 64, ⟨rfl,
      by decide +kernel, ⟨_, rfl, rfl, rfl⟩, by and_intros <;> decide +kernel⟩, by decide +kernel⟩,
    ⟨running0 0 (run0 0x0902 ([3, 2, 0, 0] ++ le 2 7 ++ le 2 8)) (scheduled tray0), 0, run0 0x0902 ([3, 2, 0,
      0] ++ le 2 7 ++ le 2 8), 2, by decide +kernel, by decide +kernel, ⟨_, rfl, rfl, rfl⟩, by decide +kernel⟩,
    ⟨running0 0 (run0 0x0902 ([47, 2, 0, 0])) (scheduled tray0), 0, run0 0x0902 ([47, 2, 0, 0]), by decide +kernel,
      ⟨_, rfl, rfl, rfl⟩, by decide +kernel⟩,
    ⟨running0 0 (run0 0x0903 (le 2 10 ++ le 2 20 ++ zeros 24 ++ le 4 1)) (scheduled tray0), 0,
      run0 0x0903 (le 2 10 ++ le 2 20 ++ zeros 24 ++ le 4 1), by decide +kernel, by decide +kernel, ⟨_, rfl, rfl,
      rfl⟩, by decide +kernel⟩,
    ⟨running0 0 (run0 0x0903 (le 2 10 ++ le 2 20 ++ zeros 24 ++ le 4 1)) (paired0 (scheduled tray0)), 0,
      run0 0x0903 (le 2 10 ++ le 2 20 ++ zeros 24 ++ le 4 1), by decide +kernel, by decide +kernel, ⟨_, rfl, rfl,
      rfl⟩, by decide +kernel⟩,
    ⟨running0 0 (run0 0x0903 (le 2 20 ++ le 2 10)) (scheduled tray0), 0, run0 0x0903 (le 2 20 ++ le 2 10),
      by decide +kernel, ⟨_, rfl, rfl, rfl⟩, by decide +kernel⟩⟩

theorem witness_ContextCommands :
    (∃ (s : State) (m : Nat) (c : Cmd) (e : Nat),
    s.runsAs .tray = true ∧ s.runs m 0x0A01 c ∧ c.result = [] ∧ openCheck c s = some e) ∧
    (∃ (s : State) (m : Nat) (c : Cmd),
    s.runsAs .tray = true ∧ s.runs m 0x0A01 c ∧ c.result = [] ∧ openCheck c s = none) ∧
    (∃ (s : State) (m : Nat) (c : Cmd),
    s.runsAs .tray = true ∧ s.runs m 0x0A01 c ∧ c.result ≠ [] ∧ s.setupQueued = true ∧ ((∃ t,
      s.timeOf (fld c.payload 16 8) = some t ∧ s.now + nsT (4 * s.cfg.epochNs) < t))) ∧
    (∃ (s : State) (m : Nat) (c : Cmd),
    s.runsAs .tray = true ∧ s.runs m 0x0A01 c ∧ c.result ≠ [] ∧ s.setupQueued = false ∧ (let p := c.payload;
    (let arg := BitVec.ofNat 128 (fld c.result 24 8 + (if bit (fld p 1 1) 1 then 1 else 0) * 2 ^ 64);
    s.answerArm (s.cmdArm m kindCtxStart (bit (fld p 1 1) 0) (fld p 16 8) arg (fld p 0 1) (BitVec.ofNat 16 (fld p 2 2))
      (BitVec.ofNat 32 (fld p 4 4))) = .accept))) ∧
    (∃ (s : State) (m : Nat) (c : Cmd) (e : Nat),
    s.runsAs .tray = true ∧ s.runs m 0x0A02 c ∧ c.result = [] ∧ closeCheck c s = some e) ∧
    (∃ (s : State) (m : Nat) (c : Cmd),
    s.runsAs .tray = true ∧ s.relays = false ∧ s.runs m 0x0A02 c ∧ c.result = [] ∧ closeCheck c s = none ∧
      s.setupQueued = false ∧ bit (fld c.payload 1 1) 0 = false ∧ (let p := c.payload;
    s.answerArm (s.cmdArm m kindCtxEnd false (fld p 16 8) 0 (fld p 0 1) (BitVec.ofNat 16 (fld p 2 2))
      (BitVec.ofNat 32 (fld p 4 4))) = .accept)) ∧
    (∃ (s : State) (m : Nat) (c : Cmd) (id : Nat) (g : BitVec 16),
    s.runs m 0x0A03 c ∧ unnamedZero c.payload [(0, 1), (2, 2)] = true ∧ id = fld c.payload 0 1 ∧ id ≠ 0 ∧
      g = BitVec.ofNat 16 (fld c.payload 2 2) ∧ s.heldGen id = some g) ∧
    (∃ (s : State) (m : Nat) (c : Cmd),
    s.runs m 0x0A03 c ∧ unnamedZero c.payload [(0, 1), (2, 2)] = true ∧
      s.heldGen (fld c.payload 0 1) ≠ some (BitVec.ofNat 16 (fld c.payload 2 2))) :=
  ⟨⟨running0 0 (run0 0x0A01 ([])) (shared0), 0, run0 0x0A01 ([]), stBAD_CTX, by decide +kernel, ⟨_, rfl, rfl, rfl⟩,
    by decide +kernel⟩,
    ⟨running0 0 (run0 0x0A01 ([1, 0] ++ le 2 5 ++ zeros 12 ++ le 8 100)) (shared0), 0, run0 0x0A01 ([1,
      0] ++ le 2 5 ++ zeros 12 ++ le 8 100), by decide +kernel, ⟨_, rfl, rfl, rfl⟩, by decide +kernel⟩,
    ⟨running0 0 ({ run0 0x0A01 ([1, 0] ++ le 2 5 ++ zeros 12 ++ le 8 100) with result := [1] }) ({ shared0 with lanes := [setupLane0] }),
      0, { run0 0x0A01 ([1, 0] ++ le 2 5 ++ zeros 12 ++ le 8 100) with result := [1] }, by decide +kernel, ⟨_, rfl,
      rfl, rfl⟩, by decide +kernel⟩,
    ⟨running0 0 ({ run0 0x0A01 ([1, 0] ++ le 2 5 ++ zeros 12 ++ le 8 100) with result := [1] }) (shared0), 0,
      { run0 0x0A01 ([1, 0] ++ le 2 5 ++ zeros 12 ++ le 8 100) with result := [1] }, by decide +kernel, ⟨_, rfl, rfl,
      rfl⟩, by decide +kernel⟩,
    ⟨running0 0 (run0 0x0A02 ([])) (shared0), 0, run0 0x0A02 ([]), stBAD_CTX, by decide +kernel, ⟨_, rfl, rfl, rfl⟩,
      by decide +kernel⟩,
    ⟨running0 0 (run0 0x0A02 ([1, 0] ++ le 2 5 ++ zeros 12 ++ le 8 100)) (active0 shared0), 0, run0 0x0A02 ([1,
      0] ++ le 2 5 ++ zeros 12 ++ le 8 100), by decide +kernel, by decide +kernel, ⟨_, rfl, rfl, rfl⟩,
      by decide +kernel⟩,
    ⟨running0 0 (run0 0x0A03 ([1, 0] ++ le 2 5)) (active0 shared0), 0, run0 0x0A03 ([1, 0] ++ le 2 5), 1, 5, ⟨_, rfl,
      rfl, rfl⟩, by decide +kernel⟩,
    ⟨running0 0 (run0 0x0A03 ([1, 0] ++ le 2 6)) (active0 shared0), 0, run0 0x0A03 ([1, 0] ++ le 2 6), ⟨_, rfl, rfl,
      rfl⟩, by decide +kernel⟩⟩

end Sys2Proof.Machine
end

section
/-!
PROOFS. The time counter on a CK_E edge (03 R84, R85).
-/

namespace Sys2Proof.Machine

@[simp] theorem whenClocked_of_clocked {s : State} (h : s.clocked = true) (f : State → State) :
    whenClocked s f = f s := by
  simp [whenClocked, h]

theorem onTray_of_runs {s : State} (h : s.runsAs .tray = true) (name : String) (f : State → State) :
    onTray name s f = .next (f s) := by
  simp only [State.runsAs, Bool.and_eq_true, beq_iff_eq] at h
  obtain ⟨hprofile, hclocked⟩ := h
  simp [onTray, onTrayEver, hprofile, hclocked]

/-! ## The addition of the increment -/

/-- The nanoseconds and fraction of a time with an increment added, in units of 2^-32 ns, before the carry of `addInc`. -/
def incSum (n : ITime) (i : BitVec 8) (f : BitVec 32) : Nat :=
  n.ns.toNat * 2 ^ 32 + n.frac.toNat + i.toNat * 2 ^ 32 + f.toNat

theorem addInc_sec (n : ITime) (i : BitVec 8) (f : BitVec 32) :
    (addInc n i f).sec = if 1000000000 * 2 ^ 32 ≤ incSum n i f then n.sec + 1 else n.sec := rfl

/-- What stays after the carry fits the 64 bits of nanoseconds and fraction, even from malformed nanoseconds. -/
theorem incSum_sub_carry_lt (n : ITime) (i : BitVec 8) (f : BitVec 32) :
    (if 1000000000 * 2 ^ 32 ≤ incSum n i f then incSum n i f - 1000000000 * 2 ^ 32 else incSum n i f) < 2 ^ 64 := by
  have := n.ns.isLt
  have := n.frac.isLt
  have := i.isLt
  have := f.isLt
  unfold incSum
  split <;> omega

theorem addInc_nanos (n : ITime) (i : BitVec 8) (f : BitVec 32) :
    (addInc n i f).ns.toNat * 2 ^ 32 + (addInc n i f).frac.toNat =
      if 1000000000 * 2 ^ 32 ≤ incSum n i f then incSum n i f - 1000000000 * 2 ^ 32 else incSum n i f := by
  have hfit := incSum_sub_carry_lt n i f
  simp only [addInc, BitVec.toNat_ofNat]
  unfold incSum at *
  omega

theorem edge_now_of_nothing_pending {t : TimeSt} (hcommit : t.commit = none) (hset : t.setPend = none)
    (hstep : t.stepPend = none) : t.edge.now = addInc t.now t.incInt t.incFrac := by
  simp only [TimeSt.edge, hcommit, hset, hstep]

theorem exec_ntpMessageReceive {s : State} (n : NtpTime) (hruns : s.runsAs .tray = true) (hmgmt : s.mgmtOn = true)
    (hptp : s.ptpMaster = none) :
    exec (.ntpMessageReceive n) s = .next { s with tim := { s.tim with
      coarse := some (((n.utcSec.toNat : Int) + s.cfg.taiUtc).toNat * secT + n.frac.toNat * 1000000000, s.now) } } := by
  simp only [exec, execNtpMessageReceive, onTray_of_runs hruns, hmgmt, hptp, Option.isNone_none, Bool.and_self, if_true]

/-- Settles O14: with nothing pending an edge is `addInc`, whose carry leaves a rest that fits its two words. -/
theorem timeCounterAddsIncrement : Obligations.TimeCounterAddsIncrement := by
  refine ⟨fun t hcommit hset hstep => ?_, fun _ n hruns hmgmt hptp => exec_ntpMessageReceive n hruns hmgmt hptp, rfl⟩
  rw [edge_now_of_nothing_pending hcommit hset hstep]
  exact ⟨addInc_sec t.now t.incInt t.incFrac, addInc_nanos t.now t.incInt t.incFrac⟩

/-! ## A commit at an edge that also sets the time -/

/-- An instance without a source whose time is set in FREE enters HOLDOVER, which commits base_inc (R95): the edge that
takes a written increment into force then ends with that new commit pending. -/
theorem edge_commit_of_set_without_source {t : TimeSt} {v : BitVec 128} (hset : t.setPend = some v)
    (hfree : t.state = .free) (hsource : t.source = .none) :
    t.edge.commit = some (BitVec.ofNat 8 (t.baseInc / 2 ^ 32), BitVec.ofNat 32 t.baseInc) := by
  cases hcommit : t.commit <;> simp [TimeSt.edge, TimeSt.begun, TimeSt.shift, hcommit, hset, hfree, hsource]

/-- Refutes O15: its fourth clause has no commit pending after an edge that takes one into force. When TIM_INC_INT has
committed 0xA000_0001 and TIM_SET has named time 0 before one edge of an instance that is FREE and has no source, that
edge also sets the time, and the HOLDOVER that it begins commits base_inc. -/
theorem not_timeIncrementIsStagedAndCommitted : ¬ Obligations.TimeIncrementIsStagedAndCommitted := by
  rintro ⟨-, -, -, hcommitted, -⟩
  obtain ⟨-, -, hnone⟩ :=
    hcommitted { TimeSt.fresh with commit := some (0, 0xA0000001), setPend := some 0 } 0 0xA0000001 rfl
  rw [edge_commit_of_set_without_source rfl rfl rfl] at hnone
  cases hnone

end Sys2Proof.Machine
end

section
/-!
PROOFS. The latches of the higher words of TIM_NOW (03 R86, 20 R515).
-/

namespace Sys2Proof.Machine

/-! ## What a latch holds -/

@[simp] theorem emit_latched (s : State) (o : Out) (p : Path) (a : Nat) :
    (s.emit o).latched p a = s.latched p a := rfl

theorem latched_eq_zero {s : State} {p : Path} {a : Nat} (h : ∀ l ∈ s.latches, ¬ (l.1 = p ∧ l.2.1 = a)) :
    s.latched p a = 0 := by
  have hnone : s.latches.find? (fun l => l.1 == p && l.2.1 == a) = none := by simpa using h
  simp only [State.latched, hnone]

theorem latched_setLatches_of_find {p : Path} {words : List (Nat × Word)} {a : Nat} {w : Nat × Word}
    (h : words.find? (·.1 == a) = some w) (s : State) : (setLatches p words s).latched p a = w.2 := by
  have hw : words.any (·.1 == a) = true := by
    simp only [List.any_eq_true]
    exact ⟨w, List.mem_of_find?_eq_some h, by simpa using List.find?_some h⟩
  have hold : (s.latches.filter fun l => !(l.1 == p && words.any (·.1 == l.2.1))).find?
      (fun l => l.1 == p && l.2.1 == a) = none := by
    rw [List.find?_eq_none]
    rintro l hl hmatch
    simp only [Bool.and_eq_true, beq_iff_eq] at hmatch
    obtain ⟨hp, ha⟩ := hmatch
    simp [hp, ha, hw] at hl
  have hnew : (words.map fun w => (p, w.1, w.2)).find? (fun l => l.1 == p && l.2.1 == a) = some (p, w.1, w.2) := by
    have hkey : ((fun l : Path × Nat × Word => l.1 == p && l.2.1 == a) ∘ fun w : Nat × Word => (p, w.1, w.2)) =
        fun w => w.1 == a := by
      funext w
      simp only [Function.comp_apply, beq_self_eq_true, Bool.true_and]
    rw [List.find?_map, hkey, h, Option.map_some]
  simp only [State.latched, setLatches_set, List.find?_append, hold, hnew, Option.none_or]

theorem latched_setLatches_of_other {p q : Path} {words : List (Nat × Word)} {a : Nat}
    (h : ¬ (q = p ∧ ∃ w ∈ words, w.1 = a)) (s : State) : (setLatches p words s).latched q a = s.latched q a := by
  have hnew : (words.map fun w => (p, w.1, w.2)).find? (fun l => l.1 == q && l.2.1 == a) = none := by
    simp only [List.find?_eq_none, List.mem_map, Bool.and_eq_true, beq_iff_eq]
    rintro _ ⟨w, hw, rfl⟩ ⟨hp, ha⟩
    exact h ⟨hp.symm, w, hw, ha⟩
  have hold : (s.latches.filter fun l => !(l.1 == p && words.any (·.1 == l.2.1))).find?
      (fun l => l.1 == q && l.2.1 == a) = s.latches.find? fun l => l.1 == q && l.2.1 == a := by
    rw [List.find?_filter]
    congr 1
    funext l
    rw [Bool.eq_iff_iff]
    simp only [Bool.not_eq_true', Bool.and_eq_true, decide_eq_true_eq, beq_iff_eq, ← Bool.not_eq_true, List.any_eq_true]
    exact ⟨And.right, fun hl => ⟨fun hdropped => h (by rw [← hl.1, ← hl.2]; exact hdropped), hl⟩⟩
  simp only [State.latched, setLatches_set, List.find?_append, hold, hnew, Option.or_none]

/-! ## Reads of TIM_NOW -/

theorem exec_timNowRead {s : State} {p : Path} (h : s.serves p = true) :
    exec (.timNowRead p) s = .next ((readTimNow p s).2.emit (.regValue p 0x200 (readTimNow p s).1)) := by
  simp only [exec, execTimNowRead, h, if_true]

/-- The words of TIM_NOW above the lowest answer their latch. -/
theorem readReg_timNow_high (p : Path) {a : Nat} (s : State) (hlow : 0x200 < a) (hhigh : a < 0x210) :
    readReg p a s = (s.latched p a, s) := by
  have hwide : s.wideReg a = some (0x200, 4, s.tim.now.toBits.toNat) := by
    have hdevice : ¬ (0x10 ≤ a ∧ a < 0x18) := by omega
    have htime : 0x200 ≤ a ∧ a < 0x210 := by omega
    simp [State.wideReg, hdevice, htime]
  simp only [readReg, hwide, if_neg (Nat.ne_of_gt hlow)]

theorem exec_lowestWordRead_timNow_high {s : State} {p : Path} {a : Nat} (h : s.serves p = true) (hlow : 0x200 < a)
    (hhigh : a < 0x210) :
    exec (.lowestWordRead p a) s = .next { s with out := s.out ++ [.regValue p a (s.latched p a)] } := by
  have haddr : a % 2 ^ 18 = a := by omega
  simp only [exec, execLowestWordRead, readOn, haddr, h, if_true, readReg_timNow_high p s hlow hhigh, State.emit]

/-! ## A block reset clears the latches: nothing that a start does sets one -/

@[simp] theorem openDump_latches (s : State) : (openDump s).latches = s.latches := by
  simp only [openDump]
  split <;> rfl

@[simp] theorem clearBlock_latches (s : State) : (clearBlock s).latches = [] := rfl

@[simp] theorem otpProgram_latches (s : State) (a : Nat) (v : BitVec 32) :
    (s.otpProgram a v).latches = s.latches := rfl

theorem foldl_latches {α : Type} {f : State → α → State} (hf : ∀ s a, (f s a).latches = s.latches) (l : List α)
    (s : State) : (l.foldl f s).latches = s.latches := by
  induction l generalizing s with
  | nil => rfl
  | cons a l ih => rw [List.foldl_cons, ih, hf]

@[simp] theorem programUds_latches (draw : List (BitVec 32)) (s : State) :
    (programUds draw s).latches = s.latches := by
  unfold programUds
  split
  · rfl
  · rw [otpProgram_latches]
    exact foldl_latches (fun s i => otpProgram_latches s i (nth draw i 0)) _ s

@[simp] theorem layer0_latches (draw : List (BitVec 32)) (s : State) : (layer0 draw s).latches = s.latches :=
  programUds_latches draw s

@[simp] theorem writeClock_latches (kind pcyc optime : Nat) (flash : FlashAnswer) (s : State) :
    (writeClock kind pcyc optime flash s).latches = s.latches := by
  simp only [writeClock]
  split <;> split <;> rfl

@[simp] theorem clockStart_latches (flash : FlashAnswer) (s : State) : (clockStart flash s).latches = s.latches := by
  simp only [clockStart]
  split
  · rw [writeClock_latches]
    split <;> rfl
  · split <;> rfl

@[simp] theorem recorderStart_latches (flash : FlashAnswer) (s : State) :
    (recorderStart flash s).latches = s.latches := by
  unfold recorderStart
  split
  · exact clockStart_latches flash s
  · rfl

@[simp] theorem readOtp_latches (s : State) : (readOtp s).latches = s.latches := by
  simp only [readOtp]

@[simp] theorem requestStep_latches (step : Int) (s : State) : (requestStep step s).latches = s.latches := by
  unfold requestStep
  split <;> rfl

@[simp] theorem restoreNext_latches (s : State) : (restoreNext s).latches = s.latches := by
  unfold restoreNext
  split
  · rfl
  · exact requestStep_latches _ s

@[simp] theorem marginStart_latches (s : State) : (marginStart s).latches = s.latches := by
  unfold marginStart
  split
  · exact restoreNext_latches _
  · rfl

@[simp] theorem startFirmware_latches (fw : Bytes) (copy : Option Nat) (found : StartFound) (s : State) :
    (startFirmware fw copy found s).latches = s.latches := by
  simp only [startFirmware, marginStart_latches, readOtp_latches, recorderStart_latches]
  split <;> rfl

@[simp] theorem sendLeafStatus_latches (s : State) (kind : Nat) (args : List Nat) :
    (s.sendLeafStatus kind args).latches = s.latches :=
  foldl_latches (f := fun s n => s.sendCtl n (leafStatusMsg kind args)) (fun _ _ => rfl) (s.lanesFor LaneUse.isUp) s

@[simp] theorem enterBivouac_latches (cause item : Nat) (s : State) : (enterBivouac cause item s).latches = s.latches := by
  simp only [enterBivouac]
  split
  · exact sendLeafStatus_latches _ _ _
  · rfl

@[simp] theorem startBivouac_latches (c : Cfg) (cause item : Nat) (s : State) :
    (startBivouac c cause item s).latches = s.latches :=
  enterBivouac_latches cause item _

@[simp] theorem startLive_latches (s : State) : (startLive s).latches = s.latches := by
  unfold startLive
  split <;> rfl

theorem ite_startLive_latches (p : Prop) [Decidable p] (s : State) :
    (if p then startLive s else s).latches = s.latches := by
  split
  · exact startLive_latches s
  · rfl

@[simp] theorem activate_latches (c : Nat) (g : BitVec 16) (k winBase winSize : Nat) (s : State) :
    (activate c g k winBase winSize s).latches = s.latches := by
  simp only [activate]
  split <;> rfl

@[simp] theorem startService_latches (c : Cfg) (s : State) : (startService c s).latches = s.latches := by
  simp only [startService, ite_startLive_latches]
  split
  · rfl
  · exact activate_latches _ _ _ _ _ _

@[simp] theorem applyCfg_latches (b : Bytes) (found : StartFound) (s : State) :
    (applyCfg b found s).latches = s.latches := by
  simp only [applyCfg]
  split
  · exact startBivouac_latches _ _ _ _
  · exact startBivouac_latches _ _ _ _
  · split
    · exact startBivouac_latches _ _ _ _
    · exact startService_latches _ _

@[simp] theorem configureTray_latches (found : StartFound) (s : State) :
    (configureTray found s).latches = s.latches := by
  unfold configureTray
  split
  · exact startBivouac_latches _ _ _ _
  · exact applyCfg_latches _ found _

@[simp] theorem startTray_latches (found : StartFound) (s : State) : (startTray found s).latches = s.latches := by
  unfold startTray
  split
  · simp only [configureTray_latches, startFirmware_latches]
  · rfl

@[simp] theorem start_latches (found : StartFound) (s : State) : (start found s).latches = s.latches := by
  simp only [start]
  split
  · simp only [startTray_latches, layer0_latches]
  · exact layer0_latches _ s

theorem blockReset_latches (cause : ResetCause) (found : StartFound) (s : State) :
    (blockReset cause found s).latches = [] := by
  simp only [blockReset, start_latches, clearBlock_latches]

theorem exec_rstBlkN_pin {s : State} (found : StartFound) (hpowered : s.powered = true)
    (hjust : s.justPowered = false) : exec (.rstBlkN .pin found) s = .next (blockReset .pin found s) := by
  simp [exec, execRstBlkN, hpowered, hjust, State.resetComes]

/-- Settles O17: the read of TIM_NOW_0 sets the latches of the three higher words, their reads answer the latch, and a
block reset empties the list of latches. -/
theorem timNowReadLatches : Obligations.TimNowReadLatches := by
  refine ⟨fun p s h => ?_, fun p a s h ha => ?_, fun _ _ _ => latched_eq_zero, rfl, fun s f hp hj => ?_⟩
  · refine ⟨_, exec_timNowRead h, rfl, ?_, ?_, ?_, fun q a hother => ?_⟩ <;> rw [emit_latched, readTimNow]
    · exact latched_setLatches_of_find (w := (0x204, _)) rfl s
    · exact latched_setLatches_of_find (w := (0x208, _)) rfl s
    · exact latched_setLatches_of_find (w := (0x20C, _)) rfl s
    · exact latched_setLatches_of_other (by simpa [eq_comm] using hother) s
  · exact exec_lowestWordRead_timNow_high h (by omega) (by omega)
  · exact ⟨_, exec_rstBlkN_pin f hp hj, blockReset_latches .pin f s⟩

end Sys2Proof.Machine
end

section
/-!
PROOFS. RST_CAUSE after each kind of reset (18 R489).
-/

namespace Sys2Proof.Machine

/-! ## The value that a block reset writes -/

theorem toNat_nextCause (old : BitVec 32) (c : ResetCause) :
    (nextCause old c).toNat = 2 ^ causeBit c + min 0xFFFF (old.toNat % 2 ^ 16 + 1) := by
  have hbit : 2 ^ causeBit c ≤ 2 ^ 30 := by cases c <;> decide
  have hcount : min 0xFFFF (old.toNat % 2 ^ 16 + 1) ≤ 0xFFFF := Nat.min_le_left ..
  rw [nextCause, BitVec.toNat_ofNat, Nat.mod_eq_of_lt (by omega)]

/-! ## A start keeps the cause that the reset before it wrote -/

@[simp] theorem start_cause (found : StartFound) (s : State) : (start found s).boot.cause = s.boot.cause :=
  (start_keeps (Keeps.refl s)).cause

theorem blockReset_cause (c : ResetCause) (found : StartFound) (s : State) :
    (blockReset c found s).boot.cause = nextCause s.boot.cause c := by
  simp only [blockReset, start_cause]

/-- RST_CAUSE after the block reset of a state that keeps the cause of s, as a number. -/
theorem blockReset_cause_toNat {s s1 : State} (c : ResetCause) (found : StartFound) (h : Keeps s s1) :
    (blockReset c found s1).boot.cause.toNat = 2 ^ causeBit c + min 0xFFFF (s.boot.cause.toNat % 2 ^ 16 + 1) := by
  rw [blockReset_cause, toNat_nextCause, h.cause]

theorem exec_powerOnReset_cause (straps : Straps) (found : StartFound) (s : State) :
    ∃ t, exec (.powerOnReset straps found) s = .next t ∧ t.boot.cause = 0x80000000 := by
  refine ⟨_, rfl, ?_⟩
  rw [start_cause]
  exact (hourStart_keeps (Keeps.refl _)).cause

/-! ## When a block reset comes -/

theorem exec_rstBlkN_of_comes {s : State} {c : ResetCause} (found : StartFound) (hpowered : s.powered = true)
    (hjust : s.justPowered = false) (hcomes : s.resetComes c = true) :
    exec (.rstBlkN c found) s = .next (blockReset c found s) := by
  simp [exec, execRstBlkN, hpowered, hjust, hcomes]

theorem exec_rstBlkN_of_justPowered {s : State} (c : ResetCause) (found : StartFound) (h : s.justPowered = true) :
    exec (.rstBlkN c found) s = .next s := by
  simp [exec, execRstBlkN, h]

theorem resetComes_of_due {s : State} {c : ResetCause} {d : Ticks} (hdue : s.stw.resetDue = some (c, d))
    (hd : d ≤ s.now) : s.resetComes c = true := by
  cases c <;> simp [State.resetComes, hdue, hd]

/-- A block reset from within, once what led to it is due, sets the bit of its cause and counts up. -/
theorem exec_rstBlkN_due_cause {s : State} {c : ResetCause} {d : Ticks} (found : StartFound)
    (hpowered : s.powered = true) (hjust : s.justPowered = false) (hdue : s.stw.resetDue = some (c, d))
    (hd : d ≤ s.now) :
    ∃ t, exec (.rstBlkN c found) s = .next t ∧
      t.boot.cause.toNat = 2 ^ causeBit c + min 0xFFFF (s.boot.cause.toNat % 2 ^ 16 + 1) :=
  ⟨_, exec_rstBlkN_of_comes found hpowered hjust (resetComes_of_due hdue hd),
    blockReset_cause_toNat c found (Keeps.refl s)⟩

/-! ## The three faults of the steward -/

theorem exec_stewardWatchdog_silent {s : State} (scan : UnitScan) (found : StartFound) (hclocked : s.clocked = true)
    (hsilent : s.stewardSilent = true) :
    exec (.stewardWatchdog .silent scan found) s = .next (blockReset .stwWdt found (autoDump true none scan s)) := by
  simp only [exec, execStewardWatchdog, hclocked, hsilent, Bool.not_true, Bool.false_eq_true, if_false, if_true]

theorem exec_stewardWatchdog_disagrees {s : State} (scan : UnitScan) (found : StartFound)
    (hclocked : s.clocked = true) :
    exec (.stewardWatchdog (.disagrees false) scan found) s =
      .next (blockReset .stwMismatch found (autoDump true none scan (dupMismatch false s))) := by
  simp only [exec, execStewardWatchdog, hclocked, Bool.not_true, Bool.false_eq_true, if_false]

theorem exec_stewardWatchdog_lostWord {s : State} (scan : UnitScan) (found : StartFound)
    (hclocked : s.clocked = true) :
    exec (.stewardWatchdog .lostWord scan found) s = .next (blockReset .stwUe found (autoDump true none scan s)) := by
  simp only [exec, execStewardWatchdog, hclocked, Bool.not_true, Bool.false_eq_true, if_false]

/-! ## The register -/

theorem readReg_rstCause (p : Path) (s : State) : (readReg p 0x104 s).1 = s.boot.cause := by
  have hwide : s.wideReg 0x104 = none := rfl
  have hnarrow : s.narrowReg 0x104 = some s.boot.cause := rfl
  simp [readReg, hwide, hnarrow, State.readValue]

theorem hostWrite_rstCause (v : Word) (s : State) : hostWrite 0x104 v s = s := rfl

/-- Settles O10: each reset ends in a `start`, which keeps RST_CAUSE, so what stands after it is what `clearPower` or
`nextCause` wrote; the dump and the count before the steward's resets leave the old cause as it was. -/
theorem resetCauseNamesLatestReset : Obligations.ResetCauseNamesLatestReset := by
  refine ⟨fun s st f => exec_powerOnReset_cause st f s, fun s f hpowered hjust => ?pin,
    fun s f d hpowered hjust hdue hd => exec_rstBlkN_due_cause f hpowered hjust hdue hd,
    fun s f d hpowered hjust hdue hd => exec_rstBlkN_due_cause f hpowered hjust hdue hd,
    fun s f _ hjust => exec_rstBlkN_of_justPowered .pin f hjust, fun s x f hclocked hsilent => ?steward,
    fun s p v => ⟨readReg_rstCause p s, hostWrite_rstCause v s⟩, rfl⟩
  case pin => exact ⟨_, exec_rstBlkN_pin f hpowered hjust, blockReset_cause_toNat .pin f (Keeps.refl s)⟩
  case steward =>
    have hdump : Keeps s (autoDump true none x s) := autoDump_keeps (Keeps.refl s)
    have hcounted : Keeps s (autoDump true none x (dupMismatch false s)) :=
      autoDump_keeps (dupMismatch_keeps (Keeps.refl s))
    exact ⟨_, _, _, exec_stewardWatchdog_silent x f hclocked hsilent, exec_stewardWatchdog_disagrees x f hclocked,
      exec_stewardWatchdog_lostWord x f hclocked, blockReset_cause_toNat .stwWdt f hdump,
      blockReset_cause_toNat .stwMismatch f hcounted, blockReset_cause_toNat .stwUe f hdump⟩

end Sys2Proof.Machine
end

section
/-!
PROOFS. What a step keeps: the invariant of the block over every command, and RST_CAUSE over every command that is no
reset (18 R489, 09_memory_and_thresher.md).
-/

namespace Sys2Proof.Machine

/-- The commands that store bytes in HBM: those of the fabric port, the management port's, and TALLY_CLEAR. -/
def storesBytes : Instr → Bool
  | .fabricStore .. | .fabricFadd .. | .tallyOperation .. | .tallyWriteback .. | .mgmtDatagram .. | .tallyClear .. => true
  | _ => false

/-- The commands that write RST_CAUSE. -/
def writesCause : Instr → Bool
  | .powerOnReset .. | .powerLoss | .rstBlkN .. | .stewardWatchdog .. => true
  | _ => false

/-- Every other command leaves the bytes of memory, RST_CAUSE, the profile and the queue as they are. -/
theorem exec_keeps (s : State) : ∀ c : Instr, storesBytes c = false → writesCause c = false → KeepsR s (exec c s)
  | .powerOnReset .., _, h => nomatch h
  | .rstBlkN .., _, h => nomatch h
  | .pllLock, _, _ => execPllLock_keeps
  | .romRecoveryDatagram .., _, _ => execRomRecoveryDatagram_keeps
  | .bootDescriptorPoll .., _, _ => execBootDescriptorPoll_keeps
  | .clockTick .., _, _ => execClockTick_keeps
  | .epochBoundary .., _, _ => execEpochBoundary_keeps
  | .stookLatch .., _, _ => execStookLatch_keeps
  | .stookLatchTimeout .., _, _ => execStookLatchTimeout_keeps
  | .stookHoldLoad .., _, _ => execStookHoldLoad_keeps
  | .stookHostReset .., _, _ => execStookHostReset_keeps
  | .subBoundary .., _, _ => execSubBoundary_keeps
  | .captureBusArbitration .., _, _ => execCaptureBusArbitration_keeps
  | .trcToken, _, _ => execTrcToken_keeps
  | .leafCutRecordSend, _, _ => execLeafCutRecordSend_keeps
  | .timIncFracWrite .., _, _ => execTimIncFracWrite_keeps
  | .timIncIntWrite .., _, _ => execTimIncIntWrite_keeps
  | .timSet .., _, _ => execTimSet_keeps
  | .timStep .., _, _ => execTimStep_keeps
  | .timNowRead .., _, _ => execTimNowRead_keeps
  | .evrOptRead .., _, _ => execEvrOptRead_keeps
  | .timDupFail, _, _ => execTimDupFail_keeps
  | .timeExchangeOpen .., _, _ => execTimeExchangeOpen_keeps
  | .timeReqReceive .., _, _ => execTimeReqReceive_keeps
  | .timeFollowSend .., _, _ => execTimeFollowSend_keeps
  | .timeExchangeComplete .., _, _ => execTimeExchangeComplete_keeps
  | .ppsInEdge .., _, _ => execPpsInEdge_keeps
  | .ppsOutPulse, _, _ => execPpsOutPulse_keeps
  | .slotSyncEdge .., _, _ => execSlotSyncEdge_keeps
  | .slotPhaseWindow, _, _ => execSlotPhaseWindow_keeps
  | .ptpMessageReceive .., _, _ => execPtpMessageReceive_keeps
  | .pitchAlign .., _, _ => execPitchAlign_keeps
  | .markerLost .., _, _ => execMarkerLost_keeps
  | .dataPosition .., _, _ => execDataPosition_keeps
  | .controlCellSend .., _, _ => execControlCellSend_keeps
  | .controlCellReceive .., _, _ => execControlCellReceive_keeps
  | .dataGroupReceive .., _, _ => execDataGroupReceive_keeps
  | .laneDetect .., _, _ => execLaneDetect_keeps
  | .equalise .., _, _ => execEqualise_keeps
  | .hello .., _, _ => execHello_keeps
  | .auth .., _, _ => execAuth_keeps
  | .keyed .., _, _ => execKeyed_keeps
  | .trainTimeout .., _, _ => execTrainTimeout_keeps
  | .laneFailedRetry .., _, _ => execLaneFailedRetry_keeps
  | .laneLeaveUp .., _, _ => execLaneLeaveUp_keeps
  | .keyOffer .., _, _ => execKeyOffer_keeps
  | .keyGeneration .., _, _ => execKeyGeneration_keeps
  | .keyTimeout .., _, _ => execKeyTimeout_keeps
  | .spareSwitch .., _, _ => execSpareSwitch_keeps
  | .grant .., _, _ => execGrant_keeps
  | .arm .., _, _ => execArm_keeps
  | .armAck .., _, _ => execArmAck_keeps
  | .confirm .., _, _ => execConfirm_keeps
  | .cancel .., _, _ => execCancel_keeps
  | .decisionEcho .., _, _ => execDecisionEcho_keeps
  | .holdNotice .., _, _ => execHoldNotice_keeps
  | .resendReq .., _, _ => execResendReq_keeps
  | .memberQuery .., _, _ => execMemberQuery_keeps
  | .memberAnswer .., _, _ => execMemberAnswer_keeps
  | .memberDecide .., _, _ => execMemberDecide_keeps
  | .leafStatus .., _, _ => execLeafStatus_keeps
  | .schedSync .., _, _ => execSchedSync_keeps
  | .leafCutRecord .., _, _ => execLeafCutRecord_keeps
  | .intervalRecord .., _, _ => execIntervalRecord_keeps
  | .captureMessage .., _, _ => execCaptureMessage_keeps
  | .ctxSetup .., _, _ => execCtxSetup_keeps
  | .childSheaf .., _, _ => execChildSheaf_keeps
  | .shardPartial .., _, _ => execShardPartial_keeps
  | .contributionMerge .., _, _ => execContributionMerge_keeps
  | .sheafPublish .., _, _ => execSheafPublish_keeps
  | .publishFaddReturn .., _, _ => execPublishFaddReturn_keeps
  | .memberWaitDeadline .., _, _ => execMemberWaitDeadline_keeps
  | .memberQueryRetry .., _, _ => execMemberQueryRetry_keeps
  | .resendRetry .., _, _ => execResendRetry_keeps
  | .resendSourceTimeout .., _, _ => execResendSourceTimeout_keeps
  | .rawRingLog .., _, _ => execRawRingLog_keeps
  | .rawCopyPath .., _, _ => execRawCopyPath_keeps
  | .checkpointWrite, _, _ => execCheckpointWrite_keeps
  | .armLevelDeadline .., _, _ => execArmLevelDeadline_keeps
  | .armAckDeadline .., _, _ => execArmAckDeadline_keeps
  | .armDecideBy .., _, _ => execArmDecideBy_keeps
  | .thresherUpdate .., _, _ => execThresherUpdate_keeps
  | .slotLate, _, _ => execSlotLate_keeps
  | .rowCopy .., _, _ => execRowCopy_keeps
  | .hotRowInstall .., _, _ => execHotRowInstall_keeps
  | .deepInstall .., _, _ => execDeepInstall_keeps
  | .rowRepair .., _, _ => execRowRepair_keeps
  | .patrolScrub .., _, _ => execPatrolScrub_keeps
  | .sramScrub .., _, _ => execSramScrub_keeps
  | .sramRowRepair .., _, _ => execSramRowRepair_keeps
  | .hbmPpr .., _, _ => execHbmPpr_keeps
  | .scoreStart .., _, _ => execScoreStart_keeps
  | .scoreComplete .., _, _ => execScoreComplete_keeps
  | .winLate, _, _ => execWinLate_keeps
  | .leafFeatureUpdate .., _, _ => execLeafFeatureUpdate_keeps
  | .leafModelScore .., _, _ => execLeafModelScore_keeps
  | .grantStep, _, _ => execGrantStep_keeps
  | .grantLate, _, _ => execGrantLate_keeps
  | .grantOffer .., _, _ => execGrantOffer_keeps
  | .pgAck, _, _ => execPgAck_keeps
  | .grantNoAck, _, _ => execGrantNoAck_keeps
  | .grantStale, _, _ => execGrantStale_keeps
  | .loopPeriod .., _, _ => execLoopPeriod_keeps
  | .loopMasterTakeover, _, _ => execLoopMasterTakeover_keeps
  | .v42Stb .., _, _ => execV42Stb_keeps
  | .busSenseLost, _, _ => execBusSenseLost_keeps
  | .converterLimitWrite .., _, _ => execConverterLimitWrite_keeps
  | .smbAlert, _, _ => execSmbAlert_keeps
  | .trcSampleSlot .., _, _ => execTrcSampleSlot_keeps
  | .trcVld .., _, _ => execTrcVld_keeps
  | .noResponse, _, _ => execNoResponse_keeps
  | .watchFeedPoll .., _, _ => execWatchFeedPoll_keeps
  | .watchFeedRead .., _, _ => execWatchFeedRead_keeps
  | .watchDumpRead .., _, _ => execWatchDumpRead_keeps
  | .stopOutRise, _, _ => execStopOutRise_keeps
  | .stopDone, _, _ => execStopDone_keeps
  | .stopDoneWait, _, _ => execStopDoneWait_keeps
  | .scanSegment .., _, _ => execScanSegment_keeps
  | .stopReleaseTime, _, _ => execStopReleaseTime_keeps
  | .autoReleased, _, _ => execAutoReleased_keeps
  | .brkVld .., _, _ => execBrkVld_keeps
  | .drainWindow, _, _ => execDrainWindow_keeps
  | .drnDone, _, _ => execDrnDone_keeps
  | .drainWindowEnd, _, _ => execDrainWindowEnd_keeps
  | .drnPortFault, _, _ => execDrnPortFault_keeps
  | .contextDrainComplete .., _, _ => execContextDrainComplete_keeps
  | .contextHardCap .., _, _ => execContextHardCap_keeps
  | .tenantRecordRelease .., _, _ => execTenantRecordRelease_keeps
  | .hangDetect .., _, _ => execHangDetect_keeps
  | .unitReset .., _, _ => execUnitReset_keeps
  | .stewardWatchdog .., _, h => nomatch h
  | .mailboxTurn .., _, _ => execMailboxTurn_keeps
  | .teamRelayEcho .., _, _ => execTeamRelayEcho_keeps
  | .leafImageLoad .., _, _ => execLeafImageLoad_keeps
  | .statusPageWrite, _, _ => execStatusPageWrite_keeps
  | .mgmtDatagram .., h, _ => nomatch h
  | .attachPhase .., _, _ => execAttachPhase_keeps
  | .startWait, _, _ => execStartWait_keeps
  | .recorderPeriodEnd, _, _ => execRecorderPeriodEnd_keeps
  | .recordFlashWrite .., _, _ => execRecordFlashWrite_keeps
  | .ageingPoint, _, _ => execAgeingPoint_keeps
  | .vmAck, _, _ => execVmAck_keeps
  | .vmNak, _, _ => execVmNak_keeps
  | .vmTimeout, _, _ => execVmTimeout_keeps
  | .urgentStep, _, _ => execUrgentStep_keeps
  | .svnRaise, _, _ => execSvnRaise_keeps
  | .hourMark, _, _ => execHourMark_keeps
  | .tallyOperation .., h, _ => nomatch h
  | .tallyWriteback .., h, _ => nomatch h
  | .fabricStore .., h, _ => nomatch h
  | .regWindowRead .., _, _ => execRegWindowRead_keeps
  | .regWindowWrite .., _, _ => execRegWindowWrite_keeps
  | .sidebandAccess .., _, _ => execSidebandAccess_keeps
  | .registerWrite .., _, _ => execRegisterWrite_keeps
  | .winTransientCntRead .., _, _ => execWinTransientCntRead_keeps
  | .errCntRead .., _, _ => execErrCntRead_keeps
  | .mbxAttach .., _, _ => execMbxAttach_keeps
  | .configStore .., _, _ => execConfigStore_keeps
  | .configApply .., _, _ => execConfigApply_keeps
  | .fwStore .., _, _ => execFwStore_keeps
  | .fwActivate .., _, _ => execFwActivate_keeps
  | .regRead .., _, _ => execRegRead_keeps
  | .epochSet .., _, _ => execEpochSet_keeps
  | .sampleSet .., _, _ => execSampleSet_keeps
  | .cntRead .., _, _ => execCntRead_keeps
  | .traceSet .., _, _ => execTraceSet_keeps
  | .watchFeedSet .., _, _ => execWatchFeedSet_keeps
  | .watchSet .., _, _ => execWatchSet_keeps
  | .watchClear .., _, _ => execWatchClear_keeps
  | .brkResume .., _, _ => execBrkResume_keeps
  | .stopArm .., _, _ => execStopArm_keeps
  | .stopRelease .., _, _ => execStopRelease_keeps
  | .planLoad .., _, _ => execPlanLoad_keeps
  | .planSet .., _, _ => execPlanSet_keeps
  | .pubAreaSet .., _, _ => execPubAreaSet_keeps
  | .ckptAreaSet .., _, _ => execCkptAreaSet_keeps
  | .captAreaSet .., _, _ => execCaptAreaSet_keeps
  | .tallySet .., _, _ => execTallySet_keeps
  | .tallyClear .., h, _ => nomatch h
  | .tableLoad .., _, _ => execTableLoad_keeps
  | .tableSeed .., _, _ => execTableSeed_keeps
  | .tableDrop .., _, _ => execTableDrop_keeps
  | .rowLoad .., _, _ => execRowLoad_keeps
  | .modelLoad .., _, _ => execModelLoad_keeps
  | .modelDrop .., _, _ => execModelDrop_keeps
  | .placeLoad .., _, _ => execPlaceLoad_keeps
  | .actLoad .., _, _ => execActLoad_keeps
  | .grantPolicySet .., _, _ => execGrantPolicySet_keeps
  | .loopSet .., _, _ => execLoopSet_keeps
  | .ctxOpen .., _, _ => execCtxOpen_keeps
  | .ctxClose .., _, _ => execCtxClose_keeps
  | .ctxReset .., _, _ => execCtxReset_keeps
  | .recordRead .., _, _ => execRecordRead_keeps
  | .recordPeriodSet .., _, _ => execRecordPeriodSet_keeps
  | .certRead .., _, _ => execCertRead_keeps
  | .evidenceSign .., _, _ => execEvidenceSign_keeps
  | .blockReset .., _, _ => execBlockReset_keeps
  | .dumpTake .., _, _ => execDumpTake_keeps
  | .twinDetach .., _, _ => execTwinDetach_keeps
  | .twinAttach .., _, _ => execTwinAttach_keeps
  | .stkClkEdge .., _, _ => execStkClkEdge_keeps
  | .powerLoss, _, h => nomatch h
  | .lowestWordRead .., _, _ => execLowestWordRead_keeps
  | .optimeSecond, _, _ => execOptimeSecond_keeps
  | .ntpMessageReceive .., _, _ => execNtpMessageReceive_keeps
  | .fabricFadd .., h, _ => nomatch h
  | .sideBDecide .., _, _ => execSideBDecide_keeps
  | .belayViewSend .., _, _ => execBelayViewSend_keeps

theorem exec_keepsW_of_storesBytes {c : Instr} (s : State) (h : storesBytes c = true) : KeepsRW s (exec c s) := by
  unfold storesBytes at h
  split at h
  · exact execFabricStore_keepsW
  · exact execFabricFadd_keepsW
  · exact execTallyOperation_keepsW
  · exact execTallyWriteback_keepsW
  · exact execMgmtDatagram_keepsW
  · exact execTallyClear_keepsW
  · cases h

theorem exec_keepsW_of_writesCause {c : Instr} (s : State) (h : writesCause c = true) : KeepsRW s (exec c s) := by
  unfold writesCause at h
  split at h
  · exact execPowerOnReset_keepsW
  · exact execPowerLoss_keepsW
  · exact execRstBlkN_keepsW
  · exact execStewardWatchdog_keepsW
  · cases h

/-- Every command keeps the canonical form of memory, the shape of RST_CAUSE, the profile and the queue. -/
theorem exec_keepsW (c : Instr) (s : State) : KeepsRW s (exec c s) := by
  cases hstore : storesBytes c with
  | true => exact exec_keepsW_of_storesBytes s hstore
  | false =>
    cases hcause : writesCause c with
    | true => exact exec_keepsW_of_writesCause s hcause
    | false => exact (exec_keeps s c hstore hcause).toW

/-- Taking the command at the front off the queue is no part of what the invariant speaks of. -/
theorem blockInv_withPending {s : State} (cs : List Instr) (h : BlockInv s) : BlockInv { s with pending := cs } := h

/-- Settles O4: a command at the front keeps the invariant by `exec_keepsW`, and the idle edge by `tick_keeps`. -/
theorem stepKeepsInvariant : Obligations.StepKeepsInvariant := by
  intro s s' hinv hstep
  rw [step] at hstep
  split at hstep
  · next c cs _ =>
    have hkeeps : KeepsRW { s with pending := cs } (exec c { s with pending := cs }) := exec_keepsW c _
    rw [hstep] at hkeeps
    exact KeepsW.inv hkeeps (blockInv_withPending cs hinv)
  · cases hstep
    exact (tick_keeps (Keeps.refl s)).toW.inv hinv

end Sys2Proof.Machine
end

section
/-!
PROOFS. A step takes the command at the front of the queue, or is one CK_E edge (03 R84, 19 R491).
-/

namespace Sys2Proof.Machine

/-- Settles O1: `step` matches on the queue. -/
theorem stepRunsFrontCommand : Obligations.StepRunsFrontCommand := fun _ _ _ => rfl

/-- Settles O3: nothing is stored at reset, and bit 31 of RST_CAUSE stands alone. -/
theorem resetStateMeetsInvariant : Obligations.ResetStateMeetsInvariant :=
  ⟨wf_reset, by simp [causeOk, State.reset, State.atReset, BootSt.fresh]⟩

/-! ## What the parts of a clock edge leave alone -/

/-- The fields of which O2 speaks are in t as they are in s. -/
structure EdgeSame (s t : State) : Prop where
  profile : t.profile = s.profile
  edges : t.edges = s.edges
  tim : t.tim = s.tim
  sched : t.sched = s.sched
  lanes : t.lanes = s.lanes
  ctxs : t.ctxs = s.ctxs
  mem : t.mem = s.mem
  optime : t.optime = s.optime
  boot : t.boot = s.boot
  mode : t.mode = s.mode
  pending : t.pending = s.pending
  sbAck : t.pins.sbAck = s.pins.sbAck
  sbErr : t.pins.sbErr = s.pins.sbErr
  ppsOut : t.pins.ppsOut = s.pins.ppsOut

theorem EdgeSame.refl (s : State) : EdgeSame s s := by constructor <;> rfl

theorem EdgeSame.trans {s t u : State} (h : EdgeSame s t) (k : EdgeSame t u) : EdgeSame s u where
  profile := k.profile.trans h.profile
  edges := k.edges.trans h.edges
  tim := k.tim.trans h.tim
  sched := k.sched.trans h.sched
  lanes := k.lanes.trans h.lanes
  ctxs := k.ctxs.trans h.ctxs
  mem := k.mem.trans h.mem
  optime := k.optime.trans h.optime
  boot := k.boot.trans h.boot
  mode := k.mode.trans h.mode
  pending := k.pending.trans h.pending
  sbAck := k.sbAck.trans h.sbAck
  sbErr := k.sbErr.trans h.sbErr
  ppsOut := k.ppsOut.trans h.ppsOut

theorem pulseResume_edgeSame (r : Nat × Nat) (s : State) : EdgeSame s (pulseResume r s) := by constructor <;> rfl

theorem resumeEdge_edgeSame (s : State) : EdgeSame s (resumeEdge s) := by
  unfold resumeEdge nextResume
  dsimp only
  split
  · split
    · split
      · exact pulseResume_edgeSame ..
      · exact EdgeSame.refl s
    · exact EdgeSame.refl s
  · exact EdgeSame.refl s

theorem watchIssue_edgeSame (c : Nat) (s : State) : EdgeSame s (watchIssue c s) := by
  unfold watchIssue
  split
  · split
    · dsimp only
      split <;> constructor <;> rfl
    · exact EdgeSame.refl s
  · exact EdgeSame.refl s

theorem watchCycle_edgeSame (s : State) : EdgeSame s (watchCycle s) := by
  unfold watchCycle
  dsimp only
  split
  · split
    · exact EdgeSame.trans (by constructor <;> rfl) (watchIssue_edgeSame ..)
    · constructor <;> rfl
  · exact EdgeSame.refl s

theorem transferSlots_edgeSame (s : State) : EdgeSame s (transferSlots s) := by
  unfold transferSlots
  split <;> constructor <;> rfl

theorem trstEdge_edgeSame (s : State) : EdgeSame s (trstEdge s) := by
  unfold trstEdge
  split <;> constructor <;> rfl

theorem fillAllowance_edgeSame (s : State) : EdgeSame s (fillAllowance s) := by constructor <;> rfl

theorem valveEdge_edgeSame (t : Ticks) (s : State) : EdgeSame s (valveEdge t s) := by constructor <;> rfl

theorem aloneEdge_edgeSame (s : State) : EdgeSame s (aloneEdge s) := by constructor <;> rfl

theorem beginCycle_edgeSame (s : State) : EdgeSame s (beginCycle s) := by
  unfold beginCycle
  split <;> constructor <;> rfl

theorem countOptime_eq (s : State) : countOptime s =
    { s with optime := if s.tim.cycle % optimeCycles = 0 then (s.optime + 1) % 2 ^ 48 else s.optime } := by
  unfold countOptime
  split <;> rfl

theorem countOptime_edgeSame {s t : State} (h : EdgeSame s t) : EdgeSame (countOptime s) (countOptime t) := by
  rw [countOptime_eq, countOptime_eq]
  obtain ⟨hprofile, hedges, htim, hsched, hlanes, hctxs, hmem, hoptime, hboot, hmode, hpending, hack, herr, hpps⟩ := h
  constructor <;> simp only [*]

theorem countOptime_optime (s : State) :
    (countOptime s).optime = if s.tim.cycle % 100000000 = 0 then (s.optime + 1) % 2 ^ 48 else s.optime := by
  by_cases h : s.tim.cycle % 100000000 = 0
  · rw [countOptime, optimeCycles, if_pos h, if_pos h]
  · rw [countOptime, optimeCycles, if_neg h, if_neg h]

theorem countOptime_others (s : State) : EdgeSame { s with optime := (countOptime s).optime } (countOptime s) := by
  rw [countOptime_eq]
  constructor <;> rfl

/-- What stands on PPS_OUT after an edge is hidden here, since it compares the time with large constants. -/
theorem ppsEdge_eq (before : BitVec 64) (s : State) :
    ∃ up, ppsEdge before s = { s with pins := { s.pins with ppsOut := up } } := ⟨_, rfl⟩

theorem ppsEdge_others (before : BitVec 64) (s : State) :
    EdgeSame { s with pins := { s.pins with ppsOut := (ppsEdge before s).pins.ppsOut } } (ppsEdge before s) := by
  obtain ⟨up, h⟩ := ppsEdge_eq before s
  rw [h]
  exact EdgeSame.refl _

theorem ppsEdge_ppsOut (before : BitVec 64) (s : State) : (ppsEdge before s).pins.ppsOut =
    (s.isTray && (s.pins.ppsOut || before != s.tim.now.sec) && decide (s.tim.now.toTicks % secT < nsT 100000)) := rfl

theorem shiftLanes_others (d : Int) (s : State) :
    EdgeSame { s with lanes := (shiftLanes d s).lanes } (shiftLanes d s) := by
  unfold shiftLanes
  split <;> constructor <;> rfl

/-- How far an edge moves the counter beyond its increment. -/
def edgeShift (t : TimeSt) : Int := (t.edge.now.toTicks : Int) - (addInc t.now t.edge.incInt t.edge.incFrac).toTicks

/-- The counter at an edge, with the times that move with it. -/
def timeEdge (s : State) : State := shiftLanes (edgeShift s.tim) { s with tim := s.tim.edge }

theorem timeEdge_others (s : State) :
    EdgeSame { s with tim := s.tim.edge, lanes := (timeEdge s).lanes } (timeEdge s) := by
  rw [timeEdge]
  generalize edgeShift s.tim = d
  exact shiftLanes_others d { s with tim := s.tim.edge }

theorem clockEdge_eq (s : State) : clockEdge s =
    resumeEdge (watchCycle (transferSlots (fillAllowance (trstEdge (countOptime
      (valveEdge (timeEdge s).now (aloneEdge (ppsEdge s.tim.now.sec (timeEdge s))))))))) := by
  rw [clockEdge, timeEdge, edgeShift]

/-- After the counter, PPS_OUT and OPTIME a clock edge leaves alone what O2 speaks of. -/
theorem clockEdge_edgeSame (s : State) :
    EdgeSame (countOptime (ppsEdge s.tim.now.sec (timeEdge s))) (clockEdge s) := by
  rw [clockEdge_eq]
  generalize timeEdge s = v
  generalize v.now = now
  exact (((((countOptime_edgeSame ((aloneEdge_edgeSame _).trans (valveEdge_edgeSame now _))).trans
    (trstEdge_edgeSame _)).trans (fillAllowance_edgeSame _)).trans (transferSlots_edgeSame _)).trans
    (watchCycle_edgeSame _)).trans (resumeEdge_edgeSame _)

/-- The counter, PPS_OUT, OPTIME and the rest of an edge, one after the other. -/
theorem EdgeSame.chain {s v w x y : State} {e : TimeSt}
    (htime : EdgeSame { s with tim := e, lanes := v.lanes } v)
    (hpps : EdgeSame { v with pins := { v.pins with ppsOut := w.pins.ppsOut } } w)
    (hcount : EdgeSame { w with optime := x.optime } x) (hedge : EdgeSame x y) :
    EdgeSame { s with
      tim := e, lanes := v.lanes, optime := y.optime
      pins := { s.pins with ppsOut := y.pins.ppsOut } } y where
  profile := hedge.profile.trans (hcount.profile.trans (hpps.profile.trans htime.profile))
  edges := hedge.edges.trans (hcount.edges.trans (hpps.edges.trans htime.edges))
  tim := hedge.tim.trans (hcount.tim.trans (hpps.tim.trans htime.tim))
  sched := hedge.sched.trans (hcount.sched.trans (hpps.sched.trans htime.sched))
  lanes := hedge.lanes.trans (hcount.lanes.trans hpps.lanes)
  ctxs := hedge.ctxs.trans (hcount.ctxs.trans (hpps.ctxs.trans htime.ctxs))
  mem := hedge.mem.trans (hcount.mem.trans (hpps.mem.trans htime.mem))
  optime := rfl
  boot := hedge.boot.trans (hcount.boot.trans (hpps.boot.trans htime.boot))
  mode := hedge.mode.trans (hcount.mode.trans (hpps.mode.trans htime.mode))
  pending := hedge.pending.trans (hcount.pending.trans (hpps.pending.trans htime.pending))
  sbAck := hedge.sbAck.trans (hcount.sbAck.trans (hpps.sbAck.trans htime.sbAck))
  sbErr := hedge.sbErr.trans (hcount.sbErr.trans (hpps.sbErr.trans htime.sbErr))
  ppsOut := rfl

theorem clockEdge_others (s : State) : EdgeSame
    { s with
      tim := s.tim.edge, lanes := (timeEdge s).lanes, optime := (clockEdge s).optime
      pins := { s.pins with ppsOut := (clockEdge s).pins.ppsOut } } (clockEdge s) :=
  (timeEdge_others s).chain (ppsEdge_others s.tim.now.sec (timeEdge s)) (countOptime_others _) (clockEdge_edgeSame s)

theorem counted_optime {s v : State} {e : TimeSt} (htime : EdgeSame { s with tim := e, lanes := v.lanes } v)
    (before : BitVec 64) : (countOptime (ppsEdge before v)).optime =
      if e.cycle % 100000000 = 0 then (s.optime + 1) % 2 ^ 48 else s.optime := by
  obtain ⟨up, hpps⟩ := ppsEdge_eq before v
  have htim : (ppsEdge before v).tim = e := by rw [hpps]; exact htime.tim
  have hoptime : (ppsEdge before v).optime = s.optime := by rw [hpps]; exact htime.optime
  rw [countOptime_optime, htim, hoptime]

theorem clockEdge_optime (s : State) : (clockEdge s).optime =
    if s.tim.edge.cycle % 100000000 = 0 then (s.optime + 1) % 2 ^ 48 else s.optime :=
  (clockEdge_edgeSame s).optime.trans (counted_optime (timeEdge_others s) _)

theorem counted_ppsOut {s v : State} {e : TimeSt} (htime : EdgeSame { s with tim := e, lanes := v.lanes } v)
    (before : BitVec 64) : (countOptime (ppsEdge before v)).pins.ppsOut =
      (s.isTray && (s.pins.ppsOut || before != e.now.sec) && decide (e.now.toTicks % secT < nsT 100000)) := by
  have hprofile : v.profile = s.profile := htime.profile
  have hpps : v.pins.ppsOut = s.pins.ppsOut := htime.ppsOut
  have htim : v.tim = e := htime.tim
  rw [(countOptime_others _).ppsOut, State.isTray, ← hprofile, ← hpps, ← htim]
  exact ppsEdge_ppsOut _ v

theorem clockEdge_ppsOut (s : State) : (clockEdge s).pins.ppsOut =
    (s.isTray && (s.pins.ppsOut || s.tim.now.sec != s.tim.edge.now.sec) &&
      decide (s.tim.edge.now.toTicks % secT < nsT 100000)) :=
  (clockEdge_edgeSame s).ppsOut.trans (counted_ppsOut (timeEdge_others s) _)

/-- With nothing to set or step, an edge adds its increment and no more. -/
theorem edgeShift_of_nothing_pending {t : TimeSt} (hset : t.setPend = none) (hstep : t.stepPend = none) :
    edgeShift t = 0 := by
  have hnow : t.edge.now = addInc t.now t.edge.incInt t.edge.incFrac := by
    cases hcommit : t.commit <;> simp only [TimeSt.edge, hcommit, hset, hstep]
  rw [edgeShift, hnow, Int.sub_self]

theorem timeEdge_lanes {s : State} (hset : s.tim.setPend = none) (hstep : s.tim.stepPend = none) :
    (timeEdge s).lanes = s.lanes := by
  rw [timeEdge, edgeShift_of_nothing_pending hset hstep, shiftLanes, if_pos rfl]

/-! ## The step on an empty queue -/

theorem endPulses_pins {s : State} {e : Nat} (hack : s.sb.ackAt = some e) (h : e / 16 < s.edges / 16) :
    (endPulses s).pins.sbAck = false ∧ (endPulses s).pins.sbErr = false := by
  simp [endPulses, hack, h]

/-- What `tick` does before it looks at the clocks: the edge counts, and a CK_C cycle may begin. -/
def edgeStart (s : State) : State := beginCycle (endPulses { s with edges := s.edges + 1 })

theorem edgeStart_others (s : State) : EdgeSame { s with
    edges := s.edges + 1
    pins := { s.pins with
      sbAck := (endPulses { s with edges := s.edges + 1 }).pins.sbAck
      sbErr := (endPulses { s with edges := s.edges + 1 }).pins.sbErr } } (edgeStart s) := by
  refine EdgeSame.trans ?_ (beginCycle_edgeSame _)
  unfold endPulses
  split <;> constructor <;> rfl

theorem edgeStart_clocked (s : State) : (edgeStart s).clocked = s.clocked := by
  simp only [State.clocked, (edgeStart_others s).mode]

theorem mode_of_clocked {s : State} (h : s.clocked = true) : s.mode ≠ .off := by
  intro hoff
  simp [State.clocked, hoff] at h

theorem tick_of_on {s : State} (h : s.mode ≠ .off) : tick s =
    if s.clocked then clockEdge (edgeStart s) else valveEdge ((edgeStart s).edges * nominalInc) (edgeStart s) := by
  rw [← edgeStart_clocked s, tick, if_neg (by simpa using h)]
  rfl

theorem step_of_empty {s : State} (h : s.pending = []) : step s = .next (tick s) := by
  simp only [step, h]

/-- The start of an edge and the clocks after it, as one update. -/
theorem EdgeSame.edge {s u t : State} {e : TimeSt} {lanes : List Lane} {ack err up : Bool}
    (hstart : EdgeSame { s with
      edges := s.edges + 1, pins := { s.pins with sbAck := ack, sbErr := err } } u)
    (hedge : EdgeSame { u with
      tim := e, lanes := lanes, optime := t.optime, pins := { u.pins with ppsOut := up } } t) :
    t.tim = e ∧ t.edges = s.edges + 1 ∧ t.pending = s.pending ∧ (t.pins.sbAck = ack ∧ t.pins.sbErr = err) ∧
      t.mode = s.mode ∧ t.sched = s.sched ∧ t.ctxs = s.ctxs ∧ t.mem = s.mem ∧ t.boot = s.boot ∧ t.lanes = lanes :=
  ⟨hedge.tim, hedge.edges.trans hstart.edges, hedge.pending.trans hstart.pending,
    ⟨hedge.sbAck.trans hstart.sbAck, hedge.sbErr.trans hstart.sbErr⟩, hedge.mode.trans hstart.mode,
    hedge.sched.trans hstart.sched, hedge.ctxs.trans hstart.ctxs, hedge.mem.trans hstart.mem,
    hedge.boot.trans hstart.boot, hedge.lanes⟩

/-- Settles O2: an edge is `edgeStart`, and with clocks also `clockEdge`, which after the counter, PPS_OUT and OPTIME
leaves alone what O2 speaks of; without a set or a step the counter moves by its increment, and no time of a lane moves
with it. -/
theorem idleStepIsClockEdge : Obligations.IdleStepIsClockEdge := by
  intro s hpend
  simp only [step_of_empty hpend]
  have hstart := edgeStart_others s
  refine ⟨fun hclocked => ⟨_, rfl, ?_⟩, fun hclocked hmode => ⟨_, rfl, ?_⟩, fun hmode => by simp [tick, hmode]⟩
  · rw [tick_of_on (mode_of_clocked hclocked), if_pos hclocked]
    have hoptime := clockEdge_optime (edgeStart s)
    have hpps := clockEdge_ppsOut (edgeStart s)
    have htim : (edgeStart s).tim = s.tim := hstart.tim
    have hkept : (edgeStart s).optime = s.optime := hstart.optime
    have hout : (edgeStart s).pins.ppsOut = s.pins.ppsOut := hstart.ppsOut
    have hprofile : (edgeStart s).profile = s.profile := hstart.profile
    have hlanes : (edgeStart s).lanes = s.lanes := hstart.lanes
    obtain ⟨htime, hedges, hpending, hack, hrest⟩ := hstart.edge (clockEdge_others (edgeStart s))
    obtain ⟨hmode, hsched, hctxs, hmem, hboot, hmoved⟩ := hrest
    rw [htim] at hoptime hpps htime
    refine ⟨htime, hedges, hpending.trans hpend, fun n hat hlt => ?_, fun hp => ?_, hmode, hsched, hctxs, hmem, hboot,
      fun hset hstep => ?_, fun hcycle => ?_, fun hcycle => ?_⟩
    · rw [hack.1, hack.2]
      exact endPulses_pins hat hlt
    · rw [hpps, hout, State.isTray, hprofile, hp, State.now, htime]
      rfl
    · rw [hmoved, timeEdge_lanes (htim ▸ hset) (htim ▸ hstep), hlanes]
    · rw [hoptime, hkept, if_neg hcycle]
    · rw [hoptime, hkept, if_pos hcycle]
  · rw [tick_of_on hmode, if_neg (by simp [hclocked])]
    have hvalve := hstart.trans (valveEdge_edgeSame ((edgeStart s).edges * nominalInc) (edgeStart s))
    exact ⟨hvalve.edges, hvalve.tim, hvalve.optime, hvalve.lanes, hvalve.mem, hvalve.boot, hvalve.mode,
      hvalve.pending.trans hpend⟩

end Sys2Proof.Machine
end

section
/-!
PROOFS. The registers after reset, a loss of power, and the lock of the root PLL (20_register_map.md, 21 R553, 02 R49).
-/

namespace Sys2Proof.Machine

/-- The registers of both profiles with a stated reset value, and that value (20_register_map.md, The map). -/
def resetValues : List (Nat × Word) :=
  [(0x004, 0), (0x00C, 0), (0x010, 0), (0x014, 0), (0x100, 0), (0x104, 0x80000000), (0x108, 0), (0x10C, 1), (0x110, 0),
    (0x200, 0), (0x20C, 0), (0x210, 0), (0x224, 0), (0x228, 0xA0000000), (0x22C, 0), (0x230, 0x00003F80), (0x400, 0),
    (0x404, 1), (0x408, 0), (0x500, 0), (0x580, 0), (0x600, 0), (0x680, 0), (0x804, 0), (0x840, 0x000008FF),
    (0x844, 0x00FF0000), (0x848, 0xFFFFFFFF), (0xA00, 0), (0x1000, 0x00FF0000), (0x1004, 0)]

theorem readReg_atReset (p : Profile) :
    ∀ x ∈ resetValues, (readReg .fabric x.1 (State.atReset p noStraps)).1 = x.2 := by
  cases p <;> decide +kernel

/-- Settles O8: every register is evaluated on the two reset states. -/
theorem resetRegisterValues : Obligations.ResetRegisterValues := by
  refine ⟨⟨fun p => ?both, ?own⟩, fun _ => rfl, rfl⟩
  case both => simpa [resetValues] using readReg_atReset p
  case own => decide +kernel

theorem exec_pllLock (s : State) : exec .pllLock s =
    .next (if s.powered then { s with pins := { s.pins with pllLock := true, ckROut := true } } else s) := rfl

/-- Settles O9: `clearPower` starts from the reset state and takes over flash and OTP. -/
theorem powerLossKeepsFlashAndOtp : Obligations.PowerLossKeepsFlashAndOtp := by
  refine ⟨fun s => ⟨_, rfl, by and_intros <;> rfl⟩, fun s hoff hreset => ?_, fun s hoff => ?_⟩
  · have hpowered : s.powered = true := by simp [State.powered, hoff, hreset]
    rw [exec_pllLock, if_pos hpowered]
  · have hpowered : s.powered = false := by simp [State.powered, hoff]
    rw [exec_pllLock, hpowered]
    rfl

end Sys2Proof.Machine
end

section
/-!
PROOFS. RST_CAUSE over the commands that store bytes: they keep it although they write memory (18 R489).
-/

namespace Sys2Proof.Machine

/-- What keeps the four fields of `Keeps` keeps RST_CAUSE in particular. -/
theorem cause_of_keeps {s t u : State} (k : Keeps t u) (h : t.boot.cause = s.boot.cause) :
    u.boot.cause = s.boot.cause := k.cause.trans h

@[simp] theorem putBytes_cause (a : Nat) (b : Bytes) (s : State) : (putBytes a b s).boot.cause = s.boot.cause := rfl

@[simp] theorem writeBack_cause (t : Tally) (s : State) : (writeBack t s).boot.cause = s.boot.cause := rfl

theorem foldl_cause {α : Type} {f : State → α → State} (hf : ∀ u a, (f u a).boot.cause = u.boot.cause) (l : List α)
    (s : State) : (l.foldl f s).boot.cause = s.boot.cause := by
  induction l generalizing s with
  | nil => rfl
  | cons a l ih => exact (ih (f s a)).trans (hf s a)

@[simp] theorem flushTallies_cause (s : State) : (flushTallies s).boot.cause = s.boot.cause :=
  foldl_cause (fun u t => writeBack_cause t u) s.fab.tallies s

@[simp] theorem tallyOp_cause (t : Tally) (op : FabOp) (s : State) : (tallyOp t op s).boot.cause = s.boot.cause := by
  have hon (a : Nat) (f : Tally → Tally) (u : State) : (u.onTally a f).boot.cause = u.boot.cause :=
    (State.onTally_keeps (Keeps.refl u)).cause
  have hemit (o : Out) (u : State) : (u.emit o).boot.cause = u.boot.cause := (State.emit_keeps (Keeps.refl u)).cause
  cases op with
  | store64 a l => rw [tallyOp, hon]
  | fadd a v =>
    rw [tallyOp]
    split
    · rw [hemit, hon]
    · rw [hemit]
  | flag a v => rw [tallyOp, hon, flushTallies_cause]
  | read a => rw [tallyOp, hemit, writeBack_cause]

@[simp] theorem logStore_cause (x : StoreSeen) (s : State) : (logStore x s).boot.cause = s.boot.cause := by
  unfold logStore
  dsimp only
  split <;> simp only [State.errCount_fields, State.xfer_fields, putBytes_cause]

@[simp] theorem noteStore_cause (line : Nat) (src : BitVec 16) (s : State) :
    (noteStore line src s).boot.cause = s.boot.cause := by
  unfold noteStore
  dsimp only
  split
  · rfl
  · exact foldl_cause (fun u x => logStore_cause x u) _ s

@[simp] theorem plainOp_cause (src : BitVec 16) (a : Nat) (op : FabOp) (s : State) :
    (plainOp src a op s).boot.cause = s.boot.cause := by
  cases op <;> simp [plainOp]

@[simp] theorem ownWindow_cause (src : FabSource) (n off : Nat) (op : FabOp) (s : State) :
    (ownWindow src n off op s).boot.cause = s.boot.cause := by
  unfold ownWindow
  dsimp only
  generalize (if n = 16 then 0 else n) = owner
  split
  · rw [plainOp_cause]
    exact (postedByFabric_keeps (Keeps.refl s)).cause
  · cases op <;> rfl

@[simp] theorem combine_cause (src : FabSource) {f : State → State} (hf : ∀ u, (f u).boot.cause = u.boot.cause)
    (s : State) : (combine src f s).boot.cause = s.boot.cause := by
  unfold combine byUnit
  split
  · rfl
  · refine cause_of_keeps (unitCheck_keeps (Keeps.refl _)) ?_
    split
    · rfl
    · exact hf s

@[simp] theorem hbmOp_cause (src : FabSource) (a : Nat) (op : FabOp) (s : State) :
    (hbmOp src a op s).boot.cause = s.boot.cause := by
  unfold hbmOp
  split
  · rfl
  · split
    · rfl
    · split
      · exact combine_cause src (fun u => tallyOp_cause _ _ u) s
      · exact plainOp_cause src.source a op s

@[simp] theorem windowOp_cause (src : FabSource) (off : Nat) (op : FabOp) (s : State) :
    (windowOp src off op s).boot.cause = s.boot.cause := by
  have hread := (readWindow_keeps (src := src) (off := off) (Keeps.refl s)).cause
  have hwrite (l : Bytes) := (writeWindow_keeps (src := src) (off := off - 0x400000) (line := l) (Keeps.refl s)).cause
  cases op <;> simp only [windowOp, apply_ite State.boot, apply_ite BootSt.cause, hread, hwrite, ownWindow_cause,
    hbmOp_cause, State.emit_fields, fabFlag_eq, State.setBit_fields, ite_self]

@[simp] theorem fabricOp_cause (src : FabSource) (op : FabOp) (s : State) :
    (fabricOp src op s).boot.cause = s.boot.cause := by
  unfold fabricOp
  dsimp only
  split
  · split
    · rfl
    · split
      · exact windowOp_cause ..
      · rfl
  · rfl

theorem onTray_next {n : String} {f : State → State} {s t : State} (h : onTray n s f = .next t) :
    t = s ∨ t = f s := by
  unfold onTray onTrayEver whenClocked at h
  split at h
  · simp only [Host.Outcome.next.injEq] at h
    subst h
    split
    · exact .inr rfl
    · exact .inl rfl
  · cases h

theorem onTray_cause {n : String} {f : State → State} (hf : ∀ u, (f u).boot.cause = u.boot.cause) {s t : State}
    (h : onTray n s f = .next t) : t.boot.cause = s.boot.cause := by
  rcases onTray_next h with rfl | rfl
  · rfl
  · exact hf s

theorem onRunning_cause {n op : Nat} {f : Cmd → State → State} (hf : ∀ c u, (f c u).boot.cause = u.boot.cause)
    (s : State) : (onRunning n op f s).boot.cause = s.boot.cause := by
  unfold onRunning
  split
  · split
    · exact hf _ s
    · rfl
  · rfl

theorem execMgmtDatagram_cause {source : NetSource} {payload : Bytes} {s t : State}
    (h : execMgmtDatagram source payload s = .next t) : t.boot.cause = s.boot.cause := by
  refine onTray_cause (fun u => ?_) h
  dsimp only
  split <;> rfl

theorem execTallyWriteback_cause {line : Nat} {s t : State} (h : execTallyWriteback line s = .next t) :
    t.boot.cause = s.boot.cause := by
  refine onTray_cause (fun u => ?_) h
  split <;> rfl

theorem execTallyClear_cause {m : Nat} {s t : State} (h : execTallyClear m s = .next t) :
    t.boot.cause = s.boot.cause := by
  refine onTray_cause (onRunning_cause fun c u => ?_) h
  have hfail (st : Nat) : (fail m c st u).boot.cause = u.boot.cause := (fail_keeps (Keeps.refl u)).cause
  split
  · exact hfail _
  · dsimp only
    split
    · exact cause_of_keeps (done_keeps (Keeps.refl _)) rfl
    · exact hfail _

theorem execFabricStore_cause {src : FabSource} {op : FabOp} {s t : State} (h : execFabricStore src op s = .next t) :
    t.boot.cause = s.boot.cause := onTray_cause (fabricOp_cause src op) h

theorem execFabricFadd_cause {src : FabSource} {addr : Nat} {v : BitVec 64} {s t : State}
    (h : execFabricFadd src addr v s = .next t) : t.boot.cause = s.boot.cause :=
  onTray_cause (fabricOp_cause src (.fadd addr v)) h

theorem execTallyOperation_cause {src : FabSource} {op : FabOp} {s t : State}
    (h : execTallyOperation src op s = .next t) : t.boot.cause = s.boot.cause := onTray_cause (fabricOp_cause src op) h

theorem exec_cause_of_storesBytes {c : Instr} {s t : State} (hc : storesBytes c = true) (h : exec c s = .next t) :
    t.boot.cause = s.boot.cause := by
  unfold storesBytes at hc
  split at hc
  · exact execFabricStore_cause h
  · exact execFabricFadd_cause h
  · exact execTallyOperation_cause h
  · exact execTallyWriteback_cause h
  · exact execMgmtDatagram_cause h
  · exact execTallyClear_cause h
  · cases hc

theorem writesCause_eq_false {c : Instr} (hpor : ∀ st f, c ≠ .powerOnReset st f) (hloss : c ≠ .powerLoss)
    (hblk : ∀ k f, c ≠ .rstBlkN k f) (hdog : ∀ k x f, c ≠ .stewardWatchdog k x f) : writesCause c = false := by
  cases hc : writesCause c with
  | false => rfl
  | true =>
    unfold writesCause at hc
    split at hc
    · exact absurd rfl (hpor _ _)
    · exact absurd rfl hloss
    · exact absurd rfl (hblk _ _)
    · exact absurd rfl (hdog _ _ _)
    · cases hc

/-- Settles O7: a command that stores bytes writes memory only, and every other that is no reset keeps RST_CAUSE by
`exec_keeps`. -/
theorem resetCauseChangesOnlyAtReset : Obligations.ResetCauseChangesOnlyAtReset := by
  intro c s t hpor hloss hblk hdog hexec
  cases hstore : storesBytes c with
  | true => exact exec_cause_of_storesBytes hstore hexec
  | false =>
    have hkeeps := exec_keeps s c hstore (writesCause_eq_false hpor hloss hblk hdog)
    rw [hexec] at hkeeps
    exact Keeps.cause hkeeps

end Sys2Proof.Machine
end

section
/-!
PROOFS. Which commands an instance answers, by its profile (00 R2).
-/

namespace Sys2Proof.Machine

/-- How the meaning of a command begins, by the profile that has it: a tray block's or a leaf's is refused elsewhere, and
one of both profiles answers a next state. -/
def beginsAs (r : Res) (s : State) : Option Profile → Prop
  | none => ∃ t, r = .next t
  | some .tray => ∃ name f, r = onTrayEver name s f
  | some .leaf => ∃ name f, r = onLeafEver name s f

theorem execRomRecoveryDatagram_begins (source : NetSource) (offset : BitVec 64) (part : Bytes) (found : StartFound)
    (s : State) : ∃ name f, execRomRecoveryDatagram source offset part found s = onTrayEver name s f := by
  unfold execRomRecoveryDatagram
  exact ⟨_, _, rfl⟩

theorem execBootDescriptorPoll_begins (host : HostView) (found : StartFound) (s : State) :
    ∃ name f, execBootDescriptorPoll host found s = onLeafEver name s f := by
  unfold execBootDescriptorPoll
  exact ⟨_, _, rfl⟩

theorem execSidebandAccess_begins (op : SbOp) (addr : Nat) (v : Word) (s : State) :
    ∃ name f, execSidebandAccess op addr v s = onLeafEver name s f := by
  unfold execSidebandAccess
  exact ⟨_, _, rfl⟩

/-- The head of each command's meaning, one case per constructor: the three that act without clocks, and the others, whose
witnesses are a state or the guard of a profile around `whenClocked`. -/
theorem exec_begins (c : Instr) (s : State) : beginsAs (exec c s) s c.profile? := by
  cases c
  case romRecoveryDatagram => exact execRomRecoveryDatagram_begins ..
  case bootDescriptorPoll => exact execBootDescriptorPoll_begins ..
  case sidebandAccess => exact execSidebandAccess_begins ..
  all_goals first
    | exact ⟨_, rfl⟩
    | exact ⟨_, _, rfl⟩

theorem onTrayEver_eq (name : String) (s : State) (f : State → State) : onTrayEver name s f =
    if s.profile = .tray then .next (f s) else .refused (.absentInProfile name) := by
  cases h : s.profile <;> simp [onTrayEver, h]

theorem onLeafEver_eq (name : String) (s : State) (f : State → State) : onLeafEver name s f =
    if s.profile = .leaf then .next (f s) else .refused (.absentInProfile name) := by
  cases h : s.profile <;> simp [onLeafEver, h]

/-- A command that both profiles have, or the instance's, answers a next state. -/
theorem exec_answers {c : Instr} {s : State} (h : ∀ p, c.profile? = some p → p = s.profile) :
    ∃ t, exec c s = .next t := by
  have hbegins := exec_begins c s
  rcases hp : c.profile? with _ | p
  · rwa [hp] at hbegins
  · have hs := h p hp
    rw [hp] at hbegins
    cases p
    · obtain ⟨name, f, hexec⟩ := hbegins
      exact ⟨f s, by simp [hexec, onLeafEver_eq, ← hs]⟩
    · obtain ⟨name, f, hexec⟩ := hbegins
      exact ⟨f s, by simp [hexec, onTrayEver_eq, ← hs]⟩

/-- A command of the other profile is refused as absent. -/
theorem exec_absent {c : Instr} {s : State} {p : Profile} (h : c.profile? = some p) (hne : p ≠ s.profile) :
    ∃ n, exec c s = .refused (.absentInProfile n) := by
  have hbegins := exec_begins c s
  rw [h] at hbegins
  cases p
  · obtain ⟨name, f, hexec⟩ := hbegins
    exact ⟨name, by simp [hexec, onLeafEver_eq, Ne.symm hne]⟩
  · obtain ⟨name, f, hexec⟩ := hbegins
    exact ⟨name, by simp [hexec, onTrayEver_eq, Ne.symm hne]⟩

/-- Settles O5: what a command begins with decides between an answer and a refusal, and `exec_keepsW` gives the queue and
the profile of the answer. -/
theorem execKeepsQueueAndProfile : Obligations.ExecKeepsQueueAndProfile := by
  refine ⟨fun c s h => ?_, fun c s p hp hne => exec_absent hp hne⟩
  obtain ⟨t, ht⟩ := exec_answers h
  have hkeeps := exec_keepsW c s
  rw [ht] at hkeeps
  exact ⟨t, ht, KeepsW.pending hkeeps, KeepsW.profile hkeeps⟩

end Sys2Proof.Machine
end

section
/-!
PROOFS. Power-on, the block reset and the start of the firmware (18 R472, 21 R531 to R534, 15 R423).
-/

namespace Sys2Proof.Machine

/-! ## SEC's layer 0 -/

/-- A programming of OTP touches the OTP, its port and what is emitted. -/
def OtpOnly (s t : State) : Prop :=
  ∃ otp addr din out, t = { s with otp := otp, pins := { s.pins with otpAddr := addr, otpDin := din }, out := out }

theorem OtpOnly.refl (s : State) : OtpOnly s s := ⟨_, _, _, _, rfl⟩

theorem OtpOnly.trans {s t u : State} (h : OtpOnly s t) (k : OtpOnly t u) : OtpOnly s u := by
  obtain ⟨_, _, _, _, rfl⟩ := h
  obtain ⟨_, _, _, _, rfl⟩ := k
  exact ⟨_, _, _, _, rfl⟩

theorem otpProgram_otpOnly (s : State) (a : Nat) (v : BitVec 32) : OtpOnly s (s.otpProgram a v) := ⟨_, _, _, _, rfl⟩

theorem foldl_otpOnly {α : Type} {f : State → α → State} (hf : ∀ s a, OtpOnly s (f s a)) (l : List α) (s : State) :
    OtpOnly s (l.foldl f s) := by
  induction l generalizing s with
  | nil => exact OtpOnly.refl s
  | cons a l ih => exact (hf s a).trans (ih (f s a))

theorem programUds_otpOnly (draw : List (BitVec 32)) (s : State) : OtpOnly s (programUds draw s) := by
  unfold programUds
  split
  · exact OtpOnly.refl s
  · exact (foldl_otpOnly (fun s i => otpProgram_otpOnly s i _) _ s).trans (otpProgram_otpOnly _ _ _)

/-- Layer 0 sets the pins to their reset values and forms the identity; a UDS that is set stays. -/
theorem layer0_eq (draw : List (BitVec 32)) (s : State) : ∃ otp out ident,
    layer0 draw s = { s with otp := otp, pins := resetPins s, ident := ident, out := out } ∧
      (s.udsSet = true → otp = s.otp) := by
  obtain ⟨otp, addr, din, out, h⟩ := programUds_otpOnly draw s
  refine ⟨otp, out, _, by rw [layer0, h]; rfl, fun hset => ?_⟩
  have hsame : programUds draw s = s := by rw [programUds, if_pos hset]
  rw [hsame] at h
  exact (congrArg State.otp h).symm

/-! ## A start of a tray block without firmware, and of a leaf -/

theorem pickFw_eq_none {s : State} (h : ∀ x ∈ s.flash.fw, x.act = none) : s.pickFw = none := by
  have horder : (s.flash.fw.zipIdx.map fun x => (x.2, x.1)).filter (fun x => x.2.act.isSome) = [] := by
    rw [List.filter_eq_nil_iff]
    rintro ⟨i, x⟩ hx
    obtain ⟨⟨y, j⟩, hy, heq⟩ := List.mem_map.mp hx
    have hmem : y ∈ s.flash.fw := (List.mem_zipIdx_iff_getElem?.mp hy) |> List.mem_of_getElem?
    cases heq
    simp [h y hmem]
  simp [State.pickFw, State.fwOrder, horder, sortBy]

theorem startTray_of_no_firmware {s : State} (found : StartFound) (h : ∀ x ∈ s.flash.fw, x.act = none) :
    startTray found s =
      { s with mode := .held, boot := { s.boot with rom := if s.romListens then some [] else none } } := by
  rw [startTray, pickFw_eq_none h]

/-- A start that ends in the hold: layer 0 alone, and the ROM loader of a tray block. -/
theorem start_of_leaf {s : State} (found : StartFound) (h : s.profile = .leaf) : ∃ otp out ident,
    start found s = { s with otp := otp, pins := resetPins s, ident := ident, out := out, mode := .held } ∧
      (s.udsSet = true → otp = s.otp) := by
  obtain ⟨otp, out, ident, hlayer, hotp⟩ := layer0_eq found.udsDraw s
  exact ⟨otp, out, ident, by simp [start, hlayer, h], hotp⟩

theorem start_of_tray_without_firmware {s : State} (found : StartFound) (h : s.profile = .tray)
    (hfw : ∀ x ∈ s.flash.fw, x.act = none) : ∃ otp out ident,
    start found s = { s with
      otp := otp, pins := resetPins s, ident := ident, out := out, mode := .held
      boot := { s.boot with rom := if s.romListens then some [] else none } } := by
  obtain ⟨otp, out, ident, hlayer, -⟩ := layer0_eq found.udsDraw s
  have hprofile : (layer0 found.udsDraw s).profile = .tray := by rw [hlayer]; exact h
  have hstart : start found s = startTray found (layer0 found.udsDraw s) := by simp only [start, hprofile]
  refine ⟨otp, out, ident, ?_⟩
  rw [hstart, hlayer]
  exact startTray_of_no_firmware found hfw

theorem hourStart_eq (s : State) : ∃ opt, hourStart s = { s with optime := opt } := by
  unfold hourStart
  split
  · exact ⟨_, rfl⟩
  · exact ⟨_, rfl⟩

theorem exec_powerOnReset (straps : Straps) (found : StartFound) (s : State) : ∃ opt,
    exec (.powerOnReset straps found) s = .next (start found
      { clearPower (if s.isTray then straps else noStraps) s with optime := opt, pwrEdge := some 0 }) := by
  obtain ⟨opt, h⟩ := hourStart_eq (clearPower (if s.isTray then straps else noStraps) s)
  refine ⟨opt, ?_⟩
  simp only [exec, execPowerOnReset, h]
  rfl

/-! ## The boot value -/

/-- Of three values in a row at most two are 0 or the old one. -/
theorem bootValue_ne (old draw : BitVec 32) : bootValue old draw ≠ 0 ∧ bootValue old draw ≠ old := by
  unfold bootValue
  split
  · next h => simpa using h
  · next h =>
    split
    · next h' => simpa using h'
    · next h' =>
      simp only [Bool.and_eq_true, bne_iff_ne, Classical.not_and_iff_not_or_not, Classical.not_not] at h h'
      constructor <;> bv_omega

/-- What the start of the firmware does not write: it leaves the boot value that it sets, and the descriptor. -/
structure FirmwareSame (s t : State) : Prop where
  profile : t.profile = s.profile
  stwBoot : t.stw.boot = s.stw.boot
  desc : t.boot.desc = s.boot.desc

theorem FirmwareSame.refl (s : State) : FirmwareSame s s := ⟨rfl, rfl, rfl⟩

theorem FirmwareSame.trans {s t u : State} (h : FirmwareSame s t) (k : FirmwareSame t u) : FirmwareSame s u :=
  ⟨k.profile.trans h.profile, k.stwBoot.trans h.stwBoot, k.desc.trans h.desc⟩

theorem writeClock_firmwareSame (kind pcyc optime : Nat) (flash : FlashAnswer) (s : State) :
    FirmwareSame s (writeClock kind pcyc optime flash s) := by
  simp only [writeClock]
  split <;> split <;> exact ⟨rfl, rfl, rfl⟩

theorem clockStart_firmwareSame (flash : FlashAnswer) (s : State) : FirmwareSame s (clockStart flash s) := by
  simp only [clockStart]
  split
  · refine FirmwareSame.trans ?_ (writeClock_firmwareSame _ _ _ _ _)
    split <;> exact ⟨rfl, rfl, rfl⟩
  · split <;> exact ⟨rfl, rfl, rfl⟩

theorem recorderStart_firmwareSame (flash : FlashAnswer) (s : State) : FirmwareSame s (recorderStart flash s) := by
  unfold recorderStart
  split
  · exact (clockStart_firmwareSame flash s).trans ⟨rfl, rfl, rfl⟩
  · exact FirmwareSame.refl s

theorem requestStep_firmwareSame (step : Int) (s : State) : FirmwareSame s (requestStep step s) := by
  unfold requestStep
  split <;> exact ⟨rfl, rfl, rfl⟩

theorem restoreNext_firmwareSame (s : State) : FirmwareSame s (restoreNext s) := by
  unfold restoreNext
  split
  · exact FirmwareSame.refl s
  · exact requestStep_firmwareSame _ s

theorem marginStart_firmwareSame (s : State) : FirmwareSame s (marginStart s) := by
  unfold marginStart
  split
  · refine FirmwareSame.trans ?_ (restoreNext_firmwareSame _)
    exact ⟨rfl, rfl, rfl⟩
  · exact FirmwareSame.refl s

theorem readOtp_firmwareSame (s : State) : FirmwareSame s (readOtp s) := by
  constructor <;> simp only [readOtp]

theorem startFirmware_boot (fw : Bytes) (copy : Option Nat) (found : StartFound) (s : State) :
    (startFirmware fw copy found s).stw.boot = bootValue s.stw.boot found.bootDraw ∧
      (startFirmware fw copy found s).boot.desc = s.boot.desc ∧
      (startFirmware fw copy found s).profile = s.profile := by
  have hsame : FirmwareSame { s with stw := { s.stw with boot := bootValue s.stw.boot found.bootDraw } }
      (startFirmware fw copy found s) := by
    unfold startFirmware
    dsimp only
    refine FirmwareSame.trans ?_ (marginStart_firmwareSame _)
    refine FirmwareSame.trans ?_ ((recorderStart_firmwareSame _ _).trans (readOtp_firmwareSame _))
    split <;> exact ⟨rfl, rfl, rfl⟩
  exact ⟨hsame.stwBoot, hsame.desc, hsame.profile⟩

theorem startFirmware_boot_ne (fw : Bytes) (copy : Option Nat) (found : StartFound) (s : State) :
    (startFirmware fw copy found s).stw.boot ≠ 0 ∧ (startFirmware fw copy found s).stw.boot ≠ s.stw.boot := by
  rw [(startFirmware_boot fw copy found s).1]
  exact bootValue_ne _ _

theorem rstState_of_fresh_hold {u : State} (hmode : u.mode = .held) (hsticky : u.sticky = Sticky.clear)
    (hshown : u.boot.shown = .reset) (hbiv : u.boot.bivCause = 0) (hsem : u.boot.semItem = 0) : u.rstState = 0 := by
  simp [State.rstState, State.clocked, hmode, hsticky, hshown, hbiv, hsem, Sticky.clear, modeCode, fieldAt, b2n]

/-- Settles O11: without an activated copy no firmware is picked, so that the start ends with layer 0 in the hold. -/
theorem powerOnWithoutFirmwareHolds : Obligations.PowerOnWithoutFirmwareHolds := by
  refine ⟨fun s st f hp hfw => ?tray, fun s st f hp => ?leaf, startFirmware_boot_ne⟩
  case tray =>
    obtain ⟨opt, hexec⟩ := exec_powerOnReset st f s
    have htray : s.isTray = true := by simp [State.isTray, hp]
    rw [htray, if_pos rfl] at hexec
    obtain ⟨otp, out, ident, hstart⟩ := start_of_tray_without_firmware
      (s := { clearPower st s with optime := opt, pwrEdge := some 0 }) f hp hfw
    refine ⟨_, hexec, ?_⟩
    rw [hstart]
    refine ⟨rfl, rfl, rfl, rfl, rfl, ?_, ?_⟩
    · rw [rstState_of_fresh_hold rfl rfl rfl rfl rfl]
      rfl
    have hlisten : ∀ u : State, u.profile = .tray → u.straps = st →
        (u.romListens = true ↔ st.boot = 1 ∧ st.mgmtEn = true) := by
      intro u hu hst
      simp [State.romListens, State.isTray, hu, hst]
    exact ite_congr (propext (hlisten _ hp rfl)) (fun _ => rfl) fun _ => rfl
  case leaf =>
    obtain ⟨opt, hexec⟩ := exec_powerOnReset st f s
    have htray : s.isTray = false := by simp [State.isTray, hp]
    rw [htray, if_neg Bool.false_ne_true] at hexec
    obtain ⟨otp, out, ident, hstart, -⟩ := start_of_leaf
      (s := { clearPower noStraps s with optime := opt, pwrEdge := some 0 }) f hp
    refine ⟨_, hexec, ?_⟩
    rw [hstart]
    exact ⟨rfl, rfl, rfl, rfl, rfl⟩

/-! ## What a block reset keeps -/

/-- The parts of the state that a block reset clears, and those that it keeps (18 R472). -/
theorem openDump_eq (s : State) : ∃ owner, openDump s = { s with dump := { s.dump with owner := owner } } := by
  simp only [openDump]
  split
  · exact ⟨_, rfl⟩
  · exact ⟨_, rfl⟩

theorem blockReset_of_leaf {s : State} (cause : ResetCause) (found : StartFound) (h : s.profile = .leaf) :
    ∃ otp out ident owner rst sb, blockReset cause found s =
      { clearBlock s with
        otp := otp, pins := resetPins (clearBlock s), ident := ident, out := out, mode := .held, sb := sb
        dump := { s.dump with owner := owner }, boot := { (clearBlock s).boot with cause := rst } } ∧
      (s.udsSet = true → otp = s.otp) := by
  obtain ⟨owner, hdump⟩ := openDump_eq s
  unfold blockReset
  rw [hdump]
  obtain ⟨otp, out, ident, hstart, hotp⟩ := start_of_leaf (s := { clearBlock s with
    sb := { (clearBlock s).sb with dead := s.sb.dead && cause != .pin }
    dump := { s.dump with owner := owner }
    boot := { (clearBlock s).boot with cause := nextCause s.boot.cause cause } }) found h
  exact ⟨otp, out, ident, owner, _, _, hstart, hotp⟩

/-- Settles O12: after `clearBlock`, which starts from the reset state and takes over what is kept, a leaf's start is
layer 0 alone. -/
theorem blockResetKeepsItsList : Obligations.BlockResetKeepsItsList := by
  intro s f hp hpowered hjust
  obtain ⟨otp, out, ident, owner, rst, sb, hreset, hotp⟩ := blockReset_of_leaf .pin f hp
  refine ⟨_, exec_rstBlkN_pin f hpowered hjust, ?_⟩
  rw [hreset]
  exact ⟨rfl, rfl, rfl, rfl, rfl, hotp, rfl, rfl, rfl, rfl, rfl, rfl, rfl, rfl, rfl, rfl, rfl, rfl, rfl, rfl⟩

/-! ## The ROM loader and the boot descriptor -/

theorem onTrayEver_of_tray {s : State} (h : s.profile = .tray) (name : String) (f : State → State) :
    onTrayEver name s f = .next (f s) := by
  rw [onTrayEver_eq, if_pos h]

theorem onLeafEver_of_leaf {s : State} (h : s.profile = .leaf) (name : String) (f : State → State) :
    onLeafEver name s f = .next (f s) := by
  rw [onLeafEver_eq, if_pos h]

/-- A part that leaves the image incomplete is stored and echoed. -/
theorem exec_romRecoveryDatagram_of_part {s : State} {parts : List (Nat × Bytes)} (src : NetSource) (off : BitVec 64)
    (part : Bytes) (found : StartFound) (hp : s.profile = .tray) (hmode : s.mode = .held)
    (hrom : s.boot.rom = some parts) (hlo : 64 ≤ part.length) (hhi : part.length ≤ 1024)
    (hwhole : romWhole ((off.toNat, part) :: parts) = none) :
    exec (.romRecoveryDatagram src off part found) s = .next { s with
      boot := { s.boot with rom := some ((off.toNat, part) :: parts) }
      out := s.out ++ [s.mgmtOut src (le 8 off.toNat)] } := by
  have hlen : (part.length < 64 || 1024 < part.length) = false := by
    simp only [Bool.or_eq_false_iff, decide_eq_false_iff_not]
    omega
  simp only [exec, execRomRecoveryDatagram, onTrayEver_of_tray hp, hrom, hmode, bne_self_eq_false, Bool.false_or, hlen,
    hwhole, Bool.false_eq_true, if_false]
  rfl

/-- What the reads of the host leave as they are. -/
structure HostSame (s t : State) : Prop where
  profile : t.profile = s.profile
  boot : t.boot = s.boot
  mode : t.mode = s.mode
  stw : t.stw = s.stw
  otp : t.otp = s.otp

theorem HostSame.refl (s : State) : HostSame s s := ⟨rfl, rfl, rfl, rfl, rfl⟩

theorem HostSame.trans {s t u : State} (h : HostSame s t) (k : HostSame t u) : HostSame s u :=
  ⟨k.profile.trans h.profile, k.boot.trans h.boot, k.mode.trans h.mode, k.stw.trans h.stw, k.otp.trans h.otp⟩

theorem hfPoison_hostSame (n : Nat) (s : State) : HostSame s (hfPoison n s) := by
  constructor <;> simp only [hfPoison, State.countHealth_fields]

theorem hfFaultAt_hostSame (a : Nat) (s : State) : HostSame s (hfFaultAt a s) := by
  constructor <;> simp only [hfFaultAt, State.emit_fields, State.countHealth_fields, State.setBit_fields]

theorem foldl_hfFaultAt_hostSame (ls : List Nat) (s : State) :
    HostSame s (ls.foldl (fun s l => hfFaultAt l s) s) := by
  induction ls generalizing s with
  | nil => exact HostSame.refl s
  | cons l ls ih => exact (hfFaultAt_hostSame l s).trans (ih _)

theorem hostFaults_hostSame (host : HostView) (a n : Nat) (s : State) : HostSame s (hostFaults host a n s) := by
  unfold hostFaults
  exact (hfPoison_hostSame _ s).trans (foldl_hfFaultAt_hostSame _ _)

theorem HostSame.otpSvn {s t : State} (h : HostSame s t) : t.otpSvn = s.otpSvn := by
  simp only [State.otpSvn, State.otpBits, State.otpRead, h.otp]

theorem foldl_sendCtl_firmwareSame (ns : List Nat) (m : Bytes) (s : State) :
    FirmwareSame s (ns.foldl (fun s n => s.sendCtl n m) s) := by
  induction ns generalizing s with
  | nil => exact FirmwareSame.refl s
  | cons n ns ih =>
    refine FirmwareSame.trans ?_ (ih _)
    exact ⟨rfl, rfl, rfl⟩

theorem sendLeafStatus_firmwareSame (s : State) (kind : Nat) (args : List Nat) :
    FirmwareSame s (s.sendLeafStatus kind args) := foldl_sendCtl_firmwareSame _ _ s

theorem enterBivouac_firmwareSame (cause item : Nat) (s : State) : FirmwareSame s (enterBivouac cause item s) := by
  unfold enterBivouac
  dsimp only
  split
  · refine FirmwareSame.trans (t := State.sendLeafStatus _ _ _) ?_ ⟨rfl, rfl, rfl⟩
    refine FirmwareSame.trans ?_ (sendLeafStatus_firmwareSame _ _ _)
    exact ⟨rfl, rfl, rfl⟩
  · exact ⟨rfl, rfl, rfl⟩

theorem startBivouac_firmwareSame (c : Cfg) (cause item : Nat) (s : State) :
    FirmwareSame s (startBivouac c cause item s) := by
  refine FirmwareSame.trans ?_ (enterBivouac_firmwareSame cause item _)
  exact ⟨rfl, rfl, rfl⟩

theorem activate_firmwareSame (c : Nat) (g : BitVec 16) (k winBase winSize : Nat) (s : State) :
    FirmwareSame s (activate c g k winBase winSize s) := by
  unfold activate
  dsimp only
  split <;> exact ⟨rfl, rfl, rfl⟩

theorem startLive_firmwareSame (s : State) : FirmwareSame s (startLive s) := by
  unfold startLive
  split <;> exact ⟨rfl, rfl, rfl⟩

theorem startService_firmwareSame (c : Cfg) (s : State) : FirmwareSame s (startService c s) := by
  have hlive (u : State) : FirmwareSame u (if u.age.restore = 0 then startLive u else u) := by
    split
    · exact startLive_firmwareSame u
    · exact FirmwareSame.refl u
  unfold startService
  dsimp only
  refine FirmwareSame.trans ?_ (hlive _)
  split
  · exact ⟨rfl, rfl, rfl⟩
  · refine FirmwareSame.trans (t := activate _ _ _ _ _ _) ?_ ⟨rfl, rfl, rfl⟩
    refine FirmwareSame.trans ?_ (activate_firmwareSame _ _ _ _ _ _)
    exact ⟨rfl, rfl, rfl⟩

theorem applyCfg_firmwareSame (b : Bytes) (found : StartFound) (s : State) : FirmwareSame s (applyCfg b found s) := by
  unfold applyCfg
  dsimp only
  split
  · refine FirmwareSame.trans ?_ (startBivouac_firmwareSame _ _ _ _)
    exact ⟨rfl, rfl, rfl⟩
  · exact startBivouac_firmwareSame _ _ _ s
  · split
    · refine FirmwareSame.trans ?_ (startBivouac_firmwareSame _ _ _ _)
      exact ⟨rfl, rfl, rfl⟩
    · refine FirmwareSame.trans ?_ (startService_firmwareSame _ _)
      exact ⟨rfl, rfl, rfl⟩

theorem configureLeaf_firmwareSame (d : BootDesc) (host : HostView) (found : StartFound) (s : State) :
    FirmwareSame s (configureLeaf d host found s) := by
  unfold configureLeaf
  split
  · exact startBivouac_firmwareSame _ _ _ s
  · refine FirmwareSame.trans ?_ (applyCfg_firmwareSame _ _ _)
    have h := hostFaults_hostSame host d.cfgAddr d.cfgLen s
    exact ⟨h.profile, congrArg StwSt.boot h.stw, congrArg BootSt.desc h.boot⟩

/-- A held leaf that reads a descriptor: its state once the descriptor is kept and the firmware read. -/
def descRead (host : HostView) (d : BootDesc) (s : State) : State :=
  let s0 := hostFaults host (4096 * Config.leafBootPage) 64 s
  hostFaults host d.fwAddr d.fwLen { s0 with boot := { s0.boot with desc := some d } }

theorem descRead_same (host : HostView) (d : BootDesc) (s : State) :
    HostSame { s with boot := { s.boot with desc := some d } } (descRead host d s) := by
  have h := hostFaults_hostSame host (4096 * Config.leafBootPage) 64 s
  refine HostSame.trans ?_ (hostFaults_hostSame host d.fwAddr d.fwLen _)
  refine ⟨h.profile, ?_, h.mode, h.stw, h.otp⟩
  simp only [h.boot]

theorem exec_bootDescriptorPoll {s : State} (host : HostView) (found : StartFound) (hp : s.profile = .leaf)
    (hmode : s.mode = .held) (hdesc : s.boot.desc = none) :
    exec (.bootDescriptorPoll host found) s = .next
      (match (hostRead host (4096 * Config.leafBootPage) 64).bind readDesc with
      | none => hostFaults host (4096 * Config.leafBootPage) 64 s
      | some d =>
        let fw := (hostRead host d.fwAddr d.fwLen).getD []
        if fwOk .leaf s.otpSvn fw then configureLeaf d host found (startFirmware fw none found (descRead host d s))
        else descRead host d s) := by
  have hsame (d : BootDesc) := descRead_same host d s
  have hprofile (d : BootDesc) : (descRead host d s).profile = .leaf := (hsame d).profile.trans hp
  have hsvn (d : BootDesc) : (descRead host d s).otpSvn = s.otpSvn := (hsame d).otpSvn
  simp only [descRead] at hprofile hsvn
  simp only [exec, execBootDescriptorPoll, onLeafEver_of_leaf hp, hmode, hdesc, bne_self_eq_false, Option.isSome_none,
    Bool.or_self, Bool.false_eq_true, if_false, hprofile, hsvn, descRead] <;> rfl

/-- Settles O13: the reads of the host change nothing that the start looks at, and of what follows a good firmware image
only `startFirmware` sets a boot value. -/
theorem romLoaderAndBootDescriptor : Obligations.RomLoaderAndBootDescriptor := by
  refine ⟨fun s src off part f parts hp hmode hrom hlo hhi hwhole =>
    exec_romRecoveryDatagram_of_part src off part f hp hmode hrom hlo hhi hwhole,
    fun s host f d hp hmode hdesc hread => ⟨_, exec_bootDescriptorPoll host f hp hmode hdesc, ?desc⟩,
    fun s host f hp hmode hdesc hread => ⟨_, exec_bootDescriptorPoll host f hp hmode hdesc, ?none⟩⟩
  case desc =>
    have hsame := descRead_same host d s
    rw [hread]
    dsimp only
    split
    · next hok =>
      generalize (hostRead host d.fwAddr d.fwLen).getD [] = fw at hok ⊢
      have hconf := configureLeaf_firmwareSame d host f (startFirmware fw none f (descRead host d s))
      obtain ⟨hboot, hkept, -⟩ := startFirmware_boot fw none f (descRead host d s)
      refine ⟨hconf.desc.trans (hkept.trans (congrArg BootSt.desc hsame.boot)),
        fun hbad => absurd (hok.symm.trans hbad) (by decide), fun _ => ?_⟩
      rw [hconf.stwBoot, hboot, show (descRead host d s).stw.boot = s.stw.boot from congrArg StwSt.boot hsame.stw]
      exact bootValue_ne _ _
    · next hbad =>
      exact ⟨congrArg BootSt.desc hsame.boot,
        fun _ => ⟨hsame.mode.trans hmode, congrArg StwSt.boot hsame.stw⟩, fun hok => absurd hok hbad⟩
  case none =>
    have h := hostFaults_hostSame host (4096 * Config.leafBootPage) 64 s
    rw [hread]
    exact ⟨h.boot, h.mode.trans hmode⟩

end Sys2Proof.Machine
end

section
/-!
PROOFS. TIM_SET and TIM_STEP (03 R87).
-/

namespace Sys2Proof.Machine

theorem settable_iff (x : TimeState) : x.settable = true ↔ x = .free ∨ x = .acquire := by
  cases x <;> decide

theorem malformed_iff (t : ITime) : t.malformed = true ↔ 999999999 < t.ns.toNat := by
  simp only [ITime.malformed, decide_eq_true_eq]

theorem orBit_16 (w : BitVec 32) : orBit w 16 = w ||| 0x00010000 := rfl

/-- A refused write sets TIM_WRITE_REFUSED and nothing else. -/
theorem refuseTimWrite_spec (s : State) :
    (refuseTimWrite s).sticky = { s.sticky with tim := s.sticky.tim ||| 0x00010000 } ∧
      refuseTimWrite s =
        { s with sticky := (refuseTimWrite s).sticky, raisedNow := (refuseTimWrite s).raisedNow } := by
  refine ⟨?_, rfl⟩
  rw [refuseTimWrite_eq, (State.setBit_set s .tim 16).1, Sticky.set, orBit_16]

theorem exec_timSet {s : State} (v : BitVec 128) (h : s.clocked = true) : exec (.timSet v) s = .next (setTime v s) := by
  rw [exec, execTimSet, whenClocked_of_clocked h]

theorem exec_timStep {s : State} (v : BitVec 64) (h : s.clocked = true) : exec (.timStep v) s = .next (stepTime v s) := by
  rw [exec, execTimStep, whenClocked_of_clocked h]

@[simp] theorem begun_now (t : TimeSt) : t.begun.now = t.now := by
  unfold TimeSt.begun
  split
  · rfl
  · split <;> rfl

@[simp] theorem begun_setPend (t : TimeSt) : t.begun.setPend = t.setPend := by
  unfold TimeSt.begun
  split
  · rfl
  · split <;> rfl

@[simp] theorem begun_stepPend (t : TimeSt) : t.begun.stepPend = t.stepPend := by
  unfold TimeSt.begun
  split
  · rfl
  · split <;> rfl

@[simp] theorem shift_pending (t : TimeSt) (d : Int) : (t.shift d).now = t.now ∧ (t.shift d).setPend = t.setPend ∧
    (t.shift d).stepPend = t.stepPend := ⟨rfl, rfl, rfl⟩

theorem edge_of_setPend {t : TimeSt} {v : BitVec 128} (h : t.setPend = some v) :
    t.edge.now = ITime.ofBits v ∧ t.edge.setPend = none := by
  cases hcommit : t.commit <;> simp [TimeSt.edge, hcommit, h]

theorem edge_of_stepPend {t : TimeSt} {d : BitVec 64} (hcommit : t.commit = none) (hset : t.setPend = none)
    (hstep : t.stepPend = some d) :
    t.edge.now = stepBy (addInc t.now t.incInt t.incFrac) d.toInt ∧ t.edge.stepPend = none := by
  simp [TimeSt.edge, hcommit, hset, hstep]

/-- Settles O16: both writes look at `settable`, and `refuseTimWrite` is what is left otherwise. -/
theorem timeSetAndStepOnlyBeforeLock : Obligations.TimeSetAndStepOnlyBeforeLock := by
  refine ⟨fun v s hc hs hns => ?_, fun v s hc hs => ?_, fun v s hc hbad => ⟨_, exec_timSet v hc, ?_⟩,
    fun v s hc hs => ⟨_, exec_timStep v hc, ?_⟩, fun t v h => edge_of_setPend h,
    fun t d hcommit hset hstep => edge_of_stepPend hcommit hset hstep⟩
  · have hgood : (ITime.ofBits v).malformed = false := by
      rw [Bool.eq_false_iff, ne_eq, malformed_iff]
      omega
    rw [exec_timSet v hc, setTime, (settable_iff _).mpr hs, hgood]
    rfl
  · rw [exec_timStep v hc, stepTime, if_pos ((settable_iff _).mpr hs)]
  · have hrefused : setTime v s = refuseTimWrite s := by
      refine if_neg ?_
      rw [Bool.and_eq_true, settable_iff, Bool.not_eq_true', Bool.eq_false_iff, ne_eq, malformed_iff]
      rintro ⟨hs, hns⟩
      exact hbad.elim (· hs) hns
    rw [hrefused]
    exact refuseTimWrite_spec s
  · rw [stepTime, if_neg (by rwa [settable_iff])]
    exact refuseTimWrite_spec s

end Sys2Proof.Machine
end

section
/-!
PROOFS. PPS, SLOT_SYNC, IEEE 1588 and the duplicated counters (03 R76, R93, R97, R98, R101, R102, 17 R444).
-/

namespace Sys2Proof.Machine

theorem onLeaf_of_runs {s : State} (h : s.runsAs .leaf = true) (name : String) (f : State → State) :
    onLeaf name s f = .next (f s) := by
  simp only [State.runsAs, Bool.and_eq_true, beq_iff_eq] at h
  obtain ⟨hprofile, hclocked⟩ := h
  simp [onLeaf, onLeafEver, hprofile, hclocked]

theorem runsAs_iff (s : State) (p : Profile) : s.runsAs p = true ↔ s.profile = p ∧ s.clocked = true := by
  simp only [State.runsAs, Bool.and_eq_true, beq_iff_eq]

/-! ## The servo leaves the stamps alone -/

/-- The lanes, the schedule and the stamps of the time inputs are in t as they are in s. -/
structure StampsSame (s t : State) : Prop where
  lanes : t.lanes = s.lanes
  sched : t.sched = s.sched
  ppsAt : t.tim.ppsAt = s.tim.ppsAt
  syncAt : t.tim.syncAt = s.tim.syncAt
  coarse : t.tim.coarse = s.tim.coarse

theorem StampsSame.refl (s : State) : StampsSame s s := ⟨rfl, rfl, rfl, rfl, rfl⟩

theorem StampsSame.trans {s t u : State} (h : StampsSame s t) (k : StampsSame t u) : StampsSame s u :=
  ⟨k.lanes.trans h.lanes, k.sched.trans h.sched, k.ppsAt.trans h.ppsAt, k.syncAt.trans h.syncAt,
    k.coarse.trans h.coarse⟩

/-- `trans` with the later step first, which fixes the state between. -/
theorem StampsSame.after {s t u : State} (k : StampsSame t u) (h : StampsSame s t) : StampsSame s u := h.trans k

theorem withTim_stampsSame {s : State} {t : TimeSt} (hpps : t.ppsAt = s.tim.ppsAt) (hsync : t.syncAt = s.tim.syncAt)
    (hcoarse : t.coarse = s.tim.coarse) : StampsSame s { s with tim := t } := ⟨rfl, rfl, hpps, hsync, hcoarse⟩

theorem writeInc_stampsSame (v : Nat) (s : State) : StampsSame s (writeInc v s) := by
  unfold writeInc
  generalize BitVec.ofNat 8 (v / 2 ^ 32) = i
  generalize BitVec.ofNat 32 v = f
  unfold writeIncInt
  dsimp only
  split
  · exact withTim_stampsSame rfl rfl rfl
  · exact ⟨rfl, rfl, rfl, rfl, rfl⟩

theorem holdOver_stampsSame (s : State) : StampsSame s (holdOver s) := by
  unfold holdOver
  split
  · exact (writeInc_stampsSame _ _).after (withTim_stampsSame rfl rfl rfl)
  · exact StampsSame.refl s

theorem reselect_stampsSame (s : State) : StampsSame s (reselect s) := by
  unfold reselect
  dsimp only
  split
  · exact holdOver_stampsSame s
  · exact (holdOver_stampsSame _).after (withTim_stampsSame rfl rfl rfl)

/-- What the loop makes of the counter's state: its integral part, and the increments that it holds. -/
theorem servoLoop_eq (theta : Int) (s : State) : ∃ inc integ held base,
    servoLoop theta s = writeInc inc { s with
      tim := { s.tim with integ := integ, heldIncs := held, baseInc := base } } := by
  unfold servoLoop
  dsimp only
  split
  · split
    · exact ⟨_, _, _, _, rfl⟩
    · exact ⟨_, _, _, _, rfl⟩
  · split
    · exact ⟨_, _, _, _, rfl⟩
    · exact ⟨_, _, _, _, rfl⟩

theorem servoLoop_stampsSame (theta : Int) (s : State) : StampsSame s (servoLoop theta s) := by
  obtain ⟨inc, integ, held, base, h⟩ := servoLoop_eq theta s
  rw [h]
  exact (writeInc_stampsSame _ _).after (withTim_stampsSame rfl rfl rfl)

theorem stepTime_stampsSame (v : BitVec 64) (s : State) : StampsSame s (stepTime v s) := by
  unfold stepTime
  split
  · exact withTim_stampsSame rfl rfl rfl
  · exact ⟨rfl, rfl, rfl, rfl, rfl⟩

theorem lockTime_stampsSame (s : State) : StampsSame s (lockTime s) := ⟨rfl, rfl, rfl, rfl, rfl⟩

theorem setState_stampsSame {s u : State} (st : TimeState) (h : StampsSame s u) :
    StampsSame s { u with tim := { u.tim with state := st, lockRun := 0, overRun := 0 } } :=
  h.trans (withTim_stampsSame rfl rfl rfl)

theorem ite_stampsSame {s t u : State} {p : Prop} [Decidable p] (ht : StampsSame s t) (hu : StampsSame s u) :
    StampsSame s (if p then t else u) := by
  split <;> assumption

theorem servoLoop_withTim_stampsSame (theta : Int) {s : State} {t : TimeSt} (hpps : t.ppsAt = s.tim.ppsAt)
    (hsync : t.syncAt = s.tim.syncAt) (hcoarse : t.coarse = s.tim.coarse) :
    StampsSame s (servoLoop theta { s with tim := t }) :=
  (servoLoop_stampsSame theta _).after (withTim_stampsSame hpps hsync hcoarse)

theorem servo_stampsSame (theta : Int) (s : State) : StampsSame s (servo theta s) := by
  unfold servo
  dsimp only
  split
  · refine ite_stampsSame ?_ (ite_stampsSame ((lockTime_stampsSame _).after ?_) ?_)
    · exact (stepTime_stampsSame _ s).trans (withTim_stampsSame rfl rfl rfl)
    all_goals exact servoLoop_withTim_stampsSame theta rfl rfl rfl
  · refine ite_stampsSame ?_ (ite_stampsSame ((lockTime_stampsSame _).after ?_) ?_)
    · exact (stepTime_stampsSame _ s).trans (withTim_stampsSame rfl rfl rfl)
    all_goals exact servoLoop_withTim_stampsSame theta rfl rfl rfl
  · refine ite_stampsSame ?_ (ite_stampsSame ?_ (setState_stampsSame _ (servoLoop_stampsSame theta s)))
    all_goals exact servoLoop_withTim_stampsSame theta rfl rfl rfl
  · have hloop : StampsSame s (servoLoop theta { s with tim := { s.tim with
        lockRun := if theta.natAbs ≤ oneNs.toNat then s.tim.lockRun + 1 else 0
        overRun := if 4 * oneNs.toNat < theta.natAbs then s.tim.overRun + 1 else 0 } }) :=
      servoLoop_withTim_stampsSame theta rfl rfl rfl
    refine ite_stampsSame (setState_stampsSame _ ?_) ?_
    all_goals exact ite_stampsSame (setState_stampsSame _ hloop) (ite_stampsSame (setState_stampsSame _ hloop) hloop)

/-! ## The time inputs of a grandmaster -/

theorem exec_ppsInEdge {s : State} (hruns : s.runsAs .tray = true) (hmember : s.grandmasterMember = true) :
    ∃ t, exec (.ppsInEdge true) s = .next t ∧
      StampsSame { s with tim := { s.tim with ppsAt := some s.now } } t := by
  refine ⟨_, by rw [exec, execPpsInEdge, onTray_of_runs hruns], ?_⟩
  rw [hmember, Bool.and_self, if_pos rfl]
  dsimp only
  split
  · exact (servo_stampsSame _ _).after (reselect_stampsSame _)
  · exact reselect_stampsSame _

theorem onTray_id_of_tray {s : State} (h : s.profile = .tray) {name : String} {f : State → State} (hf : f s = s) :
    onTray name s f = .next s := by
  rw [onTray, onTrayEver_of_tray h, whenClocked, hf, ite_self]

/-- An edge within half an epoch of the latest boundary is its deviation, and is kept for the next. -/
theorem exec_slotSyncEdge_near {s : State} {b : Boundary} {bs : List Boundary} (hruns : s.runsAs .tray = true)
    (hpast : s.sched.past = b :: bs) (hlo : b.t ≤ s.now + nsT b.epochNs / 2) (hhi : s.now ≤ b.t + nsT b.epochNs / 2)
    (hfirst : s.sched.slotNow = none) :
    exec (.slotSyncEdge true) s = .next { s with sched := { s.sched with
      slotDev := slotDevCode (some ((s.now : Int) - b.t))
      slotNow := some ((s.now : Int) - b.t)
      slotMiss := 0
      slotEdges := s.now :: s.sched.slotEdges.take 7 } } := by
  have hnear : (b.t ≤ s.now + nsT b.epochNs / 2 && s.now ≤ b.t + nsT b.epochNs / 2) = true := by
    simp only [hlo, hhi, decide_true, Bool.and_self]
  rw [exec, execSlotSyncEdge, onTray_of_runs hruns]
  simp only [Bool.not_true, Bool.false_eq_true, if_false, hpast, hnear, if_true, hfirst, nearerDev, noteSlotEdge]

/-! ## IEEE 1588 -/

section Ptp

variable {s : State} {m : PtpMsg}

theorem exec_ptp_announce {i : Nat} (hruns : s.runsAs .tray = true) (hmgmt : s.mgmtOn = true)
    (htransport : m.transportOk = true) (hkind : m.kind = .announce) (hsender : m.sender = some i) :
    ∃ t, exec (.ptpMessageReceive m) s = .next t ∧
      t.tim.announced = (i, s.mgRx m.edge) :: s.tim.announced.filter (·.1 != i) ∧ t.lanes = s.lanes ∧
      t.sched = s.sched := by
  refine ⟨_, by rw [exec, execPtpMessageReceive, onTray_of_runs hruns], ?_⟩
  simp only [hmgmt, htransport, hkind, hsender, Bool.not_true, Bool.or_self, Bool.false_eq_true, if_false]
  split
  · exact ⟨rfl, rfl, rfl⟩
  · exact ⟨rfl, rfl, rfl⟩

theorem ptpTake_spec (origin t2 : Ticks) (correction : Int) (s : State) :
    (ptpTake origin t2 correction s).tim.coarse =
        some (((origin : Int) + correction + s.tim.peerDelay.getD 0).toNat, t2) ∧
      (s.tim.peerDelay.isSome = true → (ptpTake origin t2 correction s).tim.syncAt = some t2) ∧
      (ptpTake origin t2 correction s).lanes = s.lanes ∧ (ptpTake origin t2 correction s).sched = s.sched := by
  have hsame : StampsSame { s with tim := { s.tim with
      syncAt := if s.tim.peerDelay.isSome then some t2 else s.tim.syncAt
      twoStep := none
      coarse := some (((origin : Int) + correction + s.tim.peerDelay.getD 0).toNat, t2) } }
      (ptpTake origin t2 correction s) := by
    unfold ptpTake
    dsimp only
    exact ite_stampsSame ((servo_stampsSame _ _).after (reselect_stampsSame _)) (reselect_stampsSame _)
  exact ⟨hsame.coarse, fun h => hsame.syncAt.trans (if_pos h), hsame.lanes, hsame.sched⟩

theorem exec_ptp_sync {i : Nat} (hruns : s.runsAs .tray = true) (hmgmt : s.mgmtOn = true)
    (htransport : m.transportOk = true) (hkind : m.kind = .sync) (hsender : m.sender = some i)
    (hmaster : s.ptpMaster = some i) :
    exec (.ptpMessageReceive m) s = .next
      (if m.twoStep then { s with tim := { s.tim with twoStep := some (m.seq, s.mgRx m.edge, m.correction) } }
      else ptpTake m.origin (s.mgRx m.edge) m.correction s) := by
  rw [exec, execPtpMessageReceive, onTray_of_runs hruns]
  simp only [hmgmt, htransport, hkind, hsender, hmaster, Bool.not_true, Bool.or_self, Bool.false_eq_true, if_false,
    Option.isSome_some, beq_self_eq_true, Bool.and_self, if_true]

theorem exec_ptp_pdelayReq (hruns : s.runsAs .tray = true) (hmgmt : s.mgmtOn = true)
    (htransport : m.transportOk = true) (hkind : m.kind = .pdelayReq) :
    exec (.ptpMessageReceive m) s = .next { s with
      tim := { s.tim with pdelayAnswers := s.tim.pdelayAnswers + 1 }
      out := s.out ++ [.ptpSend .pdelayResp m.seq (s.mgRx m.edge) (s.mgTx s.now)
        (if m.udp6 then some (Config.udpChecksum (Config.ptpBytes 3 m.seq (s.mgRx m.edge) (s.mgTx s.now))) else none)] } := by
  rw [exec, execPtpMessageReceive, onTray_of_runs hruns]
  simp only [hmgmt, htransport, hkind, Bool.not_true, Bool.or_self, Bool.false_eq_true, if_false]
  rfl

end Ptp

/-! ## The duplicated counters -/

theorem exec_timDupFail {s : State} (h : s.clocked = true) : exec .timDupFail s = .next
    { (s.errBit 24).count 6 300 1 with tim := { ((s.errBit 24).count 6 300 1).tim with
      state := .acquire, dupFail := true, lockRun := 0, overRun := 0, integ := 0 } } := by
  rw [exec, execTimDupFail, whenClocked_of_clocked h]

theorem count_of_tray {s : State} (h : s.profile = .tray) (i k n : Nat) : s.count i k n = s.errCount i n := by
  simp only [State.count, h]

theorem count_of_leaf {s : State} (h : s.profile = .leaf) (i k n : Nat) : s.count i k n = s.countHealth k n := by
  simp only [State.count, h]

/-! ## The slot-phase window -/

/-- Only the lanes of a state have changed. -/
def LanesOnly (s t : State) : Prop := ∃ lanes, t = { s with lanes := lanes }

theorem LanesOnly.refl (s : State) : LanesOnly s s := ⟨_, rfl⟩

theorem LanesOnly.trans {s t u : State} (h : LanesOnly s t) (k : LanesOnly t u) : LanesOnly s u := by
  obtain ⟨_, rfl⟩ := h
  obtain ⟨_, rfl⟩ := k
  exact ⟨_, rfl⟩

theorem sendCtl_lanesOnly (s : State) (n : Nat) (m : Bytes) : LanesOnly s (s.sendCtl n m) := ⟨_, rfl⟩

theorem sendCtlAll_lanesOnly (s : State) (ns : List Nat) (m : Bytes) : LanesOnly s (s.sendCtlAll ns m) := by
  unfold State.sendCtlAll
  induction ns generalizing s with
  | nil => exact LanesOnly.refl s
  | cons n ns ih => exact (sendCtl_lanesOnly s n m).trans (ih _)

theorem sendBelay_lanesOnly (s : State) (m : Bytes) : LanesOnly s (s.sendBelay m) := by
  unfold State.sendBelay
  split
  · exact sendCtl_lanesOnly ..
  · exact LanesOnly.refl s

theorem ite_lanesOnly {s t u : State} {p : Prop} [Decidable p] (ht : LanesOnly s t) (hu : LanesOnly s u) :
    LanesOnly s (if p then t else u) := by
  split <;> assumption

theorem forwardArm_lanesOnly (a : Arm) (fromBelay : Bool) (s : State) : LanesOnly s (forwardArm a fromBelay s) := by
  unfold forwardArm
  dsimp only
  have hdown := sendCtlAll_lanesOnly s (s.lanesFor LaneUse.isDown) (armMsg a)
  have hpeers := ite_lanesOnly (p := (a.own && a.origRole == 3) = true) (hdown.trans (sendCtlAll_lanesOnly _
    ((s.sendCtlAll (s.lanesFor LaneUse.isDown) (armMsg a)).lanesFor LaneUse.isPeer) (armMsg a))) hdown
  exact ite_lanesOnly (hpeers.trans (sendBelay_lanesOnly _ _)) hpeers

/-- The arm as a node holds it: what the node adds to the fields of its ARM (R206). -/
def heldArm (a : Arm) (s : State) : Arm :=
  let a1 := { a with
    own := s.originates a, paired := s.twin.paired, epochNs := s.cfg.epochNs, tEff := (s.armTime a).getD 0 }
  { a1 with expected := s.expectedChildren a1, lastRepeat := s.curEpoch }

/-- The status of an arm that starts no context touches that arm and the lanes. -/
theorem sendStatus_eq {a : Arm} (hkind : a.kind ≠ kindCtxStart) (s : State) :
    LanesOnly (s.onArm a.id fun a => { a with statusSent := true }) (sendStatus a s) := by
  have hsilent : declareNoAck a s = s := by simp [declareNoAck, hkind]
  rw [sendStatus, hsilent]
  exact sendCtlAll_lanesOnly ..

/-- The arms of a node, those of one id marked as answered where it has sent its status. -/
def markSent (sent : Bool) (id : BitVec 64) (arms : List Arm) : List Arm :=
  if sent then mapIf (·.id == id) (fun a => { a with statusSent := true }) arms else arms

theorem holdArm_tray_eq {s : State} (a : Arm) (fromBelay : Bool) (hp : s.profile = .tray) : holdArm a fromBelay s =
    if (!(heldArm a s).own && (heldArm a s).allAnswered) = true then
      sendStatus (heldArm a s) (forwardArm (heldArm a s) fromBelay
        { s with red := { s.red with arms := s.red.arms ++ [heldArm a s] } })
    else forwardArm (heldArm a s) fromBelay { s with red := { s.red with arms := s.red.arms ++ [heldArm a s] } } := by
  unfold holdArm
  split
  · next h => exact absurd (hp.symm.trans h) (by decide)
  · rfl

theorem heldArm_id (a : Arm) (s : State) : (heldArm a s).id = a.id := rfl

/-- A tray block that holds an arm of no context start: the arm is last among its arms, perhaps marked as answered. -/
theorem holdArm_of_tray {s : State} (a : Arm) (fromBelay : Bool) (hp : s.profile = .tray)
    (hkind : a.kind ≠ kindCtxStart) : ∃ lanes sent, holdArm a fromBelay s = { s with
      lanes := lanes
      red := { s.red with arms := markSent sent a.id (s.red.arms ++ [heldArm a s]) } } := by
  rw [holdArm_tray_eq a fromBelay hp]
  obtain ⟨lanes, hforward⟩ := forwardArm_lanesOnly (heldArm a s) fromBelay
    { s with red := { s.red with arms := s.red.arms ++ [heldArm a s] } }
  rw [hforward]
  split
  · obtain ⟨lanes', hstatus⟩ := sendStatus_eq (a := heldArm a s) hkind
      { s with lanes := lanes, red := { s.red with arms := s.red.arms ++ [heldArm a s] } }
    exact ⟨lanes', true, hstatus⟩
  · exact ⟨lanes, false, rfl⟩

/-- The arm held is among the marked ones, up to that mark. -/
theorem mem_markSent_last (sent : Bool) (arms : List Arm) (a : Arm) :
    { a with statusSent := sent || a.statusSent } ∈ markSent sent a.id (arms ++ [a]) := by
  cases sent <;> simp [markSent, mapIf]

/-- An arm that this instance originates, before it is held (R204, 16 R429). -/
def ownArm (kind : Nat) (aon : Bool) (epochT : Nat) (arg : BitVec 128) (ctx : Nat) (gen : BitVec 16) (arg2 : BitVec 32)
    (mbx : Option Nat) (s : State) : Arm :=
  { id := s.nextArmId, kind := kind, aon := aon, height := s.height, epochT := epochT, arg := arg, ctx := ctx
    gen := gen, arg2 := arg2, own := true, paired := s.twin.paired, mbx := mbx, epochNs := 0, tEff := 0
    expected := [], answers := [], twinView := [], statusSent := false, decision := none, echoed := false, down := false
    lastRepeat := 0, settled := false }

section Originate
variable (kind : Nat) (aon : Bool) (epochT : Nat) (arg : BitVec 128) (ctx : Nat) (gen : BitVec 16) (arg2 : BitVec 32)
  (mbx : Option Nat)

theorem originate_eq (s : State) : originate kind aon epochT arg ctx gen arg2 mbx s = (s.nextArmId,
    holdArm (ownArm kind aon epochT arg ctx gen arg2 mbx s) false
      { s with red := { s.red with armSeq := s.red.armSeq + 1, seen := s.nextArmId :: s.red.seen } }) := rfl

/-- A change that a tray block originates, of no context start, is held as its own and the last of its arms. -/
theorem originate_of_tray {s : State} (hp : s.profile = .tray) (hkind : kind ≠ kindCtxStart) : ∃ lanes sent held,
    held = heldArm (ownArm kind aon epochT arg ctx gen arg2 mbx s)
      { s with red := { s.red with armSeq := s.red.armSeq + 1, seen := s.nextArmId :: s.red.seen } } ∧
    (originate kind aon epochT arg ctx gen arg2 mbx s).2 = { s with
      lanes := lanes
      red := { s.red with
        armSeq := s.red.armSeq + 1
        seen := s.nextArmId :: s.red.seen
        arms := markSent sent s.nextArmId (s.red.arms ++ [held]) } } := by
  obtain ⟨lanes, sent, hheld⟩ := holdArm_of_tray
    (s := { s with red := { s.red with armSeq := s.red.armSeq + 1, seen := s.nextArmId :: s.red.seen } })
    (ownArm kind aon epochT arg ctx gen arg2 mbx s) false hp hkind
  exact ⟨lanes, sent, _, rfl, hheld⟩

end Originate

theorem exec_slotPhaseWindow {s : State} (hruns : s.runsAs .tray = true) (hfull : 64 ≤ s.sched.slotWindow.length) :
    exec .slotPhaseWindow s = .next
      (match (s.slotMaster && s.cfg.slotSyncUse && !s.slotLost && s.sched.settled && s.carrying
        && !(s.red.arms.any fun a => phaseKind a.kind)),
        slotPhaseOf s.cfg.slotTol ((s.sched.slotWindow.take 64).filterMap id) with
      | true, some d => (originate kindSlotPhase true (s.curEpoch + 8) 0 0 (s.genOf 0) (BitVec.ofInt 32 d) none
          { s with sched := { s.sched with slotWindow := [] } }).2
      | _, _ => { s with sched := { s.sched with slotWindow := [] } }) := by
  rw [exec, execSlotPhaseWindow, onTray_of_runs hruns, if_neg (by omega)] <;> rfl

/-- Settles O19: each input's meaning is one update of its stamps, after which the servo touches neither these nor the
lanes and the schedule; the slot master's correction is an arm that `holdArm` keeps. -/
theorem grandmasterAndSlotInputs : Obligations.GrandmasterAndSlotInputs := by
  refine ⟨fun s hruns hmember => ?pps, fun s hp => ⟨?_, ?_⟩, fun s hruns => ?_,
    fun s b bs hruns hpast hlo hhi hfirst => exec_slotSyncEdge_near hruns hpast hlo hhi hfirst,
    fun s m i hruns hmgmt htransport hkind hsender => exec_ptp_announce hruns hmgmt htransport hkind hsender,
    fun s m i hruns hmgmt htransport hkind htwo hsender hmaster => ?sync,
    fun s m i hruns hmgmt htransport hkind htwo hsender hmaster => ?twoStep,
    fun s m hruns hmgmt htransport hkind => exec_ptp_pdelayReq hruns hmgmt htransport hkind,
    fun s hruns hfull hmaster => ?away, fun s d hruns hfull hmaster huse hlost hsettled hcarrying harms hphase => ?arm,
    fun s hruns => ?trayDup, fun s hruns => ?leafDup⟩
  case pps =>
    obtain ⟨t, hexec, hsame⟩ := exec_ppsInEdge hruns hmember
    exact ⟨t, hexec, hsame.ppsAt, hsame.lanes, hsame.sched⟩
  · exact onTray_id_of_tray hp rfl
  · exact onTray_id_of_tray hp rfl
  · rw [exec, execPpsOutPulse, onTray_of_runs hruns]
  case sync =>
    obtain ⟨hcoarse, hsync, hlanes, hsched⟩ := ptpTake_spec m.origin (s.mgRx m.edge) m.correction s
    refine ⟨_, exec_ptp_sync hruns hmgmt htransport hkind hsender hmaster, ?_⟩
    rw [htwo, if_neg Bool.false_ne_true]
    exact ⟨hcoarse, hsync, hlanes, hsched⟩
  case twoStep => rw [exec_ptp_sync hruns hmgmt htransport hkind hsender hmaster, if_pos htwo]
  case away => simp only [exec_slotPhaseWindow hruns hfull, hmaster, Bool.false_and]
  case arm =>
    obtain ⟨lanes, sent, held, rfl, harmed⟩ := originate_of_tray kindSlotPhase true (s.curEpoch + 8) 0 0 (s.genOf 0)
      (BitVec.ofInt 32 d) none (s := { s with sched := { s.sched with slotWindow := [] } })
      ((runsAs_iff s .tray).mp hruns).1 (by decide)
    have hexec := exec_slotPhaseWindow hruns hfull
    simp only [hmaster, huse, hlost, hsettled, hcarrying, harms, hphase, List.any_nil, Bool.not_false, Bool.and_self,
      harmed] at hexec
    exact ⟨_, _, hexec, rfl, mem_markSent_last sent _ _, rfl, rfl, rfl⟩
  case trayDup =>
    obtain ⟨hp, hclocked⟩ := (runsAs_iff s .tray).mp hruns
    refine ⟨_, exec_timDupFail hclocked, ?_⟩
    rw [count_of_tray (s := s.errBit 24) hp]
    exact ⟨rfl, rfl, rfl⟩
  case leafDup =>
    obtain ⟨hp, hclocked⟩ := (runsAs_iff s .leaf).mp hruns
    refine ⟨_, exec_timDupFail hclocked, ?_⟩
    rw [count_of_leaf (s := s.errBit 24) hp]
    exact ⟨rfl, rfl⟩

end Sys2Proof.Machine
end

section
/-!
PROOFS. Stooks (04): their region edges, latches, stopped regions and host resets. Every operation on a stook leaves the
other stooks as they are.
-/

namespace Sys2Proof.Machine

/-! ## One stook of a state -/

theorem stook?_of_stooks {s t : State} (h : t.cap.stooks = s.cap.stooks) (m : Nat) : t.stook? m = s.stook? m := by
  rw [State.stook?, State.stook?, h]

theorem stook?_s {s : State} {n : Nat} {st : Stook} (h : s.stook? n = some st) : st.s = n := by
  simpa using List.find?_some h

/-- A search by key sees a change of the entries of one key, keys kept there, only for that key. -/
theorem find_mapIf_of_key {α : Type} (key : α → Nat) {f : α → α} {n : Nat} (hf : ∀ a, key a = n → key (f a) = n)
    (l : List α) (m : Nat) : (mapIf (fun a => key a == n) f l).find? (fun a => key a == m) =
      if m = n then (l.find? fun a => key a == m).map f else l.find? fun a => key a == m := by
  have hkey : ∀ a : α, key (if key a == n then f a else a) = key a := fun a => by
    split
    · next h => exact (hf a (eq_of_beq h)).trans (eq_of_beq h).symm
    · rfl
  change (l.map fun a => if key a == n then f a else a).find? _ = _
  rw [List.find?_map, show ((fun a => key a == m) ∘ fun a => if key a == n then f a else a) = fun a => key a == m from
    funext fun a => congrArg (· == m) (hkey a)]
  cases hm : l.find? fun a => key a == m with
  | none => rw [Option.map_none, Option.map_none, ite_self]
  | some a =>
    have ham : key a = m := by simpa using List.find?_some hm
    simp only [Option.map_some, ham, beq_iff_eq, apply_ite some]

theorem stook?_onStook_of_key {f : Stook → Stook} {n : Nat} (hf : ∀ x, x.s = n → (f x).s = n) (s : State) (m : Nat) :
    (s.onStook n f).stook? m = if m = n then (s.stook? m).map f else s.stook? m :=
  find_mapIf_of_key (fun x : Stook => x.s) hf s.cap.stooks m

section OnStook
variable {s : State} {n : Nat} {st : Stook} {f : Stook → Stook}

theorem stook?_onStook_same (h : s.stook? n = some st) (hf : ∀ x, x.s = n → (f x).s = n) :
    (s.onStook n f).stook? n = some (f st) := by
  rw [stook?_onStook_of_key hf, if_pos rfl, h, Option.map_some]

theorem stook?_onStook_other {m : Nat} (hm : m ≠ n) (hf : ∀ x, x.s = n → (f x).s = n) :
    (s.onStook n f).stook? m = s.stook? m := by
  rw [stook?_onStook_of_key hf, if_neg hm]

end OnStook

/-! ## Bit 86 of a stook header -/

theorem stopBits_lt (t : Ticks) : stopBits t < 2 ^ 80 := by
  have hsec : (ITime.ofTicks t).sec.toNat % 2 ^ 24 < 2 ^ 24 := Nat.mod_lt _ (by decide)
  have hns : (ITime.ofTicks t).ns.toNat < 2 ^ 30 := by
    have : t % secT / 2 ^ 32 < 2 ^ 30 := by
      rw [Nat.div_lt_iff_lt_mul (by decide)]
      exact Nat.lt_trans (Nat.mod_lt _ (by decide)) (by decide)
    simp only [ITime.ofTicks, BitVec.toNat_ofNat]
    exact Nat.lt_of_le_of_lt (Nat.mod_le _ _) this
  have hfrac : (ITime.ofTicks t).frac.toNat < 2 ^ 32 := BitVec.isLt _
  simp only [stopBits]
  omega

theorem b2n_le (b : Bool) : b2n b ≤ 1 := by cases b <;> decide

/-- Bit 86 of a number whose part below bit 86 is small. -/
theorem testBit_eightySix (hi low : Nat) (b : Bool) (h : low < 2 ^ 86) :
    (hi * 2 ^ 87 + b2n b * 2 ^ 86 + low).testBit 86 = b := by
  rw [Nat.testBit_eq_decide_div_mod_eq]
  cases b
  · rw [show b2n false = 0 from rfl]
    exact decide_eq_false (by omega)
  · rw [show b2n true = 1 from rfl]
    exact decide_eq_true (by omega)

theorem hdrBit_ofNat (st : Stook) (lat : BitVec 16) (stopped unann ownerChange old : Bool) {low : Nat}
    (h : low < 2 ^ 80) : hdrBit (BitVec.ofNat 128 (lat.toNat * 2 ^ 112 + st.s * 2 ^ 104 + (st.obs.length - 1) * 2 ^ 96
      + min 255 st.hrst * 2 ^ 88 + b2n stopped * 2 ^ 87 + b2n unann * 2 ^ 86 + b2n st.aligned * 2 ^ 84
      + b2n ownerChange * 2 ^ 83 + b2n old * 2 ^ 82 + low)) 86 = unann := by
  have h1 := b2n_le st.aligned
  have h2 := b2n_le ownerChange
  have h3 := b2n_le old
  rw [hdrBit, BitVec.getLsbD_ofNat, show decide (86 < 128) = true from rfl, Bool.true_and]
  rw [show ∀ a b c d e f g i j k : Nat, a * 2 ^ 112 + b * 2 ^ 104 + c * 2 ^ 96 + d * 2 ^ 88 + e * 2 ^ 87 + f * 2 ^ 86
    + g * 2 ^ 84 + i * 2 ^ 83 + j * 2 ^ 82 + k = (a * 2 ^ 25 + b * 2 ^ 17 + c * 2 ^ 9 + d * 2 + e) * 2 ^ 87
    + f * 2 ^ 86 + (g * 2 ^ 84 + i * 2 ^ 83 + j * 2 ^ 82 + k) from by intros; omega]
  exact testBit_eightySix _ _ _ (by omega)

theorem header_running_bit86 (st : Stook) (lat : BitVec 16) (oc : Bool) (tk : Ticks) :
    hdrBit (st.header .running lat oc tk) 86 = false :=
  hdrBit_ofNat st lat false false oc false (by have := st.regionCyc.isLt; omega)

theorem header_unannounced_bit86 (st : Stook) (last : Option Ticks) (lat : BitVec 16) (oc : Bool) (tk : Ticks) :
    hdrBit (st.header (.unannounced last) lat oc tk) 86 = true := by
  cases last with
  | none => exact hdrBit_ofNat st lat false true oc true (by decide)
  | some t => exact hdrBit_ofNat st lat false true oc _ (stopBits_lt t)

/-! ## Taking a cut -/

section TakeCut
variable {s : State} {n : Nat} {st : Stook} (k : Nat) (t : Ticks) (m : Latch) (lat : BitVec 16) (raw : List (BitVec 64))
  (raised : Nat)

theorem countStop_of_bit {h : BitVec 128} (hb : hdrBit h 86 = false) (s : State) : countStop (some h) s = s := by
  rw [countStop, Option.any_some, hb, if_neg Bool.false_ne_true]

theorem countStop_set {h : BitVec 128} (hb : hdrBit h 86 = true) (s : State) :
    countStop (some h) s = s.countHealth 289 1 := by
  rw [countStop, Option.any_some, hb, if_pos rfl]

theorem takeCut_eq (h : s.stook? n = some st) : takeCut n k t m lat raw raised s =
    countStop (some (st.header m lat st.moving t))
      ((syncHeaders (s.onStook n fun _ => st.loadCut k t m lat raw)).raise (cutReq st raised)) := by
  rw [takeCut, h]
  rfl

theorem countStop_stooks (h : Option (BitVec 128)) (s : State) : (countStop h s).cap.stooks = s.cap.stooks := by
  unfold countStop
  split <;> rfl

theorem takeCut_stooks (h : s.stook? n = some st) :
    (takeCut n k t m lat raw raised s).cap.stooks = (s.onStook n fun _ => st.loadCut k t m lat raw).cap.stooks := by
  rw [takeCut_eq k t m lat raw raised h, countStop_stooks]
  rfl

theorem loadCut_s (h : st.s = n) : (st.loadCut k t m lat raw).s = n := h

theorem takeCut_stook_same (h : s.stook? n = some st) :
    (takeCut n k t m lat raw raised s).stook? n = some (st.loadCut k t m lat raw) := by
  rw [stook?_of_stooks (takeCut_stooks k t m lat raw raised h)]
  exact stook?_onStook_same h fun _ _ => loadCut_s k t m lat raw (stook?_s h)

theorem takeCut_stook_other (h : s.stook? n = some st) {i : Nat} (hi : i ≠ n) :
    (takeCut n k t m lat raw raised s).stook? i = s.stook? i := by
  rw [stook?_of_stooks (takeCut_stooks k t m lat raw raised h)]
  exact stook?_onStook_other hi fun _ _ => loadCut_s k t m lat raw (stook?_s h)

theorem noteStretch_cap (latched : Ticks) (s : State) : (noteStretch latched s).cap = s.cap := by
  unfold noteStretch
  split <;> rfl

theorem noteStretch_stook? (latched : Ticks) (s : State) (m : Nat) : (noteStretch latched s).stook? m = s.stook? m := by
  rw [State.stook?, noteStretch_cap, ← State.stook?]

theorem syncHeaders_stook? (s : State) (m : Nat) : (syncHeaders s).stook? m = s.stook? m := rfl

/-- The request of a CUT bank is not one of interval samples, so no cut in its cycle restarts it (R129). -/
theorem raise_cutReq (hn : st.s < 256) (s : State) :
    (s.raise (cutReq st raised)).cap.reqs = s.cap.reqs ++ [cutReq st raised] := by
  have hkeep : ∀ c, (cutReq st raised).restart c = cutReq st raised := fun c => by
    have : ¬ 258 ≤ 2 + st.s := by omega
    simp only [BusReq.restart, cutReq, this, decide_false, Bool.false_and, Bool.false_eq_true, if_false]
  rw [State.raise]
  simp only [hkeep, ite_self]
  split <;> rfl

end TakeCut

/-! ## The commands of a region -/

section Commands
variable {s : State} {n : Nat} {st : Stook}

theorem clock_obs (st : Stook) (e : RegionEdge) {i : Nat} {v : BitVec 64} (h : st.obs[i]? = some v) :
    (st.clock e).obs[i]? = some (v + (nth e.incs i 0).setWidth 64) := by
  rw [Stook.clock, List.getElem?_mapIdx, h, Option.map_some]

theorem clock_host (st : Stook) (e : RegionEdge) {i : Nat} {v : BitVec 48} (h : st.host[i]? = some v) :
    (st.clock e).host[i]? = some (v + (nth e.incs i 0).setWidth 48) := by
  rw [Stook.clock, List.getElem?_mapIdx, h, Option.map_some]

theorem exec_stookLatch (hruns : s.runsAs .leaf = true) (hst : s.stook? n = some st) {k : Nat} {tk edge : Ticks}
    {lat : BitVec 16} (third : Bool) (hwait : st.cutWait = some (k, tk)) (hedge : edgeOk tk edge = true)
    (hlat : latOk lat tk edge = true) : exec (.stookLatch n edge lat third) s = .next (noteStretch edge
      ((takeCut n k tk st.edgeMode lat st.obs (s.tim.cycle + (if third then 3 else 2)) s).onStook n fun st =>
        { st with lastEdge := some edge })) := by
  rw [exec, execStookLatch, onLeaf_of_runs hruns]
  simp only [hst, hwait, hedge, hlat, Bool.and_self, if_true]

theorem exec_stookLatchTimeout (hruns : s.runsAs .leaf = true) (hst : s.stook? n = some st) {k : Nat} {tk : Ticks}
    (hwait : st.cutWait = some (k, tk)) (hdue : tk + nsT 1023 ≤ s.now) : exec (.stookLatchTimeout n) s = .next
      (match st.hold with
      | some (v, h) => noteStretch s.now (takeCut n k tk (.stopped h.toTicks) 0xFFFF v s.tim.cycle s)
      | none => noteStretch s.now ((takeCut n k tk (.unannounced st.lastEdge) 0xFFFF st.obs s.tim.cycle s).onStook n
          fun st => { st with unannounced := true, edge := .none })) := by
  rw [exec, execStookLatchTimeout, onLeaf_of_runs hruns]
  cases hhold : st.hold <;> simp only [hst, hwait, hhold, hdue, decide_true, if_true]

/-- A stook as its HOLD bank loads at the last edge of its region. -/
def Stook.held (edge : Ticks) (st : Stook) : Stook :=
  { st with hold := some (st.obs, ITime.ofTicks edge), unannounced := st.unannounced || st.stopRun < 3 }

theorem exec_stookHoldLoad_idle (hruns : s.runsAs .leaf = true) (hst : s.stook? n = some st) (edge : Ticks)
    (hstop : st.stopRun ≠ 0) (hcut : st.cutWait = none) (hint : st.intWait = none) :
    exec (.stookHoldLoad n edge) s = .next (s.onStook n (Stook.held edge)) := by
  rw [exec, execStookHoldLoad, onLeaf_of_runs hruns]
  simp only [hst, hcut, hint, hstop, if_false]
  rfl

theorem exec_stookHoldLoad_cut (hruns : s.runsAs .leaf = true) (hst : s.stook? n = some st) {edge : Ticks} {k : Nat}
    {tk : Ticks} (hstop : st.stopRun ≠ 0) (hwait : st.cutWait = some (k, tk)) (hedge : edgeOk tk edge = false) :
    exec (.stookHoldLoad n edge) s = .next (noteStretch edge
      (takeCut n k tk (.stopped edge) 0xFFFF st.obs (s.tim.cycle + 2) (s.onStook n (Stook.held edge)))) := by
  rw [exec, execStookHoldLoad, onLeaf_of_runs hruns]
  simp only [hst, hwait, hedge, hstop, if_false, Bool.false_eq_true]
  rfl

theorem exec_stookHostReset (hruns : s.runsAs .leaf = true) (hst : s.stook? n = some st) (hedge : st.edge = .none) :
    exec (.stookHostReset n) s = .next (syncHeaders (s.onStook n Stook.hostReset)) := by
  rw [exec, execStookHostReset, onLeaf_of_runs hruns]
  simp only [hst, hedge, bne_self_eq_false, Bool.false_eq_true, if_false]

theorem hostReset_s (st : Stook) : st.hostReset.s = st.s := by
  unfold Stook.hostReset
  cases st.edge <;> rfl

end Commands

/-- Settles O21, each command as one change of its stook. -/
theorem stookEdgesAndLatches : Obligations.StookEdgesAndLatches := by
  refine ⟨fun s n e st hruns hst => ?clock,
    fun s n edge lat third st k tk hruns hn hst hwait hann hedge hlat => ?latch,
    fun s n st k tk hruns hst hwait hdue => ?timeout,
    fun s n edge st hruns hst hstop hcut hint => ?hold,
    fun s n edge st k tk hruns hst hstop hwait hedge => ?holdCut,
    fun s n st hruns hst hedge => ?reset⟩
  case clock =>
    refine ⟨s.onStook n fun st => st.clock e, by rw [exec, execStkClkEdge, onLeaf_of_runs hruns], rfl,
      ⟨st.clock e, stook?_onStook_same hst fun _ h => h, rfl, rfl, rfl, rfl, fun _ _ => clock_obs st e,
        fun _ _ => clock_host st e⟩,
      fun m hm => stook?_onStook_other hm fun _ h => h⟩
  case latch =>
    have hmode : st.edgeMode = .running := by rw [Stook.edgeMode, hann, if_neg Bool.false_ne_true]
    refine ⟨_, exec_stookLatch hruns hst third hwait hedge hlat,
      ⟨{ st.loadCut k tk st.edgeMode lat st.obs with lastEdge := some edge }, _, ?_, rfl,
        by rw [hmode], rfl, rfl, rfl, rfl, rfl⟩, ?_, ?_, fun m hm => ?_⟩
    · rw [noteStretch_stook?]
      exact stook?_onStook_same (takeCut_stook_same _ _ _ _ _ _ hst) fun _ h => h
    · rw [noteStretch_cap, State.onStook_set, takeCut_eq _ _ _ _ _ _ hst, hmode,
        countStop_of_bit (header_running_bit86 st lat _ tk)]
      exact raise_cutReq _ (Nat.lt_of_le_of_lt (Nat.le_of_eq (stook?_s hst)) hn) _
    · rw [noteStretch_cap, State.onStook_set, takeCut_eq _ _ _ _ _ _ hst, hmode,
        countStop_of_bit (header_running_bit86 st lat _ tk)]
      rfl
    · rw [noteStretch_stook?]
      refine (stook?_onStook_other hm ?_).trans (takeCut_stook_other _ _ _ _ _ _ hst hm)
      exact fun _ h => h
  case timeout =>
    have hexec := exec_stookLatchTimeout hruns hst hwait hdue
    cases hhold : st.hold with
    | none =>
      simp only [hhold] at hexec
      refine ⟨_, { st.loadCut k tk (.unannounced st.lastEdge) 0xFFFF st.obs with unannounced := true, edge := .none }, _,
        hexec, ?_, fun _ => ⟨rfl, rfl, rfl, ?_⟩, ?_, fun m hm => ?_⟩
      · rw [noteStretch_stook?]
        exact stook?_onStook_same (takeCut_stook_same _ _ _ _ _ _ hst) fun _ h => h
      · rw [noteStretch_cap, State.onStook_set, takeCut_eq _ _ _ _ _ _ hst,
          countStop_set (header_unannounced_bit86 st _ _ _ tk)]
        rfl
      · rintro v w ⟨⟩
      · rw [noteStretch_stook?]
        refine (stook?_onStook_other hm ?_).trans (takeCut_stook_other _ _ _ _ _ _ hst hm)
        exact fun _ h => h
    | some vw =>
      obtain ⟨v, w⟩ := vw
      simp only [hhold] at hexec
      refine ⟨_, st.loadCut k tk (.stopped w.toTicks) 0xFFFF v,
        st.header (.stopped w.toTicks) 0xFFFF st.moving tk, hexec, ?_, ?_,
        fun v' w' h => ?_, fun m hm => ?_⟩
      · rw [noteStretch_stook?]
        exact takeCut_stook_same _ _ _ _ _ _ hst
      · rintro ⟨⟩
      · cases h
        exact ⟨rfl, rfl⟩
      · rw [noteStretch_stook?]
        exact takeCut_stook_other _ _ _ _ _ _ hst hm
  case hold =>
    exact ⟨_, exec_stookHoldLoad_idle hruns hst edge hstop hcut hint, rfl, stook?_onStook_same hst fun _ h => h,
      fun m hm => stook?_onStook_other hm fun _ h => h⟩
  case holdCut =>
    have hheld : (s.onStook n (Stook.held edge)).stook? n = some (st.held edge) := stook?_onStook_same hst fun _ h => h
    refine ⟨_, (st.held edge).loadCut k tk (.stopped edge) 0xFFFF st.obs, _,
      exec_stookHoldLoad_cut hruns hst hstop hwait hedge, ?_, rfl, rfl, rfl⟩
    rw [noteStretch_stook?]
    exact takeCut_stook_same _ _ _ _ _ _ hheld
  case reset =>
    have hkey : ∀ x : Stook, x.s = n → x.hostReset.s = n := fun x h => (hostReset_s x).trans h
    refine ⟨_, exec_stookHostReset hruns hst hedge, ?_, rfl, fun m hm => ?_⟩
    · rw [syncHeaders_stook?, stook?_onStook_same hst hkey, Stook.hostReset, hedge]
    · rw [syncHeaders_stook?, stook?_onStook_other hm hkey]

end Sys2Proof.Machine
end

section
/-!
PROOFS. The capture bus (04 R129), the token of TRC, sub-boundaries (04 R122) and the cut record on the lanes (06 R555).
-/

namespace Sys2Proof.Machine

/-! ## A grant -/

/-- The state in which a burst of w has been granted, before its values come into the ring. -/
def State.granted (s : State) (w : BusReq) : State :=
  { s with cap := { s.cap.settleWait s.tim.cycle with
    reqs := dropBurst w s.cap.reqs
    busUntil := s.tim.cycle + w.bursts.headD 1
    waitNext := if w.begun then (s.cap.settleWait s.tim.cycle).waitNext
      else some (s.tim.cycle + 1, s.tim.cycle + 1 - w.raised) } }

theorem settleWait_eq (c : CapSt) (now : Nat) : ∃ a b, c.settleWait now = { c with waitNow := a, waitNext := b } := by
  unfold CapSt.settleWait
  split
  · split <;> exact ⟨_, _, rfl⟩
  · exact ⟨_, _, rfl⟩

theorem granted_eq (s : State) (w : BusReq) : ∃ a b, s.granted w = { s with cap := { s.cap with
    reqs := dropBurst w s.cap.reqs, busUntil := s.tim.cycle + w.bursts.headD 1, waitNow := a, waitNext := b } } := by
  obtain ⟨a, b, hwait⟩ := settleWait_eq s.cap s.tim.cycle
  rw [State.granted, hwait]
  exact ⟨_, _, rfl⟩

theorem granted_stook? (s : State) (w : BusReq) (m : Nat) : (s.granted w).stook? m = s.stook? m := by
  obtain ⟨a, b, h⟩ := granted_eq s w
  rw [h]
  rfl

section Grant
variable {s : State} {w : BusReq}

theorem grantBurst_hlt (hw : w.idx = 1) : grantBurst w s = { s.granted w with cap := { (s.granted w).cap with
    lastCutBeat := s.tim.cycle + w.bursts.headD 1
    ring := match (s.granted w).cap.ring with
      | r :: rs => { r with drained := r.drained ++ [(1, s.tim.cycle + w.bursts.headD 1)] } :: rs
      | [] => [] } } := by
  unfold grantBurst
  rw [hw]
  rfl

/-- A ring slot into which the drained bank of a stook comes. -/
def RingSlot.drain (w : BusReq) (last : Nat) (v : List (BitVec 64)) (r : RingSlot) : RingSlot :=
  { r with values := insertBy (·.1) (w.stook, v) r.values, drained := r.drained ++ [(w.idx, last)] }

/-- A stook with its CUT bank empty, and one with its INT bank empty. -/
def Stook.cutEmpty (st : Stook) : Stook := { st with cut := none }

def Stook.intEmpty (st : Stook) : Stook := { st with int := none }

theorem grantBurst_cut {st : Stook} {k : Nat} {h : BitVec 128} {v : List (BitVec 64)} (hlo : 2 ≤ w.idx)
    (hhi : w.idx < 258) (hst : s.stook? w.stook = some st) (hcut : st.cut = some (k, h, v)) :
    grantBurst w s = { (s.granted w).onStook w.stook Stook.cutEmpty with cap :=
      { ((s.granted w).onStook w.stook Stook.cutEmpty).cap with
        lastCutBeat := s.tim.cycle + w.bursts.headD 1
        ring := mapIf (·.k == k) (RingSlot.drain w (s.tim.cycle + w.bursts.headD 1) v)
          ((s.granted w).onStook w.stook Stook.cutEmpty).cap.ring } } := by
  have hbank : ((s.granted w).stook? w.stook).bind (fun st => st.cut) = some (k, h, v) := by
    rw [granted_stook?, hst, Option.bind_some, hcut]
  have h0 : (w.idx == 0) = false := beq_false_of_ne (by omega)
  have h1 : (w.idx == 1) = false := beq_false_of_ne (by omega)
  unfold grantBurst
  rw [State.granted] at hbank ⊢
  simp only [h0, h1, hhi, hbank, Bool.false_eq_true, if_false, if_true]
  rfl

theorem grantBurst_int {st : Stook} {j : IntJob} {h : BitVec 128} {v : List (BitVec 48)} (hlo : 258 ≤ w.idx)
    (hlast : w.bursts.length ≤ 1) (hst : s.stook? w.stook = some st) (hint : st.int = some (j, h, v)) :
    grantBurst w s = storeInt j (intBurst j h v) ((s.granted w).onStook w.stook Stook.intEmpty) := by
  have hbank : ((s.granted w).stook? w.stook).bind (fun st => st.int) = some (j, h, v) := by
    rw [granted_stook?, hst, Option.bind_some, hint]
  have h0 : (w.idx == 0) = false := beq_false_of_ne (by omega)
  have h1 : (w.idx == 1) = false := beq_false_of_ne (by omega)
  unfold grantBurst
  rw [State.granted] at hbank ⊢
  simp only [h0, h1, hbank, Bool.false_eq_true, if_false, show ¬ w.idx < 258 by omega, show ¬ 1 < w.bursts.length by omega]
  rfl

theorem grantBurst_cap (w : BusReq) (s : State) :
    ∃ c, grantBurst w s = { s with cap := c } ∧ c.health = s.cap.health := by
  obtain ⟨a, b, hwait⟩ := settleWait_eq s.cap s.tim.cycle
  unfold grantBurst
  simp only [hwait]
  split
  · exact ⟨_, rfl, rfl⟩
  split
  · exact ⟨_, rfl, rfl⟩
  split
  · split <;> exact ⟨_, rfl, rfl⟩
  split
  · exact ⟨_, rfl, rfl⟩
  · split <;> exact ⟨_, rfl, rfl⟩

theorem exec_captureBusArbitration (hruns : s.runsAs .leaf = true) (hfree : s.cap.busUntil ≤ s.tim.cycle)
    (hwin : winner s.tim.cycle s.cap.reqs = some w) (hw : w.idx ≠ 0) (parity : ParityRead) :
    exec (.captureBusArbitration parity) s = .next
      (match parity with
      | .good => grantBurst w s
      | .second => (grantBurst w s).countHealth 307 1
      | .lost bank row => match burstEpoch w s with
        | some k => captureLost k (queueRepair bank row (((grantBurst w s).countHealth 307 1).countHealth 308 1))
        | none => queueRepair bank row (((grantBurst w s).countHealth 307 1).countHealth 308 1)) := by
  have hbus : s.busFree = true := decide_eq_true hfree
  rw [exec, execCaptureBusArbitration, onLeaf_of_runs hruns]
  simp only [hbus, hwin, beq_false_of_ne hw, Bool.not_true, Bool.false_eq_true, if_false] <;>
    cases parity <;> rfl

end Grant

theorem mem_insertBy {α : Type} (key : α → Nat) (a : α) (l : List α) : a ∈ insertBy key a l := by
  induction l with
  | nil => exact List.mem_singleton_self a
  | cons x xs ih =>
    rw [insertBy]
    split
    · exact List.mem_cons_of_mem x ih
    · exact List.mem_cons_self

/-! ## A lost record -/

theorem queueRepair_eq (bank row : Nat) (s : State) :
    ∃ q, queueRepair bank row s = { s with err := { s.err with repairQ := q } } := by
  unfold queueRepair
  split <;> exact ⟨_, rfl⟩

theorem captureLost_eq (k : Nat) (s : State) : ∃ lanes now capBit, captureLost k s = { s with
    cap := { s.cap with ring := mapIf (·.k == k) (fun r => { r with lost := true, ints := [] }) s.cap.ring }
    lanes := lanes
    raisedNow := now
    sticky := { s.sticky with rstState := s.sticky.rstState ||| 0x01000000, cap := capBit } } := by
  obtain ⟨lanes, hsent⟩ := sendCtlAll_lanesOnly
    ((({ s with
      cap := { s.cap with ring := mapIf (·.k == k) (fun r => { r with lost := true, ints := [] }) s.cap.ring }
      lanes := s.lanes.map fun l => l.withdraw k } : State).setBit .rstState 24).setBit .cap 29)
    ((({ s with
      cap := { s.cap with ring := mapIf (·.k == k) (fun r => { r with lost := true, ints := [] }) s.cap.ring }
      lanes := s.lanes.map fun l => l.withdraw k } : State).setBit .rstState 24).setBit .cap 29 |>.lanesFor LaneUse.isUp)
    (leafStatusMsg 2 [k])
  exact ⟨lanes, _, _, hsent⟩

theorem mapIf_lost {k : Nat} {l : List RingSlot} {r : RingSlot}
    (h : r ∈ mapIf (·.k == k) (fun r => { r with lost := true, ints := [] }) l) (hk : r.k = k) : r.lost = true := by
  obtain ⟨x, hx, rfl⟩ := List.mem_map.mp h
  by_cases hxk : x.k = k
  · rw [if_pos (beq_iff_eq.mpr hxk)]
  · rw [if_neg (by rwa [beq_iff_eq])] at hk
    exact absurd hk hxk

/-! ## Sub-boundaries -/

/-- What a sample that comes due may change. -/
def SampleOnly (s t : State) : Prop := ∃ stooks health reqs ctxs,
  t = { s with cap := { s.cap with stooks := stooks, health := health, reqs := reqs }, ctxs := ctxs }

theorem SampleOnly.refl (s : State) : SampleOnly s s := ⟨_, _, _, _, rfl⟩

theorem SampleOnly.trans {s t u : State} (h : SampleOnly s t) (k : SampleOnly t u) : SampleOnly s u := by
  obtain ⟨_, _, _, _, rfl⟩ := h
  obtain ⟨_, _, _, _, rfl⟩ := k
  exact ⟨_, _, _, _, rfl⟩

theorem takeInt_sampleOnly (n : Nat) (j : IntJob) (t : Ticks) (m : Latch) (lat : BitVec 16) (raised : Nat) (s : State) :
    SampleOnly s (takeInt n j t m lat raised s) := by
  unfold takeInt
  split
  · dsimp only
    unfold countStop
    split <;> exact ⟨_, _, _, _, rfl⟩
  · exact SampleOnly.refl s

theorem sampleStook_sampleOnly (k : Nat) (t : Ticks) (p : IntPlan) (j : Nat) (sel : Nat × Nat × Nat) (s : State) :
    SampleOnly s (sampleStook k t p j sel s) := by
  unfold sampleStook
  split
  · exact SampleOnly.refl s
  · split
    · exact ⟨_, _, _, _, rfl⟩
    · have hskip : SampleOnly s (s.onStook sel.1 fun st => { st with skipped := false }) := ⟨_, _, _, _, rfl⟩
      dsimp only
      split
      · exact hskip.trans (takeInt_sampleOnly ..)
      · split
        · exact hskip.trans (takeInt_sampleOnly ..)
        · exact hskip.trans ⟨_, _, _, _, rfl⟩

theorem foldl_sampleOnly {α : Type} (f : State → α → State) (hf : ∀ s a, SampleOnly s (f s a)) (l : List α) (s : State) :
    SampleOnly s (l.foldl f s) := by
  induction l generalizing s with
  | nil => exact SampleOnly.refl s
  | cons a l ih => exact (hf s a).trans (ih _)

/-- The plans of a division that have not taken sub-boundary j of epoch k. -/
def State.duePlan (s : State) (m k j : Nat) (p : IntPlan) : Bool :=
  p.m == m && s.heldGen p.ctx == some p.gen && (p.taken.1 < k || (p.taken.1 == k && p.taken.2 < j))

theorem exec_subBoundary {s : State} {m j : Nat} {b : Boundary} {bs : List Boundary} (hruns : s.runsAs .leaf = true)
    (hpast : s.sched.past = b :: bs) (hlo : 1 ≤ j) (hhi : j < 2 ^ m)
    (hdue : b.t + nsT (j * (b.epochNs / 2 ^ m)) ≤ s.now) : ∃ stooks health reqs ctxs,
    exec (.subBoundary m j) s = .next { s with
      cap := { s.cap with
        stooks := stooks, health := health, reqs := reqs
        plans := mapIf (s.duePlan m b.k j) (fun p => { p with taken := (b.k, j) }) s.cap.plans }
      ctxs := ctxs } := by
  obtain ⟨stooks, health, reqs, ctxs, hfold⟩ := foldl_sampleOnly
    (fun s (p : IntPlan) => p.sel.foldl (fun s x => sampleStook b.k (b.t + nsT (j * (b.epochNs / 2 ^ m))) p j x s) s)
    (fun s p => foldl_sampleOnly _ (fun s x => sampleStook_sampleOnly _ _ _ _ _ s) _ s)
    (s.cap.plans.filter (s.duePlan m b.k j)) s
  refine ⟨stooks, health, reqs, ctxs, ?_⟩
  rw [exec, execSubBoundary, onLeaf_of_runs hruns]
  unfold State.duePlan at hfold ⊢
  simp only [hpast, hlo, hhi, hdue, decide_true, Bool.and_self, if_true, hfold]

/-! ## The cut record -/

theorem exec_leafCutRecordSend {s : State} {r : RingSlot} (hruns : s.runsAs .leaf = true) (hdie : s.cap.dieLost = false)
    (hfind : s.cap.ring.reverse.find? (fun r => !r.lost && !r.sent) = some r) (hready : r.readyBytes s.tim.cycle ≠ 0) :
    exec .leafCutRecordSend s = .next
      (if (r.whole && r.recordLen ≤ r.readyBytes s.tim.cycle) = true then { s with
        lanes := s.lanes.map fun l => l.feedRecord (s.genOf 0) r.recordLen (r.record s.cfg.leafId false) r.k
        cap := { s.cap with ring := mapIf (·.k == r.k) (fun r => { r with sent := true }) s.cap.ring } }
      else { s with
        lanes := s.lanes.map fun l => l.feedRecord (s.genOf 0) r.recordLen
          ((r.recordBody s.cfg.leafId false).take (r.readyBytes s.tim.cycle)) r.k }) := by
  rw [exec, execLeafCutRecordSend, onLeaf_of_runs hruns]
  simp only [hfind, beq_false_of_ne hready, hdie, Bool.or_self, Bool.false_eq_true, if_false]
  split <;> rfl

/-! ## The token -/

theorem exec_trcToken {s : State} (hruns : s.runsAs .leaf = true) (hgroup : s.tim.cycle / 128 ≤ s.trc.group) :
    exec .trcToken s = .next (giveToken (!s.trc.buffered.isEmpty) s) := by
  have hclose : closeGroup s = s := by rw [closeGroup, if_pos hgroup]
  rw [exec, execTrcToken, onLeaf_of_runs hruns, hclose]

/-- TRC's request is not one of interval samples, so no cut in its cycle restarts it (R129). -/
theorem giveToken_full {s : State} (htok : (s.cap.token || s.cap.tokenCycle != s.tim.cycle / 128 * 128 + 1) = true)
    (hreq : s.cap.reqs.any (·.idx == 0) = false) : giveToken true s = { s with cap := { s.cap with
      token := false, tokenCycle := s.tim.cycle / 128 * 128 + 1
      reqs := s.cap.reqs ++ [{ idx := 0, raised := s.tim.cycle, ageStart := s.tim.cycle, bursts := [1], begun := false
                               stook := 0 }] } } := by
  have hkeep : ∀ (r : BusReq) c, r.idx = 0 → r.restart c = r := fun r c h => by
    rw [BusReq.restart, h, if_neg (by simp)]
  unfold giveToken State.raise
  simp only [htok, hreq, Bool.not_false, Bool.and_self, if_true, hkeep, ite_self]
  split <;> rfl

theorem giveToken_empty {s : State} (htok : s.cap.tokenCycle ≠ s.tim.cycle / 128 * 128 + 1) : giveToken false s =
    { s with cap := { s.cap with token := true, tokenCycle := s.tim.cycle / 128 * 128 + 1 } } := by
  have hdue : (s.cap.tokenCycle != s.tim.cycle / 128 * 128 + 1) = true := by rwa [bne_iff_ne]
  unfold giveToken
  simp only [hdue, Bool.or_true, Bool.false_and, Bool.false_eq_true, if_false]

/-- Settles O22, from the grant of each kind of request, the token's two cases, the frame of a sample that comes due and
the two forms of the record's feed. -/
theorem captureBusAndRecord : Obligations.CaptureBusAndRecord := by
  refine ⟨fun s w hruns hfree hwin hw => ?hlt, fun s w st k h v hruns hfree hwin hlo hhi hst hcut => ?cut,
    fun s w st j hruns hfree hwin hlo hlast hst hint => ?int, fun s w hruns hfree hwin hw => ?second,
    fun s w bank row k hruns hfree hwin hk => ?lost, fun s hruns hgroup hfull htok hreq => ?full,
    fun s hruns hgroup hempty htok => ?empty, fun s m j b bs hruns hpast hlo hhi hdue => ?sub,
    fun s r hruns hdie hfind hready => ⟨fun hwhole hlen => ?whole, fun hpart => ?part⟩⟩
  case hlt =>
    refine ⟨_, exec_captureBusArbitration hruns hfree hwin (by omega) .good, ?_⟩
    obtain ⟨a, b, hgranted⟩ := granted_eq s w
    simp only [grantBurst_hlt hw, hgranted, and_self]
  case cut =>
    refine ⟨_, exec_captureBusArbitration hruns hfree hwin (by omega) .good, ?_⟩
    obtain ⟨a, b, hgranted⟩ := granted_eq s w
    simp only [grantBurst_cut hlo hhi hst hcut, hgranted]
    refine ⟨rfl, ?_, fun r hr hk => ?_, rfl⟩
    · refine (stook?_onStook_same (s := s) (f := Stook.cutEmpty) hst ?_)
      exact fun _ h => h
    · obtain ⟨x, hx, rfl⟩ := List.mem_map.mp hr
      by_cases hxk : x.k = k
      · rw [if_pos (beq_iff_eq.mpr hxk)]
        exact mem_insertBy ..
      · rw [if_neg (by rwa [beq_iff_eq])] at hk
        exact absurd hk hxk
  case int =>
    obtain ⟨j, h, v⟩ := j
    refine ⟨_, exec_captureBusArbitration hruns hfree hwin (by omega) .good, ?_⟩
    obtain ⟨a, b, hgranted⟩ := granted_eq s w
    simp only [grantBurst_int hlo hlast hst hint, hgranted]
    refine ⟨?_, rfl⟩
    refine (stook?_onStook_same (s := s) (f := Stook.intEmpty) hst ?_)
    exact fun _ h => h
  case second =>
    exact ⟨_, _, exec_captureBusArbitration hruns hfree hwin hw .good,
      exec_captureBusArbitration hruns hfree hwin hw .second, rfl⟩
  case lost =>
    have hw : w.idx ≠ 0 := fun h => by
      rw [burstEpoch, if_pos (by omega)] at hk
      cases hk
    have hexec := exec_captureBusArbitration hruns hfree hwin hw (.lost bank row)
    simp only [hk] at hexec
    obtain ⟨c, hgrant, hhealth⟩ := grantBurst_cap w s
    obtain ⟨q, hrepair⟩ := queueRepair_eq bank row (((grantBurst w s).countHealth 307 1).countHealth 308 1)
    obtain ⟨lanes, now, capBit, hlost⟩ := captureLost_eq k
      (queueRepair bank row (((grantBurst w s).countHealth 307 1).countHealth 308 1))
    refine ⟨_, hexec, ?_⟩
    rw [hlost, hrepair, hgrant]
    refine ⟨?_, fun r hr hrk => mapIf_lost hr hrk, rfl⟩
    rw [← hhealth]
    rfl
  case full =>
    have hexec := exec_trcToken hruns hgroup
    have hdue : (s.cap.token || s.cap.tokenCycle != s.tim.cycle / 128 * 128 + 1) = true := by
      rw [Bool.or_eq_true, bne_iff_ne]
      exact htok
    have hbuf : s.trc.buffered.isEmpty = false := by rwa [List.isEmpty_eq_false_iff]
    rw [hbuf, Bool.not_false, giveToken_full hdue hreq] at hexec
    exact ⟨_, hexec, rfl, rfl, rfl, rfl⟩
  case empty =>
    rw [exec_trcToken hruns hgroup, hempty, List.isEmpty_nil, Bool.not_true, giveToken_empty htok]
  case sub =>
    obtain ⟨stooks, health, reqs, ctxs, hexec⟩ := exec_subBoundary hruns hpast hlo hhi hdue
    refine ⟨_, hexec, fun p hp hm hgen htaken => ?_, fun p hp hm => ?_, rfl, rfl, rfl⟩
    · have hmine : s.duePlan m b.k j p = true := by simp [State.duePlan, hm, hgen, htaken]
      exact List.mem_map.mpr ⟨p, hp, if_pos hmine⟩
    · have hother : s.duePlan m b.k j p = false := by simp [State.duePlan, hm]
      exact List.mem_map.mpr ⟨p, hp, if_neg (by rw [hother]; exact Bool.false_ne_true)⟩
  case whole =>
    rw [exec_leafCutRecordSend hruns hdie hfind hready, if_pos (by simp [hwhole, hlen])]
  case part =>
    rw [exec_leafCutRecordSend hruns hdie hfind hready, if_neg (by simp [hpart])]

end Sys2Proof.Machine
end

section
/-!
PROOFS. The epoch boundary of a leaf in service (03 R103, 04 R105 to R117): with no change named for it, it is the push of
the schedule, the cut, and the samples and reports that follow, which leave the cut as it is.
-/

namespace Sys2Proof.Machine

/-- A fold of steps that each keep a reflexive and transitive relation keeps it. -/
theorem foldl_rel {σ α : Type} {R : σ → σ → Prop} (hrefl : ∀ s, R s s) (htrans : ∀ {s t u}, R s t → R t u → R s u)
    {f : σ → α → σ} (hf : ∀ s a, R s (f s a)) (l : List α) (s : σ) : R s (l.foldl f s) := by
  induction l generalizing s with
  | nil => exact hrefl s
  | cons a l ih => exact htrans (hf s a) (ih (f s a))

theorem sendMsgAll_lanesOnly (s : State) (lanes : List Nat) (vc share ctx : Nat) (gen : BitVec 16) (body : Bytes) :
    LanesOnly s (s.sendMsgAll lanes vc share ctx gen body) :=
  foldl_rel LanesOnly.refl LanesOnly.trans (fun _ _ => ⟨_, rfl⟩) lanes s

/-! ## The boundary that is due, and the push of the schedule -/

section Push
variable {s : State} {k : Nat} {tk : Ticks} {anchor : Anchor}

theorem dueBoundary_locked (hlocked : s.tim.state = .locked) (hadopt : s.sched.adopt = none) (hpast : s.sched.past ≠ [])
    (hdue : s.dueBoundary = some (k, tk, anchor)) : k = s.sched.nextK ∧ tk = s.sched.nextT := by
  have hempty : s.sched.past.isEmpty = false := by rwa [List.isEmpty_eq_false_iff]
  have hset : s.tim.state.settable = false := by rw [hlocked]; rfl
  unfold State.dueBoundary at hdue
  simp only [hadopt, Option.bind_none, hempty, hset, Bool.or_self, Bool.false_eq_true, if_false] at hdue
  split at hdue
  · cases hdue
  · split at hdue
    · simp only [Option.some.injEq, Prod.mk.injEq] at hdue
      exact ⟨hdue.1.symm, hdue.2.1.symm⟩
    · cases hdue

theorem takeAnchor_of_none (a : Anchor) (hadopt : s.sched.adopt = none) : takeAnchor a s = s := by
  simp [takeAnchor, hadopt]

theorem skipTo_of_next (hk : k = s.sched.nextK) : skipTo k s = s := by
  unfold skipTo
  split
  · simp [hk]
  · rfl

theorem applyArms_of_nil (k : Nat) (t : Ticks) (harms : s.red.arms = []) : applyArms k t s = s := by
  rw [applyArms, harms, List.filter_nil, List.foldl_nil]

/-- The boundary that passes when the schedule has not been set back, with the length of its epoch (03 R103). -/
def State.passing (s : State) (k : Nat) (tk : Ticks) : Boundary :=
  { k := k, t := tk, epochNs := s.cfg.epochNs, len := (epochStep s.cfg.epochNs s.sched.d).1
    irregular := (epochStep s.cfg.epochNs s.sched.d).2.1 }

/-- A state in whose schedule boundary k has passed. -/
def State.passed (s : State) (k : Nat) (tk : Ticks) (knots : List (Nat × Ticks)) : State :=
  { s with sched := { s.sched with
    d := (epochStep s.cfg.epochNs s.sched.d).2.2
    nextK := k + 1
    nextT := tk + nsT (epochStep s.cfg.epochNs s.sched.d).1
    past := s.passing k tk :: s.sched.past.take 63
    knots := knots } }

theorem pushBoundary_eq (tk : Ticks) (hknots : ∀ x ∈ s.sched.knots, x.1 ≤ k) :
    ∃ knots, pushBoundary k tk s = s.passed k tk knots := by
  unfold pushBoundary
  cases h : s.sched.knots with
  | nil => exact ⟨_, rfl⟩
  | cons x xs =>
    have hx : ¬ k < x.1 := by
      have := hknots x (by rw [h]; exact List.mem_cons_self)
      omega
    simp only [hx, if_false]
    exact ⟨_, rfl⟩

theorem applyBnds_of_nil (k : Nat) (t : Ticks) (hbnd : s.stw.bnd = []) : applyBnds k t s = s := by
  have hstw : ({ s with stw := { s.stw with bnd := [] } } : State) = s := by rw [← hbnd]
  unfold applyBnds
  simp only [hbnd, List.filter_nil, sortBy, List.foldl_nil, hstw]
  unfold renameUnechoed
  simp [hbnd]

end Push

/-! ## The cut -/

/-- Only the health counters of a state have changed. -/
def HealthOnly (s t : State) : Prop := ∃ health, t = { s with cap := { s.cap with health := health } }

theorem HealthOnly.refl (s : State) : HealthOnly s s := ⟨_, rfl⟩

theorem HealthOnly.trans {s t u : State} (h : HealthOnly s t) (k : HealthOnly t u) : HealthOnly s u := by
  obtain ⟨_, rfl⟩ := h
  obtain ⟨_, rfl⟩ := k
  exact ⟨_, rfl⟩

theorem cutHealth_healthOnly (b : BoundaryIn) (s : State) : HealthOnly s (cutHealth b s) :=
  foldl_rel HealthOnly.refl HealthOnly.trans (fun _ _ => ⟨_, rfl⟩) _ s

theorem firstRows_eq (k : Nat) (s : State) : ∃ mem, firstRows k s = { s with mem := mem } := by
  unfold firstRows
  split <;> exact ⟨_, rfl⟩

theorem nextMap_eq (s : State) : ∃ seq, nextMap s = { s with cap := { s.cap with mapSeq := seq } } := by
  unfold nextMap
  split <;> exact ⟨_, rfl⟩

theorem countStop_healthOnly (h : Option (BitVec 128)) (s : State) : HealthOnly s (countStop h s) := by
  unfold countStop
  split <;> exact ⟨_, rfl⟩

/-- A cut latches each stook and takes a new slot at the head of the ring. -/
theorem cut_eq (k : Nat) (x : Boundary) (b : BoundaryIn) (s : State) : ∃ mem health slot ring reqs seq,
    cut k x b s = { s with
      mem := mem
      cap := { s.cap with
        health := health, stooks := s.cap.stooks.map (·.cutAt k x.t), ring := slot :: ring, reqs := reqs
        cutCycle := some s.tim.cycle, first := false, mapSeq := seq } } ∧
    slot.k = k ∧ slot.t = x.t ∧ slot.epochNs = x.epochNs ∧ slot.lost = false ∧ slot.sent = false := by
  obtain ⟨mem, hrows⟩ := firstRows_eq k s
  obtain ⟨health, hhealth⟩ := cutHealth_healthOnly b (firstRows k s)
  rw [hrows] at hhealth
  obtain ⟨seq, hmap⟩ := nextMap_eq (cutHealth b (firstRows k s))
  rw [hrows, hhealth] at hmap
  unfold cut
  simp only [hrows, hhealth, hmap]
  obtain ⟨health', hcount⟩ := foldl_rel HealthOnly.refl HealthOnly.trans
    (f := fun s (st : Stook) => countStop (st.cut.map (·.2.1)) s) (fun s st => countStop_healthOnly _ s)
    ((s.cap.stooks.map fun st => st.cutAt k x.t).filter fun st => st.cutWait.isNone) (syncHeaders _)
  exact ⟨_, _, _, _, _, _, hcount, rfl, rfl, rfl, rfl, rfl⟩

/-! ## Before and after the cut -/

/-- What comes before the cut of a boundary leaves the stooks and the die's loss as they are. -/
def BeforeCut (s t : State) : Prop := ∃ c lanes sticky now,
  t = { s with cap := c, lanes := lanes, sticky := sticky, raisedNow := now } ∧ c.stooks = s.cap.stooks ∧
    c.dieLost = s.cap.dieLost

theorem BeforeCut.refl (s : State) : BeforeCut s s := ⟨_, _, _, _, rfl, rfl, rfl⟩

theorem BeforeCut.trans {s t u : State} (h : BeforeCut s t) (k : BeforeCut t u) : BeforeCut s u := by
  obtain ⟨_, _, _, _, rfl, hstooks, hdie⟩ := h
  obtain ⟨_, _, _, _, rfl, hstooks', hdie'⟩ := k
  exact ⟨_, _, _, _, rfl, hstooks'.trans hstooks, hdie'.trans hdie⟩

theorem closeDrain_before (s : State) : BeforeCut s (closeDrain s) := by
  obtain ⟨a, b, hwait⟩ := settleWait_eq s.cap (s.tim.cycle - 1)
  unfold closeDrain
  simp only [hwait]
  split <;> exact ⟨_, _, _, _, rfl, rfl, rfl⟩

theorem overwrite_before (k : Nat) (s : State) : BeforeCut s (overwrite k s) := by
  have hnote : ∀ (s : State) (l : Lane), BeforeCut s ((s.sendCtl l.n (leafStatusMsg 3 [k])).countHealth 319 1) :=
    fun s l => ⟨_, _, _, _, rfl, rfl, rfl⟩
  unfold overwrite
  refine BeforeCut.trans ?_ (foldl_rel BeforeCut.refl BeforeCut.trans hnote _ _)
  exact ⟨_, _, _, _, rfl, rfl, rfl⟩

theorem overwriteRing_before (k : Nat) (s : State) : BeforeCut s (overwriteRing k s) :=
  foldl_rel BeforeCut.refl BeforeCut.trans (fun s j => overwrite_before j s) _ s

/-- What comes after the cut of a boundary leaves the schedule, the mode and the capture as they are. -/
def AfterCut (s t : State) : Prop := ∃ lanes grant age hangs stall sticky now twin, t = { s with
  lanes := lanes, grant := grant, age := age, hangs := hangs, hostStall := stall, sticky := sticky, raisedNow := now
  twin := twin }

theorem AfterCut.refl (s : State) : AfterCut s s := ⟨_, _, _, _, _, _, _, _, rfl⟩

theorem AfterCut.trans {s t u : State} (h : AfterCut s t) (k : AfterCut t u) : AfterCut s u := by
  obtain ⟨_, _, _, _, _, _, _, _, rfl⟩ := h
  obtain ⟨_, _, _, _, _, _, _, _, rfl⟩ := k
  exact ⟨_, _, _, _, _, _, _, _, rfl⟩

theorem LanesOnly.afterCut {s t : State} (h : LanesOnly s t) : AfterCut s t := by
  obtain ⟨_, rfl⟩ := h
  exact ⟨_, _, _, _, _, _, _, _, rfl⟩

theorem ageSample_afterCut (pdm raw : List Nat) (s : State) : AfterCut s (ageSample pdm raw s) := by
  unfold ageSample
  split <;> exact ⟨_, _, _, _, _, _, _, _, rfl⟩

theorem hangSample_afterCut (us : List UnitSample) (stall : Bool) (s : State) : AfterCut s (hangSample us stall s) := by
  unfold hangSample
  generalize (if stall then s.hostStall + 1 else 0) = run
  dsimp only
  split <;> exact ⟨_, _, _, _, _, _, _, _, rfl⟩

theorem handOver_afterCut (s : State) : AfterCut s (handOver s) := by
  unfold handOver
  split
  · refine AfterCut.trans ?_ (sendMsgAll_lanesOnly _ _ _ _ _ _ _).afterCut
    exact ⟨_, _, _, _, _, _, _, _, rfl⟩
  · exact AfterCut.refl s

theorem reportLanes_lanesOnly (s : State) : LanesOnly s (reportLanes s) := sendCtlAll_lanesOnly ..

theorem reports_afterCut (s : State) : AfterCut s (countGrantBoundary (reportLanes s)) := by
  obtain ⟨lanes, hreport⟩ := reportLanes_lanesOnly s
  rw [hreport]
  exact ⟨_, _, _, _, _, _, _, _, rfl⟩

/-- A leaf in service whose time is locked and whose die is there cuts. -/
theorem cuts_of_service {s : State} (hleaf : s.profile = .leaf) (hmode : s.mode = .service)
    (hlocked : s.tim.state = .locked) (hdie : s.cap.dieLost = false) : s.cuts = true := by
  simp only [State.cuts, State.isLeaf, hleaf, hmode, hlocked, hdie]
  rfl

theorem leafBoundary_of_cut {s : State} {k : Nat} {b : BoundaryIn} {x : Boundary} {xs : List Boundary}
    (hpast : s.sched.past = x :: xs) (hleaf : s.profile = .leaf) (hmode : s.mode = .service)
    (hlocked : s.tim.state = .locked) (hdie : s.cap.dieLost = false) (hb : b.dieLost = false) : ∃ t,
    BeforeCut s t ∧ AfterCut (cut k x b { t with cap := { t.cap with
      dieLost := false, stooks := t.cap.stooks.map Stook.skipLate } }) (leafBoundary k b s) := by
  obtain ⟨c, lanes, sticky, now, hbefore, hstooks, hlost⟩ :=
    (closeDrain_before s).trans (overwriteRing_before k (closeDrain s))
  obtain ⟨mem, health, slot, ring, reqs, seq, hcut, -⟩ := cut_eq k x b { s with
    cap := { c with dieLost := false, stooks := c.stooks.map Stook.skipLate }
    lanes := lanes, sticky := sticky, raisedNow := now }
  have hcuts : ({ s with
    cap := { c with dieLost := false, stooks := c.stooks.map Stook.skipLate }
    lanes := lanes, sticky := sticky, raisedNow := now } : State).cuts = true :=
    cuts_of_service hleaf hmode hlocked rfl
  refine ⟨_, ⟨c, lanes, sticky, now, rfl, hstooks, hlost⟩, ?_⟩
  unfold leafBoundary
  simp only [hbefore, hpast, hlost, hdie, hb, Bool.or_self]
  rw [if_pos hcuts, hcut]
  exact reports_afterCut _

/-! ## The boundary -/

section Stooks
variable {st : Stook} (k : Nat) (t : Ticks)

theorem cutAt_aligned (h : st.aligned = true) : ∃ hdr,
    (st.skipLate.cutAt k t).cut = some (k, hdr, List.zipWith (· - ·) st.obs st.base) := by
  unfold Stook.skipLate
  split <;> exact ⟨_, by rw [Stook.cutAt, if_pos h]; rfl⟩

theorem cutAt_stopped {v : List (BitVec 64)} {w : ITime} (h : st.aligned = false) (hold : st.hold = some (v, w)) :
    ∃ hdr, (st.skipLate.cutAt k t).cut = some (k, hdr, List.zipWith (· - ·) v st.base) := by
  unfold Stook.skipLate Stook.cutAt
  split <;> simp only [h, hold, Bool.false_eq_true, if_false] <;> exact ⟨_, rfl⟩

theorem cutAt_running (h : st.aligned = false) (hold : st.hold = none) :
    (st.skipLate.cutAt k t).cutWait = some (k, t) := by
  unfold Stook.skipLate Stook.cutAt
  split <;> simp only [h, hold, Bool.false_eq_true, if_false]

end Stooks

theorem clocked_of_service {s : State} (h : s.mode = .service) : s.clocked = true := by simp only [State.clocked, h]

theorem exec_epochBoundary {s : State} {b : BoundaryIn} {k : Nat} {tk : Ticks} {anchor : Anchor}
    (hclocked : s.clocked = true) (hdue : s.dueBoundary = some (k, tk, anchor)) :
    exec (.epochBoundary b) s = .next (boundary k tk b (takeAnchor anchor s)) := by
  rw [exec, execEpochBoundary, hdue]
  simp only [hclocked, if_true]

/-- The boundary of a leaf with no change and no effect named for it. -/
theorem boundary_of_leaf {s : State} {k : Nat} {tk : Ticks} {b : BoundaryIn} (hleaf : s.profile = .leaf)
    (hk : k = s.sched.nextK) (harms : s.red.arms = []) (hbnd : s.stw.bnd = []) : ∃ t,
    AfterCut (leafBoundary k b (pushBoundary k tk s)) t ∧
    boundary k tk b s = { t with boot := { t.boot with shown := t.mode } } := by
  refine ⟨_, ((ageSample_afterCut b.pdm b.ro _).trans (hangSample_afterCut b.units b.hostStall _)).trans
    (handOver_afterCut _), ?_⟩
  have hstw : (pushBoundary k tk s).stw.bnd = [] := hbnd
  have hprofile : (pushBoundary k tk s).profile = .leaf := hleaf
  unfold boundary
  rw [skipTo_of_next hk, applyArms_of_nil k tk harms, applyBnds_of_nil k tk hstw]
  simp only [hprofile]

/-- Settles O20: what comes before the cut leaves the stooks, and what comes after it leaves the cut. -/
theorem leafBoundaryTakesCut : Obligations.LeafBoundaryTakesCut := by
  intro s b k tk anchor hleaf hmode hlocked hdue hadopt harms hbnd hpast hknots hdie hb
  obtain ⟨hk, htk⟩ := dueBoundary_locked hlocked hadopt hpast hdue
  have hexec := exec_epochBoundary (b := b) (clocked_of_service hmode) hdue
  rw [takeAnchor_of_none anchor hadopt] at hexec
  obtain ⟨t, hafter, hboundary⟩ := boundary_of_leaf (tk := tk) (b := b) hleaf hk harms hbnd
  obtain ⟨knots, hpush⟩ := pushBoundary_eq tk hknots
  rw [hpush] at hafter
  obtain ⟨u, hbefore, hcutAfter⟩ :=
    leafBoundary_of_cut (k := k) (b := b) (s := s.passed k tk knots) rfl hleaf hmode hlocked hdie hb
  have hall := hcutAfter.trans hafter
  obtain ⟨c, lanes, sticky, now, rfl, hstooks, -⟩ := hbefore
  obtain ⟨mem, health, slot, ring, reqs, seq, hcut, hslotK, hslotT, hslotNs, hlost, hsent⟩ :=
    cut_eq k (s.passing k tk) b { s.passed k tk knots with
      cap := { c with dieLost := false, stooks := c.stooks.map Stook.skipLate }
      lanes := lanes, sticky := sticky, raisedNow := now }
  rw [hcut] at hall
  obtain ⟨_, _, _, _, _, _, _, _, rfl⟩ := hall
  have hstook : ∀ (i : Nat) (st : Stook), s.cap.stooks[i]? = some st →
      (((c.stooks.map Stook.skipLate).map (·.cutAt k tk))[i]?) = some (st.skipLate.cutAt k tk) := fun i st hst => by
    rw [List.getElem?_map, List.getElem?_map, hstooks, show (s.passed k tk knots).cap.stooks[i]? = some st from hst]
    rfl
  refine ⟨_, hexec.trans (congrArg Host.Outcome.next hboundary), ⟨rfl, rfl, rfl⟩,
    ⟨slot, rfl, hslotK, hslotT, hslotNs, hlost, hsent⟩, rfl, hmode, ?_, fun i st hst => ⟨?_, ?_, ?_⟩⟩
  · change ((c.stooks.map Stook.skipLate).map (·.cutAt k tk)).length = _
    rw [List.length_map, List.length_map, hstooks]
    rfl
  · intro haligned
    obtain ⟨h, hcutSt⟩ := cutAt_aligned k tk haligned
    exact ⟨h, (congrArg (Option.map Stook.cut) (hstook i st hst)).trans (congrArg some hcutSt)⟩
  · intro v w hrunning hhold
    obtain ⟨h, hcutSt⟩ := cutAt_stopped k tk hrunning hhold
    exact ⟨h, (congrArg (Option.map Stook.cut) (hstook i st hst)).trans (congrArg some hcutSt)⟩
  · intro hrunning hhold
    exact (congrArg (Option.map Stook.cutWait) (hstook i st hst)).trans (congrArg some (cutAt_running k tk hrunning hhold))

end Sys2Proof.Machine
end

section
/-!
SUPPORT. What a function of the model may touch: `Only F s t` says that between s and t only the fields in F may have
changed. For each operation and command its fields, so that a proof about one part of the state need not follow the rest.
-/

namespace Sys2Proof.Machine

set_option Elab.async false

/-- A lane without what is queued to be sent on it: its streams and control messages. -/
def Lane.core (l : Lane) : Lane := { l with txs := [], ctl := [], placed := 0, ctlWait := [] }

/-- The fields of a state, and under `links` what its lanes are but for what is queued to be sent on them. -/
inductive Fld where
  | profile | cfg | straps | pins | edges | pwrEdge | sb | i3c | hfAllow | tim | sched | lanes | cap | ctxs | setups
  | red | trc | watch | lateReads | stop | brk | capt | captOut | mem | chans | raw | act | grant | err | age | otp
  | optime | fab | stw | flash | evr | ident | boot | hangs | hostStall | dump | mode | twin | sticky | raisedNow |
  latches | inbox | out | pending | links
  deriving DecidableEq

/-- A field has the same value in two states. -/
def State.sameAt (s t : State) : Fld → Prop
  | .profile => t.profile = s.profile
  | .cfg => t.cfg = s.cfg
  | .straps => t.straps = s.straps
  | .pins => t.pins = s.pins
  | .edges => t.edges = s.edges
  | .pwrEdge => t.pwrEdge = s.pwrEdge
  | .sb => t.sb = s.sb
  | .i3c => t.i3c = s.i3c
  | .hfAllow => t.hfAllow = s.hfAllow
  | .tim => t.tim = s.tim
  | .sched => t.sched = s.sched
  | .lanes => t.lanes = s.lanes
  | .cap => t.cap = s.cap
  | .ctxs => t.ctxs = s.ctxs
  | .setups => t.setups = s.setups
  | .red => t.red = s.red
  | .trc => t.trc = s.trc
  | .watch => t.watch = s.watch
  | .lateReads => t.lateReads = s.lateReads
  | .stop => t.stop = s.stop
  | .brk => t.brk = s.brk
  | .capt => t.capt = s.capt
  | .captOut => t.captOut = s.captOut
  | .mem => t.mem = s.mem
  | .chans => t.chans = s.chans
  | .raw => t.raw = s.raw
  | .act => t.act = s.act
  | .grant => t.grant = s.grant
  | .err => t.err = s.err
  | .age => t.age = s.age
  | .otp => t.otp = s.otp
  | .optime => t.optime = s.optime
  | .fab => t.fab = s.fab
  | .stw => t.stw = s.stw
  | .flash => t.flash = s.flash
  | .evr => t.evr = s.evr
  | .ident => t.ident = s.ident
  | .boot => t.boot = s.boot
  | .hangs => t.hangs = s.hangs
  | .hostStall => t.hostStall = s.hostStall
  | .dump => t.dump = s.dump
  | .mode => t.mode = s.mode
  | .twin => t.twin = s.twin
  | .sticky => t.sticky = s.sticky
  | .raisedNow => t.raisedNow = s.raisedNow
  | .latches => t.latches = s.latches
  | .inbox => t.inbox = s.inbox
  | .out => t.out = s.out
  | .pending => t.pending = s.pending
  | .links => t.lanes.map Lane.core = s.lanes.map Lane.core

/-- Only the fields in F may differ. -/
structure Only (F : List Fld) (s t : State) : Prop where
  sameOr : ∀ f, F.contains f = true ∨ s.sameAt t f

section Only
variable {F A : List Fld} {s t u : State}

/-- A field outside F is the same. -/
theorem Only.same (h : Only F s t) (f : Fld) (hf : F.contains f = false) : s.sameAt t f :=
  (h.sameOr f).resolve_left (by rw [hf]; exact Bool.false_ne_true)

theorem Only.refl (s : State) : Only F s s := ⟨fun f => .inr (by cases f <;> rfl)⟩

theorem State.sameAt.trans {f : Fld} (h : s.sameAt t f) (k : t.sameAt u f) : s.sameAt u f := by
  cases f <;> exact Eq.trans k h

theorem Only.trans (h : Only F s t) (k : Only F t u) : Only F s u := ⟨fun f =>
  (h.sameOr f).elim .inl fun h => (k.sameOr f).imp_right h.trans⟩

/-- A step that may touch less. -/
theorem Only.step (k : Only A t u) (hA : A.all F.contains = true) (h : Only F s t) : Only F s u :=
  h.trans ⟨fun f => (k.sameOr f).imp_left fun hf => List.all_eq_true.mp hA f (List.contains_iff_mem.mp hf)⟩

theorem Only.mono (k : Only A s t) (hA : A.all F.contains = true) : Only F s t := Only.step k hA (Only.refl s)

theorem Only.foldl {α : Type} {f : State → α → State} {l : List α} (h : Only F s t)
    (hf : ∀ u a, Only F u (f u a)) : Only F s (l.foldl f t) := by
  induction l generalizing t with
  | nil => exact h
  | cons a l ih => exact ih (h.trans (hf t a))

theorem Only.elim {α : Type} {f : α → State} {o : Option α} (h : Only F s t) (hf : ∀ a, Only F s (f a)) :
    Only F s (o.elim t f) := by
  cases o with
  | none => exact h
  | some a => exact hf a

end Only

/-- A next state of an outcome differs from s in the fields of F alone. -/
def OnlyR (F : List Fld) (s : State) : Res → Prop
  | .next t => Only F s t
  | _ => True

theorem OnlyR.next {F : List Fld} {s t : State} (h : Only F s t) : OnlyR F s (.next t) := h

/-- An image effect that acts now touches the fields of F alone. -/
structure NowOnly (F : List Fld) (e : ImageEffect) : Prop where
  whenNow : ∀ f, e = .now f → ∀ u, Only F u (f u)

theorem NowOnly.refuse {F : List Fld} {n : Nat} : NowOnly F (.refuse n) := ⟨fun _ h => by cases h⟩
theorem NowOnly.bnd {F : List Fld} {a : Bnd} {r : Bytes} : NowOnly F (.bnd a r) := ⟨fun _ h => by cases h⟩
theorem NowOnly.now {F : List Fld} {f : State → State} (h : ∀ u, Only F u (f u)) : NowOnly F (.now f) :=
  ⟨fun _ e u => by cases e; exact h u⟩

theorem NowOnly.mono {F A : List Fld} {e : ImageEffect} (h : NowOnly A e) (hA : A.all F.contains = true) : NowOnly F e :=
  ⟨fun f hf u => (h.whenNow f hf u).mono hA⟩

/-! ## What is queued on a lane -/

theorem Lane.place_core (l : Lane) (m : Bytes) : (l.place m).core = l.core := by
  unfold Lane.place
  split <;> rfl

theorem Lane.feedRecord_core (l : Lane) (gen : BitVec 16) (len : Nat) (body : Bytes) (k : Nat) :
    (l.feedRecord gen len body k).core = l.core := by
  unfold Lane.feedRecord
  split
  · rfl
  · split <;> rfl

section Sends
variable {s : State} {f : Lane → Lane}

theorem Only.lanesMap (hf : ∀ l, (f l).core = l.core) : Only [.lanes] s { s with lanes := s.lanes.map f } :=
  have hlinks : (s.lanes.map f).map Lane.core = s.lanes.map Lane.core := by
    rw [List.map_map]
    exact List.map_congr_left fun l _ => hf l
  ⟨fun f => by cases f <;> first | exact .inl rfl | exact .inr rfl | exact .inr hlinks⟩

theorem Only.lanesMap_cap {cap : CapSt} (hf : ∀ l, (f l).core = l.core) :
    Only [.lanes, .cap] s { s with lanes := s.lanes.map f, cap := cap } :=
  have hlinks : (s.lanes.map f).map Lane.core = s.lanes.map Lane.core := by
    rw [List.map_map]
    exact List.map_congr_left fun l _ => hf l
  ⟨fun f => by cases f <;> first | exact .inl rfl | exact .inr rfl | exact .inr hlinks⟩

theorem Only.onLane_sends {n : Nat} (hf : ∀ l, (f l).core = l.core) : Only [.lanes] s (s.onLane n f) :=
  Only.lanesMap fun l => by split <;> simp only [hf]

end Sends

section Wrappers
variable {F : List Fld} {s s0 : State} {n : String} {f : State → State}

theorem whenClocked_only (hs : Only F s0 s) (h : Only F s (f s)) : Only F s0 (whenClocked s f) := by
  unfold whenClocked
  split
  · exact hs.trans h
  · exact hs

theorem onTrayEver_only (h : Only F s (f s)) : OnlyR F s (onTrayEver n s f) := by
  unfold onTrayEver
  split
  · exact h
  · trivial

theorem onLeafEver_only (h : Only F s (f s)) : OnlyR F s (onLeafEver n s f) := by
  unfold onLeafEver
  split
  · exact h
  · trivial

theorem onTray_only (h : Only F s (f s)) : OnlyR F s (onTray n s f) :=
  onTrayEver_only (whenClocked_only (Only.refl s) h)

theorem onLeaf_only (h : Only F s (f s)) : OnlyR F s (onLeaf n s f) :=
  onLeafEver_only (whenClocked_only (Only.refl s) h)

theorem byUnit_only {cls : Nat} {c : CheckOutcome} (hs : Only F s0 s) (hf : ∀ u, Only F u (f u)) :
    Only F s0 (byUnit cls c f s) := by
  unfold byUnit
  split
  · exact hs
  · exact hs.trans (hf s)

theorem onRunning_only {n op : Nat} {f : Cmd → State → State} (hs : Only F s0 s) (hf : ∀ c u, Only F u (f c u)) :
    Only F s0 (onRunning n op f s) := by
  unfold onRunning
  split
  · split
    · exact hs.trans (hf _ _)
    · exact hs
  · exact hs

theorem forWaiting_only {p : Cmd → Bool} {f : Nat → Cmd → State → State} (hs : Only F s0 s)
    (hf : ∀ n c u, Only F u (f n c u)) : Only F s0 (forWaiting p f s) :=
  Only.foldl hs fun u _ => Only.foldl (Only.refl u) fun v c => hf _ c v

end Wrappers

/-! ## States written out -/

theorem Only.put_pins {s : State} {pins} : Only [.pins] s { s with pins := pins } :=
  ⟨fun f => by cases f <;> first | exact .inl rfl | exact .inr rfl⟩

theorem Only.put_i3c {s : State} {i3c} : Only [.i3c] s { s with i3c := i3c } :=
  ⟨fun f => by cases f <;> first | exact .inl rfl | exact .inr rfl⟩

theorem Only.put_hfAllow {s : State} {hfAllow} : Only [.hfAllow] s { s with hfAllow := hfAllow } :=
  ⟨fun f => by cases f <;> first | exact .inl rfl | exact .inr rfl⟩

theorem Only.put_tim {s : State} {tim} : Only [.tim] s { s with tim := tim } :=
  ⟨fun f => by cases f <;> first | exact .inl rfl | exact .inr rfl⟩

theorem Only.put_sched {s : State} {sched} : Only [.sched] s { s with sched := sched } :=
  ⟨fun f => by cases f <;> first | exact .inl rfl | exact .inr rfl⟩

theorem Only.put_lanes {s : State} {lanes} : Only [.lanes, .links] s { s with lanes := lanes } :=
  ⟨fun f => by cases f <;> first | exact .inl rfl | exact .inr rfl⟩

theorem Only.put_cap {s : State} {cap} : Only [.cap] s { s with cap := cap } :=
  ⟨fun f => by cases f <;> first | exact .inl rfl | exact .inr rfl⟩

theorem Only.put_ctxs {s : State} {ctxs} : Only [.ctxs] s { s with ctxs := ctxs } :=
  ⟨fun f => by cases f <;> first | exact .inl rfl | exact .inr rfl⟩

theorem Only.put_setups {s : State} {setups} : Only [.setups] s { s with setups := setups } :=
  ⟨fun f => by cases f <;> first | exact .inl rfl | exact .inr rfl⟩

theorem Only.put_red {s : State} {red} : Only [.red] s { s with red := red } :=
  ⟨fun f => by cases f <;> first | exact .inl rfl | exact .inr rfl⟩

theorem Only.put_trc {s : State} {trc} : Only [.trc] s { s with trc := trc } :=
  ⟨fun f => by cases f <;> first | exact .inl rfl | exact .inr rfl⟩

theorem Only.put_watch {s : State} {watch} : Only [.watch] s { s with watch := watch } :=
  ⟨fun f => by cases f <;> first | exact .inl rfl | exact .inr rfl⟩

theorem Only.put_lateReads {s : State} {lateReads} : Only [.lateReads] s { s with lateReads := lateReads } :=
  ⟨fun f => by cases f <;> first | exact .inl rfl | exact .inr rfl⟩

theorem Only.put_stop {s : State} {stop} : Only [.stop] s { s with stop := stop } :=
  ⟨fun f => by cases f <;> first | exact .inl rfl | exact .inr rfl⟩

theorem Only.put_brk {s : State} {brk} : Only [.brk] s { s with brk := brk } :=
  ⟨fun f => by cases f <;> first | exact .inl rfl | exact .inr rfl⟩

theorem Only.put_captOut {s : State} {captOut} : Only [.captOut] s { s with captOut := captOut } :=
  ⟨fun f => by cases f <;> first | exact .inl rfl | exact .inr rfl⟩

theorem Only.put_mem {s : State} {mem} : Only [.mem] s { s with mem := mem } :=
  ⟨fun f => by cases f <;> first | exact .inl rfl | exact .inr rfl⟩

theorem Only.put_chans {s : State} {chans} : Only [.chans] s { s with chans := chans } :=
  ⟨fun f => by cases f <;> first | exact .inl rfl | exact .inr rfl⟩

theorem Only.put_raw {s : State} {raw} : Only [.raw] s { s with raw := raw } :=
  ⟨fun f => by cases f <;> first | exact .inl rfl | exact .inr rfl⟩

theorem Only.put_act {s : State} {act} : Only [.act] s { s with act := act } :=
  ⟨fun f => by cases f <;> first | exact .inl rfl | exact .inr rfl⟩

theorem Only.put_grant {s : State} {grant} : Only [.grant] s { s with grant := grant } :=
  ⟨fun f => by cases f <;> first | exact .inl rfl | exact .inr rfl⟩

theorem Only.put_err {s : State} {err} : Only [.err] s { s with err := err } :=
  ⟨fun f => by cases f <;> first | exact .inl rfl | exact .inr rfl⟩

theorem Only.put_age {s : State} {age} : Only [.age] s { s with age := age } :=
  ⟨fun f => by cases f <;> first | exact .inl rfl | exact .inr rfl⟩

theorem Only.put_fab {s : State} {fab} : Only [.fab] s { s with fab := fab } :=
  ⟨fun f => by cases f <;> first | exact .inl rfl | exact .inr rfl⟩

theorem Only.put_stw {s : State} {stw} : Only [.stw] s { s with stw := stw } :=
  ⟨fun f => by cases f <;> first | exact .inl rfl | exact .inr rfl⟩

theorem Only.put_flash {s : State} {flash} : Only [.flash] s { s with flash := flash } :=
  ⟨fun f => by cases f <;> first | exact .inl rfl | exact .inr rfl⟩

theorem Only.put_evr {s : State} {evr} : Only [.evr] s { s with evr := evr } :=
  ⟨fun f => by cases f <;> first | exact .inl rfl | exact .inr rfl⟩

theorem Only.put_ident {s : State} {ident} : Only [.ident] s { s with ident := ident } :=
  ⟨fun f => by cases f <;> first | exact .inl rfl | exact .inr rfl⟩

theorem Only.put_boot {s : State} {boot} : Only [.boot] s { s with boot := boot } :=
  ⟨fun f => by cases f <;> first | exact .inl rfl | exact .inr rfl⟩

theorem Only.put_hangs {s : State} {hangs} : Only [.hangs] s { s with hangs := hangs } :=
  ⟨fun f => by cases f <;> first | exact .inl rfl | exact .inr rfl⟩

theorem Only.put_dump {s : State} {dump} : Only [.dump] s { s with dump := dump } :=
  ⟨fun f => by cases f <;> first | exact .inl rfl | exact .inr rfl⟩

theorem Only.put_mode {s : State} {mode} : Only [.mode] s { s with mode := mode } :=
  ⟨fun f => by cases f <;> first | exact .inl rfl | exact .inr rfl⟩

theorem Only.put_twin {s : State} {twin} : Only [.twin] s { s with twin := twin } :=
  ⟨fun f => by cases f <;> first | exact .inl rfl | exact .inr rfl⟩

theorem Only.put_sticky {s : State} {sticky} : Only [.sticky] s { s with sticky := sticky } :=
  ⟨fun f => by cases f <;> first | exact .inl rfl | exact .inr rfl⟩

theorem Only.put_latches {s : State} {latches} : Only [.latches] s { s with latches := latches } :=
  ⟨fun f => by cases f <;> first | exact .inl rfl | exact .inr rfl⟩

theorem Only.put_inbox {s : State} {inbox} : Only [.inbox] s { s with inbox := inbox } :=
  ⟨fun f => by cases f <;> first | exact .inl rfl | exact .inr rfl⟩

theorem Only.put_out {s : State} {out} : Only [.out] s { s with out := out } :=
  ⟨fun f => by cases f <;> first | exact .inl rfl | exact .inr rfl⟩

theorem Only.put_cfg_sched {s : State} {cfg} {sched} : Only [.cfg, .sched] s { s with
      cfg := cfg
      sched := sched } :=
  ⟨fun f => by cases f <;> first | exact .inl rfl | exact .inr rfl⟩

theorem Only.put_cfg_lanes {s : State} {cfg} {lanes} : Only [.cfg, .lanes, .links] s { s with
      cfg := cfg
      lanes := lanes } :=
  ⟨fun f => by cases f <;> first | exact .inl rfl | exact .inr rfl⟩

theorem Only.put_pins_sb {s : State} {pins} {sb} : Only [.pins, .sb] s { s with pins := pins, sb := sb } :=
  ⟨fun f => by cases f <;> first | exact .inl rfl | exact .inr rfl⟩

theorem Only.put_pins_trc {s : State} {pins} {trc} : Only [.pins, .trc] s { s with pins := pins, trc := trc } :=
  ⟨fun f => by cases f <;> first | exact .inl rfl | exact .inr rfl⟩

theorem Only.put_pins_stop {s : State} {pins} {stop} : Only [.pins, .stop] s { s with
      pins := pins
      stop := stop } :=
  ⟨fun f => by cases f <;> first | exact .inl rfl | exact .inr rfl⟩

theorem Only.put_pins_brk {s : State} {pins} {brk} : Only [.pins, .brk] s { s with pins := pins, brk := brk } :=
  ⟨fun f => by cases f <;> first | exact .inl rfl | exact .inr rfl⟩

theorem Only.put_pins_act {s : State} {pins} {act} : Only [.pins, .act] s { s with pins := pins, act := act } :=
  ⟨fun f => by cases f <;> first | exact .inl rfl | exact .inr rfl⟩

theorem Only.put_pins_grant {s : State} {pins} {grant} : Only [.pins, .grant] s { s with
      pins := pins
      grant := grant } :=
  ⟨fun f => by cases f <;> first | exact .inl rfl | exact .inr rfl⟩

theorem Only.put_pins_age {s : State} {pins} {age} : Only [.pins, .age] s { s with pins := pins, age := age } :=
  ⟨fun f => by cases f <;> first | exact .inl rfl | exact .inr rfl⟩

theorem Only.put_pins_otp {s : State} {pins} {otp} : Only [.pins, .otp] s { s with pins := pins, otp := otp } :=
  ⟨fun f => by cases f <;> first | exact .inl rfl | exact .inr rfl⟩

theorem Only.put_pins_stw {s : State} {pins} {stw} : Only [.pins, .stw] s { s with pins := pins, stw := stw } :=
  ⟨fun f => by cases f <;> first | exact .inl rfl | exact .inr rfl⟩

theorem Only.put_pins_ident {s : State} {pins} {ident} : Only [.pins, .ident] s { s with
      pins := pins
      ident := ident } :=
  ⟨fun f => by cases f <;> first | exact .inl rfl | exact .inr rfl⟩

theorem Only.put_pins_mode {s : State} {pins} {mode} : Only [.pins, .mode] s { s with
      pins := pins
      mode := mode } :=
  ⟨fun f => by cases f <;> first | exact .inl rfl | exact .inr rfl⟩

theorem Only.put_tim_evr {s : State} {tim} {evr} : Only [.tim, .evr] s { s with tim := tim, evr := evr } :=
  ⟨fun f => by cases f <;> first | exact .inl rfl | exact .inr rfl⟩

theorem Only.put_tim_twin {s : State} {tim} {twin} : Only [.tim, .twin] s { s with tim := tim, twin := twin } :=
  ⟨fun f => by cases f <;> first | exact .inl rfl | exact .inr rfl⟩

theorem Only.put_cap_trc {s : State} {cap} {trc} : Only [.cap, .trc] s { s with cap := cap, trc := trc } :=
  ⟨fun f => by cases f <;> first | exact .inl rfl | exact .inr rfl⟩

theorem Only.put_red_stop {s : State} {red} {stop} : Only [.red, .stop] s { s with red := red, stop := stop } :=
  ⟨fun f => by cases f <;> first | exact .inl rfl | exact .inr rfl⟩

theorem Only.put_red_raw {s : State} {red} {raw} : Only [.red, .raw] s { s with red := red, raw := raw } :=
  ⟨fun f => by cases f <;> first | exact .inl rfl | exact .inr rfl⟩

theorem Only.put_watch_lateReads {s : State} {watch} {lateReads} : Only [.watch, .lateReads] s { s with
      watch := watch
      lateReads := lateReads } :=
  ⟨fun f => by cases f <;> first | exact .inl rfl | exact .inr rfl⟩

theorem Only.put_capt_captOut {s : State} {capt} {captOut} : Only [.capt, .captOut] s { s with
      capt := capt
      captOut := captOut } :=
  ⟨fun f => by cases f <;> first | exact .inl rfl | exact .inr rfl⟩

theorem Only.put_mem_raw {s : State} {mem} {raw} : Only [.mem, .raw] s { s with mem := mem, raw := raw } :=
  ⟨fun f => by cases f <;> first | exact .inl rfl | exact .inr rfl⟩

theorem Only.put_mem_twin {s : State} {mem} {twin} : Only [.mem, .twin] s { s with mem := mem, twin := twin } :=
  ⟨fun f => by cases f <;> first | exact .inl rfl | exact .inr rfl⟩

theorem Only.put_act_twin {s : State} {act} {twin} : Only [.act, .twin] s { s with act := act, twin := twin } :=
  ⟨fun f => by cases f <;> first | exact .inl rfl | exact .inr rfl⟩

theorem Only.put_err_age {s : State} {err} {age} : Only [.err, .age] s { s with err := err, age := age } :=
  ⟨fun f => by cases f <;> first | exact .inl rfl | exact .inr rfl⟩

theorem Only.put_optime_evr {s : State} {optime} {evr} : Only [.optime, .evr] s { s with
      optime := optime
      evr := evr } :=
  ⟨fun f => by cases f <;> first | exact .inl rfl | exact .inr rfl⟩

theorem Only.put_stw_twin {s : State} {stw} {twin} : Only [.stw, .twin] s { s with stw := stw, twin := twin } :=
  ⟨fun f => by cases f <;> first | exact .inl rfl | exact .inr rfl⟩

theorem Only.put_flash_evr {s : State} {flash} {evr} : Only [.flash, .evr] s { s with
      flash := flash
      evr := evr } :=
  ⟨fun f => by cases f <;> first | exact .inl rfl | exact .inr rfl⟩

theorem Only.put_ident_boot {s : State} {ident} {boot} : Only [.ident, .boot] s { s with
      ident := ident
      boot := boot } :=
  ⟨fun f => by cases f <;> first | exact .inl rfl | exact .inr rfl⟩

theorem Only.put_boot_mode {s : State} {boot} {mode} : Only [.boot, .mode] s { s with
      boot := boot
      mode := mode } :=
  ⟨fun f => by cases f <;> first | exact .inl rfl | exact .inr rfl⟩

theorem Only.put_hangs_hostStall {s : State} {hangs} {hostStall} : Only [.hangs, .hostStall] s { s with
      hangs := hangs
      hostStall := hostStall } :=
  ⟨fun f => by cases f <;> first | exact .inl rfl | exact .inr rfl⟩

theorem Only.put_dump_sticky {s : State} {dump} {sticky} : Only [.dump, .sticky] s { s with
      dump := dump
      sticky := sticky } :=
  ⟨fun f => by cases f <;> first | exact .inl rfl | exact .inr rfl⟩

theorem Only.put_mode_twin {s : State} {mode} {twin} : Only [.mode, .twin] s { s with
      mode := mode
      twin := twin } :=
  ⟨fun f => by cases f <;> first | exact .inl rfl | exact .inr rfl⟩

theorem Only.put_sticky_raisedNow {s : State} {sticky} {raisedNow} : Only [.sticky, .raisedNow] s { s with
      sticky := sticky
      raisedNow := raisedNow } :=
  ⟨fun f => by cases f <;> first | exact .inl rfl | exact .inr rfl⟩

theorem Only.put_red_mem_raw {s : State} {red} {mem} {raw} : Only [.red, .mem, .raw] s { s with
      red := red
      mem := mem
      raw := raw } :=
  ⟨fun f => by cases f <;> first | exact .inl rfl | exact .inr rfl⟩

theorem Only.put_red_act_twin {s : State} {red} {act} {twin} : Only [.red, .act, .twin] s { s with
      red := red
      act := act
      twin := twin } :=
  ⟨fun f => by cases f <;> first | exact .inl rfl | exact .inr rfl⟩

theorem Only.put_trc_watch_stw {s : State} {trc} {watch} {stw} : Only [.trc, .watch, .stw] s { s with
      trc := trc
      watch := watch
      stw := stw } :=
  ⟨fun f => by cases f <;> first | exact .inl rfl | exact .inr rfl⟩

theorem Only.put_mem_act_twin {s : State} {mem} {act} {twin} : Only [.mem, .act, .twin] s { s with
      mem := mem
      act := act
      twin := twin } :=
  ⟨fun f => by cases f <;> first | exact .inl rfl | exact .inr rfl⟩

theorem Only.put_stw_boot_mode {s : State} {stw} {boot} {mode} : Only [.stw, .boot, .mode] s { s with
      stw := stw
      boot := boot
      mode := mode } :=
  ⟨fun f => by cases f <;> first | exact .inl rfl | exact .inr rfl⟩

theorem Only.put_pins_boot_mode_twin {s : State} {pins} {boot} {mode} {twin} : Only [.pins, .boot, .mode, .twin] s { s with
      pins := pins
      boot := boot
      mode := mode
      twin := twin } :=
  ⟨fun f => by cases f <;> first | exact .inl rfl | exact .inr rfl⟩

theorem Only.put_pins_red_act_mode_twin {s : State} {pins} {red} {act} {mode} {twin} : Only [.pins, .red, .act,
    .mode, .twin] s { s with
      pins := pins
      red := red
      act := act
      mode := mode
      twin := twin } :=
  ⟨fun f => by cases f <;> first | exact .inl rfl | exact .inr rfl⟩

theorem Only.put_pins_red_act_boot_mode_twin {s : State} {pins} {red} {act} {boot} {mode} {twin} : Only [.pins,
    .red, .act, .boot, .mode, .twin] s { s with
      pins := pins
      red := red
      act := act
      boot := boot
      mode := mode
      twin := twin } :=
  ⟨fun f => by cases f <;> first | exact .inl rfl | exact .inr rfl⟩

theorem Only.put_cap_red_capt_mem_raw_act {s : State} {cap} {red} {capt} {mem} {raw} {act} : Only [.cap, .red,
    .capt, .mem, .raw, .act] s { s with
      cap := cap
      red := red
      capt := capt
      mem := mem
      raw := raw
      act := act } :=
  ⟨fun f => by cases f <;> first | exact .inl rfl | exact .inr rfl⟩

theorem Only.put_pins_lanes_act_stw_evr_boot_mode_twin {s : State} {pins} {lanes} {act} {stw} {evr} {boot} {mode}
    {twin} : Only [.pins, .lanes, .act, .stw, .evr, .boot, .mode, .twin, .links] s { s with
      pins := pins
      lanes := lanes
      act := act
      stw := stw
      evr := evr
      boot := boot
      mode := mode
      twin := twin } :=
  ⟨fun f => by cases f <;> first | exact .inl rfl | exact .inr rfl⟩

theorem Only.put_cfg_sched_lanes_cap_red_ident_boot_mode_twin {s : State} {cfg} {sched} {lanes} {cap} {red} {ident}
    {boot} {mode} {twin} : Only [.cfg, .sched, .lanes, .cap, .red, .ident, .boot, .mode, .twin, .links] s { s with
      cfg := cfg
      sched := sched
      lanes := lanes
      cap := cap
      red := red
      ident := ident
      boot := boot
      mode := mode
      twin := twin } :=
  ⟨fun f => by cases f <;> first | exact .inl rfl | exact .inr rfl⟩

theorem Only.put_cap_setups_red_trc_capt_captOut_mem_raw_fab_stw {s : State} {cap} {setups} {red} {trc} {capt}
    {captOut} {mem} {raw} {fab} {stw} : Only [.cap, .setups, .red, .trc, .capt, .captOut, .mem, .raw, .fab, .stw] s { s with
      cap := cap
      setups := setups
      red := red
      trc := trc
      capt := capt
      captOut := captOut
      mem := mem
      raw := raw
      fab := fab
      stw := stw } :=
  ⟨fun f => by cases f <;> first | exact .inl rfl | exact .inr rfl⟩

theorem Only.put_sched_ctxs_setups_red_capt_mem_raw_act_fab_stw_twin {s : State} {sched} {ctxs} {setups} {red}
    {capt} {mem} {raw} {act} {fab} {stw} {twin} : Only [.sched, .ctxs, .setups, .red, .capt, .mem, .raw, .act, .fab,
    .stw, .twin] s { s with
      sched := sched
      ctxs := ctxs
      setups := setups
      red := red
      capt := capt
      mem := mem
      raw := raw
      act := act
      fab := fab
      stw := stw
      twin := twin } :=
  ⟨fun f => by cases f <;> first | exact .inl rfl | exact .inr rfl⟩

end Sys2Proof.Machine
end

section
/-!
SUPPORT. What each operation and command may touch: time, lanes and units.
-/

namespace Sys2Proof.Machine

set_option Elab.async false

theorem State.setBit_only {s : State} {r : StatReg} {i : Nat} : Only [.sticky, .raisedNow] s (State.setBit s r i) := Only.put_sticky_raisedNow

theorem State.emit_only {s : State} {o : Out} : Only [.out] s (State.emit s o) := Only.put_out

theorem State.emits_only {s : State} {o : List Out} : Only [.out] s (State.emits s o) := Only.put_out

theorem State.onLane_only {s : State} {n : Nat} {f : Lane → Lane} : Only [.lanes, .links] s (State.onLane s n f) := Only.put_lanes

theorem State.countHealth_only {s : State} {i n : Nat} : Only [.cap] s (State.countHealth s i n) := Only.put_cap

theorem State.setHealth_only {s : State} {i : Nat} {v : BitVec 64} : Only [.cap] s (State.setHealth s i v) := Only.put_cap

theorem State.sendCtl_only {s : State} {n : Nat} {m : Bytes} : Only [.lanes] s (State.sendCtl s n m) :=
  Only.onLane_sends fun l => by split <;> simp only [Lane.place_core]

theorem State.sendCtlAll_only {s : State} {ns : List Nat} {m : Bytes} : Only [.lanes] s (State.sendCtlAll s ns m) := by
  unfold State.sendCtlAll
  repeat' (first
    | with_reducible exact Only.refl _
    | ((with_reducible apply Only.step State.sendCtl_only); exact rfl)
    | with_reducible apply Only.foldl
    | intro _)

theorem State.sendBelay_only {s : State} {m : Bytes} : Only [.lanes] s (State.sendBelay s m) := by
  unfold State.sendBelay
  repeat' (first
    | with_reducible exact Only.refl _
    | ((with_reducible apply Only.step State.sendCtl_only); exact rfl)
    | split)

theorem State.taken_only {s : State} {lane : Nat} {b : Bytes} : Only [.inbox] s (State.taken s lane b) := Only.put_inbox

theorem State.onCtx_only {s : State} {c : Nat} {f : Ctx → Ctx} : Only [.ctxs] s (State.onCtx s c f) := Only.put_ctxs

theorem State.xfer_only {s : State} {cls : XferClass} {chan n : Nat} : Only [.chans] s (State.xfer s cls chan n) := Only.put_chans

theorem State.stripe_only {s : State} {cls : XferClass} {first n : Nat} : Only [.chans] s (State.stripe s cls first n) := Only.put_chans

theorem noteTail_only {k : Nat} {s : State} : Only [.mem] s (noteTail k s) := by
  unfold noteTail
  dsimp only
  repeat' (first
    | with_reducible exact Only.refl _
    | split
    | ((with_reducible apply Only.step Only.put_mem); exact rfl))

theorem State.metric_only {s : State} {n : Nat} {raw : Int} : Only [.evr] s (State.metric s n raw) := by
  unfold State.metric
  dsimp only
  repeat' (first
    | with_reducible exact Only.refl _
    | intro _
    | split
    | ((with_reducible apply Only.step Only.put_evr); exact rfl))

theorem State.metrics_only {s : State} {l : List (Nat × Int)} : Only [.evr] s (State.metrics s l) := by
  unfold State.metrics
  repeat' (first
    | with_reducible exact Only.refl _
    | ((with_reducible apply Only.step State.metric_only); exact rfl)
    | with_reducible apply Only.foldl
    | intro _)

theorem writeIncInt_only {v : BitVec 8} {s : State} : Only [.tim, .sticky, .raisedNow] s (writeIncInt v s) := by
  unfold writeIncInt
  dsimp only
  repeat' (first
    | with_reducible exact Only.refl _
    | ((with_reducible apply Only.step State.setBit_only); exact rfl)
    | split
    | ((with_reducible apply Only.step Only.put_tim); exact rfl))

theorem writeIncFrac_only {v : BitVec 32} {s : State} : Only [.tim] s (writeIncFrac v s) := Only.put_tim

theorem refuseTimWrite_only {s : State} : Only [.sticky, .raisedNow] s (refuseTimWrite s) := by
  unfold refuseTimWrite
  repeat' (first
    | with_reducible exact Only.refl _
    | ((with_reducible apply Only.step State.setBit_only); exact rfl))

theorem stepTime_only {v : BitVec 64} {s : State} : Only [.tim, .sticky, .raisedNow] s (stepTime v s) := by
  unfold stepTime
  dsimp only
  repeat' (first
    | with_reducible exact Only.refl _
    | ((with_reducible apply Only.step refuseTimWrite_only); exact rfl)
    | split
    | ((with_reducible apply Only.step Only.put_tim); exact rfl))

theorem setTime_only {v : BitVec 128} {s : State} : Only [.tim, .sticky, .raisedNow] s (setTime v s) := by
  unfold setTime
  dsimp only
  repeat' (first
    | with_reducible exact Only.refl _
    | ((with_reducible apply Only.step refuseTimWrite_only); exact rfl)
    | split
    | ((with_reducible apply Only.step Only.put_tim); exact rfl))

theorem writeInc_only {v : Nat} {s : State} : Only [.tim, .sticky, .raisedNow] s (writeInc v s) := by
  unfold writeInc
  repeat' (first
    | with_reducible exact Only.refl _
    | ((with_reducible apply Only.step writeIncFrac_only); exact rfl)
    | ((with_reducible apply Only.step writeIncInt_only); exact rfl))

theorem holdOver_only {s : State} : Only [.tim, .sticky, .raisedNow] s (holdOver s) := by
  unfold holdOver
  dsimp only
  repeat' (first
    | with_reducible exact Only.refl _
    | ((with_reducible apply Only.step writeInc_only); exact rfl)
    | split
    | ((with_reducible apply Only.step Only.put_tim); exact rfl))

theorem reselect_only {s : State} : Only [.tim, .sticky, .raisedNow] s (reselect s) := by
  unfold reselect
  dsimp only
  repeat' (first
    | with_reducible exact Only.refl _
    | ((with_reducible apply Only.step holdOver_only); exact rfl)
    | split
    | ((with_reducible apply Only.step Only.put_tim); exact rfl))

theorem servoLoop_only {theta : Int} {s : State} : Only [.tim, .sticky, .raisedNow] s (servoLoop theta s) := by
  unfold servoLoop
  dsimp only
  repeat' (first
    | with_reducible exact Only.refl _
    | ((with_reducible apply Only.step writeInc_only); exact rfl)
    | split
    | ((with_reducible apply Only.step Only.put_tim); exact rfl))

theorem lockTime_only {s : State} : Only [.tim, .twin] s (lockTime s) := Only.put_tim_twin

theorem servo_only {theta : Int} {s : State} : Only [.tim, .twin, .sticky, .raisedNow] s (servo theta s) := by
  unfold servo
  dsimp only
  repeat' (first
    | with_reducible exact Only.refl _
    | ((with_reducible apply Only.step lockTime_only); exact rfl)
    | ((with_reducible apply Only.step stepTime_only); exact rfl)
    | ((with_reducible apply Only.step servoLoop_only); exact rfl)
    | intro _
    | split
    | ((with_reducible apply Only.step Only.put_tim); exact rfl))

theorem execTimIncFracWrite_only {v : Word} {s : State} : OnlyR [.tim] s (execTimIncFracWrite v s) := by
  unfold execTimIncFracWrite
  repeat' (first
    | with_reducible exact Only.refl _
    | with_reducible apply whenClocked_only
    | with_reducible apply OnlyR.next
    | ((with_reducible apply Only.step writeIncFrac_only); exact rfl))

theorem execTimIncIntWrite_only {v : Word} {s : State} : OnlyR [.tim, .sticky, .raisedNow] s (execTimIncIntWrite v
    s) := by
  unfold execTimIncIntWrite
  repeat' (first
    | with_reducible exact Only.refl _
    | with_reducible apply whenClocked_only
    | with_reducible apply OnlyR.next
    | ((with_reducible apply Only.step writeIncInt_only); exact rfl))

theorem execTimSet_only {v : BitVec 128} {s : State} : OnlyR [.tim, .sticky, .raisedNow] s (execTimSet v s) := by
  unfold execTimSet
  repeat' (first
    | with_reducible exact Only.refl _
    | with_reducible apply whenClocked_only
    | with_reducible apply OnlyR.next
    | ((with_reducible apply Only.step setTime_only); exact rfl))

theorem execTimStep_only {v : BitVec 64} {s : State} : OnlyR [.tim, .sticky, .raisedNow] s (execTimStep v s) := by
  unfold execTimStep
  repeat' (first
    | with_reducible exact Only.refl _
    | with_reducible apply whenClocked_only
    | with_reducible apply OnlyR.next
    | ((with_reducible apply Only.step stepTime_only); exact rfl))

theorem setLatches_only {p : Path} {words : List (Nat × Word)} {s : State} : Only [.latches] s (setLatches p words s) := Only.put_latches

theorem readTimNow_only {p : Path} {s : State} : Only [.latches] s (readTimNow p s).2 := setLatches_only

theorem execTimNowRead_only {p : Path} {s : State} : OnlyR [.latches, .out] s (execTimNowRead p s) := by
  unfold execTimNowRead
  dsimp only
  repeat' (first
    | with_reducible exact Only.refl _
    | with_reducible apply OnlyR.next
    | ((with_reducible apply Only.step State.emit_only); exact rfl)
    | ((with_reducible apply Only.step readTimNow_only); exact rfl)
    | split)

theorem execTimeExchangeOpen_only {lane : Nat} {edge : Ticks} {s : State} : OnlyR [.lanes, .links] s
    (execTimeExchangeOpen lane edge s) := by
  unfold execTimeExchangeOpen
  dsimp only
  repeat' (first
    | with_reducible exact Only.refl _
    | with_reducible apply OnlyR.next
    | ((with_reducible apply Only.step State.onLane_only); exact rfl)
    | intro _
    | split)

theorem execTimeReqReceive_only {lane : Nat} {eseq : BitVec 8} {edge : Ticks} {s : State} : OnlyR [.lanes, .links] s
    (execTimeReqReceive lane eseq edge s) := by
  unfold execTimeReqReceive
  repeat' (first
    | with_reducible exact Only.refl _
    | with_reducible apply OnlyR.next
    | ((with_reducible apply Only.step State.onLane_only); exact rfl))

theorem execTimeFollowSend_only {lane : Nat} {edge : Ticks} {s : State} : OnlyR [.lanes, .links] s
    (execTimeFollowSend lane edge s) := by
  unfold execTimeFollowSend
  dsimp only
  repeat' (first
    | with_reducible exact Only.refl _
    | with_reducible apply OnlyR.next
    | ((with_reducible apply Only.step State.onLane_only); exact rfl))

theorem execTimeExchangeComplete_only {lane : Nat} {eseq : BitVec 8} {t3 : Ticks} {s : State} : OnlyR [.tim, .lanes,
    .evr, .twin, .sticky, .raisedNow, .links] s (execTimeExchangeComplete lane eseq t3 s) := by
  unfold execTimeExchangeComplete
  dsimp only
  repeat' (first
    | with_reducible exact Only.refl _
    | with_reducible apply OnlyR.next
    | ((with_reducible apply Only.step reselect_only); exact rfl)
    | ((with_reducible apply Only.step State.metric_only); exact rfl)
    | ((with_reducible apply Only.step servo_only); exact rfl)
    | ((with_reducible apply Only.step State.onLane_only); exact rfl)
    | intro _
    | split)

theorem execPpsInEdge_only {rising : Bool} {s : State} : OnlyR [.tim, .twin, .sticky, .raisedNow] s (execPpsInEdge
    rising s) := by
  unfold execPpsInEdge
  dsimp only
  repeat' (first
    | with_reducible exact Only.refl _
    | with_reducible apply onTray_only
    | ((with_reducible apply Only.step reselect_only); exact rfl)
    | ((with_reducible apply Only.step servo_only); exact rfl)
    | intro _
    | split
    | ((with_reducible apply Only.step Only.put_tim); exact rfl))

theorem execPpsOutPulse_only {s : State} : OnlyR [.pins] s (execPpsOutPulse s) := by
  unfold execPpsOutPulse
  dsimp only
  repeat' (first
    | with_reducible exact Only.refl _
    | with_reducible apply onTray_only
    | intro _
    | ((with_reducible apply Only.step Only.put_pins); exact rfl))

theorem noteSlotEdge_only {stamp : Ticks} {s : State} : Only [.sched] s (noteSlotEdge stamp s) := by
  unfold noteSlotEdge
  dsimp only
  repeat' (first
    | with_reducible exact Only.refl _
    | ((with_reducible apply Only.step Only.put_sched); exact rfl))

theorem execSlotSyncEdge_only {rising : Bool} {s : State} : OnlyR [.sched] s (execSlotSyncEdge rising s) := by
  unfold execSlotSyncEdge
  dsimp only
  repeat' (first
    | with_reducible exact Only.refl _
    | with_reducible apply onTray_only
    | ((with_reducible apply Only.step noteSlotEdge_only); exact rfl)
    | intro _
    | split
    | ((with_reducible apply Only.step Only.put_sched); exact rfl))

theorem ptpTake_only {origin t2 : Ticks} {correction : Int} {s : State} : Only [.tim, .twin, .sticky, .raisedNow] s
    (ptpTake origin t2 correction s) := by
  unfold ptpTake
  dsimp only
  repeat' (first
    | with_reducible exact Only.refl _
    | ((with_reducible apply Only.step reselect_only); exact rfl)
    | ((with_reducible apply Only.step servo_only); exact rfl)
    | split
    | ((with_reducible apply Only.step Only.put_tim); exact rfl))

theorem sendPdelay_only {s : State} : Only [.tim, .out] s (sendPdelay s) := by
  unfold sendPdelay
  dsimp only
  repeat' (first
    | with_reducible exact Only.refl _
    | ((with_reducible apply Only.step State.emit_only); exact rfl)
    | ((with_reducible apply Only.step Only.put_tim); exact rfl))

theorem putPeerDelay_only {d : Int} {s : State} : Only [.tim] s (putPeerDelay d s) := Only.put_tim

theorem takePdelayResp_only {m : PtpMsg} {t4 : Ticks} {s : State} : Only [.tim] s (takePdelayResp m t4 s) := by
  unfold takePdelayResp
  dsimp only
  repeat' (first
    | with_reducible exact Only.refl _
    | ((with_reducible apply Only.step putPeerDelay_only); exact rfl)
    | split
    | ((with_reducible apply Only.step Only.put_tim); exact rfl))

theorem takePdelayFollow_only {m : PtpMsg} {s : State} : Only [.tim] s (takePdelayFollow m s) := by
  unfold takePdelayFollow
  repeat' (first
    | with_reducible exact Only.refl _
    | ((with_reducible apply Only.step putPeerDelay_only); exact rfl)
    | split)

theorem execPtpMessageReceive_only {m : PtpMsg} {s : State} : OnlyR [.tim, .twin, .sticky, .raisedNow, .out] s
    (execPtpMessageReceive m s) := by
  unfold execPtpMessageReceive
  dsimp only
  repeat' (first
    | with_reducible exact Only.refl _
    | with_reducible apply onTray_only
    | ((with_reducible apply Only.step sendPdelay_only); exact rfl)
    | ((with_reducible apply Only.step takePdelayResp_only); exact rfl)
    | ((with_reducible apply Only.step takePdelayFollow_only); exact rfl)
    | ((with_reducible apply Only.step ptpTake_only); exact rfl)
    | ((with_reducible apply Only.step State.emit_only); exact rfl)
    | intro _
    | split
    | ((with_reducible apply Only.step Only.put_tim); exact rfl))

theorem execNtpMessageReceive_only {t : NtpTime} {s : State} : OnlyR [.tim] s (execNtpMessageReceive t s) := by
  unfold execNtpMessageReceive
  dsimp only
  repeat' (first
    | with_reducible exact Only.refl _
    | with_reducible apply onTray_only
    | intro _
    | split
    | ((with_reducible apply Only.step Only.put_tim); exact rfl))

theorem State.sendMsg_only {s : State} {lane vc share ctx : Nat} {gen : BitVec 16} {body : Bytes} :
    Only [.lanes] s (State.sendMsg s lane vc share ctx gen body) :=
  Only.onLane_sends fun l => by split <;> rfl

theorem State.sendMsgAll_only {s : State} {lanes : List Nat} {vc share ctx : Nat} {gen : BitVec 16} {body : Bytes} :
    Only [.lanes] s (State.sendMsgAll s lanes vc share ctx gen body) := by
  unfold State.sendMsgAll
  repeat' (first
    | with_reducible exact Only.refl _
    | ((with_reducible apply Only.step State.sendMsg_only); exact rfl)
    | with_reducible apply Only.foldl
    | intro _)

theorem State.issueOne_only {s : State} {ctx kind addr : Nat} {data : Bytes} : Only [.lanes] s (State.issueOne s ctx
    kind addr data) := by
  unfold State.issueOne
  repeat' (first
    | with_reducible exact Only.refl _
    | ((with_reducible apply Only.step State.sendMsgAll_only); exact rfl))

theorem State.issue_only {s : State} {os : List Out} : Only [.lanes, .out] s (State.issue s os) := by
  unfold State.issue
  repeat' (first
    | with_reducible exact Only.refl _
    | ((with_reducible apply Only.step State.issueOne_only); exact rfl)
    | ((with_reducible apply Only.step State.emits_only); exact rfl)
    | with_reducible apply Only.foldl
    | intro _
    | split)

theorem laneDrop_only {n cause : Nat} {s : State} : Only [.lanes, .links] s (laneDrop n cause s) := by
  unfold laneDrop
  dsimp only
  repeat' (first
    | with_reducible exact Only.refl _
    | ((with_reducible apply Only.step State.onLane_only); exact rfl)
    | intro _
    | split)

theorem State.sendLeafStatus_only {s : State} {kind : Nat} {args : List Nat} : Only [.lanes] s (State.sendLeafStatus
    s kind args) := by
  unfold State.sendLeafStatus
  repeat' (first
    | with_reducible exact Only.refl _
    | ((with_reducible apply Only.step State.sendCtlAll_only); exact rfl))

theorem reportLanes_only {s : State} : Only [.lanes] s (reportLanes s) := by
  unfold reportLanes
  dsimp only
  repeat' (first
    | with_reducible exact Only.refl _
    | ((with_reducible apply Only.step State.sendLeafStatus_only); exact rfl))

theorem reportAttach_only {lane : Nat} {s : State} : Only [.lanes] s (reportAttach lane s) := by
  unfold reportAttach
  repeat' (first
    | with_reducible exact Only.refl _
    | ((with_reducible apply Only.step reportLanes_only); exact rfl)
    | ((with_reducible apply Only.step State.sendCtl_only); exact rfl))

theorem State.errCount_only {s : State} {i n : Nat} : Only [.err] s (State.errCount s i n) := by
  unfold State.errCount
  dsimp only
  repeat' (first
    | with_reducible exact Only.refl _
    | intro _
    | ((with_reducible apply Only.step Only.put_err); exact rfl))

theorem State.count_only {s : State} {i h n : Nat} : Only [.cap, .err] s (State.count s i h n) := by
  unfold State.count
  repeat' (first
    | with_reducible exact Only.refl _
    | ((with_reducible apply Only.step State.countHealth_only); exact rfl)
    | ((with_reducible apply Only.step State.errCount_only); exact rfl)
    | split)

theorem State.errBit_only {s : State} {i : Nat} : Only [.sticky, .raisedNow] s (State.errBit s i) := by
  unfold State.errBit
  repeat' (first
    | with_reducible exact Only.refl _
    | ((with_reducible apply Only.step State.setBit_only); exact rfl))

theorem dupMismatch_only {third : Bool} {s : State} : Only [.cap, .err, .sticky, .raisedNow] s (dupMismatch third s) := by
  unfold dupMismatch
  dsimp only
  repeat' (first
    | with_reducible exact Only.refl _
    | ((with_reducible apply Only.step State.count_only); exact rfl)
    | ((with_reducible apply Only.step State.errBit_only); exact rfl)
    | split
    | ((with_reducible apply Only.step Only.put_err); exact rfl))

theorem execTimDupFail_only {s : State} : OnlyR [.tim, .cap, .err, .sticky, .raisedNow] s (execTimDupFail s) := by
  unfold execTimDupFail
  dsimp only
  repeat' (first
    | with_reducible exact Only.refl _
    | with_reducible apply whenClocked_only
    | with_reducible apply OnlyR.next
    | ((with_reducible apply Only.step State.count_only); exact rfl)
    | ((with_reducible apply Only.step State.errBit_only); exact rfl)
    | intro _
    | ((with_reducible apply Only.step Only.put_tim); exact rfl))

theorem State.onClass_only {s : State} {cls : Nat} {f : UnitClass → UnitClass} : Only [.err] s (State.onClass s cls f) := Only.put_err

theorem degrade_only {s : State} : Only [.mode, .twin] s (degrade s) := Only.put_mode_twin

theorem countTransient_only {cls n : Nat} {s : State} : Only [.cap, .err, .sticky, .raisedNow] s (countTransient cls
    n s) := by
  unfold countTransient
  dsimp only
  repeat' (first
    | with_reducible exact Only.refl _
    | ((with_reducible apply Only.step State.count_only); exact rfl)
    | ((with_reducible apply Only.step State.countHealth_only); exact rfl)
    | ((with_reducible apply Only.step State.errBit_only); exact rfl)
    | ((with_reducible apply Only.step State.errCount_only); exact rfl)
    | ((with_reducible apply Only.step State.setBit_only); exact rfl)
    | intro _
    | split
    | ((with_reducible apply Only.step Only.put_err); exact rfl))

theorem retireUnit_only {cls unit : Nat} {rate : Bool} {s : State} :
    Only [.lanes, .cap, .err, .mode, .twin, .sticky, .raisedNow, .links] s (retireUnit cls unit rate s) := by
  unfold retireUnit
  dsimp only
  repeat' (first
    | with_reducible exact Only.refl _
    | ((with_reducible apply Only.step State.errBit_only); exact rfl)
    | ((with_reducible apply Only.step State.onClass_only); exact rfl)
    | ((with_reducible apply Only.step State.count_only); exact rfl)
    | ((with_reducible apply Only.step State.countHealth_only); exact rfl)
    | ((with_reducible apply Only.step State.setBit_only); exact rfl)
    | ((with_reducible apply Only.step degrade_only); exact rfl)
    | ((with_reducible apply Only.step laneDrop_only); exact rfl)
    | with_reducible apply Only.elim
    | intro _
    | split)

theorem unitCheck_only {cls : Nat} {c : CheckOutcome} {s : State} : Only [.lanes, .cap, .err, .mode, .twin, .sticky,
    .raisedNow, .links] s (unitCheck cls c s) := by
  unfold unitCheck
  dsimp only
  repeat' (first
    | with_reducible exact Only.refl _
    | ((with_reducible apply Only.step retireUnit_only); exact rfl)
    | ((with_reducible apply Only.step countTransient_only); exact rfl)
    | ((with_reducible apply Only.step State.onClass_only); exact rfl)
    | intro _
    | split)

theorem State.otpProgram_only {s : State} {a : Nat} {v : BitVec 32} : Only [.pins, .otp, .out] s (State.otpProgram s
    a v) := by
  unfold State.otpProgram
  dsimp only
  repeat' (first
    | with_reducible exact Only.refl _
    | ((with_reducible apply Only.step State.emit_only); exact rfl)
    | split
    | ((with_reducible apply Only.step Only.put_pins_otp); exact rfl))

theorem State.otpLog_only {s : State} {v : BitVec 32} : Only [.pins, .cap, .err, .otp, .sticky, .raisedNow, .out] s
    (State.otpLog s v) := by
  unfold State.otpLog
  dsimp only
  repeat' (first
    | with_reducible exact Only.refl _
    | ((with_reducible apply Only.step State.count_only); exact rfl)
    | ((with_reducible apply Only.step State.otpProgram_only); exact rfl)
    | ((with_reducible apply Only.step State.errBit_only); exact rfl)
    | split
    | ((with_reducible apply Only.step Only.put_err); exact rfl))

theorem queueRepair_only {bank row : Nat} {s : State} : Only [.err] s (queueRepair bank row s) := by
  unfold queueRepair
  dsimp only
  repeat' (first
    | with_reducible exact Only.refl _
    | split
    | ((with_reducible apply Only.step Only.put_err); exact rfl))

theorem correctedRow_only {bank row errs : Nat} {s : State} : Only [.cap, .err] s (correctedRow bank row errs s) := by
  unfold correctedRow
  dsimp only
  repeat' (first
    | with_reducible exact Only.refl _
    | ((with_reducible apply Only.step State.count_only); exact rfl)
    | ((with_reducible apply Only.step queueRepair_only); exact rfl)
    | split
    | ((with_reducible apply Only.step Only.put_err); exact rfl))

theorem execSramScrub_only {bank row errs : Nat} {s : State} : OnlyR [.cap, .err] s (execSramScrub bank row errs s) := by
  unfold execSramScrub
  repeat' (first
    | with_reducible exact Only.refl _
    | with_reducible apply whenClocked_only
    | with_reducible apply OnlyR.next
    | ((with_reducible apply Only.step correctedRow_only); exact rfl))

theorem repairRow_only {bank row : Nat} {s : State} : Only [.pins, .cap, .err, .otp, .sticky, .raisedNow, .out] s
    (repairRow bank row s) := by
  unfold repairRow
  dsimp only
  repeat' (first
    | with_reducible exact Only.refl _
    | ((with_reducible apply Only.step State.count_only); exact rfl)
    | ((with_reducible apply Only.step State.otpLog_only); exact rfl)
    | intro _
    | split
    | ((with_reducible apply Only.step Only.put_err); exact rfl))

theorem queuePpr_only {row : Nat × Nat} {s : State} : Only [.err] s (queuePpr row s) := by
  unfold queuePpr
  dsimp only
  repeat' (first
    | with_reducible exact Only.refl _
    | split
    | ((with_reducible apply Only.step Only.put_err); exact rfl))

theorem noteHbm_only {row : Nat × Nat} {s : State} : Only [.err] s (noteHbm row s) := by
  unfold noteHbm
  dsimp only
  repeat' (first
    | with_reducible exact Only.refl _
    | ((with_reducible apply Only.step queuePpr_only); exact rfl)
    | split
    | ((with_reducible apply Only.step Only.put_err); exact rfl))

theorem poisonRing_only {ls : List (Nat × Bool × Nat)} {s : State} : Only [.cap] s (poisonRing ls s) := by
  unfold poisonRing
  dsimp only
  repeat' (first
    | with_reducible exact Only.refl _
    | intro _
    | ((with_reducible apply Only.step Only.put_cap); exact rfl))

theorem execHbmPpr_only {stack row : Nat} {resource : Bool} {flash : FlashAnswer} {s : State} : OnlyR [.chans, .err,
    .sticky, .raisedNow, .out] s (execHbmPpr stack row resource flash s) := by
  unfold execHbmPpr
  dsimp only
  repeat' (first
    | with_reducible exact Only.refl _
    | with_reducible apply onTray_only
    | ((with_reducible apply Only.step State.xfer_only); exact rfl)
    | ((with_reducible apply Only.step State.emit_only); exact rfl)
    | ((with_reducible apply Only.step State.errBit_only); exact rfl)
    | ((with_reducible apply Only.step State.errCount_only); exact rfl)
    | ((with_reducible apply Only.step State.setBit_only); exact rfl)
    | intro _
    | split
    | ((with_reducible apply Only.step Only.put_err); exact rfl))

theorem ageSample_only {pdm raw : List Nat} {s : State} : Only [.age] s (ageSample pdm raw s) := by
  unfold ageSample
  dsimp only
  repeat' (first
    | with_reducible exact Only.refl _
    | split
    | ((with_reducible apply Only.step Only.put_age); exact rfl))

theorem requestStep_only {step : Int} {s : State} : Only [.pins, .age] s (requestStep step s) := by
  unfold requestStep
  dsimp only
  repeat' (first
    | with_reducible exact Only.refl _
    | split
    | ((with_reducible apply Only.step Only.put_pins_age); exact rfl))

theorem restoreNext_only {s : State} : Only [.pins, .age] s (restoreNext s) := by
  unfold restoreNext
  repeat' (first
    | with_reducible exact Only.refl _
    | ((with_reducible apply Only.step requestStep_only); exact rfl)
    | split)

theorem State.ageBit_only {s : State} {i : Nat} : Only [.sticky, .raisedNow] s (State.ageBit s i) := by
  unfold State.ageBit
  repeat' (first
    | with_reducible exact Only.refl _
    | ((with_reducible apply Only.step State.setBit_only); exact rfl))

theorem ageDecide_only {s : State} : Only [.pins, .age, .sticky, .raisedNow] s (ageDecide s) := by
  unfold ageDecide
  dsimp only
  repeat' (first
    | with_reducible exact Only.refl _
    | ((with_reducible apply Only.step State.ageBit_only); exact rfl)
    | ((with_reducible apply Only.step requestStep_only); exact rfl)
    | split
    | ((with_reducible apply Only.step Only.put_age); exact rfl))

theorem ageClose_only {s : State} : Only [.age] s (ageClose s) := by
  unfold ageClose
  dsimp only
  repeat' (first
    | with_reducible exact Only.refl _
    | intro _
    | split
    | ((with_reducible apply Only.step Only.put_age); exact rfl))

theorem startRetune_only {n : Nat} {s : State} : Only [.lanes, .age, .links] s (startRetune n s) := by
  unfold startRetune
  dsimp only
  repeat' (first
    | with_reducible exact Only.refl _
    | ((with_reducible apply Only.step State.onLane_only); exact rfl)
    | ((with_reducible apply Only.step reportLanes_only); exact rfl)
    | intro _
    | split
    | ((with_reducible apply Only.step Only.put_age); exact rfl))

theorem retuneGo_only {l : List Nat} {s : State} : Only [.lanes, .age, .links] s (retuneGo l s) := by
  induction l generalizing s with
  | nil =>
    unfold retuneGo
    exact Only.put_age.mono rfl
  | cons n ns ih =>
    unfold retuneGo
    dsimp only
    repeat' (first
      | with_reducible exact Only.refl _
      | ((with_reducible apply Only.step State.onLane_only); exact rfl)
      | ((with_reducible apply Only.step ih); exact rfl)
      | ((with_reducible apply Only.step startRetune_only); exact rfl)
      | split
        | ((with_reducible apply Only.step Only.put_age); exact rfl))

theorem ageMetrics_only {s : State} : Only [.evr] s (ageMetrics s) := by
  unfold ageMetrics
  dsimp only
  repeat' (first
    | with_reducible exact Only.refl _
    | ((with_reducible apply Only.step State.metrics_only); exact rfl)
    | with_reducible apply Only.foldl
    | intro _
    | split
    | ((with_reducible apply Only.step Only.put_evr); exact rfl))

theorem noteLeafPdm_only {b : Bytes} {s : State} : Only [.evr] s (noteLeafPdm b s) := by
  unfold noteLeafPdm
  dsimp only
  repeat' (first
    | with_reducible exact Only.refl _
    | intro _
    | ((with_reducible apply Only.step Only.put_evr); exact rfl))

theorem execAgeingPoint_only {s : State} : OnlyR [.pins, .lanes, .age, .evr, .sticky, .raisedNow, .links] s
    (execAgeingPoint s) := by
  unfold execAgeingPoint
  dsimp only
  repeat' (first
    | with_reducible exact Only.refl _
    | with_reducible apply OnlyR.next
    | ((with_reducible apply Only.step ageDecide_only); exact rfl)
    | ((with_reducible apply Only.step restoreNext_only); exact rfl)
    | ((with_reducible apply Only.step ageMetrics_only); exact rfl)
    | ((with_reducible apply Only.step ageClose_only); exact rfl)
    | ((with_reducible apply Only.step retuneGo_only); exact rfl)
    | split)

theorem endRequest_only {s : State} : Only [.pins, .age] s (endRequest s) := Only.put_pins_age

theorem startLive_only {s : State} : Only [.pins, .stw] s (startLive s) := by
  unfold startLive
  dsimp only
  repeat' (first
    | with_reducible exact Only.refl _
    | split
    | ((with_reducible apply Only.step Only.put_pins_stw); exact rfl))

theorem restoreFails_only {s : State} : Only [.pins, .stw] s (restoreFails s) := by
  unfold restoreFails
  repeat' (first
    | with_reducible exact Only.refl _
    | ((with_reducible apply Only.step startLive_only); exact rfl)
    | split)

theorem logStep_only {step : Int} {s : State} : Only [.pins, .cap, .err, .otp, .flash, .sticky, .raisedNow, .out] s
    (logStep step s) := by
  unfold logStep
  dsimp only
  repeat' (first
    | with_reducible exact Only.refl _
    | ((with_reducible apply Only.step State.otpLog_only); exact rfl)
    | split
    | ((with_reducible apply Only.step Only.put_flash); exact rfl))

theorem execVmAck_only {s : State} : OnlyR [.pins, .cap, .err, .age, .otp, .stw, .flash, .sticky, .raisedNow, .out]
    s (execVmAck s) := by
  unfold execVmAck
  dsimp only
  repeat' (first
    | with_reducible exact Only.refl _
    | with_reducible apply OnlyR.next
    | ((with_reducible apply Only.step restoreNext_only); exact rfl)
    | ((with_reducible apply Only.step logStep_only); exact rfl)
    | ((with_reducible apply Only.step State.setHealth_only); exact rfl)
    | ((with_reducible apply Only.step startLive_only); exact rfl)
    | ((with_reducible apply Only.step endRequest_only); exact rfl)
    | split
    | ((with_reducible apply Only.step Only.put_age); exact rfl))

theorem execVmNak_only {s : State} : OnlyR [.pins, .cap, .age, .stw, .sticky, .raisedNow] s (execVmNak s) := by
  unfold execVmNak
  dsimp only
  repeat' (first
    | with_reducible exact Only.refl _
    | with_reducible exact True.intro
    | with_reducible apply OnlyR.next
    | ((with_reducible apply Only.step State.countHealth_only); exact rfl)
    | ((with_reducible apply Only.step restoreFails_only); exact rfl)
    | ((with_reducible apply Only.step State.ageBit_only); exact rfl)
    | ((with_reducible apply Only.step endRequest_only); exact rfl)
    | split
    | ((with_reducible apply Only.step Only.put_age); exact rfl))

theorem execVmTimeout_only {s : State} : OnlyR [.pins, .cap, .age, .stw, .sticky, .raisedNow] s (execVmTimeout s) := by
  unfold execVmTimeout
  dsimp only
  repeat' (first
    | with_reducible exact Only.refl _
    | with_reducible apply OnlyR.next
    | ((with_reducible apply Only.step State.countHealth_only); exact rfl)
    | ((with_reducible apply Only.step restoreFails_only); exact rfl)
    | ((with_reducible apply Only.step State.ageBit_only); exact rfl)
    | ((with_reducible apply Only.step endRequest_only); exact rfl)
    | split)

theorem execUrgentStep_only {s : State} : OnlyR [.pins, .age, .sticky, .raisedNow] s (execUrgentStep s) := by
  unfold execUrgentStep
  dsimp only
  repeat' (first
    | with_reducible exact Only.refl _
    | with_reducible exact True.intro
    | with_reducible apply OnlyR.next
    | ((with_reducible apply Only.step State.ageBit_only); exact rfl)
    | ((with_reducible apply Only.step requestStep_only); exact rfl)
    | split)

theorem State.addChange_only {s : State} {c : Change} : Only [.red] s (State.addChange s c) := by
  unfold State.addChange
  dsimp only
  repeat' (first
    | with_reducible exact Only.refl _
    | split
    | ((with_reducible apply Only.step Only.put_red); exact rfl))

theorem State.decideChange_only {s : State} {c : Change} : Only [.lanes, .red] s (State.decideChange s c) := by
  unfold State.decideChange
  dsimp only
  repeat' (first
    | with_reducible exact Only.refl _
    | ((with_reducible apply Only.step State.addChange_only); exact rfl)
    | ((with_reducible apply Only.step State.sendBelay_only); exact rfl)
    | split)

theorem decFail_only {e : GlumeErr} {s : State} : Only [.raw, .sticky, .raisedNow] s (decFail e s) := by
  unfold decFail
  exact Only.step State.setBit_only rfl (Only.put_raw.mono rfl)

theorem noteCkpt_only {s : State} : Only [.raw, .sticky, .raisedNow] s (noteCkpt s) := by
  unfold noteCkpt
  repeat' (first
    | with_reducible exact Only.refl _
    | ((with_reducible apply Only.step decFail_only); exact rfl)
    | intro _
    | split)

theorem hfFaultAt_only {a : Nat} {s : State} : Only [.cap, .sticky, .raisedNow, .out] s (hfFaultAt a s) := by
  unfold hfFaultAt
  repeat' (first
    | with_reducible exact Only.refl _
    | ((with_reducible apply Only.step State.countHealth_only); exact rfl)
    | ((with_reducible apply Only.step State.setBit_only); exact rfl)
    | ((with_reducible apply Only.step State.emit_only); exact rfl))

theorem hfPoison_only {n : Nat} {s : State} : Only [.cap] s (hfPoison n s) := by
  unfold hfPoison
  repeat' (first
    | with_reducible exact Only.refl _
    | ((with_reducible apply Only.step State.countHealth_only); exact rfl))

theorem hostFaults_only {host : HostView} {a n : Nat} {s : State} : Only [.cap, .sticky, .raisedNow, .out] s
    (hostFaults host a n s) := by
  unfold hostFaults
  dsimp only
  repeat' (first
    | with_reducible exact Only.refl _
    | ((with_reducible apply Only.step hfFaultAt_only); exact rfl)
    | ((with_reducible apply Only.step hfPoison_only); exact rfl)
    | with_reducible apply Only.foldl
    | intro _)

theorem imageFault_only {src : Nat} {host : HostImage} {s : State} : Only [.cap, .sticky, .raisedNow, .out] s
    (imageFault src host s) := by
  unfold imageFault
  repeat' (first
    | with_reducible exact Only.refl _
    | ((with_reducible apply Only.step hfFaultAt_only); exact rfl)
    | ((with_reducible apply Only.step hfPoison_only); exact rfl)
    | split)

end Sys2Proof.Machine
end

section
/-!
SUPPORT. What each operation and command may touch: cuts, reduction, trace, watch and stop.
-/

namespace Sys2Proof.Machine

set_option Elab.async false

theorem State.onStook_only {s : State} {n : Nat} {f : Stook → Stook} : Only [.cap] s (State.onStook s n f) := Only.put_cap

theorem execStkClkEdge_only {n : Nat} {e : RegionEdge} {s : State} : OnlyR [.cap] s (execStkClkEdge n e s) := by
  unfold execStkClkEdge
  repeat' (first
    | with_reducible exact Only.refl _
    | with_reducible apply onLeaf_only
    | ((with_reducible apply Only.step State.onStook_only); exact rfl))

theorem syncHeaders_only {s : State} : Only [.cap] s (syncHeaders s) := by
  unfold syncHeaders
  dsimp only
  repeat' (first
    | with_reducible exact Only.refl _
    | intro _
    | split
    | ((with_reducible apply Only.step Only.put_cap); exact rfl))

theorem State.raise_only {s : State} {r : BusReq} : Only [.cap] s (State.raise s r) := by
  unfold State.raise
  dsimp only
  repeat' (first
    | with_reducible exact Only.refl _
    | split
    | ((with_reducible apply Only.step Only.put_cap); exact rfl))

theorem giveToken_only {full : Bool} {s : State} : Only [.cap] s (giveToken full s) := by
  unfold giveToken
  dsimp only
  repeat' (first
    | with_reducible exact Only.refl _
    | ((with_reducible apply Only.step State.raise_only); exact rfl)
    | split
    | ((with_reducible apply Only.step Only.put_cap); exact rfl))

theorem countStop_only {h : Option (BitVec 128)} {s : State} : Only [.cap] s (countStop h s) := by
  unfold countStop
  repeat' (first
    | with_reducible exact Only.refl _
    | ((with_reducible apply Only.step State.countHealth_only); exact rfl)
    | split)

theorem noteStretch_only {latched : Ticks} {s : State} : Only [.sticky, .raisedNow] s (noteStretch latched s) := by
  unfold noteStretch
  repeat' (first
    | with_reducible exact Only.refl _
    | ((with_reducible apply Only.step State.setBit_only); exact rfl)
    | split)

theorem takeCut_only {n k : Nat} {t : Ticks} {m : Latch} {lat : BitVec 16} {raw : List (BitVec 64)} {raised : Nat}
    {s : State} : Only [.cap] s (takeCut n k t m lat raw raised s) := by
  unfold takeCut
  dsimp only
  repeat' (first
    | with_reducible exact Only.refl _
    | ((with_reducible apply Only.step State.onStook_only); exact rfl)
    | ((with_reducible apply Only.step State.raise_only); exact rfl)
    | ((with_reducible apply Only.step syncHeaders_only); exact rfl)
    | ((with_reducible apply Only.step countStop_only); exact rfl)
    | intro _
    | split)

theorem takeInt_only {n : Nat} {j : IntJob} {t : Ticks} {m : Latch} {lat : BitVec 16} {raised : Nat} {s : State} :
    Only [.cap] s (takeInt n j t m lat raised s) := by
  unfold takeInt
  dsimp only
  repeat' (first
    | with_reducible exact Only.refl _
    | ((with_reducible apply Only.step State.onStook_only); exact rfl)
    | ((with_reducible apply Only.step State.raise_only); exact rfl)
    | ((with_reducible apply Only.step countStop_only); exact rfl)
    | intro _
    | split)

theorem execStookLatch_only {n : Nat} {edge : Ticks} {lat : BitVec 16} {third : Bool} {s : State} : OnlyR [.cap,
    .sticky, .raisedNow] s (execStookLatch n edge lat third s) := by
  unfold execStookLatch
  dsimp only
  repeat' (first
    | with_reducible exact Only.refl _
    | with_reducible apply onLeaf_only
    | ((with_reducible apply Only.step takeInt_only); exact rfl)
    | ((with_reducible apply Only.step takeCut_only); exact rfl)
    | ((with_reducible apply Only.step noteStretch_only); exact rfl)
    | ((with_reducible apply Only.step State.onStook_only); exact rfl)
    | intro _
    | split)

theorem execStookLatchTimeout_only {n : Nat} {s : State} : OnlyR [.cap, .sticky, .raisedNow] s
    (execStookLatchTimeout n s) := by
  unfold execStookLatchTimeout
  dsimp only
  repeat' (first
    | with_reducible exact Only.refl _
    | with_reducible apply onLeaf_only
    | ((with_reducible apply Only.step takeInt_only); exact rfl)
    | ((with_reducible apply Only.step takeCut_only); exact rfl)
    | ((with_reducible apply Only.step noteStretch_only); exact rfl)
    | ((with_reducible apply Only.step State.onStook_only); exact rfl)
    | intro _
    | split)

theorem execStookHoldLoad_only {n : Nat} {edge : Ticks} {s : State} : OnlyR [.cap, .sticky, .raisedNow] s
    (execStookHoldLoad n edge s) := by
  unfold execStookHoldLoad
  dsimp only
  repeat' (first
    | with_reducible exact Only.refl _
    | with_reducible apply onLeaf_only
    | ((with_reducible apply Only.step takeInt_only); exact rfl)
    | ((with_reducible apply Only.step takeCut_only); exact rfl)
    | ((with_reducible apply Only.step noteStretch_only); exact rfl)
    | ((with_reducible apply Only.step State.onStook_only); exact rfl)
    | intro _
    | split)

theorem execStookHostReset_only {n : Nat} {s : State} : OnlyR [.cap] s (execStookHostReset n s) := by
  unfold execStookHostReset
  dsimp only
  repeat' (first
    | with_reducible exact Only.refl _
    | with_reducible apply onLeaf_only
    | ((with_reducible apply Only.step State.countHealth_only); exact rfl)
    | ((with_reducible apply Only.step State.onStook_only); exact rfl)
    | ((with_reducible apply Only.step syncHeaders_only); exact rfl)
    | intro _
    | split)

theorem sampleStook_only {k : Nat} {t : Ticks} {p : IntPlan} {j : Nat} {sel : Nat × Nat × Nat} {s : State} : Only
    [.cap, .ctxs] s (sampleStook k t p j sel s) := by
  unfold sampleStook
  dsimp only
  repeat' (first
    | with_reducible exact Only.refl _
    | ((with_reducible apply Only.step takeInt_only); exact rfl)
    | ((with_reducible apply Only.step State.countHealth_only); exact rfl)
    | ((with_reducible apply Only.step State.onStook_only); exact rfl)
    | ((with_reducible apply Only.step State.onCtx_only); exact rfl)
    | intro _
    | split)

theorem execSubBoundary_only {m j : Nat} {s : State} : OnlyR [.cap, .ctxs] s (execSubBoundary m j s) := by
  unfold execSubBoundary
  dsimp only
  repeat' (first
    | with_reducible exact Only.refl _
    | with_reducible apply onLeaf_only
    | ((with_reducible apply Only.step sampleStook_only); exact rfl)
    | with_reducible apply Only.foldl
    | intro _
    | split
    | ((with_reducible apply Only.step Only.put_cap); exact rfl))

theorem execLeafCutRecordSend_only {s : State} : OnlyR [.lanes, .cap] s (execLeafCutRecordSend s) := by
  unfold execLeafCutRecordSend
  refine onLeaf_only ?_
  dsimp only
  split
  · split
    · exact Only.refl s
    · split
      · exact Only.lanesMap_cap fun l => l.feedRecord_core ..
      · exact (Only.lanesMap fun l => l.feedRecord_core ..).mono rfl
  · exact Only.refl s

theorem captureLost_only {k : Nat} {s : State} : Only [.lanes, .cap, .sticky, .raisedNow] s (captureLost k s) := by
  unfold captureLost
  refine Only.step State.sendLeafStatus_only rfl (Only.step State.setBit_only rfl (Only.step State.setBit_only rfl ?_))
  refine Only.mono (A := [.lanes, .cap]) ?_ rfl
  exact Only.lanesMap_cap fun _ => rfl

theorem overwrite_only {k : Nat} {s : State} : Only [.lanes, .cap] s (overwrite k s) := by
  unfold overwrite
  dsimp only
  refine Only.foldl ((Only.lanesMap_cap ?_).mono rfl) fun u l =>
    Only.step State.countHealth_only rfl (State.sendCtl_only.mono rfl)
  exact fun _ => rfl

theorem overwriteRing_only {k : Nat} {s : State} : Only [.lanes, .cap] s (overwriteRing k s) := by
  unfold overwriteRing
  repeat' (first
    | with_reducible exact Only.refl _
    | ((with_reducible apply Only.step overwrite_only); exact rfl)
    | with_reducible apply Only.foldl
    | intro _)

theorem storeInt_only {j : IntJob} {b : Bytes} {s : State} : Only [.cap] s (storeInt j b s) := by
  unfold storeInt
  dsimp only
  repeat' (first
    | with_reducible exact Only.refl _
    | intro _
    | ((with_reducible apply Only.step Only.put_cap); exact rfl))

theorem grantBurst_only {w : BusReq} {s : State} : Only [.cap] s (grantBurst w s) := by
  unfold grantBurst
  dsimp only
  repeat' (first
    | with_reducible exact Only.refl _
    | ((with_reducible apply Only.step storeInt_only); exact rfl)
    | ((with_reducible apply Only.step State.onStook_only); exact rfl)
    | intro _
    | split
    | ((with_reducible apply Only.step Only.put_cap); exact rfl))

theorem sendSchedSync_only {lane : Nat} {s : State} : Only [.lanes, .red] s (sendSchedSync lane s) := by
  unfold sendSchedSync
  dsimp only
  repeat' (first
    | with_reducible exact Only.refl _
    | ((with_reducible apply Only.step State.sendCtl_only); exact rfl)
    | split
    | ((with_reducible apply Only.step Only.put_red); exact rfl))

theorem askSource_only {r : Recovery} {s : State} : Only [.lanes] s (askSource r s) := by
  unfold askSource
  dsimp only
  repeat' (first
    | with_reducible exact Only.refl _
    | ((with_reducible apply Only.step State.sendCtlAll_only); exact rfl)
    | ((with_reducible apply Only.step State.sendBelay_only); exact rfl)
    | ((with_reducible apply Only.step State.sendCtl_only); exact rfl)
    | split)

theorem setRecovery_only {r : Recovery} {s : State} : Only [.red] s (setRecovery r s) := Only.put_red

theorem startRecovery_only {ctx slot k : Nat} {s : State} : Only [.lanes, .red] s (startRecovery ctx slot k s) := by
  unfold startRecovery
  dsimp only
  repeat' (first
    | with_reducible exact Only.refl _
    | ((with_reducible apply Only.step setRecovery_only); exact rfl)
    | ((with_reducible apply Only.step askSource_only); exact rfl)
    | split)

theorem endRecovery_only {ctx slot k : Nat} {s : State} : Only [.red, .err] s (endRecovery ctx slot k s) := by
  unfold endRecovery
  dsimp only
  repeat' (first
    | with_reducible exact Only.refl _
    | ((with_reducible apply Only.step State.errCount_only); exact rfl)
    | intro _
    | split
    | ((with_reducible apply Only.step Only.put_red); exact rfl))

theorem execResendRetry_only {slot epoch : Nat} {s : State} : OnlyR [.lanes, .red] s (execResendRetry slot epoch s) := by
  unfold execResendRetry
  dsimp only
  repeat' (first
    | with_reducible exact Only.refl _
    | with_reducible apply onTray_only
    | ((with_reducible apply Only.step setRecovery_only); exact rfl)
    | ((with_reducible apply Only.step askSource_only); exact rfl)
    | intro _
    | split)

theorem countDup_only {s : State} : Only [.red, .err] s (countDup s) := by
  unfold countDup
  dsimp only
  repeat' (first
    | with_reducible exact Only.refl _
    | ((with_reducible apply Only.step State.errCount_only); exact rfl)
    | ((with_reducible apply Only.step Only.put_red); exact rfl))

theorem countLate_only {s : State} : Only [.red, .err] s (countLate s) := by
  unfold countLate
  dsimp only
  repeat' (first
    | with_reducible exact Only.refl _
    | ((with_reducible apply Only.step State.errCount_only); exact rfl)
    | ((with_reducible apply Only.step Only.put_red); exact rfl))

theorem State.declareJoin_only {s : State} {ctx slot k : Nat} {left : MemberEntry} : Only [.lanes, .red] s
    (State.declareJoin s ctx slot k left) := by
  unfold State.declareJoin
  dsimp only
  repeat' (first
    | with_reducible exact Only.refl _
    | ((with_reducible apply Only.step State.decideChange_only); exact rfl)
    | split
    | ((with_reducible apply Only.step Only.put_red); exact rfl))

theorem State.declareShardJoin_only {s : State} {ctx slot j : Nat} {left : MemberEntry} : Only [.lanes, .red] s
    (State.declareShardJoin s ctx slot j left) := by
  unfold State.declareShardJoin
  dsimp only
  repeat' (first
    | with_reducible exact Only.refl _
    | ((with_reducible apply Only.step State.decideChange_only); exact rfl)
    | with_reducible apply Only.foldl
    | intro _)

theorem State.rejoin_only {s : State} {ctx slot k : Nat} : Only [.lanes, .red] s (State.rejoin s ctx slot k) := by
  unfold State.rejoin
  repeat' (first
    | with_reducible exact Only.refl _
    | ((with_reducible apply Only.step State.declareShardJoin_only); exact rfl)
    | ((with_reducible apply Only.step State.declareJoin_only); exact rfl)
    | split)

theorem maybeRejoin_only {slot k : Nat} {s : State} : Only [.lanes, .red] s (maybeRejoin slot k s) := by
  unfold maybeRejoin
  repeat' (first
    | with_reducible exact Only.refl _
    | ((with_reducible apply Only.step State.rejoin_only); exact rfl)
    | with_reducible apply Only.foldl
    | intro _)

theorem countNoRow_only {n : Nat} {s : State} : Only [.err] s (countNoRow n s) := by
  unfold countNoRow
  repeat' (first
    | with_reducible exact Only.refl _
    | ((with_reducible apply Only.step State.errCount_only); exact rfl)
    | split)

theorem landRecord_only {slot : Nat} {b : Bytes} {s : State} : Only [.lanes, .red, .mem, .chans, .err, .evr] s
    (landRecord slot b s) := by
  unfold landRecord
  dsimp only
  repeat' (first
    | with_reducible exact Only.refl _
    | ((with_reducible apply Only.step endRecovery_only); exact rfl)
    | ((with_reducible apply Only.step countNoRow_only); exact rfl)
    | ((with_reducible apply Only.step noteTail_only); exact rfl)
    | ((with_reducible apply Only.step maybeRejoin_only); exact rfl)
    | ((with_reducible apply Only.step noteLeafPdm_only); exact rfl)
    | ((with_reducible apply Only.step State.stripe_only); exact rfl)
    | intro _
    | ((with_reducible apply Only.step Only.put_red); exact rfl))

theorem execResendSourceTimeout_only {x : SlotEpoch} {area : Option Ckpt} {s : State} : OnlyR [.lanes, .red, .mem,
    .chans, .raw, .err, .evr, .sticky, .raisedNow] s (execResendSourceTimeout x area s) := by
  unfold execResendSourceTimeout
  dsimp only
  repeat' (first
    | with_reducible exact Only.refl _
    | with_reducible apply onTray_only
    | ((with_reducible apply Only.step setRecovery_only); exact rfl)
    | ((with_reducible apply Only.step startRecovery_only); exact rfl)
    | ((with_reducible apply Only.step askSource_only); exact rfl)
    | ((with_reducible apply Only.step noteCkpt_only); exact rfl)
    | ((with_reducible apply Only.step landRecord_only); exact rfl)
    | intro _
    | split)

theorem takeRecord_only {b : Bytes} {s : State} : Only [.lanes, .red, .mem, .chans, .err, .evr] s (takeRecord b s) := by
  unfold takeRecord
  dsimp only
  repeat' (first
    | with_reducible exact Only.refl _
    | ((with_reducible apply Only.step countDup_only); exact rfl)
    | ((with_reducible apply Only.step startRecovery_only); exact rfl)
    | ((with_reducible apply Only.step countLate_only); exact rfl)
    | ((with_reducible apply Only.step sendSchedSync_only); exact rfl)
    | ((with_reducible apply Only.step landRecord_only); exact rfl)
    | with_reducible apply Only.foldl
    | intro _
    | split)

theorem execLeafCutRecord_only {lane : Nat} {b : Bytes} {relayed : Bool} {s : State} : OnlyR [.lanes, .red, .mem,
    .chans, .err, .evr, .inbox] s (execLeafCutRecord lane b relayed s) := by
  unfold execLeafCutRecord
  dsimp only
  repeat' (first
    | with_reducible exact Only.refl _
    | with_reducible apply onTray_only
    | ((with_reducible apply Only.step State.taken_only); exact rfl)
    | ((with_reducible apply Only.step takeRecord_only); exact rfl)
    | intro _
    | split)

theorem takeChild_only {lane slot rtype : Nat} {b summary : Bytes} {s : State} : Only [.lanes, .red, .err] s
    (takeChild lane slot rtype b summary s) := by
  unfold takeChild
  dsimp only
  repeat' (first
    | with_reducible exact Only.refl _
    | ((with_reducible apply Only.step endRecovery_only); exact rfl)
    | ((with_reducible apply Only.step countDup_only); exact rfl)
    | ((with_reducible apply Only.step countNoRow_only); exact rfl)
    | ((with_reducible apply Only.step startRecovery_only); exact rfl)
    | ((with_reducible apply Only.step countLate_only); exact rfl)
    | ((with_reducible apply Only.step sendSchedSync_only); exact rfl)
    | ((with_reducible apply Only.step State.rejoin_only); exact rfl)
    | intro _
    | split
    | ((with_reducible apply Only.step Only.put_red); exact rfl))

theorem execChildSheaf_only {lane : Nat} {b summary : Bytes} {s : State} : OnlyR [.lanes, .red, .err, .inbox] s
    (execChildSheaf lane b summary s) := by
  unfold execChildSheaf
  repeat' (first
    | with_reducible exact Only.refl _
    | with_reducible apply onTray_only
    | ((with_reducible apply Only.step State.taken_only); exact rfl)
    | ((with_reducible apply Only.step takeChild_only); exact rfl)
    | intro _
    | split)

theorem execShardPartial_only {lane : Nat} {b : Bytes} {s : State} : OnlyR [.lanes, .red, .err, .inbox] s
    (execShardPartial lane b s) := by
  unfold execShardPartial
  repeat' (first
    | with_reducible exact Only.refl _
    | with_reducible apply onTray_only
    | ((with_reducible apply Only.step State.taken_only); exact rfl)
    | ((with_reducible apply Only.step takeChild_only); exact rfl)
    | intro _
    | split)

theorem State.onSheaf_only {s : State} {h0 : Sheaf} {f : Sheaf → Sheaf} : Only [.red] s (State.onSheaf s h0 f) := Only.put_red

theorem addBelow_only {ctx slot : Nat} {es : List MemberEntry} {s : State} : Only [.red] s (addBelow ctx slot es s) := by
  unfold addBelow
  repeat' (first
    | with_reducible exact Only.refl _
    | ((with_reducible apply Only.step State.addChange_only); exact rfl)
    | with_reducible apply Only.foldl
    | intro _
    | split)

theorem execContributionMerge_only {ctx slot epoch : Nat} {check : CheckOutcome} {s : State} : OnlyR [.lanes, .cap,
    .red, .err, .mode, .twin, .sticky, .raisedNow, .links] s (execContributionMerge ctx slot epoch check s) := by
  unfold execContributionMerge
  dsimp only
  repeat' (first
    | with_reducible exact Only.refl _
    | with_reducible apply onTray_only
    | ((with_reducible apply Only.step countDup_only); exact rfl)
    | ((with_reducible apply Only.step unitCheck_only); exact rfl)
    | ((with_reducible apply Only.step addBelow_only); exact rfl)
    | ((with_reducible apply Only.step State.onSheaf_only); exact rfl)
    | with_reducible apply byUnit_only
    | intro _
    | split
    | ((with_reducible apply Only.step Only.put_red); exact rfl))

theorem declareShardLost_only {ctx slot k : Nat} {s : State} : Only [.lanes, .red] s (declareShardLost ctx slot k s) := by
  unfold declareShardLost
  dsimp only
  repeat' (first
    | with_reducible exact Only.refl _
    | ((with_reducible apply Only.step State.decideChange_only); exact rfl)
    | with_reducible apply Only.foldl
    | intro _)

theorem declareAbsent_only {ctx slot k : Nat} {otherUp : Bool} {s : State} : Only [.lanes, .red] s (declareAbsent
    ctx slot k otherUp s) := by
  unfold declareAbsent
  dsimp only
  repeat' (first
    | with_reducible exact Only.refl _
    | ((with_reducible apply Only.step declareShardLost_only); exact rfl)
    | ((with_reducible apply Only.step State.decideChange_only); exact rfl)
    | ((with_reducible apply Only.step State.rejoin_only); exact rfl)
    | with_reducible apply Only.foldl
    | intro _
    | split)

theorem settleAbsent_only {ctx slot m : Nat} {otherUp : Bool} {s : State} : Only [.lanes, .red] s (settleAbsent ctx
    slot m otherUp s) := by
  unfold settleAbsent
  repeat' (first
    | with_reducible exact Only.refl _
    | ((with_reducible apply Only.step declareAbsent_only); exact rfl)
    | split)

theorem sendQuery_only {ctx slot k : Nat} {s : State} : Only [.lanes, .red] s (sendQuery ctx slot k s) := by
  unfold sendQuery
  dsimp only
  repeat' (first
    | with_reducible exact Only.refl _
    | ((with_reducible apply Only.step State.sendBelay_only); exact rfl)
    | intro _
    | ((with_reducible apply Only.step Only.put_red); exact rfl))

theorem dropQuery_only {ctx slot k : Nat} {s : State} : Only [.red] s (dropQuery ctx slot k s) := Only.put_red

theorem execMemberWaitDeadline_only {ctx slot epoch : Nat} {s : State} : OnlyR [.lanes, .red] s
    (execMemberWaitDeadline ctx slot epoch s) := by
  unfold execMemberWaitDeadline
  repeat' (first
    | with_reducible exact Only.refl _
    | with_reducible apply onTray_only
    | ((with_reducible apply Only.step sendQuery_only); exact rfl)
    | ((with_reducible apply Only.step declareAbsent_only); exact rfl)
    | intro _
    | split)

theorem execMemberQueryRetry_only {ctx slot epoch : Nat} {s : State} : OnlyR [.lanes, .red] s (execMemberQueryRetry
    ctx slot epoch s) := by
  unfold execMemberQueryRetry
  repeat' (first
    | with_reducible exact Only.refl _
    | with_reducible apply onTray_only
    | ((with_reducible apply Only.step sendQuery_only); exact rfl)
    | ((with_reducible apply Only.step dropQuery_only); exact rfl)
    | ((with_reducible apply Only.step settleAbsent_only); exact rfl)
    | intro _
    | split)

theorem execMemberQuery_only {lane ctx slot epoch : Nat} {s : State} : OnlyR [.lanes, .red] s (execMemberQuery lane
    ctx slot epoch s) := by
  unfold execMemberQuery
  dsimp only
  repeat' (first
    | with_reducible exact Only.refl _
    | with_reducible apply onTray_only
    | ((with_reducible apply Only.step State.sendMsg_only); exact rfl)
    | ((with_reducible apply Only.step State.sendCtl_only); exact rfl)
    | intro _
    | split
    | ((with_reducible apply Only.step Only.put_red); exact rfl))

theorem execMemberAnswer_only {lane ctx slot epoch : Nat} {ans : MemberAnswer} {s : State} : OnlyR [.lanes, .red,
    .mem, .chans, .err, .evr] s (execMemberAnswer lane ctx slot epoch ans s) := by
  unfold execMemberAnswer
  dsimp only
  repeat' (first
    | with_reducible exact Only.refl _
    | with_reducible apply onTray_only
    | ((with_reducible apply Only.step takeChild_only); exact rfl)
    | ((with_reducible apply Only.step dropQuery_only); exact rfl)
    | ((with_reducible apply Only.step settleAbsent_only); exact rfl)
    | ((with_reducible apply Only.step takeRecord_only); exact rfl)
    | intro _
    | split)

theorem execMemberDecide_only {lane ctx slot : Nat} {e : MemberEntry} {s : State} : OnlyR [.red, .inbox] s
    (execMemberDecide lane ctx slot e s) := by
  unfold execMemberDecide
  repeat' (first
    | with_reducible exact Only.refl _
    | with_reducible apply onTray_only
    | ((with_reducible apply Only.step State.taken_only); exact rfl)
    | ((with_reducible apply Only.step State.addChange_only); exact rfl))

theorem execHoldNotice_only {lane ctx epoch : Nat} {s : State} : OnlyR [.red, .inbox] s (execHoldNotice lane ctx
    epoch s) := by
  unfold execHoldNotice
  dsimp only
  repeat' (first
    | with_reducible exact Only.refl _
    | with_reducible apply onTray_only
    | ((with_reducible apply Only.step State.taken_only); exact rfl)
    | intro _
    | split
    | ((with_reducible apply Only.step Only.put_red); exact rfl))

theorem execLeafStatus_only {lane : Nat} {r : LeafReport} {s : State} : OnlyR [.lanes, .red, .act, .twin] s
    (execLeafStatus lane r s) := by
  unfold execLeafStatus
  dsimp only
  repeat' (first
    | with_reducible exact Only.refl _
    | with_reducible apply onTray_only
    | ((with_reducible apply Only.step State.decideChange_only); exact rfl)
    | intro _
    | split
    | ((with_reducible apply Only.step Only.put_red_act_twin); exact rfl))

theorem leafResend_only {lane k : Nat} {s : State} : Only [.lanes, .cap] s (leafResend lane k s) := by
  unfold leafResend
  repeat' (first
    | with_reducible exact Only.refl _
    | ((with_reducible apply Only.step State.countHealth_only); exact rfl)
    | ((with_reducible apply Only.step State.sendMsg_only); exact rfl)
    | ((with_reducible apply Only.step State.sendCtl_only); exact rfl)
    | intro _
    | split)

theorem State.onPub_only {s : State} {a : PubArea} {f : PubArea → PubArea} : Only [.red] s (State.onPub s a f) := Only.put_red

theorem sendPartial_only {h : Sheaf} {s : State} : Only [.lanes, .red] s (sendPartial h s) := by
  unfold sendPartial
  dsimp only
  repeat' (first
    | with_reducible exact Only.refl _
    | ((with_reducible apply Only.step State.sendMsgAll_only); exact rfl)
    | ((with_reducible apply Only.step State.onSheaf_only); exact rfl)
    | intro _
    | ((with_reducible apply Only.step Only.put_red); exact rfl))

theorem publishSheaf_only {h : Sheaf} {s : State} : Only [.lanes, .red, .evr, .out] s (publishSheaf h s) := by
  unfold publishSheaf
  dsimp only
  repeat' (first
    | with_reducible exact Only.refl _
    | ((with_reducible apply Only.step State.sendMsgAll_only); exact rfl)
    | ((with_reducible apply Only.step State.onSheaf_only); exact rfl)
    | ((with_reducible apply Only.step State.issue_only); exact rfl)
    | intro _
    | split
    | ((with_reducible apply Only.step Only.put_evr); exact rfl))

theorem execSheafPublish_only {ctx epoch : Nat} {s : State} : OnlyR [.lanes, .red, .evr, .out] s (execSheafPublish
    ctx epoch s) := by
  unfold execSheafPublish
  repeat' (first
    | with_reducible exact Only.refl _
    | with_reducible apply onTray_only
    | ((with_reducible apply Only.step sendPartial_only); exact rfl)
    | ((with_reducible apply Only.step publishSheaf_only); exact rfl)
    | intro _
    | split)

theorem captReturn_only {c : CaptMsg} {ret : BitVec 64} {s : State} : Only [.lanes, .ctxs, .captOut, .sticky,
    .raisedNow, .out] s (captReturn c ret s) := by
  unfold captReturn
  dsimp only
  repeat' (first
    | with_reducible exact Only.refl _
    | ((with_reducible apply Only.step State.issue_only); exact rfl)
    | ((with_reducible apply Only.step State.setBit_only); exact rfl)
    | ((with_reducible apply Only.step State.onCtx_only); exact rfl)
    | intro _
    | split
    | ((with_reducible apply Only.step Only.put_captOut); exact rfl))

theorem execPublishFaddReturn_only {ctx epoch : Nat} {ret : BitVec 64} {s : State} : OnlyR [.lanes, .ctxs, .red,
    .captOut, .sticky, .raisedNow, .out] s (execPublishFaddReturn ctx epoch ret s) := by
  unfold execPublishFaddReturn
  dsimp only
  repeat' (first
    | with_reducible exact Only.refl _
    | with_reducible apply onTray_only
    | ((with_reducible apply Only.step State.onSheaf_only); exact rfl)
    | ((with_reducible apply Only.step captReturn_only); exact rfl)
    | ((with_reducible apply Only.step State.onPub_only); exact rfl)
    | ((with_reducible apply Only.step State.issue_only); exact rfl)
    | ((with_reducible apply Only.step State.setBit_only); exact rfl)
    | ((with_reducible apply Only.step State.onCtx_only); exact rfl)
    | intro _
    | split)

theorem State.onShareTrc_only {s : State} {c : Nat} {f : ShareTrc → ShareTrc} : Only [.trc] s (State.onShareTrc s c f) := Only.put_trc

theorem putMark_only {c : Nat} {m : Mark} {s : State} : Only [.trc] s (putMark c m s) := by
  unfold putMark
  repeat' (first
    | with_reducible exact Only.refl _
    | ((with_reducible apply Only.step State.onShareTrc_only); exact rfl))

theorem stopMark_only {phase : Nat} {t : Ticks} {s : State} : Only [.trc] s (stopMark phase t s) := by
  unfold stopMark
  repeat' (first
    | with_reducible exact Only.refl _
    | ((with_reducible apply Only.step putMark_only); exact rfl))

theorem brkMark_only {c core phase : Nat} {cyc : Nat} {s : State} : Only [.trc] s (brkMark c core phase cyc s) := by
  unfold brkMark
  repeat' (first
    | with_reducible exact Only.refl _
    | ((with_reducible apply Only.step putMark_only); exact rfl))

theorem watchMark_only {c idx phase step tensor : Nat} {s : State} : Only [.trc] s (watchMark c idx phase step
    tensor s) := by
  unfold watchMark
  repeat' (first
    | with_reducible exact Only.refl _
    | ((with_reducible apply Only.step putMark_only); exact rfl))

theorem State.sendShare_only {s : State} {ctx : Nat} {gen : BitVec 16} {body : Bytes} : Only [.lanes] s
    (State.sendShare s ctx gen body) := by
  unfold State.sendShare
  repeat' (first
    | with_reducible exact Only.refl _
    | ((with_reducible apply Only.step State.sendMsgAll_only); exact rfl))

theorem State.sendNumbered_only {s : State} {c : Nat} {gen : BitVec 16} {body : Nat → Bytes} : Only [.lanes, .trc] s
    (State.sendNumbered s c gen body) := by
  unfold State.sendNumbered
  repeat' (first
    | with_reducible exact Only.refl _
    | ((with_reducible apply Only.step State.onShareTrc_only); exact rfl)
    | ((with_reducible apply Only.step State.sendShare_only); exact rfl))

theorem closeTrace_only {c : Nat} {s : State} : Only [.lanes, .trc] s (closeTrace c s) := by
  unfold closeTrace
  dsimp only
  repeat' (first
    | with_reducible exact Only.refl _
    | ((with_reducible apply Only.step State.onShareTrc_only); exact rfl)
    | ((with_reducible apply Only.step State.sendNumbered_only); exact rfl)
    | intro _
    | split)

theorem takeBeat_only {b : TrcBeat} {s : State} : Only [.lanes, .trc] s (takeBeat b s) := by
  unfold takeBeat
  dsimp only
  repeat' (first
    | with_reducible exact Only.refl _
    | ((with_reducible apply Only.step State.onShareTrc_only); exact rfl)
    | ((with_reducible apply Only.step closeTrace_only); exact rfl)
    | with_reducible apply Only.foldl
    | intro _
    | split)

theorem pushRec_only {r : TrcRec} {s : State} : Only [.trc] s (pushRec r s) := by
  unfold pushRec
  dsimp only
  repeat' (first
    | with_reducible exact Only.refl _
    | ((with_reducible apply Only.step Only.put_trc); exact rfl))

theorem recordOf_only {share : Nat} {t : Ticks} {m : Mark} {s : State} : Only [.trc] s (recordOf share t m s) := by
  unfold recordOf
  dsimp only
  repeat' (first
    | with_reducible exact Only.refl _
    | ((with_reducible apply Only.step State.onShareTrc_only); exact rfl)
    | ((with_reducible apply Only.step pushRec_only); exact rfl)
    | intro _
    | split)

theorem pushEmpty_only {s : State} : Only [.trc] s (pushEmpty s) := by
  unfold pushEmpty
  repeat' (first
    | with_reducible exact Only.refl _
    | ((with_reducible apply Only.step pushRec_only); exact rfl))

theorem beginGroup_only {s : State} : Only [.trc] s (beginGroup s) := by
  unfold beginGroup
  dsimp only
  repeat' (first
    | with_reducible exact Only.refl _
    | ((with_reducible apply Only.step State.onShareTrc_only); exact rfl)
    | intro _
    | split
    | ((with_reducible apply Only.step Only.put_trc); exact rfl))

theorem raiseSample_only {share core : Nat} {s : State} : Only [.pins, .trc] s (raiseSample share core s) := by
  unfold raiseSample
  dsimp only
  repeat' (first
    | with_reducible exact Only.refl _
    | ((with_reducible apply Only.step State.onShareTrc_only); exact rfl)
    | intro _
    | ((with_reducible apply Only.step Only.put_pins_trc); exact rfl))

theorem endSample_only {stall : Nat} {pc : BitVec 64} {s : State} : Only [.pins, .trc] s (endSample stall pc s) := by
  unfold endSample
  dsimp only
  repeat' (first
    | with_reducible exact Only.refl _
    | ((with_reducible apply Only.step recordOf_only); exact rfl)
    | split
    | ((with_reducible apply Only.step Only.put_pins_trc); exact rfl))

theorem closeGroup_only {s : State} : Only [.pins, .trc, .sticky, .raisedNow] s (closeGroup s) := by
  unfold closeGroup
  dsimp only
  repeat' (first
    | with_reducible exact Only.refl _
    | ((with_reducible apply Only.step State.setBit_only); exact rfl)
    | ((with_reducible apply Only.step endSample_only); exact rfl)
    | split
    | ((with_reducible apply Only.step Only.put_trc); exact rfl))

theorem fillSlot_only {s : State} : Only [.pins, .trc] s (fillSlot s) := by
  unfold fillSlot
  dsimp only
  repeat' (first
    | with_reducible exact Only.refl _
    | ((with_reducible apply Only.step State.onShareTrc_only); exact rfl)
    | ((with_reducible apply Only.step recordOf_only); exact rfl)
    | ((with_reducible apply Only.step pushEmpty_only); exact rfl)
    | ((with_reducible apply Only.step raiseSample_only); exact rfl)
    | intro _
    | split)

theorem execTrcSampleSlot_only {j : Nat} {s : State} : OnlyR [.pins, .trc, .sticky, .raisedNow] s (execTrcSampleSlot
    j s) := by
  unfold execTrcSampleSlot
  dsimp only
  repeat' (first
    | with_reducible exact Only.refl _
    | with_reducible apply onLeaf_only
    | ((with_reducible apply Only.step endSample_only); exact rfl)
    | ((with_reducible apply Only.step beginGroup_only); exact rfl)
    | ((with_reducible apply Only.step closeGroup_only); exact rfl)
    | ((with_reducible apply Only.step fillSlot_only); exact rfl)
    | intro _
    | split
    | ((with_reducible apply Only.step Only.put_trc); exact rfl))

theorem execTrcVld_only {pc : BitVec 64} {stall : BitVec 4} {s : State} : OnlyR [.pins, .trc] s (execTrcVld pc stall
    s) := by
  unfold execTrcVld
  repeat' (first
    | with_reducible exact Only.refl _
    | with_reducible apply onLeaf_only
    | ((with_reducible apply Only.step endSample_only); exact rfl)
    | intro _
    | split)

theorem execNoResponse_only {s : State} : OnlyR [.pins, .trc] s (execNoResponse s) := by
  unfold execNoResponse
  repeat' (first
    | with_reducible exact Only.refl _
    | with_reducible apply onLeaf_only
    | ((with_reducible apply Only.step endSample_only); exact rfl)
    | intro _
    | split)

theorem execTrcToken_only {s : State} : OnlyR [.pins, .cap, .trc, .sticky, .raisedNow] s (execTrcToken s) := by
  unfold execTrcToken
  dsimp only
  repeat' (first
    | with_reducible exact Only.refl _
    | with_reducible apply onLeaf_only
    | ((with_reducible apply Only.step giveToken_only); exact rfl)
    | ((with_reducible apply Only.step closeGroup_only); exact rfl))

theorem crossBeat_only {s : State} : Only [.lanes, .trc] s (crossBeat s) := by
  unfold crossBeat
  dsimp only
  repeat' (first
    | with_reducible exact Only.refl _
    | ((with_reducible apply Only.step takeBeat_only); exact rfl)
    | split
    | ((with_reducible apply Only.step Only.put_trc); exact rfl))

theorem execCaptureBusArbitration_only {parity : ParityRead} {s : State} : OnlyR [.lanes, .cap, .trc, .err, .sticky,
    .raisedNow] s (execCaptureBusArbitration parity s) := by
  unfold execCaptureBusArbitration
  dsimp only
  repeat' (first
    | with_reducible exact Only.refl _
    | with_reducible apply onLeaf_only
    | ((with_reducible apply Only.step queueRepair_only); exact rfl)
    | ((with_reducible apply Only.step State.countHealth_only); exact rfl)
    | ((with_reducible apply Only.step captureLost_only); exact rfl)
    | ((with_reducible apply Only.step grantBurst_only); exact rfl)
    | ((with_reducible apply Only.step crossBeat_only); exact rfl)
    | intro _
    | split)

theorem State.onWatch_only {s : State} {c : Nat} {f : ShareWatch → ShareWatch} : Only [.watch] s (State.onWatch s c f) := Only.put_watch

theorem execWatchFeedPoll_only {c : Nat} {s : State} : OnlyR [.watch] s (execWatchFeedPoll c s) := by
  unfold execWatchFeedPoll
  dsimp only
  repeat' (first
    | with_reducible exact Only.refl _
    | with_reducible apply onLeaf_only
    | with_reducible apply OnlyR.next
    | ((with_reducible apply Only.step State.onWatch_only); exact rfl)
    | intro _
    | split)

theorem oweRelease_only {c : Nat} {rel : Option Nat} {dseq : Nat} {s : State} : Only [.watch] s (oweRelease c rel
    dseq s) := by
  unfold oweRelease
  repeat' (first
    | with_reducible exact Only.refl _
    | ((with_reducible apply Only.step State.onWatch_only); exact rfl)
    | intro _
    | split)

theorem sendPart_only {c : Nat} {d : Dump} {status : Nat} {s : State} : Only [.lanes, .trc] s (sendPart c d status
    s) := by
  unfold sendPart
  dsimp only
  repeat' (first
    | with_reducible exact Only.refl _
    | ((with_reducible apply Only.step State.sendNumbered_only); exact rfl)
    | intro _
    | split)

theorem endDump_only {c : Nat} {d : Dump} {status : Nat} {s : State} : Only [.lanes, .trc, .watch] s (endDump c d
    status s) := by
  unfold endDump
  dsimp only
  repeat' (first
    | with_reducible exact Only.refl _
    | ((with_reducible apply Only.step State.onWatch_only); exact rfl)
    | ((with_reducible apply Only.step sendPart_only); exact rfl)
    | ((with_reducible apply Only.step watchMark_only); exact rfl)
    | ((with_reducible apply Only.step oweRelease_only); exact rfl))

theorem takeDescriptor_only {c : Nat} {b : Bytes} {s : State} : Only [.lanes, .trc, .watch] s (takeDescriptor c b s) := by
  unfold takeDescriptor
  dsimp only
  repeat' (first
    | with_reducible exact Only.refl _
    | ((with_reducible apply Only.step State.onWatch_only); exact rfl)
    | ((with_reducible apply Only.step watchMark_only); exact rfl)
    | ((with_reducible apply Only.step oweRelease_only); exact rfl)
    | ((with_reducible apply Only.step endDump_only); exact rfl)
    | intro _
    | split)

theorem execWatchFeedRead_only {c : Nat} {ans : HostAnswer} {s : State} : OnlyR [.lanes, .cap, .trc, .watch,
    .sticky, .raisedNow, .out] s (execWatchFeedRead c ans s) := by
  unfold execWatchFeedRead
  dsimp only
  repeat' (first
    | with_reducible exact Only.refl _
    | with_reducible exact True.intro
    | with_reducible apply onLeaf_only
    | ((with_reducible apply Only.step State.onWatch_only); exact rfl)
    | ((with_reducible apply Only.step hfFaultAt_only); exact rfl)
    | ((with_reducible apply Only.step takeDescriptor_only); exact rfl)
    | ((with_reducible apply Only.step hfPoison_only); exact rfl)
    | intro _
    | split)

theorem takeLine_only {c : Nat} {l : Bytes} {bad : Bool} {d : Dump} {s : State} : Only [.lanes, .trc, .watch] s
    (takeLine c l bad d s) := by
  unfold takeLine
  dsimp only
  repeat' (first
    | with_reducible exact Only.refl _
    | ((with_reducible apply Only.step State.onWatch_only); exact rfl)
    | ((with_reducible apply Only.step sendPart_only); exact rfl)
    | intro _
    | split)

theorem takeLines_only {c n : Nat} {s : State} : Only [.lanes, .trc, .watch] s (takeLines c n s) := by
  induction n generalizing s with
  | zero => exact Only.refl s
  | succ n ih =>
    unfold takeLines
    split
    · split
      · exact (takeLine_only.mono rfl).trans ih
      · exact Only.refl s
    · exact Only.refl s

theorem settleDump_only {c : Nat} {s : State} : Only [.lanes, .trc, .watch] s (settleDump c s) := by
  unfold settleDump
  repeat' (first
    | with_reducible exact Only.refl _
    | ((with_reducible apply Only.step endDump_only); exact rfl)
    | split)

theorem dropLate_only {tag : BitVec 6} {x : LateRead} {s : State} : Only [.ctxs, .lateReads, .out] s (dropLate tag x
    s) := by
  unfold dropLate
  dsimp only
  repeat' (first
    | with_reducible exact Only.refl _
    | ((with_reducible apply Only.step State.emit_only); exact rfl)
    | ((with_reducible apply Only.step State.onCtx_only); exact rfl)
    | intro _
    | split
    | ((with_reducible apply Only.step Only.put_lateReads); exact rfl))

theorem closeWatch_only {c : Nat} {s : State} : Only [.watch, .lateReads, .out] s (closeWatch c s) := by
  unfold closeWatch
  dsimp only
  repeat' (first
    | with_reducible exact Only.refl _
    | ((with_reducible apply Only.step State.emits_only); exact rfl)
    | intro _
    | split
    | ((with_reducible apply Only.step Only.put_watch_lateReads); exact rfl))

theorem execWatchDumpRead_only {c : Nat} {r : DumpReturn} {s : State} : OnlyR [.lanes, .cap, .ctxs, .trc, .watch,
    .lateReads, .sticky, .raisedNow, .out] s (execWatchDumpRead c r s) := by
  unfold execWatchDumpRead
  dsimp only
  repeat' (first
    | with_reducible exact Only.refl _
    | with_reducible exact True.intro
    | with_reducible apply onLeaf_only
    | ((with_reducible apply Only.step State.onWatch_only); exact rfl)
    | ((with_reducible apply Only.step dropLate_only); exact rfl)
    | ((with_reducible apply Only.step hfFaultAt_only); exact rfl)
    | ((with_reducible apply Only.step settleDump_only); exact rfl)
    | ((with_reducible apply Only.step takeLines_only); exact rfl)
    | ((with_reducible apply Only.step hfPoison_only); exact rfl)
    | intro _
    | split)

theorem watchGone_only {c : Nat} {s : State} : Only [.lanes, .trc, .watch] s (watchGone c s) := by
  unfold watchGone
  repeat' (first
    | with_reducible exact Only.refl _
    | ((with_reducible apply Only.step State.onWatch_only); exact rfl)
    | ((with_reducible apply Only.step settleDump_only); exact rfl))

theorem State.stopBit_only {s : State} {i : Nat} : Only [.sticky, .raisedNow] s (State.stopBit s i) := by
  unfold State.stopBit
  repeat' (first
    | with_reducible exact Only.refl _
    | ((with_reducible apply Only.step State.setBit_only); exact rfl))

theorem beginScan_only {s : State} : Only [.pins, .stop] s (beginScan s) := by
  unfold beginScan
  dsimp only
  repeat' (first
    | with_reducible exact Only.refl _
    | split
    | ((with_reducible apply Only.step Only.put_pins_stop); exact rfl))

theorem endScan_only {s : State} : Only [.pins, .stop] s (endScan s) := Only.put_pins_stop

theorem execStopOutRise_only {s : State} : OnlyR [.pins, .trc, .stop] s (execStopOutRise s) := by
  unfold execStopOutRise
  dsimp only
  repeat' (first
    | with_reducible exact Only.refl _
    | with_reducible apply onLeaf_only
    | ((with_reducible apply Only.step stopMark_only); exact rfl)
    | intro _
    | split
    | ((with_reducible apply Only.step Only.put_pins_stop); exact rfl))

theorem execStopDone_only {s : State} : OnlyR [.pins, .trc, .stop] s (execStopDone s) := by
  unfold execStopDone
  dsimp only
  repeat' (first
    | with_reducible exact Only.refl _
    | with_reducible apply onLeaf_only
    | ((with_reducible apply Only.step stopMark_only); exact rfl)
    | ((with_reducible apply Only.step beginScan_only); exact rfl)
    | intro _
    | split
    | ((with_reducible apply Only.step Only.put_stop); exact rfl))

theorem execStopDoneWait_only {s : State} : OnlyR [.pins, .trc, .stop, .sticky, .raisedNow] s (execStopDoneWait s) := by
  unfold execStopDoneWait
  repeat' (first
    | with_reducible exact Only.refl _
    | with_reducible apply onLeaf_only
    | ((with_reducible apply Only.step State.stopBit_only); exact rfl)
    | ((with_reducible apply Only.step stopMark_only); exact rfl)
    | ((with_reducible apply Only.step beginScan_only); exact rfl)
    | intro _
    | split)

theorem sendScanPart_only {seg : ScanSeg} {part : Nat} {last : Bool} {data : Bytes} {s : State} : Only [.lanes,
    .trc] s (sendScanPart seg part last data s) := by
  unfold sendScanPart
  dsimp only
  repeat' (first
    | with_reducible exact Only.refl _
    | ((with_reducible apply Only.step State.sendNumbered_only); exact rfl))

theorem sendScan_only {seg : ScanSeg} {n part : Nat} {b : Bytes} {s : State} :
    Only [.lanes, .trc] s (sendScan seg n part b s) := by
  induction n generalizing part b s with
  | zero => exact Only.refl s
  | succ n ih =>
    unfold sendScan
    dsimp only
    split
    · exact sendScanPart_only.mono rfl
    · exact (sendScanPart_only.mono rfl).trans ih

theorem dropStop_only {s : State} : Only [.pins, .trc, .stop] s (dropStop s) := by
  unfold dropStop
  dsimp only
  repeat' (first
    | with_reducible exact Only.refl _
    | ((with_reducible apply Only.step stopMark_only); exact rfl)
    | ((with_reducible apply Only.step Only.put_pins_stop); exact rfl))

theorem abandonScan_only {s : State} : Only [.pins, .trc, .stop, .sticky, .raisedNow] s (abandonScan s) := by
  unfold abandonScan
  repeat' (first
    | with_reducible exact Only.refl _
    | ((with_reducible apply Only.step State.stopBit_only); exact rfl)
    | ((with_reducible apply Only.step dropStop_only); exact rfl))

theorem execScanSegment_only {bits second : List Bool} {s : State} : OnlyR [.pins, .lanes, .trc, .stop, .sticky,
    .raisedNow, .out] s (execScanSegment bits second s) := by
  unfold execScanSegment
  dsimp only
  repeat' (first
    | with_reducible exact Only.refl _
    | with_reducible apply onLeaf_only
    | ((with_reducible apply Only.step sendScan_only); exact rfl)
    | ((with_reducible apply Only.step State.stopBit_only); exact rfl)
    | ((with_reducible apply Only.step endScan_only); exact rfl)
    | ((with_reducible apply Only.step abandonScan_only); exact rfl)
    | ((with_reducible apply Only.step State.emits_only); exact rfl)
    | intro _
    | split
    | ((with_reducible apply Only.step Only.put_stop); exact rfl))

theorem releaseStop_only {s : State} : Only [.pins, .trc, .stop] s (releaseStop s) := by
  unfold releaseStop
  dsimp only
  repeat' (first
    | with_reducible exact Only.refl _
    | ((with_reducible apply Only.step dropStop_only); exact rfl)
    | split
    | ((with_reducible apply Only.step Only.put_stop); exact rfl))

theorem execStopReleaseTime_only {s : State} : OnlyR [.pins, .trc, .stop] s (execStopReleaseTime s) := by
  unfold execStopReleaseTime
  repeat' (first
    | with_reducible exact Only.refl _
    | with_reducible apply onLeaf_only
    | ((with_reducible apply Only.step releaseStop_only); exact rfl)
    | intro _
    | split)

theorem execAutoReleased_only {s : State} : OnlyR [.pins, .trc, .stop, .sticky, .raisedNow] s (execAutoReleased s) := by
  unfold execAutoReleased
  repeat' (first
    | with_reducible exact Only.refl _
    | with_reducible apply onLeaf_only
    | ((with_reducible apply Only.step State.stopBit_only); exact rfl)
    | ((with_reducible apply Only.step releaseStop_only); exact rfl)
    | intro _
    | split)

theorem nameRelease_only {t : Ticks} {s : State} : Only [.stop, .sticky, .raisedNow] s (nameRelease t s) := by
  unfold nameRelease
  dsimp only
  repeat' (first
    | with_reducible exact Only.refl _
    | ((with_reducible apply Only.step State.stopBit_only); exact rfl)
    | split
    | ((with_reducible apply Only.step Only.put_stop); exact rfl))

theorem execBrkVld_only {core : BitVec 8} {s : State} : OnlyR [.trc, .brk] s (execBrkVld core s) := by
  unfold execBrkVld
  dsimp only
  repeat' (first
    | with_reducible exact Only.refl _
    | with_reducible apply onLeaf_only
    | ((with_reducible apply Only.step brkMark_only); exact rfl)
    | intro _
    | split
    | ((with_reducible apply Only.step Only.put_brk); exact rfl))

theorem pulseResume_only {r : Nat × Nat} {s : State} : Only [.pins, .trc, .brk, .out] s (pulseResume r s) := by
  unfold pulseResume
  dsimp only
  repeat' (first
    | with_reducible exact Only.refl _
    | ((with_reducible apply Only.step brkMark_only); exact rfl)
    | ((with_reducible apply Only.step State.emit_only); exact rfl)
    | ((with_reducible apply Only.step Only.put_pins_brk); exact rfl))

theorem nextResume_only {s : State} : Only [.pins, .trc, .brk, .out] s (nextResume s) := by
  unfold nextResume
  dsimp only
  repeat' (first
    | with_reducible exact Only.refl _
    | ((with_reducible apply Only.step pulseResume_only); exact rfl)
    | split)

theorem startDrain_only {c w : Nat} {s : State} : Only [.pins, .trc, .brk, .out] s (startDrain c w s) := by
  unfold startDrain
  dsimp only
  repeat' (first
    | with_reducible exact Only.refl _
    | ((with_reducible apply Only.step nextResume_only); exact rfl)
    | split
    | ((with_reducible apply Only.step Only.put_pins_brk); exact rfl))

theorem owedWindow_only {s : State} : Only [.pins, .trc, .brk, .out] s (owedWindow s) := by
  unfold owedWindow
  dsimp only
  repeat' (first
    | with_reducible exact Only.refl _
    | ((with_reducible apply Only.step startDrain_only); exact rfl)
    | split)

theorem completeDrain_only {core c t : Nat} {s : State} : Only [.pins, .trc, .brk, .out] s (completeDrain core c t
    s) := by
  unfold completeDrain
  dsimp only
  repeat' (first
    | with_reducible exact Only.refl _
    | ((with_reducible apply Only.step nextResume_only); exact rfl)
    | ((with_reducible apply Only.step brkMark_only); exact rfl)
    | ((with_reducible apply Only.step Only.put_pins_brk); exact rfl))

theorem abortDrain_only {requeue : Bool} {s : State} : Only [.pins, .trc, .brk] s (abortDrain requeue s) := by
  unfold abortDrain
  dsimp only
  repeat' (first
    | with_reducible exact Only.refl _
    | ((with_reducible apply Only.step brkMark_only); exact rfl)
    | split
    | ((with_reducible apply Only.step Only.put_pins_brk); exact rfl))

theorem endWindow_only {s : State} : Only [.pins, .trc, .brk] s (endWindow s) := by
  unfold endWindow
  repeat' (first
    | with_reducible exact Only.refl _
    | ((with_reducible apply Only.step abortDrain_only); exact rfl)
    | split)

theorem execDrainWindow_only {s : State} : OnlyR [.pins, .trc, .brk, .out] s (execDrainWindow s) := by
  unfold execDrainWindow
  dsimp only
  repeat' (first
    | with_reducible exact Only.refl _
    | with_reducible apply onLeaf_only
    | ((with_reducible apply Only.step endWindow_only); exact rfl)
    | ((with_reducible apply Only.step owedWindow_only); exact rfl)
    | intro _
    | split
    | ((with_reducible apply Only.step Only.put_brk); exact rfl))

theorem undoAbort_only {core c : Nat} {s : State} : Only [.trc, .brk] s (undoAbort core c s) := by
  unfold undoAbort
  dsimp only
  repeat' (first
    | with_reducible exact Only.refl _
    | ((with_reducible apply Only.step State.onShareTrc_only); exact rfl)
    | intro _
    | ((with_reducible apply Only.step Only.put_brk); exact rfl))

theorem execDrnDone_only {s : State} : OnlyR [.pins, .trc, .brk, .out] s (execDrnDone s) := by
  unfold execDrnDone
  dsimp only
  repeat' (first
    | with_reducible exact Only.refl _
    | with_reducible apply onLeaf_only
    | ((with_reducible apply Only.step undoAbort_only); exact rfl)
    | ((with_reducible apply Only.step owedWindow_only); exact rfl)
    | ((with_reducible apply Only.step completeDrain_only); exact rfl)
    | intro _
    | split
    | ((with_reducible apply Only.step Only.put_brk); exact rfl))

theorem execDrainWindowEnd_only {s : State} : OnlyR [.pins, .trc, .brk] s (execDrainWindowEnd s) := by
  unfold execDrainWindowEnd
  repeat' (first
    | with_reducible exact Only.refl _
    | with_reducible apply onLeaf_only
    | ((with_reducible apply Only.step endWindow_only); exact rfl))

theorem execDrnPortFault_only {s : State} : OnlyR [.brk, .sticky, .raisedNow] s (execDrnPortFault s) := by
  unfold execDrnPortFault
  dsimp only
  repeat' (first
    | with_reducible exact Only.refl _
    | with_reducible apply onLeaf_only
    | ((with_reducible apply Only.step State.stopBit_only); exact rfl)
    | intro _
    | split
    | ((with_reducible apply Only.step Only.put_brk); exact rfl))

theorem brkGone_only {c : Nat} {s : State} : Only [.pins, .trc, .brk] s (brkGone c s) := by
  unfold brkGone
  dsimp only
  repeat' (first
    | with_reducible exact Only.refl _
    | ((with_reducible apply Only.step abortDrain_only); exact rfl)
    | ((with_reducible apply Only.step brkMark_only); exact rfl)
    | with_reducible apply Only.foldl
    | intro _
    | split
    | ((with_reducible apply Only.step Only.put_brk); exact rfl))

theorem moveCores_only {s : State} : Only [.brk] s (moveCores s) := Only.put_brk

end Sys2Proof.Machine
end

section
/-!
SUPPORT. What each operation and command may touch: contexts, two-phase changes, placements and the Thresher.
-/

namespace Sys2Proof.Machine

set_option Elab.async false

theorem forwardSetup_only {su : Setup} {es : List SetupEntry} {s : State} : Only [.lanes] s (forwardSetup su es s) := by
  unfold forwardSetup
  dsimp only
  repeat' (first
    | with_reducible exact Only.refl _
    | ((with_reducible apply Only.step State.sendMsgAll_only); exact rfl)
    | with_reducible apply Only.foldl
    | intro _
    | split)

theorem takeSetup_only {su : Setup} {s : State} : Only [.lanes, .setups] s (takeSetup su s) := by
  unfold takeSetup
  dsimp only
  repeat' (first
    | with_reducible exact Only.refl _
    | ((with_reducible apply Only.step forwardSetup_only); exact rfl)
    | intro _
    | split
    | ((with_reducible apply Only.step Only.put_setups); exact rfl))

theorem takeAssignment_only {ctx : Nat} {g : BitVec 16} {es : List SetupEntry} {s : State} : Only [.stw] s
    (takeAssignment ctx g es s) := by
  unfold takeAssignment
  dsimp only
  repeat' (first
    | with_reducible exact Only.refl _
    | intro _
    | ((with_reducible apply Only.step Only.put_stw); exact rfl))

theorem execCtxSetup_only {lane : Nat} {msg : Bytes} {s : State} : OnlyR [.lanes, .setups, .stw, .inbox] s
    (execCtxSetup lane msg s) := by
  unfold execCtxSetup
  dsimp only
  repeat' (first
    | with_reducible exact Only.refl _
    | with_reducible apply whenClocked_only
    | with_reducible apply OnlyR.next
    | ((with_reducible apply Only.step takeSetup_only); exact rfl)
    | ((with_reducible apply Only.step State.taken_only); exact rfl)
    | ((with_reducible apply Only.step takeAssignment_only); exact rfl)
    | intro _
    | split)

theorem moveUnits_only {us : List Nat} {c : Nat} {s : State} : Only [.cap, .trc, .brk] s (moveUnits us c s) := by
  unfold moveUnits
  dsimp only
  repeat' (first
    | with_reducible exact Only.refl _
    | ((with_reducible apply Only.step moveCores_only); exact rfl)
    | with_reducible apply Only.foldl
    | intro _
    | ((with_reducible apply Only.step Only.put_cap_trc); exact rfl))

theorem activate_only {c : Nat} {g : BitVec 16} {k winBase winSize : Nat} {s : State} : Only [.ctxs, .trc, .watch,
    .stw] s (activate c g k winBase winSize s) := by
  unfold activate
  dsimp only
  repeat' (first
    | with_reducible exact Only.refl _
    | ((with_reducible apply Only.step State.onCtx_only); exact rfl)
    | intro _
    | split
    | ((with_reducible apply Only.step Only.put_trc_watch_stw); exact rfl))

theorem noteOwners_only {su : Setup} {c k : Nat} {s : State} : Only [.red] s (noteOwners su c k s) := by
  unfold noteOwners
  dsimp only
  repeat' (first
    | with_reducible exact Only.refl _
    | intro _
    | split
    | ((with_reducible apply Only.step Only.put_red); exact rfl))

theorem startMembers_only {su : Setup} {c k : Nat} {extend : Bool} {s : State} : Only [.lanes, .red] s (startMembers
    su c k extend s) := by
  unfold startMembers
  dsimp only
  repeat' (first
    | with_reducible exact Only.refl _
    | ((with_reducible apply Only.step State.decideChange_only); exact rfl)
    | ((with_reducible apply Only.step State.addChange_only); exact rfl)
    | with_reducible apply Only.foldl
    | intro _
    | split)

theorem ctxStart_only {a : Arm} {k : Nat} {s : State} : Only [.lanes, .cap, .ctxs, .red, .trc, .watch, .brk, .stw] s
    (ctxStart a k s) := by
  unfold ctxStart
  dsimp only
  repeat' (first
    | with_reducible exact Only.refl _
    | ((with_reducible apply Only.step startMembers_only); exact rfl)
    | ((with_reducible apply Only.step noteOwners_only); exact rfl)
    | ((with_reducible apply Only.step moveUnits_only); exact rfl)
    | ((with_reducible apply Only.step activate_only); exact rfl)
    | split)

theorem leafEnd_only {c : Nat} {s : State} : Only [.pins, .lanes, .cap, .trc, .watch, .brk] s (leafEnd c s) := by
  unfold leafEnd
  dsimp only
  repeat' (first
    | with_reducible exact Only.refl _
    | ((with_reducible apply Only.step brkGone_only); exact rfl)
    | ((with_reducible apply Only.step State.onShareTrc_only); exact rfl)
    | ((with_reducible apply Only.step watchGone_only); exact rfl)
    | ((with_reducible apply Only.step moveUnits_only); exact rfl)
    | intro _
    | ((with_reducible apply Only.step Only.put_cap); exact rfl))

theorem beginDrain_only {c k : Nat} {t : Ticks} {s : State} : Only [.ctxs] s (beginDrain c k t s) := by
  unfold beginDrain
  repeat' (first
    | with_reducible exact Only.refl _
    | ((with_reducible apply Only.step State.onCtx_only); exact rfl))

theorem returnUnits_only {c k : Nat} {s : State} : Only [.red] s (returnUnits c k s) := by
  unfold returnUnits
  dsimp only
  repeat' (first
    | with_reducible exact Only.refl _
    | intro _
    | ((with_reducible apply Only.step Only.put_red); exact rfl))

theorem releaseMembers_only {su : Setup} {c k : Nat} {s : State} : Only [.lanes, .red] s (releaseMembers su c k s) := by
  unfold releaseMembers
  dsimp only
  repeat' (first
    | with_reducible exact Only.refl _
    | ((with_reducible apply Only.step State.decideChange_only); exact rfl)
    | with_reducible apply Only.foldl
    | intro _
    | split)

theorem ctxEnd_only {a : Arm} {k : Nat} {t : Ticks} {s : State} : Only [.pins, .lanes, .cap, .ctxs, .red, .trc,
    .watch, .brk] s (ctxEnd a k t s) := by
  unfold ctxEnd
  dsimp only
  repeat' (first
    | with_reducible exact Only.refl _
    | ((with_reducible apply Only.step releaseMembers_only); exact rfl)
    | ((with_reducible apply Only.step returnUnits_only); exact rfl)
    | ((with_reducible apply Only.step noteOwners_only); exact rfl)
    | ((with_reducible apply Only.step beginDrain_only); exact rfl)
    | ((with_reducible apply Only.step leafEnd_only); exact rfl)
    | ((with_reducible apply Only.step moveUnits_only); exact rfl)
    | intro _
    | split)

theorem State.onArm_only {s : State} {id : BitVec 64} {f : Arm → Arm} : Only [.red] s (State.onArm s id f) := Only.put_red

theorem State.dropArm_only {s : State} {id : BitVec 64} : Only [.red] s (State.dropArm s id) := Only.put_red

theorem logArm_only {a : Arm} {merged outcome : Nat} {s : State} : Only [.red] s (logArm a merged outcome s) := by
  unfold logArm
  dsimp only
  repeat' (first
    | with_reducible exact Only.refl _
    | split
    | ((with_reducible apply Only.step Only.put_red); exact rfl))

theorem declareNoAck_only {a : Arm} {s : State} : Only [.lanes, .red] s (declareNoAck a s) := by
  unfold declareNoAck
  dsimp only
  repeat' (first
    | with_reducible exact Only.refl _
    | ((with_reducible apply Only.step State.decideChange_only); exact rfl)
    | with_reducible apply Only.foldl
    | intro _
    | split)

theorem sendStatus_only {a : Arm} {s : State} : Only [.lanes, .red] s (sendStatus a s) := by
  unfold sendStatus
  dsimp only
  repeat' (first
    | with_reducible exact Only.refl _
    | ((with_reducible apply Only.step State.sendCtlAll_only); exact rfl)
    | ((with_reducible apply Only.step State.onArm_only); exact rfl)
    | ((with_reducible apply Only.step declareNoAck_only); exact rfl))

theorem forwardArm_only {a : Arm} {fromBelay : Bool} {s : State} : Only [.lanes] s (forwardArm a fromBelay s) := by
  unfold forwardArm
  dsimp only
  repeat' (first
    | with_reducible exact Only.refl _
    | ((with_reducible apply Only.step State.sendCtlAll_only); exact rfl)
    | ((with_reducible apply Only.step State.sendBelay_only); exact rfl)
    | split)

theorem holdArm_only {a : Arm} {fromBelay : Bool} {s : State} : Only [.lanes, .red, .stop] s (holdArm a fromBelay s) := by
  unfold holdArm
  dsimp only
  repeat' (first
    | with_reducible exact Only.refl _
    | ((with_reducible apply Only.step State.sendCtlAll_only); exact rfl)
    | ((with_reducible apply Only.step sendStatus_only); exact rfl)
    | ((with_reducible apply Only.step State.onArm_only); exact rfl)
    | ((with_reducible apply Only.step forwardArm_only); exact rfl)
    | intro _
    | split
    | ((with_reducible apply Only.step Only.put_red_stop); exact rfl))

theorem dropSetup_only {a : Arm} {s : State} : Only [.setups] s (dropSetup a s) := by
  unfold dropSetup
  repeat' (first
    | with_reducible exact Only.refl _
    | split
    | ((with_reducible apply Only.step Only.put_setups); exact rfl))

theorem refuseArm_only {a : Arm} {s : State} : Only [.lanes, .setups, .sticky, .raisedNow] s (refuseArm a s) := by
  unfold refuseArm
  dsimp only
  repeat' (first
    | with_reducible exact Only.refl _
    | ((with_reducible apply Only.step State.sendCtlAll_only); exact rfl)
    | ((with_reducible apply Only.step dropSetup_only); exact rfl)
    | ((with_reducible apply Only.step State.setBit_only); exact rfl)
    | split)

theorem takeSchedSync_only {m : Bytes} {s : State} : Only [.sched] s (takeSchedSync m s) := by
  unfold takeSchedSync
  dsimp only
  repeat' (first
    | with_reducible exact Only.refl _
    | split
    | ((with_reducible apply Only.step Only.put_sched); exact rfl))

theorem execArm_only {lane : Nat} {msg : Bytes} {s : State} : OnlyR [.sched, .lanes, .setups, .red, .stop, .sticky,
    .raisedNow, .inbox] s (execArm lane msg s) := by
  unfold execArm
  dsimp only
  repeat' (first
    | with_reducible exact Only.refl _
    | with_reducible apply whenClocked_only
    | with_reducible apply OnlyR.next
    | ((with_reducible apply Only.step refuseArm_only); exact rfl)
    | ((with_reducible apply Only.step holdArm_only); exact rfl)
    | ((with_reducible apply Only.step State.taken_only); exact rfl)
    | ((with_reducible apply Only.step takeSchedSync_only); exact rfl)
    | intro _
    | split
    | ((with_reducible apply Only.step Only.put_red); exact rfl))

theorem execSchedSync_only {lane : Nat} {msg : Bytes} {s : State} : OnlyR [.sched, .inbox] s (execSchedSync lane msg
    s) := by
  unfold execSchedSync
  repeat' (first
    | with_reducible exact Only.refl _
    | with_reducible apply whenClocked_only
    | with_reducible apply OnlyR.next
    | ((with_reducible apply Only.step State.taken_only); exact rfl)
    | ((with_reducible apply Only.step takeSchedSync_only); exact rfl))

theorem originate_only {kind : Nat} {aon : Bool} {epochT : Nat} {arg : BitVec 128} {ctx : Nat} {gen : BitVec 16}
    {arg2 : BitVec 32} {mbx : Option Nat} {s : State} :
    Only [.lanes, .red, .stop] s (originate kind aon epochT arg ctx gen arg2 mbx s).2 := by
  unfold originate
  dsimp only
  refine Only.step holdArm_only rfl ?_
  exact Only.put_red.mono rfl

theorem execArmAck_only {lane : Nat} {msg : Bytes} {view : List (Nat × Nat)} {s : State} : OnlyR [.lanes, .red,
    .inbox] s (execArmAck lane msg view s) := by
  unfold execArmAck
  dsimp only
  repeat' (first
    | with_reducible exact Only.refl _
    | with_reducible apply onTray_only
    | ((with_reducible apply Only.step sendStatus_only); exact rfl)
    | ((with_reducible apply Only.step State.taken_only); exact rfl)
    | ((with_reducible apply Only.step State.onArm_only); exact rfl)
    | intro _
    | split)

theorem execArmLevelDeadline_only {id : BitVec 64} {s : State} : OnlyR [.lanes, .red] s (execArmLevelDeadline id s) := by
  unfold execArmLevelDeadline
  repeat' (first
    | with_reducible exact Only.refl _
    | with_reducible apply onTray_only
    | ((with_reducible apply Only.step sendStatus_only); exact rfl)
    | intro _
    | split)

theorem execBelayViewSend_only {id : BitVec 64} {s : State} : OnlyR [.lanes] s (execBelayViewSend id s) := by
  unfold execBelayViewSend
  repeat' (first
    | with_reducible exact Only.refl _
    | with_reducible apply onTray_only
    | ((with_reducible apply Only.step State.sendBelay_only); exact rfl)
    | intro _
    | split)

theorem sendDown_only {a : Arm} {d : Bool} {s : State} : Only [.lanes, .red] s (sendDown a d s) := by
  unfold sendDown
  dsimp only
  repeat' (first
    | with_reducible exact Only.refl _
    | ((with_reducible apply Only.step State.sendCtlAll_only); exact rfl)
    | ((with_reducible apply Only.step State.onArm_only); exact rfl)
    | intro _
    | split)

theorem decide__only {a : Arm} {s : State} : Only [.lanes, .red] s (decide_ a s) := by
  unfold decide_
  repeat' (first
    | with_reducible exact Only.refl _
    | ((with_reducible apply Only.step State.onArm_only); exact rfl)
    | ((with_reducible apply Only.step declareNoAck_only); exact rfl))

theorem execArmAckDeadline_only {id : BitVec 64} {s : State} : OnlyR [.lanes, .red] s (execArmAckDeadline id s) := by
  unfold execArmAckDeadline
  dsimp only
  repeat' (first
    | with_reducible exact Only.refl _
    | with_reducible apply onTray_only
    | ((with_reducible apply Only.step sendDown_only); exact rfl)
    | ((with_reducible apply Only.step decide__only); exact rfl)
    | ((with_reducible apply Only.step State.sendBelay_only); exact rfl)
    | intro _
    | split)

theorem execDecisionEcho_only {lane : Nat} {msg : Bytes} {s : State} : OnlyR [.lanes, .red, .inbox] s
    (execDecisionEcho lane msg s) := by
  unfold execDecisionEcho
  dsimp only
  repeat' (first
    | with_reducible exact Only.refl _
    | with_reducible apply onTray_only
    | ((with_reducible apply Only.step sendDown_only); exact rfl)
    | ((with_reducible apply Only.step State.taken_only); exact rfl)
    | ((with_reducible apply Only.step State.onArm_only); exact rfl)
    | intro _
    | split)

theorem execSideBDecide_only {id : BitVec 64} {s : State} : OnlyR [.lanes, .red] s (execSideBDecide id s) := by
  unfold execSideBDecide
  repeat' (first
    | with_reducible exact Only.refl _
    | with_reducible apply onTray_only
    | ((with_reducible apply Only.step sendDown_only); exact rfl)
    | ((with_reducible apply Only.step decide__only); exact rfl)
    | intro _
    | split)

theorem countArmLate_only {s : State} : Only [.red, .err] s (countArmLate s) := by
  unfold countArmLate
  dsimp only
  repeat' (first
    | with_reducible exact Only.refl _
    | ((with_reducible apply Only.step State.errCount_only); exact rfl)
    | split
    | ((with_reducible apply Only.step Only.put_red); exact rfl))

theorem takeDecision_only {lane : Nat} {confirm : Bool} {msg : Bytes} {s : State} : Only [.lanes, .red, .err] s
    (takeDecision lane confirm msg s) := by
  unfold takeDecision
  dsimp only
  repeat' (first
    | with_reducible exact Only.refl _
    | ((with_reducible apply Only.step sendDown_only); exact rfl)
    | ((with_reducible apply Only.step State.onArm_only); exact rfl)
    | ((with_reducible apply Only.step countArmLate_only); exact rfl)
    | ((with_reducible apply Only.step State.sendBelay_only); exact rfl)
    | ((with_reducible apply Only.step State.sendCtl_only); exact rfl)
    | intro _
    | split)

theorem execConfirm_only {lane : Nat} {msg : Bytes} {s : State} : OnlyR [.lanes, .red, .err, .inbox] s (execConfirm
    lane msg s) := by
  unfold execConfirm
  repeat' (first
    | with_reducible exact Only.refl _
    | with_reducible apply whenClocked_only
    | with_reducible apply OnlyR.next
    | ((with_reducible apply Only.step State.taken_only); exact rfl)
    | ((with_reducible apply Only.step takeDecision_only); exact rfl))

theorem execCancel_only {lane : Nat} {msg : Bytes} {s : State} : OnlyR [.lanes, .red, .err, .inbox] s (execCancel
    lane msg s) := by
  unfold execCancel
  repeat' (first
    | with_reducible exact Only.refl _
    | with_reducible apply whenClocked_only
    | with_reducible apply OnlyR.next
    | ((with_reducible apply Only.step State.taken_only); exact rfl)
    | ((with_reducible apply Only.step takeDecision_only); exact rfl))

theorem repeatDecisions_only {s : State} : Only [.lanes, .red] s (repeatDecisions s) := by
  unfold repeatDecisions
  repeat' (first
    | with_reducible exact Only.refl _
    | ((with_reducible apply Only.step sendDown_only); exact rfl)
    | with_reducible apply Only.foldl
    | intro _
    | split)

theorem armsAlone_only {s : State} : Only [.lanes, .red] s (armsAlone s) := by
  unfold armsAlone
  repeat' (first
    | with_reducible exact Only.refl _
    | ((with_reducible apply Only.step sendDown_only); exact rfl)
    | with_reducible apply Only.foldl
    | intro _
    | split)

theorem unarmStop_only {a : Arm} {s : State} : Only [.stop] s (unarmStop a s) := by
  unfold unarmStop
  dsimp only
  repeat' (first
    | with_reducible exact Only.refl _
    | split
    | ((with_reducible apply Only.step Only.put_stop); exact rfl))

theorem execArmDecideBy_only {id : BitVec 64} {s : State} : OnlyR [.setups, .red, .stop, .err, .sticky, .raisedNow]
    s (execArmDecideBy id s) := by
  unfold execArmDecideBy
  dsimp only
  repeat' (first
    | with_reducible exact Only.refl _
    | with_reducible apply OnlyR.next
    | ((with_reducible apply Only.step logArm_only); exact rfl)
    | ((with_reducible apply Only.step dropSetup_only); exact rfl)
    | ((with_reducible apply Only.step State.onArm_only); exact rfl)
    | ((with_reducible apply Only.step State.setBit_only); exact rfl)
    | ((with_reducible apply Only.step State.errCount_only); exact rfl)
    | ((with_reducible apply Only.step State.dropArm_only); exact rfl)
    | ((with_reducible apply Only.step unarmStop_only); exact rfl)
    | intro _
    | split
    | ((with_reducible apply Only.step Only.put_red_stop); exact rfl))

theorem applyEpochSet_only {a : Arm} {k : Nat} {t : Ticks} {s : State} : Only [.cfg, .sched] s (applyEpochSet a k t s) := Only.put_cfg_sched

theorem applyPlanSet_only {a : Arm} {k : Nat} {s : State} : Only [.red] s (applyPlanSet a k s) := Only.put_red

theorem applyArm_only {a : Arm} {k : Nat} {t : Ticks} {s : State} : Only [.cfg, .pins, .sched, .lanes, .cap, .ctxs,
    .red, .trc, .watch, .brk, .stw] s (applyArm a k t s) := by
  unfold applyArm
  dsimp only
  repeat' (first
    | with_reducible exact Only.refl _
    | ((with_reducible apply Only.step applyEpochSet_only); exact rfl)
    | ((with_reducible apply Only.step logArm_only); exact rfl)
    | ((with_reducible apply Only.step applyPlanSet_only); exact rfl)
    | ((with_reducible apply Only.step ctxEnd_only); exact rfl)
    | ((with_reducible apply Only.step State.dropArm_only); exact rfl)
    | ((with_reducible apply Only.step ctxStart_only); exact rfl)
    | split
    | ((with_reducible apply Only.step Only.put_sched); exact rfl))

theorem applyArms_only {k : Nat} {t : Ticks} {s : State} : Only [.cfg, .pins, .sched, .lanes, .cap, .ctxs, .red,
    .trc, .watch, .brk, .stw] s (applyArms k t s) := by
  unfold applyArms
  repeat' (first
    | with_reducible exact Only.refl _
    | ((with_reducible apply Only.step applyArm_only); exact rfl)
    | with_reducible apply Only.foldl
    | intro _)

theorem execSlotPhaseWindow_only {s : State} : OnlyR [.sched, .lanes, .red, .stop] s (execSlotPhaseWindow s) := by
  unfold execSlotPhaseWindow
  dsimp only
  repeat' (first
    | with_reducible exact Only.refl _
    | with_reducible apply onTray_only
    | ((with_reducible apply Only.step originate_only); exact rfl)
    | intro _
    | split
    | ((with_reducible apply Only.step Only.put_sched); exact rfl))

theorem State.onTable_only {s : State} {id : Nat} {f : Table → Table} : Only [.mem] s (State.onTable s id f) := Only.put_mem

theorem State.onJob_only {s : State} {model row ks : Nat} {f : ScoreJob → ScoreJob} : Only [.mem] s (State.onJob s model row ks f) := Only.put_mem

theorem refreshVerdicts_only {ctx k : Nat} {s : State} : Only [.red] s (refreshVerdicts ctx k s) := by
  unfold refreshVerdicts
  dsimp only
  repeat' (first
    | with_reducible exact Only.refl _
    | ((with_reducible apply Only.step State.onSheaf_only); exact rfl)
    | intro _
    | split)

theorem setHot_only {k : Nat} {s : State} : Only [.mem] s (setHot k s) := by
  unfold setHot
  dsimp only
  repeat' (first
    | with_reducible exact Only.refl _
    | intro _
    | split
    | ((with_reducible apply Only.step Only.put_mem); exact rfl))

theorem putPlacement_only {p : PlaceInForce} {k : Nat} {s : State} : Only [.mem] s (putPlacement p k s) := by
  unfold putPlacement
  dsimp only
  repeat' (first
    | with_reducible exact Only.refl _
    | ((with_reducible apply Only.step setHot_only); exact rfl)
    | intro _
    | ((with_reducible apply Only.step Only.put_mem); exact rfl))

theorem State.noteDecode_only {s : State} {k slot : Nat} : Only [.raw, .sticky, .raisedNow] s (State.noteDecode s k
    slot) := by
  unfold State.noteDecode
  repeat' (first
    | with_reducible exact Only.refl _
    | ((with_reducible apply Only.step decFail_only); exact rfl)
    | split)

theorem State.onHot_only {s : State} {t r : Nat} {f : HotRow → HotRow} : Only [.mem] s (State.onHot s t r f) := by
  unfold State.onHot
  dsimp only
  repeat' (first
    | with_reducible exact Only.refl _
    | intro _
    | ((with_reducible apply Only.step Only.put_mem); exact rfl))

theorem forward_only {t r : Nat} {v : RowVer} {s : State} : Only [.mem, .sticky, .raisedNow] s (forward t r v s) := by
  unfold forward
  dsimp only
  repeat' (first
    | with_reducible exact Only.refl _
    | ((with_reducible apply Only.step State.onHot_only); exact rfl)
    | ((with_reducible apply Only.step State.setBit_only); exact rfl)
    | intro _
    | split)

theorem resumeForwards_only {t r : Nat} {s : State} : Only [.mem] s (resumeForwards t r s) := by
  unfold resumeForwards
  repeat' (first
    | with_reducible exact Only.refl _
    | ((with_reducible apply Only.step State.onHot_only); exact rfl))

theorem observeRow_only {t : Table} {r : Row} {s : State} : Only [.red] s (observeRow t r s) := by
  unfold observeRow
  repeat' (first
    | with_reducible exact Only.refl _
    | ((with_reducible apply Only.step State.onSheaf_only); exact rfl)
    | intro _
    | split)

theorem storeRow_only {t : Table} {r : Row} {s : State} : Only [.mem] s (storeRow t r s) := by
  unfold storeRow
  dsimp only
  repeat' (first
    | with_reducible exact Only.refl _
    | ((with_reducible apply Only.step State.onTable_only); exact rfl))

theorem poisonLine_only {l : HbmLine} {s : State} : Only [.lanes, .red, .mem, .raw, .sticky, .raisedNow] s
    (poisonLine l s) := by
  unfold poisonLine
  dsimp only
  repeat' (first
    | with_reducible exact Only.refl _
    | ((with_reducible apply Only.step startRecovery_only); exact rfl)
    | ((with_reducible apply Only.step State.setBit_only); exact rfl)
    | ((with_reducible apply Only.step State.onTable_only); exact rfl)
    | intro _
    | split
    | ((with_reducible apply Only.step Only.put_red_mem_raw); exact rfl))

theorem hbmRead_only {l : HbmLine} {errs : Nat} {s : State} : Only [.lanes, .red, .mem, .raw, .err, .sticky,
    .raisedNow] s (hbmRead l errs s) := by
  unfold hbmRead
  repeat' (first
    | with_reducible exact Only.refl _
    | ((with_reducible apply Only.step noteHbm_only); exact rfl)
    | ((with_reducible apply Only.step queuePpr_only); exact rfl)
    | ((with_reducible apply Only.step State.setBit_only); exact rfl)
    | ((with_reducible apply Only.step State.errCount_only); exact rfl)
    | ((with_reducible apply Only.step poisonLine_only); exact rfl)
    | ((with_reducible apply Only.step State.errBit_only); exact rfl)
    | split)

theorem writeRow_only {t : Table} {r r' : Row} {k : Nat} {s : State} : Only [.red, .mem, .chans, .raw, .err,
    .sticky, .raisedNow] s (writeRow t r r' k s) := by
  unfold writeRow
  dsimp only
  repeat' (first
    | with_reducible exact Only.refl _
    | ((with_reducible apply Only.step storeRow_only); exact rfl)
    | ((with_reducible apply Only.step observeRow_only); exact rfl)
    | ((with_reducible apply Only.step State.xfer_only); exact rfl)
    | ((with_reducible apply Only.step State.errCount_only); exact rfl)
    | ((with_reducible apply Only.step forward_only); exact rfl)
    | ((with_reducible apply Only.step noteTail_only); exact rfl)
    | ((with_reducible apply Only.step State.noteDecode_only); exact rfl)
    | with_reducible apply Only.elim
    | intro _
    | split)

theorem thresherUpdate_only {cls table row k : Nat} {x : RowStep} {s : State} : Only [.lanes, .cap, .red, .mem,
    .chans, .raw, .err, .mode, .twin, .sticky, .raisedNow, .links] s (thresherUpdate cls table row k x s) := by
  unfold thresherUpdate
  dsimp only
  repeat' (first
    | with_reducible exact Only.refl _
    | ((with_reducible apply Only.step refreshVerdicts_only); exact rfl)
    | ((with_reducible apply Only.step unitCheck_only); exact rfl)
    | ((with_reducible apply Only.step hbmRead_only); exact rfl)
    | ((with_reducible apply Only.step writeRow_only); exact rfl)
    | with_reducible apply Only.foldl
    | intro _
    | split)

theorem execSlotLate_only {s : State} : OnlyR [.sticky, .raisedNow] s (execSlotLate s) := by
  unfold execSlotLate
  dsimp only
  repeat' (first
    | with_reducible exact Only.refl _
    | with_reducible apply onTray_only
    | ((with_reducible apply Only.step State.setBit_only); exact rfl)
    | intro _
    | split)

theorem repeatCopy_only {s : State} : Only [.sticky, .raisedNow] s (repeatCopy s) := by
  unfold repeatCopy
  repeat' (first
    | with_reducible exact Only.refl _
    | ((with_reducible apply Only.step State.setBit_only); exact rfl))

theorem execRowCopy_only {table row : Nat} {s : State} : OnlyR [.chans, .raw, .sticky, .raisedNow] s (execRowCopy
    table row s) := by
  unfold execRowCopy
  dsimp only
  repeat' (first
    | with_reducible exact Only.refl _
    | with_reducible apply onTray_only
    | ((with_reducible apply Only.step State.xfer_only); exact rfl)
    | ((with_reducible apply Only.step repeatCopy_only); exact rfl)
    | intro _
    | split
    | ((with_reducible apply Only.step Only.put_raw); exact rfl))

theorem decimate_only {t : Ticks} {s : State} : Only [.mem, .chans] s (decimate t s) := by
  unfold decimate
  dsimp only
  repeat' (first
    | with_reducible exact Only.refl _
    | ((with_reducible apply Only.step State.xfer_only); exact rfl)
    | with_reducible apply Only.foldl
    | intro _
    | split
    | ((with_reducible apply Only.step Only.put_mem); exact rfl))

theorem reinstall_only {table row : Nat} {v : RowVer} {s : State} : Only [.mem] s (reinstall table row v s) := by
  unfold reinstall
  exact State.onHot_only

theorem takeTwinRow_only {t : Table} {r : Row} {w : TwinRow} {s : State} : Only [.red, .mem] s (takeTwinRow t r w s) := by
  unfold takeTwinRow
  dsimp only
  repeat' (first
    | with_reducible exact Only.refl _
    | ((with_reducible apply Only.step refreshVerdicts_only); exact rfl)
    | ((with_reducible apply Only.step observeRow_only); exact rfl)
    | ((with_reducible apply Only.step reinstall_only); exact rfl)
    | ((with_reducible apply Only.step State.onTable_only); exact rfl)
    | with_reducible apply Only.foldl
    | intro _)

theorem execRowRepair_only {table row : Nat} {twinRow : Option TwinRow} {s : State} : OnlyR [.red, .mem, .chans,
    .raw, .sticky, .raisedNow] s (execRowRepair table row twinRow s) := by
  unfold execRowRepair
  dsimp only
  repeat' (first
    | with_reducible exact Only.refl _
    | with_reducible apply onTray_only
    | ((with_reducible apply Only.step State.xfer_only); exact rfl)
    | ((with_reducible apply Only.step reinstall_only); exact rfl)
    | ((with_reducible apply Only.step noteCkpt_only); exact rfl)
    | ((with_reducible apply Only.step takeTwinRow_only); exact rfl)
    | ((with_reducible apply Only.step State.onTable_only); exact rfl)
    | with_reducible apply Only.foldl
    | intro _
    | split)

theorem execPatrolScrub_only {l : HbmLine} {errs : Nat} {s : State} : OnlyR [.lanes, .red, .mem, .chans, .raw, .err,
    .sticky, .raisedNow] s (execPatrolScrub l errs s) := by
  unfold execPatrolScrub
  repeat' (first
    | with_reducible exact Only.refl _
    | with_reducible apply onTray_only
    | ((with_reducible apply Only.step State.xfer_only); exact rfl)
    | ((with_reducible apply Only.step hbmRead_only); exact rfl))

theorem execThresherUpdate_only {table row epoch : Nat} {x : RowStep} {s : State} :
    OnlyR [.lanes, .cap, .red, .mem, .chans, .raw, .err, .mode, .twin, .sticky, .raisedNow, .links] s
      (execThresherUpdate table row epoch x s) :=
  onTray_only (byUnit_only (Only.refl s) fun _ => thresherUpdate_only.mono rfl)

theorem execLeafFeatureUpdate_only {table row epoch : Nat} {check : CheckOutcome} {s : State} : OnlyR [.lanes, .cap,
    .red, .mem, .chans, .raw, .err, .mode, .twin, .sticky, .raisedNow, .links] s (execLeafFeatureUpdate table row
    epoch check s) := by
  unfold execLeafFeatureUpdate
  dsimp only
  repeat' (first
    | with_reducible exact Only.refl _
    | with_reducible apply onLeaf_only
    | ((with_reducible apply Only.step thresherUpdate_only); exact rfl)
    | with_reducible apply byUnit_only
    | intro _
    | split)

theorem appendBlock_only {slot k : Nat} {b : Bytes} {s : State} : Only [.red, .chans, .raw] s (appendBlock slot k b
    s) := by
  unfold appendBlock
  dsimp only
  repeat' (first
    | with_reducible exact Only.refl _
    | ((with_reducible apply Only.step State.stripe_only); exact rfl)
    | intro _
    | split
    | ((with_reducible apply Only.step Only.put_red_raw); exact rfl))

theorem execRawRingLog_only {slot epoch : Nat} {check : CheckOutcome} {s : State} : OnlyR [.lanes, .cap, .red,
    .chans, .raw, .err, .mode, .twin, .sticky, .raisedNow, .links] s (execRawRingLog slot epoch check s) := by
  unfold execRawRingLog
  dsimp only
  repeat' (first
    | with_reducible exact Only.refl _
    | with_reducible apply onTray_only
    | ((with_reducible apply Only.step unitCheck_only); exact rfl)
    | ((with_reducible apply Only.step State.stripe_only); exact rfl)
    | ((with_reducible apply Only.step appendBlock_only); exact rfl)
    | with_reducible apply byUnit_only
    | intro _
    | split
    | ((with_reducible apply Only.step Only.put_red); exact rfl))

theorem execRawCopyPath_only {slot epoch : Nat} {s : State} : OnlyR [.red, .chans, .raw, .sticky, .raisedNow] s
    (execRawCopyPath slot epoch s) := by
  unfold execRawCopyPath
  dsimp only
  repeat' (first
    | with_reducible exact Only.refl _
    | with_reducible apply onTray_only
    | ((with_reducible apply Only.step State.setBit_only); exact rfl)
    | ((with_reducible apply Only.step appendBlock_only); exact rfl)
    | intro _
    | split)

theorem State.ckptXfers_only {s : State} {tabs : List (Table × List Row)} {len : Nat} : Only [.chans] s
    (State.ckptXfers s tabs len) := by
  unfold State.ckptXfers
  dsimp only
  repeat' (first
    | with_reducible exact Only.refl _
    | ((with_reducible apply Only.step State.xfer_only); exact rfl)
    | ((with_reducible apply Only.step State.stripe_only); exact rfl)
    | with_reducible apply Only.foldl
    | intro _
    | split)

theorem execCheckpointWrite_only {s : State} : OnlyR [.lanes, .mem, .chans, .raw, .sticky, .raisedNow, .out] s
    (execCheckpointWrite s) := by
  unfold execCheckpointWrite
  dsimp only
  repeat' (first
    | with_reducible exact Only.refl _
    | with_reducible apply onTray_only
    | ((with_reducible apply Only.step State.ckptXfers_only); exact rfl)
    | ((with_reducible apply Only.step State.issue_only); exact rfl)
    | ((with_reducible apply Only.step State.setBit_only); exact rfl)
    | intro _
    | split
    | ((with_reducible apply Only.step Only.put_mem_raw); exact rfl))

theorem ckptDue_only {k : Nat} {s : State} : Only [.raw, .sticky, .raisedNow] s (ckptDue k s) := by
  unfold ckptDue
  dsimp only
  repeat' (first
    | with_reducible exact Only.refl _
    | ((with_reducible apply Only.step State.setBit_only); exact rfl)
    | split
    | ((with_reducible apply Only.step Only.put_raw); exact rfl))

theorem genDiscard_only {ctx : Nat} {s : State} : Only [.ctxs, .err] s (genDiscard ctx s) := by
  unfold genDiscard
  repeat' (first
    | with_reducible exact Only.refl _
    | ((with_reducible apply Only.step State.errCount_only); exact rfl)
    | ((with_reducible apply Only.step State.onCtx_only); exact rfl))

theorem captureMessage_only {ctx : Nat} {msg : Bytes} {s : State} : Only [.lanes, .capt, .captOut, .out] s
    (captureMessage ctx msg s) := by
  unfold captureMessage
  dsimp only
  repeat' (first
    | with_reducible exact Only.refl _
    | ((with_reducible apply Only.step State.issue_only); exact rfl)
    | intro _
    | split
    | ((with_reducible apply Only.step Only.put_capt_captOut); exact rfl))

theorem takeCapture_only {kinds : List Nat} {msg : Bytes} {s : State} : Only [.lanes, .ctxs, .capt, .captOut, .err,
    .out] s (takeCapture kinds msg s) := by
  unfold takeCapture
  dsimp only
  repeat' (first
    | with_reducible exact Only.refl _
    | ((with_reducible apply Only.step genDiscard_only); exact rfl)
    | ((with_reducible apply Only.step captureMessage_only); exact rfl)
    | split)

theorem execIntervalRecord_only {lane ctx : Nat} {msg : Bytes} {s : State} : OnlyR [.lanes, .ctxs, .capt, .captOut,
    .err, .inbox, .out] s (execIntervalRecord lane ctx msg s) := by
  unfold execIntervalRecord
  dsimp only
  repeat' (first
    | with_reducible exact Only.refl _
    | with_reducible apply onTray_only
    | ((with_reducible apply Only.step genDiscard_only); exact rfl)
    | ((with_reducible apply Only.step State.taken_only); exact rfl)
    | ((with_reducible apply Only.step captureMessage_only); exact rfl)
    | intro _
    | split)

theorem execCaptureMessage_only {lane : Nat} {msg : Bytes} {s : State} : OnlyR [.lanes, .ctxs, .capt, .captOut,
    .err, .inbox, .out] s (execCaptureMessage lane msg s) := by
  unfold execCaptureMessage
  repeat' (first
    | with_reducible exact Only.refl _
    | with_reducible apply onTray_only
    | ((with_reducible apply Only.step takeCapture_only); exact rfl)
    | ((with_reducible apply Only.step State.taken_only); exact rfl))

end Sys2Proof.Machine
end

section
/-!
SUPPORT. What each operation and command may touch: registers, the fabric port, the steward, scoring, grants and the loop.
-/

namespace Sys2Proof.Machine

set_option Elab.async false

theorem State.onMbx_only {s : State} {n : Nat} {f : Mbx → Mbx} : Only [.stw] s (State.onMbx s n f) := Only.put_stw

theorem latchWide_only {p : Path} {start n v : Nat} {s : State} : Only [.latches] s (latchWide p start n v s) := by
  unfold latchWide
  repeat' (first
    | with_reducible exact Only.refl _
    | ((with_reducible apply Only.step setLatches_only); exact rfl))

theorem clearRC_only {a : Nat} {s : State} : Only [.err] s (clearRC a s) := by
  unfold clearRC
  dsimp only
  repeat' (first
    | with_reducible exact Only.refl _
    | intro _
    | split
    | ((with_reducible apply Only.step Only.put_err); exact rfl))

theorem readReg_only {p : Path} {a : Nat} {s : State} : Only [.err, .latches] s (readReg p a s).2 := by
  unfold readReg
  repeat' (first
    | with_reducible exact Only.refl _
    | ((with_reducible apply Only.step latchWide_only); exact rfl)
    | ((with_reducible apply Only.step clearRC_only); exact rfl)
    | split)

theorem readRegs_only {p : Path} {n a : Nat} {s : State} : Only [.err, .latches] s (readRegs p n a s).2 := by
  induction n generalizing a s with
  | zero => exact Only.refl s
  | succ n ih => exact readReg_only.trans ih

theorem hostWrite_only {a : Nat} {v : Word} {s : State} : Only [.sticky] s (hostWrite a v s) := by
  unfold hostWrite
  dsimp only
  repeat' (first
    | with_reducible exact Only.refl _
    | split
    | ((with_reducible apply Only.step Only.put_sticky); exact rfl))

theorem sbAnswer_only {err : Bool} {s : State} : Only [.pins, .sb] s (sbAnswer err s) := Only.put_pins_sb

theorem execSidebandAccess_only {op : SbOp} {addr : Nat} {v : Word} {s : State} : OnlyR [.pins, .sb, .err, .sticky,
    .latches] s (execSidebandAccess op addr v s) := by
  unfold execSidebandAccess
  dsimp only
  repeat' (first
    | with_reducible exact Only.refl _
    | with_reducible apply onLeafEver_only
    | ((with_reducible apply Only.step readReg_only); exact rfl)
    | ((with_reducible apply Only.step sbAnswer_only); exact rfl)
    | ((with_reducible apply Only.step hostWrite_only); exact rfl)
    | intro _
    | split
    | ((with_reducible apply Only.step Only.put_pins_sb); exact rfl))

theorem execRegisterWrite_only {p : Path} {addr : Nat} {v : Word} {s : State} : OnlyR [.sticky] s (execRegisterWrite
    p addr v s) := by
  unfold execRegisterWrite
  repeat' (first
    | with_reducible exact Only.refl _
    | with_reducible apply OnlyR.next
    | ((with_reducible apply Only.step hostWrite_only); exact rfl)
    | split)

theorem readOn_only {p : Path} {addr : Nat} {s : State} : Only [.err, .latches, .out] s (readOn p addr s) := by
  unfold readOn
  dsimp only
  repeat' (first
    | with_reducible exact Only.refl _
    | ((with_reducible apply Only.step readReg_only); exact rfl)
    | ((with_reducible apply Only.step State.emit_only); exact rfl)
    | split)

theorem execLowestWordRead_only {p : Path} {addr : Nat} {s : State} : OnlyR [.err, .latches, .out] s
    (execLowestWordRead p addr s) := by
  unfold execLowestWordRead
  repeat' (first
    | with_reducible exact Only.refl _
    | with_reducible apply OnlyR.next
    | ((with_reducible apply Only.step readOn_only); exact rfl))

theorem execEvrOptRead_only {p : Path} {s : State} : OnlyR [.err, .latches, .out] s (execEvrOptRead p s) := by
  unfold execEvrOptRead
  repeat' (first
    | with_reducible exact Only.refl _
    | with_reducible apply onTray_only
    | ((with_reducible apply Only.step readOn_only); exact rfl))

theorem execWinTransientCntRead_only {p : Path} {s : State} : OnlyR [.err, .latches, .out] s
    (execWinTransientCntRead p s) := by
  unfold execWinTransientCntRead
  repeat' (first
    | with_reducible exact Only.refl _
    | with_reducible apply OnlyR.next
    | ((with_reducible apply Only.step readOn_only); exact rfl))

theorem execErrCntRead_only {p : Path} {i : Nat} {s : State} : OnlyR [.err, .latches, .out] s (execErrCntRead p i s) := by
  unfold execErrCntRead
  repeat' (first
    | with_reducible exact Only.refl _
    | with_reducible apply onTray_only
    | ((with_reducible apply Only.step readOn_only); exact rfl))

theorem putBytes_only {a : Nat} {b : Bytes} {s : State} : Only [.mem] s (putBytes a b s) := by
  unfold putBytes
  exact Only.put_mem.mono rfl

theorem State.onTally_only {s : State} {a : Nat} {f : Tally → Tally} : Only [.fab] s (State.onTally s a f) := Only.put_fab

theorem writeBack_only {t : Tally} {s : State} : Only [.mem, .chans] s (writeBack t s) := by
  unfold writeBack
  repeat' (first
    | with_reducible exact Only.refl _
    | ((with_reducible apply Only.step putBytes_only); exact rfl)
    | ((with_reducible apply Only.step State.xfer_only); exact rfl))

theorem flushTallies_only {s : State} : Only [.mem, .chans] s (flushTallies s) := by
  unfold flushTallies
  repeat' (first
    | with_reducible exact Only.refl _
    | ((with_reducible apply Only.step writeBack_only); exact rfl)
    | with_reducible apply Only.foldl
    | intro _)

theorem tallyOp_only {t : Tally} {op : FabOp} {s : State} : Only [.mem, .chans, .fab, .out] s (tallyOp t op s) := by
  unfold tallyOp
  dsimp only
  repeat' (first
    | with_reducible exact Only.refl _
    | ((with_reducible apply Only.step writeBack_only); exact rfl)
    | ((with_reducible apply Only.step flushTallies_only); exact rfl)
    | ((with_reducible apply Only.step State.onTally_only); exact rfl)
    | ((with_reducible apply Only.step State.emit_only); exact rfl)
    | intro _
    | split)

theorem logStore_only {x : StoreSeen} {s : State} : Only [.mem, .chans, .err, .fab] s (logStore x s) := by
  unfold logStore
  dsimp only
  repeat' (first
    | with_reducible exact Only.refl _
    | ((with_reducible apply Only.step putBytes_only); exact rfl)
    | ((with_reducible apply Only.step State.xfer_only); exact rfl)
    | ((with_reducible apply Only.step State.errCount_only); exact rfl)
    | split
    | ((with_reducible apply Only.step Only.put_fab); exact rfl))

theorem noteStore_only {line : Nat} {src : BitVec 16} {s : State} : Only [.mem, .chans, .err, .fab] s (noteStore
    line src s) := by
  unfold noteStore
  dsimp only
  repeat' (first
    | with_reducible exact Only.refl _
    | ((with_reducible apply Only.step logStore_only); exact rfl)
    | with_reducible apply Only.foldl
    | intro _
    | split
    | ((with_reducible apply Only.step Only.put_fab); exact rfl))

theorem plainOp_only {src : BitVec 16} {a : Nat} {op : FabOp} {s : State} : Only [.mem, .chans, .err, .fab, .out] s
    (plainOp src a op s) := by
  unfold plainOp
  dsimp only
  repeat' (first
    | with_reducible exact Only.refl _
    | ((with_reducible apply Only.step flushTallies_only); exact rfl)
    | ((with_reducible apply Only.step putBytes_only); exact rfl)
    | ((with_reducible apply Only.step noteStore_only); exact rfl)
    | ((with_reducible apply Only.step State.emit_only); exact rfl)
    | split)

theorem fabFlag_only {i : Nat} {s : State} : Only [.sticky, .raisedNow] s (fabFlag i s) := by
  unfold fabFlag
  repeat' (first
    | with_reducible exact Only.refl _
    | ((with_reducible apply Only.step State.setBit_only); exact rfl))

theorem readWindow_only {src : FabSource} {off : Nat} {s : State} : Only [.err, .sticky, .raisedNow, .latches, .out]
    s (readWindow src off s) := by
  unfold readWindow
  dsimp only
  repeat' (first
    | with_reducible exact Only.refl _
    | ((with_reducible apply Only.step readRegs_only); exact rfl)
    | ((with_reducible apply Only.step fabFlag_only); exact rfl)
    | ((with_reducible apply Only.step State.emit_only); exact rfl)
    | intro _
    | split)

theorem writeWindow_only {src : FabSource} {off : Nat} {line : Bytes} {s : State} : Only [.sticky, .raisedNow] s
    (writeWindow src off line s) := by
  unfold writeWindow
  repeat' (first
    | with_reducible exact Only.refl _
    | ((with_reducible apply Only.step fabFlag_only); exact rfl)
    | ((with_reducible apply Only.step hostWrite_only); exact rfl)
    | split)

theorem postedByFabric_only {off : Nat} {op : FabOp} {s : State} : Only [.stw] s (postedByFabric off op s) := by
  unfold postedByFabric
  dsimp only
  repeat' (first
    | with_reducible exact Only.refl _
    | split
    | ((with_reducible apply Only.step Only.put_stw); exact rfl))

theorem ownWindow_only {src : FabSource} {n off : Nat} {op : FabOp} {s : State} : Only [.mem, .chans, .err, .fab,
    .stw, .sticky, .raisedNow, .out] s (ownWindow src n off op s) := by
  unfold ownWindow
  dsimp only
  repeat' (first
    | with_reducible exact Only.refl _
    | ((with_reducible apply Only.step plainOp_only); exact rfl)
    | ((with_reducible apply Only.step postedByFabric_only); exact rfl)
    | ((with_reducible apply Only.step State.setBit_only); exact rfl)
    | ((with_reducible apply Only.step State.emit_only); exact rfl)
    | split)

theorem combine_only {src : FabSource} {f : State → State} {F : List Fld} {s s0 : State}
    (hF : [.lanes, .cap, .err, .mode, .twin, .sticky, .raisedNow, .links].all F.contains = true) (hs : Only F s0 s)
    (hf : ∀ u, Only F u (f u)) : Only F s0 (combine src f s) := by
  unfold combine
  refine byUnit_only hs fun u => Only.step unitCheck_only hF ?_
  split
  · exact Only.refl u
  · exact hf u

theorem hbmOp_only {src : FabSource} {a : Nat} {op : FabOp} {s : State} :
    Only [.lanes, .cap, .mem, .chans, .err, .fab, .mode, .twin, .sticky, .raisedNow, .out, .links] s (hbmOp src a op s) := by
  unfold hbmOp
  split
  · exact Only.step State.emit_only rfl (fabFlag_only.mono rfl)
  · split
    · exact State.emit_only.mono rfl
    · split
      · exact combine_only rfl (Only.refl s) fun _ => tallyOp_only.mono rfl
      · exact plainOp_only.mono rfl

theorem windowOp_only {src : FabSource} {off : Nat} {op : FabOp} {s : State} : Only [.lanes, .cap, .mem, .chans,
    .err, .fab, .stw, .mode, .twin, .sticky, .raisedNow, .latches, .out, .links] s (windowOp src off op s) := by
  unfold windowOp
  repeat' (first
    | with_reducible exact Only.refl _
    | ((with_reducible apply Only.step hbmOp_only); exact rfl)
    | ((with_reducible apply Only.step ownWindow_only); exact rfl)
    | ((with_reducible apply Only.step readWindow_only); exact rfl)
    | ((with_reducible apply Only.step writeWindow_only); exact rfl)
    | ((with_reducible apply Only.step fabFlag_only); exact rfl)
    | ((with_reducible apply Only.step State.emit_only); exact rfl)
    | split)

theorem fabricOp_only {src : FabSource} {op : FabOp} {s : State} : Only [.lanes, .cap, .mem, .chans, .err, .fab,
    .stw, .mode, .twin, .sticky, .raisedNow, .latches, .out, .links] s (fabricOp src op s) := by
  unfold fabricOp
  dsimp only
  repeat' (first
    | with_reducible exact Only.refl _
    | ((with_reducible apply Only.step windowOp_only); exact rfl)
    | ((with_reducible apply Only.step State.emit_only); exact rfl)
    | split
    | ((with_reducible apply Only.step Only.put_fab); exact rfl))

theorem execFabricStore_only {src : FabSource} {op : FabOp} {s : State} : OnlyR [.lanes, .cap, .mem, .chans, .err,
    .fab, .stw, .mode, .twin, .sticky, .raisedNow, .latches, .out, .links] s (execFabricStore src op s) := by
  unfold execFabricStore
  repeat' (first
    | with_reducible exact Only.refl _
    | with_reducible apply onTray_only
    | ((with_reducible apply Only.step fabricOp_only); exact rfl))

theorem execFabricFadd_only {src : FabSource} {addr : Nat} {v : BitVec 64} {s : State} : OnlyR [.lanes, .cap, .mem,
    .chans, .err, .fab, .stw, .mode, .twin, .sticky, .raisedNow, .latches, .out, .links] s (execFabricFadd src addr
    v s) := by
  unfold execFabricFadd
  repeat' (first
    | with_reducible exact Only.refl _
    | with_reducible apply onTray_only
    | ((with_reducible apply Only.step fabricOp_only); exact rfl))

theorem execTallyOperation_only {src : FabSource} {op : FabOp} {s : State} : OnlyR [.lanes, .cap, .mem, .chans,
    .err, .fab, .stw, .mode, .twin, .sticky, .raisedNow, .latches, .out, .links] s (execTallyOperation src op s) := by
  unfold execTallyOperation
  repeat' (first
    | with_reducible exact Only.refl _
    | with_reducible apply onTray_only
    | ((with_reducible apply Only.step fabricOp_only); exact rfl))

theorem execTallyWriteback_only {line : Nat} {s : State} : OnlyR [.mem, .chans] s (execTallyWriteback line s) := by
  unfold execTallyWriteback
  repeat' (first
    | with_reducible exact Only.refl _
    | with_reducible apply onTray_only
    | ((with_reducible apply Only.step writeBack_only); exact rfl)
    | intro _
    | split)

theorem execRegWindowRead_only {src : FabSource} {offset : Nat} {s : State} : OnlyR [.err, .sticky, .raisedNow,
    .latches, .out] s (execRegWindowRead src offset s) := by
  unfold execRegWindowRead
  repeat' (first
    | with_reducible exact Only.refl _
    | with_reducible apply onTray_only
    | ((with_reducible apply Only.step readWindow_only); exact rfl))

theorem execRegWindowWrite_only {src : FabSource} {offset : Nat} {line : Bytes} {s : State} : OnlyR [.sticky,
    .raisedNow] s (execRegWindowWrite src offset line s) := by
  unfold execRegWindowWrite
  repeat' (first
    | with_reducible exact Only.refl _
    | with_reducible apply onTray_only
    | ((with_reducible apply Only.step writeWindow_only); exact rfl))

theorem drawLines_only {n : Nat} {s : State} : Only [.hfAllow] s (drawLines n s) := by
  unfold drawLines
  repeat' (first
    | with_reducible exact Only.refl _
    | split
    | ((with_reducible apply Only.step Only.put_hfAllow); exact rfl))

theorem State.storeOut_only {s : State} {ctx addr : Nat} {lines : Bytes} {flag : BitVec 64} : Only [.hfAllow,
    .lanes, .out] s (State.storeOut s ctx addr lines flag) := by
  unfold State.storeOut
  repeat' (first
    | with_reducible exact Only.refl _
    | ((with_reducible apply Only.step State.issue_only); exact rfl)
    | ((with_reducible apply Only.step State.emits_only); exact rfl)
    | ((with_reducible apply Only.step drawLines_only); exact rfl)
    | intro _
    | split)

theorem writeEntry_only {n : Nat} {c : Cmd} {s : State} : Only [.hfAllow, .lanes, .stw, .out] s (writeEntry n c s) := by
  unfold writeEntry
  dsimp only
  repeat' (first
    | with_reducible exact Only.refl _
    | ((with_reducible apply Only.step State.storeOut_only); exact rfl)
    | ((with_reducible apply Only.step State.onMbx_only); exact rfl)
    | ((with_reducible apply Only.step State.emit_only); exact rfl)
    | intro _
    | split)

theorem finish_only {n : Nat} {c : Cmd} {status : Nat} {result : Bytes} {s : State} : Only [.hfAllow, .lanes, .stw,
    .out] s (finish n c status result s) := by
  unfold finish
  repeat' (first
    | with_reducible exact Only.refl _
    | ((with_reducible apply Only.step State.onMbx_only); exact rfl)
    | ((with_reducible apply Only.step writeEntry_only); exact rfl))

theorem fail_only {n : Nat} {c : Cmd} {status : Nat} {s : State} : Only [.hfAllow, .lanes, .stw, .out] s (fail n c
    status s) := by
  unfold fail
  repeat' (first
    | with_reducible exact Only.refl _
    | ((with_reducible apply Only.step finish_only); exact rfl))

theorem wait_only {n : Nat} {c : Cmd} {w : Wait} {s : State} : Only [.hfAllow, .lanes, .stw, .out] s (wait n c w s) := by
  unfold wait
  dsimp only
  repeat' (first
    | with_reducible exact Only.refl _
    | ((with_reducible apply Only.step State.onMbx_only); exact rfl)
    | ((with_reducible apply Only.step writeEntry_only); exact rfl))

theorem progress_only {n : Nat} {c : Cmd} {s : State} : Only [.hfAllow, .lanes, .stw, .out] s (progress n c s) := by
  unfold progress
  repeat' (first
    | with_reducible exact Only.refl _
    | ((with_reducible apply Only.step State.onMbx_only); exact rfl)
    | ((with_reducible apply Only.step writeEntry_only); exact rfl))

theorem done_only {n : Nat} {c : Cmd} {result : Bytes} {s : State} : Only [.hfAllow, .lanes, .stw, .out] s (done n c
    result s) := by
  unfold done
  repeat' (first
    | with_reducible exact Only.refl _
    | ((with_reducible apply Only.step finish_only); exact rfl))

theorem relay_only {n : Nat} {c : Cmd} {b : Nat} {image : Bytes} {s : State} : Only [.lanes] s (relay n c b image s) := by
  unfold relay
  repeat' (first
    | with_reducible exact Only.refl _
    | ((with_reducible apply Only.step State.sendMsg_only); exact rfl)
    | split)

theorem relayFleet_only {n : Nat} {c : Cmd} {b : Nat} {s : State} : Only [.lanes] s (relayFleet n c b s) := by
  unfold relayFleet
  repeat' (first
    | with_reducible exact Only.refl _
    | ((with_reducible apply Only.step State.sendMsgAll_only); exact rfl)
    | split)

theorem queueBnd_only {b turn : Nat} {a : Bnd} {team : Bool} {s : State} : Only [.stw] s (queueBnd b turn a team s) := Only.put_stw

theorem bndAt_only {b n : Nat} {c : Cmd} {short team : Bool} {a : Bnd} {image rest : Bytes} {s : State} : Only
    [.hfAllow, .lanes, .stw, .out] s (bndAt b n c short team a image rest s) := by
  unfold bndAt
  dsimp only
  repeat' (first
    | with_reducible exact Only.refl _
    | ((with_reducible apply Only.step relayFleet_only); exact rfl)
    | ((with_reducible apply Only.step relay_only); exact rfl)
    | ((with_reducible apply Only.step wait_only); exact rfl)
    | ((with_reducible apply Only.step finish_only); exact rfl)
    | ((with_reducible apply Only.step queueBnd_only); exact rfl)
    | split)

theorem bndDone_only {n : Nat} {c : Cmd} {short team : Bool} {a : Bnd} {image rest : Bytes} {s : State} : Only
    [.hfAllow, .lanes, .stw, .out] s (bndDone n c short team a image rest s) := by
  unfold bndDone
  repeat' (first
    | with_reducible exact Only.refl _
    | ((with_reducible apply Only.step bndAt_only); exact rfl))

theorem teamDone_only {n : Nat} {c : Cmd} {image rest : Bytes} {s : State} : Only [.hfAllow, .lanes, .stw, .out] s
    (teamDone n c image rest s) := by
  unfold teamDone
  repeat' (first
    | with_reducible exact Only.refl _
    | ((with_reducible apply Only.step relay_only); exact rfl)
    | ((with_reducible apply Only.step wait_only); exact rfl)
    | ((with_reducible apply Only.step finish_only); exact rfl)
    | split)

theorem issueArm_only {n : Nat} {c : Cmd} {kind : Nat} {aon : Bool} {epochT : Nat} {arg : BitVec 128} {ctx : Nat}
    {gen : BitVec 16} {arg2 : BitVec 32} {setup : BitVec 64} {s : State} : Only [.hfAllow, .lanes, .red, .stop,
    .stw, .out] s (issueArm n c kind aon epochT arg ctx gen arg2 setup s) := by
  unfold issueArm
  dsimp only
  repeat' (first
    | with_reducible exact Only.refl _
    | ((with_reducible apply Only.step originate_only); exact rfl)
    | ((with_reducible apply Only.step wait_only); exact rfl)
    | ((with_reducible apply Only.step finish_only); exact rfl)
    | split)

theorem twoPhase_only {n : Nat} {c : Cmd} {kind : Nat} {aon : Bool} {epochT : Nat} {arg : BitVec 128} {ctx : Nat}
    {gen : BitVec 16} {arg2 : BitVec 32} {setup : BitVec 64} {s : State} : Only [.hfAllow, .lanes, .red, .stop,
    .stw, .out] s (twoPhase n c kind aon epochT arg ctx gen arg2 setup s) := by
  unfold twoPhase
  repeat' (first
    | with_reducible exact Only.refl _
    | ((with_reducible apply Only.step fail_only); exact rfl)
    | ((with_reducible apply Only.step issueArm_only); exact rfl)
    | split)

theorem setWaiting_only {n : Nat} {old : Cmd} {new : Option Cmd} {s : State} : Only [.stw] s (setWaiting n old new
    s) := by
  unfold setWaiting
  repeat' (first
    | with_reducible exact Only.refl _
    | ((with_reducible apply Only.step State.onMbx_only); exact rfl))

theorem endWaiting_only {n : Nat} {c : Cmd} {state status : Nat} {s : State} : Only [.hfAllow, .lanes, .stw, .out] s
    (endWaiting n c state status s) := by
  unfold endWaiting
  repeat' (first
    | with_reducible exact Only.refl _
    | ((with_reducible apply Only.step setWaiting_only); exact rfl)
    | ((with_reducible apply Only.step writeEntry_only); exact rfl))

theorem armedProgress_only {n : Nat} {c : Cmd} {id : BitVec 64} {s : State} : Only [.hfAllow, .lanes, .stw, .out] s
    (armedProgress n c id s) := by
  unfold armedProgress
  dsimp only
  repeat' (first
    | with_reducible exact Only.refl _
    | ((with_reducible apply Only.step setWaiting_only); exact rfl)
    | ((with_reducible apply Only.step endWaiting_only); exact rfl)
    | ((with_reducible apply Only.step writeEntry_only); exact rfl)
    | split)

theorem waitProgress_only {n : Nat} {c : Cmd} {s : State} : Only [.hfAllow, .lanes, .stw, .out] s (waitProgress n c
    s) := by
  unfold waitProgress
  dsimp only
  repeat' (first
    | with_reducible exact Only.refl _
    | ((with_reducible apply Only.step endWaiting_only); exact rfl)
    | ((with_reducible apply Only.step armedProgress_only); exact rfl)
    | intro _
    | split)

theorem progressAll_only {n : Nat} {s : State} : Only [.hfAllow, .lanes, .stw, .out] s (progressAll n s) := by
  unfold progressAll
  repeat' (first
    | with_reducible exact Only.refl _
    | ((with_reducible apply Only.step waitProgress_only); exact rfl)
    | with_reducible apply Only.foldl
    | intro _
    | split)

theorem mbxNoReturn_only {s : State} : Only [.sticky, .raisedNow] s (mbxNoReturn s) := by
  unfold mbxNoReturn
  repeat' (first
    | with_reducible exact Only.refl _
    | ((with_reducible apply Only.step State.setBit_only); exact rfl))

theorem takeSlot_only {n : Nat} {m : Mbx} {b : Bytes} {s : State} : Only [.hfAllow, .lanes, .stw, .sticky,
    .raisedNow, .out] s (takeSlot n m b s) := by
  unfold takeSlot
  dsimp only
  repeat' (first
    | with_reducible exact Only.refl _
    | ((with_reducible apply Only.step mbxNoReturn_only); exact rfl)
    | ((with_reducible apply Only.step State.setBit_only); exact rfl)
    | ((with_reducible apply Only.step State.onMbx_only); exact rfl)
    | ((with_reducible apply Only.step writeEntry_only); exact rfl)
    | intro _
    | split)

theorem readSlot_only {n : Nat} {m : Mbx} {host : HostView} {s : State} : Only [.hfAllow, .lanes, .cap, .stw,
    .sticky, .raisedNow, .out] s (readSlot n m host s) := by
  unfold readSlot
  repeat' (first
    | with_reducible exact Only.refl _
    | ((with_reducible apply Only.step takeSlot_only); exact rfl)
    | ((with_reducible apply Only.step hostFaults_only); exact rfl)
    | ((with_reducible apply Only.step drawLines_only); exact rfl)
    | split)

theorem turnPass_only {n : Nat} {host : HostView} {s : State} : Only [.hfAllow, .lanes, .cap, .stw, .sticky,
    .raisedNow, .out] s (turnPass n host s) := by
  unfold turnPass
  repeat' (first
    | with_reducible exact Only.refl _
    | ((with_reducible apply Only.step readSlot_only); exact rfl)
    | split)

theorem turnPasses_only {n : Nat} {host : HostView} {k : Nat} {s : State} :
    Only [.hfAllow, .lanes, .cap, .stw, .sticky, .raisedNow, .out] s (turnPasses n host k s) := by
  induction k generalizing s with
  | zero => exact Only.refl s
  | succ k ih =>
    unfold turnPasses
    split
    · exact (turnPass_only.mono rfl).trans ih
    · exact turnPass_only.mono rfl

theorem execMailboxTurn_only {begins : Bool} {passes : Nat} {host : HostView} {s : State} : OnlyR [.hfAllow, .lanes,
    .cap, .stw, .sticky, .raisedNow, .out] s (execMailboxTurn begins passes host s) := by
  unfold execMailboxTurn
  dsimp only
  repeat' (first
    | with_reducible exact Only.refl _
    | with_reducible apply OnlyR.next
    | ((with_reducible apply Only.step turnPasses_only); exact rfl)
    | ((with_reducible apply Only.step progressAll_only); exact rfl)
    | split
    | ((with_reducible apply Only.step Only.put_stw); exact rfl))

theorem partialAll_only {n status : Nat} {s : State} : Only [.hfAllow, .lanes, .stw, .out] s (partialAll n status s) := by
  unfold partialAll
  dsimp only
  repeat' (first
    | with_reducible exact Only.refl _
    | ((with_reducible apply Only.step State.onMbx_only); exact rfl)
    | ((with_reducible apply Only.step writeEntry_only); exact rfl)
    | with_reducible apply Only.foldl
    | intro _
    | split)

theorem execMgmtDatagram_only {source : NetSource} {payload : Bytes} {s : State} : OnlyR [.mem, .stw, .sticky,
    .raisedNow] s (execMgmtDatagram source payload s) := by
  unfold execMgmtDatagram
  dsimp only
  repeat' (first
    | with_reducible exact Only.refl _
    | with_reducible apply onTray_only
    | ((with_reducible apply Only.step putBytes_only); exact rfl)
    | ((with_reducible apply Only.step State.setBit_only); exact rfl)
    | intro _
    | split
    | ((with_reducible apply Only.step Only.put_stw); exact rfl))

theorem execStatusPageWrite_only {s : State} : OnlyR [.hfAllow, .lanes, .out] s (execStatusPageWrite s) := by
  unfold execStatusPageWrite
  dsimp only
  repeat' (first
    | with_reducible exact Only.refl _
    | with_reducible apply OnlyR.next
    | ((with_reducible apply Only.step State.storeOut_only); exact rfl)
    | with_reducible apply Only.foldl
    | intro _
    | split)

theorem execHotRowInstall_only {table row : Nat} {s : State} : OnlyR [.mem, .chans] s (execHotRowInstall table row
    s) := by
  unfold execHotRowInstall
  dsimp only
  repeat' (first
    | with_reducible exact Only.refl _
    | with_reducible apply onTray_only
    | ((with_reducible apply Only.step State.xfer_only); exact rfl)
    | with_reducible apply Only.elim
    | intro _
    | split
    | ((with_reducible apply Only.step Only.put_mem); exact rfl))

theorem execDeepInstall_only {model row : Nat} {s : State} : OnlyR [.mem, .chans, .sticky, .raisedNow] s
    (execDeepInstall model row s) := by
  unfold execDeepInstall
  dsimp only
  repeat' (first
    | with_reducible exact Only.refl _
    | with_reducible apply onTray_only
    | ((with_reducible apply Only.step State.xfer_only); exact rfl)
    | ((with_reducible apply Only.step repeatCopy_only); exact rfl)
    | intro _
    | split
    | ((with_reducible apply Only.step Only.put_mem); exact rfl))

theorem noteRead_only {model : Nat} {rd : LaneRead} {s : State} : Only [.lanes, .cap, .red, .mem, .raw, .err,
    .sticky, .raisedNow] s (noteRead model rd s) := by
  unfold noteRead
  dsimp only
  repeat' (first
    | with_reducible exact Only.refl _
    | ((with_reducible apply Only.step correctedRow_only); exact rfl)
    | ((with_reducible apply Only.step State.countHealth_only); exact rfl)
    | ((with_reducible apply Only.step hbmRead_only); exact rfl)
    | ((with_reducible apply Only.step State.count_only); exact rfl)
    | ((with_reducible apply Only.step State.setBit_only); exact rfl)
    | ((with_reducible apply Only.step State.errCount_only); exact rfl)
    | ((with_reducible apply Only.step State.errBit_only); exact rfl)
    | split)

theorem stopJob_only {ctx model : Nat} {row : Option (Nat × Nat)} {k : Nat} {s : State} : Only [.ctxs, .mem] s
    (stopJob ctx model row k s) := by
  unfold stopJob
  dsimp only
  repeat' (first
    | with_reducible exact Only.refl _
    | ((with_reducible apply Only.step State.onCtx_only); exact rfl)
    | intro _
    | split
    | ((with_reducible apply Only.step Only.put_mem); exact rfl))

theorem putJob_only {j : ScoreJob} {s : State} : Only [.mem] s (putJob j s) := Only.put_mem

theorem afterRead_only {h : HeldModel} {j : ScoreJob} {line : Option Nat} {k : Nat} {s : State} : Only [.ctxs, .mem]
    s (afterRead h j line k s) := by
  unfold afterRead
  dsimp only
  repeat' (first
    | with_reducible exact Only.refl _
    | ((with_reducible apply Only.step stopJob_only); exact rfl)
    | split)

theorem readTrees_only {m : Model} {t : Table} {row : Nat} {ts : List Nat} {rd : LaneRead} {s : State} : Only
    [.chans] s (readTrees m t row ts rd s) := by
  unfold readTrees
  dsimp only
  repeat' (first
    | with_reducible exact Only.refl _
    | ((with_reducible apply Only.step State.xfer_only); exact rfl)
    | ((with_reducible apply Only.step State.stripe_only); exact rfl)
    | split)

theorem streamTrees_only {m : Model} {lane : Nat} {ts : List Nat} {s : State} : Only [.mem] s (streamTrees m lane ts
    s) := by
  unfold streamTrees
  dsimp only
  repeat' (first
    | with_reducible exact Only.refl _
    | intro _
    | split
    | ((with_reducible apply Only.step Only.put_mem); exact rfl))

theorem slotStart_only {model row k : Nat} {check : CheckOutcome} {rd : LaneRead} {s t : State} {j : ScoreJob}
    (h : slotStart model row k check rd s = some (j, t)) :
    Only [.lanes, .cap, .ctxs, .red, .mem, .chans, .raw, .err, .sticky, .raisedNow] s t := by
  unfold slotStart at h
  dsimp only at h
  repeat' split at h
  all_goals cases h
  all_goals
    refine Only.step afterRead_only rfl ?_
    first
      | exact Only.step readTrees_only rfl (noteRead_only.mono rfl)
      | exact Only.step State.setBit_only rfl (Only.step readTrees_only rfl (noteRead_only.mono rfl))

theorem deepSlice_only {model row k : Nat} {check : CheckOutcome} {rd : LaneRead} {s : State} : Only [.lanes, .cap,
    .ctxs, .red, .mem, .chans, .raw, .err, .sticky, .raisedNow] s (deepSlice model row k check rd s) := by
  unfold deepSlice
  dsimp only
  repeat' (first
    | with_reducible exact Only.refl _
    | ((with_reducible apply Only.step streamTrees_only); exact rfl)
    | ((with_reducible apply Only.step State.onJob_only); exact rfl)
    | ((with_reducible apply Only.step noteRead_only); exact rfl)
    | ((with_reducible apply Only.step afterRead_only); exact rfl)
    | ((with_reducible apply Only.step readTrees_only); exact rfl)
    | ((with_reducible apply Only.step putJob_only); exact rfl)
    | with_reducible apply Only.foldl
    | intro _
    | split)

theorem execScoreStart_only {model row epoch : Nat} {check : CheckOutcome} {read : LaneRead} {s : State} :
    OnlyR [.lanes, .cap, .ctxs, .red, .mem, .chans, .raw, .err, .mode, .twin, .sticky, .raisedNow, .links] s
      (execScoreStart model row epoch check read s) := by
  refine onTray_only (byUnit_only (Only.refl s) fun u => ?_)
  split
  · next h => exact Only.step unitCheck_only rfl (Only.step putJob_only rfl ((slotStart_only h).mono rfl))
  · split
    · exact Only.step unitCheck_only rfl (deepSlice_only.mono rfl)
    · exact Only.refl u

theorem countVerdict_only {j : ScoreJob} {b : Bytes} {s : State} : Only [.red] s (countVerdict j b s) := by
  unfold countVerdict
  repeat' (first
    | with_reducible exact Only.refl _
    | ((with_reducible apply Only.step State.onSheaf_only); exact rfl)
    | with_reducible apply Only.foldl
    | intro _
    | split)

theorem countFinished_only {ctx k : Nat} {s : State} : Only [.red] s (countFinished ctx k s) := by
  unfold countFinished
  repeat' (first
    | with_reducible exact Only.refl _
    | ((with_reducible apply Only.step countVerdict_only); exact rfl)
    | with_reducible apply Only.foldl
    | with_reducible apply Only.elim
    | intro _)

theorem refreshActions_only {b : Nat} {s : State} : Only [.mem] s (refreshActions b s) := by
  unfold refreshActions
  dsimp only
  repeat' (first
    | with_reducible exact Only.refl _
    | intro _
    | split
    | ((with_reducible apply Only.step Only.put_mem); exact rfl))

theorem discardJob_only {j : ScoreJob} {s : State} : Only [.ctxs, .mem, .err] s (discardJob j s) := by
  unfold discardJob
  dsimp only
  repeat' (first
    | with_reducible exact Only.refl _
    | ((with_reducible apply Only.step State.errCount_only); exact rfl)
    | ((with_reducible apply Only.step State.onCtx_only); exact rfl)
    | intro _
    | split
    | ((with_reducible apply Only.step Only.put_mem); exact rfl))

theorem execScoreComplete_only {model row : Nat} {x : ScoreEnd} {s : State} : OnlyR [.lanes, .cap, .ctxs, .red,
    .mem, .err, .mode, .twin, .sticky, .raisedNow, .links] s (execScoreComplete model row x s) := by
  unfold execScoreComplete
  dsimp only
  repeat' (first
    | with_reducible exact Only.refl _
    | with_reducible apply onTray_only
    | ((with_reducible apply Only.step unitCheck_only); exact rfl)
    | ((with_reducible apply Only.step discardJob_only); exact rfl)
    | ((with_reducible apply Only.step countVerdict_only); exact rfl)
    | ((with_reducible apply Only.step State.onJob_only); exact rfl)
    | ((with_reducible apply Only.step resumeForwards_only); exact rfl)
    | ((with_reducible apply Only.step refreshVerdicts_only); exact rfl)
    | with_reducible apply byUnit_only
    | intro _
    | split
    | ((with_reducible apply Only.step Only.put_mem); exact rfl))

theorem execWinLate_only {s : State} : OnlyR [.sticky, .raisedNow] s (execWinLate s) := by
  unfold execWinLate
  dsimp only
  repeat' (first
    | with_reducible exact Only.refl _
    | with_reducible apply OnlyR.next
    | ((with_reducible apply Only.step State.setBit_only); exact rfl)
    | intro _
    | split)

theorem sendLeafVerdicts_only {ctx k : Nat} {s : State} : Only [.lanes, .trc, .mem] s (sendLeafVerdicts ctx k s) := by
  unfold sendLeafVerdicts
  dsimp only
  repeat' (first
    | with_reducible exact Only.refl _
    | ((with_reducible apply Only.step State.sendNumbered_only); exact rfl)
    | with_reducible apply Only.foldl
    | intro _
    | split
    | ((with_reducible apply Only.step Only.put_mem); exact rfl))

theorem keepLeafVerdict_only {j : ScoreJob} {b : Bytes} {s : State} : Only [.mem] s (keepLeafVerdict j b s) := by
  unfold keepLeafVerdict
  dsimp only
  repeat' (first
    | with_reducible exact Only.refl _
    | intro _
    | split
    | ((with_reducible apply Only.step Only.put_mem); exact rfl))

theorem execLeafModelScore_only {model row epoch : Nat} {check : CheckOutcome} {read : LaneRead} {s : State} :
    OnlyR [.lanes, .cap, .ctxs, .red, .trc, .mem, .chans, .raw, .err, .mode, .twin, .sticky, .raisedNow, .links] s
      (execLeafModelScore model row epoch check read s) := by
  refine onLeaf_only (byUnit_only (Only.refl s) fun u => ?_)
  dsimp only
  repeat' (first
    | with_reducible exact Only.refl _
    | ((with_reducible apply Only.step sendLeafVerdicts_only); exact rfl)
    | ((with_reducible apply Only.step keepLeafVerdict_only); exact rfl)
    | ((with_reducible apply Only.step unitCheck_only); exact rfl)
    | ((with_reducible apply Only.step putJob_only); exact rfl)
    | ((with_reducible apply Only.step State.onTable_only); exact rfl)
    | exact (slotStart_only ‹_›).mono rfl
    | split)

theorem State.putDie_only {s : State} {x : Die} : Only [.act] s (State.putDie s x) := Only.put_act

theorem grantStep_only {k : Nat} {s : State} : Only [.lanes, .act, .sticky, .raisedNow] s (grantStep k s) := by
  unfold grantStep
  dsimp only
  repeat' (first
    | with_reducible exact Only.refl _
    | ((with_reducible apply Only.step State.sendCtlAll_only); exact rfl)
    | ((with_reducible apply Only.step State.setBit_only); exact rfl)
    | ((with_reducible apply Only.step State.putDie_only); exact rfl)
    | with_reducible apply Only.foldl
    | intro _
    | split
    | ((with_reducible apply Only.step Only.put_act); exact rfl))

theorem execGrantStep_only {s : State} : OnlyR [.lanes, .act, .evr, .sticky, .raisedNow] s (execGrantStep s) := by
  unfold execGrantStep
  dsimp only
  repeat' (first
    | with_reducible exact Only.refl _
    | with_reducible apply onTray_only
    | ((with_reducible apply Only.step grantStep_only); exact rfl)
    | ((with_reducible apply Only.step State.setBit_only); exact rfl)
    | intro _
    | split
    | ((with_reducible apply Only.step Only.put_evr); exact rfl))

theorem execGrantLate_only {s : State} : OnlyR [.sticky, .raisedNow] s (execGrantLate s) := by
  unfold execGrantLate
  repeat' (first
    | with_reducible exact Only.refl _
    | with_reducible apply onTray_only
    | ((with_reducible apply Only.step State.setBit_only); exact rfl)
    | intro _
    | split)

theorem sendSafeGrants_only {k : Nat} {s : State} : Only [.lanes] s (sendSafeGrants k s) := by
  unfold sendSafeGrants
  dsimp only
  repeat' (first
    | with_reducible exact Only.refl _
    | ((with_reducible apply Only.step State.sendCtlAll_only); exact rfl)
    | intro _
    | split)

theorem leaveSafe_only {bHold : Nat} {s : State} : Only [.act] s (leaveSafe bHold s) := by
  unfold leaveSafe
  dsimp only
  repeat' (first
    | with_reducible exact Only.refl _
    | intro _
    | split
    | ((with_reducible apply Only.step Only.put_act); exact rfl))

theorem takeGrant_only {live safe : Bool} {epoch : BitVec 32} {w : BitVec 16} {s : State} : Only [.pins, .grant] s (takeGrant live safe epoch w s) := Only.put_pins_grant

theorem execGrant_only {lane : Nat} {msg : Bytes} {s : State} : OnlyR [.pins, .grant, .inbox] s (execGrant lane msg
    s) := by
  unfold execGrant
  dsimp only
  repeat' (first
    | with_reducible exact Only.refl _
    | with_reducible apply onLeaf_only
    | ((with_reducible apply Only.step State.taken_only); exact rfl)
    | ((with_reducible apply Only.step takeGrant_only); exact rfl)
    | intro _
    | split)

theorem execGrantOffer_only {floor : BitVec 16} {s : State} : OnlyR [.pins, .cap, .grant] s (execGrantOffer floor s) := by
  unfold execGrantOffer
  dsimp only
  repeat' (first
    | with_reducible exact Only.refl _
    | with_reducible apply onLeaf_only
    | ((with_reducible apply Only.step State.countHealth_only); exact rfl)
    | intro _
    | split
    | ((with_reducible apply Only.step Only.put_pins_grant); exact rfl))

theorem execPgAck_only {s : State} : OnlyR [.pins, .grant] s (execPgAck s) := by
  unfold execPgAck
  dsimp only
  repeat' (first
    | with_reducible exact Only.refl _
    | with_reducible apply onLeaf_only
    | intro _
    | split
    | ((with_reducible apply Only.step Only.put_pins_grant); exact rfl))

theorem execGrantNoAck_only {s : State} : OnlyR [.cap, .grant, .sticky, .raisedNow] s (execGrantNoAck s) := by
  unfold execGrantNoAck
  dsimp only
  repeat' (first
    | with_reducible exact Only.refl _
    | with_reducible apply onLeaf_only
    | ((with_reducible apply Only.step State.countHealth_only); exact rfl)
    | ((with_reducible apply Only.step State.setBit_only); exact rfl)
    | intro _
    | split
    | ((with_reducible apply Only.step Only.put_grant); exact rfl))

theorem execGrantStale_only {s : State} : OnlyR [.pins] s (execGrantStale s) := by
  unfold execGrantStale
  dsimp only
  repeat' (first
    | with_reducible exact Only.refl _
    | with_reducible apply onLeaf_only
    | intro _
    | split
    | ((with_reducible apply Only.step Only.put_pins); exact rfl))

theorem countGrantBoundary_only {s : State} : Only [.grant] s (countGrantBoundary s) := Only.put_grant

theorem State.putConv_only {s : State} {x : Conv} : Only [.act] s (State.putConv s x) := Only.put_act

theorem convFail_only {c : Nat} {s : State} : Only [.act, .sticky, .raisedNow] s (convFail c s) := by
  unfold convFail
  dsimp only
  repeat' (first
    | with_reducible exact Only.refl _
    | ((with_reducible apply Only.step State.setBit_only); exact rfl)
    | ((with_reducible apply Only.step State.putConv_only); exact rfl))

theorem takeIout_only {l : List (Nat × PmbRead)} {s : State} : Only [.act, .sticky, .raisedNow] s (takeIout l s) := by
  unfold takeIout
  dsimp only
  repeat' (first
    | with_reducible exact Only.refl _
    | ((with_reducible apply Only.step convFail_only); exact rfl)
    | ((with_reducible apply Only.step State.putConv_only); exact rfl)
    | with_reducible apply Only.foldl
    | intro _
    | split)

theorem takeVin_only {l : List (Nat × PmbRead)} {s : State} : Only [.act, .sticky, .raisedNow] s (takeVin l s) := by
  unfold takeVin
  dsimp only
  repeat' (first
    | with_reducible exact Only.refl _
    | ((with_reducible apply Only.step convFail_only); exact rfl)
    | ((with_reducible apply Only.step State.putConv_only); exact rfl)
    | with_reducible apply Only.foldl
    | intro _
    | split)

theorem issueReads_only {i : LoopIn} {s : State} : Only [.act, .sticky, .raisedNow, .out] s (issueReads i s) := by
  unfold issueReads
  dsimp only
  repeat' (first
    | with_reducible exact Only.refl _
    | ((with_reducible apply Only.step takeIout_only); exact rfl)
    | ((with_reducible apply Only.step takeVin_only); exact rfl)
    | ((with_reducible apply Only.step State.emits_only); exact rfl))

theorem takeReadings_only {l : List (Nat × PmbRead)} {s : State} : Only [.act, .sticky, .raisedNow] s (takeReadings
    l s) := by
  unfold takeReadings
  repeat' (first
    | with_reducible exact Only.refl _
    | ((with_reducible apply Only.step takeIout_only); exact rfl))

theorem countRead_only {tOut : Option Int} {s : State} : Only [.act, .sticky, .raisedNow] s (countRead tOut s) := by
  unfold countRead
  dsimp only
  repeat' (first
    | with_reducible exact Only.refl _
    | ((with_reducible apply Only.step State.setBit_only); exact rfl)
    | split
    | ((with_reducible apply Only.step Only.put_act); exact rfl))

theorem loopStep_only {m v i : Nat} {lost : Bool} {tOut : Option Int} {s : State} : Only [.act, .sticky, .raisedNow]
    s (loopStep m v i lost tOut s) := by
  unfold loopStep
  dsimp only
  repeat' (first
    | with_reducible exact Only.refl _
    | ((with_reducible apply Only.step countRead_only); exact rfl)
    | split
    | ((with_reducible apply Only.step Only.put_act); exact rfl))

theorem nextSettings_only {s : State} : Only [.act] s (nextSettings s) := by
  unfold nextSettings
  dsimp only
  repeat' (first
    | with_reducible exact Only.refl _
    | split
    | ((with_reducible apply Only.step Only.put_act); exact rfl))

theorem firstStep_only {s : State} : Only [.act] s (firstStep s) := by
  unfold firstStep
  repeat' (first
    | with_reducible exact Only.refl _
    | ((with_reducible apply Only.step leaveSafe_only); exact rfl)
    | split)

theorem masterStep_only {m : Nat} {i : LoopIn} {s : State} : Only [.lanes, .act, .sticky, .raisedNow, .out] s
    (masterStep m i s) := by
  unfold masterStep
  dsimp only
  repeat' (first
    | with_reducible exact Only.refl _
    | ((with_reducible apply Only.step loopStep_only); exact rfl)
    | ((with_reducible apply Only.step State.sendMsgAll_only); exact rfl)
    | ((with_reducible apply Only.step issueReads_only); exact rfl)
    | ((with_reducible apply Only.step firstStep_only); exact rfl)
    | split)

theorem execLoopPeriod_only {i : LoopIn} {s : State} : OnlyR [.lanes, .act, .evr, .sticky, .raisedNow, .out] s
    (execLoopPeriod i s) := by
  unfold execLoopPeriod
  dsimp only
  repeat' (first
    | with_reducible exact Only.refl _
    | with_reducible apply onTray_only
    | ((with_reducible apply Only.step loopStep_only); exact rfl)
    | ((with_reducible apply Only.step State.metrics_only); exact rfl)
    | ((with_reducible apply Only.step takeReadings_only); exact rfl)
    | ((with_reducible apply Only.step masterStep_only); exact rfl)
    | ((with_reducible apply Only.step nextSettings_only); exact rfl)
    | ((with_reducible apply Only.step firstStep_only); exact rfl)
    | intro _
    | split
    | ((with_reducible apply Only.step Only.put_act); exact rfl))

theorem applyLoop_only {k : Nat} {t : Ticks} {s : State} : Only [.pins, .act] s (applyLoop k t s) := by
  unfold applyLoop
  dsimp only
  repeat' (first
    | with_reducible exact Only.refl _
    | intro _
    | split
    | ((with_reducible apply Only.step Only.put_pins_act); exact rfl))

theorem execLoopMasterTakeover_only {s : State} : OnlyR [.act] s (execLoopMasterTakeover s) := by
  unfold execLoopMasterTakeover
  dsimp only
  repeat' (first
    | with_reducible exact Only.refl _
    | with_reducible apply onTray_only
    | intro _
    | split
    | ((with_reducible apply Only.step Only.put_act); exact rfl))

theorem execV42Stb_only {v i : BitVec 16} {s : State} : OnlyR [.act] s (execV42Stb v i s) := by
  unfold execV42Stb
  dsimp only
  repeat' (first
    | with_reducible exact Only.refl _
    | with_reducible apply onTray_only
    | intro _
    | ((with_reducible apply Only.step Only.put_act); exact rfl))

theorem execBusSenseLost_only {s : State} : OnlyR [.sticky, .raisedNow] s (execBusSenseLost s) := by
  unfold execBusSenseLost
  repeat' (first
    | with_reducible exact Only.refl _
    | with_reducible apply onTray_only
    | ((with_reducible apply Only.step State.setBit_only); exact rfl)
    | intro _
    | split)

theorem execConverterLimitWrite_only {c : Nat} {acks : PmbWrite} {s : State} : OnlyR [.act, .sticky, .raisedNow,
    .out] s (execConverterLimitWrite c acks s) := by
  unfold execConverterLimitWrite
  dsimp only
  repeat' (first
    | with_reducible exact Only.refl _
    | with_reducible apply onTray_only
    | ((with_reducible apply Only.step convFail_only); exact rfl)
    | ((with_reducible apply Only.step State.putConv_only); exact rfl)
    | ((with_reducible apply Only.step State.emits_only); exact rfl)
    | intro _
    | split)

theorem execSmbAlert_only {s : State} : OnlyR [.act] s (execSmbAlert s) := by
  unfold execSmbAlert
  dsimp only
  repeat' (first
    | with_reducible exact Only.refl _
    | with_reducible apply onTray_only
    | intro _
    | ((with_reducible apply Only.step Only.put_act); exact rfl))

end Sys2Proof.Machine
end

section
/-!
SUPPORT. What each operation and command may touch: mailbox commands and the recorder.
-/

namespace Sys2Proof.Machine

set_option Elab.async false

theorem checked_only {n : Nat} {c : Cmd} {e : Option Nat} {f : State → State} {F : List Fld} {s s0 : State}
    (hF : [.hfAllow, .lanes, .stw, .out].all F.contains = true) (hs : Only F s0 s) (hf : ∀ u, Only F u (f u)) :
    Only F s0 (checked n c e f s) := by
  unfold checked
  split
  · exact Only.step fail_only hF hs
  · exact hs.trans (hf _)

theorem execMbxAttach_only {m : Nat} {s : State} : OnlyR [.hfAllow, .lanes, .stw, .sticky, .raisedNow, .out] s
    (execMbxAttach m s) := by
  unfold execMbxAttach
  dsimp only
  repeat' (first
    | with_reducible exact Only.refl _
    | with_reducible apply onTray_only
    | ((with_reducible apply Only.step fail_only); exact rfl)
    | ((with_reducible apply Only.step done_only); exact rfl)
    | ((with_reducible apply Only.step mbxNoReturn_only); exact rfl)
    | with_reducible apply onRunning_only
    | ((with_reducible apply Only.step State.onMbx_only); exact rfl)
    | intro _
    | split)

theorem regWords_only {as : List Nat} {s : State} : Only [.err, .latches] s (regWords as s).2 := by
  have h : ∀ (as : List Nat) (x : Bytes × State), Only [.err, .latches] s x.2 → Only [.err, .latches] s
      (as.foldl (fun x a => let (v, t) := readReg .regRead a x.2; (x.1 ++ le 4 v.toNat, t)) x).2 := by
    intro as
    induction as with
    | nil => exact fun _ h => h
    | cons a as ih => exact fun x h => ih _ (h.trans readReg_only)
  exact h as _ (Only.refl s)

theorem execRegRead_only {m : Nat} {s : State} : OnlyR [.hfAllow, .lanes, .err, .stw, .latches, .out] s (execRegRead
    m s) := by
  unfold execRegRead
  dsimp only
  repeat' (first
    | with_reducible exact Only.refl _
    | with_reducible apply OnlyR.next
    | ((with_reducible apply Only.step fail_only); exact rfl)
    | ((with_reducible apply Only.step done_only); exact rfl)
    | with_reducible apply onRunning_only
    | ((with_reducible apply Only.step regWords_only); exact rfl)
    | intro _
    | split)

theorem execEpochSet_only {m : Nat} {s : State} : OnlyR [.hfAllow, .lanes, .red, .stop, .stw, .out] s (execEpochSet
    m s) := by
  unfold execEpochSet
  dsimp only
  repeat' (first
    | with_reducible exact Only.refl _
    | with_reducible apply onTray_only
    | ((with_reducible apply Only.step fail_only); exact rfl)
    | ((with_reducible apply Only.step twoPhase_only); exact rfl)
    | with_reducible apply onRunning_only
    | intro _
    | split)

theorem execStopArm_only {m : Nat} {s : State} : OnlyR [.hfAllow, .lanes, .red, .stop, .stw, .out] s (execStopArm m
    s) := by
  unfold execStopArm
  dsimp only
  repeat' (first
    | with_reducible exact Only.refl _
    | with_reducible apply onTray_only
    | ((with_reducible apply Only.step fail_only); exact rfl)
    | ((with_reducible apply Only.step twoPhase_only); exact rfl)
    | with_reducible apply onRunning_only
    | intro _
    | split)

theorem execPlanSet_only {m : Nat} {s : State} : OnlyR [.hfAllow, .lanes, .red, .stop, .stw, .out] s (execPlanSet m
    s) := by
  unfold execPlanSet
  dsimp only
  repeat' (first
    | with_reducible exact Only.refl _
    | with_reducible apply onTray_only
    | ((with_reducible apply Only.step fail_only); exact rfl)
    | ((with_reducible apply Only.step twoPhase_only); exact rfl)
    | with_reducible apply onRunning_only
    | intro _
    | split)

theorem execPubAreaSet_only {m : Nat} {s : State} : OnlyR [.hfAllow, .lanes, .stw, .out] s (execPubAreaSet m s) := by
  unfold execPubAreaSet
  repeat' (first
    | with_reducible exact Only.refl _
    | with_reducible apply onTray_only
    | ((with_reducible apply checked_only); exact rfl)
    | ((with_reducible apply Only.step bndDone_only); exact rfl)
    | with_reducible apply onRunning_only
    | intro _)

theorem execCkptAreaSet_only {m : Nat} {s : State} : OnlyR [.hfAllow, .lanes, .stw, .out] s (execCkptAreaSet m s) := by
  unfold execCkptAreaSet
  repeat' (first
    | with_reducible exact Only.refl _
    | with_reducible apply onTray_only
    | ((with_reducible apply checked_only); exact rfl)
    | ((with_reducible apply Only.step bndDone_only); exact rfl)
    | with_reducible apply onRunning_only
    | intro _)

theorem execCaptAreaSet_only {m : Nat} {s : State} : OnlyR [.hfAllow, .lanes, .stw, .out] s (execCaptAreaSet m s) := by
  unfold execCaptAreaSet
  dsimp only
  repeat' (first
    | with_reducible exact Only.refl _
    | with_reducible apply onTray_only
    | ((with_reducible apply checked_only); exact rfl)
    | ((with_reducible apply Only.step bndDone_only); exact rfl)
    | with_reducible apply onRunning_only
    | intro _)

theorem execTallySet_only {m : Nat} {s : State} : OnlyR [.hfAllow, .lanes, .fab, .stw, .out] s (execTallySet m s) := by
  unfold execTallySet
  dsimp only
  repeat' (first
    | with_reducible exact Only.refl _
    | with_reducible apply onTray_only
    | ((with_reducible apply Only.step done_only); exact rfl)
    | ((with_reducible apply checked_only); exact rfl)
    | with_reducible apply onRunning_only
    | intro _
    | ((with_reducible apply Only.step Only.put_fab); exact rfl))

theorem execTallyClear_only {m : Nat} {s : State} :
    OnlyR [.hfAllow, .lanes, .mem, .chans, .fab, .stw, .out] s (execTallyClear m s) := by
  unfold execTallyClear
  refine onTray_only (onRunning_only (Only.refl s) fun c u => ?_)
  dsimp only
  repeat' (first
    | with_reducible exact Only.refl _
    | ((with_reducible apply Only.step fail_only); exact rfl)
    | ((with_reducible apply Only.step done_only); exact rfl)
    | ((with_reducible apply Only.step writeBack_only); exact rfl)
    | split
    | ((with_reducible apply Only.step Only.put_fab); exact rfl))

theorem execTableSeed_only {m : Nat} {area : Option Ckpt} {s : State} : OnlyR [.hfAllow, .lanes, .stw, .out] s
    (execTableSeed m area s) := by
  unfold execTableSeed
  dsimp only
  repeat' (first
    | with_reducible exact Only.refl _
    | with_reducible apply onTray_only
    | ((with_reducible apply Only.step fail_only); exact rfl)
    | with_reducible apply onRunning_only
    | ((with_reducible apply Only.step bndAt_only); exact rfl)
    | intro _
    | split)

theorem execTableDrop_only {m : Nat} {s : State} : OnlyR [.hfAllow, .lanes, .stw, .out] s (execTableDrop m s) := by
  unfold execTableDrop
  dsimp only
  repeat' (first
    | with_reducible exact Only.refl _
    | with_reducible apply OnlyR.next
    | ((with_reducible apply checked_only); exact rfl)
    | ((with_reducible apply Only.step bndDone_only); exact rfl)
    | with_reducible apply onRunning_only
    | intro _)

theorem execModelDrop_only {m : Nat} {s : State} : OnlyR [.hfAllow, .lanes, .stw, .out] s (execModelDrop m s) := by
  unfold execModelDrop
  dsimp only
  repeat' (first
    | with_reducible exact Only.refl _
    | with_reducible apply OnlyR.next
    | ((with_reducible apply checked_only); exact rfl)
    | ((with_reducible apply Only.step bndDone_only); exact rfl)
    | with_reducible apply onRunning_only
    | intro _)

theorem execGrantPolicySet_only {m : Nat} {s : State} : OnlyR [.hfAllow, .lanes, .stw, .out] s (execGrantPolicySet m
    s) := by
  unfold execGrantPolicySet
  dsimp only
  repeat' (first
    | with_reducible exact Only.refl _
    | with_reducible apply onTray_only
    | ((with_reducible apply checked_only); exact rfl)
    | ((with_reducible apply Only.step bndDone_only); exact rfl)
    | with_reducible apply onRunning_only
    | intro _)

theorem setLoop_only {p : Bytes} {s : State} : Only [.act] s (setLoop p s) := Only.put_act

theorem execLoopSet_only {m : Nat} {s : State} : OnlyR [.hfAllow, .lanes, .act, .stw, .out] s (execLoopSet m s) := by
  unfold execLoopSet
  repeat' (first
    | with_reducible exact Only.refl _
    | with_reducible apply onTray_only
    | ((with_reducible apply Only.step setLoop_only); exact rfl)
    | ((with_reducible apply checked_only); exact rfl)
    | with_reducible apply onRunning_only
    | ((with_reducible apply Only.step teamDone_only); exact rfl)
    | intro _
    | split)

theorem armCtx_only {m : Nat} {c : Cmd} {kind : Nat} {aon flag : Bool} {setup : BitVec 64} {s : State} : Only
    [.hfAllow, .lanes, .red, .stop, .stw, .out] s (armCtx m c kind aon flag setup s) := by
  unfold armCtx
  dsimp only
  repeat' (first
    | with_reducible exact Only.refl _
    | ((with_reducible apply Only.step issueArm_only); exact rfl)
    | ((with_reducible apply Only.step State.onMbx_only); exact rfl)
    | intro _
    | split)

theorem execCtxOpen_only {m : Nat} {s : State} : OnlyR [.hfAllow, .lanes, .setups, .red, .stop, .stw, .out] s
    (execCtxOpen m s) := by
  unfold execCtxOpen
  dsimp only
  repeat' (first
    | with_reducible exact Only.refl _
    | with_reducible apply onTray_only
    | ((with_reducible apply Only.step takeSetup_only); exact rfl)
    | ((with_reducible apply checked_only); exact rfl)
    | with_reducible apply onRunning_only
    | ((with_reducible apply Only.step relay_only); exact rfl)
    | ((with_reducible apply Only.step armCtx_only); exact rfl)
    | intro _
    | split)

theorem execCtxClose_only {m : Nat} {s : State} : OnlyR [.hfAllow, .lanes, .setups, .red, .stop, .stw, .out] s
    (execCtxClose m s) := by
  unfold execCtxClose
  dsimp only
  repeat' (first
    | with_reducible exact Only.refl _
    | with_reducible apply onTray_only
    | ((with_reducible apply Only.step takeSetup_only); exact rfl)
    | ((with_reducible apply checked_only); exact rfl)
    | with_reducible apply onRunning_only
    | ((with_reducible apply Only.step relay_only); exact rfl)
    | ((with_reducible apply Only.step armCtx_only); exact rfl)
    | intro _
    | split)

theorem execRecordRead_only {m : Nat} {s : State} : OnlyR [.hfAllow, .lanes, .stw, .out] s (execRecordRead m s) := by
  unfold execRecordRead
  dsimp only
  repeat' (first
    | with_reducible exact Only.refl _
    | with_reducible apply onTray_only
    | ((with_reducible apply Only.step fail_only); exact rfl)
    | ((with_reducible apply Only.step done_only); exact rfl)
    | ((with_reducible apply Only.step State.issue_only); exact rfl)
    | with_reducible apply onRunning_only
    | intro _
    | split)

theorem execRecordPeriodSet_only {m : Nat} {s : State} : OnlyR [.hfAllow, .lanes, .stw, .evr, .out] s
    (execRecordPeriodSet m s) := by
  unfold execRecordPeriodSet
  dsimp only
  repeat' (first
    | with_reducible exact Only.refl _
    | with_reducible apply onTray_only
    | ((with_reducible apply Only.step done_only); exact rfl)
    | ((with_reducible apply checked_only); exact rfl)
    | with_reducible apply onRunning_only
    | intro _
    | ((with_reducible apply Only.step Only.put_evr); exact rfl))

theorem execBlockReset_only {m : Nat} {s : State} : OnlyR [.hfAllow, .lanes, .stw, .out] s (execBlockReset m s) := by
  unfold execBlockReset
  dsimp only
  repeat' (first
    | with_reducible exact Only.refl _
    | with_reducible apply OnlyR.next
    | ((with_reducible apply Only.step fail_only); exact rfl)
    | ((with_reducible apply Only.step done_only); exact rfl)
    | with_reducible apply onRunning_only
    | intro _
    | split
    | ((with_reducible apply Only.step Only.put_stw); exact rfl))

theorem evrBit_only {i : Nat} {s : State} : Only [.sticky, .raisedNow] s (evrBit i s) := by
  unfold evrBit
  repeat' (first
    | with_reducible exact Only.refl _
    | ((with_reducible apply Only.step State.setBit_only); exact rfl))

theorem writeClock_only {kind pcyc optime : Nat} {flash : FlashAnswer} {s : State} : Only [.flash, .sticky,
    .raisedNow, .out] s (writeClock kind pcyc optime flash s) := by
  unfold writeClock
  dsimp only
  repeat' (first
    | with_reducible exact Only.refl _
    | ((with_reducible apply Only.step evrBit_only); exact rfl)
    | ((with_reducible apply Only.step State.emits_only); exact rfl)
    | intro _
    | split
    | ((with_reducible apply Only.step Only.put_flash); exact rfl))

theorem execClockTick_only {flash : FlashAnswer} {s : State} : OnlyR [.flash, .sticky, .raisedNow, .out] s
    (execClockTick flash s) := by
  unfold execClockTick
  dsimp only
  repeat' (first
    | with_reducible exact Only.refl _
    | with_reducible apply onTray_only
    | ((with_reducible apply Only.step writeClock_only); exact rfl)
    | intro _
    | split)

theorem newPeriod_only {start : Bool} {s : State} : Only [.evr] s (newPeriod start s) := Only.put_evr

theorem execRecorderPeriodEnd_only {s : State} : OnlyR [.evr, .sticky, .raisedNow] s (execRecorderPeriodEnd s) := by
  unfold execRecorderPeriodEnd
  dsimp only
  repeat' (first
    | with_reducible exact Only.refl _
    | with_reducible apply onTray_only
    | ((with_reducible apply Only.step newPeriod_only); exact rfl)
    | ((with_reducible apply Only.step evrBit_only); exact rfl)
    | intro _
    | split
    | ((with_reducible apply Only.step Only.put_evr); exact rfl))

theorem execRecordFlashWrite_only {flash : FlashAnswer} {s : State} : OnlyR [.flash, .evr, .sticky, .raisedNow,
    .out] s (execRecordFlashWrite flash s) := by
  unfold execRecordFlashWrite
  dsimp only
  repeat' (first
    | with_reducible exact Only.refl _
    | with_reducible apply onTray_only
    | ((with_reducible apply Only.step evrBit_only); exact rfl)
    | ((with_reducible apply Only.step State.emit_only); exact rfl)
    | ((with_reducible apply Only.step State.emits_only); exact rfl)
    | intro _
    | split
    | ((with_reducible apply Only.step Only.put_flash_evr); exact rfl))

theorem execOptimeSecond_only {s : State} : OnlyR [.tim, .evr] s (execOptimeSecond s) := by
  unfold execOptimeSecond
  dsimp only
  repeat' (first
    | with_reducible exact Only.refl _
    | with_reducible apply onTray_only
    | ((with_reducible apply Only.step State.metrics_only); exact rfl)
    | intro _
    | split
    | ((with_reducible apply Only.step Only.put_tim_evr); exact rfl))

theorem raiseUnary_only {a n : Nat} {s : State} : Only [.pins, .otp, .out] s (raiseUnary a n s) := by
  unfold raiseUnary
  dsimp only
  repeat' (first
    | with_reducible exact Only.refl _
    | ((with_reducible apply Only.step State.otpProgram_only); exact rfl)
    | with_reducible apply Only.foldl
    | intro _
    | split)

theorem execSvnRaise_only {s : State} : OnlyR [.pins, .otp, .out] s (execSvnRaise s) := by
  unfold execSvnRaise
  dsimp only
  repeat' (first
    | with_reducible exact Only.refl _
    | with_reducible apply OnlyR.next
    | ((with_reducible apply Only.step raiseUnary_only); exact rfl)
    | split)

theorem execHourMark_only {s : State} : OnlyR [.pins, .otp, .out] s (execHourMark s) := by
  unfold execHourMark
  dsimp only
  repeat' (first
    | with_reducible exact Only.refl _
    | with_reducible apply onLeaf_only
    | ((with_reducible apply Only.step raiseUnary_only); exact rfl)
    | intro _
    | split)

theorem startIdentity_only {fw : Bytes} {s : State} : Only [.ident] s (startIdentity fw s) := by
  unfold startIdentity
  dsimp only
  repeat' (first
    | with_reducible exact Only.refl _
    | ((with_reducible apply Only.step Only.put_ident); exact rfl))

theorem execAuth_only {lane : Nat} {a : AuthIn} {s : State} : OnlyR [.lanes, .out, .links] s (execAuth lane a s) := by
  unfold execAuth
  dsimp only
  repeat' (first
    | with_reducible exact Only.refl _
    | with_reducible apply OnlyR.next
    | ((with_reducible apply Only.step State.emit_only); exact rfl)
    | ((with_reducible apply Only.step State.onLane_only); exact rfl)
    | intro _
    | split)

theorem writeDest_only {addr : Nat} {b : Bytes} {s : State} : Only [.lanes, .out] s (writeDest addr b s) := by
  unfold writeDest
  repeat' (first
    | with_reducible exact Only.refl _
    | ((with_reducible apply Only.step State.issue_only); exact rfl))

theorem toDest_only {n : Nat} {c : Cmd} {dest destLen : Nat} {b : Bytes} {s : State} : Only [.hfAllow, .lanes, .stw,
    .out] s (toDest n c dest destLen b s) := by
  unfold toDest
  repeat' (first
    | with_reducible exact Only.refl _
    | ((with_reducible apply Only.step fail_only); exact rfl)
    | ((with_reducible apply Only.step done_only); exact rfl)
    | ((with_reducible apply Only.step writeDest_only); exact rfl)
    | ((with_reducible apply Only.step finish_only); exact rfl)
    | split)

theorem execCertRead_only {m : Nat} {s : State} : OnlyR [.hfAllow, .lanes, .stw, .out] s (execCertRead m s) := by
  unfold execCertRead
  dsimp only
  repeat' (first
    | with_reducible exact Only.refl _
    | with_reducible apply OnlyR.next
    | ((with_reducible apply Only.step fail_only); exact rfl)
    | with_reducible apply onRunning_only
    | ((with_reducible apply Only.step toDest_only); exact rfl)
    | intro _
    | split)

theorem execEvidenceSign_only {m : Nat} {s : State} : OnlyR [.hfAllow, .lanes, .stw, .out] s (execEvidenceSign m s) := by
  unfold execEvidenceSign
  dsimp only
  repeat' (first
    | with_reducible exact Only.refl _
    | with_reducible apply OnlyR.next
    | ((with_reducible apply Only.step fail_only); exact rfl)
    | with_reducible apply onRunning_only
    | ((with_reducible apply Only.step toDest_only); exact rfl)
    | intro _
    | split)

theorem dropAssembly_only {n op : Nat} {s : State} : Only [.stw] s (dropAssembly n op s) := by
  unfold dropAssembly
  repeat' (first
    | with_reducible exact Only.refl _
    | ((with_reducible apply Only.step State.onMbx_only); exact rfl))

theorem copyProgress_only {n len : Nat} {c : Cmd} {s : State} : Only [.hfAllow, .lanes, .stw, .out] s (copyProgress
    n len c s) := by
  unfold copyProgress
  repeat' (first
    | with_reducible exact Only.refl _
    | ((with_reducible apply Only.step writeEntry_only); exact rfl)
    | with_reducible apply Only.foldl
    | intro _)

theorem takePart_only {n named : Nat} {c : Cmd} {host : HostImage} {effect : Bytes → ImageEffect}
    {leaves : Cmd → Bytes → State → State} {F : List Fld} {s s0 : State}
    (hF : [.hfAllow, .lanes, .cap, .stw, .sticky, .raisedNow, .out].all F.contains = true) (hs : Only F s0 s)
    (he : ∀ img, NowOnly F (effect img)) (hl : ∀ c b u, Only F u (leaves c b u)) :
    Only F s0 (takePart n named c host effect leaves s) := by
  have hsub {A : List Fld}
      (hA : A.all ([.hfAllow, .lanes, .cap, .stw, .sticky, .raisedNow, .out] : List Fld).contains = true) :
      A.all F.contains = true := List.all_eq_true.mpr fun f hf =>
    List.all_eq_true.mp hF f (List.contains_iff_mem.mp (List.all_eq_true.mp hA f hf))
  have hd := hs.trans ((dropAssembly_only (n := n) (op := c.op) (s := s)).mono (hsub rfl))
  have hc (k : Nat) := hd.trans ((copyProgress_only (n := n) (len := k) (c := c)).mono (hsub rfl))
  unfold takePart
  dsimp only
  repeat' (first
    | with_reducible exact hs
    | with_reducible exact hd
    | with_reducible exact hc _
    | with_reducible apply Only.step finish_only (hsub rfl)
    | with_reducible apply Only.step fail_only (hsub rfl)
    | with_reducible apply Only.step imageFault_only (hsub rfl)
    | with_reducible apply Only.step teamDone_only (hsub rfl)
    | with_reducible apply Only.step bndDone_only (hsub rfl)
    | with_reducible apply Only.step State.onMbx_only (hsub rfl)
    | with_reducible exact (hc _).trans (hl _ _ _)
    | exact (hc _).trans ((he _).whenNow _ ‹_› _)
    | split)

theorem holdPlan_only {ctx : Nat} {p : Plan} {s : State} : Only [.red] s (holdPlan ctx p s) := Only.put_red

theorem planEffect_only {ctx : Nat} {pay img : Bytes} {s : State} : NowOnly [.red] (planEffect ctx pay img s) := by
  unfold planEffect
  repeat' (first
    | with_reducible exact NowOnly.refuse
    | with_reducible exact NowOnly.bnd
    | with_reducible apply NowOnly.now
    | with_reducible exact Only.refl _
    | ((with_reducible apply Only.step holdPlan_only); exact rfl)
    | intro _
    | split)

theorem tableEffect_only {ctx : Nat} {gen : BitVec 16} {pay img : Bytes} {s : State} : NowOnly [] (tableEffect ctx
    gen pay img s) := by
  unfold tableEffect
  dsimp only
  repeat' (first
    | with_reducible exact NowOnly.refuse
    | with_reducible exact NowOnly.bnd
    | with_reducible apply NowOnly.now
    | with_reducible exact Only.refl _
    | intro _
    | split)

theorem rowEffect_only {ctx : Nat} {pay img : Bytes} {s : State} : NowOnly [] (rowEffect ctx pay img s) := by
  unfold rowEffect
  dsimp only
  repeat' (first
    | with_reducible exact NowOnly.refuse
    | with_reducible exact NowOnly.bnd
    | with_reducible apply NowOnly.now
    | with_reducible exact Only.refl _
    | intro _
    | split)

theorem holdModel_only {m : Model} {s : State} : Only [.mem, .chans] s (holdModel m s) := by
  unfold holdModel
  dsimp only
  repeat' (first
    | with_reducible exact Only.refl _
    | ((with_reducible apply Only.step State.stripe_only); exact rfl)
    | intro _
    | split
    | ((with_reducible apply Only.step Only.put_mem); exact rfl))

theorem modelEffect_only {ctx : Nat} {gen : BitVec 16} {pay img : Bytes} {s : State} : NowOnly [.mem, .chans]
    (modelEffect ctx gen pay img s) := by
  unfold modelEffect
  dsimp only
  repeat' (first
    | with_reducible exact NowOnly.refuse
    | with_reducible exact NowOnly.bnd
    | with_reducible apply NowOnly.now
    | with_reducible exact Only.refl _
    | ((with_reducible apply Only.step holdModel_only); exact rfl)
    | intro _
    | split)

theorem placeEffect_only {ctx : Nat} {img : Bytes} {s : State} : NowOnly [] (placeEffect ctx img s) := by
  unfold placeEffect
  repeat' (first
    | with_reducible exact NowOnly.refuse
    | with_reducible exact NowOnly.bnd
    | with_reducible apply NowOnly.now
    | with_reducible exact Only.refl _
    | intro _
    | split)

theorem actEffect_only {pay img : Bytes} {s : State} : NowOnly [] (actEffect pay img s) := by
  unfold actEffect
  dsimp only
  repeat' (first
    | with_reducible exact NowOnly.refuse
    | with_reducible exact NowOnly.bnd
    | with_reducible apply NowOnly.now
    | with_reducible exact Only.refl _
    | intro _
    | split)

theorem imageEffect_only {ctx op : Nat} {pay img : Bytes} {s : State} : NowOnly [.red, .mem, .chans] (imageEffect
    ctx op pay img s) := by
  unfold imageEffect
  dsimp only
  repeat' (first
    | with_reducible exact NowOnly.refuse
    | with_reducible exact NowOnly.bnd
    | with_reducible apply NowOnly.now
    | with_reducible exact Only.refl _
    | ((with_reducible apply NowOnly.mono actEffect_only); exact rfl)
    | ((with_reducible apply NowOnly.mono tableEffect_only); exact rfl)
    | ((with_reducible apply NowOnly.mono modelEffect_only); exact rfl)
    | ((with_reducible apply NowOnly.mono placeEffect_only); exact rfl)
    | ((with_reducible apply NowOnly.mono planEffect_only); exact rfl)
    | ((with_reducible apply NowOnly.mono rowEffect_only); exact rfl)
    | intro _
    | split)

theorem sendToLeaves_only {n : Nat} {c : Cmd} {img : Bytes} {s : State} : Only [.hfAllow, .lanes, .stw, .out] s
    (sendToLeaves n c img s) := by
  unfold sendToLeaves
  dsimp only
  repeat' (first
    | with_reducible exact Only.refl _
    | ((with_reducible apply Only.step State.sendMsgAll_only); exact rfl)
    | ((with_reducible apply Only.step wait_only); exact rfl)
    | ((with_reducible apply Only.step finish_only); exact rfl)
    | with_reducible apply Only.foldl
    | intro _
    | split)

theorem leafAnswered_only {n leaf status : Nat} {s : State} : Only [.hfAllow, .lanes, .stw, .out] s (leafAnswered n
    leaf status s) := by
  unfold leafAnswered
  dsimp only
  repeat' (first
    | with_reducible exact Only.refl _
    | ((with_reducible apply Only.step State.sendMsgAll_only); exact rfl)
    | ((with_reducible apply Only.step setWaiting_only); exact rfl)
    | ((with_reducible apply Only.step endWaiting_only); exact rfl)
    | ((with_reducible apply Only.step writeEntry_only); exact rfl)
    | with_reducible apply Only.foldl
    | intro _
    | split)

theorem leafTakes_only {ctx op : Nat} {pay img : Bytes} {s : State} :
    Only [.lanes, .red, .mem, .chans, .stw] s (leafTakes ctx op pay img s) := by
  unfold leafTakes
  dsimp only
  split
  · exact State.sendMsgAll_only.mono rfl
  · split
    · exact State.sendMsgAll_only.mono rfl
    · refine Only.step State.sendMsgAll_only rfl ?_
      exact Only.put_stw.mono rfl
    · exact Only.step State.sendMsgAll_only rfl ((imageEffect_only.whenNow _ ‹_› _).mono rfl)

theorem leafNamed_only {ctx b : Nat} {s : State} : Only [.stw] s (leafNamed ctx b s) := Only.put_stw

theorem execLeafImageLoad_only {x : LeafImage} {s : State} : OnlyR [.hfAllow, .lanes, .red, .mem, .chans, .stw,
    .out] s (execLeafImageLoad x s) := by
  unfold execLeafImageLoad
  repeat' (first
    | with_reducible exact Only.refl _
    | with_reducible apply OnlyR.next
    | ((with_reducible apply Only.step leafNamed_only); exact rfl)
    | ((with_reducible apply Only.step leafAnswered_only); exact rfl)
    | ((with_reducible apply Only.step leafTakes_only); exact rfl)
    | split)

theorem runImage_only {n op named : Nat} {host : HostImage} {s : State} : Only [.hfAllow, .lanes, .cap, .red, .mem,
    .chans, .stw, .sticky, .raisedNow, .out] s (runImage n op named host s) := by
  unfold runImage
  repeat' (first
    | with_reducible exact Only.refl _
    | ((with_reducible apply NowOnly.mono imageEffect_only); exact rfl)
    | ((with_reducible apply Only.step sendToLeaves_only); exact rfl)
    | with_reducible apply onRunning_only
    | ((with_reducible apply takePart_only); exact rfl)
    | intro _)

theorem execPlanLoad_only {m : Nat} {s : State} : OnlyR [.hfAllow, .lanes, .cap, .red, .mem, .chans, .stw, .sticky,
    .raisedNow, .out] s (execPlanLoad m s) := by
  unfold execPlanLoad
  repeat' (first
    | with_reducible exact Only.refl _
    | with_reducible apply onTray_only
    | ((with_reducible apply Only.step runImage_only); exact rfl))

theorem execTableLoad_only {m : Nat} {host : HostImage} {s : State} : OnlyR [.hfAllow, .lanes, .cap, .red, .mem,
    .chans, .stw, .sticky, .raisedNow, .out] s (execTableLoad m host s) := by
  unfold execTableLoad
  repeat' (first
    | with_reducible exact Only.refl _
    | with_reducible apply OnlyR.next
    | ((with_reducible apply Only.step runImage_only); exact rfl))

theorem execRowLoad_only {m : Nat} {host : HostImage} {s : State} : OnlyR [.hfAllow, .lanes, .cap, .red, .mem,
    .chans, .stw, .sticky, .raisedNow, .out] s (execRowLoad m host s) := by
  unfold execRowLoad
  repeat' (first
    | with_reducible exact Only.refl _
    | with_reducible apply OnlyR.next
    | ((with_reducible apply Only.step runImage_only); exact rfl))

theorem execModelLoad_only {m : Nat} {host : HostImage} {s : State} : OnlyR [.hfAllow, .lanes, .cap, .red, .mem,
    .chans, .stw, .sticky, .raisedNow, .out] s (execModelLoad m host s) := by
  unfold execModelLoad
  repeat' (first
    | with_reducible exact Only.refl _
    | with_reducible apply OnlyR.next
    | ((with_reducible apply Only.step runImage_only); exact rfl))

theorem execPlaceLoad_only {m : Nat} {host : HostImage} {s : State} : OnlyR [.hfAllow, .lanes, .cap, .red, .mem,
    .chans, .stw, .sticky, .raisedNow, .out] s (execPlaceLoad m host s) := by
  unfold execPlaceLoad
  repeat' (first
    | with_reducible exact Only.refl _
    | with_reducible apply OnlyR.next
    | ((with_reducible apply Only.step runImage_only); exact rfl))

theorem execActLoad_only {m : Nat} {s : State} : OnlyR [.hfAllow, .lanes, .cap, .red, .mem, .chans, .stw, .sticky,
    .raisedNow, .out] s (execActLoad m s) := by
  unfold execActLoad
  repeat' (first
    | with_reducible exact Only.refl _
    | with_reducible apply onTray_only
    | ((with_reducible apply Only.step runImage_only); exact rfl))

theorem leafCore_only {c : Cfg} {s : State} : Only [.mem] s (leafCore c s) := Only.put_mem

theorem flashStep_only {n : Nat} {c : Cmd} {fin : Nat} {last : Cmd → State → State} {F : List Fld} {s s0 : State}
    (hF : [.hfAllow, .lanes, .stw, .out].all F.contains = true) (hs : Only F s0 s)
    (hf : ∀ c u, Only F u (last c u)) : Only F s0 (flashStep n c fin last s) := by
  unfold flashStep
  dsimp only
  split
  · exact Only.step progress_only hF hs
  · split
    · exact hs.trans (hf _ _)
    · exact Only.step done_only hF hs

theorem setCfgCopy_only {i : Nat} {c : CfgCopy} {s : State} : Only [.flash] s (setCfgCopy i c s) := Only.put_flash

theorem setFwCopy_only {i : Nat} {c : FwCopy} {s : State} : Only [.flash] s (setFwCopy i c s) := Only.put_flash

theorem endConfigStore_only {n i : Nat} {b : Bytes} {c : Cmd} {s : State} : Only [.hfAllow, .lanes, .stw, .flash,
    .out] s (endConfigStore n i b c s) := by
  unfold endConfigStore
  dsimp only
  repeat' (first
    | with_reducible exact Only.refl _
    | ((with_reducible apply Only.step fail_only); exact rfl)
    | ((with_reducible apply Only.step done_only); exact rfl)
    | ((with_reducible apply Only.step setCfgCopy_only); exact rfl)
    | ((with_reducible apply Only.step State.emit_only); exact rfl)
    | split)

theorem execConfigStore_only {m : Nat} {flash : FlashAnswer} {s : State} : OnlyR [.hfAllow, .lanes, .stw, .flash,
    .out] s (execConfigStore m flash s) := by
  unfold execConfigStore
  dsimp only
  repeat' (first
    | with_reducible exact Only.refl _
    | with_reducible apply onTray_only
    | ((with_reducible apply Only.step fail_only); exact rfl)
    | ((with_reducible apply Only.step endConfigStore_only); exact rfl)
    | ((with_reducible apply flashStep_only); exact rfl)
    | ((with_reducible apply Only.step setCfgCopy_only); exact rfl)
    | with_reducible apply onRunning_only
    | ((with_reducible apply Only.step finish_only); exact rfl)
    | ((with_reducible apply Only.step State.emits_only); exact rfl)
    | intro _
    | split)

theorem endFwStore_only {n i : Nat} {b : Bytes} {c : Cmd} {s : State} : Only [.hfAllow, .lanes, .stw, .flash, .out]
    s (endFwStore n i b c s) := by
  unfold endFwStore
  dsimp only
  repeat' (first
    | with_reducible exact Only.refl _
    | ((with_reducible apply Only.step finish_only); exact rfl)
    | ((with_reducible apply Only.step setFwCopy_only); exact rfl))

theorem execFwStore_only {m : Nat} {flash : FlashAnswer} {s : State} : OnlyR [.hfAllow, .lanes, .stw, .flash, .out]
    s (execFwStore m flash s) := by
  unfold execFwStore
  dsimp only
  repeat' (first
    | with_reducible exact Only.refl _
    | with_reducible apply onTray_only
    | ((with_reducible apply Only.step fail_only); exact rfl)
    | ((with_reducible apply flashStep_only); exact rfl)
    | ((with_reducible apply Only.step endFwStore_only); exact rfl)
    | with_reducible apply onRunning_only
    | ((with_reducible apply Only.step finish_only); exact rfl)
    | ((with_reducible apply Only.step setFwCopy_only); exact rfl)
    | ((with_reducible apply Only.step State.emits_only); exact rfl)
    | intro _
    | split)

theorem dueReset_only {s : State} : Only [.stw] s (dueReset s) := Only.put_stw

theorem execConfigApply_only {m : Nat} {host : HostImage} {s : State} : OnlyR [.hfAllow, .lanes, .cap, .stw,
    .sticky, .raisedNow, .out] s (execConfigApply m host s) := by
  unfold execConfigApply
  dsimp only
  repeat' (first
    | with_reducible exact Only.refl _
    | with_reducible apply OnlyR.next
    | ((with_reducible apply Only.step fail_only); exact rfl)
    | ((with_reducible apply Only.step done_only); exact rfl)
    | ((with_reducible apply Only.step imageFault_only); exact rfl)
    | ((with_reducible apply Only.step dueReset_only); exact rfl)
    | with_reducible apply onRunning_only
    | intro _
    | split)

theorem execFwActivate_only {m : Nat} {flash : FlashAnswer} {s : State} : OnlyR [.hfAllow, .lanes, .stw, .flash,
    .out] s (execFwActivate m flash s) := by
  unfold execFwActivate
  dsimp only
  repeat' (first
    | with_reducible exact Only.refl _
    | with_reducible apply onTray_only
    | ((with_reducible apply Only.step fail_only); exact rfl)
    | ((with_reducible apply Only.step done_only); exact rfl)
    | ((with_reducible apply Only.step dueReset_only); exact rfl)
    | with_reducible apply onRunning_only
    | ((with_reducible apply Only.step State.emit_only); exact rfl)
    | ((with_reducible apply Only.step setFwCopy_only); exact rfl)
    | intro _
    | split)

theorem freeCtx_only {c : Nat} {s : State} :
    Only [.cap, .ctxs, .setups, .red, .trc, .watch, .lateReads, .capt, .captOut, .mem, .raw, .fab, .stw, .out] s
      (freeCtx c s) := by
  unfold freeCtx
  dsimp only
  refine Only.step State.onCtx_only rfl ?_
  exact Only.step Only.put_cap_setups_red_trc_capt_captOut_mem_raw_fab_stw rfl (closeWatch_only.mono rfl)

theorem execContextDrainComplete_only {ctx : Nat} {s : State} : OnlyR [.cap, .ctxs, .setups, .red, .trc, .watch,
    .lateReads, .capt, .captOut, .mem, .raw, .fab, .stw, .out] s (execContextDrainComplete ctx s) := by
  unfold execContextDrainComplete
  repeat' (first
    | with_reducible exact Only.refl _
    | with_reducible apply OnlyR.next
    | ((with_reducible apply Only.step freeCtx_only); exact rfl)
    | split)

theorem endWatch_only {c : Nat} {s : State} : Only [.lanes, .trc, .watch] s (endWatch c s) := by
  unfold endWatch
  repeat' (first
    | with_reducible exact Only.refl _
    | ((with_reducible apply Only.step endDump_only); exact rfl)
    | ((with_reducible apply Only.step watchMark_only); exact rfl)
    | ((with_reducible apply Only.step sendPart_only); exact rfl)
    | split)

theorem markHardCap_only {c : Nat} {s : State} : Only [.stw] s (markHardCap c s) := by
  unfold markHardCap
  dsimp only
  repeat' (first
    | with_reducible exact Only.refl _
    | intro _
    | split
    | ((with_reducible apply Only.step Only.put_stw); exact rfl))

theorem dropQueued_only {c : Nat} {s : State} : Only [.lanes, .ctxs, .err] s (dropQueued c s) := by
  unfold dropQueued
  refine Only.step State.onCtx_only rfl (Only.step State.errCount_only rfl ?_)
  refine Only.mono (A := [.lanes]) ?_ rfl
  exact Only.lanesMap fun _ => rfl

theorem execContextHardCap_only {ctx : Nat} {s : State} : OnlyR [.hfAllow, .lanes, .cap, .ctxs, .setups, .red, .trc,
    .watch, .lateReads, .capt, .captOut, .mem, .raw, .err, .fab, .stw, .sticky, .raisedNow, .out] s
    (execContextHardCap ctx s) := by
  unfold execContextHardCap
  dsimp only
  repeat' (first
    | with_reducible exact Only.refl _
    | with_reducible apply OnlyR.next
    | ((with_reducible apply Only.step endWatch_only); exact rfl)
    | ((with_reducible apply Only.step dropQueued_only); exact rfl)
    | ((with_reducible apply Only.step freeCtx_only); exact rfl)
    | ((with_reducible apply Only.step partialAll_only); exact rfl)
    | ((with_reducible apply Only.step State.setBit_only); exact rfl)
    | ((with_reducible apply Only.step markHardCap_only); exact rfl)
    | split)

theorem nameRelease__only {c : Nat} {g : BitVec 16} {s : State} : Only [.lanes, .stw] s (nameRelease_ c g s) := by
  unfold nameRelease_
  dsimp only
  repeat' (first
    | with_reducible exact Only.refl _
    | ((with_reducible apply Only.step State.sendLeafStatus_only); exact rfl)
    | split
    | ((with_reducible apply Only.step Only.put_stw); exact rfl))

theorem contextReset_only {c : Nat} {g : BitVec 16} {s : State} : Only [.pins, .hfAllow, .lanes, .cap, .ctxs,
    .setups, .red, .trc, .watch, .lateReads, .brk, .capt, .captOut, .mem, .raw, .err, .fab, .stw, .out] s
    (contextReset c g s) := by
  unfold contextReset
  dsimp only
  repeat' (first
    | with_reducible exact Only.refl _
    | ((with_reducible apply Only.step endWatch_only); exact rfl)
    | ((with_reducible apply Only.step dropQueued_only); exact rfl)
    | ((with_reducible apply Only.step freeCtx_only); exact rfl)
    | ((with_reducible apply Only.step partialAll_only); exact rfl)
    | ((with_reducible apply Only.step nameRelease__only); exact rfl)
    | ((with_reducible apply Only.step brkGone_only); exact rfl)
    | split)

theorem execCtxReset_only {m : Nat} {s : State} : OnlyR [.pins, .hfAllow, .lanes, .cap, .ctxs, .setups, .red, .trc,
    .watch, .lateReads, .brk, .capt, .captOut, .mem, .raw, .err, .fab, .stw, .out] s (execCtxReset m s) := by
  unfold execCtxReset
  dsimp only
  repeat' (first
    | with_reducible exact Only.refl _
    | with_reducible apply OnlyR.next
    | ((with_reducible apply Only.step fail_only); exact rfl)
    | with_reducible apply onRunning_only
    | ((with_reducible apply Only.step contextReset_only); exact rfl)
    | ((with_reducible apply Only.step done_only); exact rfl)
    | intro _
    | split)

theorem sendIntervals_only {c k : Nat} {s : State} : Only [.lanes, .cap] s (sendIntervals c k s) := by
  unfold sendIntervals
  dsimp only
  repeat' (first
    | with_reducible exact Only.refl _
    | ((with_reducible apply Only.step State.sendShare_only); exact rfl)
    | with_reducible apply Only.foldl
    | intro _
    | ((with_reducible apply Only.step Only.put_cap); exact rfl))

theorem sendVerdicts_only {c k : Nat} {s : State} : Only [.lanes, .trc, .mem] s (sendVerdicts c k s) := by
  unfold sendVerdicts
  dsimp only
  repeat' (first
    | with_reducible exact Only.refl _
    | ((with_reducible apply Only.step sendLeafVerdicts_only); exact rfl)
    | with_reducible apply Only.foldl
    | intro _)

theorem execTenantRecordRelease_only {ctx : Nat} {ready : Bool} {s : State} : OnlyR [.lanes, .cap, .trc, .mem,
    .sticky, .raisedNow] s (execTenantRecordRelease ctx ready s) := by
  unfold execTenantRecordRelease
  repeat' (first
    | with_reducible exact Only.refl _
    | with_reducible apply onLeaf_only
    | ((with_reducible apply Only.step sendVerdicts_only); exact rfl)
    | ((with_reducible apply Only.step State.setBit_only); exact rfl)
    | ((with_reducible apply Only.step sendIntervals_only); exact rfl)
    | ((with_reducible apply Only.step State.countHealth_only); exact rfl)
    | intro _
    | split)

theorem poisonBuffer_only {b : BufLine} {s : State} : Only [.red, .trc, .watch] s (poisonBuffer s b) := by
  cases b with
  | landed =>
    unfold poisonBuffer
    dsimp only
    exact Only.put_red.mono rfl
  | trace => exact State.onShareTrc_only.mono rfl
  | dump => exact State.onWatch_only.mono rfl

theorem lostRow_only {bank row : Nat} {s : State} : Only [.cap, .red, .trc, .watch, .err, .sticky, .raisedNow] s
    (lostRow bank row s) := by
  unfold lostRow
  dsimp only
  repeat' (first
    | with_reducible exact Only.refl _
    | ((with_reducible apply Only.step State.errCount_only); exact rfl)
    | ((with_reducible apply Only.step poisonBuffer_only); exact rfl)
    | ((with_reducible apply Only.step State.countHealth_only); exact rfl)
    | ((with_reducible apply Only.step poisonRing_only); exact rfl)
    | ((with_reducible apply Only.step State.errBit_only); exact rfl)
    | with_reducible apply Only.foldl
    | intro _
    | split)

theorem execSramRowRepair_only {bank row : Nat} {uncorrectable : Bool} {s : State} : OnlyR [.pins, .cap, .red, .trc,
    .watch, .err, .otp, .sticky, .raisedNow, .out] s (execSramRowRepair bank row uncorrectable s) := by
  unfold execSramRowRepair
  repeat' (first
    | with_reducible exact Only.refl _
    | with_reducible apply whenClocked_only
    | with_reducible apply OnlyR.next
    | ((with_reducible apply Only.step repairRow_only); exact rfl)
    | ((with_reducible apply Only.step lostRow_only); exact rfl)
    | intro _
    | split)

theorem hangSample_only {us : List UnitSample} {stall : Bool} {s : State} : Only [.hangs, .hostStall, .sticky,
    .raisedNow] s (hangSample us stall s) := by
  unfold hangSample
  dsimp only
  repeat' (first
    | with_reducible exact Only.refl _
    | ((with_reducible apply Only.step State.setBit_only); exact rfl)
    | split
    | ((with_reducible apply Only.step Only.put_hangs_hostStall); exact rfl))

theorem autoDump_only {fenced : Bool} {ctx : Option Nat} {x : UnitScan} {s : State} : Only [.dump, .sticky,
    .raisedNow] s (autoDump fenced ctx x s) := by
  unfold autoDump
  dsimp only
  repeat' (first
    | with_reducible exact Only.refl _
    | ((with_reducible apply Only.step State.setBit_only); exact rfl)
    | ((with_reducible apply Only.step Only.put_dump_sticky); exact rfl))

theorem fenceUnit_only {cls idx : Nat} {ctx : Option Nat} {s : State} : Only [.err] s (fenceUnit cls idx ctx s) := by
  unfold fenceUnit
  dsimp only
  repeat' (first
    | with_reducible exact Only.refl _
    | ((with_reducible apply Only.step State.onClass_only); exact rfl))

theorem unfence_only {cls idx : Nat} {s : State} : Only [.err] s (unfence cls idx s) := by
  unfold unfence
  dsimp only
  repeat' (first
    | with_reducible exact Only.refl _
    | ((with_reducible apply Only.step State.onClass_only); exact rfl))

theorem recoverHang_only {block : Bool} {ctx : Option Nat} {x : UnitScan} {s : State} : Only [.pins, .hfAllow,
    .lanes, .cap, .ctxs, .setups, .red, .trc, .watch, .lateReads, .brk, .capt, .captOut, .mem, .raw, .err, .fab,
    .stw, .out] s (recoverHang block ctx x s) := by
  unfold recoverHang
  dsimp only
  repeat' (first
    | with_reducible exact Only.refl _
    | ((with_reducible apply Only.step contextReset_only); exact rfl)
    | split
    | ((with_reducible apply Only.step Only.put_stw); exact rfl))

theorem execHangDetect_only {u : UnitSample} {scan : UnitScan} {s : State} : OnlyR [.pins, .hfAllow, .lanes, .cap,
    .ctxs, .setups, .red, .trc, .watch, .lateReads, .brk, .capt, .captOut, .mem, .raw, .err, .fab, .stw, .dump,
    .mode, .twin, .sticky, .raisedNow, .out, .links] s (execHangDetect u scan s) := by
  unfold execHangDetect
  dsimp only
  repeat' (first
    | with_reducible exact Only.refl _
    | with_reducible apply OnlyR.next
    | ((with_reducible apply Only.step retireUnit_only); exact rfl)
    | ((with_reducible apply Only.step recoverHang_only); exact rfl)
    | ((with_reducible apply Only.step State.setBit_only); exact rfl)
    | ((with_reducible apply Only.step fenceUnit_only); exact rfl)
    | ((with_reducible apply Only.step autoDump_only); exact rfl)
    | intro _
    | split
    | ((with_reducible apply Only.step Only.put_sticky); exact rfl))

theorem execUnitReset_only {cls idx : Nat} {s : State} : OnlyR [.err, .hangs] s (execUnitReset cls idx s) := by
  unfold execUnitReset
  dsimp only
  repeat' (first
    | with_reducible exact Only.refl _
    | with_reducible apply OnlyR.next
    | ((with_reducible apply Only.step unfence_only); exact rfl)
    | ((with_reducible apply Only.step State.onClass_only); exact rfl)
    | intro _
    | split
    | ((with_reducible apply Only.step Only.put_hangs); exact rfl))

theorem endPartial_only {n : Nat} {c : Cmd} {status cursor : Nat} {result : Bytes} {s : State} : Only [.hfAllow,
    .lanes, .stw, .out] s (endPartial n c status cursor result s) := by
  unfold endPartial
  repeat' (first
    | with_reducible exact Only.refl _
    | ((with_reducible apply Only.step writeEntry_only); exact rfl)
    | ((with_reducible apply Only.step State.onMbx_only); exact rfl))

theorem execDumpTake_only {m : Nat} {scans : List UnitScan} {s : State} : OnlyR [.hfAllow, .lanes, .stw, .dump,
    .out] s (execDumpTake m scans s) := by
  unfold execDumpTake
  dsimp only
  repeat' (first
    | with_reducible exact Only.refl _
    | with_reducible apply OnlyR.next
    | ((with_reducible apply Only.step finish_only); exact rfl)
    | ((with_reducible apply Only.step fail_only); exact rfl)
    | with_reducible apply onRunning_only
    | ((with_reducible apply Only.step writeDest_only); exact rfl)
    | ((with_reducible apply Only.step endPartial_only); exact rfl)
    | intro _
    | split
    | ((with_reducible apply Only.step Only.put_dump); exact rfl))

end Sys2Proof.Machine
end

section
/-!
SUPPORT. What each operation and command may touch: the twin, resets, boundaries, the clock and the lanes.
-/

namespace Sys2Proof.Machine

set_option Elab.async false

theorem onWaiting_only {n : Nat} {old new : Cmd} {s : State} : Only [.stw] s (onWaiting n old new s) := by
  unfold onWaiting
  repeat' (first
    | with_reducible exact Only.refl _
    | ((with_reducible apply Only.step setWaiting_only); exact rfl))

theorem endAttachCmd_only {status : Nat} {s : State} : Only [.hfAllow, .lanes, .stw, .out] s (endAttachCmd status s) := by
  unfold endAttachCmd
  repeat' (first
    | with_reducible exact Only.refl _
    | with_reducible apply forWaiting_only
    | ((with_reducible apply Only.step endWaiting_only); exact rfl)
    | intro _)

theorem refuseAttachCmd_only {s : State} : Only [.hfAllow, .lanes, .stw, .out] s (refuseAttachCmd s) := by
  unfold refuseAttachCmd
  dsimp only
  repeat' (first
    | with_reducible exact Only.refl _
    | with_reducible apply forWaiting_only
    | ((with_reducible apply Only.step endWaiting_only); exact rfl)
    | ((with_reducible apply Only.step setWaiting_only); exact rfl)
    | intro _)

theorem attachCursor_only {phase bytes : Nat} {s : State} : Only [.hfAllow, .lanes, .stw, .out] s (attachCursor
    phase bytes s) := by
  unfold attachCursor
  dsimp only
  repeat' (first
    | with_reducible exact Only.refl _
    | ((with_reducible apply Only.step writeEntry_only); exact rfl)
    | ((with_reducible apply Only.step onWaiting_only); exact rfl)
    | with_reducible apply forWaiting_only
    | intro _)

theorem sendTwin_only {b : Bytes} {s : State} : Only [.lanes] s (sendTwin b s) := by
  unfold sendTwin
  repeat' (first
    | with_reducible exact Only.refl _
    | ((with_reducible apply Only.step State.sendMsgAll_only); exact rfl))

theorem nameMove_only {m : TwinMove} {a : Bnd} {b : Nat} {s : State} : Only [.lanes, .stw] s (nameMove m a b s) := by
  unfold nameMove
  dsimp only
  repeat' (first
    | with_reducible exact Only.refl _
    | ((with_reducible apply Only.step sendTwin_only); exact rfl)
    | ((with_reducible apply Only.step Only.put_stw); exact rfl))

theorem queueAt_only {turn : Nat} {a : Bnd} {b : Nat} {s : State} : Only [.stw] s (queueAt turn a b s) := by
  unfold queueAt
  dsimp only
  repeat' (first
    | with_reducible exact Only.refl _
    | ((with_reducible apply Only.step Only.put_stw); exact rfl))

theorem queueAlone_only {a : Bnd} {b : Nat} {s : State} : Only [.stw] s (queueAlone a b s) := by
  unfold queueAlone
  exact queueAt_only

theorem enterBivouac_only {cause item : Nat} {s : State} : Only [.pins, .lanes, .act, .stw, .evr, .boot, .mode,
    .twin, .links] s (enterBivouac cause item s) := by
  unfold enterBivouac
  dsimp only
  repeat' (first
    | with_reducible exact Only.refl _
    | ((with_reducible apply Only.step State.sendLeafStatus_only); exact rfl)
    | intro _
    | split
    | ((with_reducible apply Only.step Only.put_pins_lanes_act_stw_evr_boot_mode_twin); exact rfl))

theorem planMismatch_only {s : State} : Only [.pins, .lanes, .act, .stw, .evr, .boot, .mode, .twin, .links] s
    (planMismatch s) := by
  unfold planMismatch
  dsimp only
  repeat' (first
    | with_reducible exact Only.refl _
    | ((with_reducible apply Only.step enterBivouac_only); exact rfl)
    | intro _
    | split)

theorem abandonAttach_only {s : State} : Only [.mem, .raw, .stw, .twin, .sticky, .raisedNow] s (abandonAttach s) := by
  unfold abandonAttach
  dsimp only
  repeat' (first
    | with_reducible exact Only.refl _
    | ((with_reducible apply Only.step noteCkpt_only); exact rfl)
    | ((with_reducible apply Only.step queueAlone_only); exact rfl)
    | intro _
    | split
    | ((with_reducible apply Only.step Only.put_mem_twin); exact rfl))

theorem loopAlone_only {s : State} : Only [.act] s (loopAlone s) := by
  unfold loopAlone
  repeat' (first
    | with_reducible exact Only.refl _
    | with_reducible apply forWaiting_only
    | ((with_reducible apply Only.step setLoop_only); exact rfl)
    | intro _)

theorem goAlone_only {s : State} : Only [.hfAllow, .lanes, .red, .mem, .raw, .act, .stw, .twin, .sticky, .raisedNow,
    .out] s (goAlone s) := by
  unfold goAlone
  dsimp only
  repeat' (first
    | with_reducible exact Only.refl _
    | ((with_reducible apply Only.step loopAlone_only); exact rfl)
    | ((with_reducible apply Only.step abandonAttach_only); exact rfl)
    | ((with_reducible apply Only.step endAttachCmd_only); exact rfl)
    | ((with_reducible apply Only.step armsAlone_only); exact rfl)
    | intro _
    | split
    | ((with_reducible apply Only.step Only.put_stw_twin); exact rfl))

theorem linkLost_only {s : State} : Only [.hfAllow, .tim, .lanes, .red, .mem, .raw, .act, .stw, .twin, .sticky,
    .raisedNow, .out] s (linkLost s) := by
  unfold linkLost
  dsimp only
  repeat' (first
    | with_reducible exact Only.refl _
    | ((with_reducible apply Only.step reselect_only); exact rfl)
    | ((with_reducible apply Only.step goAlone_only); exact rfl)
    | ((with_reducible apply Only.step reportLanes_only); exact rfl)
    | split)

theorem beginAttach_only {commanded : Bool} {s : State} : Only [.lanes, .twin] s (beginAttach commanded s) := by
  unfold beginAttach
  dsimp only
  repeat' (first
    | with_reducible exact Only.refl _
    | ((with_reducible apply Only.step sendTwin_only); exact rfl)
    | ((with_reducible apply Only.step Only.put_twin); exact rfl))

theorem enterDetached_only {s : State} : Only [.pins, .mode] s (enterDetached s) := Only.put_pins_mode

theorem nameStart_only {s : State} : Only [.lanes, .stw, .twin] s (nameStart s) := by
  unfold nameStart
  dsimp only
  repeat' (first
    | with_reducible exact Only.refl _
    | ((with_reducible apply Only.step nameMove_only); exact rfl)
    | ((with_reducible apply Only.step Only.put_twin); exact rfl))

theorem meetTwin_only {s : State} : Only [.pins, .lanes, .stw, .mode, .twin] s (meetTwin s) := by
  unfold meetTwin
  repeat' (first
    | with_reducible exact Only.refl _
    | ((with_reducible apply Only.step nameStart_only); exact rfl)
    | ((with_reducible apply Only.step enterDetached_only); exact rfl)
    | split)

theorem twinCameUp_only {s : State} : Only [.pins, .lanes, .stw, .mode, .twin] s (twinCameUp s) := by
  unfold twinCameUp
  repeat' (first
    | with_reducible exact Only.refl _
    | ((with_reducible apply Only.step beginAttach_only); exact rfl)
    | ((with_reducible apply Only.step meetTwin_only); exact rfl)
    | split)

theorem linkCameUp_only {lane : Nat} {u : LaneUse} {s : State} : Only [.pins, .tim, .lanes, .red, .stw, .mode,
    .twin, .sticky, .raisedNow] s (linkCameUp lane u s) := by
  unfold linkCameUp
  dsimp only
  repeat' (first
    | with_reducible exact Only.refl _
    | ((with_reducible apply Only.step twinCameUp_only); exact rfl)
    | ((with_reducible apply Only.step reportAttach_only); exact rfl)
    | ((with_reducible apply Only.step State.sendCtl_only); exact rfl)
    | ((with_reducible apply Only.step reselect_only); exact rfl)
    | ((with_reducible apply Only.step sendSchedSync_only); exact rfl)
    | split)

theorem belayRevisions_only {h : Hello} {s : State} : Only [.mem, .raw, .stw, .twin, .sticky, .raisedNow] s
    (belayRevisions h s) := by
  unfold belayRevisions
  dsimp only
  repeat' (first
    | with_reducible exact Only.refl _
    | ((with_reducible apply Only.step queueAlone_only); exact rfl)
    | ((with_reducible apply Only.step abandonAttach_only); exact rfl)
    | intro _
    | split
    | ((with_reducible apply Only.step Only.put_twin); exact rfl))

theorem execStartWait_only {s : State} : OnlyR [.pins, .lanes, .stw, .mode, .twin] s (execStartWait s) := by
  unfold execStartWait
  dsimp only
  repeat' (first
    | with_reducible exact Only.refl _
    | with_reducible apply onTray_only
    | ((with_reducible apply Only.step meetTwin_only); exact rfl)
    | ((with_reducible apply Only.step queueAlone_only); exact rfl)
    | intro _
    | split
    | ((with_reducible apply Only.step Only.put_stw_twin); exact rfl))

theorem startSlots_only {b : Nat} {s : State} : Only [.red] s (startSlots b s) := by
  unfold startSlots
  dsimp only
  repeat' (first
    | with_reducible exact Only.refl _
    | ((with_reducible apply Only.step State.addChange_only); exact rfl)
    | with_reducible apply Only.foldl
    | intro _
    | split)

theorem teamStart_only {b : Nat} {s : State} : Only [.pins, .ctxs, .red, .trc, .watch, .stw, .boot, .mode, .twin] s
    (teamStart b s) := by
  unfold teamStart
  dsimp only
  repeat' (first
    | with_reducible exact Only.refl _
    | ((with_reducible apply Only.step activate_only); exact rfl)
    | ((with_reducible apply Only.step startSlots_only); exact rfl)
    | ((with_reducible apply Only.step Only.put_pins_boot_mode_twin); exact rfl))

theorem startSync_only {k : Nat} {s : State} : Only [.pins, .lanes, .red, .stw, .mode, .twin] s (startSync k s) := by
  unfold startSync
  dsimp only
  repeat' (first
    | with_reducible exact Only.refl _
    | ((with_reducible apply Only.step meetTwin_only); exact rfl)
    | ((with_reducible apply Only.step sendSchedSync_only); exact rfl)
    | with_reducible apply Only.foldl
    | intro _
    | split)

theorem joinTeam_only {s : State} : Only [.pins, .hfAllow, .lanes, .red, .act, .stw, .boot, .mode, .twin, .out] s
    (joinTeam s) := by
  unfold joinTeam
  dsimp only
  repeat' (first
    | with_reducible exact Only.refl _
    | ((with_reducible apply Only.step endAttachCmd_only); exact rfl)
    | intro _
    | split
    | ((with_reducible apply Only.step Only.put_pins_red_act_boot_mode_twin); exact rfl))

theorem detachSelf_only {d : Nat} {s : State} : Only [.pins, .red, .act, .mode, .twin] s (detachSelf d s) := by
  unfold detachSelf
  dsimp only
  repeat' (first
    | with_reducible exact Only.refl _
    | intro _
    | ((with_reducible apply Only.step Only.put_pins_red_act_mode_twin); exact rfl))

theorem detachTwin_only {s : State} : Only [.lanes, .red, .act, .twin] s (detachTwin s) := by
  unfold detachTwin
  dsimp only
  repeat' (first
    | with_reducible exact Only.refl _
    | ((with_reducible apply Only.step armsAlone_only); exact rfl)
    | ((with_reducible apply Only.step Only.put_act_twin); exact rfl))

theorem twinHandsOver_only {s : State} : Only [.lanes, .red, .act, .twin] s (twinHandsOver s) := by
  unfold twinHandsOver
  dsimp only
  repeat' (first
    | with_reducible exact Only.refl _
    | ((with_reducible apply Only.step detachTwin_only); exact rfl)
    | ((with_reducible apply Only.step Only.put_twin); exact rfl))

theorem handOver_only {s : State} : Only [.lanes, .twin] s (handOver s) := by
  unfold handOver
  dsimp only
  repeat' (first
    | with_reducible exact Only.refl _
    | ((with_reducible apply Only.step sendTwin_only); exact rfl)
    | split
    | ((with_reducible apply Only.step Only.put_twin); exact rfl))

theorem carrierPhase_only {a : Attach} {p : AttachPhase} {bytes : Nat} {s : State} : Only [.hfAllow, .lanes, .stw,
    .twin, .out] s (carrierPhase a p bytes s) := by
  unfold carrierPhase
  dsimp only
  repeat' (first
    | with_reducible exact Only.refl _
    | ((with_reducible apply Only.step nameMove_only); exact rfl)
    | ((with_reducible apply Only.step attachCursor_only); exact rfl)
    | intro _
    | split
    | ((with_reducible apply Only.step Only.put_twin); exact rfl))

theorem takeTwinConfig_only {c : TwinConfig} {s : State} : Only [.sched, .ctxs, .setups, .red, .capt, .mem, .raw, .act, .fab, .stw, .twin] s (takeTwinConfig c s) := Only.put_sched_ctxs_setups_red_capt_mem_raw_act_fab_stw_twin

theorem takeCatchup_only {c : TwinCatchup} {s : State} : Only [.red, .mem, .act, .twin] s (takeCatchup c s) := by
  unfold takeCatchup
  dsimp only
  repeat' (first
    | with_reducible exact Only.refl _
    | ((with_reducible apply Only.step setHot_only); exact rfl)
    | ((with_reducible apply Only.step countVerdict_only); exact rfl)
    | with_reducible apply Only.foldl
    | with_reducible apply Only.elim
    | intro _
    | split
    | ((with_reducible apply Only.step Only.put_mem_act_twin); exact rfl))

theorem setAttachPhase_only {p : AttachPhase} {s : State} : Only [.twin] s (setAttachPhase p s) := Only.put_twin

theorem newcomerPhase_only {p : AttachPhase} {copy : TwinCopy} {s : State} : Only [.sched, .lanes, .ctxs, .setups,
    .red, .capt, .mem, .raw, .act, .fab, .stw, .twin, .sticky, .raisedNow] s (newcomerPhase p copy s) := by
  unfold newcomerPhase
  dsimp only
  repeat' (first
    | with_reducible exact Only.refl _
    | ((with_reducible apply Only.step sendTwin_only); exact rfl)
    | ((with_reducible apply Only.step setAttachPhase_only); exact rfl)
    | ((with_reducible apply Only.step takeCatchup_only); exact rfl)
    | ((with_reducible apply Only.step abandonAttach_only); exact rfl)
    | ((with_reducible apply Only.step takeTwinConfig_only); exact rfl)
    | split
    | ((with_reducible apply Only.step Only.put_mem); exact rfl))

theorem execAttachPhase_only {p : AttachPhase} {bytes : Nat} {copy : TwinCopy} {s : State} : OnlyR [.hfAllow,
    .sched, .lanes, .ctxs, .setups, .red, .capt, .mem, .raw, .act, .fab, .stw, .twin, .sticky, .raisedNow, .out] s
    (execAttachPhase p bytes copy s) := by
  unfold execAttachPhase
  dsimp only
  repeat' (first
    | with_reducible exact Only.refl _
    | with_reducible exact True.intro
    | with_reducible apply onTray_only
    | ((with_reducible apply Only.step refuseAttachCmd_only); exact rfl)
    | ((with_reducible apply Only.step newcomerPhase_only); exact rfl)
    | ((with_reducible apply Only.step carrierPhase_only); exact rfl)
    | intro _
    | split
    | ((with_reducible apply Only.step Only.put_twin); exact rfl))

theorem relayPart_only {n op b turn : Nat} {pay part : Bytes} {s : State} :
    Only [.red, .mem, .chans, .stw] s (relayPart n op b turn pay part s) := by
  have hd : Only [.red, .mem, .chans, .stw] s _ := (dropAssembly_only (n := n) (op := op)).mono rfl
  unfold relayPart
  dsimp only
  split
  · exact Only.step State.onMbx_only rfl hd
  · split
    · exact hd
    · exact Only.step queueAt_only rfl hd
    · exact hd.trans ((imageEffect_only.whenNow _ ‹_› _).mono rfl)

theorem relaySetup_only {op : Nat} {p image : Bytes} {s : State} : Only [.lanes, .setups] s (relaySetup op p image
    s) := by
  unfold relaySetup
  dsimp only
  repeat' (first
    | with_reducible exact Only.refl _
    | ((with_reducible apply Only.step takeSetup_only); exact rfl)
    | intro _
    | split)

theorem carryOut_only {n op b turn : Nat} {p image : Bytes} {ckpt : Option Ckpt} {s : State} : Only [.lanes,
    .setups, .red, .mem, .chans, .act, .stw] s (carryOut n op b turn p image ckpt s) := by
  unfold carryOut
  repeat' (first
    | with_reducible exact Only.refl _
    | ((with_reducible apply Only.step queueAt_only); exact rfl)
    | ((with_reducible apply Only.step relayPart_only); exact rfl)
    | ((with_reducible apply Only.step setLoop_only); exact rfl)
    | ((with_reducible apply Only.step relaySetup_only); exact rfl)
    | split)

theorem echoCommand_only {n : Nat} {s : State} : Only [.act, .stw] s (echoCommand n s) := by
  unfold echoCommand
  dsimp only
  repeat' (first
    | with_reducible exact Only.refl _
    | ((with_reducible apply Only.step onWaiting_only); exact rfl)
    | ((with_reducible apply Only.step setLoop_only); exact rfl)
    | intro _
    | split)

theorem renameBnds_only {old new : Nat} {s : State} : Only [.stw] s (renameBnds old new s) := by
  unfold renameBnds
  dsimp only
  repeat' (first
    | with_reducible exact Only.refl _
    | intro _
    | ((with_reducible apply Only.step Only.put_stw); exact rfl))

theorem echoBoundary_only {b : Nat} {s : State} : Only [.stw, .twin] s (echoBoundary b s) := Only.put_stw_twin

theorem takeMove_only {m : TwinMove} {b : Nat} {s : State} : Only [.lanes, .stw, .twin] s (takeMove m b s) := by
  unfold takeMove
  dsimp only
  repeat' (first
    | with_reducible exact Only.refl _
    | ((with_reducible apply Only.step sendTwin_only); exact rfl)
    | ((with_reducible apply Only.step queueAlone_only); exact rfl)
    | intro _
    | split
    | ((with_reducible apply Only.step Only.put_twin); exact rfl))

theorem execTeamRelayEcho_only {e : EchoOf} {s : State} : OnlyR [.lanes, .setups, .red, .mem, .chans, .act, .stw,
    .twin] s (execTeamRelayEcho e s) := by
  unfold execTeamRelayEcho
  dsimp only
  repeat' (first
    | with_reducible exact Only.refl _
    | with_reducible apply onTray_only
    | ((with_reducible apply Only.step sendTwin_only); exact rfl)
    | ((with_reducible apply Only.step takeMove_only); exact rfl)
    | ((with_reducible apply Only.step echoBoundary_only); exact rfl)
    | ((with_reducible apply Only.step renameBnds_only); exact rfl)
    | ((with_reducible apply Only.step carryOut_only); exact rfl)
    | ((with_reducible apply Only.step echoCommand_only); exact rfl)
    | intro _
    | split
    | ((with_reducible apply Only.step Only.put_twin); exact rfl))

theorem execTwinDetach_only {m : Nat} {s : State} : OnlyR [.hfAllow, .lanes, .stw, .twin, .out] s (execTwinDetach m
    s) := by
  unfold execTwinDetach
  dsimp only
  repeat' (first
    | with_reducible exact Only.refl _
    | with_reducible apply onTray_only
    | ((with_reducible apply Only.step fail_only); exact rfl)
    | ((with_reducible apply Only.step wait_only); exact rfl)
    | ((with_reducible apply Only.step nameMove_only); exact rfl)
    | with_reducible apply onRunning_only
    | intro _
    | split
    | ((with_reducible apply Only.step Only.put_twin); exact rfl))

theorem execTwinAttach_only {m : Nat} {s : State} : OnlyR [.hfAllow, .lanes, .stw, .twin, .out] s (execTwinAttach m
    s) := by
  unfold execTwinAttach
  dsimp only
  repeat' (first
    | with_reducible exact Only.refl _
    | with_reducible apply onTray_only
    | ((with_reducible apply Only.step finish_only); exact rfl)
    | ((with_reducible apply Only.step fail_only); exact rfl)
    | ((with_reducible apply Only.step wait_only); exact rfl)
    | ((with_reducible apply Only.step beginAttach_only); exact rfl)
    | with_reducible apply onRunning_only
    | ((with_reducible apply Only.step done_only); exact rfl)
    | intro _
    | split
    | ((with_reducible apply Only.step Only.put_twin); exact rfl))

theorem openDump_only {s : State} : Only [.dump] s (openDump s) := by
  unfold openDump
  dsimp only
  repeat' (first
    | with_reducible exact Only.refl _
    | intro _
    | split
    | ((with_reducible apply Only.step Only.put_dump); exact rfl))

theorem programUds_only {draw : List (BitVec 32)} {s : State} : Only [.pins, .otp, .out] s (programUds draw s) := by
  unfold programUds
  repeat' (first
    | with_reducible exact Only.refl _
    | ((with_reducible apply Only.step State.otpProgram_only); exact rfl)
    | with_reducible apply Only.foldl
    | intro _
    | split)

theorem layer0_only {draw : List (BitVec 32)} {s : State} : Only [.pins, .otp, .ident, .out] s (layer0 draw s) := by
  unfold layer0
  dsimp only
  repeat' (first
    | with_reducible exact Only.refl _
    | ((with_reducible apply Only.step programUds_only); exact rfl)
    | ((with_reducible apply Only.step Only.put_pins_ident); exact rfl))

theorem readOtp_only {s : State} : Only [.err, .age] s (readOtp s) := by
  unfold readOtp
  dsimp only
  repeat' (first
    | with_reducible exact Only.refl _
    | intro _
    | ((with_reducible apply Only.step Only.put_err_age); exact rfl))

theorem clockStart_only {flash : FlashAnswer} {s : State} : Only [.optime, .flash, .evr, .sticky, .raisedNow, .out]
    s (clockStart flash s) := by
  unfold clockStart
  dsimp only
  repeat' (first
    | with_reducible exact Only.refl _
    | ((with_reducible apply Only.step writeClock_only); exact rfl)
    | ((with_reducible apply Only.step evrBit_only); exact rfl)
    | split
    | ((with_reducible apply Only.step Only.put_optime_evr); exact rfl))

theorem recorderStart_only {flash : FlashAnswer} {s : State} : Only [.optime, .flash, .evr, .sticky, .raisedNow,
    .out] s (recorderStart flash s) := by
  unfold recorderStart
  dsimp only
  repeat' (first
    | with_reducible exact Only.refl _
    | ((with_reducible apply Only.step newPeriod_only); exact rfl)
    | ((with_reducible apply Only.step clockStart_only); exact rfl)
    | split
    | ((with_reducible apply Only.step Only.put_evr); exact rfl))

theorem marginStart_only {s : State} : Only [.pins, .age] s (marginStart s) := by
  unfold marginStart
  dsimp only
  repeat' (first
    | with_reducible exact Only.refl _
    | ((with_reducible apply Only.step restoreNext_only); exact rfl)
    | split
    | ((with_reducible apply Only.step Only.put_age); exact rfl))

theorem setBases_only {c : Cfg} {s : State} : Only [.stw] s (setBases c s) := by
  unfold setBases
  dsimp only
  repeat' (first
    | with_reducible exact Only.refl _
    | intro _
    | split
    | ((with_reducible apply Only.step Only.put_stw); exact rfl))

theorem startBivouac_only {c : Cfg} {cause item : Nat} {s : State} : Only [.cfg, .pins, .lanes, .act, .stw, .evr,
    .boot, .mode, .twin, .links] s (startBivouac c cause item s) := by
  unfold startBivouac
  repeat' (first
    | with_reducible exact Only.refl _
    | ((with_reducible apply Only.step enterBivouac_only); exact rfl)
    | ((with_reducible apply Only.step setBases_only); exact rfl)
    | ((with_reducible apply Only.step Only.put_cfg_lanes); exact rfl))

theorem startService_only {c : Cfg} {s : State} : Only [.cfg, .pins, .sched, .lanes, .cap, .ctxs, .red, .trc,
    .watch, .mem, .stw, .ident, .boot, .mode, .twin, .links] s (startService c s) := by
  unfold startService
  dsimp only
  repeat' (first
    | with_reducible exact Only.refl _
    | ((with_reducible apply Only.step activate_only); exact rfl)
    | ((with_reducible apply Only.step setBases_only); exact rfl)
    | ((with_reducible apply Only.step leafCore_only); exact rfl)
    | ((with_reducible apply Only.step startLive_only); exact rfl)
    | intro _
    | split
    | ((with_reducible apply Only.step Only.put_cfg_sched_lanes_cap_red_ident_boot_mode_twin); exact rfl))

theorem applyCfg_only {b : Bytes} {found : StartFound} {s : State} : Only [.cfg, .pins, .sched, .lanes, .cap, .ctxs,
    .red, .trc, .watch, .mem, .act, .stw, .evr, .ident, .boot, .mode, .twin, .links] s (applyCfg b found s) := by
  unfold applyCfg
  dsimp only
  repeat' (first
    | with_reducible exact Only.refl _
    | ((with_reducible apply Only.step startBivouac_only); exact rfl)
    | ((with_reducible apply Only.step startService_only); exact rfl)
    | split
    | ((with_reducible apply Only.step Only.put_ident_boot); exact rfl))

theorem configureTray_only {found : StartFound} {s : State} : Only [.cfg, .pins, .sched, .lanes, .cap, .ctxs, .red,
    .trc, .watch, .mem, .act, .stw, .evr, .ident, .boot, .mode, .twin, .links] s (configureTray found s) := by
  unfold configureTray
  dsimp only
  repeat' (first
    | with_reducible exact Only.refl _
    | ((with_reducible apply Only.step startBivouac_only); exact rfl)
    | ((with_reducible apply Only.step applyCfg_only); exact rfl)
    | split
    | ((with_reducible apply Only.step Only.put_boot); exact rfl))

theorem assignI3c_only {pids : List (BitVec 48)} {s : State} : Only [.i3c, .out] s (assignI3c pids s) := by
  unfold assignI3c
  dsimp only
  repeat' (first
    | with_reducible exact Only.refl _
    | ((with_reducible apply Only.step State.emits_only); exact rfl)
    | intro _
    | ((with_reducible apply Only.step Only.put_i3c); exact rfl))

theorem startFirmware_only {fw : Bytes} {copy : Option Nat} {found : StartFound} {s : State} : Only [.pins, .i3c,
    .err, .age, .optime, .stw, .flash, .evr, .ident, .boot, .mode, .sticky, .raisedNow, .out] s (startFirmware fw
    copy found s) := by
  unfold startFirmware
  dsimp only
  repeat' (first
    | with_reducible exact Only.refl _
    | ((with_reducible apply Only.step marginStart_only); exact rfl)
    | ((with_reducible apply Only.step readOtp_only); exact rfl)
    | ((with_reducible apply Only.step assignI3c_only); exact rfl)
    | ((with_reducible apply Only.step startIdentity_only); exact rfl)
    | ((with_reducible apply Only.step recorderStart_only); exact rfl)
    | split
    | ((with_reducible apply Only.step Only.put_stw_boot_mode); exact rfl))

theorem startTray_only {found : StartFound} {s : State} : Only [.cfg, .pins, .i3c, .sched, .lanes, .cap, .ctxs,
    .red, .trc, .watch, .mem, .act, .err, .age, .optime, .stw, .flash, .evr, .ident, .boot, .mode, .twin, .sticky,
    .raisedNow, .out, .links] s (startTray found s) := by
  unfold startTray
  dsimp only
  repeat' (first
    | with_reducible exact Only.refl _
    | ((with_reducible apply Only.step startFirmware_only); exact rfl)
    | ((with_reducible apply Only.step configureTray_only); exact rfl)
    | split
    | ((with_reducible apply Only.step Only.put_boot_mode); exact rfl))

theorem start_only {found : StartFound} {s : State} : Only [.cfg, .pins, .i3c, .sched, .lanes, .cap, .ctxs, .red,
    .trc, .watch, .mem, .act, .err, .age, .otp, .optime, .stw, .flash, .evr, .ident, .boot, .mode, .twin, .sticky,
    .raisedNow, .out, .links] s (start found s) := by
  unfold start
  dsimp only
  repeat' (first
    | with_reducible exact Only.refl _
    | ((with_reducible apply Only.step startTray_only); exact rfl)
    | ((with_reducible apply Only.step layer0_only); exact rfl)
    | split
    | ((with_reducible apply Only.step Only.put_mode); exact rfl))

theorem execPllLock_only {s : State} : OnlyR [.pins] s (execPllLock s) := by
  unfold execPllLock
  dsimp only
  repeat' (first
    | with_reducible exact Only.refl _
    | with_reducible apply OnlyR.next
    | split
    | ((with_reducible apply Only.step Only.put_pins); exact rfl))

theorem execRomRecoveryDatagram_only {source : NetSource} {offset : BitVec 64} {part : Bytes} {found : StartFound}
    {s : State} : OnlyR [.cfg, .pins, .i3c, .sched, .lanes, .cap, .ctxs, .red, .trc, .watch, .mem, .act, .err, .age,
    .optime, .stw, .flash, .evr, .ident, .boot, .mode, .twin, .sticky, .raisedNow, .out, .links] s
    (execRomRecoveryDatagram source offset part found s) := by
  unfold execRomRecoveryDatagram
  dsimp only
  repeat' (first
    | with_reducible exact Only.refl _
    | with_reducible apply onTrayEver_only
    | ((with_reducible apply Only.step State.emit_only); exact rfl)
    | ((with_reducible apply Only.step startFirmware_only); exact rfl)
    | ((with_reducible apply Only.step configureTray_only); exact rfl)
    | intro _
    | split
    | ((with_reducible apply Only.step Only.put_boot); exact rfl))

theorem configureLeaf_only {d : BootDesc} {host : HostView} {found : StartFound} {s : State} : Only [.cfg, .pins,
    .sched, .lanes, .cap, .ctxs, .red, .trc, .watch, .mem, .act, .stw, .evr, .ident, .boot, .mode, .twin, .sticky,
    .raisedNow, .out, .links] s (configureLeaf d host found s) := by
  unfold configureLeaf
  repeat' (first
    | with_reducible exact Only.refl _
    | ((with_reducible apply Only.step startBivouac_only); exact rfl)
    | ((with_reducible apply Only.step hostFaults_only); exact rfl)
    | ((with_reducible apply Only.step applyCfg_only); exact rfl)
    | split)

theorem execBootDescriptorPoll_only {host : HostView} {found : StartFound} {s : State} : OnlyR [.cfg, .pins, .i3c,
    .sched, .lanes, .cap, .ctxs, .red, .trc, .watch, .mem, .act, .err, .age, .optime, .stw, .flash, .evr, .ident,
    .boot, .mode, .twin, .sticky, .raisedNow, .out, .links] s (execBootDescriptorPoll host found s) := by
  unfold execBootDescriptorPoll
  dsimp only
  repeat' (first
    | with_reducible exact Only.refl _
    | with_reducible apply onLeafEver_only
    | ((with_reducible apply Only.step startFirmware_only); exact rfl)
    | ((with_reducible apply Only.step configureLeaf_only); exact rfl)
    | ((with_reducible apply Only.step hostFaults_only); exact rfl)
    | intro _
    | split
    | ((with_reducible apply Only.step Only.put_boot); exact rfl))

theorem takeAnchor_only {a : Anchor} {s : State} : Only [.cfg, .sched] s (takeAnchor a s) := by
  unfold takeAnchor
  dsimp only
  repeat' (first
    | with_reducible exact Only.refl _
    | split
    | ((with_reducible apply Only.step Only.put_cfg_sched); exact rfl))

theorem skipTo_only {k : Nat} {s : State} : Only [.sched] s (skipTo k s) := by
  unfold skipTo
  dsimp only
  repeat' (first
    | with_reducible exact Only.refl _
    | intro _
    | split
    | ((with_reducible apply Only.step Only.put_sched); exact rfl))

theorem pushBoundary_only {k : Nat} {t : Ticks} {s : State} : Only [.sched] s (pushBoundary k t s) := by
  unfold pushBoundary
  dsimp only
  repeat' (first
    | with_reducible exact Only.refl _
    | split
    | ((with_reducible apply Only.step Only.put_sched); exact rfl))

theorem cutHealth_only {b : BoundaryIn} {s : State} : Only [.cap] s (cutHealth b s) := by
  unfold cutHealth
  dsimp only
  repeat' (first
    | with_reducible exact Only.refl _
    | ((with_reducible apply Only.step State.setHealth_only); exact rfl)
    | with_reducible apply Only.foldl
    | intro _)

theorem closeDrain_only {s : State} : Only [.cap, .sticky, .raisedNow] s (closeDrain s) := by
  unfold closeDrain
  dsimp only
  repeat' (first
    | with_reducible exact Only.refl _
    | ((with_reducible apply Only.step State.setBit_only); exact rfl)
    | split
    | ((with_reducible apply Only.step Only.put_cap); exact rfl))

theorem nextMap_only {s : State} : Only [.cap] s (nextMap s) := by
  unfold nextMap
  dsimp only
  repeat' (first
    | with_reducible exact Only.refl _
    | split
    | ((with_reducible apply Only.step Only.put_cap); exact rfl))

theorem firstRows_only {k : Nat} {s : State} : Only [.mem] s (firstRows k s) := by
  unfold firstRows
  dsimp only
  repeat' (first
    | with_reducible exact Only.refl _
    | intro _
    | split
    | ((with_reducible apply Only.step Only.put_mem); exact rfl))

theorem cut_only {k : Nat} {x : Boundary} {b : BoundaryIn} {s : State} : Only [.cap, .mem] s (cut k x b s) := by
  unfold cut
  dsimp only
  repeat' (first
    | with_reducible exact Only.refl _
    | ((with_reducible apply Only.step firstRows_only); exact rfl)
    | ((with_reducible apply Only.step countStop_only); exact rfl)
    | ((with_reducible apply Only.step cutHealth_only); exact rfl)
    | ((with_reducible apply Only.step nextMap_only); exact rfl)
    | ((with_reducible apply Only.step syncHeaders_only); exact rfl)
    | with_reducible apply Only.foldl
    | intro _
    | ((with_reducible apply Only.step Only.put_cap); exact rfl))

theorem leafBoundary_only {k : Nat} {b : BoundaryIn} {s : State} : Only [.lanes, .cap, .mem, .grant, .sticky,
    .raisedNow] s (leafBoundary k b s) := by
  unfold leafBoundary
  dsimp only
  repeat' (first
    | with_reducible exact Only.refl _
    | ((with_reducible apply Only.step overwriteRing_only); exact rfl)
    | ((with_reducible apply Only.step nextMap_only); exact rfl)
    | ((with_reducible apply Only.step cut_only); exact rfl)
    | ((with_reducible apply Only.step State.sendLeafStatus_only); exact rfl)
    | ((with_reducible apply Only.step countGrantBoundary_only); exact rfl)
    | ((with_reducible apply Only.step closeDrain_only); exact rfl)
    | ((with_reducible apply Only.step reportLanes_only); exact rfl)
    | split
    | ((with_reducible apply Only.step Only.put_cap); exact rfl))

theorem applyRows_only {id : Nat} {img : Bytes} {s : State} : Only [.mem, .chans] s (applyRows id img s) := by
  unfold applyRows
  dsimp only
  repeat' (first
    | with_reducible exact Only.refl _
    | ((with_reducible apply Only.step State.xfer_only); exact rfl)
    | ((with_reducible apply Only.step State.onTable_only); exact rfl)
    | with_reducible apply Only.foldl
    | with_reducible apply Only.elim
    | intro _)

theorem applySeedCkpt_only {id : Nat} {c : Ckpt} {s : State} : Only [.mem] s (applySeedCkpt id c s) := by
  unfold applySeedCkpt
  dsimp only
  repeat' (first
    | with_reducible exact Only.refl _
    | ((with_reducible apply Only.step reinstall_only); exact rfl)
    | ((with_reducible apply Only.step State.onTable_only); exact rfl)
    | with_reducible apply Only.foldl
    | intro _
    | split)

theorem dropTable_only {id : Nat} {s : State} : Only [.mem, .raw] s (dropTable id s) := Only.put_mem_raw

theorem applyAssign_only {c : Nat} {g : BitVec 16} {e : Option SetupEntry} {k : Nat} {t : Ticks} {s : State} : Only
    [.pins, .lanes, .cap, .ctxs, .trc, .watch, .brk, .stw] s (applyAssign c g e k t s) := by
  unfold applyAssign
  dsimp only
  repeat' (first
    | with_reducible exact Only.refl _
    | ((with_reducible apply Only.step activate_only); exact rfl)
    | ((with_reducible apply Only.step moveUnits_only); exact rfl)
    | ((with_reducible apply Only.step beginDrain_only); exact rfl)
    | ((with_reducible apply Only.step leafEnd_only); exact rfl)
    | intro _
    | split)

theorem applyFallback_only {ctx n k : Nat} {s : State} : Only [.mem] s (applyFallback ctx n k s) := by
  unfold applyFallback
  repeat' (first
    | with_reducible exact Only.refl _
    | ((with_reducible apply Only.step putPlacement_only); exact rfl)
    | split)

theorem applyBnd_only {k : Nat} {t : Ticks} {a : Bnd} {s : State} : Only [.pins, .hfAllow, .lanes, .cap, .ctxs,
    .red, .trc, .watch, .brk, .capt, .mem, .chans, .raw, .act, .stw, .boot, .mode, .twin, .out] s (applyBnd k t a s) := by
  unfold applyBnd
  dsimp only
  repeat' (first
    | with_reducible exact Only.refl _
    | ((with_reducible apply Only.step applyFallback_only); exact rfl)
    | ((with_reducible apply Only.step moveUnits_only); exact rfl)
    | ((with_reducible apply Only.step applySeedCkpt_only); exact rfl)
    | ((with_reducible apply Only.step detachSelf_only); exact rfl)
    | ((with_reducible apply Only.step teamStart_only); exact rfl)
    | ((with_reducible apply Only.step joinTeam_only); exact rfl)
    | ((with_reducible apply Only.step State.xfer_only); exact rfl)
    | ((with_reducible apply Only.step putPlacement_only); exact rfl)
    | ((with_reducible apply Only.step twinHandsOver_only); exact rfl)
    | ((with_reducible apply Only.step applyAssign_only); exact rfl)
    | ((with_reducible apply Only.step detachTwin_only); exact rfl)
    | ((with_reducible apply Only.step applyRows_only); exact rfl)
    | ((with_reducible apply Only.step State.onTable_only); exact rfl)
    | ((with_reducible apply Only.step refreshActions_only); exact rfl)
    | ((with_reducible apply Only.step dropTable_only); exact rfl)
    | with_reducible apply Only.foldl
    | intro _
    | split
    | ((with_reducible apply Only.step Only.put_cap_red_capt_mem_raw_act); exact rfl))

theorem renameUnechoed_only {k : Nat} {s : State} : Only [.lanes, .stw] s (renameUnechoed k s) := by
  unfold renameUnechoed
  dsimp only
  repeat' (first
    | with_reducible exact Only.refl _
    | ((with_reducible apply Only.step sendTwin_only); exact rfl)
    | ((with_reducible apply Only.step State.sendMsgAll_only); exact rfl)
    | with_reducible apply Only.foldl
    | intro _
    | split
    | ((with_reducible apply Only.step Only.put_stw); exact rfl))

theorem applyBnds_only {k : Nat} {t : Ticks} {s : State} : Only [.pins, .hfAllow, .lanes, .cap, .ctxs, .red, .trc,
    .watch, .brk, .capt, .mem, .chans, .raw, .act, .stw, .boot, .mode, .twin, .out] s (applyBnds k t s) := by
  unfold applyBnds
  dsimp only
  repeat' (first
    | with_reducible exact Only.refl _
    | ((with_reducible apply Only.step renameUnechoed_only); exact rfl)
    | ((with_reducible apply Only.step applyBnd_only); exact rfl)
    | with_reducible apply Only.foldl
    | intro _
    | ((with_reducible apply Only.step Only.put_stw); exact rfl))

theorem newSheaves_only {x : Boundary} {s : State} : Only [.ctxs, .red] s (newSheaves x s) := by
  unfold newSheaves
  dsimp only
  repeat' (first
    | with_reducible exact Only.refl _
    | ((with_reducible apply Only.step countFinished_only); exact rfl)
    | ((with_reducible apply Only.step refreshVerdicts_only); exact rfl)
    | ((with_reducible apply Only.step State.onCtx_only); exact rfl)
    | with_reducible apply Only.foldl
    | intro _
    | split
    | ((with_reducible apply Only.step Only.put_red); exact rfl))

theorem holdNotices_only {k : Nat} {s : State} : Only [.lanes] s (holdNotices k s) := by
  unfold holdNotices
  repeat' (first
    | with_reducible exact Only.refl _
    | ((with_reducible apply Only.step State.sendCtlAll_only); exact rfl)
    | with_reducible apply Only.foldl
    | intro _
    | split)

theorem sendSchedules_only {s : State} : Only [.lanes, .red] s (sendSchedules s) := by
  unfold sendSchedules
  dsimp only
  repeat' (first
    | with_reducible exact Only.refl _
    | ((with_reducible apply Only.step sendSchedSync_only); exact rfl)
    | with_reducible apply Only.foldl
    | intro _
    | split
    | ((with_reducible apply Only.step Only.put_red); exact rfl))

theorem sendAssignment_only {slot k : Nat} {s : State} : Only [.lanes] s (sendAssignment slot k s) := by
  unfold sendAssignment
  dsimp only
  repeat' (first
    | with_reducible exact Only.refl _
    | ((with_reducible apply Only.step State.sendMsgAll_only); exact rfl)
    | with_reducible apply Only.foldl
    | intro _)

theorem sendAssignments_only {k : Nat} {s : State} : Only [.lanes, .red] s (sendAssignments k s) := by
  unfold sendAssignments
  dsimp only
  repeat' (first
    | with_reducible exact Only.refl _
    | ((with_reducible apply Only.step sendAssignment_only); exact rfl)
    | with_reducible apply Only.foldl
    | intro _
    | split
    | ((with_reducible apply Only.step Only.put_red); exact rfl))

theorem slotBoundary_only {t : Ticks} {s : State} : Only [.sched, .evr] s (slotBoundary t s) := by
  unfold slotBoundary
  dsimp only
  repeat' (first
    | with_reducible exact Only.refl _
    | ((with_reducible apply Only.step State.metric_only); exact rfl)
    | with_reducible apply Only.foldl
    | intro _
    | split
    | ((with_reducible apply Only.step Only.put_sched); exact rfl))

theorem epochMetrics_only {k : Nat} {s : State} : Only [.evr] s (epochMetrics k s) := by
  unfold epochMetrics
  dsimp only
  repeat' (first
    | with_reducible exact Only.refl _
    | ((with_reducible apply Only.step State.metrics_only); exact rfl)
    | intro _
    | split
    | ((with_reducible apply Only.step Only.put_evr); exact rfl))

theorem resumeJobs_only {s : State} : Only [.mem] s (resumeJobs s) := by
  unfold resumeJobs
  dsimp only
  repeat' (first
    | with_reducible exact Only.refl _
    | intro _
    | split
    | ((with_reducible apply Only.step Only.put_mem); exact rfl))

theorem pruneJobs_only {k : Nat} {s : State} : Only [.mem] s (pruneJobs k s) := Only.put_mem

theorem tellLanes_only {s : State} : Only [.lanes, .twin] s (tellLanes s) := by
  unfold tellLanes
  dsimp only
  repeat' (first
    | with_reducible exact Only.refl _
    | ((with_reducible apply Only.step sendTwin_only); exact rfl)
    | split
    | ((with_reducible apply Only.step Only.put_twin); exact rfl))

theorem nameFallback_only {ctx : Nat} {s : State} : Only [.lanes, .stw] s (nameFallback ctx s) := by
  unfold nameFallback
  dsimp only
  repeat' (first
    | with_reducible exact Only.refl _
    | ((with_reducible apply Only.step nameMove_only); exact rfl)
    | ((with_reducible apply Only.step queueAlone_only); exact rfl)
    | with_reducible apply Only.foldl
    | intro _
    | split)

theorem carryBoundary_only {k : Nat} {x : Boundary} {s : State} : Only [.lanes, .ctxs, .red, .mem, .chans, .raw,
    .stw, .evr, .twin, .sticky, .raisedNow] s (carryBoundary k x s) := by
  unfold carryBoundary
  dsimp only
  repeat' (first
    | with_reducible exact Only.refl _
    | ((with_reducible apply Only.step holdNotices_only); exact rfl)
    | ((with_reducible apply Only.step sendSchedules_only); exact rfl)
    | ((with_reducible apply Only.step tellLanes_only); exact rfl)
    | ((with_reducible apply Only.step epochMetrics_only); exact rfl)
    | ((with_reducible apply Only.step decimate_only); exact rfl)
    | ((with_reducible apply Only.step resumeJobs_only); exact rfl)
    | ((with_reducible apply Only.step nameFallback_only); exact rfl)
    | ((with_reducible apply Only.step newSheaves_only); exact rfl)
    | ((with_reducible apply Only.step ckptDue_only); exact rfl)
    | ((with_reducible apply Only.step repeatDecisions_only); exact rfl)
    | ((with_reducible apply Only.step sendAssignments_only); exact rfl)
    | ((with_reducible apply Only.step pruneJobs_only); exact rfl)
    | with_reducible apply Only.foldl
    | intro _
    | split)

theorem trayBoundary_only {k : Nat} {x : Boundary} {s : State} : Only [.pins, .sched, .lanes, .ctxs, .red, .mem,
    .chans, .raw, .act, .stw, .evr, .mode, .twin, .sticky, .raisedNow] s (trayBoundary k x s) := by
  unfold trayBoundary
  dsimp only
  repeat' (first
    | with_reducible exact Only.refl _
    | ((with_reducible apply Only.step applyLoop_only); exact rfl)
    | ((with_reducible apply Only.step startSync_only); exact rfl)
    | ((with_reducible apply Only.step sendSafeGrants_only); exact rfl)
    | ((with_reducible apply Only.step carryBoundary_only); exact rfl)
    | ((with_reducible apply Only.step slotBoundary_only); exact rfl)
    | split)

theorem boundary_only {k : Nat} {t : Ticks} {b : BoundaryIn} {s : State} : Only [.cfg, .pins, .hfAllow, .sched,
    .lanes, .cap, .ctxs, .red, .trc, .watch, .brk, .capt, .mem, .chans, .raw, .act, .grant, .age, .stw, .evr, .boot,
    .hangs, .hostStall, .mode, .twin, .sticky, .raisedNow, .out] s (boundary k t b s) := by
  unfold boundary
  dsimp only
  repeat' (first
    | with_reducible exact Only.refl _
    | ((with_reducible apply Only.step handOver_only); exact rfl)
    | ((with_reducible apply Only.step trayBoundary_only); exact rfl)
    | ((with_reducible apply Only.step skipTo_only); exact rfl)
    | ((with_reducible apply Only.step hangSample_only); exact rfl)
    | ((with_reducible apply Only.step applyArms_only); exact rfl)
    | ((with_reducible apply Only.step applyBnds_only); exact rfl)
    | ((with_reducible apply Only.step leafBoundary_only); exact rfl)
    | ((with_reducible apply Only.step pushBoundary_only); exact rfl)
    | ((with_reducible apply Only.step ageSample_only); exact rfl)
    | split
    | ((with_reducible apply Only.step Only.put_boot); exact rfl))

theorem execEpochBoundary_only {b : BoundaryIn} {s : State} : OnlyR [.cfg, .pins, .hfAllow, .sched, .lanes, .cap,
    .ctxs, .red, .trc, .watch, .brk, .capt, .mem, .chans, .raw, .act, .grant, .age, .stw, .evr, .boot, .hangs,
    .hostStall, .mode, .twin, .sticky, .raisedNow, .out] s (execEpochBoundary b s) := by
  unfold execEpochBoundary
  repeat' (first
    | with_reducible exact Only.refl _
    | with_reducible apply OnlyR.next
    | ((with_reducible apply Only.step boundary_only); exact rfl)
    | ((with_reducible apply Only.step takeAnchor_only); exact rfl)
    | split)

theorem execDataPosition_only {lane : Nat} {s : State} : OnlyR [.pins, .lanes, .out, .links] s (execDataPosition
    lane s) := by
  unfold execDataPosition
  dsimp only
  repeat' (first
    | with_reducible exact Only.refl _
    | with_reducible apply OnlyR.next
    | ((with_reducible apply Only.step State.onLane_only); exact rfl)
    | ((with_reducible apply Only.step State.emit_only); exact rfl)
    | intro _
    | split
    | ((with_reducible apply Only.step Only.put_pins); exact rfl))

theorem moveStreams_only {lane failed : Nat} {mids : List (BitVec 32)} {s : State} : Only [.lanes, .links] s
    (moveStreams lane failed mids s) := by
  unfold moveStreams
  dsimp only
  repeat' (first
    | with_reducible exact Only.refl _
    | ((with_reducible apply Only.step State.onLane_only); exact rfl)
    | with_reducible apply Only.foldl
    | intro _
    | split)

theorem spareMove_only {lane : Nat} {s : State} : Only [.lanes, .age, .links] s (spareMove lane s) := by
  unfold spareMove
  dsimp only
  repeat' (first
    | with_reducible exact Only.refl _
    | ((with_reducible apply Only.step startRetune_only); exact rfl)
    | ((with_reducible apply Only.step moveStreams_only); exact rfl)
    | intro _
    | split)

theorem execControlCellSend_only {lane : Nat} {s : State} : OnlyR [.pins, .lanes, .age, .out, .links] s
    (execControlCellSend lane s) := by
  unfold execControlCellSend
  dsimp only
  repeat' (first
    | with_reducible exact Only.refl _
    | with_reducible apply OnlyR.next
    | ((with_reducible apply Only.step State.onLane_only); exact rfl)
    | ((with_reducible apply Only.step spareMove_only); exact rfl)
    | ((with_reducible apply Only.step State.emit_only); exact rfl)
    | with_reducible apply Only.foldl
    | intro _
    | split
    | ((with_reducible apply Only.step Only.put_pins); exact rfl))

theorem takeTimeArea_only {lane : Nat} {area : Bytes} {t4 : Ticks} {s : State} : Only [.lanes, .inbox, .links] s
    (takeTimeArea lane area t4 s) := by
  unfold takeTimeArea
  dsimp only
  repeat' (first
    | with_reducible exact Only.refl _
    | ((with_reducible apply Only.step State.onLane_only); exact rfl)
    | intro _
    | split
    | ((with_reducible apply Only.step Only.put_inbox); exact rfl))

theorem takeControl_only {lane : Nat} {good : Bool} {body : Bytes} {pitch : BitVec 56} {t4 : Ticks} {s : State} :
    Only [.lanes, .inbox, .links] s (takeControl lane good body pitch t4 s) := by
  unfold takeControl
  dsimp only
  repeat' (first
    | with_reducible exact Only.refl _
    | ((with_reducible apply Only.step State.onLane_only); exact rfl)
    | ((with_reducible apply Only.step takeTimeArea_only); exact rfl)
    | intro _
    | split
    | ((with_reducible apply Only.step Only.put_inbox); exact rfl))

theorem execControlCellReceive_only {lane : Nat} {cell : Bytes} {stamp : Ticks} {latAdj : BitVec 8} {s : State} :
    OnlyR [.hfAllow, .tim, .lanes, .red, .mem, .raw, .act, .stw, .twin, .sticky, .raisedNow, .inbox, .out, .links] s
    (execControlCellReceive lane cell stamp latAdj s) := by
  unfold execControlCellReceive
  dsimp only
  repeat' (first
    | with_reducible exact Only.refl _
    | with_reducible apply OnlyR.next
    | ((with_reducible apply Only.step State.onLane_only); exact rfl)
    | ((with_reducible apply Only.step linkLost_only); exact rfl)
    | ((with_reducible apply Only.step reselect_only); exact rfl)
    | ((with_reducible apply Only.step laneDrop_only); exact rfl)
    | ((with_reducible apply Only.step takeControl_only); exact rfl)
    | intro _
    | split)

theorem relayCell_only {lane : Nat} {part pay : Bytes} {s : State} : Only [.lanes] s (relayCell lane part pay s) := by
  unfold relayCell
  split
  · split
    · refine Only.onLane_sends fun b => ?_
      split
      · rfl
      · split <;> rfl
    · exact Only.refl s
  · exact Only.refl s

theorem unrelay_only {lane : Nat} {s : State} : Only [.lanes] s (unrelay lane s) :=
  Only.lanesMap fun l => by split <;> rfl

theorem takeCell_only {lane vc share : Nat} {hdr : Nat} {pay : Bytes} {s : State} : Only [.lanes, .inbox, .links] s
    (takeCell lane vc share hdr pay s) := by
  unfold takeCell
  dsimp only
  repeat' (first
    | with_reducible exact Only.refl _
    | ((with_reducible apply Only.step State.onLane_only); exact rfl)
    | ((with_reducible apply Only.step unrelay_only); exact rfl)
    | ((with_reducible apply Only.step relayCell_only); exact rfl)
    | intro _
    | split
    | ((with_reducible apply Only.step Only.put_inbox); exact rfl))

theorem recordDiscarded_only {lane : Nat} {part : Bytes} {s : State} : Only [.lanes, .red] s (recordDiscarded lane
    part s) := by
  unfold recordDiscarded
  dsimp only
  repeat' (first
    | with_reducible exact Only.refl _
    | ((with_reducible apply Only.step startRecovery_only); exact rfl)
    | split)

theorem discard_only {lane vc share counter : Nat} {hdrs : List Nat} {s : State} : Only [.lanes, .red, .links] s
    (discard lane vc share counter hdrs s) := by
  unfold discard
  dsimp only
  repeat' (first
    | with_reducible exact Only.refl _
    | ((with_reducible apply Only.step State.onLane_only); exact rfl)
    | ((with_reducible apply Only.step recordDiscarded_only); exact rfl)
    | ((with_reducible apply Only.step unrelay_only); exact rfl)
    | intro _
    | split)

theorem takeCells_only {lane vc share : Nat} {cells : List RxCell} {hs : List Nat} {ps : List Bytes} {s : State} :
    Only [.lanes, .red, .inbox, .links] s (takeCells lane vc share cells hs ps s) := by
  induction cells generalizing hs ps s with
  | nil => exact Only.refl s
  | cons c cs ih =>
    cases hs with
    | nil => exact Only.refl s
    | cons a hs =>
      cases ps with
      | nil => exact Only.refl s
      | cons p ps =>
        unfold takeCells
        dsimp only
        split
        · exact (takeCell_only.mono rfl).trans ih
        · exact (discard_only.mono rfl).trans ih

theorem execDataGroupReceive_only {lane : Nat} {cells : List RxCell} {s : State} : OnlyR [.hfAllow, .tim, .lanes,
    .red, .mem, .raw, .act, .stw, .twin, .sticky, .raisedNow, .inbox, .out, .links] s (execDataGroupReceive lane
    cells s) := by
  unfold execDataGroupReceive
  dsimp only
  repeat' (first
    | with_reducible exact Only.refl _
    | with_reducible apply OnlyR.next
    | ((with_reducible apply Only.step discard_only); exact rfl)
    | ((with_reducible apply Only.step State.onLane_only); exact rfl)
    | ((with_reducible apply Only.step takeCells_only); exact rfl)
    | ((with_reducible apply Only.step linkLost_only); exact rfl)
    | ((with_reducible apply Only.step laneDrop_only); exact rfl)
    | intro _
    | split)

theorem execLaneDetect_only {lane : Nat} {s : State} : OnlyR [.lanes, .links] s (execLaneDetect lane s) := by
  unfold execLaneDetect
  repeat' (first
    | with_reducible exact Only.refl _
    | with_reducible apply OnlyR.next
    | ((with_reducible apply Only.step State.onLane_only); exact rfl)
    | intro _
    | split)

theorem execEqualise_only {lane : Nat} {presets : List (BitVec 24 × Nat)} {s : State} : OnlyR [.lanes, .links] s
    (execEqualise lane presets s) := by
  unfold execEqualise
  repeat' (first
    | with_reducible exact Only.refl _
    | with_reducible apply OnlyR.next
    | ((with_reducible apply Only.step State.onLane_only); exact rfl))

theorem execPitchAlign_only {lane : Nat} {pitches : List (BitVec 56)} {seen : AlignSeen} {nonce : Bytes} {s : State}
    : OnlyR [.lanes, .out, .links] s (execPitchAlign lane pitches seen nonce s) := by
  unfold execPitchAlign
  dsimp only
  repeat' (first
    | with_reducible exact Only.refl _
    | with_reducible apply OnlyR.next
    | ((with_reducible apply Only.step State.onLane_only); exact rfl)
    | ((with_reducible apply Only.step State.emit_only); exact rfl)
    | intro _
    | split)

theorem execHello_only {lane : Nat} {h : Hello} {s : State} : OnlyR [.pins, .lanes, .mem, .raw, .act, .err, .stw,
    .evr, .boot, .mode, .twin, .sticky, .raisedNow, .links] s (execHello lane h s) := by
  unfold execHello
  dsimp only
  repeat' (first
    | with_reducible exact Only.refl _
    | with_reducible apply OnlyR.next
    | ((with_reducible apply Only.step belayRevisions_only); exact rfl)
    | ((with_reducible apply Only.step State.onLane_only); exact rfl)
    | ((with_reducible apply Only.step planMismatch_only); exact rfl)
    | ((with_reducible apply Only.step State.setBit_only); exact rfl)
    | ((with_reducible apply Only.step State.errCount_only); exact rfl)
    | intro _
    | split)

theorem execKeyed_only {lane : Nat} {fabBase : Nat} {nextEphemeral : Bytes} {s : State} : OnlyR [.pins, .tim,
    .lanes, .red, .age, .fab, .stw, .mode, .twin, .sticky, .raisedNow, .links] s (execKeyed lane fabBase
    nextEphemeral s) := by
  unfold execKeyed
  dsimp only
  repeat' (first
    | with_reducible exact Only.refl _
    | with_reducible apply OnlyR.next
    | ((with_reducible apply Only.step State.onLane_only); exact rfl)
    | ((with_reducible apply Only.step linkCameUp_only); exact rfl)
    | ((with_reducible apply Only.step retuneGo_only); exact rfl)
    | intro _
    | split
    | ((with_reducible apply Only.step Only.put_fab); exact rfl))

theorem execTrainTimeout_only {lane : Nat} {s : State} : OnlyR [.lanes, .links] s (execTrainTimeout lane s) := by
  unfold execTrainTimeout
  dsimp only
  repeat' (first
    | with_reducible exact Only.refl _
    | with_reducible apply OnlyR.next
    | ((with_reducible apply Only.step State.onLane_only); exact rfl))

theorem execLaneFailedRetry_only {lane : Nat} {s : State} : OnlyR [.lanes, .links] s (execLaneFailedRetry lane s) := by
  unfold execLaneFailedRetry
  dsimp only
  repeat' (first
    | with_reducible exact Only.refl _
    | with_reducible apply OnlyR.next
    | ((with_reducible apply Only.step State.onLane_only); exact rfl))

theorem execLaneLeaveUp_only {lane : Nat} {cdr : Bool} {s : State} : OnlyR [.hfAllow, .tim, .lanes, .red, .mem,
    .raw, .act, .stw, .twin, .sticky, .raisedNow, .out, .links] s (execLaneLeaveUp lane cdr s) := by
  unfold execLaneLeaveUp
  repeat' (first
    | with_reducible exact Only.refl _
    | with_reducible apply OnlyR.next
    | ((with_reducible apply Only.step linkLost_only); exact rfl)
    | ((with_reducible apply Only.step laneDrop_only); exact rfl))

theorem execMarkerLost_only {lane : Nat} {misses : Nat} {s : State} : OnlyR [.hfAllow, .tim, .lanes, .red, .mem,
    .raw, .act, .stw, .twin, .sticky, .raisedNow, .out, .links] s (execMarkerLost lane misses s) := by
  unfold execMarkerLost
  dsimp only
  repeat' (first
    | with_reducible exact Only.refl _
    | with_reducible apply OnlyR.next
    | ((with_reducible apply Only.step State.onLane_only); exact rfl)
    | ((with_reducible apply Only.step linkLost_only); exact rfl)
    | ((with_reducible apply Only.step laneDrop_only); exact rfl)
    | intro _
    | split)

theorem execKeyOffer_only {lane : Nat} {key : Bytes} {s : State} : OnlyR [.lanes, .inbox, .links] s (execKeyOffer
    lane key s) := by
  unfold execKeyOffer
  repeat' (first
    | with_reducible exact Only.refl _
    | with_reducible apply OnlyR.next
    | ((with_reducible apply Only.step State.taken_only); exact rfl)
    | ((with_reducible apply Only.step State.onLane_only); exact rfl))

theorem execKeyGeneration_only {lane : Nat} {nextEphemeral : Bytes} {s : State} : OnlyR [.lanes, .links] s
    (execKeyGeneration lane nextEphemeral s) := by
  unfold execKeyGeneration
  repeat' (first
    | with_reducible exact Only.refl _
    | with_reducible apply OnlyR.next
    | ((with_reducible apply Only.step State.onLane_only); exact rfl))

theorem execKeyTimeout_only {lane : Nat} {s : State} : OnlyR [.hfAllow, .tim, .lanes, .red, .mem, .raw, .act, .stw,
    .twin, .sticky, .raisedNow, .out, .links] s (execKeyTimeout lane s) := by
  unfold execKeyTimeout
  dsimp only
  repeat' (first
    | with_reducible exact Only.refl _
    | with_reducible apply OnlyR.next
    | ((with_reducible apply Only.step linkLost_only); exact rfl)
    | ((with_reducible apply Only.step laneDrop_only); exact rfl)
    | intro _
    | split)

theorem execSpareSwitch_only {lane : Nat} {failed : Nat} {mids : List (BitVec 32)} {s : State} : OnlyR [.lanes,
    .inbox, .links] s (execSpareSwitch lane failed mids s) := by
  unfold execSpareSwitch
  dsimp only
  repeat' (first
    | with_reducible exact Only.refl _
    | with_reducible apply OnlyR.next
    | ((with_reducible apply Only.step State.taken_only); exact rfl)
    | ((with_reducible apply Only.step State.onLane_only); exact rfl)
    | intro _
    | split)

theorem execSampleSet_only {m : Nat} {s : State} : OnlyR [.hfAllow, .lanes, .stw, .out] s (execSampleSet m s) := by
  unfold execSampleSet
  dsimp only
  repeat' (first
    | with_reducible exact Only.refl _
    | with_reducible apply onLeaf_only
    | ((with_reducible apply Only.step fail_only); exact rfl)
    | ((with_reducible apply Only.step bndDone_only); exact rfl)
    | with_reducible apply onRunning_only
    | intro _
    | split)

theorem execCntRead_only {m : Nat} {s : State} : OnlyR [.hfAllow, .lanes, .stw, .out] s (execCntRead m s) := by
  unfold execCntRead
  dsimp only
  repeat' (first
    | with_reducible exact Only.refl _
    | with_reducible apply onLeaf_only
    | ((with_reducible apply Only.step fail_only); exact rfl)
    | with_reducible apply onRunning_only
    | ((with_reducible apply Only.step done_only); exact rfl)
    | intro _
    | split)

theorem execTraceSet_only {m : Nat} {s : State} : OnlyR [.hfAllow, .lanes, .trc, .stw, .out] s (execTraceSet m s) := by
  unfold execTraceSet
  dsimp only
  repeat' (first
    | with_reducible exact Only.refl _
    | with_reducible apply onLeaf_only
    | ((with_reducible apply Only.step fail_only); exact rfl)
    | with_reducible apply onRunning_only
    | ((with_reducible apply Only.step State.onShareTrc_only); exact rfl)
    | ((with_reducible apply Only.step done_only); exact rfl)
    | intro _
    | split)

theorem execWatchFeedSet_only {m : Nat} {s : State} : OnlyR [.hfAllow, .lanes, .watch, .stw, .out] s
    (execWatchFeedSet m s) := by
  unfold execWatchFeedSet
  dsimp only
  repeat' (first
    | with_reducible exact Only.refl _
    | with_reducible apply onLeaf_only
    | ((with_reducible apply Only.step State.onWatch_only); exact rfl)
    | ((with_reducible apply Only.step fail_only); exact rfl)
    | with_reducible apply onRunning_only
    | ((with_reducible apply Only.step done_only); exact rfl)
    | intro _
    | split)

theorem execWatchSet_only {m : Nat} {s : State} : OnlyR [.hfAllow, .lanes, .watch, .stw, .out] s (execWatchSet m s) := by
  unfold execWatchSet
  dsimp only
  repeat' (first
    | with_reducible exact Only.refl _
    | with_reducible apply onLeaf_only
    | ((with_reducible apply Only.step State.onWatch_only); exact rfl)
    | ((with_reducible apply Only.step fail_only); exact rfl)
    | with_reducible apply onRunning_only
    | ((with_reducible apply Only.step done_only); exact rfl)
    | intro _
    | split)

theorem execWatchClear_only {m : Nat} {s : State} : OnlyR [.hfAllow, .lanes, .watch, .stw, .out] s (execWatchClear m
    s) := by
  unfold execWatchClear
  dsimp only
  repeat' (first
    | with_reducible exact Only.refl _
    | with_reducible apply onLeaf_only
    | ((with_reducible apply Only.step State.onWatch_only); exact rfl)
    | ((with_reducible apply Only.step fail_only); exact rfl)
    | with_reducible apply onRunning_only
    | ((with_reducible apply Only.step done_only); exact rfl)
    | intro _
    | split)

theorem execBrkResume_only {m : Nat} {s : State} : OnlyR [.hfAllow, .lanes, .brk, .stw, .out] s (execBrkResume m s) := by
  unfold execBrkResume
  dsimp only
  repeat' (first
    | with_reducible exact Only.refl _
    | with_reducible apply onLeaf_only
    | ((with_reducible apply Only.step fail_only); exact rfl)
    | ((with_reducible apply Only.step wait_only); exact rfl)
    | with_reducible apply onRunning_only
    | intro _
    | split
    | ((with_reducible apply Only.step Only.put_brk); exact rfl))

theorem execStopRelease_only {m : Nat} {s : State} : OnlyR [.hfAllow, .lanes, .stop, .stw, .sticky, .raisedNow,
    .out] s (execStopRelease m s) := by
  unfold execStopRelease
  dsimp only
  repeat' (first
    | with_reducible exact Only.refl _
    | with_reducible apply onLeaf_only
    | ((with_reducible apply Only.step fail_only); exact rfl)
    | with_reducible apply onRunning_only
    | ((with_reducible apply Only.step nameRelease_only); exact rfl)
    | ((with_reducible apply Only.step done_only); exact rfl)
    | intro _
    | split)

theorem trayResend_only {lane k subj ctx what : Nat} {twinRaw : List Bytes} {s : State} : Only [.lanes, .raw,
    .sticky, .raisedNow] s (trayResend lane k subj ctx what twinRaw s) := by
  unfold trayResend
  dsimp only
  repeat' (first
    | with_reducible exact Only.refl _
    | ((with_reducible apply Only.step sendTwin_only); exact rfl)
    | ((with_reducible apply Only.step noteCkpt_only); exact rfl)
    | ((with_reducible apply Only.step State.sendCtlAll_only); exact rfl)
    | ((with_reducible apply Only.step State.sendMsg_only); exact rfl)
    | ((with_reducible apply Only.step State.noteDecode_only); exact rfl)
    | with_reducible apply Only.foldl
    | with_reducible apply Only.elim
    | intro _
    | split)

theorem execResendReq_only {lane : Nat} {x : ResendIn} {s : State} : OnlyR [.lanes, .cap, .raw, .sticky, .raisedNow,
    .inbox] s (execResendReq lane x s) := by
  unfold execResendReq
  dsimp only
  repeat' (first
    | with_reducible exact Only.refl _
    | with_reducible apply whenClocked_only
    | with_reducible apply OnlyR.next
    | ((with_reducible apply Only.step State.taken_only); exact rfl)
    | ((with_reducible apply Only.step leafResend_only); exact rfl)
    | ((with_reducible apply Only.step trayResend_only); exact rfl)
    | intro _
    | split)

end Sys2Proof.Machine
end

section
/-!
PROOFS. The sampled straps stand over every command but POWER_ON_RESET (02 R79). Every command that is no reset may touch the
fields but the straps and the profile; the resets are taken one by one.
-/

namespace Sys2Proof.Machine

/-- What a command that is no reset may touch: all but the profile and the straps. -/
def Fld.live : List Fld :=
  [.cfg, .pins, .edges, .pwrEdge, .sb, .i3c, .hfAllow, .tim, .sched, .lanes, .cap, .ctxs, .setups, .red, .trc,
   .watch, .lateReads, .stop, .brk, .capt, .captOut, .mem, .chans, .raw, .act, .grant, .err, .age, .otp,
   .optime, .fab, .stw, .flash, .evr, .ident, .boot, .hangs, .hostStall, .dump, .mode, .twin, .sticky,
   .raisedNow, .latches, .inbox, .out, .pending, .links]

theorem OnlyR.mono {F A : List Fld} {s : State} {r : Res} (h : OnlyR A s r) (hA : A.all F.contains = true) :
    OnlyR F s r := by
  unfold OnlyR at h ⊢
  split
  · exact Only.mono h hA
  · trivial

theorem exec_live (s : State) : ∀ c : Instr, writesCause c = false → OnlyR Fld.live s (exec c s)
  | .powerOnReset .., h => nomatch h
  | .rstBlkN .., h => nomatch h
  | .pllLock, _ => execPllLock_only.mono rfl
  | .romRecoveryDatagram .., _ => execRomRecoveryDatagram_only.mono rfl
  | .bootDescriptorPoll .., _ => execBootDescriptorPoll_only.mono rfl
  | .clockTick .., _ => execClockTick_only.mono rfl
  | .epochBoundary .., _ => execEpochBoundary_only.mono rfl
  | .stookLatch .., _ => execStookLatch_only.mono rfl
  | .stookLatchTimeout .., _ => execStookLatchTimeout_only.mono rfl
  | .stookHoldLoad .., _ => execStookHoldLoad_only.mono rfl
  | .stookHostReset .., _ => execStookHostReset_only.mono rfl
  | .subBoundary .., _ => execSubBoundary_only.mono rfl
  | .captureBusArbitration .., _ => execCaptureBusArbitration_only.mono rfl
  | .trcToken, _ => execTrcToken_only.mono rfl
  | .leafCutRecordSend, _ => execLeafCutRecordSend_only.mono rfl
  | .timIncFracWrite .., _ => execTimIncFracWrite_only.mono rfl
  | .timIncIntWrite .., _ => execTimIncIntWrite_only.mono rfl
  | .timSet .., _ => execTimSet_only.mono rfl
  | .timStep .., _ => execTimStep_only.mono rfl
  | .timNowRead .., _ => execTimNowRead_only.mono rfl
  | .evrOptRead .., _ => execEvrOptRead_only.mono rfl
  | .timDupFail, _ => execTimDupFail_only.mono rfl
  | .timeExchangeOpen .., _ => execTimeExchangeOpen_only.mono rfl
  | .timeReqReceive .., _ => execTimeReqReceive_only.mono rfl
  | .timeFollowSend .., _ => execTimeFollowSend_only.mono rfl
  | .timeExchangeComplete .., _ => execTimeExchangeComplete_only.mono rfl
  | .ppsInEdge .., _ => execPpsInEdge_only.mono rfl
  | .ppsOutPulse, _ => execPpsOutPulse_only.mono rfl
  | .slotSyncEdge .., _ => execSlotSyncEdge_only.mono rfl
  | .slotPhaseWindow, _ => execSlotPhaseWindow_only.mono rfl
  | .ptpMessageReceive .., _ => execPtpMessageReceive_only.mono rfl
  | .pitchAlign .., _ => execPitchAlign_only.mono rfl
  | .markerLost .., _ => execMarkerLost_only.mono rfl
  | .dataPosition .., _ => execDataPosition_only.mono rfl
  | .controlCellSend .., _ => execControlCellSend_only.mono rfl
  | .controlCellReceive .., _ => execControlCellReceive_only.mono rfl
  | .dataGroupReceive .., _ => execDataGroupReceive_only.mono rfl
  | .laneDetect .., _ => execLaneDetect_only.mono rfl
  | .equalise .., _ => execEqualise_only.mono rfl
  | .hello .., _ => execHello_only.mono rfl
  | .auth .., _ => execAuth_only.mono rfl
  | .keyed .., _ => execKeyed_only.mono rfl
  | .trainTimeout .., _ => execTrainTimeout_only.mono rfl
  | .laneFailedRetry .., _ => execLaneFailedRetry_only.mono rfl
  | .laneLeaveUp .., _ => execLaneLeaveUp_only.mono rfl
  | .keyOffer .., _ => execKeyOffer_only.mono rfl
  | .keyGeneration .., _ => execKeyGeneration_only.mono rfl
  | .keyTimeout .., _ => execKeyTimeout_only.mono rfl
  | .spareSwitch .., _ => execSpareSwitch_only.mono rfl
  | .grant .., _ => execGrant_only.mono rfl
  | .arm .., _ => execArm_only.mono rfl
  | .armAck .., _ => execArmAck_only.mono rfl
  | .confirm .., _ => execConfirm_only.mono rfl
  | .cancel .., _ => execCancel_only.mono rfl
  | .decisionEcho .., _ => execDecisionEcho_only.mono rfl
  | .holdNotice .., _ => execHoldNotice_only.mono rfl
  | .resendReq .., _ => execResendReq_only.mono rfl
  | .memberQuery .., _ => execMemberQuery_only.mono rfl
  | .memberAnswer .., _ => execMemberAnswer_only.mono rfl
  | .memberDecide .., _ => execMemberDecide_only.mono rfl
  | .leafStatus .., _ => execLeafStatus_only.mono rfl
  | .schedSync .., _ => execSchedSync_only.mono rfl
  | .leafCutRecord .., _ => execLeafCutRecord_only.mono rfl
  | .intervalRecord .., _ => execIntervalRecord_only.mono rfl
  | .captureMessage .., _ => execCaptureMessage_only.mono rfl
  | .ctxSetup .., _ => execCtxSetup_only.mono rfl
  | .childSheaf .., _ => execChildSheaf_only.mono rfl
  | .shardPartial .., _ => execShardPartial_only.mono rfl
  | .contributionMerge .., _ => execContributionMerge_only.mono rfl
  | .sheafPublish .., _ => execSheafPublish_only.mono rfl
  | .publishFaddReturn .., _ => execPublishFaddReturn_only.mono rfl
  | .memberWaitDeadline .., _ => execMemberWaitDeadline_only.mono rfl
  | .memberQueryRetry .., _ => execMemberQueryRetry_only.mono rfl
  | .resendRetry .., _ => execResendRetry_only.mono rfl
  | .resendSourceTimeout .., _ => execResendSourceTimeout_only.mono rfl
  | .rawRingLog .., _ => execRawRingLog_only.mono rfl
  | .rawCopyPath .., _ => execRawCopyPath_only.mono rfl
  | .checkpointWrite, _ => execCheckpointWrite_only.mono rfl
  | .armLevelDeadline .., _ => execArmLevelDeadline_only.mono rfl
  | .armAckDeadline .., _ => execArmAckDeadline_only.mono rfl
  | .armDecideBy .., _ => execArmDecideBy_only.mono rfl
  | .thresherUpdate .., _ => execThresherUpdate_only.mono rfl
  | .slotLate, _ => execSlotLate_only.mono rfl
  | .rowCopy .., _ => execRowCopy_only.mono rfl
  | .hotRowInstall .., _ => execHotRowInstall_only.mono rfl
  | .deepInstall .., _ => execDeepInstall_only.mono rfl
  | .rowRepair .., _ => execRowRepair_only.mono rfl
  | .patrolScrub .., _ => execPatrolScrub_only.mono rfl
  | .sramScrub .., _ => execSramScrub_only.mono rfl
  | .sramRowRepair .., _ => execSramRowRepair_only.mono rfl
  | .hbmPpr .., _ => execHbmPpr_only.mono rfl
  | .scoreStart .., _ => execScoreStart_only.mono rfl
  | .scoreComplete .., _ => execScoreComplete_only.mono rfl
  | .winLate, _ => execWinLate_only.mono rfl
  | .leafFeatureUpdate .., _ => execLeafFeatureUpdate_only.mono rfl
  | .leafModelScore .., _ => execLeafModelScore_only.mono rfl
  | .grantStep, _ => execGrantStep_only.mono rfl
  | .grantLate, _ => execGrantLate_only.mono rfl
  | .grantOffer .., _ => execGrantOffer_only.mono rfl
  | .pgAck, _ => execPgAck_only.mono rfl
  | .grantNoAck, _ => execGrantNoAck_only.mono rfl
  | .grantStale, _ => execGrantStale_only.mono rfl
  | .loopPeriod .., _ => execLoopPeriod_only.mono rfl
  | .loopMasterTakeover, _ => execLoopMasterTakeover_only.mono rfl
  | .v42Stb .., _ => execV42Stb_only.mono rfl
  | .busSenseLost, _ => execBusSenseLost_only.mono rfl
  | .converterLimitWrite .., _ => execConverterLimitWrite_only.mono rfl
  | .smbAlert, _ => execSmbAlert_only.mono rfl
  | .trcSampleSlot .., _ => execTrcSampleSlot_only.mono rfl
  | .trcVld .., _ => execTrcVld_only.mono rfl
  | .noResponse, _ => execNoResponse_only.mono rfl
  | .watchFeedPoll .., _ => execWatchFeedPoll_only.mono rfl
  | .watchFeedRead .., _ => execWatchFeedRead_only.mono rfl
  | .watchDumpRead .., _ => execWatchDumpRead_only.mono rfl
  | .stopOutRise, _ => execStopOutRise_only.mono rfl
  | .stopDone, _ => execStopDone_only.mono rfl
  | .stopDoneWait, _ => execStopDoneWait_only.mono rfl
  | .scanSegment .., _ => execScanSegment_only.mono rfl
  | .stopReleaseTime, _ => execStopReleaseTime_only.mono rfl
  | .autoReleased, _ => execAutoReleased_only.mono rfl
  | .brkVld .., _ => execBrkVld_only.mono rfl
  | .drainWindow, _ => execDrainWindow_only.mono rfl
  | .drnDone, _ => execDrnDone_only.mono rfl
  | .drainWindowEnd, _ => execDrainWindowEnd_only.mono rfl
  | .drnPortFault, _ => execDrnPortFault_only.mono rfl
  | .contextDrainComplete .., _ => execContextDrainComplete_only.mono rfl
  | .contextHardCap .., _ => execContextHardCap_only.mono rfl
  | .tenantRecordRelease .., _ => execTenantRecordRelease_only.mono rfl
  | .hangDetect .., _ => execHangDetect_only.mono rfl
  | .unitReset .., _ => execUnitReset_only.mono rfl
  | .stewardWatchdog .., h => nomatch h
  | .mailboxTurn .., _ => execMailboxTurn_only.mono rfl
  | .teamRelayEcho .., _ => execTeamRelayEcho_only.mono rfl
  | .leafImageLoad .., _ => execLeafImageLoad_only.mono rfl
  | .statusPageWrite, _ => execStatusPageWrite_only.mono rfl
  | .mgmtDatagram .., _ => execMgmtDatagram_only.mono rfl
  | .attachPhase .., _ => execAttachPhase_only.mono rfl
  | .startWait, _ => execStartWait_only.mono rfl
  | .recorderPeriodEnd, _ => execRecorderPeriodEnd_only.mono rfl
  | .recordFlashWrite .., _ => execRecordFlashWrite_only.mono rfl
  | .ageingPoint, _ => execAgeingPoint_only.mono rfl
  | .vmAck, _ => execVmAck_only.mono rfl
  | .vmNak, _ => execVmNak_only.mono rfl
  | .vmTimeout, _ => execVmTimeout_only.mono rfl
  | .urgentStep, _ => execUrgentStep_only.mono rfl
  | .svnRaise, _ => execSvnRaise_only.mono rfl
  | .hourMark, _ => execHourMark_only.mono rfl
  | .tallyOperation .., _ => execTallyOperation_only.mono rfl
  | .tallyWriteback .., _ => execTallyWriteback_only.mono rfl
  | .fabricStore .., _ => execFabricStore_only.mono rfl
  | .regWindowRead .., _ => execRegWindowRead_only.mono rfl
  | .regWindowWrite .., _ => execRegWindowWrite_only.mono rfl
  | .sidebandAccess .., _ => execSidebandAccess_only.mono rfl
  | .registerWrite .., _ => execRegisterWrite_only.mono rfl
  | .winTransientCntRead .., _ => execWinTransientCntRead_only.mono rfl
  | .errCntRead .., _ => execErrCntRead_only.mono rfl
  | .mbxAttach .., _ => execMbxAttach_only.mono rfl
  | .configStore .., _ => execConfigStore_only.mono rfl
  | .configApply .., _ => execConfigApply_only.mono rfl
  | .fwStore .., _ => execFwStore_only.mono rfl
  | .fwActivate .., _ => execFwActivate_only.mono rfl
  | .regRead .., _ => execRegRead_only.mono rfl
  | .epochSet .., _ => execEpochSet_only.mono rfl
  | .sampleSet .., _ => execSampleSet_only.mono rfl
  | .cntRead .., _ => execCntRead_only.mono rfl
  | .traceSet .., _ => execTraceSet_only.mono rfl
  | .watchFeedSet .., _ => execWatchFeedSet_only.mono rfl
  | .watchSet .., _ => execWatchSet_only.mono rfl
  | .watchClear .., _ => execWatchClear_only.mono rfl
  | .brkResume .., _ => execBrkResume_only.mono rfl
  | .stopArm .., _ => execStopArm_only.mono rfl
  | .stopRelease .., _ => execStopRelease_only.mono rfl
  | .planLoad .., _ => execPlanLoad_only.mono rfl
  | .planSet .., _ => execPlanSet_only.mono rfl
  | .pubAreaSet .., _ => execPubAreaSet_only.mono rfl
  | .ckptAreaSet .., _ => execCkptAreaSet_only.mono rfl
  | .captAreaSet .., _ => execCaptAreaSet_only.mono rfl
  | .tallySet .., _ => execTallySet_only.mono rfl
  | .tallyClear .., _ => execTallyClear_only.mono rfl
  | .tableLoad .., _ => execTableLoad_only.mono rfl
  | .tableSeed .., _ => execTableSeed_only.mono rfl
  | .tableDrop .., _ => execTableDrop_only.mono rfl
  | .rowLoad .., _ => execRowLoad_only.mono rfl
  | .modelLoad .., _ => execModelLoad_only.mono rfl
  | .modelDrop .., _ => execModelDrop_only.mono rfl
  | .placeLoad .., _ => execPlaceLoad_only.mono rfl
  | .actLoad .., _ => execActLoad_only.mono rfl
  | .grantPolicySet .., _ => execGrantPolicySet_only.mono rfl
  | .loopSet .., _ => execLoopSet_only.mono rfl
  | .ctxOpen .., _ => execCtxOpen_only.mono rfl
  | .ctxClose .., _ => execCtxClose_only.mono rfl
  | .ctxReset .., _ => execCtxReset_only.mono rfl
  | .recordRead .., _ => execRecordRead_only.mono rfl
  | .recordPeriodSet .., _ => execRecordPeriodSet_only.mono rfl
  | .certRead .., _ => execCertRead_only.mono rfl
  | .evidenceSign .., _ => execEvidenceSign_only.mono rfl
  | .blockReset .., _ => execBlockReset_only.mono rfl
  | .dumpTake .., _ => execDumpTake_only.mono rfl
  | .twinDetach .., _ => execTwinDetach_only.mono rfl
  | .twinAttach .., _ => execTwinAttach_only.mono rfl
  | .stkClkEdge .., _ => execStkClkEdge_only.mono rfl
  | .powerLoss, h => nomatch h
  | .lowestWordRead .., _ => execLowestWordRead_only.mono rfl
  | .optimeSecond, _ => execOptimeSecond_only.mono rfl
  | .ntpMessageReceive .., _ => execNtpMessageReceive_only.mono rfl
  | .fabricFadd .., _ => execFabricFadd_only.mono rfl
  | .sideBDecide .., _ => execSideBDecide_only.mono rfl
  | .belayViewSend .., _ => execBelayViewSend_only.mono rfl

/-! ## The resets -/

theorem openDump_straps (s : State) : (openDump s).straps = s.straps := openDump_only.same .straps rfl

theorem start_straps (found : StartFound) (s : State) : (start found s).straps = s.straps := start_only.same .straps rfl

theorem blockReset_straps (cause : ResetCause) (found : StartFound) (s : State) :
    (blockReset cause found s).straps = s.straps := by
  rw [blockReset, start_straps]
  exact openDump_straps s

theorem autoDump_straps (stw : Bool) (f : Option Nat) (scan : UnitScan) (s : State) :
    (autoDump stw f scan s).straps = s.straps := autoDump_only.same .straps rfl

theorem dupMismatch_straps (settled : Bool) (s : State) : (dupMismatch settled s).straps = s.straps :=
  dupMismatch_only.same .straps rfl

theorem exec_rstBlkN_straps {cause : ResetCause} {found : StartFound} {s t : State}
    (h : exec (.rstBlkN cause found) s = .next t) : t.straps = s.straps := by
  rw [exec, execRstBlkN] at h
  cases h
  split
  · exact blockReset_straps cause found s
  · rfl

theorem exec_stewardWatchdog_straps {fault : StewardFault} {scan : UnitScan} {found : StartFound} {s t : State}
    (h : exec (.stewardWatchdog fault scan found) s = .next t) : t.straps = s.straps := by
  rw [exec] at h
  unfold execStewardWatchdog at h
  cases h
  split
  · rfl
  · split
    · split
      · rw [blockReset_straps, autoDump_straps]
      · rfl
    · exact dupMismatch_straps true s
    · rw [blockReset_straps, autoDump_straps, dupMismatch_straps]
    · rw [blockReset_straps, autoDump_straps]

/-- Settles O6: a command that is no reset touches no straps, a loss of power and the block resets keep them. -/
theorem strapsChangeOnlyAtPowerOn : Obligations.StrapsChangeOnlyAtPowerOn := by
  intro c s t hc hexec
  cases hcause : writesCause c with
  | false =>
    have honly := exec_live s c hcause
    rw [hexec] at honly
    exact Only.same honly .straps rfl
  | true =>
    unfold writesCause at hcause
    split at hcause
    · exact absurd rfl (hc _ _)
    · rw [exec, execPowerLoss] at hexec
      cases hexec
      rfl
    · exact exec_rstBlkN_straps hexec
    · exact exec_stewardWatchdog_straps hexec
    · cases hcause

end Sys2Proof.Machine
end

section
/-!
PROOFS. The training of a lane (06 R179 to R181), its key generations (06 R176) and the switch to a sparing partner (06
R183). Each command is a change of its lane; what follows it only queues messages on lanes.
-/

namespace Sys2Proof.Machine

/-! ## One lane of a state -/

theorem lane?_n {s : State} {n : Nat} {l : Lane} (h : s.lane? n = some l) : l.n = n := by
  simpa using List.find?_some h

theorem lane?_of_lanes {s t : State} (h : t.lanes = s.lanes) (m : Nat) : t.lane? m = s.lane? m := by
  rw [State.lane?, State.lane?, h]

section OnLane
variable {s : State} {n : Nat} {l : Lane} {f : Lane → Lane}

theorem lane?_onLane_of_key (hf : ∀ x, x.n = n → (f x).n = n) (s : State) (m : Nat) :
    (s.onLane n f).lane? m = if m = n then (s.lane? m).map f else s.lane? m :=
  find_mapIf_of_key (fun x : Lane => x.n) hf s.lanes m

theorem lane?_onLane_same (h : s.lane? n = some l) (hf : ∀ x, x.n = n → (f x).n = n) :
    (s.onLane n f).lane? n = some (f l) := by
  rw [lane?_onLane_of_key hf, if_pos rfl, h, Option.map_some]

theorem lane?_onLane_other {m : Nat} (hm : m ≠ n) (hf : ∀ x, x.n = n → (f x).n = n) :
    (s.onLane n f).lane? m = s.lane? m := by
  rw [lane?_onLane_of_key hf, if_neg hm]

theorem onLane_onlyLane (h : s.lane? n = some l) (hf : ∀ x, x.n = n → (f x).n = n) :
    onlyLane n (f l) s (s.onLane n f) :=
  ⟨rfl, lane?_onLane_same h hf, fun _ hm => lane?_onLane_other hm hf⟩

end OnLane

/-! ## Lanes on which something is queued -/

theorem find_map_core (ls : List Lane) (n : Nat) :
    (ls.map Lane.core).find? (·.n == n) = (ls.find? (·.n == n)).map Lane.core := by
  rw [List.find?_map]
  rfl

/-- Lanes that differ in what is queued on them alone are found with the same core. -/
theorem lane?_of_links {s t : State} {n : Nat} {l : Lane} (hlinks : t.lanes.map Lane.core = s.lanes.map Lane.core)
    (h : s.lane? n = some l) : ∃ l', t.lane? n = some l' ∧ l'.core = l.core := by
  have hcore : (t.lane? n).map Lane.core = (s.lane? n).map Lane.core := by
    rw [State.lane?, State.lane?, ← find_map_core, ← find_map_core, hlinks]
  rw [h, Option.map_some] at hcore
  exact Option.map_eq_some_iff.mp hcore

/-- A step that touches no lane but to queue on it finds the lane with its core. -/
theorem Only.lane? {F : List Fld} {s t : State} {n : Nat} {l : Lane} (h : Only F s t)
    (hF : F.contains .links = false) (hl : s.lane? n = some l) : ∃ l', t.lane? n = some l' ∧ l'.core = l.core :=
  lane?_of_links (h.same .links hF) hl

/-- Fields of a lane that stand when only its queues have changed. -/
theorem core_eq_iff {l l' : Lane} (h : l'.core = l.core) :
    l'.st = l.st ∧ l'.cause = l.cause ∧ l'.keys = l.keys ∧ l'.active = l.active ∧ l'.ctr = l.ctr ∧ l'.peer = l.peer ∧
      l'.minor = l.minor ∧ l'.peerProto = l.peerProto ∧ l'.overruns = l.overruns ∧ l'.rot = l.rot :=
  ⟨(congrArg Lane.st h :), (congrArg Lane.cause h :), (congrArg Lane.keys h :), (congrArg Lane.active h :), (congrArg Lane.ctr h :),
    (congrArg Lane.peer h :), (congrArg Lane.minor h :), (congrArg Lane.peerProto h :), (congrArg Lane.overruns h :),
    (congrArg Lane.rot h :)⟩

/-! ## A lane leaves UP -/

theorem Lane.place_n (l : Lane) (m : Bytes) : (l.place m).n = l.n := (congrArg Lane.n (l.place_core m) :)

theorem laneDrop_lane {s : State} {n : Nat} {l : Lane} (cause : Nat) (h : s.lane? n = some l) (htrained : l.trained = true) :
    ∃ l', (laneDrop n cause s).lane? n = some l' ∧ l'.st = .detect ∧ l'.cause = cause ∧ l'.keys = none ∧
      l'.active = false ∧ l'.ctr = l.ctr.modify 11 (· + 1) ∧ l'.freed = l.freed := by
  have hdrop : (s.onLane n fun l => (l.toDetect cause s.now).bump 11).lane? n = some ((l.toDetect cause s.now).bump 11) :=
    lane?_onLane_same h fun _ h => h
  unfold laneDrop
  rw [h]
  dsimp only
  rw [htrained, if_pos rfl]
  split
  · split
    · next p _ =>
      by_cases hp : n = p
      · subst hp
        have hplace := lane?_onLane_same (f := fun x : Lane =>
          { x.place (spareSwitchMsg n l.midsDelivered) with spareSent := some n }) hdrop
          fun x hx => (x.place_n _).trans hx
        have hcore := ((l.toDetect cause s.now).bump 11).place_core (spareSwitchMsg n l.midsDelivered)
        exact ⟨_, hplace, (congrArg Lane.st hcore :), (congrArg Lane.cause hcore :), (congrArg Lane.keys hcore :),
          (congrArg Lane.active hcore :), (congrArg Lane.ctr hcore :), (congrArg Lane.freed hcore :)⟩
      · refine ⟨_, (lane?_onLane_other hp ?_).trans hdrop, rfl, rfl, rfl, rfl, rfl, rfl⟩
        exact fun x hx => (x.place_n _).trans hx
    · exact ⟨_, hdrop, rfl, rfl, rfl, rfl, rfl, rfl⟩
  · exact ⟨_, hdrop, rfl, rfl, rfl, rfl, rfl, rfl⟩

theorem linkLost_laneDrop {s : State} {n : Nat} {l : Lane} (cause : Nat) (h : s.lane? n = some l)
    (htrained : l.trained = true) : ∃ l', (linkLost (laneDrop n cause s)).lane? n = some l' ∧ l'.st = .detect ∧
      l'.cause = cause ∧ l'.keys = none ∧ l'.active = false ∧ l'.ctr = l.ctr.modify 11 (· + 1) := by
  obtain ⟨l1, hl1, hst, hcause, hkeys, hactive, hctr, -⟩ := laneDrop_lane cause h htrained
  obtain ⟨l2, hl2, hcore⟩ := linkLost_only.lane? rfl hl1
  obtain ⟨hst', hcause', hkeys', hactive', hctr', -⟩ := core_eq_iff hcore
  exact ⟨l2, hl2, hst'.trans hst, hcause'.trans hcause, hkeys'.trans hkeys, hactive'.trans hactive, hctr'.trans hctr⟩

/-! ## HELLO -/

theorem lane?_map {f : Lane → Lane} (hf : ∀ x, (f x).n = x.n) (ls : List Lane) (n : Nat) :
    (ls.map f).find? (·.n == n) = (ls.find? (·.n == n)).map f := by
  rw [List.find?_map, show ((fun x : Lane => x.n == n) ∘ f) = (·.n == n) from funext fun x => congrArg (· == n) (hf x)]

/-- A lane that is not UP keeps its state as the instance enters bivouac. -/
theorem enterBivouac_lane {s : State} {n : Nat} {l : Lane} (cause item : Nat) (h : s.lane? n = some l)
    (hst : l.st ≠ .up) : ∃ l', (enterBivouac cause item s).lane? n = some l' ∧ l'.core = l.core := by
  have hpark : ∀ x : Lane, (if x.st == .up && !x.plan.use.isFabric then { x with st := .standby, active := false }
      else x).n = x.n := fun x => by split <;> rfl
  have hstays : ∀ x : Lane, x.st ≠ .up →
      (if x.st == .up && !x.plan.use.isFabric then { x with st := .standby, active := false } else x) = x :=
    fun x hx => if_neg (by simp [hx])
  unfold enterBivouac
  split
  · obtain ⟨l1, hl1, hcore⟩ := (State.sendLeafStatus_only (kind := 2) (args := [s.curEpoch]) (s := { s with
      mode := .bivouac
      boot := { s.boot with bivCause := cause, semItem := item, shown := .bivouac }
      pins := { s.pins with blkLive := true }
      twin := { s.twin with paired := false }
      stw := { s.stw with scanning := true }
      evr := { s.evr with bivSeen := true } })).lane? rfl h
    have hst1 : l1.st ≠ .up := fun h => hst ((congrArg Lane.st hcore).symm.trans h)
    exact ⟨l1, (lane?_map hpark _ n).trans ((congrArg _ hl1).trans (congrArg some (hstays l1 hst1))), hcore⟩
  · exact ⟨l, (lane?_map hpark _ n).trans ((congrArg _ h).trans (congrArg some (hstays l hst))), rfl⟩

theorem planMismatch_lane {s : State} {n : Nat} {l : Lane} (h : s.lane? n = some l) (hst : l.st ≠ .up) :
    ∃ l', (planMismatch s).lane? n = some l' ∧ l'.core = l.core := by
  unfold planMismatch
  split
  · exact enterBivouac_lane _ _ h hst
  · exact ⟨l, h, rfl⟩

/-- A lane as it has seen the far end's HELLO. -/
def Lane.seen (h : Hello) (l : Lane) : Lane := { l with peerLane := BitVec.ofNat 8 h.lane, peerProto := h.proto }

/-- A lane that goes on to AUTH with the far end's HELLO. -/
def Lane.toAuth (h : Hello) (now : Ticks) (l : Lane) : Lane :=
  { l.enter .auth now with peer := some h, minor := minorOf h }

section Hello
variable {s : State} {lane : Nat} {l : Lane} {h : Hello}

theorem exec_hello_revision (hl : s.lane? lane = some l) (hst : l.st = .hello) (hproto : h.proto >>> 4 ≠ 2#8) :
    exec (.hello lane h) s = .next ((s.onLane lane (Lane.seen h)).onLane lane fun l => l.toDetect 5 s.now) := by
  have hother : (h.proto >>> 4 != ownProto >>> 4) = true := bne_iff_ne.mpr hproto
  rw [exec, execHello, hl]
  simp only [hst, bne_self_eq_false, Bool.false_eq_true, if_false, hother, if_true]
  rfl

theorem exec_hello_misfit (hl : s.lane? lane = some l) (hst : l.st = .hello) (hproto : h.proto >>> 4 = 2#8)
    (hcheck : s.checksPlan = true) (hfits : helloFits s l h = false) : exec (.hello lane h) s =
      .next (planMismatch ((s.onLane lane (Lane.seen h)).onLane lane fun l => l.toDetect 7 s.now)) := by
  have hsame : (h.proto >>> 4 != ownProto >>> 4) = false := by rw [hproto]; rfl
  rw [exec, execHello, hl]
  simp only [hst, bne_self_eq_false, Bool.false_eq_true, if_false, hsame, hcheck, hfits, Bool.not_false, Bool.and_self,
    if_true]
  rfl

theorem exec_hello_fits (hl : s.lane? lane = some l) (hst : l.st = .hello) (hproto : h.proto >>> 4 = 2#8)
    (hfits : helloFits s l h = true) (hfree : ∀ n, l.plan.use = .down n → leafIdTaken s n h = false) : ∃ t,
    Only [.mem, .raw, .stw, .twin, .sticky, .raisedNow] ((s.onLane lane (Lane.seen h)).onLane lane (Lane.toAuth h s.now)) t ∧
    exec (.hello lane h) s = .next t := by
  have hsame : (h.proto >>> 4 != ownProto >>> 4) = false := by rw [hproto]; rfl
  rw [exec, execHello, hl]
  simp only [hst, bne_self_eq_false, Bool.false_eq_true, if_false, hsame, hfits, Bool.not_true, Bool.and_false]
  split
  · next n hn =>
    rw [hfree n hn, if_neg Bool.false_ne_true]
    exact ⟨_, Only.refl _, rfl⟩
  · exact ⟨_, belayRevisions_only, rfl⟩
  · exact ⟨_, Only.refl _, rfl⟩

end Hello

/-! ## AUTH and KEYED -/

theorem Lane.deriveNext_fields (l : Lane) (lower : Bool) : (l.deriveNext lower).n = l.n ∧ (l.deriveNext lower).st = l.st ∧
    (l.deriveNext lower).overruns = l.overruns ∧ (l.deriveNext lower).rot = l.rot ∧
    (l.deriveNext lower).keys = l.keys ∧ (l.deriveNext lower).offerPeer = l.offerPeer := by
  unfold Lane.deriveNext
  split <;> exact ⟨rfl, rfl, rfl, rfl, rfl, rfl⟩

theorem Lane.comeUp_fields (l : Lane) (now : Ticks) (lower standBy : Bool) (eph : Bytes) :
    (l.comeUp now lower standBy eph).n = l.n ∧
    (l.comeUp now lower standBy eph).st = (if l.plan.active && !standBy then .up else .standby) ∧
    (l.comeUp now lower standBy eph).overruns = 0 ∧ (l.comeUp now lower standBy eph).rot = 0 := by
  unfold Lane.comeUp
  obtain ⟨hn, hst, hover, hrot, -⟩ := Lane.deriveNext_fields { l with
    st := if l.plan.active && !standBy then .up else .standby
    since := now
    overruns := 0
    active := l.plan.active && !standBy
    rot := 0
    retunePending := false
    offerOwn := some eph
    offerQ := [keyOfferMsg eph] } lower
  exact ⟨hn, hst, hover, hrot⟩

theorem exec_keyed {s : State} {lane : Nat} {l : Lane} (base : Nat) (eph : Bytes) (hl : s.lane? lane = some l)
    (hst : l.st = .keyed) (hrun : 64 ≤ l.exchRun) (hcause : l.cause ≠ 10) : ∃ t,
    Only [.pins, .tim, .lanes, .red, .fab, .stw, .mode, .twin, .sticky, .raisedNow]
      (s.onLane lane fun l => l.comeUp s.now (s.isLower l) (s.standsBy l) eph) t ∧
    exec (.keyed lane base eph) s = .next t := by
  have hready : (l.st == .keyed && 64 ≤ l.exchRun) = true := by simp [hst, hrun]
  have hbase : ∀ u : State, Only [.fab] u (if l.plan.use.isFabric && u.fab.base.isNone then
      { u with fab := { u.fab with base := some (base / 2 ^ 41 * 2 ^ 41) } } else u) := fun u => by
    split
    · exact Only.put_fab
    · exact Only.refl u
  refine ⟨_, Only.step (linkCameUp_only (lane := lane) (u := l.plan.use)) rfl ((hbase _).mono rfl), ?_⟩
  rw [exec, execKeyed, hl]
  simp only [hready, if_true, beq_false_of_ne hcause, Bool.false_eq_true, if_false]

theorem exec_auth {s : State} {lane : Nat} {l : Lane} {h : Hello} (a : AuthIn) (hl : s.lane? lane = some l)
    (hst : l.st = .auth) (hpeer : l.peer = some h) (hkeys : l.authKeys = none) : ∃ o f,
    exec (.auth lane a) s = .next ((s.emit o).onLane lane f) ∧ (∀ x, (f x).n = x.n) ∧
      ((f l).st = .auth ∧ (f l).authKeys.isSome = true ∧ (f l).keys = l.keys ∨
        (f l).st = .detect ∧ (f l).cause = 6 ∧ (f l).keys = none) := by
  rw [exec, execAuth, hl]
  simp only [hst, hpeer, hkeys, Option.isSome_none, Bool.false_eq_true, if_false]
  split
  · exact ⟨_, _, rfl, fun _ => rfl, .inl ⟨hst, rfl, rfl⟩⟩
  · exact ⟨_, _, rfl, fun _ => rfl, .inr ⟨rfl, rfl, rfl⟩⟩

/-! ## The time limits -/

/-- A lane that overruns the time of its state (R179). -/
def Lane.overrun (now : Ticks) (l : Lane) : Lane :=
  let l' := { l.toDetect 9 now with overruns := l.overruns + 1 }
  if 3 ≤ l'.overruns then l'.enter .failed now else l'

theorem Lane.overrun_fields (now : Ticks) (l : Lane) : (l.overrun now).overruns = l.overruns + 1 ∧
    (l.overrun now).cause = 9 ∧ (l.overrun now).st = (if 3 ≤ l.overruns + 1 then .failed else .detect) ∧
    (l.overrun now).keys = none := by
  unfold Lane.overrun
  dsimp only
  split
  · exact ⟨rfl, rfl, rfl, rfl⟩
  · exact ⟨rfl, rfl, rfl, rfl⟩

/-- A lane whose state has a time limit, checked against it. -/
def Lane.checkTime (s : State) (l : Lane) : Lane :=
  match stateLimit l.st with
  | some lim => if l.since + lim < s.now && !(l.st == .detect && s.equalisesFull) then l.overrun s.now else l
  | none => l

theorem Lane.checkTime_n (s : State) (l : Lane) : (l.checkTime s).n = l.n := by
  unfold Lane.checkTime Lane.overrun
  split
  · split
    · dsimp only
      split <;> rfl
    · rfl
  · rfl

theorem exec_trainTimeout (s : State) (lane : Nat) :
    exec (.trainTimeout lane) s = .next (s.onLane lane (Lane.checkTime s)) := rfl

theorem Lane.checkTime_late {s : State} {l : Lane} {lim : Ticks} (hlim : stateLimit l.st = some lim)
    (hlate : l.since + lim < s.now) (hfull : s.equalisesFull = false) : l.checkTime s = l.overrun s.now := by
  simp only [Lane.checkTime, hlim, hlate, hfull, decide_true, Bool.and_false, Bool.not_false, Bool.and_self, if_true]

/-- Settles O24, each command of the training as a change of its lane. -/
theorem laneTrainingStates : Obligations.LaneTrainingStates := by
  refine ⟨fun s lane l hl hst hfull => ?detect, fun s lane l ps e n hl hst hbest hn hcause => ?equalise,
    fun s lane l h hl hst hproto hfits hfree => ?hello, fun s lane l h hl hst hproto => ?revision,
    fun s lane l h hl hst hproto hcheck hfits => ?misfit, fun s lane l h a hl hst hpeer hkeys => ?auth,
    fun s lane l base eph hl hst hrun hcause => ?keyed, fun s lane l lim hl hlim hlate hfull => ?timeout,
    fun s lane l hl hst hlate => ?retry, fun s lane l cdr hl htrained => ?leave⟩
  case detect =>
    refine ⟨s.onLane lane fun l => if l.st == .detect then l.enter .equalise s.now else l, ?_, ?_⟩
    · rw [exec, execLaneDetect, hfull, if_neg Bool.false_ne_true]
    · have hset : (if l.st == .detect then l.enter .equalise s.now else l) =
          { l with st := .equalise, since := s.now } := by rw [hst]; rfl
      rw [← hset]
      exact onLane_onlyLane hl fun x hx => by split <;> exact hx
  case equalise =>
    refine ⟨_, by rw [exec, execEqualise], ?_⟩
    have hset : (match l.st, bestPreset ps with
        | .equalise, some (e, errs) =>
          if l.cause == 10 && (ps.head?).map (·.1) != some l.eqSet then l
          else if errs < 1000 then { l with eqSet := e }.enter .align s.now else { l with eqSet := e }
        | _, _ => l) = { l with eqSet := e, st := .align, since := s.now } := by
      simp only [hst, hbest, beq_false_of_ne hcause, Bool.false_and, Bool.false_eq_true, if_false, hn, if_true]
      rfl
    rw [← hset]
    refine onLane_onlyLane hl fun x hx => ?_
    split
    · split
      · exact hx
      · split <;> exact hx
    · exact hx
  case hello =>
    obtain ⟨t, honly, hexec⟩ := exec_hello_fits hl hst hproto hfits hfree
    have hauth : ((s.onLane lane (Lane.seen h)).onLane lane (Lane.toAuth h s.now)).lane? lane =
        some ((l.seen h).toAuth h s.now) := lane?_onLane_same (lane?_onLane_same hl fun _ h => h) fun _ h => h
    exact ⟨t, _, hexec, (lane?_of_lanes (honly.same .lanes rfl) lane).trans hauth, rfl, rfl, rfl, rfl, rfl⟩
  case revision =>
    have hseen : (s.onLane lane (Lane.seen h)).lane? lane = some (l.seen h) := lane?_onLane_same hl fun _ h => h
    refine ⟨_, _, exec_hello_revision hl hst hproto, lane?_onLane_same hseen ?_, rfl, rfl, rfl, rfl, fun m hm =>
      (lane?_onLane_other hm ?_).trans (lane?_onLane_other hm ?_)⟩
    all_goals exact fun _ h => h
  case misfit =>
    have hdetect : ((s.onLane lane (Lane.seen h)).onLane lane fun l => l.toDetect 7 s.now).lane? lane =
        some ((l.seen h).toDetect 7 s.now) := lane?_onLane_same (lane?_onLane_same hl fun _ h => h) fun _ h => h
    obtain ⟨l', hl', hcore⟩ := planMismatch_lane hdetect (by rintro ⟨⟩)
    obtain ⟨hst', hcause', hkeys', -⟩ := core_eq_iff hcore
    exact ⟨_, l', exec_hello_misfit hl hst hproto hcheck hfits, hl', hst', hcause', hkeys'⟩
  case auth =>
    obtain ⟨o, f, hexec, hf, hcases⟩ := exec_auth a hl hst hpeer hkeys
    have hl1 : (s.emit o).lane? lane = some l := hl
    refine ⟨_, f l, hexec, lane?_onLane_same hl1 fun x hx => (hf x).trans hx, rfl, ?_, hcases, fun m hm => ?_⟩
    · exact List.length_append
    · exact lane?_onLane_other (s := s.emit o) hm fun x hx => (hf x).trans hx
  case keyed =>
    obtain ⟨t, honly, hexec⟩ := exec_keyed base eph hl hst hrun hcause
    obtain ⟨l', hl', hcore⟩ := honly.lane? rfl (lane?_onLane_same hl fun x hx => (Lane.comeUp_fields x ..).1.trans hx)
    obtain ⟨hst', -, -, -, -, -, -, -, hover', hrot'⟩ := core_eq_iff hcore
    obtain ⟨-, hup, hover, hrot⟩ := Lane.comeUp_fields l s.now (s.isLower l) (s.standsBy l) eph
    exact ⟨t, l', hexec, hl', hst'.trans hup, hover'.trans hover, hrot'.trans hrot⟩
  case timeout =>
    obtain ⟨hover, hcause, hst, hkeys⟩ := Lane.overrun_fields s.now l
    refine ⟨_, l.overrun s.now, exec_trainTimeout s lane, ?_, hover, hcause, hst, hkeys⟩
    rw [← Lane.checkTime_late hlim hlate hfull]
    exact onLane_onlyLane hl fun x hx => (x.checkTime_n s).trans hx
  case retry =>
    have hset : (if l.st == .failed && l.since + 10 * secT ≤ s.now then { l.enter .detect s.now with overruns := 0 }
        else l) = { l with st := .detect, since := s.now, overruns := 0 } := by
      rw [if_pos (by simp [hst, hlate])]
      rfl
    refine ⟨_, by rw [exec, execLaneFailedRetry], ?_⟩
    rw [← hset]
    exact onLane_onlyLane hl fun x hx => by split <;> exact hx
  case leave =>
    obtain ⟨l', hl', hst, hcause, hkeys, hactive, hctr⟩ := linkLost_laneDrop (if cdr then 2 else 1) hl htrained
    exact ⟨_, l', by rw [exec, execLaneLeaveUp], hl', hst, hcause, hkeys, hactive, hctr⟩

/-! ## Key generations -/

/-- A lane that has the far end's offer (R176). -/
def Lane.offered (key : Bytes) (lower : Bool) (l : Lane) : Lane :=
  if l.exchanging then { l with offerPeer := some (slice key 0 97) }.deriveNext lower else l

theorem exec_keyOffer (s : State) (lane : Nat) (key : Bytes) : exec (.keyOffer lane key) s =
    .next ((s.onLane lane fun l => l.offered key (s.isLower l)).taken lane (ctlMsg 0x10 key)) := rfl

theorem exchanging_of_trained {l : Lane} (h : l.trained = true) : l.exchanging = true := by
  rw [Lane.exchanging, h, Bool.or_true]

theorem Lane.offered_of_trained (key : Bytes) (lower : Bool) {l : Lane} (h : l.trained = true) :
    l.offered key lower = { l with offerPeer := some (slice key 0 97) }.deriveNext lower :=
  if_pos (exchanging_of_trained h)

theorem Lane.offered_n (key : Bytes) (lower : Bool) (l : Lane) : (l.offered key lower).n = l.n := by
  unfold Lane.offered
  split
  · exact (Lane.deriveNext_fields _ lower).1
  · rfl

theorem exec_keyTimeout {s : State} {lane : Nat} {l : Lane} (hl : s.lane? lane = some l) (htrained : l.trained = true)
    (hnext : l.nextKeys = none) (hlate : 2 ^ 32 - 2 ^ 20 ≤ (l.txPitch.setWidth 32).toNat) :
    exec (.keyTimeout lane) s = .next (linkLost (laneDrop lane 8 s)) := by
  rw [exec, execKeyTimeout, hl]
  simp only [htrained, hnext, hlate, Option.isNone_none, decide_true, Bool.true_or, Bool.and_self, if_true]

/-- A lane at the first pitch of its next generation (R176). -/
def Lane.renew (eph : Bytes) (l : Lane) : Lane :=
  match l.keys, l.nextKeys with
  | some k, some k' =>
    if l.trained && (l.txPitch >>> 32).setWidth 32 == k.gen + 1 then
      { l with
        keys := some k', oldKeys := some k, nextKeys := none, offerOwn := some eph, offerPeer := none
        offerQ := [keyOfferMsg eph] }.bump 14
    else l
  | _, _ => l

theorem Lane.renew_n (eph : Bytes) (l : Lane) : (l.renew eph).n = l.n := by
  unfold Lane.renew
  split
  · split <;> rfl
  · rfl

theorem exec_keyGeneration (s : State) (lane : Nat) (eph : Bytes) :
    exec (.keyGeneration lane eph) s = .next (s.onLane lane (Lane.renew eph)) := rfl

/-! ## Sparing -/

/-- A partner that has the far end's SPARE_SWITCH for a lane, and has sent its own (R183). -/
def Lane.switched (p f : Lane) (mids : List (BitVec 32)) : Lane :=
  { (if p.spareSent == some f.n then p else p.place (spareSwitchMsg f.n f.midsDelivered)) with
    spareGot := some (f.n, mids), spareSent := some f.n }

theorem Lane.switched_n (p f : Lane) (mids : List (BitVec 32)) : (p.switched f mids).n = p.n := by
  unfold Lane.switched
  dsimp only
  split
  · rfl
  · exact p.place_n _

theorem exec_spareSwitch {s : State} {lane far : Nat} {p f : Lane} (mids : List (BitVec 32))
    (hp : s.lane? lane = some p) (hf : s.farLane p far = some f) (htrained : p.trained = true) :
    exec (.spareSwitch lane far mids) s =
      .next ((s.onLane lane (·.switched f mids)).taken lane (spareSwitchMsg far mids)) := by
  rw [exec, execSpareSwitch, hp, Option.bind_some, hf]
  simp only [htrained, Bool.not_true, Bool.false_eq_true, if_false]
  rfl

theorem Lane.takeStream_fields (t : TxStream) (p : Lane) : (p.takeStream t).n = p.n ∧ (p.takeStream t).ctr = p.ctr ∧
    (p.takeStream t).txPos = p.txPos := by
  unfold Lane.takeStream
  split <;> exact ⟨rfl, rfl, rfl⟩

theorem Lane.foldl_takeStream_fields (ts : List TxStream) (p : Lane) : (ts.foldl Lane.takeStream p).n = p.n ∧
    (ts.foldl Lane.takeStream p).ctr = p.ctr ∧ (ts.foldl Lane.takeStream p).txPos = p.txPos := by
  induction ts generalizing p with
  | nil => exact ⟨rfl, rfl, rfl⟩
  | cons t ts ih =>
    obtain ⟨hn, hctr, hpos⟩ := ih (p.takeStream t)
    obtain ⟨hn', hctr', hpos'⟩ := p.takeStream_fields t
    exact ⟨hn.trans hn', hctr.trans hctr', hpos.trans hpos'⟩

theorem onLane_onLane_lanes {s : State} {a b : Nat} {p q : Lane} {f g : Lane → Lane} (hab : a ≠ b)
    (hp : s.lane? a = some p) (hq : s.lane? b = some q) (hf : ∀ x, x.n = a → (f x).n = a) (hg : ∀ x, x.n = b → (g x).n = b) :
    ((s.onLane a f).onLane b g).lane? a = some (f p) ∧ ((s.onLane a f).onLane b g).lane? b = some (g q) :=
  ⟨(lane?_onLane_other hab hg).trans (lane?_onLane_same hp hf),
    lane?_onLane_same ((lane?_onLane_other hab.symm hf).trans hq) hg⟩

/-- The partner as it comes UP with the streams of a failed lane (R183). -/
def Lane.takeOver (p f : Lane) (mids : List (BitVec 32)) : Lane :=
  let own : LanePlan := { p.plan with use := if p.plan.use == .spare then f.plan.use else p.plan.use, active := true }
  ({ (f.txs.map (resendAbove mids)).foldl Lane.takeStream p with
    st := .up
    active := true
    partner := false
    spareSent := none
    spareGot := none
    rxs := p.rxs ++ (f.rxs.map fun r => ({ r with part := none } : RxStream)).filter fun t =>
      !p.rxs.any fun u => u.vc == t.vc && u.share == t.share
    plan := { (if p.plan.use == .spare || !p.plan.active then own else p.plan) with
      pinned := p.plan.pinned ++ f.plan.pinned } } : Lane).bump 13

/-- The failed lane, which keeps no stream. -/
def Lane.giveUp (f : Lane) : Lane :=
  ({ f with
    partner := true
    active := false
    st := if f.st == .up then .standby else f.st
    plan := { f.plan with
      active := f.plan.active && f.st != .up && (f.plan.use.isBelay || f.plan.use.isFabric), pinned := [] }
    txs := []
    rxs := [] } : Lane).bump 13

theorem moveStreams_eq {s : State} {failed : Nat} {f : Lane} (lane : Nat) (mids : List (BitVec 32))
    (hf : s.lane? failed = some f) :
    moveStreams lane failed mids s = (s.onLane lane (·.takeOver f mids)).onLane failed Lane.giveUp := by
  rw [moveStreams, hf]
  rfl

theorem Lane.takeOver_fields (p f : Lane) (mids : List (BitVec 32)) : (p.takeOver f mids).n = p.n ∧
    (p.takeOver f mids).ctr = p.ctr.modify 13 (· + 1) ∧ (p.takeOver f mids).txPos = p.txPos := by
  obtain ⟨hn, hctr, hpos⟩ := p.foldl_takeStream_fields (f.txs.map (resendAbove mids))
  exact ⟨hn, congrArg (List.modify · 13 (· + 1)) hctr, hpos⟩

theorem Lane.giveUp_st (f : Lane) : f.giveUp.st ≠ .up := by
  show (if f.st == .up then LaneState.standby else f.st) ≠ .up
  split
  · rintro ⟨⟩
  · next h => exact fun hup => h (beq_iff_eq.mpr hup)

theorem moveStreams_lanes {s : State} {lane failed : Nat} {p f : Lane} (mids : List (BitVec 32)) (hne : lane ≠ failed)
    (hp : s.lane? lane = some p) (hf : s.lane? failed = some f) :
    (moveStreams lane failed mids s).lane? lane = some (p.takeOver f mids) ∧
      (moveStreams lane failed mids s).lane? failed = some f.giveUp := by
  rw [moveStreams_eq lane mids hf]
  exact onLane_onLane_lanes hne hp hf (fun x hx => (x.takeOver_fields f mids).1.trans hx) fun _ hx => hx

theorem spareMove_due {s : State} {lane failed : Nat} {p : Lane} {mids : List (BitVec 32)} (hp : s.lane? lane = some p)
    (hgot : p.spareGot = some (failed, mids)) (hsent : p.spareSent = some failed)
    (hctl : (p.ctl ++ p.ctlWait).any (fun m => fld m 0 1 == 0x11) = false) (htune : s.age.retuning ≠ some failed) :
    spareMove lane s = moveStreams lane failed mids s := by
  have hage : (moveStreams lane failed mids s).age = s.age := moveStreams_only.same .age rfl
  unfold spareMove
  rw [hp]
  simp only [hgot, hsent, beq_self_eq_true, hctl, Bool.not_false, Bool.and_self, if_true, hage, beq_eq_false_iff_ne.mpr htune,
    Bool.false_eq_true, if_false]

/-! ## A control cell that is sent -/

theorem Lane.placeWaiting_core (ms : List Bytes) (l : Lane) : (Lane.placeWaiting ms l).core = l.core := by
  induction ms generalizing l with
  | nil => rfl
  | cons m ms ih =>
    unfold Lane.placeWaiting
    split
    · exact ih _
    · rfl

/-- The lane after its control cell: a new pitch, its first time area gone, its state and keys as they were (R171). -/
theorem Lane.controlCell_fields (l : Lane) (state : TimeState) (follows : Bool) :
    (l.controlCell state follows).2.n = l.n ∧ (l.controlCell state follows).2.st = l.st ∧
    (l.controlCell state follows).2.active = l.active ∧ (l.controlCell state follows).2.partner = l.partner ∧
    (l.controlCell state follows).2.ctr = l.ctr ∧ (l.controlCell state follows).2.keys = l.keys ∧
    (l.controlCell state follows).2.txPitch = l.txPitch + 1 ∧ (l.controlCell state follows).2.txPos = 0 ∧
    (l.controlCell state follows).2.timeOut = l.timeOut.drop 1 := by
  have hcore (later : List Bytes) := Lane.placeWaiting_core l.ctlWait { l with ctl := later, placed := 0 }
  unfold Lane.controlCell
  dsimp only
  split <;> exact ⟨(congrArg Lane.n (hcore _) :), (congrArg Lane.st (hcore _) :), (congrArg Lane.active (hcore _) :),
    (congrArg Lane.partner (hcore _) :), (congrArg Lane.ctr (hcore _) :), (congrArg Lane.keys (hcore _) :), rfl, rfl, rfl⟩

/-- Side A's decisions join the control messages of a lane that has room for them (07 R208). -/
def Lane.addRepeats (ms : List Bytes) (l : Lane) : Lane :=
  ms.foldl (fun l m =>
    if l.placed + m.length ≤ 144 then { l with ctl := l.ctl ++ [m], placed := l.placed + m.length } else l) l

theorem Lane.addRepeats_core (ms : List Bytes) (l : Lane) : (l.addRepeats ms).core = l.core := by
  unfold Lane.addRepeats
  induction ms generalizing l with
  | nil => rfl
  | cons m ms ih =>
    rw [List.foldl_cons, ih]
    split <;> rfl

/-- What a control cell does: the lane takes the repeats and begins its next pitch. -/
def Lane.nextPitch (l : Lane) (u : State) (ms : List Bytes) : Bytes × Lane :=
  (l.addRepeats ms).controlCell u.tim.state (u.tim.source == .lane l.n)

theorem exec_controlCellSend {s u : State} {lane : Nat} {l : Lane} (hmove : spareMove lane s = u)
    (hl : u.lane? lane = some l) (hsend : l.sending = true) (hpos : l.txPos = 63) : ∃ ms zl,
    (l.plan.use.isBelay = false → ms = []) ∧
    exec (.controlCellSend lane) s = .next (({ u.onLane lane fun _ => (l.nextPitch u ms).2 with
      pins := { u.pins with zlTxd := zl } } : State).emit
        (.cell lane (lineCell (l.nextPitch u ms).2.txPitch 0 (l.nextPitch u ms).1))) := by
  refine ⟨if l.plan.use.isBelay && l.trained then belayRepeats u else [], u.pins.zlTxd.filter (· != lane) ++ [lane], fun h => by simp [h], ?_⟩
  rw [exec, execControlCellSend]
  dsimp only
  rw [hmove, hl]
  dsimp only
  rw [hsend, hpos, if_pos (by decide), Lane.nextPitch, lane?_n hl]
  rfl

theorem Lane.nextPitch_fields (l : Lane) (u : State) (ms : List Bytes) : (l.nextPitch u ms).2.n = l.n ∧
    (l.nextPitch u ms).2.st = l.st ∧ (l.nextPitch u ms).2.active = l.active ∧
    (l.nextPitch u ms).2.partner = l.partner ∧ (l.nextPitch u ms).2.ctr = l.ctr ∧ (l.nextPitch u ms).2.keys = l.keys ∧
    (l.nextPitch u ms).2.txPitch = l.txPitch + 1 ∧ (l.nextPitch u ms).2.txPos = 0 ∧
    (l.nextPitch u ms).2.timeOut = l.timeOut.drop 1 := by
  have hcore := l.addRepeats_core ms
  obtain ⟨hn, hst, hactive, hpartner, hctr, hkeys, hpitch, hpos, htime⟩ :=
    (l.addRepeats ms).controlCell_fields u.tim.state (u.tim.source == .lane l.n)
  exact ⟨hn.trans (congrArg Lane.n hcore :), hst.trans (congrArg Lane.st hcore :),
    hactive.trans (congrArg Lane.active hcore :), hpartner.trans (congrArg Lane.partner hcore :),
    hctr.trans (congrArg Lane.ctr hcore :), hkeys.trans (congrArg Lane.keys hcore :),
    hpitch.trans (congrArg (fun l => Lane.txPitch l + 1) hcore :), hpos,
    htime.trans (congrArg (fun l => (Lane.timeOut l).drop 1) hcore :)⟩

/-- Settles O25, from what each command does to its lane. -/
theorem keyGenerationsAndSparing : Obligations.KeyGenerationsAndSparing := by
  refine ⟨fun s lane l key hl htrained => ?offer, fun s lane l k k' eph hl htrained hk hk' hgen => ?generation,
    fun s lane l hl htrained hnext hlate => ?timeout, fun s lane far p f mids hp hf htrained => ?switch,
    fun s lane failed p f mids hne hp hf htrained hpos hgot hsent hctl htune => ?move⟩
  case offer =>
    have hoffered := lane?_onLane_same (f := fun l => l.offered key (s.isLower l)) hl
      fun x hx => (x.offered_n key _).trans hx
    obtain ⟨-, hst, -, -, hkeys, hpeer⟩ := Lane.deriveNext_fields { l with offerPeer := some (slice key 0 97) } (s.isLower l)
    rw [Lane.offered_of_trained key _ htrained] at hoffered
    refine ⟨_, _, exec_keyOffer s lane key, hoffered, hpeer, hst, hkeys, fun o k hown hk => ?_, fun m hm => ?_⟩
    · simp only [Lane.deriveNext, hown, hk]
      rfl
    · exact lane?_onLane_other hm fun x hx => (x.offered_n key _).trans hx
  case generation =>
    have hrenew : l.renew eph = { l with
        keys := some k', oldKeys := some k, nextKeys := none, offerOwn := some eph, offerPeer := none
        offerQ := [keyOfferMsg eph], ctr := l.ctr.modify 14 (· + 1) } := by
      simp only [Lane.renew, hk, hk', htrained, hgen, beq_self_eq_true, Bool.and_self, if_true]
      rfl
    refine ⟨_, exec_keyGeneration s lane eph, ?_⟩
    rw [← hrenew]
    exact onLane_onlyLane hl fun x hx => (x.renew_n eph).trans hx
  case timeout =>
    obtain ⟨l', hl', hst, hcause, hkeys, -⟩ := linkLost_laneDrop 8 hl htrained
    exact ⟨_, l', exec_keyTimeout hl htrained hnext hlate, hl', hst, hcause, hkeys⟩
  case switch =>
    have hsame : Lane.switched p f mids = { (if p.spareSent = some f.n then p else
        p.place (spareSwitchMsg f.n f.midsDelivered)) with spareGot := some (f.n, mids), spareSent := some f.n } := by
      simp only [Lane.switched, beq_iff_eq]
    refine ⟨_, exec_spareSwitch mids hp hf htrained, ?_, fun m hm => ?_, rfl, rfl⟩
    · rw [← hsame]
      exact lane?_onLane_same hp fun x hx => (x.switched_n f mids).trans hx
    · exact lane?_onLane_other hm fun x hx => (x.switched_n f mids).trans hx
  case move =>
    obtain ⟨hp1, hf1⟩ := moveStreams_lanes mids hne hp hf
    obtain ⟨-, hctr, hpos1⟩ := p.takeOver_fields f mids
    obtain ⟨ms, zl, -, hexec⟩ := exec_controlCellSend (spareMove_due hp hgot hsent hctl htune) hp1 rfl (hpos1.trans hpos)
    obtain ⟨hn', hst', hactive', hpartner', hctr', -⟩ :=
      (p.takeOver f mids).nextPitch_fields (moveStreams lane failed mids s) ms
    have hn : ((p.takeOver f mids).nextPitch (moveStreams lane failed mids s) ms).2.n = lane := hn'.trans (lane?_n hp1)
    have hmem : (moveStreams lane failed mids s).mem = s.mem := moveStreams_only.same .mem rfl
    have hctxs : (moveStreams lane failed mids s).ctxs = s.ctxs := moveStreams_only.same .ctxs rfl
    exact ⟨_, _, f.giveUp, hexec, lane?_onLane_same hp1 fun _ _ => hn,
      (lane?_onLane_other hne.symm fun _ _ => hn).trans hf1, hst', hactive', hpartner', hctr'.trans hctr, rfl, rfl, rfl,
      f.giveUp_st, rfl, hmem, hctxs⟩

end Sys2Proof.Machine
end


section
/-!
PROOFS. What the positions of a pitch carry (06 R162 to R176) and what received cells may change (06 R164 to R178).
-/

namespace Sys2Proof.Machine

/-! ## Data positions -/

theorem Lane.sendCell_n {l l' : Lane} {now : Ticks} {ts : TxStream} {c : Bytes} (h : l.sendCell now ts = some (c, l')) :
    l'.n = l.n := by
  unfold Lane.sendCell at h
  split at h
  · simp only [Option.some.injEq, Prod.mk.injEq] at h
    rw [← h.2, Lane.spend]
  · cases h

/-- The cell of a data position and the lane that is left (06 R169, R179). -/
def Lane.positionCell (s : State) (l : Lane) : Bytes × Lane :=
  if l.trained then l.dataCell l.plan.use.isBelay s.cfg.shareCount s.now
  else l.trainCell s.now (openingTime (s.isLower l) s.now)

theorem Lane.not_idling {l : Lane} (h : l.sending = true) : l.idling = false := by
  unfold Lane.sending at h
  unfold Lane.idling
  split <;> simp_all

theorem Lane.sending_of_trained {l : Lane} (h : l.trained = true) : l.sending = true := by
  unfold Lane.trained at h
  unfold Lane.sending
  split <;> simp_all

theorem exec_dataPosition {s : State} {lane : Nat} {l l' : Lane} {c : Bytes} (hl : s.lane? lane = some l)
    (hsend : l.sending = true) (hpos : l.txPos < 63) (hcell : l.positionCell s = (c, l')) (hn : l'.n = l.n) :
    ∃ t, exec (.dataPosition lane) s = .next t ∧ t.lane? lane = some { l' with txPos := l.txPos + 1 } ∧
      t.out = s.out ++ [.cell lane (lineCell l.txPitch (l.txPos + 1) c)] ∧ t = { s with lanes := t.lanes, out := t.out } ∧
      ∀ m, m ≠ lane → t.lane? m = s.lane? m := by
  have hkey : ∀ x : Lane, x.n = lane → ({ l' with txPos := l.txPos + 1 } : Lane).n = lane := fun _ _ =>
    hn.trans (lane?_n hl)
  refine ⟨(s.onLane lane fun _ => { l' with txPos := l.txPos + 1 }).emit (.cell lane (lineCell l.txPitch (l.txPos + 1) c)),
    ?_, lane?_onLane_same hl hkey, rfl, rfl, fun m hm => lane?_onLane_other hm hkey⟩
  rw [exec, execDataPosition, hl]
  dsimp only
  rw [Lane.not_idling hsend, hsend, Bool.true_and, if_neg Bool.false_ne_true, if_pos (decide_eq_true hpos)]
  rw [Lane.positionCell] at hcell
  rw [hcell]

/-- The cell of a data position of an active lane whose VC1 does not stall (06 R169). -/
theorem Lane.positionCell_active {s : State} {l : Lane} (htrained : l.trained = true) (hactive : l.active = true)
    (hstall : l.vc1Stalls = false) : l.positionCell s = match l.ready 1 0 with
      | some t => (l.sendCell s.now t).getD (idleCell, l)
      | none =>
        let l := { l with rot := l.rot + 1 }
        let o := rotationOwner l.plan.use.isBelay s.cfg.shareCount l.rot
        match l.ready o.1 o.2 with
        | some t => (l.sendCell s.now t).getD (idleCell, l)
        | none => (idleCell, l) := by
  rw [Lane.positionCell, if_pos htrained, Lane.dataCell, if_neg (by simp [hactive])]
  dsimp only
  rw [hstall] <;> rfl

theorem Lane.ready_rot (l : Lane) (n vc share : Nat) : ({ l with rot := n } : Lane).ready vc share = l.ready vc share := rfl

/-- A lane that carries no stream sends idle cells, but for AUTH's own messages. -/
theorem Lane.positionCell_idle {s : State} {l : Lane} (hquiet : l.trained = false ∨ l.active = false)
    (hauth : l.st ≠ .auth ∨ l.authCells = []) : l.positionCell s = (idleCell, l) := by
  unfold Lane.positionCell
  split
  · next htrained =>
    have hactive : l.active = false := hquiet.resolve_left (by simp [htrained])
    rw [Lane.dataCell, hactive]
    rfl
  · unfold Lane.trainCell
    split
    · next c cs hst hcells => rcases hauth with h | h
                              · exact absurd hst h
                              · rw [h] at hcells; cases hcells
    · rfl

/-- The next message cell of a lane in AUTH, and the keys of the session once the last has gone (06 R179). -/
theorem Lane.positionCell_auth {l : Lane} {c : Bytes} {cs : List Bytes} (s : State) (hst : l.st = .auth)
    (hcells : l.authCells = c :: cs) : l.positionCell s = (c, if cs.isEmpty && l.authKeys.isSome then
      ({ l with authCells := cs } : Lane).enterKeyed s.now (openingTime (s.isLower l) s.now) else { l with authCells := cs }) := by
  rw [Lane.positionCell, Lane.trained, hst, if_neg (by decide), Lane.trainCell, hst, hcells]

/-! ## What a received cell leaves of a lane's returned credits -/

/-- The units that a lane has freed (06 R170). -/
def State.freed? (s : State) (n : Nat) : Option (List (BitVec 16)) := (s.lane? n).map Lane.freed

theorem freed?_of_only {F : List Fld} {s t : State} (h : Only F s t) (hF : F.contains .links = false) (n : Nat) :
    t.freed? n = s.freed? n := by
  have hcore : (t.lane? n).map Lane.core = (s.lane? n).map Lane.core := by
    rw [State.lane?, State.lane?, ← find_map_core, ← find_map_core, h.same .links hF]
  calc t.freed? n = ((t.lane? n).map Lane.core).map Lane.freed := by rw [Option.map_map]; rfl
    _ = s.freed? n := by rw [hcore, Option.map_map]; rfl

theorem freed?_onLane {f : Lane → Lane} {m : Nat} (hf : ∀ x, (f x).n = x.n ∧ (f x).freed = x.freed) (s : State) (n : Nat) :
    (s.onLane m f).freed? n = s.freed? n := by
  unfold State.freed?
  by_cases h : n = m
  · subst h
    rw [lane?_onLane_of_key (fun x hx => (hf x).1.trans hx), if_pos rfl, Option.map_map]
    exact congrArg (Option.map · _) (funext fun x => (hf x).2)
  · rw [lane?_onLane_other h fun x hx => (hf x).1.trans hx]

theorem takeCell_freed (lane vc share hdr : Nat) (pay : Bytes) (s : State) (n : Nat) :
    (takeCell lane vc share hdr pay s).freed? n = s.freed? n := by
  have hif : ∀ (c : Bool) (t u : State), u.freed? n = t.freed? n → (if c then u else t).freed? n = t.freed? n := by
    intro c t u h
    split
    · exact h
    · rfl
  have hunrelay : ∀ u, (unrelay lane u).freed? n = u.freed? n := fun u => freed?_of_only unrelay_only rfl n
  have hrelay : ∀ part u, (relayCell lane part pay u).freed? n = u.freed? n := fun part u =>
    freed?_of_only relayCell_only rfl n
  unfold takeCell
  split
  · rfl
  dsimp only
  generalize (if bit hdr 39 then some pay else _) = part
  generalize hu₁ : (if bit hdr 39 && vc == 1 && s.isTray then unrelay lane s else s) = u₁
  generalize hu : (if vc == 1 && u₁.isTray && part.isSome then relayCell lane (part.getD []) pay u₁ else u₁) = u
  have hfreed : u.freed? n = s.freed? n := by
    rw [← hu, hif _ _ _ (hrelay _ _), ← hu₁, hif _ _ _ (hunrelay _)]
  rw [← hfreed]
  split
  · generalize (_ && _ : Bool) = fits
    split
    · refine freed?_onLane ?_ u n
      exact fun _ => ⟨rfl, rfl⟩
    · refine (freed?_onLane ?_ _ n).trans (freed?_onLane ?_ u n)
      · intro x
        split <;> exact ⟨rfl, rfl⟩
      · exact fun _ => ⟨rfl, rfl⟩
  · refine freed?_onLane ?_ u n
    exact fun _ => ⟨rfl, rfl⟩

theorem discard_freed (lane vc share counter : Nat) (hdrs : List Nat) (s : State) (n : Nat) :
    (discard lane vc share counter hdrs s).freed? n = s.freed? n := by
  unfold discard
  split
  · rfl
  dsimp only
  split
  · refine (freed?_of_only recordDiscarded_only rfl n).trans ((freed?_of_only unrelay_only rfl n).trans (freed?_onLane ?_ _ n))
    exact fun _ => ⟨rfl, rfl⟩
  · refine freed?_onLane ?_ _ n
    exact fun _ => ⟨rfl, rfl⟩

theorem takeCells_freed (lane vc share n : Nat) (cs : List RxCell) (hs : List Nat) (ps : List Bytes) (s : State) :
    (takeCells lane vc share cs hs ps s).freed? n = s.freed? n := by
  induction cs generalizing hs ps s with
  | nil => rfl
  | cons c cs ih =>
    cases hs with
    | nil => rfl
    | cons h hs =>
      cases ps with
      | nil => rfl
      | cons p ps =>
        rw [takeCells, ih]
        split
        · exact takeCell_freed lane vc share h p s n
        · exact discard_freed lane vc share 5 [h] s n

theorem laneDrop_freed (cause : Nat) (s : State) (n : Nat) : (laneDrop n cause s).freed? n = s.freed? n := by
  cases hl : s.lane? n with
  | none => rw [laneDrop, hl]
  | some l =>
    cases htrained : l.trained with
    | true =>
      obtain ⟨l', hl', -, -, -, -, -, hfreed⟩ := laneDrop_lane cause hl htrained
      rw [State.freed?, State.freed?, hl', hl, Option.map_some, Option.map_some, hfreed]
    | false => rw [laneDrop, hl]; dsimp only; rw [if_neg (by simp [htrained])]

/-- A lane that fails its tags too often leaves UP; nothing arrives with it. -/
def State.checkTags (s : State) (lane : Nat) : State :=
  match s.lane? lane with
  | some l1 => if l1.tagRate then linkLost (laneDrop lane 4 s) else s
  | none => s

theorem checkTags_freed (s : State) (n : Nat) : (s.checkTags n).freed? n = s.freed? n := by
  unfold State.checkTags
  split
  · split
    · exact (freed?_of_only linkLost_only rfl n).trans (laneDrop_freed 4 s n)
    · rfl
  · rfl

theorem checkTags_inbox (s : State) (n : Nat) : (s.checkTags n).inbox = s.inbox := by
  unfold State.checkTags
  split
  · split
    · exact Eq.trans (linkLost_only.same .inbox rfl) (laneDrop_only.same .inbox rfl)
    · rfl
  · rfl

/-! ## A received group -/

section Group
variable {s : State} {lane : Nat} {l : Lane} {c0 : RxCell} {cells : List RxCell}

/-- The cells of a group, descrambled. -/
def groupLines (cells : List RxCell) : List Bytes := cells.map fun c => lineCell c.pitch c.pos c.line

/-- A received group frees its cells, and is taken, or discarded and counted. -/
theorem exec_dataGroupReceive (hl : s.lane? lane = some l) (hkeys : l.keys.isSome = true) :
    ∃ (vc share gseq : Nat) (hdrs : List Nat), vc = bits (hdrs.headD 0) 61 60 ∧ share = bits (hdrs.headD 0) 59 56 ∧
      gseq = nearestGroup l.rxGroup (bits (hdrs.headD 0) 23 0) ∧
      hdrs = (groupLines (c0 :: cells)).map (fun b => fld b 0 8) ∧
      let s0 := s.onLane lane fun l => l.release (account vc share) (cells.length + 1)
      let aad := (groupLines (c0 :: cells)).flatMap fun b => b.take 8
      let crypted := ((groupLines (c0 :: cells)).zip (hdrs.map (bits · 35 28))).flatMap fun x => slice x.1 8 x.2
      ((∃ k ps, l.keysAt c0.pitch = some k ∧
          Config.gcmTag k.kRx (k.sRx ++ be 8 gseq) aad (Config.gcmCrypt k.kRx (k.sRx ++ be 8 gseq) crypted) =
            slice ((groupLines (c0 :: cells)).getLastD []) 240 16 ∧
          exec (.dataGroupReceive lane (c0 :: cells)) s = .next (takeCells lane vc share (c0 :: cells) hdrs ps
            (s0.onLane lane fun l => { l with rxGroup := max l.rxGroup gseq }))) ∨
        exec (.dataGroupReceive lane (c0 :: cells)) s = .next
          ((discard lane vc share 4 hdrs (s0.onLane lane fun l => l.tagFail 3 c0.pitch)).checkTags lane)) := by
  obtain ⟨k0, hk0⟩ := Option.isSome_iff_exists.mp hkeys
  refine ⟨_, _, _, _, rfl, rfl, rfl, rfl, ?_⟩
  dsimp only
  generalize hres : exec (.dataGroupReceive lane (c0 :: cells)) s = res
  rw [exec] at hres
  unfold execDataGroupReceive at hres
  rw [hl] at hres
  dsimp only at hres
  rw [hk0] at hres
  dsimp only at hres
  split at hres
  · next plain hgood =>
    obtain ⟨k, hk, hplain⟩ := Option.bind_eq_some_iff.mp hgood
    split at hplain
    · next hcheck => exact .inl ⟨k, _, hk, eq_of_beq (Bool.and_eq_true_iff.mp hcheck).2, hres.symm⟩
    · cases hplain
  · exact .inr hres.symm

theorem zip_lens_flatMap (bs : List Bytes) : (bs.zip ((bs.map fun b => fld b 0 8).map (bits · 35 28))).flatMap
    (fun x => slice x.1 8 x.2) = (bs.map fun b => slice b 8 (bits (fld b 0 8) 35 28)).flatten := by
  induction bs with
  | nil => rfl
  | cons b bs ih =>
    simp only [List.map_cons, List.zip_cons_cons, List.flatMap_cons, List.flatten_cons, ih]

end Group

/-! ## A received control cell -/

theorem dropExchange_fields (l : Lane) : l.dropExchange.n = l.n ∧ l.dropExchange.st = l.st ∧
    l.dropExchange.misses = l.misses ∧ l.dropExchange.rxPitch = l.rxPitch ∧ l.dropExchange.latAdj = l.latAdj := by
  unfold Lane.dropExchange
  split <;> exact ⟨rfl, rfl, rfl, rfl, rfl⟩

/-- A lane as the time area of a control cell leaves it (06 R174). -/
theorem takeTimeArea_lane {s : State} {lane : Nat} {l : Lane} (area : Bytes) (t4 : Ticks) (hl : s.lane? lane = some l) :
    ∃ l', (takeTimeArea lane area t4 s).lane? lane = some l' ∧ l'.st = l.st ∧ l'.misses = l.misses ∧
      l'.rxPitch = l.rxPitch ∧ l'.latAdj = l.latAdj := by
  unfold takeTimeArea
  dsimp only
  split
  all_goals
    refine ⟨_, lane?_onLane_same hl fun x hx => ?_, ?_⟩
    · split
      · split
        · split
          · exact hx
          · exact (dropExchange_fields _).1.trans hx
        · exact hx
      · exact hx
    · split
      · split
        · split
          · exact ⟨rfl, rfl, rfl, rfl⟩
          · exact (dropExchange_fields _).2
        · exact ⟨rfl, rfl, rfl, rfl⟩
      · exact ⟨rfl, rfl, rfl, rfl⟩

theorem takeControl_lane {s : State} {lane : Nat} {l : Lane} (good : Bool) (body : Bytes) (pitch : BitVec 56) (t4 : Ticks)
    (hl : s.lane? lane = some l) : ∃ l', (takeControl lane good body pitch t4 s).lane? lane = some l' ∧
      l'.st = l.st ∧ l'.misses = 0 ∧ l'.rxPitch = some pitch ∧ l'.latAdj = l.latAdj := by
  unfold takeControl
  dsimp only
  generalize hs₁ : s.onLane lane _ = s₁
  obtain ⟨l₁, hl₁, hst₁, hmisses₁, hpitch₁, hadj₁⟩ : ∃ l₁, s₁.lane? lane = some l₁ ∧ l₁.st = l.st ∧ l₁.misses = 0 ∧
      l₁.rxPitch = some pitch ∧ l₁.latAdj = l.latAdj := by
    rw [← hs₁]
    exact ⟨_, lane?_onLane_same hl fun _ h => h, rfl, rfl, rfl, rfl⟩
  obtain ⟨l', hl', hst, hmisses, hpitch, hadj⟩ := takeTimeArea_lane (slice body 40 32) t4 hl₁
  exact ⟨l', hl', hst.trans hst₁, hmisses.trans hmisses₁, hpitch.trans hpitch₁, hadj.trans hadj₁⟩

section Control
variable {s : State} {lane : Nat} {l : Lane} {cell : Bytes} {stamp : Ticks} {adj : BitVec 8}

/-- The state with the lane's new latency and its run of missed markers ended (06 R164). -/
def State.marked (s : State) (lane : Nat) (adj : BitVec 8) : State :=
  s.onLane lane fun l => { l with latAdj := adj, misses := 0 }

theorem exec_controlCellReceive_clear (hl : s.lane? lane = some l) (hsend : l.sending = true) (hkeys : l.keys = none)
    (hmarker : fld (lineCell (BitVec.ofNat 56 (fld cell 9 7)) 0 cell) 0 8 = pitchMarker)
    (htag : slice (lineCell (BitVec.ofNat 56 (fld cell 9 7)) 0 cell) 240 16 = zeros 16) :
    exec (.controlCellReceive lane cell stamp adj) s = .next (takeControl lane false
      (slice (lineCell (BitVec.ofNat 56 (fld cell 9 7)) 0 cell) 16 224) (BitVec.ofNat 56 (fld cell 9 7))
      (l.rxTime stamp adj) (s.marked lane adj)) := by
  rw [exec, execControlCellReceive, hl]
  dsimp only
  rw [hmarker, htag, hkeys, hsend, if_neg (by simp)]
  simp only [Option.isNone_none, beq_self_eq_true, Bool.and_self]
  rfl

/-- A control cell under a key is taken when its tag verifies, and discarded otherwise (06 R177). -/
theorem exec_controlCellReceive_keyed {k : LaneKeys} (hl : s.lane? lane = some l) (hsend : l.sending = true)
    (hkeys : l.keys.isSome = true) (hk : l.keysAt (BitVec.ofNat 56 (fld cell 9 7)) = some k)
    (hmarker : fld (lineCell (BitVec.ofNat 56 (fld cell 9 7)) 0 cell) 0 8 = pitchMarker) :
    let pitch := BitVec.ofNat 56 (fld cell 9 7)
    let c := lineCell pitch 0 cell
    let iv := k.sRx ++ be 8 (2 ^ 63 + pitch.toNat)
    let body := slice (Config.gcmCrypt k.kRx iv (slice c 16 224)) 0 224
    exec (.controlCellReceive lane cell stamp adj) s = .next (
      if Config.gcmTag k.kRx iv (slice c 0 16) body == slice c 240 16 then
        reselect (takeControl lane true body pitch (l.rxTime stamp adj) (s.marked lane adj))
      else ((s.marked lane adj).onLane lane fun l => l.tagFail 2 pitch).checkTags lane) := by
  rw [exec, execControlCellReceive, hl]
  dsimp only
  rw [hmarker, hsend, if_neg (by simp), hk, Option.isNone_eq_false_iff.mpr hkeys]
  rfl

end Control

/-- The cell of a pitch opens with its marker. -/
theorem Lane.controlCell_marker (l : Lane) (state : TimeState) (follows : Bool) :
    (l.controlCell state follows).1.take 8 = le 8 pitchMarker := by
  have hlen : (le 8 pitchMarker).length = 8 := by simp [le]
  unfold Lane.controlCell
  dsimp only
  split <;> simp only [List.append_assoc] <;> exact List.take_left' hlen

theorem spareMove_of_none {s : State} {lane : Nat} {l : Lane} (hl : s.lane? lane = some l) (hgot : l.spareGot = none) :
    spareMove lane s = s := by
  rw [spareMove, hl]
  dsimp only
  rw [hgot]

/-- Settles O23, from the cell of a position and what a received cell leaves of its lane. -/
theorem cellsOfPitch : Obligations.CellsOfPitch := by
  refine ⟨fun s lane l ts c l' hl htrained hpos hactive hstall hready hcell => ?vc1,
    fun s lane l ts c l' hl htrained hpos hactive hstall hnone => ?rotation,
    fun s lane l hl htrained hpos hactive hstall hnone => ?empty, fun s lane l hl hidle => ?pattern,
    fun s lane l hl hsend hpos hquiet hauth => ?idle, fun s lane l c cs hl hst hpos hcells => ?auth,
    fun s lane l hl hsend hpos huse hgot => ?pitch, fun s lane l pitches b nonce hl hfar => ?notAligned,
    fun s lane l pitches b nonce hl hst hlen hcons hfar => ?aligned, fun s lane l n hl hmisses => ?marker,
    fun s lane l cell stamp adj hl hsend hkeys hmarker htag => ?clear,
    fun s lane l k cell stamp adj hl hsend hkeys hk => ?keyed, fun s lane l k c0 cells hl hkeys hk => ?group,
    fun s lane l c0 cells hl hkeys hk => ?noKey⟩
  case vc1 =>
    refine exec_dataPosition hl (Lane.sending_of_trained htrained) hpos ?_ (Lane.sendCell_n hcell)
    rw [Lane.positionCell_active htrained hactive hstall, hready]
    dsimp only
    rw [hcell, Option.getD_some]
  case rotation =>
    intro o hready hcell
    obtain ⟨t, hexec, hlane, hout, -⟩ := exec_dataPosition (l' := l') (c := c) hl (Lane.sending_of_trained htrained) hpos (by
      rw [Lane.positionCell_active htrained hactive hstall, hnone]
      dsimp only
      rw [Lane.ready_rot, hready]
      dsimp only
      rw [hcell, Option.getD_some]) (Lane.sendCell_n hcell :)
    exact ⟨t, hexec, hlane, hout⟩
  case empty =>
    intro hready
    obtain ⟨t, hexec, hlane, hout, -⟩ := exec_dataPosition (l' := { l with rot := l.rot + 1 }) (c := idleCell) hl
      (Lane.sending_of_trained htrained) hpos (by
        rw [Lane.positionCell_active htrained hactive hstall, hnone]
        dsimp only
        rw [Lane.ready_rot, hready]) rfl
    exact ⟨t, hexec, hlane, hout⟩
  case pattern =>
    refine ⟨({ s with pins := { s.pins with zlTxd := s.pins.zlTxd.filter (· != lane) } } : State).emit (.idlePattern lane),
      ?_, rfl, rfl⟩
    rw [exec, execDataPosition, hl]
    dsimp only
    rw [if_pos hidle]
  case idle =>
    obtain ⟨t, hexec, hlane, hout, -⟩ := exec_dataPosition hl hsend hpos (Lane.positionCell_idle hquiet hauth) rfl
    exact ⟨t, hexec, hlane, hout⟩
  case auth =>
    have hsend : l.sending = true := by rw [Lane.sending, hst]
    obtain ⟨t, hexec, hlane, hout, -⟩ := exec_dataPosition hl hsend hpos (Lane.positionCell_auth s hst hcells)
      (by split <;> rfl)
    refine ⟨t, _, hexec, hlane, by split <;> rfl, hout, fun h => ?_, fun h => ?_⟩
    · rw [h.1, h.2]
      exact ⟨rfl, rfl, rfl⟩
    · rw [if_neg (by rcases h with h | h <;> simp [h])]
      exact ⟨hst, rfl⟩
  case pitch =>
    obtain ⟨ms, zl, hms, hexec⟩ := exec_controlCellSend (spareMove_of_none hl hgot) hl hsend hpos
    rw [hms huse] at hexec
    obtain ⟨hn, hst, -, -, -, hkeys, htxPitch, htxPos, htime⟩ := l.nextPitch_fields s []
    refine ⟨_, (l.nextPitch s []).1, (l.nextPitch s []).2, hexec, lane?_onLane_same hl fun _ _ => hn.trans (lane?_n hl), htxPitch, htxPos, htime, hst, hkeys,
      Lane.controlCell_marker _ _ _, ?_, rfl⟩
    rw [htxPitch]
    rfl
  case notAligned =>
    rw [exec, execPitchAlign, hl]
    dsimp only
    rw [hfar, Bool.and_false, if_neg Bool.false_ne_true]
  case aligned =>
    intro l₁
    have hn : l₁.n = lane := (lane?_n hl :)
    refine ⟨(s.onLane lane fun _ => l₁).emit (.helloSent lane (s.ownHello l₁)), ?_,
      lane?_onLane_same hl fun _ _ => hn, rfl, fun m hm => lane?_onLane_other hm fun _ _ => hn⟩
    rw [exec, execPitchAlign, hl]
    dsimp only
    rw [hst, hcons, hfar, if_pos (by simpa using hlen)]
    rfl
  case marker =>
    have hset := onLane_onlyLane (f := fun l : Lane => { l with
      misses := l.misses + n
      ctr := modifyAt l.ctr 1 (· + BitVec.ofNat 64 n) }) hl fun _ h => h
    refine ⟨_, ?_, hset⟩
    rw [exec, execMarkerLost]
    dsimp only
    rw [hset.2.1]
    dsimp only
    rw [if_neg (by omega)]
  case clear =>
    have hmarked : (s.marked lane adj).lane? lane = some { l with latAdj := adj, misses := 0 } :=
      lane?_onLane_same hl fun _ h => h
    obtain ⟨l', hl', hst, hmisses, hpitch, hadj⟩ := takeControl_lane false
      (slice (lineCell (BitVec.ofNat 56 (fld cell 9 7)) 0 cell) 16 224) (BitVec.ofNat 56 (fld cell 9 7))
      (l.rxTime stamp adj) hmarked
    exact ⟨_, l', exec_controlCellReceive_clear hl hsend hkeys hmarker htag, hl', hmisses, hpitch, hadj, hst,
      takeControl_only.same .mem rfl, takeControl_only.same .out rfl⟩
  case keyed =>
    intro c iv body hmarker
    have hmarked : (s.marked lane adj).lane? lane = some { l with latAdj := adj, misses := 0 } :=
      lane?_onLane_same hl fun _ h => h
    refine ⟨_, exec_controlCellReceive_keyed hl hsend hkeys hk hmarker, fun htag => ?_, fun htag => ?_⟩
    · rw [if_neg fun h => htag (eq_of_beq h)]
      exact checkTags_inbox _ lane
    · rw [if_pos (beq_iff_eq.mpr htag)]
      obtain ⟨l', hl', -, hmisses, hpitch, -⟩ := takeControl_lane true body (BitVec.ofNat 56 (fld cell 9 7))
        (l.rxTime stamp adj) hmarked
      refine ⟨l', ?_, hmisses, hpitch⟩
      rw [lane?_of_lanes (reselect_only.same .lanes rfl)]
      exact hl'
  case group =>
    intro clear h0 iv plain
    obtain ⟨vc, share, gseq, hdrs, hvc, hshare, hgseq, hhdrs, htaken⟩ := exec_dataGroupReceive (c0 := c0) (cells := cells) hl hkeys
    have hhead : hdrs.headD 0 = h0 := by rw [hhdrs]; rfl
    rw [hhead] at hvc hshare hgseq
    have hrel : (s.onLane lane fun l => l.release (account vc share) (cells.length + 1)).freed? lane =
        some (l.freed.modify (account vc share) (· + BitVec.ofNat 16 (cells.length + 1))) :=
      congrArg (Option.map Lane.freed) (lane?_onLane_same
        (f := fun l => l.release (account vc share) (cells.length + 1)) hl fun _ h => h)
    rw [← hvc, ← hshare]
    rcases htaken with ⟨k', ps, hk', htag, hexec⟩ | hexec
    · have hfreed := ((takeCells_freed lane vc share lane (c0 :: cells) hdrs ps _).trans
        (freed?_onLane (f := fun l => { l with rxGroup := max l.rxGroup gseq }) (m := lane)
          (fun _ => ⟨rfl, rfl⟩) _ lane)).trans hrel
      obtain ⟨l', hl', hlf⟩ := Option.map_eq_some_iff.mp hfreed
      refine ⟨_, l', hexec, hl', hlf, fun hne => absurd ?_ hne⟩
      obtain rfl : k' = k := Option.some.inj (hk'.symm.trans hk)
      rw [hhdrs, zip_lens_flatMap, hgseq] at htag
      exact htag
    · have hfreed := ((checkTags_freed _ lane).trans ((discard_freed lane vc share 4 hdrs _ lane).trans
        (freed?_onLane (f := fun l => l.tagFail 3 c0.pitch) (m := lane) (fun _ => ⟨rfl, rfl⟩) _ lane))).trans hrel
      obtain ⟨l', hl', hlf⟩ := Option.map_eq_some_iff.mp hfreed
      exact ⟨_, l', hexec, hl', hlf, fun _ => (checkTags_inbox _ lane).trans (discard_only.same .inbox rfl)⟩
  case noKey =>
    obtain ⟨vc, share, gseq, hdrs, -, -, -, -, htaken⟩ := exec_dataGroupReceive (c0 := c0) (cells := cells) hl hkeys
    rcases htaken with ⟨k', ps, hk', -⟩ | hexec
    · rw [hk] at hk'
      cases hk'
    · exact ⟨_, hexec, (checkTags_inbox _ lane).trans (discard_only.same .inbox rfl)⟩

end Sys2Proof.Machine
end


section
/-!
PROOFS. Armed changes (07 R203 to R213): their arrival, the answers, the decision and what DECIDE_BY leaves of them.
-/

namespace Sys2Proof.Machine

/-! ## The arms of a state -/

theorem arm?_id {s : State} {id : BitVec 64} {a : Arm} (h : s.arm? id = some a) : a.id = id := by
  simpa using List.find?_some h

theorem find_mapIf_arm {f : Arm → Arm} (hf : ∀ a, (f a).id = a.id) (l : List Arm) (i j : BitVec 64) :
    (mapIf (·.id == i) f l).find? (·.id == j) = (l.find? (·.id == j)).map fun a => if a.id == i then f a else a := by
  have hkey : ∀ a : Arm, (if a.id == i then f a else a).id = a.id := fun a => by
    split
    · exact hf a
    · rfl
  rw [mapIf, List.find?_map, show ((fun a : Arm => a.id == j) ∘ fun a => if a.id == i then f a else a) = (·.id == j) from
    funext fun a => congrArg (· == j) (hkey a)]

/-- An arm as a state finds it whose arms of its id have been changed. -/
theorem arm?_of_arms {s t : State} {f : Arm → Arm} {id : BitVec 64} {a : Arm} (hf : ∀ a, (f a).id = a.id)
    (harms : t.red.arms = mapIf (·.id == id) f s.red.arms) (h : s.arm? id = some a) : t.arm? id = some (f a) := by
  have hfind : s.red.arms.find? (·.id == id) = some a := h
  rw [State.arm?, harms, find_mapIf_arm hf, hfind, Option.map_some, if_pos (beq_iff_eq.mpr (arm?_id h))]

theorem arm?_onArm {s : State} {f : Arm → Arm} {id : BitVec 64} {a : Arm} (hf : ∀ a, (f a).id = a.id)
    (h : s.arm? id = some a) : (s.onArm id f).arm? id = some (f a) :=
  arm?_of_arms hf rfl h

theorem arm?_dropArm (s : State) (id : BitVec 64) : (s.dropArm id).arm? id = none := by
  rw [State.arm?, State.dropArm]
  simp

/-! ## What the steps of an arm change -/

/-- Only lanes and the membership record have changed. -/
def ChangesOnly (s t : State) : Prop := ∃ lanes changes, t = { s with
  lanes := lanes
  red := { s.red with changes := changes } }

theorem ChangesOnly.refl (s : State) : ChangesOnly s s := ⟨_, _, rfl⟩

theorem ChangesOnly.trans {s t u : State} (h : ChangesOnly s t) (k : ChangesOnly t u) : ChangesOnly s u := by
  obtain ⟨_, _, rfl⟩ := h
  obtain ⟨_, _, rfl⟩ := k
  exact ⟨_, _, rfl⟩

theorem LanesOnly.changes {s t : State} (h : LanesOnly s t) : ChangesOnly s t := by
  obtain ⟨_, rfl⟩ := h
  exact ⟨_, _, rfl⟩

theorem addChange_changesOnly (s : State) (c : Change) : ChangesOnly s (s.addChange c) := by
  unfold State.addChange
  split
  · exact ChangesOnly.refl s
  · exact ⟨_, _, rfl⟩

theorem decideChange_changesOnly (s : State) (c : Change) : ChangesOnly s (s.decideChange c) := by
  unfold State.decideChange
  dsimp only
  split
  · exact (addChange_changesOnly s c).trans (sendBelay_lanesOnly _ _).changes
  · exact addChange_changesOnly s c

theorem declareNoAck_changesOnly (a : Arm) (s : State) : ChangesOnly s (declareNoAck a s) := by
  unfold declareNoAck
  split
  · exact foldl_rel ChangesOnly.refl (fun h k => h.trans k) (fun s n => decideChange_changesOnly s _) a.silent s
  · exact ChangesOnly.refl s

/-- An arm that its node has answered. -/
def Arm.sent (a : Arm) : Arm := { a with statusSent := true }

theorem sendStatus_arms (a : Arm) (s : State) : ∃ lanes changes, sendStatus a s = { s with
    lanes := lanes
    red := { s.red with changes := changes, arms := mapIf (·.id == a.id) Arm.sent s.red.arms } } := by
  unfold sendStatus
  dsimp only
  obtain ⟨lanes, changes, hdeclare⟩ := declareNoAck_changesOnly a s
  obtain ⟨lanes', hsend⟩ := sendCtlAll_lanesOnly ((declareNoAck a s).onArm a.id fun a => { a with statusSent := true })
    (((declareNoAck a s).onArm a.id fun a => { a with statusSent := true }).answerLanes a) (ackMsg a.id a.merged)
  rw [hsend, hdeclare]
  exact ⟨lanes', changes, rfl⟩

/-- An arm whose decision has gone down. -/
def Arm.wentDown (k : Nat) (a : Arm) : Arm := { a with down := true, lastRepeat := k }

theorem sendDown_arms (a : Arm) (d : Bool) (s : State) : ∃ lanes, sendDown a d s = { s with
    lanes := lanes
    red := { s.red with arms := mapIf (·.id == a.id) (Arm.wentDown s.curEpoch) s.red.arms } } := by
  have hlanes : ∀ c : Bool, LanesOnly s (if c then
      (s.sendCtlAll (s.lanesFor LaneUse.isDown) (decisionMsg a.id a.epochT d)).sendCtlAll
        ((s.sendCtlAll (s.lanesFor LaneUse.isDown) (decisionMsg a.id a.epochT d)).lanesFor LaneUse.isPeer)
        (decisionMsg a.id a.epochT d)
      else s.sendCtlAll (s.lanesFor LaneUse.isDown) (decisionMsg a.id a.epochT d)) := fun c =>
    ite_lanesOnly ((sendCtlAll_lanesOnly s _ _).trans (sendCtlAll_lanesOnly _ _ _)) (sendCtlAll_lanesOnly s _ _)
  obtain ⟨lanes, h⟩ := hlanes (s.isTray && s.cfg.role == .summit && a.origRole == 3)
  unfold sendDown
  dsimp only
  rw [h]
  exact ⟨lanes, rfl⟩

/-- An arm decided by its merged answers. -/
def Arm.decided (a : Arm) : Arm := { a with decision := some a.verdict }

theorem decide_arms (a : Arm) (s : State) : ∃ lanes changes, decide_ a s = { s with
    lanes := lanes
    red := { s.red with changes := changes, arms := mapIf (·.id == a.id) Arm.decided s.red.arms } } := by
  obtain ⟨lanes, changes, hdeclare⟩ := declareNoAck_changesOnly a s
  rw [decide_, hdeclare]
  exact ⟨lanes, changes, rfl⟩

/-- A decision that goes down keeps what else the arm holds. -/
theorem arm?_sendDown {s : State} {a b : Arm} {id : BitVec 64} (d : Bool) (hid : a.id = id) (h : s.arm? id = some b) :
    (sendDown a d s).arm? id = some (b.wentDown s.curEpoch) := by
  obtain ⟨lanes, hdown⟩ := sendDown_arms a d s
  rw [hdown]
  subst hid
  exact arm?_of_arms (fun _ => rfl) rfl h

theorem arm?_sendStatus {s : State} {a b : Arm} {id : BitVec 64} (hid : a.id = id) (h : s.arm? id = some b) :
    (sendStatus a s).arm? id = some b.sent := by
  obtain ⟨lanes, changes, hstatus⟩ := sendStatus_arms a s
  rw [hstatus]
  subst hid
  exact arm?_of_arms (fun _ => rfl) rfl h

theorem arm?_decide {s : State} {a b : Arm} {id : BitVec 64} (hid : a.id = id) (h : s.arm? id = some b) :
    (decide_ a s).arm? id = some b.decided := by
  obtain ⟨lanes, changes, hdecide⟩ := decide_arms a s
  rw [hdecide]
  subst hid
  exact arm?_of_arms (fun _ => rfl) rfl h

theorem arm?_lanesOnly {s t : State} (h : LanesOnly s t) (id : BitVec 64) : t.arm? id = s.arm? id := by
  obtain ⟨_, rfl⟩ := h
  rfl

/-! ## The arrival of an ARM -/

section Arrival
variable {s : State} {msg : Bytes}

/-- The node with the arm's id among those seen. -/
def State.noteArm (s : State) (lane : Nat) (msg : Bytes) : State :=
  { s.taken lane msg with red := { s.red with seen := (readArm msg).id :: s.red.seen } }

theorem exec_arm_new {lane : Nat} (hclocked : s.clocked = true) (hkind : (readArm msg).kind ≠ kindSchedSync)
    (hnew : (readArm msg).id ∉ s.red.seen) : exec (.arm lane msg) s = .next
      (match s.answerArm (readArm msg) with
      | .silent => s.noteArm lane msg
      | .refuse => refuseArm (readArm msg) (s.noteArm lane msg)
      | .accept => holdArm (readArm msg) (s.isBelayLane lane) (s.noteArm lane msg)) := by
  rw [exec, execArm, whenClocked_of_clocked hclocked]
  dsimp only
  rw [if_neg (by simpa using hkind), if_neg (by simpa [State.taken] using hnew)]
  rfl

theorem sendCtlAll_lanes_congr {s t : State} (ns : List Nat) (m : Bytes) (h : t.lanes = s.lanes) :
    (t.sendCtlAll ns m).lanes = (s.sendCtlAll ns m).lanes := by
  unfold State.sendCtlAll
  induction ns generalizing s t with
  | nil => exact h
  | cons n ns ih => exact ih (by simp only [State.sendCtl, State.onLane, h])

/-- A leaf holds an arm with its own answer sent, and is armed for a STOP (07 R207). -/
theorem holdArm_of_leaf {s : State} (a : Arm) (fromBelay : Bool) (hp : s.profile = .leaf) : ∃ stop,
    (a.kind = kindStop → stop.phase = .armed ∧ stop.confirmed = false) ∧ (a.kind ≠ kindStop → stop = s.stop) ∧
    holdArm a fromBelay s = { s with
      lanes := (s.sendCtlAll (s.lanesFor LaneUse.isUp) (ackMsg a.id 0)).lanes
      red := { s.red with arms := mapIf (·.id == a.id) Arm.sent (s.red.arms ++ [heldArm a s]) }
      stop := stop } := by
  have hlanes := sendCtlAll_lanes_congr (s := s) (t := { s with
    red := { s.red with arms := mapIf (·.id == a.id) Arm.sent (s.red.arms ++ [heldArm a s]) } })
    (s.lanesFor LaneUse.isUp) (ackMsg a.id 0) rfl
  obtain ⟨lanes, hsend⟩ := sendCtlAll_lanesOnly { s with
    red := { s.red with arms := mapIf (·.id == a.id) Arm.sent (s.red.arms ++ [heldArm a s]) } }
    (s.lanesFor LaneUse.isUp) (ackMsg a.id 0)
  rw [hsend] at hlanes
  have hsent : ((({ s with red := { s.red with arms := s.red.arms ++ [heldArm a s] } } : State).onArm a.id
      fun a => { a with statusSent := true }).sendCtlAll (s.lanesFor LaneUse.isUp) (ackMsg a.id 0)) = { s with
        lanes := (s.sendCtlAll (s.lanesFor LaneUse.isUp) (ackMsg a.id 0)).lanes
        red := { s.red with arms := mapIf (·.id == a.id) Arm.sent (s.red.arms ++ [heldArm a s]) } } :=
    hsend.trans (congrArg (fun ls : List Lane => ({ s with
      lanes := ls
      red := { s.red with arms := mapIf (·.id == a.id) Arm.sent (s.red.arms ++ [heldArm a s]) } } : State)) hlanes)
  by_cases hkind : a.kind = kindStop
  · refine ⟨{ s.stop with phase := .armed, at_ := (s.armTime a).getD 0, confirmed := false }, fun _ => ⟨rfl, rfl⟩,
      fun h => absurd hkind h, ?_⟩
    unfold holdArm
    dsimp only
    split
    · rw [if_pos (beq_iff_eq.mpr hkind)]
      exact congrArg (fun t : State => { t with stop := { t.stop with
        phase := .armed, at_ := (s.armTime a).getD 0, confirmed := false } }) hsent
    · next h => exact absurd (hp.symm.trans h) (by decide)
  · refine ⟨s.stop, fun h => absurd h hkind, fun _ => rfl, ?_⟩
    unfold holdArm
    dsimp only
    split
    · rw [if_neg (by simpa using hkind)]
      exact hsent
    · next h => exact absurd (hp.symm.trans h) (by decide)

/-- A tray block that holds an arm has it last among its arms, perhaps marked as answered (07 R206, R207). -/
theorem holdArm_arms {s : State} (a : Arm) (fromBelay : Bool) (hp : s.profile = .tray) : ∃ lanes changes sent,
    holdArm a fromBelay s = { s with
      lanes := lanes
      red := { s.red with changes := changes, arms := markSent sent a.id (s.red.arms ++ [heldArm a s]) } } := by
  rw [holdArm_tray_eq a fromBelay hp]
  obtain ⟨lanes, hforward⟩ := forwardArm_lanesOnly (heldArm a s) fromBelay
    { s with red := { s.red with arms := s.red.arms ++ [heldArm a s] } }
  rw [hforward]
  split
  · obtain ⟨lanes', changes, hstatus⟩ := sendStatus_arms (heldArm a s)
      { s with lanes := lanes, red := { s.red with arms := s.red.arms ++ [heldArm a s] } }
    exact ⟨lanes', changes, true, hstatus⟩
  · exact ⟨lanes, s.red.changes, false, rfl⟩

/-- Settles O26, by the four answers to an ARM. -/
theorem armArrivesOnce : Obligations.ArmArrivesOnce := by
  refine ⟨fun s lane msg hclocked hkind hseen => ?again, fun s lane msg hruns hkind hnew haccept => ?leaf,
    fun s lane msg hruns hkind hnew haccept => ?tray, fun s lane msg hclocked hkind hstart hnew hrefuse => ?refused,
    fun s lane msg hclocked htime hns => ?adopted, fun s lane msg hclocked hbad => ?bad⟩
  case again =>
    rw [exec, execArm, whenClocked_of_clocked hclocked]
    dsimp only
    rw [if_neg (by simpa using hkind), if_pos (by simpa [State.taken] using hseen)]
  case leaf =>
    obtain ⟨hp, hclocked⟩ := (runsAs_iff s .leaf).mp hruns
    obtain ⟨stop, hstop, hother, hheld⟩ := holdArm_of_leaf (s := s.noteArm lane msg) (readArm msg) (s.isBelayLane lane) hp
    have hexec := exec_arm_new (lane := lane) hclocked hkind hnew
    rw [haccept] at hexec
    refine ⟨_, hexec.trans (congrArg Host.Outcome.next hheld), ?_, rfl, ?_, hstop, hother, rfl,
      rfl, rfl⟩
    · exact ⟨(heldArm (readArm msg) (s.noteArm lane msg)).sent, by simp [mapIf, heldArm_id], rfl, rfl, rfl, rfl, rfl⟩
    · exact sendCtlAll_lanes_congr _ _ rfl
  case tray =>
    obtain ⟨hp, hclocked⟩ := (runsAs_iff s .tray).mp hruns
    obtain ⟨lanes, changes, sent, hheld⟩ := holdArm_arms (s := s.noteArm lane msg) (readArm msg) (s.isBelayLane lane) hp
    have hexec := exec_arm_new (lane := lane) hclocked hkind hnew
    rw [haccept] at hexec
    refine ⟨_, hexec.trans (congrArg Host.Outcome.next hheld), ?_, rfl, rfl, rfl⟩
    exact ⟨_, mem_markSent_last sent s.red.arms (heldArm (readArm msg) (s.noteArm lane msg)), rfl, rfl, rfl, rfl⟩
  case refused =>
    obtain ⟨lanes, hsend⟩ := sendCtlAll_lanesOnly (s.noteArm lane msg) (s.answerLanes (readArm msg)) (ackMsg (readArm msg).id 2)
    have hlanes := sendCtlAll_lanes_congr (s := s) (t := s.noteArm lane msg) (s.answerLanes (readArm msg))
      (ackMsg (readArm msg).id 2) rfl
    refine ⟨_, exec_arm_new hclocked hkind hnew, ?_⟩
    rw [hrefuse, ← hlanes]
    dsimp only
    rw [refuseArm, if_neg (by simpa using hstart)]
    refine Eq.trans (?_ : _ = (s.noteArm lane msg).sendCtlAll (s.answerLanes (readArm msg)) (ackMsg (readArm msg).id 2)) ?_
    · rfl
    · rw [hsend]
      rfl
  case adopted =>
    rw [exec, execSchedSync, whenClocked_of_clocked hclocked, takeSchedSync]
    dsimp only
    rw [htime, hns, if_neg (by decide)]
    rfl
  case bad =>
    rw [exec, execSchedSync, whenClocked_of_clocked hclocked, takeSchedSync]
    dsimp only
    rw [if_pos (by rcases hbad with h | h <;> simp [h])]

end Arrival

/-! ## The twin on belay -/

theorem belayUp_of_links {s t : State} (h : t.lanes.map Lane.core = s.lanes.map Lane.core) : t.belayUp = s.belayUp := by
  have hany : ∀ ls : List Lane, (ls.any fun l => l.plan.use.isBelay && l.st == .up) =
      (ls.map Lane.core).any fun l => l.plan.use.isBelay && l.st == .up := fun ls => by
    rw [List.any_map]
    rfl
  rw [State.belayUp, State.belayUp, hany, h, ← hany]

/-- Deciding an arm leaves the twin on belay, or off it. -/
theorem decide_withTwin (a : Arm) (s : State) : (decide_ a s).withTwin = s.withTwin := by
  rw [State.withTwin, State.withTwin, belayUp_of_links (decide__only.same .links rfl),
    show (decide_ a s).twin = s.twin from decide__only.same .twin rfl]

/-! ## Answers -/

/-- An arm with a new answer; once it is complete, the node's own answer follows. -/
def State.answered (s : State) (id : BitVec 64) (put : Arm → Arm) : State :=
  match (s.onArm id put).arm? id with
  | some b => if !b.own && !b.statusSent && b.allAnswered then sendStatus b (s.onArm id put) else s.onArm id put
  | none => s.onArm id put

theorem answered_arm? {s : State} {id : BitVec 64} {a : Arm} {put : Arm → Arm} (hput : ∀ x, (put x).id = x.id)
    (h : s.arm? id = some a) : (s.answered id put).arm? id = some (put a) ∨ (s.answered id put).arm? id = some (put a).sent := by
  have hfind : (s.onArm id put).arm? id = some (put a) := arm?_onArm hput h
  rw [State.answered, hfind]
  dsimp only
  split
  · exact .inr (arm?_sendStatus ((hput a).trans (arm?_id h)) hfind)
  · exact .inl hfind

section Answer
variable {s : State} {lane : Nat} {msg : Bytes} {a : Arm} {view : List (Nat × Nat)}

theorem exec_armAck_child {n : Nat} (hruns : s.runsAs .tray = true) (hbelay : s.isBelayLane lane = false)
    (hchild : s.laneChild lane = some n) (ha : s.arm? (BitVec.ofNat 64 (fld msg 4 8)) = some a) :
    exec (.armAck lane msg view) s = .next ((s.taken lane msg).answered a.id fun a => a.answer n (fld msg 12 1)) := by
  have hbelay' : (s.taken lane msg).isBelayLane lane = false := hbelay
  have hchild' : (s.taken lane msg).laneChild lane = some n := hchild
  have ha' : (s.taken lane msg).arm? (BitVec.ofNat 64 (fld msg 4 8)) = some a := ha
  rw [exec, execArmAck, onTray_of_runs hruns]
  dsimp only
  rw [hbelay', hchild', if_neg Bool.false_ne_true, Option.bind_some, ha']
  rfl

theorem exec_armAck_twin (hruns : s.runsAs .tray = true) (hbelay : s.isBelayLane lane = true)
    (ha : s.arm? a.id = some a) (hothers : ∀ x ∈ s.red.arms, x.id ≠ a.id → viewMsg x.id view ≠ viewMsg a.id view) :
    exec (.armAck lane (viewMsg a.id view) view) s =
      .next ((s.taken lane (viewMsg a.id view)).answered a.id fun a => { a with twinView := view }) := by
  have hbelay' : (s.taken lane (viewMsg a.id view)).isBelayLane lane = true := hbelay
  have ha' : (s.taken lane (viewMsg a.id view)).arm? a.id = some a := ha
  have hfound : ((s.taken lane (viewMsg a.id view)).red.arms.find? fun x => viewMsg a.id view == viewMsg x.id view).map
      (·.id) = some a.id := by
    cases h : (s.taken lane (viewMsg a.id view)).red.arms.find? fun x => viewMsg a.id view == viewMsg x.id view with
    | none =>
      have hmem : a ∈ s.red.arms := List.mem_of_find?_eq_some ha
      exact absurd (List.find?_eq_none.mp h a hmem) (by simp)
    | some b =>
      have hview : viewMsg a.id view = viewMsg b.id view := eq_of_beq (List.find?_some h :)
      have hid : b.id = a.id := Classical.byContradiction fun hne =>
        hothers b (List.mem_of_find?_eq_some h) hne hview.symm
      rw [Option.map_some, hid]
  rw [exec, execArmAck, onTray_of_runs hruns]
  dsimp only
  rw [hbelay', if_pos rfl, hfound, Option.bind_some, ha']
  rfl

end Answer

/-! ## The decision -/

section Decision
variable {s : State} {lane : Nat} {msg : Bytes} {a : Arm} {id : BitVec 64} {c : Bool}

theorem exec_decision (hclocked : s.clocked = true) : exec (if c then .confirm lane msg else .cancel lane msg) s =
    .next (takeDecision lane c msg (s.taken lane msg)) := by
  cases c
  · rw [if_neg Bool.false_ne_true, exec, execCancel, whenClocked_of_clocked hclocked]
  · rw [if_pos rfl, exec, execConfirm, whenClocked_of_clocked hclocked]

/-- An arm with a decision that has arrived. -/
def Arm.told (c : Bool) (a : Arm) : Arm := { a with decision := some c }

/-- A node that did not originate the arm keeps the first decision (07 R209). -/
theorem takeDecision_below (ha : s.arm? (BitVec.ofNat 64 (fld msg 4 8)) = some a) (hnow : s.now ≤ a.decideBy)
    (hown : a.own = false) (hnone : a.decision = none) :
    ∃ b, (takeDecision lane c msg s).arm? a.id = some b ∧ b.decision = some c := by
  have hid := arm?_id ha
  have htold : (s.onArm a.id (Arm.told c)).arm? a.id = some (a.told c) := arm?_onArm (fun _ => rfl) (hid ▸ ha)
  have hdown := arm?_sendDown (a := a) c rfl htold
  unfold takeDecision
  rw [ha]
  dsimp only
  rw [if_neg (Nat.not_lt.mpr hnow), hown, if_neg Bool.false_ne_true, hnone, if_neg (by simp)]
  split
  · exact ⟨_, htold, rfl⟩
  · split
    · exact ⟨_, (arm?_lanesOnly (sendBelay_lanesOnly _ _) a.id).trans hdown, rfl⟩
    · exact ⟨_, hdown, rfl⟩

/-- Side B of the originating team keeps the first decision of side A and sends it down (07 R209). -/
theorem takeDecision_sideB (ha : s.arm? (BitVec.ofNat 64 (fld msg 4 8)) = some a) (hnow : s.now ≤ a.decideBy)
    (hown : a.own = true) (hbelay : s.isBelayLane lane = true) (hside : s.cfg.side = .b) (hnone : a.decision = none) :
    ∃ b, (takeDecision lane c msg s).arm? a.id = some b ∧ b.decision = some c ∧ b.down = true := by
  have ha' : (s.sendCtl lane (decisionMsg a.id a.epochT c)).arm? a.id = some a :=
    (arm?_lanesOnly (sendCtl_lanesOnly s _ _) a.id).trans (arm?_id ha ▸ ha)
  have htold := arm?_onArm (f := Arm.told c) (fun _ => rfl) ha'
  unfold takeDecision
  rw [ha]
  dsimp only
  rw [if_neg (Nat.not_lt.mpr hnow), hown, if_pos rfl, hbelay, hside, if_pos (by decide), hnone, if_neg (by simp)]
  exact ⟨_, arm?_sendDown c rfl htold, rfl, rfl⟩

theorem takeDecision_late (ha : s.arm? (BitVec.ofNat 64 (fld msg 4 8)) = some a) (hlate : a.decideBy < s.now) :
    takeDecision lane c msg s = countArmLate s := by
  rw [takeDecision, ha]
  dsimp only
  rw [if_pos hlate]

theorem countArmLate_eq (s : State) : ∃ err, countArmLate s =
    { s with red := { s.red with armLate := s.red.armLate + 1 }, err := err } := by
  unfold countArmLate
  dsimp only
  split <;> exact ⟨_, rfl⟩

/-! ## DECIDE_BY -/

/-- The change of an arm is not applied: its end is logged, its STOP disarmed and its set-up table given up. -/
def abandon (a : Arm) (merged outcome : Nat) (s : State) : State :=
  dropSetup a (unarmStop a (logArm a merged outcome (s.dropArm a.id)))

theorem abandon_eq (a : Arm) (merged outcome : Nat) (s : State) : ∃ setups stop log, abandon a merged outcome s = { s with
    setups := setups
    stop := stop
    red := { (s.dropArm a.id).red with armLog := log } } := by
  have hlog : ∃ log, logArm a merged outcome (s.dropArm a.id) =
      { s with red := { (s.dropArm a.id).red with armLog := log } } := by
    unfold logArm
    split <;> exact ⟨_, rfl⟩
  have hstop : ∀ u : State, ∃ stop, unarmStop a u = { u with stop := stop } := fun u => by
    unfold unarmStop
    split <;> exact ⟨_, rfl⟩
  have hsetup : ∀ u : State, ∃ setups, dropSetup a u = { u with setups := setups } := fun u => by
    unfold dropSetup
    split <;> exact ⟨_, rfl⟩
  obtain ⟨log, hlog⟩ := hlog
  obtain ⟨stop, hstop⟩ := hstop (logArm a merged outcome (s.dropArm a.id))
  obtain ⟨setups, hsetup⟩ := hsetup (unarmStop a (logArm a merged outcome (s.dropArm a.id)))
  rw [abandon, hsetup, hstop, hlog]
  exact ⟨setups, stop, log, rfl⟩

/-- An arm dropped without a decision is counted as an orphan, with its status bit (07 R210). -/
def orphanArm (a : Arm) (s : State) : State :=
  let s1 := abandon a a.merged 3 s
  let s2 := if s1.isTray then s1.errCount 19 1 else s1
  { s2 with red := { s2.red with armOrphan := s2.red.armOrphan + 1 } }.setBit .rstState 23

theorem orphanArm_spec (a : Arm) (s : State) : (orphanArm a s).arm? a.id = none ∧
    (orphanArm a s).red.armOrphan = s.red.armOrphan + 1 ∧
    (orphanArm a s).sticky.rstState = s.sticky.rstState ||| 0x00800000 := by
  obtain ⟨setups, stop, log, h⟩ := abandon_eq a a.merged 3 s
  unfold orphanArm
  rw [h]
  dsimp only
  split <;> exact ⟨arm?_dropArm s a.id, rfl, rfl⟩

theorem exec_armDecideBy (ha : s.arm? id = some a) (hnow : a.decideBy ≤ s.now)
    (hechoed : a.own = false ∨ s.cfg.side = .b ∨ a.down = true) : exec (.armDecideBy id) s = .next
      (match a.decision with
      | some true =>
        let s1 := s.onArm id fun a => { a with settled := true }
        if a.kind == kindStop && s.isLeaf then { s1 with stop := { s1.stop with confirmed := true } } else s1
      | some false => abandon a a.merged 2 s
      | none => orphanArm a s) := by
  obtain rfl := arm?_id ha
  have hunechoed : (a.own && s.cfg.side == .a && !a.down && s.withTwin) = false := by
    rcases hechoed with h | h | h <;> simp [h]
  rw [exec, execArmDecideBy, ha]
  dsimp only
  rw [if_neg (Nat.not_lt.mpr hnow), hunechoed, if_neg Bool.false_ne_true]
  rfl

end Decision

/-- Settles O27, one clause per message and deadline of an arm. -/
theorem armAnswersAndDecisions : Obligations.ArmAnswersAndDecisions := by
  refine ⟨fun s lane msg v a n hruns hbelay hchild ha => ?child, fun s lane v a hruns hbelay ha hothers => ?twin,
    fun s id a hruns ha hown hsent hdue => ?level, fun s id a hruns ha hpaired => ?view,
    fun s id a hruns ha hown hdue hnone hdown hcarry hside => ?deadline,
    fun s lane msg a d hruns ha hown hcarry hside hdown hdec => ?echo,
    fun s id a hruns ha hown hcarry hside hbelay hdown hdue => ?alone,
    fun s lane msg a c hclocked ha hnow hown hnone => ?below,
    fun s lane msg a c hclocked ha hnow hown hbelay hside hnone => ?sideB, fun s lane msg a c hclocked ha hlate => ?late,
    fun s id a ha hnow hechoed => ⟨fun hdec => ?confirmed, fun hdec => ?cancelled, fun hdec => ?orphan⟩⟩
  case child =>
    have hfind := answered_arm? (s := s.taken lane msg) (put := fun a => a.answer n (fld msg 12 1)) (fun _ => rfl)
      (arm?_id ha ▸ ha : s.arm? a.id = some a)
    rcases hfind with h | h
    · exact ⟨_, _, exec_armAck_child hruns hbelay hchild ha, h, rfl, rfl⟩
    · exact ⟨_, _, exec_armAck_child hruns hbelay hchild ha, h, rfl, rfl⟩
  case twin =>
    have hfind := answered_arm? (s := s.taken lane (viewMsg a.id v)) (put := fun a => { a with twinView := v }) (fun _ => rfl) ha
    rcases hfind with h | h
    · exact ⟨_, _, exec_armAck_twin hruns hbelay ha hothers, h, rfl, rfl, rfl⟩
    · exact ⟨_, _, exec_armAck_twin hruns hbelay ha hothers, h, rfl, rfl, rfl⟩
  case level =>
    refine ⟨_, _, ?_, arm?_sendStatus (arm?_id ha) ha, rfl, rfl⟩
    rw [exec, execArmLevelDeadline, onTray_of_runs hruns, ha]
    dsimp only
    rw [hown, hsent, if_pos (by simpa using hdue)]
  case view =>
    rw [exec, execBelayViewSend, onTray_of_runs hruns, ha]
    dsimp only
    rw [if_pos hpaired]
  case deadline =>
    have hdecides : s.decidesArm a = true := by
      rw [State.decidesArm, hcarry]
      rcases hside with h | ⟨hpaired, h | h⟩
      · simp [h]
      · simp [hpaired, h]
      · simp [hpaired, h]
    have hdecided := arm?_decide (arm?_id ha) ha
    have hexec : exec (.armAckDeadline id) s = .next
        (if (decide_ a s).withTwin then (decide_ a s).sendBelay (decisionMsg id a.decided.epochT a.verdict)
        else sendDown a.decided a.verdict (decide_ a s)) := by
      rw [exec, execArmAckDeadline, onTray_of_runs hruns, ha]
      dsimp only
      rw [hown, hdecides, if_neg (by simpa using hdue), hnone, if_pos (Option.isNone_none), hdecided]
      dsimp only [Arm.decided]
      rw [hdown, if_neg Bool.false_ne_true]
    rw [decide_withTwin] at hexec
    cases htwin : s.withTwin with
    | true =>
      rw [htwin, if_pos rfl] at hexec
      exact ⟨_, _, hexec, (arm?_lanesOnly (sendBelay_lanesOnly _ _) id).trans hdecided, rfl, hdown⟩
    | false =>
      rw [htwin, if_neg Bool.false_ne_true] at hexec
      exact ⟨_, _, hexec, arm?_sendDown _ (arm?_id hdecided) hdecided, rfl, rfl⟩
  case echo =>
    have hechoed : ((s.taken lane msg).onArm a.id fun a => { a with echoed := true }).arm? a.id =
        some { a with echoed := true } := arm?_onArm (fun _ => rfl) (arm?_id ha ▸ ha : s.arm? a.id = some a)
    refine ⟨_, _, ?_, arm?_sendDown (a := a) d rfl hechoed, rfl, rfl, hdec⟩
    have ha' : (s.taken lane msg).arm? (BitVec.ofNat 64 (fld msg 4 8)) = some a := ha
    have hsend : (a.own && (s.taken lane msg).carrying && (s.taken lane msg).cfg.side == .a && !a.down) = true := by
      rw [hown, show (s.taken lane msg).carrying = true from hcarry, show (s.taken lane msg).cfg.side = .a from hside, hdown]
      rfl
    rw [exec, execDecisionEcho, onTray_of_runs hruns]
    dsimp only
    rw [ha']
    dsimp only
    rw [hsend, hdec]
  case alone =>
    have hexec : exec (.sideBDecide id) s = .next (match a.decision with
        | some d => sendDown a d s
        | none => if a.ackDeadline + nsT 2000 ≤ s.now then sendDown a a.verdict (decide_ a s) else s) := by
      rw [exec, execSideBDecide, onTray_of_runs hruns, ha]
      dsimp only
      rw [hown, hcarry, hside, hbelay, hdown, if_neg (by decide)] <;> rfl
    cases hdec : a.decision with
    | some d =>
      rw [hdec] at hexec
      exact ⟨_, _, hexec, arm?_sendDown d (arm?_id ha) ha, rfl, hdec⟩
    | none =>
      rw [hdec] at hexec hdue
      dsimp only at hexec
      rw [if_pos (by simpa using hdue)] at hexec
      exact ⟨_, _, hexec, arm?_sendDown _ (arm?_id ha) (arm?_decide (arm?_id ha) ha), rfl, rfl⟩
  case below =>
    obtain ⟨b, hb, hdec⟩ := takeDecision_below (s := s.taken lane msg) (lane := lane) (c := c) ha hnow hown hnone
    exact ⟨_, b, exec_decision hclocked, hb, hdec⟩
  case sideB =>
    obtain ⟨b, hb, hdec, hdown⟩ := takeDecision_sideB (s := s.taken lane msg) (c := c) ha hnow hown hbelay hside hnone
    exact ⟨_, b, exec_decision hclocked, hb, hdec, hdown⟩
  case late =>
    obtain ⟨err, hcount⟩ := countArmLate_eq (s.taken lane msg)
    refine ⟨_, (exec_decision hclocked).trans (congrArg _
      ((takeDecision_late (s := s.taken lane msg) ha hlate).trans hcount)), rfl⟩
  case confirmed =>
    have hexec := exec_armDecideBy ha hnow hechoed
    rw [hdec] at hexec
    dsimp only at hexec
    have hsettled : (s.onArm id fun a => { a with settled := true }).arm? id = some { a with settled := true } :=
      arm?_onArm (fun _ => rfl) ha
    split at hexec
    · exact ⟨_, _, hexec, hsettled, rfl⟩
    · exact ⟨_, _, hexec, hsettled, rfl⟩
  case cancelled =>
    have hexec := exec_armDecideBy ha hnow hechoed
    rw [hdec] at hexec
    obtain ⟨setups, stop, log, h⟩ := abandon_eq a a.merged 2 s
    refine ⟨_, hexec.trans (congrArg _ h), ?_, rfl⟩
    rw [← arm?_id ha]
    exact arm?_dropArm s a.id
  case orphan =>
    have hexec := exec_armDecideBy ha hnow hechoed
    rw [hdec] at hexec
    obtain ⟨hgone, hcount, hbit⟩ := orphanArm_spec a s
    exact ⟨_, hexec, arm?_id ha ▸ hgone, hcount, hbit⟩

end Sys2Proof.Machine
end


section
/-!
PROOFS. Membership over belay (05 R146 to R150, 01 R41) and the status messages of children (06 R172, 07 R214).
-/

namespace Sys2Proof.Machine

/-! ## What declarations add to the membership record -/

/-- Changes of contexts that satisfy P have been recorded; they are sent to the twin of a pair alone. -/
def Declared (P : Nat → Prop) (s t : State) : Prop := ∃ new owed lanes, (∀ c ∈ new, P c.ctx) ∧
  (s.twin.paired = false → lanes = s.lanes) ∧
  t = { s with lanes := lanes, red := { s.red with changes := s.red.changes ++ new, assignOwed := owed } }

section Declared
variable {P Q : Nat → Prop} {s t u : State}

theorem Declared.refl (P : Nat → Prop) (s : State) : Declared P s s :=
  ⟨[], s.red.assignOwed, s.lanes, by simp, fun _ => rfl, by rw [List.append_nil]⟩

theorem Declared.trans (h : Declared P s t) (k : Declared P t u) : Declared P s u := by
  obtain ⟨new, owed, lanes, hnew, hlanes, rfl⟩ := h
  obtain ⟨new', owed', lanes', hnew', hlanes', rfl⟩ := k
  refine ⟨new ++ new', owed', lanes', fun c hc => ?_, fun hp => (hlanes' hp).trans (hlanes hp), by rw [← List.append_assoc]⟩
  rcases List.mem_append.mp hc with h | h
  · exact hnew c h
  · exact hnew' c h

theorem Declared.mono (hPQ : ∀ c, P c → Q c) (h : Declared P s t) : Declared Q s t := by
  obtain ⟨new, owed, lanes, hnew, hrest⟩ := h
  exact ⟨new, owed, lanes, fun c hc => hPQ _ (hnew c hc), hrest⟩

theorem Declared.mem_of_mem (h : Declared P s t) {c : Change} (hc : c ∈ s.red.changes) : c ∈ t.red.changes := by
  obtain ⟨new, owed, lanes, -, -, rfl⟩ := h
  exact List.mem_append_left new hc

theorem Declared.paired (h : Declared P s t) : t.twin.paired = s.twin.paired := by
  obtain ⟨new, owed, lanes, -, -, rfl⟩ := h
  rfl

/-- The entries of a context that satisfies P not stand. -/
theorem Declared.changesOf_of_not {ctx : Nat} (h : Declared P s t) (hctx : ¬ P ctx) (slot : Nat) :
    changesOf t.red.changes ctx slot = changesOf s.red.changes ctx slot := by
  obtain ⟨new, owed, lanes, hnew, -, rfl⟩ := h
  have hnone : changesOf new ctx slot = [] := List.filter_eq_nil_iff.mpr fun c hc hmine => hctx (by
    have hmine' := (Bool.and_eq_true_iff.mp hmine).1
    exact eq_of_beq hmine' ▸ hnew c hc)
  rw [changesOf, List.filter_append]
  exact (congrArg _ hnone).trans (List.append_nil _)

theorem foldl_declared {α : Type} {f : State → α → State} (hf : ∀ s a, Declared P s (f s a)) (l : List α) (s : State) :
    Declared P s (l.foldl f s) :=
  foldl_rel (Declared.refl P) (fun h k => h.trans k) hf l s

theorem addChange_declared (s : State) (c : Change) : Declared (· = c.ctx) s (s.addChange c) := by
  unfold State.addChange
  split
  · exact Declared.refl _ s
  · exact ⟨[c], s.red.assignOwed, s.lanes, by simp, fun _ => rfl, rfl⟩

theorem mem_addChange (s : State) (c : Change) : c ∈ (s.addChange c).red.changes := by
  unfold State.addChange
  split
  · next h => simpa using h
  · simp

theorem lanesOnly_declared_of_paired (hp : s.twin.paired = true) (h : LanesOnly s t) : Declared P s t := by
  obtain ⟨lanes, rfl⟩ := h
  exact ⟨[], s.red.assignOwed, lanes, by simp, fun h => absurd (hp.symm.trans h) (by decide), by rw [List.append_nil]⟩

theorem decideChange_declared {ctx : Nat} (s : State) (c : Change) (hc : c.ctx = ctx) :
    Declared (· = ctx) s (s.decideChange c) := by
  subst hc
  unfold State.decideChange
  dsimp only
  split
  · next h => exact (addChange_declared s c).trans (lanesOnly_declared_of_paired h (sendBelay_lanesOnly _ _))
  · exact addChange_declared s c

theorem mem_decideChange (s : State) (c : Change) : c ∈ (s.decideChange c).red.changes := by
  unfold State.decideChange
  dsimp only
  split
  · next h =>
    exact (lanesOnly_declared_of_paired (P := (· = c.ctx)) h (sendBelay_lanesOnly _ _)).mem_of_mem (mem_addChange s c)
  · exact mem_addChange s c

theorem owed_declared (s : State) (owed : List Nat) :
    Declared P s { s with red := { s.red with assignOwed := owed } } :=
  ⟨[], owed, s.lanes, by simp, fun _ => rfl, by rw [List.append_nil]⟩

end Declared

theorem declareJoin_declared (s : State) (ctx slot k : Nat) (left : MemberEntry) :
    Declared (· = ctx) s (s.declareJoin ctx slot k left) :=
  (owed_declared s _).trans (decideChange_declared _ _ rfl)

theorem declareShardJoin_declared (s : State) (ctx slot j : Nat) (left : MemberEntry) :
    Declared (· = ctx) s (s.declareShardJoin ctx slot j left) := by
  refine Declared.trans (foldl_declared ?_ _ s) (decideChange_declared _ _ ?_)
  · exact fun s _ => decideChange_declared s _ rfl
  · rfl

theorem rejoin_declared (s : State) (ctx slot k : Nat) : Declared (· = ctx) s (s.rejoin ctx slot k) := by
  unfold State.rejoin
  split
  · split
    · split
      · split
        · exact declareShardJoin_declared ..
        · exact declareJoin_declared ..
      · exact Declared.refl _ s
    · exact Declared.refl _ s
  · exact Declared.refl _ s

theorem declareShardLost_declared (ctx slot k : Nat) (s : State) :
    Declared (· = ctx) s (declareShardLost ctx slot k s) := by
  refine Declared.trans (foldl_declared ?_ _ s) (decideChange_declared _ _ ?_)
  · exact fun s _ => decideChange_declared s _ rfl
  · rfl

/-! ## An absence -/

/-- The entry of an absence. -/
def State.absence (s : State) (ctx slot k : Nat) (otherUp : Bool) : Change :=
  { ctx := ctx, slot := slot, silent := false, e :=
    { epoch := k, subject := (subjectOf s.red.changes slot).getD 0, kind := s.subjectKind, join := false
      reason := s.absenceReason slot k otherUp } }

/-- A contributor is declared absent from one context. -/
def absentFrom (slot k : Nat) (otherUp : Bool) (s : State) (c : Nat) : State :=
  if !s.awaits c slot k then s
  else (if 1000 ≤ slot then declareShardLost c slot k s else s.decideChange (s.absence c slot k otherUp)).rejoin c slot k

theorem declareAbsent_eq (ctx slot k : Nat) (otherUp : Bool) (s : State) : declareAbsent ctx slot k otherUp s =
    (if s.cfg.role == .tray then s.ctxs.map (·.id) else [ctx]).foldl (absentFrom slot k otherUp) s := rfl

theorem absentFrom_declared (slot k : Nat) (otherUp : Bool) (s : State) (c : Nat) :
    Declared (· = c) s (absentFrom slot k otherUp s c) := by
  unfold absentFrom
  split
  · exact Declared.refl _ s
  · split
    · exact (declareShardLost_declared c slot k s).trans (rejoin_declared _ _ _ _)
    · exact (decideChange_declared s (s.absence c slot k otherUp) rfl).trans (rejoin_declared _ _ _ _)

theorem declareAbsent_declared (ctx slot k : Nat) (otherUp : Bool) (s : State) :
    Declared (fun _ => True) s (declareAbsent ctx slot k otherUp s) :=
  foldl_declared (fun s c => (absentFrom_declared slot k otherUp s c).mono fun _ _ => trivial) _ s

theorem settleAbsent_declared (ctx slot k : Nat) (otherUp : Bool) (s : State) :
    Declared (fun _ => True) s (settleAbsent ctx slot k otherUp s) := by
  unfold settleAbsent
  split
  · exact Declared.refl _ s
  · split
    · exact declareAbsent_declared ..
    · split
      · exact declareAbsent_declared ..
      · exact Declared.refl _ s

section Absence
variable {s u : State} {ctx slot k : Nat} {otherUp : Bool}

theorem changeSlot_of_lt (h : slot < 1000) : changeSlot slot = slot := if_neg (by omega)

theorem awaits_of_expected (h : slot < 1000) (hexp : expectedAt s.red.changes ctx slot k = true)
    (habs : absentAt s.red.changes ctx slot k = false) : s.awaits ctx slot k = true := by
  rw [State.awaits, if_neg (by omega), hexp, changeSlot_of_lt h, habs]
  rfl

/-- Declarations of other contexts leave what is expected of this one. -/
theorem Declared.awaits (h : Declared (· ≠ ctx) s u) (hslot : slot < 1000) : u.awaits ctx slot k = s.awaits ctx slot k := by
  have hof := h.changesOf_of_not (ctx := ctx) (fun hne => hne rfl) slot
  rw [State.awaits, State.awaits, if_neg (by omega), if_neg (by omega), changeSlot_of_lt hslot, expectedAt, expectedAt,
    absentAt, absentAt, changeAt, changeAt, hof]

theorem Declared.absenceReason (h : Declared (· ≠ ctx) s u) (hp : s.twin.paired = false) :
    u.absenceReason slot k otherUp = s.absenceReason slot k otherUp := by
  obtain ⟨new, owed, lanes, -, hlanes, rfl⟩ := h
  obtain rfl := hlanes hp
  rfl

/-- The record holds the absence of a contributor. -/
def AbsenceIn (s : State) (ctx slot k reason : Nat) (cs : List Change) : Prop :=
  ∃ c ∈ cs, c.ctx = ctx ∧ c.slot = slot ∧ c.e.epoch = k ∧ c.e.join = false ∧ c.e.reason = reason

theorem absentFrom_declares (hslot : slot < 1000) (hawaits : s.awaits ctx slot k = true) :
    AbsenceIn s ctx slot k (s.absenceReason slot k otherUp) (absentFrom slot k otherUp s ctx).red.changes := by
  rw [absentFrom, hawaits, if_neg (by decide), if_neg (by omega)]
  exact ⟨s.absence ctx slot k otherUp, (rejoin_declared _ _ _ _).mem_of_mem (mem_decideChange s _), rfl, rfl, rfl, rfl, rfl⟩

theorem foldl_absentFrom_declares (hslot : slot < 1000) (hawaits : s.awaits ctx slot k = true) (hp : s.twin.paired = false)
    (cs : List Nat) (hmem : ctx ∈ cs) (hdecl : Declared (· ≠ ctx) s u) :
    AbsenceIn s ctx slot k (s.absenceReason slot k otherUp) (cs.foldl (absentFrom slot k otherUp) u).red.changes := by
  induction cs generalizing u with
  | nil => cases hmem
  | cons c cs ih =>
    by_cases hc : c = ctx
    · subst hc
      obtain ⟨x, hx, hfields⟩ := absentFrom_declares (s := u) (otherUp := otherUp) hslot ((hdecl.awaits hslot).trans hawaits)
      rw [hdecl.absenceReason hp] at hfields
      exact ⟨x, (foldl_declared (fun s c => (absentFrom_declared slot k otherUp s c).mono
        (Q := fun _ => True) fun _ _ => trivial) cs _).mem_of_mem hx, hfields⟩
    · exact ih ((List.mem_cons.mp hmem).resolve_left (Ne.symm hc))
        (hdecl.trans ((absentFrom_declared slot k otherUp u c).mono fun x (hx : x = c) => hx ▸ hc))

/-- An awaited contributor of a context of this node is declared absent from it, with the reason of 01 R41. -/
theorem declareAbsent_declares (hslot : slot < 1000) (hawaits : s.awaits ctx slot k = true) (hp : s.twin.paired = false)
    (hctx : s.cfg.role ≠ .tray ∨ ctx ∈ s.ctxs.map (·.id)) :
    AbsenceIn s ctx slot k (s.absenceReason slot k otherUp) (declareAbsent ctx slot k otherUp s).red.changes := by
  rw [declareAbsent_eq]
  refine foldl_absentFrom_declares hslot hawaits hp _ ?_ (Declared.refl _ s)
  split
  · next h => exact hctx.resolve_left fun hne => hne (eq_of_beq h)
  · exact List.mem_singleton_self ctx

end Absence

/-! ## The wait, the query and its answer -/

section Query
variable {s : State} {ctx slot k : Nat}

theorem exec_memberWaitDeadline {w : Ticks} (hprofile : s.profile = .tray) (hmode : s.mode = .service) (hslot : slot < 1000)
    (hwait : s.waitFrom ctx slot k = some w) (hdue : w + nsT (s.cfg.memberWait * s.cfg.epochNs) ≤ s.now)
    (hmissing : s.missing ctx slot k = true) (hexp : expectedAt s.red.changes ctx slot k = true)
    (habs : absentAt s.red.changes ctx slot k = false) : exec (.memberWaitDeadline ctx slot k) s = .next
      (if !s.twin.paired || !s.belayUp then declareAbsent ctx slot k false s
      else if s.cfg.side == .a then sendQuery ctx slot k s
      else s) := by
  have hruns : s.runsAs .tray = true := (runsAs_iff s .tray).mpr ⟨hprofile, clocked_of_service hmode⟩
  have hcarry : s.carrying = true := beq_iff_eq.mpr hmode
  have hepochs : s.waitEpochs slot = s.cfg.memberWait := if_neg (by omega)
  have hlack : s.lacking ctx slot k = some k := if_pos hmissing
  rw [exec, execMemberWaitDeadline, onTray_of_runs hruns, hwait]
  dsimp only
  rw [hcarry, hepochs, awaits_of_expected hslot hexp habs, if_neg (by simpa using hdue), hlack]

theorem sendQuery_spec (ctx slot m : Nat) (s : State) : (ctx, slot, m, s.now) ∈ (sendQuery ctx slot m s).red.queries ∧
    (sendQuery ctx slot m s).red.changes = s.red.changes ∧
    (sendQuery ctx slot m s).lanes = (s.sendBelay (memberQueryMsg ctx slot m)).lanes := by
  have hlanes : ∀ q : List (Nat × Nat × Nat × Ticks),
      (({ s with red := { s.red with queries := q } } : State).sendBelay (memberQueryMsg ctx slot m)).lanes =
        (s.sendBelay (memberQueryMsg ctx slot m)).lanes := fun q => by
    unfold State.sendBelay
    rw [show ({ s with red := { s.red with queries := q } } : State).belayLane? = s.belayLane? from rfl]
    split <;> rfl
  obtain ⟨lanes, hsend⟩ := sendBelay_lanesOnly { s with red := { s.red with
    queries := putBack (fun x : Nat × Nat × Nat × Ticks => x.1 == ctx && x.2.1 == slot && x.2.2.1 == m)
      (ctx, slot, m, s.now) s.red.queries } } (memberQueryMsg ctx slot m)
  refine ⟨?_, ?_, hlanes _⟩
  · rw [sendQuery, hsend]
    exact List.mem_append_right _ (List.mem_singleton_self _)
  · rw [sendQuery, hsend]

/-- What is queried stands over a declaration. -/
theorem Declared.queries {P : Nat → Prop} {s t : State} (h : Declared P s t) : t.red.queries = s.red.queries := by
  obtain ⟨new, owed, lanes, -, -, rfl⟩ := h
  rfl

end Query

/-- Settles O28, by the branches of the wait, the query and the answer. -/
theorem membershipOverBelay : Obligations.MembershipOverBelay := by
  refine ⟨fun s ctx slot k w hprofile hmode hslot hctx hwait hdue hmissing hexp habs hp => ?alone,
    fun s ctx slot k w hprofile hmode hslot hwait hdue hmissing hexp habs hp hbelay hside => ?asks,
    fun s ctx slot k t0 hruns hbelay hq hdue => ?again, fun s ctx slot k q hruns hbelay hq => ?noBelay,
    fun s lane ctx slot k hruns hnone => ?none, fun s lane ctx slot k b hruns hsome => ?sends,
    fun s lane ctx slot k up hruns => ?absent, fun s lane ctx slot k b hruns hrole => ?record,
    fun s lane ctx slot e hruns => ?decided⟩
  case alone =>
    have hexec := exec_memberWaitDeadline hprofile hmode hslot hwait hdue hmissing hexp habs
    rw [hp, if_pos (by simp)] at hexec
    refine ⟨_, hexec, ?_, declareAbsent_declares hslot (awaits_of_expected hslot hexp habs) hp hctx⟩
    obtain ⟨new, owed, lanes, -, hlanes, h⟩ := declareAbsent_declared ctx slot k false s
    obtain rfl := hlanes hp
    rw [h]
  case asks =>
    have hexec := exec_memberWaitDeadline hprofile hmode hslot hwait hdue hmissing hexp habs
    rw [hp, hbelay, hside, if_neg (by decide), if_pos (by decide)] at hexec
    exact ⟨_, hexec, sendQuery_spec ctx slot k s⟩
  case again =>
    obtain ⟨hmem, hchanges, hlanes⟩ := sendQuery_spec ctx slot k s
    refine ⟨_, ?_, hmem, hlanes, hchanges⟩
    rw [exec, execMemberQueryRetry, onTray_of_runs hruns, hq]
    dsimp only
    rw [hbelay, if_neg (by decide), if_pos hdue]
  case noBelay =>
    refine ⟨dropQuery ctx slot k (settleAbsent ctx slot k false s), ?_, ?_⟩
    · rw [exec, execMemberQueryRetry, onTray_of_runs hruns, hq]
      dsimp only
      rw [hbelay, if_pos (by decide)]
    · rw [dropQuery, (settleAbsent_declared ctx slot k false s).queries]
  case none =>
    refine ⟨({ s with red := { s.red with noneAnswered := (ctx, slot, k) :: s.red.noneAnswered } } : State).sendCtl lane
      (memberAnswerMsg ctx slot k false (!(s.slotLanes slot).isEmpty)), ?_, rfl, rfl, ?_⟩
    · rw [exec, execMemberQuery, onTray_of_runs hruns, hnone]
    · simp [State.tooLate, State.sendCtl, State.onLane]
  case sends =>
    rw [exec, execMemberQuery, onTray_of_runs hruns, hsome]
    simp only [beq_iff_eq]
  case absent =>
    have hdecl := settleAbsent_declared ctx slot k up (dropQuery ctx slot k s)
    refine ⟨settleAbsent ctx slot k up (dropQuery ctx slot k s), by rw [exec, execMemberAnswer, onTray_of_runs hruns],
      hdecl.queries, fun hmissing => ?_, fun hmissing hslot hexp habs hp hctx => ?_⟩
    · have hmissing' : (dropQuery ctx slot k s).missing ctx slot k = false := hmissing
      rw [settleAbsent, hmissing', if_pos (by decide)]
      rfl
    · have hmissing' : (dropQuery ctx slot k s).missing ctx slot k = true := hmissing
      have hawaits : (dropQuery ctx slot k s).awaits ctx slot k = true := awaits_of_expected hslot hexp habs
      rw [settleAbsent, hmissing', if_neg (by decide), if_pos hawaits]
      exact declareAbsent_declares (s := dropQuery ctx slot k s) hslot hawaits hp hctx
  case record =>
    have hrole' : (dropQuery ctx slot k s).cfg.role = .tray := hrole
    rw [exec, execMemberAnswer, onTray_of_runs hruns]
    dsimp only
    rw [hrole', if_pos (by decide)]
    rfl
  case decided =>
    have hdecl := addChange_declared s { ctx := ctx, slot := slot, e := e, silent := decide (shardSlot < slot) }
    refine ⟨(s.addChange { ctx := ctx, slot := slot, e := e, silent := decide (shardSlot < slot) }).taken lane
      (memberDecideMsg ctx slot e), by rw [exec, execMemberDecide, onTray_of_runs hruns], mem_addChange s _,
      fun c hc => hdecl.mem_of_mem hc, ?_, ?_, ?_⟩
    all_goals
      unfold State.taken State.addChange
      dsimp only
      split <;> rfl

/-! ## Status messages -/

/-- A report of a leaf that is kept once. -/
def addReport (x : Nat × Nat × Nat) (s : State) : State :=
  { s with red := { s.red with reports := if s.red.reports.contains x then s.red.reports else x :: s.red.reports } }

theorem mem_addReport (x : Nat × Nat × Nat) (s : State) : x ∈ (addReport x s).red.reports ∧
    ∀ y ∈ s.red.reports, y ∈ (addReport x s).red.reports := by
  unfold addReport
  dsimp only
  split
  · next h => exact ⟨by simpa using h, fun _ hy => hy⟩
  · exact ⟨List.mem_cons_self, fun _ hy => List.mem_cons_of_mem x hy⟩

section LeafStatus
variable {s : State} {lane slot : Nat}

theorem exec_leafStatus_report {r : LeafReport} {x : Nat × Nat × Nat} (hruns : s.runsAs .tray = true)
    (hslot : s.laneSlot lane = some slot)
    (hr : r = .dieLost ∧ x = (slot, 1, s.curEpoch) ∨ (∃ k, r = .captureLost k ∧ x = (slot, 2, k)) ∨
      ∃ k, r = .ringOverwritten k ∧ x = (slot, 3, k)) : exec (.leafStatus lane r) s = .next (addReport x s) := by
  rcases hr with ⟨rfl, rfl⟩ | ⟨k, rfl, rfl⟩ | ⟨k, rfl, rfl⟩
  all_goals
    rw [exec, execLeafStatus, onTray_of_runs hruns, hslot]
    rfl

theorem exec_leafStatus_ctxReset {ctx r : Nat} (hruns : s.runsAs .tray = true) (hslot : s.laneSlot lane = some slot)
    (hdecides : s.decides = true) (hexp : expectedAt s.red.changes ctx slot (r + 1) = true) : ∃ u c,
    exec (.leafStatus lane (.ctxReset ctx r)) s = .next (State.decideChange u c) ∧ c.ctx = ctx ∧ c.slot = slot ∧
      c.e.epoch = r + 1 ∧ c.e.join = false ∧ c.e.reason = 7 := by
  refine ⟨{ s with red := { s.red with owners := s.red.owners ++
      (((s.red.owners.filter fun o => o.slot == slot && ownerAt s.red.owners slot o.unit (r + 1) == ctx).map
        (·.unit)).eraseDups.map fun u => { slot := slot, unit := u, ctx := 0, after := r }) } },
    { ctx := ctx, slot := slot, silent := false, e :=
      { epoch := r + 1, subject := (subjectOf s.red.changes slot).getD 0, kind := 1, join := false, reason := 7 } },
    ?_, rfl, rfl, rfl, rfl, rfl⟩
  rw [exec, execLeafStatus, onTray_of_runs hruns, hslot]
  dsimp only
  rw [if_pos]
  exact Bool.and_eq_true_iff.mpr ⟨hdecides, hexp⟩

end LeafStatus

section Resend
variable {s : State} {lane : Nat} {x : ResendIn}

theorem exec_resendReq_leaf (hruns : s.runsAs .leaf = true) (hkind : bits (fld x.msg 12 4) 27 24 = 1) :
    exec (.resendReq lane x) s = .next (leafResend lane (fld x.msg 4 8) (s.taken lane x.msg)) := by
  obtain ⟨hp, hclocked⟩ := (runsAs_iff s .leaf).mp hruns
  rw [exec, execResendReq]
  dsimp only
  rw [whenClocked_of_clocked hclocked, show (s.taken lane x.msg).profile = .leaf from hp, hkind]
  rfl

theorem exec_resendReq_tray (hruns : s.runsAs .tray = true) : exec (.resendReq lane x) s = .next
    (trayResend lane (fld x.msg 4 8) (fld x.msg 12 4 % 2 ^ 17) (bits (fld x.msg 12 4) 23 20) (bits (fld x.msg 12 4) 27 24)
      x.twinRaw (s.taken lane x.msg)) := by
  obtain ⟨hp, hclocked⟩ := (runsAs_iff s .tray).mp hruns
  rw [exec, execResendReq]
  dsimp only
  rw [whenClocked_of_clocked hclocked, show (s.taken lane x.msg).profile = .tray from hp]

end Resend

/-- Settles O29, by the reports and requests of a child. -/
theorem statusMessagesOfChildren : Obligations.StatusMessagesOfChildren := by
  refine ⟨fun s lane ctx k slot hruns hslot => ?hold, fun s lane slot r x hruns hslot hr => ?report,
    fun s lane slot a b hruns hslot => ?lanes, fun s lane slot w hruns hslot => ?floor,
    fun s lane slot ctx r hruns hslot hdecides hexp => ?reset, fun s lane x r hruns hkind hring => ?ring,
    fun s lane x hruns hkind hring => ?overwritten, fun s lane x slot hruns hkind hslot => ?passed,
    fun s lane x h hruns hkind hsheaf => ?sheaf⟩
  case hold =>
    refine ⟨_, by rw [exec, execHoldNotice, onTray_of_runs hruns, hslot], ?_, rfl⟩
    exact List.mem_append_right _ (List.mem_singleton_self _)
  case report =>
    obtain ⟨hmem, hkept⟩ := mem_addReport x s
    exact ⟨_, exec_leafStatus_report hruns hslot hr, hmem, hkept, rfl⟩
  case lanes =>
    obtain ⟨u, hexec⟩ : ∃ u, exec (.leafStatus lane (.laneUp a b)) s = .next (
        let s1 := addReport (slot, if a then 5 else 4, 0) (addReport (slot, if b then 5 else 4, 1) u)
        if a then { s1 with twin := { s1.twin with sideASeen := some s.now } } else s1) := by
      refine ⟨{ s with red := { s.red with
          reports := s.red.reports.filter fun x => !(x.1 == slot && (x.2.1 == 4 || x.2.1 == 5)) } }, ?_⟩
      rw [exec, execLeafStatus, onTray_of_runs hruns, hslot]
      rfl
    obtain ⟨hmem, hkept⟩ := mem_addReport (slot, if a then 5 else 4, 0) (addReport (slot, if b then 5 else 4, 1) u)
    refine ⟨_, hexec, ?_, ?_⟩
    · cases a <;> exact hmem
    · cases a <;> exact hkept _ (mem_addReport _ u).1
  case floor => rw [exec, execLeafStatus, onTray_of_runs hruns, hslot]
  case reset =>
    obtain ⟨u, c, hexec, hfields⟩ := exec_leafStatus_ctxReset hruns hslot hdecides hexp
    exact ⟨_, hexec, c, mem_decideChange u c, hfields⟩
  case ring =>
    refine ⟨_, exec_resendReq_leaf hruns hkind, ?_⟩
    rw [leafResend, show (s.taken lane x.msg).cap = s.cap from rfl, hring]
    exact ⟨rfl, rfl⟩
  case overwritten =>
    refine ⟨_, exec_resendReq_leaf hruns hkind, ?_⟩
    rw [leafResend, show (s.taken lane x.msg).cap = s.cap from rfl, hring]
    exact ⟨rfl, rfl⟩
  case passed =>
    rw [exec_resendReq_tray hruns, hkind, trayResend, show (s.taken lane x.msg).leafSlot (fld x.msg 12 4 % 2 ^ 17) = _ from hslot]
    rfl
  case sheaf =>
    rw [exec_resendReq_tray hruns]
    unfold trayResend
    split
    · omega
    · omega
    · rw [show (s.taken lane x.msg).red = s.red from rfl, hsheaf]

end Sys2Proof.Machine
end


section
/-!
PROOFS. Contributions that land (07 R188 to R190, 05 R135), capture messages (08 R226, R227) and set-up tables (14 R384).
-/

namespace Sys2Proof.Machine

/-! ## What lands and what stands -/

/-- The contributions that a state holds. -/
structure HeldSame (s t : State) : Prop where
  landing : t.red.landing = s.red.landing
  children : t.red.children = s.red.children
  sheaves : t.red.sheaves = s.red.sheaves

theorem HeldSame.refl (s : State) : HeldSame s s := ⟨rfl, rfl, rfl⟩

theorem HeldSame.trans {s t u : State} (h : HeldSame s t) (k : HeldSame t u) : HeldSame s u :=
  ⟨k.landing.trans h.landing, k.children.trans h.children, k.sheaves.trans h.sheaves⟩

theorem Declared.held {P : Nat → Prop} {s t : State} (h : Declared P s t) : HeldSame s t := by
  obtain ⟨new, owed, lanes, -, -, rfl⟩ := h
  exact ⟨rfl, rfl, rfl⟩

theorem maybeRejoin_held (slot k : Nat) (s : State) : HeldSame s (maybeRejoin slot k s) :=
  foldl_rel HeldSame.refl HeldSame.trans (fun s c => (rejoin_declared s c slot k).held) (s.ctxs.map Ctx.id) s

theorem endRecovery_held (ctx slot k : Nat) (s : State) : HeldSame s (endRecovery ctx slot k s) := by
  unfold endRecovery
  split
  · exact ⟨rfl, rfl, rfl⟩
  · exact HeldSame.refl s

theorem countNoRow_red (n : Nat) (s : State) : (countNoRow n s).red = s.red := countNoRow_only.same .red rfl

/-! ## Leaf records -/

section Record
variable {s : State} {lane slot : Nat} {b : Bytes}

/-- A verified record that is neither held nor late lands. -/
theorem takeRecord_lands (hcarry : s.carrying = true) (hslot : s.leafSlot (recLeaf b) = some slot) (hok : recOk b = true)
    (hagrees : s.agrees b = true) (hnew : s.landed? slot (recEpoch b) = none) (hlate : s.tooLate 0 slot (recEpoch b) = false) :
    takeRecord b s = landRecord slot b s := by
  rw [takeRecord, hcarry, hslot]
  dsimp only
  rw [if_neg (by simp), hok, hagrees, hnew, hlate]
  rfl

/-- The landing area once a record has landed: 16 epochs of records, the new one last (07 R188). -/
theorem landRecord_landing (slot : Nat) (b : Bytes) (s : State) : (landRecord slot b s).red.landing =
    s.red.landing.filter (fun l => recEpoch b < l.k + 16 && !(l.slot == slot && l.k == recEpoch b)) ++
      [{ slot := slot, k := recEpoch b, raw := b, logged := false }] ∧
    (landRecord slot b s).red.sheaves = s.red.sheaves := by
  have hred : ∀ (n : Nat) (u : State),
      (noteTail (recEpoch b) ((countNoRow n u).stripe .s (landingStart (recLeaf b) u.cfg.recSizes) (lineCount b.length))).red =
        u.red := fun n u => by
    rw [show ∀ v : State, (noteTail (recEpoch b) v).red = v.red from fun v => noteTail_only.same .red rfl]
    exact countNoRow_red n u
  unfold landRecord
  dsimp only
  generalize hs1 : noteTail _ _ = s1
  have hs1red : s1.red = s.red := hs1 ▸ hred _ s
  have hheld := (endRecovery_held 0 slot (recEpoch b) { s1 with red := { s1.red with
    landing := s1.red.landing.filter (fun l => recEpoch b < l.k + 16 && !(l.slot == slot && l.k == recEpoch b)) ++
      [{ slot := slot, k := recEpoch b, raw := b, logged := false }]
    reports := s1.red.reports.filter fun r => !(r.1 == slot && r.2.1 == 1 && r.2.2 < recEpoch b) } }).trans
    (maybeRejoin_held slot (recEpoch b) _)
  refine ⟨hheld.landing.trans ?_, hheld.sheaves.trans ?_⟩
  · dsimp only
    rw [hs1red]
  · dsimp only
    rw [hs1red]

theorem landRecord_landed (slot : Nat) (b : Bytes) (s : State) :
    (landRecord slot b s).landed? slot (recEpoch b) = some b := by
  rw [State.landed?, (landRecord_landing slot b s).1, List.find?_append, List.find?_eq_none.mpr]
  · simp
  · intro l hl hmine
    have := (List.mem_filter.mp hl).2
    simp_all

end Record

/-! ## Sheaves of children -/

section Child
variable {s : State} {lane slot rtype : Nat} {b summary : Bytes}

/-- A verified sheaf of a child that is neither held nor late joins the children. -/
theorem takeChild_joins (hcarry : s.carrying = true) (hok : sheafOk rtype b = true) (hagrees : s.sheafAgrees b = true)
    (hnew : s.red.children.any (fun c => c.ctx == fld b 48 1 % 16 && c.slot == slot && c.k == fld b 8 8) = false)
    (hlate : s.tooLate (fld b 48 1 % 16) slot (fld b 8 8) = false) :
    (takeChild lane slot rtype b summary s).red.children = s.red.children ++
      [{ ctx := fld b 48 1 % 16, slot := slot, k := fld b 8 8, bytes := b.take (fld b 88 4), summary := summary }] := by
  unfold takeChild
  dsimp only
  rw [hcarry, if_neg (by decide), hok, if_neg (by decide), hagrees, if_neg (by simp), hnew, if_neg (by decide), hlate,
    if_neg (by decide)]
  rw [((endRecovery_held _ _ _ _).trans (rejoin_declared _ _ _ _).held).children]
  dsimp only
  rw [countNoRow_red]

end Child

/-! ## Capture messages -/

theorem issueOne_lanesOnly (s : State) (ctx kind addr : Nat) (data : Bytes) : LanesOnly s (s.issueOne ctx kind addr data) :=
  sendMsgAll_lanesOnly ..

/-- Issued operations go out, and are queued on the fabric lanes. -/
theorem issue_lanesOnly (s : State) (os : List Out) : LanesOnly (s.emits os) (s.issue os) := by
  refine foldl_rel LanesOnly.refl LanesOnly.trans (fun s o => ?_) os (s.emits os)
  split
  · exact issueOne_lanesOnly ..
  · exact issueOne_lanesOnly ..
  · exact issueOne_lanesOnly ..
  · exact LanesOnly.refl s

/-- The address of the next entry of a capture area in this twin's half (08 R227). -/
def CaptArea.entry (a : CaptArea) (side : Side) : Nat :=
  a.base + (if side == .a then 0 else a.n * a.z) + a.q % a.n * a.z

theorem captureMessage_takes {s : State} {ctx : Nat} {msg : Bytes} {a : CaptArea}
    (ha : s.captArea? ctx (fld msg 8 8) = some a) (hbase : a.base ≠ 0) (hfits : 64 + msg.length ≤ a.z) : ∃ old,
    (captureMessage ctx msg s).captOut =
      s.captOut ++ [{ ctx := ctx, q := a.q, addr := a.entry s.cfg.side, expect := old, bytes := msg }] ∧
    (captureMessage ctx msg s).out = s.out ++ [.fadd ctx (a.entry s.cfg.side) (BitVec.ofInt 64 (-(old : Int)))] := by
  unfold captureMessage
  rw [ha]
  dsimp only
  rw [if_neg (by simp [hbase]; omega)]
  refine ⟨match a.stored.find? (·.1 == a.q % a.n) with
    | some x => x.2
    | none => 0, ?_⟩
  constructor
  all_goals
    obtain ⟨lanes, h⟩ := issue_lanesOnly _ _
    rw [h]
    rfl

theorem takeCapture_of_ok {s : State} {kinds : List Nat} {msg : Bytes} (hcarry : s.carrying = true)
    (hlen : 128 ≤ msg.length) (hcrc : crcOk msg = true) (hkind : fld msg 0 1 ∈ kinds) (hform : fld msg 1 1 = 1) :
    takeCapture kinds msg s = if s.heldGen (fld msg 48 1 % 16) != some (BitVec.ofNat 16 (fld msg 50 2)) then
      genDiscard (fld msg 48 1 % 16) s else captureMessage (fld msg 48 1 % 16) msg s := by
  have hkind' : kinds.contains (fld msg 0 1) = true := by simpa using hkind
  rw [takeCapture, hcarry, hcrc, hkind', hform, if_neg (by simp; omega)]

/-! ## Set-up tables -/

/-- The table that a node holds after it takes a new part of one. -/
theorem takeSetup_holds (su : Setup) (s : State) : ∃ x ∈ (takeSetup su s).setups, x.setupId = su.setupId ∧ x.ctx = su.ctx ∧
    x.gen = su.gen ∧ ∀ e ∈ su.entries, s.isTray = true ∨ e.leaf = s.cfg.leafId → e ∈ x.entries := by
  have hforward : ∀ es u, (forwardSetup su es u).setups = u.setups := fun es u => forwardSetup_only.same .setups rfl
  unfold takeSetup
  dsimp only
  refine ⟨{ su with entries := ((s.setups.find? fun x => x.setupId == su.setupId && x.ctx == su.ctx && x.gen == su.gen).map
    (·.entries)).getD [] ++ su.entries.filter fun e => !(((s.setups.find? fun x => x.setupId == su.setupId &&
      x.ctx == su.ctx && x.gen == su.gen).map (·.entries)).getD []).contains e && (s.isTray || e.leaf == s.cfg.leafId) },
    ?_, rfl, rfl, rfl, fun e he hmine => ?_⟩
  · have hlast : ∀ (p : Setup → Bool) (a : Setup) (l : List Setup), a ∈ putBack p a l := fun p a l =>
      List.mem_append_right _ (List.mem_singleton_self a)
    split
    · rw [hforward]
      exact hlast _ _ _
    · exact hlast _ _ _
  · dsimp only
    generalize ((s.setups.find? fun x => x.setupId == su.setupId && x.ctx == su.ctx && x.gen == su.gen).map
      (·.entries)).getD [] = old
    by_cases hold : e ∈ old
    · exact List.mem_append_left _ hold
    · exact List.mem_append_right _ (List.mem_filter.mpr ⟨he, by simpa [hold] using hmine⟩)

theorem takeSetup_of_leaf {su : Setup} {s : State} (h : s.isTray = false) : ∃ setups,
    takeSetup su s = { s with setups := setups } := by
  unfold takeSetup
  dsimp only
  rw [h, if_neg (by decide)]
  exact ⟨_, rfl⟩

theorem exec_ctxSetup {s : State} {lane : Nat} {msg : Bytes} (hclocked : s.clocked = true)
    (hassign : s.isLeaf = false ∨ BitVec.ofNat 64 (fld msg 8 8) ≠ assignmentId) (hlen : 64 ≤ msg.length)
    (htype : fld msg 0 1 = 0x0D) (hform : fld msg 1 1 = 1) (hcrc : crcOk (msg.take 64) = true) :
    exec (.ctxSetup lane msg) s = .next (takeSetup { setupId := BitVec.ofNat 64 (fld msg 8 8), ctx := fld msg 2 1 % 16
                                                     gen := BitVec.ofNat 16 (fld msg 4 2), flags := fld msg 3 1
                                                     entries := setupEntries msg } (s.taken lane msg)) := by
  have hnot : (BitVec.ofNat 64 (fld msg 8 8) == assignmentId && (s.taken lane msg).isLeaf) = false := by
    rcases hassign with h | h
    · rw [show (s.taken lane msg).isLeaf = false from h, Bool.and_false]
    · rw [beq_eq_false_iff_ne.mpr h, Bool.false_and]
  rw [exec, execCtxSetup, whenClocked_of_clocked hclocked]
  dsimp only
  rw [hnot, Bool.false_and, if_neg Bool.false_ne_true, if_pos (by simp [hlen, htype, hform, hcrc])]

theorem isTray_iff (s : State) : s.isTray = true ↔ s.profile = .tray := by simp [State.isTray]

theorem isLeaf_iff (s : State) : s.isLeaf = true ↔ s.profile = .leaf := by simp [State.isLeaf]

/-- Settles O30, by what each kind of contribution joins. -/
theorem contributionsLand : Obligations.ContributionsLand := by
  refine ⟨fun s lane b rel slot hp hmode hrel hslot hok hagrees hnew hlate => ?record,
    fun s lane b sm slot rt hp hmode hrole hslot hok hagrees hnew hlate => ?child,
    fun s lane b hp hmode hrole hok hagrees hnew hlate => ?shard,
    fun s lane ctx msg a hp hmode hlen hcrc htype hgen ha hbase hfits => ?interval,
    fun s lane msg hp hmode hlen hcrc htype hform => ?capture, fun s lane msg hruns hlen htype hform hcrc => ?traySetup,
    fun s lane msg hruns hlen htype hform hcrc hid => ?leafSetup⟩
  case record =>
    have hruns : s.runsAs .tray = true := (runsAs_iff s .tray).mpr ⟨hp, clocked_of_service hmode⟩
    have hland := takeRecord_lands (s := s.taken lane b) (beq_iff_eq.mpr hmode) hslot hok hagrees hnew hlate
    obtain ⟨hlanding, hsheaves⟩ := landRecord_landing slot b (s.taken lane b)
    refine ⟨landRecord slot b (s.taken lane b), ?_, landRecord_landed slot b _, fun x hx hlt => ?_, hsheaves⟩
    · rw [exec, execLeafCutRecord, onTray_of_runs hruns]
      dsimp only
      rw [hrel, if_pos (by simp), hland]
    · rw [hlanding]
      refine List.mem_append_left _ (List.mem_filter.mpr ⟨hx, ?_⟩)
      have hother : ¬(x.slot = slot ∧ x.k = recEpoch b) := fun h =>
        absurd (Option.map_eq_none_iff.mp hnew) (by
          intro hnone
          exact absurd (List.find?_eq_none.mp hnone x hx) (by simp [h.1, h.2]))
      have hlt' : recEpoch b < x.k + 16 := hlt
      simpa [hlt'] using Classical.not_and_iff_not_or_not.mp hother
  case child =>
    have hruns : s.runsAs .tray = true := (runsAs_iff s .tray).mpr ⟨hp, clocked_of_service hmode⟩
    have hjoin := takeChild_joins (s := s.taken lane (b ++ sm)) (lane := lane) (summary := sm) (beq_iff_eq.mpr hmode) hok
      hagrees hnew hlate
    refine ⟨_, ?_, hjoin⟩
    rw [exec, execChildSheaf, onTray_of_runs hruns, hslot]
    rcases hrole with ⟨hrole, rfl⟩ | ⟨hrole, rfl⟩
    · rw [hrole]
    · rw [hrole]
  case shard =>
    have hruns : s.runsAs .tray = true := (runsAs_iff s .tray).mpr ⟨hp, clocked_of_service hmode⟩
    have hjoin := takeChild_joins (s := s.taken lane b) (lane := lane) (summary := []) (beq_iff_eq.mpr hmode) hok
      hagrees hnew hlate
    refine ⟨_, ?_, hjoin⟩
    rw [exec, execShardPartial, onTray_of_runs hruns, hrole, if_pos (by decide)]
  case interval =>
    have hruns : s.runsAs .tray = true := (runsAs_iff s .tray).mpr ⟨hp, clocked_of_service hmode⟩
    obtain ⟨old, hcapt, hout⟩ := captureMessage_takes (s := s.taken lane msg) (ctx := ctx) ha hbase hfits
    refine ⟨captureMessage ctx msg (s.taken lane msg), _, old, ?_, hcapt, hout, ?_⟩
    · have hcarry : (s.taken lane msg).carrying = true := beq_iff_eq.mpr hmode
      have hheld : ((s.taken lane msg).heldGen ctx).isNone = false := Option.isNone_eq_false_iff.mpr hgen
      rw [exec, execIntervalRecord, onTray_of_runs hruns]
      dsimp only
      rw [hcarry, hcrc, htype, if_neg (by simp; omega), hheld, if_neg Bool.false_ne_true]
    · rw [CaptArea.entry]
      simp only [beq_iff_eq]
      rfl
  case capture =>
    have hruns : s.runsAs .tray = true := (runsAs_iff s .tray).mpr ⟨hp, clocked_of_service hmode⟩
    have hexec : exec (.captureMessage lane msg) s = .next (takeCapture [7, 8, 9, 10, 11, 12] msg (s.taken lane msg)) := by
      rw [exec, execCaptureMessage, onTray_of_runs hruns]
    rw [takeCapture_of_ok (s := s.taken lane msg) (beq_iff_eq.mpr hmode) hlen hcrc htype hform] at hexec
    refine ⟨_, hexec, fun a (hgen : (s.taken lane msg).heldGen _ = _) ha hbase hfits => ?_,
      fun (hgen : (s.taken lane msg).heldGen _ ≠ _) => ?_⟩
    · rw [if_neg (by simpa using hgen)]
      obtain ⟨old, hcapt, hout⟩ := captureMessage_takes (s := s.taken lane msg) ha hbase hfits
      rw [hcapt, hout]
      exact ⟨by rw [List.length_append]; rfl, by rw [List.length_append]; rfl⟩
    · rw [if_pos (by simpa using hgen)]
      exact ⟨rfl, rfl, rfl⟩
  case traySetup =>
    obtain ⟨hp, hclocked⟩ := (runsAs_iff s .tray).mp hruns
    have htray : (s.taken lane msg).isTray = true := (isTray_iff s).mpr hp
    obtain ⟨x, hx, hid, hctx, hgen, hentries⟩ := takeSetup_holds { setupId := BitVec.ofNat 64 (fld msg 8 8)
                                                                   ctx := fld msg 2 1 % 16
                                                                   gen := BitVec.ofNat 16 (fld msg 4 2), flags := fld msg 3 1
                                                                   entries := setupEntries msg } (s.taken lane msg)
    refine ⟨_, exec_ctxSetup hclocked (.inl ?_) hlen htype hform hcrc, x, hx, hid, hctx, hgen, fun e he =>
      hentries e he (.inl htray)⟩
    rw [State.isLeaf, hp]
    rfl
  case leafSetup =>
    obtain ⟨hp, hclocked⟩ := (runsAs_iff s .leaf).mp hruns
    have htray : (s.taken lane msg).isTray = false := by
      rw [State.isTray, show (s.taken lane msg).profile = .leaf from hp]
      rfl
    obtain ⟨x, hx, hxid, hctx, hgen, hentries⟩ := takeSetup_holds { setupId := BitVec.ofNat 64 (fld msg 8 8)
                                                                    ctx := fld msg 2 1 % 16
                                                                    gen := BitVec.ofNat 16 (fld msg 4 2)
                                                                    flags := fld msg 3 1
                                                                    entries := setupEntries msg } (s.taken lane msg)
    refine ⟨_, exec_ctxSetup hclocked (.inr hid) hlen htype hform hcrc, ?_, x, hx, hxid, hctx, hgen, fun e he hleaf =>
      hentries e he (.inr hleaf)⟩
    obtain ⟨setups, h⟩ := takeSetup_of_leaf (su := { setupId := BitVec.ofNat 64 (fld msg 8 8), ctx := fld msg 2 1 % 16
                                                     gen := BitVec.ofNat 16 (fld msg 4 2), flags := fld msg 3 1
                                                     entries := setupEntries msg }) htray
    rw [h]

end Sys2Proof.Machine
end


section
/-!
PROOFS. A contribution is merged once (07 R189, R190), and a complete sheaf is sent and published (05 R153, R154).
-/

namespace Sys2Proof.Machine

/-! ## Steps of a unit -/

theorem byUnit_of_here {cls : Nat} {chk : CheckOutcome} {s : State} (h : s.unitGone cls chk.unit = false) (f : State → State) :
    byUnit cls chk f s = f s := by rw [byUnit, h, if_neg Bool.false_ne_true]

theorem byUnit_of_gone {cls : Nat} {chk : CheckOutcome} {s : State} (h : s.unitGone cls chk.unit = true) (f : State → State) :
    byUnit cls chk f s = s := by rw [byUnit, h, if_pos rfl]

theorem unitCheck_red {cls : Nat} {chk : CheckOutcome} (s : State) : (unitCheck cls chk s).red = s.red :=
  unitCheck_only.same .red rfl

/-! ## The sheaf into which a contribution is merged -/

theorem Sheaf.fold_names (sh : Sheaf) (i : Nat) (f : PlanField) (o : Obs) (ent : BitVec 32) :
    (sh.fold i f o ent).ctx = sh.ctx ∧ (sh.fold i f o ent).k = sh.k ∧ (sh.fold i f o ent).level = sh.level := by
  unfold Sheaf.fold
  split <;> exact ⟨rfl, rfl, rfl⟩

theorem foldl_sheaf_names {α : Type} {f : Sheaf → α → Sheaf}
    (hf : ∀ sh a, (f sh a).ctx = sh.ctx ∧ (f sh a).k = sh.k ∧ (f sh a).level = sh.level) (l : List α) (sh : Sheaf) :
    (l.foldl f sh).ctx = sh.ctx ∧ (l.foldl f sh).k = sh.k ∧ (l.foldl f sh).level = sh.level :=
  foldl_rel (R := fun sh sh' : Sheaf => sh'.ctx = sh.ctx ∧ sh'.k = sh.k ∧ sh'.level = sh.level) (fun _ => ⟨rfl, rfl, rfl⟩)
    (fun h k => ⟨k.1.trans h.1, k.2.1.trans h.2.1, k.2.2.trans h.2.2⟩) hf l sh

theorem mergeLeaf_names (s : State) (slot : Nat) (b : Bytes) (prev : Option Bytes) (sh : Sheaf) :
    (mergeLeaf s slot b prev sh).ctx = sh.ctx ∧ (mergeLeaf s slot b prev sh).k = sh.k ∧
      (mergeLeaf s slot b prev sh).level = sh.level ∧ slot ∈ (mergeLeaf s slot b prev sh).merged := by
  obtain ⟨hctx, hk, hlevel⟩ := foldl_sheaf_names (f := fun sh x =>
    sh.fold x.2 x.1 (fieldInput s sh.ctx slot sh.k b prev x.1) (BitVec.ofNat 32 (recLeaf b * 2 ^ 15)))
    (fun sh x => sh.fold_names _ _ _ _) sh.plan.fields.zipIdx sh
  exact ⟨hctx, hk, hlevel, List.mem_cons_self⟩

theorem mergeChild_names (slot team : Nat) (b : Bytes) (sh : Sheaf) :
    (mergeChild slot team b sh).ctx = sh.ctx ∧ (mergeChild slot team b sh).k = sh.k ∧
      (mergeChild slot team b sh).level = sh.level ∧ slot ∈ (mergeChild slot team b sh).merged := by
  unfold mergeChild
  dsimp only
  generalize hfold : List.foldl _ sh sh.plan.fields.zipIdx = folded
  obtain ⟨hctx, hk, hlevel⟩ : folded.ctx = sh.ctx ∧ folded.k = sh.k ∧ folded.level = sh.level := by
    rw [← hfold]
    refine foldl_sheaf_names ?_ _ sh
    exact fun _ _ => ⟨rfl, rfl, rfl⟩
  exact ⟨hctx, hk, hlevel, List.mem_cons_self⟩

theorem sheaf?_names {s : State} {ctx k slot : Nat} {h : Sheaf} (hs : s.sheaf? ctx k slot = some h) :
    h ∈ s.red.sheaves ∧ h.ctx = ctx ∧ h.k = k := by
  have hp := List.find?_some hs
  simp only [Bool.and_eq_true, beq_iff_eq] at hp
  exact ⟨List.mem_of_find?_eq_some hs, hp.1.1.1, hp.1.1.2⟩

theorem mem_onSheaf {s : State} {h x : Sheaf} (f : Sheaf → Sheaf) (hx : x ∈ s.red.sheaves) (hctx : x.ctx = h.ctx)
    (hk : x.k = h.k) (hlevel : x.level = h.level) : f x ∈ (s.onSheaf h f).red.sheaves :=
  List.mem_map.mpr ⟨x, hx, if_pos (by simp [hctx, hk, hlevel])⟩

theorem addBelow_sheaves (ctx slot : Nat) (es : List MemberEntry) (s : State) :
    (addBelow ctx slot es s).red.sheaves = s.red.sheaves := by
  refine foldl_rel (R := fun s t : State => t.red.sheaves = s.red.sheaves) (fun _ => rfl) (fun h k => k.trans h)
    (fun s e => ?_) es s
  split
  · rfl
  · exact (addChange_declared s _).held.sheaves

/-! ## CONTRIBUTION_MERGE -/

section Merge
variable {s : State} {ctx slot k : Nat} {h : Sheaf} {chk : CheckOutcome}

/-- A contribution that is not merged yet and whose unit can perform its step. -/
theorem exec_contributionMerge_new (hruns : s.runsAs .tray = true) (hs : s.sheaf? ctx k slot = some h)
    (hnew : slot ∉ h.merged) (hexp : h.level = .fleet ∨ expectedAt s.red.changes ctx slot k = true)
    (hhere : s.unitGone clsReduce chk.unit = false) (hdone : s.stepLost clsReduce chk = false) :
    exec (.contributionMerge ctx slot k chk) s = .next (
      match h.level, s.landed? slot k with
      | .tray, some b =>
        let prev := s.landed? slot (k - 1)
        if absentAt s.red.changes ctx slot k || !(recFirst b || prev.isSome) then s
        else unitCheck clsReduce chk (s.onSheaf h (mergeLeaf s slot b prev))
      | .tray, none => s
      | _, _ =>
        match s.red.children.find? fun c => c.ctx == ctx && c.slot == slot && c.k == k with
        | some c =>
          if absentAt s.red.changes ctx (changeSlot slot) k then s
          else
            let team := (subjectOf s.red.changes slot).getD slot
            let s1 := unitCheck clsReduce chk (s.onSheaf h (mergeChild slot team c.bytes))
            let s2 := addBelow ctx (if h.level == .fleet then shardSlot else belowSlot) (childEntries c.bytes) s1
            { s2 with red := { s2.red with
              leafExp := putBack (fun x => x.1 == ctx && x.2.1 == slot) (ctx, slot, fld c.bytes 60 4) s2.red.leafExp
              shardExp := if h.level == .fleet then
                  putBack (fun x => x.1 == ctx && x.2.1 == slot) (ctx, slot, fld c.bytes 128 16) s2.red.shardExp
                else s2.red.shardExp } }
        | none => s) := by
  have hexp' : (h.level != .fleet && !expectedAt s.red.changes ctx slot k) = false := by
    rcases hexp with he | he <;> simp [he]
  rw [exec, execContributionMerge, onTray_of_runs hruns, byUnit_of_here hhere, hs]
  dsimp only
  rw [if_neg (by simpa using hnew), hexp', if_neg Bool.false_ne_true, hdone, if_neg Bool.false_ne_true] <;> rfl

theorem exec_contributionMerge_again (hruns : s.runsAs .tray = true) (hs : s.sheaf? ctx k slot = some h)
    (hdup : slot ∈ h.merged) (hhere : s.unitGone clsReduce chk.unit = false) :
    exec (.contributionMerge ctx slot k chk) s = .next (countDup s) := by
  rw [exec, execContributionMerge, onTray_of_runs hruns, byUnit_of_here hhere, hs]
  dsimp only
  rw [if_pos (by simpa using hdup)]

/-- A step that no unit can finish leaves the reduction as it is. -/
theorem exec_contributionMerge_lost (hruns : s.runsAs .tray = true) (hs : s.sheaf? ctx k slot = some h)
    (hnew : slot ∉ h.merged) (hlost : s.stepLost clsReduce chk = true) :
    ∃ t, exec (.contributionMerge ctx slot k chk) s = .next t ∧ t.red = s.red := by
  rw [exec, execContributionMerge, onTray_of_runs hruns]
  refine ⟨_, rfl, ?_⟩
  cases hgone : s.unitGone clsReduce chk.unit with
  | true => rw [byUnit_of_gone hgone]
  | false =>
    rw [byUnit_of_here hgone, hs]
    dsimp only
    rw [if_neg (by simpa using hnew)]
    rw [if_pos hlost]
    split
    · rfl
    · exact unitCheck_red s

end Merge

/-! ## SHEAF_PUBLISH -/

/-- The sheaf as it is sent. -/
def State.sentSheaf (s : State) (h : Sheaf) : Sheaf :=
  { h with bytes := (s.withLost h).build s.red.changes s.red.leafExp (s.scopeOf h.level), sent := true }

theorem issue_nil (s : State) : s.issue [] = s := by
  simp only [State.issue, State.emits, List.foldl_nil, List.append_nil]

theorem issue_out (s : State) (os : List Out) : (s.issue os).out = s.out ++ os := by
  obtain ⟨lanes, h⟩ := issue_lanesOnly s os
  rw [h]
  rfl

/-- The state with a sheaf sent, before what goes out on the fabric. -/
def State.withSent (s : State) (h : Sheaf) (stage : SheafStage) (evr : EvrSt) (lanes : List Lane) : State :=
  ({ s with evr := evr, lanes := lanes } : State).onSheaf h (fun _ => s.sentSheaf h) |>.onSheaf h fun x => { x with stage := stage }

/-- The FADD with which a publication starts. -/
def State.pubFadd (s : State) (h : Sheaf) (a : PubArea) : Out :=
  .fadd h.ctx (a.slotAddr h.k (s.pubSlots h.level).1 (s.pubSlots h.level).2)
    (BitVec.ofInt 64 (-((if a.firstTime h.k then 0 else a.storedAt h.k : Nat) : Int)))

/-- A complete sheaf is sent; where an area holds it, the FADD on its slot goes out (05 R153, R154). -/
theorem publishSheaf_eq (h : Sheaf) (s : State) : ∃ evr lanes stage ops, stage ≠ .open ∧
    publishSheaf h s = (s.withSent h stage evr lanes).issue ops ∧ (s.pub? h.ctx h.k = none → ops = []) ∧
    ∀ a, s.pub? h.ctx h.k = some a → 64 + (s.sentSheaf h).stored.length ≤ a.z → ops = [s.pubFadd h a] := by
  unfold publishSheaf
  dsimp only
  generalize hs0 : (if h.ctx == 0 && h.level == .tray then
    ({ s with evr := { s.evr with sheafOut := _, skewMax := some h.skew } } : State) else s) = s0
  obtain ⟨evr, rfl⟩ : ∃ evr, s0 = { s with evr := evr } := by
    rw [← hs0]
    split <;> exact ⟨_, rfl⟩
  generalize hs2 : State.sendMsgAll _ _ _ _ _ _ _ = s2
  obtain ⟨lanes, rfl⟩ : LanesOnly _ s2 := hs2 ▸ sendMsgAll_lanesOnly _ _ _ _ _ _ _
  split
  · next a ha =>
    split
    · next hlong =>
      refine ⟨evr, lanes, .done, [], by decide, (issue_nil (s.withSent h .done evr lanes)).symm, fun _ => rfl, fun b hb hfits => ?_⟩
      obtain rfl : a = b := Option.some.inj (ha.symm.trans hb)
      exact absurd hlong (Nat.not_lt.mpr hfits)
    · refine ⟨evr, lanes, .adding, [s.pubFadd h a], by decide, rfl, fun hnone => ?_, fun b hb _ => ?_⟩
      · cases ha.symm.trans hnone
      · obtain rfl : a = b := Option.some.inj (ha.symm.trans hb)
        rfl
  · next hnone =>
    refine ⟨evr, lanes, .done, [], by decide, (issue_nil (s.withSent h .done evr lanes)).symm, fun _ => rfl, fun b hb => ?_⟩
    cases hnone.symm.trans hb

theorem mem_withSent {s : State} {h : Sheaf} (stage : SheafStage) (evr : EvrSt) (lanes : List Lane) (hmem : h ∈ s.red.sheaves) :
    { s.sentSheaf h with stage := stage } ∈ (s.withSent h stage evr lanes).red.sheaves := by
  refine List.mem_map.mpr ⟨s.sentSheaf h, List.mem_map.mpr ⟨h, hmem, if_pos (by simp)⟩, if_pos ?_⟩
  simp [State.sentSheaf]

section Publish
variable {s : State} {ctx k : Nat} {h : Sheaf}

theorem exec_sheafPublish (hp : s.profile = .tray) (hmode : s.mode = .service)
    (hfind : s.red.sheaves.find? (fun h => h.ctx == ctx && h.k == k && h.stage == .open && h.complete s.red.changes) = some h) :
    exec (.sheafPublish ctx k) s = .next (if h.level == .shard then sendPartial h s else publishSheaf h s) ∧
      h ∈ s.red.sheaves ∧ h.ctx = ctx ∧ h.k = k := by
  have hruns : s.runsAs .tray = true := (runsAs_iff s .tray).mpr ⟨hp, clocked_of_service hmode⟩
  have hfound := List.find?_some hfind
  simp only [Bool.and_eq_true, beq_iff_eq] at hfound
  refine ⟨?_, List.mem_of_find?_eq_some hfind, hfound.1.1.1, hfound.1.1.2⟩
  rw [exec, execSheafPublish, onTray_of_runs hruns, show s.carrying = true from beq_iff_eq.mpr hmode, if_neg (by decide),
    hfind]

/-! ## PUBLISH_FADD_RETURN -/

theorem exec_publishFaddReturn {a : PubArea} {ret : BitVec 64} (hruns : s.runsAs .tray = true)
    (hfind : s.red.sheaves.find? (fun h => h.ctx == ctx && h.k == k && h.stage == .adding) = some h)
    (hpub : s.pub? ctx k = some a) : exec (.publishFaddReturn ctx k ret) s = .next (
      let addr := a.slotAddr k (s.pubSlots h.level).1 (s.pubSlots h.level).2
      let put := fun v => putBack (fun x : Nat × Nat => x.1 == k % a.p) (k % a.p, v) a.stored
      if a.firstTime k then (s.onPub a fun a => { a with stored := put ret.toNat }).issue [.fadd ctx addr (-ret)]
      else
        let s1 := if ret.toNat == a.storedAt k || a.fresh.contains (k % a.p) then s
          else (s.setBit .fab 28).onCtx ctx fun c => { c with clobbered := true }
        ((s1.onPub a fun a => { a with stored := put (k + 1), fresh := a.fresh.filter (· != k % a.p) }).onSheaf h
          fun x => { x with stage := .done }).issue
          ((linesOf h.stored).zipIdx.map (fun x => Out.store64 ctx (addr + 64 + 64 * x.2) x.1) ++
            [.flag ctx addr (BitVec.ofNat 64 (k + 1))])) := by
  rw [exec, execPublishFaddReturn, onTray_of_runs hruns, hfind, hpub]

theorem exec_publishFaddReturn_capture {c : CaptMsg} {ret : BitVec 64} (hruns : s.runsAs .tray = true)
    (hfind : s.red.sheaves.find? (fun h => h.ctx == ctx && h.k == k && h.stage == .adding) = none)
    (hcapt : s.captOut.find? (fun c => c.ctx == ctx && c.q == k) = some c) :
    exec (.publishFaddReturn ctx k ret) s = .next (captReturn c ret s) := by
  rw [exec, execPublishFaddReturn, onTray_of_runs hruns, hfind]
  dsimp only
  rw [hcapt]

end Publish

/-- Settles O31: the merge, the sheaf that is sent, and the returns of its FADD. -/
theorem sheafMergesAndPublishes : Obligations.SheafMergesAndPublishes := by
  refine ⟨fun s ctx slot k h b chk hruns hs hlevel hnew hexp habs hland hprev hhere hdone => ?leaf,
    fun s ctx slot k h c chk hruns hs hlevel hnew hexp habs hhere hdone hchild => ?child,
    fun s ctx slot k h chk hruns hs hdup hhere => ?again,
    fun s ctx slot k h chk hruns hs hnew hlost => exec_contributionMerge_lost hruns hs hnew hlost,
    fun s ctx slot k chk hruns hgone => ?gone, fun s ctx k h hp hmode hfind hlevel => ?sent,
    fun s ctx k h hp hmode hfind hlevel => ?shard, fun s ctx k h a ret hruns hfind hpub hfirst => ?first,
    fun s ctx k c ret hruns hfind hcapt => ?capture, fun s ctx k h a ret hruns hfind hpub hfirst => ?stored⟩
  case leaf =>
    have hexec := exec_contributionMerge_new hruns hs hnew (.inr hexp) hhere hdone
    rw [hlevel, hland] at hexec
    dsimp only at hexec
    rw [habs, if_neg (by rcases hprev with h | h <;> simp [h])] at hexec
    obtain ⟨hmem, hctx, hk⟩ := sheaf?_names hs
    obtain ⟨hctx', hk', hlevel', hslot⟩ := mergeLeaf_names s slot b (s.landed? slot (k - 1)) h
    refine ⟨_, hexec, _, ?_, hctx'.trans hctx, hk'.trans hk, hlevel'.trans hlevel, hslot⟩
    rw [unitCheck_red]
    exact mem_onSheaf _ hmem rfl rfl rfl
  case child =>
    have hexec := exec_contributionMerge_new hruns hs hnew hexp hhere hdone
    split at hexec
    · next hl _ => exact absurd hl hlevel
    · next hl _ => exact absurd hl hlevel
    rw [hchild] at hexec
    dsimp only at hexec
    rw [habs, if_neg Bool.false_ne_true] at hexec
    obtain ⟨hmem, hctx, hk⟩ := sheaf?_names hs
    obtain ⟨hctx', hk', hlevel', hslot⟩ := mergeChild_names slot ((subjectOf s.red.changes slot).getD slot) c.bytes h
    refine ⟨_, hexec, _, ?_, hctx'.trans hctx, hk'.trans hk, hlevel', hslot⟩
    dsimp only
    rw [addBelow_sheaves, unitCheck_red]
    exact mem_onSheaf _ hmem rfl rfl rfl
  case again => exact ⟨_, exec_contributionMerge_again hruns hs hdup hhere, rfl⟩
  case gone => rw [exec, execContributionMerge, onTray_of_runs hruns, byUnit_of_gone hgone]
  case sent =>
    obtain ⟨hexec, hmem, rfl, rfl⟩ := exec_sheafPublish hp hmode hfind
    rw [if_neg (by simpa using hlevel)] at hexec
    obtain ⟨evr, lanes, stage, ops, hstage, hpublish, hnone, hsome⟩ := publishSheaf_eq h s
    have hred : (publishSheaf h s).red = (s.withSent h stage evr lanes).red := by
      obtain ⟨_, hissue⟩ := issue_lanesOnly (s.withSent h stage evr lanes) ops
      rw [hpublish, hissue]
      rfl
    have hout : (publishSheaf h s).out = s.out ++ ops := by
      rw [hpublish, issue_out]
      rfl
    refine ⟨_, hexec, ⟨{ s.sentSheaf h with stage := stage }, ?_, rfl, rfl, rfl, rfl, rfl, hstage⟩, fun hn => ?_,
      fun a ha hfits => ?_⟩
    · rw [hred]
      exact mem_withSent stage evr lanes hmem
    · rw [hout, hnone hn, List.append_nil]
    · rw [hout, hsome a ha hfits]
      rfl
  case shard =>
    obtain ⟨hexec, -, -, -⟩ := exec_sheafPublish hp hmode hfind
    rw [if_pos (beq_iff_eq.mpr hlevel), sendPartial] at hexec
    dsimp only at hexec
    generalize hs2 : State.sendMsgAll _ _ _ _ _ _ _ = s2 at hexec
    obtain ⟨lanes, rfl⟩ : LanesOnly _ s2 := hs2 ▸ sendMsgAll_lanesOnly _ _ _ _ _ _ _
    exact ⟨_, hexec, rfl, rfl⟩
  case first =>
    have hexec := exec_publishFaddReturn (ret := ret) hruns hfind hpub
    dsimp only at hexec
    rw [if_pos hfirst] at hexec
    exact ⟨_, hexec, issue_out _ _⟩
  case capture =>
    have hfound := List.find?_some hcapt
    simp only [Bool.and_eq_true, beq_iff_eq] at hfound
    obtain ⟨rfl, rfl⟩ := hfound
    refine ⟨_, exec_publishFaddReturn_capture hruns hfind hcapt, ?_⟩
    unfold captReturn
    dsimp only
    generalize hs2 : (if ret.toNat == c.expect then _ else _ : State) = s2
    have hcaptOut : s2.captOut = s.captOut.filter fun x => x != c := by
      rw [← hs2]
      split <;> rfl
    have hout : s2.out = s.out := by
      rw [← hs2]
      split <;> rfl
    refine ⟨?_, by rw [issue_out, hout, List.append_assoc]⟩
    obtain ⟨lanes, hissue⟩ := issue_lanesOnly s2 ((linesOf c.bytes).zipIdx.map
      (fun x => Out.store64 c.ctx (c.addr + 64 + 64 * x.2) x.1) ++ [.flag c.ctx c.addr (BitVec.ofNat 64 (c.q + 1))])
    rw [hissue]
    change c ∉ s2.captOut
    rw [hcaptOut]
    simp
  case stored =>
    have hexec := exec_publishFaddReturn (ret := ret) hruns hfind hpub
    dsimp only at hexec
    rw [if_neg (by simp [hfirst])] at hexec
    generalize hs1 : (if ret.toNat == a.storedAt k || a.fresh.contains (k % a.p) then s else _ : State) = s1 at hexec
    have hout : s1.out = s.out := by
      rw [← hs1]
      split <;> rfl
    refine ⟨_, hexec, ?_, fun hret => ?_⟩
    · dsimp only
      rw [issue_out, List.append_assoc]
      exact congrArg (· ++ _) hout
    · obtain rfl : s = s1 := by
        rw [← hs1, if_pos (by simp [hret])]
      exact ⟨State.issue_only.same .sticky rfl, State.issue_only.same .ctxs rfl⟩

end Sys2Proof.Machine
end


section
/-!
PROOFS. Recompute (07 R214, R215), the raw ring (13 R363 to R370) and checkpoints (07 R217).
-/

namespace Sys2Proof.Machine

/-! ## Recoveries -/

theorem mem_setRecovery (r : Recovery) (s : State) : r ∈ (setRecovery r s).red.recover :=
  List.mem_append_right _ (List.mem_singleton_self r)

theorem askSource_lanesOnly (r : Recovery) (s : State) : LanesOnly s (askSource r s) := by
  unfold askSource
  dsimp only
  split
  · exact sendBelay_lanesOnly ..
  · split
    · exact sendCtl_lanesOnly ..
    · exact sendBelay_lanesOnly ..
  · exact sendCtlAll_lanesOnly ..
  · exact LanesOnly.refl s

/-- A recovery that asks its source is noted. -/
theorem mem_askSource (r : Recovery) (s : State) : r ∈ (askSource r (setRecovery r s)).red.recover := by
  obtain ⟨lanes, h⟩ := askSource_lanesOnly r (setRecovery r s)
  rw [h]
  exact mem_setRecovery r s

section Recompute
variable {s : State} {slot k c : Nat} {x : Option Ckpt}

/-- The context under which a contribution is recovered: a leaf's record serves every context. -/
def State.recoveryCtx (s : State) (c : Nat) : Nat := if s.cfg.role == .tray then 0 else c

theorem exec_resendSourceTimeout_begins (hruns : s.runsAs .tray = true)
    (hnone : s.recovery? (s.recoveryCtx c) slot k = none) (hmissing : s.missing (s.recoveryCtx c) slot k = true) :
    exec (.resendSourceTimeout { slot := slot, epoch := k, ctx := c } x) s = .next (
      let r : Recovery := { ctx := s.recoveryCtx c, slot := slot, k := k, source := if s.belayUp then 1 else s.afterTwin
                            since := s.now, asked := s.now }
      askSource r (setRecovery r s)) := by
  rw [exec, execResendSourceTimeout, onTray_of_runs hruns]
  dsimp only
  rw [← State.recoveryCtx, hnone]
  dsimp only
  rw [startRecovery, hnone, State.wanted, hmissing]
  rfl

/-- A twin that stays silent passes the receiver on to the next source (07 R215). -/
theorem exec_resendSourceTimeout_passes {r : Recovery} (hruns : s.runsAs .tray = true)
    (hr : s.recovery? (s.recoveryCtx c) slot k = some r) (hsource : r.source = 1)
    (hdue : s.belayUp = false ∨ r.since + nsT 20000 ≤ s.now) :
    exec (.resendSourceTimeout { slot := slot, epoch := k, ctx := c } x) s = .next (
      let r' := { r with source := s.afterTwin, since := s.now, asked := s.now }
      askSource r' (setRecovery r' s)) := by
  have hafter : s.afterTwin = 2 ∨ s.afterTwin = 3 := by
    unfold State.afterTwin
    split
    · exact .inl rfl
    · exact .inr rfl
  have hsilent : (r.source == 1 && (!s.belayUp || decide (r.since + nsT 20000 ≤ s.now))) = true := by
    rcases hdue with h | h <;> simp [hsource, h]
  rw [exec, execResendSourceTimeout, onTray_of_runs hruns]
  dsimp only
  rw [← State.recoveryCtx, hr]
  dsimp only
  rw [if_pos hsilent]
  rcases hafter with h | h
  · rw [h, hsource, if_neg (by decide)]
    rfl
  · rw [h, hsource, if_neg (by decide)]
    rfl

end Recompute

/-! ## The raw ring -/

/-- A block that is appended is the log's valid copy of its record (13 R366, R367). -/
theorem appendBlock_spec (slot k : Nat) (b : Bytes) (s : State) : (appendBlock slot k b s).logged slot k = true ∧
    ∃ x ∈ (appendBlock slot k b s).raw.blocks, x.slot = slot ∧ x.k = k ∧ x.poisoned = false ∧ x.bytes = b := by
  have hmem : ∃ x ∈ (appendBlock slot k b s).raw.blocks, x.slot = slot ∧ x.k = k ∧ x.poisoned = false ∧ x.bytes = b :=
    ⟨_, List.mem_append_right _ (List.mem_singleton_self _), rfl, rfl, rfl, rfl⟩
  refine ⟨?_, hmem⟩
  obtain ⟨x, hx, hslot, hk, hpoisoned, -⟩ := hmem
  exact List.any_eq_true.mpr ⟨x, hx, by simp [hslot, hk, hpoisoned]⟩

theorem stripe_glumeEngines (s : State) (cls : XferClass) (first n : Nat) :
    (s.stripe cls first n).glumeEngines = s.glumeEngines := rfl

theorem exec_rawRingLog {s : State} {slot k : Nat} {b : Bytes} {chk : CheckOutcome} (hruns : s.runsAs .tray = true)
    (hrole : s.cfg.role = .tray) (hland : s.landed? slot k = some b) (hengines : s.glumeEngines ≠ 0)
    (hlogged : s.logged slot k = false) (hhere : s.unitGone clsGlume chk.unit = false)
    (hleft : (unitCheck clsGlume chk s).glumeEngines ≠ 0) : exec (.rawRingLog slot k chk) s = .next (appendBlock slot k
      (glumeBlock .none false false k (rawSubject b) b) ((unitCheck clsGlume chk s).stripe .p 0 (lineCount b.length))) := by
  rw [exec, execRawRingLog, onTray_of_runs hruns, byUnit_of_here hhere, hland]
  dsimp only
  rw [hrole, if_neg (by simpa using hengines), hlogged, if_neg Bool.false_ne_true, stripe_glumeEngines,
    if_neg (by simpa using hleft)]

theorem exec_rawCopyPath {s : State} {slot k : Nat} {b : Bytes} {w : Ticks} (hruns : s.runsAs .tray = true)
    (hrole : s.cfg.role = .tray) (hland : s.landed? slot k = some b) (hengines : s.glumeEngines < 7)
    (hlogged : s.logged slot k = false) (htime : s.timeOf (k + 14) = some w) (hlate : w ≤ s.now) :
    exec (.rawCopyPath slot k) s =
      .next ((appendBlock slot k (glumeBlock .none false true k (rawSubject b) b) s).setBit .glm 31) := by
  rw [exec, execRawCopyPath, onTray_of_runs hruns, hland, htime]
  dsimp only
  rw [hrole, hlogged, if_pos (by simp [hengines, hlate])]

/-! ## Checkpoints -/

section Checkpoint
variable {s : State} {k : Nat} {ks : List Nat}

/-- The tables as a checkpoint takes them, and whether one of their rows is poisoned. -/
def State.ckptTabs (s : State) : List (Table × List Row) :=
  s.mem.tables.map fun t => (t, t.rows.map (s.ckptRow t.img.tableId))

def State.ckptBad (s : State) : Bool := s.ckptTabs.any fun t => t.2.any fun r => r.v.poisoned || !r.v.badLines.isEmpty

theorem ckptBad_eq_false (h : ∀ t ∈ s.mem.tables, ∀ r ∈ t.rows, (s.ckptRow t.img.tableId r).v.poisoned = false ∧
    (s.ckptRow t.img.tableId r).v.badLines = []) : s.ckptBad = false := by
  refine List.any_eq_false.mpr fun t ht => ?_
  obtain ⟨x, hx, rfl⟩ := List.mem_map.mp ht
  rw [Bool.not_eq_true, List.any_eq_false]
  intro r hr
  obtain ⟨y, hy, rfl⟩ := List.mem_map.mp hr
  obtain ⟨hpoisoned, hlines⟩ := h x hx y hy
  simp [hpoisoned, hlines]

theorem ckptBad_of_poisoned {x : Table} {r : Row} (hx : x ∈ s.mem.tables) (hr : r ∈ x.rows)
    (h : (s.ckptRow x.img.tableId r).v.poisoned = true) : s.ckptBad = true :=
  List.any_eq_true.mpr ⟨_, List.mem_map.mpr ⟨x, hx, rfl⟩, List.any_eq_true.mpr ⟨_, List.mem_map.mpr ⟨r, hr, rfl⟩, by simp [h]⟩⟩

theorem sealCrc_length (b : Bytes) : 4 ≤ (sealCrc b).length := by
  rw [sealCrc, List.length_append]
  simp [le]

/-- A due checkpoint is the last that is held, with its manifest unless a row is poisoned; then nothing of it goes out. -/
theorem exec_checkpointWrite (hruns : s.runsAs .tray = true) (hdue : s.raw.due = k :: ks) : ∃ (u : State) (c : Ckpt) (ops : List Out),
    exec .checkpointWrite s = .next (if s.ckptBad then u.setBit .glm 29 else u.issue ops) ∧ c.k = k ∧
    u.raw.ckpts.getLast? = some c ∧ u.raw.due = ks ∧ u.raw.copies = [] ∧ u.sticky = s.sticky ∧ u.out = s.out ∧
    (s.ckptBad = false → 4 ≤ c.manifest.length) ∧ (s.ckptBad = true → c.manifest = [] ∧ u.mem = s.mem) := by
  generalize hexec : exec .checkpointWrite s = res
  rw [exec, execCheckpointWrite, onTray_of_runs hruns, hdue] at hexec
  dsimp only at hexec
  generalize hs0 : s.ckptXfers _ _ = s0 at hexec
  have hmem : s0.mem = s.mem := hs0 ▸ State.ckptXfers_only.same .mem rfl
  have hsticky : s0.sticky = s.sticky := hs0 ▸ State.ckptXfers_only.same .sticky rfl
  have hout : s0.out = s.out := hs0 ▸ State.ckptXfers_only.same .out rfl
  refine ⟨_, _, _, hexec.symm, rfl, List.getLast?_concat, rfl, rfl, hsticky, hout, fun hbad => ?_, fun hbad => ⟨?_, ?_⟩⟩
  · dsimp only
    rw [show (s.mem.tables.map fun t => (t, t.rows.map (s.ckptRow t.img.tableId))).any _ = false from hbad,
      if_neg Bool.false_ne_true]
    exact sealCrc_length _
  · dsimp only
    exact if_pos hbad
  · dsimp only
    rw [show (s.mem.tables.map fun t => (t, t.rows.map (s.ckptRow t.img.tableId))).any _ = true from hbad, if_pos rfl, hmem]

end Checkpoint

/-- Settles O32, by the source of a recovery, the log and the checkpoint that is due. -/
theorem recomputeRingAndCheckpoint : Obligations.RecomputeRingAndCheckpoint := by
  refine ⟨fun s slot k c x hruns => ?begins, fun s slot k c r x hruns hr hsource hdue => ?passes,
    fun s slot k r hruns hr hsource hdue => ?retry,
    fun s slot k b chk hruns hrole hland hengines hlogged hhere hleft => ?logs,
    fun s slot k b w hruns hrole hland hengines hlogged htime hlate => ?copies,
    fun s k ks hruns hdue hgood => ?written, fun s k ks x r hruns hdue hx hr hpoisoned => ?abandoned⟩
  case begins =>
    intro ctx hnone hmissing
    have hctx : s.recoveryCtx c = ctx := by simp [State.recoveryCtx, ctx]
    rw [← hctx] at hnone hmissing ⊢
    exact ⟨_, exec_resendSourceTimeout_begins hruns hnone hmissing, mem_askSource _ s⟩
  case passes =>
    have hctx : s.recoveryCtx c = if s.cfg.role = .tray then 0 else c := by simp [State.recoveryCtx]
    rw [← hctx] at hr
    exact ⟨_, exec_resendSourceTimeout_passes hruns hr hsource hdue, mem_askSource _ s⟩
  case retry =>
    obtain ⟨lanes, hask⟩ := askSource_lanesOnly { r with asked := s.now } (setRecovery { r with asked := s.now } s)
    refine ⟨askSource { r with asked := s.now } (setRecovery { r with asked := s.now } s), ?_, mem_askSource _ s, by
      rw [hask]; rfl⟩
    rw [exec, execResendRetry, onTray_of_runs hruns, hr]
    dsimp only
    rw [hsource, if_pos (by simpa using hdue)]
  case logs =>
    exact ⟨_, exec_rawRingLog hruns hrole hland hengines hlogged hhere hleft, appendBlock_spec _ _ _ _⟩
  case copies =>
    exact ⟨_, exec_rawCopyPath hruns hrole hland hengines hlogged htime hlate, (appendBlock_spec slot k _ s).1, rfl, rfl⟩
  case written =>
    obtain ⟨u, c, ops, hexec, hk, hlast, hdue', hcopies, hsticky, -, hmanifest, -⟩ := exec_checkpointWrite hruns hdue
    have hbad := ckptBad_eq_false hgood
    rw [hbad, if_neg Bool.false_ne_true] at hexec
    obtain ⟨lanes, hissue⟩ := issue_lanesOnly u ops
    rw [hissue] at hexec
    exact ⟨_, c, hexec, hlast, hk, hmanifest hbad, hdue', hcopies, hsticky⟩
  case abandoned =>
    obtain ⟨u, c, ops, hexec, hk, hlast, -, -, hsticky, hout, -, hnone⟩ := exec_checkpointWrite hruns hdue
    have hbad := ckptBad_of_poisoned hx hr hpoisoned
    rw [hbad, if_pos rfl] at hexec
    obtain ⟨hmanifest, hmem⟩ := hnone hbad
    refine ⟨_, c, hexec, hlast, hk, hmanifest, hout, ?_, hmem⟩
    rw [← hsticky]
    rfl

end Sys2Proof.Machine
end


section
/-!
PROOFS. The rows of the feature tables (09 R257 to R273, 11 R319, R322): each epoch's update once and in order, copies and
installs of a row as it stands.
-/

namespace Sys2Proof.Machine

/-! ## What the memory controller counts -/

/-- Only counters, the unit's error records aside, and status bits have changed. -/
def Counted (s t : State) : Prop := ∃ err sticky raised,
  t = { s with err := err, sticky := sticky, raisedNow := raised } ∧ err.units = s.err.units

theorem Counted.refl (s : State) : Counted s s := ⟨_, _, _, rfl, rfl⟩

theorem Counted.trans {s t u : State} (h : Counted s t) (k : Counted t u) : Counted s u := by
  obtain ⟨_, _, _, rfl, hunits⟩ := h
  obtain ⟨_, _, _, rfl, hunits'⟩ := k
  exact ⟨_, _, _, rfl, hunits'.trans hunits⟩

theorem queuePpr_counted (row : Nat × Nat) (s : State) : Counted s (queuePpr row s) := by
  unfold queuePpr
  split
  · exact Counted.refl s
  · exact ⟨_, _, _, rfl, rfl⟩

theorem noteHbm_counted (row : Nat × Nat) (s : State) : Counted s (noteHbm row s) := by
  have hnote : ∀ l, Counted s { s with err := { s.err with hbmErrors := l } } := fun l => ⟨_, _, _, rfl, rfl⟩
  unfold noteHbm
  dsimp only
  split
  · exact (hnote _).trans (queuePpr_counted row _)
  · exact hnote _

/-- A corrected line is counted; nothing of the memory changes (09 R270). -/
theorem hbmRead_counted (l : HbmLine) {errs : Nat} (h : errs ≤ 1) (s : State) : Counted s (hbmRead l errs s) := by
  have hcount : Counted s ((s.errCount 7 1).setBit .thr 29) := ⟨_, _, _, rfl, rfl⟩
  obtain rfl | rfl : errs = 0 ∨ errs = 1 := by omega
  · exact Counted.refl s
  · exact hcount.trans (noteHbm_counted _ _)

/-- The state after a row's lines have been read. -/
def readRow (tab row : Nat) (x : RowStep) (s : State) : State :=
  if s.isTray then x.hbm.foldl (fun s l => hbmRead (.table tab row l.1) l.2 s) s else s

theorem foldl_hbmRead_counted (tab row : Nat) {ls : List (Nat × Nat)} (h : ∀ l ∈ ls, l.2 ≤ 1) (s : State) :
    Counted s (ls.foldl (fun s l => hbmRead (.table tab row l.1) l.2 s) s) := by
  induction ls generalizing s with
  | nil => exact Counted.refl s
  | cons l ls ih =>
    exact (hbmRead_counted _ (h l List.mem_cons_self) s).trans (ih (fun x hx => h x (List.mem_cons_of_mem l hx)) _)

theorem readRow_counted (tab row : Nat) {x : RowStep} (h : ∀ l ∈ x.hbm, l.2 ≤ 1) (s : State) :
    Counted s (readRow tab row x s) := by
  unfold readRow
  split
  · exact foldl_hbmRead_counted tab row h s
  · exact Counted.refl s

theorem Counted.nextRow {s t : State} (h : Counted s t) (tab row k : Nat) : t.nextRow tab row k = s.nextRow tab row k := by
  obtain ⟨err, sticky, raised, rfl, -⟩ := h
  rfl

theorem Counted.mem {s t : State} (h : Counted s t) : t.mem = s.mem := by
  obtain ⟨err, sticky, raised, rfl, -⟩ := h
  rfl

theorem Counted.stepLost {s t : State} (h : Counted s t) (cls : Nat) (chk : CheckOutcome) :
    t.stepLost cls chk = s.stepLost cls chk := by
  obtain ⟨err, sticky, raised, rfl, hunits⟩ := h
  rw [State.stepLost, State.stepLost, State.unit?, State.unit?]
  dsimp only
  rw [hunits]

/-! ## The update of a row -/

section Row
variable {s : State} {tab row k : Nat} {t : Table} {r r' : Row}

theorem rowUpdate_fields (h : s.rowUpdate t r k = some r') :
    r.v.epoch + 1 = k ∧ r'.row = r.row ∧ r'.v.epoch = k ∧ r'.old = r.v := by
  unfold State.rowUpdate at h
  split at h
  · cases h
  · next hready =>
    have hepoch : r.v.epoch + 1 = k := Classical.byContradiction fun hne => hready (by simp [hne])
    split at h
    · cases h
    · obtain rfl := Option.some.inj h
      exact ⟨hepoch, rfl, rfl, rfl⟩
    · dsimp only at h
      split at h
      · cases h
      · obtain rfl := Option.some.inj h
        exact ⟨hepoch, rfl, rfl, rfl⟩

theorem nextRow_eq (ht : s.table? tab = some t) (hr : t.row? row = some r) :
    s.nextRow tab row k = (s.rowUpdate t r k).map fun r' => (t, r, r') := by
  rw [State.nextRow, ht, Option.bind_some, hr, Option.bind_some]

theorem table?_id (h : s.table? tab = some t) : t.img.tableId = tab := by simpa using List.find?_some h

theorem row?_row (h : t.row? row = some r) : r.row = row := by simpa using List.find?_some h

theorem row?_onRow (f : Row → Row) (hf : ∀ x, x.row = row → (f x).row = row) (t : Table) (m : Nat) :
    (t.onRow row f).row? m = if m = row then (t.row? m).map f else t.row? m :=
  find_mapIf_of_key (fun x : Row => x.row) hf t.rows m

theorem table?_onTable (f : Table → Table) (hf : ∀ x, x.img.tableId = tab → (f x).img.tableId = tab) (s : State) (m : Nat) :
    (s.onTable tab f).table? m = if m = tab then (s.table? m).map f else s.table? m :=
  find_mapIf_of_key (fun x : Table => x.img.tableId) hf s.mem.tables m

/-- A stored row replaces the one of its number, and the other rows of its table stand. -/
theorem storeRow_table? (ht : s.table? tab = some t) (hr : t.row? row = some r) (hrow : r'.row = row) :
    ∃ y, (storeRow t r' s).table? tab = some y ∧ y.row? row = some r' ∧ ∀ m, m ≠ row → y.row? m = t.row? m := by
  obtain rfl := table?_id ht
  subst hrow
  have hrows := row?_onRow (row := r'.row) (fun _ => r') (fun _ _ => rfl) t
  refine ⟨_, (table?_onTable _ ?_ s _).trans ((if_pos rfl).trans (congrArg (Option.map _) ht)), ?_, fun m hm => ?_⟩
  · exact fun _ h => h
  · exact (hrows r'.row).trans (by rw [if_pos rfl, hr, Option.map_some])
  · exact (hrows m).trans (if_neg hm)

theorem table?_of_tables {s u : State} (h : u.mem.tables = s.mem.tables) (m : Nat) : u.table? m = s.table? m := by
  rw [State.table?, State.table?, h]

theorem forward_tables (t r : Nat) (v : RowVer) (s : State) : (forward t r v s).mem.tables = s.mem.tables := by
  unfold forward
  dsimp only
  split <;> rfl

theorem noteTail_tables (k : Nat) (s : State) : (noteTail k s).mem.tables = s.mem.tables := by
  unfold noteTail
  split
  · split <;> rfl
  · rfl

theorem storeRow_tables_congr {s u : State} (t : Table) (r : Row) (h : u.mem.tables = s.mem.tables)
    (hepoch : u.curEpoch = s.curEpoch) : (storeRow t r u).mem.tables = (storeRow t r s).mem.tables := by
  simp only [storeRow, State.onTable, h, hepoch]

theorem ite_tables {c : Prop} [Decidable c] {u v : State} (h : u.mem.tables = v.mem.tables) :
    (if c then u else v).mem.tables = v.mem.tables := by
  split
  · exact h
  · rfl

theorem observeRow_tables (t : Table) (r : Row) (s : State) : (observeRow t r s).mem.tables = s.mem.tables :=
  congrArg MemSt.tables (observeRow_only.same .mem rfl : (observeRow t r s).mem = s.mem)

/-- Putting a row back after its update changes the tables by that row alone. -/
theorem writeRow_tables (t : Table) (r r' : Row) (k : Nat) (s : State) :
    (writeRow t r r' k s).mem.tables = (storeRow t r' s).mem.tables := by
  have hrebuilt : Only [.raw, .chans, .err, .sticky, .raisedNow] s
      (if t.rebuilding then (s.rowSlot t.img r.entity).elim s (s.noteDecode k) else s) := by
    split
    · exact Only.elim (Only.refl s) fun _ => State.noteDecode_only.mono rfl
    · exact Only.refl s
  unfold writeRow
  dsimp only
  generalize (if t.rebuilding then (s.rowSlot t.img r.entity).elim s (s.noteDecode k) else s) = u at hrebuilt ⊢
  have hxfer : Only [.raw, .chans, .err, .sticky, .raisedNow] s
      (u.xfer t.xferClass (t.channel r.row) (2 * rowLineUpdates t.img r.entity)) := Only.step State.xfer_only rfl hrebuilt
  generalize u.xfer t.xferClass (t.channel r.row) (2 * rowLineUpdates t.img r.entity) = v at hxfer ⊢
  generalize hw : (if u.isTray && _ then State.errCount v 22 _ else v) = w
  have hcounted : Only [.raw, .chans, .err, .sticky, .raisedNow] s w := by
    rw [← hw]
    split
    · exact Only.step State.errCount_only rfl hxfer
    · exact hxfer
  have hmem : w.mem = s.mem := hcounted.same .mem rfl
  have hepoch : w.curEpoch = s.curEpoch := by
    rw [State.curEpoch, State.curEpoch, show w.sched = s.sched from hcounted.same .sched rfl]
  rw [ite_tables (noteTail_tables k _), observeRow_tables, forward_tables]
  refine Eq.trans ?_ (storeRow_tables_congr t r' (congrArg MemSt.tables hmem) hepoch)
  exact ite_tables rfl

section Update
variable {cls : Nat} {x : RowStep}

theorem thresherUpdate_of_none (h : s.nextRow tab row k = none) : thresherUpdate cls tab row k x s = s := by
  rw [thresherUpdate, h, if_pos Option.isNone_none]

/-- A step that no unit can finish writes nothing (09 R264). -/
theorem thresherUpdate_lost (hread : ∀ l ∈ x.hbm, l.2 ≤ 1) (hlost : s.stepLost cls x.check = true) :
    (thresherUpdate cls tab row k x s).mem = s.mem := by
  have hcounted := readRow_counted tab row hread s
  rw [readRow] at hcounted
  unfold thresherUpdate
  split
  · rfl
  · dsimp only
    split
    · exact hcounted.mem
    · rw [if_pos (hcounted.stepLost cls x.check ▸ hlost)]
      exact Eq.trans (unitCheck_only.same .mem rfl) hcounted.mem

/-- A row whose inputs are there takes its update; the other rows of its table stand (09 R261). -/
theorem thresherUpdate_applies (ht : s.table? tab = some t) (hr : t.row? row = some r) (hr' : s.rowUpdate t r k = some r')
    (hread : ∀ l ∈ x.hbm, l.2 ≤ 1) (hdone : s.stepLost cls x.check = false) :
    ∃ y, (thresherUpdate cls tab row k x s).table? tab = some y ∧ y.row? row = some r' ∧
      ∀ m, m ≠ row → y.row? m = t.row? m := by
  have hnext : s.nextRow tab row k = some (t, r, r') := by rw [nextRow_eq ht hr, hr', Option.map_some]
  have hcounted := readRow_counted tab row hread s
  rw [readRow] at hcounted
  have hrow : r'.row = row := (rowUpdate_fields hr').2.1.trans (row?_row hr)
  unfold thresherUpdate
  rw [hnext, if_neg (by simp)]
  dsimp only
  generalize (if s.isTray then x.hbm.foldl (fun s l => hbmRead (.table tab row l.1) l.2 s) s else s) = u at hcounted ⊢
  have htu : u.table? tab = some t := (table?_of_tables (congrArg MemSt.tables hcounted.mem) tab).trans ht
  obtain ⟨y, hy, hyrow, hyothers⟩ := storeRow_table? htu hr hrow
  refine ⟨y, ?_, hyrow, hyothers⟩
  rw [hcounted.nextRow, hnext]
  dsimp only
  rw [hcounted.stepLost, hdone, if_neg Bool.false_ne_true]
  refine (table?_of_tables ?_ tab).trans hy
  have hmem : (refreshVerdicts t.ctx k (unitCheck cls x.check (writeRow t r r' k u))).mem = (writeRow t r r' k u).mem :=
    Eq.trans (refreshVerdicts_only.same .mem rfl) (unitCheck_only.same .mem rfl)
  exact (congrArg MemSt.tables hmem).trans (writeRow_tables t r r' k u)

/-- A row whose header line is poisoned. -/
def Row.headerBad (r : Row) : Row :=
  { r with v := { r.v with
    poisoned := r.v.poisoned || true
    badLines := if r.v.badLines.contains 0 then r.v.badLines else 0 :: r.v.badLines } }

theorem headerBad_mem (r : Row) : 0 ∈ r.headerBad.v.badLines := by
  unfold Row.headerBad
  dsimp only
  split
  · next h => simpa using h
  · exact List.mem_cons_self

theorem rowUpdate_headerBad (s : State) (t : Table) (r : Row) (k : Nat) : s.rowUpdate t r.headerBad k = none := by
  unfold State.rowUpdate
  rw [if_pos (by simp [headerBad_mem r])]

/-- A header line beyond the code poisons its row, whose updates stop (09 R270, R271). -/
theorem thresherUpdate_poisoned {n : Nat} (htray : s.isTray = true) (ht : s.table? tab = some t) (hr : t.row? row = some r)
    (hr' : s.rowUpdate t r k = some r') (hread : x.hbm = [(0, n + 2)]) :
    ∃ y, (thresherUpdate cls tab row k x s).table? tab = some y ∧ y.row? row = some r.headerBad := by
  have hnext : s.nextRow tab row k = some (t, r, r') := by rw [nextRow_eq ht hr, hr', Option.map_some]
  obtain ⟨err, sticky, raised, hqueue, -⟩ := queuePpr_counted (Config.hbmRow (.table tab row 0))
    (((s.errCount 8 1).errBit 31).setBit .thr 30)
  have hline : hbmRead (.table tab row 0) (n + 2) s = State.onTable { s with
      err := err
      sticky := sticky
      raisedNow := raised } tab fun x => x.onRow row Row.headerBad :=
    congrArg (poisonLine (.table tab row 0)) hqueue
  have htable : (hbmRead (.table tab row 0) (n + 2) s).table? tab = some (t.onRow row Row.headerBad) := by
    rw [hline, table?_onTable (fun x => x.onRow row Row.headerBad) (fun _ h => h), if_pos rfl]
    exact congrArg (Option.map fun x : Table => x.onRow row Row.headerBad) ht
  have hrow : (t.onRow row Row.headerBad).row? row = some r.headerBad := by
    rw [row?_onRow Row.headerBad (fun _ h => h), if_pos rfl, hr, Option.map_some]
  have hstops : (hbmRead (.table tab row 0) (n + 2) s).nextRow tab row k = none := by
    rw [nextRow_eq htable hrow, rowUpdate_headerBad, Option.map_none]
  refine ⟨t.onRow row Row.headerBad, ?_, hrow⟩
  unfold thresherUpdate
  rw [hnext, if_neg (by simp), if_pos htray, hread, List.foldl_cons, List.foldl_nil]
  dsimp only
  rw [hstops]
  exact htable

theorem exec_thresherUpdate (hruns : s.runsAs .tray = true) (hhere : s.unitGone clsThresher x.check.unit = false) :
    exec (.thresherUpdate tab row k x) s = .next (thresherUpdate clsThresher tab row k x s) := by
  rw [exec, execThresherUpdate, onTray_of_runs hruns, byUnit_of_here hhere]

end Update

theorem exec_leafFeatureUpdate {u0 : UnitClass} {b : Boundary} {chk : CheckOutcome} (hruns : s.runsAs .leaf = true)
    (hunit : s.unit? clsUpdate = some u0) (hup : 0 < u0.inService) (hb : s.boundary? k = some b)
    (hdue : b.t + nsT 5300 ≤ s.now) (hscored : ∀ c ∈ s.ctxs, s.verdictsDone c.id (k - 1) = true)
    (hhere : s.unitGone clsUpdate chk.unit = false) : exec (.leafFeatureUpdate tab row k chk) s =
      .next (thresherUpdate clsUpdate tab row k { check := chk, hbm := [] } s) := by
  have hall : ((s.ctxs.map (·.id)).all fun c => s.verdictsDone c (k - 1)) = true := by
    rw [List.all_map]
    exact List.all_eq_true.mpr hscored
  rw [exec, execLeafFeatureUpdate, onLeaf_of_runs hruns, byUnit_of_here hhere, hunit, hb]
  dsimp only
  rw [hall, if_pos (by simp [hup, hdue])]

/-! ## Copies and installs -/

theorem exec_rowCopy (hruns : s.runsAs .tray = true) (ht : s.table? tab = some t) (hr : t.row? row = some r) :
    exec (.rowCopy tab row) s = .next (if (s.rowUpdate t r (r.v.epoch + 1)).isSome then repeatCopy s else
      { s.xfer .p (t.channel row) t.img.rowLen with raw := { s.raw with
        copies := putBack (fun c => c.1 == tab && c.2.row == row) (tab, r) s.raw.copies } }) := by
  rw [exec, execRowCopy, onTray_of_runs hruns, ht]
  dsimp only
  rw [hr]
  rfl

theorem exec_hotRowInstall (hruns : s.runsAs .tray = true) (ht : s.table? tab = some t) (hr : t.row? row = some r) :
    exec (.hotRowInstall tab row) s = .next { s.xfer (.c t.ctx) (t.channel row) t.img.rowLen with mem := { s.mem with
      hot := mapIf (fun h => h.table == tab && h.row == row && h.vers.isEmpty) (fun h => { h with vers := [r.v] })
        s.mem.hot } } := by
  rw [exec, execHotRowInstall, onTray_of_runs hruns, ht, Option.bind_some, hr]
  rfl

theorem exec_deepInstall {model ks : Nat} {h : HeldModel} {e : PlaceEntry} (hruns : s.runsAs .tray = true)
    (hmodel : s.model? model = some h)
    (hperiod : (s.openPeriods h.m.ctx model row).find? (fun x => s.awaitsInstall h.m.ctx model row x.1 x.2) = some (e, ks))
    (ht : s.table? e.tableId = some t) (hr : t.row? row = some r)
    (hready : ∀ q ∈ t.rows, deepDue e q.row ks = true → ks ≤ q.v.epoch) (hfree : s.setBusy e row ks = false) :
    exec (.deepInstall model row) s = .next (
      let s0 := s.xfer (.c t.ctx) (t.channel row) t.img.rowLen
      let s1 := if ks < r.v.epoch then repeatCopy s0 else s0
      let keep := s1.mem.frozen.filter fun f => !(f.model == model && f.row == row)
      { s1 with mem := { s1.mem with frozen := keep ++ [{ model := model, row := row, ks := ks, ver := r.v }] } }) := by
  have hall : (t.rows.all fun q => !deepDue e q.row ks || decide (ks ≤ q.v.epoch)) = true := by
    refine List.all_eq_true.mpr fun q hq => ?_
    cases hdue : deepDue e q.row ks with
    | false => rfl
    | true => simpa using hready q hq hdue
  rw [exec, execDeepInstall, onTray_of_runs hruns, hmodel]
  dsimp only [Option.map_some, Option.getD_some]
  rw [hperiod]
  dsimp only
  rw [ht, Option.bind_some, hr, Option.map_some]
  dsimp only
  rw [hall, hfree, if_neg (by decide)]

end Row

/-- Settles O33, by the update of a row and what takes the row as it stands. -/
theorem tableRowsUpdateOncePerEpoch : Obligations.TableRowsUpdateOncePerEpoch := by
  refine ⟨fun s tab row k x t r r' hruns ht hr hr' hhere hdone hread => ?applies,
    fun s tab row k x t r hruns ht hr hepoch => ?notNext, fun s tab row k x hruns hlost hread => ?lost,
    fun s tab row k x hruns hgone => ?gone, fun s tab row k x n t r r' hruns ht hr hr' hhere hread => ?poisoned,
    fun s tab row k chk t r r' u0 b hruns hunit hup hb hdue hscored ht hr hr' hhere hdone => ?leaf,
    fun s tab row t r hruns ht hr hnone => ?copy, fun s tab row t r r' hruns ht hr hr' => ?ready,
    fun s tab row t r h hruns ht hr hmem htab hrow hvers => ?hot,
    fun s model row h e ks t r hruns hmodel hperiod ht hr hready hfree => ?deep,
    fun s b bs hruns hpast hnow hlate => ?late⟩
  case applies =>
    obtain ⟨y, hy, hyrow, hothers⟩ := thresherUpdate_applies ht hr hr' hread hdone
    obtain ⟨hepoch, -, hepoch', hold⟩ := rowUpdate_fields hr'
    exact ⟨_, y, exec_thresherUpdate hruns hhere, hy, hyrow, hepoch', hepoch, hold, hothers⟩
  case notNext =>
    have hnone : s.nextRow tab row k = none := by
      rw [nextRow_eq ht hr, State.rowUpdate, if_pos (by simp [hepoch]), Option.map_none]
    rw [exec, execThresherUpdate, onTray_of_runs hruns, byUnit, thresherUpdate_of_none hnone, ite_self]
  case lost =>
    refine ⟨_, by rw [exec, execThresherUpdate, onTray_of_runs hruns], ?_⟩
    rw [byUnit]
    split
    · rfl
    · exact thresherUpdate_lost hread hlost
  case gone => rw [exec, execThresherUpdate, onTray_of_runs hruns, byUnit_of_gone hgone]
  case poisoned =>
    have htray : s.isTray = true := (isTray_iff s).mpr ((runsAs_iff s .tray).mp hruns).1
    obtain ⟨y, hy, hyrow⟩ := thresherUpdate_poisoned (cls := clsThresher) htray ht hr hr' hread
    exact ⟨_, y, _, exec_thresherUpdate hruns hhere, hy, hyrow, headerBad_mem r, Bool.or_true _, rfl, rfl⟩
  case leaf =>
    obtain ⟨y, hy, hyrow, -⟩ := thresherUpdate_applies (cls := clsUpdate) (x := { check := chk, hbm := [] }) ht hr hr'
      (fun l hl => by cases hl) hdone
    exact ⟨_, y, exec_leafFeatureUpdate hruns hunit hup hb hdue hscored hhere, hy, hyrow, (rowUpdate_fields hr').2.2.1⟩
  case copy =>
    refine ⟨_, (exec_rowCopy hruns ht hr).trans (by rw [hnone, if_neg (by simp)]), ?_, rfl⟩
    exact List.mem_append_right _ (List.mem_singleton_self _)
  case ready => exact ⟨_, (exec_rowCopy hruns ht hr).trans (by rw [hr', if_pos Option.isSome_some]), rfl⟩
  case hot =>
    refine ⟨_, exec_hotRowInstall hruns ht hr, ?_, rfl⟩
    exact List.mem_map.mpr ⟨h, hmem, if_pos (by simp [htab, hrow, hvers])⟩
  case deep =>
    refine ⟨_, exec_deepInstall hruns hmodel hperiod ht hr hready hfree, List.mem_append_right _ (List.mem_singleton_self _), ?_⟩
    dsimp only
    split
    · rfl
    · rw [show s.sticky.thr ||| 0 = s.sticky.thr from BitVec.or_zero]
      rfl
  case late =>
    refine ⟨s.setBit .thr 31, ?_, rfl⟩
    have hbusy : ((s.mem.tables.any fun t => t.img.slot && t.rows.any fun r => decide (r.v.epoch < b.k)) ||
        s.chans.any fun c => decide (0 < c.sReady)) = true := by
      rcases hlate with ⟨t, ht, hslot, r, hr, hepoch⟩ | ⟨c, hc, hready⟩
      · rw [Bool.or_eq_true]
        refine .inl (List.any_eq_true.mpr ⟨t, ht, ?_⟩)
        rw [hslot, Bool.true_and]
        exact List.any_eq_true.mpr ⟨r, hr, decide_eq_true hepoch⟩
      · rw [Bool.or_eq_true]
        exact .inr (List.any_eq_true.mpr ⟨c, hc, decide_eq_true hready⟩)
    rw [exec, execSlotLate, onTray_of_runs hruns, hpast]
    dsimp only
    rw [hbusy, if_pos (by simpa using hnow)]

end Sys2Proof.Machine
end


section
/-!
PROOFS. Memory errors (09 R270 to R272, 17 R450 to R454): the patrol, rows taken from the twin, repairs of SRAM and HBM rows.
-/

namespace Sys2Proof.Machine

/-! ## Lines that the patrol reads -/

theorem queuePpr_eq (row : Nat × Nat) (s : State) : ∃ q, queuePpr row s = { s with err := { s.err with pprQ := q } } := by
  unfold queuePpr
  split <;> exact ⟨_, rfl⟩

/-- A corrected error of an HBM row changes what is tracked of the rows alone. -/
theorem noteHbm_eq (row : Nat × Nat) (s : State) :
    ∃ es q, noteHbm row s = { s with err := { s.err with hbmErrors := es, pprQ := q } } := by
  unfold noteHbm
  dsimp only
  split
  · obtain ⟨q, hq⟩ := queuePpr_eq row
      { s with err := { s.err with hbmErrors := (noteRow s.err.hbmErrors row.1 row.2 1 s.now).1 } }
    exact ⟨_, _, hq⟩
  · exact ⟨_, _, rfl⟩

/-- A table line that the patrol finds beyond its code is poisoned in its row (R271). -/
def Row.lineBad (line : Nat) (r : Row) : Row := { r with v := { r.v with
  poisoned := r.v.poisoned || line == 0
  badLines := if r.v.badLines.contains line then r.v.badLines else line :: r.v.badLines } }

theorem lineBad_mem (line : Nat) (r : Row) : line ∈ (r.lineBad line).v.badLines := by
  unfold Row.lineBad
  dsimp only
  split
  · next h => exact List.contains_iff_mem.mp h
  · exact List.mem_cons_self

theorem exec_patrolScrub {s : State} {l : HbmLine} {n : Nat} (hruns : s.runsAs .tray = true) :
    exec (.patrolScrub l n) s = .next (hbmRead l n (s.xfer .p (s.lineChannel l) (if n = 0 then 1 else 2))) := by
  rw [exec, execPatrolScrub, onTray_of_runs hruns]

/-- A table line beyond the code is counted and poisoned (R271). -/
theorem exec_patrolScrub_lost {s : State} {tab row line n : Nat} (hruns : s.runsAs .tray = true) :
    ∃ q, exec (.patrolScrub (.table tab row line) (n + 2)) s = .next (
      let s1 := (((s.xfer .p (s.lineChannel (.table tab row line)) 2).errCount 8 1).errBit 31).setBit .thr 30
      ({ s1 with err := { s1.err with pprQ := q } } : State).onTable tab fun x => x.onRow row (Row.lineBad line)) := by
  obtain ⟨q, hq⟩ := queuePpr_eq (Config.hbmRow (.table tab row line))
    ((((s.xfer .p (s.lineChannel (.table tab row line)) 2).errCount 8 1).errBit 31).setBit .thr 30)
  refine ⟨q, (exec_patrolScrub hruns).trans ?_⟩
  rw [if_neg (by omega), hbmRead, hq]
  · rfl
  all_goals omega

/-- A row of a table after a change of the row alone. -/
theorem table?_onRow {s : State} {tab row : Nat} {t : Table} {r : Row} {f : Row → Row}
    (hf : ∀ x, x.row = row → (f x).row = row) (ht : s.table? tab = some t) (hr : t.row? row = some r) :
    (s.onTable tab fun x => x.onRow row f).table? tab = some (t.onRow row f) ∧
      (t.onRow row f).row? row = some (f r) := by
  constructor
  · rw [table?_onTable (fun x => x.onRow row f) (fun _ h => h), if_pos rfl, ht, Option.map_some]
  · rw [row?_onRow f hf, if_pos rfl, hr, Option.map_some]

/-! ## Rows of the twin -/

/-- Only the sheaves of the open epochs have changed. -/
def SheavesOnly (s t : State) : Prop := ∃ sheaves, t = { s with red := { s.red with sheaves := sheaves } }

theorem SheavesOnly.refl (s : State) : SheavesOnly s s := ⟨_, rfl⟩

theorem SheavesOnly.trans {s t u : State} (h : SheavesOnly s t) (k : SheavesOnly t u) : SheavesOnly s u := by
  obtain ⟨_, rfl⟩ := h
  obtain ⟨_, rfl⟩ := k
  exact ⟨_, rfl⟩

theorem observeRow_sheavesOnly (t : Table) (r : Row) (s : State) : SheavesOnly s (observeRow t r s) := by
  unfold observeRow
  split
  · split
    · exact ⟨_, rfl⟩
    · exact .refl s
  · exact .refl s

theorem refreshVerdicts_sheavesOnly (ctx k : Nat) (s : State) : SheavesOnly s (refreshVerdicts ctx k s) := by
  unfold refreshVerdicts
  split
  · exact .refl s
  · dsimp only
    split
    · exact ⟨_, rfl⟩
    · exact .refl s

theorem foldl_sheavesOnly {α : Type} (f : State → α → State) (h : ∀ s x, SheavesOnly s (f s x)) (l : List α) (s : State) :
    SheavesOnly s (l.foldl f s) := by
  induction l generalizing s with
  | nil => exact .refl s
  | cons x l ih => exact (h s x).trans (ih _)

/-- A row with the twin's version (07 R201). -/
def Row.taken (w : TwinRow) (old : RowVer) (r : Row) : Row := { r with
  v := { epoch := w.epoch, age := w.age, absent := w.absent, words := w.words, badLines := [], poisoned := false }
  old := old }

/-- A row taken from the twin is stored as the twin holds it, and but for it only the Granary and open sheaves change. -/
theorem takeTwinRow_spec {s : State} {tab row : Nat} {t : Table} {r : Row} (ht : s.table? tab = some t)
    (hr : t.row? row = some r) (w : TwinRow) :
    ∃ old hot sheaves, takeTwinRow t r w s = { s with
      mem := { (s.onTable tab fun x => x.onRow row (Row.taken w old)).mem with hot := hot }
      red := { s.red with sheaves := sheaves } } := by
  obtain rfl := table?_id ht
  obtain rfl := row?_row hr
  unfold takeTwinRow
  dsimp only
  generalize hs1 : reinstall t.img.tableId r.row _ _ = s1
  obtain ⟨old, hot, rfl⟩ : ∃ old hot, s1 = { s with
      mem := { (s.onTable t.img.tableId fun x => x.onRow r.row (Row.taken w old)).mem with hot := hot } } :=
    ⟨_, _, hs1.symm⟩
  obtain ⟨sheaves, hfold⟩ := foldl_sheavesOnly (fun s (p : Nat × List (BitVec 32)) => refreshVerdicts t.ctx p.1
      (observeRow t { r with v := { r.v with
        epoch := p.1, age := w.age, absent := w.absent, words := p.2, badLines := [], poisoned := false } } s))
    (fun s p => (observeRow_sheavesOnly _ _ s).trans (refreshVerdicts_sheavesOnly _ _ _)) (w.past ++ [(w.epoch, w.words)])
    { s with mem := { (s.onTable t.img.tableId fun x => x.onRow r.row (Row.taken w old)).mem with hot := hot } }
  exact ⟨old, hot, sheaves, hfold⟩

theorem exec_rowRepair_twin {s : State} {tab row : Nat} {w : TwinRow} {t : Table} {r : Row} (hruns : s.runsAs .tray = true)
    (hpaired : s.twin.paired = true) (ht : s.table? tab = some t) (hr : t.row? row = some r) :
    exec (.rowRepair tab row (some w)) s = .next (takeTwinRow t r w (s.xfer .p (t.channel row) t.img.rowLen)) := by
  rw [exec, execRowRepair, onTray_of_runs hruns, ht, Option.bind_some, hr, Option.map_some, hpaired]

/-! ## Rows of SRAM -/

theorem correctedRow_spec (bank row n : Nat) (s : State) (hn : n ≠ 0) : ∃ q, correctedRow bank row n s =
    { s.count 10 (ceCounter (Config.bankKind bank)) n with err := { (s.count 10 (ceCounter (Config.bankKind bank)) n).err with
      rowErrors := (noteRow s.err.rowErrors bank row n s.now).1
      repairQ := q } } := by
  unfold correctedRow
  rw [if_neg (by simpa using hn)]
  dsimp only
  split
  · obtain ⟨q, hq⟩ := queueRepair_eq bank row { s.count 10 (ceCounter (Config.bankKind bank)) n with
      err := { (s.count 10 (ceCounter (Config.bankKind bank)) n).err with
        rowErrors := (noteRow s.err.rowErrors bank row n s.now).1 } }
    exact ⟨q, hq⟩
  · exact ⟨_, rfl⟩

theorem count_repairs (i h n : Nat) (s : State) : (s.count i h n).err.repairs = s.err.repairs ∧
    (s.count i h n).err.repairQ = s.err.repairQ := by
  unfold State.count
  split <;> exact ⟨rfl, rfl⟩

theorem otpLog_repairs (v : BitVec 32) (s : State) : (s.otpLog v).err.repairs = s.err.repairs ∧
    (s.otpLog v).err.repairQ = s.err.repairQ := by
  unfold State.otpLog
  split
  · exact ⟨rfl, rfl⟩
  · exact count_repairs 26 311 1 (s.errBit 27)

theorem not_mem_filter_ne {α : Type} [BEq α] [LawfulBEq α] (l : List α) (a : α) : a ∉ l.filter (· != a) := by
  simp

/-- A repair takes the bank's next spare while one is left, and the row leaves the queue either way (R452, R453). -/
theorem repairRow_spec (bank row : Nat) (s : State) : (bank, row) ∉ (repairRow bank row s).err.repairQ ∧
    (repairRow bank row s).err.repairs =
      if s.bankUsed bank < 8 then s.err.repairs ++ [(bank, row, s.bankUsed bank)] else s.err.repairs := by
  unfold repairRow
  dsimp only
  split
  · generalize hs1 : State.otpLog _ _ = s1
    have hlog : s1.err.repairs = s.err.repairs ++ [(bank, row, s.bankUsed bank)] ∧
        s1.err.repairQ = s.err.repairQ.filter (· != (bank, row)) := hs1 ▸ otpLog_repairs _ _
    obtain ⟨hrepairs, hqueue⟩ := count_repairs 12 310 1 s1
    rw [hrepairs, hqueue, hlog.1, hlog.2]
    exact ⟨not_mem_filter_ne _ _, rfl⟩
  · exact ⟨not_mem_filter_ne _ _, rfl⟩

theorem poisonBuffer_foldl_err (ls : List BufLine) (s : State) : (ls.foldl poisonBuffer s).err = s.err := by
  induction ls generalizing s with
  | nil => rfl
  | cons b ls ih => exact (ih _).trans (poisonBuffer_only.same .err rfl)

/-- What is lost with a row leaves the repairs as they are. -/
theorem lostRow_repairs (bank row : Nat) (s : State) : (lostRow bank row s).err.repairs = s.err.repairs := by
  unfold lostRow
  dsimp only
  split
  · split <;> rfl
  · rw [poisonBuffer_foldl_err]
    split <;> rfl
  · rfl
  · rfl

theorem exec_sramRowRepair {s : State} {bank row : Nat} {ue : Bool} (hclk : s.clocked = true)
    (hdue : ue = true ∨ (bank, row) ∈ s.err.repairQ) : exec (.sramRowRepair bank row ue) s =
      .next (repairRow bank row (if ue then lostRow bank row s else s)) := by
  rw [exec, execSramRowRepair, whenClocked_of_clocked hclk]
  cases ue with
  | true => rfl
  | false =>
    have hqueued : s.err.repairQ.contains (bank, row) = true := by simpa using hdue
    rw [hqueued]
    rfl

/-- The repair of a row, whatever was lost with it. -/
theorem sramRowRepair_spec {s : State} {bank row : Nat} {ue : Bool} (hclk : s.clocked = true)
    (hdue : ue = true ∨ (bank, row) ∈ s.err.repairQ) : ∃ u, exec (.sramRowRepair bank row ue) s = .next u ∧
      u.err.repairs = (if s.bankUsed bank < 8 then s.err.repairs ++ [(bank, row, s.bankUsed bank)] else s.err.repairs) ∧
      (bank, row) ∉ u.err.repairQ ∧ u.mem = s.mem := by
  refine ⟨_, exec_sramRowRepair hclk hdue, ?_⟩
  have hlost : (if ue then lostRow bank row s else s).err.repairs = s.err.repairs ∧
      (if ue then lostRow bank row s else s).mem = s.mem := by
    cases ue with
    | true => exact ⟨lostRow_repairs bank row s, lostRow_only.same .mem rfl⟩
    | false => exact ⟨rfl, rfl⟩
  generalize (if ue then lostRow bank row s else s) = s1 at hlost
  obtain ⟨hrepairs, hmem⟩ := hlost
  obtain ⟨hqueue, hspec⟩ := repairRow_spec bank row s1
  have hused : s1.bankUsed bank = s.bankUsed bank := by rw [State.bankUsed, State.bankUsed, hrepairs]
  rw [hrepairs, hused] at hspec
  exact ⟨hspec, hqueue, Eq.trans (repairRow_only.same .mem rfl) hmem⟩

/-! ## Rows of HBM -/

theorem exec_hbmPpr_ok {s : State} {stack row : Nat} (hruns : s.runsAs .tray = true)
    (hwait : (stack, row) ∈ s.err.pprQ) : ∃ chan n, exec (.hbmPpr stack row true .ok) s = .next
      (((({ s with err := { s.err with
            pprQ := s.err.pprQ.filter (· != (stack, row))
            ppr := s.err.ppr ++ [(stack, row)]
            hbmErrors := s.err.hbmErrors.filter fun r => !(r.bank == stack && r.row == row) } } : State).xfer .p chan n).errCount
          9 1).emit (.flashProgram (0x02020000 + 8 * s.err.ppr.length) (le 4 stack ++ le 4 row))) := by
  have hcontains : s.err.pprQ.contains (stack, row) = true := by simpa using hwait
  refine ⟨32 * stack + (Config.pprCopy stack row).1 % 32, 2 * (Config.pprCopy stack row).2, ?_⟩
  rw [exec, execHbmPpr, onTray_of_runs hruns, hcontains]
  rfl

theorem exec_hbmPpr_none {s : State} {stack row : Nat} {fl : FlashAnswer} (hruns : s.runsAs .tray = true)
    (hwait : (stack, row) ∈ s.err.pprQ) : exec (.hbmPpr stack row false fl) s = .next
      (({ s with err := { s.err with pprQ := s.err.pprQ.filter (· != (stack, row)) } } : State).errBit 26) := by
  have hcontains : s.err.pprQ.contains (stack, row) = true := by simpa using hwait
  rw [exec, execHbmPpr, onTray_of_runs hruns, hcontains]
  rfl

/-- Settles O34, by the errors of memory in the order of their clauses. -/
theorem memoryErrorsAndRepair : Obligations.MemoryErrorsAndRepair := by
  refine ⟨fun s l hruns => ?corrected, fun s tab row line n t r hruns ht hr => ?poisoned,
    fun s tab row w t r hruns hpaired ht hr => ?twin, fun s bank row n hclk hn => ?scrub,
    fun s bank row ue hclk hdue hleft => ?spare, fun s bank row ue hclk hdue hleft => ?noSpare,
    fun s stack row hruns hwait => ?ppr, fun s stack row fl hruns hwait => ?pprOut⟩
  case corrected =>
    refine ⟨_, exec_patrolScrub hruns, ?_⟩
    obtain ⟨es, q, hnote⟩ := noteHbm_eq (Config.hbmRow l) (((s.xfer .p (s.lineChannel l) 2).errCount 7 1).setBit .thr 29)
    rw [if_neg (by decide), hbmRead, hnote]
    exact ⟨rfl, rfl⟩
  case poisoned =>
    obtain ⟨q, hscrub⟩ := exec_patrolScrub_lost (line := line) (n := n) hruns (tab := tab) (row := row)
    refine ⟨_, _, _, hscrub, (table?_onRow (f := Row.lineBad line) (fun _ h => h) ((table?_of_tables ?_ tab).trans ht) hr).1,
      (table?_onRow (f := Row.lineBad line) (fun _ h => h) ht hr).2, lineBad_mem line r, rfl, rfl, rfl, rfl⟩
    rfl
  case twin =>
    obtain ⟨old, hot, sheaves, htake⟩ := takeTwinRow_spec (s := s.xfer .p (t.channel row) t.img.rowLen) ht hr w
    obtain ⟨htable, hrow⟩ := table?_onRow (f := Row.taken w old) (fun _ h => h) ht hr
    exact ⟨_, _, _, (exec_rowRepair_twin hruns hpaired ht hr).trans (congrArg Host.Outcome.next htake), htable, hrow, rfl, rfl⟩
  case scrub =>
    obtain ⟨q, hspec⟩ := correctedRow_spec bank row n s hn
    refine ⟨correctedRow bank row n s, ?_, ?_⟩
    · rw [exec, execSramScrub, whenClocked_of_clocked hclk]
    · rw [hspec]
      refine ⟨rfl, (count_repairs _ _ _ s).1, fun htray => ?_, fun hleaf => ?_⟩
      · rw [count_of_tray ((runsAs_iff s .tray).mp htray).1]
        rfl
      · rw [count_of_leaf hleaf]
        rfl
  case spare =>
    obtain ⟨u, hexec, hrepairs, hqueue, hmem⟩ := sramRowRepair_spec hclk hdue
    exact ⟨u, hexec, hrepairs.trans (if_pos hleft), hqueue, hmem⟩
  case noSpare =>
    obtain ⟨u, hexec, hrepairs, hqueue, -⟩ := sramRowRepair_spec hclk hdue
    exact ⟨u, hexec, hrepairs.trans (if_neg (Nat.not_lt.mpr hleft)), hqueue⟩
  case ppr =>
    obtain ⟨chan, n, hexec⟩ := exec_hbmPpr_ok hruns hwait
    exact ⟨_, hexec, not_mem_filter_ne _ _, rfl, rfl, rfl, rfl⟩
  case pprOut =>
    exact ⟨_, exec_hbmPpr_none hruns hwait, not_mem_filter_ne _ _, rfl⟩

end Sys2Proof.Machine

end


section
/-!
PROOFS. The scoring of rows (10 R279, R287, R292, 11 R319): a job starts with the status of the row test, and completes with
one record.
-/

namespace Sys2Proof.Machine

/-! ## What scoring leaves of the jobs -/

theorem stopJob_jobs (ctx model : Nat) (row : Option (Nat × Nat)) (k : Nat) (s : State) :
    (stopJob ctx model row k s).mem.jobs = s.mem.jobs := rfl

theorem afterRead_jobs (h : HeldModel) (j : ScoreJob) (line : Option Nat) (k : Nat) (s : State) :
    (afterRead h j line k s).mem.jobs = s.mem.jobs := by
  unfold afterRead
  dsimp only
  split
  · rfl
  · split
    · rw [stopJob_jobs]
      split <;> rfl
    · split <;> rfl

theorem readTrees_mem (m : Model) (t : Table) (row : Nat) (ts : List Nat) (rd : LaneRead) (s : State) :
    (readTrees m t row ts rd s).mem = s.mem := readTrees_only.same .mem rfl

/-- Sending a leaf's verdicts empties what is kept of them, and nothing else of the memory changes. -/
theorem sendLeafVerdicts_mem (ctx k : Nat) (s : State) :
    ∃ l, (sendLeafVerdicts ctx k s).mem = { s.mem with leafVerdicts := l } := by
  unfold sendLeafVerdicts
  split
  · exact ⟨_, rfl⟩
  · dsimp only
    generalize hs1 : List.foldl _ s _ = s1
    have hmem : s1.mem = s.mem := by
      rw [← hs1]
      exact (Only.foldl (.refl _) fun _ _ => State.sendNumbered_only).same .mem rfl
    rw [hmem]
    exact ⟨_, rfl⟩

/-! ## The start of a job -/

section Start
variable {s : State} {model row k : Nat} {chk : CheckOutcome} {h : HeldModel} {p : PlaceInForce} {e : PlaceEntry}
  {t : Table} {r : Row} {x : HotRow} {v : RowVer}

/-- The status of the row test stands where nothing else makes the row COLD or POISONED (10 R287). -/
theorem firstStatus_good (hclean : h.poisoned = false) : firstStatus false h v .good = rowTest h.m v v.badLines := by
  unfold firstStatus
  rw [hclean]
  simp only [seenLines, Bool.false_eq_true, if_false, Bool.and_false]
  split <;> rfl

/-- What a step makes of a job whose row test gave st, with every lane word good: with the test passed the trees are walked,
and a step without a result makes the row COLD. -/
def ScoreJob.started (j : ScoreJob) (m : Model) (lost : Bool) : ScoreJob :=
  { ScoreJob.unlessLost lost j (j.scoreTrees m (slotTrees m) .good).1 with slices := 1 }

theorem started_fields (j : ScoreJob) (m : Model) (lost : Bool) : (j.started m lost).model = j.model ∧
    (j.started m lost).row = j.row ∧ (j.started m lost).ks = j.ks ∧ (j.started m lost).pub = j.pub ∧
    (j.started m lost).ver = j.ver ∧ (j.started m lost).record = j.record := by
  unfold ScoreJob.started ScoreJob.unlessLost ScoreJob.scoreTrees
  split <;> split <;> (try split) <;> exact ⟨rfl, rfl, rfl, rfl, rfl, rfl⟩

theorem unlessLost_false (old j : ScoreJob) : ScoreJob.unlessLost false old j = j := by
  rw [ScoreJob.unlessLost, Bool.false_and, if_neg Bool.false_ne_true]

theorem started_of_not_ok {j : ScoreJob} {m : Model} {lost : Bool} (hst : j.status ≠ stOk) :
    j.started m lost = { j with slices := 1 } := by
  have hne : (j.status != stOk) = true := by simpa using hst
  have hbeq : (j.status == stOk) = false := by simpa using hst
  rw [ScoreJob.started, ScoreJob.scoreTrees, if_pos hne, ScoreJob.unlessLost, hbeq, Bool.and_false, if_neg Bool.false_ne_true]

theorem started_lost {j : ScoreJob} {m : Model} (hst : j.status = stOk) : (j.started m true).status = stCold := by
  rw [ScoreJob.started, ScoreJob.unlessLost, hst]
  rfl

/-- The walk of a job whose lane reads good words. -/
def ScoreJob.goodWalk (j : ScoreJob) (m : Model) : WalkEnd :=
  walkTrees m { words := j.ver.words, badLines := j.ver.badLines, lost := .good } (slotTrees m) j.acc

theorem started_walked {j : ScoreJob} {m : Model} (hst : j.status = stOk) :
    (∀ acc, j.goodWalk m = .sums acc → (j.started m false).status = stOk ∧ (j.started m false).acc = acc) ∧
      ∀ l, j.goodWalk m = .line l → (j.started m false).status = stPoisoned := by
  rw [ScoreJob.started, unlessLost_false, ScoreJob.scoreTrees, if_neg (by simp [hst])]
  constructor
  · intro acc hwalk
    simp only [seenLines]
    rw [show walkTrees _ _ _ _ = _ from hwalk]
    exact ⟨hst, rfl⟩
  · intro l hwalk
    simp only [seenLines]
    rw [show walkTrees _ _ _ _ = _ from hwalk]

/-- Slot work that finds its row due and installed starts a job (10 R279). -/
theorem slotStart_eq (htray : s.isTray = true) (hm : s.model? model = some h) (he : s.entryFor false model row k = some (p, e))
    (ht : s.table? e.tableId = some t) (hr : t.row? row = some r) (hdue : slotDue e row k = true) (hk : k ≤ r.v.epoch)
    (hnew : s.job? model row k = none) (hruns : s.jobRuns h.m.ctx model k = true)
    (hhot : s.mem.hot.find? (fun x => x.table == e.tableId && x.row == row) = some x) (hver : versionAt x.vers k = some v)
    (hheld : x.held.any (fun y => tagNotAfter y.epoch k) = false) (hlane : s.laneLost p e row = false)
    (hclean : h.poisoned = false) :
    ∃ line, slotStart model row k chk .good s =
      (let j := (newJob h.m (s.genOf h.m.ctx) e row r.entity k k (rowTest h.m v v.badLines) v).started h.m
        (s.stepLost clsLane chk)
      some (j, afterRead h ((newJob h.m (s.genOf h.m.ctx) e row r.entity k k (rowTest h.m v v.badLines) v).scoreTrees h.m
        (slotTrees h.m) .good).1 line k (readTrees h.m t row (slotTrees h.m) .good s))) := by
  have hleaf : s.isLeaf = false := by
    rw [State.isLeaf, (isTray_iff s).mp htray]
    rfl
  refine ⟨((newJob h.m (s.genOf h.m.ctx) e row r.entity k k (rowTest h.m v v.badLines) v).scoreTrees h.m
        (slotTrees h.m) .good).2, ?_⟩
  unfold slotStart
  rw [hm, he]
  dsimp only
  rw [ht, Option.bind_some, hr, Option.map_some]
  dsimp only
  rw [hhot, Option.any_some, hheld, if_neg (by simp [hdue, hnew, hruns, hk]), noteRead, hm, Option.getD_some, hleaf, Option.bind_some, hver, hlane]
  simp only [Option.isNone_some, Option.getD_some, Bool.false_or, firstStatus_good hclean, Bool.false_eq_true, if_false]
  rfl

end Start

theorem exec_scoreStart {s s1 : State} {model row k : Nat} {chk : CheckOutcome} {rd : LaneRead} {j : ScoreJob}
    (hruns : s.runsAs .tray = true) (hhere : s.unitGone clsLane chk.unit = false)
    (hstart : slotStart model row k chk rd s = some (j, s1)) :
    ∃ u, exec (.scoreStart model row k chk rd) s = .next u ∧ u.mem.jobs = s1.mem.jobs ++ [j] := by
  refine ⟨unitCheck clsLane chk (putJob j s1), ?_, ?_⟩
  · rw [exec, execScoreStart, onTray_of_runs hruns, byUnit_of_here hhere, hstart]
  · exact congrArg MemSt.jobs (unitCheck_only.same .mem rfl)

/-! ## The end of a scoring -/

theorem finishJob_eq (m : Model) (j : ScoreJob) (s : State) : ∃ b, finishJob m j s = { j with record := some b } := ⟨_, rfl⟩

theorem exec_scoreComplete {s : State} {model row : Nat} {x : ScoreEnd} {j : ScoreJob} {h : HeldModel}
    (hruns : s.runsAs .tray = true)
    (hj : s.mem.jobs.find? (fun j => j.model == model && j.row == row && j.pub == x.epoch) = some j)
    (hm : s.model? model = some h) (hopen : j.record = none)
    (hslices : (if j.pub = j.ks then 1 else j.pub - j.ks - 1) ≤ j.slices) (hgen : s.genOf j.ctx = j.gen)
    (hhere : s.unitGone clsLane x.check.unit = false) (hdone : s.stepLost clsLane x.check = false) :
    ∃ u b, exec (.scoreComplete model row x) s = .next u ∧ u.mem.tables = s.mem.tables ∧
      u.mem.jobs = mapIf (fun j' => j'.model == model && j'.row == row && j'.ks == j.ks) (fun _ => { j with record := some b })
        s.mem.jobs := by
  obtain ⟨b, hb⟩ := finishJob_eq h.m j s
  generalize hexec : exec (.scoreComplete model row x) s = res
  rw [exec, execScoreComplete, onTray_of_runs hruns, byUnit_of_here hhere, hj, hm] at hexec
  simp only [beq_iff_eq] at hexec
  rw [if_neg (by simpa [hopen] using hslices), if_neg (by simp [hgen]), hdone, unlessLost_false, hb] at hexec
  refine ⟨_, b, hexec.symm, ?_⟩
  generalize hs1 : unitCheck clsLane x.check _ = s1
  have hmem : s1.mem = (s.onJob model row j.ks fun _ => { j with record := some b }).mem :=
    hs1 ▸ unitCheck_only.same .mem rfl
  have hlast : ∀ u : State, (refreshVerdicts j.ctx j.pub (countVerdict { j with record := some b } b u)).mem = u.mem :=
    fun u => Eq.trans (refreshVerdicts_only.same .mem rfl) (countVerdict_only.same .mem rfl)
  rw [Option.getD_some, hlast]
  exact ⟨(congrArg MemSt.tables hmem :), (congrArg MemSt.jobs hmem :)⟩

theorem exec_leafModelScore {s s1 : State} {model row k : Nat} {chk : CheckOutcome} {h : HeldModel} {j : ScoreJob}
    {u0 : UnitClass} (hruns : s.runsAs .leaf = true) (hunit : s.unit? clsUpdate = some u0) (hup : 0 < u0.inService)
    (hdone : s.updatesDone k = true) (hm : s.model? model = some h)
    (hstart : slotStart model row k chk .good s = some (j, s1)) (hgen : s1.genOf j.ctx = j.gen)
    (hhere : s.unitGone clsLane chk.unit = false) : ∃ u b, exec (.leafModelScore model row k chk .good) s = .next u ∧
      u.mem.jobs = s1.mem.jobs ++ [{ j with record := some b }] ∧ u.mem.tables = s1.mem.tables := by
  obtain ⟨b, hb⟩ := finishJob_eq h.m j s1
  generalize hexec : exec (.leafModelScore model row k chk .good) s = res
  rw [exec, execLeafModelScore, onLeaf_of_runs hruns, byUnit_of_here hhere, hunit] at hexec
  dsimp only at hexec
  rw [if_neg (by simp [hup, hdone]), hstart, hm] at hexec
  dsimp only at hexec
  rw [if_neg (by simp [hgen]), hb] at hexec
  refine ⟨_, b, hexec.symm, ?_⟩
  generalize hs2 : unitCheck clsLane chk _ = s2
  have hmem : s2.mem = (putJob { j with record := some b } s1).mem := hs2 ▸ unitCheck_only.same .mem rfl
  generalize hs3 : keepLeafVerdict _ _ s2 = s3
  have hkept : s3.mem.jobs = s2.mem.jobs ∧ s3.mem.tables = s2.mem.tables := by
    rw [← hs3]
    exact ⟨rfl, rfl⟩
  have hjobs : s3.mem.jobs = s1.mem.jobs ++ [{ j with record := some b }] := hkept.1.trans (congrArg MemSt.jobs hmem)
  have htables : s3.mem.tables = s1.mem.tables := hkept.2.trans (congrArg MemSt.tables hmem :)
  split
  · obtain ⟨l, hsent⟩ := sendLeafVerdicts_mem 0 k s3
    rw [hsent]
    exact ⟨hjobs, htables⟩
  · exact ⟨hjobs, htables⟩

/-- Settles O35, by the start of a job and by the ends of a scoring. -/
theorem scoringJobsAndRecords : Obligations.ScoringJobsAndRecords := by
  refine ⟨fun s model row k chk h p e t r x v hruns hm he ht hr hdue hk hnew hjob hhot hver hheld hlane hclean hhere => ?start,
    fun s model row x j h hruns hj hm hopen hslices hgen hhere hdone => ?complete,
    fun s b bs hpast hlate hopen => ?winLate,
    fun s model row k chk h j s1 u0 hruns hunit hup hdone hm hstart hgen hhere => ?leaf⟩
  case start =>
    obtain ⟨line, hstart⟩ := slotStart_eq (chk := chk) ((isTray_iff s).mpr ((runsAs_iff s .tray).mp hruns).1) hm he ht hr hdue hk hnew hjob hhot hver
      hheld hlane hclean
    obtain ⟨u, hexec, hjobs⟩ := exec_scoreStart hruns hhere hstart
    rw [afterRead_jobs, readTrees_mem] at hjobs
    generalize hj0 : newJob h.m (s.genOf h.m.ctx) e row r.entity k k (rowTest h.m v v.badLines) v = j0 at hjobs
    obtain ⟨hmodel, hrow, hks, hpub, hv, hrec⟩ := started_fields j0 h.m (s.stepLost clsLane chk)
    subst hj0
    refine ⟨u, _, hexec, hjobs ▸ List.mem_append_right _ List.mem_cons_self, hmodel, hrow, hks, hpub, hv, hrec, rfl,
      fun j' hj' => hjobs ▸ List.mem_append_left _ hj', fun hst => ?_, fun hst hlost => ?_, fun hst hlost => ?_⟩
    · rw [started_of_not_ok hst]
      exact ⟨rfl, rfl⟩
    · rw [hlost]
      exact started_lost hst
    · rw [hlost]
      exact started_walked (j := newJob h.m (s.genOf h.m.ctx) e row r.entity k k (rowTest h.m v v.badLines) v) hst
  case complete =>
    obtain ⟨u, b, hexec, htables, hjobs⟩ := exec_scoreComplete hruns hj hm hopen hslices hgen hhere hdone
    refine ⟨u, b, hexec, ?_, ?_, htables⟩
    · have hnames := List.find?_some hj
      simp only [Bool.and_eq_true, beq_iff_eq] at hnames
      rw [hjobs, mapIf]
      refine List.mem_map.mpr ⟨j, List.mem_of_find?_eq_some hj, if_pos ?_⟩
      simp [hnames]
    · rw [hjobs, mapIf, List.length_map]
  case winLate =>
    refine ⟨s.setBit .win 29, ?_, rfl⟩
    obtain ⟨c, hc, x, hx, hdeep, hjob⟩ := hopen
    rw [exec, execWinLate, hpast]
    refine congrArg Host.Outcome.next (if_pos ?_)
    simp only [Bool.and_eq_true, decide_eq_true_eq, List.any_map, List.any_eq_true]
    refine ⟨hlate, c, hc, List.any_eq_true.mpr ⟨x, hx, ?_⟩⟩
    rw [hdeep]
    split
    · next j hj => simpa using hjob j hj
    · rfl
  case leaf =>
    obtain ⟨u, b, hexec, hjobs, htables⟩ := exec_leafModelScore hruns hunit hup hdone hm hstart hgen hhere
    exact ⟨u, b, hexec, hjobs ▸ List.mem_append_right _ List.mem_cons_self, htables⟩

end Sys2Proof.Machine

end


section
/-!
PROOFS. Grants (12 R337 to R340, 02 R59): the grant step of a tray block, and what a leaf takes, offers and ends.
-/

namespace Sys2Proof.Machine

/-! ## The grant step -/

section Step
variable {s : State} {k d w g : Nat}

/-- The dies with a new start for those that join at epoch k (12 R337). -/
def State.restarted (s : State) (k : Nat) : State :=
  { s with act := { s.act with dies := mapIf (fun x => s.joins k x.d) (fun x => { x with g := none }) s.act.dies } }

theorem restarted_die (s : State) (k d : Nat) :
    (s.restarted k).die d = { s.die d with g := if s.joins k d then none else (s.die d).g } := by
  have hkey : ∀ x : Die, (if s.joins k x.d then { x with g := none } else x).d = x.d := fun x => by split <;> rfl
  rw [State.die, State.die, State.restarted, mapIf, List.find?_map,
    show ((fun x : Die => x.d == d) ∘ fun x => if s.joins k x.d then { x with g := none } else x) = fun x => x.d == d from
      funext fun x => congrArg (· == d) (hkey x)]
  cases hfind : s.act.dies.find? fun x => x.d == d with
  | none =>
    rw [Option.map_none, Option.getD_none]
    split <;> rfl
  | some x =>
    obtain rfl : x.d = d := by simpa using List.find?_some hfind
    rw [Option.map_some, Option.getD_some, Option.getD_some]
    split <;> rfl

theorem die_d (s : State) (d : Nat) : (s.die d).d = d := by
  rw [State.die]
  cases hfind : s.act.dies.find? fun x => x.d == d with
  | none => rfl
  | some x => simpa using List.find?_some hfind

theorem putDie_die (s : State) (x : Die) : (s.putDie x).die x.d = x := by
  have hnone : (s.act.dies.filter fun y => !(y.d == x.d)).find? (fun y => y.d == x.d) = none :=
    List.find?_eq_none.mpr fun y hy => by simpa using (List.mem_filter.mp hy).2
  rw [State.die, State.putDie, putBack, List.find?_append, hnone, Option.none_or,
    List.find?_cons, beq_self_eq_true,
    Option.getD_some]

/-- The grant that the step gives a die whose policy is w, of a budget b shared with no other die (12 R337). -/
def soleGrant (s : State) (b w g : Nat) : Nat := stepGrant s.cfg.stepUp s.cfg.stepDn g (if b < w then w * b / w else w)

/-- The step of an epoch with one die and no cap: its grant moves toward its target. -/
theorem grantStep_one (hcaps : s.capRows k = []) (hdies : s.memberDies k = [d]) (hpolicy : policyAt s.act.policies d k = some w)
    (hhold : (s.die d).hold = none) (hg : if s.joins k d then g = w else (s.die d).g = some g) :
    ∃ lanes s1, s1 = { (s.restarted k).putDie { d := d, g := some (soleGrant s (s.budgetAt k) w g), hold := none } with
        lanes := lanes } ∧
      grantStep k s = (let s2 := { s1 with act := { s1.act with lastStep := k } }
        if s.budgetAt k < w then s2.setBit .act 27 else s2) := by
  generalize hstep : grantStep k s = res
  have hcaps' : (s.restarted k).capRows k = [] := hcaps
  have hdies' : (s.restarted k).memberDies k = [d] := hdies
  have hpolicy' : policyAt (s.restarted k).act.policies d k = some w := hpolicy
  have hdie := restarted_die s k d
  have hhold' : ((s.restarted k).die d).hold = none := by rw [hdie]; exact hhold
  have hbudget : (s.restarted k).budgetAt k = s.budgetAt k := rfl
  have hstart : ((s.restarted k).die d).g.getD w = g := by
    rw [hdie]
    dsimp only
    split
    · next hjoin => exact ((if_pos hjoin).mp hg).symm
    · next hjoin =>
      rw [if_neg hjoin] at hg
      rw [hg, Option.getD_some]
  unfold grantStep at hstep
  extract_lets act0 s0 caps s1 dies target ts total b scaled s2 s3 at hstep
  have hs1 : s1 = s.restarted k := by
    change caps.foldl _ _ = _
    rw [show caps = [] from hcaps']
    rfl
  have hdies1 : dies = [(d, w)] := by
    change (s1.memberDies k).filterMap _ = _
    rw [hs1, hdies', List.filterMap_cons, hpolicy']
    rfl
  have hts : ts = [(d, w, w)] := by
    change dies.map _ = _
    rw [hdies1, List.map_cons, List.map_nil]
    dsimp only [target]
    rw [hs1, hhold']
  have htotal : total = w := by
    change sumNat (ts.map _) = w
    rw [hts]
    exact Nat.zero_add w
  have hscaled : scaled = decide (s.budgetAt k < w) := congrArg (fun n => decide (s.budgetAt k < n)) htotal
  have hs2 : ∃ lanes, s2 = { (s.restarted k).putDie { d := d, g := some (soleGrant s (s.budgetAt k) w g), hold := none } with
      lanes := lanes } := by
    change ∃ lanes, ts.foldl _ s1 = _
    rw [hts, hs1, List.foldl_cons, List.foldl_nil]
    obtain ⟨lanes, hsent⟩ := sendCtlAll_lanesOnly _ _ _
    refine ⟨lanes, hsent.trans (congrArg (fun x => ({ (s.restarted k).putDie x with lanes := lanes } : State)) ?_)⟩
    dsimp only
    rw [hstart, htotal, hscaled]
    have hname : ((s.restarted k).die d).d = d := die_d _ d
    rw [hname, hhold', soleGrant]
    simp only [decide_eq_true_eq]
    rfl
  obtain ⟨lanes, hs2⟩ := hs2
  refine ⟨lanes, s2, hs2, hstep.symm.trans ?_⟩
  rw [hscaled]
  simp only [decide_eq_true_eq]
  rfl

theorem any_not_past {o : Option Boundary} {m n : Ticks} (h : ∀ b, o = some b → n ≤ b.t + m) :
    (o.any fun b => decide (b.t + m < n)) = false := by
  cases o with
  | none => rfl
  | some b => exact decide_eq_false (Nat.not_lt.mpr (h b rfl))

theorem any_past {t m n : Ticks} (h : t + m ≤ n) : ((some t).any fun t => decide (t + m ≤ n)) = true := decide_eq_true h

theorem exec_grantStep (htray : s.profile = .tray) (hready : s.grantReady (s.act.lastStep + 1) = true)
    (htime : ∀ b, s.boundary? (s.act.lastStep + 1) = some b → s.now ≤ b.t + nsT 34000) :
    ∃ done, exec .grantStep s = .next (
      let s1 := grantStep (s.act.lastStep + 1) s
      { s1 with evr := { s1.evr with grantDone := done } }) := by
  have hclk : s.clocked = true := by
    simp only [State.grantReady, State.carrying, Bool.and_eq_true, beq_iff_eq] at hready
    exact clocked_of_service hready.1.1.1.2
  have hlate := any_not_past htime
  refine ⟨(s.boundary? (s.act.lastStep + 1)).map fun b => (s.now - b.t) / nsT 10, ?_⟩
  rw [exec, execGrantStep, onTray_of_runs ((runsAs_iff s .tray).mpr ⟨htray, hclk⟩)]
  dsimp only
  rw [hready, if_pos rfl, hlate, if_neg Bool.false_ne_true]

end Step

/-! ## Grants at a leaf -/

section Leaf
variable {s : State}

theorem exec_grant {lane : Nat} {msg : Bytes} (hruns : s.runsAs .leaf = true) :
    exec (.grant lane msg) s = .next (
      let e := BitVec.ofNat 32 (fld msg 4 4)
      let w := BitVec.ofNat 16 (fld msg 8 2)
      let live := bit (fld msg 10 1) 0
      if bit (fld msg 10 1) 1 then
        if s.grantOld s.grant.sinceNonSafe then takeGrant live true e w (s.taken lane msg) else s.taken lane msg
      else if s.grant.last.all (laterEpoch e) then takeGrant live false e w (s.taken lane msg) else s.taken lane msg) := by
  rw [exec, execGrant, onLeaf_of_runs hruns]
  dsimp only
  split
  · rfl
  · generalize hlast : s.grant.last = last
    have htaken : (s.taken lane msg).grant.last = last := hlast
    rw [htaken]
    cases last <;> rfl

theorem exec_grantOffer {fl w : BitVec 16} (hruns : s.runsAs .leaf = true) (hwait : s.grant.waiting = some w)
    (hlow : s.pins.pgVld = false) (hdropped : ∀ e, s.grant.droppedAt = some e → e + 2 ≤ s.edges) :
    exec (.grantOffer fl) s = .next (
      let s1 := { s with
        pins := { s.pins with pgVld := true, pgWatt := if w.toNat < fl.toNat then fl else w }
        grant := { s.grant with waiting := none, raisedAt := some s.now, noAck := false } }
      if w.toNat < fl.toNat then s1.countHealth 315 1 else s1) := by
  have hpast : (s.grant.droppedAt.any fun e => decide (s.edges < e + 2)) = false := by
    cases hd : s.grant.droppedAt with
    | none => rfl
    | some e => exact decide_eq_false (Nat.not_lt.mpr (hdropped e hd))
  rw [exec, execGrantOffer, onLeaf_of_runs hruns, hwait]
  dsimp only
  rw [hlow, hpast, if_neg (by decide)]
  simp only [decide_eq_true_eq]

end Leaf

/-- Settles O36, by the grant step of one die and by each input of a leaf's grants. -/
theorem grantsOfTrayAndLeaf : Obligations.GrantsOfTrayAndLeaf := by
  refine ⟨fun s d w g htray hready hcaps hdies htime hpolicy hhold hg => ?step,
    fun s b htray hb hrole hmode hsafe htime => ?late, fun s lane msg l hruns hsafe hlast => ?grant,
    fun s lane msg hruns hsafe => ?safeGrant, fun s fl w hruns hwait hlow hdropped => ?offer,
    fun s hruns hvld => ?ack, fun s r hruns hvld hraised hpast hnew => ?noAck, fun s hruns hold => ?stale⟩
  case step =>
    obtain ⟨lanes, s1, hs1, hstep⟩ := grantStep_one hcaps hdies hpolicy hhold hg
    obtain ⟨done, hexec⟩ := exec_grantStep htray hready htime
    have hdie : (s1.die d).g = some (soleGrant s (s.budgetAt (s.act.lastStep + 1)) w g) := by
      rw [hs1]
      exact congrArg Die.g (putDie_die (s.restarted (s.act.lastStep + 1))
        { d := d, g := some (soleGrant s (s.budgetAt (s.act.lastStep + 1)) w g), hold := none })
    have hsticky : s1.sticky = s.sticky := by
      rw [hs1]
      rfl
    refine ⟨_, hexec, ?_⟩
    rw [hstep]
    dsimp only
    rw [soleGrant] at hdie
    split
    · next hover =>
      rw [if_pos hover] at hdie
      exact ⟨rfl, fun h => absurd hover (Nat.not_lt.mpr h), fun _ => ⟨hdie, hsticky ▸ rfl⟩⟩
    · next hfits =>
      rw [if_neg hfits] at hdie
      exact ⟨rfl, fun _ => ⟨hdie, hsticky⟩, fun h => absurd h hfits⟩
  case late =>
    have hcond : (s.cfg.role == .tray && s.carrying && !s.act.safe && decide (b.t + nsT 34000 ≤ s.now)) = true := by
      simp [State.carrying, hrole, hmode, hsafe, htime]
    refine ⟨s.setBit .act 28, ?_, rfl⟩
    rw [exec, execGrantLate, onTray_of_runs ((runsAs_iff s .tray).mpr ⟨htray, clocked_of_service hmode⟩), hb]
    exact congrArg Host.Outcome.next (if_pos hcond)
  case grant =>
    rw [exec_grant hruns, hsafe, if_neg Bool.false_ne_true, hlast, Option.all_some]
    refine ⟨fun hlater => ?_, fun hlater => ?_⟩
    · rw [if_pos hlater]
      rfl
    · rw [if_neg (by simp [hlater])]
  case safeGrant =>
    rw [exec_grant hruns, hsafe, if_pos rfl]
    refine ⟨fun hold => ?_, fun hnew => ?_⟩
    · exact ⟨_, congrArg Host.Outcome.next (if_pos hold), rfl, rfl, rfl⟩
    · rw [if_neg (by simp [hnew])]
  case offer =>
    refine ⟨_, exec_grantOffer hruns hwait hlow hdropped, ?_⟩
    dsimp only
    by_cases hclamp : w.toNat < fl.toNat
    · rw [if_pos hclamp, if_pos hclamp, if_pos hclamp]
      exact ⟨rfl, (Nat.max_eq_right (Nat.le_of_lt hclamp)).symm, rfl, rfl, rfl⟩
    · rw [if_neg hclamp, if_neg hclamp, if_neg hclamp]
      exact ⟨rfl, (Nat.max_eq_left (Nat.le_of_not_lt hclamp)).symm, rfl, rfl, rfl⟩
  case ack =>
    rw [exec, execPgAck, onLeaf_of_runs hruns]
    exact congrArg Host.Outcome.next (if_pos hvld)
  case noAck =>
    have hcond : (s.pins.pgVld && (s.grant.raisedAt.any fun t => decide (t + nsT 80 ≤ s.now)) && !s.grant.noAck) = true := by
      rw [hvld, hraised, any_past hpast, hnew]
      rfl
    have hexec : exec .grantNoAck s = .next ({ s.countHealth 314 1 with
        grant := { s.grant with noAck := true } } |>.setBit .rstState 21) := by
      rw [exec, execGrantNoAck, onLeaf_of_runs hruns]
      exact congrArg Host.Outcome.next (if_pos hcond)
    exact ⟨_, hexec, rfl⟩
  case stale =>
    rw [exec, execGrantStale, onLeaf_of_runs hruns]
    exact congrArg Host.Outcome.next (if_pos hold)

end Sys2Proof.Machine

end


section
/-!
PROOFS. The tray loop (12 R341 to R345, 02 R74, R78): its periods, its takeover, bus samples and converter limits.
-/

namespace Sys2Proof.Machine

/-! ## Converters -/

theorem conv_c (s : State) (c : Nat) : (s.conv c).c = c := by
  rw [State.conv]
  cases hfind : s.act.convs.find? fun x => x.c == c with
  | none => rfl
  | some x => simpa using List.find?_some hfind

theorem putConv_conv (s : State) (x : Conv) : (s.putConv x).conv x.c = x := by
  have hnone : (s.act.convs.filter fun y => !(y.c == x.c)).find? (fun y => y.c == x.c) = none :=
    List.find?_eq_none.mpr fun y hy => by simpa using (List.mem_filter.mp hy).2
  rw [State.conv, State.putConv, putBack, List.find?_append, hnone, Option.none_or, List.find?_cons, beq_self_eq_true,
    Option.getD_some]

/-- What the member reads of its converters changes what it knows of them, and status bits. -/
def ReadsOnly (s t : State) : Prop := ∃ convs sticky raised out lanes,
  t = { s with act := { s.act with convs := convs }, sticky := sticky, raisedNow := raised, out := out, lanes := lanes }

theorem ReadsOnly.refl (s : State) : ReadsOnly s s := ⟨_, _, _, _, _, rfl⟩

theorem ReadsOnly.trans {s t u : State} (h : ReadsOnly s t) (k : ReadsOnly t u) : ReadsOnly s u := by
  obtain ⟨_, _, _, _, _, rfl⟩ := h
  obtain ⟨_, _, _, _, _, rfl⟩ := k
  exact ⟨_, _, _, _, _, rfl⟩

theorem putConv_readsOnly (s : State) (x : Conv) : ReadsOnly s (s.putConv x) := ⟨_, _, _, _, _, rfl⟩

theorem convFail_readsOnly (c : Nat) (s : State) : ReadsOnly s (convFail c s) := ⟨_, _, _, _, _, rfl⟩

theorem LanesOnly.readsOnly {s t : State} (h : LanesOnly s t) : ReadsOnly s t := by
  obtain ⟨_, rfl⟩ := h
  exact ⟨_, _, _, _, _, rfl⟩

theorem takeIout_readsOnly (l : List (Nat × PmbRead)) (s : State) : ReadsOnly s (takeIout l s) := by
  refine foldl_rel ReadsOnly.refl ReadsOnly.trans (fun s x => ?_) l s
  split
  · exact putConv_readsOnly s _
  · exact convFail_readsOnly _ s

theorem takeReadings_readsOnly (l : List (Nat × PmbRead)) (s : State) : ReadsOnly s (takeReadings l s) :=
  takeIout_readsOnly _ s

theorem takeVin_readsOnly (l : List (Nat × PmbRead)) (s : State) : ReadsOnly s (takeVin l s) := by
  refine foldl_rel ReadsOnly.refl ReadsOnly.trans (fun s x => ?_) l s
  split
  · exact putConv_readsOnly s _
  · exact convFail_readsOnly _ s

theorem emits_readsOnly (s : State) (l : List Out) : ReadsOnly s (s.emits l) := ⟨_, _, _, _, _, rfl⟩

theorem issueReads_readsOnly (i : LoopIn) (s : State) : ReadsOnly s (issueReads i s) :=
  (emits_readsOnly s _).trans ((takeIout_readsOnly _ _).trans ((emits_readsOnly _ _).trans (takeVin_readsOnly _ _)))

/-- A converter that failed its retry keeps what was last written to it, and is marked (02 R74). -/
theorem convFail_conv (c : Nat) (s : State) : ((convFail c s).conv c).written = (s.conv c).written ∧
    ((convFail c s).conv c).unreachable = true ∧
    (convFail c s).sticky = { s.sticky with act := s.sticky.act ||| 0x01000000 } := by
  have hput := putConv_conv s { s.conv c with unreachable := true, tried := some s.now }
  rw [show Conv.c { s.conv c with unreachable := _, tried := _ } = c from conv_c s c] at hput
  exact ⟨(congrArg Conv.written hput :), congrArg Conv.unreachable hput, rfl⟩

theorem exec_converterLimitWrite {s : State} {c : Nat} {v : BitVec 16} {a : PmbWrite} (hruns : s.runsAs .tray = true)
    (hwant : s.wantedLimit c = some v) (hmay : s.mayWrite c v = true) : exec (.converterLimitWrite c a) s = .next (
      let s1 := s.emits (if a.first then [.pmbusWrite c 0x46 v] else [.pmbusWrite c 0x46 v, .pmbusWrite c 0x46 v])
      if a.first || a.second then
        s1.putConv { s1.conv c with written := some (v, s1.now), unreachable := false, tried := none, safeDone := s1.act.safe }
      else convFail c s1) := by
  rw [exec, execConverterLimitWrite, onTray_of_runs hruns, hwant]
  dsimp only
  rw [if_neg (by simp [hmay])]

/-! ## The loop period -/

/-- The safe duty as the loop's accumulator holds it (12 R343). -/
def State.safeU (s : State) : Int := ((safeDuty s.straps.safeValve.toNat / 250 * 2 ^ 20 : Nat) : Int)

/-- The budget after a period (12 R343, R345). -/
def State.loopB (s : State) (v : Nat) (lost : Bool) (tOut : Option Int) : Nat :=
  if lost then s.act.b else loopBudget s.act.loop s.pGrantMax s.bHold tOut v s.act.b

/-- What a loop step of period m leaves of the loop's state. -/
structure Stepped (m v a : Nat) (lost : Bool) (tOut : Option Int) (s t : State) : Prop where
  u : t.act.u = (loopDuty s.act.loop s.safeU tOut s.act.u s.act.integ).1
  b : t.act.b = s.loopB v lost tOut
  outs : t.act.outs = s.act.outs ++
    [{ m := m, duty := dutyOf (loopDuty s.act.loop s.safeU tOut s.act.u s.act.integ).1, b := s.loopB v lost tOut }]
  vAvg : t.act.vAvg = v
  iAvg : t.act.iAvg = a
  holdup : t.act.holdup = decide (v < s.act.loop.vHold)
  duty : t.act.duty = s.act.duty
  pins : t.pins = s.pins

section Period
variable {s t u : State} {m v a : Nat} {lost : Bool} {tOut : Option Int} {i : LoopIn}

theorem countRead_act (tOut : Option Int) (s : State) : ∃ n, (countRead tOut s).act = { s.act with noRead := n, tOut := tOut } ∧
    (countRead tOut s).pins = s.pins := by
  unfold countRead
  generalize (if tOut.isSome then 0 else s.act.noRead + 1) = n
  dsimp only
  split <;> exact ⟨n, rfl, rfl⟩

theorem loopStep_stepped (m v a : Nat) (lost : Bool) (tOut : Option Int) (s : State) :
    Stepped m v a lost tOut s (loopStep m v a lost tOut s) := by
  obtain ⟨n, hact, hpins⟩ := countRead_act tOut s
  unfold loopStep
  dsimp only
  rw [hact]
  exact ⟨rfl, rfl, rfl, rfl, rfl, rfl, rfl, hpins⟩

theorem Stepped.reads (h : Stepped m v a lost tOut s t) (k : ReadsOnly t u) : Stepped m v a lost tOut s u := by
  obtain ⟨_, _, _, _, _, rfl⟩ := k
  exact ⟨h.u, h.b, h.outs, h.vAvg, h.iAvg, h.holdup, h.duty, h.pins⟩

theorem firstStep_of_left (h : s.act.safe = false) : firstStep s = s := by
  rw [firstStep, h, Bool.false_and, if_neg Bool.false_ne_true]

theorem masterStep_stepped (hsafe : s.act.safe = false) : Stepped m (busAverage s).1 (busAverage s).2
    (s.sticky.act.getLsbD 25) (if s.tOutAddr.isSome then i.tOut else none) s (masterStep m i s) := by
  have hstep := (loopStep_stepped m (busAverage s).1 (busAverage s).2 (s.sticky.act.getLsbD 25)
    (if s.tOutAddr.isSome then i.tOut else none) s).reads (issueReads_readsOnly i _)
  unfold masterStep
  rw [firstStep_of_left hsafe]
  dsimp only
  generalize (if s.tOutAddr.isSome then i.tOut else none) = tOut at hstep ⊢
  split
  · exact hstep.reads (sendMsgAll_lanesOnly _ _ _ _ _ _ _).readsOnly
  · exact hstep

/-- The samples of a period start again (02 R78). -/
def State.freshSamples (s : State) : State := { s with act := { s.act with vSum := 0, iSum := 0, samples := 0 } }

theorem Stepped.fresh (h : Stepped m v a lost tOut s t) : Stepped m v a lost tOut s t.freshSamples :=
  ⟨h.u, h.b, h.outs, h.vAvg, h.iAvg, h.holdup, h.duty, h.pins⟩

theorem Stepped.metrics (h : Stepped m v a lost tOut s t) (ms : List (Nat × Int)) :
    Stepped m v a lost tOut s (t.metrics ms) := by
  have hact : (t.metrics ms).act = t.act := State.metrics_only.same .act rfl
  have hpins : (t.metrics ms).pins = t.pins := State.metrics_only.same .pins rfl
  exact ⟨hact ▸ h.u, hact ▸ h.b, hact ▸ h.outs, hact ▸ h.vAvg, hact ▸ h.iAvg, hact ▸ h.holdup, hact ▸ h.duty,
    hpins.trans h.pins⟩

theorem Stepped.settings (h : Stepped m v a lost tOut s t) : Stepped m v a lost tOut s (nextSettings t) := by
  unfold nextSettings
  split
  · exact ⟨h.u, h.b, h.outs, h.vAvg, h.iAvg, h.holdup, h.duty, h.pins⟩
  · exact h

theorem nextSettings_samples (s : State) : (nextSettings s).act.samples = s.act.samples ∧
    (nextSettings s).act.vSum = s.act.vSum ∧ (nextSettings s).act.iSum = s.act.iSum := by
  unfold nextSettings
  split <;> exact ⟨rfl, rfl, rfl⟩

/-- A loop period of a member that carries its role ends with what its step left, and the samples start again. -/
theorem exec_loopPeriod (htray : s.profile = .tray) (hrole : s.cfg.role = .tray) (hmode : s.mode = .service) :
    ∃ ms, exec (.loopPeriod i) s = .next (nextSettings (((if s.loopMaster then masterStep (milli s.now - 1) i s else
      match i.fromTwin with
      | some (v, a, lost) => takeReadings i.iout (loopStep (milli s.now - 1) v a lost i.tOut (firstStep s))
      | none => s).metrics ms).freshSamples)) := by
  have hcarry : s.carrying = true := by simp only [State.carrying, hmode, beq_self_eq_true]
  rw [exec, execLoopPeriod, onTray_of_runs ((runsAs_iff s .tray).mpr ⟨htray, clocked_of_service hmode⟩)]
  dsimp only
  rw [hrole, hcarry, if_neg (by simp), Bool.true_and]
  exact ⟨_, rfl⟩

end Period

/-- Settles O37, by the steps of the loop and by each input of the bus and the converters. -/
theorem trayLoopAndConverters : Obligations.TrayLoopAndConverters := by
  refine ⟨fun s i htray hrole hmode hsafe hmaster => ?master, fun s i v a lost htray hrole hmode hsafe hmaster htwin => ?follower,
    fun s a hruns hcut halone htime => ?takeover, fun s v i hruns => ?sample, fun s hruns hlost => ?senseLost,
    fun s c v a hruns hwant hmay => ?limit, fun s hruns => ?alert⟩
  case takeover =>
    rw [exec, execLoopMasterTakeover, onTray_of_runs hruns, hcut, halone, any_past htime]
    rfl
  case sample => rw [exec, execV42Stb, onTray_of_runs hruns]
  case senseLost =>
    refine ⟨s.setBit .act 25, ?_, rfl⟩
    rw [exec, execBusSenseLost, onTray_of_runs hruns, if_pos hlost]
  case alert => rw [exec, execSmbAlert, onTray_of_runs hruns]
  case master =>
    obtain ⟨ms, hexec⟩ := exec_loopPeriod (i := i) htray hrole hmode
    rw [if_pos hmaster] at hexec
    have hstep := ((masterStep_stepped (m := milli s.now - 1) (i := i) hsafe).metrics ms).fresh.settings
    obtain ⟨hsamples, hv, hi⟩ := nextSettings_samples ((masterStep (milli s.now - 1) i s).metrics ms).freshSamples
    exact ⟨_, hexec, ⟨hstep.u, hstep.b, hstep.outs, hstep.vAvg, hstep.iAvg, hstep.holdup⟩, hsamples, hv, hi, hstep.duty,
      hstep.pins⟩
  case follower =>
    obtain ⟨ms, hexec⟩ := exec_loopPeriod (i := i) htray hrole hmode
    rw [if_neg (by simp [hmaster]), htwin, firstStep_of_left hsafe] at hexec
    have hread := (loopStep_stepped (milli s.now - 1) v a lost i.tOut s).reads (takeReadings_readsOnly i.iout _)
    have hstep := (hread.metrics ms).fresh.settings
    exact ⟨_, hexec, hstep.u, hstep.b, hstep.outs, hstep.vAvg, hstep.iAvg, hstep.pins⟩
  case limit =>
    refine ⟨_, exec_converterLimitWrite hruns hwant hmay, ?_⟩
    generalize hs1 : s.emits _ = s1
    have hout : s1.out = s.out ++ if a.first then [.pmbusWrite c 0x46 v] else [.pmbusWrite c 0x46 v, .pmbusWrite c 0x46 v] :=
      hs1 ▸ rfl
    have hkept : s1.conv c = s.conv c ∧ s1.sticky = s.sticky ∧ s1.now = s.now := hs1 ▸ ⟨rfl, rfl, rfl⟩
    obtain ⟨hconv, hsticky, hnow⟩ := hkept
    cases hack : a.first || a.second with
    | true =>
      have hput := putConv_conv s1
        { s1.conv c with written := some (v, s1.now), unreachable := false, tried := none, safeDone := s1.act.safe }
      rw [show Conv.c { s1.conv c with written := _, unreachable := _, tried := _, safeDone := _ } = c from conv_c s1 c] at hput
      refine ⟨hout, fun _ => ⟨?_, congrArg Conv.unreachable hput, hsticky⟩, fun h => absurd h (by decide)⟩
      exact (congrArg Conv.written hput).trans (by rw [← hnow])
    | false =>
      obtain ⟨hwritten, hlost, hbit⟩ := convFail_conv c s1
      refine ⟨hout, fun h => absurd h (by decide), fun _ => ⟨?_, hlost, ?_⟩⟩
      · exact hwritten.trans (congrArg Conv.written hconv)
      · exact hbit.trans (by rw [hsticky])

end Sys2Proof.Machine

end


section
/-!
PROOFS. Program-counter sampling (08 R220 to R225, 02 R53): the slots of a group, the samples that they raise and what ends
them.
-/

namespace Sys2Proof.Machine

/-- Only the trace unit, its pins and the capture status word have changed. -/
def TraceOnly (s t : State) : Prop := ∃ trc pins cap raised,
  t = { s with trc := trc, pins := pins, sticky := { s.sticky with cap := cap }, raisedNow := raised }

theorem TraceOnly.refl (s : State) : TraceOnly s s := ⟨_, _, _, _, rfl⟩

theorem TraceOnly.trans {s t u : State} (h : TraceOnly s t) (k : TraceOnly t u) : TraceOnly s u := by
  obtain ⟨_, _, _, _, rfl⟩ := h
  obtain ⟨_, _, _, _, rfl⟩ := k
  exact ⟨_, _, _, _, rfl⟩

theorem TraceOnly.eq {s u : State} (h : TraceOnly s u) :
    u = { s with trc := u.trc, pins := u.pins, sticky := { s.sticky with cap := u.sticky.cap }, raisedNow := u.raisedNow } := by
  obtain ⟨_, _, _, _, rfl⟩ := h
  rfl

/-! ## A share of the trace unit -/

theorem trcShare_onShareTrc (f : ShareTrc → ShareTrc) (hf : ∀ x, (f x).ctx = x.ctx) (s : State) (c : Nat) :
    (s.onShareTrc c f).trc.shares.find? (·.ctx == c) = (s.trc.shares.find? (·.ctx == c)).map f :=
  (find_mapIf_of_key (fun x : ShareTrc => x.ctx) (fun x h => (hf x).trans h) s.trc.shares c).trans (if_pos rfl)

section Record
variable {s : State} {share : Nat} {t : Ticks} {m : Mark} {x : ShareTrc}

/-- A record takes the next SEQ of its share (R223). -/
theorem recordOf_eq (hx : s.trc.shares.find? (·.ctx == share) = some x) : recordOf share t m s =
    pushRec ⟨some t, trcWord m.payload m.core m.stall m.kind x.seq⟩ (s.onShareTrc share fun x => { x with seq := x.seq + 1 }) := by
  rw [recordOf, hx]

theorem recordOf_traceOnly (share : Nat) (t : Ticks) (m : Mark) (s : State) : TraceOnly s (recordOf share t m s) := by
  unfold recordOf
  split <;> exact ⟨_, _, _, _, rfl⟩

theorem recordOf_trc (share : Nat) (t : Ticks) (m : Mark) (s : State) :
    ∃ shares r, recordOf share t m s = { s with trc := { s.trc with shares := shares, recs := s.trc.recs ++ [r] } } := by
  unfold recordOf
  split <;> exact ⟨_, _, rfl⟩

end Record

/-! ## The end of a sample -/

theorem endSample_of_none {s : State} (h : s.trc.req = none) (stall : Nat) (pc : BitVec 64) : endSample stall pc s = s := by
  rw [endSample, h]

theorem endSample_of_some {s : State} {core : Nat} {t : Ticks} {c : Nat} {x : ShareTrc} (h : s.trc.req = some (core, t, c))
    (hx : s.trc.shares.find? (·.ctx == s.groupShare) = some x) (stall : Nat) (pc : BitVec 64) :
    ∃ u, endSample stall pc s = u ∧ u.trc.req = none ∧
      u.trc.recs = s.trc.recs ++ [⟨some t, trcWord pc core stall 1 x.seq⟩] ∧ u.trc.buffered = s.trc.buffered ∧
      u.trc.shares.find? (·.ctx == s.groupShare) = some { x with seq := x.seq + 1 } ∧
      u = { s with trc := u.trc, pins := { s.pins with trcSreq := false, trcSel := 0 } } := by
  refine ⟨_, rfl, ?_⟩
  rw [endSample, h]
  generalize hs1 : ({ s with
    trc := { s.trc with req := none }
    pins := { s.pins with trcSreq := false, trcSel := 0 } } : State) = s1
  have hx1 : s1.trc.shares.find? (·.ctx == s1.groupShare) = some x := hs1 ▸ hx
  have hshare : s1.groupShare = s.groupShare := hs1 ▸ rfl
  dsimp only
  rw [recordOf_eq hx1]
  have hkept := trcShare_onShareTrc (fun x : ShareTrc => { x with seq := x.seq + 1 }) (fun _ => rfl) s1 s1.groupShare
  rw [hx1, hshare] at hkept
  rw [hshare]
  subst hs1
  exact ⟨rfl, rfl, rfl, hkept, rfl⟩

theorem endSample_traceOnly (stall : Nat) (pc : BitVec 64) (s : State) : TraceOnly s (endSample stall pc s) := by
  unfold endSample
  split
  · exact .trans (t := { s with trc := { s.trc with req := none }, pins := { s.pins with trcSreq := false, trcSel := 0 } })
      ⟨_, _, _, _, rfl⟩ (recordOf_traceOnly _ _ _ _)
  · exact .refl s

/-! ## Groups -/

theorem closeGroup_traceOnly (s : State) : TraceOnly s (closeGroup s) := by
  unfold closeGroup
  split
  · exact .refl s
  · dsimp only
    refine (endSample_traceOnly 14 0 s).trans ?_
    generalize endSample 14 0 s = t
    split
    · exact .refl t
    · split <;> exact ⟨_, _, _, _, rfl⟩

/-- A group of four records that has ended is one beat of its share (R220). -/
theorem closeGroup_full {s : State} (hreq : s.trc.req = none) (hfull : s.trc.recs.length = 4)
    (hended : s.trc.group < s.tim.cycle / 128) :
    (closeGroup s).trc.buffered = s.trc.buffered ++ [⟨s.groupShare, s.trc.closedK, s.trc.recs, s.trc.closes⟩] := by
  rw [closeGroup, if_neg (Nat.not_le.mpr hended), endSample_of_none hreq]
  dsimp only
  rw [hfull, if_neg (by decide)]
  split <;> rfl

/-- What a group in its first slot is: its number, no record yet, and the beats of the groups before it. -/
theorem beginGroup_trc (s : State) : TraceOnly s (beginGroup s) ∧ (beginGroup s).trc.group = s.tim.cycle / 128 ∧
    (beginGroup s).trc.recs = [] ∧ (beginGroup s).trc.buffered = s.trc.buffered :=
  ⟨⟨_, _, _, _, rfl⟩, rfl, rfl, rfl⟩

/-! ## What takes a slot -/

/-- A slot takes at most one record, and raises at most a sample. -/
theorem fillSlot_trc (s : State) : ∃ shares recs req pins, fillSlot s = { s with
    trc := { s.trc with shares := shares, recs := recs, req := req }
    pins := pins } ∧ recs.length ≤ s.trc.recs.length + 1 := by
  have hlen : ∀ r : TrcRec, (s.trc.recs ++ [r]).length ≤ s.trc.recs.length + 1 := fun r =>
    Nat.le_of_eq List.length_append
  unfold fillSlot
  dsimp only
  split
  · split
    · next m ms _ =>
      obtain ⟨shares, r, hrec⟩ := recordOf_trc s.groupShare s.now m
        (s.onShareTrc s.groupShare fun x => { x with marks := ms, slots := x.slots + 1 })
      exact ⟨shares, _, _, _, hrec, hlen r⟩
    · split
      · exact ⟨_, _, _, _, rfl, Nat.le_succ _⟩
      · exact ⟨_, _, _, _, rfl, hlen _⟩
  · exact ⟨_, _, _, _, rfl, hlen _⟩

section Slot
variable {s : State} {j : Nat} {x : ShareTrc}

theorem exec_slot0 (hruns : s.runsAs .leaf = true) (hstarts : s.slotStarts 0 = true) :
    exec (.trcSampleSlot 0) s = .next (
      let s1 := beginGroup (closeGroup (endSample 14 0 s))
      fillSlot { s1 with trc := { s1.trc with slotAt := some s.tim.cycle } }) := by
  rw [exec, execTrcSampleSlot, onLeaf_of_runs hruns, hstarts]
  rfl

/-- In a later slot with no request waiting, what takes the slot is the whole step. -/
theorem exec_slot (hruns : s.runsAs .leaf = true) (hstarts : s.slotStarts j = true) (hj : j ≠ 0) (hreq : s.trc.req = none)
    (hrecs : s.trc.recs.length = j) : exec (.trcSampleSlot j) s =
      .next (fillSlot { s with trc := { s.trc with slotAt := some s.tim.cycle } }) := by
  rw [exec, execTrcSampleSlot, onLeaf_of_runs hruns, hstarts, endSample_of_none hreq]
  dsimp only
  have hlater : (j == 0) = false := by simpa using hj
  rw [if_pos rfl, hlater, if_neg Bool.false_ne_true]
  exact congrArg Host.Outcome.next (if_pos (beq_iff_eq.mpr hrecs))

theorem fillSlot_of_mark {m : Mark} {ms : List Mark} (hx : s.trc.shares.find? (·.ctx == s.groupShare) = some x)
    (hgen : (s.heldGen s.groupShare).isSome = true) (hmarks : x.marks = m :: ms) :
    ∃ shares, fillSlot s = { s with trc := { s.trc with
        shares := shares
        recs := s.trc.recs ++ [⟨some s.now, trcWord m.payload m.core m.stall m.kind x.seq⟩] } } ∧
      shares.find? (·.ctx == s.groupShare) = some { x with marks := ms, slots := x.slots + 1, seq := x.seq + 1 } := by
  obtain ⟨g, hg⟩ := Option.isSome_iff_exists.mp hgen
  rw [fillSlot, hx, hg]
  dsimp only
  rw [hmarks]
  dsimp only
  have htaken := trcShare_onShareTrc (fun x : ShareTrc => { x with marks := ms, slots := x.slots + 1 }) (fun _ => rfl) s
    s.groupShare
  rw [hx, Option.map_some] at htaken
  rw [recordOf_eq htaken]
  have hnext := trcShare_onShareTrc (fun x : ShareTrc => { x with seq := x.seq + 1 }) (fun _ => rfl)
    (s.onShareTrc s.groupShare fun x => { x with marks := ms, slots := x.slots + 1 }) s.groupShare
  rw [htaken, Option.map_some] at hnext
  exact ⟨_, rfl, hnext⟩

theorem fillSlot_of_no_mark (hx : s.trc.shares.find? (·.ctx == s.groupShare) = some x)
    (hgen : (s.heldGen s.groupShare).isSome = true) (hmarks : x.marks = []) :
    fillSlot s = if 0 < x.div && !x.cores.isEmpty && x.slots % x.div == 0 then
        raiseSample s.groupShare (nth x.cores (x.pos % x.cores.length) 0) s
      else pushEmpty (s.onShareTrc s.groupShare fun x => { x with slots := x.slots + 1 }) := by
  obtain ⟨g, hg⟩ := Option.isSome_iff_exists.mp hgen
  rw [fillSlot, hx, hg]
  dsimp only
  rw [hmarks]

theorem fillSlot_of_no_gen (hgen : s.heldGen s.groupShare = none) : fillSlot s = pushEmpty s := by
  rw [fillSlot, hgen]
  split
  · next h => cases h
  · rfl

end Slot

/-! ## Answers -/

section Answer
variable {s : State} {core c : Nat} {t : Ticks}

theorem exec_trcVld {pc : BitVec 64} {stall : BitVec 4} (hruns : s.runsAs .leaf = true) (hreq : s.trc.req = some (core, t, c)) :
    exec (.trcVld pc stall) s = .next
      (if s.tim.cycle ≤ c + 16 then endSample (if 14 ≤ stall.toNat then 15 else stall.toNat) pc s else s) := by
  rw [exec, execTrcVld, onLeaf_of_runs hruns, hreq]

theorem exec_noResponse (hruns : s.runsAs .leaf = true) (hreq : s.trc.req = some (core, t, c)) :
    exec .noResponse s = .next (if c + 16 < s.tim.cycle then endSample 14 0 s else s) := by
  rw [exec, execNoResponse, onLeaf_of_runs hruns, hreq]

end Answer

/-- Settles O38, by what takes each slot and by what ends a sample. -/
theorem traceSlotsSampleCores : Obligations.TraceSlotsSampleCores := by
  refine ⟨fun s hruns hstarts => ?begins, fun s hruns hstarts hreq hfull hended => ?ended,
    fun s j x m ms hruns hstarts hj hreq hrecs hx hgen hmarks => ?mark,
    fun s j x hruns hstarts hj hreq hrecs hx hgen hmarks hdiv hcores hown => ?sample,
    fun s j x hruns hstarts hj hreq hrecs hx hgen hmarks hskip => ?empty,
    fun s j hruns hstarts hj hreq hrecs hgen => ?noGen, fun s core t c x pc stall hruns hreq hx htime => ?answer,
    fun s core t c pc stall hruns hreq hlate => ?late, fun s core t c x hruns hreq hx hlate => ?noResponse⟩
  case begins =>
    refine ⟨_, exec_slot0 hruns hstarts, ?_⟩
    dsimp only
    have hclosed := (endSample_traceOnly 14 0 s).trans (closeGroup_traceOnly _)
    have htime : (closeGroup (endSample 14 0 s)).tim = s.tim := by
      obtain ⟨_, _, _, _, h⟩ := hclosed
      rw [h]
    obtain ⟨hbegun, hgroup, hrecs, -⟩ := beginGroup_trc (closeGroup (endSample 14 0 s))
    generalize beginGroup (closeGroup (endSample 14 0 s)) = s1 at hbegun hgroup hrecs ⊢
    obtain ⟨shares, recs, req, pins, hfill, hlen⟩ := fillSlot_trc { s1 with trc := { s1.trc with slotAt := some s.tim.cycle } }
    have hone : recs.length ≤ 1 := by
      rw [hrecs] at hlen
      exact hlen
    have honly : TraceOnly s1 (fillSlot { s1 with trc := { s1.trc with slotAt := some s.tim.cycle } }) :=
      ⟨_, _, _, _, hfill⟩
    refine ⟨?_, ?_, ?_, (hclosed.trans (hbegun.trans honly)).eq⟩
    · rw [hfill, ← htime]
      exact hgroup
    · rw [hfill]
      exact hone
    · rw [hfill]
  case ended =>
    refine ⟨_, exec_slot0 hruns hstarts, ?_⟩
    dsimp only
    rw [endSample_of_none hreq]
    obtain ⟨-, -, -, hbuffered⟩ := beginGroup_trc (closeGroup s)
    obtain ⟨_, _, _, _, hfill, -⟩ := fillSlot_trc { beginGroup (closeGroup s) with
      trc := { (beginGroup (closeGroup s)).trc with slotAt := some s.tim.cycle } }
    rw [hfill]
    exact hbuffered.trans (closeGroup_full hreq hfull hended)
  case mark =>
    obtain ⟨shares, hfill, hshare⟩ := fillSlot_of_mark (s := { s with trc := { s.trc with slotAt := some s.tim.cycle } }) hx hgen
      hmarks
    refine ⟨_, _, (exec_slot hruns hstarts hj hreq hrecs).trans (congrArg Host.Outcome.next hfill), rfl, hshare, rfl, rfl⟩
  case sample =>
    have hfill := fillSlot_of_no_mark (s := { s with trc := { s.trc with slotAt := some s.tim.cycle } }) hx hgen hmarks
    rw [if_pos (by simp [hdiv, hcores, hown])] at hfill
    have hshare := trcShare_onShareTrc (fun x : ShareTrc => { x with pos := x.pos + 1, slots := x.slots + 1 }) (fun _ => rfl) s
      s.groupShare
    rw [hx, Option.map_some] at hshare
    exact ⟨_, _, (exec_slot hruns hstarts hj hreq hrecs).trans (congrArg Host.Outcome.next hfill), rfl, rfl, rfl, hshare, rfl,
      rfl⟩
  case empty =>
    have hfill := fillSlot_of_no_mark (s := { s with trc := { s.trc with slotAt := some s.tim.cycle } }) hx hgen hmarks
    have hnot : ¬ (decide (0 < x.div) && !x.cores.isEmpty && x.slots % x.div == 0) = true := by
      simp only [Bool.and_eq_true, decide_eq_true_eq, Bool.not_eq_true', List.isEmpty_eq_false_iff, beq_iff_eq]
      rintro ⟨⟨hdiv, hcores⟩, hown⟩
      obtain h | h | h := hskip
      · omega
      · exact hcores h
      · exact h hown
    rw [if_neg hnot] at hfill
    have hshare := trcShare_onShareTrc (fun x : ShareTrc => { x with slots := x.slots + 1 }) (fun _ => rfl) s s.groupShare
    rw [hx, Option.map_some] at hshare
    exact ⟨_, _, (exec_slot hruns hstarts hj hreq hrecs).trans (congrArg Host.Outcome.next hfill), rfl, hshare, rfl, rfl⟩
  case noGen =>
    have hfill := fillSlot_of_no_gen (s := { s with trc := { s.trc with slotAt := some s.tim.cycle } }) hgen
    exact ⟨_, (exec_slot hruns hstarts hj hreq hrecs).trans (congrArg Host.Outcome.next hfill), rfl, rfl, rfl⟩
  case answer =>
    obtain ⟨u, hend, hnone, hrecord, hbuffered, hshare, hframe⟩ := endSample_of_some hreq hx
      (if 14 ≤ stall.toNat then 15 else stall.toNat) pc
    refine ⟨u, ?_, hnone, ?_, hrecord, ?_, ?_⟩
    · rw [exec_trcVld hruns hreq, if_pos htime, hend]
    · rw [hframe]
    · rw [hshare, Option.map_some]
    · rw [hframe]
  case late => rw [exec_trcVld hruns hreq, if_neg (Nat.not_le.mpr hlate)]
  case noResponse =>
    obtain ⟨u, hend, hnone, hrecord, hbuffered, -, hframe⟩ := endSample_of_some hreq hx 14 0
    refine ⟨u, ?_, hnone, ?_, hrecord, hbuffered, ?_⟩
    · rw [exec_noResponse hruns hreq, if_pos hlate, hend]
    · rw [hframe]
    · rw [hframe]

end Sys2Proof.Machine

end


section
/-!
PROOFS. Tensor watch (08 R228 to R234): the feed entry that returns, and the lines of a dump.
-/

namespace Sys2Proof.Machine

/-! ## The watch of a share -/

section Share
variable {s : State} {c : Nat} {w : ShareWatch} {f g : ShareWatch → ShareWatch}

theorem watch?_onWatch (hf : ∀ x, (f x).ctx = x.ctx) (hw : s.watch? c = some w) : (s.onWatch c f).watch? c = some (f w) :=
  (find_mapIf_of_key (fun x : ShareWatch => x.ctx) (fun x h => (hf x).trans h) s.watch c).trans
    ((if_pos rfl).trans (congrArg (Option.map f) hw))

theorem onWatch_onWatch (hf : ∀ x, (f x).ctx = x.ctx) : (s.onWatch c f).onWatch c g = s.onWatch c (fun x => g (f x)) := by
  have hall : ∀ x : ShareWatch, (if (if x.ctx == c then f x else x).ctx == c then g (if x.ctx == c then f x else x)
      else if x.ctx == c then f x else x) = if x.ctx == c then g (f x) else x := fun x => by
    by_cases h : (x.ctx == c) = true
    · rw [if_pos h, hf, if_pos h, if_pos h]
    · rw [if_neg h, if_neg h, if_neg h]
  have hlist : mapIf (·.ctx == c) g (mapIf (·.ctx == c) f s.watch) = mapIf (·.ctx == c) (fun x => g (f x)) s.watch := by
    rw [mapIf, mapIf, mapIf, List.map_map]
    exact congrArg (List.map · s.watch) (funext hall)
  exact congrArg (fun l => ({ s with watch := l } : State)) hlist

end Share

theorem mem_insertBy_iff {α : Type} {key : α → Nat} {a x : α} {l : List α} : x ∈ insertBy key a l ↔ x = a ∨ x ∈ l := by
  induction l with
  | nil => simp [insertBy]
  | cons y l ih =>
    rw [insertBy]
    split
    · simp only [List.mem_cons, ih]
      exact or_left_comm
    · simp only [List.mem_cons]

theorem mem_sortBy {α : Type} {key : α → Nat} {x : α} {l : List α} : x ∈ sortBy key l ↔ x ∈ l := by
  have hfold : ∀ acc : List α, x ∈ l.foldl (fun acc a => insertBy key a acc) acc ↔ x ∈ acc ∨ x ∈ l := by
    induction l with
    | nil => simp
    | cons y l ih =>
      intro acc
      rw [List.foldl_cons, ih, mem_insertBy_iff, List.mem_cons, or_comm (a := x = y), or_assoc]
  exact (hfold []).trans (by simp)

/-! ## The feed -/

/-- The next ring of a share is taken between dumps (16 R435). -/
def ShareWatch.ringTaken (w : ShareWatch) : ShareWatch :=
  match w.nextFeed with
  | some (b, f, q) => { w with feed := if f = 0 then none else some (b, f), dseq := q, nextFeed := none }
  | none => w

theorem ringTaken_none {w : ShareWatch} (h : w.nextFeed = none) : w.ringTaken = w := by rw [ShareWatch.ringTaken, h]

theorem ringTaken_some {w : ShareWatch} {b f q : Nat} (h : w.nextFeed = some (b, f, q)) :
    w.ringTaken = { w with feed := if f = 0 then none else some (b, f), dseq := q, nextFeed := none } := by
  rw [ShareWatch.ringTaken, h]

theorem ringTaken_ctx (w : ShareWatch) : w.ringTaken.ctx = w.ctx := by
  unfold ShareWatch.ringTaken
  split <;> rfl

theorem exec_watchFeedPoll {s : State} {c : Nat} {w : ShareWatch} (hruns : s.runsAs .leaf = true) (hw : s.watch? c = some w)
    (hreading : w.reading = none) (hwant : w.wantFeed = false) (hdump : w.dump = none) (hpoll : w.pollAt ≤ s.now)
    (hactive : s.isActive c = true) : exec (.watchFeedPoll c) s =
      .next ((s.onWatch c ShareWatch.ringTaken).onWatch c fun w => { w with wantFeed := w.feed.isSome }) := by
  rw [exec, execWatchFeedPoll, onLeaf_of_runs hruns, hw]
  dsimp only
  rw [if_neg (by simp [hreading, hwant, hdump, hactive, Nat.not_lt.mpr hpoll])]
  refine congrArg (fun f => Host.Outcome.next ((s.onWatch c f).onWatch c fun w => { w with wantFeed := w.feed.isSome })) ?_
  funext x
  unfold ShareWatch.ringTaken
  cases x.nextFeed with
  | none => rfl
  | some r => simp only [beq_iff_eq]

/-- A feed entry has returned with that DSEQ (08 R230). -/
def ShareWatch.received (expected dseq : Nat) (w : ShareWatch) : ShareWatch :=
  { w with reading := none, overrun := if expected < dseq then w.overrun + 1 else w.overrun }

/-- A descriptor has been taken (08 R230). -/
def ShareWatch.taken (dseq : Nat) (now : Ticks) (w : ShareWatch) : ShareWatch :=
  { w with dseq := dseq + 1, consumed := dseq, pollAt := now }

section Feed
variable {s : State} {c : Nat} {w : ShareWatch} {b : Bytes}

theorem exec_watchFeedRead_again {fd : Nat × Nat} (hruns : s.runsAs .leaf = true) (hw : s.watch? c = some w)
    (hreading : w.reading.isSome = true) (hfeed : w.feed = some fd)
    (hbad : crcOk (slice b 0 64) = false ∨ fld (slice b 0 64) 0 8 < w.dseq) : exec (.watchFeedRead c (.data b)) s =
      .next (s.onWatch c fun w => { w with reading := none, pollAt := s.now + nsT s.cfg.feedPollNs }) := by
  rw [exec, execWatchFeedRead, onLeaf_of_runs hruns, hw]
  dsimp only
  rw [if_neg (by simpa [Option.isSome_iff_ne_none] using hreading), hfeed]
  refine congrArg Host.Outcome.next (if_pos ?_)
  simpa using hbad

theorem exec_watchFeedRead_good {fd : Nat × Nat} (hruns : s.runsAs .leaf = true) (hw : s.watch? c = some w)
    (hreading : w.reading.isSome = true) (hfeed : w.feed = some fd) (hcrc : crcOk (slice b 0 64) = true)
    (hseq : w.dseq ≤ fld (slice b 0 64) 0 8) : exec (.watchFeedRead c (.data b)) s =
      .next (takeDescriptor c (slice b 0 64) (s.onWatch c (ShareWatch.received w.dseq (fld (slice b 0 64) 0 8)))) := by
  rw [exec, execWatchFeedRead, onLeaf_of_runs hruns, hw]
  dsimp only
  rw [if_neg (by simpa [Option.isSome_iff_ne_none] using hreading), hfeed]
  dsimp only
  rw [if_neg (by simpa [hcrc] using hseq)]
  refine congrArg (fun u => Host.Outcome.next (takeDescriptor c (slice b 0 64) u)) ?_
  split
  · next hskip =>
    rw [onWatch_onWatch (f := fun w => { w with reading := none }) (fun _ => rfl)]
    exact congrArg (s.onWatch c) (funext fun x => by rw [ShareWatch.received, if_pos hskip])
  · next hskip => exact congrArg (s.onWatch c) (funext fun x => by rw [ShareWatch.received, if_neg hskip])

end Feed

/-- What of a descriptor keeps it from being acted on (08 R228, R230). -/
def badDescriptor (c : Nat) (b : Bytes) (s : State) : Bool :=
  fld b 24 8 % 64 != 0 || fld b 32 4 % 64 != 0 || decide (2 ^ 24 < fld b 32 4) || !s.inWindow c (fld b 24 8) (fld b 32 4)
    || bit (fld b 36 4) 0 && !(fld b 40 8 % 8 == 0 && s.inWindow c (fld b 40 8) 8)

section Descriptor
variable {s : State} {c : Nat} {w : ShareWatch} {b : Bytes}

theorem takeDescriptor_bad (hbad : badDescriptor c b s = true) : takeDescriptor c b s =
    (s.onWatch c (ShareWatch.taken (fld b 0 8) s.now)).onWatch c fun w => { w with bad := w.bad + 1 } := by
  rw [takeDescriptor]
  dsimp only
  refine if_pos (Eq.trans ?_ hbad)
  rw [badDescriptor]
  cases bit (fld b 36 4) 0 <;> rfl

theorem takeDescriptor_free (hw : s.watch? c = some w) (hgood : badDescriptor c b s = false)
    (hfree : ∀ e ∈ w.entries, e.hits (BitVec.ofNat 32 (fld b 8 4)) (fld b 16 8) = false) : takeDescriptor c b s =
      oweRelease c (if bit (fld b 36 4) 0 then some (fld b 40 8) else none) (fld b 0 8)
        (s.onWatch c (ShareWatch.taken (fld b 0 8) s.now)) := by
  have hnone : (sortBy (·.idx) w.entries).find? (fun e => e.hits (BitVec.ofNat 32 (fld b 8 4)) (fld b 16 8)) = none :=
    List.find?_eq_none.mpr fun e he => by simp [hfree e (mem_sortBy.mp he)]
  rw [badDescriptor] at hgood
  generalize hres : takeDescriptor c b s = res
  rw [takeDescriptor] at hres
  dsimp only at hres
  generalize hs1 : State.onWatch s c _ = s1 at hres
  have hwatch : s1.watch? c = some (w.taken (fld b 0 8) s.now) :=
    hs1 ▸ watch?_onWatch (f := ShareWatch.taken (fld b 0 8) s.now) (fun _ => rfl) hw
  rw [if_neg, hwatch, Option.bind_some] at hres
  · rw [show List.find? _ (sortBy _ (ShareWatch.taken _ _ w).entries) = none from hnone] at hres
    exact hres.symm.trans (hs1 ▸ rfl)
  · refine fun h => Bool.false_ne_true (hgood.symm.trans (Eq.trans ?_ h))
    cases bit (fld b 36 4) 0 <;> rfl

/-- The dump of a descriptor's range by an entry (08 R231, R232). -/
def WatchEntry.startDump (e : WatchEntry) (b : Bytes) : Dump :=
  let addr := fld b 24 8
  let len := fld b 32 4
  let top := if e.dlen == 0 then len else min len (e.off + e.dlen)
  { idx := e.idx, tensor := BitVec.ofNat 32 (fld b 8 4), step := fld b 16 8, dseq := fld b 0 8
    rel := if bit (fld b 36 4) 0 then some (fld b 40 8) else none
    start := addr + e.off, issue := addr + e.off, next := addr + e.off, fin := addr + max top e.off
    flight := [], early := [], ks := [], part := 0, lines := [], poison := [], failed := false, gone := false }

/-- An entry whose dump starts: its COUNT falls by one, and at 0 it is gone (08 R231). -/
def ShareWatch.dumping (e : WatchEntry) (b : Bytes) (w : ShareWatch) : ShareWatch := { w with
  entries := (mapIf (·.idx == e.idx) (fun e => { e with count := e.count - 1 }) w.entries).filter (0 < ·.count)
  dump := some (e.startDump b) }

theorem takeDescriptor_hit {e : WatchEntry} (hw : s.watch? c = some w) (hgood : badDescriptor c b s = false)
    (hfind : (sortBy (·.idx) w.entries).find? (fun e => e.hits (BitVec.ofNat 32 (fld b 8 4)) (fld b 16 8)) = some e)
    (hrange : (e.startDump b).issue ≠ (e.startDump b).fin) : takeDescriptor c b s =
      watchMark c e.idx 1 (fld b 16 8) (BitVec.ofNat 32 (fld b 8 4)).toNat
        ((s.onWatch c (ShareWatch.taken (fld b 0 8) s.now)).onWatch c (ShareWatch.dumping e b)) := by
  rw [badDescriptor] at hgood
  generalize hres : takeDescriptor c b s = res
  rw [takeDescriptor] at hres
  dsimp only at hres
  generalize hs1 : State.onWatch s c _ = s1 at hres
  have hwatch : s1.watch? c = some (w.taken (fld b 0 8) s.now) :=
    hs1 ▸ watch?_onWatch (f := ShareWatch.taken (fld b 0 8) s.now) (fun _ => rfl) hw
  rw [if_neg, hwatch, Option.bind_some] at hres
  · rw [show List.find? _ (sortBy _ (ShareWatch.taken _ _ w).entries) = some e from hfind] at hres
    dsimp only at hres
    rw [if_neg (by simpa [WatchEntry.startDump] using hrange)] at hres
    exact hres.symm.trans (hs1 ▸ rfl)
  · refine fun h => Bool.false_ne_true (hgood.symm.trans (Eq.trans ?_ h))
    cases bit (fld b 36 4) 0 <;> rfl

end Descriptor

/-! ## The lines of a dump -/

section Line
variable {s : State} {c : Nat} {w : ShareWatch} {d : Dump} {l : Bytes} {bad : Bool}

/-- A dump after a line whose turn it was (08 R232). -/
def Dump.took (l : Bytes) (bad : Bool) (d : Dump) : Dump := { d with
  lines := d.lines ++ [slice l 0 64]
  poison := if bad then d.poison ++ [d.lines.length] else d.poison
  next := d.next + 64
  early := d.early.filter (·.1 != d.next) }

theorem takeLine_open (hopen : d.lines.length + 1 ≠ partLines s.cfg.shareCount ∨ d.next + 64 = if d.gone then d.issue else d.fin) :
    takeLine c l bad d s = s.onWatch c fun w => { w with dump := some (d.took l bad) } := by
  rw [takeLine]
  dsimp only
  rw [if_neg]
  · rfl
  · simp only [List.length_append, List.length_singleton, Bool.and_eq_true, beq_iff_eq, bne_iff_ne, ne_eq]
    rintro ⟨hfull, hmore⟩
    obtain h | h := hopen
    · exact h hfull
    · exact hmore h

theorem takeLines_next (hw : s.watch? c = some w) (hd : w.dump = some d) (hearly : d.early = [(d.next, l, bad)]) :
    takeLines c 1 s = takeLine c l bad d s := by
  rw [takeLines, hw, Option.bind_some, hd]
  dsimp only
  rw [hearly, List.find?_cons, beq_self_eq_true]
  rfl

theorem takeLines_ahead {a : Nat} (hw : s.watch? c = some w) (hd : w.dump = some d) (hearly : d.early = [(a, l, bad)])
    (ha : a ≠ d.next) : takeLines c 1 s = s := by
  rw [takeLines, hw, Option.bind_some, hd]
  dsimp only
  rw [hearly, List.find?_cons, beq_eq_false_iff_ne.mpr ha]
  rfl

theorem settleDump_open (hw : s.watch? c = some w) (hd : w.dump = some d) (hfailed : d.failed = false) (hgone : d.gone = false)
    (hmore : d.next ≠ d.fin) : settleDump c s = s := by
  rw [settleDump, hw, Option.bind_some, hd]
  dsimp only
  rw [hfailed, hgone, if_neg Bool.false_ne_true, if_neg Bool.false_ne_true, if_neg (by simpa using hmore)]

theorem settleDump_last (hw : s.watch? c = some w) (hd : w.dump = some d) (hfailed : d.failed = false) (hgone : d.gone = false)
    (hlast : d.next = d.fin) : settleDump c s = endDump c d 1 s := by
  rw [settleDump, hw, Option.bind_some, hd]
  dsimp only
  rw [hfailed, hgone, if_neg Bool.false_ne_true, if_neg Bool.false_ne_true, if_pos (beq_iff_eq.mpr hlast)]

/-- A dump whose line has returned, ahead of what it takes of it (02 R56). -/
def Dump.back (g : BitVec 6) (a : Nat) (l : Bytes) (bad : Bool) (d : Dump) : Dump :=
  { d with flight := d.flight.filter (·.1 != g), early := d.early ++ [(a, l, bad)] }

theorem exec_watchDumpRead {g : BitVec 6} {a : Nat} (hruns : s.runsAs .leaf = true) (hw : s.watch? c = some w)
    (hd : w.dump = some d) (hflight : d.flight.find? (·.1 == g) = some (g, a)) (hearly : d.early = [])
    (hlate : s.lateReads.any (·.tags.contains g) = false) :
    exec (.watchDumpRead c { tag := g, ans := .data l }) s = .next (settleDump c (takeLines c 1
        (s.onWatch c fun w => { w with dump := some (d.back g a l false) }))) ∧
      exec (.watchDumpRead c { tag := g, ans := .poisoned l }) s = .next (settleDump c (hfPoison 1 (takeLines c 1
        (s.onWatch c fun w => { w with dump := some (d.back g a l true) })))) := by
  have hnone : s.lateReads.find? (·.tags.contains g) = none := by
    rw [List.find?_eq_none]
    simpa using hlate
  have hone : d.early.length + 1 = 1 := by rw [hearly, List.length_nil]
  constructor
  all_goals
    rw [exec, execWatchDumpRead, onLeaf_of_runs hruns]
    dsimp only
    rw [hnone, hw, Option.bind_some, hd]
    dsimp only
    rw [hflight]
    dsimp only
    rw [hone]
    rfl

theorem back_took {g : BitVec 6} (hearly : d.early = []) : (d.back g d.next l bad).took l bad = { d with
    flight := d.flight.filter (·.1 != g)
    lines := d.lines ++ [slice l 0 64]
    poison := if bad then d.poison ++ [d.lines.length] else d.poison
    next := d.next + 64 } := by
  rw [Dump.back, Dump.took]
  dsimp only
  rw [hearly, List.nil_append, List.filter_cons_of_neg (by simp), List.filter_nil]

/-- A returned line whose turn it is joins the part (08 R232). -/
theorem takeLines_took {g : BitVec 6} (hw : s.watch? c = some w) (hearly : d.early = [])
    (hopen : d.lines.length + 1 ≠ partLines s.cfg.shareCount ∨ d.next + 64 = if d.gone then d.issue else d.fin) :
    takeLines c 1 (s.onWatch c fun w => { w with dump := some (d.back g d.next l bad) }) =
      s.onWatch c fun w => { w with dump := some ((d.back g d.next l bad).took l bad) } := by
  rw [takeLines_next (watch?_onWatch (f := fun w => { w with dump := some (d.back g d.next l bad) }) (fun _ => rfl) hw) rfl
    (show _ ++ [_] = _ by rw [hearly, List.nil_append]; rfl), takeLine_open (s := s.onWatch c fun w => { w with dump := some (d.back g d.next l bad) }) (d := d.back g d.next l bad) hopen,
    onWatch_onWatch (f := fun w => { w with dump := some (d.back g d.next l bad) }) (fun _ => rfl)]

/-- A part leaves with the share's TSEQ (08 R226). -/
theorem sendPart_eq (hw : s.watch? c = some w) (d : Dump) (status : Nat) : ∃ lanes, sendPart c d status s =
    { s.onShareTrc c fun x => { x with tseq := x.tseq + 1 } with lanes := lanes } := by
  rw [sendPart, hw]
  dsimp only
  rw [State.sendNumbered, State.sendShare]
  generalize hsent : State.sendMsgAll s _ _ _ _ _ _ = t
  obtain ⟨lanes, rfl⟩ : LanesOnly s t := hsent ▸ sendMsgAll_lanesOnly ..
  exact ⟨lanes, rfl⟩

/-- The end of a dump: its last part, its mark and the release word that it owes (08 R232, R234). -/
theorem endDump_spec (hw : s.watch? c = some w) (d : Dump) : ∃ y, (endDump c d 1 s).watch? c = some y ∧ y.dump = none ∧
    (∀ a, d.rel = some a → y.releases = w.releases ++ [(a, d.dseq)]) ∧ (d.rel = none → y.releases = w.releases) ∧
    (endDump c d 1 s).trc =
      (watchMark c d.idx 2 d.step d.tensor.toNat (s.onShareTrc c fun x => { x with tseq := x.tseq + 1 })).trc ∧
    ∃ watch trc lanes, endDump c d 1 s = { s with watch := watch, trc := trc, lanes := lanes } := by
  obtain ⟨lanes, hsent⟩ := sendPart_eq hw d 1
  have hw1 := watch?_onWatch (f := fun w => { w with dump := none }) (fun _ => rfl) hw
  unfold endDump
  rw [hsent]
  dsimp only
  rw [if_neg (by decide)]
  cases hrel : d.rel with
  | none => exact ⟨_, hw1, rfl, fun a h => (nomatch h), fun _ => rfl, rfl, _, _, _, rfl⟩
  | some a =>
    have hw2 := watch?_onWatch (f := fun w => { w with releases := w.releases ++ [(a, d.dseq)] }) (fun _ => rfl) hw1
    refine ⟨_, hw2, rfl, fun a' h => ?_, fun h => (nomatch h), rfl, _, _, _, rfl⟩
    obtain rfl := Option.some.inj h
    rfl

theorem dumping_entries {e : WatchEntry} {b : Bytes} (hentries : w.entries = [e]) (hcount : 0 < e.count) :
    (w.dumping e b).entries = if e.count = 1 then [] else [{ e with count := e.count - 1 }] := by
  rw [ShareWatch.dumping]
  dsimp only
  rw [hentries, mapIf, List.map_singleton, if_pos (beq_self_eq_true e.idx)]
  split
  · next hone => rw [List.filter_cons_of_neg (by simp [hone]), List.filter_nil]
  · next hmore => rw [List.filter_cons_of_pos (by simp only [decide_eq_true_eq]; omega), List.filter_nil]

/-- A watch mark carries the low halves of the step and of the tensor (08 R224). -/
theorem watchMark_trc {u : State} (h : u.trc = s.trc) (idx phase step n : Nat) :
    (watchMark c idx phase step (BitVec.ofNat 32 n).toNat u).trc = (watchMark c idx phase step n s).trc := by
  simp only [watchMark, putMark, State.onShareTrc, h, BitVec.toNat_ofNat, Nat.mod_mod]

end Line

theorem exec_watchFeedRead_fault {s : State} {c base f : Nat} {w : ShareWatch} (hruns : s.runsAs .leaf = true)
    (hw : s.watch? c = some w) (hreading : w.reading.isSome = true) (hfeed : w.feed = some (base, f)) :
    exec (.watchFeedRead c .fault) s = .next (hfFaultAt (base + (w.dseq - 1) % f * 64)
      (s.onWatch c fun w => { w with reading := none, feed := none })) := by
  rw [exec, execWatchFeedRead, onLeaf_of_runs hruns, hw]
  dsimp only
  rw [if_neg (by simpa [Option.isSome_iff_ne_none] using hreading), hfeed]

/-- Settles O39, by the feed entry's returns and by the lines of a dump. -/
theorem watchFeedAndDump : Obligations.WatchFeedAndDump := by
  refine ⟨fun s c w hruns hw hreading hwant hdump hpoll hactive => ?poll,
    fun s c w fd b hruns hw hreading hfeed hbad => ?again, fun s c w fd b hruns hw hreading hfeed hcrc hseq hbad => ?bad,
    fun s c w fd b a hruns hw hreading hfeed hcrc hseq haddr hlen hmax hwin hhold ha halign hrel hfree => ?hold,
    fun s c w fd b e hruns hw hreading hfeed hcrc hseq haddr hlen hmax hpos hwin hnohold hentries hhit hoff hdlen => ?hit,
    fun s c w base f hruns hw hreading hfeed => ?fault,
    fun s c w d l g hruns hw hd hflight hearly hgone hfailed hmore hpart hlate => ?line,
    fun s c w d l g a hruns hw hd hflight ha hearly hgone hfailed hmore hlate => ?ahead,
    fun s c w d l g hruns hw hd hflight hearly hgone hfailed hlast hlate => ?last,
    fun s c r x y hruns hfind hctx => ?late⟩
  case poll =>
    have hw1 := watch?_onWatch (f := ShareWatch.ringTaken) ringTaken_ctx hw
    have hw2 := watch?_onWatch (f := fun w => { w with wantFeed := w.feed.isSome }) (fun _ => rfl) hw1
    refine ⟨_, _, exec_watchFeedPoll hruns hw hreading hwant hdump hpoll hactive, hw2, fun hnext => ?_, fun b f q hnext hf => ?_,
      fun b q hnext => ?_, rfl⟩
    · rw [ringTaken_none hnext]
    · rw [ringTaken_some hnext, if_neg hf]
      rfl
    · rw [ringTaken_some hnext, if_pos rfl]
      rfl
  case again =>
    refine ⟨_, exec_watchFeedRead_again hruns hw hreading hfeed hbad, watch?_onWatch ?_ hw, rfl⟩
    exact fun _ => rfl
  case bad =>
    have hw1 := watch?_onWatch (f := ShareWatch.received w.dseq (fld (slice b 0 64) 0 8)) (fun _ => rfl) hw
    have hbad1 : badDescriptor c (slice b 0 64) (s.onWatch c (ShareWatch.received w.dseq (fld (slice b 0 64) 0 8))) = true := by
      rw [badDescriptor]
      obtain h | h | h := hbad
      · simp [h]
      · simp [h]
      · rw [decide_eq_true h]
        simp
    have hw2 := watch?_onWatch (f := ShareWatch.taken (fld (slice b 0 64) 0 8) s.now) (fun _ => rfl) hw1
    have hw3 := watch?_onWatch (f := fun w => { w with bad := w.bad + 1 }) (fun _ => rfl) hw2
    refine ⟨_, _, (exec_watchFeedRead_good hruns hw hreading hfeed hcrc hseq).trans
      (congrArg Host.Outcome.next (takeDescriptor_bad hbad1)), hw3, rfl, rfl, rfl, rfl, rfl, rfl, fun hskip => ?_, fun heq => ?_,
      rfl⟩
    · exact if_pos hskip
    · exact if_neg (by omega)
  case hold =>
    have hw1 := watch?_onWatch (f := ShareWatch.received w.dseq (fld (slice b 0 64) 0 8)) (fun _ => rfl) hw
    have hgood : badDescriptor c (slice b 0 64) (s.onWatch c (ShareWatch.received w.dseq (fld (slice b 0 64) 0 8))) = false := by
      subst ha
      have hwin' : (s.onWatch c (ShareWatch.received w.dseq (fld (slice b 0 64) 0 8))).inWindow c
        (fld (slice b 0 64) 24 8) (fld (slice b 0 64) 32 4) = true := hwin
      have hrel' : (s.onWatch c (ShareWatch.received w.dseq (fld (slice b 0 64) 0 8))).inWindow c
        (fld (slice b 0 64) 40 8) 8 = true := hrel
      rw [badDescriptor, hwin', hrel', haddr, hlen, hhold, halign, decide_eq_false (Nat.not_lt.mpr hmax)]
      rfl
    have hw2 := watch?_onWatch (f := ShareWatch.taken (fld (slice b 0 64) 0 8) s.now) (fun _ => rfl) hw1
    have hw3 := watch?_onWatch (f := fun w => { w with releases := w.releases ++ [(a, fld (slice b 0 64) 0 8)] }) (fun _ => rfl) hw2
    have htake := takeDescriptor_free hw1 hgood hfree
    rw [hhold, if_pos rfl, ← ha] at htake
    exact ⟨_, _, (exec_watchFeedRead_good hruns hw hreading hfeed hcrc (Nat.le_of_eq hseq)).trans
      (congrArg Host.Outcome.next htake), hw3, rfl, rfl, rfl, rfl⟩
  case hit =>
    have hw1 := watch?_onWatch (f := ShareWatch.received w.dseq (fld (slice b 0 64) 0 8)) (fun _ => rfl) hw
    have hgood : badDescriptor c (slice b 0 64) (s.onWatch c (ShareWatch.received w.dseq (fld (slice b 0 64) 0 8))) = false := by
      have hwin' : (s.onWatch c (ShareWatch.received w.dseq (fld (slice b 0 64) 0 8))).inWindow c
        (fld (slice b 0 64) 24 8) (fld (slice b 0 64) 32 4) = true := hwin
      rw [badDescriptor, hwin', haddr, hlen, hnohold, decide_eq_false (Nat.not_lt.mpr hmax)]
      rfl
    have hfind : (sortBy (·.idx) (w.received w.dseq (fld (slice b 0 64) 0 8)).entries).find? (fun e =>
        e.hits (BitVec.ofNat 32 (fld (slice b 0 64) 8 4)) (fld (slice b 0 64) 16 8)) = some e := by
      rw [show (w.received w.dseq (fld (slice b 0 64) 0 8)).entries = [e] from hentries]
      exact List.find?_cons_of_pos hhit
    have hfin : (e.startDump (slice b 0 64)).fin = fld (slice b 0 64) 24 8 + fld (slice b 0 64) 32 4 := by
      rw [WatchEntry.startDump]
      dsimp only
      rw [hdlen, hoff, Nat.max_zero]
      rfl
    have hissue : (e.startDump (slice b 0 64)).issue = fld (slice b 0 64) 24 8 := congrArg (_ + ·) hoff
    have hw2 := watch?_onWatch (f := ShareWatch.taken (fld (slice b 0 64) 0 8) s.now) (fun _ => rfl) hw1
    have hw3 := watch?_onWatch (f := ShareWatch.dumping e (slice b 0 64)) (fun _ => rfl) hw2
    refine ⟨_, _, e.startDump (slice b 0 64), (exec_watchFeedRead_good hruns hw hreading hfeed hcrc (Nat.le_of_eq hseq)).trans
      (congrArg Host.Outcome.next (takeDescriptor_hit hw1 hgood hfind (by omega))), hw3, rfl, rfl, hissue, hissue, hfin, rfl,
      ?_, ?_, ?_, rfl⟩
    · rw [WatchEntry.startDump, hnohold]
      rfl
    · have hcount : 0 < e.count := by
        simp only [WatchEntry.hits, Bool.and_eq_true, decide_eq_true_eq] at hhit
        exact hhit.1.2
      exact dumping_entries hentries hcount
    · refine watchMark_trc (s := s) ?_ _ _ _ _
      rfl
  case fault =>
    have hw1 := watch?_onWatch (f := fun w => { w with reading := none, feed := none }) (fun _ => rfl) hw
    exact ⟨_, exec_watchFeedRead_fault hruns hw hreading hfeed, hw1, rfl, rfl, rfl⟩
  case line =>
    obtain ⟨hgood, hpoisoned⟩ := exec_watchDumpRead (l := l) hruns hw hd hflight hearly hlate
    have hopen : d.lines.length + 1 ≠ partLines s.cfg.shareCount ∨ d.next + 64 = if d.gone then d.issue else d.fin :=
      .inl hpart
    have hw1 : ∀ d1 : Dump, (s.onWatch c fun w => { w with dump := some d1 }).watch? c = some { w with dump := some d1 } :=
      fun d1 => watch?_onWatch (f := fun w => { w with dump := some d1 }) (fun _ => rfl) hw
    have hw2 : ∀ d1 : Dump, (hfPoison 1 (s.onWatch c fun w => { w with dump := some d1 })).watch? c =
      some { w with dump := some d1 } := hw1
    rw [takeLines_took hw hearly hopen, settleDump_open (hw1 ((d.back g d.next l false).took l false)) rfl hfailed hgone hmore,
      back_took hearly] at hgood
    rw [takeLines_took hw hearly hopen, settleDump_open (hw2 ((d.back g d.next l true).took l true)) rfl hfailed hgone hmore,
      back_took hearly] at hpoisoned
    refine ⟨_, _, hgood, hpoisoned, hw1 _, rfl, ?_⟩
    rw [hw2]
    rfl
  case ahead =>
    obtain ⟨hgood, -⟩ := exec_watchDumpRead (l := l) hruns hw hd hflight hearly hlate
    have hw1 := watch?_onWatch (f := fun w => { w with dump := some (d.back g a l false) }) (fun _ => rfl) hw
    have hback : d.back g a l false = { d with flight := d.flight.filter (·.1 != g), early := [(a, l, false)] } := by
      rw [Dump.back, hearly, List.nil_append]
    rw [takeLines_ahead hw1 rfl (congrArg Dump.early hback) ha, settleDump_open hw1 rfl hfailed hgone hmore] at hgood
    rw [hback] at hgood hw1
    exact ⟨_, hgood, hw1, rfl⟩
  case last =>
    obtain ⟨hgood, -⟩ := exec_watchDumpRead (l := l) hruns hw hd hflight hearly hlate
    have hopen : d.lines.length + 1 ≠ partLines s.cfg.shareCount ∨ d.next + 64 = if d.gone then d.issue else d.fin :=
      .inr (by rw [hgone]; exact hlast)
    have hw1 := watch?_onWatch (f := fun w => { w with dump := some ((d.back g d.next l false).took l false) }) (fun _ => rfl)
      hw
    rw [takeLines_took hw hearly hopen, settleDump_last hw1 rfl hfailed hgone hlast] at hgood
    obtain ⟨y, hy, hnone, hrel, hnorel, htrc, watch, trc, lanes, hframe⟩ := endDump_spec hw1
      ((d.back g d.next l false).took l false)
    refine ⟨_, y, hgood, hy, hnone, hrel, hnorel, htrc, ?_⟩
    rw [hframe]
    rfl
  case late =>
    have hexec : exec (.watchDumpRead c r) s = .next (dropLate r.tag x s) := by
      rw [exec, execWatchDumpRead, onLeaf_of_runs hruns, hfind]
    have hcounted : ∀ u : State, u.ctxs = s.ctxs → (u.onCtx x.ctx fun c => { c with genDiscard := c.genDiscard + 1 }).ctx? x.ctx =
        some { y with genDiscard := y.genDiscard + 1 } := fun u hu => by
      have hkept : u.ctx? x.ctx = some y := by rw [← hctx, State.ctx?, State.ctx?, hu]
      exact (ctx?_onCtx u (fun c => { c with genDiscard := c.genDiscard + 1 }) (fun _ => rfl) x.ctx x.ctx).trans
        ((if_pos rfl).trans (congrArg (Option.map _) hkept))
    generalize hleft : x.tags.filter (· != r.tag) = tags
    refine ⟨_, { y with genDiscard := y.genDiscard + 1 }, hexec, ?_⟩
    rw [dropLate]
    dsimp only
    rw [hleft]
    cases tags with
    | nil =>
      cases x.rel with
      | none => exact ⟨hcounted _ rfl, rfl, rfl, (List.append_nil _).symm⟩
      | some p => exact ⟨hcounted _ rfl, rfl, rfl, rfl⟩
    | cons t ts => exact ⟨hcounted _ rfl, rfl, rfl, (List.append_nil _).symm⟩

end Sys2Proof.Machine

end


section
/-!
PROOFS. The timed global stop, its scan-out and its release (08 R236 to R241).
-/

namespace Sys2Proof.Machine

/-! ## Marks and the scan's messages -/

/-- Only messages on the lanes and the numbering of the shares have changed. -/
def SentOnly (s t : State) : Prop := ∃ lanes trc, t = { s with lanes := lanes, trc := trc }

theorem SentOnly.refl (s : State) : SentOnly s s := ⟨_, _, rfl⟩

theorem SentOnly.trans {s t u : State} (h : SentOnly s t) (k : SentOnly t u) : SentOnly s u := by
  obtain ⟨_, _, rfl⟩ := h
  obtain ⟨_, _, rfl⟩ := k
  exact ⟨_, _, rfl⟩

theorem sendNumbered_sentOnly (s : State) (c : Nat) (gen : BitVec 16) (body : Nat → Bytes) :
    SentOnly s (s.sendNumbered c gen body) := by
  rw [State.sendNumbered, State.sendShare]
  generalize hsent : State.sendMsgAll s _ _ _ _ _ _ = t
  obtain ⟨lanes, rfl⟩ : LanesOnly s t := hsent ▸ sendMsgAll_lanesOnly ..
  exact ⟨_, _, rfl⟩

theorem sendScanPart_sentOnly (seg : ScanSeg) (part : Nat) (last : Bool) (data : Bytes) (s : State) :
    SentOnly s (sendScanPart seg part last data s) := by
  unfold sendScanPart
  dsimp only
  exact sendNumbered_sentOnly s _ _ _

theorem sendScan_sentOnly (seg : ScanSeg) (n part : Nat) (data : Bytes) (s : State) :
    SentOnly s (sendScan seg n part data s) := by
  induction n generalizing part data s with
  | zero => exact .refl s
  | succ n ih =>
    unfold sendScan
    dsimp only
    split
    · exact sendScanPart_sentOnly _ _ _ _ s
    · exact (sendScanPart_sentOnly _ _ _ _ s).trans (ih _ _ _)

/-! ## The plan -/

section Plan
variable {s : State}

theorem beginScan_empty (h : s.cfg.scanPlan = []) : beginScan s = { s with stop := { s.stop with phase := .stopped } } := by
  rw [beginScan, if_pos (List.isEmpty_iff.mpr h)]

theorem beginScan_plan (h : s.cfg.scanPlan ≠ []) : beginScan s = { s with
    stop := { s.stop with phase := .scanning, seg := 0, segSince := s.now, leaving := false }
    pins := { s.pins with scnTms := false } } := by
  rw [beginScan, if_neg (by rwa [List.isEmpty_iff])]

/-- A segment of the plan with its feedback, a second time with VERIFY, and its messages (08 R240). -/
def scanStep (seg : ScanSeg) (bits second : List Bool) (s : State) : State :=
  let b := bits.take seg.drLen
  let fed := b :: (if seg.verify then [second.take seg.drLen] else [])
  let s0 := s.emits (fed.map fun x => .scanShift seg.ir seg.irLen x)
  let s1 := if seg.verify && second.take seg.drLen != b then s0.stopBit 24 else s0
  let data := segBytes b
  sendScan seg (data.length / 16384 + 1) 0 data s1

/-- The segment just walked is counted (08 R240). -/
def State.segCounted (s : State) (now : Ticks) : State :=
  { s with stop := { s.stop with seg := s.stop.seg + 1, segDone := s.stop.segDone + 1, segSince := now } }

theorem exec_scanSegment {seg : ScanSeg} {bits second : List Bool} (hruns : s.runsAs .leaf = true)
    (hphase : s.stop.phase = .scanning) (hseg : s.cfg.scanPlan[s.stop.seg]? = some seg) :
    exec (.scanSegment bits second) s = .next (
      let s3 := (scanStep seg bits second s).segCounted s.now
      if s3.stop.leaving then abandonScan s3
      else if s3.cfg.scanPlan.length ≤ s3.stop.seg then endScan s3 else s3) := by
  rw [exec, execScanSegment, onLeaf_of_runs hruns, hphase, hseg]
  rfl

/-- A segment sends and shifts; a VERIFY that differs sets bit 24 (08 R240). -/
theorem scanStep_spec (seg : ScanSeg) (bits second : List Bool) (s : State) : ∃ lanes trc sticky raised,
    scanStep seg bits second s = { s with
      lanes := lanes, trc := trc, sticky := sticky, raisedNow := raised
      out := s.out ++ (bits.take seg.drLen :: (if seg.verify then [second.take seg.drLen] else [])).map
        (.scanShift seg.ir seg.irLen ·) } ∧
    sticky = if seg.verify && second.take seg.drLen != bits.take seg.drLen then
      { s.sticky with trc := orBit s.sticky.trc 24 } else s.sticky := by
  unfold scanStep
  dsimp only
  generalize hs1 : (if (seg.verify && second.take seg.drLen != bits.take seg.drLen) = true then _ else _) = s1
  obtain ⟨lanes, trc, hsent⟩ := sendScan_sentOnly seg ((segBytes (bits.take seg.drLen)).length / 16384 + 1) 0
    (segBytes (bits.take seg.drLen)) s1
  rw [hsent, ← hs1]
  split <;> exact ⟨lanes, trc, _, _, rfl, rfl⟩

end Plan

/-- A bit that was set reads 1. -/
theorem orBit_self (w : BitVec 32) {i : Nat} (h : i < 32) : (orBit w i).getLsbD i = true := by
  have hone : (1#32 <<< i).getLsbD i = true := by simp [h]
  rw [orBit, BitVec.getLsbD_or, hone, Bool.or_true]

/-! ## Release -/

section Release
variable {s : State}

theorem releaseStop_scanning (h : s.stop.phase = .scanning) :
    releaseStop s = { s with stop := { s.stop with leaving := true } } := by
  rw [releaseStop, h]
  rfl

theorem releaseStop_other (h : s.stop.phase ≠ .scanning) : releaseStop s = dropStop s := by
  rw [releaseStop, if_neg (by simpa using h)]

end Release

/-- Settles O40, by each event of the stop in order. -/
theorem timedStopAndScan : Obligations.TimedStopAndScan := by
  refine ⟨fun s hruns hphase hconf htime => ?rise, fun s hruns hout hnew hphase => ?done,
    fun s hruns hphase htime => ?wait, fun s bits second seg hruns hphase hstay hseg => ?segment,
    fun s bits second seg hruns hphase hleave hseg => ?abandon, fun s t hruns hrel hactive htime => ?release,
    fun s hruns hactive hstay htime => ?auto⟩
  case rise =>
    have hcond : (s.stop.phase == .armed && s.stop.confirmed && decide (s.stop.at_ ≤ s.now)) = true := by
      rw [hphase, hconf, decide_eq_true htime]
      rfl
    have hexec : exec .stopOutRise s = .next (stopMark 1 s.now { s with
        stop := { s.stop with
          phase := .stopping, doneSeen := false, release := none, rose := s.now, seg := 0, segDone := 0, leaving := false }
        pins := { s.pins with stopOut := true } }) := by
      rw [exec, execStopOutRise, onLeaf_of_runs hruns]
      exact congrArg Host.Outcome.next (if_pos hcond)
    exact ⟨_, hexec, rfl, rfl, rfl, rfl⟩
  case done =>
    have hcond : (s.pins.stopOut && !s.stop.doneSeen) = true := by
      rw [hout, hnew]
      rfl
    have hexec : exec .stopDone s =
        .next (beginScan (stopMark 2 s.now { s with stop := { s.stop with doneSeen := true } })) := by
      rw [exec, execStopDone, onLeaf_of_runs hruns]
      exact congrArg Host.Outcome.next ((if_pos hcond).trans (if_pos (beq_iff_eq.mpr hphase)))
    by_cases hplan : s.cfg.scanPlan = []
    · rw [beginScan_empty (s := stopMark 2 s.now { s with stop := { s.stop with doneSeen := true } }) hplan] at hexec
      exact ⟨_, hexec, rfl, rfl, fun _ => ⟨rfl, rfl⟩, fun h => absurd hplan h, rfl⟩
    · rw [beginScan_plan (s := stopMark 2 s.now { s with stop := { s.stop with doneSeen := true } }) hplan] at hexec
      exact ⟨_, hexec, rfl, rfl, fun h => absurd h hplan, fun _ => ⟨rfl, rfl, rfl⟩, rfl⟩
  case wait =>
    have hcond : (s.stop.phase == .stopping && decide (s.stop.rose + nsT s.cfg.stopDoneWaitNs ≤ s.now)) = true := by
      rw [hphase, decide_eq_true htime]
      rfl
    have hexec : exec .stopDoneWait s = .next (beginScan (stopMark 4 s.now (s.stopBit 28))) := by
      rw [exec, execStopDoneWait, onLeaf_of_runs hruns]
      exact congrArg Host.Outcome.next (if_pos hcond)
    by_cases hplan : s.cfg.scanPlan = []
    · rw [beginScan_empty (s := stopMark 4 s.now (s.stopBit 28)) hplan] at hexec
      exact ⟨_, hexec, rfl, rfl, fun _ => rfl, fun h => absurd hplan h, rfl⟩
    · rw [beginScan_plan (s := stopMark 4 s.now (s.stopBit 28)) hplan] at hexec
      exact ⟨_, hexec, rfl, rfl, fun h => absurd h hplan, fun _ => rfl, rfl⟩
  case segment =>
    have hexec := exec_scanSegment (bits := bits) (second := second) hruns hphase hseg
    obtain ⟨lanes, trc, sticky, raised, hstep, hsticky⟩ := scanStep_spec seg bits second s
    rw [hstep] at hexec
    dsimp only at hexec
    rw [State.segCounted, if_neg (by simpa using hstay)] at hexec
    have hdiffers : seg.verify = true → second.take seg.drLen ≠ bits.take seg.drLen →
        sticky = { s.sticky with trc := orBit s.sticky.trc 24 } := fun hverify hne => by
      rw [hsticky, if_pos (by simp [hverify, hne])]
    have hsame : (seg.verify = false ∨ second.take seg.drLen = bits.take seg.drLen) → sticky = s.sticky := fun h => by
      rw [hsticky, if_neg (by obtain h | h := h <;> simp [h])]
    by_cases hlast : s.cfg.scanPlan.length ≤ s.stop.seg + 1
    · rw [if_pos hlast] at hexec
      exact ⟨_, hexec, rfl, rfl, rfl, fun h => absurd h (Nat.not_lt.mpr hlast), fun _ => ⟨rfl, rfl⟩, hdiffers,
        hsame, rfl⟩
    · rw [if_neg hlast] at hexec
      exact ⟨_, hexec, rfl, rfl, rfl, fun _ => ⟨hphase, rfl⟩, fun h => absurd (Nat.le_of_eq h.symm) hlast, hdiffers,
        hsame, rfl⟩
  case abandon =>
    have hexec := exec_scanSegment (bits := bits) (second := second) hruns hphase hseg
    obtain ⟨lanes, trc, sticky, raised, hstep, -⟩ := scanStep_spec seg bits second s
    rw [hstep] at hexec
    dsimp only at hexec
    rw [State.segCounted, if_pos hleave] at hexec
    refine ⟨_, hexec, rfl, rfl, rfl, ?_⟩
    exact orBit_self sticky.trc (by decide)
  case release =>
    have hexec : exec .stopReleaseTime s = .next (releaseStop s) := by
      rw [exec, execStopReleaseTime, onLeaf_of_runs hruns, hrel]
      exact congrArg Host.Outcome.next (if_pos (by rw [hactive, decide_eq_true htime]; rfl))
    by_cases hphase : s.stop.phase = .scanning
    · rw [releaseStop_scanning hphase] at hexec
      exact ⟨_, hexec, fun _ => rfl, fun h => absurd hphase h⟩
    · rw [releaseStop_other hphase] at hexec
      exact ⟨_, hexec, fun h => absurd h hphase, fun _ => ⟨rfl, rfl⟩⟩
  case auto =>
    have hexec : exec .autoReleased s = .next (releaseStop (s.stopBit 27)) := by
      rw [exec, execAutoReleased, onLeaf_of_runs hruns]
      exact congrArg Host.Outcome.next (if_pos (by rw [hactive, hstay, decide_eq_true htime]; rfl))
    by_cases hphase : s.stop.phase = .scanning
    · rw [releaseStop_scanning (s := s.stopBit 27) hphase] at hexec
      exact ⟨_, hexec, rfl, fun _ => ⟨rfl, rfl, rfl⟩, fun h => absurd hphase h, rfl⟩
    · rw [releaseStop_other (s := s.stopBit 27) hphase] at hexec
      exact ⟨_, hexec, rfl, fun h => absurd h hphase, fun _ => ⟨rfl, rfl, rfl⟩, rfl⟩

end Sys2Proof.Machine

end


section
/-!
PROOFS. Breakpoints and draining (08 R243 to R246): the windows of the drain port, what ends a drain, and resumes.
-/

namespace Sys2Proof.Machine

section Drain
variable {s : State}

/-- A mark depends on the trace unit alone. -/
theorem brkMark_trc {u : State} (h : u.trc = s.trc) (c core phase cyc : Nat) :
    (brkMark c core phase cyc u).trc = (brkMark c core phase cyc s).trc := by
  rw [brkMark, brkMark, putMark, putMark, State.onShareTrc, State.onShareTrc, h]

/-! ## Windows -/

/-- A window as it starts (08 R243): its drain is owed, and it serves the resumes asked for before it. -/
def State.windowStarted (s : State) : State := { s with brk := { s.brk with
  window := s.drainWindow + 1
  due := some s.drainWindow
  serve := s.brk.resumes.filter (·.2 == s.drainWindow % s.cfg.shareCount) } }

theorem endWindow_of_none (h : s.brk.drain = none) : endWindow s = s := by rw [endWindow, h]

theorem exec_drainWindow (hruns : s.runsAs .leaf = true) (hdrain : s.brk.drain = none)
    (hnew : s.brk.window ≠ s.drainWindow + 1) (htime : s.now < nsT (s.drainWindow * s.cfg.drnWinNs) + s.tim.inc) :
    exec .drainWindow s = .next (owedWindow s.windowStarted) := by
  have hcond : (s.brk.window != s.drainWindow + 1 && decide (s.now < nsT (s.drainWindow * s.cfg.drnWinNs) + s.tim.inc)) =
      true := by
    rw [decide_eq_true htime, Bool.and_true]
    exact bne_iff_ne.mpr hnew
  rw [exec, execDrainWindow, onLeaf_of_runs hruns]
  dsimp only
  rw [endWindow_of_none hdrain]
  exact congrArg Host.Outcome.next (if_pos hcond)

theorem drain_of_idle (h : s.drainIdle = true) : s.brk.drain = none := by
  simp only [State.drainIdle, Bool.and_eq_true, Option.isNone_iff_eq_none] at h
  exact h.1.2

theorem owedWindow_due (hidle : s.drainIdle = true) (hdue : s.brk.due = some s.drainWindow) :
    owedWindow s = startDrain (s.drainWindow % s.cfg.shareCount) s.drainWindow s := by
  rw [owedWindow, hidle, hdue, if_pos (by simp)]

theorem owedWindow_busy (hidle : s.drainIdle = false) : owedWindow s = s := by
  rw [owedWindow, hidle, Bool.false_and, if_neg Bool.false_ne_true]

theorem owedWindow_not_due (hdue : s.brk.due ≠ some s.drainWindow) : owedWindow s = s := by
  rw [owedWindow, if_neg (by simp [hdue])]

theorem startDrain_queued {c w : Nat} {q : Nat × Nat} (hq : s.brk.queue.find? (·.2 == c) = some q) :
    startDrain c w s = { s with
      brk := { s.brk with queue := s.brk.queue.erase q, drain := some (q.1, c, w, s.tim.cycle), due := none }
      pins := { s.pins with drnReq := true, drnCore := BitVec.ofNat 8 q.1 } } := by
  rw [startDrain, hq]

theorem startDrain_resumes {c w : Nat} (hq : s.brk.queue.find? (·.2 == c) = none) :
    startDrain c w s = nextResume { s with brk := { s.brk with due := none } } := by
  rw [startDrain, hq]

theorem nextResume_pulses {r : Nat × Nat} (hserve : s.brk.serve.find? (·.2 == s.drainWindow % s.cfg.shareCount) = some r)
    (hidle : s.drainIdle = true) (hpin : s.pins.rsmReq = false) : nextResume s = pulseResume r s := by
  rw [nextResume, hserve]
  dsimp only
  rw [hidle, hpin, if_pos (by decide)]

theorem nextResume_none (hserve : ∀ r ∈ s.brk.serve, r.2 ≠ s.drainWindow % s.cfg.shareCount) : nextResume s = s := by
  have hnone : s.brk.serve.find? (·.2 == s.drainWindow % s.cfg.shareCount) = none :=
    List.find?_eq_none.mpr fun r hr => by simpa using hserve r hr
  rw [nextResume, hnone]

theorem find?_filter_of_head? {α : Type} {p : α → Bool} {l : List α} {a : α} (h : (l.filter p).head? = some a) :
    (l.filter p).find? p = some a ∧ p a = true := by
  have hmem := List.mem_of_head? h
  refine ⟨?_, (List.mem_filter.mp hmem).2⟩
  cases hl : l.filter p with
  | nil => rw [hl] at h; cases h
  | cons b bs =>
    rw [hl] at h
    obtain rfl := Option.some.inj h
    exact List.find?_cons_of_pos (List.mem_filter.mp hmem).2

/-! ## What ends a drain -/

variable {core c w t : Nat}

theorem exec_drnDone_drain (hruns : s.runsAs .leaf = true) (hdrain : s.brk.drain = some (core, c, w, t)) :
    exec .drnDone s = .next (completeDrain core c t s) := by
  rw [exec, execDrnDone, onLeaf_of_runs hruns, hdrain]

theorem exec_drnDone_abort (hruns : s.runsAs .leaf = true) (hdrain : s.brk.drain = none)
    (habort : s.brk.abort = some (core, c, t)) : exec .drnDone s = .next (
      if t / 2 = s.tim.cycle / 2 ∧ (core, c) ∈ s.brk.queue then owedWindow (undoAbort core c s)
      else if s.tim.cycle ≤ t + 32 then owedWindow { s with brk := { s.brk with abort := none } }
      else s) := by
  rw [exec, execDrnDone, onLeaf_of_runs hruns, hdrain, habort]
  simp only [Bool.and_eq_true, beq_iff_eq, List.contains_iff_mem]

theorem abortDrain_eq (hdrain : s.brk.drain = some (core, c, w, t)) : abortDrain true s =
    brkMark c core 3 (s.coreCycles t) { s with
      brk := { s.brk with
        drain := none
        abort := some (core, c, s.tim.cycle)
        queue := (core, c) :: s.brk.queue }
      pins := { s.pins with drnReq := false } } := by
  rw [abortDrain, hdrain]
  rfl

end Drain

/-- Settles O41, by the windows and by what ends a drain. -/
theorem breakpointsDrainInWindows : Obligations.BreakpointsDrainInWindows := by
  refine ⟨fun s core hruns => ?hit, fun s q hruns hidle hnew htime hq => ?drains,
    fun s r hruns hidle hnew htime hq hr hpin => ?resumes, fun s hruns hidle hdrain hnew htime => ?owed,
    fun s hruns hnot => ?same, fun s core c w t hruns hdrain hserve => ?done,
    fun s core c t hruns hdrain habort hlater htime hdue => ?acked,
    fun s core c t q hruns hdrain habort hlater htime hdue hstop hfault hq => ?ackStarts,
    fun s core c t hruns hdrain habort hsame hqueued hdue => ?undone,
    fun s core c w t hruns hdrain hover => ?windowEnd, fun s core c t hruns habort hlate => ?portFault⟩
  case hit =>
    generalize hexec : exec (.brkVld core) s = res
    rw [exec, execBrkVld, onLeaf_of_runs hruns] at hexec
    dsimp only at hexec
    by_cases hroom : s.brk.queue.length < 256
    · rw [if_pos hroom] at hexec
      exact ⟨_, hexec.symm, rfl, fun _ => rfl, fun h => absurd hroom (Nat.not_lt.mpr h), rfl⟩
    · rw [if_neg hroom] at hexec
      exact ⟨_, hexec.symm, rfl, fun h => absurd h hroom, fun _ => rfl, rfl⟩
  case drains =>
    rw [exec_drainWindow hruns (drain_of_idle hidle) hnew htime, owedWindow_due (s := s.windowStarted) hidle rfl,
      startDrain_queued (s := s.windowStarted)
        (c := s.windowStarted.drainWindow % s.windowStarted.cfg.shareCount) hq]
    rfl
  case resumes =>
    obtain ⟨hfind, hshare⟩ := find?_filter_of_head? hr
    have hc : r.2 = s.drainWindow % s.cfg.shareCount := by simpa using hshare
    have hexec := exec_drainWindow hruns (drain_of_idle hidle) hnew htime
    rw [owedWindow_due (s := s.windowStarted) hidle rfl, startDrain_resumes (s := s.windowStarted)
        (c := s.windowStarted.drainWindow % s.windowStarted.cfg.shareCount) hq,
      nextResume_pulses (s := { s.windowStarted with brk := { s.windowStarted.brk with due := none } }) hfind hidle hpin]
      at hexec
    refine ⟨_, hexec, rfl, drain_of_idle hidle, rfl, rfl, rfl, ?_, rfl, rfl⟩
    rw [← hc]
    exact brkMark_trc rfl _ _ _ _
  case owed =>
    rw [exec_drainWindow hruns hdrain hnew htime, owedWindow_busy (s := s.windowStarted) hidle]
    rfl
  case same =>
    rw [exec, execDrainWindow, onLeaf_of_runs hruns]
    refine congrArg Host.Outcome.next (if_neg ?_)
    rw [Bool.and_eq_true, bne_iff_ne, decide_eq_true_eq]
    exact fun h => hnot.elim h.1 (Nat.not_le.mpr h.2)
  case done =>
    have hstays := nextResume_none (s := brkMark c core 2 (s.coreCycles t) { s with
      brk := { s.brk with drain := none, abort := none, stopped := s.brk.stopped ++ [core] }
      pins := { s.pins with drnReq := false } }) hserve
    exact ⟨_, (exec_drnDone_drain hruns hdrain).trans (congrArg Host.Outcome.next hstays), rfl, rfl, rfl, rfl⟩
  case acked =>
    rw [exec_drnDone_abort hruns hdrain habort, if_neg (Classical.not_and_iff_not_or_not.mpr hlater), if_pos htime]
    exact congrArg Host.Outcome.next (owedWindow_not_due (s := { s with brk := { s.brk with abort := none } }) hdue)
  case ackStarts =>
    have hidle : ({ s with brk := { s.brk with abort := none } } : State).drainIdle = true := by
      rw [State.drainIdle]
      dsimp only
      rw [hstop, hfault, hdrain]
      rfl
    rw [exec_drnDone_abort hruns hdrain habort, if_neg (Classical.not_and_iff_not_or_not.mpr hlater), if_pos htime, owedWindow_due hidle hdue]
    exact congrArg Host.Outcome.next (startDrain_queued (s := { s with brk := { s.brk with abort := none } }) hq)
  case undone =>
    have hstays := owedWindow_not_due (s := undoAbort core c s) hdue
    have hexec := exec_drnDone_abort hruns hdrain habort
    rw [if_pos ⟨hsame, hqueued⟩, hstays] at hexec
    exact ⟨_, hexec, rfl⟩
  case windowEnd =>
    have hexec : exec .drainWindowEnd s = .next (abortDrain true s) := by
      rw [exec, execDrainWindowEnd, onLeaf_of_runs hruns, endWindow, hdrain]
      exact congrArg Host.Outcome.next (if_pos hover)
    rw [abortDrain_eq hdrain] at hexec
    exact ⟨_, hexec, rfl, rfl, rfl, rfl⟩
  case portFault =>
    have hexec : exec .drnPortFault s =
        .next (({ s with brk := { s.brk with abort := none, portFault := true } } : State).stopBit 23) := by
      rw [exec, execDrnPortFault, onLeaf_of_runs hruns, habort]
      exact congrArg Host.Outcome.next (if_pos hlate)
    exact ⟨_, hexec, rfl⟩

end Sys2Proof.Machine

end


section
/-!
SUPPORT. Mailboxes (15 R406 to R414): what an entry, the end of a command and a command that waits leave of its mailbox and of
the rest of the state.
-/

namespace Sys2Proof.Machine

/-! ## Mailboxes by their number -/

section Box
variable {s : State} {n : Nat} {m : Mbx} {f : Mbx → Mbx}

theorem mbx?_onMbx_same (hf : ∀ x, (f x).n = x.n) (hm : s.mbx? n = some m) : (s.onMbx n f).mbx? n = some (f m) := by
  rw [mbx?_onMbx s f hf n n, if_pos rfl, hm, Option.map_some]

theorem mbx?_of_mbxs {t : State} (h : t.stw.mbxs = s.stw.mbxs) (k : Nat) : t.mbx? k = s.mbx? k := by
  rw [State.mbx?, State.mbx?, h]

theorem onRunning_of_runs {op : Nat} {c : Cmd} (h : s.runs n op c) (f : Cmd → State → State) : onRunning n op f s = f c s := by
  obtain ⟨⟨k, h, q, r, u, running, w, a⟩, hm, hrun, hop⟩ := h
  dsimp only at hrun
  subst hrun
  rw [onRunning, hm]
  exact if_pos (beq_iff_eq.mpr hop)

end Box

/-! ## Entries -/

/-- Only mailboxes and what is sent have changed, on a leaf no lane. -/
def MbxOnly (s t : State) : Prop := ∃ mbxs hfAllow lanes out,
  t = { s with stw := { s.stw with mbxs := mbxs }, hfAllow := hfAllow, lanes := lanes, out := out } ∧
    (s.profile = .leaf → lanes = s.lanes)

theorem MbxOnly.refl (s : State) : MbxOnly s s := ⟨_, _, _, _, rfl, fun _ => rfl⟩

theorem MbxOnly.trans {s t u : State} (h : MbxOnly s t) (k : MbxOnly t u) : MbxOnly s u := by
  obtain ⟨_, _, _, _, rfl, hlanes⟩ := h
  obtain ⟨_, _, _, _, rfl, hlanes'⟩ := k
  exact ⟨_, _, _, _, rfl, fun hleaf => (hlanes' hleaf).trans (hlanes hleaf)⟩

theorem onMbx_mbxOnly (s : State) (n : Nat) (f : Mbx → Mbx) : MbxOnly s (s.onMbx n f) := ⟨_, _, _, _, rfl, fun _ => rfl⟩

theorem emit_mbxOnly (s : State) (o : Out) : MbxOnly s (s.emit o) := ⟨_, _, _, _, rfl, fun _ => rfl⟩

/-- What goes out to a return area changes no mailbox. -/
theorem storeOut_mbxOnly (s : State) (ctx addr : Nat) (lines : Bytes) (flag : BitVec 64) :
    MbxOnly s (s.storeOut ctx addr lines flag) ∧ (s.storeOut ctx addr lines flag).stw = s.stw := by
  unfold State.storeOut
  cases hleaf : s.isLeaf with
  | true =>
    rw [drawLines, hleaf]
    exact ⟨⟨_, _, _, _, rfl, fun _ => rfl⟩, rfl⟩
  | false =>
    rw [if_neg Bool.false_ne_true]
    generalize hsent : State.issue s _ = t
    obtain ⟨lanes, rfl⟩ : LanesOnly (s.emits _) t := hsent ▸ issue_lanesOnly s _
    refine ⟨⟨_, _, _, _, rfl, fun h => ?_⟩, rfl⟩
    rw [(isLeaf_iff s).mpr h] at hleaf
    cases hleaf

/-- An entry raises UPD of its mailbox, and changes nothing else of the mailboxes (R413). -/
theorem writeEntry_spec (n : Nat) (c : Cmd) (s : State) : MbxOnly s (writeEntry n c s) ∧
    ∃ f, (∀ m, f m = { m with upd := (f m).upd }) ∧ (writeEntry n c s).stw = (s.onMbx n f).stw := by
  unfold writeEntry
  split
  · next hm =>
    have hid : mapIf (fun m : Mbx => m.n == n) id s.stw.mbxs = s.stw.mbxs := by
      simp only [mapIf, id_eq, ite_self, List.map_id']
    exact ⟨.refl s, id, fun _ => rfl, congrArg (fun l => ({ s.stw with mbxs := l } : StwSt)) hid.symm⟩
  · next m hm =>
    dsimp only
    generalize (nth m.upd c.slot 0 + 1) % 256 = upd
    generalize hs2 : (if s.retBase n = 0 then _ else _) = s2
    have hkept : MbxOnly s s2 ∧ s2.stw = (s.onMbx n fun m => { m with upd := modifyAt m.upd c.slot fun _ => upd }).stw := by
      rw [← hs2]
      split
      · exact ⟨onMbx_mbxOnly s n _, rfl⟩
      · obtain ⟨honly, hstw⟩ := storeOut_mbxOnly (s.onMbx n fun m => { m with upd := modifyAt m.upd c.slot fun _ => upd })
          (mbxCtx n) (s.retBase n + 256 * c.slot) (entryLines n upd s.stw.boot s.now c) (entryFlag upd c)
        exact ⟨(onMbx_mbxOnly s n _).trans honly, hstw⟩
    obtain ⟨honly, hstw⟩ := hkept
    refine ⟨?_, fun m => { m with upd := modifyAt m.upd c.slot fun _ => upd }, fun _ => rfl, ?_⟩
    · split
      · exact honly.trans (emit_mbxOnly s2 _)
      · exact honly
    · split
      · exact hstw
      · exact hstw

section Entry
variable {s : State} {n : Nat} {c : Cmd} {m : Mbx}

theorem writeEntry_mbx? (hm : s.mbx? n = some m) : ∃ upd, (writeEntry n c s).mbx? n = some { m with upd := upd } := by
  obtain ⟨-, f, hf, hstw⟩ := writeEntry_spec n c s
  refine ⟨(f m).upd, ?_⟩
  rw [mbx?_of_mbxs (congrArg StwSt.mbxs hstw), mbx?_onMbx_same (fun x => by rw [hf x]) hm, ← hf m]

/-! ## The end of a command, and a command that waits -/

theorem finish_mbxOnly (n : Nat) (c : Cmd) (status : Nat) (result : Bytes) (s : State) :
    MbxOnly s (finish n c status result s) :=
  (onMbx_mbxOnly s n _).trans (writeEntry_spec n _ _).1

/-- The mailbox of a command that has ended runs none (R413). -/
theorem finish_mbx? (hm : s.mbx? n = some m) (status : Nat) (result : Bytes) :
    ∃ upd, (finish n c status result s).mbx? n = some { m with running := none, upd := upd } :=
  writeEntry_mbx? (mbx?_onMbx_same (f := fun m => { m with running := none }) (fun _ => rfl) hm)

theorem wait_mbxOnly (n : Nat) (c : Cmd) (w : Wait) (s : State) : MbxOnly s (wait n c w s) :=
  (onMbx_mbxOnly s n _).trans (writeEntry_spec n _ _).1

/-- A command that waits no longer holds its mailbox (R410). -/
theorem wait_mbx? (hm : s.mbx? n = some m) (w : Wait) : ∃ upd, (wait n c w s).mbx? n =
    some { m with running := none, waiting := m.waiting ++ [{ c with state := 2, wait := w }], upd := upd } :=
  writeEntry_mbx? (mbx?_onMbx_same
    (f := fun m => { m with running := none, waiting := m.waiting ++ [{ c with state := 2, wait := w }] }) (fun _ => rfl) hm)

end Entry

end Sys2Proof.Machine

end


section
/-!
PROOFS. The end of a context (14 R391, R393) and the release of a leaf's records (R399).
-/

namespace Sys2Proof.Machine

/-! ## The share of a context is zeroed -/

section Free
variable {s : State} {c : Nat} {x : Ctx}

/-- A watch ends with its generation: it goes from the list, and its release words go out. -/
theorem closeWatch_eq (c : Nat) (s : State) : ∃ late out,
    closeWatch c s = { s with watch := s.watch.filter (·.ctx != c), lateReads := late, out := out } ∧
      ((∀ w, s.watch? c = some w → w.releases = []) → out = s.out) := by
  unfold closeWatch
  split
  · next hnone =>
    have hall : s.watch.filter (·.ctx != c) = s.watch := List.filter_eq_self.mpr fun w hw => by
      simpa using List.find?_eq_none.mp hnone w hw
    exact ⟨s.lateReads, s.out, by rw [hall], fun _ => rfl⟩
  · next w hw =>
    refine ⟨_, _, rfl, fun h => ?_⟩
    rw [h w hw]
    exact List.append_nil _

/-- What the end of a context leaves of it and of the rest (R391, R392). -/
structure Freed (c : Nat) (s t : State) : Prop where
  life : ∀ y, t.ctx? c = some y → y.life = .free ∧ y.keyGen = none
  others : ∀ d, d ≠ c → t.ctx? d = s.ctx? d
  tables : t.mem.tables = s.mem.tables.filter (·.ctx != c)
  models : t.mem.models = s.mem.models.filter (·.m.ctx != c)
  sheaves : t.red.sheaves = s.red.sheaves.filter (·.ctx != c)
  plans : t.red.plans = s.red.plans.filter (·.ctx != c)
  watch : t.watch = s.watch.filter (·.ctx != c)
  shares : t.trc.shares = s.trc.shares.filter (·.ctx != c)
  tallies : t.fab.tallies = s.fab.tallies.filter (·.ctx != c)
  out : (∀ w, s.watch? c = some w → w.releases = []) → t.out = s.out
  lanes : t.lanes = s.lanes
  hbm : t.mem.hbm = s.mem.hbm
  sticky : t.sticky = s.sticky
  landing : t.red.landing = s.red.landing
  resetDue : t.stw.resetDue = s.stw.resetDue
  mbxs : t.stw.mbxs = mapIf (·.n == c) (fun m => { m with asm := [] }) s.stw.mbxs

/-- A context as it ends (R391). -/
def Ctx.ended (now : Ticks) (x : Ctx) : Ctx := { x with life := .free, changed := now, before := x.life.gen?, keyGen := none }

theorem freeCtx_freed (c : Nat) (s : State) : Freed c s (freeCtx c s) := by
  obtain ⟨late, out, hclosed, hout⟩ := closeWatch_eq c s
  have hctxs : (freeCtx c s).ctxs = mapIf (·.id == c) (Ctx.ended s.now) s.ctxs := by
    unfold freeCtx
    rw [hclosed]
    rfl
  have hctx : ∀ d, (freeCtx c s).ctx? d = if d = c then (s.ctx? d).map (Ctx.ended s.now) else s.ctx? d := by
    intro d
    rw [State.ctx?, hctxs]
    exact find_mapIf_of_key (fun x : Ctx => x.id) (f := Ctx.ended s.now) (fun _ h => h) s.ctxs d
  have hlife : ∀ y, (freeCtx c s).ctx? c = some y → y.life = .free ∧ y.keyGen = none := by
    intro y hy
    rw [hctx, if_pos rfl, Option.map_eq_some_iff] at hy
    obtain ⟨x, -, rfl⟩ := hy
    exact ⟨rfl, rfl⟩
  have hothers : ∀ d, d ≠ c → (freeCtx c s).ctx? d = s.ctx? d := fun d hd => (hctx d).trans (if_neg hd)
  have houts : (freeCtx c s).out = out := by
    unfold freeCtx
    rw [hclosed]
    rfl
  refine ⟨hlife, hothers, ?_, ?_, ?_, ?_, ?_, ?_, ?_, fun h => houts.trans (hout h), ?_, ?_, ?_, ?_, ?_, ?_⟩
  all_goals
    unfold freeCtx
    rw [hclosed]
    rfl

/-- What of a draining context has finished when it is drained (R391). -/
theorem drained_releases (hx : s.draining? c = some x) (hd : s.drained x = true) (hleaf : s.profile = .leaf) :
    ∀ w, s.watch? c = some w → w.releases = [] := by
  intro w hw
  have hid : x.id = c := by
    obtain ⟨hfind, -⟩ := Option.filter_eq_some_iff.mp hx
    simpa using List.find?_some hfind
  have hctx : w.ctx = c := by simpa using List.find?_some hw
  have htray : s.isTray = false := by
    rw [State.isTray, hleaf]
    rfl
  have hclosed : s.leafOpen x.id x.endB = false := by
    simp only [State.drained, htray, Bool.false_eq_true, if_false, Bool.and_eq_true, Bool.not_eq_true'] at hd
    exact hd.1.2
  simp only [State.leafOpen, Bool.or_eq_false_iff, List.any_eq_false, and_assoc] at hclosed
  obtain ⟨hwatch, -⟩ := hclosed
  have hdump := hwatch w (List.mem_of_find?_eq_some hw)
  rw [hid, hctx, beq_self_eq_true, Bool.true_and, Bool.not_eq_true, Bool.or_eq_false_iff, Bool.not_eq_false'] at hdump
  exact List.isEmpty_iff.mp hdump.2

theorem exec_contextDrainComplete (hx : s.draining? c = some x) :
    exec (.contextDrainComplete c) s = .next (if s.drained x then freeCtx c s else s) := by
  rw [exec, execContextDrainComplete, hx]

end Free

/-! ## The hard cap -/

section HardCap
variable {s : State} {c : Nat}

theorem foldl_writeEntry_mbx? (n : Nat) (f : Cmd → Cmd) (l : List Cmd) {m : Mbx} (hm : s.mbx? n = some m) :
    ∃ upd, (l.foldl (fun s c => writeEntry n (f c) s) s).mbx? n = some { m with upd := upd } := by
  induction l generalizing s m with
  | nil => exact ⟨m.upd, hm⟩
  | cons c l ih =>
    obtain ⟨upd, hupd⟩ := writeEntry_mbx? (c := f c) hm
    obtain ⟨last, hlast⟩ := ih hupd
    exact ⟨last, hlast⟩

/-- A mailbox whose commands have ended PARTIAL runs and holds none (R415, R416). -/
theorem partialAll_mbx? (n status : Nat) (s : State) : ∀ m, (partialAll n status s).mbx? n = some m →
    m.running = none ∧ m.waiting = [] := by
  intro m hm
  unfold partialAll at hm
  split at hm
  · next hnone =>
    rw [hnone] at hm
    cases hm
  · next m0 hm0 =>
    have hempty := mbx?_onMbx_same (f := fun m => { m with running := none, waiting := [], asm := [] }) (fun _ => rfl) hm0
    obtain ⟨upd, hupd⟩ := foldl_writeEntry_mbx? n (fun c => { c with state := 3, status := status })
      (m0.running.toList ++ m0.waiting) hempty
    obtain rfl := Option.some.inj (hm.symm.trans hupd)
    exact ⟨rfl, rfl⟩

/-- The mark of a hard cap changes results of commands that wait, and a mailbox without one not at all. -/
theorem markHardCap_mbx? (c n : Nat) (s : State) : ∀ m, (markHardCap c s).mbx? n = some m →
    ∃ m0 f, s.mbx? n = some m0 ∧ m.running = m0.running ∧ m.waiting = m0.waiting.map f := by
  intro m hm
  rw [State.mbx?, markHardCap, List.find?_map, Option.map_eq_some_iff] at hm
  obtain ⟨m0, hm0, rfl⟩ := hm
  exact ⟨m0, _, hm0, rfl, rfl⟩

/-- What the hard cap leaves before the share is zeroed (R393). -/
def hardCapped (c : Nat) (s : State) : State :=
  (markHardCap c (partialAll c stCTX_GONE (endWatch c (dropQueued c s)))).setBit .pitonEv (16 + c)

theorem hardCapped_mbx? (c : Nat) (s : State) : ∀ m, (hardCapped c s).mbx? c = some m → m.running = none ∧ m.waiting = [] := by
  intro m hm
  obtain ⟨m0, f, hm0, hrun, hwait⟩ := markHardCap_mbx? c c _ m hm
  obtain ⟨hrun0, hwait0⟩ := partialAll_mbx? c stCTX_GONE _ m0 hm0
  rw [hrun, hwait, hrun0, hwait0]
  exact ⟨rfl, rfl⟩

theorem hardCapped_only (c : Nat) (s : State) :
    Only [.lanes, .ctxs, .err, .trc, .watch, .hfAllow, .stw, .out] s (markHardCap c (partialAll c stCTX_GONE
      (endWatch c (dropQueued c s)))) :=
  markHardCap_only.step rfl (partialAll_only.step rfl (endWatch_only.step rfl (dropQueued_only.mono rfl)))

theorem exec_contextHardCap {x : Ctx} (hx : s.draining? c = some x) (htime : x.endT + nsT 10000000 ≤ s.now) :
    exec (.contextHardCap c) s = .next (freeCtx c (hardCapped c s)) := by
  rw [exec, execContextHardCap, hx]
  exact congrArg Host.Outcome.next (if_pos htime)

end HardCap

/-! ## The release of a leaf's records -/

/-- The interval records of a context leave the ring up to an epoch (R399). -/
theorem sendIntervals_eq (c k : Nat) (s : State) : ∃ lanes, sendIntervals c k s = { s with
    cap := { s.cap with ring := s.cap.ring.map fun r =>
      if r.k ≤ k then { r with ints := r.ints.filter (·.ctx != c) } else r }
    lanes := lanes } := by
  unfold sendIntervals
  dsimp only
  generalize hs1 : List.foldl _ s _ = s1
  obtain ⟨lanes, rfl⟩ : LanesOnly s s1 := hs1 ▸ foldl_rel LanesOnly.refl LanesOnly.trans (fun u r =>
    foldl_rel LanesOnly.refl LanesOnly.trans (fun v b => sendMsgAll_lanesOnly v _ _ _ _ _ _) _ u) _ s
  refine ⟨lanes, ?_⟩
  simp only [mapIf, otherCtx, decide_eq_true_eq]

/-- Only kept leaf verdicts, and what the lanes send, have changed. -/
def VerdictsOnly (s t : State) : Prop := ∃ l trc lanes,
  t = { s with mem := { s.mem with leafVerdicts := l }, trc := trc, lanes := lanes }

theorem VerdictsOnly.refl (s : State) : VerdictsOnly s s := ⟨_, _, _, rfl⟩

theorem VerdictsOnly.trans {s t u : State} (h : VerdictsOnly s t) (k : VerdictsOnly t u) : VerdictsOnly s u := by
  obtain ⟨_, _, _, rfl⟩ := h
  obtain ⟨_, _, _, rfl⟩ := k
  exact ⟨_, _, _, rfl⟩

theorem sendLeafVerdicts_frame (c k : Nat) (s : State) : VerdictsOnly s (sendLeafVerdicts c k s) := by
  unfold sendLeafVerdicts
  split
  · exact .refl s
  · dsimp only
    generalize hs1 : List.foldl _ s _ = s1
    obtain ⟨lanes, trc, rfl⟩ : SentOnly s s1 :=
      hs1 ▸ foldl_rel SentOnly.refl SentOnly.trans (fun u p => sendNumbered_sentOnly u _ _ _) _ s
    exact ⟨_, _, _, rfl⟩

theorem sendVerdicts_frame (c k : Nat) (s : State) : VerdictsOnly s (sendVerdicts c k s) :=
  foldl_rel VerdictsOnly.refl VerdictsOnly.trans (fun u e => sendLeafVerdicts_frame c e u) _ s

/-- Settles O42, by what the end of a context leaves and by the times of the release. -/
theorem contextsDrainAndEnd : Obligations.ContextsDrainAndEnd := by
  refine ⟨fun s c x hx hd => ?drained, fun s c x hx hd => ?open_, fun s c x hx htime => ?capped, fun s c x hx htime => ?before,
    fun s c b bs hruns hpast htime => ⟨?ready, fun hc => ?late⟩, fun s c r b bs hruns hpast htime => ?early⟩
  case drained =>
    have hfreed := freeCtx_freed c s
    refine ⟨_, (exec_contextDrainComplete hx).trans (congrArg Host.Outcome.next (if_pos hd)), hfreed.life, hfreed.others,
      hfreed.tables, hfreed.models, hfreed.sheaves, hfreed.plans, hfreed.watch, hfreed.shares, hfreed.tallies, fun h => ?_,
      hfreed.lanes, hfreed.hbm, hfreed.sticky⟩
    refine hfreed.out (h.elim (drained_releases hx hd) fun hnone w hw => ?_)
    rw [hnone] at hw
    cases hw
  case open_ => rw [exec_contextDrainComplete hx, hd, if_neg Bool.false_ne_true]
  case capped =>
    have hfreed := freeCtx_freed c (hardCapped c s)
    have honly := hardCapped_only c s
    refine ⟨_, exec_contextHardCap hx htime, hfreed.life, fun t ht => ?_, fun m hm => ?_, ?_, ?_⟩
    · rw [hfreed.tables] at ht
      simpa using (List.mem_filter.mp ht).2
    · have hkept : (freeCtx c (hardCapped c s)).mbx? c = ((hardCapped c s).mbx? c).map fun m => { m with asm := [] } := by
        rw [State.mbx?, hfreed.mbxs]
        exact (find_mapIf_of_key (fun m : Mbx => m.n) (f := fun m => { m with asm := [] }) (fun _ h => h) _ c).trans (if_pos rfl)
      rw [hkept, Option.map_eq_some_iff] at hm
      obtain ⟨m0, hm0, rfl⟩ := hm
      exact hardCapped_mbx? c s m0 hm0
    · rw [hfreed.sticky]
      exact congrArg (fun k : Sticky => orBit k.pitonEv (16 + c)) (honly.same .sticky rfl)
    · rw [hfreed.landing]
      exact congrArg RedSt.landing (honly.same .red rfl)
  case before =>
    rw [exec, execContextHardCap, hx]
    exact congrArg Host.Outcome.next (if_neg (Nat.not_le.mpr htime))
  case ready =>
    obtain ⟨lanes, hints⟩ := sendIntervals_eq c (b.k - 1) s
    obtain ⟨l, trc, lanes', hverdicts⟩ := sendVerdicts_frame c (b.k - 1) (sendIntervals c (b.k - 1) s)
    have hexec : exec (.tenantRecordRelease c true) s = .next (sendVerdicts c (b.k - 1) (sendIntervals c (b.k - 1) s)) := by
      rw [exec, execTenantRecordRelease, onLeaf_of_runs hruns, hpast]
      dsimp only
      rw [if_neg (Nat.not_lt.mpr htime), if_pos rfl]
    rw [hints] at hverdicts
    rw [hints, hverdicts] at hexec
    exact ⟨_, hexec, rfl, rfl⟩
  case late =>
    have hexec : exec (.tenantRecordRelease c false) s = .next ((s.countHealth 320 1).setBit .rstState 22) := by
      rw [exec, execTenantRecordRelease, onLeaf_of_runs hruns, hpast]
      dsimp only
      rw [if_neg (Nat.not_lt.mpr htime), if_neg Bool.false_ne_true, if_neg (by simpa using hc)]
    exact ⟨_, hexec, rfl⟩
  case early =>
    rw [exec, execTenantRecordRelease, onLeaf_of_runs hruns, hpast]
    exact congrArg Host.Outcome.next (if_pos htime)

end Sys2Proof.Machine

end


section
/-!
PROOFS. Hangs (18 R464 to R471, R477): the fence of a unit, its dump, what recovers it, and its reset.
-/

namespace Sys2Proof.Machine

/-! ## The reset of a context (18 R469) -/

theorem partialAll_mbxOnly (n status : Nat) (s : State) : MbxOnly s (partialAll n status s) := by
  unfold partialAll
  split
  · exact .refl s
  · exact (onMbx_mbxOnly s n _).trans
      (foldl_rel MbxOnly.refl MbxOnly.trans (fun u c => (writeEntry_spec n _ u).1) _ _)

/-- Messages of an ended generation are dropped and counted; other contexts stand (14 R382). -/
theorem dropQueued_spec (c : Nat) (s : State) : (dropQueued c s).err.units = s.err.units ∧
    ∀ d, d ≠ c → (dropQueued c s).ctx? d = s.ctx? d := by
  refine ⟨rfl, fun d hd => Eq.trans (ctx?_onCtx _ _ ?_ c d) (if_neg hd)⟩
  exact fun _ => rfl

theorem nameRelease_lanes (c : Nat) (g : BitVec 16) (s : State) : ∃ lanes bnd,
    nameRelease_ c g s = { s with lanes := lanes, stw := { s.stw with bnd := bnd } } ∧
      (s.profile = .leaf → bnd = s.stw.bnd ++ [⟨s.curEpoch + 3, .release c g, true, 0⟩]) := by
  unfold nameRelease_
  split
  · dsimp only
    generalize hsent : s.sendLeafStatus 5 _ = t
    obtain ⟨lanes, rfl⟩ : LanesOnly s t := hsent ▸ sendCtlAll_lanesOnly ..
    exact ⟨lanes, _, rfl, fun _ => rfl⟩
  · next htray => exact ⟨_, _, rfl, fun h => absurd ((isLeaf_iff s).mpr h) htray⟩

/-- What a context reset leaves (18 R469). -/
structure CtxReset (c : Nat) (g : BitVec 16) (s t : State) : Prop where
  life : ∀ y, t.ctx? c = some y → y.life = .free ∧ y.keyGen = none
  others : ∀ d, d ≠ c → t.ctx? d = s.ctx? d
  tables : t.mem.tables = s.mem.tables.filter (·.ctx != c)
  sheaves : t.red.sheaves = s.red.sheaves.filter (·.ctx != c)
  hbm : t.mem.hbm = s.mem.hbm
  units : t.err.units = s.err.units
  resetDue : t.stw.resetDue = s.stw.resetDue
  released : s.profile = .leaf → ⟨s.curEpoch + 3, .release c g, true, 0⟩ ∈ t.stw.bnd

theorem contextReset_reset (c : Nat) (g : BitVec 16) (s : State) : CtxReset c g s (contextReset c g s) := by
  obtain ⟨hunits, hothers⟩ := dropQueued_spec c s
  unfold contextReset
  dsimp only
  generalize hs2 : (if (partialAll c stPARTIAL (dropQueued c s)).isLeaf then _ else _) = s2
  have honly : Only [.lanes, .trc, .watch, .pins, .brk] (partialAll c stPARTIAL (dropQueued c s)) s2 := by
    rw [← hs2]
    split
    · exact brkGone_only.step rfl (endWatch_only.mono rfl)
    · exact .refl _
  have hdropped : Only [.lanes, .ctxs, .err] s (dropQueued c s) := dropQueued_only
  have hall : Only [.lanes, .trc, .watch, .pins, .brk, .hfAllow, .stw, .out, .ctxs, .err] s s2 :=
    Only.step honly rfl (Only.step partialAll_only rfl (hdropped.mono rfl))
  obtain ⟨mbxs, hfAllow, lanes, out, hended, -⟩ := partialAll_mbxOnly c stPARTIAL (dropQueued c s)
  have hctxs : s2.ctxs = (dropQueued c s).ctxs := Eq.trans (honly.same .ctxs rfl) (partialAll_only.same .ctxs rfl)
  have hs2units : s2.err.units = s.err.units :=
    Eq.trans (congrArg ErrSt.units (Eq.trans (honly.same .err rfl) (partialAll_only.same .err rfl))) hunits
  have hs2due : s2.stw.resetDue = s.stw.resetDue := by
    rw [show s2.stw = _ from honly.same .stw rfl, hended]
    exact (congrArg StwSt.resetDue (hdropped.same .stw rfl) :)
  have hmem : s2.mem = s.mem := hall.same .mem rfl
  have hred : s2.red = s.red := hall.same .red rfl
  have hfreed := freeCtx_freed c s2
  obtain ⟨lanes, bnd, hname, hbnd⟩ := nameRelease_lanes c g (freeCtx c s2)
  rw [hname]
  refine ⟨hfreed.life, fun d hd => (hfreed.others d hd).trans (Eq.trans ?_ (hothers d hd)), ?_, ?_, ?_, ?_,
    hfreed.resetDue.trans hs2due, fun hleaf => ?_⟩
  · rw [State.ctx?, hctxs]
    rfl
  · exact hfreed.tables.trans (by rw [hmem])
  · exact hfreed.sheaves.trans (by rw [hred])
  · exact hfreed.hbm.trans (by rw [hmem])
  · exact (congrArg ErrSt.units (freeCtx_only.same .err rfl)).trans hs2units
  · have hprofile : (freeCtx c s2).profile = .leaf := 
      Eq.trans (freeCtx_only.same .profile rfl) (Eq.trans (hall.same .profile rfl) hleaf)
    have hsched : (freeCtx c s2).sched = s.sched := Eq.trans (freeCtx_only.same .sched rfl) (hall.same .sched rfl)
    have hepoch : (freeCtx c s2).curEpoch = s.curEpoch := by rw [State.curEpoch, hsched, State.curEpoch]
    rw [hbnd hprofile, hepoch]
    exact List.mem_append_right _ List.mem_cons_self

/-! ## The fence of a unit -/

section Hang
variable {s : State} {u : UnitSample} {ctx : Option Nat} {scan : UnitScan} {uc : UnitClass}

/-- A fenced unit, with its dump in the buffer and RST_HANG written (18 R467, R477, R490). -/
def State.hangFenced (s : State) (u : UnitSample) (ctx : Option Nat) (scan : UnitScan) (block : Bool) : State :=
  let s1 := autoDump true ctx scan (fenceUnit u.cls u.idx ctx s)
  { s1 with sticky := { s1.sticky with
    rstHang := hangWord s1.sticky.rstHang block false ctx u.cls u.idx } }.setBit .rstHang 31

theorem orBit_of_bit {w : BitVec 32} {i j : Nat} (h : w.getLsbD j = true) : (orBit w i).getLsbD j = true := by
  rw [orBit, BitVec.getLsbD_or, h, Bool.true_or]

/-- HOST_STALL and AUTO_DUMP_VALID stand in a fence's word (18 R490). -/
theorem hangWord_bit9 {old : BitVec 32} (h : old.getLsbD 9 = true) (block recur : Bool) (ctx : Option Nat) (cls idx : Nat) :
    (hangWord old block recur ctx cls idx).getLsbD 9 = true := by
  unfold hangWord
  rw [BitVec.getLsbD_or, BitVec.getLsbD_and, h]
  simp

theorem hangFenced_unit? (hu : s.unit? u.cls = some uc) (block : Bool) : (s.hangFenced u ctx scan block).unit? u.cls =
    some { uc.leave u.idx with fenced := (u.idx, ctx) :: uc.fenced } := by
  have hcls : ∀ x : UnitClass, (x.leave u.idx).cls = x.cls := fun x => by
    unfold UnitClass.leave
    split <;> rfl
  refine Eq.trans (unit?_onClass s (fun x => { x.leave u.idx with fenced := (u.idx, ctx) :: x.fenced }) hcls u.cls u.cls) ?_
  rw [if_pos rfl, hu, Option.map_some]

theorem exec_hangDetect {h : HangRun} (hfind : s.hangs.find? (fun h => h.cls == u.cls && h.idx == u.idx) = some h)
    (hu : s.unit? u.cls = some uc) (hrun : s.cfg.hangEpochs + 1 ≤ h.run) (hfree : uc.fenced.any (·.1 == u.idx) = false)
    (hkept : u.idx ∉ uc.retired) (hnew : s.recurs u.cls u.idx = false) : exec (.hangDetect u scan) s =
      .next (recoverHang (s.cfg.resetScopeBlock || !h.ctx.any (· != 0)) h.ctx scan
        (s.hangFenced u h.ctx scan (s.cfg.resetScopeBlock || !h.ctx.any (· != 0)))) := by
  rw [exec, execHangDetect, hfind, hu]
  dsimp only
  rw [if_neg (by simp [hfree, hkept, Nat.not_lt.mpr hrun]), hnew, if_neg Bool.false_ne_true]
  cases h.ctx <;> rfl

/-- What recovers a fenced unit leaves the unit, the dump and RST_HANG (18 R468). -/
theorem recoverHang_leaves (block : Bool) (ctx : Option Nat) (scan : UnitScan) (s : State) :
    (recoverHang block ctx scan s).err.units = s.err.units ∧ (recoverHang block ctx scan s).dump = s.dump ∧
      (recoverHang block ctx scan s).sticky = s.sticky := by
  unfold recoverHang
  split
  · split
    · exact ⟨(contextReset_reset _ _ s).units, contextReset_only.same .dump rfl, contextReset_only.same .sticky rfl⟩
    · exact ⟨rfl, rfl, rfl⟩
  · exact ⟨rfl, rfl, rfl⟩

theorem recoverHang_block (ctx : Option Nat) (scan : UnitScan) (s : State) : recoverHang true ctx scan s =
    { s with stw := { s.stw with resetDue := some (.hang, s.now + scanTime ctx scan) } } := by
  unfold recoverHang
  split
  · next h => cases h
  · rfl

theorem recoverHang_ctx {c : Nat} {g : BitVec 16} (hgen : s.heldGen c = some g) :
    recoverHang false (some c) scan s = contextReset c g s := by
  rw [recoverHang, hgen]

end Hang

/-! ## The reset of a unit -/

/-- A unit class after a fenced unit returned (18 R469). -/
def UnitClass.returned (idx : Nat) (u : UnitClass) : UnitClass :=
  let u1 := { u with fenced := u.fenced.filter (·.1 != idx) }
  if u.replaced idx then { u1 with
    spares := u.spares + 1
    pool := u.pool ++ [idx]
    stands := u.stands.filter (·.1 != idx) }
  else { u1 with inService := u.inService + 1 }

theorem returned_cls (idx : Nat) (u : UnitClass) : (u.returned idx).cls = u.cls := by
  unfold UnitClass.returned
  dsimp only
  split <;> rfl

theorem returned_kept (idx : Nat) (u : UnitClass) : (u.returned idx).fenced = u.fenced.filter (·.1 != idx) ∧
    (u.returned idx).resets = u.resets := by
  unfold UnitClass.returned
  dsimp only
  split <;> exact ⟨rfl, rfl⟩

theorem exec_unitReset {s : State} {cls idx : Nat} {u : UnitClass} (hu : s.unit? cls = some u) :
    exec (.unitReset cls idx) s = .next (if u.fenced.any (·.1 == idx) && s.stw.resetDue.isNone then
      { (s.onClass cls (UnitClass.returned idx)).onClass cls fun u => { u with resets := (idx, s.now) :: u.resets } with
        hangs := s.hangs.filter fun h => !(h.cls == cls && h.idx == idx) } else s) := by
  rw [exec, execUnitReset, hu]
  rfl

/-- Settles O43, by the fence, its recovery and the reset of a unit. -/
theorem hangsAreFencedAndReset : Obligations.HangsAreFencedAndReset := by
  refine ⟨fun s u x h uc hfind hu hrun hfree hkept hnew => ?fence, fun s u x h hfind hrun => ?short,
    fun s cls idx u hu hfenced hnone => ?reset, fun s cls idx u hu hfree => ?unfenced⟩
  case fence =>
    generalize hblock : (s.cfg.resetScopeBlock || !h.ctx.any (· != 0)) = block
    have hexec := exec_hangDetect (scan := x) hfind hu hrun hfree hkept hnew
    rw [hblock] at hexec
    obtain ⟨hunits, hdump, hsticky⟩ := recoverHang_leaves block h.ctx x (s.hangFenced u h.ctx x block)
    have hword : ∃ old, old.getLsbD 9 = true ∧ (s.hangFenced u h.ctx x block).sticky.rstHang =
        orBit (hangWord old block false h.ctx u.cls u.idx) 31 := ⟨_, orBit_self _ (by decide), rfl⟩
    obtain ⟨old, hold, hword⟩ := hword
    have hunit : (recoverHang block h.ctx x (s.hangFenced u h.ctx x block)).unit? u.cls =
        some { uc.leave u.idx with fenced := (u.idx, h.ctx) :: uc.fenced } := by
      rw [State.unit?, hunits]
      exact hangFenced_unit? hu block
    refine ⟨_, _, hexec, hunit, List.mem_cons_self, fun hspare => ?_, fun hspare => ?_, ?_, ?_, ?_, ?_, fun hwhole => ?_,
      fun c g hscope hctx hc hgen => ?_⟩
    · obtain ⟨p, hp⟩ := Option.isSome_iff_exists.mp hspare
      rw [UnitClass.leave, hp]
      exact ⟨rfl, rfl⟩
    · rw [UnitClass.leave, hspare]
      exact ⟨rfl, rfl⟩
    · rw [hdump]
      rfl
    · rw [hdump]
      rfl
    · rw [hsticky, hword]
      exact orBit_self _ (by decide)
    · rw [hsticky, hword]
      exact orBit_of_bit (hangWord_bit9 hold _ _ _ _ _)
    · have htrue : block = true := by
        rw [← hblock]
        obtain hscope | hctx | hctx := hwhole
        · rw [hscope, Bool.true_or]
        · rw [hctx, Option.any_none]
          exact Bool.or_true _
        · rw [hctx, Option.any_some]
          exact Bool.or_true _
      rw [htrue, recoverHang_block]
      exact ⟨rfl, rfl, rfl⟩
    · have hfalse : block = false := by
        rw [← hblock, hscope, hctx, Option.any_some, bne_iff_ne.mpr hc]
        rfl
      have hgen' : (s.hangFenced u h.ctx x block).heldGen c = some g := hgen
      have hreset := contextReset_reset c g (s.hangFenced u h.ctx x block)
      rw [hfalse, hctx] at hgen' hreset ⊢
      rw [recoverHang_ctx hgen']
      exact ⟨hreset.resetDue, fun y hy => (hreset.life y hy).1⟩
  case short =>
    rw [exec, execHangDetect, hfind]
    cases s.unit? u.cls with
    | none => rfl
    | some uc =>
      refine congrArg Host.Outcome.next (if_pos ?_)
      simp [Nat.lt_succ_of_le hrun]
  case reset =>
    have hexec := exec_unitReset (idx := idx) hu
    rw [if_pos (by rw [hfenced, hnone]; rfl)] at hexec
    have hback := unit?_onClass s (UnitClass.returned idx) (returned_cls idx) cls cls
    rw [if_pos rfl, hu, Option.map_some] at hback
    have hmarked := unit?_onClass (s.onClass cls (UnitClass.returned idx))
      (fun u => { u with resets := (idx, s.now) :: u.resets }) (fun _ => rfl) cls cls
    rw [if_pos rfl, hback, Option.map_some] at hmarked
    obtain ⟨hfen, hres⟩ := returned_kept idx u
    refine ⟨_, _, hexec, hmarked, hfen, congrArg (_ :: ·) hres, rfl, fun hown => ?_, fun htaken => ?_, rfl⟩
    · rw [UnitClass.returned, hown]
      exact ⟨rfl, rfl⟩
    · rw [UnitClass.returned, htaken]
      exact ⟨rfl, rfl⟩
  case unfenced => rw [exec_unitReset hu, hfree, Bool.false_and, if_neg Bool.false_ne_true]

end Sys2Proof.Machine

end


section
/-!
SUPPORT. Memory by bytes (09 R269, 05 R157): what a byte reads as, and what a write of bytes leaves of every byte.
-/

namespace Sys2Proof.Machine

/-- An index within a list needs no default. -/
theorem getD_of_lt {α : Type} {l : List α} {i : Nat} {d : α} (h : i < l.length) : l.getD i d = l[i] := by
  rw [List.getD_eq_getElem?_getD, List.getElem?_eq_getElem h, Option.getD_some]

/-! ## Writes of whole lines -/

/-- What a byte of memory reads as; one of a stale line does not depend on what is stored (09 R269). -/
def State.byteAt (s : State) (x : Nat) : Byte := if s.stale (x / 64) then Config.staleByte x else memRead s.mem.hbm x

theorem getBytes_eq (s : State) (a n : Nat) : s.getBytes a n = (List.range n).map fun i => s.byteAt (a + i) := rfl

theorem mem_staleLines {s : State} {a n l : Nat} :
    l ∈ s.staleLines a n ↔ a / 64 ≤ l ∧ l < (a + n + 63) / 64 ∧ s.stale l = true := by
  simp only [State.staleLines, List.mem_filter, List.mem_map, List.mem_range]
  constructor
  · rintro ⟨⟨i, hi, rfl⟩, hl⟩
    exact ⟨by omega, by omega, hl⟩
  · rintro ⟨hlo, hhi, hl⟩
    exact ⟨⟨l - a / 64, by omega, by omega⟩, hl⟩

theorem staleLine_length (l : Nat) : (staleLine l).length = 64 := by
  rw [staleLine, List.length_map, List.length_range]

/-- Stale lines that are written as they read change only their own bytes. -/
theorem memRead_staleLines (ls : List Nat) {m : List Host.Cell} (h : Memory.wf m = true) (x : Nat) :
    memRead (ls.foldl (fun m l => memWrites m (64 * l) (staleLine l)) m) x =
      if x / 64 ∈ ls then Config.staleByte x else memRead m x := by
  induction ls generalizing m with
  | nil => rfl
  | cons l ls ih =>
    rw [List.foldl_cons, ih (wf_memWrites _ _ h)]
    by_cases hrest : x / 64 ∈ ls
    · rw [if_pos hrest, if_pos (List.mem_cons_of_mem l hrest)]
    · rw [if_neg hrest]
      by_cases hl : x / 64 = l
      · rw [if_pos (by rw [hl]; exact List.mem_cons_self)]
        obtain ⟨i, hi, rfl⟩ : ∃ i, i < 64 ∧ x = 64 * l + i := ⟨x % 64, by omega, by omega⟩
        have hlen : i < (staleLine l).length := by rw [staleLine_length]; exact hi
        rw [memRead_memWrites _ _ i h hlen]
        simp only [staleLine, List.getElem_map, List.getElem_range]
      · rw [if_neg fun hx => (List.mem_cons.mp hx).elim hl hrest]
        exact memRead_memWrites_frame _ _ x h (by rw [staleLine_length]; omega)

/-! ## A write of bytes -/

section Put
variable {s : State} (a : Nat) (b : Bytes) (x : Nat)

theorem stale_putBytes : (putBytes a b s).stale x = (s.stale x && !(s.staleLines a b.length).contains x) := by
  have hpart : (putBytes a b s).stale x =
      (s.mem.rekeyed.any (fun c => s.inPart c (64 * x)) && !(s.mem.live ++ s.staleLines a b.length).contains x) := rfl
  rw [hpart, State.stale, List.contains_append, Bool.not_or, Bool.and_assoc]

/-- A byte that is written reads as written, and every other as before. -/
theorem byteAt_putBytes (h : Memory.wf s.mem.hbm = true) : (putBytes a b s).byteAt x =
    if a ≤ x ∧ x < a + b.length then b.getD (x - a) 0 else s.byteAt x := by
  have hhbm : (putBytes a b s).mem.hbm =
      memWrites ((s.staleLines a b.length).foldl (fun m l => memWrites m (64 * l) (staleLine l)) s.mem.hbm) a b := rfl
  have hfold := wf_writeEach (64 * ·) staleLine (s.staleLines a b.length) h
  rw [State.byteAt, stale_putBytes, hhbm]
  have hmem : (s.staleLines a b.length).contains (x / 64) = true ↔ x / 64 ∈ s.staleLines a b.length := List.contains_iff_mem
  by_cases hin : a ≤ x ∧ x < a + b.length
  · obtain ⟨i, rfl⟩ : ∃ i, x = a + i := ⟨x - a, by omega⟩
    have hi : i < b.length := by omega
    have hlive : (s.stale ((a + i) / 64) && !(s.staleLines a b.length).contains ((a + i) / 64)) = false := by
      cases hst : s.stale ((a + i) / 64) with
      | false => rfl
      | true =>
        rw [hmem.mpr (mem_staleLines.mpr ⟨by omega, by omega, hst⟩)]
        rfl
    rw [if_pos hin, hlive, if_neg Bool.false_ne_true, memRead_memWrites _ _ i hfold hi, Nat.add_sub_cancel_left,
      getD_of_lt hi]
  · rw [if_neg hin, memRead_memWrites_frame _ _ x hfold (by omega), memRead_staleLines _ h, State.byteAt]
    by_cases hold : x / 64 ∈ s.staleLines a b.length
    · obtain ⟨-, -, hst⟩ := mem_staleLines.mp hold
      rw [hmem.mpr hold, hst, if_pos hold]
      rfl
    · rw [Bool.eq_false_iff.mpr (mt hmem.mp hold), if_neg hold, Bool.not_false, Bool.and_true]

variable {a b x}

/-- The bytes written read back (05 R157). -/
theorem getBytes_putBytes (h : Memory.wf s.mem.hbm = true) : (putBytes a b s).getBytes a b.length = b := by
  rw [getBytes_eq]
  refine List.ext_getElem (by rw [List.length_map, List.length_range]) fun i h₁ h₂ => ?_
  rw [List.getElem_map, List.getElem_range, byteAt_putBytes a b _ h, if_pos ⟨by omega, by omega⟩, Nat.add_sub_cancel_left,
    getD_of_lt h₂]

/-- Bytes beside those that are written read as before. -/
theorem getBytes_putBytes_beside (h : Memory.wf s.mem.hbm = true) {n : Nat} (hx : x + n ≤ a ∨ a + b.length ≤ x) :
    (putBytes a b s).getBytes x n = s.getBytes x n := by
  rw [getBytes_eq, getBytes_eq]
  refine List.map_congr_left fun i hi => ?_
  have hlt := List.mem_range.mp hi
  rw [byteAt_putBytes a b _ h, if_neg (by omega)]

end Put

end Sys2Proof.Machine

end


section
/-!
PROOFS. Turns of the steward (15 R409, R411), the management network (R420) and status pages (R421).
-/

namespace Sys2Proof.Machine

/-! ## What the mailbox service reads -/

theorem drawLines_eq (n : Nat) (s : State) : ∃ a, drawLines n s = { s with hfAllow := a } := by
  rw [drawLines]
  split
  · exact ⟨_, rfl⟩
  · exact ⟨s.hfAllow, rfl⟩

/-- One pass is one look at slot H, whether or not a post stands there (R409). -/
theorem turnPasses_one (n : Nat) (host : HostView) (s : State) : turnPasses n host 1 s = turnPass n host s := by
  rw [turnPasses]
  split
  · rfl
  · rfl

theorem exec_mailboxTurn_pass {s : State} (hscan : s.stw.scanning = true) (host : HostView) :
    exec (.mailboxTurn false 1 host) s = .next (turnPass (turnMailbox s.cfg.shareCount (s.stw.turn - 1)) host s) := by
  rw [exec, execMailboxTurn, hscan]
  exact congrArg Host.Outcome.next (turnPasses_one _ host s)

/-! ## Slots -/

section Slot
variable {s : State} {n : Nat} {m : Mbx} {host : HostView} {b : Bytes}

theorem turnPass_match (hm : s.mbx? n = some m) (hslot : s.slotBytes n m.h host = some b) (hdraw : s.mayDraw 4 = true)
    (hrun : m.running = none) (hwait : m.waiting.length < 16) (hpost : s.postMatches m b = true) :
    ∃ a, turnPass n host s = takeSlot n m b { s with hfAllow := a } := by
  obtain ⟨a, ha⟩ := drawLines_eq 4 s
  have hfree : ¬(m.running.isSome || 16 ≤ m.waiting.length || !s.mayDraw 4) = true := by
    rw [hrun, hdraw, Option.isSome_none, Bool.false_or, Bool.not_true, Bool.or_false, decide_eq_true_eq]
    omega
  refine ⟨a, ?_⟩
  rw [turnPass, hm]
  dsimp only
  rw [if_neg hfree, readSlot, hslot]
  dsimp only
  rw [if_pos hpost, ha]

/-- A slot whose POST is no next command is only read. -/
theorem turnPass_noMatch (hm : s.mbx? n = some m) (hpost : ∀ b, s.slotBytes n m.h host = some b → s.postMatches m b = false) :
    Only [.hfAllow, .cap, .sticky, .raisedNow, .out] s (turnPass n host s) := by
  rw [turnPass, hm]
  dsimp only
  split
  · exact Only.refl s
  · rw [readSlot]
    cases hslot : s.slotBytes n m.h host with
    | some b =>
      dsimp only
      rw [hpost b hslot, if_neg Bool.false_ne_true]
      exact drawLines_only.mono rfl
    | none =>
      dsimp only
      split
      · exact Only.step drawLines_only rfl (hostFaults_only.mono rfl)
      · exact Only.refl s

/-- The command of a slot as the steward takes it (R411, R413). -/
def State.takenCmd (s : State) (m : Mbx) (b : Bytes) : Cmd := { readCmd m.h b with turn := s.stw.turn, accepted := s.now }

/-- A post that passes every check becomes the running command. -/
theorem takeSlot_runs (hm : s.mbx? n = some m) (hslot : s.slotStatus n b = none) (hres : s.resumeStatus b = none)
    (hret : s.noReturn n = false) : MbxOnly s (takeSlot n m b s) ∧ ∃ upd, (takeSlot n m b s).mbx? n =
      some { m with h := (m.h + 1) % 64, seq := nextSeq m.seq, running := some (s.nameAtAccept (s.takenCmd m b)), upd := upd } := by
  let s₂ := (s.onMbx n fun m => { m with h := (m.h + 1) % 64, seq := nextSeq m.seq }).onMbx n fun x =>
    { x with running := some (s.nameAtAccept (s.takenCmd m b)) }
  have htake : takeSlot n m b s = if (s.takenCmd m b).op == 0x0101 then s₂ else writeEntry n (s.nameAtAccept (s.takenCmd m b)) s₂ := by
    rw [takeSlot, hslot, hres, hret]
    rfl
  have honly : MbxOnly s s₂ := (onMbx_mbxOnly s n _).trans (onMbx_mbxOnly _ n _)
  have hm₂ : s₂.mbx? n = some { m with h := (m.h + 1) % 64, seq := nextSeq m.seq, running := some (s.nameAtAccept (s.takenCmd m b)) } :=
    mbx?_onMbx_same (f := fun x => { x with running := some (s.nameAtAccept (s.takenCmd m b)) }) (fun _ => rfl)
      (mbx?_onMbx_same (f := fun m => { m with h := (m.h + 1) % 64, seq := nextSeq m.seq }) (fun _ => rfl) hm)
  rw [htake]
  split
  · exact ⟨honly, _, hm₂⟩
  · exact ⟨honly.trans (writeEntry_spec n _ s₂).1, writeEntry_mbx? hm₂⟩

/-- A post that fails a check is answered, and only a bad CRC sets a bit (R411). -/
theorem takeSlot_refused {e : Nat} (hm : s.mbx? n = some m) (hslot : s.slotStatus n b = some e) (hret : s.noReturn n = false) :
    ∃ raised, MbxOnly { s with
        sticky := if e = stBAD_CRC then { s.sticky with stw := orBit s.sticky.stw 29 } else s.sticky, raisedNow := raised }
      (takeSlot n m b s) ∧
    ∃ upd, (takeSlot n m b s).mbx? n = some { m with h := (m.h + 1) % 64, seq := nextSeq m.seq, upd := upd } := by
  let s₁ := s.onMbx n fun m => { m with h := (m.h + 1) % 64, seq := nextSeq m.seq }
  have htake : takeSlot n m b s =
      writeEntry n { s.takenCmd m b with state := 4, status := e } (if e == stBAD_CRC then s₁.setBit .stw 29 else s₁) := by
    rw [takeSlot, hslot, hret]
    rfl
  have hm₁ : s₁.mbx? n = some { m with h := (m.h + 1) % 64, seq := nextSeq m.seq } :=
    mbx?_onMbx_same (f := fun m => { m with h := (m.h + 1) % 64, seq := nextSeq m.seq }) (fun _ => rfl) hm
  rw [htake]
  by_cases hcrc : e = stBAD_CRC
  · rw [if_pos (beq_iff_eq.mpr hcrc), if_pos hcrc]
    exact ⟨s.raisedNow.set .stw 29,
      (onMbx_mbxOnly { s with sticky := s.sticky.set .stw 29, raisedNow := s.raisedNow.set .stw 29 } n _).trans
        (writeEntry_spec n _ (s₁.setBit .stw 29)).1, writeEntry_mbx? (s := s₁.setBit .stw 29) hm₁⟩
  · rw [if_neg (mt beq_iff_eq.mp hcrc), if_neg hcrc]
    exact ⟨s.raisedNow, (onMbx_mbxOnly s n _).trans (writeEntry_spec n _ s₁).1, writeEntry_mbx? hm₁⟩

end Slot

/-! ## The management network -/

theorem slice_length (b : Bytes) (o n : Nat) : (slice b o n).length = n := by
  rw [slice, List.length_append, List.length_replicate, List.length_take]
  omega

/-- The source may send service commands (R420, 21 R545). -/
def State.mgmtListed (s : State) (src : NetSource) : Bool :=
  s.cfg.mgmtSources.contains src.addr || (s.mode == .bivouac && !s.cfg.hasMgmt)

theorem mgmtListed_iff (s : State) (src : NetSource) :
    s.mgmtListed src = true ↔ src.addr ∈ s.cfg.mgmtSources ∨ s.mode = .bivouac ∧ s.cfg.hasMgmt = false := by
  simp only [State.mgmtListed, Bool.or_eq_true, List.contains_iff_mem, Bool.and_eq_true, beq_iff_eq, Bool.not_eq_true']

section Mgmt
variable {s : State} {src : NetSource} {p : Bytes} (hruns : s.runsAs .tray = true)
include hruns

theorem exec_mgmtDatagram : exec (.mgmtDatagram src p) s = .next
    (if s.straps.mgmtEn = true ∧ s.mgmtListed src = true ∧ p.length = 260 ∧ fld p 0 4 < 64 then
      let s₁ := putBytes (s.winAddr (0x1000000 + 0x4000 * 16 + 256 * fld p 0 4)) (slice p 4 256) s
      { s₁ with stw := { s₁.stw with mgmtFrom := putBack (·.1 == fld p 0 4) (fld p 0 4, src) s₁.stw.mgmtFrom } }
    else s.setBit .stw 28) := by
  rw [exec, execMgmtDatagram, onTray_of_runs hruns]
  refine congrArg Host.Outcome.next ?_
  dsimp only
  have hcond : (!s.straps.mgmtEn || !s.mgmtListed src || p.length != 260 || decide (64 ≤ fld p 0 4)) = true ↔
      ¬(s.straps.mgmtEn = true ∧ s.mgmtListed src = true ∧ p.length = 260 ∧ fld p 0 4 < 64) := by
    simp only [Bool.or_eq_true, Bool.not_eq_true', bne_iff_ne, decide_eq_true_eq, ← Bool.not_eq_true,
      Classical.not_and_iff_not_or_not, ne_eq, Nat.not_lt, or_assoc]
  by_cases hok : s.straps.mgmtEn = true ∧ s.mgmtListed src = true ∧ p.length = 260 ∧ fld p 0 4 < 64
  · exact (if_neg fun h => hcond.mp h hok).trans (if_pos hok).symm
  · exact (if_pos (hcond.mpr hok)).trans (if_neg hok).symm

end Mgmt

/-! ## Status pages -/

/-- The page of mailbox n, when it is due (R421). -/
def statusPage (k : Nat) (flag : BitVec 64) (s : State) (n : Nat) : State :=
  if s.retBase n = 0 || !(n == 16 || n < s.cfg.shareCount || n == 0) || !s.mayDraw 16 then s
  else s.storeOut (mbxCtx n) (s.retBase n + 0x4000) (if n == 16 then s.servicePage k else s.contextPage n k) flag

/-- The flag word of the service page as the profile sends it (R421). -/
def State.pageFlag (s : State) (flag : BitVec 64) : Out :=
  if s.isLeaf then .hfFlag (s.retBase 16 + 0x4000) flag else .flag 0 (s.retBase 16 + 0x4000) flag

/-- Pages that have gone out: only the lanes, the allowance and what is sent have changed. -/
def PagesOut (s t : State) (l : List Out) : Prop := ∃ a lanes, t = { s with hfAllow := a, lanes := lanes, out := s.out ++ l }

theorem pageLine_length (ws : List Word) (k : Nat) : (pageLine ws k).length = 64 := by
  rw [pageLine, List.length_append, List.length_append, slice_length]
  rfl

/-- The bytes of n pages' lines (R422, 20 R530). -/
theorem length_flatMap_pageLines {α : Type} (f : α → List Word) (k : Nat) (l : List α) :
    (l.flatMap fun x => pageLine (f x) k).length = 64 * l.length := by
  induction l with
  | nil => rfl
  | cons x l ih =>
    rw [List.flatMap_cons, List.length_append, ih, pageLine_length, List.length_cons]
    omega

theorem servicePage_length (s : State) (k : Nat) : (s.servicePage k).length = 960 := by
  rw [State.servicePage]
  rw [List.length_append, List.length_append, length_flatMap_pageLines, length_flatMap_pageLines, length_flatMap_pageLines]
  rfl

theorem contextPage_length (s : State) (n k : Nat) : (s.contextPage n k).length = 960 := by
  rw [State.contextPage]
  rw [List.length_append, length_flatMap_pageLines]
  rfl

theorem linesOf_length (b : Bytes) : (linesOf b).length = (b.length + 63) / 64 := by
  rw [linesOf, List.length_map, List.length_range]

/-- A page of 15 lines and its flag word go out together (R421). -/
theorem storeOut_pagesOut (ctx addr : Nat) {lines : Bytes} (hlines : lines.length = 960) (flag : BitVec 64) (s : State) :
    ∃ l, PagesOut s (s.storeOut ctx addr lines flag) l ∧ s.hfAllow - 25600 ≤ (s.storeOut ctx addr lines flag).hfAllow ∧
      (if s.isLeaf then Out.hfFlag addr flag else Out.flag ctx addr flag) ∈ l := by
  unfold State.storeOut
  cases hleaf : s.isLeaf with
  | true =>
    rw [drawLines, hleaf, linesOf_length, hlines, if_pos rfl, if_pos rfl, if_pos rfl]
    exact ⟨_, ⟨_, _, rfl⟩, Int.le_refl _, List.mem_append_right _ List.mem_cons_self⟩
  | false =>
    rw [if_neg Bool.false_ne_true, if_neg Bool.false_ne_true]
    generalize hsent : State.issue s _ = t
    obtain ⟨lanes, rfl⟩ : LanesOnly (s.emits _) t := hsent ▸ issue_lanesOnly s _
    exact ⟨_, ⟨_, _, rfl⟩, Int.sub_le_self _ (by decide), List.mem_append_right _ List.mem_cons_self⟩

theorem statusPage_pagesOut (k : Nat) (flag : BitVec 64) (s : State) (n : Nat) :
    ∃ l, PagesOut s (statusPage k flag s n) l ∧ s.hfAllow - 25600 ≤ (statusPage k flag s n).hfAllow ∧
      (n = 16 → s.retBase 16 ≠ 0 → s.mayDraw 16 = true → s.pageFlag flag ∈ l) := by
  rw [statusPage]
  split
  · next hno =>
    refine ⟨[], ⟨_, _, by rw [List.append_nil]⟩, Int.sub_le_self _ (by decide), fun hn hret hdraw => ?_⟩
    subst hn
    rw [hdraw, decide_eq_false hret] at hno
    cases hno
  · have hlines : (if n == 16 then s.servicePage k else s.contextPage n k).length = 960 := by
      split
      · exact servicePage_length s k
      · exact contextPage_length s n k
    obtain ⟨l, hout, hallow, hflag⟩ := storeOut_pagesOut (mbxCtx n) (s.retBase n + 0x4000) hlines flag s
    refine ⟨l, hout, hallow, fun hn _ _ => ?_⟩
    subst hn
    exact hflag

/-- Every page is written from the same mailboxes; the service page finds its allowance where all pages have one (R57). -/
theorem statusPages_pagesOut (k : Nat) (flag : BitVec 64) (ns : List Nat) (s : State) :
    ∃ l, PagesOut s (ns.foldl (statusPage k flag) s) l ∧
      (16 ∈ ns → s.retBase 16 ≠ 0 → s.isLeaf = false ∨ 25600 * (ns.length : Int) ≤ s.hfAllow → s.pageFlag flag ∈ l) := by
  induction ns generalizing s with
  | nil => exact ⟨[], ⟨_, _, by rw [List.append_nil]; rfl⟩, fun h => nomatch h⟩
  | cons n ns ih =>
    obtain ⟨l₁, hout, hallow, hflag⟩ := statusPage_pagesOut k flag s n
    obtain ⟨l₂, hout₂, hflag₂⟩ := ih (statusPage k flag s n)
    rw [List.foldl_cons]
    generalize (ns.foldl (statusPage k flag) (statusPage k flag s n)) = t at hout₂
    generalize statusPage k flag s n = u at hout hallow hout₂ hflag₂
    obtain ⟨a, lanes, rfl⟩ := hout
    obtain ⟨_, _, rfl⟩ := hout₂
    refine ⟨l₁ ++ l₂, ⟨_, _, by rw [List.append_assoc]⟩, fun hmem hret hfits => ?_⟩
    rw [List.length_cons, Int.natCast_add] at hfits
    rcases List.mem_cons.mp hmem with rfl | hrest
    · refine List.mem_append_left _ (hflag rfl hret ?_)
      rw [State.mayDraw, Bool.or_eq_true, Bool.not_eq_true', decide_eq_true_eq]
      exact hfits.imp_right fun h => by omega
    · refine List.mem_append_right _ (hflag₂ hrest hret (hfits.imp_right fun h => ?_))
      dsimp only at hallow ⊢
      omega

section Pages
variable {s : State} {b : Boundary} {bs : List Boundary} (hpast : s.sched.past = b :: bs)
include hpast

theorem boundary?_curEpoch : s.boundary? b.k = some b := by
  rw [State.boundary?, hpast]
  exact List.find?_cons_of_pos (beq_iff_eq.mpr rfl)

theorem exec_statusPageWrite_due (hscan : s.stw.scanning = true) (hdue : b.t + nsT 60000 ≤ s.now)
    (hepochs : b.k % max 1 s.cfg.statusEpochs = 0) :
    exec .statusPageWrite s = .next ((s.stw.mbxs.map (·.n)).foldl (statusPage b.k (BitVec.ofNat 64 (b.k + 1))) s) := by
  have hcur : s.curEpoch = b.k := by rw [State.curEpoch, hpast]
  have hno : ¬(!s.stw.scanning || !decide (b.t + nsT 60000 ≤ s.now) || b.k % max 1 s.cfg.statusEpochs != 0) = true := by
    rw [hscan, decide_eq_true hdue, hepochs]
    exact Bool.false_ne_true
  rw [exec, execStatusPageWrite, hcur]
  dsimp only
  rw [boundary?_curEpoch hpast]
  exact congrArg Host.Outcome.next (if_neg hno)

theorem exec_statusPageWrite_before (hbefore : s.now < b.t + nsT 60000) : exec .statusPageWrite s = .next s := by
  have hcur : s.curEpoch = b.k := by rw [State.curEpoch, hpast]
  have hno : (!s.stw.scanning || !decide (b.t + nsT 60000 ≤ s.now) || b.k % max 1 s.cfg.statusEpochs != 0) = true := by
    rw [decide_eq_false (Nat.not_le.mpr hbefore), Bool.not_false, Bool.or_true, Bool.true_or]
  rw [exec, execStatusPageWrite, hcur]
  dsimp only
  rw [boundary?_curEpoch hpast]
  exact congrArg Host.Outcome.next (if_pos hno)

end Pages

/-! ## The statement -/

/-- Settles O44. A pass of a turn is one look at slot H, which reads it with no effect on the mailboxes, takes it as the
running command or answers it; a datagram is one write of bytes; the pages go out one mailbox after another. -/
theorem mailboxTurnsTakePosts : Obligations.MailboxTurnsTakePosts := by
  refine ⟨fun s hscan b n host => ?_, fun s m host hscan hm hwait => ?_,
    fun s m host b hslot hdraw hscan hm hrun hwait hpost hstatus hres hret => ?_,
    fun s m host b e hslot hdraw hscan hm hrun hwait hpost hstatus hret => ?_,
    fun s m host hscan hm hpost => ?_, fun s src p slot hruns hen hlisted hlen hslot hlt hwf _ => ?_,
    fun s src p hruns hbad => ?_, fun s b bs hpast hscan hdue hepochs => ?_,
    fun s b bs hpast hbefore => exec_statusPageWrite_before hpast hbefore⟩
  · rw [exec, execMailboxTurn, hscan]
    rfl
  · let s₁ := { s with stw := { s.stw with turn := s.stw.turn + 1, heart := s.stw.heart + 1, beatAt := s.edges } }
    have hm₁ : s₁.mbx? (turnMailbox s.cfg.shareCount s.stw.turn) = some m := (mbx?_of_mbxs rfl _).trans hm
    have hidle : progressAll (turnMailbox s.cfg.shareCount s.stw.turn) s₁ = s₁ := by
      rw [progressAll, hm₁]
      dsimp only
      rw [hwait, List.foldl_nil]
    rw [exec, execMailboxTurn, hscan]
    exact congrArg Host.Outcome.next hidle
  · obtain ⟨a, ha⟩ := turnPass_match hm hslot hdraw hrun hwait hpost
    obtain ⟨honly, upd, hbox⟩ := takeSlot_runs (s := { s with hfAllow := a }) hm hstatus hres hret
    refine ⟨_, _, (exec_mailboxTurn_pass hscan host).trans (congrArg _ ha), hbox, rfl, rfl, rfl, rfl, ?_⟩
    generalize takeSlot _ m b _ = u at honly
    obtain ⟨_, _, _, _, rfl, -⟩ := honly
    rfl
  · obtain ⟨a, ha⟩ := turnPass_match hm hslot hdraw hrun hwait hpost
    obtain ⟨raised, honly, upd, hbox⟩ := takeSlot_refused (s := { s with hfAllow := a }) hm hstatus hret
    refine ⟨_, _, (exec_mailboxTurn_pass hscan host).trans (congrArg _ ha), hbox, hrun, rfl, rfl, rfl, ?_⟩
    generalize takeSlot _ m b _ = u at honly
    obtain ⟨_, _, _, _, rfl, -⟩ := honly
    exact ⟨rfl, rfl⟩
  · have honly := turnPass_noMatch hm hpost
    exact ⟨_, exec_mailboxTurn_pass hscan host, honly.same .stw rfl, honly.same .ctxs rfl, honly.same .mem rfl,
      honly.same .lanes rfl⟩
  · subst hslot
    rw [exec_mgmtDatagram hruns, if_pos ⟨hen, (mgmtListed_iff s src).mpr hlisted, hlen, hlt⟩]
    generalize s.winAddr (0x1000000 + 0x4000 * 16 + 256 * fld p 0 4) = a
    have hback : (putBytes a (slice p 4 256) s).getBytes a 256 = slice p 4 256 := by
      have h := getBytes_putBytes (s := s) (a := a) (b := slice p 4 256) hwf
      rwa [slice_length] at h
    refine ⟨_, rfl, hback, List.mem_append_right _ List.mem_cons_self, fun x hx => ?_, rfl⟩
    exact getBytes_putBytes_beside (a := a) (b := slice p 4 256) hwf (by rw [slice_length]; omega)
  · rw [exec_mgmtDatagram hruns, if_neg]
    · exact ⟨_, rfl, rfl⟩
    · rintro ⟨hen, hlisted, hlen, hlt⟩
      rw [mgmtListed_iff] at hlisted
      rcases hbad with h | h | h | ⟨hno, hmode⟩
      · rw [hen] at h
        cases h
      · exact h hlen
      · omega
      · rcases hlisted with h | ⟨hbiv, hmgmt⟩
        · exact hno h
        · rcases hmode with h | h
          · exact h hbiv
          · rw [hmgmt] at h
            cases h
  · obtain ⟨l, hout, hflag⟩ := statusPages_pagesOut b.k (BitVec.ofNat 64 (b.k + 1)) (s.stw.mbxs.map (·.n)) s
    refine ⟨_, l, exec_statusPageWrite_due hpast hscan hdue hepochs, ?_⟩
    generalize List.foldl _ s _ = u at hout
    obtain ⟨a, lanes, rfl⟩ := hout
    refine ⟨rfl, rfl, fun m hmem hn hret hfits => ?_⟩
    have hin := hflag (List.mem_map.mpr ⟨m, hmem, hn⟩) hret (hfits.imp (fun h => ?_) fun h => ?_)
    · rw [State.pageFlag] at hin
      refine ⟨fun hleaf => ?_, fun htray => ?_⟩
      · rwa [if_pos ((isLeaf_iff s).mpr hleaf)] at hin
      · rwa [if_neg fun h => by rw [(isLeaf_iff s).mp h] at htray; cases htray] at hin
    · rw [State.isLeaf, h]
      rfl
    · rw [List.length_map]
      omega

end Sys2Proof.Machine

end


section
/-!
PROOFS. The start of a team (21 R550), the phases of an attach (18 R483), the twin's echoes (15 R418) and the answers of leaves to
an image (16 R428).
-/

namespace Sys2Proof.Machine

/-! ## Entries of a tray block -/

section Entries
variable {s t u : State} {n : Nat} {c : Cmd}

/-- Only mailboxes and what is sent have changed, and at a tray block no allowance, which only a leaf has (02 R57). -/
def EntriesOnly (s t : State) : Prop := MbxOnly s t ∧ (s.profile = .tray → t.hfAllow = s.hfAllow)

theorem EntriesOnly.refl (s : State) : EntriesOnly s s := ⟨.refl s, fun _ => rfl⟩

theorem MbxOnly.profile (h : MbxOnly s t) : t.profile = s.profile := by
  obtain ⟨_, _, _, _, rfl, -⟩ := h
  rfl

theorem EntriesOnly.trans (h : EntriesOnly s t) (k : EntriesOnly t u) : EntriesOnly s u :=
  ⟨h.1.trans k.1, fun htray => (k.2 (h.1.profile.trans htray)).trans (h.2 htray)⟩

theorem onMbx_entriesOnly (s : State) (n : Nat) (f : Mbx → Mbx) : EntriesOnly s (s.onMbx n f) := ⟨onMbx_mbxOnly s n f, fun _ => rfl⟩

theorem isLeaf_of_tray (h : s.profile = .tray) : s.isLeaf = false := by
  rw [State.isLeaf, h]
  rfl

theorem storeOut_hfAllow (htray : s.profile = .tray) (ctx addr : Nat) (lines : Bytes) (flag : BitVec 64) :
    (s.storeOut ctx addr lines flag).hfAllow = s.hfAllow := by
  rw [State.storeOut, isLeaf_of_tray htray, if_neg Bool.false_ne_true]
  generalize hsent : State.issue s _ = t
  obtain ⟨lanes, rfl⟩ : LanesOnly (s.emits _) t := hsent ▸ issue_lanesOnly s _
  rfl

theorem writeEntry_entriesOnly (n : Nat) (c : Cmd) (s : State) : EntriesOnly s (writeEntry n c s) := by
  refine ⟨(writeEntry_spec n c s).1, fun htray => ?_⟩
  unfold writeEntry
  cases hm : s.mbx? n with
  | none => rfl
  | some m =>
    dsimp only
    generalize hs2 : (if s.retBase n = 0 then _ else _) = s2
    have hkept : s2.hfAllow = s.hfAllow := by
      rw [← hs2]
      split
      · rfl
      · exact storeOut_hfAllow (s := s.onMbx n _) htray _ _ _ _
    split
    · exact hkept
    · exact hkept

/-- What it does of a mailbox at a tray block, all in one. -/
theorem EntriesOnly.tray (h : EntriesOnly s t) (htray : s.profile = .tray) :
    t = { s with stw := { s.stw with mbxs := t.stw.mbxs }, out := t.out, lanes := t.lanes } := by
  obtain ⟨⟨mbxs, hfAllow, lanes, out, rfl, -⟩, hallow⟩ := h
  obtain rfl : hfAllow = s.hfAllow := hallow htray
  rfl

theorem foldl_entriesOnly {α : Type} (f : State → α → State) (h : ∀ s x, EntriesOnly s (f s x)) (l : List α) (s : State) :
    EntriesOnly s (l.foldl f s) := by
  induction l generalizing s with
  | nil => exact .refl s
  | cons x l ih => exact (h s x).trans (ih (f s x))

theorem attachCursor_entriesOnly (phase bytes : Nat) (s : State) : EntriesOnly s (attachCursor phase bytes s) :=
  foldl_entriesOnly _ (fun s (m : Mbx) => foldl_entriesOnly _ (fun s (c : Cmd) => EntriesOnly.trans
    (onMbx_entriesOnly s m.n _) (writeEntry_entriesOnly m.n { c with cursor := phase * 2 ^ 56 + bytes } _)) _ s) _ s

end Entries

/-! ## Waiting commands -/

/-- A command in the place of another that waits (R410). -/
def replaceCmd (old new : Cmd) (l : List Cmd) : List Cmd := l.map fun c => if c = old then new else c

theorem setWaiting_some (n : Nat) (old new : Cmd) (s : State) :
    setWaiting n old (some new) s = s.onMbx n fun m => { m with waiting := replaceCmd old new m.waiting } := by
  have hlist : ∀ l : List Cmd, (l.flatMap fun c => if c == old then (some new).toList else [c]) = replaceCmd old new l := by
    intro l
    induction l with
    | nil => rfl
    | cons c l ih =>
      rw [List.flatMap_cons, ih, replaceCmd, replaceCmd, List.map_cons]
      by_cases h : c = old
      · rw [if_pos (beq_iff_eq.mpr h), if_pos h]
        rfl
      · rw [if_neg (mt beq_iff_eq.mp h), if_neg h]
        rfl
  simp only [setWaiting, hlist]

theorem mem_replaceCmd {old : Cmd} (new : Cmd) {l : List Cmd} (h : old ∈ l) : new ∈ replaceCmd old new l :=
  List.mem_map.mpr ⟨old, h, if_pos rfl⟩

theorem replaceCmd_length (old new : Cmd) (l : List Cmd) : (replaceCmd old new l).length = l.length := List.length_map ..

/-! ## START_WAIT -/

section Start
variable {s : State} (htray : s.profile = .tray)
include htray

theorem exec_startWait_alone (hmode : s.mode = .starting) (hset : s.tim.state.settable = false)
    (hagreed : s.stw.bnd.any (fun x => x.act == .teamStart && x.echoed) = false)
    (hsince : s.twin.startSince + nsT s.cfg.startWaitNs ≤ s.now)
    (hquiet : s.cfg.side = .a ∨ (s.red.reports.any fun r => r.2.1 == 5 && r.2.2 == 0) = false ∧
      ∀ t, s.twin.sideASeen = some t → t + nsT s.cfg.startWaitNs ≤ s.now) :
    exec .startWait s = .next { s with
      stw := { s.stw with
        bnd := (s.stw.bnd.filter fun x => x.act != .teamStart) ++ [⟨s.curEpoch + 1, .teamStart, true, s.stw.turn⟩] }
      twin := { s.twin with startAt := none } } := by
  have hruns : s.runsAs .tray = true := (runsAs_iff s .tray).mpr ⟨htray, by rw [State.clocked, hmode]⟩
  rw [exec, execStartWait, onTray_of_runs hruns, hmode, hagreed, hset]
  dsimp only
  simp only [decide_eq_true hsince, Bool.true_and]
  rcases hquiet with hside | ⟨hreports, hseen⟩
  · rw [hside]
    rfl
  · rw [hreports]
    cases s.cfg.side with
    | a => rfl
    | b =>
      cases hat : s.twin.sideASeen with
      | none => rfl
      | some t =>
        dsimp only
        simp only [decide_eq_true (hseen t hat)]
        rfl

theorem exec_startWait_other (hmode : s.mode ≠ .starting) : exec .startWait s = .next s := by
  rw [exec, execStartWait, onTray, onTrayEver_of_tray htray, whenClocked]
  refine congrArg Host.Outcome.next ?_
  split
  · dsimp only
    rw [if_pos]
    rw [bne_iff_ne.mpr hmode]
    rfl
  · rfl

end Start

/-! ## The phases of an attach -/

theorem exec_attachPhase_carrier {s : State} {a : Attach} {copy : TwinCopy} (p : AttachPhase) (n : Nat)
    (hruns : s.runsAs .tray = true) (hcopy : copy ≠ .refused) (hattach : s.twin.attach = some a) (hcarrier : a.carrier = true) :
    exec (.attachPhase p n copy) s = .next (carrierPhase a p n s) := by
  rw [exec, execAttachPhase, onTray_of_runs hruns, hattach]
  dsimp only
  rw [hcarrier, if_neg (by decide), if_neg (mt beq_iff_eq.mp hcopy)]

theorem sendTwin_lanesOnly (b : Bytes) (s : State) : LanesOnly s (sendTwin b s) := sendMsgAll_lanesOnly ..

/-! ## Images at a leaf -/

section Image
variable {s : State} {c op : Nat} {p img : Bytes} (hleaf : s.profile = .leaf)
include hleaf

theorem exec_leafImageLoad_arrived : exec (.leafImageLoad (.arrived c op p img)) s = .next (leafTakes c op p img s) := by
  rw [exec]
  unfold execLeafImageLoad
  rw [hleaf]

theorem exec_leafImageLoad_named (c b : Nat) : exec (.leafImageLoad (.named c b)) s = .next (leafNamed c b s) := by
  rw [exec]
  unfold execLeafImageLoad
  rw [hleaf]

end Image

theorem exec_leafImageLoad_answered {s : State} (htray : s.profile = .tray) (n leaf : Nat) (st : BitVec 16) :
    exec (.leafImageLoad (.answered n leaf st)) s = .next (leafAnswered n leaf st.toNat s) := by
  rw [exec]
  unfold execLeafImageLoad
  rw [htray]

/-- The answer of one leaf, with others still to come. -/
theorem leafAnswered_counts {s : State} {n x y st : Nat} {l : List Nat} {m : Mbx} {c : Cmd} (hm : s.mbx? n = some m)
    (hwait : m.waiting = [c]) (hids : c.wait = .leaves (x :: y :: l)) (hx : x ∉ y :: l) :
    let c₁ := { c with cursor := c.cursor + 1, result := countLeaf c.result x st, wait := .leaves (y :: l) }
    leafAnswered n x st s = writeEntry n c₁ (setWaiting n c (some c₁) s) := by
  obtain ⟨slot, seq, gen, op, resume, tag, payload, crc, state, status, cursor, result, wait, echoed, turn, accepted⟩ := c
  dsimp only at hids
  subst hids
  have hleft : (x :: y :: l).filter (· != x) = y :: l := by
    rw [List.filter_cons_of_neg (by rw [bne_self_eq_false]; exact Bool.false_ne_true)]
    exact List.filter_eq_self.mpr fun z hz => bne_iff_ne.mpr fun h => hx (h ▸ hz)
  have hin : (x :: y :: l).contains x = true := List.contains_iff_mem.mpr List.mem_cons_self
  rw [leafAnswered]
  dsimp only
  rw [hm, Option.bind_some, hwait, List.find?_cons_of_pos (by exact hin)]
  simp only [hleft]
  rfl

/-! ## The statement -/

/-- Settles O45. Each message moves one list of the steward: the queue of effects at boundaries, the commands that wait in a
mailbox, or the attach in progress. -/
theorem twinsStartAttachAndRelay : Obligations.TwinsStartAttachAndRelay := by
  refine ⟨fun s htray hmode hset hagreed hsince hquiet => exec_startWait_alone htray hmode hset hagreed hsince hquiet,
    fun s htray hmode => exec_startWait_other htray hmode,
    fun s a n copy hruns hcopy hattach hcarrier hphase => ?_,
    fun s a n copy hruns hcopy hattach hcarrier hphase => ?_,
    fun s n m c hruns hm hfind hop => ?_, fun s n hruns => ?_, fun s b hruns hb => ?_, fun s b hruns => ?_,
    fun s c b hleaf => exec_leafImageLoad_named hleaf c b, fun s c op p img hleaf hact => ?_,
    fun s c op p img a r hleaf hact himg => ?_, fun s n leaf st m c x y l htray hm hwait hids hleaf hx => ?_⟩
  · have htray := ((runsAs_iff s .tray).mp hruns).1
    have hcarry : carrierPhase a .bulk n s =
        attachCursor 2 n { s with twin := { s.twin with attach := some { a with phase := .bulk, bytes := max a.bytes n } } } := by
      unfold carrierPhase
      rw [hphase]
    have hu := (attachCursor_entriesOnly 2 n
      { s with twin := { s.twin with attach := some { a with phase := .bulk, bytes := max a.bytes n } } }).tray htray
    refine ⟨_, (exec_attachPhase_carrier .bulk n hruns hcopy hattach hcarrier).trans (congrArg _ hcarry), ?_, ?_⟩
    · rw [hu]
    · rw [hu]
  · have hcarry : ∀ p, p = AttachPhase.catchup ∨ p = .join → carrierPhase a p n s = s := by
      rintro p (rfl | rfl)
      · unfold carrierPhase
        rw [hphase]
      · unfold carrierPhase
        rw [hphase]
    exact ⟨(exec_attachPhase_carrier .catchup n hruns hcopy hattach hcarrier).trans (congrArg _ (hcarry _ (.inl rfl))),
      (exec_attachPhase_carrier .join n hruns hcopy hattach hcarrier).trans (congrArg _ (hcarry _ (.inr rfl)))⟩
  · have hecho : echoCommand n s = setWaiting n c (some { c with echoed := true }) s := by
      rw [echoCommand, hm, Option.bind_some, hfind]
      exact if_neg (mt beq_iff_eq.mp hop)
    rw [exec, execTeamRelayEcho, onTray_of_runs hruns]
    refine ⟨_, _, congrArg _ (hecho.trans (setWaiting_some ..)), mbx?_onMbx_same (f := fun m =>
      { m with waiting := replaceCmd c { c with echoed := true } m.waiting }) (fun _ => rfl) hm,
      mem_replaceCmd _ (List.mem_of_find?_eq_some hfind), replaceCmd_length .., rfl⟩
  · rw [exec, execTeamRelayEcho, onTray_of_runs hruns]
  · rw [exec, execTeamRelayEcho, onTray_of_runs hruns]
    refine ⟨_, rfl, List.map_congr_left fun x _ => ?_, rfl⟩
    by_cases h : x.b = b
    · exact (if_pos (Bool.and_eq_true_iff.mpr ⟨beq_iff_eq.mpr h, bne_iff_ne.mpr hb⟩)).trans (if_pos h).symm
    · exact (if_neg fun k => h (beq_iff_eq.mp (Bool.and_eq_true_iff.mp k).1)).trans (if_neg h).symm
  · rw [exec, execTeamRelayEcho, onTray_of_runs hruns]
    dsimp only
    rw [takeMove]
    dsimp only
    generalize hsent : sendTwin _ _ = t
    obtain ⟨lanes, rfl⟩ : LanesOnly _ t := hsent ▸ sendTwin_lanesOnly _ _
    exact ⟨_, rfl, rfl, rfl, rfl⟩
  · rw [exec_leafImageLoad_arrived hleaf, leafTakes]
    dsimp only
    rw [hact, Bool.not_false, if_pos rfl]
    generalize hsent : State.sendMsgAll .. = t
    obtain ⟨lanes, rfl⟩ : LanesOnly s t := hsent ▸ sendMsgAll_lanesOnly ..
    exact ⟨_, rfl, rfl⟩
  · rw [exec_leafImageLoad_arrived hleaf, leafTakes]
    dsimp only
    rw [hact, Bool.not_true, if_neg Bool.false_ne_true, himg]
    dsimp only
    generalize hsent : State.sendMsgAll .. = t
    obtain ⟨lanes, rfl⟩ : LanesOnly _ t := hsent ▸ sendMsgAll_lanesOnly ..
    exact ⟨_, rfl, rfl⟩
  · subst hleaf
    rw [exec_leafImageLoad_answered htray, leafAnswered_counts hm hwait hids hx, setWaiting_some]
    have hbox := mbx?_onMbx_same (f := fun m => { m with waiting := replaceCmd c { c with
      cursor := c.cursor + 1, result := countLeaf c.result leaf st.toNat, wait := .leaves (y :: l) } m.waiting }) (fun _ => rfl) hm
    obtain ⟨upd, hentry⟩ := writeEntry_mbx? (c := { c with
      cursor := c.cursor + 1, result := countLeaf c.result leaf st.toNat, wait := .leaves (y :: l) }) hbox
    refine ⟨_, _, rfl, hentry, ?_, ?_⟩
    · rw [hwait]
      exact congrArg (· :: []) (if_pos rfl)
    · exact ((onMbx_entriesOnly s n _).trans (writeEntry_entriesOnly n _ _)).tray htray

end Sys2Proof.Machine

end


section
/-!
PROOFS. Periods of the event recorder (19 R497, R501), the clock area (R492), per-second metrics (R494) and the unary counts in OTP
(R505, R508).
-/

namespace Sys2Proof.Machine

/-! ## OTP words -/

theorem find?_insertBy_of_neg {α : Type} (key : α → Nat) {p : α → Bool} {a : α} (h : p a = false) (l : List α) :
    (insertBy key a l).find? p = l.find? p := by
  induction l with
  | nil => rw [insertBy, List.find?_cons_of_neg (by rw [h]; exact Bool.false_ne_true)]
  | cons x l ih =>
    rw [insertBy]
    split
    · rw [List.find?_cons, List.find?_cons, ih]
    · rw [List.find?_cons_of_neg (by rw [h]; exact Bool.false_ne_true)]

theorem find?_insertBy_of_pos {α : Type} (key : α → Nat) {p : α → Bool} {a : α} (h : p a = true) {l : List α}
    (hl : ∀ x ∈ l, p x = false) : (insertBy key a l).find? p = some a := by
  induction l with
  | nil => rw [insertBy, List.find?_cons_of_pos h]
  | cons x l ih =>
    obtain ⟨hx, hl⟩ := List.forall_mem_cons.mp hl
    rw [insertBy]
    split
    · rw [List.find?_cons_of_neg (by rw [hx]; exact Bool.false_ne_true), ih hl]
    · rw [List.find?_cons_of_pos h]

theorem otpRead_eq (s : State) (x : Nat) : s.otpRead x = ((s.otp.find? (·.1 == x)).map (·.2)).getD 0 := by
  rw [State.otpRead]
  cases s.otp.find? (·.1 == x) with
  | none => rfl
  | some w => rfl

/-- Programming a word ORs into it and leaves every other word (19 R505). -/
theorem otpRead_otpProgram (s : State) (a : Nat) (v : BitVec 32) (x : Nat) :
    (s.otpProgram a v).otpRead x = if x = a then s.otpRead a ||| v else s.otpRead x := by
  let keep := s.otp.filter (·.1 != a)
  have hother : ∀ y, y ≠ a → keep.find? (·.1 == y) = s.otp.find? (·.1 == y) := by
    intro y hy
    rw [List.find?_filter]
    refine congrArg (fun p => s.otp.find? p) (funext fun w => ?_)
    rw [Bool.decide_and, Bool.decide_eq_true, Bool.decide_eq_true]
    by_cases h : w.1 = y
    · rw [beq_iff_eq.mpr h, Bool.and_true, bne_iff_ne]
      exact h ▸ hy
    · rw [beq_eq_false_iff_ne.mpr h, Bool.and_false]
  have hgone : ∀ w ∈ keep, (w.1 == a) = false := fun w hw => by
    have h := (List.mem_filter.mp hw).2
    rwa [bne_iff_ne, ← beq_eq_false_iff_ne] at h
  have hotp : (s.otpProgram a v).otp =
      if s.otpRead a ||| v == 0 then keep else insertBy (·.1) (a, s.otpRead a ||| v) keep := rfl
  rw [otpRead_eq, hotp]
  by_cases hx : x = a
  · subst hx
    rw [if_pos rfl]
    by_cases hw : s.otpRead x ||| v = 0
    · rw [if_pos (beq_iff_eq.mpr hw), hw, List.find?_eq_none.mpr fun w h => by rw [hgone w h]; exact Bool.false_ne_true]
      rfl
    · rw [if_neg (mt beq_iff_eq.mp hw),
        find?_insertBy_of_pos (p := fun w : Nat × BitVec 32 => w.1 == x) _ (beq_self_eq_true x) hgone]
      rfl
  · rw [if_neg hx, otpRead_eq s x]
    split
    · rw [hother x hx]
    · rw [find?_insertBy_of_neg (p := fun w : Nat × BitVec 32 => w.1 == x) _ (beq_eq_false_iff_ne.mpr (Ne.symm hx)), hother x hx]

/-! ## Unary counts -/

/-- The bits of word i of a unary count of n (R505). -/
def unaryMask (n i : Nat) : BitVec 32 := BitVec.ofNat 32 (2 ^ min 32 (n - 32 * i) - 1)

/-- Word i of a unary count is set. -/
def raiseWord (a n : Nat) (s : State) (i : Nat) : State :=
  let v := s.otpRead (a + i) ||| unaryMask n i
  if v == s.otpRead (a + i) then s else s.otpProgram (a + i) v

theorem raiseUnary_eq (a n : Nat) (s : State) : raiseUnary a n s = (List.range ((n + 31) / 32)).foldl (raiseWord a n) s := rfl

theorem unaryMask_getLsbD {n i : Nat} (h : i < n) : (unaryMask n (i / 32)).getLsbD (i % 32) = true := by
  rw [unaryMask, BitVec.getLsbD_ofNat, Nat.testBit_two_pow_sub_one]
  simp only [Bool.and_eq_true, decide_eq_true_eq]
  omega

theorem raiseWord_otpOnly (a n : Nat) (s : State) (i : Nat) : OtpOnly s (raiseWord a n s i) := by
  rw [raiseWord]
  split
  · exact OtpOnly.refl s
  · exact otpProgram_otpOnly s _ _

theorem otpRead_raiseWord (a n : Nat) (s : State) (i x : Nat) :
    (raiseWord a n s i).otpRead x = if x = a + i then s.otpRead x ||| unaryMask n i else s.otpRead x := by
  rw [raiseWord]
  by_cases hv : s.otpRead (a + i) ||| unaryMask n i = s.otpRead (a + i)
  · rw [if_pos (beq_iff_eq.mpr hv)]
    split
    · next hx => rw [hx, hv]
    · rfl
  · rw [if_neg (mt beq_iff_eq.mp hv), otpRead_otpProgram]
    split
    · next hx => rw [hx, ← BitVec.or_assoc, BitVec.or_self]
    · rfl

theorem otpRead_raiseWords (a n m : Nat) (s : State) (x : Nat) : ((List.range m).foldl (raiseWord a n) s).otpRead x =
    if a ≤ x ∧ x < a + m then s.otpRead x ||| unaryMask n (x - a) else s.otpRead x := by
  induction m with
  | zero => rw [if_neg (by omega), List.range_zero, List.foldl_nil]
  | succ m ih =>
    rw [List.range_succ, List.foldl_append, List.foldl_cons, List.foldl_nil, otpRead_raiseWord, ih]
    by_cases hx : x = a + m
    · subst hx
      rw [if_pos rfl, if_neg (by omega), if_pos (by omega), Nat.add_sub_cancel_left]
    · rw [if_neg hx]
      by_cases hin : a ≤ x ∧ x < a + m
      · rw [if_pos hin, if_pos (by omega)]
      · rw [if_neg hin, if_neg (by omega)]

/-- A unary count that is raised has its bits below n set, loses none, and touches its own words only (R505, R508). -/
theorem raiseUnary_spec (a n : Nat) (s : State) : OtpOnly s (raiseUnary a n s) ∧
    (∀ i < n, ((raiseUnary a n s).otpRead (a + i / 32)).getLsbD (i % 32) = true) ∧
    (∀ x i, (s.otpRead x).getLsbD i = true → ((raiseUnary a n s).otpRead x).getLsbD i = true) ∧
    ∀ x, x < a ∨ a + (n + 31) / 32 ≤ x → (raiseUnary a n s).otpRead x = s.otpRead x := by
  rw [raiseUnary_eq]
  refine ⟨foldl_otpOnly (raiseWord_otpOnly a n) _ s, fun i hi => ?_, fun x i hbit => ?_, fun x hx => ?_⟩
  · rw [otpRead_raiseWords, if_pos (by omega), Nat.add_sub_cancel_left, BitVec.getLsbD_or, unaryMask_getLsbD hi, Bool.or_true]
  · rw [otpRead_raiseWords]
    split
    · rw [BitVec.getLsbD_or, hbit, Bool.true_or]
    · exact hbit
  · rw [otpRead_raiseWords, if_neg (by omega)]

section Otp
variable {s : State}

theorem exec_hourMark (hruns : s.runsAs .leaf = true) : exec .hourMark s = .next
    (if 64 * (s.otpBits 80 48 + 1) ≤ s.opHours ∧ s.otpBits 80 48 < 1536 then raiseUnary 80 (s.otpBits 80 48 + 1) s else s) := by
  rw [exec, execHourMark, onLeaf_of_runs hruns]
  simp only [Bool.and_eq_true, decide_eq_true_eq]

theorem exec_svnRaise {t : Nat} (hrun : s.boot.runFrom = some t) (hhour : t + 57600 ≤ s.optime) (hmode : s.mode ≠ .bivouac)
    (h27 : s.boot.cause.getLsbD 27 = false) (h26 : s.boot.cause.getLsbD 26 = false) (h25 : s.boot.cause.getLsbD 25 = false)
    (hsvn : s.otpSvn < s.ident.svn.toNat) : exec .svnRaise s = .next (raiseUnary 1024 (min 16384 s.ident.svn.toNat) s) := by
  rw [exec, execSvnRaise, hrun]
  refine congrArg Host.Outcome.next (if_pos ?_)
  simp only [h27, h26, h25, decide_eq_true hhour, bne_iff_ne.mpr hmode, decide_eq_true hsvn, Bool.or_false, Bool.not_false,
    Bool.and_true]

end Otp

/-! ## The clock area -/

/-- The erase that comes before the program of the first place of an erase block (R492, R501). -/
def eraseOut (erased : Bool) (addr : Nat) : List Out := if erased then [.flashErase (addr / eraseBlock)] else []

theorem eraseOut_cases {erased : Bool} {addr : Nat} {P : Prop} (h : erased = true → P) :
    eraseOut erased addr = [] ∨ P ∧ eraseOut erased addr = [.flashErase (addr / eraseBlock)] := by
  cases erased with
  | true => exact .inr ⟨h rfl, rfl⟩
  | false => exact .inl rfl

/-- An entry that is written is the last of the area, valid where its verify passed; one that failed sets bit 31 (R492). -/
theorem writeClock_spec (kind pcyc optime : Nat) (flash : FlashAnswer) (s : State) : ∃ es p sticky raised,
    let e : ClockEntry := { place := p, kind := kind, pcyc := pcyc, optime := optime, valid := flash == .ok }
    writeClock kind pcyc optime flash s = { s with
      flash := { s.flash with clock := es ++ [e] }
      sticky := sticky, raisedNow := raised
      out := s.out ++ (eraseOut (p % 1024 == 0) (0x02000000 + 64 * p) ++ [.flashProgram (0x02000000 + 64 * p) (clockBytes kind pcyc optime)] ++
        if flash == .ok then [.flashProgram (0x02000000 + 64 * p + 56) validMark] else []) } ∧
    (flash ≠ .ok → sticky.evr.getLsbD 31 = true) := by
  rw [writeClock]
  generalize clockPlace s.flash.clock = x
  obtain ⟨p, es⟩ := x
  dsimp only
  generalize hskip : (es.any fun e => _) = skipped
  cases flash with
  | ok => cases skipped <;> exact ⟨es, p, _, _, rfl, fun h => absurd rfl h⟩
  | verifyFail => cases skipped <;> exact ⟨es, p, _, _, rfl, fun _ => orBit_self _ (by decide)⟩

/-! ## The flash ring -/

/-- The next slot begins a block where the block is erased, and the ring keeps records it had (R501). -/
theorem nextSlot_spec (ring : List RingRec) (latest : Option RingRec) :
    ((nextSlot ring latest).2.2.2 = true → (nextSlot ring latest).1 % 16 = 0) ∧ (∀ r ∈ (nextSlot ring latest).2.1, r ∈ ring) := by
  unfold nextSlot
  dsimp only
  split
  · exact ⟨fun h => (nomatch h), fun r hr => hr⟩
  · split
    · exact ⟨fun h => (nomatch h), fun r hr => hr⟩
    · exact ⟨fun _ => Nat.mul_mod_left .., fun r hr => (List.mem_filter.mp hr).1⟩

section Record
variable {s : State} {b : Bytes} (hruns : s.runsAs .tray = true) (hwaiting : s.evr.waiting = some b)
include hruns hwaiting

theorem exec_recordFlashWrite_ok : ∃ slot ring torn erased, nextSlot s.flash.ring s.latestRec? = (slot, ring, torn, erased) ∧
    exec (.recordFlashWrite .ok) s = .next { s with
      flash := { s.flash with ring := ring ++ [{ slot := slot, bytes := b ++ validMark, valid := true }] }
      evr := { s.evr with waiting := none, rseq := s.evr.rseq + 1 }
      sticky := if torn then s.sticky.set .evr 30 else s.sticky
      raisedNow := if torn then s.raisedNow.set .evr 30 else s.raisedNow
      out := s.out ++ (eraseOut erased (0x03000000 + 4096 * slot) ++
        [.flashProgram (0x03000000 + 4096 * slot) b]) ++ [.flashProgram (0x03000000 + 4096 * slot + 4088) validMark] } := by
  rw [exec, execRecordFlashWrite, onTray_of_runs hruns, hwaiting]
  dsimp only
  generalize nextSlot s.flash.ring s.latestRec? = x
  obtain ⟨slot, ring, torn, erased⟩ := x
  refine ⟨slot, ring, torn, erased, rfl, ?_⟩
  cases torn with
  | true => rfl
  | false => rfl

/-- A record whose verify fails still waits, and stands in the ring as one that is not valid (R501). -/
theorem exec_recordFlashWrite_failed {f : FlashAnswer} (hf : f ≠ .ok) :
    ∃ slot evr sticky raised out, exec (.recordFlashWrite f) s = .next { s with
      flash := { s.flash with
        ring := (nextSlot s.flash.ring s.latestRec?).2.1 ++ [{ slot := slot, bytes := b, valid := false }] }
      evr := evr, sticky := sticky, raisedNow := raised, out := out } ∧ evr = s.evr ∧ sticky.evr.getLsbD 31 = true := by
  have hkeep : ({ s.evr with waiting := some b } : EvrSt) = s.evr := by rw [← hwaiting]
  rw [exec, execRecordFlashWrite, onTray_of_runs hruns, hwaiting]
  dsimp only
  generalize nextSlot s.flash.ring s.latestRec? = x
  obtain ⟨slot, ring, torn, erased⟩ := x
  cases f with
  | ok => exact absurd rfl hf
  | verifyFail =>
    cases torn with
    | true => exact ⟨slot, _, _, _, _, rfl, hkeep, orBit_self _ (by decide)⟩
    | false => exact ⟨slot, _, _, _, _, rfl, hkeep, orBit_self _ (by decide)⟩

end Record

/-! ## Periods and seconds -/

section Period
variable {s : State} (hruns : s.runsAs .tray = true)
include hruns

theorem exec_recorderPeriodEnd : exec .recorderPeriodEnd s = .next
    (if s.optime % (16 * s.evr.period) = 0 ∧ s.evr.optStart < s.optime then
      let s₁ := if s.evr.waiting.isSome then evrBit 29 s else s
      newPeriod false { s₁ with evr := { s₁.evr with waiting := some s.recordBytes } }
    else s) := by
  rw [exec, execRecorderPeriodEnd, onTray_of_runs hruns]
  simp only [Bool.and_eq_true, decide_eq_true_eq, beq_iff_eq]

theorem exec_clockTick (f : FlashAnswer) (hdue : s.optime % 960 = 0) (hscan : s.stw.scanning = true)
    (hfirst : ∀ e ∈ s.flash.clock, e.valid = true → e.kind = 2 → e.pcyc = s.evr.pcyc → e.optime ≠ s.optime) :
    exec (.clockTick f) s = .next (writeClock 2 s.evr.pcyc (s.optime % 2 ^ 48) f s) := by
  have hdone : (s.flash.clock.any fun e => e.valid && e.kind == 2 && e.pcyc == s.evr.pcyc && e.optime == s.optime) = false := by
    rw [List.any_eq_false]
    intro e he h
    simp only [Bool.and_eq_true, beq_iff_eq] at h
    obtain ⟨⟨⟨hvalid, hkind⟩, hpcyc⟩, hopt⟩ := h
    exact hfirst e he hvalid hkind hpcyc hopt
  rw [exec, execClockTick, onTray_of_runs hruns]
  refine congrArg Host.Outcome.next (if_pos ?_)
  rw [hdone, hdue, hscan]
  rfl

theorem exec_clockTick_other (f : FlashAnswer) (hdue : s.optime % 960 ≠ 0) : exec (.clockTick f) s = .next s := by
  rw [exec, execClockTick, onTray_of_runs hruns]
  refine congrArg Host.Outcome.next (if_neg ?_)
  rw [beq_eq_false_iff_ne.mpr hdue]
  exact Bool.false_ne_true

end Period

/-- Samples change the metrics only, and not how many there are (R494). -/
theorem metrics_eq (s : State) (l : List (Nat × Int)) : ∃ ms, s.metrics l = { s with evr := { s.evr with metrics := ms } } ∧
    ms.length = s.evr.metrics.length := by
  rw [State.metrics]
  induction l generalizing s with
  | nil => exact ⟨s.evr.metrics, rfl, rfl⟩
  | cons x l ih =>
    have hone : ∃ ms, s.metric x.1 x.2 = { s with evr := { s.evr with metrics := ms } } ∧ ms.length = s.evr.metrics.length := by
      rw [State.metric]
      split
      · exact ⟨_, rfl, List.length_modify ..⟩
      · exact ⟨s.evr.metrics, rfl, rfl⟩
    obtain ⟨ms, heq, hlen⟩ := hone
    obtain ⟨ms', heq', hlen'⟩ := ih { s with evr := { s.evr with metrics := ms } }
    rw [List.foldl_cons, heq]
    exact ⟨ms', heq', hlen'.trans hlen⟩

theorem exec_optimeSecond {s : State} (hruns : s.runsAs .tray = true) (hsecond : s.optime % 16 = 0) :
    ∃ ms, exec .optimeSecond s = .next { s with
      tim := { s.tim with sourceChanges := 0 }
      evr := { s.evr with metrics := ms, lastCounts := s.secondCounts } } ∧ ms.length = s.evr.metrics.length := by
  rw [exec, execOptimeSecond, onTray_of_runs hruns]
  dsimp only
  rw [hsecond, if_neg (by decide)]
  generalize (15, _) :: _ = l
  obtain ⟨ms, heq, hlen⟩ := metrics_eq s l
  rw [heq]
  exact ⟨ms, rfl, hlen⟩

/-! ## The statement -/

/-- Settles O46. A period's record waits until its program verifies; an entry of the clock area is the last one of its list; what
goes to OTP is ORed in word by word. -/
theorem recorderPeriodsAndFlash : Obligations.RecorderPeriodsAndFlash := by
  refine ⟨fun s hruns hdue hstart => ?_, fun s hruns hdue => ?_, fun s b hruns hwaiting => ?_,
    fun s b f hruns hwaiting hf => ?_, fun s f hruns hdue hscan hlt hfirst => ?_,
    fun s f hruns hdue => exec_clockTick_other hruns f hdue, fun s hruns hsecond => ?_, fun s hruns hhours hroom => ?_,
    fun s hruns hhours => ?_, fun s t hrun hhour hmode h27 h26 h25 hsvn => ?_⟩
  · rw [exec_recorderPeriodEnd hruns, if_pos ⟨hdue, hstart⟩]
    cases s.evr.waiting.isSome with
    | true => exact ⟨_, rfl, rfl, rfl, rfl, rfl, rfl, rfl, rfl, rfl, rfl⟩
    | false => exact ⟨_, rfl, rfl, rfl, rfl, rfl, rfl, rfl, rfl, rfl, rfl⟩
  · rw [exec_recorderPeriodEnd hruns, if_neg fun h => hdue h.1]
  · obtain ⟨slot, ring, torn, erased, hnext, hexec⟩ := exec_recordFlashWrite_ok hruns hwaiting
    have hblock := (nextSlot_spec s.flash.ring s.latestRec?).1
    rw [hnext] at hblock
    refine ⟨_, slot, eraseOut erased (0x03000000 + 4096 * slot), hexec, rfl, List.getLast?_concat, ?_, ?_, ?_⟩
    rotate_right
    · cases torn with
      | true => rfl
      | false => rfl
    · dsimp only
      rw [← List.append_assoc, List.append_assoc _ [_] [_]]
      rfl
    · exact eraseOut_cases hblock
  · obtain ⟨slot, evr, sticky, raised, out, hexec, hevr, hbit⟩ := exec_recordFlashWrite_failed hruns hwaiting hf
    refine ⟨_, hexec, hevr, hbit, fun r hr hvalid => ?_⟩
    rcases List.mem_append.mp hr with h | h
    · exact (nextSlot_spec s.flash.ring s.latestRec?).2 r h
    · rw [List.mem_singleton.mp h] at hvalid
      cases hvalid
  · obtain ⟨es, p, sticky, raised, heq, hbit⟩ := writeClock_spec 2 s.evr.pcyc (s.optime % 2 ^ 48) f s
    rw [Nat.mod_eq_of_lt hlt] at heq
    refine ⟨_, _, eraseOut (p % 1024 == 0) (0x02000000 + 64 * p), (exec_clockTick hruns f hdue hscan hfirst).trans
      (congrArg _ ((congrArg (fun t => writeClock 2 s.evr.pcyc t f s) (Nat.mod_eq_of_lt hlt)).trans heq)),
      List.getLast?_concat, rfl, rfl, rfl, rfl, hbit, ?_, ?_, rfl⟩
    · cases f with
      | ok => simp only [List.append_assoc]; rfl
      | verifyFail => simp only [List.append_assoc]; rfl
    · exact eraseOut_cases fun h => beq_iff_eq.mp h
  · obtain ⟨ms, hexec, hlen⟩ := exec_optimeSecond hruns hsecond
    exact ⟨_, hexec, rfl, hlen, rfl⟩
  · obtain ⟨honly, hset, hgrow, hframe⟩ := raiseUnary_spec 80 (s.otpBits 80 48 + 1) s
    rw [exec_hourMark hruns, if_pos ⟨hhours, hroom⟩]
    refine ⟨_, rfl, fun i hi => hset i (by omega), hgrow, fun a ha => hframe a (by omega), ?_⟩
    generalize raiseUnary 80 _ s = u at honly
    obtain ⟨_, _, _, _, rfl⟩ := honly
    rfl
  · rw [exec_hourMark hruns, if_neg fun h => Nat.not_lt.mpr h.1 hhours]
  · obtain ⟨honly, hset, -, hframe⟩ := raiseUnary_spec 1024 (min 16384 s.ident.svn.toNat) s
    refine ⟨_, exec_svnRaise hrun hhour hmode h27 h26 h25 hsvn, hset, fun a ha => hframe a (by omega), ?_⟩
    generalize raiseUnary 1024 _ s = u at honly
    obtain ⟨_, _, _, _, rfl⟩ := honly
    rfl

end Sys2Proof.Machine

end


section
/-!
PROOFS. The ageing point (17 R458, R459), the margin request at the regulator (02 R61) and the urgent step (R460).
-/

namespace Sys2Proof.Machine

/-! ## The ageing point -/

/-- What re-tuning changes: the lanes, and which of them still wait for it (R459). -/
def Retuned (s t : State) : Prop := ∃ q r lanes, t = { s with age := { s.age with retuneQ := q, retuning := r }, lanes := lanes }

theorem Retuned.trans {s t u : State} (h : Retuned s t) (k : Retuned t u) : Retuned s u := by
  obtain ⟨_, _, _, rfl⟩ := h
  obtain ⟨_, _, _, rfl⟩ := k
  exact ⟨_, _, _, rfl⟩

theorem onLane_retuned (s : State) (n : Nat) (f : Lane → Lane) : Retuned s (s.onLane n f) := ⟨_, _, _, rfl⟩

theorem startRetune_retuned (n : Nat) (s : State) : Retuned s (startRetune n s) := by
  unfold startRetune
  dsimp only
  split
  · generalize hsent : reportLanes _ = t
    obtain ⟨lanes, rfl⟩ : LanesOnly _ t := hsent ▸ reportLanes_lanesOnly _
    exact ⟨_, _, _, rfl⟩
  · exact ⟨_, _, _, rfl⟩

theorem retuneGo_retuned (ns : List Nat) (s : State) : Retuned s (retuneGo ns s) := by
  induction ns generalizing s with
  | nil => exact ⟨_, _, _, rfl⟩
  | cons n ns ih =>
    unfold retuneGo
    dsimp only
    split
    · split
      · exact ⟨_, _, _, rfl⟩
      · split
        · exact (startRetune_retuned n s).trans ⟨_, _, _, rfl⟩
        · exact (onLane_retuned s n _).trans (ih _)
    · exact ih s

theorem ageMetrics_eq (s : State) : ∃ evr, ageMetrics s = { s with evr := evr } := by
  rw [ageMetrics]
  dsimp only
  generalize (_ ++ _ : List (Nat × Int)) = l
  obtain ⟨ms, heq, -⟩ := metrics_eq s l
  rw [heq]
  exact ⟨_, rfl⟩

theorem requestStep_of_none {s : State} (h : s.age.req = none) (step : Int) : requestStep step s = { s with
    age := { s.age with req := some (step, s.now) }
    pins := { s.pins with vmReq := true, vmStep := BitVec.ofInt 8 step } } := by
  rw [requestStep, h]
  rfl

theorem requestStep_eq (step : Int) (s : State) : ∃ req pins, requestStep step s = { s with
    age := { s.age with req := req }, pins := pins } := by
  rw [requestStep]
  split
  · exact ⟨_, _, rfl⟩
  · exact ⟨_, _, rfl⟩

theorem restoreNext_eq (s : State) : ∃ req pins, restoreNext s = { s with age := { s.age with req := req }, pins := pins } := by
  rw [restoreNext]
  split
  · exact ⟨_, _, rfl⟩
  · exact requestStep_eq _ s

/-- A decision of the ageing point asks for a step at most, and sets bit 15 at most (R459). -/
theorem ageDecide_eq (s : State) : ∃ req hiRun pins sticky raised, ageDecide s = { s with
    age := { s.age with req := req, hiRun := hiRun }, pins := pins, sticky := sticky, raisedNow := raised } := by
  unfold ageDecide
  dsimp only
  split
  · exact ⟨_, _, _, _, _, rfl⟩
  · split
    · split
      · obtain ⟨req, pins, heq⟩ := requestStep_eq 1 { s with age := { s.age with hiRun := 0 } }
        rw [heq]
        exact ⟨_, _, _, _, _, rfl⟩
      · exact ⟨_, _, _, _, _, rfl⟩
    · split
      · split
        · obtain ⟨req, pins, heq⟩ := requestStep_eq (-1) { s with age := { s.age with hiRun := 0 } }
          rw [heq]
          exact ⟨_, _, _, _, _, rfl⟩
        · exact ⟨_, _, _, _, _, rfl⟩
      · exact ⟨_, _, _, _, _, rfl⟩

section Low
variable {s : State} (hpdm : s.age.pdm ≠ []) (hlow : (leastOf s.age.pdm).1 < s.cfg.marginLo)
include hpdm hlow

theorem ageDecide_low : ageDecide s =
    if s.age.vmApplied < s.cfg.vmMax then requestStep 1 { s with age := { s.age with hiRun := 0 } }
    else ({ s with age := { s.age with hiRun := 0 } } : State).ageBit 15 := by
  rw [ageDecide]
  exact (if_neg (mt List.isEmpty_iff.mp hpdm)).trans (if_pos hlow)

end Low

theorem exec_ageingPoint (s : State) : ∃ t u, ageMetrics (restoreNext (ageClose s)) = t ∧ Retuned (ageDecide t) u ∧
    (s.age.lastHour < s.ageHour → exec .ageingPoint s = .next u) :=
  ⟨_, _, rfl, retuneGo_retuned _ _, fun h => by
    rw [exec, execAgeingPoint]
    exact congrArg Host.Outcome.next (if_pos h)⟩

theorem exec_ageingPoint_closed {s : State} (h : s.ageHour ≤ s.age.lastHour) : exec .ageingPoint s = .next s := by
  rw [exec, execAgeingPoint]
  exact congrArg Host.Outcome.next (if_neg (Nat.not_lt.mpr h))

/-! ## The answers of the regulator -/

section Request
variable {s : State} {step : Int} {t : Ticks} (hreq : s.age.req = some (step, t)) (hrestore : s.age.restore = 0)
include hreq hrestore

/-- The margin with a step applied, before it is logged. -/
def State.withStep (s : State) (step : Int) : State := { s with
  age := { s.age with
    req := none
    vmApplied := max 0 (s.age.vmApplied + step)
    restore := 0
    lastStep := some s.now
    upHours := if step = 1 then s.age.upHours ++ [s.opHours] else s.age.upHours }
  pins := { s.pins with vmReq := false, vmStep := 0 } }

theorem exec_vmAck : ∃ cap, exec .vmAck s = .next (logStep step { s.withStep step with cap := cap }) := by
  have hexec : exec .vmAck s = .next (logStep step (if s.isLeaf then
      (s.withStep step).setHealth 321 (BitVec.ofInt 64 (s.withStep step).age.vmApplied) else s.withStep step)) := by
    rw [exec, execVmAck, hreq]
    simp only [hrestore, ne_eq, not_true_eq_false, decide_false, Bool.not_false, Bool.true_and, decide_eq_true_eq, if_false,
      if_true, endRequest]
    rfl
  rw [hexec]
  cases s.isLeaf with
  | true => exact ⟨_, rfl⟩
  | false => exact ⟨_, rfl⟩

/-- The request ends, with a bit of AGE_STAT and a count in a leaf's health counter (02 R61). -/
def State.withdrawn (s : State) (bit health : Nat) (refused : Option Int) : State :=
  let s₁ := (endRequest s).ageBit bit
  let s₂ := { s₁ with age := { s₁.age with refused := refused } }
  if s.isLeaf then s₂.countHealth health 1 else s₂

theorem exec_vmNak : exec .vmNak s = .next (s.withdrawn 14 316 (some step)) := by
  have hquiet : restoreFails ((endRequest s).ageBit 14) = (endRequest s).ageBit 14 := if_pos hrestore
  rw [exec, execVmNak, hreq]
  dsimp only
  rw [hquiet]
  rfl

theorem exec_vmTimeout (hlate : t + nsT 1000000 ≤ s.now) : exec .vmTimeout s = .next (s.withdrawn 13 317 s.age.refused) := by
  have hquiet : restoreFails ((endRequest s).ageBit 13) = (endRequest s).ageBit 13 := if_pos hrestore
  rw [exec, execVmTimeout, hreq]
  dsimp only
  rw [if_pos hlate, hquiet]
  rfl

omit hreq hrestore in
theorem withdrawn_spec (s : State) (bit health : Nat) (refused : Option Int) (u : State) (hu : u = s.withdrawn bit health refused) :
    u.age = { s.age with req := none, refused := refused } ∧ u.pins = { s.pins with vmReq := false, vmStep := 0 } ∧
    u.sticky = { s.sticky with age := orBit s.sticky.age bit } ∧
    (s.profile = .leaf → u.cap.health = s.cap.health.modify health (· + 1)) ∧
    u = { s with age := u.age, pins := u.pins, sticky := u.sticky, raisedNow := u.raisedNow, cap := u.cap } := by
  subst hu
  rw [State.withdrawn]
  cases hleaf : s.isLeaf with
  | true => exact ⟨rfl, rfl, rfl, fun _ => rfl, rfl⟩
  | false =>
    refine ⟨rfl, rfl, rfl, fun h => ?_, rfl⟩
    rw [(isLeaf_iff s).mpr h] at hleaf
    cases hleaf

end Request

theorem exec_vmTimeout_early {s : State} {step : Int} {t : Ticks} (hreq : s.age.req = some (step, t))
    (hearly : s.now < t + nsT 1000000) : exec .vmTimeout s = .next s := by
  rw [exec, execVmTimeout, hreq]
  exact congrArg Host.Outcome.next (if_neg (Nat.not_le.mpr hearly))

/-- The word of the step log (R453). -/
def State.stepWord (s : State) (step : Int) : BitVec 32 :=
  BitVec.ofNat 32 (3 * 2 ^ 30 + (if step < 0 then 2 ^ 29 else 0) + s.opHours % 2 ^ 29)

/-- A word is logged, and the margin's sum kept in flash where the log is full. -/
def logWord (w : BitVec 32) (s : State) : State :=
  if s.otpUnused.isNone && s.isTray then
    { s.otpLog w with flash := { (s.otpLog w).flash with margin := some (s.otpLog w).age.vmApplied } } else s.otpLog w

theorem logStep_eq (step : Int) (s : State) : logStep step s = logWord (s.stepWord step) s := by
  rw [logStep, logWord, State.stepWord]

theorem otpRead_of_unused {s : State} {a : Nat} (h : s.otpUnused = some a) : s.otpRead a = 0 := by
  rw [State.otpUnused] at h
  have hzero := List.find?_some h
  exact beq_iff_eq.mp hzero

theorem otpLog_of_unused {s : State} {a : Nat} (h : s.otpUnused = some a) (w : BitVec 32) : ∃ err otp addr din out,
    s.otpLog w = { s with err := err, otp := otp, pins := { s.pins with otpAddr := addr, otpDin := din }, out := out } ∧
      (s.otpLog w).otpRead a = w := by
  have hzero := otpRead_of_unused h
  have hword : (s.otpProgram a w).otpRead a = w := by
    rw [otpRead_otpProgram, if_pos rfl, hzero]
    exact BitVec.zero_or
  have honly := otpProgram_otpOnly s a w
  unfold State.otpLog
  rw [h]
  dsimp only
  generalize s.otpProgram a w = t at honly hword
  obtain ⟨_, _, _, _, rfl⟩ := honly
  exact ⟨_, _, _, _, _, rfl, hword⟩

theorem count_eq (s : State) (i h n : Nat) : ∃ cap err, s.count i h n = { s with cap := cap, err := err } := by
  unfold State.count
  split
  · exact ⟨_, _, rfl⟩
  · exact ⟨_, _, rfl⟩

theorem otpLog_of_full {s : State} (h : s.otpUnused = none) (w : BitVec 32) :
    ∃ cap err sticky raised, s.otpLog w = { s with cap := cap, err := err, sticky := sticky, raisedNow := raised } := by
  unfold State.otpLog
  rw [h]
  dsimp only
  obtain ⟨_, _, hcount⟩ := count_eq (s.errBit 27) 26 311 1
  rw [hcount]
  exact ⟨_, _, _, _, rfl⟩

/-- What the log of a step leaves alone (R461). -/
def StepLogged (s t : State) : Prop := ∃ cap err otp addr din flash sticky raised out, t = { s with
  cap := cap, err := err, otp := otp, pins := { s.pins with otpAddr := addr, otpDin := din }, flash := flash
  sticky := sticky, raisedNow := raised, out := out }

/-- A word is logged in the first unused OTP word, or the margin's sum kept in a tray block's flash (R461). -/
theorem logWord_spec (w : BitVec 32) (s : State) : StepLogged s (logWord w s) ∧
    (∀ a, s.otpUnused = some a → (logWord w s).otpRead a = w) ∧
    (s.otpUnused = none → s.profile = .tray → (logWord w s).flash.margin = some s.age.vmApplied) := by
  rw [logWord]
  cases hunused : s.otpUnused with
  | some a =>
    obtain ⟨_, _, _, _, _, heq, hword⟩ := otpLog_of_unused hunused w
    rw [Option.isNone_some, Bool.false_and, if_neg Bool.false_ne_true]
    refine ⟨?_, fun b hb => ?_, fun h => nomatch h⟩
    · rw [heq]
      exact ⟨_, _, _, _, _, _, _, _, _, rfl⟩
    · obtain rfl := Option.some.inj hb
      exact hword
  | none =>
    obtain ⟨_, _, _, _, heq⟩ := otpLog_of_full hunused w
    rw [Option.isNone_none, Bool.true_and, heq]
    refine ⟨?_, fun _ h => (nomatch h), fun _ htray => ?_⟩
    · split
      · exact ⟨_, _, _, _, _, _, _, _, _, rfl⟩
      · exact ⟨_, _, _, _, _, _, _, _, _, rfl⟩
    · rw [if_pos ((isTray_iff s).mpr htray)]

/-! ## The urgent step -/

/-- 60 s have passed since the last step (R460). -/
def State.stepRested (s : State) : Bool := s.age.lastStep.all fun t => decide (t + 60 * secT ≤ s.now)

theorem exec_urgentStep (s : State) : exec .urgentStep s = .next
    (if 64 ≤ s.age.critRun && s.age.vmApplied < s.cfg.vmMax && s.stepRested && s.age.refused.isNone && s.age.req.isNone then
      (requestStep 1 s).ageBit 12 else s) := by
  rw [exec, execUrgentStep, State.stepRested]
  cases s.age.lastStep with
  | none => rfl
  | some t => rw [Option.all_some]

/-! ## The statement -/

/-- Settles O47. The ageing point closes its hour, decides and re-tunes; an answer of the regulator ends the request, and with no
answer the request is withdrawn. -/
theorem ageingPointAndMargin : Obligations.AgeingPointAndMargin := by
  refine ⟨fun s hhour => ?_, fun s hclosed => exec_ageingPoint_closed hclosed, fun s step t hreq hrestore => ?_,
    fun s step t hreq hrestore => ⟨_, exec_vmNak hreq hrestore, withdrawn_spec s 14 316 (some step) _ rfl⟩,
    fun s step t hreq hrestore hlate =>
      ⟨_, exec_vmTimeout hreq hrestore hlate, withdrawn_spec s 13 317 s.age.refused _ rfl⟩,
    fun s step t hreq hearly => exec_vmTimeout_early hreq hearly,
    fun s hcrit hbelow hreq hrefused hrested => ?_, fun s hno => ?_⟩
  · obtain ⟨t, u, ht, hretuned, hexec⟩ := exec_ageingPoint s
    obtain ⟨req, pins, hnext⟩ := restoreNext_eq (ageClose s)
    obtain ⟨evr, hmetrics⟩ := ageMetrics_eq (restoreNext (ageClose s))
    obtain ⟨req', hiRun, pins', sticky, raised, hdecide⟩ := ageDecide_eq t
    have hage : t = { ageClose s with age := { (ageClose s).age with req := req }, pins := pins, evr := evr } := by
      rw [← ht, hmetrics, hnext]
    refine ⟨u, hexec hhour, ?_, ?_, ?_, ?_, ?_, fun hpdm hlow hbelow hreq hrestore => ?_, fun hpdm hlow hlimit => ?_⟩
    case refine_6 =>
      have hquiet : restoreNext (ageClose s) = ageClose s := if_pos hrestore
      rw [hquiet] at ht
      obtain ⟨evr', hmetrics'⟩ := ageMetrics_eq (ageClose s)
      have ht' : t = { ageClose s with evr := evr' } := ht.symm.trans hmetrics'
      subst ht'
      rw [(ageDecide_low (s := { ageClose s with evr := evr' }) hpdm hlow).trans (if_pos hbelow),
        requestStep_of_none (s := { ageClose s with evr := evr', age := { (ageClose s).age with hiRun := 0 } }) hreq] at hretuned
      obtain ⟨_, _, _, rfl⟩ := hretuned
      exact ⟨rfl, rfl, rfl⟩
    case refine_7 =>
      rw [hage, (ageDecide_low (s := { ageClose s with age := { (ageClose s).age with req := req }, pins := pins, evr := evr })
        hpdm hlow).trans (if_neg (Int.not_lt.mpr hlimit))] at hretuned
      obtain ⟨_, _, _, rfl⟩ := hretuned
      exact orBit_self _ (by decide)
    all_goals
      rw [hdecide, hage] at hretuned
      obtain ⟨_, _, _, rfl⟩ := hretuned
      rfl
  · obtain ⟨cap, hexec⟩ := exec_vmAck hreq hrestore
    rw [logStep_eq] at hexec
    obtain ⟨hlogged, hword, hflash⟩ := logWord_spec (s.stepWord step) { s.withStep step with cap := cap }
    have hstep : (State.stepWord { s.withStep step with cap := cap } step) = s.stepWord step := rfl
    rw [hstep] at hexec
    generalize logWord (s.stepWord step) _ = u at hlogged hword hflash hexec
    obtain ⟨_, _, _, _, _, _, _, _, _, rfl⟩ := hlogged
    exact ⟨_, hexec, rfl, rfl, rfl, rfl, rfl, rfl, hword, hflash⟩
  · have hrest : s.stepRested = true := by
      rw [State.stepRested, Option.all_eq_true]
      exact fun t ht => decide_eq_true (hrested t ht)
    rw [exec_urgentStep, hrest, hrefused, hreq, decide_eq_true hcrit, decide_eq_true hbelow, if_pos (by rfl),
      requestStep_of_none hreq]
    exact ⟨_, rfl, rfl⟩
  · rw [exec_urgentStep, if_neg]
    simp only [Bool.and_eq_true, decide_eq_true_eq, not_and]
    rintro ⟨⟨⟨hcrit, -⟩, -⟩, hrefused⟩
    rcases hno with h | h
    · omega
    · rw [Option.isNone_iff_eq_none.mp hrefused] at h
      cases h

end Sys2Proof.Machine

end


section
/-!
PROOFS. Fabric operations on memory (05 R160, R161, 20 R516), tally lines (R157 to R159) and their combiners (17 R443).
-/

namespace Sys2Proof.Machine

/-! ## Bytes and words -/

theorem le_length (n v : Nat) : (le n v).length = n := by
  induction n generalizing v with
  | zero => rfl
  | succ n ih => rw [le, List.length_cons, ih]

theorem unle_le (n v : Nat) : unle (le n v) = v % 256 ^ n := by
  induction n generalizing v with
  | zero => rw [le, unle, Nat.pow_zero, Nat.mod_one]
  | succ n ih =>
    have hbyte : (2 : Nat) ^ 8 = 256 := rfl
    rw [le, unle, ih, BitVec.toNat_ofNat, hbyte, Nat.pow_succ', Nat.mod_mul]

/-- A word of 8 bytes reads back modulo 2^64. -/
theorem unle_le_8 (v : Nat) : unle (le 8 (v % 2 ^ 64)) = v % 2 ^ 64 := by
  have hpow : (256 : Nat) ^ 8 = 2 ^ 64 := rfl
  rw [unle_le, hpow, Nat.mod_mod]

theorem slice_eq_self {b : Bytes} {n : Nat} (h : b.length = n) : slice b 0 n = b := by
  rw [slice, List.drop_zero, List.take_of_length_le (Nat.le_of_eq h), h, Nat.sub_self, List.replicate_zero, List.append_nil]

/-- The i-th of words of n bytes. -/
theorem drop_take_flatMap {α : Type} (f : α → Bytes) {n : Nat} (hf : ∀ x, (f x).length = n) (l : List α) (i : Nat) (hi : i < l.length) :
    ((l.flatMap f).drop (n * i)).take n = f l[i] := by
  induction l generalizing i with
  | nil => exact absurd hi (Nat.not_lt_zero i)
  | cons x l ih =>
    rw [List.flatMap_cons]
    cases i with
    | zero => rw [Nat.mul_zero, List.drop_zero, List.take_left' (hf x), List.getElem_cons_zero]
    | succ i =>
      have hlong : n * (i + 1) = (f x).length + n * i := by rw [hf x, Nat.mul_succ, Nat.add_comm]
      rw [hlong, ← List.drop_drop, List.drop_left, ih i (Nat.lt_of_succ_lt_succ hi), List.getElem_cons_succ]

theorem slice_flatMap {α : Type} (f : α → Bytes) {n : Nat} (hf : ∀ x, (f x).length = n) (l : List α) (i : Nat) (hi : i < l.length) :
    slice (l.flatMap f) (n * i) n = f l[i] := by
  rw [slice, drop_take_flatMap f hf l i hi]
  rw [hf, Nat.sub_self, List.replicate_zero, List.append_nil]

theorem fld_wordsAdd (x y : Bytes) {i : Nat} (hi : i < 8) :
    fld (wordsAdd x y) (8 * i) 8 = (fld x (8 * i) 8 + fld y (8 * i) 8) % 2 ^ 64 := by
  have hword := slice_flatMap (fun i => le 8 ((fld x (8 * i) 8 + fld y (8 * i) 8) % 2 ^ 64)) (fun _ => le_length 8 _)
    (List.range 8) i (by rwa [List.length_range])
  rw [List.getElem_range] at hword
  rw [fld, wordsAdd, hword, unle_le_8]

/-- Words that are added modulo 2^64 may be added in any order (R158). -/
theorem wordsAdd_right_comm (x y z : Bytes) : wordsAdd (wordsAdd x y) z = wordsAdd (wordsAdd x z) y := by
  rw [wordsAdd, wordsAdd.eq_1 (wordsAdd x z) y]
  refine congrArg List.flatten (List.map_congr_left fun i hi => ?_)
  rw [fld_wordsAdd x y (List.mem_range.mp hi), fld_wordsAdd x z (List.mem_range.mp hi), Nat.mod_add_mod, Nat.mod_add_mod,
    Nat.add_right_comm]

theorem getD_bytesOr (x y : Bytes) {i : Nat} (hi : i < 64) : (bytesOr x y).getD i 0 = x.getD i 0 ||| y.getD i 0 := by
  have hlen : i < (bytesOr x y).length := by rwa [bytesOr, List.length_map, List.length_range]
  rw [getD_of_lt hlen]
  simp only [bytesOr, List.getElem_map, List.getElem_range]

theorem bytesOr_right_comm (x y z : Bytes) : bytesOr (bytesOr x y) z = bytesOr (bytesOr x z) y := by
  rw [bytesOr, bytesOr.eq_1 (bytesOr x z) y]
  refine List.map_congr_left fun i hi => ?_
  rw [getD_bytesOr x y (List.mem_range.mp hi), getD_bytesOr x z (List.mem_range.mp hi), BitVec.or_assoc, BitVec.or_assoc,
    BitVec.or_comm (y.getD i 0)]

/-! ## The HBM window -/

/-- The state in which an operation that ingresses is carried out: it has its sequence number (R161). -/
def State.ingress (s : State) : State := { s with fab := { s.fab with clogSeq := s.fab.clogSeq + 1 } }

/-- An issuer that holds a generation here (20 R516). -/
def State.mayIssue (s : State) (src : FabSource) : Prop := src.ctx = 0 ∨ s.heldId src.ctx = true

theorem windowOp_hbm (src : FabSource) {a off : Nat} (hoff : off = 2 ^ 40 + a) (op : FabOp) (s : State) :
    windowOp src off op s = hbmOp src a op s := by
  have hsub : off - 0x10000000000 = a := by omega
  unfold windowOp
  rw [if_neg (by omega), if_neg, if_neg, if_neg, if_pos (by omega), hsub]
  · simp only [Bool.and_eq_true, decide_eq_true_eq]
    omega
  · simp only [Bool.and_eq_true, decide_eq_true_eq]
    omega
  · simp only [Bool.and_eq_true, decide_eq_true_eq]
    omega

section Window
variable {s : State} {src : FabSource} {a base : Nat} {op : FabOp} (hbase : s.fab.base = some base) (hsrc : s.mayIssue src)
  (ha : a < 2 ^ 40)
include hbase hsrc ha

theorem fabricOp_hbm (haddr : fabAddr op = base + 2 ^ 40 + a) : fabricOp src op s = hbmOp src a op s.ingress := by
  have hheld : ¬(src.ctx != 0 && !s.heldId src.ctx) = true := by
    rw [Bool.and_eq_true, bne_iff_ne, Bool.not_eq_true']
    rintro ⟨hctx, hno⟩
    rcases hsrc with h | h
    · exact hctx h
    · rw [hno] at h
      cases h
  have hin : (decide (base ≤ fabAddr op) && decide (fabAddr op < base + 2 ^ 41)) = true := by
    rw [haddr, Bool.and_eq_true, decide_eq_true_eq, decide_eq_true_eq]
    omega
  rw [fabricOp, hbase]
  dsimp only
  rw [if_neg hheld, if_pos hin]
  exact windowOp_hbm src (by omega) op s.ingress

variable (hpart : s.inPart src.ctx a = true) (hact : s.isActive src.ctx = true)
include hpart hact

theorem fabricOp_plain (haddr : fabAddr op = base + 2 ^ 40 + a) (htally : s.tally? a = none) :
    fabricOp src op s = plainOp src.source a op s.ingress := by
  have hpart' : s.ingress.inPart src.ctx a = true := hpart
  have hact' : s.ingress.isActive src.ctx = true := hact
  have htally' : s.ingress.tally? a = none := htally
  rw [fabricOp_hbm hbase hsrc ha haddr]
  unfold hbmOp
  rw [hpart', hact', htally']
  rfl

/-- An operation in the window as its offset gives it. -/
def atOffset (op : FabOp) (a : Nat) : FabOp :=
  match op with
  | .store64 _ l => .store64 a l
  | .fadd _ v => .fadd a v
  | .flag _ v => .flag a v
  | .read _ => .read a

theorem fabricOp_tally {t : Tally} (haddr : fabAddr op = base + 2 ^ 40 + a) (htally : s.tally? a = some t) :
    fabricOp src op s = combine src (tallyOp t (atOffset op a)) s.ingress := by
  have hpart' : s.ingress.inPart src.ctx a = true := hpart
  have hact' : s.ingress.isActive src.ctx = true := hact
  have htally' : s.ingress.tally? a = some t := htally
  rw [fabricOp_hbm hbase hsrc ha haddr]
  unfold hbmOp
  rw [hpart', hact', htally']
  cases op <;> rfl

end Window

/-! ## Combiners -/

/-- A combiner whose checks pass carries the operation out, with no trace of the check (17 R443). -/
theorem combine_of_passes {s : State} {src : FabSource} (h : s.passes src) (f : State → State) : combine src f s = f s := by
  obtain ⟨hhere, hperm, hpass⟩ := h
  rw [combine, byUnit_of_here hhere, hperm, unitCheck, hpass, hperm]
  rfl

/-- An operation whose check never passes merges nothing (17 R445). -/
theorem combine_of_permanent {src : FabSource} (h : src.check.permanent = true) (f : State → State) (s : State) :
    Only [.lanes, .cap, .err, .mode, .twin, .sticky, .raisedNow, .links] s (combine src f s) := by
  rw [combine, byUnit]
  split
  · exact Only.refl s
  · exact unitCheck_only

theorem tally?_onTally {s : State} {a : Nat} {f : Tally → Tally} {t : Tally} (hf : ∀ x, (f x).addr = x.addr)
    (ht : s.tally? a = some t) : (s.onTally a f).tally? a = some (f t) := by
  have hmap := find_mapIf Tally.addr f hf s.fab.tallies (a / 64 * 64) (a / 64 * 64)
  rw [if_pos rfl] at hmap
  rw [State.tally?] at ht
  rw [ht] at hmap
  exact hmap

/-! ## Tally lines -/

theorem onTally_onTally (s : State) (a : Nat) {f : Tally → Tally} (hf : ∀ x, (f x).addr = x.addr) (g : Tally → Tally) :
    (s.onTally a f).onTally a g = s.onTally a fun x => g (f x) := by
  have hmap : mapIf (fun t : Tally => t.addr == a / 64 * 64) g (mapIf (fun t => t.addr == a / 64 * 64) f s.fab.tallies) =
      mapIf (fun t => t.addr == a / 64 * 64) (fun x => g (f x)) s.fab.tallies := by
    rw [mapIf, mapIf, mapIf, List.map_map]
    refine List.map_congr_left fun t _ => ?_
    rw [Function.comp_apply]
    by_cases h : (t.addr == a / 64 * 64) = true
    · rw [if_pos h, if_pos h, hf t, if_pos h]
    · rw [if_neg h, if_neg h, if_neg h]
  exact congrArg (fun l => ({ s with fab := { s.fab with tallies := l } } : State)) hmap

/-- A tally with a line stored to it (R158). -/
def mergeLine (l : Bytes) (t : Tally) : Tally := { t with line := if t.add then wordsAdd t.line l else bytesOr t.line l }

theorem mergeLine_comm (l l' : Bytes) (t : Tally) : mergeLine l' (mergeLine l t) = mergeLine l (mergeLine l' t) := by
  obtain ⟨ctx, addr, add, line⟩ := t
  cases add with
  | true => exact congrArg (Tally.mk ctx addr true) (wordsAdd_right_comm line l l')
  | false => exact congrArg (Tally.mk ctx addr false) (bytesOr_right_comm line l l')

section TallyOps
variable {s : State} {src : FabSource} {a base : Nat} {t : Tally} (hruns : s.runsAs .tray = true) (hbase : s.fab.base = some base)
  (hsrc : s.mayIssue src) (ha : a < 2 ^ 40) (hpart : s.inPart src.ctx a = true) (hact : s.isActive src.ctx = true)
  (htally : s.tally? a = some t)
include hruns hbase hsrc ha hpart hact htally

theorem exec_tallyOperation (hpass : s.passes src) (op : FabOp) (haddr : fabAddr op = base + 2 ^ 40 + a) :
    exec (.tallyOperation src op) s = .next (tallyOp t (atOffset op a) s.ingress) := by
  have hpass' : s.ingress.passes src := hpass
  rw [exec, execTallyOperation, onTray_of_runs hruns, fabricOp_tally hbase hsrc ha hpart hact haddr htally,
    combine_of_passes hpass']

/-- A store to a tally line merges in the combiner (R157). -/
theorem exec_tallyOperation_store (hpass : s.passes src) (l : Bytes) :
    exec (.tallyOperation src (.store64 (base + 2 ^ 40 + a) l)) s = .next (s.ingress.onTally a (mergeLine l)) :=
  exec_tallyOperation hruns hbase hsrc ha hpart hact htally hpass (.store64 (base + 2 ^ 40 + a) l) rfl

theorem exec_tallyOperation_permanent (hperm : src.check.permanent = true) {op : FabOp} (haddr : fabAddr op = base + 2 ^ 40 + a) :
    ∃ u, exec (.tallyOperation src op) s = .next u ∧ u.fab.tallies = s.fab.tallies ∧ u.mem.hbm = s.mem.hbm := by
  have honly := combine_of_permanent hperm (tallyOp t (atOffset op a)) s.ingress
  rw [exec, execTallyOperation, onTray_of_runs hruns, fabricOp_tally hbase hsrc ha hpart hact haddr htally]
  have hfab : (combine src (tallyOp t (atOffset op a)) s.ingress).fab = s.ingress.fab := honly.same .fab rfl
  have hmem : (combine src (tallyOp t (atOffset op a)) s.ingress).mem = s.ingress.mem := honly.same .mem rfl
  exact ⟨_, rfl, (congrArg FabSt.tallies hfab).trans rfl, (congrArg MemSt.hbm hmem).trans rfl⟩

end TallyOps

/-! ## Stores to ordinary lines -/

/-- An entry of the contended-store log (R161). -/
def clogEntry (x : StoreSeen) : Bytes := le 8 x.line ++ le 2 x.src.toNat ++ zeros 2 ++ le 4 x.seq

theorem clogEntry_length (x : StoreSeen) : (clogEntry x).length = 16 := by
  simp only [clogEntry, List.length_append, le_length, zeros, List.length_replicate]

/-- A write of bytes leaves the fabric's own state. -/
theorem putBytes_fab (a : Nat) (b : Bytes) (s : State) : (putBytes a b s).fab = s.fab := rfl

theorem putBytes_now (a : Nat) (b : Bytes) (s : State) : (putBytes a b s).now = s.now := rfl

theorem putBytes_cfg (a : Nat) (b : Bytes) (s : State) : (putBytes a b s).cfg = s.cfg := rfl

/-- What an entry leaves: its bytes, and the next place of the ring. -/
theorem logStore_spec (x : StoreSeen) {s : State} {a : Nat} (ha : s.clogAddr + 16 * s.fab.clogPos = a)
    (hpos : s.fab.clogPos ≠ 65535) : (logStore x s).fab = { s.fab with clogPos := s.fab.clogPos + 1 } ∧
      (logStore x s).mem = (putBytes a (clogEntry x) s).mem ∧ (logStore x s).cfg = s.cfg := by
  have hfab := putBytes_fab a (clogEntry x) s
  have hcfg := putBytes_cfg a (clogEntry x) s
  rw [logStore, ha]
  dsimp only
  rw [if_neg hpos, ← clogEntry]
  generalize putBytes a (clogEntry x) s = t at hfab hcfg
  rw [← hfab]
  exact ⟨rfl, rfl, hcfg⟩

/-- What a byte reads as depends on the memory and its regions alone. -/
theorem getBytes_congr {s t : State} (hmem : s.mem = t.mem) (hcfg : s.cfg = t.cfg) (a n : Nat) : s.getBytes a n = t.getBytes a n := by
  have hpart : ∀ c x, s.inPart c x = t.inPart c x := fun c x => by
    rw [State.inPart, State.inPart, State.region, State.region, State.region, State.region, State.region, State.region, hcfg]
  have hstale : ∀ l, s.stale l = t.stale l := fun l => by
    rw [State.stale, State.stale, hmem]
    simp only [hpart]
  rw [State.getBytes, State.getBytes]
  simp only [hstale, hmem]

/-- Two entries of the log, in the order in which they are written. -/
theorem logStore_logStore (x y : StoreSeen) {s : State} (hpos : s.fab.clogPos + 2 ≤ 65535) (hwf : Memory.wf s.mem.hbm = true) :
    (logStore y (logStore x s)).fab = { s.fab with clogPos := s.fab.clogPos + 2 } ∧
    (logStore y (logStore x s)).getBytes (s.clogAddr + 16 * s.fab.clogPos) 16 = clogEntry x ∧
    (logStore y (logStore x s)).getBytes (s.clogAddr + 16 * (s.fab.clogPos + 1)) 16 = clogEntry y := by
  generalize ha : s.clogAddr + 16 * s.fab.clogPos = a
  have ha' : s.clogAddr + 16 * (s.fab.clogPos + 1) = a + 16 := by omega
  obtain ⟨hfab, hmem, hcfg⟩ := logStore_spec x ha (by omega)
  have hfirst : (logStore x s).getBytes a 16 = clogEntry x := by
    have h := getBytes_putBytes (a := a) (b := clogEntry x) hwf
    rw [clogEntry_length] at h
    exact (getBytes_congr hmem (hcfg.trans (putBytes_cfg _ _ _).symm) a 16).trans h
  have hwf₁ : Memory.wf (logStore x s).mem.hbm = true := by
    rw [hmem]
    exact wf_putBytes _ _ s hwf
  have haddr : (logStore x s).clogAddr = s.clogAddr := by
    rw [State.clogAddr, State.clogAddr, State.region, State.region, hcfg]
  rw [ha']
  generalize logStore x s = t at hfirst hfab haddr hwf₁ ⊢
  obtain ⟨hfab₂, hmem₂, hcfg₂⟩ := logStore_spec y (s := t) (a := a + 16) (by rw [haddr, hfab]; exact ha') (by rw [hfab]; dsimp only; omega)
  refine ⟨?_, ?_, ?_⟩
  · rw [hfab₂, hfab]
  · rw [getBytes_congr hmem₂ (hcfg₂.trans (putBytes_cfg _ _ _).symm), ← hfirst]
    exact getBytes_putBytes_beside (a := a + 16) (b := clogEntry y) hwf₁ (by omega)
  · have h := getBytes_putBytes (a := a + 16) (b := clogEntry y) hwf₁
    rw [clogEntry_length] at h
    exact (getBytes_congr hmem₂ (hcfg₂.trans (putBytes_cfg _ _ _).symm) _ _).trans h

/-- A store with none of another source before it is only noted (R161). -/
theorem noteStore_alone {s : State} (hrecent : s.fab.recent = []) (line : Nat) (src : BitVec 16) :
    ∃ recent, noteStore line src s = { s with fab := { s.fab with recent := recent } } := by
  rw [noteStore, hrecent]
  refine ⟨_, if_pos ?_⟩
  simp only [List.filter_nil, List.nil_append, List.all_eq_true, List.mem_filter, List.mem_singleton]
  rintro x ⟨rfl, -⟩
  exact beq_self_eq_true _

/-- The stores of two sources within 1 µs are both logged, and neither is logged again (R161). -/
theorem noteStore_contended {s : State} {x : StoreSeen} {line : Nat} {src : BitVec 16} (hrecent : s.fab.recent = [x])
    (hline : x.line = line) (hsrc : x.src ≠ src) (hlog : x.logged = false) (hat : s.now ≤ x.at_ + nsT 1000) :
    let y : StoreSeen := { line := line, src := src, at_ := s.now, seq := s.fab.clogSeq.toNat, logged := false }
    ∃ recent, noteStore line src s = { logStore y (logStore x s) with
        fab := { (logStore y (logStore x s)).fab with recent := recent } } ∧
      ∀ z ∈ recent, z.line = line → z.logged = true := by
  dsimp only
  generalize hy : ({ line := line, src := src, at_ := s.now, seq := s.fab.clogSeq.toNat, logged := false } : StoreSeen) = y
  have hyline : y.line = line := by rw [← hy]
  have hylog : y.logged = false := by rw [← hy]
  have hnear : (s.fab.recent.filter fun r => decide (s.now ≤ r.at_ + nsT 1000)) ++ [y] = [x, y] := by
    rw [hrecent, List.filter_cons_of_pos (by exact decide_eq_true hat), List.filter_nil]
    rfl
  have hmine : [x, y].filter (·.line == line) = [x, y] := by
    rw [List.filter_cons_of_pos (by exact beq_iff_eq.mpr hline), List.filter_cons_of_pos (by exact beq_iff_eq.mpr hyline),
      List.filter_nil]
  have hother : ¬[x, y].all (·.src == src) = true := by
    rw [List.all_cons, beq_eq_false_iff_ne.mpr hsrc]
    exact Bool.false_ne_true
  have hopen : [x, y].filter (fun r => !r.logged) = [x, y] := by
    rw [List.filter_cons_of_pos (by rw [hlog]; rfl), List.filter_cons_of_pos (by rw [hylog]; rfl), List.filter_nil]
  refine ⟨mapIf (·.line == line) (fun r => { r with logged := true }) [x, y], ?_, fun z hz hzline => ?_⟩
  · rw [noteStore]
    dsimp only
    rw [hy, hnear, hmine, if_neg hother, hopen]
    rfl
  · obtain ⟨r, -, rfl⟩ := List.mem_map.mp hz
    dsimp only at hzline ⊢
    split
    · rfl
    · next hr =>
      rw [if_neg hr] at hzline
      exact absurd (beq_iff_eq.mpr hzline) hr

section Contended
variable {s : State} {x : StoreSeen} {line : Nat} {src : BitVec 16} (hrecent : s.fab.recent = [x]) (hline : x.line = line)
  (hsrc : x.src ≠ src) (hlog : x.logged = false) (hat : s.now ≤ x.at_ + nsT 1000) (hpos : s.fab.clogPos + 2 ≤ 65535)
  (hwf : Memory.wf s.mem.hbm = true)
include hrecent hline hsrc hlog hat hpos hwf

/-- What the log holds after two stores of two sources to one line (R161). -/
theorem noteStore_logs : (noteStore line src s).fab.clogPos = s.fab.clogPos + 2 ∧
    (noteStore line src s).getBytes (s.clogAddr + 16 * s.fab.clogPos) 16 = clogEntry x ∧
    (∀ z ∈ (noteStore line src s).fab.recent, z.line = line → z.logged = true) ∧
    (noteStore line src s).getBytes (s.clogAddr + 16 * (s.fab.clogPos + 1)) 16 =
      le 8 line ++ le 2 src.toNat ++ zeros 2 ++ le 4 s.fab.clogSeq.toNat := by
  obtain ⟨recent, hnote, hlogged⟩ := noteStore_contended hrecent hline hsrc hlog hat
  obtain ⟨hfab, hfirst, hsecond⟩ := logStore_logStore x
    { line := line, src := src, at_ := s.now, seq := s.fab.clogSeq.toNat, logged := false } hpos hwf
  rw [hnote]
  generalize logStore _ (logStore x s) = t at hfab hfirst hsecond
  exact ⟨congrArg FabSt.clogPos hfab, hfirst, hlogged, hsecond⟩

end Contended

/-! ## The statement -/

/-- Settles O48. An operation in the HBM window of a context's own part is one write of bytes, or one step of the combiner that
holds the tally line; any other changes no memory. -/
theorem fabricStoresAndTallies : Obligations.FabricStoresAndTallies := by
  refine ⟨fun s src a l base hruns hbase hlen halign hsrc ha hpart hact htally hrecent hwf => ?_,
    fun s src a l base x hruns hbase halign hsrc ha hpart hact htally hrecent hline hdiff hlog hat hpos hwf => ?_,
    fun s src a v base hruns hbase halign hsrc ha hpart hact htally hwf => ?_,
    fun s src a v base t hruns hbase hsrc ha hpart hact htally hpass => ?_,
    fun s src src' a l l' base t hruns hbase hsrc hsrc' ha hpart hact hpart' hact' htally hpass hpass' => ?_,
    fun s src a op base t hruns hbase hsrc ha haddr hpart hact htally hperm =>
      exec_tallyOperation_permanent hruns hbase hsrc ha hpart hact htally hperm haddr,
    fun s a t hruns htally hlen hwf => ?_, fun s src op hruns hbase => ?_, fun s src a l base hruns hbase hsrc ha hpart => ?_⟩
  · have hline : a / 64 * 64 = a := by omega
    have hslice : slice l 0 64 = l := slice_eq_self hlen
    rw [exec, execFabricStore, onTray_of_runs hruns, fabricOp_plain hbase hsrc ha hpart hact rfl htally, plainOp, hline, hslice]
    obtain ⟨recent, hnote⟩ := noteStore_alone (s := putBytes a l s.ingress) hrecent a src.source
    refine ⟨_, congrArg _ hnote, ?_, fun x hx => ?_, ?_, rfl⟩
    · have h := getBytes_putBytes (s := s.ingress) (a := a) (b := l) hwf
      rwa [hlen] at h
    · exact getBytes_putBytes_beside (s := s.ingress) (a := a) (b := l) hwf (by omega)
    · intro hmem
      have hbad := (List.mem_filter.mp hmem).2
      simp only [Bool.not_eq_true', Bool.and_eq_false_iff, decide_eq_false_iff_not] at hbad
      omega
  · have hline' : a / 64 * 64 = a := by omega
    rw [exec, execFabricStore, onTray_of_runs hruns, fabricOp_plain hbase hsrc ha hpart hact rfl htally, plainOp, hline']
    have hfab := putBytes_fab a (slice l 0 64) s.ingress
    have hcfg := putBytes_cfg a (slice l 0 64) s.ingress
    have hwf₁ := wf_putBytes a (slice l 0 64) s.ingress hwf
    have hnow : (putBytes a (slice l 0 64) s.ingress).now = s.now := putBytes_now ..
    generalize putBytes a (slice l 0 64) s.ingress = t at hfab hcfg hwf₁ hnow
    have hpos₁ : t.fab.clogPos = s.fab.clogPos := (congrArg FabSt.clogPos hfab :)
    have hseq : t.fab.clogSeq = s.fab.clogSeq + 1 := (congrArg FabSt.clogSeq hfab :)
    have haddr : t.clogAddr = s.clogAddr := by
      have hcfg' : t.cfg = s.cfg := hcfg
      rw [State.clogAddr, State.clogAddr, State.region, State.region, hcfg']
    obtain ⟨hclog, hfirst, hlogged, hsecond⟩ := noteStore_logs ((congrArg FabSt.recent hfab).trans hrecent) hline hdiff hlog
      (Nat.le_trans (Nat.le_of_eq hnow) hat) (by rw [hpos₁]; exact hpos) hwf₁
    rw [haddr, hpos₁] at hfirst hsecond
    rw [hseq] at hsecond
    rw [clogEntry, hline] at hfirst
    exact ⟨_, rfl, hclog.trans (congrArg (· + 2) hpos₁), hfirst, hlogged, hsecond⟩
  · have hword : a / 8 * 8 = a := by omega
    rw [exec, execFabricFadd, onTray_of_runs hruns, fabricOp_plain hbase hsrc ha hpart hact rfl htally, plainOp, hword]
    have hget : s.ingress.getBytes a 8 = s.getBytes a 8 := rfl
    have hback := getBytes_putBytes (s := s.ingress) (a := a) (b := le 8 ((unle (s.getBytes a 8) + v.toNat) % 2 ^ 64)) hwf
    rw [le_length] at hback
    rw [hget]
    refine ⟨_, rfl, ?_, rfl, fun x hx => ?_⟩
    · exact (congrArg unle hback).trans (unle_le_8 _)
    · exact getBytes_putBytes_beside (s := s.ingress) (a := a) (b := le 8 ((unle (s.getBytes a 8) + v.toNat) % 2 ^ 64)) hwf
        (by rw [le_length]; omega)
  · have hexec := exec_tallyOperation hruns hbase hsrc ha hpart hact htally hpass (.fadd (base + 2 ^ 40 + a) v) rfl
    refine ⟨_, hexec, ?_, fun hadd => ?_, fun hadd => ?_⟩
    · cases hadd : t.add <;> (rw [atOffset, tallyOp, hadd]; rfl)
    · rw [atOffset, tallyOp, hadd]
      exact ⟨rfl, htally⟩
    · let o := a % 64 / 8 * 8
      let f := fun x : Tally => { x with line := putIn x.line o (le 8 ((fld t.line o 8 + v.toNat) % 2 ^ 64)) }
      have hop : tallyOp t (atOffset (.fadd (base + 2 ^ 40 + a) v) a) s.ingress =
          (s.ingress.onTally a f).emit (.fabricAnswer (le 8 (fld t.line o 8)) false) := if_pos hadd
      rw [hop]
      exact ⟨rfl, tally?_onTally (s := s.ingress) (f := f) (fun _ => rfl) htally⟩
  · have hu := exec_tallyOperation_store hruns hbase hsrc ha hpart hact htally hpass l
    have hu' := exec_tallyOperation_store hruns hbase hsrc' ha hpart' hact' htally hpass' l'
    have ht : (s.ingress.onTally a (mergeLine l)).tally? a = some (mergeLine l t) :=
      tally?_onTally (s := s.ingress) (f := mergeLine l) (fun _ => rfl) htally
    have ht' : (s.ingress.onTally a (mergeLine l')).tally? a = some (mergeLine l' t) :=
      tally?_onTally (s := s.ingress) (f := mergeLine l') (fun _ => rfl) htally
    have hv := exec_tallyOperation_store (s := s.ingress.onTally a (mergeLine l)) hruns hbase hsrc' ha hpart' hact' ht hpass' l'
    have hv' := exec_tallyOperation_store (s := s.ingress.onTally a (mergeLine l')) hruns hbase hsrc ha hpart hact ht' hpass l
    refine ⟨_, _, _, _, _, hu, hv, hu', hv', ?_, ht, rfl, rfl, rfl⟩
    calc (s.ingress.onTally a (mergeLine l)).ingress.onTally a (mergeLine l')
        = (s.ingress.ingress.onTally a (mergeLine l)).onTally a (mergeLine l') := rfl
      _ = s.ingress.ingress.onTally a fun x => mergeLine l' (mergeLine l x) :=
        onTally_onTally _ a (f := mergeLine l) (fun _ => rfl) _
      _ = s.ingress.ingress.onTally a fun x => mergeLine l (mergeLine l' x) := by
        rw [funext fun x => mergeLine_comm l l' x]
      _ = (s.ingress.ingress.onTally a (mergeLine l')).onTally a (mergeLine l) := (onTally_onTally _ a (f := mergeLine l') (fun _ => rfl) _).symm
  · have hback := getBytes_putBytes (s := s) (a := t.addr) (b := t.line) hwf
    rw [hlen] at hback
    rw [exec, execTallyWriteback, onTray_of_runs hruns, htally]
    refine ⟨_, rfl, hback, fun x hx => ?_, rfl⟩
    exact getBytes_putBytes_beside (s := s) (a := t.addr) (b := t.line) hwf (by omega)
  · rw [exec, execFabricStore, onTray_of_runs hruns, fabricOp, hbase]
    exact ⟨_, rfl, rfl, rfl⟩
  · have hpart' : s.ingress.inPart src.ctx a = false := hpart
    rw [exec, execFabricStore, onTray_of_runs hruns, fabricOp_hbm hbase hsrc ha rfl]
    unfold hbmOp
    rw [hpart']
    exact ⟨_, rfl, rfl, rfl, rfl⟩

end Sys2Proof.Machine

end


section
/-!
PROOFS. The register windows of the fabric (20 R517) and the paths to a register (R513 to R515, 02 R63).
-/

namespace Sys2Proof.Machine

/-! ## Reads of several registers -/

section Reads
variable (p : Path)

theorem readRegs_length (n a : Nat) (s : State) : (readRegs p n a s).1.length = n := by
  induction n generalizing a s with
  | zero => rfl
  | succ n ih => rw [readRegs, List.length_cons, ih]

/-- The i-th register is read in the state that the reads before it leave (R517). -/
theorem readRegs_getElem? {n i : Nat} (hi : i < n) (a : Nat) (s : State) :
    (readRegs p n a s).1[i]? = some (readReg p (a + 4 * i) (readRegs p i a s).2).1 := by
  induction n generalizing i a s with
  | zero => exact absurd hi (Nat.not_lt_zero i)
  | succ n ih =>
    cases i with
    | zero => rfl
    | succ i =>
      have hnext : a + 4 * (i + 1) = a + 4 + 4 * i := by omega
      have h := ih (Nat.lt_of_succ_lt_succ hi) (a + 4) (readReg p a s).2
      rw [hnext]
      exact h

theorem readRegs_out (n a : Nat) (s : State) : (readRegs p n a s).2.out = s.out := readRegs_only.same .out rfl

end Reads

/-! ## Writes -/

/-- The host writes sticky bits only (R514). -/
theorem hostWrite_eq (a : Nat) (w : Word) (s : State) : hostWrite a w s = { s with sticky := (hostWrite a w s).sticky } := by
  unfold hostWrite
  dsimp only
  split <;> rfl

/-- A line with a register's word and zeros after it (R517). -/
theorem slice_wordLine (w : Word) : slice (le 4 w.toNat ++ zeros 60) 4 60 = zeros 60 := by
  have hdrop : (le 4 w.toNat ++ zeros 60).drop 4 = zeros 60 := List.drop_left' (le_length 4 _)
  rw [slice, hdrop]
  rfl

theorem fld_wordLine (w : Word) : BitVec.ofNat 32 (fld (le 4 w.toNat ++ zeros 60) 0 4) = w := by
  have htake : ((le 4 w.toNat ++ zeros 60).drop 0).take 4 = le 4 w.toNat := List.take_left' (le_length 4 _)
  have hslice : slice (le 4 w.toNat ++ zeros 60) 0 4 = le 4 w.toNat := by
    rw [slice, htake]
    rw [le_length, Nat.sub_self, List.replicate_zero, List.append_nil]
  rw [fld, hslice, unle_le, Nat.mod_eq_of_lt (by have := w.isLt; omega), BitVec.ofNat_toNat, BitVec.setWidth_eq]

section Window
variable {s : State} {src : FabSource} (hruns : s.runsAs .tray = true)
include hruns

theorem exec_regWindowRead (off : Nat) : exec (.regWindowRead src off) s = .next (readWindow src (off % 0x40000) s) := by
  rw [exec, execRegWindowRead, onTray_of_runs hruns]

theorem exec_regWindowWrite (off : Nat) (l : Bytes) :
    exec (.regWindowWrite src off l) s = .next (writeWindow src (off % 0x400000) l s) := by
  rw [exec, execRegWindowWrite, onTray_of_runs hruns]

end Window

/-- Settles O49. The read window reads one register after the other; the write window is one write of a register's W1C bits, or a
bit of FAB_STAT. -/
theorem registerWindows : Obligations.RegisterWindows := by
  refine ⟨fun s src off hruns hctx hoff halign => ?_, fun s src a w hruns hctx ha halign => ?_,
    fun s src off l hruns hctx hline => ?_, fun s src off l hruns hctx => ⟨?_, ?_⟩, fun s src off l htray hclk => ?_,
    fun s a w => ⟨hostWrite_eq a w s, rfl, rfl⟩⟩
  · have hread : readWindow src (off % 0x40000) s = (readRegs .fabric 16 off s).2.emit
        (.fabricAnswer ((readRegs .fabric 16 off s).1.flatMap fun w => le 4 w.toNat) false) := by
      rw [Nat.mod_eq_of_lt hoff, readWindow, if_neg fun h => h hctx, Nat.div_mul_cancel (Nat.dvd_of_mod_eq_zero halign)]
    have hmem : (readRegs .fabric 16 off s).2.mem = s.mem := readRegs_only.same .mem rfl
    have hsticky : (readRegs .fabric 16 off s).2.sticky = s.sticky := readRegs_only.same .sticky rfl
    have hout := readRegs_out .fabric 16 off s
    have hlen := readRegs_length .fabric 16 off s
    have hget : ∀ i < 16, (readRegs .fabric 16 off s).1[i]? = some (readReg .fabric (off + 4 * i) (readRegs .fabric i off s).2).1 :=
      fun i hi => readRegs_getElem? .fabric hi off s
    rw [exec_regWindowRead hruns, hread]
    generalize readRegs .fabric 16 off s = r at hmem hsticky hout hlen hget ⊢
    refine ⟨_, rfl, hmem, hsticky, hlen, ?_, hget⟩
    rw [← hout]
    rfl
  · have hzero : isZero (slice (le 4 w.toNat ++ zeros 60) 4 60) = true := by
      rw [slice_wordLine]
      rfl
    have haddr : 16 * a % 0x400000 / 64 * 4 = a := by omega
    rw [exec_regWindowWrite hruns, writeWindow, if_neg fun h => h hctx, hzero, if_neg (by decide), haddr, fld_wordLine]
  · rw [exec_regWindowWrite hruns, writeWindow, if_neg fun h => h hctx, hline, if_pos (by decide)]
    exact ⟨_, rfl, rfl⟩
  · rw [exec_regWindowWrite hruns, writeWindow, if_pos hctx]
    exact ⟨_, rfl, rfl⟩
  · rw [exec_regWindowRead hruns, readWindow, if_pos hctx]
    exact ⟨_, rfl, rfl⟩
  · rw [exec, execRegWindowWrite, onTray, onTrayEver_of_tray htray, whenClocked, hclk]
    rfl

end Sys2Proof.Machine

end


section
/-!
PROOFS. The paths to a register (20 R513 to R515): wide registers and their latches, counters that clear when they are read, the
sideband (02 R63).
-/

namespace Sys2Proof.Machine

/-! ## Registers of several words -/

/-- The words that a read of the lowest one latches (R515). -/
def higherWords (a n v : Nat) : List (Nat × Word) := (List.range (n - 1)).map fun i => (a + 4 * (i + 1), wordOf v (i + 1))

theorem find?_higherWords {a n v i : Nat} (h0 : 0 < i) (hi : i < n) :
    (higherWords a n v).find? (·.1 == a + 4 * i) = some (a + 4 * i, wordOf v i) := by
  obtain ⟨j, rfl⟩ : ∃ j, i = j + 1 := ⟨i - 1, by omega⟩
  have hkey : ((fun w : Nat × Word => w.1 == a + 4 * (j + 1)) ∘ fun i => (a + 4 * (i + 1), wordOf v (i + 1))) = fun i => i == j := by
    funext k
    rw [Function.comp_apply, Bool.eq_iff_iff, beq_iff_eq, beq_iff_eq]
    omega
  have hfind : (List.range (n - 1)).find? (fun k => k == j) = some j := by
    rw [List.find?_range_eq_some]
    refine ⟨beq_self_eq_true j, List.mem_range.mpr (by omega), fun k hk => ?_⟩
    rw [beq_eq_false_iff_ne.mpr (Nat.ne_of_lt hk)]
    rfl
  rw [higherWords, List.find?_map, hkey, hfind]
  rfl

section Wide
variable {s : State} {a n v : Nat} (hwide : s.wideReg a = some (a, n, v)) (p : Path)
include hwide

theorem readReg_wide : readReg p a s = (wordOf v 0, setLatches p (higherWords a n v) s) := by
  rw [readReg, hwide]
  exact if_pos rfl

omit hwide in
theorem latched_higherWords {i : Nat} (h0 : 0 < i) (hi : i < n) :
    (setLatches p (higherWords a n v) s).latched p (a + 4 * i) = wordOf v i :=
  latched_setLatches_of_find (find?_higherWords h0 hi) s

end Wide

theorem latched_setLatches_path {p q : Path} (h : q ≠ p) (words : List (Nat × Word)) (s : State) (b : Nat) :
    (setLatches p words s).latched q b = s.latched q b :=
  latched_setLatches_of_other (fun hsame => h hsame.1) s

theorem wideReg_optime {s : State} (htray : s.isTray = true) : s.wideReg 0x828 = some (0x828, 2, s.optime % 2 ^ 48) := by
  simp [State.wideReg, htray]

theorem wordOf_zero (v : Nat) : wordOf v 0 = BitVec.ofNat 32 v := by
  rw [wordOf, Nat.mul_zero, Nat.pow_zero, Nat.div_one]

theorem readOn_of_serves {s : State} {p : Path} (h : s.serves p = true) (a : Nat) :
    readOn p a s = (readReg p a s).2.emit (.regValue p a (readReg p a s).1) := by
  rw [readOn, h]
  rfl

/-! ## Registers of one word -/

theorem readReg_narrow {s : State} {a : Nat} {w : Word} (hwide : s.wideReg a = none) (hnarrow : s.narrowReg a = some w) (p : Path) :
    readReg p a s = (s.readValue p a w, if p == .regRead then s else clearRC a s) := by
  rw [readReg, hwide]
  dsimp only
  rw [hnarrow]

theorem wideReg_winTransient (s : State) : s.wideReg 0x804 = none := by simp [State.wideReg]

theorem wideReg_errCnt (s : State) {i : Nat} (hi : i < 64) : s.wideReg (0x900 + 4 * i) = none := by
  unfold State.wideReg
  simp only [Bool.and_eq_true, decide_eq_true_eq]
  repeat rw [if_neg (by omega)]

theorem trayReg_errCnt (s : State) {i : Nat} (hi : i < 64) : s.trayReg (0x900 + 4 * i) = some (s.err.cnt.getD i 0) := by
  have hin : (decide (0x900 ≤ 0x900 + 4 * i) && decide (0x900 + 4 * i < 0xA00) && (0x900 + 4 * i) % 4 == 0) = true := by
    simp only [Bool.and_eq_true, decide_eq_true_eq, beq_iff_eq]
    omega
  have hidx : (0x900 + 4 * i - 0x900) / 4 = i := by omega
  unfold State.trayReg
  split
  case h_11 => rw [if_pos hin, hidx]; rfl
  all_goals omega

theorem narrowReg_errCnt {s : State} (htray : s.isTray = true) {i : Nat} (hi : i < 64) :
    s.narrowReg (0x900 + 4 * i) = some (s.err.cnt.getD i 0) := by
  have hlane : ¬(decide (0x1000 ≤ 0x900 + 4 * i) && decide (0x900 + 4 * i < 0x1000 + 64 * s.laneMax) &&
      (0x900 + 4 * i) % 4 == 0) = true := by
    simp only [Bool.and_eq_true, decide_eq_true_eq, beq_iff_eq]
    omega
  unfold State.narrowReg
  split
  case h_31 => rw [if_neg hlane, if_pos htray, trayReg_errCnt s hi]
  all_goals omega

/-- A read of an error counter answers its value before the cycle and leaves what the cycle added (17 R456, 00 R18). -/
theorem readReg_errCnt {s : State} (htray : s.isTray = true) {i : Nat} (hi : i < 64) {p : Path} (hp : p ≠ .regRead) :
    readReg p (0x900 + 4 * i) s = (s.err.cntBefore.getD i 0, { s with err := { s.err with
      cnt := s.err.cnt.modify i fun _ => s.err.cntNow.getD i 0
      cntBefore := s.err.cntBefore.modify i fun _ => 0 } }) := by
  have hin : (s.isTray && decide (0x900 ≤ 0x900 + 4 * i) && decide (0x900 + 4 * i < 0xA00)) = true := by
    rw [htray]
    simp only [Bool.and_eq_true, decide_eq_true_eq, true_and]
    omega
  have hidx : (0x900 + 4 * i - 0x900) / 4 = i := by omega
  have hpath : ¬(p == .regRead) = true := mt beq_iff_eq.mp hp
  rw [readReg_narrow (wideReg_errCnt s hi) (narrowReg_errCnt htray hi), State.readValue, if_neg hpath, if_neg hpath,
    if_neg (by omega), if_pos hin, hidx, clearRC]
  dsimp only
  rw [if_neg (by omega), if_pos hin, hidx]
  rfl

theorem readReg_errCnt_regRead {s : State} (htray : s.isTray = true) {i : Nat} (hi : i < 64) :
    readReg .regRead (0x900 + 4 * i) s = (s.err.cnt.getD i 0, s) :=
  readReg_narrow (wideReg_errCnt s hi) (narrowReg_errCnt htray hi) .regRead

theorem readReg_winTransient {s : State} {p : Path} (hp : p ≠ .regRead) : readReg p 0x804 s =
    (s.err.winBefore, { s with err := { s.err with winTransient := s.err.winNow, winBefore := 0 } }) := by
  have hpath : ¬(p == .regRead) = true := mt beq_iff_eq.mp hp
  rw [readReg_narrow (wideReg_winTransient s) rfl, State.readValue, if_neg hpath, if_neg hpath, if_pos rfl, clearRC]
  dsimp only
  rw [if_pos rfl]

/-! ## Commands -/

theorem exec_lowestWordRead {s : State} {p : Path} {a : Nat} (h : s.serves p = true) (ha : a < 2 ^ 18) :
    exec (.lowestWordRead p a) s = .next ((readReg p a s).2.emit (.regValue p a (readReg p a s).1)) := by
  rw [exec, execLowestWordRead, Nat.mod_eq_of_lt ha, readOn_of_serves h]

theorem exec_errCntRead {s : State} {p : Path} {i : Nat} (hruns : s.runsAs .tray = true) (h : s.serves p = true) (hi : i < 64) :
    exec (.errCntRead p i) s = .next ((readReg p (0x900 + 4 * i) s).2.emit
      (.regValue p (0x900 + 4 * i) (readReg p (0x900 + 4 * i) s).1)) := by
  rw [exec, execErrCntRead, onTray_of_runs hruns, Nat.mod_eq_of_lt hi, readOn_of_serves h]

section Sideband
variable {s : State} (hleaf : s.profile = .leaf)
include hleaf

theorem exec_sidebandAccess_dead {op : SbOp} (hdead : op = .failed ∨ s.sb.dead = true) (a : Nat) (v : Word) :
    exec (.sidebandAccess op a v) s = .next { s with sb := { s.sb with dead := true } } := by
  rw [exec, execSidebandAccess, onLeafEver_of_leaf hleaf]
  refine congrArg Host.Outcome.next (if_pos ?_)
  rw [Bool.or_eq_true, beq_iff_eq]
  exact hdead

variable (hlive : s.sb.dead = false)
include hlive

theorem exec_sidebandAccess_inReset {op : SbOp} (hop : op ≠ .failed) (hreset : s.inReset = true) (a : Nat) (v : Word) :
    exec (.sidebandAccess op a v) s = .next { s with
      pins := { s.pins with sbAck := true, sbErr := true, sbRdata := 0 }, sb := { s.sb with ackAt := some s.edges } } := by
  have hport : ¬(op == .failed || s.sb.dead) = true := by
    rw [hlive, Bool.or_false]
    exact mt beq_iff_eq.mp hop
  rw [exec, execSidebandAccess, onLeafEver_of_leaf hleaf]
  exact congrArg Host.Outcome.next ((if_neg hport).trans (if_pos hreset))

variable (hrun : s.inReset = false) {a : Nat} (ha : a < 2 ^ 18)
include hrun ha

theorem exec_sidebandAccess_read (v : Word) : exec (.sidebandAccess .read a v) s = .next
    (sbAnswer false { (readReg .sideband a s).2 with
      pins := { (readReg .sideband a s).2.pins with sbRdata := (readReg .sideband a s).1 } }) := by
  rw [exec, execSidebandAccess, onLeafEver_of_leaf hleaf, hlive, hrun, Nat.mod_eq_of_lt ha]
  rfl

theorem exec_sidebandAccess_write (v : Word) : exec (.sidebandAccess .write a v) s = .next
    (if isTimReg a then sbAnswer true s else sbAnswer false (hostWrite a v s)) := by
  rw [exec, execSidebandAccess, onLeafEver_of_leaf hleaf, hlive, hrun, Nat.mod_eq_of_lt ha]
  rfl

end Sideband

theorem exec_registerWrite (s : State) (p : Path) (a : Nat) (v : Word) : exec (.registerWrite p a v) s = .next
    (if s.serves p && p != .regRead then hostWrite (a % 2 ^ 18) v s else s) := by
  rw [exec, execRegisterWrite]

/-! ## The statement -/

/-- Settles O50. A read is one answer and one change: the latches of its path, or the counter that it clears; a write changes the
sticky bits at most. -/
theorem registerPaths : Obligations.RegisterPaths := by
  refine ⟨fun s p a n v hserves ha hwide => ?_, fun s p hruns hserves => ?_,
    fun s => ⟨fun hserves => ?_, fun p hserves hp => ?_⟩,
    fun s i hruns hi => ⟨fun hserves => ?_, fun p hserves hp => ?_⟩,
    fun s a v hleaf _ hlive hrun ha => ⟨?_, fun htim => ?_, fun htim => ?_⟩,
    fun s op a v hleaf _ hlive hreset hop => exec_sidebandAccess_inReset hleaf hlive hop hreset a v,
    fun s op a v hleaf _ hdead => exec_sidebandAccess_dead hleaf hdead a v,
    fun s p a v => ?_, fun s p v hp hserves => ?_⟩
  · rw [exec_lowestWordRead hserves ha, readReg_wide hwide]
    exact ⟨_, rfl, rfl, fun i h0 hi => latched_higherWords p h0 hi, fun q b hq => latched_setLatches_path hq _ s b, rfl⟩
  · have hwide := wideReg_optime ((isTray_iff s).mpr ((runsAs_iff s .tray).mp hruns).1)
    have hlow : wordOf (s.optime % 2 ^ 48) 0 = BitVec.ofNat 32 s.optime := by
      rw [wordOf_zero]
      refine BitVec.eq_of_toNat_eq ?_
      rw [BitVec.toNat_ofNat, BitVec.toNat_ofNat]
      omega
    have hexec : exec (.evrOptRead p) s = .next ((setLatches p (higherWords 0x828 2 (s.optime % 2 ^ 48)) s).emit
        (.regValue p 0x828 (BitVec.ofNat 32 s.optime))) := by
      rw [exec, execEvrOptRead, onTray_of_runs hruns, readOn_of_serves hserves, readReg_wide hwide, hlow]
    refine ⟨_, hexec, rfl, ?_, rfl⟩
    exact latched_higherWords (s := s) (a := 0x828) (n := 2) (v := s.optime % 2 ^ 48) p (i := 1) (by decide) (by decide)
  · rw [exec, execWinTransientCntRead, readOn_of_serves hserves, readReg_narrow (wideReg_winTransient s) rfl]
    rfl
  · rw [exec, execWinTransientCntRead, readOn_of_serves hserves, readReg_winTransient hp]
    rfl
  · rw [exec_errCntRead hruns hserves hi,
      readReg_errCnt_regRead ((isTray_iff s).mpr ((runsAs_iff s .tray).mp hruns).1) hi]
    rfl
  · rw [exec_errCntRead hruns hserves hi, readReg_errCnt ((isTray_iff s).mpr ((runsAs_iff s .tray).mp hruns).1) hi hp]
    rfl
  · have hpins : (readReg .sideband a s).2.pins = s.pins := readReg_only.same .pins rfl
    have hsb : (readReg .sideband a s).2.sb = s.sb := readReg_only.same .sb rfl
    have hedges : (readReg .sideband a s).2.edges = s.edges := readReg_only.same .edges rfl
    rw [exec_sidebandAccess_read hleaf hlive hrun ha]
    generalize readReg .sideband a s = r at hpins hsb hedges ⊢
    refine ⟨_, rfl, ?_, ?_⟩
    · rw [← hpins]
      rfl
    · rw [← hsb, ← hedges]
      rfl
  · rw [exec_sidebandAccess_write hleaf hlive hrun ha, if_pos htim]
    rfl
  · rw [exec_sidebandAccess_write hleaf hlive hrun ha, htim, if_neg Bool.false_ne_true, hostWrite_eq a v s]
    rfl
  · rw [exec_registerWrite]
    refine ⟨_, rfl, ?_, fun hp => ?_, fun ha => ?_⟩
    · split
      · exact hostWrite_eq _ v s
      · rfl
    · subst hp
      rw [if_neg]
      rw [bne_self_eq_false, Bool.and_false]
      exact Bool.false_ne_true
    · subst ha
      split
      · rfl
      · rfl
  · rw [exec_registerWrite, hserves, bne_iff_ne.mpr hp]
    rfl

end Sys2Proof.Machine

end


section
/-!
PROOFS. Attach and register reads (16 R433), records (R440), certificates and evidence (19 R511, R512).
-/

namespace Sys2Proof.Machine

/-! ## REG_READ -/

/-- Only the latches have changed. -/
def LatchesOnly (s t : State) : Prop := ∃ latches, t = { s with latches := latches }

theorem LatchesOnly.refl (s : State) : LatchesOnly s s := ⟨_, rfl⟩

theorem LatchesOnly.trans {s t u : State} (h : LatchesOnly s t) (k : LatchesOnly t u) : LatchesOnly s u := by
  obtain ⟨_, rfl⟩ := h
  obtain ⟨_, rfl⟩ := k
  exact ⟨_, rfl⟩

/-- A read on the mailbox path clears no register (R513). -/
theorem readReg_regRead_latchesOnly (a : Nat) (s : State) : LatchesOnly s (readReg .regRead a s).2 := by
  unfold readReg
  split
  · split
    · exact ⟨_, rfl⟩
    · exact .refl s
  · split
    · exact .refl s
    · exact .refl s

/-- The step of regWords for one address. -/
def regWord (x : Bytes × State) (a : Nat) : Bytes × State :=
  (x.1 ++ le 4 (readReg .regRead a x.2).1.toNat, (readReg .regRead a x.2).2)

theorem regWords_eq (as : List Nat) (s : State) : regWords as s = as.foldl regWord ([], s) := rfl

theorem foldl_regWord (as : List Nat) (x : Bytes × State) :
    LatchesOnly x.2 (as.foldl regWord x).2 ∧ (as.foldl regWord x).1.length = x.1.length + 4 * as.length := by
  induction as generalizing x with
  | nil => exact ⟨.refl _, rfl⟩
  | cons a as ih =>
    obtain ⟨honly, hlen⟩ := ih (regWord x a)
    have hword : (regWord x a).1.length = x.1.length + 4 := by rw [regWord, List.length_append, le_length]
    refine ⟨(readReg_regRead_latchesOnly a x.2).trans honly, ?_⟩
    rw [List.foldl_cons, hlen, hword, List.length_cons]
    omega

theorem regWords_spec (as : List Nat) (s : State) : LatchesOnly s (regWords as s).2 ∧ (regWords as s).1.length = 4 * as.length := by
  obtain ⟨honly, hlen⟩ := foldl_regWord as ([], s)
  rw [regWords_eq]
  exact ⟨honly, hlen.trans (Nat.zero_add _)⟩

theorem regAddrs_length (p : Bytes) : (regAddrs p).length = fld p 0 4 := by rw [regAddrs, List.length_map, List.length_range]

section RegRead
variable {s : State} {m : Nat} {c : Cmd} (hruns : s.runs m 0x0106 c)
include hruns

theorem exec_regRead : exec (.regRead m) s = .next
    (if 1 ≤ fld c.payload 0 4 ∧ fld c.payload 0 4 ≤ 30 ∧ unnamedZero c.payload [(0, 4 + 4 * fld c.payload 0 4)] = true ∧
        (regAddrs c.payload).all s.mapped = true then
      finish m c stOK (regWords (regAddrs c.payload) s).1 (regWords (regAddrs c.payload) s).2
    else finish m c stBAD_FIELD [] s) := by
  rw [exec, execRegRead, onRunning_of_runs hruns]
  simp only [Bool.and_eq_true, decide_eq_true_eq, and_assoc]
  rfl

end RegRead

/-! ## Lines at DEST -/

theorem getElem?_linesOf {b : Bytes} {i : Nat} (h : i < (b.length + 63) / 64) : (linesOf b)[i]? = some (slice b (64 * i) 64) := by
  rw [linesOf, List.getElem?_map, List.getElem?_range h, Option.map_some]

/-- The stores of a page, line by line (R440). -/
def pageStores (dest : Nat) (page : Bytes) : List Out := (linesOf page).zipIdx.map fun x => Out.store64 0 (dest + 64 * x.2) x.1

theorem pageStores_length (dest : Nat) (page : Bytes) : (pageStores dest page).length = (page.length + 63) / 64 := by
  rw [pageStores, List.length_map, List.length_zipIdx, linesOf_length]

theorem getElem?_pageStores (dest : Nat) {page : Bytes} {i : Nat} (h : i < (page.length + 63) / 64) :
    (pageStores dest page)[i]? = some (.store64 0 (dest + 64 * i) (slice page (64 * i) 64)) := by
  rw [pageStores, List.getElem?_map, List.getElem?_zipIdx, getElem?_linesOf h]
  simp only [Option.map_some, Nat.zero_add]

section Record
variable {s : State} {m : Nat} {c : Cmd} (htray : s.runsAs .tray = true) (hruns : s.runs m 0x0B01 c)
  (hzero : unnamedZero c.payload [(0, 4), (8, 8)] = true) (hdest : fld c.payload 8 8 % 4096 = 0)
include htray hruns hzero hdest

theorem exec_recordRead : exec (.recordRead m) s = .next (match s.validRecs[fld c.payload 0 4]? with
    | some r => finish m c stOK (slice r.bytes 4 4)
        (s.issue (pageStores (fld c.payload 8 8) (slice (r.bytes ++ le 8 0x45565245434F5244) 0 4096)))
    | none => finish m c stNOT_LOADED [] s) := by
  rw [exec, execRecordRead, onTray_of_runs htray, onRunning_of_runs hruns]
  dsimp only
  rw [hzero, hdest]
  cases s.validRecs[fld c.payload 0 4]? with
  | some r => rfl
  | none => rfl

end Record

/-! ## CERT_READ and EVIDENCE_SIGN -/

theorem toDest_of_aligned {dest : Nat} (h : dest % 4096 = 0) (n : Nat) (c : Cmd) (len : Nat) (b : Bytes) (s : State) :
    toDest n c dest len b s = if len < b.length then finish n c stBAD_FIELD (le 4 b.length) s
      else finish n c stOK (le 4 b.length) (writeDest dest b s) := by
  rw [toDest, h, if_neg (by decide)]
  rfl

theorem zeros_length (n : Nat) : (zeros n).length = n := List.length_replicate

theorem evidence_length (s : State) (nonce : Bytes) : (s.evidence nonce).length = 256 := by
  have hplace : (if s.isLeaf then le 4 (s.cfg.leafId % 2 ^ 17) else le 4 s.trayPlace).length = 4 := by
    split <;> exact le_length 4 _
  have hhash : (if s.ident.configured then slice s.ident.cfgHash 0 48 else zeros 48).length = 48 := by
    split
    · exact slice_length _ 0 48
    · exact zeros_length 48
  unfold State.evidence
  simp only [List.length_append, le_length, slice_length, hplace, hhash, zeros_length, timeBytes]

/-! ## The statement -/

/-- Settles O52. Each command is its checks and then one completion, of the state that it changed before. -/
theorem mailboxBasics : Obligations.MailboxBasics := by
  refine ⟨fun s m c htray hruns hzero halign hlt => ?_, fun s m c n hruns hn hlo hhi hzero hmapped => ?_,
    fun s m c a hruns ha hun => ?_, fun s m c htray hruns hzero => ?_, fun s m c r htray hruns hzero hdest hrec => ?_,
    fun s m c htray hruns hzero hdest hnone => ?_, fun s m c b hruns hzero hitem hdest => ?_,
    fun s m c hruns hzero hdest => ?_⟩
  · have hchecks : (unnamedZero c.payload [(0, 8)] && fld c.payload 0 8 % 4096 == 0 && decide (fld c.payload 0 8 < 2 ^ 52)) = true := by
      rw [hzero, halign, decide_eq_true hlt]
      rfl
    obtain ⟨x, hm, -, -⟩ := id hruns
    obtain ⟨upd, hbox⟩ := finish_mbx? (c := c) (mbx?_onMbx_same (f := fun x => { x with ret := fld c.payload 0 8 }) (fun _ => rfl) hm)
      stOK []
    have honly := (onMbx_mbxOnly s m fun x => { x with ret := fld c.payload 0 8 }).trans (finish_mbxOnly m c stOK [] _)
    have hexec : exec (.mbxAttach m) s = .next (finish m c stOK [] (s.onMbx m fun x => { x with ret := fld c.payload 0 8 })) := by
      rw [exec, execMbxAttach, onTray_of_runs htray, onRunning_of_runs hruns]
      exact congrArg Host.Outcome.next (if_pos hchecks)
    refine ⟨_, _, hexec, hbox, rfl, rfl, ?_⟩
    generalize finish m c stOK [] _ = u at honly
    obtain ⟨_, _, _, _, rfl, -⟩ := honly
    rfl
  · subst hn
    obtain ⟨hlatches, hlen⟩ := regWords_spec (regAddrs c.payload) s
    have honly := finish_mbxOnly m c stOK (regWords (regAddrs c.payload) s).1 (regWords (regAddrs c.payload) s).2
    rw [exec_regRead hruns, if_pos ⟨hlo, hhi, hzero, hmapped⟩]
    rw [regAddrs_length] at hlen
    refine ⟨_, rfl, rfl, hlen, ?_⟩
    generalize finish m c stOK _ _ = u at honly
    generalize (regWords (regAddrs c.payload) s).2 = t at hlatches honly
    obtain ⟨_, rfl⟩ := hlatches
    obtain ⟨_, _, _, _, rfl, -⟩ := honly
    exact ⟨rfl, rfl, rfl⟩
  · rw [exec_regRead hruns, if_neg]
    rintro ⟨-, -, -, hall⟩
    rw [List.all_eq_true.mp hall a ha] at hun
    cases hun
  · rw [exec, execRecordPeriodSet, onTray_of_runs htray, onRunning_of_runs hruns]
    dsimp only
    rw [hzero, Bool.true_and]
    by_cases h : 600 ≤ fld c.payload 0 4 ∧ fld c.payload 0 4 ≤ 86400
    · rw [if_pos h, decide_eq_true h.1, decide_eq_true h.2]
      rfl
    · rw [if_neg h, fieldCheck, if_neg (by simpa only [Bool.and_eq_true, decide_eq_true_eq] using h)]
      rfl
  · have hexec := exec_recordRead htray hruns hzero hdest
    rw [hrec] at hexec
    have hlen : (slice (r.bytes ++ le 8 0x45565245434F5244) 0 4096).length = 4096 := slice_length _ 0 4096
    refine ⟨_, _, hexec, ?_, fun i hi => getElem?_pageStores _ ?_, rfl⟩
    · rw [pageStores_length, hlen]
    · rw [hlen]
      exact hi
  · have hexec := exec_recordRead htray hruns hzero hdest
    rw [List.getElem?_eq_none hnone] at hexec
    exact hexec
  · rw [exec, execCertRead, onRunning_of_runs hruns]
    dsimp only
    rw [hzero, Bool.not_true, if_neg Bool.false_ne_true, hitem]
    dsimp only
    rw [toDest_of_aligned hdest]
  · dsimp only
    have hlen : (s.evidence (slice c.payload 0 48) ++ slice (Config.ecdsaSign s.ident.aliasKey
        (Config.sha384 (s.evidence (slice c.payload 0 48)))) 0 96).length = 352 := by
      rw [List.length_append, evidence_length, slice_length]
    refine ⟨hlen, ?_⟩
    rw [exec, execEvidenceSign, onRunning_of_runs hruns]
    dsimp only
    rw [hzero, Bool.not_true, if_neg Bool.false_ne_true, toDest_of_aligned hdest, hlen]

end Sys2Proof.Machine

end


section
/-!
PROOFS. Commands that arm a change (16 R429, R434), and the release of a stop (R434).
-/

namespace Sys2Proof.Machine

/-! ## A change that a command arms -/

section Armed
variable {n : Nat} {c : Cmd} {kind : Nat} {aon : Bool} {epochT : Nat} {arg : BitVec 128} {ctx : Nat} {gen : BitVec 16}
  {arg2 : BitVec 32} {setup : BitVec 64} {s : State} {x : Mbx}

theorem issueArm_of_accept (haccept : s.answerArm (s.cmdArm n kind aon epochT arg ctx gen arg2) = .accept) :
    issueArm n c kind aon epochT arg ctx gen arg2 setup s =
      wait n { c with result := phaseResult s.nextArmId epochT 0xFF 0 0 setup } (.armed s.nextArmId)
        (originate kind aon epochT arg ctx gen arg2 (some n) s).2 := by
  unfold issueArm
  rw [haccept]
  rfl

/-- What a command that arms a change leaves alone. -/
def ArmOnly (s t : State) : Prop := ∃ red mbxs hfAllow lanes out, t = { s with
  red := red, stw := { s.stw with mbxs := mbxs }, hfAllow := hfAllow, lanes := lanes, out := out }

/-- A change that the originator accepts is held by it, and the command waits for it (R429). -/
theorem issueArm_armedFor (htray : s.profile = .tray) (hm : s.mbx? n = some x)
    (haccept : s.answerArm (s.cmdArm n kind aon epochT arg ctx gen arg2) = .accept) :
    armedFor n c kind epochT s (issueArm n c kind aon epochT arg ctx gen arg2 setup s) ∧
      ArmOnly s (issueArm n c kind aon epochT arg ctx gen arg2 setup s) := by
  let s₁ := { s with red := { s.red with armSeq := s.red.armSeq + 1, seen := s.nextArmId :: s.red.seen } }
  let a := ownArm kind aon epochT arg ctx gen arg2 (some n) s
  obtain ⟨lanes, changes, sent, hheld⟩ := holdArm_arms (s := s₁) a false htray
  rw [issueArm_of_accept haccept, originate_eq]
  dsimp only
  rw [hheld]
  let t : State := { s₁ with
    lanes := lanes, red := { s₁.red with changes := changes, arms := markSent sent a.id (s₁.red.arms ++ [heldArm a s₁]) } }
  have hm₁ : t.mbx? n = some x := (mbx?_of_mbxs rfl n).trans hm
  obtain ⟨upd, hbox⟩ := wait_mbx? (c := { c with result := phaseResult s.nextArmId epochT 0xFF 0 0 setup }) hm₁ (.armed s.nextArmId)
  have honly := wait_mbxOnly n { c with result := phaseResult s.nextArmId epochT 0xFF 0 0 setup } (.armed s.nextArmId) t
  have hmem := mem_markSent_last sent s.red.arms (heldArm a s₁)
  generalize wait n _ (.armed s.nextArmId) t = u at hbox honly
  obtain ⟨_, _, _, _, rfl, -⟩ := honly
  exact ⟨⟨s.nextArmId, _, x, _, hmem, rfl, rfl, rfl, rfl, hm, hbox, rfl, _, rfl, rfl, rfl, rfl, rfl⟩, ⟨_, _, _, _, _, rfl⟩⟩

theorem twoPhase_of_soon (hsoon : s.tooSoon c.accepted kind epochT arg = true) :
    twoPhase n c kind aon epochT arg ctx gen arg2 setup s = finish n c stTOO_SOON [] s := by
  rw [twoPhase, hsoon, if_pos rfl, fail]

theorem twoPhase_of_time (hsoon : s.tooSoon c.accepted kind epochT arg = false) :
    twoPhase n c kind aon epochT arg ctx gen arg2 setup s = issueArm n c kind aon epochT arg ctx gen arg2 setup s := by
  rw [twoPhase, hsoon, if_neg Bool.false_ne_true]

end Armed

/-! ## EPOCH_SET and STOP_ARM -/

section Commands
variable {s : State} {m : Nat} {c : Cmd}

theorem exec_epochSet (htray : s.runsAs .tray = true) (hruns : s.runs m 0x0201 c)
    (hzero : unnamedZero c.payload [(0, 12)] = true) : exec (.epochSet m) s = .next
      (if s.grandmasterMember then
        if epochNsOk (fld c.payload 8 4) then
          twoPhase m c kindEpochSet true (fld c.payload 0 8) 0 0 (s.genOf 0) (BitVec.ofNat 32 (fld c.payload 8 4)) 0 s
        else finish m c stBAD_FIELD [] s
      else finish m c stNOT_SLOT_MASTER [] s) := by
  rw [exec, execEpochSet, onTray_of_runs htray, onRunning_of_runs hruns]
  dsimp only
  rw [hzero, Bool.not_true, if_neg Bool.false_ne_true]
  cases s.grandmasterMember with
  | false => rw [Bool.not_false, if_pos rfl, if_neg Bool.false_ne_true, fail]
  | true =>
    rw [Bool.not_true, if_neg Bool.false_ne_true, if_pos rfl]
    cases epochNsOk (fld c.payload 8 4) with
    | false => rw [Bool.not_false, if_pos rfl, if_neg Bool.false_ne_true, fail]
    | true => rw [Bool.not_true, if_neg Bool.false_ne_true, if_pos rfl]

theorem exec_stopArm_malformed (htray : s.runsAs .tray = true) (hruns : s.runs m 0x0406 c)
    (hzero : unnamedZero c.payload [(0, 16)] = true) (hbad : (ITime.ofBytes c.payload).malformed = true) :
    exec (.stopArm m) s = .next (finish m c stBAD_TIME [] s) := by
  rw [exec, execStopArm, onTray_of_runs htray, onRunning_of_runs hruns]
  dsimp only
  rw [hzero, hbad, Bool.not_true, if_neg Bool.false_ne_true, if_pos rfl, fail]

theorem exec_stopArm {k : Nat} (htray : s.runsAs .tray = true) (hruns : s.runs m 0x0406 c)
    (hzero : unnamedZero c.payload [(0, 16)] = true) (hok : (ITime.ofBytes c.payload).malformed = false)
    (hepoch : s.epochAt (ITime.ofBytes c.payload).toTicks = some k) : exec (.stopArm m) s = .next
      (twoPhase m c kindStop true k (ITime.ofBytes c.payload).toBits 0 (s.genOf 0) 0 0 s) := by
  rw [exec, execStopArm, onTray_of_runs htray, onRunning_of_runs hruns]
  dsimp only
  rw [hzero, hok, Bool.not_true, if_neg Bool.false_ne_true, if_neg Bool.false_ne_true, hepoch]

theorem exec_stopRelease (hleaf : s.runsAs .leaf = true) (hruns : s.runs m 0x0407 c)
    (hzero : unnamedZero c.payload [(0, 16)] = true) (hok : (ITime.ofBytes c.payload).malformed = false) :
    exec (.stopRelease m) s = .next
      (finish m c stOK (le 1 (phaseCode s.stop.phase)) (nameRelease (ITime.ofBytes c.payload).toTicks s)) := by
  rw [exec, execStopRelease, onLeaf_of_runs hleaf, onRunning_of_runs hruns]
  dsimp only
  rw [hzero, hok, Bool.not_true, if_neg Bool.false_ne_true, if_neg Bool.false_ne_true, done]

end Commands

/-- A release time of a stop in progress is named, and is late where it has passed (R241). -/
theorem nameRelease_spec (t : Ticks) (s : State) : ∃ stop sticky raised,
    nameRelease t s = { s with stop := stop, sticky := sticky, raisedNow := raised } ∧
    (s.stopActive = true → stop = { s.stop with release := some t }) ∧ (s.stopActive = false → stop = s.stop) ∧
    sticky = if s.stopActive = true ∧ t < s.now then { s.sticky with trc := orBit s.sticky.trc 26 } else s.sticky := by
  rw [nameRelease]
  cases hactive : s.stopActive with
  | false => exact ⟨s.stop, s.sticky, s.raisedNow, rfl, fun h => (nomatch h), fun _ => rfl, rfl⟩
  | true =>
    rw [if_pos rfl]
    by_cases hlate : t < s.now
    · exact ⟨_, _, _, if_pos hlate, fun _ => rfl, fun h => (nomatch h), (if_pos ⟨rfl, hlate⟩).symm⟩
    · exact ⟨_, s.sticky, s.raisedNow, if_neg hlate, fun _ => rfl, fun h => (nomatch h), (if_neg fun h => hlate h.2).symm⟩

/-! ## The statement -/

/-- Settles O55. Both arms are one two-phase change that its originator accepts; the release is one write of the stop's state. -/
theorem timeAndStopCommands : Obligations.TimeAndStopCommands := by
  refine ⟨fun s m c htray hruns hzero hmaster hns hsoon haccept => ?_,
    fun s m c htray hruns hzero => ⟨fun hmaster => ?_, fun hmaster hns hsoon => ?_⟩,
    fun s m c t k htray hruns hzero ht hok hepoch hsoon haccept => ?_,
    fun s m c htray hruns hzero hbad => exec_stopArm_malformed htray hruns hzero hbad,
    fun s m c t hleaf hruns hzero ht hok => ?_⟩
  · obtain ⟨x, hm, -, -⟩ := id hruns
    rw [exec_epochSet htray hruns hzero, hmaster, hns, if_pos rfl, if_pos rfl, twoPhase_of_time hsoon]
    exact ⟨_, rfl, (issueArm_armedFor ((runsAs_iff s .tray).mp htray).1 hm haccept).1⟩
  · rw [exec_epochSet htray hruns hzero, hmaster, if_neg Bool.false_ne_true]
  · rw [exec_epochSet htray hruns hzero, hmaster, hns, if_pos rfl, if_pos rfl, twoPhase_of_soon hsoon]
  · subst ht
    obtain ⟨x, hm, -, -⟩ := id hruns
    rw [exec_stopArm htray hruns hzero hok hepoch, twoPhase_of_time hsoon]
    exact ⟨_, rfl, (issueArm_armedFor ((runsAs_iff s .tray).mp htray).1 hm haccept).1⟩
  · subst ht
    obtain ⟨stop, sticky, raised, hname, hon, hoff, hsticky⟩ := nameRelease_spec (ITime.ofBytes c.payload).toTicks s
    have hexec := exec_stopRelease hleaf hruns hzero hok
    rw [hname] at hexec
    have honly := finish_mbxOnly m c stOK (le 1 (phaseCode s.stop.phase))
      { s with stop := stop, sticky := sticky, raisedNow := raised }
    generalize hu : finish m c stOK (le 1 (phaseCode s.stop.phase)) _ = u at hexec honly
    obtain ⟨_, _, _, _, heq, -⟩ := honly
    have hstop : u.stop = stop := by rw [heq]
    have hstick : u.sticky = sticky := by rw [heq]
    have hraised : u.raisedNow = raised := by rw [heq]
    refine ⟨u, hexec, fun h => hstop.trans (hon h), fun h => hstop.trans (hoff h), hstick.trans hsticky, ?_⟩
    rw [hstop, hstick, hraised, hu]

end Sys2Proof.Machine

end


section
/-!
PROOFS. The leaf's capture, trace, watch and resume commands (16 R435).
-/

namespace Sys2Proof.Machine

/-! ## Fields of a payload -/

theorem unle_lt (b : Bytes) : unle b < 256 ^ b.length := by
  induction b with
  | nil => exact Nat.one_pos
  | cons x b ih =>
    have hx := x.isLt
    rw [unle, List.length_cons, Nat.pow_succ']
    omega

/-- A field of 4 bytes fits a word. -/
theorem toNat_ofNat_fld (p : Bytes) (o : Nat) : (BitVec.ofNat 32 (fld p o 4)).toNat = fld p o 4 := by
  have hlt := unle_lt (slice p o 4)
  rw [slice_length] at hlt
  exact BitVec.toNat_ofNat .. |>.trans (Nat.mod_eq_of_lt hlt)

/-! ## SAMPLE_SET and CNT_READ -/

section Sample
variable {s : State} {m : Nat} {c : Cmd} (hleaf : s.runsAs .leaf = true)
include hleaf

theorem exec_sampleSet_refused {e : Nat} (hruns : s.runs m 0x0301 c) (hcheck : sampleCheck (mbxCtx m) c.payload s = some e) :
    exec (.sampleSet m) s = .next (finish m c e [] s) := by
  rw [exec, execSampleSet, onLeaf_of_runs hleaf, onRunning_of_runs hruns]
  dsimp only
  rw [hcheck]
  dsimp only
  rw [fail]

/-- The interval plan that a SAMPLE_SET names. -/
def State.namedPlan (s : State) (m : Nat) (c : Cmd) : IntPlan :=
  ⟨mbxCtx m, s.genOf (mbxCtx m), fld c.payload 0 1, sampleSel c.payload, (0, 0)⟩

omit hleaf in
/-- A SHORT boundary command without a twin's part completes with the boundary that it names (16 R428). -/
theorem bndDone_short (m : Nat) (c : Cmd) (a : Bnd) (s : State) : bndDone m c true false a [] [] s =
    finish m c stOK (le 8 (s.namedBoundary c false)) { s with stw := { s.stw with
      bnd := s.stw.bnd ++ [⟨s.namedBoundary c false, a, true, c.turn⟩] } } := by
  rw [bndDone, bndAt, List.append_nil]
  rfl

theorem exec_sampleSet (hruns : s.runs m 0x0301 c) (hcheck : sampleCheck (mbxCtx m) c.payload s = none) :
    exec (.sampleSet m) s = .next (bndDone m c true false
      (.sample (mbxCtx m) (if fld c.payload 0 1 = 0 then none else some (s.namedPlan m c))) [] [] s) := by
  rw [exec, execSampleSet, onLeaf_of_runs hleaf, onRunning_of_runs hruns]
  dsimp only
  rw [hcheck]
  rfl

theorem exec_cntRead {st : Stook} (hruns : s.runs m 0x0302 c) (hzero : unnamedZero c.payload [(0, 2)] = true)
    (hst : s.stook? (fld c.payload 0 2 / 256) = some st) (hlt : fld c.payload 0 2 % 256 < st.obs.length) :
    exec (.cntRead m) s = .next (if s.stookOwner st = mbxCtx m then
      finish m c stOK (s.cntResult st (fld c.payload 0 2 % 256)) s else finish m c stNOT_OWNER [] s) := by
  rw [exec, execCntRead, onLeaf_of_runs hleaf, onRunning_of_runs hruns]
  dsimp only
  rw [hzero, Bool.not_true, if_neg Bool.false_ne_true, hst]
  dsimp only
  rw [if_neg (Nat.not_le.mpr hlt), fail, done]
  by_cases hown : s.stookOwner st = mbxCtx m
  · rw [if_pos hown, if_neg (by rw [hown, bne_self_eq_false]; exact Bool.false_ne_true)]
  · rw [if_neg hown, if_pos (bne_iff_ne.mpr hown)]

/-! ## TRACE_SET and the watch -/

/-- The cores that a TRACE_SET lists. -/
def listedCores (c : Cmd) : List Nat := (List.range 256).filter fun i => bit (fld c.payload 0 32) i

theorem exec_traceSet (hruns : s.runs m 0x0401 c) (hzero : unnamedZero c.payload [(0, 34)] = true)
    (hdiv : fld c.payload 32 2 ≤ 4096) (hown : ∀ i, i < 256 → bit (fld c.payload 0 32) i = true → s.coreOwner i = mbxCtx m) :
    exec (.traceSet m) s = .next (finish m c stOK [] (s.onShareTrc (mbxCtx m) fun x => { x with
      pendingSet := some (if fld c.payload 32 2 = 0 then [] else listedCores c, fld c.payload 32 2) })) := by
  have hall : (listedCores c).all (fun i => s.coreOwner i == mbxCtx m) = true := by
    refine List.all_eq_true.mpr fun i hi => ?_
    obtain ⟨hrange, hbit⟩ := List.mem_filter.mp hi
    exact beq_iff_eq.mpr (hown i (List.mem_range.mp hrange) hbit)
  rw [exec, execTraceSet, onLeaf_of_runs hleaf, onRunning_of_runs hruns]
  dsimp only
  rw [hzero, Bool.not_true, Bool.false_or, if_neg (by rw [decide_eq_true_eq]; omega), ← listedCores, hall, Bool.not_true,
    if_neg Bool.false_ne_true, done]

theorem exec_watchFeedSet {f : Nat} (hruns : s.runs m 0x0402 c) (hzero : unnamedZero c.payload [(0, 10), (16, 8)] = true)
    (hf : f = fld c.payload 8 2) (hok : f = 0 ∨ (powerIn f 64 4096 = true ∧ fld c.payload 16 8 ≠ 0 ∧
      fld c.payload 0 8 % 64 = 0 ∧ s.inWindow (mbxCtx m) (fld c.payload 0 8) (64 * f) = true)) :
    exec (.watchFeedSet m) s = .next (finish m c stOK [] (s.onWatch (mbxCtx m) fun w => { w with
      nextFeed := if f = 0 then some (0, 0, 0) else some (fld c.payload 0 8, f, fld c.payload 16 8) })) := by
  rw [exec, execWatchFeedSet, onLeaf_of_runs hleaf, onRunning_of_runs hruns]
  dsimp only
  rw [hzero, Bool.not_true, if_neg Bool.false_ne_true, ← hf]
  by_cases hzero : f = 0
  · simp only [if_pos hzero, done]
  · obtain ⟨hpower, hdseq, halign, hin⟩ := hok.resolve_left hzero
    have hno : ¬(!powerIn f 64 4096 || decide (fld c.payload 16 8 = 0) || fld c.payload 0 8 % 64 != 0) = true := by
      rw [hpower, decide_eq_false hdseq, halign]
      exact Bool.false_ne_true
    simp only [if_neg hzero]
    rw [if_neg hno, hin, Bool.not_true, if_neg Bool.false_ne_true, done]

/-- The entry that a WATCH_SET brings (08 R231). -/
def watchEntryOf (p : Bytes) : WatchEntry :=
  { idx := fld p 0 1, tensor := BitVec.ofNat 32 (fld p 4 4), step0 := fld p 8 8, stride := fld p 16 8, count := fld p 24 2
    off := fld p 28 4, dlen := fld p 32 4 }

theorem exec_watchSet (hruns : s.runs m 0x0403 c) (hzero : unnamedZero c.payload [(0, 1), (4, 22), (28, 8)] = true)
    (hidx : fld c.payload 0 1 < 64 / max 1 s.cfg.shareCount) (hcount : fld c.payload 24 2 ≠ 0) (hoff : fld c.payload 28 4 % 64 = 0)
    (hlen : fld c.payload 32 4 % 64 = 0) : exec (.watchSet m) s = .next (finish m c stOK [] (s.onWatch (mbxCtx m) fun w => { w with
      entries := sortBy (·.idx) (putBack (·.idx == fld c.payload 0 1) (watchEntryOf c.payload) w.entries) })) := by
  have hno : ¬(!unnamedZero c.payload [(0, 1), (4, 22), (28, 8)] || decide (64 / max 1 s.cfg.shareCount ≤ fld c.payload 0 1) ||
      decide (fld c.payload 24 2 = 0) || fld c.payload 28 4 % 64 != 0 || fld c.payload 32 4 % 64 != 0) = true := by
    rw [hzero, decide_eq_false (Nat.not_le.mpr hidx), decide_eq_false hcount, hoff, hlen]
    exact Bool.false_ne_true
  rw [exec, execWatchSet, onLeaf_of_runs hleaf, onRunning_of_runs hruns]
  dsimp only
  rw [if_neg hno, done]
  rfl

theorem exec_watchClear (hruns : s.runs m 0x0404 c) (hzero : unnamedZero c.payload [(0, 8)] = true) :
    exec (.watchClear m) s = .next (finish m c stOK [] (s.onWatch (mbxCtx m) fun w => { w with
      entries := w.entries.filter fun e => !bit (fld c.payload 0 8) e.idx })) := by
  rw [exec, execWatchClear, onLeaf_of_runs hleaf, onRunning_of_runs hruns]
  dsimp only
  rw [hzero, Bool.not_true, if_neg Bool.false_ne_true, done]

omit hleaf in
/-- A completion after a change of the watch (R413). -/
theorem finish_onWatch {ctx : Nat} {f : ShareWatch → ShareWatch} {w : ShareWatch} (hf : ∀ x, (f x).ctx = x.ctx)
    (hw : s.watch? ctx = some w) (m : Nat) (c : Cmd) :
    (finish m c stOK [] (s.onWatch ctx f)).watch? ctx = some (f w) ∧ finish m c stOK [] (s.onWatch ctx f) =
      finish m c stOK [] { s with watch := (finish m c stOK [] (s.onWatch ctx f)).watch } := by
  have honly := finish_mbxOnly m c stOK [] (s.onWatch ctx f)
  have hwatch : (finish m c stOK [] (s.onWatch ctx f)).watch = (s.onWatch ctx f).watch := by
    obtain ⟨_, _, _, _, heq, -⟩ := honly
    rw [heq]
  refine ⟨?_, by rw [hwatch]; rfl⟩
  rw [State.watch?, hwatch, ← State.watch?]
  exact watch?_onWatch (f := f) hf hw

/-! ## BRK_RESUME -/

theorem exec_brkResume_pending (hruns : s.runs m 0x0405 c) (hzero : unnamedZero c.payload [(0, 1)] = true)
    (hpending : s.drainPending (fld c.payload 0 1) = true) : exec (.brkResume m) s = .next (finish m c stDRAIN_PENDING [] s) := by
  rw [exec, execBrkResume, onLeaf_of_runs hleaf, onRunning_of_runs hruns]
  dsimp only
  rw [hzero, Bool.not_true, if_neg Bool.false_ne_true, hpending, if_pos rfl, fail]

theorem exec_brkResume (hruns : s.runs m 0x0405 c) (hzero : unnamedZero c.payload [(0, 1)] = true)
    (hpending : s.drainPending (fld c.payload 0 1) = false) (hown : s.resumeOwner (fld c.payload 0 1) = mbxCtx m) :
    exec (.brkResume m) s = .next (wait m c (.resume (fld c.payload 0 1))
      { s with brk := { s.brk with resumes := s.brk.resumes ++ [(fld c.payload 0 1, mbxCtx m)] } }) := by
  rw [exec, execBrkResume, onLeaf_of_runs hleaf, onRunning_of_runs hruns]
  dsimp only
  rw [hzero, Bool.not_true, if_neg Bool.false_ne_true, hpending, if_neg Bool.false_ne_true, hown, bne_self_eq_false,
    if_neg Bool.false_ne_true]

end Sample

/-! ## The statement -/

/-- Settles O56. Each command changes one entry of its own share and completes, or waits for the resume of its core. -/
theorem captureTraceAndWatchCommands : Obligations.CaptureTraceAndWatchCommands := by
  refine ⟨fun s m c hleaf hruns hcheck => ?_, fun s m c e hleaf hruns hcheck => exec_sampleSet_refused hleaf hruns hcheck,
    fun s m c st hleaf hruns hzero hst hlt => exec_cntRead hleaf hruns hzero hst hlt,
    fun s m c x hleaf hruns hzero hdiv hown hx => ?_, fun s m c w f hleaf hruns hzero hw hf hok => ?_,
    fun s m c w hleaf hruns hzero hidx hcount hoff hlen hw => ?_, fun s m c w hleaf hruns hzero hw => ?_,
    fun s m c core hleaf hruns hzero hcore hpending hown => ?_,
    fun s m c hleaf hruns hzero hpending => exec_brkResume_pending hleaf hruns hzero hpending⟩
  · exact (exec_sampleSet hleaf hruns hcheck).trans (congrArg _ (bndDone_short m c _ s))
  · let f : ShareTrc → ShareTrc := fun x => { x with
      pendingSet := some (if fld c.payload 32 2 = 0 then [] else listedCores c, fld c.payload 32 2) }
    have hshare := trcShare_onShareTrc f (fun _ => rfl) s (mbxCtx m)
    rw [hx] at hshare
    have htrc : (finish m c stOK [] (s.onShareTrc (mbxCtx m) f)).trc = (s.onShareTrc (mbxCtx m) f).trc := by
      obtain ⟨_, _, _, _, heq, -⟩ := finish_mbxOnly m c stOK [] (s.onShareTrc (mbxCtx m) f)
      rw [heq]
    refine ⟨_, f x, exec_traceSet hleaf hruns hzero hdiv hown, ?_, rfl, fun l hl => ?_, rfl, ?_⟩
    · rw [htrc]
      exact hshare
    · obtain rfl := Option.some.inj hl
      refine ⟨rfl, fun i => ?_⟩
      dsimp only
      by_cases hz : fld c.payload 32 2 = 0
      · rw [if_pos hz]
        exact ⟨fun h => (nomatch h), fun h => absurd hz h.1⟩
      · rw [if_neg hz, listedCores, List.mem_filter, List.mem_range]
        exact ⟨fun h => ⟨hz, h⟩, fun h => h.2⟩
    · rw [htrc]
      rfl
  · obtain ⟨hwatch, hframe⟩ := finish_onWatch (f := fun w => { w with
      nextFeed := if f = 0 then some (0, 0, 0) else some (fld c.payload 0 8, f, fld c.payload 16 8) }) (fun _ => rfl) hw m c
    exact ⟨_, exec_watchFeedSet hleaf hruns hzero hf hok, hwatch, hframe⟩
  · obtain ⟨hwatch, hframe⟩ := finish_onWatch (f := fun w => { w with
      entries := sortBy (·.idx) (putBack (·.idx == fld c.payload 0 1) (watchEntryOf c.payload) w.entries) }) (fun _ => rfl) hw m c
    refine ⟨_, _, watchEntryOf c.payload, exec_watchSet hleaf hruns hzero hidx hcount hoff hlen, hwatch, ?_, rfl,
      toNat_ofNat_fld c.payload 4, rfl, rfl, rfl, rfl, rfl, fun e' he' => ?_, rfl, hframe⟩
    · exact mem_sortBy.mpr (List.mem_append_right _ List.mem_cons_self)
    · dsimp only
      rw [mem_sortBy, putBack, List.mem_append, List.mem_filter, List.mem_singleton, Bool.not_eq_true', beq_eq_false_iff_ne]
      exact ⟨fun h => h.resolve_right he', fun h => .inl h⟩
  · obtain ⟨hwatch, hframe⟩ := finish_onWatch (f := fun w => { w with
      entries := w.entries.filter fun e => !bit (fld c.payload 0 8) e.idx }) (fun _ => rfl) hw m c
    exact ⟨_, exec_watchClear hleaf hruns hzero, hwatch, hframe⟩
  · subst hcore
    obtain ⟨x, hm, -, -⟩ := id hruns
    let t : State := { s with brk := { s.brk with resumes := s.brk.resumes ++ [(fld c.payload 0 1, mbxCtx m)] } }
    have hm' : t.mbx? m = some x := (mbx?_of_mbxs rfl m).trans hm
    obtain ⟨upd, hbox⟩ := wait_mbx? (c := c) hm' (.resume (fld c.payload 0 1))
    have honly := wait_mbxOnly m c (.resume (fld c.payload 0 1)) t
    have hexec := exec_brkResume hleaf hruns hzero hpending hown
    generalize wait m c (.resume (fld c.payload 0 1)) _ = u at hexec hbox honly
    obtain ⟨_, _, lanes, _, rfl, hlanes⟩ := honly
    obtain rfl : lanes = s.lanes := hlanes ((runsAs_iff s .leaf).mp hleaf).1
    exact ⟨_, hexec, ⟨x, _, hm, hbox, rfl, rfl⟩, rfl, rfl⟩

end Sys2Proof.Machine

end


section
/-!
PROOFS. Context commands (16 R439): the set-up table and the arm of CTX_OPEN and CTX_CLOSE, and CTX_RESET.
-/

namespace Sys2Proof.Machine

/-! ## The arm of a context command -/

section Arm
variable {m : Nat} {c : Cmd} {kind : Nat} {aon flag : Bool} {setup : BitVec 64} {s : State} {x : Mbx}

theorem issueArm_of_refused {epochT : Nat} {arg : BitVec 128} {ctx : Nat} {gen : BitVec 16} {arg2 : BitVec 32}
    (hno : s.answerArm (s.cmdArm m kind aon epochT arg ctx gen arg2) ≠ .accept) :
    issueArm m c kind aon epochT arg ctx gen arg2 setup s =
      finish m c stCANCELLED (phaseResult 0 epochT 2 2 0 setup) s := by
  unfold issueArm
  split
  · next h => exact absurd h hno
  · rfl

theorem MbxOnly.armOnly {s t : State} (h : MbxOnly s t) : ArmOnly s t := by
  obtain ⟨_, _, _, _, rfl, -⟩ := h
  exact ⟨_, _, _, _, _, rfl⟩

/-- Accepted or not, an arm changes the reduction and the mailbox at most (R429). -/
theorem issueArm_armOnly (htray : s.profile = .tray) (hm : s.mbx? m = some x) (epochT : Nat) (arg : BitVec 128) (ctx : Nat)
    (gen : BitVec 16) (arg2 : BitVec 32) : ArmOnly s (issueArm m c kind aon epochT arg ctx gen arg2 setup s) ∧
      ∃ y, (issueArm m c kind aon epochT arg ctx gen arg2 setup s).mbx? m = some y := by
  by_cases haccept : s.answerArm (s.cmdArm m kind aon epochT arg ctx gen arg2) = .accept
  · obtain ⟨harmed, honly⟩ := issueArm_armedFor (c := c) (setup := setup) htray hm haccept
    obtain ⟨_, _, _, y, -, -, -, -, -, -, hbox, -⟩ := harmed
    exact ⟨honly, y, hbox⟩
  · rw [issueArm_of_refused haccept]
    obtain ⟨upd, hbox⟩ := finish_mbx? (c := c) hm stCANCELLED (phaseResult 0 epochT 2 2 0 setup)
    exact ⟨(finish_mbxOnly m c stCANCELLED (phaseResult 0 epochT 2 2 0 setup) s).armOnly, _, hbox⟩

theorem armCtx_armOnly (htray : s.profile = .tray) (hm : s.mbx? m = some x) :
    ArmOnly s (armCtx m c kind aon flag setup s) ∧ ∃ y, (armCtx m c kind aon flag setup s).mbx? m = some y := by
  unfold armCtx
  dsimp only
  refine iteInduction (motive := fun u => ArmOnly s u ∧ ∃ y, u.mbx? m = some y) (fun _ => ?_) (fun _ => ?_)
  · exact ⟨(onMbx_mbxOnly s m _).armOnly, _, mbx?_onMbx_same (f := fun x => { x with running := some { c with
      result := phaseResult 0 (fld c.payload 16 8) 0xFF 0 0 setup } }) (fun _ => rfl) hm⟩
  · exact issueArm_armOnly htray hm _ _ _ _ _

/-- With set-up messages still queued and time left, the command runs on with its SETUP_ID (R386). -/
theorem armCtx_queued {t : Ticks} (hqueued : s.setupQueued = true) (ht : armAt kind (fld c.payload 16 8) 0 s = some t)
    (hleft : s.now + nsT (4 * s.cfg.epochNs) < t) : armCtx m c kind aon flag setup s =
      s.onMbx m fun x => { x with running := some { c with result := phaseResult 0 (fld c.payload 16 8) 0xFF 0 0 setup } } := by
  unfold armCtx
  dsimp only
  rw [ht]
  dsimp only
  rw [if_pos]
  rw [hqueued, decide_eq_false (Nat.not_le.mpr hleft)]
  rfl

/-- With none queued the change is armed (R386). -/
theorem armCtx_sent (hqueued : s.setupQueued = false) : armCtx m c kind aon flag setup s =
    issueArm m c kind aon (fld c.payload 16 8) (BitVec.ofNat 128 (setup.toNat + b2n flag * 2 ^ 64)) (fld c.payload 0 1)
      (BitVec.ofNat 16 (fld c.payload 2 2)) (BitVec.ofNat 32 (fld c.payload 4 4)) setup s := by
  unfold armCtx
  dsimp only
  rw [hqueued, Bool.false_and, if_neg Bool.false_ne_true]

end Arm

/-! ## CTX_OPEN and CTX_CLOSE -/

theorem relay_of_not_relays {s : State} (h : s.relays = false) (n : Nat) (c : Cmd) (b : Nat) (image : Bytes) :
    relay n c b image s = s := by
  unfold relay
  split
  · rw [h, if_neg Bool.false_ne_true]
  · rfl

/-- A set-up of 8 bytes in a result reads back. -/
theorem toNat_ofNat_fld_8 (p : Bytes) (o : Nat) : (BitVec.ofNat 64 (fld p o 8)).toNat = fld p o 8 := by
  have hlt := unle_lt (slice p o 8)
  rw [slice_length] at hlt
  exact BitVec.toNat_ofNat .. |>.trans (Nat.mod_eq_of_lt hlt)

section Context
variable {s : State} {m : Nat} {c : Cmd}

/-- The set-up that a CTX_OPEN names (R384). -/
def State.openSetup (s : State) (c : Cmd) : Setup := setupOfCmd c.payload (fld c.payload 1 1) s.newSetupId s

/-- What a CTX_OPEN does with its table before it arms the change. -/
def State.withSetup (s : State) (m : Nat) (c : Cmd) : State :=
  relay m c 0 (setupImage s.newSetupId c.payload s) (takeSetup (s.openSetup c) s)

section Open
variable (htray : s.runsAs .tray = true) (hruns : s.runs m 0x0A01 c)
include htray hruns

theorem exec_ctxOpen_first (hfirst : c.result = []) : exec (.ctxOpen m) s = .next (checked m c (openCheck c s) (fun s =>
    armCtx m c kindCtxStart (bit (fld c.payload 1 1) 0) (bit (fld c.payload 1 1) 1) s.newSetupId (s.withSetup m c)) s) := by
  rw [exec, execCtxOpen, onTray_of_runs htray, onRunning_of_runs hruns]
  dsimp only
  rw [hfirst, List.isEmpty_nil, if_pos rfl]
  rfl

theorem exec_ctxOpen_again (hagain : c.result ≠ []) : exec (.ctxOpen m) s = .next
    (armCtx m c kindCtxStart (bit (fld c.payload 1 1) 0) (bit (fld c.payload 1 1) 1) (BitVec.ofNat 64 (fld c.result 24 8)) s) := by
  rw [exec, execCtxOpen, onTray_of_runs htray, onRunning_of_runs hruns]
  dsimp only
  rw [if_neg (mt List.isEmpty_iff.mp hagain)]

end Open

/-- The table is held and on its way, and nothing else has changed. -/
theorem withSetup_spec (htray : s.profile = .tray) (m : Nat) (c : Cmd) : Only [.lanes, .setups] s (s.withSetup m c) ∧
    ∃ t ∈ (s.withSetup m c).setups, t.setupId = s.newSetupId ∧ t.ctx = fld c.payload 0 1 ∧
      t.gen = BitVec.ofNat 16 (fld c.payload 2 2) ∧ ∀ y ∈ (setupTable c.payload s).map readSetupEntry, y ∈ t.entries := by
  obtain ⟨t, ht, hid, hctx, hgen, hentries⟩ := takeSetup_holds (s.openSetup c) s
  have hrelay : Only [.lanes] (takeSetup (s.openSetup c) s) (s.withSetup m c) := relay_only
  have hsetups : (s.withSetup m c).setups = (takeSetup (s.openSetup c) s).setups := hrelay.same .setups rfl
  refine ⟨Only.step hrelay rfl (takeSetup_only.mono rfl), t, ?_, hid, hctx, hgen,
    fun y hy => hentries y hy (.inl ((isTray_iff s).mpr htray))⟩
  rw [hsetups]
  exact ht

section Close
variable (htray : s.runsAs .tray = true) (hruns : s.runs m 0x0A02 c) (hfirst : c.result = [])
include htray hruns hfirst

theorem exec_ctxClose_refused {e : Nat} (hcheck : closeCheck c s = some e) : exec (.ctxClose m) s = .next (finish m c e [] s) := by
  rw [exec, execCtxClose, onTray_of_runs htray, onRunning_of_runs hruns]
  dsimp only
  rw [hfirst, List.isEmpty_nil, if_pos rfl, hcheck, checked, fail]

theorem exec_ctxClose (hcheck : closeCheck c s = none) (hwhole : bit (fld c.payload 1 1) 0 = false) (hrelays : s.relays = false) :
    exec (.ctxClose m) s = .next (armCtx m c kindCtxEnd false false 0 s) := by
  rw [exec, execCtxClose, onTray_of_runs htray, onRunning_of_runs hruns]
  dsimp only
  rw [hfirst, List.isEmpty_nil, if_pos rfl, hcheck, checked]
  simp only [hwhole, if_neg Bool.false_ne_true]
  rw [relay_of_not_relays hrelays]

end Close

/-! ## CTX_RESET -/

section Reset
variable (hruns : s.runs m 0x0A03 c) (hzero : unnamedZero c.payload [(0, 1), (2, 2)] = true)
include hruns hzero

theorem exec_ctxReset_other (hgen : s.heldGen (fld c.payload 0 1) ≠ some (BitVec.ofNat 16 (fld c.payload 2 2))) :
    exec (.ctxReset m) s = .next (finish m c stBAD_CTX [] s) := by
  rw [exec, execCtxReset, onRunning_of_runs hruns]
  dsimp only
  rw [hzero, Bool.not_true, if_neg Bool.false_ne_true, if_pos, fail]
  rw [bne_iff_ne.mpr hgen, Bool.or_true]

theorem exec_ctxReset (hid : fld c.payload 0 1 ≠ 0)
    (hgen : s.heldGen (fld c.payload 0 1) = some (BitVec.ofNat 16 (fld c.payload 2 2))) : exec (.ctxReset m) s = .next
      (finish m c stOK [] (contextReset (fld c.payload 0 1) (BitVec.ofNat 16 (fld c.payload 2 2)) s)) := by
  rw [exec, execCtxReset, onRunning_of_runs hruns]
  dsimp only
  rw [hzero, Bool.not_true, if_neg Bool.false_ne_true, if_neg, done]
  rw [beq_eq_false_iff_ne.mpr hid, hgen, bne_self_eq_false]
  exact Bool.false_ne_true

end Reset

/-- What a completion leaves of the contexts and what they hold (R413). -/
theorem finish_ctxs (m : Nat) (c : Cmd) (status : Nat) (result : Bytes) (s : State) :
    (finish m c status result s).ctxs = s.ctxs ∧ (finish m c status result s).mem = s.mem ∧
      (finish m c status result s).red = s.red ∧ (finish m c status result s).stw.bnd = s.stw.bnd := by
  have honly := finish_mbxOnly m c status result s
  generalize finish m c status result s = u at honly
  obtain ⟨_, _, _, _, rfl, -⟩ := honly
  exact ⟨rfl, rfl, rfl, rfl⟩

theorem ctx?_of_ctxs {s t : State} (h : t.ctxs = s.ctxs) (d : Nat) : t.ctx? d = s.ctx? d := by rw [State.ctx?, State.ctx?, h]

end Context

/-! ## The statement -/

/-- Settles O60. An open or close is its checks, its set-up table and one two-phase change; a context reset is the removal of the
context's work, and one completion. -/
theorem contextCommands : Obligations.ContextCommands := by
  refine ⟨fun s m c e htray hruns hfirst hcheck => ?_, fun s m c htray hruns hfirst hcheck => ?_,
    fun s m c htray hruns hagain hqueued hleft => ?_, fun s m c htray hruns hagain hqueued haccept => ?_,
    fun s m c e htray hruns hfirst hcheck => exec_ctxClose_refused htray hruns hfirst hcheck,
    fun s m c htray hrelays hruns hfirst hcheck hqueued hwhole haccept => ?_,
    fun s m c id g hruns hzero hid hid0 hg hgen => ?_,
    fun s m c hruns hzero hgen => exec_ctxReset_other hruns hzero hgen⟩
  · rw [exec_ctxOpen_first htray hruns hfirst, hcheck, checked, fail]
  · have hprofile := ((runsAs_iff s .tray).mp htray).1
    obtain ⟨x, hm, -, -⟩ := id hruns
    obtain ⟨honly, t, ht, hid, hctx, hgen, hentries⟩ := withSetup_spec hprofile m c
    have hstw : (s.withSetup m c).stw = s.stw := honly.same .stw rfl
    have hctxs : (s.withSetup m c).ctxs = s.ctxs := honly.same .ctxs rfl
    have hmem : (s.withSetup m c).mem = s.mem := honly.same .mem rfl
    have hprofile' : (s.withSetup m c).profile = .tray := Eq.trans (honly.same .profile rfl) hprofile
    rw [exec_ctxOpen_first htray hruns hfirst, hcheck, checked]
    generalize s.withSetup m c = s₁ at ht hstw hctxs hmem hprofile'
    obtain ⟨harm, y, hbox⟩ := armCtx_armOnly (c := c) (kind := kindCtxStart) (aon := bit (fld c.payload 1 1) 0)
      (flag := bit (fld c.payload 1 1) 1) (setup := s.newSetupId) hprofile'
      ((mbx?_of_mbxs (congrArg StwSt.mbxs hstw) m).trans hm)
    generalize armCtx m c kindCtxStart _ _ _ s₁ = u at harm hbox ⊢
    obtain ⟨_, _, _, _, _, rfl⟩ := harm
    exact ⟨_, y, rfl, hbox, hctxs, hmem, t, ht, hid, hctx, hgen, hentries⟩
  · obtain ⟨t, ht, hbefore⟩ := hleft
    obtain ⟨x, hm, -, -⟩ := id hruns
    have harmAt : armAt kindCtxStart (fld c.payload 16 8) 0 s = some t := ht
    rw [exec_ctxOpen_again htray hruns hagain, armCtx_queued hqueued harmAt hbefore]
    exact ⟨_, _, rfl, mbx?_onMbx_same (f := fun x => { x with running := some { c with
      result := phaseResult 0 (fld c.payload 16 8) 0xFF 0 0 (BitVec.ofNat 64 (fld c.result 24 8)) } }) (fun _ => rfl) hm, rfl, rfl⟩
  · obtain ⟨x, hm, -, -⟩ := id hruns
    rw [exec_ctxOpen_again htray hruns hagain, armCtx_sent hqueued, toNat_ofNat_fld_8]
    exact ⟨_, rfl, (issueArm_armedFor ((runsAs_iff s .tray).mp htray).1 hm haccept).1⟩
  · obtain ⟨x, hm, -, -⟩ := id hruns
    have harg : BitVec.ofNat 128 ((0 : BitVec 64).toNat + b2n false * 2 ^ 64) = 0 := by decide
    rw [exec_ctxClose htray hruns hfirst hcheck hwhole hrelays, armCtx_sent hqueued, harg]
    obtain ⟨harmed, honly⟩ := issueArm_armedFor (c := c) (setup := 0) ((runsAs_iff s .tray).mp htray).1 hm haccept
    refine ⟨_, rfl, harmed, ?_⟩
    obtain ⟨_, _, _, _, _, heq⟩ := honly
    rw [heq]
  · subst hid hg
    obtain ⟨hlife, hothers, htables, hsheaves, hhbm, -, -, hreleased⟩ :=
      contextReset_reset (fld c.payload 0 1) (BitVec.ofNat 16 (fld c.payload 2 2)) s
    rw [exec_ctxReset hruns hzero hid0 hgen]
    obtain ⟨hctxs, hmem, hred, hbnd⟩ := finish_ctxs m c stOK []
      (contextReset (fld c.payload 0 1) (BitVec.ofNat 16 (fld c.payload 2 2)) s)
    refine ⟨_, rfl, fun y hy => hlife y ((ctx?_of_ctxs hctxs _).symm.trans hy), ?_, ?_, fun d hd => ?_, ?_, fun hleaf => ?_⟩
    · rw [hmem, htables]
    · rw [hred, hsheaves]
    · rw [ctx?_of_ctxs hctxs, hothers d hd]
    · rw [hmem, hhbm]
    · rw [hbnd]
      exact hreleased hleaf

end Sys2Proof.Machine

end
